-- ==== Sys2Proof/Word.lean ====
section
/-! DEFINITION. The word types of the AXD-4180 and the sorted key-value list that every sparse table of
the machine uses. -/

namespace Sys2Proof

/-- A 32-bit register. -/
abbrev Word := BitVec 32
/-- An instruction word, a literal, an address, a register pair. -/
abbrev Dword := BitVec 64
abbrev Byte := BitVec 8
/-- A register number v0 to v255. -/
abbrev Reg := BitVec 8

/-- A sparse table: pairs of a key and a value, keys strictly rising. -/
abbrev KMap (α : Type) := List (Nat × α)

namespace KMap

/-- The value at a key, if there is one. -/
def find {α : Type} (m : KMap α) (k : Nat) : Option α :=
  match m with
  | [] => none
  | (j, v) :: rest => if j = k then some v else find rest k

/-- Put a value at a key; the keys stay rising. -/
def put {α : Type} (m : KMap α) (k : Nat) (x : α) : KMap α :=
  match m with
  | [] => [(k, x)]
  | (j, v) :: rest =>
    if k < j then (k, x) :: (j, v) :: rest
    else if j = k then (k, x) :: rest
    else (j, v) :: put rest k x

/-- Remove a key. -/
def del {α : Type} (m : KMap α) (k : Nat) : KMap α :=
  m.filter fun p => p.1 != k

def keys {α : Type} (m : KMap α) : List Nat := m.map (·.1)

def vals {α : Type} (m : KMap α) : List α := m.map (·.2)

/-- Change the value at a key, where there is one. -/
def update {α : Type} (m : KMap α) (k : Nat) (f : α → α) : KMap α :=
  match find m k with
  | some v => put m k (f v)
  | none => m

/-- The keys rise strictly. -/
def wf {α : Type} : KMap α → Bool
  | [] => true
  | [_] => true
  | (j, _) :: (k, y) :: rest => j < k && wf ((k, y) :: rest)

end KMap

/-- The numbers `a, a+1, …, a+n-1`. -/
def natsFrom (a : Nat) : Nat → List Nat
  | 0 => []
  | n + 1 => a :: natsFrom (a + 1) n

/-- Insert into a list that `le` sorts, before the first entry it is not after. -/
def insertBy {α : Type} (le : α → α → Bool) (x : α) : List α → List α
  | [] => [x]
  | y :: ys => if le x y then x :: y :: ys else y :: insertBy le x ys

/-- A stable insertion sort. -/
def sortBy {α : Type} (le : α → α → Bool) : List α → List α
  | [] => []
  | x :: xs => insertBy le x (sortBy le xs)

/-- The list without later repeats of an entry. -/
def dedup {α : Type} [BEq α] : List α → List α
  | [] => []
  | x :: xs => x :: (dedup xs).filter (fun y => !(y == x))

/-- Replace the first entry that meets `p`. -/
def replaceFirst {α : Type} (p : α → Bool) (f : α → α) : List α → List α
  | [] => []
  | x :: xs => if p x then f x :: xs else x :: replaceFirst p f xs

/-- Map over a list with the entry's position. -/
def mapIdxFrom {α β : Type} (i : Nat) (f : Nat → α → β) : List α → List β
  | [] => []
  | x :: xs => f i x :: mapIdxFrom (i + 1) f xs

/-- The little-endian bytes of a number. -/
def leBytes (n : Nat) : Nat → List Byte
  | 0 => []
  | k + 1 => BitVec.ofNat 8 n :: leBytes (n / 256) k

/-- The number that little-endian bytes make. -/
def ofLeBytes : List Byte → Nat
  | [] => 0
  | b :: bs => b.toNat + 256 * ofLeBytes bs

/-- Bits hi down to lo of a number (R1, R6). -/
def bitsOf (x hi lo : Nat) : Nat := x / 2 ^ lo % 2 ^ (hi + 1 - lo)

/-- Bit i of a number. -/
def bitOf (x i : Nat) : Bool := x.testBit i

end Sys2Proof
end

