-- ==== Sys2Proof/Config.lean ====
section
/-! DEFINITION. What the spec leaves to the part or leaves open: the free values. Every constant of this
file is opaque: no proof can learn a value of one. -/

namespace Sys2Proof.Config

/-- The free value number n: what an undefined 32-bit value (R4) reads as. Log entry 4. -/
opaque freeWord : Nat → BitVec 32

/-- The free value that a register of a fresh granule holds (R134): by granule seed, lane and register.
Log entry 4. -/
opaque freshReg : Nat → Nat → Nat → BitVec 32

/-- Which register of a frame, as lane × 256 + register, a byte of the n units of its memory spill area holds a part of
(R198): the layout of the area is not defined; a number of 16,384 or more is none. Log entry 32. -/
opaque spillLayout : Nat → Nat → Nat

/-- Whether an ECDSA P-521 signature over a message verifies with a public key of the configuration image (R175): key,
message, r, s. Log entry 7. -/
opaque ecdsaOk : List (BitVec 8) → List (BitVec 8) → List (BitVec 8) → List (BitVec 8) → Bool

/-- Whether a firmware image, or a configuration image, verifies against the root key in ROM (R365 steps 1 and 2, R368).
Log entry 7. -/
opaque imageVerifies : List (BitVec 8) → Bool

/-- Whether a virtual function is enabled on the host link (R362). Log entry 24. -/
opaque functionEnabled : Nat → Bool

/-- The SHA-512 digest of a message, 64 bytes (R369). Log entry 7. -/
opaque sha512 : List (BitVec 8) → List (BitVec 8)

/-- The attestation signature r and s, 132 bytes, over a message (R369). Log entry 7. -/
opaque attestSign : List (BitVec 8) → List (BitVec 8)

/-- The part's serial number and silicon revision (R359). Log entry 19. -/
opaque serial : BitVec 64
opaque revision : BitVec 8

/-- The firmware image that a slot holds before command 0x13 has written it (R368, R369). Log entry 7. -/
opaque firmwareImage : Nat → List (BitVec 8)

/-- Where a loaded module's placed data stand in the global window, in units of 64 KiB, by module handle (R174).
Log entry 23. -/
opaque moduleVa : Nat → Nat

end Sys2Proof.Config
end

