-- ==== Sys2Proof/Syntax.lean ====
section
/-! DEFINITION. The instructions: one constructor of `Instr` per row of the opcode table, with its
operands taken apart. Rows that are no instruction words are events of the package; their arguments are
what the outside world or the open order of agents chooses. -/

namespace Sys2Proof

/-- The number formats of R10. -/
inductive Fmt where
  | f32 | f64 | f16 | bf16 | e4m3 | e5m2 | e3m2 | e2m3 | e2m1
  | mxe4m3 | mxe5m2 | mxe2m1 | xf4 | mxe3m2 | mxe2m3
  | i8 | i16 | i32 | i64 | n8 | n16 | n32 | n64 | i4 | f16x2 | bf16x2
  deriving DecidableEq, Repr

/-- The rounding field of R22; the reserved value 6 has no constructor. -/
inductive Rm where
  | rne | rtz | rdn | rup | rna | rst | dyn
  deriving DecidableEq, Repr

/-- The saturation field of R45. -/
inductive Sat where
  | off | on | mode
  deriving DecidableEq, Repr

/-- The `cond` field of R45. -/
inductive Cond where
  | eq | ne | lt | le | gt | ge | ord | unord
  deriving DecidableEq, Repr

/-- The special state of R48. -/
inductive Sid where
  | lane | slice | group | team | core | cluster | die | gridx | gridy | gridz | blk | depth | flags
  | mode | time | lc0 | lc1 | lc2
  deriving DecidableEq, Repr

/-- What every word carries: `b` and the member mask `m` (R34). -/
structure Hdr where
  b : Bool
  m : BitVec 8
  deriving DecidableEq, Repr

/-- Source B: a register, or a literal with its selector (R38). -/
inductive Src where
  | reg (r : Reg)
  | lit (sel : BitVec 2) (value : Dword)
  deriving DecidableEq, Repr

/-- A word of layout A (R44). -/
structure AOp where
  h : Hdr
  k : Bool
  vd : Reg
  va : Reg
  vb : Src
  vc : Reg
  fmt : Fmt
  rm : Rm
  sat : Sat
  x : Bool
  deriving DecidableEq, Repr

/-- A word of layout C (R44). -/
structure COp where
  h : Hdr
  k : Bool
  vd : Reg
  va : Reg
  vb : Src
  fmt : Fmt
  cond : Cond
  sig : Bool
  x : Bool
  deriving DecidableEq, Repr

/-- A `cvt` word: layout A with the source format in `vb` (R114). -/
structure CvtOp where
  h : Hdr
  k : Bool
  vd : Reg
  va : Reg
  vc : Reg
  src : Fmt
  fmt : Fmt
  rm : Rm
  sat : Sat
  x : Bool
  deriving DecidableEq, Repr

/-- A `cord` word, layout K (R118). -/
structure KOp where
  h : Hdr
  k : Bool
  vd : Reg
  va : Reg
  vb : Reg
  cmode : BitVec 3
  iter : BitVec 5
  deriving DecidableEq, Repr

/-- A cross-lane word, layout X (R121). -/
structure XOp where
  h : Hdr
  k : Bool
  vd : Reg
  va : Reg
  vb : Src
  fmt : Fmt
  opr : BitVec 4
  x : BitVec 2
  deriving DecidableEq, Repr

/-- An access word, layout M (R147). -/
structure MOp where
  h : Hdr
  k : Bool
  vd : Reg
  va : Reg
  vb : Src
  vc : Reg
  size : BitVec 3
  order : BitVec 2
  scope : BitVec 3
  rmt : Bool
  fe : BitVec 2
  deriving DecidableEq, Repr

/-- `sptest` and `spcast`, layout P. -/
structure POp where
  h : Hdr
  k : Bool
  vd : Reg
  va : Reg
  win : BitVec 3
  deriving DecidableEq, Repr

/-- An atomic, layout T (R290). -/
structure TOp where
  h : Hdr
  k : Bool
  vd : Reg
  va : Reg
  vb : Src
  vc : Reg
  fmt : Fmt
  order : BitVec 2
  scope : BitVec 3
  rmt : Bool
  deriving DecidableEq, Repr

/-- An engine word, layout E. -/
structure EOp where
  h : Hdr
  vd : Reg
  va : Reg
  vb : Reg
  vc : Reg
  fmt : Fmt
  jf : BitVec 6
  deriving DecidableEq, Repr

/-- An `mma` word, layout Y (R226). -/
structure YOp where
  h : Hdr
  va : Reg
  arow : BitVec 5
  cz : Bool
  bank : Bool
  fmt : Fmt
  rm : Rm
  prio : BitVec 2
  reuse : Bool
  deriving DecidableEq, Repr

/-- An accumulator transfer (R232); `fmt` is absent in `accrd` and `accz`. -/
structure AccOp where
  h : Hdr
  vd : Reg
  va : Reg
  arow : BitVec 5
  col : BitVec 7
  fmt : Fmt
  jf : BitVec 6
  deriving DecidableEq, Repr

/-- The pair opcodes of R58. -/
inductive PairOp where
  | nop | mov | add | sub | mul | and | or | xor | shl | shr | sra | min | max
  | addi | shli | shri | srai | andi | movi
  | fadd | fsub | fmul | fmin | fmax | fminn | fmaxn | fabs | fneg | cvtif | cvtfi
  deriving DecidableEq, Repr

/-- The operands of a pair half (R39). -/
structure HalfArgs where
  k : Bool
  vd : Reg
  vs : Reg
  smod : BitVec 3
  deriving DecidableEq, Repr

/-- A pair half (R39). -/
structure Half where
  op : PairOp
  args : HalfArgs
  deriving DecidableEq, Repr

/-- What the rest of the world answers when an access is performed: bytes that a fabric peer returns with the release
scope that its home's tag held (R309, R375), a refusal by the peer (R374), or nothing special. `error` says whether the
read met an uncorrectable error (R249, R287). -/
inductive Reply where
  | plain
  | bytes (data : List Byte) (tag : Option (BitVec 3))
  | refused
  | error
  deriving DecidableEq, Repr

/-- What a patrol read finds (R287). -/
inductive Scrub where
  | clean | corrected | uncorrectable
  deriving DecidableEq, Repr

/-- The fields of the configuration image that the device acts on (R365, R331, R367, R383). -/
structure Image where
  saveBase : Nat
  saveSize : Nat
  poolBase : Nat
  poolSize : Nat
  /-- core id, disabled physical row -/
  remap : List (Nat × Nat)
  /-- the trusted module keys: slot, public key (R175) -/
  keys : List (Nat × List Byte)
  /-- the whole image, as signed (R369) -/
  bytes : List Byte
  deriving DecidableEq, Repr

/-- How one start goes (R365, R366): the image that step 2 reads, whether the retained state matches
(step 3), and the step after the verifications that fails in the running slot and in the other slot, if one does. -/
structure BootRun where
  image : Image
  retained : Bool
  fail : Option (BitVec 8)
  failOther : Option (BitVec 8)
  deriving DecidableEq, Repr

/-- An access that a fabric peer makes (R374): the sender's node, the HBM address here, whether it
writes, the scope and order it carries, its size and data, and for an atomic its operation code
(the op's low 9 bits) and compare value. -/
structure Inbound where
  node : BitVec 10
  addr : Nat
  size : Nat
  write : Bool
  atomic : Option (BitVec 9 × Fmt)
  data : Dword × Dword
  cmp : Dword
  order : BitVec 2
  scope : BitVec 3
  /-- an inbound message instead: vault id and offset -/
  message : Option (Nat × List Word)
  deriving DecidableEq, Repr

/-- The instructions and the events of the opcode table, one constructor per row. -/
inductive Instr where
  /-- ADD, R102. -/
  | add (o : AOp)
  /-- SUB, R102. -/
  | sub (o : AOp)
  /-- MUL, R102. -/
  | mul (o : AOp)
  /-- MULHI, R102. -/
  | mulhi (o : AOp)
  /-- MULW, R102. -/
  | mulw (o : AOp)
  /-- MAD, R102. -/
  | mad (o : AOp)
  /-- MADW, R102. -/
  | madw (o : AOp)
  /-- MIN, R102. -/
  | min (o : AOp)
  /-- MAX, R102. -/
  | max (o : AOp)
  /-- ABS, R102. -/
  | abs (o : AOp)
  /-- NEG, R102. -/
  | neg (o : AOp)
  /-- AND, R103. -/
  | and (o : AOp)
  /-- OR, R103. -/
  | or (o : AOp)
  /-- XOR, R103. -/
  | xor (o : AOp)
  /-- NOT, R103. -/
  | not (o : AOp)
  /-- ANDN, R103. -/
  | andn (o : AOp)
  /-- SHL, R103. -/
  | shl (o : AOp)
  /-- SHR, R103. -/
  | shr (o : AOp)
  /-- SRA, R103. -/
  | sra (o : AOp)
  /-- ROL, R103. -/
  | rol (o : AOp)
  /-- ROR, R103. -/
  | ror (o : AOp)
  /-- BFX, R104. -/
  | bfx (o : AOp)
  /-- BFI, R104. -/
  | bfi (o : AOp)
  /-- POPC, R105. -/
  | popc (o : AOp)
  /-- CLZ, R105. -/
  | clz (o : AOp)
  /-- CTZ, R105. -/
  | ctz (o : AOp)
  /-- BREV, R105. -/
  | brev (o : AOp)
  /-- CMP, R106. -/
  | cmp (o : COp)
  /-- SEL, R107. -/
  | sel (o : AOp)
  /-- MOV, R107. -/
  | mov (o : AOp)
  /-- ADDA, R108. -/
  | adda (o : AOp)
  /-- ADDSC, R108. -/
  | addsc (o : AOp)
  /-- FADD, R110. -/
  | fadd (o : AOp)
  /-- FSUB, R110. -/
  | fsub (o : AOp)
  /-- FMUL, R110. -/
  | fmul (o : AOp)
  /-- FMA, R110. -/
  | fma (o : AOp)
  /-- FMIN, R110. -/
  | fmin (o : AOp)
  /-- FMAX, R110. -/
  | fmax (o : AOp)
  /-- FMINN, R110. -/
  | fminn (o : AOp)
  /-- FMAXN, R110. -/
  | fmaxn (o : AOp)
  /-- FABS, R110. -/
  | fabs (o : AOp)
  /-- FNEG, R110. -/
  | fneg (o : AOp)
  /-- FCMP, R106. -/
  | fcmp (o : COp)
  /-- FCLASS, R113. -/
  | fclass (o : AOp)
  /-- FRINT, R110. -/
  | frint (o : AOp)
  /-- FSCALE, R110. -/
  | fscale (o : AOp)
  /-- CVT, R114, R115. -/
  | cvt (o : CvtOp)
  /-- RCPS, R116, R117. -/
  | rcps (o : AOp)
  /-- RSQS, R116, R117. -/
  | rsqs (o : AOp)
  /-- CORD, R118 to R120. -/
  | cord (o : KOp)
  /-- SHFL, R122. -/
  | shfl (o : XOp)
  /-- RED, R123. -/
  | red (o : XOp)
  /-- SCAN, R123. -/
  | scan (o : XOp)
  /-- BALLOT, R124. -/
  | ballot (o : XOp)
  /-- ANY, R124. -/
  | any (o : XOp)
  /-- ALL, R124. -/
  | all (o : XOp)
  /-- MATCH, R124. -/
  | matchLanes (o : XOp)
  /-- LD, R147, R148. -/
  | ld (o : MOp)
  /-- LDS, R147, R148. -/
  | lds (o : MOp)
  /-- ST, R147, R148. -/
  | st (o : MOp)
  /-- SPTEST, R145. -/
  | sptest (o : POp)
  /-- SPCAST, R146. -/
  | spcast (o : POp)
  /-- FESET, R147, R152. -/
  | feset (o : MOp)
  /-- FECLR, R147, R152. -/
  | feclr (o : MOp)
  /-- FETEST, R147, R152. -/
  | fetest (o : MOp)
  /-- AADD, R290, R291. -/
  | aadd (o : TOp)
  /-- AMIN, R290, R291. -/
  | amin (o : TOp)
  /-- AMAX, R290, R291. -/
  | amax (o : TOp)
  /-- AAND, R290, R291. -/
  | aand (o : TOp)
  /-- AOR, R290, R291. -/
  | aor (o : TOp)
  /-- AXOR, R290, R291. -/
  | axor (o : TOp)
  /-- AEXCH, R290, R291. -/
  | aexch (o : TOp)
  /-- ACAS, R290, R291. -/
  | acas (o : TOp)
  /-- AFADD, R290, R293. -/
  | afadd (o : TOp)
  /-- OFADD, R290, R294. -/
  | ofadd (o : TOp)
  /-- FENCE, R296. -/
  | fence (h : Hdr) (order : BitVec 2) (scope : BitVec 3)
  /-- FENCE_OPR, R225. -/
  | fenceOpr (h : Hdr)
  /-- WAIT, R155. -/
  | wait (h : Hdr) (ld st eng tile : BitVec 6)
  /-- ARRIVE, R203, R204. -/
  | arrive (h : Hdr) (bar : BitVec 4)
  /-- BWAIT, R203, R205. -/
  | bwait (h : Hdr) (bar : BitVec 4)
  /-- BR, R127. -/
  | br (h : Hdr) (blka : BitVec 12)
  /-- BRC, R127. -/
  | brc (h : Hdr) (va : Reg) (blka blkb : BitVec 12)
  /-- BRX, R127. -/
  | brx (h : Hdr) (va : Reg)
  /-- VOTE, R128. -/
  | vote (h : Hdr)
  /-- REGANG, R129. -/
  | regang (h : Hdr)
  /-- LOOP, R131. -/
  | loop (h : Hdr) (va : Reg) (tend : BitVec 16)
  /-- YIELD, R130. -/
  | yield (h : Hdr)
  /-- EXIT, R128. -/
  | exit (h : Hdr)
  /-- CALL, R136. -/
  | call (h : Hdr) (fidx : BitVec 16)
  /-- CALLI, R136. -/
  | calli (h : Hdr) (va : Reg)
  /-- RET, R138. -/
  | ret (h : Hdr)
  /-- UNWIND, R139. -/
  | unwind (h : Hdr) (va : Reg) (blka : BitVec 12)
  /-- COPY, R254, R259. -/
  | copy (o : EOp)
  /-- GATHER, R254, R259. -/
  | gather (o : EOp)
  /-- SCATTER, R254, R259. -/
  | scatter (o : EOp)
  /-- SRANK, R268, R278. -/
  | srank (o : EOp)
  /-- SCMP, R268, R278. -/
  | scmp (o : EOp)
  /-- COLL, R377 to R380. -/
  | coll (o : EOp)
  /-- MSG, R377, R381. -/
  | msg (o : EOp)
  /-- CREW, R218. -/
  | crew (h : Hdr) (va : Reg)
  /-- WLD, R221, R222. -/
  | wld (o : EOp)
  /-- MMA, R226, R227. -/
  | mma (o : YOp)
  /-- ACCLD, R232, R233. -/
  | accld (o : AccOp)
  /-- ACCST, R232, R233. -/
  | accst (o : AccOp)
  /-- ACCRD, R232, R233. -/
  | accrd (o : AccOp)
  /-- ACCZ, R232, R233. -/
  | accz (o : AccOp)
  /-- NOP, R57, R35. -/
  | nop (h : Hdr) (lit : Option Dword)
  /-- MOVS, R156. -/
  | movs (h : Hdr) (k : Bool) (vd : Reg) (sid : Sid)
  /-- MOVSM, R157. -/
  | movsm (h : Hdr) (sid : Sid) (vb : Src)
  /-- TRAP, R140. -/
  | trap (h : Hdr) (imm : BitVec 8)
  /-- BRKPT, R158. -/
  | brkpt (h : Hdr) (imm : BitVec 8)
  /-- ENTER, R159. -/
  | enter (h : Hdr) (id : BitVec 16)
  /-- LEAVE, R159. -/
  | leave (h : Hdr) (id : BitVec 16)
  /-- LAUNCH, R323, R324. -/
  | launch (o : EOp)
  /-- EVSIG, R323, R325. -/
  | evsig (o : EOp)
  /-- PAIR_NOP, R58. -/
  | pairNop (h : Hdr) (a : HalfArgs) (second : Half)
  /-- PAIR_MOV, R58. -/
  | pairMov (h : Hdr) (a : HalfArgs) (second : Half)
  /-- PAIR_ADD, R58. -/
  | pairAdd (h : Hdr) (a : HalfArgs) (second : Half)
  /-- PAIR_SUB, R58. -/
  | pairSub (h : Hdr) (a : HalfArgs) (second : Half)
  /-- PAIR_MUL, R58. -/
  | pairMul (h : Hdr) (a : HalfArgs) (second : Half)
  /-- PAIR_AND, R58. -/
  | pairAnd (h : Hdr) (a : HalfArgs) (second : Half)
  /-- PAIR_OR, R58. -/
  | pairOr (h : Hdr) (a : HalfArgs) (second : Half)
  /-- PAIR_XOR, R58. -/
  | pairXor (h : Hdr) (a : HalfArgs) (second : Half)
  /-- PAIR_SHL, R58. -/
  | pairShl (h : Hdr) (a : HalfArgs) (second : Half)
  /-- PAIR_SHR, R58. -/
  | pairShr (h : Hdr) (a : HalfArgs) (second : Half)
  /-- PAIR_SRA, R58. -/
  | pairSra (h : Hdr) (a : HalfArgs) (second : Half)
  /-- PAIR_MIN, R58. -/
  | pairMin (h : Hdr) (a : HalfArgs) (second : Half)
  /-- PAIR_MAX, R58. -/
  | pairMax (h : Hdr) (a : HalfArgs) (second : Half)
  /-- PAIR_ADDI, R58. -/
  | pairAddi (h : Hdr) (a : HalfArgs) (second : Half)
  /-- PAIR_SHLI, R58. -/
  | pairShli (h : Hdr) (a : HalfArgs) (second : Half)
  /-- PAIR_SHRI, R58. -/
  | pairShri (h : Hdr) (a : HalfArgs) (second : Half)
  /-- PAIR_SRAI, R58. -/
  | pairSrai (h : Hdr) (a : HalfArgs) (second : Half)
  /-- PAIR_ANDI, R58. -/
  | pairAndi (h : Hdr) (a : HalfArgs) (second : Half)
  /-- PAIR_MOVI, R58. -/
  | pairMovi (h : Hdr) (a : HalfArgs) (second : Half)
  /-- PAIR_FADD, R58. -/
  | pairFadd (h : Hdr) (a : HalfArgs) (second : Half)
  /-- PAIR_FSUB, R58. -/
  | pairFsub (h : Hdr) (a : HalfArgs) (second : Half)
  /-- PAIR_FMUL, R58. -/
  | pairFmul (h : Hdr) (a : HalfArgs) (second : Half)
  /-- PAIR_FMIN, R58. -/
  | pairFmin (h : Hdr) (a : HalfArgs) (second : Half)
  /-- PAIR_FMAX, R58. -/
  | pairFmax (h : Hdr) (a : HalfArgs) (second : Half)
  /-- PAIR_FMINN, R58. -/
  | pairFminn (h : Hdr) (a : HalfArgs) (second : Half)
  /-- PAIR_FMAXN, R58. -/
  | pairFmaxn (h : Hdr) (a : HalfArgs) (second : Half)
  /-- PAIR_FABS, R58. -/
  | pairFabs (h : Hdr) (a : HalfArgs) (second : Half)
  /-- PAIR_FNEG, R58. -/
  | pairFneg (h : Hdr) (a : HalfArgs) (second : Half)
  /-- PAIR_CVTIF, R58. -/
  | pairCvtif (h : Hdr) (a : HalfArgs) (second : Half)
  /-- PAIR_CVTFI, R58. -/
  | pairCvtfi (h : Hdr) (a : HalfArgs) (second : Half)
  /-- ISSUE_SLOT_ARBITRATION, R187. -/
  | issueSlotArbitration (core slot : Nat)
  /-- PATIENCE_EXPIRY, R80. -/
  | patienceExpiry (gk : Nat)
  /-- LOAD_DATA_ARRIVAL, R154. -/
  | loadDataArrival (gk id : Nat) (reply : Reply)
  /-- STORE_PERFORMED, R154. -/
  | storePerformed (gk id : Nat) (reply : Reply)
  /-- FE_WAIT_SATISFIED, R252. -/
  | feWaitSatisfied (granule : Nat)
  /-- ATOMIC_PERFORMED, R291. -/
  | atomicPerformed (gk id : Nat) (reply : Reply)
  /-- ORDERED_ADD_BUFFERED, R295. -/
  | orderedAddBuffered (gk id : Nat)
  /-- ORDERED_ADD_APPLY, R294. -/
  | orderedAddApply (launch : Nat)
  /-- BARRIER_ARRIVAL_SETTLE, R204. -/
  | barrierArrivalSettle (gk bar : Nat)
  /-- GROUP_RETIRE, R82. -/
  | groupRetire (gk : Nat)
  /-- FRAME_REQUEST_SERVED, R192. -/
  | frameRequestServed (team : Nat)
  /-- SPILL_ENGINE_START, R195. -/
  | spillEngineStart (core : Nat)
  /-- FRAME_MOVE, R196. -/
  | frameMove (core : Nat)
  /-- COPY_CHUNK, R260. -/
  | copyChunk (cluster : Nat)
  /-- SELECTION_CHUNK, R273. -/
  | selectionChunk (cluster : Nat)
  /-- WEIGHT_LOAD_COMPLETE, R222. -/
  | weightLoadComplete (gk id : Nat)
  /-- ROW_CAPTURE, R219. -/
  | rowCapture (core : Nat)
  /-- ARRAY_BOUNDARY, R229. -/
  | arrayBoundary (core : Nat)
  /-- WEIGHT_RELOAD, R230. -/
  | weightReload (core : Nat)
  /-- ARRAY_START_ADMISSION, R231. -/
  | arrayStartAdmission (core : Nat)
  /-- ENTRY_EXECUTION, R227. -/
  | entryExecution (core : Nat)
  /-- TILE_TRANSFER_COMPLETE, R233. -/
  | tileTransferComplete (gk id : Nat)
  /-- CACHE_PROMOTION, R311. -/
  | cachePromotion (gk id : Nat)
  /-- BACKGROUND_PULL, R302. -/
  | backgroundPull (id : Nat)
  /-- PATROL_SCRUB, R287. -/
  | patrolScrub (stack line : Nat) (found : Scrub)
  /-- FAULT_RECORD_POST, R336. -/
  | faultRecordPost
  /-- LAUNCH_ENTRY, R320. -/
  | launchEntry (q : Nat)
  /-- MODULE_LOAD, R318. -/
  | moduleLoad (q : Nat)
  /-- MODULE_UNLOAD, R171. -/
  | moduleUnload (q : Nat)
  /-- COUNTER_START, R350. -/
  | counterStart (q : Nat)
  /-- COUNTER_STOP, R350. -/
  | counterStop (q : Nat)
  /-- TEAM_ADMISSION, R183. -/
  | teamAdmission (q : Nat)
  /-- URGENCY_DELAY_EXPIRY, R327. -/
  | urgencyDelayExpiry (q : Nat)
  /-- PREEMPTION_HALT, R328. -/
  | preemptionHalt (team : Nat)
  /-- CONTEXT_SAVE, R328. -/
  | contextSave (team : Nat)
  /-- TEAM_RESTORE, R330. -/
  | teamRestore (team : Nat)
  /-- LAUNCH_COMPLETION, R319. -/
  | launchCompletion (launch : Nat)
  /-- LAUNCH_RECORD_APPEND, R324. -/
  | launchRecordAppend (gk id : Nat)
  /-- EVENT_COUNTER_ADD, R325. -/
  | eventCounterAdd (gk id : Nat)
  /-- CREATE_CONTEXT, R362. -/
  | createContext
  /-- DESTROY_CONTEXT, R361. -/
  | destroyContext
  /-- BIND_HOST_QUEUE, R361. -/
  | bindHostQueue
  /-- TRANSLATION_INVALIDATE, R300. -/
  | translationInvalidate
  /-- POST_MIGRATION_RECORD, R302. -/
  | postMigrationRecord
  /-- RELEASE_MIGRATION_RECORD, R303. -/
  | releaseMigrationRecord
  /-- PRE_EMPT, R327. -/
  | preEmpt
  /-- END_LAUNCH, R326. -/
  | endLaunch
  /-- FAULT_RESPONSE, R337. -/
  | faultResponse
  /-- CODE_BREAKPOINT, R342. -/
  | codeBreakpoint
  /-- REGION_STOP, R342. -/
  | regionStop
  /-- WATCHPOINT, R346. -/
  | watchpoint
  /-- TIME_SERIES, R352. -/
  | timeSeries
  /-- SAMPLING, R354. -/
  | sampling
  /-- READ_ERROR_LOG, R356. -/
  | readErrorLog
  /-- LOAD_ATOMIC_PATH_TABLE, R372. -/
  | loadAtomicPathTable
  /-- ASSIGN_MSI_X_VECTORS, R361. -/
  | assignMsiXVectors
  /-- ATTEST, R369. -/
  | attest
  /-- WRITE_FIRMWARE_SLOT, R368; whether the image written counts as the newest (log entry 8). -/
  | writeFirmwareSlot (newer : Bool)
  /-- OWNER_CLAIM, R363. -/
  | ownerClaim (master : BitVec 8) (value : Word)
  /-- OWNER_HANDOVER, R363. -/
  | ownerHandover (master : BitVec 8) (value : Word)
  /-- OWNER_RELEASE, R363. -/
  | ownerRelease (master : BitVec 8)
  /-- COLD_RESET, R367. -/
  | coldReset (master : BitVec 8)
  /-- WARM_RESET, R367. -/
  | warmReset (master : BitVec 8)
  /-- ATTEST_MAILBOX_REQUEST, R369. -/
  | attestMailboxRequest (master : BitVec 8)
  /-- ATTEST_REPORT_DONE, R369. -/
  | attestReportDone (master : BitVec 8)
  /-- REGISTER_WRITE, R359. -/
  | registerWrite (master : BitVec 8) (offset size : Nat) (value : Dword)
  /-- BAR2_WRITE, R358. -/
  | bar2Write (master : BitVec 8) (offset : Nat) (bytes : List Byte)
  /-- BAR2_READ, R358. -/
  | bar2Read (master : BitVec 8) (offset count : Nat)
  /-- PACKAGE_START, R365. -/
  | packageStart (boot : BootRun)
  /-- POWER_LOSS, R367. -/
  | powerLoss
  /-- WATCHDOG_EXPIRY, R367. -/
  | watchdogExpiry
  /-- COLD_PLATE_OVER_LIMIT, R370. -/
  | coldPlateOverLimit
  /-- SERIES_SAMPLE, R352. -/
  | seriesSample
  /-- PC_SAMPLE, R354. -/
  | pcSample (core : Nat)
  /-- INBOUND_ACCESS, R374. -/
  | inboundAccess (acc : Inbound)
  /-- COLLECTIVE_FOLD, R379. -/
  | collectiveFold (index : Nat) (remote : List (Nat × Option (List Byte)))
  /-- MESSAGE_DELIVERY, R381. -/
  | messageDelivery (index : Nat) (reply : Reply)
  /-- LINK_TIMEOUT, R383. -/
  | linkTimeout (gk id : Nat)
  /-- PORT_DOWN, R383. -/
  | portDown (port : BitVec 4)
  /-- FLIT_RETRY, R371. -/
  | flitRetry (port : BitVec 4)
  /-- UNASSIGNED_OPCODE, R43. -/
  | unassignedOpcode (h : Hdr) (illForm : Bool)
  /-- FETCH_PAST_STATE_CODE, R42. -/
  | fetchPastStateCode
  deriving DecidableEq, Repr

end Sys2Proof
end

