-- ==== Sys2Proof/WellFormed.lean ====
section
/-! DEFINITION. Which operands each instruction accepts: the checks of R43 step 6 (`fieldsOk`) and step 7
(`pairOk`), and which words may carry a literal (step 4, `litOk`). Checks that need the group's width or
its frame are made where the word executes. -/

namespace Sys2Proof

namespace Fmt

/-- i8 to i64 and n8 to n64. -/
def isInt : Fmt → Bool
  | i8 | i16 | i32 | i64 | n8 | n16 | n32 | n64 => true
  | _ => false

def isSigned : Fmt → Bool
  | i8 | i16 | i32 | i64 => true
  | _ => false

/-- f32, f64, f16 and bf16. -/
def isFloat : Fmt → Bool
  | f32 | f64 | f16 | bf16 => true
  | _ => false

def isPacked : Fmt → Bool
  | f16x2 | bf16x2 => true
  | _ => false

/-- The MX formats and xf4 (R17, R20). -/
def isBlock : Fmt → Bool
  | mxe4m3 | mxe5m2 | mxe2m1 | xf4 | mxe3m2 | mxe2m3 => true
  | _ => false

/-- Formats that occupy a register pair (R36). -/
def wide : Fmt → Bool
  | i64 | n64 | f64 => true
  | _ => false

/-- The formats `cvt` converts one at a time: codes 0x00 to 0x08 and 0x10 to 0x17 (R115). -/
def isScalarCvt : Fmt → Bool
  | f32 | f64 | f16 | bf16 | e4m3 | e5m2 | e3m2 | e2m3 | e2m1 => true
  | f => f.isInt

/-- Activation formats of the array (R211). -/
def isActivation : Fmt → Bool
  | f16 | bf16 | e4m3 | e5m2 | e3m2 | e2m3 | mxe4m3 | mxe5m2 | mxe3m2 | mxe2m3 | e2m1 | mxe2m1
  | i8 | i4 | f64 => true
  | _ => false

/-- Weight formats of the array (R211). -/
def isWeight (f : Fmt) : Bool := f.isActivation || f == xf4

end Fmt

/-- A register that names an even/odd pair (R36). -/
def evenReg (r : Reg) : Bool := r.toNat % 2 == 0
/-- A register that names a quad (R36). -/
def quadReg (r : Reg) : Bool := r.toNat % 4 == 0
def octReg (r : Reg) : Bool := r.toNat % 8 == 0

/-- A register field that may name a pair, where the operand is wide. -/
def regOk (wide : Bool) (r : Reg) : Bool := !wide || evenReg r

/-- Source B with the selector rule of R38. -/
def srcOk (wide : Bool) : Src → Bool
  | .reg r => regOk wide r
  | .lit sel _ => if wide then sel == 2 else sel == 0 || sel == 1

def Src.isZeroReg (b : Src) : Bool := b == .reg 0

def AOp.fieldsFree (o : AOp) : Bool := o.rm == .rne && o.sat == .off && !o.x

/-- `add`, `sub`, `mul`: three-operand integer with saturation (R102). -/
def AOp.intSat (o : AOp) : Bool :=
  o.fmt.isInt && o.rm == .rne && !o.x && regOk o.fmt.wide o.vd && regOk o.fmt.wide o.va
    && srcOk o.fmt.wide o.vb && o.vc == 0

/-- Two-source integer and logic instructions without saturation (R102, R103). -/
def AOp.intTwo (o : AOp) : Bool :=
  o.fmt.isInt && o.fieldsFree && regOk o.fmt.wide o.vd && regOk o.fmt.wide o.va
    && srcOk o.fmt.wide o.vb && o.vc == 0

/-- One-source integer instructions; `sat` is judged by the caller. -/
def AOp.intOne (o : AOp) : Bool :=
  o.fmt.isInt && o.rm == .rne && !o.x && regOk o.fmt.wide o.vd && regOk o.fmt.wide o.va
    && o.vb.isZeroReg && o.vc == 0

def isMulwFmt : Fmt → Bool
  | .i8 | .i16 | .i32 | .n8 | .n16 | .n32 => true
  | _ => false

/-- The double-width result of `mulw` and `madw` takes a pair for 32-bit formats (R102). -/
def mulwWide : Fmt → Bool
  | .i32 | .n32 => true
  | _ => false

/-- Shifts and rotates: source B is 32 bits wide (R103). -/
def AOp.shift (o : AOp) (xUsed : Bool) : Bool :=
  o.fmt.isInt && o.rm == .rne && o.sat == .off && (xUsed || !o.x) && regOk o.fmt.wide o.vd
    && regOk o.fmt.wide o.va && srcOk false o.vb && o.vc == 0

/-- Counting instructions (R105). -/
def AOp.count (o : AOp) : Bool :=
  o.fmt.isInt && o.fieldsFree && regOk o.fmt.wide o.va && o.vb.isZeroReg && o.vc == 0

/-- The element selection of R112. -/
def AOp.elemX (o : AOp) : Bool := o.fmt.isPacked || !o.x

/-- Class 1 words of two sources (R110). -/
def AOp.floatTwo (o : AOp) (rounds : Bool) : Bool :=
  (o.fmt.isFloat || o.fmt.isPacked) && (rounds || (o.rm == .rne && o.sat == .off)) && o.elemX
    && regOk o.fmt.wide o.vd && regOk o.fmt.wide o.va && srcOk o.fmt.wide o.vb && o.vc == 0

/-- Formats of `sel` and `mov` (R107). -/
def isMoveFmt (f : Fmt) : Bool := f.isFloat || f.isInt || f.isPacked

def CvtOp.fieldsOk (o : CvtOp) : Bool :=
  if o.src.isScalarCvt && o.fmt.isScalarCvt then
    !o.x && o.vc == 0 && regOk o.src.wide o.va && regOk o.fmt.wide o.vd
  else if o.src.isPacked && o.fmt == .f32 then o.vc == 0
  else if o.src == .f32 && o.fmt.isPacked then true
  else if o.src.isPacked && o.fmt.isPacked && o.src != o.fmt then !o.x && o.vc == 0
  else false

/-- Formats of `shfl` and `match` (R121). -/
def isShuffleFmt : Fmt → Bool
  | .i32 | .n32 | .f32 | .f16x2 | .bf16x2 | .i64 | .n64 | .f64 => true
  | _ => false

/-- The operator of `red` and `scan` against the format (R123). -/
def reduceOk (f : Fmt) (opr : Nat) : Bool :=
  if opr ≤ 2 then f.isInt || f.isFloat || f.isPacked
  else if opr ≤ 4 then f.isFloat || f.isPacked
  else opr ≤ 7 && f.isInt

def XOp.plain (o : XOp) : Bool := o.opr == 0 && o.x == 0 && o.vb.isZeroReg

/-- Data registers of an access of the given size (R147). -/
def sizeReg (size : BitVec 3) (r : Reg) : Bool :=
  if size == 4 then quadReg r else if size == 3 then evenReg r else true

def MOp.common (o : MOp) : Bool :=
  evenReg o.va && srcOk false o.vb && o.scope.toNat ≤ 5 && (!o.rmt || o.order == 1)

def MOp.loadOk (o : MOp) (maxSize : Nat) : Bool :=
  o.common && o.k && o.size.toNat ≤ maxSize && sizeReg o.size o.vd && o.order.toNat ≤ 1
    && o.fe.toNat ≤ 2 && o.vc == 0

def MOp.storeOk (o : MOp) : Bool :=
  o.common && !o.k && o.vd == 0 && o.size.toNat ≤ 4 && sizeReg o.size o.vc
    && (o.order == 0 || o.order == 2) && o.fe.toNat ≤ 1

def MOp.bitOk (o : MOp) : Bool :=
  o.common && !o.k && o.vd == 0 && o.size == 0 && (o.order == 0 || o.order == 2) && o.fe == 0
    && o.vc == 0

def MOp.testOk (o : MOp) : Bool :=
  o.common && o.k && o.size == 0 && o.order.toNat ≤ 1 && o.fe == 0 && o.vc == 0

/-- Atomics that return the old value (R290). -/
def TOp.atomicOk (o : TOp) (fmtOk cas : Bool) : Bool :=
  fmtOk && o.k && regOk o.fmt.wide o.vd && evenReg o.va && srcOk o.fmt.wide o.vb
    && (if cas then regOk o.fmt.wide o.vc else o.vc == 0) && o.scope.toNat ≤ 5
    && (!o.rmt || o.order == 1 || o.order == 3)

def isAtomInt : Fmt → Bool
  | .i32 | .n32 | .i64 | .n64 => true
  | _ => false

def isAtomAny : Fmt → Bool
  | .f32 | .f64 => true
  | f => isAtomInt f

def TOp.orderedOk (o : TOp) : Bool :=
  (o.fmt == .f32 || o.fmt == .f64) && !o.k && o.vd == 0 && evenReg o.va && srcOk o.fmt.wide o.vb
    && o.vc == 0 && (o.order == 0 || o.order == 2) && o.scope.toNat ≤ 5 && !o.rmt

/-- `copy`, `gather` and `scatter` (R254). Format code 0x18 is accepted, as R254 and R257 have it, although R15 lists
other readers of it under `ILL_FIELD` (DEDUCED, log entry 62). -/
def EOp.copyOk (o : EOp) (indexed : Bool) : Bool :=
  (if indexed then evenReg o.vd else o.vd == 0) && evenReg o.va && evenReg o.vb && octReg o.vc
    && (!bitOf o.jf.toNat 1 || bitOf o.jf.toNat 0) && bitsOf o.jf.toNat 5 4 != 3
    && (o.fmt != .xf4 || bitsOf o.jf.toNat 5 4 == 0)

def isSelFmt : Fmt → Bool
  | .i4 | .f16x2 | .bf16x2 => false
  | _ => true

def EOp.srankOk (o : EOp) : Bool :=
  evenReg o.vd && evenReg o.va && (if bitOf o.jf.toNat 0 then evenReg o.vb else o.vb == 0)
    && octReg o.vc && isSelFmt o.fmt && bitsOf o.jf.toNat 5 4 != 3

def EOp.scmpOk (o : EOp) : Bool :=
  evenReg o.vd && evenReg o.va && evenReg o.vb && octReg o.vc && isSelFmt o.fmt
    && bitsOf o.jf.toNat 2 0 ≤ 5

def isCollFmt : Fmt → Bool
  | .f32 | .f16 | .bf16 | .i32 | .n32 | .i64 | .n64 => true
  | _ => false

def EOp.collOk (o : EOp) : Bool :=
  o.vd == 0 && evenReg o.va && evenReg o.vb && octReg o.vc && isCollFmt o.fmt
    && bitsOf o.jf.toNat 5 3 == 0 && (bitsOf o.jf.toNat 1 0 != 3 || o.fmt == .f32)

def EOp.msgOk (o : EOp) : Bool :=
  o.vd == 0 && evenReg o.va && quadReg o.vc && o.fmt == .f32 && o.jf == 0

def EOp.wldOk (o : EOp) : Bool :=
  o.vd == 0 && evenReg o.va && (if o.fmt.isBlock then evenReg o.vb else o.vb == 0)
    && (if o.fmt == .xf4 then evenReg o.vc else o.vc == 0) && o.fmt.isWeight
    && bitsOf o.jf.toNat 5 2 == 0

def EOp.launchOk (o : EOp) : Bool :=
  o.vd == 0 && evenReg o.va && o.vb == 0 && o.vc == 0 && o.fmt == .f32 && bitsOf o.jf.toNat 5 4 == 0

def EOp.evsigOk (o : EOp) : Bool :=
  o.vd == 0 && (o.fmt == .n32 || o.fmt == .n64) && regOk o.fmt.wide o.vb && o.vc == 0 && o.jf == 0

def YOp.fieldsOk (o : YOp) : Bool :=
  quadReg o.va && o.fmt.isActivation && (o.rm == .rne || !(o.fmt == .i8 || o.fmt == .i4))

def isAccFmt : Fmt → Bool
  | .f32 | .i32 | .f64 | .f16 | .bf16 => true
  | _ => false

/-- The column range of R232: `cnt` is `jf + 1`. -/
def AccOp.columnsOk (o : AccOp) : Bool := o.col.toNat + (o.jf.toNat + 1) ≤ 128

def AccOp.memoryOk (o : AccOp) : Bool :=
  o.vd == 0 && evenReg o.va && isAccFmt o.fmt && o.columnsOk
    && (o.fmt != .f64 || (o.col.toNat % 2 == 0 && (o.jf.toNat + 1) % 2 == 0))

/-- The `vs` field of a half is an immediate (R58). -/
def PairOp.isImm : PairOp → Bool
  | .addi | .shli | .shri | .srai | .andi | .movi => true
  | _ => false

/-- `smod` is a rounding field (R58). -/
def PairOp.usesRm : PairOp → Bool
  | .fadd | .fsub | .fmul | .cvtif | .cvtfi => true
  | _ => false

/-- The fields of a pair half (R58). -/
def Half.fieldsOk (x : Half) : Bool :=
  match x.op with
  | .nop => !x.args.k && x.args.vd == 0 && x.args.vs == 0 && x.args.smod == 0
  | .min | .max => x.args.smod.toNat ≤ 1
  | .shli | .shri | .srai => x.args.smod == 0 && x.args.vs.toNat < 32
  | op => if op.usesRm then x.args.smod != 6 else x.args.smod == 0

/-- The pair rules of R40: different banks and different destinations. -/
def halvesOk (a b : Half) : Bool :=
  a.op == .nop || b.op == .nop
    || ((a.op.isImm || b.op.isImm || a.args.vs.toNat % 4 != b.args.vs.toNat % 4)
        && a.args.vd != b.args.vd)

/-- The two halves of a pair word, where the instruction is one. -/
def Instr.halves : Instr → Option (Hdr × Half × Half)
  | .pairNop h a s => some (h, ⟨.nop, a⟩, s)
  | .pairMov h a s => some (h, ⟨.mov, a⟩, s)
  | .pairAdd h a s => some (h, ⟨.add, a⟩, s)
  | .pairSub h a s => some (h, ⟨.sub, a⟩, s)
  | .pairMul h a s => some (h, ⟨.mul, a⟩, s)
  | .pairAnd h a s => some (h, ⟨.and, a⟩, s)
  | .pairOr h a s => some (h, ⟨.or, a⟩, s)
  | .pairXor h a s => some (h, ⟨.xor, a⟩, s)
  | .pairShl h a s => some (h, ⟨.shl, a⟩, s)
  | .pairShr h a s => some (h, ⟨.shr, a⟩, s)
  | .pairSra h a s => some (h, ⟨.sra, a⟩, s)
  | .pairMin h a s => some (h, ⟨.min, a⟩, s)
  | .pairMax h a s => some (h, ⟨.max, a⟩, s)
  | .pairAddi h a s => some (h, ⟨.addi, a⟩, s)
  | .pairShli h a s => some (h, ⟨.shli, a⟩, s)
  | .pairShri h a s => some (h, ⟨.shri, a⟩, s)
  | .pairSrai h a s => some (h, ⟨.srai, a⟩, s)
  | .pairAndi h a s => some (h, ⟨.andi, a⟩, s)
  | .pairMovi h a s => some (h, ⟨.movi, a⟩, s)
  | .pairFadd h a s => some (h, ⟨.fadd, a⟩, s)
  | .pairFsub h a s => some (h, ⟨.fsub, a⟩, s)
  | .pairFmul h a s => some (h, ⟨.fmul, a⟩, s)
  | .pairFmin h a s => some (h, ⟨.fmin, a⟩, s)
  | .pairFmax h a s => some (h, ⟨.fmax, a⟩, s)
  | .pairFminn h a s => some (h, ⟨.fminn, a⟩, s)
  | .pairFmaxn h a s => some (h, ⟨.fmaxn, a⟩, s)
  | .pairFabs h a s => some (h, ⟨.fabs, a⟩, s)
  | .pairFneg h a s => some (h, ⟨.fneg, a⟩, s)
  | .pairCvtif h a s => some (h, ⟨.cvtif, a⟩, s)
  | .pairCvtfi h a s => some (h, ⟨.cvtfi, a⟩, s)
  | _ => none

/-- R43 step 6: no field of the word holds a reserved or unaccepted value. -/
def Instr.fieldsOk : Instr → Bool
  | .add o | .sub o | .mul o => o.intSat
  | .mulhi o | .min o | .max o | .and o | .or o | .xor o | .andn o => o.intTwo
  | .mulw o => isMulwFmt o.fmt && o.fieldsFree && regOk (mulwWide o.fmt) o.vd && srcOk false o.vb
      && o.vc == 0
  | .mad o => o.fmt.isInt && o.rm == .rne && !o.x && regOk o.fmt.wide o.vd && regOk o.fmt.wide o.va
      && srcOk o.fmt.wide o.vb && regOk o.fmt.wide o.vc
  | .madw o => isMulwFmt o.fmt && o.rm == .rne && !o.x && regOk (mulwWide o.fmt) o.vd
      && srcOk false o.vb && regOk (mulwWide o.fmt) o.vc
  | .abs o => o.intOne && o.fmt.isSigned
  | .neg o => o.intOne
  | .not o => o.intOne && o.sat == .off
  | .shl o | .shr o | .sra o => o.shift true
  | .rol o | .ror o => o.shift false
  | .bfx o => o.shift false
  | .bfi o => o.fmt.isInt && o.fieldsFree && regOk o.fmt.wide o.vd && regOk o.fmt.wide o.va
      && srcOk false o.vb && regOk o.fmt.wide o.vc
  | .popc o | .clz o | .ctz o => o.count
  | .brev o => o.intOne && o.sat == .off
  | .cmp o => o.fmt.isInt && regOk o.fmt.wide o.va && srcOk o.fmt.wide o.vb
      && !(o.cond == .ord || o.cond == .unord) && !o.sig
  | .sel o => isMoveFmt o.fmt && o.fieldsFree && regOk o.fmt.wide o.vd && regOk o.fmt.wide o.va
      && srcOk o.fmt.wide o.vb
  | .mov o => isMoveFmt o.fmt && o.fieldsFree && regOk o.fmt.wide o.vd && o.va == 0
      && srcOk o.fmt.wide o.vb && o.vc == 0
  | .adda o => (o.fmt == .i32 || o.fmt == .n32 || o.fmt == .i64) && o.rm == .rne && o.sat == .off
      && evenReg o.vd && evenReg o.va && srcOk o.fmt.wide o.vb && o.vc == 0
  | .addsc o => (o.fmt == .i32 || o.fmt == .n32 || o.fmt == .i64) && o.rm == .rne && o.sat == .off
      && evenReg o.vd && evenReg o.va && srcOk o.fmt.wide o.vb
  | .fadd o | .fsub o | .fmul o => o.floatTwo true
  | .fma o => (o.fmt.isFloat || o.fmt.isPacked) && o.elemX && regOk o.fmt.wide o.vd
      && regOk o.fmt.wide o.va && srcOk o.fmt.wide o.vb && regOk o.fmt.wide o.vc
  | .fmin o | .fmax o | .fminn o | .fmaxn o => o.floatTwo false
  | .fabs o | .fneg o => o.floatTwo false && o.vb.isZeroReg
  | .fcmp o => (o.fmt.isFloat || o.fmt.isPacked) && regOk o.fmt.wide o.va && srcOk o.fmt.wide o.vb
  | .fclass o => (o.fmt.isFloat || o.fmt.isPacked) && o.fieldsFree && regOk o.fmt.wide o.va
      && o.vb.isZeroReg && o.vc == 0
  | .frint o => (o.fmt.isFloat || o.fmt.isPacked) && o.sat == .off && regOk o.fmt.wide o.vd
      && regOk o.fmt.wide o.va && o.vb.isZeroReg && o.vc == 0
  | .fscale o => (o.fmt.isFloat || o.fmt.isPacked) && o.elemX && regOk o.fmt.wide o.vd
      && regOk o.fmt.wide o.va && srcOk false o.vb && o.vc == 0
  | .cvt o => o.fieldsOk
  | .rcps o | .rsqs o => (o.fmt == .f32 || o.fmt == .f64) && o.fieldsFree && regOk o.fmt.wide o.vd
      && regOk o.fmt.wide o.va && o.vb.isZeroReg && o.vc == 0
  | .cord o => o.cmode.toNat ≤ 5 && 8 ≤ o.iter.toNat && o.iter.toNat ≤ 28
      && (1 < o.cmode.toNat || evenReg o.vd) && (o.cmode == 1 || o.cmode == 2 || o.vb == 0)
  | .shfl o => isShuffleFmt o.fmt && o.opr.toNat ≤ 3 && o.x.toNat ≤ 1 && regOk o.fmt.wide o.vd
      && regOk o.fmt.wide o.va && srcOk false o.vb
  | .red o => reduceOk o.fmt o.opr.toNat && o.x == 0 && regOk o.fmt.wide o.vd
      && regOk o.fmt.wide o.va && o.vb.isZeroReg
  | .scan o => reduceOk o.fmt o.opr.toNat && o.x.toNat ≤ 1 && regOk o.fmt.wide o.vd
      && regOk o.fmt.wide o.va && o.vb.isZeroReg
  | .ballot o => (o.fmt == .n32 || o.fmt == .n64) && o.plain && regOk o.fmt.wide o.vd
      && regOk o.fmt.wide o.va
  | .any o | .all o => (o.fmt == .n32 || o.fmt == .n64) && o.plain && regOk o.fmt.wide o.va
  | .matchLanes o => isShuffleFmt o.fmt && o.plain && evenReg o.vd && regOk o.fmt.wide o.va
  | .ld o => o.loadOk 4
  | .lds o => o.loadOk 1
  | .st o => o.storeOk
  | .sptest o => o.win.toNat ≤ 4 && evenReg o.va
  | .spcast o => o.win.toNat ≤ 4 && evenReg o.va && evenReg o.vd
  | .feset o | .feclr o => o.bitOk
  | .fetest o => o.testOk
  | .aadd o | .amin o | .amax o | .aand o | .aor o | .axor o => o.atomicOk (isAtomInt o.fmt) false
  | .aexch o => o.atomicOk (isAtomAny o.fmt) false
  | .acas o => o.atomicOk (isAtomAny o.fmt) true
  | .afadd o => o.atomicOk (o.fmt == .f32 || o.fmt == .f64) false
  | .ofadd o => o.orderedOk
  | .fence _ order scope => order != 0 && scope.toNat ≤ 5
  | .copy o => o.copyOk false
  | .gather o | .scatter o => o.copyOk true
  | .srank o => o.srankOk
  | .scmp o => o.scmpOk
  | .coll o => o.collOk
  | .msg o => o.msgOk
  | .wld o => o.wldOk
  | .mma o => o.fieldsOk
  | .accld o | .accst o => o.memoryOk
  | .accrd o => o.va == 0 && o.fmt == .f32 && o.columnsOk
  | .accz o => o.vd == 0 && o.va == 0 && o.fmt == .f32 && o.columnsOk
  | .movs _ _ vd sid => sid != .time || evenReg vd
  | .movsm _ sid vb => (sid == .flags || sid == .mode) && srcOk false vb
  | .launch o => o.launchOk
  | .evsig o => o.evsigOk
  | i =>
    match i.halves with
    | some (_, a, b) => a.fieldsOk && b.fieldsOk
    | none => true

/-- R43 step 7. -/
def Instr.pairOk (i : Instr) : Bool :=
  match i.halves with
  | some (_, a, b) => halvesOk a b
  | none => true

/-- The source B of a word that has one. -/
def Instr.srcB : Instr → Option Src
  | .add o | .sub o | .mul o | .mulhi o | .mulw o | .mad o | .madw o | .min o | .max o | .abs o
  | .neg o | .and o | .or o | .xor o | .not o | .andn o | .shl o | .shr o | .sra o | .rol o | .ror o
  | .bfx o | .bfi o | .popc o | .clz o | .ctz o | .brev o | .sel o | .mov o | .adda o | .addsc o
  | .fadd o | .fsub o | .fmul o | .fma o | .fmin o | .fmax o | .fminn o | .fmaxn o | .fabs o
  | .fneg o | .fclass o | .frint o | .fscale o | .rcps o | .rsqs o => some o.vb
  | .cmp o | .fcmp o => some o.vb
  | .shfl o | .red o | .scan o | .ballot o | .any o | .all o | .matchLanes o => some o.vb
  | .ld o | .lds o | .st o | .feset o | .feclr o | .fetest o => some o.vb
  | .aadd o | .amin o | .amax o | .aand o | .aor o | .axor o | .aexch o | .acas o | .afadd o
  | .ofadd o => some o.vb
  | .movsm _ _ vb => some vb
  | _ => none

/-- The ops marked L in the opcode map (R50 to R54, R57). -/
def Instr.takesLiteral : Instr → Bool
  | .add _ | .sub _ | .mul _ | .mulhi _ | .mulw _ | .mad _ | .madw _ | .min _ | .max _ | .and _
  | .or _ | .xor _ | .andn _ | .shl _ | .shr _ | .sra _ | .rol _ | .ror _ | .bfx _ | .bfi _ | .cmp _
  | .sel _ | .mov _ | .adda _ | .addsc _ | .fadd _ | .fsub _ | .fmul _ | .fma _ | .fmin _ | .fmax _
  | .fminn _ | .fmaxn _ | .fcmp _ | .fscale _ | .shfl _ | .ld _ | .lds _ | .st _ | .aadd _ | .amin _
  | .amax _ | .aand _ | .aor _ | .axor _ | .aexch _ | .acas _ | .afadd _ | .ofadd _ | .movsm _ _ _ =>
    true
  | _ => false

/-- R43 step 4: a literal stands only behind an op marked L. A word with `m` = 0 may occupy a literal
word whatever it is (R35). -/
def Instr.litOk (i : Instr) : Bool :=
  match i with
  | .nop h lit => lit == none || h.m == 0
  | _ =>
    match i.srcB with
    | some (.lit _ _) => i.takesLiteral
    | _ => true

/-- The header of a group word; events have none. -/
def Instr.hdr : Instr → Option Hdr
  | .add o | .sub o | .mul o | .mulhi o | .mulw o | .mad o | .madw o | .min o | .max o | .abs o
  | .neg o | .and o | .or o | .xor o | .not o | .andn o | .shl o | .shr o | .sra o | .rol o | .ror o
  | .bfx o | .bfi o | .popc o | .clz o | .ctz o | .brev o | .sel o | .mov o | .adda o | .addsc o
  | .fadd o | .fsub o | .fmul o | .fma o | .fmin o | .fmax o | .fminn o | .fmaxn o | .fabs o
  | .fneg o | .fclass o | .frint o | .fscale o | .rcps o | .rsqs o => some o.h
  | .cmp o | .fcmp o => some o.h
  | .cvt o => some o.h
  | .cord o => some o.h
  | .shfl o | .red o | .scan o | .ballot o | .any o | .all o | .matchLanes o => some o.h
  | .ld o | .lds o | .st o | .feset o | .feclr o | .fetest o => some o.h
  | .sptest o | .spcast o => some o.h
  | .aadd o | .amin o | .amax o | .aand o | .aor o | .axor o | .aexch o | .acas o | .afadd o
  | .ofadd o => some o.h
  | .fence h _ _ | .fenceOpr h | .wait h _ _ _ _ | .arrive h _ | .bwait h _ | .br h _ | .brc h _ _ _
  | .brx h _ | .vote h | .regang h | .loop h _ _ | .yield h | .exit h | .call h _ | .calli h _
  | .ret h | .unwind h _ _ | .crew h _ | .nop h _ | .movs h _ _ _ | .movsm h _ _ | .trap h _
  | .brkpt h _ | .enter h _ | .leave h _ => some h
  | .copy o | .gather o | .scatter o | .srank o | .scmp o | .coll o | .msg o | .wld o | .launch o
  | .evsig o => some o.h
  | .mma o => some o.h
  | .accld o | .accst o | .accrd o | .accz o => some o.h
  | .unassignedOpcode h _ => some h
  | i => i.halves.map (·.1)

/-- A word that the encoding can hold and the decoder accepts: steps 1 to 4, 6 and 7 of R43, and `m` ≠ 0
for every word but the no-op (R35). -/
def Instr.wf (i : Instr) : Bool :=
  (match i with
    | .unassignedOpcode _ _ => false
    | .nop h _ => h.m == 0 || i.litOk
    | _ =>
      match i.hdr with
      | some h => h.m != 0
      | none => false)
    && i.litOk && i.fieldsOk && i.pairOk

end Sys2Proof
end

