-- ==== Sys2Proof/Decode.lean ====
section
/-! DEFINITION. The decoder, total on any words and bytes, and the encoder, both written from the tables of
R33 to R58. -/

namespace Sys2Proof

/-- Why a word that has an assigned op is turned away (R43 steps 6 and 7). -/
inductive DecErr where
  | field
  | pair
  deriving DecidableEq, Repr

def Fmt.ofCode : Nat → Option Fmt
  | 0x00 => some .f32 | 0x01 => some .f64 | 0x02 => some .f16 | 0x03 => some .bf16
  | 0x04 => some .e4m3 | 0x05 => some .e5m2 | 0x06 => some .e3m2 | 0x07 => some .e2m3
  | 0x08 => some .e2m1 | 0x09 => some .mxe4m3 | 0x0A => some .mxe5m2 | 0x0B => some .mxe2m1
  | 0x0C => some .xf4 | 0x0D => some .mxe3m2 | 0x0E => some .mxe2m3
  | 0x10 => some .i8 | 0x11 => some .i16 | 0x12 => some .i32 | 0x13 => some .i64
  | 0x14 => some .n8 | 0x15 => some .n16 | 0x16 => some .n32 | 0x17 => some .n64
  | 0x18 => some .i4 | 0x19 => some .f16x2 | 0x1A => some .bf16x2
  | _ => none

/-- The format codes of R10. -/
def Fmt.code : Fmt → BitVec 5
  | .f32 => 0x00 | .f64 => 0x01 | .f16 => 0x02 | .bf16 => 0x03
  | .e4m3 => 0x04 | .e5m2 => 0x05 | .e3m2 => 0x06 | .e2m3 => 0x07
  | .e2m1 => 0x08 | .mxe4m3 => 0x09 | .mxe5m2 => 0x0A | .mxe2m1 => 0x0B
  | .xf4 => 0x0C | .mxe3m2 => 0x0D | .mxe2m3 => 0x0E
  | .i8 => 0x10 | .i16 => 0x11 | .i32 => 0x12 | .i64 => 0x13
  | .n8 => 0x14 | .n16 => 0x15 | .n32 => 0x16 | .n64 => 0x17
  | .i4 => 0x18 | .f16x2 => 0x19 | .bf16x2 => 0x1A

def Rm.ofCode : Nat → Option Rm
  | 0 => some .rne | 1 => some .rtz | 2 => some .rdn | 3 => some .rup | 4 => some .rna
  | 5 => some .rst | 7 => some .dyn
  | _ => none

def Rm.code : Rm → BitVec 3
  | .rne => 0 | .rtz => 1 | .rdn => 2 | .rup => 3 | .rna => 4 | .rst => 5 | .dyn => 7

def Sat.ofCode : Nat → Option Sat
  | 0 => some .off | 1 => some .on | 2 => some .mode
  | _ => none

def Sat.code : Sat → BitVec 2
  | .off => 0 | .on => 1 | .mode => 2

def Cond.ofCode : Nat → Option Cond
  | 0 => some .eq | 1 => some .ne | 2 => some .lt | 3 => some .le | 4 => some .gt | 5 => some .ge
  | 6 => some .ord | 7 => some .unord
  | _ => none

def Cond.code : Cond → BitVec 4
  | .eq => 0 | .ne => 1 | .lt => 2 | .le => 3 | .gt => 4 | .ge => 5 | .ord => 6 | .unord => 7

def Sid.ofCode : Nat → Option Sid
  | 0x00 => some .lane | 0x01 => some .slice | 0x02 => some .group | 0x03 => some .team
  | 0x04 => some .core | 0x05 => some .cluster | 0x06 => some .die | 0x07 => some .gridx
  | 0x08 => some .gridy | 0x09 => some .gridz | 0x0A => some .blk | 0x0B => some .depth
  | 0x0C => some .flags | 0x0D => some .mode | 0x0E => some .time | 0x10 => some .lc0
  | 0x11 => some .lc1 | 0x12 => some .lc2
  | _ => none

/-- The special-state numbers of R48. -/
def Sid.code : Sid → BitVec 5
  | .lane => 0x00 | .slice => 0x01 | .group => 0x02 | .team => 0x03
  | .core => 0x04 | .cluster => 0x05 | .die => 0x06 | .gridx => 0x07
  | .gridy => 0x08 | .gridz => 0x09 | .blk => 0x0A | .depth => 0x0B
  | .flags => 0x0C | .mode => 0x0D | .time => 0x0E | .lc0 => 0x10
  | .lc1 => 0x11 | .lc2 => 0x12

/-- `len` bits of a word from bit `lo` up. -/
def fld (w : Dword) (lo len : Nat) : BitVec len := w.extractLsb' lo len

/-- The same bits as a number. -/
def num (w : Dword) (lo len : Nat) : Nat := (fld w lo len).toNat

/-- One bit of a word. -/
def flag (w : Dword) (i : Nat) : Bool := num w i 1 == 1

/-- The register fields, `k` and the header of a full word (R34). -/
def hdrOf (w : Dword) : Hdr := ⟨flag w 63, fld w 53 8⟩

/-- The ops of layout A. -/
def ctorA : Nat → Option (AOp → Instr)
  | 0x000 => some .add
  | 0x001 => some .sub
  | 0x002 => some .mul
  | 0x003 => some .mulhi
  | 0x004 => some .mulw
  | 0x005 => some .mad
  | 0x006 => some .madw
  | 0x007 => some .min
  | 0x008 => some .max
  | 0x009 => some .abs
  | 0x00A => some .neg
  | 0x00B => some .and
  | 0x00C => some .or
  | 0x00D => some .xor
  | 0x00E => some .not
  | 0x00F => some .andn
  | 0x010 => some .shl
  | 0x011 => some .shr
  | 0x012 => some .sra
  | 0x013 => some .rol
  | 0x014 => some .ror
  | 0x015 => some .bfx
  | 0x016 => some .bfi
  | 0x017 => some .popc
  | 0x018 => some .clz
  | 0x019 => some .ctz
  | 0x01A => some .brev
  | 0x01C => some .sel
  | 0x01D => some .mov
  | 0x01E => some .adda
  | 0x01F => some .addsc
  | 0x040 => some .fadd
  | 0x041 => some .fsub
  | 0x042 => some .fmul
  | 0x043 => some .fma
  | 0x044 => some .fmin
  | 0x045 => some .fmax
  | 0x046 => some .fminn
  | 0x047 => some .fmaxn
  | 0x048 => some .fabs
  | 0x049 => some .fneg
  | 0x04B => some .fclass
  | 0x04C => some .frint
  | 0x04D => some .fscale
  | 0x081 => some .rcps
  | 0x082 => some .rsqs
  | _ => none

/-- The ops of layout C. -/
def ctorC : Nat → Option (COp → Instr)
  | 0x01B => some .cmp
  | 0x04A => some .fcmp
  | _ => none

/-- The ops of layout X. -/
def ctorX : Nat → Option (XOp → Instr)
  | 0x084 => some .shfl
  | 0x085 => some .red
  | 0x086 => some .scan
  | 0x087 => some .ballot
  | 0x088 => some .any
  | 0x089 => some .all
  | 0x08A => some .matchLanes
  | _ => none

/-- The ops of layout M. -/
def ctorM : Nat → Option (MOp → Instr)
  | 0x0C0 => some .ld
  | 0x0C1 => some .lds
  | 0x0C2 => some .st
  | 0x0C5 => some .feset
  | 0x0C6 => some .feclr
  | 0x0C7 => some .fetest
  | _ => none

/-- The ops of layout P. -/
def ctorP : Nat → Option (POp → Instr)
  | 0x0C3 => some .sptest
  | 0x0C4 => some .spcast
  | _ => none

/-- The ops of layout T. -/
def ctorT : Nat → Option (TOp → Instr)
  | 0x100 => some .aadd
  | 0x101 => some .amin
  | 0x102 => some .amax
  | 0x103 => some .aand
  | 0x104 => some .aor
  | 0x105 => some .axor
  | 0x106 => some .aexch
  | 0x107 => some .acas
  | 0x108 => some .afadd
  | 0x109 => some .ofadd
  | _ => none

/-- The engine ops of layout E with plain register fields. -/
def ctorE : Nat → Option (EOp → Instr)
  | 0x180 => some .copy
  | 0x181 => some .gather
  | 0x182 => some .scatter
  | 0x188 => some .srank
  | 0x189 => some .scmp
  | 0x190 => some .coll
  | 0x191 => some .msg
  | 0x199 => some .wld
  | 0x1C7 => some .launch
  | 0x1C8 => some .evsig
  | _ => none

/-- The accumulator transfers. -/
def ctorAcc : Nat → Option (AccOp → Instr)
  | 0x19B => some .accld
  | 0x19C => some .accst
  | 0x19D => some .accrd
  | 0x19E => some .accz
  | _ => none

/-- The pair opcodes (R58). -/
def PairOp.ofCode : Nat → Option PairOp
  | 0x00 => some .nop
  | 0x01 => some .mov
  | 0x02 => some .add
  | 0x03 => some .sub
  | 0x04 => some .mul
  | 0x05 => some .and
  | 0x06 => some .or
  | 0x07 => some .xor
  | 0x08 => some .shl
  | 0x09 => some .shr
  | 0x0A => some .sra
  | 0x0B => some .min
  | 0x0C => some .max
  | 0x10 => some .addi
  | 0x11 => some .shli
  | 0x12 => some .shri
  | 0x13 => some .srai
  | 0x14 => some .andi
  | 0x15 => some .movi
  | 0x20 => some .fadd
  | 0x21 => some .fsub
  | 0x22 => some .fmul
  | 0x23 => some .fmin
  | 0x24 => some .fmax
  | 0x25 => some .fminn
  | 0x26 => some .fmaxn
  | 0x27 => some .fabs
  | 0x28 => some .fneg
  | 0x30 => some .cvtif
  | 0x31 => some .cvtfi
  | _ => none

/-- The pair instruction whose half A has the given opcode. -/
def PairOp.instr : PairOp → Hdr → HalfArgs → Half → Instr
  | .nop, h, a, s => .pairNop h a s
  | .mov, h, a, s => .pairMov h a s
  | .add, h, a, s => .pairAdd h a s
  | .sub, h, a, s => .pairSub h a s
  | .mul, h, a, s => .pairMul h a s
  | .and, h, a, s => .pairAnd h a s
  | .or, h, a, s => .pairOr h a s
  | .xor, h, a, s => .pairXor h a s
  | .shl, h, a, s => .pairShl h a s
  | .shr, h, a, s => .pairShr h a s
  | .sra, h, a, s => .pairSra h a s
  | .min, h, a, s => .pairMin h a s
  | .max, h, a, s => .pairMax h a s
  | .addi, h, a, s => .pairAddi h a s
  | .shli, h, a, s => .pairShli h a s
  | .shri, h, a, s => .pairShri h a s
  | .srai, h, a, s => .pairSrai h a s
  | .andi, h, a, s => .pairAndi h a s
  | .movi, h, a, s => .pairMovi h a s
  | .fadd, h, a, s => .pairFadd h a s
  | .fsub, h, a, s => .pairFsub h a s
  | .fmul, h, a, s => .pairFmul h a s
  | .fmin, h, a, s => .pairFmin h a s
  | .fmax, h, a, s => .pairFmax h a s
  | .fminn, h, a, s => .pairFminn h a s
  | .fmaxn, h, a, s => .pairFmaxn h a s
  | .fabs, h, a, s => .pairFabs h a s
  | .fneg, h, a, s => .pairFneg h a s
  | .cvtif, h, a, s => .pairCvtif h a s
  | .cvtfi, h, a, s => .pairCvtfi h a s

/-- Source B of a full word (R38): `none` where the selector field is malformed. -/
def srcOf (w lit : Dword) : Option Src :=
  if num w 61 2 == 2 then
    if num w 21 6 == 0 then some (.lit (fld w 19 2) lit) else none
  else some (.reg (fld w 19 8))

def mkA (w : Dword) (b : Src) : Option AOp := do
  let fmt ← Fmt.ofCode (num w 6 5)
  let rm ← Rm.ofCode (num w 3 3)
  let sat ← Sat.ofCode (num w 1 2)
  some ⟨hdrOf w, flag w 43, fld w 35 8, fld w 27 8, b, fld w 11 8, fmt, rm, sat, flag w 0⟩

def mkC (w : Dword) (b : Src) : Option COp := do
  let fmt ← Fmt.ofCode (num w 6 5)
  let cond ← Cond.ofCode (num w 2 4)
  if num w 11 8 == 0 then
    some ⟨hdrOf w, flag w 43, fld w 35 8, fld w 27 8, b, fmt, cond, flag w 1, flag w 0⟩
  else none

def mkCvt (w : Dword) : Option CvtOp := do
  let src ← Fmt.ofCode (num w 19 5)
  let fmt ← Fmt.ofCode (num w 6 5)
  let rm ← Rm.ofCode (num w 3 3)
  let sat ← Sat.ofCode (num w 1 2)
  if num w 24 3 == 0 then
    some ⟨hdrOf w, flag w 43, fld w 35 8, fld w 27 8, fld w 11 8, src, fmt, rm, sat, flag w 0⟩
  else none

def mkK (w : Dword) : Option KOp :=
  if num w 11 8 == 0 && num w 0 3 == 0 then
    some ⟨hdrOf w, flag w 43, fld w 35 8, fld w 27 8, fld w 19 8, fld w 8 3, fld w 3 5⟩
  else none

def mkX (w : Dword) (b : Src) : Option XOp := do
  let fmt ← Fmt.ofCode (num w 6 5)
  if num w 11 8 == 0 then
    some ⟨hdrOf w, flag w 43, fld w 35 8, fld w 27 8, b, fmt, fld w 2 4, fld w 0 2⟩
  else none

def mkM (w : Dword) (b : Src) : MOp :=
  ⟨hdrOf w, flag w 43, fld w 35 8, fld w 27 8, b, fld w 11 8, fld w 8 3, fld w 6 2, fld w 3 3,
    flag w 2, fld w 0 2⟩

def mkP (w : Dword) : Option POp :=
  if num w 19 8 == 0 && num w 11 8 == 0 && num w 3 8 == 0 then
    some ⟨hdrOf w, flag w 43, fld w 35 8, fld w 27 8, fld w 0 3⟩
  else none

def mkT (w : Dword) (b : Src) : Option TOp := do
  let fmt ← Fmt.ofCode (num w 6 5)
  some ⟨hdrOf w, flag w 43, fld w 35 8, fld w 27 8, b, fld w 11 8, fmt, fld w 4 2, fld w 1 3,
    flag w 0⟩

def mkE (w : Dword) : Option EOp := do
  let fmt ← Fmt.ofCode (num w 6 5)
  if flag w 43 then none
  else some ⟨hdrOf w, fld w 35 8, fld w 27 8, fld w 19 8, fld w 11 8, fmt, fld w 0 6⟩

def mkY (w : Dword) : Option YOp := do
  let fmt ← Fmt.ofCode (num w 6 5)
  let rm ← Rm.ofCode (num w 3 3)
  if num w 35 9 == 0 && num w 24 3 == 0 && num w 13 6 == 0 then
    some ⟨hdrOf w, fld w 27 8, fld w 19 5, flag w 12, flag w 11, fmt, rm, fld w 1 2, flag w 0⟩
  else none

/-- `k` must be 1 in `accrd` and 0 in the others (R232). -/
def mkAcc (w : Dword) (k : Bool) : Option AccOp := do
  let fmt ← Fmt.ofCode (num w 6 5)
  if flag w 43 == k && num w 24 3 == 0 && num w 18 1 == 0 then
    some ⟨hdrOf w, fld w 35 8, fld w 27 8, fld w 19 5, fld w 11 7, fmt, fld w 0 6⟩
  else none

/-- The fields of a word that must be 0 are 0. -/
def zeros (w : Dword) (l : List (Nat × Nat)) : Bool := l.all fun p => num w p.1 p.2 == 0

/-- Words whose fields have no layout record of their own (R46, R47, R156 to R159, R203, R218, R225,
R296). The outer `none` says that the op is unassigned, the inner one that a field is reserved. -/
def mkOther (op : Nat) (w : Dword) (b : Option Src) : Option (Option Instr) :=
  let h := hdrOf w
  let va : Reg := fld w 27 8
  let z (l : List (Nat × Nat)) (i : Instr) : Option (Option Instr) :=
    some (if zeros w l then some i else none)
  match op with
  | 0x10A =>
    if num w 9 2 == 1 then z [(35, 9), (27, 8), (19, 8), (11, 8), (0, 9)] (.fenceOpr h)
    else z [(35, 9), (27, 8), (19, 8), (11, 8), (9, 2), (6, 3), (0, 1)] (.fence h (fld w 4 2) (fld w 1 3))
  | 0x10B => z [(35, 9), (0, 11)] (.wait h (fld w 29 6) (fld w 23 6) (fld w 17 6) (fld w 11 6))
  | 0x10C => z [(35, 9), (27, 8), (19, 8), (11, 8), (4, 7)] (.arrive h (fld w 0 4))
  | 0x10D => z [(35, 9), (27, 8), (19, 8), (11, 8), (4, 7)] (.bwait h (fld w 0 4))
  | 0x140 => z [(35, 9), (27, 8), (0, 15)] (.br h (fld w 15 12))
  | 0x141 => z [(35, 9), (0, 3)] (.brc h va (fld w 15 12) (fld w 3 12))
  | 0x142 => z [(35, 9), (0, 27)] (.brx h va)
  | 0x143 => z [(35, 9), (27, 8), (0, 27)] (.vote h)
  | 0x144 => z [(35, 9), (27, 8), (0, 27)] (.regang h)
  | 0x145 => z [(35, 9), (0, 11)] (.loop h va (fld w 11 16))
  | 0x146 => z [(35, 9), (27, 8), (0, 27)] (.yield h)
  | 0x147 => z [(35, 9), (27, 8), (0, 27)] (.exit h)
  | 0x148 => z [(35, 9), (27, 8), (0, 11)] (.call h (fld w 11 16))
  | 0x149 => z [(35, 9), (0, 27)] (.calli h va)
  | 0x14A => z [(35, 9), (27, 8), (0, 27)] (.ret h)
  | 0x14B => z [(35, 9), (0, 15)] (.unwind h va (fld w 15 12))
  | 0x198 => z [(35, 9), (0, 27)] (.crew h va)
  | 0x1C0 => z [(35, 9), (27, 8), (0, 27)] (.nop h none)
  | 0x1C1 =>
    match Sid.ofCode (num w 0 5) with
    | some sid => z [(27, 8), (19, 8), (11, 8), (5, 6)] (.movs h (flag w 43) (fld w 35 8) sid)
    | none => some none
  | 0x1C2 =>
    match Sid.ofCode (num w 0 5), b with
    | some sid, some b => z [(35, 9), (27, 8), (11, 8), (5, 6)] (.movsm h sid b)
    | _, _ => some none
  | 0x1C3 => z [(35, 9), (27, 8), (8, 19)] (.trap h (fld w 0 8))
  | 0x1C4 => z [(35, 9), (27, 8), (8, 19)] (.brkpt h (fld w 0 8))
  | 0x1C5 => z [(35, 9), (27, 8), (0, 11)] (.enter h (fld w 11 16))
  | 0x1C6 => z [(35, 9), (27, 8), (0, 11)] (.leave h (fld w 11 16))
  | _ => none

/-- The instruction of a full word with an assigned op, before its field checks. -/
def fullInstr (op : Nat) (w : Dword) (b : Option Src) : Option (Option Instr) :=
  match ctorA op with
  | some c => some (b.bind fun b => (mkA w b).map c)
  | none =>
  match ctorC op with
  | some c => some (b.bind fun b => (mkC w b).map c)
  | none =>
  match ctorX op with
  | some c => some (b.bind fun b => (mkX w b).map c)
  | none =>
  match ctorM op with
  | some c => some (b.map fun b => c (mkM w b))
  | none =>
  match ctorP op with
  | some c => some ((mkP w).map c)
  | none =>
  match ctorT op with
  | some c => some (b.bind fun b => (mkT w b).map c)
  | none =>
  match ctorE op with
  | some c => some ((mkE w).map c)
  | none =>
  match ctorAcc op with
  | some c => some ((mkAcc w (op == 0x19D)).map c)
  | none =>
  match op with
  | 0x080 => some ((mkCvt w).map .cvt)
  | 0x083 => some ((mkK w).map .cord)
  | 0x19A => some ((mkY w).map .mma)
  | _ => mkOther op w b

/-- The ops marked L, by number (R50 to R54, R57). -/
def opTakesLiteral (op : Nat) : Bool :=
  op ≤ 0x008 || (0x00B ≤ op && op ≤ 0x00D) || (0x00F ≤ op && op ≤ 0x016)
    || (0x01B ≤ op && op ≤ 0x01F) || (0x040 ≤ op && op ≤ 0x047) || op == 0x04A || op == 0x04D
    || op == 0x084 || (0x0C0 ≤ op && op ≤ 0x0C2) || (0x100 ≤ op && op ≤ 0x109) || op == 0x1C2

/-- The half whose bits start at `lo` (R39): `none` where its `sop` is unassigned. -/
def halfOf (w : Dword) (lo : Nat) : Option Half :=
  (PairOp.ofCode (num w (lo + 20) 6)).map fun op =>
    ⟨op, ⟨flag w (lo + 19), fld w (lo + 11) 8, fld w (lo + 3) 8, fld w lo 3⟩⟩

/-- The last checks of R43: fields (step 6), then the pair rules (step 7). -/
def accept (i : Instr) : Except DecErr Instr :=
  if i.fieldsOk then (if i.pairOk then .ok i else .error .pair) else .error .field

/-- The instruction that a word and the 64 bits behind it stand for (R33 to R47, R43). A word with a bad
form or an unassigned op is the table's own row `UNASSIGNED_OPCODE`; steps 6 and 7 reject by name; step 5
needs the state and is made by the fetch. -/
def decode (w lit : Dword) : Except DecErr Instr :=
  let h := hdrOf w
  let form := num w 61 2
  if form == 3 || (form == 1 && flag w 0) then .ok (.unassignedOpcode h true)
  else if h.m == 0 then .ok (.nop h (if form == 2 then some lit else none))
  else if form == 1 then
    match halfOf w 27, halfOf w 1 with
    | some a, some s => accept (a.op.instr h a.args s)
    | _, _ => .ok (.unassignedOpcode h false)
  else
    let op := num w 44 9
    match fullInstr op w (srcOf w lit) with
    | none => .ok (.unassignedOpcode h false)
    | some r =>
      if form == 2 && !opTakesLiteral op then .ok (.unassignedOpcode h true)
      else
        match r with
        | some i => accept i
        | none => .error .field

/-- How many words the instruction of a word occupies (R33). -/
def wordsOf (w : Dword) : Nat := if num w 61 2 == 2 then 2 else 1

/-- Decode bytes as the hardware stores them (R1): the instruction and the bytes behind it. Missing bytes
read as 0. -/
def decodeBytes (bs : List Byte) : Except DecErr (Instr × List Byte) :=
  let w := BitVec.ofNat 64 (ofLeBytes (bs.take 8))
  let lit := BitVec.ofNat 64 (ofLeBytes ((bs.drop 8).take 8))
  match decode w lit with
  | .ok i => .ok (i, bs.drop (8 * wordsOf w))
  | .error e => .error e

/-- The instruction that the decoder reads from an instruction whose bits are `w`. -/
def decodeTableWord (nbits w : Nat) : Option Instr :=
  match decodeBytes (leBytes (w % 2 ^ nbits) 16) with
  | .ok (i, _) => some i
  | .error _ => none

/-- The code of a pair opcode (R58). -/
def PairOp.code : PairOp → BitVec 6
  | .nop => 0x00
  | .mov => 0x01
  | .add => 0x02
  | .sub => 0x03
  | .mul => 0x04
  | .and => 0x05
  | .or => 0x06
  | .xor => 0x07
  | .shl => 0x08
  | .shr => 0x09
  | .sra => 0x0A
  | .min => 0x0B
  | .max => 0x0C
  | .addi => 0x10
  | .shli => 0x11
  | .shri => 0x12
  | .srai => 0x13
  | .andi => 0x14
  | .movi => 0x15
  | .fadd => 0x20
  | .fsub => 0x21
  | .fmul => 0x22
  | .fmin => 0x23
  | .fmax => 0x24
  | .fminn => 0x25
  | .fmaxn => 0x26
  | .fabs => 0x27
  | .fneg => 0x28
  | .cvtif => 0x30
  | .cvtfi => 0x31

def bit (b : Bool) : BitVec 1 := BitVec.ofBool b

/-- A full word from its fields (R34). -/
def full (h : Hdr) (form : BitVec 2) (op : BitVec 9) (k : Bool) (vd va vb vc : BitVec 8)
    (md : BitVec 11) : Dword :=
  bit h.b ++ form ++ h.m ++ op ++ bit k ++ vd ++ va ++ vb ++ vc ++ md

/-- A full word whose bits below `vd` are given whole, with `k` and `vd` 0 (R46, R47). -/
def fullLow (h : Hdr) (op : BitVec 9) (low : BitVec 35) : Dword :=
  bit h.b ++ (0 : BitVec 2) ++ h.m ++ op ++ (0 : BitVec 9) ++ low

/-- The form, the `vb` field and the literal word that a source B takes (R38). -/
def Src.form : Src → BitVec 2
  | .reg _ => 0
  | .lit _ _ => 2

def Src.field : Src → BitVec 8
  | .reg r => r
  | .lit sel _ => (0 : BitVec 6) ++ sel

def Src.word : Src → Option Dword
  | .reg _ => none
  | .lit _ v => some v

def encA (op : BitVec 9) (o : AOp) : Dword × Option Dword :=
  (full o.h o.vb.form op o.k o.vd o.va o.vb.field o.vc
    (o.fmt.code ++ o.rm.code ++ o.sat.code ++ bit o.x), o.vb.word)

def encC (op : BitVec 9) (o : COp) : Dword × Option Dword :=
  (full o.h o.vb.form op o.k o.vd o.va o.vb.field 0
    (o.fmt.code ++ o.cond.code ++ bit o.sig ++ bit o.x), o.vb.word)

def encCvt (o : CvtOp) : Dword × Option Dword :=
  (full o.h 0 0x080 o.k o.vd o.va ((0 : BitVec 3) ++ o.src.code) o.vc
    (o.fmt.code ++ o.rm.code ++ o.sat.code ++ bit o.x), none)

def encK (o : KOp) : Dword × Option Dword :=
  (full o.h 0 0x083 o.k o.vd o.va o.vb 0 (o.cmode ++ o.iter ++ (0 : BitVec 3)), none)

def encX (op : BitVec 9) (o : XOp) : Dword × Option Dword :=
  (full o.h o.vb.form op o.k o.vd o.va o.vb.field 0 (o.fmt.code ++ o.opr ++ o.x), o.vb.word)

def encM (op : BitVec 9) (o : MOp) : Dword × Option Dword :=
  (full o.h o.vb.form op o.k o.vd o.va o.vb.field o.vc
    (o.size ++ o.order ++ o.scope ++ bit o.rmt ++ o.fe), o.vb.word)

def encP (op : BitVec 9) (o : POp) : Dword × Option Dword :=
  (full o.h 0 op o.k o.vd o.va 0 0 ((0 : BitVec 8) ++ o.win), none)

def encT (op : BitVec 9) (o : TOp) : Dword × Option Dword :=
  (full o.h o.vb.form op o.k o.vd o.va o.vb.field o.vc
    (o.fmt.code ++ o.order ++ o.scope ++ bit o.rmt), o.vb.word)

def encE (op : BitVec 9) (o : EOp) : Dword × Option Dword :=
  (full o.h 0 op false o.vd o.va o.vb o.vc (o.fmt.code ++ o.jf), none)

def encAcc (op : BitVec 9) (k : Bool) (o : AccOp) : Dword × Option Dword :=
  (full o.h 0 op k o.vd o.va ((0 : BitVec 3) ++ o.arow) ((0 : BitVec 1) ++ o.col)
    (o.fmt.code ++ o.jf), none)

/-- A pair word (R39). -/
def pairWord (h : Hdr) (a s : Half) : Dword :=
  let half (x : Half) : BitVec 26 :=
    x.op.code ++ bit x.args.k ++ x.args.vd ++ x.args.vs ++ x.args.smod
  bit h.b ++ (1 : BitVec 2) ++ h.m ++ half a ++ half s ++ (0 : BitVec 1)

/-- The words of an instruction: the word, and its literal word where it has one. -/
def Instr.encode : Instr → Dword × Option Dword
  | .add o => encA 0x000 o
  | .sub o => encA 0x001 o
  | .mul o => encA 0x002 o
  | .mulhi o => encA 0x003 o
  | .mulw o => encA 0x004 o
  | .mad o => encA 0x005 o
  | .madw o => encA 0x006 o
  | .min o => encA 0x007 o
  | .max o => encA 0x008 o
  | .abs o => encA 0x009 o
  | .neg o => encA 0x00A o
  | .and o => encA 0x00B o
  | .or o => encA 0x00C o
  | .xor o => encA 0x00D o
  | .not o => encA 0x00E o
  | .andn o => encA 0x00F o
  | .shl o => encA 0x010 o
  | .shr o => encA 0x011 o
  | .sra o => encA 0x012 o
  | .rol o => encA 0x013 o
  | .ror o => encA 0x014 o
  | .bfx o => encA 0x015 o
  | .bfi o => encA 0x016 o
  | .popc o => encA 0x017 o
  | .clz o => encA 0x018 o
  | .ctz o => encA 0x019 o
  | .brev o => encA 0x01A o
  | .sel o => encA 0x01C o
  | .mov o => encA 0x01D o
  | .adda o => encA 0x01E o
  | .addsc o => encA 0x01F o
  | .fadd o => encA 0x040 o
  | .fsub o => encA 0x041 o
  | .fmul o => encA 0x042 o
  | .fma o => encA 0x043 o
  | .fmin o => encA 0x044 o
  | .fmax o => encA 0x045 o
  | .fminn o => encA 0x046 o
  | .fmaxn o => encA 0x047 o
  | .fabs o => encA 0x048 o
  | .fneg o => encA 0x049 o
  | .fclass o => encA 0x04B o
  | .frint o => encA 0x04C o
  | .fscale o => encA 0x04D o
  | .rcps o => encA 0x081 o
  | .rsqs o => encA 0x082 o
  | .cmp o => encC 0x01B o
  | .fcmp o => encC 0x04A o
  | .cvt o => encCvt o
  | .cord o => encK o
  | .shfl o => encX 0x084 o
  | .red o => encX 0x085 o
  | .scan o => encX 0x086 o
  | .ballot o => encX 0x087 o
  | .any o => encX 0x088 o
  | .all o => encX 0x089 o
  | .matchLanes o => encX 0x08A o
  | .ld o => encM 0x0C0 o
  | .lds o => encM 0x0C1 o
  | .st o => encM 0x0C2 o
  | .feset o => encM 0x0C5 o
  | .feclr o => encM 0x0C6 o
  | .fetest o => encM 0x0C7 o
  | .sptest o => encP 0x0C3 o
  | .spcast o => encP 0x0C4 o
  | .aadd o => encT 0x100 o
  | .amin o => encT 0x101 o
  | .amax o => encT 0x102 o
  | .aand o => encT 0x103 o
  | .aor o => encT 0x104 o
  | .axor o => encT 0x105 o
  | .aexch o => encT 0x106 o
  | .acas o => encT 0x107 o
  | .afadd o => encT 0x108 o
  | .ofadd o => encT 0x109 o
  | .fence h order scope => (full h 0 0x10A false 0 0 0 0 ((0 : BitVec 5) ++ order ++ scope ++ (0 : BitVec 1)), none)
  | .fenceOpr h => (full h 0 0x10A false 0 0 0 0 0x200, none)
  | .wait h a b c d => (fullLow h 0x10B (a ++ b ++ c ++ d ++ (0 : BitVec 11)), none)
  | .arrive h bar => (full h 0 0x10C false 0 0 0 0 ((0 : BitVec 7) ++ bar), none)
  | .bwait h bar => (full h 0 0x10D false 0 0 0 0 ((0 : BitVec 7) ++ bar), none)
  | .br h a => (fullLow h 0x140 ((0 : BitVec 8) ++ a ++ (0 : BitVec 15)), none)
  | .brc h va a b => (fullLow h 0x141 (va ++ a ++ b ++ (0 : BitVec 3)), none)
  | .brx h va => (fullLow h 0x142 (va ++ (0 : BitVec 27)), none)
  | .vote h => (fullLow h 0x143 0, none)
  | .regang h => (fullLow h 0x144 0, none)
  | .loop h va e => (fullLow h 0x145 (va ++ e ++ (0 : BitVec 11)), none)
  | .yield h => (fullLow h 0x146 0, none)
  | .exit h => (fullLow h 0x147 0, none)
  | .call h f => (fullLow h 0x148 ((0 : BitVec 8) ++ f ++ (0 : BitVec 11)), none)
  | .calli h va => (fullLow h 0x149 (va ++ (0 : BitVec 27)), none)
  | .ret h => (fullLow h 0x14A 0, none)
  | .unwind h va a => (fullLow h 0x14B (va ++ a ++ (0 : BitVec 15)), none)
  | .crew h va => (fullLow h 0x198 (va ++ (0 : BitVec 27)), none)
  | .mma o => (full o.h 0 0x19A false 0 o.va ((0 : BitVec 3) ++ o.arow)
      ((0 : BitVec 6) ++ bit o.cz ++ bit o.bank) (o.fmt.code ++ o.rm.code ++ o.prio ++ bit o.reuse), none)
  | .nop h lit => (full h (if lit.isSome then 2 else 0) 0x1C0 false 0 0 0 0 0, lit)
  | .movs h k vd sid => (full h 0 0x1C1 k vd 0 0 0 ((0 : BitVec 6) ++ sid.code), none)
  | .movsm h sid vb => (full h vb.form 0x1C2 false 0 0 vb.field 0 ((0 : BitVec 6) ++ sid.code), vb.word)
  | .trap h imm => (full h 0 0x1C3 false 0 0 0 0 ((0 : BitVec 3) ++ imm), none)
  | .brkpt h imm => (full h 0 0x1C4 false 0 0 0 0 ((0 : BitVec 3) ++ imm), none)
  | .enter h id => (fullLow h 0x1C5 ((0 : BitVec 8) ++ id ++ (0 : BitVec 11)), none)
  | .leave h id => (fullLow h 0x1C6 ((0 : BitVec 8) ++ id ++ (0 : BitVec 11)), none)
  | .copy o => encE 0x180 o
  | .gather o => encE 0x181 o
  | .scatter o => encE 0x182 o
  | .srank o => encE 0x188 o
  | .scmp o => encE 0x189 o
  | .coll o => encE 0x190 o
  | .msg o => encE 0x191 o
  | .wld o => encE 0x199 o
  | .launch o => encE 0x1C7 o
  | .evsig o => encE 0x1C8 o
  | .accld o => encAcc 0x19B false o
  | .accst o => encAcc 0x19C false o
  | .accrd o => encAcc 0x19D true o
  | .accz o => encAcc 0x19E false o
  | i =>
    match i.halves with
    | some (h, a, s) => (pairWord h a s, none)
    | none => (0, none)

end Sys2Proof
end

