-- ==== Sys2Proof/Machine/State.lean ====
section
/-! DEFINITION. The state of the package: plain data, every piece of it named by a rule of the spec
(INVENTORY.md lists them), and the reset state. -/

namespace Sys2Proof.Machine

open Sys2Proof

/-! ## Lanes, slices, frames -/

/-- R61; `seq` is the `ofadd` count of R294. -/
structure Lane where
  blk : BitVec 12
  nxt : BitVec 12
  park : Bool
  sweep : Bool
  depth : BitVec 8
  seq : Word
  deriving DecidableEq, Repr

/-- A hardware loop (R87): words `start` to `stop`, `count` iterations left. -/
structure LoopEntry where
  count : Word
  start : BitVec 16
  stop : BitVec 16
  deriving DecidableEq, Repr

inductive SliceStatus where
  | gang | lone | peel | await | done
  deriving DecidableEq, Repr

/-- R62; `loops` holds the outermost loop first; `armed` is R202's bit per barrier. -/
structure Slice where
  sid : BitVec 16
  off : BitVec 16
  cursor : BitVec 12
  status : SliceStatus
  tag : BitVec 4
  loops : List LoopEntry
  patience : BitVec 16
  armed : BitVec 16
  deriving DecidableEq, Repr

/-- A return record (R133). -/
structure RetRec where
  block : BitVec 12
  fn : BitVec 16
  deriving DecidableEq, Repr

/-- Where a frame stands (R196, R198, R334): in the register pool, at a 256-byte unit of frame data in the save frame
(none where frame data has no room left, log entry 12), or at a unit of the memory spill area, since when. -/
inductive FramePlace where
  | pool
  | saved (unit : Option Nat)
  | spilled (unit units since : Nat)
  deriving DecidableEq, Repr

/-- A frame (R134, R194). `seeds` has one entry per granule and names the free values its registers hold
until they are written; `regs` holds the written registers by lane × 256 + register; `recs` the return
records by lane; `late` what has arrived for registers of a spilled frame, which no write reaches before its refill
(R196). -/
structure Frame where
  seeds : List Nat
  regs : KMap Word
  recs : KMap RetRec
  late : KMap Word
  stamp : Nat
  place : FramePlace
  deriving DecidableEq, Repr

/-- One word of the forwarding window (R83). An asynchronous word (R84) writes the registers `regs` of the
lanes `lanes` in the bank only; another word wrote `vals`, by lane × 256 + register. -/
structure WinEntry where
  async : Bool
  regs : List Nat
  lanes : List Nat
  vals : KMap Word
  deriving DecidableEq, Repr

/-- Why a gang is blocked at its word (R67, R189). -/
inductive Block where
  | wait (ld st eng tile : Nat)
  | bwait (bar : Nat)
  | frame
  | crew (mask : BitVec 16)
  deriving DecidableEq, Repr

/-! ## Faults -/

/-- A record of the host fault queue (R336). `gk` and `job` say which group and which engine job of it the
model's answer goes to. -/
structure FaultRec where
  ty : Nat
  code : BitVec 8
  cause : BitVec 8
  bits : BitVec 8
  core : Nat
  slot : Nat
  tag : Nat
  launch : Word
  pos : Word
  addr : Dword
  lane : Nat
  under : BitVec 16
  row : Word
  col : Word
  regions : List (BitVec 16)
  imm : BitVec 16
  time : Dword
  frame : Dword
  gk : Nat
  job : Option Nat
  deriving DecidableEq, Repr

/-! ## Outstanding operations of a group -/

inductive AccKind where
  | ld | lds | st | fetest | feset | feclr
  | aadd | amin | amax | aand | aor | axor | aexch | acas | afadd | ofadd
  | fence | evsig | launch
  deriving DecidableEq, Repr

/-- One lane's part of an access: the address captured at issue, the home key it translates to (`KMap`
keys of memory), the data to store, and what came back. -/
structure LaneAcc where
  lane : Nat
  depth : BitVec 8
  ea : Dword
  target : Nat
  nc : Bool
  data : Nat
  cmp : Nat
  done : Bool
  queued : Bool
  promoted : Bool
  value : Nat
  /-- of a fabric address: the port of the path entry that the word's checks read (R340, R372) -/
  port : Nat
  deriving DecidableEq, Repr

/-- An access word in flight, or complete and not yet covered by a `wait` (R84, R154). `dests` are its
destination registers as (depth × 64 + lane) × 256 + register; `stale` are those a later word has written,
which its data no longer reaches. -/
structure Access where
  id : Nat
  kind : AccKind
  size : Nat
  fmt : Fmt
  order : Nat
  scope : Nat
  rmt : Bool
  fe : Nat
  vd : Nat
  lanes : List LaneAcc
  dests : List Nat
  stale : List Nat
  flags : Word
  complete : Bool
  /-- the watchpoint record that a lane of the word has posted (R348) -/
  watched : Option FaultRec
  pos : Word
  word : Dword
  lit : Dword
  deriving DecidableEq, Repr

/-- One element of an accumulator transfer: its target, whether it bypasses the cache, and the port of a fabric
target's path entry as the word's checks read it (R340, R372). -/
structure XferElem where
  target : Nat
  nc : Bool
  port : Nat
  deriving DecidableEq, Repr

/-- One lane of an accumulator transfer (R233): its address and elements. -/
structure XferLane where
  lane : Nat
  depth : BitVec 8
  ea : Dword
  elems : List XferElem
  deriving DecidableEq, Repr

inductive XferKind where
  | ld | st | rd | z
  deriving DecidableEq, Repr

inductive BankStatus where
  | empty | loading | ready
  deriving DecidableEq, Repr

/-- A logical weight bank (R210): home keys of its arrays, format, generation, status; `since` is when its
`wld` was issued. -/
structure LBank where
  elem : Nat
  scale : Nat
  extra : Nat
  fmt : Fmt
  gen : Nat
  status : BankStatus
  since : Nat
  deriving DecidableEq, Repr

/-- A `wld` keeps the bank that it loads, and, once its wait for full bits has begun, the granules not yet found full.
An `mma` keeps its entry, the columns it writes, whether a changed register spoils all its rows (R228), and the cells,
as row × 128 + column, that a later tile operation has written or that are undefined already (R227). -/
inductive TileKind where
  | wld (bank : Nat) (b : LBank) (full : Bool) (pending : Option (List Nat))
  | mma (entry cols : Nat) (whole : Bool) (gone : List Nat)
  | xfer (kind : XferKind) (col cnt : Nat) (fmt : Fmt) (vd : Nat) (mode : Word) (todo : List XferLane)
  deriving DecidableEq, Repr

/-- A tile operation in flight or not yet covered by a `wait`. `srcs` are the registers that the array reads
for it, `stale` those of `srcs` and `dests` that a later word has written; `lanes` act on accumulator rows
`base` + lane, and `rowFlags` are the flags of their rows. -/
structure TileOp where
  id : Nat
  kind : TileKind
  dests : List Nat
  srcs : List Nat
  stale : List Nat
  base : Nat
  lanes : List Nat
  rowFlags : KMap Word
  flags : Word
  complete : Bool
  pos : Word
  deriving DecidableEq, Repr

/-! ## Stops -/

/-- Why a group stands still (R95, R338, R344, R328). -/
inductive HaltWhy where
  | fault | park | debug | preempt
  deriving DecidableEq, Repr

structure Halt where
  why : HaltWhy
  code : BitVec 8
  /-- the time of the record that reports it -/
  time : Dword
  /-- parked: the lane that met the unresolved translation -/
  lane : Nat
  /-- the gang whose word was reported -/
  tag : Nat
  /-- a stop before a word: what it matched, so that the word is not matched against it again (R343) -/
  before : Option Nat
  deriving DecidableEq, Repr

/-! ## Groups and teams -/

/-- What an `mma` with `reuse` asks software to leave as it is until the next `mma` of its crew is covered (R228): `va`,
and the registers read from; `broken` once one of them is written. -/
structure Keep where
  va : Nat
  srcs : List Nat
  broken : Bool
  deriving DecidableEq, Repr

/-- A group (R63). Groups are kept under team × 16 + `sx.group`. -/
structure Group where
  team : Nat
  gidx : Nat
  slot : Nat
  resident : Bool
  swapped : Bool
  lanes : List Lane
  slices : List Slice
  frames : KMap Frame
  mode : Word
  flags : Word
  absent : Word
  window : List WinEntry
  winTag : Nat
  regions : List (BitVec 16)
  regOverflow : Bool
  loads : Nat
  stores : Nat
  engine : Nat
  tile : Nat
  ops : List Access
  tiles : List TileOp
  /-- flags of completed engine jobs that no `wait` has covered -/
  engFlags : Word
  crew : BitVec 16
  fencePt : Nat
  /-- registers written since the fence point, and registers whose newest write had `k` = 0 (R227) -/
  dirty : List Nat
  windowOnly : List Nat
  /-- by crew mask -/
  keeps : KMap Keep
  issued : Nat
  pass : BitVec 8
  lastTag : Nat
  lastRun : Nat
  blocked : KMap Block
  /-- when a gang last blocked, and the age of each gang's frame request, and, under 16, of a saved group's restore request
  (R192, R195) -/
  blockedAt : Nat
  reqAge : KMap Nat
  /-- barrier arrivals that wait for the accesses before a point of the issue order (R204) -/
  arrivals : List (Nat × Nat)
  halt : Option Halt
  /-- the code of the last stop (R334) -/
  lastFault : BitVec 8
  /-- slices no word of which has issued since they entered their state (R355) -/
  entered : List Nat
  saved : Bool
  /-- it was saved while its team went on, so that its granules are the team's (R191, R338) -/
  alone : Bool
  /-- a stop that lands at the end of the current run (R347) -/
  stopNext : Option FaultRec
  /-- (gang, stop): the gang's next word is not matched against that stop again (R343); the gang of which one word is
  issued (R345) -/
  skipStop : List (Nat × Nat)
  step : Option Nat
  deriving DecidableEq, Repr

/-- A frame request (R192). -/
structure FrameReq where
  gk : Nat
  tag : Nat
  age : Nat
  size : Nat
  served : Bool
  restore : Bool
  /-- depths of spilled frames that serving it refills -/
  refill : List Nat
  /-- (gk, depth) of the frames that its word reads or writes (R196) -/
  uses : List Nat
  deriving DecidableEq, Repr

/-- A team barrier (R202); the armed bits are in the slices. -/
structure Barrier where
  phase : BitVec 16
  count : BitVec 5
  groups : BitVec 16
  deriving DecidableEq, Repr

inductive BlockPlace where
  | core
  | spilled (slot : Nat)
  deriving DecidableEq, Repr

/-- An accumulator block that a team has taken (R207, R234). -/
structure AccBlock where
  place : BlockPlace
  used : Nat
  deriving DecidableEq, Repr

/-- A releaser (R308): a core and resident slot, or the hub (host or peer). -/
inductive Releaser where
  | group (core slot : Nat)
  | hub
  deriving DecidableEq, Repr

/-- What a home keeps beside a 16-byte granule: the full-empty bit of a vault granule (R243), the release
tag (R308), and when each of its bytes was last written (for R198, R224, R279, R295, R380). -/
structure Gran where
  full : Bool
  rel : Option (Releaser × Nat)
  owner : Option Nat
  written : KMap Nat
  deriving DecidableEq, Repr

/-- A team (R180, R183, R191, R202, R210, R244, R331). -/
structure Team where
  launch : Nat
  t : Nat
  core : Nat
  snum : Nat
  width : Nat
  p : Nat
  c : Nat
  dp : Nat
  dc : Nat
  quota : Nat
  weight : Nat
  sUnit : Nat
  sUnits : Nat
  vUnit : Nat
  vUnits : Nat
  barriers : KMap Barrier
  requests : List FrameReq
  lbanks : KMap LBank
  acc : KMap Word
  blocks : KMap AccBlock
  /-- the `prio` of the team's most recent `mma` (R234) -/
  mmaPrio : Nat
  frame : Nat
  frameSize : Nat
  /-- a latched pre-emption request (R328); the team is saved whole (R333); its restore is asked for -/
  latched : Bool
  saved : Bool
  /-- when a group of the team last retired, was saved or returned (R195) -/
  changedAt : Nat
  saveTime : Dword
  granCopy : KMap Gran
  deriving DecidableEq, Repr

/-! ## The array -/

/-- A physical weight bank and its tag (R209). `ecc`: a byte of it met an uncorrectable error (R235). -/
structure PBank where
  team : Nat
  bank : Nat
  gen : Nat
  used : Nat
  fmt : Fmt
  elems : List Byte
  scales : List Byte
  extras : List Byte
  ecc : Bool
  deriving DecidableEq, Repr

/-- One group's arrival at an entry (R219). `undef` are lanes whose rows R227 leaves undefined; `rows` the
captured A registers by lane. -/
structure Arrival where
  gk : Nat
  gidx : Nat
  id : Nat
  lanes : List Nat
  depths : List Nat
  va : Nat
  fmt : Fmt
  rm : Rm
  mode : Word
  prio : Nat
  reuse : Bool
  bank : Nat
  cz : Bool
  arow : Nat
  crew : BitVec 16
  fencePt : Nat
  undef : List Nat
  rows : Option (KMap (List Word))
  /-- lanes whose operands met an uncorrectable error (R235) -/
  ecc : List Nat
  pos : Word
  order : Nat
  deriving DecidableEq, Repr

/-- A rendezvous entry (R219). -/
structure Entry where
  team : Nat
  mask : BitVec 16
  arrivals : List Arrival
  complete : Bool
  completedAt : Nat
  bound : Option LBank
  passed : Nat
  deriving DecidableEq, Repr

/-- The rows that one crew asked to keep (R228): by `sx.group` × 64 + lane, with the `va` and format they were read
with; `ecc` are those in which an uncorrectable error was met. -/
structure Reuse where
  team : Nat
  mask : BitVec 16
  va : Nat
  fmt : Fmt
  rows : KMap (List Word)
  ecc : List Nat
  deriving DecidableEq, Repr

/-- What a core's array is doing (R229 to R231): the entry chosen at the boundary, whether it needs no
further start admission, since when the array is idle, when it last left idleness of 1 µs, and the rows
kept. -/
structure ArrayState where
  chosen : Option Nat
  admitted : Bool
  idleSince : Dword
  startedAt : Option Dword
  reuse : Option Reuse
  deriving DecidableEq, Repr

/-! ## Engine jobs -/

inductive CopyKind where
  | copy | gather | scatter
  deriving DecidableEq, Repr

/-- Some bytes of an engine's work, checked and translated: their address, target and number; of a fabric target, the
port of the path entry that the checks read (R372). -/
structure Seg where
  addr : Nat
  target : Nat
  len : Nat
  port : Nat
  deriving DecidableEq, Repr

/-- Where a chunk stands after step 1 of R260: waiting in step 2, past it, reading, writing, setting bits full. -/
inductive ChunkStage where
  | wait | ready | read | write | fill
  deriving DecidableEq, Repr

/-- A chunk after step 1 (R260): its pieces; the granules found full since it began waiting (R252); pieces still to
read and the bytes read; bytes still to write; granules still to set full. -/
structure ChunkWork where
  stage : ChunkStage
  src : List Seg
  dst : List Seg
  seen : List Nat
  left : List Seg
  got : List Byte
  out : List (Seg × List Byte)
  fills : List Nat
  deriving DecidableEq, Repr

/-- A copy job (R259, R335); `index` is the current row's index entry, `work` its current chunk, `lines` are the
destination's lines written so far, `stop` is a watchpoint stop that waits for the job's end (R347). -/
structure CopyJob where
  gk : Nat
  id : Nat
  lane : Nat
  kind : CopyKind
  fmt : Fmt
  jf : Nat
  src : Dword
  dst : Dword
  ix : Dword
  d : List Word
  mode : Word
  row : Nat
  chunk : Nat
  index : Nat
  work : Option ChunkWork
  lines : List Nat
  stop : Option FaultRec
  flags : Word
  pos : Word
  /-- an unresolved translation: the sub-code it would end with, and the address (R260, R338) -/
  paused : Option (Nat × Dword)
  deriving DecidableEq, Repr

/-- How a selection job's walk has ended, while its mask and record are still to be written: with the selected key, its
members and lowest index, EMPTY, or with inputs that changed under it (R272, R279). -/
inductive SelEnd where
  | found (v ties idx : Nat)
  | empty
  | lost
  deriving DecidableEq, Repr

/-- A selection job (R278, R281). `pre` holds the key bits above `hi` that the walk has fixed, `base` is B,
`n` and `wt` are N and Wt, `below` counts the elements of lower keys, `bins` has by digit the summed measure, the
members and the lowest index; `emitted` is the emit count; `thr` and `thrEnc` are the threshold's image and
encoding, `since` is when the job started, `dead` says that a chained record was not DONE. `owned` are the home ranges of
its record, index list and mask area (key, bytes); `maskDone` says that the mask area has been written, `spoiled` that what
the job writes is undefined (R279). -/
structure SelJob where
  gk : Nat
  id : Nat
  lane : Nat
  scmp : Bool
  fmt : Fmt
  jf : Nat
  recAddr : Dword
  col : Dword
  aux : Dword
  d : List Word
  mode : Word
  started : Bool
  since : Nat
  mask : List Byte
  pass : Nat
  hi : Nat
  cursor : Nat
  pre : Nat
  base : Nat
  n : Nat
  wt : Nat
  below : Nat
  bins : KMap (Nat × Nat × Nat)
  emitted : Nat
  thr : Nat
  thrEnc : Nat
  dead : Bool
  fin : Option SelEnd
  owned : List (Nat × Nat)
  maskDone : Bool
  spoiled : Bool
  lines : List Nat
  stop : Option FaultRec
  pos : Word
  paused : Option (Nat × Dword)
  deriving DecidableEq, Repr

/-- A queue of an engine with the group it served last (R253, R267). -/
structure JobQueue (α : Type) where
  jobs : List α
  last : Nat
  deriving DecidableEq, Repr

/-- One node of the path table (R372). -/
structure PathEntry where
  port : Nat
  valid : Bool
  int32 : Bool
  int64 : Bool
  f32add : Bool
  inRead : Bool
  inWrite : Bool
  inMsg : Bool
  base : Nat
  limit : Nat
  deriving DecidableEq, Repr

structure PathTable where
  own : Nat
  entries : List PathEntry
  deriving DecidableEq, Repr

/-- A `coll` job (R377 to R380), a participant of a collective once it has started: `d` is its descriptor,
`list` its participant list where the word could read it, `paths` the path table that the word's checks read (R372),
`data` its contribution, `since` when it was issued. -/
structure CollPart where
  gk : Nat
  id : Nat
  lane : Nat
  die : Nat
  fmt : Fmt
  fn : Nat
  nofe : Bool
  d : List Word
  src : Dword
  dst : Dword
  list : Option (List Byte)
  paths : Option PathTable
  data : List Byte
  since : Nat
  pos : Word
  paused : Option (Nat × Dword)
  deriving DecidableEq, Repr

/-- A collective (R379): its id, its sequence number, the participants that have joined and are not finished,
the result bytes and flags once folded, and the sub-code that it failed with. -/
structure Coll where
  cid : Word
  seq : Nat
  parts : List CollPart
  result : Option (List Byte × Word)
  failed : Option Nat
  deriving DecidableEq, Repr

/-- A message (R381): `sent` once it has reached its vault, or has left for a peer. -/
structure Message where
  gk : Nat
  id : Nat
  node : Nat
  vault : Nat
  offset : Nat
  data : List Word
  /-- of a fabric node: the port of the path entry that the send's checks read (R340, R372) -/
  port : Nat
  /-- the sender's node, for a message from a peer -/
  sender : Option Nat
  pos : Word
  sent : Bool
  /-- since when it has waited in its sending port for a vault that holds 64 messages -/
  atPort : Option Nat
  deriving DecidableEq, Repr

/-! ## Memory -/

/-- A byte of a core's global-data cache (R288); a listed byte is valid. `rel`: it was last written by the
release that the granule's tag records (R308). `stored` is when a store of the core last wrote it, 0 for a fetched one. -/
structure CacheByte where
  value : Byte
  dirty : Bool
  rel : Bool
  stored : Nat
  deriving DecidableEq, Repr

/-- An agent waiting for a granule to become full (R252). -/
inductive Waiter where
  | lane (gk id lane : Nat)
  | weights (gk id : Nat)
  | chunk (cluster gk id : Nat)
  deriving DecidableEq, Repr

structure FeWait where
  granule : Nat
  who : Waiter
  consumes : Bool
  deriving DecidableEq, Repr

/-! ## Contexts, modules, launches -/

/-- A translation descriptor (R297). -/
structure Desc where
  root : Nat
  heapBase : Nat
  heapLimit : Nat
  heapOffset : Nat
  heapW : Bool
  heapNc : Bool
  tables : Bool
  deriving DecidableEq, Repr

structure CodeBreak where
  sid : BitVec 16
  off : BitVec 16
  enable : Bool
  deriving DecidableEq, Repr

/-- Program-counter sampling of a context (R354). -/
structure Sampling where
  j : Nat
  q : Nat
  base : Dword
  next : Nat
  deriving DecidableEq, Repr

/-- A context (R297, R322, R342, R349, R354, R362). -/
structure Ctx where
  desc : Desc
  evFirst : Nat
  evCount : Nat
  signed : Bool
  breaks : KMap CodeBreak
  counters : KMap Dword
  sampling : Option Sampling
  deriving DecidableEq, Repr

/-- A translation held by a TLB of the package (R300): its holder (a core's micro-TLB, or 384 + die for the
shared TLB), context, page, its size, frame and rights. `via` are the table entries that a walk has just read for it;
a held entry keeps none. -/
structure TlbEntry where
  holder : Nat
  ctx : Nat
  va : Nat
  size : Nat
  pa : Nat
  w : Bool
  nc : Bool
  via : List Nat
  deriving DecidableEq, Repr

/-- A loaded module: where its tables stand in memory, and its header's counts (R172); `va` is the global virtual
address of `base`, `maps` its placed sections: start, bytes, writable (R171, R174). -/
structure Module where
  base : Nat
  size : Nat
  va : Nat
  maps : List (Nat × Nat × Bool)
  code : Nat
  codeWords : Nat
  states : Nat
  singleton : Nat
  xtab : Nat
  descrs : Nat
  kernels : Nat
  nStates : Nat
  nBlocks : Nat
  nDescrs : Nat
  nKernels : Nat
  h : Nat
  trap : Nat
  deriving DecidableEq, Repr

/-- An ordered add (R294): its word (group key and issue number), the home address, the address as issued (R348), the key
and the value; `area` is the home key of its record in the spill area and when it was written (R295). -/
structure Contribution where
  word : Nat × Nat
  addr : Nat
  ea : Dword
  t : Nat
  gidx : Nat
  lane : Nat
  seq : Nat
  fmt : Fmt
  value : Nat
  area : Option (Nat × Nat)
  deriving DecidableEq, Repr

/-- Per-launch counting (R350): the record's address and the start latch. -/
structure Counting where
  addr : Dword
  startTime : Dword
  start : List Dword
  stopTime : Dword
  stop : List Dword
  deriving DecidableEq, Repr

/-- A launch accepted at a queue head (R319, R320). -/
structure Launch where
  id : Word
  queue : Nat
  ctx : Nat
  module : Nat
  kernel : List Byte
  record : List Byte
  function : Nat
  next : Nat
  /-- its wait counter has held the wait value (R320) -/
  waitMet : Bool
  teams : Nat
  teamsRetired : Nat
  cb : Option Nat
  started : Bool
  ended : Bool
  faulted : Bool
  contribs : List Contribution
  applied : Bool
  spillRecords : Nat
  counting : Option Counting
  flagsOr : Word
  absentSum : Word
  groupsRetired : Nat
  /-- when the next team became the urgency rule's waiting team (R327) -/
  urgentSince : Option Dword
  /-- the core whose teams the urgency rule pre-empts for that team (R327) -/
  urgentCore : Option Nat
  deriving DecidableEq, Repr

/-! ## The host's side -/

/-- A ring in host or device memory (R359). -/
structure Ring where
  base : Dword
  entries : Word
  head : Word
  tail : Word
  deriving DecidableEq, Repr

/-- A host launch queue (R359, R361): its ring, binding, current launch and counting switch (R350). -/
structure HostQ where
  ring : Ring
  bound : Option (Nat × Nat)
  current : Option Nat
  counting : Option (Dword × Nat × Nat)
  deriving DecidableEq, Repr

/-- A device queue (R317): records with the context they run in and the function of their issuing launch. -/
structure DevQ where
  entries : List (Nat × Nat × List Byte)
  current : Option Nat
  deriving DecidableEq, Repr

/-- A master's attest mailbox (R369). -/
structure Mailbox where
  nonce : List Byte
  control : Word
  status : Word
  report : List Byte
  deriving DecidableEq, Repr

/-- A migration record (R302): lines already pulled are in `pulled`. -/
structure Mig where
  id : Nat
  old : Nat
  new : Nat
  size : Nat
  pulled : List Nat
  posted : Bool
  deriving DecidableEq, Repr

/-- A core's error log (R236), oldest entry first. -/
structure ErrLog where
  entries : List (BitVec 128)
  overflow : Bool
  deriving DecidableEq, Repr

/-- A data watchpoint (R346). -/
structure Watch where
  vault : Bool
  granule : Nat
  mask : BitVec 16
  kinds : BitVec 8
  enable : Bool
  stop : Bool
  ctx : Nat
  deriving DecidableEq, Repr

/-- The aligned time series (R352): `n` is the next sample to latch, `held` one that is latched and not yet written, with
its busy counts. -/
structure Series where
  running : Bool
  k : Nat
  q : Nat
  t0 : Dword
  base : Dword
  n : Nat
  dropped : List Word
  held : Option (Nat × KMap Nat)
  deriving DecidableEq, Repr

/-- Boot state (R359, R365, R366, R368): status 0 starting, 1 ready, 2 failed; the running firmware slot; whether
the start is warm; the slot with the newest image. -/
structure Boot where
  status : Nat
  failedStep : BitVec 8
  slot : Nat
  warm : Bool
  newest : Nat
  deriving DecidableEq, Repr

/-! ## The whole -/

/-- A run that an issue slot holds (R185): the group, the gang's tag, the words it has issued (R41), and whether its
next word stalls at issue (R189). -/
structure Run where
  gk : Nat
  tag : Nat
  words : Nat
  stalled : Bool
  deriving DecidableEq, Repr

/-- The body of a hardware loop that a core's loop buffer holds (R190): its module, state and offsets, the words
captured so far by offset, and when a word was last issued from it. -/
structure LoopBody where
  module : Nat
  st : Nat
  first : Nat
  last : Nat
  words : KMap Dword
  used : Nat
  deriving DecidableEq, Repr

/-- What a fabric peer, or the link to it, answers to an access of an engine job, a tile transfer or the read of a launch
record, other than by performing it (R374, R383). -/
inductive PeerFault where
  | refused | timeout | poison
  deriving DecidableEq, Repr

/-- Who moves next (log entry 2): an issue slot issues its next word; an event of the table; time passes;
a cache or TLB entry is evicted (R288, R300); an unknown command is answered (R361); a collective
job starts (R379); a fabric peer refuses the access of a tile transfer, an engine job or a `launch` (R374), or returns
poison for it (R383). -/
inductive Move where
  | issue (core slot : Nat)
  | event (i : Instr)
  | tick (cycles ns : Nat)
  | evict (core line : Nat)
  | evictTlb (index : Nat)
  | unknownCommand
  | startColl (gk id : Nat)
  | refuse (gk id : Nat)
  | peerPoison (gk id : Nat)
  deriving DecidableEq, Repr

/-- Errors that wait to be read (log entry 14); uncorrectable ones first: registers of a group, as
((gk × 256 + depth) × 64 + lane) × 256 + register; vault granules; accumulators of a team, as
team × 65536 + row × 128 + column. -/
structure Latent where
  regs : List Nat
  granules : List Nat
  accs : List Nat
  /-- single-bit errors, which are corrected where they are read, and counted (R208, R235, R249, R287): registers,
  vault granules, accumulators, 32-byte blocks of HBM by address -/
  regs1 : List Nat
  granules1 : List Nat
  accs1 : List Nat
  blocks1 : List Nat
  /-- uncorrectable errors in bytes of a core's global-data cache: (core, physical address) (R289) -/
  cached : List (Nat × Nat)
  deriving DecidableEq, Repr

structure State where
  time : Dword
  clockMHz : Nat
  boot : Boot
  /-- firmware slots that command 0x13 has written (R368) -/
  flash : KMap (List Byte)
  image : Image
  owner : Word
  /-- the owner's claim reached the hub in this hub cycle (R364) -/
  claimed : Bool
  faultQ : Ring
  cmdRing : Ring
  mailboxes : KMap Mailbox
  vectors : KMap (Nat × Nat)
  msix : List Nat
  hostRead : List Byte
  hostQ : KMap HostQ
  devQ : KMap DevQ
  /-- the queue that a team was admitted from last, by priority level (R320) -/
  lastQueue : KMap Nat
  events : KMap Dword
  nextLaunch : Word
  pathTable : Option PathTable
  portsDown : List Nat
  tlb : List TlbEntry
  migs : KMap Mig
  poison : List Nat
  errStack : KMap Dword
  errCluster : KMap Dword
  errCore : KMap Dword
  errLog : KMap ErrLog
  watch : KMap Watch
  regionStops : List (Word × BitVec 16)
  series : Series
  /-- since the series' last latch, as core × 4 + i: cycles in which issue slot 0 or 1 is busy, stalled slot-cycles,
  cycles in which the array is busy (R353) -/
  busy : KMap Nat
  /-- the slot after the one that a core sampled last (R354) -/
  sampled : KMap Nat
  /-- cycles since a core's last sample was due (R354) -/
  sampleAge : KMap Nat
  records : List FaultRec
  posted : List FaultRec
  ctxs : KMap Ctx
  modules : KMap Module
  launches : KMap Launch
  teams : KMap Team
  groups : KMap Group
  runs : KMap Run
  /-- the loop buffer of each core (R190) -/
  loopBuf : KMap (List LoopBody)
  spill : KMap Nat
  banks : KMap PBank
  entries : KMap Entry
  arrays : KMap ArrayState
  copyQ : KMap (JobQueue CopyJob)
  selQ : KMap (JobQueue SelJob)
  collQ : KMap (List CollPart)
  colls : KMap Coll
  collSeq : KMap Nat
  msgs : KMap Message
  mem : List Host.Cell
  gran : KMap Gran
  caches : KMap (KMap CacheByte)
  feQ : List FeWait
  agenda : List Move
  cur : Nat × Nat
  seq : Nat
  free : Nat
  latent : Latent
  deriving DecidableEq, Repr

/-- Stops of the model itself. `noRun`: `exec` was asked to run a group word while the issue slot that
`cur` names holds no run of a gang; no step does that. Safe: the machine has no such move. -/
inductive Fault where
  | noRun
  deriving DecidableEq, Repr

/-- `notModelled`: an instruction that has no meaning yet; safe. -/
inductive Refusal where
  | notModelled (mnemonic : String)
  deriving DecidableEq, Repr

abbrev Outcome := Host.Outcome State Fault Refusal

/-- The machine right after a reset, before its start has run (R359, R365, R367): every register of BAR0
at its reset value, every table empty. What the spec gives no value is named in log entry 19. -/
def State.reset : State where
  time := 0
  clockMHz := 1200
  boot := ⟨0, 0, 0, false, 0⟩
  flash := []
  image := ⟨0, 0, 0, 0, [], [], []⟩
  owner := 0
  claimed := false
  faultQ := ⟨0, 0, 0, 0⟩
  cmdRing := ⟨0, 0, 0, 0⟩
  mailboxes := []
  vectors := []
  msix := []
  hostRead := []
  hostQ := []
  devQ := []
  lastQueue := []
  events := []
  nextLaunch := 0
  pathTable := none
  portsDown := []
  tlb := []
  migs := []
  poison := []
  errStack := []
  errCluster := []
  errCore := []
  errLog := []
  watch := []
  regionStops := []
  series := ⟨false, 0, 0, 0, 0, 0, [], none⟩
  busy := []
  sampled := []
  sampleAge := []
  records := []
  posted := []
  ctxs := []
  modules := []
  launches := []
  teams := []
  groups := []
  runs := []
  loopBuf := []
  spill := []
  banks := []
  entries := []
  arrays := []
  copyQ := []
  selQ := []
  collQ := []
  colls := []
  collSeq := []
  msgs := []
  mem := []
  gran := []
  caches := []
  feQ := []
  agenda := []
  cur := (0, 0)
  seq := 0
  free := 0
  latent := ⟨[], [], [], [], [], [], [], []⟩

end Sys2Proof.Machine
end

