-- ==== Sys2Proof/Machine/Num.lean ====
section
/-! DEFINITION. Number formats, exact values and rounding (R10 to R27, R30, R31). Encodings are natural
numbers; a finite value is a sign, a magnitude m and an exponent e for m × 2^e. -/

namespace Sys2Proof

/-- The width in bits of a scalar format, or of an element of a packed or block format (R10, R17). -/
def Fmt.width : Fmt → Nat
  | .f64 | .i64 | .n64 => 64
  | .f32 | .i32 | .n32 | .f16x2 | .bf16x2 => 32
  | .f16 | .bf16 | .i16 | .n16 => 16
  | .e4m3 | .e5m2 | .i8 | .n8 | .mxe4m3 | .mxe5m2 => 8
  | .e3m2 | .e2m3 | .mxe3m2 | .mxe2m3 => 6
  | .e2m1 | .mxe2m1 | .xf4 | .i4 => 4

/-- The format of an element: of a packed pair (R16) or of a block (R17, R20). -/
def Fmt.element : Fmt → Fmt
  | .f16x2 => .f16
  | .bf16x2 => .bf16
  | .mxe4m3 => .e4m3
  | .mxe5m2 => .e5m2
  | .mxe2m1 | .xf4 => .e2m1
  | .mxe3m2 => .e3m2
  | .mxe2m3 => .e2m3
  | f => f

/-- Formats that R25's subnormal controls act on. -/
def Fmt.controlled : Fmt → Bool
  | .f64 | .f32 | .f16 | .bf16 => true
  | _ => false

end Sys2Proof

namespace Sys2Proof.Machine

open Sys2Proof

/-! ## Flags (R29) -/

def fINV : Nat := 1
def fDZ : Nat := 2
def fOVF : Nat := 4
def fUNF : Nat := 8
def fINX : Nat := 16
def fSAT : Nat := 32
def fSUBST : Nat := 64
def fACCLOST : Nat := 128
def fECCZ : Nat := 256
def fSCOPEMISS : Nat := 512
def fNONUNIF : Nat := 1024
def fSETABSENT : Nat := 2048
def fPEEL : Nat := 4096
def fORDSPILL : Nat := 8192

/-- The flag `f` when `b` holds. -/
def fIf (b : Bool) (f : Nat) : Nat := if b then f else 0

/-! ## Formats -/

/-- The parameters of R12: exponent bits, trailing significand bits, bias, whether the format has
infinities, and whether it has NaNs. -/
structure FParam where
  ebits : Nat
  mbits : Nat
  bias : Nat
  inf : Bool
  nan : Bool
  deriving DecidableEq, Repr

def fparam : Fmt → FParam
  | .f64 => ⟨11, 52, 1023, true, true⟩
  | .f32 => ⟨8, 23, 127, true, true⟩
  | .f16 => ⟨5, 10, 15, true, true⟩
  | .bf16 => ⟨8, 7, 127, true, true⟩
  | .e5m2 => ⟨5, 2, 15, true, true⟩
  | .e4m3 => ⟨4, 3, 7, false, true⟩
  | .e3m2 => ⟨3, 2, 3, false, false⟩
  | .e2m3 => ⟨2, 3, 1, false, false⟩
  | .e2m1 => ⟨2, 1, 1, false, false⟩
  | _ => ⟨8, 23, 127, true, true⟩

/-- A decoded float (R11): a NaN with its sign, quiet bit and trailing significand, an infinity, or a
finite value. -/
inductive FVal where
  | nan (neg quiet : Bool) (payload : Nat)
  | inf (neg : Bool)
  | fin (neg : Bool) (m : Nat) (e : Int)
  deriving DecidableEq, Repr

namespace FVal

def isNan : FVal → Bool
  | .nan _ _ _ => true
  | _ => false

def isSnan : FVal → Bool
  | .nan _ q _ => !q
  | _ => false

def isInf : FVal → Bool
  | .inf _ => true
  | _ => false

def isZero : FVal → Bool
  | .fin _ m _ => m == 0
  | _ => false

def sign : FVal → Bool
  | .nan n _ _ => n
  | .inf n => n
  | .fin n _ _ => n

def neg : FVal → FVal
  | .nan n q p => .nan (!n) q p
  | .inf n => .inf (!n)
  | .fin n m e => .fin (!n) m e

end FVal

/-- R11, R13: the value of an encoding. -/
def decodeF (f : Fmt) (b : Nat) : FVal :=
  let p := fparam f
  let s := b.testBit (p.ebits + p.mbits)
  let e := bitsOf b (p.ebits + p.mbits - 1) p.mbits
  let m := b % 2 ^ p.mbits
  let top := 2 ^ p.ebits - 1
  if e == top && p.inf then
    if m == 0 then .inf s else .nan s (m.testBit (p.mbits - 1)) m
  else if e == top && p.nan && m == 2 ^ p.mbits - 1 then .nan s true m
  else if e == 0 then .fin s m (1 - (p.bias : Int) - p.mbits)
  else .fin s (2 ^ p.mbits + m) ((e : Int) - p.bias - p.mbits)

/-- Whether an encoding is a nonzero subnormal of its format. -/
def isSubnormal (f : Fmt) (b : Nat) : Bool :=
  let p := fparam f
  bitsOf b (p.ebits + p.mbits - 1) p.mbits == 0 && b % 2 ^ p.mbits != 0

/-- Inputs as zero (R25): a subnormal operand reads as a zero of its sign. -/
def daz (on : Bool) (f : Fmt) (b : Nat) : Nat :=
  if on && f.controlled && isSubnormal f b then
    b - b % 2 ^ (fparam f).mbits
  else b

/-- The largest finite encoding, without its sign (R12). -/
def maxFinite (f : Fmt) : Nat :=
  let p := fparam f
  if p.inf then (2 ^ p.ebits - 2) * 2 ^ p.mbits + (2 ^ p.mbits - 1)
  else if p.nan then 2 ^ (p.ebits + p.mbits) - 2
  else 2 ^ (p.ebits + p.mbits) - 1

def signBit (f : Fmt) (neg : Bool) : Nat :=
  if neg then 2 ^ ((fparam f).ebits + (fparam f).mbits) else 0

def infBits (f : Fmt) (neg : Bool) : Nat :=
  signBit f neg + (2 ^ (fparam f).ebits - 1) * 2 ^ (fparam f).mbits

/-- The canonical NaN (R13). -/
def canonicalNan (f : Fmt) : Nat :=
  let p := fparam f
  if p.inf then (2 ^ p.ebits - 1) * 2 ^ p.mbits + 2 ^ (p.mbits - 1)
  else 2 ^ (p.ebits + p.mbits) - 1

/-- A NaN carried from a format with `ms` trailing bits into format `f`, made quiet (R17, R26). -/
def carryNan (f : Fmt) (ms : Nat) (neg : Bool) (payload : Nat) : Nat :=
  let p := fparam f
  if p.inf then
    let pl := if ms ≤ p.mbits then payload * 2 ^ (p.mbits - ms) else payload / 2 ^ (ms - p.mbits)
    signBit f neg + (2 ^ p.ebits - 1) * 2 ^ p.mbits + (pl ||| 2 ^ (p.mbits - 1))
  else signBit f neg + (2 ^ (p.ebits + p.mbits) - 1)

/-! ## Exact values -/

/-- m × 2^e as an integer multiple of 2^q, for q ≤ e. -/
def scaleTo (m : Nat) (e q : Int) : Nat := m * 2 ^ (e - q).toNat

def signed (neg : Bool) (m : Nat) : Int := if neg then -(m : Int) else m

/-- The sum of two finite values: sign, magnitude, exponent; the sign of an exact zero is given. -/
def addFin (n1 : Bool) (m1 : Nat) (e1 : Int) (n2 : Bool) (m2 : Nat) (e2 : Int) (zeroNeg : Bool) :
    Bool × Nat × Int :=
  let q := min e1 e2
  let v := signed n1 (scaleTo m1 e1 q) + signed n2 (scaleTo m2 e2 q)
  if v == 0 then (zeroNeg, 0, q) else (decide (v < 0), v.natAbs, q)

/-- floor(log2(m × 2^e)) for m ≠ 0. -/
def ilog (m : Nat) (e : Int) : Int := (m.log2 : Int) + e

/-- Compare two finite values. -/
def cmpFin (n1 : Bool) (m1 : Nat) (e1 : Int) (n2 : Bool) (m2 : Nat) (e2 : Int) : Ordering :=
  let q := min e1 e2
  compare (signed n1 (scaleTo m1 e1 q)) (signed n2 (scaleTo m2 e2 q))

/-- Order of two values that are not NaN; the zeros are equal. -/
def cmpVal : FVal → FVal → Ordering
  | .inf a, .inf b => if a == b then .eq else if a then .lt else .gt
  | .inf a, _ => if a then .lt else .gt
  | _, .inf b => if b then .gt else .lt
  | .fin n m e, .fin n' m' e' => cmpFin n m e n' m' e'
  | _, _ => .eq

/-! ## Rounding -/

/-- How results are rounded: the resolved mode, saturation, R25's flush control, NaN propagation
(`sx.mode[6]`), inputs as zero, and the 32-bit draw of R23. -/
structure FEnv where
  rm : Rm
  sat : Bool
  flush : Bool
  daz : Bool
  prop : Bool
  draw : Nat
  deriving DecidableEq, Repr

/-- RNE with saturation off, no subnormal controls, canonical NaNs: what the engines and the atomics use. -/
def FEnv.plain : FEnv := ⟨.rne, false, false, false, false, 0⟩

/-- Round a magnitude to a multiple of 2^q: the multiple and whether it differs (R22, R23). `sticky` says
that the exact value lies strictly above m × 2^e and below the next multiple of 2^e. -/
def roundMag (env : FEnv) (neg : Bool) (m : Nat) (e : Int) (sticky : Bool) (q : Int) : Nat × Bool :=
  if q ≤ e then (scaleTo m e q, sticky)
  else
    let d := (q - e).toNat
    let lo := m / 2 ^ d
    let r := m % 2 ^ d
    let inexact := r != 0 || sticky
    let up :=
      match env.rm with
      | .rne | .dyn => 2 * r > 2 ^ d || (2 * r == 2 ^ d && (sticky || lo % 2 == 1))
      | .rtz => false
      | .rdn => neg && inexact
      | .rup => !neg && inexact
      | .rna => 2 * r ≥ 2 ^ d
      | .rst => inexact && env.draw < r * 2 ^ 32 / 2 ^ d
    (if up then lo + 1 else lo, inexact)

/-- R24: the result and flags of an overflow. -/
def overflow (f : Fmt) (env : FEnv) (neg : Bool) : Nat × Nat :=
  let p := fparam f
  let big := signBit f neg + maxFinite f
  let fl := fOVF + fINX
  if !p.inf && !p.nan then (big, fl + fSAT)
  else
    let toInf :=
      match env.rm with
      | .rtz => false
      | .rdn => neg
      | .rup => !neg
      | _ => true
    if env.sat then (big, if toInf then fl + fSAT else fl)
    else if toInf then
      (if p.inf then infBits f neg else signBit f neg + (2 ^ (p.ebits + p.mbits) - 1), fl)
    else (big, fl)

/-- `Round` of R7 for a finite exact value: the encoding and the flags (R22 to R25). -/
def roundFin (f : Fmt) (env : FEnv) (neg : Bool) (m : Nat) (e : Int) (sticky : Bool) : Nat × Nat :=
  if m == 0 && !sticky then (signBit f neg, 0)
  else
    let p := fparam f
    let emin : Int := 1 - (p.bias : Int)
    let l := if m == 0 then e - 1 else ilog m e
    let qmin := emin - p.mbits
    -- tininess: rounded with an unbounded exponent, below the smallest normal (R25)
    let free := roundMag env neg m e sticky (l - p.mbits)
    let tiny := decide (scaleTo free.1 (l - p.mbits) (min (l - p.mbits) emin)
      < scaleTo 1 emin (min (l - p.mbits) emin))
    if tiny && env.flush && f.controlled then (signBit f neg, fUNF + fINX)
    else
      let q := max (l - p.mbits) qmin
      let r := roundMag env neg m e sticky q
      let enc := (q - qmin).toNat * 2 ^ p.mbits + r.1
      if enc > maxFinite f then overflow f env neg
      else (signBit f neg + enc, fIf r.2 fINX + fIf (tiny && r.2) fUNF)

/-- R26: the NaN that an operation gives, from its sources in order. `invalid` says that the operation
itself is invalid. -/
def nanResult (f : Fmt) (env : FEnv) (srcs : List FVal) (invalid : Bool) : Nat × Nat :=
  let fl := fIf (invalid || srcs.any FVal.isSnan) fINV
  match srcs.find? FVal.isNan with
  | some (.nan n _ pl) =>
    (if env.prop then carryNan f (fparam f).mbits n pl else canonicalNan f, fl)
  | _ => (canonicalNan f, fl)

/-- The sign of an exact zero sum (R111). -/
def zeroSum (env : FEnv) (n1 : Bool) (z1 : Bool) (n2 z2 : Bool) : Bool :=
  if z1 && z2 && n1 == n2 then n1 else env.rm == .rdn

/-- a + b. -/
def addVal (f : Fmt) (env : FEnv) (srcs : List FVal) (a b : FVal) : Nat × Nat :=
  if a.isNan || b.isNan then nanResult f env srcs false
  else
    match a, b with
    | .inf s, .inf t => if s == t then (infBits f s, 0) else nanResult f env srcs true
    | .inf s, _ => (infBits f s, 0)
    | _, .inf t => (infBits f t, 0)
    | .fin n m e, .fin n' m' e' =>
      let r := addFin n m e n' m' e' (zeroSum env n (m == 0) n' (m' == 0))
      if r.2.1 == 0 then (signBit f r.1, 0) else roundFin f env r.1 r.2.1 r.2.2 false
    | _, _ => (0, 0)

/-- a × b + c rounded once (R111); `fmul` passes no c. -/
def fmaVal (f : Fmt) (env : FEnv) (srcs : List FVal) (a b : FVal) (c : Option FVal) : Nat × Nat :=
  let zeroInf := (a.isZero && b.isInf) || (a.isInf && b.isZero)
  if zeroInf then nanResult f env srcs true
  else if srcs.any FVal.isNan then nanResult f env srcs false
  else
    let s := a.sign != b.sign
    if a.isInf || b.isInf then
      match c with
      | some (.inf t) => if s == t then (infBits f s, 0) else nanResult f env srcs true
      | _ => (infBits f s, 0)
    else
      match a, b with
      | .fin _ m e, .fin _ m' e' =>
        match c with
        | none => if m * m' == 0 then (signBit f s, 0) else roundFin f env s (m * m') (e + e') false
        | some c => addVal f env srcs (.fin s (m * m') (e + e')) c
      | _, _ => (0, 0)

/-! ## Minimum, maximum, comparison -/

/-- minimum and maximum of R30 on encodings: `big` picks the greater, `num` the minimumNumber family. -/
def minmax (f : Fmt) (env : FEnv) (big num : Bool) (a b : Nat) : Nat × Nat :=
  let va := decodeF f a
  let vb := decodeF f b
  let pickA :=
    match cmpVal va vb with
    | .lt => !big
    | .gt => big
    | .eq => if va.isZero && vb.isZero then va.sign != big else true
  if va.isSnan || vb.isSnan then nanResult f env [va, vb] false
  else if va.isNan && vb.isNan then nanResult f env [va, vb] false
  else if va.isNan then (if num then (b, 0) else nanResult f env [va, vb] false)
  else if vb.isNan then (if num then (a, 0) else nanResult f env [va, vb] false)
  else (if pickA then a else b, 0)

def condHolds (c : Cond) (o : Ordering) : Bool :=
  match c with
  | .eq => o == .eq
  | .ne => o != .eq
  | .lt => o == .lt
  | .le => o != .gt
  | .gt => o == .gt
  | .ge => o != .lt
  | .ord => true
  | .unord => false

/-- A float comparison (R106): the truth value and the flags. -/
def fcompare (f : Fmt) (c : Cond) (sig : Bool) (a b : Nat) : Bool × Nat :=
  let va := decodeF f a
  let vb := decodeF f b
  if va.isNan || vb.isNan then
    (c == .ne || c == .unord, fIf (va.isSnan || vb.isSnan || sig) fINV)
  else (condHolds c (cmpVal va vb), 0)

/-- The class mask of R113. -/
def fclassMask (f : Fmt) (b : Nat) : Nat :=
  match decodeF f b with
  | .nan _ q _ => if q then 2 else 1
  | .inf n => if n then 4 else 512
  | .fin n m _ =>
    if m == 0 then (if n then 32 else 64)
    else if isSubnormal f b then (if n then 16 else 128)
    else if n then 8 else 256

/-! ## Integers -/

/-- The signed value of the low N bits. -/
def sext (n x : Nat) : Int :=
  let y := x % 2 ^ n
  if y.testBit (n - 1) then (y : Int) - 2 ^ n else y

/-- The value of an encoding in an integer format (R14). -/
def intVal (f : Fmt) (x : Nat) : Int :=
  if f.isSigned || f == .i4 then sext f.width x else (x % 2 ^ f.width : Nat)

/-- v mod 2^N as N bits. -/
def wrapN (n : Nat) (v : Int) : Nat := (v % (2 ^ n : Int)).toNat

def intMin (signedFmt : Bool) (n : Nat) : Int := if signedFmt then -(2 ^ (n - 1) : Int) else 0
def intMax (signedFmt : Bool) (n : Nat) : Int :=
  if signedFmt then (2 ^ (n - 1) : Int) - 1 else (2 ^ n : Int) - 1

/-- R101: the result of an integer operation in a format of width n: wrapped, or clamped with `SAT`. R27's rows for
conversions between integers are the same; those that R27 has no row for (unsigned to signed of equal width, a negative
number to a wider unsigned format) follow them too (DESIGN CHOICE, log entry 63). -/
def narrow (signedFmt : Bool) (n : Nat) (sat : Bool) (v : Int) : Nat × Nat :=
  if sat then
    let c := max (intMin signedFmt n) (min v (intMax signedFmt n))
    (wrapN n c, fIf (decide (c ≠ v)) fSAT)
  else (wrapN n v, 0)

/-- Float to integer (R27). A signalling NaN with saturation on sets `SAT` only, as R27's row for a NaN says, though R26
lists a signalling NaN source under `INV` (DESIGN CHOICE, log entry 55). -/
def floatToInt (env : FEnv) (signedFmt : Bool) (n : Nat) (v : FVal) : Nat × Nat :=
  let bad := if env.sat then fSAT else fINV
  match v with
  | .nan _ _ _ => (0, bad)
  | .inf s => (wrapN n (if s then intMin signedFmt n else intMax signedFmt n), bad)
  | .fin s m e =>
    let r := roundMag env s m e false 0
    let i := signed s r.1
    if i < intMin signedFmt n then (wrapN n (intMin signedFmt n), bad)
    else if i > intMax signedFmt n then (wrapN n (intMax signedFmt n), bad)
    else (wrapN n i, fIf r.2 fINX)

/-- Integer to float (R27). -/
def intToFloat (f : Fmt) (env : FEnv) (v : Int) : Nat × Nat :=
  roundFin f env (decide (v < 0)) v.natAbs 0 false

/-- Float to float (R24 to R27); `ms` is the source's trailing significand width. -/
def floatToFloat (f : Fmt) (env : FEnv) (ms : Nat) (v : FVal) : Nat × Nat :=
  let p := fparam f
  match v with
  | .nan n q pl =>
    if !p.nan then (0, fINV)
    else (if env.prop then carryNan f ms n pl else canonicalNan f, fIf (!q) fINV)
  | .inf s => if p.inf then (infBits f s, 0) else (signBit f s + maxFinite f, fSAT)
  | .fin s m e => roundFin f env s m e false

/-- A conversion between scalar formats (R114, R27) of an encoding. -/
def convert (src dst : Fmt) (env : FEnv) (x : Nat) : Nat × Nat :=
  if src.isInt then
    if dst.isInt then narrow dst.isSigned dst.width env.sat (intVal src x)
    else intToFloat dst env (intVal src x)
  else
    let x := daz env.daz src (x % 2 ^ src.width)
    let v := decodeF src x
    let r :=
      if dst.isInt then floatToInt env dst.isSigned dst.width v
      else floatToFloat dst env (fparam src).mbits v
    (r.1, r.2 ||| fIf (src == .e3m2 || src == .e2m3) fSUBST)

/-! ## Square root, reciprocal seeds -/

/-- floor(sqrt n), bit by bit from 2^k down. -/
def isqrtFrom (n : Nat) : Nat → Nat → Nat
  | 0, r => r
  | k + 1, r =>
    let r' := r + 2 ^ k
    isqrtFrom n k (if r' * r' ≤ n then r' else r)

def isqrt (n : Nat) : Nat := isqrtFrom n (n.log2 / 2 + 1) 0

/-- Round a positive value to 14 significant bits, nearest even (R116). -/
def seed14 (m : Nat) (e : Int) (sticky : Bool) : Nat × Int :=
  let q := ilog m e - 13
  ((roundMag FEnv.plain false m e sticky q).1, q)

/-- The last step of a seed (R116): round g, and judge `INX` and `UNF` against the exact value. -/
def seedFinish (f : Fmt) (env : FEnv) (neg : Bool) (m : Nat) (e : Int) (sticky : Bool) : Nat × Nat :=
  let g := seed14 m e sticky
  let env' := { env with rm := .rne, sat := false }
  let r := roundFin f env' neg g.1 g.2 false
  let same :=
    match decodeF f r.1 with
    | .fin _ m' e' => !sticky && cmpFin false m' e' false m e == .eq
    | _ => false
  let tiny := decide (ilog g.1 g.2 < 1 - ((fparam f).bias : Int))
  (r.1, (r.2 &&& fOVF) ||| fIf (!same) fINX ||| fIf (tiny && !same) fUNF
    ||| (if tiny && env.flush then fUNF + fINX else 0))

/-- `rcps` (R116, R117). -/
def rcpsVal (f : Fmt) (env : FEnv) (x : Nat) : Nat × Nat :=
  let v := decodeF f (daz env.daz f x)
  match v with
  | .nan _ _ _ => nanResult f env [v] false
  | .inf s => (signBit f s, 0)
  | .fin s m e =>
    if m == 0 then (infBits f s, fDZ)
    else
      let k := m.log2 + 20
      let n := 2 ^ k
      seedFinish f env s (n / m) (-e - k) (n % m != 0)

/-- `rsqs` (R116, R117). -/
def rsqsVal (f : Fmt) (env : FEnv) (x : Nat) : Nat × Nat :=
  let v := decodeF f (daz env.daz f x)
  match v with
  | .nan _ _ _ => nanResult f env [v] false
  | .inf s => if s then (canonicalNan f, fINV) else (0, 0)
  | .fin s m e =>
    if m == 0 then (infBits f s, fDZ)
    else if s then (canonicalNan f, fINV)
    else
      let m' := if e % 2 == 0 then m else 2 * m
      let e' := if e % 2 == 0 then e else e - 1
      let k := m'.log2 / 2 + 24
      let n := 2 ^ (2 * k)
      let r := isqrt (n / m')
      seedFinish f env false r (-(e' / 2) - k) (r * r * m' != n)

/-! ## Monotone images (R31) -/

/-- The image of a scalar encoding. -/
def image (f : Fmt) (b : Nat) : Nat :=
  let w := f.width
  let b := b % 2 ^ w
  if f.isInt then (if f.isSigned then b ^^^ 2 ^ (w - 1) else b)
  else if b.testBit (w - 1) then 2 ^ w - 1 - b else b + 2 ^ (w - 1)

/-- The image width of R31. -/
def imageWidth (f : Fmt) : Nat := if f.isBlock then 32 else f.width

/-! ## Block formats -/

/-- The value of a block element (R17, R20): the element code, the scale byte and the extra byte. -/
def blockVal (f : Fmt) (code scale extra : Nat) : FVal :=
  if scale == 0xFF then .nan false true 0
  else
    let shift : Int := (scale : Int) - 127
    let sc : FVal → FVal
      | .fin n m e => .fin n m (e + shift)
      | v => v
    if f == .xf4 && code == 8 then sc (decodeF .e4m3 extra) else sc (decodeF f.element code)

/-- The trailing significand width of the NaNs that `blockVal` gives. -/
def blockNanBits (f : Fmt) (code : Nat) : Nat :=
  if f == .xf4 && code == 8 then 3 else (fparam f.element).mbits

/-- A decoded block value carried into f32 (R17, R31): RNE without saturation, NaN made quiet. -/
def blockToF32 (f : Fmt) (code scale extra : Nat) : Nat :=
  match blockVal f code scale extra with
  | .nan n _ pl => carryNan .f32 (blockNanBits f code) n pl
  | v => (floatToFloat .f32 FEnv.plain 23 v).1

/-- Whether a decoded value is NaN, and its magnitude, for the quantisers. -/
def finMag : FVal → Option (Nat × Int)
  | .fin _ m e => some (m, e)
  | _ => none

/-- The value with the largest magnitude among finite ones, as m × 2^e. -/
def maxMag : List FVal → Nat × Int
  | [] => (0, 0)
  | v :: rest =>
    let r := maxMag rest
    match finMag v with
    | some (m, e) => if cmpFin false r.1 r.2 false m e == .lt then (m, e) else r
    | none => r

/-- The E8M0 scale of the OCP rule (R21, R258). -/
def blockScale (vals : List FVal) (emax : Int) : Nat :=
  let a := maxMag vals
  if a.1 == 0 then 0 else (max 0 (min 254 (ilog a.1 a.2 - emax + 127))).toNat

def divScale (v : FVal) (x : Nat) : FVal :=
  match v with
  | .fin n m e => .fin n m (e - ((x : Int) - 127))
  | v => v

/-- The absolute error of a code against an exact value (R21 step 2). -/
def codeError (f : Fmt) (y : FVal) (code : Nat) : Nat × Int :=
  match y, decodeF f code with
  | .fin n m e, .fin n' m' e' =>
    let r := addFin n m e (!n') m' e' false
    (r.2.1, r.2.2)
  | _, _ => (0, 0)

def satEnv (rm : Rm) (draw : Nat) : FEnv := ⟨rm, true, false, false, false, draw⟩

/-- xf4 quantisation of 32 values (R21): codes, scale, extra, flags. -/
def quantXf4 (vals : List FVal) : List Nat × Nat × Nat × Nat :=
  if vals.any FVal.isNan then (vals.map fun _ => 0, 0xFF, 0, fINV)
  else
    let x := blockScale vals 2
    let ys := vals.map fun v => divScale v x
    let codes := ys.map fun y =>
      let c := (floatToFloat .e2m1 (satEnv .rne 0) 1 y).1
      if c == 8 then 0 else c
    let tooBig := ys.any fun y => y.isInf || (match y with
      | .fin _ m e => cmpFin false m e false 6 0 == .gt
      | _ => false)
    let errs := (ys.zip codes).map fun p => codeError .e2m1 p.1 p.2
    -- an infinite value has an infinite error (R21)
    let anyInf := ys.any FVal.isInf
    let worst := errs.foldl (fun a b => if cmpFin false a.1 a.2 false b.1 b.2 == .lt then b else a) (0, 0)
    let isWorst (p : FVal × (Nat × Int)) : Bool :=
      if anyInf then p.1.isInf else cmpFin false p.2.1 p.2.2 false worst.1 worst.2 == .eq
    if !anyInf && worst.1 == 0 then (codes, x, 0, fIf tooBig fSAT)
    else
      let j := (ys.zip errs).findIdx isWorst
      let g := (floatToFloat .e4m3 (satEnv .rne 0) 1 (ys.getD j (.fin false 0 0))).1
      (mapIdxFrom 0 (fun i c => if i == j then 8 else c) codes, x, g, fIf tooBig fSAT ||| fINX)

/-- emax of R258. -/
def mxEmax : Fmt → Int
  | .mxe4m3 => 8
  | .mxe5m2 => 15
  | .mxe3m2 => 4
  | _ => 2

/-- MX quantisation of 32 values (R258); `draw i` is the stochastic draw of element i. -/
def quantMx (f : Fmt) (rm : Rm) (draw : Nat → Nat) (vals : List FVal) : List Nat × Nat × Nat :=
  if vals.any FVal.isNan then (vals.map fun _ => 0, 0xFF, fINV)
  else
    let x := blockScale vals (mxEmax f)
    let el := f.element
    let one (i : Nat) (v : FVal) : Nat × Nat :=
      let y := divScale v x
      match y with
      | .inf s => (signBit el s + maxFinite el, fSAT ||| fINX)
      | y =>
        let r := floatToFloat el (satEnv rm (draw i)) 1 y
        let differs := match y, decodeF el r.1 with
          | .fin n m e, .fin n' m' e' => cmpFin n m e n' m' e' != .eq
          | _, _ => true
        (r.1, (r.2 &&& fSAT) ||| fIf differs fINX)
    let rs := mapIdxFrom 0 one vals
    (rs.map (·.1), x, rs.foldl (fun a r => a ||| r.2) 0)

/-! ## Stochastic draw (R23) -/

/-- `Mix` of R23, modulo 2^64. -/
def mix (z : Dword) : Dword :=
  let z := z + 0x9E3779B97F4A7C15
  let z := (z ^^^ (z >>> 30)) * 0xBF58476D1CE4E5B9
  let z := (z ^^^ (z >>> 27)) * 0x94D049BB133111EB
  z ^^^ (z >>> 31)

/-- The draw of R23 from the mode word, group index, grid coordinates, lane, sub-element and destination. -/
def stochDraw (mode : Word) (group gx gy gz lane sub vd : Nat) : Nat :=
  let w0 := mode.toNat / 256 ||| (group % 256 * 2 ^ 24) ||| (lane % 256 * 2 ^ 32)
    ||| (sub % 256 * 2 ^ 40) ||| (vd % 256 * 2 ^ 48)
  let w1 := gx % 65536 ||| (gy % 65536 * 2 ^ 16) ||| (gz % 65536 * 2 ^ 32)
  (mix (BitVec.ofNat 64 w0 ^^^ mix (BitVec.ofNat 64 w1))).toNat / 2 ^ 32

end Sys2Proof.Machine
end

