-- ==== Sys2Proof/Machine/Ops.lean ====
section
/-! DEFINITION. Named operations over memory, registers, groups and modules, translation (R297 to R302),
and the taking of a fault (R95, R336) with its answer (R337, R338). -/

namespace Sys2Proof.Machine

open Sys2Proof

/-! ## Memory -/

abbrev Memory := List Host.Cell

/-- What an address that memory does not list reads as (log entry 1). -/
def Memory.blank : Byte := 0

/-- The byte at an address. -/
def Memory.byte (m : Memory) (a : Nat) : Byte :=
  match m with
  | [] => Memory.blank
  | (b, v) :: rest => if b = a then v else if a < b then Memory.blank else Memory.byte rest a

/-- Write one byte; the list keeps its canonical form. -/
def Memory.put (m : Memory) (a : Nat) (v : Byte) : Memory :=
  match m with
  | [] => if v = Memory.blank then [] else [(a, v)]
  | (b, w) :: rest =>
    if a < b then (if v = Memory.blank then (b, w) :: rest else (a, v) :: (b, w) :: rest)
    else if b = a then (if v = Memory.blank then rest else (a, v) :: rest)
    else (b, w) :: Memory.put rest a v

/-- Every listed address is above `lo`, they rise strictly, and no listed byte is the blank one. -/
def Memory.wfFrom (lo : Nat) : Memory → Bool
  | [] => true
  | (a, v) :: rest => decide (lo ≤ a) && decide (v ≠ Memory.blank) && Memory.wfFrom (a + 1) rest

/-- The canonical form. -/
def Memory.wf (m : Memory) : Bool := Memory.wfFrom 0 m

/-- Write bytes at rising addresses. -/
def Memory.putBytes (m : Memory) (a : Nat) : List Byte → Memory
  | [] => m
  | b :: bs => Memory.putBytes (Memory.put m a b) (a + 1) bs

/-- Read n bytes. -/
def Memory.bytes (m : Memory) (a : Nat) : Nat → List Byte
  | 0 => []
  | n + 1 => Memory.byte m a :: Memory.bytes m (a + 1) n

/-- The little-endian number of n bytes (R1). -/
def Memory.num (m : Memory) (a n : Nat) : Nat := ofLeBytes (Memory.bytes m a n)

/-- The key of byte `o` of vault `v` (R246). -/
def vaultKey (v o : Nat) : Nat := 2 ^ 52 + v * 2 ^ 24 + o

/-- Is the key a vault's? -/
def isVaultKey (k : Nat) : Bool := 2 ^ 52 ≤ k
def vaultOfKey (k : Nat) : Nat := (k - 2 ^ 52) / 2 ^ 24

/-! ## Granules (R243, R308) -/

def Gran.blank : Gran := ⟨false, none, none, []⟩

def State.granAt (s : State) (g : Nat) : Gran := (s.gran.find g).getD Gran.blank

def State.setGran (s : State) (g : Nat) (x : Gran) : State :=
  { s with gran := if x = Gran.blank then s.gran.del g else s.gran.put g x }

/-- The granules that n bytes at a touch. -/
def granulesOf (a n : Nat) : List Nat := natsFrom (a / 16) ((a + n - 1) / 16 + 1 - a / 16)

/-- Bytes of one granule were written now. -/
def Gran.stamp (x : Gran) (seq : Nat) (bytes : List Nat) : Gran :=
  { x with written := bytes.foldl (fun m i => KMap.put m i seq) x.written }

/-- The bytes of granule `g` among n bytes at `a`. -/
def bytesIn (g a n : Nat) : List Nat := (natsFrom 0 16).filter fun i => a ≤ g * 16 + i && g * 16 + i < a + n

/-- n bytes at a were written now. -/
def State.stampBytes (s : State) (a n : Nat) : State :=
  (granulesOf a n).foldl (fun s g => s.setGran g ((s.granAt g).stamp s.seq (bytesIn g a n))) s

/-- When the byte at a home key was last written; 0 when it never was. -/
def State.writtenAt (s : State) (a : Nat) : Nat := ((s.granAt (a / 16)).written.find (a % 16)).getD 0

/-- Was one of n bytes at a written after a point of the order of moves? -/
def State.writtenSince (s : State) (a n since : Nat) : Bool :=
  (natsFrom a n).any fun b => decide (since < s.writtenAt b)

/-- Poisoned lines that n bytes at a lie in (R287); vaults have none. -/
def State.poisoned (s : State) (a n : Nat) : Bool :=
  if isVaultKey a then (granulesOf a n).any s.latent.granules.contains
  else s.poison.any fun l => decide (l < a + n) && decide (a < l + 128)

/-- Write bytes at a home. A write of a whole line clears its poison (R287); granules note the write. -/
def State.write (s : State) (a : Nat) (bs : List Byte) : State :=
  let n := bs.length
  let s := { s with
    mem := Memory.putBytes s.mem a bs,
    poison := s.poison.filter (fun l => !(decide (a ≤ l) && decide (l + 128 ≤ a + n))) }
  let outside (size g : Nat) : Bool := !(decide (a ≤ g * size) && decide (g * size + size ≤ a + n))
  let s := { s with latent := { s.latent with
    granules := s.latent.granules.filter (outside 16), granules1 := s.latent.granules1.filter (outside 16),
    blocks1 := s.latent.blocks1.filter (outside 32) } }
  if n = 0 then s else s.stampBytes a n

/-- Writes that together cover whole lines clear their poison (R287): `keys` are the bytes of one write. -/
def State.clearPoison (s : State) (keys : List Nat) : State :=
  { s with poison := s.poison.filter fun l => !(natsFrom l 128).all keys.contains }

/-- n bytes at a home key are read: single-bit errors are corrected, and counted in the error counter of the vault's
cluster (R249) or of the stack (R287); log entry 14. -/
def State.correctHome (s : State) (a n : Nat) : State :=
  if isVaultKey a then
    match s.latent.granules1.filter fun g => a / 16 ≤ g && g ≤ (a + n - 1) / 16 with
    | [] => s
    | hits =>
      let c := vaultOfKey a
      { s with
        latent := { s.latent with granules1 := s.latent.granules1.filter fun g => !hits.contains g },
        errCluster := s.errCluster.put c ((s.errCluster.find c).getD 0 + BitVec.ofNat 64 hits.length) }
  else
    match s.latent.blocks1.filter fun b => decide (b * 32 < a + n) && decide (a < b * 32 + 32) with
    | [] => s
    | hits =>
      let c := bitsOf a 39 36
      { s with
        latent := { s.latent with blocks1 := s.latent.blocks1.filter fun b => !hits.contains b },
        errStack := s.errStack.put c ((s.errStack.find c).getD 0 + BitVec.ofNat 64 hits.length) }

def State.writeNum (s : State) (a n v : Nat) : State := s.write a (leBytes v n)

def State.readNum (s : State) (a n : Nat) : Nat := Memory.num s.mem a n

def State.readBytes (s : State) (a n : Nat) : List Byte := Memory.bytes s.mem a n

/-! ## Units (R5) -/

def clusterOf (core : Nat) : Nat := core / 4
def dieOf (core : Nat) : Nat := core / 96
def dieOfVault (v : Nat) : Nat := v / 24

/-! ## Groups, teams, launches -/

def State.group (s : State) (gk : Nat) : Option Group := s.groups.find gk

def State.setGroup (s : State) (gk : Nat) (g : Group) : State := { s with groups := s.groups.put gk g }

def State.onGroup (s : State) (gk : Nat) (f : Group → Group) : State :=
  { s with groups := s.groups.update gk f }

def State.onTeam (s : State) (t : Nat) (f : Team → Team) : State := { s with teams := s.teams.update t f }

def State.onLaunch (s : State) (l : Nat) (f : Launch → Launch) : State :=
  { s with launches := s.launches.update l f }

/-- The key of a group. -/
def gkOf (team gidx : Nat) : Nat := team * 16 + gidx

/-- A field of a record held as bytes. -/
def field (r : List Byte) (off n : Nat) : Nat := ofLeBytes ((r.drop off).take n)

/-- The coordinates of team t in the grid of a launch record (R144, R176). -/
def gridOf (r : List Byte) (t : Nat) : Nat × Nat × Nat :=
  let dx := field r 0x08 4
  let dy := field r 0x0C 4
  (t % dx, t / dx % dy, t / (dx * dy))

/-- The context of a group. -/
def State.ctxOf (s : State) (g : Group) : Nat :=
  ((s.teams.find g.team).bind fun tm => (s.launches.find tm.launch).map (·.ctx)).getD 0

/-- Count an event of R349 for a context. -/
def State.count (s : State) (ctx i n : Nat) : State :=
  { s with ctxs := s.ctxs.update ctx fun c =>
      { c with counters := c.counters.put i ((c.counters.find i).getD 0 + BitVec.ofNat 64 n) } }

def deadBlk : BitVec 12 := 0xFFF

def Lane.live (l : Lane) : Bool := l.blk != deadBlk

def Lane.blank : Lane := ⟨deadBlk, deadBlk, false, false, 0, 0⟩

def Slice.blank : Slice := ⟨0, 0, 0, .done, 0, [], 0, 0⟩

def Group.width (g : Group) : Nat := g.lanes.length

def Group.lane (g : Group) (l : Nat) : Lane := g.lanes.getD l Lane.blank

def Group.slice (g : Group) (i : Nat) : Slice := g.slices.getD i Slice.blank

def Group.onLanes (g : Group) (f : Nat → Lane → Lane) : Group :=
  { g with lanes := mapIdxFrom 0 f g.lanes }

def Group.onSlices (g : Group) (p : Nat → Bool) (f : Slice → Slice) : Group :=
  { g with slices := mapIdxFrom 0 (fun i x => if p i then f x else x) g.slices }

/-- The slices of the gang with a tag (R65). -/
def Group.gang (g : Group) (tag : Nat) : List Nat :=
  (natsFrom 0 g.slices.length).filter fun i =>
    (g.slice i).status != .done && (g.slice i).tag.toNat == tag

/-- The tags of a group's gangs, ascending. -/
def Group.tags (g : Group) : List Nat :=
  sortBy (fun a b => decide (a ≤ b)) (dedup
    (((natsFrom 0 g.slices.length).filter fun i => (g.slice i).status != .done).map
      fun i => (g.slice i).tag.toNat))

/-- The lanes of some slices, ascending (R5). -/
def lanesOf (slices : List Nat) : List Nat := slices.flatMap fun i => natsFrom (4 * i) 4

def Group.allDone (g : Group) : Bool := g.slices.all fun x => x.status == .done

/-- Where a gang stands, as fault records and save frames put it: state id low, offset high. -/
def Group.pos (g : Group) (tag : Nat) : Word :=
  match g.gang tag with
  | [] => 0
  | i :: _ => BitVec.ofNat 32 ((g.slice i).sid.toNat + 65536 * (g.slice i).off.toNat)

/-! ## Frames and registers -/

def Frame.size (f : Frame) : Nat := 8 * f.seeds.length

/-- Size(d) of R134; 0 when there is no frame. -/
def Group.frameSize (g : Group) (d : Nat) : Nat :=
  match g.frames.find d with
  | some f => f.size
  | none => 0

/-- A free value, told apart by use (log entry 4). -/
def freeVal (n a b c : Nat) : Word := Config.freeWord (((n * 16 + a) * 64 + b) * 512 + c)

/-- Name of a register in lists of destinations. -/
def regKey (depth lane reg : Nat) : Nat := (depth * 64 + lane) * 256 + reg

/-- Is the register a destination that no `wait` has covered yet (R84)? -/
def Group.uncovered (g : Group) (k : Nat) : Bool :=
  g.ops.any (fun o => o.dests.contains k) || g.tiles.any (fun o => o.dests.contains k)

/-- What the bank holds (R134): a written register, or the free value of a fresh one. -/
def Frame.bank (f : Frame) (lane reg : Nat) : Word :=
  match f.regs.find (lane * 256 + reg) with
  | some w => w
  | none => Config.freshReg (f.seeds.getD (reg / 8) 0) lane reg

/-- The bank read of R83 and R84. `n` and `a` name the free value of an early read. -/
def Group.bankRead (g : Group) (n a depth lane reg : Nat) : Word :=
  if g.uncovered (regKey depth lane reg) then freeVal n a lane reg
  else
    match g.frames.find depth with
    | some f => f.bank lane reg
    | none => freeVal n a lane reg

/-- The window part of `Read` (R83): the value, or none when the bank answers. Newest entry first. -/
def windowRead (ws : List WinEntry) (lane reg : Nat) : Option Word :=
  match ws with
  | [] => none
  | w :: rest =>
    if w.async && w.regs.contains reg && w.lanes.contains lane then none
    else
      match w.vals.find (lane * 256 + reg) with
      | some v => some v
      | none => windowRead rest lane reg

/-- `Read(L, v, n)` of R83. -/
def Group.read (g : Group) (n a lane reg : Nat) : Word :=
  match windowRead g.window lane reg with
  | some v => v
  | none => g.bankRead n a (g.lane lane).depth.toNat lane reg

/-- A register write: lane, register, value. -/
abbrev RegWrite := Nat × Nat × Word

/-- Put a value into the bank at a depth. -/
def Group.bankPut (g : Group) (depth lane reg : Nat) (v : Word) : Group :=
  { g with frames := g.frames.update depth fun f => { f with regs := f.regs.put (lane * 256 + reg) v } }

/-- The data of pending words no longer reaches a register that a later word writes (R84). -/
def Group.supersede (g : Group) (k : Nat) : Group :=
  { g with
    keeps := g.keeps.map (fun p => if p.2.srcs.contains k then (p.1, { p.2 with broken := true }) else p),
    ops := g.ops.map (fun o => if o.dests.contains k then { o with stale := k :: o.stale } else o),
    tiles := g.tiles.map (fun o =>
      if o.dests.contains k || o.srcs.contains k then { o with stale := k :: o.stale } else o) }

/-- An `mma` that no `wait` covers yet reads from a register that a word writes: its rows are undefined (R100, R227). -/
def Group.spoil (g : Group) (k : Nat) : Group :=
  { g with tiles := g.tiles.map fun o => if o.srcs.contains k then { o with stale := k :: o.stale } else o }

/-- One register write of a word with its `k` (R83); what R227 needs to know of it is kept. -/
def Group.writeReg (g : Group) (k : Bool) (w : RegWrite) : Group :=
  let d := (g.lane w.1).depth.toNat
  let key := regKey d w.1 w.2.1
  if k then
    let g := (g.bankPut d w.1 w.2.1 w.2.2).supersede key
    { g with dirty := key :: g.dirty.filter (· != key), windowOnly := g.windowOnly.filter (· != key) }
  else { (g.spoil key) with windowOnly := key :: g.windowOnly.filter (· != key) }

/-- Seven words stay in the window. -/
def Group.pushWindow (g : Group) (w : WinEntry) : Group := { g with window := (w :: g.window).take 7 }

/-- The window entry of a word that writes in the pipeline. -/
def winEntry (ws : List RegWrite) : WinEntry :=
  { async := false, regs := dedup (ws.map (·.2.1)), lanes := dedup (ws.map (·.1)),
    vals := ws.foldl (fun m w => KMap.put m (w.1 * 256 + w.2.1) w.2.2) [] }

/-- The window entry of a word of R84: `regs` of `lanes`. -/
def winAsync (regs lanes : List Nat) : WinEntry := ⟨true, regs, lanes, []⟩

/-! ## Translation (R297 to R301) -/

inductive PaKind where
  | hbm | fabric | host | none
  deriving DecidableEq, Repr

/-- R284. -/
def paKind (pa : Nat) : PaKind :=
  if pa < 0x00C000000000 then .hbm
  else if 2 ^ 50 ≤ pa && pa < 2 ^ 51 then .fabric
  else if 2 ^ 51 ≤ pa && pa < 2 ^ 52 then .host
  else .none

/-- The stack of an HBM address (R284) and its die. -/
def stackOf (pa : Nat) : Nat := bitsOf pa 39 36
def dieOfStack (st : Nat) : Nat := st / 3

inductive Tr where
  | ok (pa : Nat) (w nc : Bool) (fill : List TlbEntry)
  | unresolved
  | prot
  | ecc
  deriving DecidableEq, Repr

/-- Is the line of an address FORWARD in a migration's old frame (R302)? -/
def Mig.forwards (m : Mig) (a : Nat) : Bool :=
  m.old ≤ a && a < m.old + m.size && m.pulled.contains ((a - m.old) / 128)

/-- Is the line of an address ABSENT in a migration's new frame (R302)? -/
def Mig.lacks (m : Mig) (a : Nat) : Bool :=
  m.new ≤ a && a < m.new + m.size && !m.pulled.contains ((a - m.new) / 128)

/-- The live home of an address (R302), through at most `fuel` records: one migration's new frame may be another's
old frame. -/
def liveFrom (ms : List Mig) : Nat → Nat → Nat
  | 0, a => a
  | fuel + 1, a =>
    match ms.find? fun m => m.forwards a with
    | some m => liveFrom ms fuel (a - m.old + m.new)
    | none =>
      match ms.find? fun m => m.lacks a with
      | some m => liveFrom ms fuel (a - m.new + m.old)
      | none => a

/-- Where the bytes of a physical address live during migrations (R302). -/
def State.liveKey (s : State) (pa : Nat) : Nat := liveFrom s.migs.vals (2 * s.migs.length) pa

/-- n bytes from a physical address, each where it lives (R302). -/
def State.liveBytes (s : State) (pa n : Nat) : List Byte :=
  if s.migs.isEmpty then s.readBytes pa n else (natsFrom pa n).map fun a => Memory.byte s.mem (s.liveKey a)

/-- The little-endian number of n bytes from a physical address (R1, R302). -/
def State.liveNum (s : State) (pa n : Nat) : Nat := ofLeBytes (s.liveBytes pa n)

/-! ## Modules in memory (R166 to R169) -/

def State.stateLen (s : State) (m : Module) (st : Nat) : Nat := s.liveNum (m.states + 24 * st + 4) 2 + 1

def State.stateCode (s : State) (m : Module) (st : Nat) : Nat :=
  m.code + 8 * s.liveNum (m.states + 24 * st) 4

/-- The slot list of a state. -/
def State.slotsOf (s : State) (m : Module) (st : Nat) : List Nat :=
  let n := s.liveNum (m.states + 24 * st + 6) 1
  let ids := s.liveNum (m.states + 24 * st + 8) 12
  (natsFrom 0 (min n 8)).map fun i => bitsOf ids (12 * i + 11) (12 * i)

/-- A code word of a state. -/
def State.codeWord (s : State) (m : Module) (st off : Nat) : Dword :=
  BitVec.ofNat 64 (s.liveNum (s.stateCode m st + 8 * off) 8)

/-- A function descriptor (R168). -/
structure Descr where
  entry : Nat
  demand : Nat
  argbase : Nat
  nargs : Nat
  nres : Nat
  deriving DecidableEq, Repr

def descrOf (x : Nat) : Descr :=
  ⟨bitsOf x 11 0, (bitsOf x 20 16 + 1) * 8, bitsOf x 31 24, bitsOf x 37 32, bitsOf x 45 40⟩

def State.descr (s : State) (m : Module) (i : Nat) : Descr := descrOf (s.liveNum (m.descrs + 8 * i) 8)

/-! ## The walk (R299) -/

/-- The shift of an index and its width by level (R299). -/
def levelShift : Nat → Nat
  | 0 => 48
  | 1 => 39
  | 2 => 30
  | 3 => 21
  | _ => 16
def levelBits : Nat → Nat
  | 0 => 8
  | 4 => 5
  | _ => 9
/-- The size of the table that an entry of a level names. -/
def nextTableSize : Nat → Nat
  | 3 => 256
  | _ => 4096

/-- The walk from level `5 - fuel` (R299); `via` are the entries that it has read. -/
def State.walk (s : State) (ctx holder va : Nat) (via : List Nat) : Nat → Nat → Tr
  | 0, _ => .prot
  | fuel + 1, table =>
    let lv := 4 - fuel
    let sh := levelShift lv
    let a := table + 8 * (va / 2 ^ sh % 2 ^ levelBits lv)
    let key := s.liveKey a
    let e := s.readNum key 8
    if s.poisoned key 8 then .ecc
    else if !bitOf e 0 then .unresolved
    else
      let leaf := bitOf e 1
      let addr := bitsOf e 51 8 * 256
      let reserved := bitsOf e 63 52 != 0 || bitsOf e 7 5 != 0 || bitOf e 2
      if reserved || (leaf && lv ≤ 1) || (!leaf && lv == 4) then .prot
      else if leaf then
        if addr % 2 ^ sh != 0 then .prot
        else
          let pa := addr + va % 2 ^ sh
          if paKind pa == .none then .prot
          else
            let t : TlbEntry := ⟨holder, ctx, va / 2 ^ sh * 2 ^ sh, 2 ^ sh, addr, bitOf e 3, bitOf e 4, a :: via⟩
            .ok pa t.w t.nc [t]
      else if bitOf e 3 || bitOf e 4 || addr % nextTableSize lv != 0 || paKind addr != .hbm then .prot
      else State.walk s ctx holder va (a :: via) fuel addr

/-- A held translation (R300). -/
def State.tlbHit (s : State) (holder ctx va : Nat) : Option TlbEntry :=
  s.tlb.find? fun t => t.holder == holder && t.ctx == ctx && t.va ≤ va && va < t.va + t.size

/-- Does a byte of memory belong to a loaded module's code, tables or read-only data, whose pages are mapped
read-only in every context (R171; log entry 23)? -/
def State.moduleReadOnly (s : State) (pa : Nat) : Bool :=
  s.modules.vals.any fun m => m.base ≤ pa && pa < m.base + m.size &&
    !(m.maps.any fun r => r.1 ≤ pa && pa < r.1 + r.2.1 && r.2.2)

/-- The physical address that the pages of the loaded modules map an address to, in every context (R171). -/
def State.modulePage (s : State) (va : Nat) : Option Nat :=
  s.modules.vals.findSome? fun m => (m.maps.find? fun r =>
    m.va + (r.1 - m.base) ≤ va && va < m.va + (r.1 - m.base) + r.2.1).map fun _ => m.base + (va - m.va)

/-- A translation grants no write of a module's read-only pages; an address that a context's heap and tables leave
unresolved may lie in a module's pages (R171; DEDUCED, log entry 23). -/
def State.guardModules (s : State) (va : Nat) : Tr → Tr
  | .ok pa w nc fill => .ok pa (w && !s.moduleReadOnly pa) nc fill
  | .unresolved =>
    match s.modulePage va with
    | some pa => .ok pa (!s.moduleReadOnly pa) false []
    | none => .unresolved
  | r => r

/-- An address outside the heap (R299, R300). -/
def State.translateTables (s : State) (c : Ctx) (ctx who va : Nat) : Tr :=
  if !c.desc.tables then .unresolved
  else
    let die := if who < 384 then 384 + dieOf who else who
    match s.tlbHit who ctx va with
    | some t => .ok (t.pa + (va - t.va)) t.w t.nc []
    | none =>
      match s.tlbHit die ctx va with
      | some t => .ok (t.pa + (va - t.va)) t.w t.nc (if who < 384 then [{ t with holder := who }] else [])
      | none =>
        match s.walk ctx die va [] 5 c.desc.root with
        | .ok pa w nc fill =>
          .ok pa w nc (fill ++ (if who < 384 then fill.map fun t => { t with holder := who, via := [] } else []))
        | r => r

/-- Translate a global virtual address for a core (`core` < 384), or for an engine of a die (384 + die)
(R298, R300). -/
def State.translate (s : State) (ctx who va : Nat) : Tr :=
  match s.ctxs.find ctx with
  | none => .unresolved
  | some c =>
    if c.desc.heapBase ≤ va && va < c.desc.heapLimit then
      let pa := (va + c.desc.heapOffset) % 2 ^ 52
      if paKind pa == .none then .prot else s.guardModules va (.ok pa c.desc.heapW c.desc.heapNc [])
    else s.guardModules va (s.translateTables c ctx who va)

/-- The entries that a TLB holds (R300): a core's micro-TLB 32, a die's shared TLB 8,192. -/
def tlbSize (holder : Nat) : Nat := if holder < 384 then 32 else 8192

/-- Add an entry to its TLB; a full TLB first loses its oldest entry (DESIGN CHOICE, log entry 53). -/
def addTlb (tlb : List TlbEntry) (t : TlbEntry) : List TlbEntry :=
  if tlb.contains t then tlb
  else if tlbSize t.holder ≤ (tlb.filter fun x => x.holder == t.holder).length then
    (match tlb.find? fun x => x.holder == t.holder with
     | some old => tlb.erase old
     | none => tlb) ++ [t]
  else tlb ++ [t]

/-! ## First touch of a migrating line (R302) -/

/-- Pull one line of a migration: bytes, poison and granule records move to the new frame. -/
def State.pullLine (s : State) (id line : Nat) : State :=
  match s.migs.find id with
  | none => s
  | some m =>
    if m.pulled.contains line then s
    else
      let a := s.liveKey (m.old + 128 * line)
      let b := m.new + 128 * line
      let s := s.correctHome a 128
      let s1 := { s with
        mem := Memory.putBytes s.mem b (s.readBytes a 128),
        poison := s.poison.filter (· != b) ++ (if s.poison.contains a then [b] else []),
        migs := s.migs.put id { m with pulled := line :: m.pulled } }
      (natsFrom 0 8).foldl (fun t i => t.setGran (b / 16 + i) (s.granAt (a / 16 + i))) s1

/-- An access at a physical address goes where a FORWARD line sends it; at an ABSENT line it first reaches the old
home, then pulls the line. -/
def State.touchFrom (s : State) : Nat → Nat → State
  | 0, _ => s
  | fuel + 1, pa =>
    match s.migs.vals.find? fun m => m.forwards pa with
    | some m => s.touchFrom fuel (pa - m.old + m.new)
    | none =>
      match s.migs.vals.find? fun m => m.lacks pa with
      | some m => (s.touchFrom fuel (pa - m.new + m.old)).pullLine m.id ((pa - m.new) / 128)
      | none => s

/-- The first touch of a physical address. -/
def State.touch (s : State) (pa : Nat) : State := s.touchFrom (2 * s.migs.length) pa

/-- Walks have read the entries of some translations: lines of a migrating frame are pulled (R302), single-bit errors are
corrected (R287). -/
def State.walked (s : State) (ts : List TlbEntry) : State :=
  (ts.flatMap (·.via)).foldl (fun s a =>
    let s := s.touch a
    s.correctHome (s.liveKey a) 8) s

/-- Keep the translations that walks made. -/
def State.fillTlb (s : State) (ts : List TlbEntry) : State :=
  let s := s.walked ts
  { s with tlb := (ts.map fun t => { t with via := [] }).foldl addTlb s.tlb }

/-! ## Faults -/

/-- What a word's fault says; `bits` is byte 0x03 of its record, but for its bit 2, engine origin, which every
`ENGINE` fault has (DEDUCED, log entry 28). -/
structure WFault where
  code : Nat
  cause : Nat
  lane : Nat
  addr : Dword
  imm : Nat
  bits : Nat
  deriving DecidableEq, Repr

def wfault (code lane : Nat) : WFault := ⟨code, 0, lane, 0, 0, 0⟩

def cILLFORM : Nat := 0x01
def cILLOP : Nat := 0x02
def cILLFIELD : Nat := 0x03
def cILLPAIR : Nat := 0x04
def cILLMEMB : Nat := 0x05
def cFETCHRANGE : Nat := 0x06
def cXTABBAD : Nat := 0x07
def cFRAMERANGE : Nat := 0x10
def cSPILLFULL : Nat := 0x11
def cCALLDEPTH : Nat := 0x12
def cSPACEINVALID : Nat := 0x20
def cSPACEFOREIGN : Nat := 0x21
def cALIGN : Nat := 0x22
def cPAGE : Nat := 0x23
def cPROT : Nat := 0x24
def cATOMPATH : Nat := 0x25
def cECCFATAL : Nat := 0x30
def cENGINE : Nat := 0x31
def cTRAP : Nat := 0x40
def cBRKPT : Nat := 0x41
def cWATCH : Nat := 0x42
def cCREWBAD : Nat := 0x50

/-- The region snapshot (R341): the top three entries, 0xFFFF where there is none. -/
def Group.snapshot (g : Group) : List (BitVec 16) :=
  let top := g.regions.take 3
  top ++ (natsFrom 0 (3 - top.length)).map fun _ => 0xFFFF

/-- The offset of a group's area in its save frame (R332). -/
def groupArea (gidx : Nat) : Nat := 0x42000 + gidx * 0x2D000

/-- A fault record (R336) about a group. -/
def State.record (s : State) (gk : Nat) (ty code cause bits tag : Nat) (pos : Word) (addr : Dword)
    (lane imm : Nat) : FaultRec :=
  match s.group gk with
  | none => ⟨ty, BitVec.ofNat 8 code, BitVec.ofNat 8 cause, BitVec.ofNat 8 bits, 0, 0, tag, 0, pos, addr, lane,
      0, 0, 0, [], BitVec.ofNat 16 imm, s.time, 0, gk, none⟩
  | some g =>
    let tm := s.teams.find g.team
    let core := (tm.map (·.core)).getD 0
    let launch := (tm.map (·.launch)).getD 0
    { ty := ty, code := BitVec.ofNat 8 code, cause := BitVec.ofNat 8 cause,
      bits := BitVec.ofNat 8 (bits + fIf g.regOverflow 8), core := core, slot := g.slot, tag := tag,
      launch := BitVec.ofNat 32 launch, pos := pos, addr := addr, lane := lane, under := 0, row := 0, col := 0,
      regions := g.snapshot, imm := BitVec.ofNat 16 imm, time := s.time,
      frame := BitVec.ofNat 64 ((tm.map (·.frame)).getD 0), gk := gk, job := none }

def State.addRecord (s : State) (r : FaultRec) : State := { s with records := s.records ++ [r] }

/-- The key of an issue slot of a core. -/
def unitKey (core slot : Nat) : Nat := 2 * core + slot

/-- The run that a group holds ends. -/
def State.dropRuns (s : State) (gk : Nat) : State := { s with runs := s.runs.filter fun r => r.2.gk != gk }

/-- Stop a group (R95, R338, R344, R328): it issues no more, its runs end, its window keeps its tag (R86), and
granules set aside for its words become free again (R192). -/
def State.haltAt (s : State) (gk : Nat) (h : Halt) : State :=
  let s := (s.dropRuns gk).onGroup gk fun g =>
    { g with halt := some h, lastFault := if h.why == .preempt then g.lastFault else h.code, pass := 0 }
  s.onTeam (gk / 16) fun tm => { tm with requests := tm.requests.filter fun r => !(r.gk == gk && r.served) }

/-- Stop a group now, for a word of the gang `tag`. -/
def State.halt (s : State) (gk : Nat) (why : HaltWhy) (code lane tag : Nat) (before : Option Nat := none) : State :=
  s.haltAt gk ⟨why, BitVec.ofNat 8 code, s.time, lane, tag, before⟩

/-- TAKING A FAULT at a word of a gang (R95, R336): nothing of the word is committed, the group stops, and a
record of type 1 is made. -/
def State.takeFault (s : State) (gk tag : Nat) (f : WFault) : State :=
  match s.group gk with
  | none => s
  | some g =>
    (s.addRecord (s.record gk 1 f.code f.cause (f.bits ||| fIf (f.code == cENGINE) 4) tag (g.pos tag) f.addr f.lane f.imm)).halt gk .fault
      f.code f.lane tag

/-- A deferred fault of a group (R337): `bits` bit 0 is set; `pos` is the reported word. -/
def State.deferFault (s : State) (gk : Nat) (pos : Word) (f : WFault) (engine : Bool) (under row col : Nat)
    (job : Option Nat) : State :=
  match s.group gk with
  | none => s
  | some g =>
    (s.addRecord { (s.record gk 1 f.code f.cause (1 + fIf (engine || f.code == cENGINE) 4) g.lastTag pos f.addr f.lane f.imm) with
      under := BitVec.ofNat 16 under, row := BitVec.ofNat 32 row, col := BitVec.ofNat 32 col,
      job := job }).halt gk .fault f.code f.lane g.lastTag

/-- Parking a group at a word (R338): access is 0 read, 1 write or atomic, 2 fetch. -/
def State.takePark (s : State) (gk tag lane : Nat) (addr : Dword) (access ctx : Nat) : State :=
  match s.group gk with
  | none => s
  | some g =>
    ((s.count ctx 15 1).addRecord (s.record gk 2 cPAGE 0 (access * 16) tag (g.pos tag) addr lane 0)).halt gk
      .park cPAGE lane tag

/-- A debug stop (R342, R344): the record of a `BRKPT`; `pos` is the word that it reports, `before` what a stop before
a word matched. -/
def State.takeStop (s : State) (gk tag imm ctx : Nat) (pos : Word) (before : Option Nat) : State :=
  match s.group gk with
  | none => s
  | some _ =>
    ((s.count ctx 15 1).addRecord (s.record gk 1 cBRKPT 0 0 tag pos 0 0 imm)).halt gk .debug cBRKPT 0 tag before

/-- Is the group held up from issuing by a stop, a save, a swap or its retirement? -/
def Group.stopped (g : Group) : Bool :=
  g.halt.isSome || g.saved || g.swapped || !g.resident

/-- The stop that a released group's next word is not matched against again (R343). -/
def Halt.skips (h : Halt) : List (Nat × Nat) :=
  match h.before with
  | some x => [(h.tag, x)]
  | none => []

/-- A stop that a group still owes is taken at its word boundary (R347), unless the group is stopped already: then it
waits for the group's return. -/
def State.takeOwed (s : State) (gk : Nat) : State :=
  match s.group gk with
  | none => s
  | some g =>
    match g.stopNext, g.halt with
    | some r, none =>
      ((s.count (s.ctxOf g) 15 1).onGroup gk fun g => { g with stopNext := none }).haltAt gk
        ⟨.debug, r.code, r.time, r.lane, r.tag, none⟩
    | _, _ => s

/-- RETURN FROM A STOP (R337, R338, R344): the group issues again from where it stands. What a stop before a word
matched does not stop that word again (R343); `step` asks for one word of the gang that stopped (R345). A stop that the
group owes is taken first (R347). -/
def State.release (s : State) (gk : Nat) (step : Bool) : State :=
  (s.onGroup gk fun g =>
    match g.halt with
    | some h => { g with skipStop := g.skipStop ++ h.skips, halt := none, step := if step then some h.tag else none, pass := 0 }
    | none => { g with step := if step then some g.lastTag else none, pass := 0 }).takeOwed gk

/-! ## The executing gang -/

/-- What a word sees of the group, gang and run that issue it (R66). `lanes` is Active(s) (R7); `free` names
the free values of its reads. -/
structure Env where
  gk : Nat
  g : Group
  tm : Team
  la : Launch
  md : Module
  core : Nat
  unit : Nat
  run : Run
  slices : List Nat
  st : Nat
  off : Nat
  slots : List Nat
  lanes : List Nat
  free : Nat
  deriving DecidableEq, Repr

/-- The lanes of a gang whose block is in a slot that `m` selects (R7). -/
def activeLanes (g : Group) (slices slots : List Nat) (m : BitVec 8) : List Nat :=
  (lanesOf slices).filter fun l =>
    let x := g.lane l
    x.live && !x.park &&
      (let i := slots.findIdx (· == x.blk.toNat)
       decide (i < slots.length) && m.toNat.testBit i)

/-- The word's environment, when the issue slot that `cur` names holds a run of a gang. -/
def State.env (s : State) (m : BitVec 8) : Option Env :=
  match s.runs.find (unitKey s.cur.1 s.cur.2) with
  | none => none
  | some r =>
    match s.group r.gk with
    | none => none
    | some g =>
      match s.teams.find g.team with
      | none => none
      | some tm =>
        match s.launches.find tm.launch with
        | none => none
        | some la =>
          match s.modules.find la.module with
          | none => none
          | some md =>
            match g.gang r.tag with
            | [] => none
            | i :: rest =>
              let st := (g.slice i).sid.toNat
              let slots := s.slotsOf md st
              some { gk := r.gk, g := g, tm := tm, la := la, md := md, core := s.cur.1, unit := s.cur.2,
                     run := r, slices := i :: rest, st := st, off := (g.slice i).off.toNat, slots := slots,
                     lanes := activeLanes g (i :: rest) slots m, free := s.free }

/-- Read a register of a lane as the word's source number `a` (R83). -/
def Env.reg (e : Env) (a lane reg : Nat) : Word := e.g.read e.free a lane reg

/-- The lowest active lane in whose frame one of the operands does not lie (R36): (register, registers). -/
def Env.badFrame (e : Env) (regs : List (Nat × Nat)) : Option Nat :=
  e.lanes.find? fun l =>
    let size := e.g.frameSize (e.g.lane l).depth.toNat
    regs.any fun r => size < r.1 + r.2

/-- The name of a register among the latent errors. -/
def latentReg (gk depth lane reg : Nat) : Nat := (gk * 256 + depth) * 16384 + lane * 256 + reg

/-- The names of the registers that a lane reads from the bank among (register, registers). -/
def Env.bankNames (e : Env) (l : Nat) (regs : List (Nat × Nat)) : List Nat :=
  (regs.flatMap fun r => (natsFrom r.1 r.2).filter fun v => (windowRead e.g.window l v).isNone).map fun v =>
    latentReg e.gk (e.g.lane l).depth.toNat l v

/-- Does a lane read a register with an uncorrectable error (R208)? -/
def Env.laneEcc (e : Env) (latent : Latent) (regs : List (Nat × Nat)) (l : Nat) : Bool :=
  (e.bankNames l regs).any latent.regs.contains

/-- The lowest active lane that reads a register with an uncorrectable error (R208). -/
def Env.badEcc (e : Env) (latent : Latent) (regs : List (Nat × Nat)) : Option Nat :=
  e.lanes.find? (e.laneEcc latent regs)

/-- Registers with a single-bit error that are read: each is corrected and counted in the core's error counter
(R208; log entry 14). -/
def State.correctRegs (s : State) (core : Nat) (names : List Nat) : State :=
  match (dedup names).filter s.latent.regs1.contains with
  | [] => s
  | hits =>
    { s with
      latent := { s.latent with regs1 := s.latent.regs1.filter fun k => !hits.contains k },
      errCore := s.errCore.put core ((s.errCore.find core).getD 0 + BitVec.ofNat 64 hits.length) }

/-- The registers that a word reads of its active lanes. -/
def State.correctReads (s : State) (e : Env) (regs : List (Nat × Nat)) : State :=
  s.correctRegs e.core (e.lanes.flatMap fun l => e.bankNames l regs)

/-! ## Ending a word -/

/-- After a word that occupies `len` offsets from `off`: the next offset and the loops left (R87, R88).
Innermost loop first. An outer loop whose end is another offset of the same word is tested too (DESIGN CHOICE, log
entry 54). -/
def loopBack (off len : Nat) : List LoopEntry → Nat × List LoopEntry
  | [] => (off + len, [])
  | x :: rest =>
    if off ≤ x.stop.toNat && x.stop.toNat < off + len then
      if x.count != 1 then (x.start.toNat, { x with count := x.count - 1 } :: rest)
      else loopBack off len rest
    else (off + len, x :: rest)

/-- Move a gang's slices past a word. -/
def Group.advance (g : Group) (slices : List Nat) (len : Nat) : Group :=
  { (g.onSlices (fun i => slices.contains i) fun x =>
      let r := loopBack x.off.toNat len x.loops.reverse
      { x with off := BitVec.ofNat 16 r.1, loops := r.2.reverse }) with
    entered := g.entered.filter fun i => !slices.contains i }

/-- A word was issued: the issue order, the window's gang, the use stamps of the frames at the depths of
the active lanes (R194), counters 1 and 2 (R349). -/
def State.issued (s : State) (e : Env) : State :=
  let depths := dedup (e.lanes.map fun l => (e.g.lane l).depth.toNat)
  ((s.onGroup e.gk fun g =>
      { g with issued := g.issued + 1, winTag := e.run.tag, lastTag := e.run.tag,
               skipStop := g.skipStop.filter fun p => p.1 != e.run.tag,
               reqAge := g.reqAge.del e.run.tag,
               frames := g.frames.map fun p =>
                 if depths.contains p.1 then (p.1, { p.2 with stamp := s.seq }) else p }).count
    e.la.ctx 1 1).count e.la.ctx 2 e.lanes.length

/-- The run of the issue slot ends (R189). A stop that waits for it is taken (R347), and the step of R345
stops the group. -/
def State.endRun (s : State) (e : Env) : State :=
  ({ s with runs := s.runs.del (unitKey e.core e.unit) } : State).takeOwed e.gk

/-- The group stops after its one word (R342, R345), unless it has stopped already. -/
def State.stepStop (s : State) (e : Env) : State :=
  match s.group e.gk with
  | some g =>
    if g.step.isSome && g.halt.isNone then
      (s.onGroup e.gk fun g => { g with step := none }).takeStop e.gk e.run.tag 0x100 e.la.ctx (e.g.pos e.run.tag) none
    else s
  | none => s

/-- Is a pre-emption request latched for the team of a word (R328)? -/
def State.isLatched (s : State) (team : Nat) : Bool :=
  match s.teams.find team with
  | some tm => tm.latched
  | none => false

/-- A word of `len` offsets was issued in a run: the run counts it and its literal, and ends after `b` or 24
words (R41), or when its team's pre-emption is latched (R328). -/
def State.runOn (s : State) (e : Env) (b : Bool) (len : Nat) : State :=
  let s := { s with free := s.free + 1 }
  let n := e.run.words + len
  let s := if b || 24 ≤ n || s.isLatched e.g.team then s.endRun e
    else { s with runs := s.runs.put (unitKey e.core e.unit) { e.run with words := n, stalled := false } }
  s.stepStop e

/-- Would the word's end take the position beyond offset 0xFFFF (R42; log entry 21)? -/
def Env.pastEnd (e : Env) (len : Nat) : Bool :=
  decide (0xFFFF < (loopBack e.off len (e.g.slice (e.slices.headD 0)).loops.reverse).1)

/-- A word was issued, and the next position would lie beyond offset 0xFFFF: `FETCH_RANGE` (R42; log entry 21). -/
def State.pastFault (s : State) (e : Env) : State :=
  ({ s with free := s.free + 1 } : State).takeFault e.gk e.run.tag (wfault cFETCHRANGE 0)

/-- The end of a word that stays in its state: the position moves on (R87, R88). -/
def State.retire (s : State) (e : Env) (h : Hdr) (len : Nat) : State :=
  let s := (s.issued e).onGroup e.gk fun g => g.advance e.slices len
  if e.pastEnd len then s.pastFault e else s.runOn e h.b len

/-- A gang blocks at its word (R189): the run ends, the window stays with its tag (R86). A stepped group
stops there (R345). -/
def State.block (s : State) (e : Env) (b : Block) : State :=
  let s := s.onGroup e.gk fun g =>
    { g with blocked := g.blocked.put e.run.tag b, blockedAt := s.seq, lastTag := e.run.tag,
             winTag := e.run.tag }
  (s.endRun e).stepStop e

/-! ## The body of a word -/

/-- How a word's body ends: committed, a fault of its own, an unresolved translation (R338), a precise
watchpoint match (R347), blocked before it commits, or stalled with the run held (R154, R189). -/
inductive Res where
  | ok (s : State)
  | bad (f : WFault)
  | park (lane : Nat) (addr : Dword) (access : Nat)
  | watch (r : FaultRec)
  | hold (b : Block) (s : State)
  | stall
  deriving DecidableEq, Repr

/-- R35 and R43 step 5: does `m` name an absent slot? -/
def badMember (m : BitVec 8) (slots : Nat) : Bool := decide (2 ^ slots ≤ m.toNat)

/-- Does the launch take debug stops (R158, R342)? -/
def Launch.breaks (l : Launch) : Bool := bitOf (field l.record 0x06 2) 0

/-- Is the gang's next word not matched against a stop again (R343)? A watchpoint's stop is named 0x400. -/
def Env.skips (e : Env) (x : Nat) : Bool := e.g.skipStop.contains (e.run.tag, x)

/-- The stop before a word (R342, R343): the `imm` of the code breakpoint or region stop that matches.
`region` is the id of an `enter` or `leave`. -/
def State.stopBefore (s : State) (e : Env) (region : Option (BitVec 16)) : Option Nat :=
  if !e.la.breaks then none
  else
    let code :=
      if e.lanes.isEmpty then none
      else
        match s.ctxs.find e.la.ctx with
        | none => none
        | some c => (c.breaks.find? fun p =>
            p.2.enable && p.2.sid.toNat == e.st && p.2.off.toNat == e.off && !e.skips (0x200 + p.1)).map (·.1)
    match code with
    | some i => some (0x200 + i)
    | none =>
      match region with
      | none => none
      | some id =>
        if !e.skips 0x300 && s.regionStops.any (fun p => p.1 == e.la.id && (p.2 == id || p.2 == 0xFFFF)) then some 0x300
        else none

/-- A word one of whose lanes, lowest `l`, reads a register with an uncorrectable error: a fault or an unresolved
translation of a lower lane comes first (R8, R208). -/
def State.eccWord (s : State) (e : Env) (l : Nat) : Res → State
  | .bad f => if f.lane < l then s.takeFault e.gk e.run.tag f else s.takeFault e.gk e.run.tag (wfault cECCFATAL l)
  | .park k a x =>
    if k < l then s.takePark e.gk e.run.tag k a x e.la.ctx else s.takeFault e.gk e.run.tag (wfault cECCFATAL l)
  | _ => s.takeFault e.gk e.run.tag (wfault cECCFATAL l)

/-- A word is held at issue with its run (R154, R189); where its team's pre-emption is latched it is abandoned (R328). -/
def State.stallRun (s : State) (e : Env) : State :=
  if s.isLatched e.g.team then s.endRun e
  else { s with runs := s.runs.put (unitKey e.core e.unit) { e.run with stalled := true } }

/-- Steps 2, 5, 8 of R43, R208 and R343 around a word's body. `regs` are the operands it names, `reads`
those it reads; `fin` ends a word that committed. -/
def wordAt (h : Hdr) (len : Nat) (region : Option (BitVec 16)) (regs reads : List (Nat × Nat))
    (fin : Env → State → State) (body : Env → State → Res) (s : State) : Outcome :=
  match s.env h.m with
  | none => .fault .noRun
  | some e =>
    if h.m = 0 then
      .next ((s.onGroup e.gk fun g => g.pushWindow (winEntry [])).retire e h len)
    else if badMember h.m e.slots.length then .next (s.takeFault e.gk e.run.tag (wfault cILLMEMB 0))
    else
      match e.badFrame regs with
      | some l => .next (s.takeFault e.gk e.run.tag (wfault cFRAMERANGE l))
      | none =>
        match e.badEcc s.latent reads with
        | some l => .next (s.eccWord e l (body e s))
        | none =>
          match body e s with
          | .bad f => .next (s.takeFault e.gk e.run.tag f)
          | r =>
            match s.stopBefore e region with
            | some imm => .next (s.takeStop e.gk e.run.tag imm e.la.ctx (e.g.pos e.run.tag) (some imm))
            | none =>
              match r with
              | .ok s' => .next (fin e (s'.correctReads e reads))
              | .bad f => .next (s.takeFault e.gk e.run.tag f)
              | .park l a x => .next (s.takePark e.gk e.run.tag l a x e.la.ctx)
              | .watch r => .next (((s.count e.la.ctx 15 1).addRecord r).halt e.gk .debug cWATCH r.lane e.run.tag
                (some 0x400))
              | .hold b s' => .next (s'.block e b)
              | .stall => .next (s.stallRun e)

/-- A word that stays in its state. -/
def word (h : Hdr) (len : Nat) (regs reads : List (Nat × Nat)) (body : Env → State → Res) (s : State) :
    Outcome :=
  wordAt h len none regs reads (fun e s' => s'.retire e h len) body s

/-- A write leaves no error in the registers it writes. -/
def State.clearLatent (s : State) (ks : List Nat) : State :=
  { s with latent := { s.latent with
      regs := s.latent.regs.filter (fun k => !ks.contains k), regs1 := s.latent.regs1.filter fun k => !ks.contains k } }

/-- Commit the register writes of a word that writes in the pipeline, its window entry and its flags. -/
def State.commit (s : State) (e : Env) (k : Bool) (ws : List RegWrite) (flags : Nat) : State :=
  let s :=
    if k then s.clearLatent (ws.map fun w => latentReg e.gk (e.g.lane w.1).depth.toNat w.1 w.2.1) else s
  s.onGroup e.gk fun g =>
    let g := (ws.foldl (fun g w => g.writeReg k w) g).pushWindow (winEntry ws)
    { g with flags := g.flags ||| BitVec.ofNat 32 flags }

end Sys2Proof.Machine
end

