-- ==== Sys2Proof/Machine/Flags.lean ====
section
/-! DEFINITION. The group's mode and flags registers (R28, R29) and the rounding control of a word. -/

namespace Sys2Proof.Machine

open Sys2Proof

/-- The fates of a write to `sx.mode` (R28). -/
def modeFate (w : Word) : Word :=
  let x := w &&& 0xFFFFFF7F
  if 6 ≤ (w &&& 7).toNat then x &&& 0xFFFFFFF8 else x

/-- The fate of a write to `sx.flags` (R29). -/
def flagsFate (w : Word) : Word := w &&& 0x00003FFF

/-- The default rounding mode `sx.mode[2:0]`. -/
def modeRm (mode : Word) : Rm :=
  match (mode &&& 7).toNat with
  | 0 => .rne
  | 1 => .rtz
  | 2 => .rdn
  | 3 => .rup
  | 4 => .rna
  | 5 => .rst
  | _ => .rne

def modeFlush (mode : Word) : Bool := mode.toNat.testBit 3
def modeDaz (mode : Word) : Bool := mode.toNat.testBit 4
def modeSat (mode : Word) : Bool := mode.toNat.testBit 5
def modeProp (mode : Word) : Bool := mode.toNat.testBit 6

/-- A rounding field with 7 resolved (R22). -/
def resolveRm (mode : Word) (rm : Rm) : Rm :=
  match rm with
  | .dyn => modeRm mode
  | r => r

/-- A saturation field resolved (R45). -/
def resolveSat (mode : Word) (sat : Sat) : Bool :=
  match sat with
  | .off => false
  | .on => true
  | .mode => modeSat mode

/-- The rounding control of a word for a lane and sub-element (R22 to R26). -/
def Env.fenv (e : Env) (rm : Rm) (sat : Sat) (lane sub : Nat) (vd : Reg) : FEnv :=
  let mode := e.g.mode
  let xyz := gridOf e.la.record e.tm.t
  { rm := resolveRm mode rm, sat := resolveSat mode sat, flush := modeFlush mode, daz := modeDaz mode,
    prop := modeProp mode,
    draw := stochDraw mode e.g.gidx xyz.1 xyz.2.1 xyz.2.2 lane sub vd.toNat }

/-- `Flag` on a group (R7, R29). -/
def Group.raise (g : Group) (f : Nat) : Group := { g with flags := g.flags ||| BitVec.ofNat 32 f }

end Sys2Proof.Machine
end

