-- ==== Sys2Proof/Machine/Operands.lean ====
section
/-! DEFINITION. Operand forms: registers, pairs and literals in a format (R36, R38, R99), and the bodies
that act on each active lane separately (R98). -/

namespace Sys2Proof.Machine

open Sys2Proof

/-- The registers an operand occupies (R36). -/
def span (wide : Bool) (r : Reg) : Nat × Nat := (r.toNat, if wide then 2 else 1)

/-- The registers that source B occupies. -/
def srcSpan (wide : Bool) : Src → List (Nat × Nat)
  | .reg r => [span wide r]
  | .lit _ _ => []

/-- How many offsets a word with this source B occupies (R33). -/
def srcLen : Src → Nat
  | .reg _ => 1
  | .lit _ _ => 2

/-- One register of a lane as a number; `a` is the source's number. -/
def Env.reg1 (e : Env) (a lane : Nat) (r : Reg) : Nat := (e.reg a lane r.toNat).toNat

/-- A pair of registers as a 64-bit number. -/
def Env.pair (e : Env) (a lane : Nat) (r : Reg) : Nat :=
  (e.reg a lane r.toNat).toNat + 2 ^ 32 * (e.reg a lane (r.toNat + 1)).toNat

/-- A register operand in a format (R99). -/
def Env.val (e : Env) (a : Nat) (f : Fmt) (lane : Nat) (r : Reg) : Nat :=
  if f.wide then e.pair a lane r else e.reg1 a lane r % 2 ^ f.width

/-- The half of a literal that a selector names (R38). -/
def litVal (sel : BitVec 2) (v : Dword) : Nat :=
  match sel.toNat with
  | 0 => v.toNat % 2 ^ 32
  | 1 => v.toNat / 2 ^ 32
  | _ => v.toNat

/-- Source B in a format. -/
def Env.src (e : Env) (a : Nat) (f : Fmt) (lane : Nat) : Src → Nat
  | .reg r => e.val a f lane r
  | .lit sel v => litVal sel v % 2 ^ f.width

/-- Write a 64-bit value to a pair. -/
def putPair (lane : Nat) (vd : Reg) (x : Nat) : List RegWrite :=
  [(lane, vd.toNat, BitVec.ofNat 32 x), (lane, vd.toNat + 1, BitVec.ofNat 32 (x / 2 ^ 32))]

/-- Write one register. -/
def put1 (lane : Nat) (vd : Reg) (x : Nat) : List RegWrite := [(lane, vd.toNat, BitVec.ofNat 32 x)]

/-- A value of a format as its register contents: extended by signedness (R99). -/
def extend (f : Fmt) (x : Nat) : Nat :=
  if f.isSigned then wrapN 32 (sext f.width x) else x % 2 ^ f.width

/-- Write a value in a format (R99). -/
def putFmt (f : Fmt) (lane : Nat) (vd : Reg) (x : Nat) : List RegWrite :=
  if f.wide then putPair lane vd x else put1 lane vd (extend f x)

/-- What one lane of a word does: its writes and flags. -/
abbrev LaneFn := Env → Nat → List RegWrite × Nat

/-- The writes and flags of all active lanes; a flag is set once however many lanes raise it (R29). -/
def Env.eachLane (e : Env) (f : LaneFn) : List RegWrite × Nat :=
  (e.lanes.flatMap fun l => (f e l).1, e.lanes.foldl (fun a l => a ||| (f e l).2) 0)

/-- A body that acts on each lane separately: all reads, then all writes (R98). -/
def perLane (k : Bool) (f : LaneFn) (e : Env) (s : State) : Res :=
  let r := e.eachLane f
  .ok (s.commit e k r.1 r.2)

/-- A word of classes 0 to 2 in layout A: `wd`, `wa`, `wb`, `wc` say which operands are pairs, `na`, `nb`,
`nc` which are used. -/
def aWord (o : AOp) (wd : Bool) (a : Option Bool) (b : Option Bool) (c : Option Bool) (f : LaneFn) (s : State) :
    Outcome :=
  let reads :=
    (match a with
      | some w => [span w o.va]
      | none => [])
    ++ (match b with
      | some w => srcSpan w o.vb
      | none => [])
    ++ (match c with
      | some w => [span w o.vc]
      | none => [])
  word o.h (srcLen o.vb) (span wd o.vd :: reads) reads (perLane o.k f) s

end Sys2Proof.Machine
end

