-- ==== Sys2Proof/Machine/Cell.lean ====
section
/-! DEFINITION. The numbers of the matrix array: classes and tile shapes (R211 to R213) and the accumulation
rule (R214 to R217). -/

namespace Sys2Proof.Machine

open Sys2Proof

/-- The classes of R211. -/
inductive Cls where
  | h | e | f | i8 | i4 | d
  deriving DecidableEq, Repr

/-- The class that a format belongs to, as activation or weight; none where R211 lists it for no role. -/
def clsOf : Fmt → Option Cls
  | .f16 | .bf16 => some .h
  | .e4m3 | .e5m2 | .e3m2 | .e2m3 | .mxe4m3 | .mxe5m2 | .mxe3m2 | .mxe2m3 => some .e
  | .e2m1 | .mxe2m1 | .xf4 => some .f
  | .i8 => some .i8
  | .i4 => some .i4
  | .f64 => some .d
  | _ => none

def Cls.k : Cls → Nat
  | .h => 128
  | .e => 256
  | .f => 512
  | .i8 => 256
  | .i4 => 512
  | .d => 16

/-- The columns of a tile. -/
def Cls.n : Cls → Nat
  | .d => 32
  | _ => 128

/-- Accumulator columns that a row of results takes. -/
def Cls.cols : Cls → Nat
  | .d => 64
  | _ => 128

/-- The six-bit formats, which set `SUBST` (R211). -/
def isSixBit : Fmt → Bool
  | .e3m2 | .e2m3 | .mxe3m2 | .mxe2m3 => true
  | _ => false

/-- Bytes of the element array, the scale array and the extra array (R212). -/
def tileBytes (f : Fmt) : Nat × Nat × Nat :=
  match clsOf f with
  | none => (0, 0, 0)
  | some c =>
    let blocks := c.n * (c.k / 32)
    (c.n * c.k * f.width / 8, if f.isBlock then blocks else 0, if f == .xf4 then blocks else 0)

/-- Registers from `va` that a lane must have (R227). -/
def rowRegs (f : Fmt) : Nat := if f == .f64 then 32 else if f.isBlock then 68 else 64

/-- The registers from `va` that the array reads (R213): elements, then scales. -/
def rowReads (f : Fmt) : List Nat :=
  let elems := match clsOf f with
    | some c => c.k * f.width / 32
    | none => 0
  let scales := if !f.isBlock then [] else if clsOf f == some .f then natsFrom 64 4 else natsFrom 64 2
  natsFrom 0 elems ++ scales

/-- n codes of w bits packed from the first byte (R15, R18). -/
def codesOf (w n : Nat) (bytes : List Byte) : List Nat :=
  let x := ofLeBytes bytes
  (natsFrom 0 n).map fun i => bitsOf x (i * w + w - 1) (i * w)

/-- Codes of w bits as bytes; the bits past the last code are 0. -/
def packCodes (w : Nat) (codes : List Nat) : List Byte :=
  let x := (mapIdxFrom 0 (fun i c => c % 2 ^ w * 2 ^ (i * w)) codes).foldl (· + ·) 0
  leBytes x ((codes.length * w + 7) / 8)

/-- A row of operands of the array: its codes with the scale and extra byte of each block (R17, R20). -/
structure OpRow where
  codes : List Nat
  scales : List Nat
  extras : List Nat
  deriving DecidableEq, Repr

/-- The value of an element of a float class. -/
def OpRow.val (r : OpRow) (f : Fmt) (k : Nat) : FVal :=
  let c := r.codes.getD k 0
  if f.isBlock then blockVal f c (r.scales.getD (k / 32) 0) (r.extras.getD (k / 32) 0) else decodeF f c

/-- The operands that registers hold for one A row (R213); `regs` are the words of `rowReads`. -/
def rowOf (f : Fmt) (regs : List Word) : OpRow :=
  match clsOf f with
  | none => ⟨[], [], []⟩
  | some c =>
    let n := c.k * f.width / 32
    let bytes (ws : List Word) : List Byte := ws.flatMap fun w => leBytes w.toNat 4
    ⟨codesOf f.width c.k (bytes (regs.take n)), (bytes (regs.drop n)).map BitVec.toNat, []⟩

/-- The operands of one column of a weight tile (R212). -/
def columnOf (f : Fmt) (elems scales extras : List Byte) (n : Nat) : OpRow :=
  match clsOf f with
  | none => ⟨[], [], []⟩
  | some c =>
    let b := c.k * f.width / 8
    let m := c.k / 32
    ⟨codesOf f.width c.k ((elems.drop (n * b)).take b), ((scales.drop (n * m)).take m).map BitVec.toNat,
      ((extras.drop (n * m)).take m).map BitVec.toNat⟩

/-- An exact product of two values that are not NaN and not 0 × ∞. -/
def prodVal (a b : FVal) : FVal :=
  let s := a.sign != b.sign
  match a, b with
  | .fin _ m e, .fin _ m' e' => .fin s (m * m') (e + e')
  | _, _ => .inf s

/-- `Trunc(t, 2^q)`: the signed multiple of 2^q, and whether it equals t. -/
def truncAt (q : Int) : FVal → Int × Bool
  | .fin n m e =>
    if q ≤ e then (signed n (scaleTo m e q), true)
    else
      let d := (q - e).toNat
      (signed n (m / 2 ^ d), m % 2 ^ d == 0)
  | _ => (0, true)

/-- E of R215 over the nonzero finite terms. -/
def maxLog : List FVal → Option Int
  | [] => none
  | .fin _ m e :: rest =>
    if m == 0 then maxLog rest
    else
      match maxLog rest with
      | none => some (ilog m e)
      | some x => some (max x (ilog m e))
  | _ :: rest => maxLog rest

/-- The accumulation rule of the float classes (R215): the factors, the accumulator input, the output format
and the rounding control. -/
def accumulate (out : Fmt) (env : FEnv) (fs : List (FVal × FVal)) (c : Option Nat) : Nat × Nat :=
  let factors := fs.flatMap fun p => [p.1, p.2]
  let nanC := match c.map (decodeF out) with
    | some v => v.isNan
    | none => false
  if factors.any FVal.isNan then (canonicalNan out, fIf (factors.any FVal.isSnan) fINV)
  else if fs.any fun p => (p.1.isZero && p.2.isInf) || (p.1.isInf && p.2.isZero) then (canonicalNan out, fINV)
  else if nanC then
    (canonicalNan out, fIf (match c.map (decodeF out) with
      | some v => v.isSnan
      | none => false) fINV)
  else
    let cv : List FVal := (c.map (decodeF out)).toList
    let terms := fs.map (fun p => prodVal p.1 p.2) ++ cv
    let pos := terms.any fun t => t.isInf && !t.sign
    let neg := terms.any fun t => t.isInf && t.sign
    if pos && neg then (canonicalNan out, fINV)
    else if pos || neg then (infBits out neg, 0)
    else
      match maxLog terms with
      | none => (signBit out (terms.all FVal.sign), 0)
      | some top =>
        let q := top - (if out == .f64 then 115 else 47)
        let ts := terms.map (truncAt q)
        let sum : Int := (ts.map (·.1)).foldl (· + ·) 0
        let cut := ts.any fun t => !t.2
        let lost := cv.any fun v => !v.isZero && (truncAt q v).1 == 0
        let r := if sum == 0 then (signBit out (env.rm == .rdn), 0)
          else roundFin out env (decide (sum < 0)) sum.natAbs q false
        (r.1, r.2 ||| fIf cut fINX ||| fIf lost fACCLOST)

/-- The integer classes (R216). -/
def accumulateInt (w : Nat) (fs : List (Nat × Nat)) (c : Option Nat) : Nat × Nat :=
  let sum : Int := (fs.map fun p => sext w p.1 * sext w p.2).foldl (· + ·) 0 + ((c.map fun x => sext 32 x).getD 0)
  (wrapN 32 sum, fIf (decide (sum < -(2 ^ 31)) || decide (2 ^ 31 - 1 < sum)) fOVF)

/-- One result of an `mma`: row and column operands in their formats, the accumulator input. -/
def cellResult (cls : Cls) (af wf : Fmt) (env : FEnv) (a w : OpRow) (c : Option Nat) : Nat × Nat :=
  match cls with
  | .i8 => accumulateInt 8 (a.codes.zip w.codes) c
  | .i4 => accumulateInt 4 (a.codes.zip w.codes) c
  | _ =>
    accumulate (if cls == .d then .f64 else .f32) env ((natsFrom 0 cls.k).map fun k => (a.val af k, w.val wf k)) c

end Sys2Proof.Machine
end

