-- ==== Sys2Proof/Machine/Vote.lean ====
section
/-! DEFINITION. States, lookups, the vote, parting, peeling and the closing of a round (R69 to R81), and the
sizes of frames (R134). -/

namespace Sys2Proof.Machine

open Sys2Proof

/-! ## Lookup (R70, R71, R166) -/

inductive Look where
  | found (st : Nat)
  | absent
  | bad
  deriving DecidableEq, Repr

/-- A lookup names a state that exists and holds every block of the set. -/
def State.lookState (s : State) (m : Module) (set : List Nat) (st : Nat) : Look :=
  let slots := s.slotsOf m st
  if st < m.nStates && set.all slots.contains then .found st else .bad

/-- The singleton index entry of a block (R69, R167). -/
def State.singleton (s : State) (m : Module) (b : Nat) : Look :=
  let x := s.liveNum (m.singleton + 4 * b) 4
  if b < m.nBlocks && bitOf x 31 then s.lookState m [b] (bitsOf x 15 0) else .bad

/-- `Hash(S, h)` of R166 of an ascending set. -/
def hashSet (set : List Nat) (h : Nat) : Nat :=
  let x := set.foldl (fun x b => (x * 0x01000193 + b) % 2 ^ 32) set.length
  (x ^^^ (x / 2 ^ h)) % 2 ^ h

/-- The 96 key bits of an ascending set: 0xFFF above. -/
def keyBits (set : List Nat) : Nat :=
  (natsFrom 0 8).foldl (fun a i => a + set.getD i 0xFFF * 2 ^ (12 * i)) 0

/-- Probe from index i, at most `fuel` entries. -/
def State.probe (s : State) (m : Module) (set : List Nat) : Nat → Nat → Look
  | 0, _ => .bad
  | fuel + 1, i =>
    let x := s.liveNum (m.xtab + 16 * (i % 2 ^ m.h)) 16
    let n := bitsOf x 115 112
    if n == 0 then .absent
    else if n == set.length && bitsOf x 95 0 == keyBits set then s.lookState m set (bitsOf x 111 96)
    else State.probe s m set fuel (i + 1)

/-- `Lookup(S)` of a non-empty ascending set (R70). -/
def State.lookup (s : State) (m : Module) (set : List Nat) : Look :=
  match set with
  | [b] => s.singleton m b
  | _ => if 8 < set.length then .absent else s.probe m set (2 ^ m.h) (hashSet set m.h)

/-! ## Entering and voting -/

/-- The blocks of the live lanes of some slices, ascending. -/
def Group.blocks (g : Group) (slices : List Nat) : List Nat :=
  sortBy (fun a b => decide (a ≤ b)) (dedup
    (((lanesOf slices).filter fun l => (g.lane l).live).map fun l => (g.lane l).blk.toNat))

/-- `Enter(g, st)` of R73. The window is cleared where R85 says so, at the terminator, at a peel step's entry and when
another gang's run starts, and not by a round that patience closes (DESIGN CHOICE, log entry 56). -/
def Group.enter (g : Group) (slices : List Nat) (st : Nat) : Group :=
  let ls := lanesOf slices
  let g := { (g.onSlices slices.contains fun x => { x with sid := BitVec.ofNat 16 st, off := 0, loops := [] }) with
    entered := dedup (g.entered ++ slices) }
  g.onLanes fun i l => if ls.contains i && l.live && !l.park then { l with nxt := l.blk } else l

def Group.setStatus (g : Group) (slices : List Nat) (st : SliceStatus) : Group :=
  g.onSlices slices.contains fun x => { x with status := st }

/-- A vote's group with what counters 5 to 7 of R349 count: lookups, absent ones, peel steps. -/
structure VoteOut where
  g : Group
  lookups : Nat
  absent : Nat
  peels : Nat
  deriving DecidableEq, Repr

/-- `Flag(SETABSENT)` and the saturating absent-set counter (R63, R74). -/
def Group.noteAbsent (g : Group) : Group :=
  { g.raise fSETABSENT with absent := if g.absent == 0xFFFFFFFF then g.absent else g.absent + 1 }

/-- The first block from the cursor in cyclic order over 0x000 to 0xFFE (R76). -/
def cyclicFirst (cursor : Nat) (blocks : List Nat) : Nat :=
  match blocks.filter (fun b => decide (cursor ≤ b)) with
  | b :: _ => b
  | [] => blocks.headD 0

/-- `PeelStep(s)` of R76. -/
def State.peelStep (s : State) (m : Module) (o : VoteOut) (slice : Nat) : Option VoteOut :=
  let g := o.g
  let ls := (lanesOf [slice]).filter fun l => (g.lane l).live
  let fresh := ls.filter fun l => !(g.lane l).sweep
  let g := if fresh.isEmpty then
      g.onLanes fun i l => if ls.contains i then { l with sweep := false } else l
    else g
  let c := if fresh.isEmpty then ls else fresh
  let set := sortBy (fun a b => decide (a ≤ b)) (dedup (c.map fun l => (g.lane l).blk.toNat))
  let b := cyclicFirst (g.slice slice).cursor.toNat set
  let g := g.onLanes fun i l =>
    if ls.contains i then
      { l with park := l.blk.toNat != b, sweep := l.sweep || l.blk.toNat == b }
    else l
  let g := g.onSlices (· == slice) fun x =>
    { x with cursor := if b < 0xFFE then BitVec.ofNat 12 (b + 1) else 0 }
  match s.singleton m b with
  | .found st => some { o with g := { (g.raise fPEEL).enter [slice] st with window := [] }, peels := o.peels + 1 }
  | _ => none

/-- One slice of a parting (R74). -/
def State.part (s : State) (m : Module) (o : VoteOut) (slice : Nat) : Option VoteOut :=
  let g := o.g.onSlices (· == slice) fun x => { x with tag := BitVec.ofNat 4 slice }
  match g.blocks [slice] with
  | [] => some { o with g := g.setStatus [slice] .done }
  | set =>
    match s.lookup m set with
    | .bad => none
    | .found st =>
      some { o with g := (g.enter [slice] st).setStatus [slice] .lone, lookups := o.lookups + 1 }
    | .absent =>
      s.peelStep m { o with g := g.noteAbsent.setStatus [slice] .peel, lookups := o.lookups + 1,
                            absent := o.absent + 1 } slice

/-- The slices of a parting in ascending order. -/
def State.partAll (s : State) (m : Module) : List Nat → VoteOut → Option VoteOut
  | [], o => some o
  | i :: rest, o =>
    match s.part m o i with
    | none => none
    | some o' => State.partAll s m rest o'

/-- Leaving PEEL clears the sweep bits of some slices (R76). -/
def Group.leavePeel (g : Group) (slices : List Nat) : Group :=
  if slices.any fun i => (g.slice i).status == .peel then
    g.onLanes fun i l => if (lanesOf slices).contains i then { l with sweep := false } else l
  else g

/-- The vote of R74 from its lookup onward; none is `XTAB_BAD`. A PEEL slice that becomes DONE loses its sweep bits
too: so says R76, while R74 returns before it clears them (DESIGN CHOICE, log entry 56). -/
def State.settleVote (s : State) (m : Module) (g : Group) (slices : List Nat) : Option VoteOut :=
  match g.blocks slices with
  | [] => some ⟨(g.leavePeel slices).setStatus slices .done, 0, 0, 0⟩
  | set =>
    match s.lookup m set with
    | .bad => none
    | .found st =>
      let g := g.leavePeel slices
      some ⟨(g.enter slices st).setStatus slices (if slices.length ≤ 1 then .lone else .gang), 1, 0, 0⟩
    | .absent =>
      let o : VoteOut := ⟨g.noteAbsent, 1, 1, 0⟩
      match slices with
      | [i] => s.peelStep m { o with g := o.g.setStatus [i] .peel } i
      | _ => s.partAll m slices o

/-- The move of a vote: unparked live lanes take their `nxt`, and every lane of the gang is unparked. -/
def Group.move (g : Group) (slices : List Nat) : Group :=
  let ls := lanesOf slices
  g.onLanes fun i l =>
    if ls.contains i then
      { l with blk := if l.live && !l.park then l.nxt else l.blk, park := false }
    else l

/-- `Vote(g)` of R74. -/
def State.vote (s : State) (m : Module) (g : Group) (slices : List Nat) : Option VoteOut :=
  s.settleVote m (g.move slices) slices

/-! ## Rounds (R78 to R80) -/

def Group.awaiting (g : Group) : List Nat :=
  (natsFrom 0 g.slices.length).filter fun i => (g.slice i).status == .await

/-- Is an open round full? -/
def Group.roundFull (g : Group) : Bool :=
  !g.awaiting.isEmpty && g.slices.all fun x => x.status == .done || x.status == .await

/-- Close the open round (R80): one gang under the lowest number, then the vote from its lookup. -/
def State.closeRound (s : State) (m : Module) (o : VoteOut) : Option VoteOut :=
  let ws := o.g.awaiting
  let tag := ws.headD 0
  let g := o.g.onSlices ws.contains fun x => { x with tag := BitVec.ofNat 4 tag }
  match s.settleVote m g ws with
  | none => none
  | some o' => some ⟨o'.g, o.lookups + o'.lookups, o.absent + o'.absent, o.peels + o'.peels⟩

/-! ## Arrivals at barriers (R93, R202, R204) -/

def Barrier.fresh : Barrier := ⟨0, 0, 0⟩

def Team.barrier (tm : Team) (q : Nat) : Barrier := (tm.barriers.find q).getD Barrier.fresh

/-- Has a group arrived as far as its slices go (R204)? -/
def Group.slicesArrived (g : Group) (q : Nat) : Bool :=
  g.slices.any (fun x => x.armed.toNat.testBit q) &&
    g.slices.all fun x => x.status == .done || x.armed.toNat.testBit q

/-- Has a group arrived on q in this phase? -/
def Team.hasArrived (tm : Team) (gidx q : Nat) : Bool := (tm.barrier q).groups.toNat.testBit gidx

/-- `Settle` on one barrier (R204): when the slices have arrived, the point before which accesses must be performed is
kept. -/
def Group.noteArrival (g : Group) (tm : Team) (q : Nat) : Group :=
  if g.slicesArrived q && !tm.hasArrived g.gidx q && !g.arrivals.any (fun p => p.1 == q) then
    { g with arrivals := g.arrivals ++ [(q, g.issued)] }
  else g

/-- `Settle` on every barrier, where slices became DONE. -/
def Group.noteArrivals (g : Group) (tm : Team) : Group := (natsFrom 0 16).foldl (fun g q => g.noteArrival tm q) g

/-! ## Frame sizes (R133, R134) -/

/-- The demand of the role of a group at depth 0 (R169). -/
def roleDemand (tm : Team) (gidx : Nat) : Nat := if gidx < tm.p then tm.dp else tm.dc

/-- The demand of the function that a lane runs at depth d. -/
def State.demandAt (s : State) (m : Module) (tm : Team) (g : Group) (lane d : Nat) : Nat :=
  if d = 0 then roleDemand tm g.gidx
  else
    match g.frames.find d with
    | none => 0
    | some f =>
      match f.recs.find lane with
      | some r => (s.descr m r.fn.toNat).demand
      | none => 0

/-- Size(d) of R134, from the live lanes at d or deeper; 0 when there is none. -/
def State.sizeAt (s : State) (m : Module) (tm : Team) (g : Group) (d : Nat) : Nat :=
  ((natsFrom 0 g.lanes.length).filter fun l => (g.lane l).live && decide (d ≤ (g.lane l).depth.toNat)).foldl
    (fun a l => max a (s.demandAt m tm g l d)) 0

/-- A frame cut to n registers: lower granules keep their contents. -/
def Frame.shrink (f : Frame) (n : Nat) : Frame :=
  if f.size ≤ n then f
  else { f with seeds := f.seeds.take (n / 8), regs := f.regs.filter fun p => decide (p.1 % 256 < n) }

/-- Recompute every frame's size (R134): unneeded frames are released, others shrink. -/
def State.fitFrames (s : State) (m : Module) (tm : Team) (g : Group) : Group :=
  { g with frames := g.frames.filterMap fun p =>
      let n := s.sizeAt m tm g p.1
      if n == 0 then none else some (p.1, p.2.shrink n) }

/-- A queued request keeps asking for its spilled frames at their new sizes (R134). -/
def FrameReq.fit (r : FrameReq) (old new : Group) : FrameReq :=
  if r.served then r
  else
    { r with
      size := r.size - (r.refill.map fun d => (old.frameSize d - new.frameSize d) / 8).foldl (· + ·) 0,
      refill := r.refill.filter fun d => (new.frames.find d).isSome }

/-- A group's queued requests follow the sizes of its frames. -/
def State.fitRequests (s : State) (gk : Nat) (new : Group) : State :=
  match s.group gk with
  | none => s
  | some old => s.onTeam (gk / 16) fun tm =>
      { tm with requests := tm.requests.map fun r => if r.gk == gk then r.fit old new else r }

/-! ## Ending a gang's pass (R72) -/

/-- What every terminator clears of its gang: the window (R85) and the loops (R89). -/
def Group.endPass (g : Group) (slices : List Nat) : Group :=
  { (g.onSlices slices.contains fun x => { x with loops := [] }) with window := [] }

/-- The group takes what a vote has made of it: frames are resized and its requests with them, counters 5 to 7 count, and
slices that became DONE count as arrived on barriers. -/
def State.install (s : State) (gk : Nat) (tm : Team) (la : Launch) (m : Module) (o : VoteOut) : State :=
  let g := (s.fitFrames m tm o.g).noteArrivals tm
  ((((s.fitRequests gk g).setGroup gk g).count la.ctx 5 o.lookups).count la.ctx 6 o.absent).count la.ctx 7 o.peels

/-- The merged gang of a closing round, before its vote. -/
def VoteOut.merged (o : VoteOut) : VoteOut :=
  { o with g := o.g.onSlices o.g.awaiting.contains fun x => { x with tag := BitVec.ofNat 4 (o.g.awaiting.headD 0) } }

/-- A vote's group, in which the open round closes now when `now` says so. A lookup of the round that raises `XTAB_BAD`
stops the group for the merged gang, whose slices keep the positions and blocks that their `regang` words left; a word
of another gang that made the round full stays committed (R71, R97; DESIGN CHOICE, log entry 57). -/
def State.installRound (s : State) (gk : Nat) (tm : Team) (la : Launch) (m : Module) (o : VoteOut) (now : Bool) : State :=
  if now then
    match s.closeRound m o with
    | some o' => s.install gk tm la m o'
    | none => (s.install gk tm la m o.merged).takeFault gk (o.g.awaiting.headD 0) (wfault cXTABBAD 0)
  else s.install gk tm la m o

/-- The vote of a terminator, from the group its per-lane effect has made; a round that it makes full closes at once
(R80). -/
def State.terminate (s : State) (e : Env) (g : Group) : Res :=
  match s.vote e.md (g.endPass e.slices) e.slices with
  | none => .bad (wfault cXTABBAD 0)
  | some o => .ok (s.installRound e.gk e.tm e.la e.md o o.g.roundFull)

/-- The end of a word that ends its run: a terminator after its vote (R126). -/
def State.endPass (s : State) (e : Env) : State :=
  ((s.issued e).onGroup e.gk fun g => { g with blockedAt := s.seq }).runOn e true 1

/-- A terminator word. -/
def termWord (h : Hdr) (regs reads : List (Nat × Nat)) (body : Env → State → Res) (s : State) : Outcome :=
  wordAt h 1 none regs reads (fun e s' => s'.endPass e) body s

end Sys2Proof.Machine
end

