-- ==== Sys2Proof/Machine/Sequence.lean ====
section
/-! DEFINITION. Branches, terminators without calls, loops and `yield` (R127 to R131, R87, R88), `nop`. -/

namespace Sys2Proof.Machine

open Sys2Proof

/-- A change of the group by a word that writes no register: the word still counts in the window (R83). -/
def State.noWrite (s : State) (e : Env) (f : Group → Group) : State :=
  s.onGroup e.gk fun g => (f g).pushWindow (winEntry [])

/-- Set `nxt` of the active lanes. -/
def Group.setNxt (g : Group) (lanes : List Nat) (f : Nat → BitVec 12) : Group :=
  g.onLanes fun i l => if lanes.contains i then { l with nxt := f i } else l

def execNop (h : Hdr) (lit : Option Dword) (s : State) : Outcome :=
  word h (if lit.isSome then 2 else 1) [] [] (fun e s => .ok (s.noWrite e id)) s

def execBr (h : Hdr) (blka : BitVec 12) (s : State) : Outcome :=
  word h 1 [] [] (fun e s => .ok (s.noWrite e fun g => g.setNxt e.lanes fun _ => blka)) s

def execBrc (h : Hdr) (va : Reg) (blka blkb : BitVec 12) (s : State) : Outcome :=
  word h 1 [span false va] [span false va] (fun e s =>
    .ok (s.noWrite e fun g => g.setNxt e.lanes fun l => if e.reg1 0 l va != 0 then blka else blkb)) s

/-- The block id of a `brx` lane: source A [11:0]. -/
def brxTarget (e : Env) (va : Reg) (l : Nat) : BitVec 12 := BitVec.ofNat 12 (e.reg1 0 l va)

/-- A block id outside the module raises `XTAB_BAD` for the lowest such lane. -/
def execBrx (h : Hdr) (va : Reg) (s : State) : Outcome :=
  word h 1 [span false va] [span false va] (fun e s =>
    match e.lanes.find? fun l =>
        brxTarget e va l != deadBlk && decide (e.md.nBlocks ≤ (brxTarget e va l).toNat) with
    | some l => .bad (wfault cXTABBAD l)
    | none => .ok (s.noWrite e fun g => g.setNxt e.lanes (brxTarget e va))) s

def execVote (h : Hdr) (s : State) : Outcome :=
  termWord h [] [] (fun e s => s.terminate e e.g) s

def execExit (h : Hdr) (s : State) : Outcome :=
  termWord h [] [] (fun e s => s.terminate e (e.g.setNxt e.lanes fun _ => deadBlk)) s

/-- The kernel header's patience (R169). -/
def Launch.patience (l : Launch) : Nat := field l.kernel 0x0E 2

/-- A gang joins a round (R78): its lanes move, it waits; the first one opens the round with the header's
patience, a later one takes what is left of it. -/
def Group.await (g : Group) (slices : List Nat) (patience : Nat) : Group :=
  let left :=
    match g.awaiting with
    | [] => BitVec.ofNat 16 patience
    | i :: _ => (g.slice i).patience
  (g.move slices).onSlices slices.contains fun x => { x with status := .await, patience := left, loops := [] }

def execRegang (h : Hdr) (s : State) : Outcome :=
  termWord h [] [] (fun e s =>
    if e.slices.any fun i => (e.g.slice i).status == .peel then s.terminate e e.g
    else
      let g := { e.g.await e.slices e.la.patience with window := [] }
      let o : VoteOut := ⟨g, 0, 0, 0⟩
      let now := g.roundFull || (g.slice (e.slices.headD 0)).patience == 0
      if now && g.awaiting == e.slices && (s.closeRound e.md o).isNone then .bad (wfault cXTABBAD 0)
      else .ok (s.installRound e.gk e.tm e.la e.md o now)) s

/-! ## Loops (R87, R88) -/

/-- The exit offset of a loop end: past a literal where the word at it is a literal form. -/
def State.exitOffset (s : State) (e : Env) (tend : Nat) : Nat :=
  if bitsOf (s.codeWord e.md e.st tend).toNat 62 61 == 2 then tend + 2 else tend + 1

/-! ### The loop buffer (R190) -/

/-- The words that a core's loop buffer has room for (R179). -/
def loopBufWords : Nat := 256

def LoopBody.length (b : LoopBody) : Nat := b.last + 1 - b.first

/-- The bodies of a core's loop buffer. -/
def State.bodies (s : State) (core : Nat) : List LoopBody := (s.loopBuf.find core).getD []

def State.setBodies (s : State) (core : Nat) (bs : List LoopBody) : State :=
  { s with loopBuf := if bs.isEmpty then s.loopBuf.del core else s.loopBuf.put core bs }

/-- Does a body hold a place for a word? -/
def LoopBody.covers (b : LoopBody) (module st off : Nat) : Bool :=
  b.module == module && b.st == st && b.first ≤ off && off ≤ b.last

/-- Displace the bodies least recently issued from until `n` words are free. -/
def makeRoom (n : Nat) : Nat → List LoopBody → List LoopBody
  | 0, bs => bs
  | fuel + 1, bs =>
    if n + (bs.map LoopBody.length).foldl (· + ·) 0 ≤ loopBufWords then bs
    else
      match bs with
      | [] => []
      | b :: rest => makeRoom n fuel (bs.erase (rest.foldl (fun x y => if y.used < x.used then y else x) b))

/-- A loop of at most 256 words starts its first iteration: its body takes a place in the buffer, unless one of the
same module, state and offsets stands there. -/
def State.openBody (s : State) (core module st first last : Nat) : State :=
  let bs := s.bodies core
  if loopBufWords < last + 1 - first || bs.any (fun b => b.module == module && b.st == st && b.first == first && b.last == last) then s
  else s.setBodies core (makeRoom (last + 1 - first) bs.length bs ++ [⟨module, st, first, last, [], s.seq⟩])

/-- The word that the buffer holds for an offset. -/
def State.bufferedWord (s : State) (core module st off : Nat) : Option Dword :=
  (s.bodies core).findSome? fun b => if b.covers module st off then b.words.find off else none

/-- A word was fetched: bodies that cover it keep it, and were issued from now. -/
def State.captureWord (s : State) (core module st off : Nat) (w : Dword) : State :=
  if (s.bodies core).any fun b => b.covers module st off then
    s.setBodies core ((s.bodies core).map fun b =>
      if b.covers module st off then { b with words := b.words.put off w, used := s.seq } else b)
  else s

/-- The bodies of a module leave the buffers of all cores. -/
def State.dropBodies (s : State) (module : Nat) : State :=
  { s with loopBuf := s.loopBuf.filterMap fun p =>
      match p.2.filter fun b => b.module != module with
      | [] => none
      | bs => some (p.1, bs) }

/-! ### The word -/

/-- Push a loop on every slice of the gang and go on behind the `loop` word. -/
def Group.pushLoop (g : Group) (slices : List Nat) (n : Word) (off tend : Nat) : Group :=
  g.onSlices slices.contains fun x =>
    { x with loops := x.loops ++ [⟨n, BitVec.ofNat 16 (off + 1), BitVec.ofNat 16 tend⟩],
             off := BitVec.ofNat 16 (off + 1) }

/-- The count of a `loop`: source A of the lowest active lane, 0 when there is none. -/
def loopN (e : Env) (va : Reg) : Nat := (e.lanes.map fun l => e.reg1 0 l va).headD 0

/-- The end of a `loop` word; an exit offset beyond 0xFFFF raises `FETCH_RANGE` (R42; log entry 21). -/
def loopFin (h : Hdr) (va : Reg) (tend : BitVec 16) (e : Env) (s : State) : State :=
  if loopN e va == 0 && decide (0xFFFF < s.exitOffset e tend.toNat) then (s.issued e).pastFault e
  else (s.issued e).runOn e h.b 1

/-- `loop`: the checks of the gang come before its lanes' reads. -/
def execLoop (h : Hdr) (va : Reg) (tend : BitVec 16) (s : State) : Outcome :=
  wordAt h 1 none [span false va] [] (loopFin h va tend) (fun e s =>
    let loops := (e.g.slice (e.slices.headD 0)).loops
    let bad :=
      3 ≤ loops.length || tend.toNat ≤ e.off || s.stateLen e.md e.st ≤ tend.toNat ||
      (match loops.getLast? with
       | some x => decide (x.stop.toNat < tend.toNat)
       | none => false)
    if bad then .bad (wfault cFETCHRANGE 0)
    else
      match e.badEcc s.latent [span false va] with
      | some l => .bad (wfault cECCFATAL l)
      | none =>
        let s := s.correctReads e [span false va]
        let n := loopN e va
        let flag := fIf (e.lanes.any fun l => e.reg1 0 l va != n) fNONUNIF
        if n == 0 then
          .ok (s.noWrite e fun g => (g.raise flag).onSlices e.slices.contains fun x =>
            { x with off := BitVec.ofNat 16 (s.exitOffset e tend.toNat) })
        else
          .ok ((s.openBody e.core e.la.module e.st (e.off + 1) (s.exitOffset e tend.toNat - 1)).noWrite e fun g =>
            (g.raise flag).pushLoop e.slices (BitVec.ofNat 32 n) e.off tend.toNat)) s

/-- `yield` ends the run after its word (R130). -/
def execYield (h : Hdr) (s : State) : Outcome :=
  wordAt h 1 none [] [] (fun e s' => s'.retire e ⟨true, h.m⟩ 1) (fun e s => .ok (s.noWrite e id)) s

end Sys2Proof.Machine
end

