-- ==== Sys2Proof/Machine/Call.lean ====
section
/-! DEFINITION. Calls, returns, unwinding and traps (R132 to R141), frame requests and the spill engine
(R191 to R201). -/

namespace Sys2Proof.Machine

open Sys2Proof

/-! ## Granules of a team (R191) -/

/-- The keys of a team's groups. -/
def State.teamGroups (s : State) (t : Nat) : List Nat :=
  (s.groups.filter fun p => p.2.team == t).map (·.1)

def Frame.inPool (f : Frame) : Bool := f.place == .pool

/-- Granules that a group's resident frames hold; a saved group holds none (R338). -/
def Group.held (g : Group) : Nat :=
  if g.saved then 0
  else ((g.frames.filter fun p => p.2.inPool).map fun p => p.2.seeds.length).foldl (· + ·) 0

/-- Granules set aside for served requests. -/
def Team.reserved (tm : Team) : Nat :=
  ((tm.requests.filter (·.served)).map (·.size)).foldl (· + ·) 0

/-- Free granules of a team. -/
def State.freeGranules (s : State) (t : Nat) : Nat :=
  match s.teams.find t with
  | none => 0
  | some tm =>
    tm.quota - ((s.teamGroups t).map fun k => ((s.group k).map Group.held).getD 0).foldl (· + ·) 0 - tm.reserved

/-- The queue: requests not yet served, oldest first. -/
def Team.queue (tm : Team) : List FrameReq := tm.requests.filter fun r => !r.served

/-- Put a request into the list by age, behind those of its age. -/
def Team.addRequest (tm : Team) (r : FrameReq) : Team :=
  { tm with requests := (tm.requests.filter fun x => decide (x.age ≤ r.age)) ++ r ::
      tm.requests.filter fun x => decide (r.age < x.age) }

/-- A gang's requests leave the list. -/
def Team.dropRequests (tm : Team) (gk tag : Nat) : Team :=
  { tm with requests := tm.requests.filter fun r => !(r.gk == gk && r.tag == tag && !r.restore) }

/-- The seed of granule i of a frame made now (log entry 4). -/
def freshSeed (free gk depth i : Nat) : Nat := ((free * 2 ^ 64 + gk) * 256 + depth) * 32 + i

/-- A frame grown to n registers, or made with n: fresh granules hold undefined values (R134). -/
def Frame.grow (f : Frame) (free gk depth n stamp : Nat) : Frame :=
  let k := f.seeds.length
  { f with seeds := f.seeds ++ (natsFrom k (n / 8 - k)).map (freshSeed free gk depth),
           stamp := if f.size < n then stamp else f.stamp }

def Frame.empty : Frame := ⟨[], [], [], [], 0, .pool⟩

/-- Grow the frames to the sizes asked for: (depth, registers). -/
def Group.growAll (g : Group) (free gk stamp : Nat) (needs : List (Nat × Nat)) : Group :=
  needs.foldl (fun g p =>
    let f := ((g.frames.find p.1).getD Frame.empty).grow free gk p.1 p.2 stamp
    { g with frames := g.frames.put p.1 f }) g

/-- How a word's need for granules stands: it may go on, or it has joined the queue. -/
inductive Need where
  | go (s : State)
  | wait (s : State)
  deriving DecidableEq, Repr

/-- Ask for `size` granules and the refill of some depths, for a word that uses the frames at `uses`
(R192). -/
def State.demandFrames (s : State) (e : Env) (size : Nat) (refill uses : List Nat) : Need :=
  let tag := e.run.tag
  let mine := e.tm.requests.find? fun r => r.gk == e.gk && r.tag == tag && r.served && !r.restore
  let s0 := s.onTeam e.g.team fun tm => tm.dropRequests e.gk tag
  if size == 0 && refill.isEmpty then .go s0
  else
    let tm := (s0.teams.find e.g.team).getD e.tm
    let covered :=
      match mine with
      | some r => size ≤ r.size
      | none => false
    if refill.isEmpty && (covered || (tm.queue.isEmpty && size ≤ s0.freeGranules e.g.team)) then .go s0
    else
      let age := (e.g.reqAge.find tag).getD s.seq
      let r : FrameReq := ⟨e.gk, tag, age, size, false, false, refill, uses.map fun d => e.gk * 256 + d⟩
      let s := (s0.onTeam e.g.team fun tm => tm.addRequest r).onGroup e.gk fun g => { g with reqAge := g.reqAge.put tag age }
      .wait (if (e.g.reqAge.find tag).isSome then s else s.count e.la.ctx 8 1)

/-- Is the frame at a depth spilled? -/
def Group.isSpilled (g : Group) (d : Nat) : Bool :=
  match g.frames.find d with
  | some f => !f.inPool
  | none => false

/-- The depths at which some lanes stand. -/
def Group.depthsOf (g : Group) (lanes : List Nat) : List Nat :=
  dedup (lanes.map fun l => (g.lane l).depth.toNat)

/-! ## call, calli, trap (R136, R140) -/

/-- Put values into a frame's registers at a depth, from v`base` up. -/
def Group.putRegs (g : Group) (depth lane base : Nat) (vs : List Word) : Group :=
  let ws := mapIdxFrom base (fun r v => (r, v)) vs
  ws.foldl (fun g w =>
    let key := regKey depth lane w.1
    let g := (g.bankPut depth lane w.1 w.2).supersede key
    { g with dirty := key :: g.dirty.filter (· != key), windowOnly := g.windowOnly.filter (· != key) }) g

/-- Store a return record (R133). -/
def Group.putRec (g : Group) (depth lane : Nat) (r : RetRec) : Group :=
  { g with frames := g.frames.update depth fun f => { f with recs := f.recs.put lane r } }

/-- One lane's entry into a function: its arguments, record, depth and `nxt`. -/
def Group.enterFn (g : Group) (lane fn : Nat) (d : Descr) (args : List Word) : Group :=
  let x := g.lane lane
  let depth := x.depth.toNat
  let g := (g.putRegs (depth + 1) lane 0 args).putRec (depth + 1) lane ⟨x.nxt, BitVec.ofNat 16 fn⟩
  g.onLanes fun i l =>
    if i == lane then { l with depth := l.depth + 1, nxt := BitVec.ofNat 12 d.entry } else l

/-- The call of R136 from its checks on: `f` names each lane's descriptor, read from `src`, `args` gives what it passes
and `argRange` checks the caller's argument registers. A register read with an error faults for its lane among them
(R8, R208). -/
def callBody (f : Env → Nat → Nat) (src : List (Nat × Nat)) (argRange : Bool) (args : Env → Nat → Descr → List Word)
    (e : Env) (s : State) : Res :=
  let d (l : Nat) : Descr := s.descr e.md (f e l)
  let depth (l : Nat) : Nat := (e.g.lane l).depth.toNat
  let passes (l : Nat) : List (Nat × Nat) := if argRange then [((d l).argbase, (d l).nargs)] else []
  let fault (l : Nat) : Option Nat :=
    if e.laneEcc s.latent src l then some cECCFATAL
    else if e.md.nDescrs ≤ f e l then some cILLFIELD
    else if depth l == 255 then some cCALLDEPTH
    else if argRange && e.g.frameSize (depth l) < (d l).argbase + (d l).nargs then some cFRAMERANGE
    else if e.laneEcc s.latent (passes l) l then some cECCFATAL
    else none
  match e.lanes.find? fun l => (fault l).isSome with
  | some l => .bad (wfault ((fault l).getD 0) l)
  | none =>
    let depths := e.g.depthsOf e.lanes
    let needs := depths.map fun k =>
      (k + 1, (e.lanes.filter fun l => depth l == k).foldl (fun a l => max a (d l).demand)
        (e.g.frameSize (k + 1)))
    let size := (needs.map fun p =>
      p.2 / 8 - (if e.g.isSpilled p.1 then 0 else e.g.frameSize p.1 / 8)).foldl (· + ·) 0
    let refill := (needs.map (·.1)).filter e.g.isSpilled
    match s.demandFrames e size refill (depths ++ depths.map (· + 1)) with
    | .wait s' => .hold .frame s'
    | .go s' =>
      match s'.group e.gk with
      | none => .stall
      | some g0 =>
        let passed := e.lanes.map fun l => (l, f e l, d l, args e l (d l))
        let g := g0.growAll s.free e.gk s.seq needs
        let g := passed.foldl (fun g p => g.enterFn p.1 p.2.1 p.2.2.1 p.2.2.2) g
        let new := e.lanes.flatMap fun l => (natsFrom 0 (args e l (d l)).length).map (latentReg e.gk (depth l + 1) l)
        ((s'.correctRegs e.core (e.lanes.flatMap fun l => e.bankNames l (src ++ passes l))).clearLatent new).terminate e g

/-- The arguments that a call copies: caller registers argbase up, read per R83. -/
def callArgs (e : Env) (l : Nat) (d : Descr) : List Word :=
  (natsFrom d.argbase d.nargs).map fun r => e.reg 1 l r

def execCall (h : Hdr) (fidx : BitVec 16) (s : State) : Outcome :=
  termWord h [] [] (callBody (fun _ _ => fidx.toNat) [] true callArgs) s

def execCalli (h : Hdr) (va : Reg) (s : State) : Outcome :=
  termWord h [span false va] [] (callBody (fun e l => e.reg1 0 l va) [span false va] true callArgs) s

/-- What a trapping lane receives: the immediate, its block and its depth (R140). -/
def trapArgs (imm : BitVec 8) (e : Env) (l : Nat) (_ : Descr) : List Word :=
  [imm.setWidth 32, (e.g.lane l).blk.setWidth 32, (e.g.lane l).depth.setWidth 32]

/-- `trap` (R140). With no active lane it has no effect, and its `b` ends the run as R41 says for every word, though R242
says that `b` of a `trap` changes nothing (DESIGN CHOICE, log entry 67). -/
def execTrap (h : Hdr) (imm : BitVec 8) (s : State) : Outcome :=
  wordAt h 1 none [] [] (fun e s' => if e.lanes.isEmpty then s'.retire e h 1 else s'.endPass e) (fun e s =>
    if e.lanes.isEmpty then .ok (s.noWrite e id)
    else if e.md.trap == 0xFFFF then .bad { (wfault cTRAP (e.lanes.headD 0)) with imm := imm.toNat }
    else callBody (fun _ _ => e.md.trap) [] false (trapArgs imm) e s) s

/-! ## ret, unwind (R138, R139) -/

/-- The return record of a lane at its depth. -/
def Group.recOf (g : Group) (l : Nat) : RetRec :=
  match g.frames.find (g.lane l).depth.toNat with
  | some f => (f.recs.find l).getD ⟨deadBlk, 0⟩
  | none => ⟨deadBlk, 0⟩

/-- The refill that a word needs of frames at some depths: their granules and depths. -/
def refillOf (g : Group) (depths : List Nat) : Nat × List Nat :=
  let ds := depths.filter g.isSpilled
  ((ds.map fun d => g.frameSize d / 8).foldl (· + ·) 0, ds)

def execRet (h : Hdr) (s : State) : Outcome :=
  termWord h [] [] (fun e s =>
    let ls := e.lanes.filter fun l => (e.g.lane l).depth != 0
    let d (l : Nat) : Descr := s.descr e.md (e.g.recOf l).fn.toNat
    let depth (l : Nat) : Nat := (e.g.lane l).depth.toNat
    let results (l : Nat) : List (Nat × Nat) := [(0, (d l).nres)]
    let fault (l : Nat) : Option Nat :=
      if e.g.frameSize (depth l - 1) < (d l).argbase + (d l).nres then some cFRAMERANGE
      else if e.laneEcc s.latent (results l) l then some cECCFATAL
      else none
    match ls.find? fun l => (fault l).isSome with
    | some l => .bad (wfault ((fault l).getD 0) l)
    | none =>
      let depths := e.g.depthsOf ls
      let r := refillOf e.g (depths.map (· - 1))
      match s.demandFrames e r.1 r.2 (depths ++ depths.map (· - 1)) with
      | .wait s' => .hold .frame s'
      | .go s' =>
        match s'.group e.gk with
        | none => .stall
        | some g0 =>
          let copied := ls.map fun l => (l, d l, e.g.recOf l, (natsFrom 0 (d l).nres).map fun r => e.reg 0 l r)
          let g := copied.foldl (fun g p =>
            let g := g.putRegs (depth p.1 - 1) p.1 p.2.1.argbase p.2.2.2
            g.onLanes fun i l =>
              if i == p.1 then { l with depth := l.depth - 1, nxt := p.2.2.1.block } else l) g0
          let g := g.setNxt (e.lanes.filter fun l => (e.g.lane l).depth == 0) fun _ => deadBlk
          let new := ls.flatMap fun l => (natsFrom (d l).argbase (d l).nres).map (latentReg e.gk (depth l - 1) l)
          ((s'.correctRegs e.core (ls.flatMap fun l => e.bankNames l (results l))).clearLatent new).terminate e g) s

/-- `unwind`: a lane's target depth is read before it is checked (R8, R208). -/
def execUnwind (h : Hdr) (va : Reg) (blka : BitVec 12) (s : State) : Outcome :=
  termWord h [span false va] [] (fun e s =>
    let t (l : Nat) : Nat := e.reg1 0 l va
    let fault (l : Nat) : Option Nat :=
      if e.laneEcc s.latent [span false va] l then some cECCFATAL
      else if (e.g.lane l).depth.toNat < t l then some cCALLDEPTH
      else none
    match e.lanes.find? fun l => (fault l).isSome with
    | some l => .bad (wfault ((fault l).getD 0) l)
    | none =>
      let depths := dedup (e.lanes.map t)
      let r := refillOf e.g depths
      match s.demandFrames e r.1 r.2 depths with
      | .wait s' => .hold .frame s'
      | .go s' =>
        match s'.group e.gk with
        | none => .stall
        | some g0 =>
          (s'.correctReads e [span false va]).terminate e (g0.onLanes fun i l =>
            if e.lanes.contains i then { l with depth := BitVec.ofNat 8 (t i), nxt := blka } else l)) s

end Sys2Proof.Machine
end

