-- ==== Sys2Proof/Machine/Issue.lean ====
section
/-! DEFINITION. Ready groups, arbitration and the closing of rounds by patience (R67, R80, R185 to R189). -/

namespace Sys2Proof.Machine

open Sys2Proof

/-- Are the limits of a `wait` met (R155)? -/
def Group.limitsMet (g : Group) (ld st eng tile : Nat) : Bool :=
  g.loads ≤ ld && g.stores ≤ st && g.engine ≤ eng && g.tile ≤ tile

/-- Is a slice of the gang armed on a barrier (R205)? -/
def Group.armedOn (g : Group) (slices : List Nat) (bar : Nat) : Bool :=
  slices.any fun i => (g.slice i).armed.toNat.testBit bar

/-- The entries of a team under one mask that have not started (R219). -/
def State.openEntries (s : State) (team mask : Nat) : List Nat :=
  (s.entries.filter fun p => p.2.team == team && p.2.mask.toNat == mask).map (·.1)

/-- Has the group joined the entry? -/
def Entry.joined (n : Entry) (gidx : Nat) : Bool := n.arrivals.any fun a => a.gidx == gidx

/-- The entry that a group's arrival joins. -/
def State.joinable (s : State) (team : Nat) (crew : BitVec 16) (gidx : Nat) : Option (Nat × Entry) :=
  if crew == 0 then none
  else s.entries.find? fun p => p.2.team == team && p.2.mask == crew && !p.2.complete && !p.2.joined gidx

/-- Does what a gang blocked on still hold it (R189, R219)? -/
def State.blockHolds (s : State) (g : Group) (tag : Nat) : Block → Bool
  | .wait ld st eng tile => !g.limitsMet ld st eng tile
  | .bwait bar => g.armedOn (g.gang tag) bar
  | .frame => true
  | .crew mask => 2 ≤ (s.openEntries g.team mask.toNat).length && (s.joinable g.team mask g.gidx).isNone

/-- Is a gang AWAIT or blocked (R67)? -/
def State.gangBlocked (s : State) (g : Group) (tag : Nat) : Bool :=
  (g.gang tag).any (fun i => (g.slice i).status == .await) ||
  (match g.blocked.find tag with
   | some b => s.blockHolds g tag b
   | none => false)

/-- The ready gangs of a group, by tag. -/
def State.readyGangs (s : State) (g : Group) : List Nat := g.tags.filter fun t => !s.gangBlocked g t

/-- The gangs that may start a run: the ready ones, or only the gang that is stepped (R345), while it exists. -/
def State.turnGangs (s : State) (g : Group) : List Nat :=
  match g.step with
  | some t => if (g.gang t).isEmpty then s.readyGangs g else (s.readyGangs g).filter (· == t)
  | none => s.readyGangs g

/-- Does a group hold a run? -/
def State.holdsRun (s : State) (gk : Nat) : Bool := s.runs.any fun r => r.2.gk == gk

/-- R186; a group whose pre-emption is latched starts no new run (R328). -/
def State.ready (s : State) (gk : Nat) (g : Group) : Bool :=
  !g.stopped && !s.isLatched g.team && !s.holdsRun gk && !(s.turnGangs g).isEmpty

/-- A group every gang of which is blocked (R94). -/
def State.groupBlocked (s : State) (gk : Nat) (g : Group) : Bool :=
  !s.holdsRun gk && (s.readyGangs g).isEmpty

/-- The keys of the groups resident on a core. -/
def State.coreGroups (s : State) (core : Nat) : List Nat :=
  (s.groups.filter fun p => p.2.resident &&
    (match s.teams.find p.2.team with
     | some tm => tm.core == core
     | none => false)).map (·.1)

/-- The priority level of a launch record (R318). -/
def recPriority (r : List Byte) : Nat := field r 0x41 1 % 4

/-- The priority of a group's launch. -/
def State.priorityOf (s : State) (g : Group) : Nat :=
  match s.teams.find g.team with
  | none => 3
  | some tm => ((s.launches.find tm.launch).map fun l => recPriority l.record).getD 3

/-- The order of R187: a smaller key is taken first. -/
def arbKey (s : State) (g : Group) : Nat :=
  let aged := 32 ≤ g.pass.toNat
  let p := 255 - g.pass.toNat
  if aged then p * 64 + g.slot
  else 2 ^ 20 + (s.priorityOf g * 256 + p) * 64 + g.slot

/-- The gang whose turn it is (R67). -/
def nextTag (last : Nat) (ready : List Nat) : Nat :=
  match ready.filter (fun t => decide (last < t)) with
  | t :: _ => t
  | [] => ready.headD 0

/-- The ready groups of a core. -/
def State.candidates (s : State) (core : Nat) : List (Nat × Group) :=
  (s.coreGroups core).filterMap fun k =>
    match s.group k with
    | some g => if s.ready k g then some (k, g) else none
    | none => none

/-- A group starts a run of a gang (R186): the other ready groups of the core are passed. -/
def State.startRun (s : State) (core slot gk tag : Nat) : State :=
  let passed := ((s.candidates core).map (·.1)).filter (· != gk)
  let s := passed.foldl (fun s k => s.onGroup k fun g =>
    { g with pass := if g.pass == 255 then 255 else g.pass + 1 }) s
  let s := s.onGroup gk fun g =>
    { g with pass := 0, lastRun := s.seq, blocked := g.blocked.del tag, lastTag := tag,
             window := if g.lastTag == tag then g.window else [] }
  { s with runs := s.runs.put (unitKey core slot) ⟨gk, tag, 0, false⟩ }

/-- ISSUE_SLOT_ARBITRATION: a free issue slot takes a ready group and one of its gangs. When both slots are
free, slot 0 chooses first. -/
def execIssueSlotArbitration (core slot : Nat) (s : State) : Outcome :=
  let free (k : Nat) : Bool := (s.runs.find (unitKey core k)).isNone
  if 2 ≤ slot || !free slot || (slot == 1 && free 0) then .next s
  else
    match sortBy (fun a b => decide (arbKey s a.2 ≤ arbKey s b.2)) (s.candidates core) with
    | [] => .next s
    | (gk, g) :: _ => .next (s.startRun core slot gk (nextTag g.lastTag (s.turnGangs g)))

/-- The module and context of a group. -/
def State.moduleOf (s : State) (g : Group) : Option (Team × Launch × Module) :=
  match s.teams.find g.team with
  | none => none
  | some tm =>
    match s.launches.find tm.launch with
    | none => none
    | some la => (s.modules.find la.module).map fun m => (tm, la, m)

/-- May a gang issue in this cycle: by the run that it holds, unless that stalls, or by one that it starts? -/
def State.mayIssue (s : State) (gk : Nat) (g : Group) (tag : Nat) : Bool :=
  (s.runs.any fun r => r.2.gk == gk && r.2.tag == tag && !r.2.stalled) || (s.ready gk g && (s.turnGangs g).contains tag)

/-- Does a gang that may issue now stand at a `regang` that brings the last slices into the open round? If it issues in
this cycle, it closes the round with them in it (R178). -/
def State.regangDue (s : State) (core : Nat) (m : Module) (gk : Nat) (g : Group) : Bool :=
  let handle := ((s.moduleOf g).map fun x => x.2.1.module).getD 0
  g.tags.any fun tag => s.mayIssue gk g tag &&
    match g.gang tag with
    | [] => false
    | i :: rest =>
      let x := g.slice i
      x.status != .peel && x.status != .await &&
        (natsFrom 0 g.slices.length).all (fun j =>
          (i :: rest).contains j || (g.slice j).status == .done || (g.slice j).status == .await) &&
        (match decode ((s.bufferedWord core handle x.sid.toNat x.off.toNat).getD
            (s.codeWord m x.sid.toNat x.off.toNat)) 0 with
         | .ok (.regang h) => h.m != 0
         | _ => false)

/-- Is a round of a group due to close: full, or out of patience (R80)? -/
def Group.roundDue (g : Group) : Bool :=
  !g.stopped && (g.roundFull || g.awaiting.any fun i => (g.slice i).patience == 0)

/-- The round of a group that is due closes. -/
def State.closeDue (s : State) (gk : Nat) : State :=
  match s.group gk with
  | none => s
  | some g =>
    if !g.roundDue then s
    else
      match s.moduleOf g with
      | none => s
      | some (tm, la, m) => s.installRound gk tm la m ⟨g, 0, 0, 0⟩ true

/-- PATIENCE_EXPIRY: a round whose patience has run out closes (R80); so does a full one that a fault of its lookup
stopped. While the last slice may still arrive in this cycle, the round closes with the cycle, in State.tick (R178; log
entry 3). -/
def execPatienceExpiry (gk : Nat) (s : State) : Outcome :=
  match s.group gk with
  | none => .next s
  | some g =>
    match s.moduleOf g with
    | none => .next s
    | some (tm, _, m) => if s.regangDue tm.core m gk g then .next s else .next (s.closeDue gk)

end Sys2Proof.Machine
end

