-- ==== Sys2Proof/Machine/Spill.lean ====
section
/-! DEFINITION. Serving frame requests and the spill engine (R192 to R201). -/

namespace Sys2Proof.Machine

open Sys2Proof

/-! ## The memory spill area (R198) -/

/-- The kernel header's spill area per team in 256-byte units (R169). -/
def Launch.spillUnits (l : Launch) : Nat := field l.kernel 0x18 4 * 256

/-- The virtual address of unit 0 of a team's area. -/
def spillBase (l : Launch) (t : Nat) : Nat := field l.record 0x28 8 + t * (l.spillUnits * 256)

/-- The units that spilled frames of the team take. -/
def State.spillUsed (s : State) (team : Nat) : List (Nat × Nat) :=
  (s.teamGroups team).flatMap fun k =>
    match s.group k with
    | none => []
    | some g => g.frames.filterMap fun p =>
        match p.2.place with
        | .spilled u n _ => some (u, n)
        | _ => none

/-- First fit from the low end. -/
def firstFit (used : List (Nat × Nat)) (total n : Nat) : Option Nat :=
  let free (u : Nat) : Bool := u + n ≤ total && used.all fun p => decide (u + n ≤ p.1) || decide (p.1 + p.2 ≤ u)
  ((sortBy (fun a b => decide (a ≤ b)) (0 :: used.map fun p => p.1 + p.2)).filter free).head?

/-- Units that a frame of k granules takes. -/
def frameUnits (k width : Nat) : Nat := (k * 8 * width * 4 + width * 4 + 255) / 256

/-- The home keys of n bytes from a virtual address, byte granules of 256; none when a byte does not
translate or may not be written. -/
def State.areaKeys (s : State) (ctx who va : Nat) : Nat → Option (List Nat)
  | 0 => some []
  | n + 1 =>
    match s.translate ctx who va with
    | .ok pa w _ _ =>
      if w then (State.areaKeys s ctx who (va + 256) n).map fun ks => s.liveKey pa :: ks else none
    | _ => none

/-- Move a frame to the area: its granules become free, the area's bytes have no defined layout. The error is
the cause of `SPILL_FULL`. -/
def State.moveOut (s : State) (gk depth : Nat) : Except Nat State :=
  match s.group gk with
  | none => .ok s
  | some g =>
    match s.teams.find g.team, s.moduleOf g, g.frames.find depth with
    | some tm, some (_, la, _), some f =>
      let n := frameUnits f.seeds.length g.width
      match firstFit (s.spillUsed g.team) la.spillUnits n with
      | none => .error 1
      | some u =>
        match s.areaKeys la.ctx tm.core (spillBase la tm.t + u * 256) n with
        | none => .error 3
        | some keys =>
          let s := (mapIdxFrom 0 (fun i k => (i, k)) keys).foldl (fun s p =>
            s.write p.2 ((natsFrom 0 256).map fun j => (freeVal s.free 8 (p.1 % 64) j).setWidth 8)) s
          let s := { s with free := s.free + 1 }
          .ok ((s.onGroup gk fun g =>
            { g with frames := g.frames.put depth { f with place := .spilled u n s.seq } }).count la.ctx 9 1)
    | _, _, _ => .ok s

/-- The registers of a spilled frame, as lane × 256 + register, that bytes of its area hold parts of: `keys` are the
home keys of its units, `p` picks bytes by home key. -/
def touchedRegs (keys : List Nat) (p : Nat → Bool) : List Nat :=
  dedup ((mapIdxFrom 0 (fun i k => (i, k)) keys).flatMap fun x =>
    ((natsFrom 0 256).filter fun j => p (x.2 + j)).map fun j => Config.spillLayout keys.length (x.1 * 256 + j))

/-- What a refill brings back: a register that software wrote a byte of is undefined (R198), data that arrived for the
frame meanwhile is in it. -/
def Frame.refilled (f : Frame) (free seq : Nat) (written : List Nat) : Frame :=
  let ws := written.filter fun k => k < 16384 && k % 256 < f.size
  let regs := ws.foldl (fun m k => KMap.put m k (freeVal free 7 (k / 256) (k % 256))) f.regs
  { f with regs := f.late.foldl (fun m p => KMap.put m p.1 p.2) regs, late := [], place := .pool, stamp := seq }

/-- Refill a frame: single-bit errors in its area are corrected (R287); where software wrote the area since the move,
registers are undefined (R198); where a byte of it has an uncorrectable error, the register that it belongs to has it
(R208). -/
def State.refill (s : State) (gk depth : Nat) : Except Nat State :=
  match s.group gk with
  | none => .ok s
  | some g =>
    match s.teams.find g.team, s.moduleOf g, g.frames.find depth with
    | some tm, some (_, la, _), some f =>
      match f.place with
      | .pool => .ok s
      | .saved _ => .ok (s.onGroup gk fun g => { g with frames := g.frames.put depth { f with place := .pool } })
      | .spilled u n since =>
        match s.areaKeys la.ctx tm.core (spillBase la tm.t + u * 256) n with
        | none => .error 3
        | some keys =>
          let written := touchedRegs keys fun b => s.writtenSince b 1 since
          let bad := (touchedRegs keys fun b => s.poisoned b 1).filter (· < 16384)
          let f := f.refilled s.free s.seq written
          let s := keys.foldl (fun s k => s.correctHome k 256) s
          let s := { s with
            free := s.free + 1,
            latent := { s.latent with
              regs := dedup (s.latent.regs ++ bad.map fun k => latentReg gk depth (k / 256) (k % 256)) } }
          .ok ((s.onGroup gk fun g => { g with frames := g.frames.put depth f }).count la.ctx 9 1)
    | _, _, _ => .ok s

/-- Refill some depths of a group in turn. -/
def State.refillAll (s : State) (gk : Nat) : List Nat → Except Nat State
  | [] => .ok s
  | d :: ds =>
    match s.refill gk d with
    | .ok s' => State.refillAll s' gk ds
    | .error c => .error c

/-! ## Serving (R192, R197) -/

/-- The depths at which a group's live lanes stand. -/
def Group.liveDepths (g : Group) : List Nat :=
  g.depthsOf ((natsFrom 0 g.lanes.length).filter fun l => (g.lane l).live)

def sameRequest (a b : FrameReq) : Bool := a.gk == b.gk && a.tag == b.tag && a.restore == b.restore

/-- Change a request of a team in place. -/
def Team.onRequest (tm : Team) (r : FrameReq) (f : FrameReq → FrameReq) : Team :=
  { tm with requests := tm.requests.map fun x => if sameRequest x r then f x else x }

/-- `SPILL_FULL` for a request (R208): it leaves the list, and its gang's word makes it again when the group resumes. -/
def State.spillFault (s : State) (team : Nat) (r : FrameReq) (cause : Nat) : State :=
  ((s.onTeam team fun tm => { tm with requests := tm.requests.filter fun x => !sameRequest x r }).onGroup r.gk fun g =>
    { g with blocked := g.blocked.del r.tag }).takeFault r.gk r.tag { (wfault cSPILLFULL 0) with cause := cause }

/-- Serve the head request: refill its frames, set its other granules aside, let its gang run; a restore ends
the swap. A group that was ready by another gang keeps its pass count (R186). -/
def State.serve (s : State) (team : Nat) (r : FrameReq) : State :=
  match s.refillAll r.gk r.refill with
  | .error c => s.spillFault team r c
  | .ok s' =>
    if r.restore then
      (s'.onTeam team fun tm => { tm with requests := tm.requests.filter fun x => !sameRequest x r }).onGroup
        r.gk fun g =>
          { g with swapped := false, pass := 0, blocked := g.blocked.filter fun p => p.2 != .frame }
    else
      let back := ((s'.group r.gk).map fun g =>
        (r.refill.map fun d => g.frameSize d / 8).foldl (· + ·) 0).getD 0
      (s'.onTeam team fun tm => tm.onRequest r fun x =>
        { x with served := true, size := x.size - back, refill := [] }).onGroup r.gk fun g =>
          { g with blocked := g.blocked.del r.tag }

/-- FRAME_REQUEST_SERVED: the head of a team's queue, once the free granules cover it. -/
def execFrameRequestServed (team : Nat) (s : State) : Outcome :=
  match s.teams.find team with
  | none => .next s
  | some tm =>
    if tm.saved then .next s
    else match tm.queue with
    | [] => .next s
    | r :: _ => if r.size ≤ s.freeGranules team then .next (s.serve team r) else .next s

/-! ## The engine (R195 to R197) -/

/-- The conditions of R195; the engine stops for a team whose pre-emption is latched (R201). -/
def State.engineWanted (s : State) (team : Nat) : Bool :=
  match s.teams.find team with
  | none => false
  | some tm =>
    !tm.saved && !tm.latched && !tm.queue.isEmpty && (s.teamGroups team).all fun k =>
      match s.group k with
      | none => true
      | some g => !g.resident || g.saved || g.swapped || s.groupBlocked k g

/-- When a team met the conditions: the latest of its oldest request, the blocking of its groups, and the last
retirement, save or return of one. -/
def State.wantedSince (s : State) (team : Nat) : Nat :=
  match s.teams.find team with
  | none => 0
  | some tm =>
    ((s.teamGroups team).map fun k => ((s.group k).map (·.blockedAt)).getD 0).foldl max
      (max tm.changedAt ((tm.queue.head?.map (·.age)).getD 0))

/-- SPILL_ENGINE_START: the idle engine of a core takes the team that met the conditions first. -/
def execSpillEngineStart (core : Nat) (s : State) : Outcome :=
  if (s.spill.find core).isSome then .next s
  else
    let ts := (s.teams.filter fun p => p.2.core == core && s.engineWanted p.1).map (·.1)
    match sortBy (fun a b => decide (s.wantedSince a ≤ s.wantedSince b)) ts with
    | [] => .next s
    | t :: _ => .next { s with spill := s.spill.put core t }

/-- Has an arrival's capture yet to read a frame of a group (R239)? -/
def State.uncaptured (s : State) (gk depth : Nat) : Bool :=
  s.entries.vals.any fun n => n.arrivals.any fun a => a.gk == gk && a.rows.isNone && a.depths.contains depth

/-- Is an idle frame of a team, which the head request does not use, held back by a capture (R239)? -/
def State.heldBack (s : State) (team : Nat) (uses : List Nat) : Bool :=
  (s.teamGroups team).any fun k =>
    match s.group k with
    | none => false
    | some g =>
      !g.saved && g.resident && g.frames.any fun p =>
        p.2.inPool && !g.liveDepths.contains p.1 && !uses.contains (k * 256 + p.1) && s.uncaptured k p.1

/-- The idle resident frames of a team that the head request does not use, oldest stamp first, then lower
slot, then lower depth: (group, depth). -/
def State.idleFrames (s : State) (team : Nat) (uses : List Nat) : List (Nat × Nat) :=
  let all := (s.teamGroups team).flatMap fun k =>
    match s.group k with
    | none => []
    | some g =>
      if g.saved || !g.resident then []
      else
        let busy := g.liveDepths
        g.frames.filterMap fun p =>
          if p.2.inPool && !busy.contains p.1 && !uses.contains (k * 256 + p.1) &&
              !s.uncaptured k p.1 then
            some ((p.2.stamp * 32 + g.slot) * 256 + p.1, k, p.1)
          else none
  (sortBy (fun a b => decide (a.1 ≤ b.1)) all).map (·.2)

/-- The groups that the second loop of R196 may swap out for a request of `gk`: one whose swap has begun, then the one
whose last run started earliest. -/
def State.swapCandidates (s : State) (team gk : Nat) : List Nat :=
  let all := (s.teamGroups team).filterMap fun k =>
    match s.group k with
    | none => none
    | some g =>
      if k != gk && !g.saved && g.resident && s.groupBlocked k g && g.frames.any (fun p => p.2.inPool) then
        some ((if g.swapped then 0 else 1 + g.lastRun * 32 + g.slot), k)
      else none
  (sortBy (fun a b => decide (a.1 ≤ b.1)) all).map (·.2)

/-- Must a group's swap wait: for the save that its stop begins, or for the capture of a row (R239)? -/
def State.swapWaits (s : State) (gk : Nat) : Bool :=
  match s.group gk with
  | none => false
  | some g => g.halt.isSome || g.frames.any fun p => p.2.inPool && s.uncaptured gk p.1

/-- A group's swap begins (R197): one restore request takes the place of its pending requests, with the age of the
oldest; it asks for the frames that have been moved so far. -/
def State.beginSwap (s : State) (gk : Nat) : State :=
  match s.group gk with
  | none => s
  | some g =>
    if g.swapped then s
    else
      let mine := (((s.teams.find g.team).map (·.queue)).getD []).filter fun r => r.gk == gk
      let age := (mine.map (·.age)).foldl min s.seq
      let depths := g.liveDepths.filter g.isSpilled
      let size := (depths.map fun d => g.frameSize d / 8).foldl (· + ·) 0
      let r : FrameReq := ⟨gk, g.lastTag, age, size, false, true, depths, depths.map fun d => gk * 256 + d⟩
      let ctx := ((s.moduleOf g).map fun x => x.2.1.ctx).getD 0
      ((s.onTeam g.team fun tm =>
        ({ tm with requests := tm.requests.filter fun x => !(x.gk == gk && !x.served) }).addRequest r).onGroup gk
          fun g => { g with swapped := true, blockedAt := s.seq }).count ctx 9 1

/-- One frame of a swap: a frame at an occupied depth joins the restore request. -/
def State.swapFrame (s : State) (gk : Nat) : Except Nat State :=
  match s.group gk with
  | none => .ok s
  | some g =>
    match g.frames.find? fun p => p.2.inPool with
    | none => .ok s
    | some (d, f) =>
      match s.moveOut gk d with
      | .error c => .error c
      | .ok s' =>
        let s' := s'.beginSwap gk
        if g.liveDepths.contains d && !((s'.teams.find g.team).map fun tm => tm.requests.any fun x =>
            x.gk == gk && x.restore && x.refill.contains d).getD true then
          .ok (s'.onTeam g.team fun tm => { tm with requests := tm.requests.map fun x =>
            if x.gk == gk && x.restore then
              { x with size := x.size + f.seeds.length, refill := x.refill ++ [d], uses := x.uses ++ [gk * 256 + d] }
            else x })
        else .ok s'

/-- FRAME_MOVE: one move of the engine's work (R196). Between moves it tests the conditions again. A request that no
group is left for waits while a frame is held only until its row's capture (R239). -/
def execFrameMove (core : Nat) (s : State) : Outcome :=
  match s.spill.find core with
  | none => .next s
  | some team =>
    let stop : State := { s with spill := s.spill.del core }
    if !s.engineWanted team then .next stop
    else
      match (s.teams.find team).bind fun tm => tm.queue.head? with
      | none => .next stop
      | some r =>
        if r.size ≤ s.freeGranules team then .next (stop.serve team r)
        else
          match s.idleFrames team r.uses with
          | (k, d) :: _ =>
            match s.moveOut k d with
            | .ok s' => .next s'
            | .error c => .next (stop.spillFault team r c)
          | [] =>
            let bs := s.swapCandidates team r.gk
            match bs.find? fun b => !s.swapWaits b with
            | some b =>
              match s.swapFrame b with
              | .ok s' => .next s'
              | .error c => .next (stop.spillFault team r c)
            | none =>
              if bs.isEmpty && !s.heldBack team r.uses then .next (stop.spillFault team r 2) else .next s

end Sys2Proof.Machine
end

