-- ==== Sys2Proof/Machine/Address.lean ====
section
/-! DEFINITION. Generic addresses and their checks (R142 to R146, R148), the core's global-data cache (R288,
R289), and release tags (R305, R308, R309). -/

namespace Sys2Proof.Machine

open Sys2Proof

/-! ## Windows (R142) -/

inductive Win where
  | glob (va : Nat)
  | priv (off : Nat)
  | spad (core off : Nat)
  | clu (cluster off : Nat)
  | vault (v off : Nat)
  deriving DecidableEq, Repr

/-- The window of an address; none would raise `SPACE_INVALID`. -/
def windowOf (p : Nat) : Option Win :=
  match bitsOf p 63 56 with
  | 0x00 => some (.glob (bitsOf p 55 0))
  | 0xA1 => if bitsOf p 55 32 == 0 then some (.priv (bitsOf p 31 0)) else none
  | 0xA2 =>
    if bitsOf p 55 48 == 0 && bitsOf p 38 24 == 0 && bitsOf p 47 39 < 384 then
      some (.spad (bitsOf p 47 39) (bitsOf p 23 0)) else none
  | 0xA3 =>
    if bitsOf p 55 48 == 0 && bitsOf p 40 24 == 0 && bitsOf p 47 41 < 96 then
      some (.clu (bitsOf p 47 41) (bitsOf p 23 0)) else none
  | 0xA4 =>
    if bitsOf p 55 48 == 0 && bitsOf p 40 24 == 0 && bitsOf p 45 41 < 24 then
      some (.vault (bitsOf p 47 46 * 24 + bitsOf p 45 41) (bitsOf p 23 0)) else none
  | _ => none

/-- The window's code (R145). -/
def Win.code : Win → Nat
  | .glob _ => 0
  | .priv _ => 1
  | .spad _ _ => 2
  | .clu _ _ => 3
  | .vault _ _ => 4

/-- The offset or virtual address that alignment is judged by (R148). -/
def Win.offset : Win → Nat
  | .glob va => va
  | .priv o => o
  | .spad _ o => o
  | .clu _ o => o
  | .vault _ o => o

def Win.isVault : Win → Bool
  | .glob _ => false
  | .priv _ => false
  | _ => true

/-- Is the window another core's or cluster's (R143)? -/
def Win.foreign (core : Nat) : Win → Bool
  | .spad c _ => c != core
  | .clu c _ => c != clusterOf core
  | _ => false

/-! ## What an address means for a party -/

/-- The party that an address is read for: a lane of a group, or a job of a group. -/
structure Party where
  core : Nat
  tm : Team
  la : Launch
  width : Nat
  gidx : Nat
  lane : Nat
  deriving DecidableEq, Repr

def Env.party (e : Env) (lane : Nat) : Party := ⟨e.core, e.tm, e.la, e.g.width, e.g.gidx, lane⟩

/-- The private area of a lane: its base and bytes (R144). -/
def Party.private0 (p : Party) : Nat × Nat :=
  let ps := field p.la.record 0x20 4
  let gl := (p.tm.t * (p.tm.p + p.tm.c) + p.gidx) * p.width + p.lane
  (field p.la.record 0x18 8 + gl * ps, ps)

/-- The team's scratchpad: vault, offset Sb, bytes (R144, R244). A team with s = 0 has no Sb in the spec: the model takes
the first-fit unit of an empty range (DESIGN CHOICE, log entry 58). -/
def Party.scratch (p : Party) : Nat × Nat × Nat :=
  (clusterOf p.tm.core, p.tm.sUnit * 65536, p.tm.sUnits * 65536)

/-- The launch's cluster-shared region: Cb and Cs. A launch without one has no Cb in the spec: the model takes 0 (DESIGN
CHOICE, log entry 58). -/
def Launch.shared (l : Launch) : Nat × Nat := (l.cb.getD 0, if l.cb.isSome then field l.record 0x24 4 else 0)

/-- Do n bytes of a vault lie in a scratchpad of a team of the launch, or in its shared region? -/
def State.vaultAllowed (s : State) (l : Launch) (v off n : Nat) : Bool :=
  let sh := l.shared
  (sh.1 ≤ off && off + n ≤ sh.1 + sh.2) ||
  s.teams.vals.any fun tm => tm.launch == l.id.toNat && clusterOf tm.core == v && !tm.saved &&
    tm.sUnit * 65536 ≤ off && off + n ≤ (tm.sUnit + tm.sUnits) * 65536

/-- What the checks of an access give: the target (a physical address, or a vault key), whether the core's
cache is bypassed, and the translations to keep; or the fault; or an unresolved translation. -/
inductive Chk where
  | ok (target : Nat) (nc : Bool) (fill : List TlbEntry)
  | bad (code : Nat)
  | unresolved
  deriving DecidableEq, Repr

/-- Translate a global address for an access of n bytes (R298, R301). An aligned access stays in a page. -/
def State.checkGlobal (s : State) (ctx who va : Nat) (write : Bool) : Chk :=
  match s.translate ctx who va with
  | .ok pa w nc fill =>
    if write && !w then .bad cPROT else .ok pa (nc || paKind pa != .hbm) fill
  | .unresolved => .unresolved
  | .prot => .bad cPROT
  | .ecc => .bad cECCFATAL

/-- The checks of R148 in their order: window, foreign, alignment, full-empty outside a vault, bounds,
translation. `who` translates: a core, or an engine of a die. A private address whose sum passes 56 bits wraps (DESIGN
CHOICE, log entry 58). -/
def State.checkAddress (s : State) (p : Party) (who ea n align : Nat) (write fe : Bool) : Chk :=
  match windowOf ea with
  | none => .bad cSPACEINVALID
  | some w =>
    if w.foreign p.core then .bad cSPACEFOREIGN
    else if w.offset % align != 0 then .bad cALIGN
    else if fe && !w.isVault then .bad cPROT
    else
      match w with
      | .glob va => s.checkGlobal p.la.ctx who va write
      | .priv off =>
        if p.private0.2 < off + n then .bad cPROT
        else s.checkGlobal p.la.ctx who ((p.private0.1 + off) % 2 ^ 56) write
      | .spad _ off =>
        if p.scratch.2.2 < off + n then .bad cPROT
        else .ok (vaultKey p.scratch.1 (p.scratch.2.1 + off)) true []
      | .clu c off =>
        if p.la.shared.2 < off + n then .bad cPROT else .ok (vaultKey c (p.la.shared.1 + off)) true []
      | .vault v off =>
        if s.vaultAllowed p.la v off n then .ok (vaultKey v off) true [] else .bad cPROT

/-! ## The home of bytes -/

/-- The key at which a target's bytes live, after its first touch (R302). -/
def State.home (s : State) (target : Nat) : State × Nat :=
  if isVaultKey target then (s, target)
  else
    let s := s.touch target
    (s, s.liveKey target)

/-! ## Scopes (R305) -/

/-- Does the instance around a group at a scope contain another group? -/
def groupReach (scope core slot core' slot' : Nat) : Bool :=
  match scope with
  | 0 => core == core' && slot == slot'
  | 1 => core == core'
  | 2 => clusterOf core == clusterOf core'
  | 3 => dieOf core == dieOf core'
  | _ => true

/-- Does a releaser at a scope reach a group (R305)? -/
def releaserReach (r : Releaser) (scope core slot : Nat) : Bool :=
  match r with
  | .group c s => groupReach scope c s core slot
  | .hub => scope == 5

/-- Does a group at a scope reach a releaser? -/
def reachesReleaser (r : Releaser) (scope core slot : Nat) : Bool :=
  match r with
  | .group c s => groupReach scope core slot c s
  | .hub => scope == 5

/-- R309: is an acquire at a scope mismatched with the tag it reads? -/
def mismatched (g : Gran) (scope core slot : Nat) : Bool :=
  match g.rel with
  | none => false
  | some (r, sc) => !(releaserReach r sc core slot && reachesReleaser r scope core slot)

/-- The owner after a release performed at the home. R308's first row leaves it unchanged; R150, R311 and the handshake of
16_ordering.md let an acquire with `.rmt` find the core of a core-scope release there too (DEDUCED, log entry 65). -/
def Releaser.owns (r : Releaser) (scope : Nat) (old : Option Nat) : Option Nat :=
  match r with
  | .group core _ => if scope ≤ 1 then some core else old
  | .hub => old

/-- A tag after a release performed at the home (R308). -/
def State.tagRelease (s : State) (grans : List Nat) (r : Releaser) (scope : Nat) : State :=
  grans.foldl (fun s g => s.setGran g { (s.granAt g) with rel := some (r, scope), owner := r.owns scope (s.granAt g).owner }) s

/-- A tag after a plain write at the home. -/
def State.tagPlain (s : State) (grans : List Nat) : State :=
  grans.foldl (fun s g => s.setGran g { (s.granAt g) with rel := none }) s

/-! ## The core's global-data cache (R288) -/

def State.cacheOf (s : State) (core : Nat) : KMap CacheByte := (s.caches.find core).getD []

def State.setCache (s : State) (core : Nat) (c : KMap CacheByte) : State :=
  { s with caches := if c.isEmpty then s.caches.del core else s.caches.put core c }

/-- Was the dirty byte last written by the core-scope release that its granule's tag records (R308)? -/
def carriesRelease (g : Gran) (core : Nat) (b : CacheByte) : Bool :=
  b.rel && g.owner == some core &&
    (match g.rel with
     | some (.group c _, sc) => c == core && sc ≤ 1
     | _ => false)

/-- Does a byte of a core's cache have an uncorrectable error (R289)? -/
def State.cacheBad (s : State) (core pa : Nat) : Bool := s.latent.cached.contains (core, pa)

/-- The lowest dirty byte with an uncorrectable error, which a write-back of a whole cache meets (R289). -/
def State.dirtyBad (s : State) (core : Nat) : Option Nat :=
  ((s.cacheOf core).find? fun x => x.2.dirty && s.cacheBad core x.1).map (·.1)

/-- The lowest dirty byte with an uncorrectable error that a write-back of the bytes that `p` picks meets (R289). -/
def State.lineBad (s : State) (core : Nat) (p : Nat → Bool) : Option Nat :=
  ((s.cacheOf core).find? fun x => p x.1 && x.2.dirty && s.cacheBad core x.1).map (·.1)

/-- Errors leave the cached bytes that `p` picks. -/
def State.clearCached (s : State) (core : Nat) (p : Nat → Bool) : State :=
  { s with latent := { s.latent with cached := s.latent.cached.filter fun x => !(x.1 == core && p x.2) } }

/-- Write the dirty bytes `bs` of one granule back to its home, by physical address; the tag follows R308: it stays when
every byte carries the release that it records. A byte with an error arrives as a free value (log entry 14). -/
def State.writeBackGran (s : State) (core gran : Nat) (bs : List (Nat × CacheByte)) : State :=
  let r := s.home (gran * 16)
  let k := r.2
  let g := r.1.granAt (k / 16)
  let keep := bs.all fun b => carriesRelease g core b.2
  let s := bs.foldl (fun s b =>
    s.write (k + b.1 % 16) [if s.cacheBad core b.1 then (freeVal s.free 6 0 (b.1 % 16)).setWidth 8 else b.2.value]) r.1
  s.setGran (k / 16) { (s.granAt (k / 16)) with
    rel := if keep then g.rel else none,
    owner := if g.owner == some core then none else g.owner }

/-- Write back the dirty bytes of the lines that `p` picks, by physical address. A line that is dirty whole is one write
of it (R287). -/
def State.writeBack (s : State) (core : Nat) (p : Nat → Bool) : State :=
  match (s.cacheOf core).filter fun x => p x.1 && x.2.dirty with
  | [] => s
  | dirty =>
    let s := (dedup (dirty.map fun x => x.1 / 16)).foldl (fun s i =>
      s.writeBackGran core i (dirty.filter fun x => x.1 / 16 == i)) s
    let s := s.clearPoison (dirty.map fun x => s.liveKey x.1)
    let s := { (s.clearCached core p) with free := s.free + 1 }
    s.setCache core ((s.cacheOf core).map fun x => if p x.1 then (x.1, { x.2 with dirty := false }) else x)

/-- Write back and invalidate the lines that `p` picks. -/
def State.invalidate (s : State) (core : Nat) (p : Nat → Bool) : State :=
  let s := (s.writeBack core p).clearCached core p
  s.setCache core ((s.cacheOf core).filter fun x => !p x.1)

/-- The release action of a scope wider than core. -/
def State.releaseAction (s : State) (core scope : Nat) : State :=
  if 2 ≤ scope then s.writeBack core fun _ => true else s

/-- The acquire action of a scope wider than core. -/
def State.acquireAction (s : State) (core scope : Nat) : State :=
  if 2 ≤ scope then s.invalidate core fun _ => true else s

/-- Are n bytes valid in a core's cache? -/
def State.cacheHit (s : State) (core pa n : Nat) : Bool :=
  (natsFrom pa n).all fun a => ((s.cacheOf core).find a).isSome

/-- The lines that a core's cache has room for: 256 KiB (R288). -/
def cacheLines : Nat := 2048

/-- The line that a full cache evicts for the line of an address: its lowest one (DESIGN CHOICE, log entry 53). -/
def State.victimLine (s : State) (core pa : Nat) : Option Nat :=
  let lines := dedup ((s.cacheOf core).map fun x => x.1 / 128)
  match lines with
  | [] => none
  | l :: rest =>
    if lines.contains (pa / 128) || lines.length < cacheLines then none else some (rest.foldl min l)

/-- Room for the line of an address. -/
def State.allocLine (s : State) (core pa : Nat) : State :=
  match s.victimLine core pa with
  | none => s
  | some l => s.invalidate core fun a => a / 128 == l

/-- The dirty byte with an error that making room meets (R289). -/
def State.allocBad (s : State) (core pa : Nat) : Option Nat :=
  match s.victimLine core pa with
  | none => none
  | some l => s.lineBad core fun a => a / 128 == l

/-- Fetch a line from its home and merge it under the dirty bytes (R288). -/
def State.fetchLine (s : State) (core pa : Nat) : State :=
  let base := pa / 128 * 128
  let r := (s.allocLine core pa).home pa
  let k := r.2 / 128 * 128
  let r := (r.1.correctHome k 128, r.2)
  let c := (natsFrom 0 128).foldl (fun (c : KMap CacheByte) i =>
    match c.find (base + i) with
    | some b => if b.dirty then c else c.put (base + i) ⟨Memory.byte r.1.mem (k + i), false, false, 0⟩
    | none => c.put (base + i) ⟨Memory.byte r.1.mem (k + i), false, false, 0⟩) (r.1.cacheOf core)
  r.1.setCache core c

/-- Clean bytes with an error leave the cache with their line, which is fetched again (R289). -/
def State.dropBadClean (s : State) (core pa n : Nat) : State :=
  if (natsFrom pa n).any fun a => s.cacheBad core a then
    (s.setCache core ((s.cacheOf core).filter fun x => x.1 / 128 != pa / 128 || x.2.dirty)).clearCached core fun a =>
      a / 128 == pa / 128 && !(((s.cacheOf core).find a).map (·.dirty)).getD false
  else s

/-- Does a load of n bytes meet a dirty byte with an uncorrectable error (R289)? -/
def State.hitsBadDirty (s : State) (core pa n : Nat) : Bool :=
  (natsFrom pa n).any fun a => s.cacheBad core a && (((s.cacheOf core).find a).map (·.dirty)).getD false

/-- Load n bytes through a core's cache. -/
def State.cacheLoad (s : State) (core pa n : Nat) : State × List Byte :=
  let s := s.dropBadClean core pa n
  let s := if s.cacheHit core pa n then s else s.fetchLine core pa
  (s, (natsFrom pa n).map fun a => (((s.cacheOf core).find a).map (·.value)).getD 0)

/-- Store bytes into a core's cache; `rel` marks a release performed there. -/
def State.cacheStore (s : State) (core pa : Nat) (rel : Bool) (bs : List Byte) : State :=
  let s := (s.allocLine core pa).clearCached core fun a => pa ≤ a && a < pa + bs.length
  s.setCache core ((mapIdxFrom pa (fun a b => (a, b)) bs).foldl
    (fun (c : KMap CacheByte) x => c.put x.1 ⟨x.2, true, rel, s.seq⟩) (s.cacheOf core))

/-- Was one of some bytes, by home key, written after a point of the order of moves: at its home, or by a store that a
core's cache still holds? -/
def State.changedSince (s : State) (keys : List Nat) (since : Nat) : Bool :=
  keys.any (fun a => decide (since < s.writtenAt a)) ||
    s.caches.any fun c => c.2.any fun b => b.2.dirty && decide (since < b.2.stored) && keys.contains (s.liveKey b.1)

/-- Bytes that a write at the home leaves valid in the writing core's cache take the new values. -/
def State.cacheUpdate (s : State) (core pa : Nat) (bs : List Byte) : State :=
  s.setCache core ((mapIdxFrom pa (fun a b => (a, b)) bs).foldl
    (fun (c : KMap CacheByte) x =>
      match c.find x.1 with
      | some _ => c.put x.1 ⟨x.2, false, false, 0⟩
      | none => c) (s.cacheOf core))

end Sys2Proof.Machine
end

