-- ==== Sys2Proof/Machine/Integer.lean ====
section
/-! DEFINITION. Class 0: integer arithmetic, logic, shifts, bit fields, counting, compare, select, move and
address arithmetic (R98 to R108). -/

namespace Sys2Proof.Machine

open Sys2Proof

/-- The format of twice the width (R102). -/
def doubleFmt : Fmt → Fmt
  | .i8 => .i16
  | .i16 => .i32
  | .i32 => .i64
  | .n8 => .n16
  | .n16 => .n32
  | .n32 => .n64
  | f => f

/-- R101: sources in `fmt` (C in the result format), the exact value, the result narrowed to the result
format. -/
def intLane (o : AOp) (res : Fmt) (v : Int → Int → Int → Int) : LaneFn := fun e l =>
  let a := intVal o.fmt (e.val 0 o.fmt l o.va)
  let b := intVal o.fmt (e.src 1 o.fmt l o.vb)
  let c := intVal res (e.val 2 res l o.vc)
  let r := narrow res.isSigned res.width (resolveSat e.g.mode o.sat) (v a b c)
  (putFmt res l o.vd r.1, r.2)

/-- An integer word with sources A and B. -/
def int2 (o : AOp) (res : Fmt) (v : Int → Int → Int) (s : State) : Outcome :=
  aWord o res.wide (some o.fmt.wide) (some o.fmt.wide) none (intLane o res fun a b _ => v a b) s

/-- An integer word with sources A, B and C. -/
def int3 (o : AOp) (res : Fmt) (v : Int → Int → Int → Int) (s : State) : Outcome :=
  aWord o res.wide (some o.fmt.wide) (some o.fmt.wide) (some res.wide) (intLane o res v) s

/-- An integer word with source A. -/
def int1 (o : AOp) (v : Int → Int) (s : State) : Outcome :=
  aWord o o.fmt.wide (some o.fmt.wide) none none (intLane o o.fmt fun a _ _ => v a) s

def execAdd (o : AOp) (s : State) : Outcome := int2 o o.fmt (fun a b => a + b) s
def execSub (o : AOp) (s : State) : Outcome := int2 o o.fmt (fun a b => a - b) s
def execMul (o : AOp) (s : State) : Outcome := int2 o o.fmt (fun a b => a * b) s
/-- floor(a × b / 2^N). -/
def execMulhi (o : AOp) (s : State) : Outcome := int2 o o.fmt (fun a b => a * b / (2 ^ o.fmt.width : Int)) s
def execMulw (o : AOp) (s : State) : Outcome := int2 o (doubleFmt o.fmt) (fun a b => a * b) s
def execMad (o : AOp) (s : State) : Outcome := int3 o o.fmt (fun a b c => a * b + c) s
def execMadw (o : AOp) (s : State) : Outcome := int3 o (doubleFmt o.fmt) (fun a b c => a * b + c) s
def execMin (o : AOp) (s : State) : Outcome := int2 o o.fmt (fun a b => if a ≤ b then a else b) s
def execMax (o : AOp) (s : State) : Outcome := int2 o o.fmt (fun a b => if a ≤ b then b else a) s
def execAbs (o : AOp) (s : State) : Outcome := int1 o (fun a => if a < 0 then -a else a) s
def execNeg (o : AOp) (s : State) : Outcome := int1 o (fun a => -a) s

/-! ## Logic, shifts, bit fields (R103, R104): functions of N-bit encodings -/

/-- A word on N-bit encodings; source B in the format `fb`. -/
def bitsLane (o : AOp) (fb : Fmt) (f : Nat → Nat → Nat → Nat) : LaneFn := fun e l =>
  (putFmt o.fmt l o.vd
    (f (e.val 0 o.fmt l o.va) (e.src 1 fb l o.vb) (e.val 2 o.fmt l o.vc) % 2 ^ o.fmt.width), 0)

def bits2 (o : AOp) (f : Nat → Nat → Nat) (s : State) : Outcome :=
  aWord o o.fmt.wide (some o.fmt.wide) (some o.fmt.wide) none (bitsLane o o.fmt fun a b _ => f a b) s

def bits1 (o : AOp) (f : Nat → Nat) (s : State) : Outcome :=
  aWord o o.fmt.wide (some o.fmt.wide) none none (bitsLane o .n32 fun a _ _ => f a) s

/-- Source B is one 32-bit operand. -/
def bitsShift (o : AOp) (f : Nat → Nat → Nat) (s : State) : Outcome :=
  aWord o o.fmt.wide (some o.fmt.wide) (some false) none (bitsLane o .n32 fun a b _ => f a b) s

/-- Complement of N bits. -/
def notN (n a : Nat) : Nat := 2 ^ n - 1 - a % 2 ^ n

/-- The count of `shl`, `shr`, `sra` (R103). -/
def shiftCount (o : AOp) (b : Nat) : Nat := if o.x then min b o.fmt.width else b % o.fmt.width

def rotl (n a c : Nat) : Nat := (a * 2 ^ c) % 2 ^ n + a / 2 ^ (n - c)

def execAnd (o : AOp) (s : State) : Outcome := bits2 o (fun a b => a &&& b) s
def execOr (o : AOp) (s : State) : Outcome := bits2 o (fun a b => a ||| b) s
def execXor (o : AOp) (s : State) : Outcome := bits2 o (fun a b => a ^^^ b) s
def execNot (o : AOp) (s : State) : Outcome := bits1 o (fun a => notN o.fmt.width a) s
def execAndn (o : AOp) (s : State) : Outcome := bits2 o (fun a b => a &&& notN o.fmt.width b) s
def execShl (o : AOp) (s : State) : Outcome := bitsShift o (fun a b => a * 2 ^ shiftCount o b) s
def execShr (o : AOp) (s : State) : Outcome := bitsShift o (fun a b => a / 2 ^ shiftCount o b) s
/-- A is read as signed N bits whatever the format's signedness. -/
def execSra (o : AOp) (s : State) : Outcome :=
  bitsShift o (fun a b => wrapN o.fmt.width (sext o.fmt.width a / (2 ^ shiftCount o b : Int))) s
def execRol (o : AOp) (s : State) : Outcome :=
  bitsShift o (fun a b => rotl o.fmt.width a (b % o.fmt.width)) s
def execRor (o : AOp) (s : State) : Outcome :=
  bitsShift o (fun a b => rotl o.fmt.width a ((o.fmt.width - b % o.fmt.width) % o.fmt.width)) s

/-- Position and length of a bit field (R104). -/
def fieldSpec (n b : Nat) : Nat × Nat :=
  let pos := bitsOf b 7 0
  let len := bitsOf b 15 8
  (pos, if n ≤ pos then 0 else min len (n - pos))

def bfxVal (f : Fmt) (a b : Nat) : Nat :=
  let p := fieldSpec f.width b
  let x := a / 2 ^ p.1 % 2 ^ p.2
  if p.2 == 0 then 0 else if f.isSigned then wrapN f.width (sext p.2 x) else x

def bfiVal (f : Fmt) (a b c : Nat) : Nat :=
  let p := fieldSpec f.width b
  let mask := (2 ^ p.2 - 1) * 2 ^ p.1
  (c &&& notN f.width mask) ||| ((a * 2 ^ p.1) &&& mask)

def execBfx (o : AOp) (s : State) : Outcome := bitsShift o (bfxVal o.fmt) s
def execBfi (o : AOp) (s : State) : Outcome :=
  aWord o o.fmt.wide (some o.fmt.wide) (some false) (some o.fmt.wide) (bitsLane o .n32 (bfiVal o.fmt)) s

/-! ## Counting (R105) -/

def popcount (n a : Nat) : Nat := ((natsFrom 0 n).filter fun i => a.testBit i).length

/-- Zero bits above the highest one bit of N bits. -/
def clzN (n a : Nat) : Nat := if a == 0 then n else n - 1 - a.log2

/-- Zero bits below the lowest one bit of N bits. -/
def ctzN (n a : Nat) : Nat := ((natsFrom 0 n).find? fun i => a.testBit i).getD n

def brevN (n a : Nat) : Nat :=
  (natsFrom 0 n).foldl (fun r i => if a.testBit i then r + 2 ^ (n - 1 - i) else r) 0

/-- A count: one 32-bit register whatever the format. -/
def countWord (o : AOp) (f : Nat → Nat) (s : State) : Outcome :=
  aWord o false (some o.fmt.wide) none none (fun e l => (put1 l o.vd (f (e.val 0 o.fmt l o.va)), 0)) s

def execPopc (o : AOp) (s : State) : Outcome := countWord o (popcount o.fmt.width) s
def execClz (o : AOp) (s : State) : Outcome := countWord o (clzN o.fmt.width) s
def execCtz (o : AOp) (s : State) : Outcome := countWord o (ctzN o.fmt.width) s
def execBrev (o : AOp) (s : State) : Outcome := bits1 o (brevN o.fmt.width) s

/-! ## Compare, select, move (R106, R107) -/

/-- What a scalar comparison writes. -/
def truth (x t : Bool) : Nat := if t then (if x then 0xFFFFFFFF else 1) else 0

/-- A word in layout C: operands of a format, one 32-bit register written. -/
def cWord (o : COp) (f : LaneFn) (s : State) : Outcome :=
  let reads := span o.fmt.wide o.va :: srcSpan o.fmt.wide o.vb
  word o.h (srcLen o.vb) (span false o.vd :: reads) reads (perLane o.k f) s

def execCmp (o : COp) (s : State) : Outcome :=
  cWord o (fun e l =>
    let a := intVal o.fmt (e.val 0 o.fmt l o.va)
    let b := intVal o.fmt (e.src 1 o.fmt l o.vb)
    (put1 l o.vd (truth o.x (condHolds o.cond (compare a b))), 0)) s

/-- Element j of a packed register. -/
def elem16 (x j : Nat) : Nat := x / 2 ^ (16 * j) % 2 ^ 16

def pack16 (lo hi : Nat) : Nat := lo % 2 ^ 16 + 2 ^ 16 * (hi % 2 ^ 16)

def selVal (f : Fmt) (a b c : Nat) : Nat :=
  if f.isPacked then
    pack16 (if elem16 c 0 != 0 then elem16 a 0 else elem16 b 0)
      (if elem16 c 1 != 0 then elem16 a 1 else elem16 b 1)
  else if c != 0 then a else b

def execSel (o : AOp) (s : State) : Outcome :=
  aWord o o.fmt.wide (some o.fmt.wide) (some o.fmt.wide) (some false) (fun e l =>
    (putFmt o.fmt l o.vd
      (selVal o.fmt (e.val 0 o.fmt l o.va) (e.src 1 o.fmt l o.vb) (e.reg1 2 l o.vc)), 0)) s

def execMov (o : AOp) (s : State) : Outcome :=
  aWord o o.fmt.wide none (some o.fmt.wide) none (fun e l =>
    (putFmt o.fmt l o.vd (e.src 1 o.fmt l o.vb), 0)) s

/-! ## Address arithmetic (R108) -/

/-- The width of a window's offset field; none where the top byte names no window. -/
def offsetWidth (p : Nat) : Option Nat :=
  match p / 2 ^ 56 with
  | 0x00 => some 56
  | 0xA1 => some 32
  | 0xA2 | 0xA3 | 0xA4 => some 24
  | _ => none

/-- Add an offset to a generic address; `x` marks an address whose offset leaves its field. -/
def addressAdd (x : Bool) (p : Nat) (off : Int) : Nat :=
  match offsetWidth p with
  | none => wrapN 64 (p + off)
  | some w =>
    let t : Int := (p % 2 ^ w : Nat) + off
    if x && (decide (t < 0) || decide ((2 ^ w : Int) ≤ t)) then p % 2 ^ 56 + 0xFF * 2 ^ 56
    else p / 2 ^ w * 2 ^ w + wrapN w t

def execAdda (o : AOp) (s : State) : Outcome :=
  aWord o true (some true) (some o.fmt.wide) none (fun e l =>
    (putPair l o.vd (addressAdd o.x (e.pair 0 l o.va) (intVal o.fmt (e.src 1 o.fmt l o.vb))), 0)) s

def execAddsc (o : AOp) (s : State) : Outcome :=
  aWord o true (some true) (some o.fmt.wide) (some false) (fun e l =>
    (putPair l o.vd (addressAdd o.x (e.pair 0 l o.va)
      (intVal o.fmt (e.src 1 o.fmt l o.vb) * (e.reg1 2 l o.vc : Int))), 0)) s

end Sys2Proof.Machine
end

