-- ==== Sys2Proof/Machine/Float.lean ====
section
/-! DEFINITION. Class 1: floating point (R106, R109 to R113). -/

namespace Sys2Proof.Machine

open Sys2Proof

/-- What an operation does with one element: the rounding control and the element's encodings A, B, C. -/
abbrev ElemFn := FEnv → Nat → Nat → Nat → Nat × Nat

/-- One lane of a float word (R109, R112): each selected element by itself; with `x` = 1 a packed word keeps
element 1 of A. `useX` says that `x` selects elements. -/
def floatLane (o : AOp) (useX : Bool) (f : ElemFn) : LaneFn := fun e l =>
  let a := e.val 0 o.fmt l o.va
  let b := e.src 1 o.fmt l o.vb
  let c := e.val 2 o.fmt l o.vc
  if o.fmt.isPacked then
    let r0 := f (e.fenv o.rm o.sat l 0 o.vd) (elem16 a 0) (elem16 b 0) (elem16 c 0)
    let r1 :=
      if useX && o.x then (elem16 a 1, 0)
      else f (e.fenv o.rm o.sat l 1 o.vd) (elem16 a 1) (elem16 b 1) (elem16 c 1)
    (put1 l o.vd (pack16 r0.1 r1.1), r0.2 ||| r1.2)
  else
    let r := f (e.fenv o.rm o.sat l 0 o.vd) a b c
    (putFmt o.fmt l o.vd r.1, r.2)

/-- Inputs as zero (R25) before the operation. -/
def withDaz (f : Fmt) (g : ElemFn) : ElemFn := fun env a b c =>
  g env (daz env.daz f a) (daz env.daz f b) (daz env.daz f c)

def float2 (o : AOp) (g : Fmt → FEnv → Nat → Nat → Nat × Nat) (s : State) : Outcome :=
  let f := o.fmt.element
  aWord o o.fmt.wide (some o.fmt.wide) (some o.fmt.wide) none
    (floatLane o true (withDaz f fun env a b _ => g f env a b)) s

/-- a + b. -/
def faddVal (f : Fmt) (env : FEnv) (a b : Nat) : Nat × Nat :=
  let va := decodeF f a
  let vb := decodeF f b
  addVal f env [va, vb] va vb

/-- a − b. -/
def fsubVal (f : Fmt) (env : FEnv) (a b : Nat) : Nat × Nat :=
  let va := decodeF f a
  let vb := decodeF f b
  addVal f env [va, vb] va vb.neg

/-- a × b. -/
def fmulVal (f : Fmt) (env : FEnv) (a b : Nat) : Nat × Nat :=
  let va := decodeF f a
  let vb := decodeF f b
  fmaVal f env [va, vb] va vb none

/-- a × b + c. -/
def ffmaVal (f : Fmt) (env : FEnv) (a b c : Nat) : Nat × Nat :=
  let va := decodeF f a
  let vb := decodeF f b
  let vc := decodeF f c
  fmaVal f env [va, vb, vc] va vb (some vc)

def execFadd (o : AOp) (s : State) : Outcome := float2 o faddVal s
def execFsub (o : AOp) (s : State) : Outcome := float2 o fsubVal s
def execFmul (o : AOp) (s : State) : Outcome := float2 o fmulVal s
def execFma (o : AOp) (s : State) : Outcome :=
  let f := o.fmt.element
  aWord o o.fmt.wide (some o.fmt.wide) (some o.fmt.wide) (some o.fmt.wide)
    (floatLane o true (withDaz f (ffmaVal f))) s
def execFmin (o : AOp) (s : State) : Outcome := float2 o (fun f env a b => minmax f env false false a b) s
def execFmax (o : AOp) (s : State) : Outcome := float2 o (fun f env a b => minmax f env true false a b) s
def execFminn (o : AOp) (s : State) : Outcome := float2 o (fun f env a b => minmax f env false true a b) s
def execFmaxn (o : AOp) (s : State) : Outcome := float2 o (fun f env a b => minmax f env true true a b) s

/-- The sign bit cleared. -/
def clearSign (f : Fmt) (a : Nat) : Nat := a % 2 ^ (f.width - 1)
/-- The sign bit inverted. -/
def flipSign (f : Fmt) (a : Nat) : Nat := a ^^^ 2 ^ (f.width - 1)

/-- A word on the encoding of A alone. -/
def float1 (o : AOp) (useX : Bool) (f : ElemFn) (s : State) : Outcome :=
  aWord o o.fmt.wide (some o.fmt.wide) none none (floatLane o useX f) s

def execFabs (o : AOp) (s : State) : Outcome :=
  float1 o true (fun _ a _ _ => (clearSign o.fmt.element a, 0)) s
def execFneg (o : AOp) (s : State) : Outcome :=
  float1 o true (fun _ a _ _ => (flipSign o.fmt.element a, 0)) s

/-- a × 2^k (R110, R111). Beyond 8192 either way every nonzero value overflows or underflows alike. -/
def fscaleVal (f : Fmt) (env : FEnv) (a : Nat) (k : Int) : Nat × Nat :=
  let v := decodeF f a
  match v with
  | .nan _ _ _ => nanResult f env [v] false
  | .inf _ => (a, 0)
  | .fin n m e =>
    if m == 0 then (a, 0) else roundFin f env n m (e + max (-8192) (min k 8192)) false

def execFscale (o : AOp) (s : State) : Outcome :=
  let f := o.fmt.element
  aWord o o.fmt.wide (some o.fmt.wide) (some false) none (fun e l =>
    let a := e.val 0 o.fmt l o.va
    let b := e.src 1 .n32 l o.vb
    if o.fmt.isPacked then
      let one (j : Nat) : Nat × Nat :=
        let env := e.fenv o.rm o.sat l j o.vd
        fscaleVal f env (daz env.daz f (elem16 a j)) (sext 16 (elem16 b j))
      let r0 := one 0
      let r1 := if o.x then (elem16 a 1, 0) else one 1
      (put1 l o.vd (pack16 r0.1 r1.1), r0.2 ||| r1.2)
    else
      let env := e.fenv o.rm o.sat l 0 o.vd
      let r := fscaleVal f env (daz env.daz f a) (sext 32 b)
      (putFmt o.fmt l o.vd r.1, r.2)) s

/-- The integral value that the mode selects (R110); `x` asks for `INX`. -/
def frintVal (f : Fmt) (x : Bool) (env : FEnv) (a : Nat) : Nat × Nat :=
  let v := decodeF f a
  match v with
  | .nan _ _ _ => nanResult f env [v] false
  | .inf _ => (a, 0)
  | .fin n m e =>
    let r := roundMag env n m e false 0
    if r.2 then ((roundFin f env n r.1 0 false).1, fIf x fINX) else (a, 0)

def execFrint (o : AOp) (s : State) : Outcome :=
  let f := o.fmt.element
  float1 o false (withDaz f fun env a _ _ => frintVal f o.x env a) s

def execFclass (o : AOp) (s : State) : Outcome :=
  let f := o.fmt.element
  aWord o false (some o.fmt.wide) none none (fun e l =>
    let a := e.val 0 o.fmt l o.va
    let r :=
      if o.fmt.isPacked then fclassMask f (elem16 a 0) + 2 ^ 16 * fclassMask f (elem16 a 1)
      else fclassMask f a
    (put1 l o.vd r, 0)) s

def execFcmp (o : COp) (s : State) : Outcome :=
  let f := o.fmt.element
  cWord o (fun e l =>
    let z := modeDaz e.g.mode
    let a := e.val 0 o.fmt l o.va
    let b := e.src 1 o.fmt l o.vb
    if o.fmt.isPacked then
      let one (j : Nat) : Bool × Nat := fcompare f o.cond o.sig (daz z f (elem16 a j)) (daz z f (elem16 b j))
      let r0 := one 0
      let r1 := one 1
      let el (t : Bool) : Nat := if t then (if o.x then 0xFFFF else 1) else 0
      (put1 l o.vd (pack16 (el r0.1) (el r1.1)), r0.2 ||| r1.2)
    else
      let r := fcompare f o.cond o.sig (daz z f a) (daz z f b)
      (put1 l o.vd (truth o.x r.1), r.2)) s

end Sys2Proof.Machine
end

