-- ==== Sys2Proof/Machine/Convert.lean ====
section
/-! DEFINITION. Conversions and reciprocal seeds (R114 to R117). -/

namespace Sys2Proof.Machine

open Sys2Proof

/-- One lane of `cvt` (R114, R115). -/
def cvtLane (o : CvtOp) : LaneFn := fun e l =>
  let env (sub : Nat) : FEnv := e.fenv o.rm o.sat l sub o.vd
  let a := e.val 0 o.src l o.va
  if o.src.isPacked && o.fmt.isPacked then
    let r0 := convert o.src.element o.fmt.element (env 0) (elem16 a 0)
    let r1 := convert o.src.element o.fmt.element (env 1) (elem16 a 1)
    (put1 l o.vd (pack16 r0.1 r1.1), r0.2 ||| r1.2)
  else if o.src.isPacked then
    let r := convert o.src.element o.fmt (env 0) (elem16 a (if o.x then 1 else 0))
    (put1 l o.vd r.1, r.2)
  else if o.fmt.isPacked then
    let c := e.reg1 2 l o.vc
    let r := convert o.src o.fmt.element (env (if o.x then 1 else 0)) a
    (put1 l o.vd (if o.x then pack16 (elem16 c 0) r.1 else pack16 r.1 (elem16 c 1)), r.2)
  else
    let r := convert o.src o.fmt (env 0) a
    (putFmt o.fmt l o.vd r.1, r.2)

def execCvt (o : CvtOp) (s : State) : Outcome :=
  let merge := o.fmt.isPacked && !o.src.isPacked
  let reads := span o.src.wide o.va :: (if merge then [span false o.vc] else [])
  word o.h 1 (span o.fmt.wide o.vd :: reads) reads (perLane o.k (cvtLane o)) s

/-- A seed word (R116). -/
def seedWord (o : AOp) (g : Fmt → FEnv → Nat → Nat × Nat) (s : State) : Outcome :=
  aWord o o.fmt.wide (some o.fmt.wide) none none (fun e l =>
    let r := g o.fmt (e.fenv .rne .off l 0 o.vd) (e.val 0 o.fmt l o.va)
    (putFmt o.fmt l o.vd r.1, r.2)) s

def execRcps (o : AOp) (s : State) : Outcome := seedWord o rcpsVal s
def execRsqs (o : AOp) (s : State) : Outcome := seedWord o rsqsVal s

end Sys2Proof.Machine
end

