-- ==== Sys2Proof/Machine/Cord.lean ====
section
/-! DEFINITION. The CORDIC unit (R118 to R120). Fixed-point numbers are integers in units of 2^-48. -/

namespace Sys2Proof.Machine

open Sys2Proof

/-- Tc[i] × 2^48 for i = 0 to 27 (R119; log entry 16). -/
def cordTc : List Nat :=
  [221069929750889, 130505199945453, 68955363498242, 35002819193903, 17569333089919, 8793231387230,
   4397688649582, 2198978517948, 1099506035422, 549755114839, 274877819563, 137438942549, 68719475371,
   34359738197, 17179869163, 8589934589, 4294967296, 2147483648, 1073741824, 536870912, 268435456,
   134217728, 67108864, 33554432, 16777216, 8388608, 4194304, 2097152]

/-- Th[i] × 2^48 for i = 1 to 26. -/
def cordTh : List Nat :=
  [154615934183448, 71892315276369, 35369361423710, 17615146374006, 8798958012631, 4398404477483,
   2199067996433, 1099517220233, 549756512940, 274877994325, 137438964395, 68719478101, 34359738539,
   17179869205, 8589934595, 4294967296, 2147483648, 1073741824, 536870912, 268435456, 134217728, 67108864,
   33554432, 16777216, 8388608, 4194304]

/-- Gc × 2^48 for n = 8 to 28 iterations. -/
def cordGc : List Nat :=
  [170928244491664, 170926940427575, 170926614411241, 170926532907138, 170926512531111, 170926507437105,
   170926506163603, 170926505845227, 170926505765634, 170926505745735, 170926505740761, 170926505739517,
   170926505739206, 170926505739128, 170926505739109, 170926505739104, 170926505739103, 170926505739102,
   170926505739102, 170926505739102, 170926505739102]

/-- Gh × 2^48 for n = 8 to 28 iterations. -/
def cordGh : List Nat :=
  [339876749050722, 339879342134209, 339879990404462, 339880152471986, 339880192988865, 339880203118085,
   339880205650390, 339880208182695, 339880208815771, 339880208974040, 339880209013607, 339880209023499,
   339880209025972, 339880209026590, 339880209026745, 339880209026783, 339880209026793, 339880209026795,
   339880209026796, 339880209026796, 339880209026796]

/-- floor(ln 2 × 2^400). -/
def ln2x400 : Nat :=
  1789879222497203190815761498240779176894896805856420935579692301363062920687047601279850318367644315849030039181347319086

/-- The hyperbolic sequence: 4 and 13 twice (R119). -/
def cordHseq : List Nat :=
  [1, 2, 3, 4, 4, 5, 6, 7, 8, 9, 10, 11, 12, 13, 13, 14, 15, 16, 17, 18, 19, 20, 21, 22, 23, 24, 25, 26]

inductive CordKind where
  | circular | linear | hyperbolic
  deriving DecidableEq, Repr

/-- `Sh(v, i)` of R119. -/
def cordSh (v : Int) (i : Nat) : Int := v / (2 ^ i : Int)

/-- One iteration with index i (R119); `rotate` picks the direction by z, otherwise by y. -/
def cordStep (kind : CordKind) (rotate : Bool) (i : Nat) (p : Int × Int × Int) : Int × Int × Int :=
  let x := p.1
  let y := p.2.1
  let z := p.2.2
  let d : Int := if rotate then (if 0 ≤ z then 1 else -1) else (if 0 ≤ y then -1 else 1)
  match kind with
  | .circular => (x - d * cordSh y i, y + d * cordSh x i, z - d * ((cordTc.getD i 0 : Nat) : Int))
  | .linear => (x, y + d * cordSh x i, z - d * ((2 ^ (48 - i) : Nat) : Int))
  | .hyperbolic => (x + d * cordSh y i, y + d * cordSh x i, z - d * ((cordTh.getD (i - 1) 0 : Nat) : Int))

/-- `Iterate` of R119 for n iterations. -/
def cordIterate (kind : CordKind) (rotate : Bool) (n : Nat) (p : Int × Int × Int) : Int × Int × Int :=
  let is := if kind == .hyperbolic then cordHseq.take n else natsFrom 0 n
  is.foldl (fun p i => cordStep kind rotate i p) p

/-- `Q` of R119: a finite value to the grid. -/
def cordQ (neg : Bool) (m : Nat) (e : Int) : Int := signed neg (roundMag FEnv.plain neg m e false (-48)).1

/-- Round a value of the grid 2^q once to f32 (R119); every iterated result sets `INX` (R120). -/
def cordOut (env : FEnv) (v : Int) (q : Int) (sticky : Bool) : Nat × Nat :=
  let r := roundFin .f32 env (decide (v < 0)) v.natAbs q sticky
  (r.1, r.2 ||| fINX)

def f32One : Nat := 0x3F800000

/-- The results and flags for canonical NaN in both results. -/
def cordNan : Nat × Nat × Nat := (canonicalNan .f32, canonicalNan .f32, fINV)

/-- Cosine and sine (cmode 0). -/
def cordSin (env : FEnv) (n a : Nat) : Nat × Nat × Nat :=
  match decodeF .f32 a with
  | .fin s m e =>
    if m == 0 then (f32One, a, 0)
    else if 0x3FC90FDB < a % 2 ^ 31 then cordNan
    else
      let p := cordIterate .circular true n ((cordGc.getD (n - 8) 0 : Nat), 0, cordQ s m e)
      let c := cordOut env p.1 (-48) false
      let d := cordOut env p.2.1 (-48) false
      (c.1, d.1, c.2 ||| d.2)
  | _ => cordNan

/-- Arctangent and magnitude (cmode 1). -/
def cordAtan (env : FEnv) (n a b : Nat) : Nat × Nat × Nat :=
  match decodeF .f32 a, decodeF .f32 b with
  | .fin sa ma ea, .fin sb mb eb =>
    if mb == 0 || sb then cordNan
    else if ma == 0 then (a, b, 0)
    else
      let e := max (ilog ma ea) (ilog mb eb)
      let p := cordIterate .circular false n (cordQ false mb (eb - e), cordQ sa ma (ea - e), 0)
      let t := cordOut env p.2.2 (-48) false
      let g := cordOut env (((cordGc.getD (n - 8) 0 : Nat) : Int) * p.1) (e - 96) false
      (t.1, g.1, t.2 ||| g.2)
  | _, _ => cordNan

/-- Quotient (cmode 2), the rows of R120 in their order. -/
def cordDiv (env : FEnv) (n a b : Nat) : Nat × Nat :=
  match decodeF .f32 a, decodeF .f32 b with
  | .fin sa ma ea, .fin sb mb eb =>
    let s := sa != sb
    if ma == 0 && mb != 0 then (signBit .f32 s, 0)
    else if mb == 0 && ma != 0 then (infBits .f32 s, fDZ)
    else if ma == 0 && mb == 0 then (canonicalNan .f32, fINV)
    else if cmpFin false ma ea false mb (eb + 1) != .lt then (canonicalNan .f32, fINV)
    else
      let e := ilog mb eb
      let p := cordIterate .linear false n (cordQ false mb (eb - e), cordQ s ma (ea - e), 0)
      cordOut env p.2.2 (-48) false
  | _, _ => (canonicalNan .f32, fINV)

/-- Exponential (cmode 3). From 4096 up every result overflows, from −4096 down it underflows. -/
def cordExp (env : FEnv) (n a : Nat) : Nat × Nat :=
  match decodeF .f32 a with
  | .inf s => (if s then 0 else infBits .f32 false, 0)
  | .fin s m e =>
    if m == 0 then (f32One, 0)
    else if 12 ≤ ilog m e then cordOut env (2 ^ 48) ((if s then -4096 else 4096) - 48) false
    else
      let x : Int := signed s (scaleTo m e (-149)) * ((2 ^ 251 : Nat) : Int)
      let l : Int := (ln2x400 : Nat)
      let k := (2 * x + l) / (2 * l)
      let z := x - k * l
      let p := cordIterate .hyperbolic true n ((cordGh.getD (n - 8) 0 : Nat), 0,
        cordQ (decide (z < 0)) z.natAbs (-400))
      cordOut env (p.1 + p.2.1) (k - 48) false
  | _ => (canonicalNan .f32, fINV)

/-- Natural logarithm (cmode 4). -/
def cordLn (env : FEnv) (n a : Nat) : Nat × Nat :=
  match decodeF .f32 a with
  | .inf s => if s then (canonicalNan .f32, fINV) else (a, 0)
  | .fin s m e =>
    if a == f32One then (0, 0)
    else if m == 0 then (infBits .f32 true, fDZ)
    else if s then (canonicalNan .f32, fINV)
    else
      let k := ilog m e
      let one : Int := (2 ^ 48 : Nat)
      let f := cordQ false m (e - k)
      let p := cordIterate .hyperbolic false n (f + one, f - one, 0)
      cordOut env (2 * p.2.2 * ((2 ^ 352 : Nat) : Int) + k * ((ln2x400 : Nat) : Int)) (-400) (k != 0)
  | _ => (canonicalNan .f32, fINV)

/-- Square root (cmode 5). -/
def cordSqrt (env : FEnv) (n a : Nat) : Nat × Nat :=
  match decodeF .f32 a with
  | .inf s => if s then (canonicalNan .f32, fINV) else (a, 0)
  | .fin s m e =>
    if m == 0 then (a, 0)
    else if s then (canonicalNan .f32, fINV)
    else
      let k := (ilog m e + 1) / 2
      let q : Int := (2 ^ 46 : Nat)
      let f := cordQ false m (e - 2 * k)
      let p := cordIterate .hyperbolic false n (f + q, f - q, 0)
      cordOut env (((cordGh.getD (n - 8) 0 : Nat) : Int) * p.1) (k - 96) false
  | _ => (canonicalNan .f32, fINV)

/-- Which modes read source B, and which write a pair (R118). -/
def cordTwoSources (c : BitVec 3) : Bool := c == 1 || c == 2
def cordPair (c : BitVec 3) : Bool := c == 0 || c == 1

/-- Both results and the flags of one lane. -/
def cordVal (c : BitVec 3) (n : Nat) (env : FEnv) (a b : Nat) : Nat × Nat × Nat :=
  let a := daz env.daz .f32 a
  let b := daz env.daz .f32 b
  let va := decodeF .f32 a
  let vb := decodeF .f32 b
  let srcs := if cordTwoSources c then [va, vb] else [va]
  if srcs.any FVal.isNan then
    let r := nanResult .f32 env srcs false
    (r.1, r.1, r.2)
  else
    let one (r : Nat × Nat) : Nat × Nat × Nat := (r.1, 0, r.2)
    match c.toNat with
    | 0 => cordSin env n a
    | 1 => cordAtan env n a b
    | 2 => one (cordDiv env n a b)
    | 3 => one (cordExp env n a)
    | 4 => one (cordLn env n a)
    | _ => one (cordSqrt env n a)

def execCord (o : KOp) (s : State) : Outcome :=
  let reads := span false o.va :: (if cordTwoSources o.cmode then [span false o.vb] else [])
  word o.h 1 (span (cordPair o.cmode) o.vd :: reads) reads (perLane o.k fun e l =>
    let r := cordVal o.cmode o.iter.toNat (e.fenv .rne .off l 0 o.vd) (e.reg1 0 l o.va) (e.reg1 1 l o.vb)
    (if cordPair o.cmode then putPair l o.vd (r.1 + 2 ^ 32 * r.2.1) else put1 l o.vd r.1, r.2.2)) s

end Sys2Proof.Machine
end

