-- ==== Sys2Proof/Machine/Cross.lean ====
section
/-! DEFINITION. Cross-lane operations (R121 to R124). -/

namespace Sys2Proof.Machine

open Sys2Proof

/-- A cross-lane word; source B, where there is one, is a 32-bit operand. -/
def xWord (o : XOp) (wd : Bool) (useB : Bool) (f : LaneFn) (s : State) : Outcome :=
  let reads := span o.fmt.wide o.va :: (if useB then srcSpan false o.vb else [])
  word o.h (srcLen o.vb) (span wd o.vd :: reads) reads (perLane o.k f) s

/-- The lane that `shfl` reads (R122). -/
def shflFrom (opr : BitVec 4) (l b : Nat) : Int :=
  match opr.toNat with
  | 0 => b
  | 1 => (l : Int) - b
  | 2 => (l : Int) + b
  | _ => ((l ^^^ b : Nat) : Int)

def execShfl (o : XOp) (s : State) : Outcome :=
  xWord o o.fmt.wide true (fun e l =>
    let b := e.src 1 .n32 l o.vb
    let j := shflFrom o.opr l b
    let res :=
      if 0 ≤ j && j < e.g.width && e.lanes.contains j.toNat then e.val 0 o.fmt j.toNat o.va
      else if o.x == 0 then e.val 0 o.fmt l o.va
      else 0
    (putFmt o.fmt l o.vd res, 0)) s

/-! ## Reduce and scan (R123) -/

/-- The exact sum of finite terms. -/
def sumFin (vs : List FVal) : Bool × Nat × Int :=
  vs.foldl (fun acc v =>
    match v with
    | .fin n m e => addFin acc.1 acc.2.1 acc.2.2 n m e false
    | _ => acc) (false, 0, 0)

/-- A float sum rounded once. -/
def foldFloatAdd (f : Fmt) (env : FEnv) (xs : List Nat) : Nat × Nat :=
  let vs := xs.map (decodeF f)
  let pos := vs.contains (.inf false)
  let neg := vs.contains (.inf true)
  if vs.any FVal.isNan then nanResult f env vs (pos && neg)
  else if pos && neg then nanResult f env vs true
  else if pos then (infBits f false, 0)
  else if neg then (infBits f true, 0)
  else
    let r := sumFin vs
    if r.2.1 == 0 then
      let allNeg := vs.all fun v => v.isZero && v.sign
      (signBit f (!vs.isEmpty && (allNeg || env.rm == .rdn)), 0)
    else roundFin f env r.1 r.2.1 r.2.2 false

/-- Minimum or maximum of all terms together (R30, log entry 20): `big` picks the greatest, `num` is the
Number family. No terms give the identity, an infinity. -/
def foldFloatPick (f : Fmt) (env : FEnv) (big num : Bool) (xs : List Nat) : Nat × Nat :=
  let vs := xs.map (decodeF f)
  let nan := vs.any FVal.isSnan || (!num && vs.any FVal.isNan)
  match xs.filter fun x => !(decodeF f x).isNan with
  | [] => if xs.isEmpty then (infBits f big, 0) else nanResult f env vs false
  | y :: ys =>
    if nan then nanResult f env vs false
    else (ys.foldl (fun a b => (minmax f env big true a b).1) y, 0)

/-- The combination of terms of a float element format. -/
def foldFloat (f : Fmt) (env : FEnv) (opr : Nat) (xs : List Nat) : Nat × Nat :=
  let zs := xs.map (daz env.daz f)
  match opr with
  | 0 => foldFloatAdd f env zs
  | 1 => foldFloatPick f env false false zs
  | 2 => foldFloatPick f env true false zs
  | 3 => foldFloatPick f env false true zs
  | _ => foldFloatPick f env true true zs

/-- The combination of terms of an integer format, as N bits. -/
def foldInt (f : Fmt) (opr : Nat) (xs : List Nat) : Nat :=
  let n := f.width
  let vs := xs.map (intVal f)
  match opr with
  | 0 => wrapN n (vs.foldl (· + ·) 0)
  | 1 => wrapN n (vs.foldl (fun a b => if b < a then b else a) (intMax f.isSigned n))
  | 2 => wrapN n (vs.foldl (fun a b => if a < b then b else a) (intMin f.isSigned n))
  | 5 => xs.foldl (· &&& ·) (2 ^ n - 1)
  | 6 => xs.foldl (· ||| ·) 0
  | _ => xs.foldl (· ^^^ ·) 0

/-- Combine register values of a format; packed elements by position. `env sub` is the rounding control. -/
def foldVals (f : Fmt) (env : Nat → FEnv) (opr : Nat) (xs : List Nat) : Nat × Nat :=
  if f.isInt then (foldInt f opr xs, 0)
  else if f.isPacked then
    let r0 := foldFloat f.element (env 0) opr (xs.map fun x => elem16 x 0)
    let r1 := foldFloat f.element (env 1) opr (xs.map fun x => elem16 x 1)
    (pack16 r0.1 r1.1, r0.2 ||| r1.2)
  else foldFloat f (env 0) opr xs

def execRed (o : XOp) (s : State) : Outcome :=
  xWord o o.fmt.wide false (fun e l =>
    let low := e.lanes.headD 0
    let r := foldVals o.fmt (fun sub => e.fenv .dyn .mode low sub o.vd) o.opr.toNat
      (e.lanes.map fun j => e.val 0 o.fmt j o.va)
    (putFmt o.fmt l o.vd r.1, r.2)) s

def execScan (o : XOp) (s : State) : Outcome :=
  xWord o o.fmt.wide false (fun e l =>
    let before := e.lanes.filter fun j => if o.x == 0 then decide (j ≤ l) else decide (j < l)
    let r := foldVals o.fmt (fun sub => e.fenv .dyn .mode l sub o.vd) o.opr.toNat
      (before.map fun j => e.val 0 o.fmt j o.va)
    (putFmt o.fmt l o.vd r.1, r.2)) s

/-! ## Masks and votes (R124) -/

/-- A lane mask. -/
def maskOf (lanes : List Nat) : Nat := lanes.foldl (fun a l => a ||| 2 ^ l) 0

def execBallot (o : XOp) (s : State) : Outcome :=
  xWord o o.fmt.wide false (fun e l =>
    let m := maskOf (e.lanes.filter fun j => e.val 0 o.fmt j o.va != 0)
    (if o.fmt.wide then putPair l o.vd m else put1 l o.vd m, 0)) s

def execAny (o : XOp) (s : State) : Outcome :=
  xWord o false false (fun e l =>
    (put1 l o.vd (if e.lanes.any fun j => e.val 0 o.fmt j o.va != 0 then 1 else 0), 0)) s

def execAll (o : XOp) (s : State) : Outcome :=
  xWord o false false (fun e l =>
    (put1 l o.vd (if e.lanes.all fun j => e.val 0 o.fmt j o.va != 0 then 1 else 0), 0)) s

def execMatchLanes (o : XOp) (s : State) : Outcome :=
  xWord o true false (fun e l =>
    (putPair l o.vd (maskOf (e.lanes.filter fun j => e.val 0 o.fmt j o.va == e.val 0 o.fmt l o.va)), 0)) s

end Sys2Proof.Machine
end

