-- ==== Sys2Proof/Machine/Access.lean ====
section
/-! DEFINITION. Class 3 at issue: `sptest`, `spcast`, loads, stores, full-empty operations (R145 to R152,
R154), with watchpoints (R346, R347). -/

namespace Sys2Proof.Machine

open Sys2Proof

/-! ## sptest, spcast (R145, R146) -/

/-- The result of `sptest` on a core. -/
def sptestVal (core p win : Nat) : Nat :=
  match windowOf p with
  | none => 7 + fIf (win == 7) 16
  | some w => w.code + fIf (!w.foreign core) 8 + fIf (w.code == win) 16

def execSptest (o : POp) (s : State) : Outcome :=
  word o.h 1 [span false o.vd, span true o.va] [span true o.va] (perLane o.k fun e l =>
    (put1 l o.vd (sptestVal e.core (e.pair 0 l o.va) o.win.toNat), 0)) s

def invalidAddress : Nat := 0xFF * 2 ^ 56

/-- A vault location as an any-vault address. -/
def vaultAddress (v off : Nat) : Nat := 0xA4 * 2 ^ 56 + v / 24 * 2 ^ 46 + v % 24 * 2 ^ 41 + off

/-- The vault location of an address of a vault window; a scratchpad only of the issuing core. -/
def toVault (p : Party) : Win → Option (Nat × Nat)
  | .spad c off => if c == p.core then some (clusterOf c, p.scratch.2.1 + off) else none
  | .clu c off => some (c, p.la.shared.1 + off)
  | .vault v off => some (v, off)
  | _ => none

/-- Convert a vault location to a window. -/
def fromVault (p : Party) (win v off : Nat) : Nat :=
  match win with
  | 2 =>
    if v == p.scratch.1 && p.scratch.2.1 ≤ off && off < p.scratch.2.1 + p.scratch.2.2 then
      0xA2 * 2 ^ 56 + p.core * 2 ^ 39 + (off - p.scratch.2.1)
    else invalidAddress
  | 3 =>
    if p.la.shared.1 ≤ off && off < p.la.shared.1 + p.la.shared.2 then
      0xA3 * 2 ^ 56 + v * 2 ^ 41 + (off - p.la.shared.1)
    else invalidAddress
  | 4 => vaultAddress v off
  | _ => invalidAddress

/-- The result of `spcast` to a window (R146); none where the sum leaves the result's offset field, for which
the spec states no value (log entry 22). -/
def spcastVal (p : Party) (a win : Nat) : Option Nat :=
  match windowOf a with
  | none => some invalidAddress
  | some w =>
    if w.code == win then some a
    else
      match w with
      | .priv off =>
        if win != 0 then some invalidAddress
        else if p.private0.1 + off < 2 ^ 56 then some (p.private0.1 + off) else none
      | .glob va =>
        if win == 1 && p.private0.1 ≤ va && va < p.private0.1 + p.private0.2 then
          some (0xA1 * 2 ^ 56 + (va - p.private0.1))
        else some invalidAddress
      | w =>
        if win < 2 then some invalidAddress
        else
          match toVault p w with
          | none => some invalidAddress
          | some (v, off) => if off < 2 ^ 24 then some (fromVault p win v off) else none

def execSpcast (o : POp) (s : State) : Outcome :=
  word o.h 1 [span true o.vd, span true o.va] [span true o.va] (perLane o.k fun e l =>
    match spcastVal (e.party l) (e.pair 0 l o.va) o.win.toNat with
    | some x => (putPair l o.vd x, 0)
    | none => ([(l, o.vd.toNat, freeVal e.free 4 l 0), (l, o.vd.toNat + 1, freeVal e.free 4 l 1)], 0)) s

/-! ## The path table (R371 to R373) -/

def nodeOf (pa : Nat) : Nat := bitsOf pa 49 40
def peerAddress (pa : Nat) : Nat := bitsOf pa 39 0

/-- The valid path entry of a fabric address in a path table; none raises `PROT` (R371). -/
def pathIn (paths : Option PathTable) (pa : Nat) : Option PathEntry :=
  match paths with
  | none => none
  | some t =>
    match t.entries[nodeOf pa]? with
    | none => none
    | some x => if x.valid && nodeOf pa != t.own && peerAddress pa < 0xC000000000 then some x else none

/-- The valid path entry of a fabric address in the table in force. -/
def State.pathOf (s : State) (pa : Nat) : Option PathEntry := pathIn s.pathTable pa

/-- Does a target lie on another node? -/
def isFabric (target : Nat) : Bool := !isVaultKey target && paKind target == .fabric

/-- The port to a fabric target by the path table in force, which a word's checks read (R340, R372). -/
def State.portOf (s : State) (target : Nat) : Nat :=
  if isFabric target then ((s.pathOf target).map (·.port)).getD 0 else 0

/-- The checks of R148 with those of the fabric (R371). -/
def State.checkAccess (s : State) (p : Party) (who ea n align : Nat) (write fe : Bool) : Chk :=
  match s.checkAddress p who ea n align write fe with
  | .ok t nc fill =>
    if !isVaultKey t && paKind t == .fabric && (s.pathOf t).isNone then .bad cPROT else .ok t nc fill
  | r => r

/-! ## Watchpoints at issue (R346, R347) -/

/-- The bytes of a granule that n bytes at a target touch, as a mask. -/
def byteMask (granule target n : Nat) : Nat :=
  maskOf ((natsFrom 0 16).filter fun i => target ≤ granule * 16 + i && granule * 16 + i < target + n)

/-- The watchpoints of a context that an access of some kind matches, given as its pieces (target, bytes): indices, and the
bytes of the access in the granule, which R348's example reports under a narrower watch mask. -/
def State.watchHits (s : State) (ctx kind : Nat) (parts : List (Nat × Nat)) : List (Nat × Watch × Nat) :=
  s.watch.filterMap fun p =>
    let m := (parts.map fun x => byteMask p.2.granule x.1 x.2).foldl (· ||| ·) 0
    if p.2.enable && p.2.ctx == ctx && p.2.kinds.toNat.testBit kind && m &&& p.2.mask.toNat != 0 then some (p.1, p.2, m)
    else none

/-- The match that an access reports: one that stops comes before one that only reports (log entry 59). -/
def State.watchParts (s : State) (ctx kind : Nat) (parts : List (Nat × Nat)) : Option (Nat × Watch × Nat) :=
  let hits := s.watchHits ctx kind parts
  match hits.find? fun h => h.2.1.stop with
  | some h => some h
  | none => hits.head?

/-- The match of an access in one piece. -/
def State.watchHit (s : State) (ctx kind target n : Nat) : Option (Nat × Watch × Nat) := s.watchParts ctx kind [(target, n)]

/-- A `WATCH` record (R348): `wp` is 8 × die + index. -/
def State.watchRecord (s : State) (gk tag ident bits : Nat) (pos : Word) (addr : Dword) (lane wp mask col : Nat) :
    FaultRec :=
  { (s.record gk 1 cWATCH ident bits tag pos addr lane 0) with
    row := BitVec.ofNat 32 (wp % 8 + wp / 8 * 8 + mask * 256),
    col := BitVec.ofNat 32 col }

/-- The precise matches of a word's lanes: (lane, address, watchpoint, stops, mask). A word that a watchpoint has stopped
is not matched again (R343). -/
def State.watchLanes (s : State) (e : Env) (kind n : Nat) (ls : List LaneAcc) : List (LaneAcc × Nat × Bool × Nat) :=
  if e.skips 0x400 then []
  else ls.filterMap fun a => (s.watchHit e.la.ctx kind a.target n).map fun h => (a, h.1, h.2.1.stop, h.2.2)

/-! ## Access words -/

/-- The address of a lane: its pair advanced within the window by source B (R148). -/
def Env.ea (e : Env) (lane : Nat) (va : Reg) (vb : Src) : Nat :=
  addressAdd false (e.pair 0 lane va) (sext 32 (e.src 1 .n32 lane vb))

inductive LanesChk where
  | ok (ls : List LaneAcc) (fill : List TlbEntry)
  | bad (f : WFault)
  | unresolved (lane : Nat) (addr : Dword)
  deriving DecidableEq, Repr

/-- Check the lanes of a word in ascending order until one fails (R148). `mk` makes a lane's access from its
address, target and whether it bypasses the cache; `more` is a further check of the target. -/
def checkLanes (chk : Nat → Nat → Chk) (ea : Nat → Nat) (more : Nat → Nat → Nat → Option Nat)
    (mk : Nat → Nat → Nat → Bool → LaneAcc) : List Nat → LanesChk
  | [] => .ok [] []
  | l :: rest =>
    let a := ea l
    match chk l a with
    | .bad c => .bad ⟨c, 0, l, BitVec.ofNat 64 a, 0, fIf (c == cECCFATAL) 1⟩
    | .unresolved => .unresolved l (BitVec.ofNat 64 a)
    | .ok t nc fill =>
      match more l a t with
      | some c => .bad ⟨c, 0, l, BitVec.ofNat 64 a, 0, 0⟩
      | none =>
        match checkLanes chk ea more mk rest with
        | .ok ls fs => .ok (mk l a t nc :: ls) (fill ++ fs)
        | r => r

/-- Which counter a kind of access counts in (R154). -/
def AccKind.isLoad : AccKind → Bool
  | .ld | .lds | .fetest | .aadd | .amin | .amax | .aand | .aor | .axor | .aexch | .acas | .afadd => true
  | _ => false

def AccKind.isAtomic : AccKind → Bool
  | .aadd | .amin | .amax | .aand | .aor | .axor | .aexch | .acas | .afadd => true
  | _ => false

/-- The registers of a destination of n bytes. -/
def regsFor (n : Nat) : Nat := (n + 3) / 4

/-- Raise a counter of R154. -/
def Group.countUp (g : Group) (k : AccKind) : Group :=
  if k.isLoad then { g with loads := g.loads + 1 } else { g with stores := g.stores + 1 }

/-- Append an access in issue order; its destinations follow R84. -/
def Group.addAccess (g : Group) (a : Access) : Group :=
  let g := a.dests.foldl Group.supersede g
  { g with ops := g.ops ++ [a] }

/-- Issue an access word whose lanes have passed their checks: watchpoints, then the counter and the window.
`n` is its size in bytes, `regs` its destination registers. -/
def issueAccess (e : Env) (s : State) (a : Access) (watchKind : Option Nat) (ls : List LaneAcc)
    (fill : List TlbEntry) (regs : List Nat) : Res :=
  let hits :=
    match watchKind with
    | some k => s.watchLanes e k a.size ls
    | none => []
  let mkRec (h : LaneAcc × Nat × Bool × Nat) : FaultRec :=
    s.watchRecord e.gk e.run.tag 0 0 (e.g.pos e.run.tag) h.1.ea h.1.lane h.2.1 h.2.2.2 a.size
  match hits.find? fun h => h.2.2.1 with
  | some h => .watch (mkRec h)
  | none =>
    let s :=
      match hits with
      | h :: _ => s.addRecord (mkRec h)
      | [] => s
    let dests := ls.flatMap fun x => regs.map fun r => regKey x.depth.toNat x.lane r
    .ok ((s.fillTlb fill).onGroup e.gk fun g =>
      let g := if e.lanes.isEmpty then g
        else (g.addAccess { a with lanes := ls, dests := dests }).countUp a.kind
      g.pushWindow (if regs.isEmpty then winEntry [] else winAsync regs e.lanes))

/-- A counter that stands at 255 holds the word at issue (R154). -/
def Group.counterFull (g : Group) (k : AccKind) : Bool :=
  if k.isLoad then 255 ≤ g.loads else 255 ≤ g.stores

/-- The new access of a word. -/
def newAccess (e : Env) (kind : AccKind) (size : Nat) (fmt : Fmt) (order scope : Nat) (rmt : Bool) (fe vd : Nat)
    (wd lit : Dword) : Access :=
  { id := e.g.issued, kind := kind, size := size, fmt := fmt, order := order, scope := scope, rmt := rmt, fe := fe,
    vd := vd, lanes := [], dests := [], stale := [], flags := 0, complete := false, watched := none, pos := e.g.pos e.run.tag,
    word := wd, lit := lit }

/-- A lane's access before it is performed. -/
def laneAcc (lane : Nat) (depth : BitVec 8) (ea target : Nat) (nc : Bool) (data cmp port : Nat) : LaneAcc :=
  ⟨lane, depth, BitVec.ofNat 64 ea, target, nc, data, cmp, false, false, false, 0, port⟩

/-- The literal that a source B stands for. -/
def litOf : Src → Dword
  | .reg _ => 0
  | .lit _ v => v

/-- A load, store or full-empty word: its size in bytes, whether it writes, and the registers read for data. -/
def accessWord (o : MOp) (kind : AccKind) (self : Instr) (s : State) : Outcome :=
  let feOp := kind == .fetest || kind == .feset || kind == .feclr
  let n := if feOp then 16 else 2 ^ o.size.toNat
  let write := kind == .st || kind == .feset || kind == .feclr
  let dest := !write
  let dn := if kind == .fetest then 1 else regsFor n
  let dataRegs := if kind == .st then [(o.vc.toNat, dn)] else []
  let reads := span true o.va :: srcSpan false o.vb ++ dataRegs
  let regs := (if dest then [(o.vd.toNat, dn)] else []) ++ reads
  let fe := o.fe.toNat
  word o.h (srcLen o.vb) regs reads (fun e s =>
    let data (l : Nat) : Nat :=
      (natsFrom 0 dn).foldl (fun a j => a + (e.reg 2 l (o.vc.toNat + j)).toNat * 2 ^ (32 * j)) 0
    match checkLanes (fun l a => s.checkAccess (e.party l) e.core a n n write (feOp || fe != 0))
        (fun l => e.ea l o.va o.vb) (fun _ _ _ => none)
        (fun l a t nc => laneAcc l (e.g.lane l).depth a t nc (if kind == .st then data l % 2 ^ (8 * n) else 0) 0 (s.portOf t))
        e.lanes with
    | .bad f => .bad f
    | .unresolved l a => .park l a (fIf write 1)
    | .ok ls fill =>
      if e.g.counterFull kind && !e.lanes.isEmpty then .stall
      else
        issueAccess e s
          (newAccess e kind n .n32 o.order.toNat o.scope.toNat o.rmt (if feOp then 0 else fe) o.vd.toNat
            self.encode.1 (litOf o.vb))
          (some (if write then 0 else 3)) ls fill (if dest then natsFrom o.vd.toNat dn else [])) s

def execLd (o : MOp) (s : State) : Outcome := accessWord o .ld (.ld o) s
def execLds (o : MOp) (s : State) : Outcome := accessWord o .lds (.lds o) s
def execSt (o : MOp) (s : State) : Outcome := accessWord o .st (.st o) s
def execFeset (o : MOp) (s : State) : Outcome := accessWord o .feset (.feset o) s
def execFeclr (o : MOp) (s : State) : Outcome := accessWord o .feclr (.feclr o) s
def execFetest (o : MOp) (s : State) : Outcome := accessWord o .fetest (.fetest o) s

end Sys2Proof.Machine
end

