-- ==== Sys2Proof/Machine/Perform.lean ====
section
/-! DEFINITION. Performing the outstanding accesses of a group (R149 to R153, R288, R291 to R296, R306 to
R313, R373, R374): which may be performed next, and what it does. -/

namespace Sys2Proof.Machine

open Sys2Proof

/-! ## Order (R149, R150, R151, R296) -/

def Access.isFence (a : Access) : Bool := a.kind == .fence

/-- Does the access acquire (R306), and at which scope (R151)? -/
def Access.acquires (a : Access) : Bool :=
  (a.kind.isLoad && (a.order == 1 || a.order == 3)) || a.fe != 0 && a.kind.isLoad

def Access.releases (a : Access) : Bool := !a.isFence && (a.order == 2 || a.order == 3)

/-- The scope that a lane's access acts at: a private access acts at group scope (R150); a blocking load at
cluster or wider (R151). -/
def Access.scopeAt (a : Access) (x : LaneAcc) : Nat :=
  if x.ea.toNat / 2 ^ 56 == 0xA1 then 0
  else if a.fe != 0 && a.kind.isLoad then max a.scope 2 else a.scope

/-- Have all lanes been performed? -/
def Access.performed (a : Access) : Bool := if a.isFence then a.complete else a.lanes.all (·.done)

/-- Do two accesses of n and m bytes overlap? -/
def overlap (a n b m : Nat) : Bool := decide (a < b + m) && decide (b < a + n)

/-- The scope that the cache's release or acquire action of a lane runs at: a full-empty bit set with release, and a
`fetest` that acquires, synchronise whatever their scopes (R312). -/
def Access.actScope (a : Access) (x : LaneAcc) : Nat :=
  if a.kind == .feset || a.kind == .fetest || (a.kind == .st && a.fe == 1) then max (a.scopeAt x) 2 else a.scopeAt x

/-- May lane access `x` of `a` be performed, given the earlier access `b` of its group? Lanes of one number keep their
order on overlapping bytes (R149); any lane of a later word sees an earlier atomic's step (R291). -/
def orderedBefore (b a : Access) (x : LaneAcc) : Bool :=
  if b.performed then true
  else if b.isFence then false
  else if b.kind == .evsig then true
  else if b.acquires then false
  else if a.releases then false
  else !b.lanes.any fun y =>
    (y.lane == x.lane || b.kind.isAtomic) && !y.done && overlap y.target b.size x.target a.size

/-- The accesses of a group before one of an id. -/
def Group.before (g : Group) (id : Nat) : List Access := g.ops.filter fun b => decide (b.id < id)

/-- Is an access a load that its group's stop withdraws (R153, R328)? -/
def Access.withdrawn (a : Access) : Bool :=
  !a.complete && (a.kind == .ld || a.kind == .lds || a.kind == .fetest)

/-- The accesses of a group before one of an id that hold it back: the loads of a stopped group are withdrawn, and its
other accesses complete before its save (R153; DEDUCED, log entry 12). -/
def Group.ahead (g : Group) (id : Nat) : List Access :=
  (g.before id).filter fun b => !(g.halt.isSome && b.withdrawn)

/-- Does a tile operation hold back a later access of its group: a `wld` that acquires (R222), or a transfer
of the same lane that overlaps it (R233)? -/
def TileOp.holdsBack (t : TileOp) (lane target n : Nat) : Bool :=
  !t.complete &&
    match t.kind with
    | .wld _ _ full _ => full
    | .xfer _ _ _ fmt _ _ ls =>
      ls.any fun y => y.lane == lane && y.elems.any fun p => overlap p.target (fmt.width / 8) target n
    | .mma _ _ _ _ => false

/-- Has a tile operation accesses of its group (R305) that are not performed? -/
def TileOp.accesses (t : TileOp) : Bool :=
  !t.complete &&
    match t.kind with
    | .wld _ _ _ _ => true
    | .xfer _ _ _ _ _ _ ls => ls.any fun x => !x.elems.isEmpty
    | .mma _ _ _ _ => false

/-- Are the accesses of a group's tile operations before a point performed? -/
def Group.tilesDone (g : Group) (point : Nat) : Bool := g.tiles.all fun t => !(decide (t.id < point) && t.accesses)

/-- Do the tile operations of a group let a lane of an access be performed? -/
def Group.tilesLet (g : Group) (a : Access) (x : LaneAcc) : Bool :=
  g.tiles.all (fun t => !(decide (t.id < a.id) && t.holdsBack x.lane x.target a.size)) &&
    (!a.releases || g.tilesDone a.id)

/-- May a lane of an access be performed? One that a saved group still has waits for its return (log entry 12). -/
def Group.mayPerform (g : Group) (a : Access) (x : LaneAcc) : Bool :=
  !g.saved && (g.ahead a.id).all (fun b => orderedBefore b a x) && g.tilesLet a x

/-- The next lane of an access: the lowest one not performed (R149). -/
def Access.next (a : Access) : Option LaneAcc := a.lanes.find? fun x => !x.done

/-- Is every access before a point of the issue order performed (R313)? A fence and an `evsig` are none. -/
def Group.settled (g : Group) (point : Nat) : Bool :=
  (g.before point).all fun b => b.isFence || b.kind == .evsig || b.performed

/-- The same but for the loads that a stop has withdrawn (R153). -/
def Group.settledRest (g : Group) (point : Nat) : Bool :=
  (g.ahead point).all fun b => b.isFence || b.kind == .evsig || b.performed

/-- Are the loads, stores, atomics and full-empty operations before a point performed (R204)? -/
def Group.settledMem (g : Group) (point : Nat) : Bool :=
  (g.before point).all fun b => b.isFence || b.kind == .evsig || b.kind == .launch || b.performed

def Group.access (g : Group) (id : Nat) : Option Access := g.ops.find? fun a => a.id == id

def Group.onAccess (g : Group) (id : Nat) (f : Access → Access) : Group :=
  { g with ops := g.ops.map fun a => if a.id == id then f a else a }

def Access.onLane (a : Access) (lane : Nat) (f : LaneAcc → LaneAcc) : Access :=
  { a with lanes := a.lanes.map fun x => if x.lane == lane then f x else x }

/-! ## Deliveries -/

/-- Lower a counter of R154. -/
def Group.countDown (g : Group) (k : AccKind) : Group :=
  if k.isLoad then { g with loads := g.loads - 1 } else { g with stores := g.stores - 1 }

/-- Data for a register arrives: in the bank, or, for a frame that is spilled, beside it until the refill (R196). Where the
frame has been released or cut below the register meanwhile, the data is dropped; a frame made anew at the depth takes it
(DESIGN CHOICE, log entry 66). -/
def Group.arrivePut (g : Group) (depth lane reg : Nat) (v : Word) : Group :=
  { g with frames := g.frames.update depth fun f =>
      if f.size ≤ reg then f
      else match f.place with
      | .spilled _ _ _ => { f with late := f.late.put (lane * 256 + reg) v }
      | _ => { f with regs := f.regs.put (lane * 256 + reg) v } }

/-- A lane is performed: its registers are written unless a later word superseded them (R84), its flags join
the word's, and a word all of whose lanes are done completes (R154). -/
def Group.deliver (g : Group) (id lane : Nat) (regs : List Word) (flags : Nat) : Group :=
  match g.access id with
  | none => g
  | some a =>
    match a.lanes.find? fun x => x.lane == lane with
    | none => g
    | some x =>
      let d := x.depth.toNat
      let g := (mapIdxFrom a.vd (fun r v => (r, v)) regs).foldl (fun g w =>
        if a.stale.contains (regKey d lane w.1) then g else
          let key := regKey d lane w.1
          let g := g.arrivePut d lane w.1 w.2
          { g with dirty := key :: g.dirty.filter (· != key), windowOnly := g.windowOnly.filter (· != key) }) g
      let a' := { a.onLane lane (fun x => { x with done := true, queued := false }) with
        flags := a.flags ||| BitVec.ofNat 32 flags }
      let fin := a'.performed
      let g := g.onAccess id fun _ => { a' with complete := fin }
      if fin then g.countDown a.kind else g

/-- The words of a number. -/
def wordsFrom (x n : Nat) : List Word := (natsFrom 0 n).map fun i => BitVec.ofNat 32 (x / 2 ^ (32 * i))

/-- The core and slot of a group. -/
def State.seat (s : State) (g : Group) : Nat × Nat := (((s.teams.find g.team).map (·.core)).getD 0, g.slot)

/-- Bytes of a vault were read or written for a context (R349). -/
def State.countVault (s : State) (ctx target n : Nat) : State :=
  if isVaultKey target then s.count ctx 12 n else s

/-- A deferred fault of an access lane: `ECC_FATAL` (R249, R287) or a port's `ENGINE` (R383). The lane is
taken as done; its destination is not written. -/
def State.accessFault (s : State) (gk : Nat) (a : Access) (x : LaneAcc) (code cause : Nat) (port : Bool) : State :=
  (s.onGroup gk fun g => g.deliver a.id x.lane [] 0).deferFault gk a.pos ⟨code, cause, x.lane, x.ea, 0, 0⟩ port
    0 0 0 none

/-- An uncorrectable error is found at a home: the line is poisoned (R287), the granule of a vault keeps it (log entry
14). -/
def State.spoilHome (s : State) (target n : Nat) : State :=
  if isFabric target then s
  else if isVaultKey target then
    { s with latent := { s.latent with granules := dedup (s.latent.granules ++ granulesOf target n) } }
  else
    let l := s.liveKey target / 128 * 128
    { s with poison := if s.poison.contains l then s.poison else l :: s.poison }

/-- An access meets an uncorrectable error, one that its home finds now (`.error`) or one that stood there. -/
def State.eccAccess (s : State) (gk : Nat) (a : Access) (x : LaneAcc) (reply : Reply) : State :=
  (if reply == .error then s.spoilHome x.target a.size else s).accessFault gk a x cECCFATAL 0 false

/-- Is a port down (R383)? -/
def State.portDown (s : State) (port : Nat) : Bool := s.portsDown.contains port

/-- The group of an access met an uncorrectable error in a dirty byte that its release or acquire wrote back (R289). -/
def State.actionFault (s : State) (gk : Nat) (a : Access) (x : LaneAcc) (bad : Option Nat) : State :=
  match bad with
  | none => s
  | some _ => s.deferFault gk a.pos ⟨cECCFATAL, 0, x.lane, x.ea, 0, 0⟩ false 0 0 0 none

/-- The dirty byte with an error that an action at a scope meets. -/
def State.actionBad (s : State) (core scope : Nat) : Option Nat := if 2 ≤ scope then s.dirtyBad core else none

/-! ## Loads -/

/-- What a lane's read gives: the state after it, the bytes, and whether an acquire found a mismatch. -/
inductive Got where
  | data (s : State) (bytes : List Byte) (miss : Bool)
  | wait
  | ecc
  | port (cause : Nat)
  deriving DecidableEq, Repr

/-- Does an acquire at a scope read a mismatched release among n bytes at a home (R309)? -/
def State.missAt (s : State) (key n core slot : Nat) : Option Nat → Bool
  | some sc => (granulesOf key n).any fun i => mismatched (s.granAt i) sc core slot
  | none => false

/-- Read n bytes at a home, with the check of an acquire (R309) at a scope. -/
def State.readHome (s : State) (target n core slot : Nat) (acq : Option Nat) : Got :=
  let r := s.home target
  if r.1.poisoned r.2 n then .ecc
  else .data (r.1.correctHome r.2 n) (r.1.readBytes r.2 n) (r.1.missAt r.2 n core slot acq)

/-- Is an acquire at a scope mismatched with the release that a peer's home reports (R309, R375)? Only a system
instance holds both parties. -/
def remoteMiss (acquires : Bool) (scope : Nat) : Option (BitVec 3) → Bool
  | some sc => acquires && !(scope == 5 && sc == 5)
  | none => false

/-- Read n bytes through a core's cache; an acquire that misses there is checked at the home. -/
def State.readCached (s : State) (target n core slot : Nat) (acq : Option Nat) : Got :=
  if s.hitsBadDirty core target n then .ecc
  else
    let s := s.dropBadClean core target n
    let hit := s.cacheHit core target n
    if !hit && s.poisoned (s.liveKey target) n then .ecc
    else
      let h := s.home target
      let r := s.cacheLoad core target n
      .data r.1 r.2 (!hit && h.1.missAt h.2 n core slot acq)

/-- Read a lane's bytes (R150, R288): a fabric peer's answer, the home, or the core's cache. -/
def State.readLane (s : State) (a : Access) (x : LaneAcc) (core slot : Nat) (reply : Reply) : Got :=
  let sc := a.scopeAt x
  let s := if a.acquires then s.acquireAction core (a.actScope x) else s
  let feSync := a.fe != 0 || a.kind == .fetest
  let acq := if a.acquires && !feSync then some sc else none
  if isFabric x.target then
    match reply with
    | .bytes bs tag =>
      if s.portDown x.port then .port 0x70
      else if bs.length == a.size then .data s bs (remoteMiss a.acquires sc tag) else .wait
    | .refused => .port 0x72
    | .error => .ecc
    | .plain => if s.portDown x.port then .port 0x70 else .wait
  else if reply == .error then .ecc
  else if reply != .plain then .wait
  else if isVaultKey x.target || x.nc || (a.acquires && 2 ≤ sc) then s.readHome x.target a.size core slot acq
  else s.readCached x.target a.size core slot acq

/-- The register words of a load from its bytes (R147). -/
def loadWords (k : AccKind) (bs : List Byte) : List Word :=
  let v := ofLeBytes bs
  let n := bs.length
  if k == .lds then [BitVec.ofNat 32 (wrapN 32 (sext (8 * n) v))] else wordsFrom v (regsFor n)

/-- A promotion that the lane still needs before it is performed (R311): the owner core. -/
def State.promotionOf (s : State) (a : Access) (x : LaneAcc) (core : Nat) : Option Nat :=
  if a.rmt && a.acquires && !x.promoted && !isFabric x.target then
    let k := if isVaultKey x.target then x.target else s.liveKey x.target
    ((granulesOf k a.size).filterMap fun i => (s.granAt i).owner).find? fun o => o != core
  else none

/-- Does a lane's plain load or store go through its core's cache (R288)? -/
def Access.cached (a : Access) (x : LaneAcc) : Bool :=
  !isFabric x.target && !isVaultKey x.target && !x.nc && !((a.acquires || a.releases) && 2 ≤ a.scopeAt x)

/-- The dirty byte with an error that a lane's load or store meets in its core's cache: at its release or acquire action, or
where its line makes room (R289). -/
def State.cacheMeets (s : State) (a : Access) (x : LaneAcc) (core : Nat) : Option Nat :=
  (if a.acquires || a.releases then s.actionBad core (a.actScope x) else none).or
    (if a.cached x then s.allocBad core x.target else none)

/-- Does a selection job own a byte of a home until its completion (R279)? Its own reads are not meant, and those of its
group's earlier words come before the job. -/
def State.ownedByte (s : State) (gk id key : Nat) : Bool :=
  s.selQ.any fun q => q.2.jobs.any fun j =>
    !(j.gk == gk && (j.id == id || (id < j.id && !j.started))) && j.owned.any fun r => decide (r.1 ≤ key) && decide (key < r.1 + r.2)

/-- What a word of a group, or an agent that is no group, reads at a home: bytes that a selection job owns are undefined
(R279). -/
def State.veil (s : State) (gk id key : Nat) (bs : List Byte) : State × List Byte :=
  if (natsFrom key bs.length).any (s.ownedByte gk id) then
    ({ s with free := s.free + 1 }, mapIdxFrom 0 (fun i b =>
      if s.ownedByte gk id (key + i) then (freeVal s.free 12 (i / 512 % 64) (i % 512)).setWidth 8 else b) bs)
  else (s, bs)

/-- Perform a lane of a load or `fetest`. -/
def State.performLoad (s : State) (gk : Nat) (g : Group) (a : Access) (x : LaneAcc) (reply : Reply) : State :=
  let seat := s.seat g
  if (s.promotionOf a x seat.1).isSome then s
  else
    let bad := s.cacheMeets a x seat.1
    match s.readLane a x seat.1 seat.2 reply with
    | .wait => s
    | .ecc => s.eccAccess gk a x reply
    | .port c => s.accessFault gk a x cENGINE c true
    | .data s' bs miss =>
      let k := if isVaultKey x.target then x.target else s'.liveKey x.target
      let (s', bs) := s'.veil gk a.id k bs
      let full := (s'.granAt (k / 16)).full
      let words := if a.kind == .fetest then [if full then 1 else 0] else loadWords a.kind bs
      let s' :=
        if a.fe == 2 then s'.setGran (k / 16) { (s'.granAt (k / 16)) with full := false } else s'
      let s' := s'.clearLatent ((natsFrom a.vd words.length).map (latentReg gk x.depth.toNat x.lane))
      ((s'.onGroup gk fun g => g.deliver a.id x.lane words (fIf miss fSCOPEMISS)).countVault (s.ctxOf g) x.target
        (if a.kind == .fetest then 0 else a.size)).actionFault gk a x bad

/-- The lanes of a blocking load that are not performed enter the vaults' queues, in ascending order (R252). -/
def State.enqueueWord (s : State) (gk : Nat) (a : Access) : State :=
  let todo := a.lanes.filter fun x => !x.done
  let s := s.onGroup gk fun g => g.onAccess a.id fun a =>
    { a with lanes := a.lanes.map fun x => if x.done then x else { x with queued := true } }
  { s with feQ := s.feQ ++ todo.map fun x => ⟨x.target / 16, .lane gk a.id x.lane, a.fe == 2⟩ }

/-- LOAD_DATA_ARRIVAL: the next lane of a load word reads its home, or a blocking word reaches its vaults. A load of a
stopped group is withdrawn (R153). A full-empty load that waits does not stall its group's later words: so says R151, while
R189's last row lists it among the stalls (DEDUCED, log entry 68). -/
def execLoadDataArrival (gk id : Nat) (reply : Reply) (s : State) : Outcome :=
  match s.group gk with
  | none => .next s
  | some g =>
    match g.access id with
    | none => .next s
    | some a =>
      if !(a.kind == .ld || a.kind == .lds || a.kind == .fetest) || g.saved || g.halt.isSome then .next s
      else
        match a.next with
        | none => .next s
        | some x =>
          if x.queued || !g.mayPerform a x then .next s
          else if a.fe == 0 then .next (s.performLoad gk g a x reply)
          else if reply == .error then .next (s.eccAccess gk a x .error)
          else
            let gran := x.target / 16
            if (s.granAt gran).full && !(s.feQ.any fun w => w.granule == gran) then
              .next (s.performLoad gk g a x .plain)
            else .next (s.enqueueWord gk a)

/-! ## Stores and full-empty operations -/

/-- Write bytes at a home with the tag of R308: a release sets it, a plain write clears its scope. -/
def State.writeHome (s : State) (target : Nat) (bs : List Byte) (rel : Option (Releaser × Nat)) : State :=
  let r := s.home target
  let s := r.1.write r.2 bs
  let gs := granulesOf r.2 bs.length
  match rel with
  | some (who, sc) => s.tagRelease gs who sc
  | none => s.tagPlain gs

/-- Write bytes at a home for an agent that R308's table does not list: the tags stay as they are. -/
def State.writeQuiet (s : State) (target : Nat) (bs : List Byte) : State :=
  let r := s.home target
  r.1.write r.2 bs

/-- Perform a lane of a store, `feset` or `feclr`. -/
def State.performStore (s : State) (gk : Nat) (g : Group) (a : Access) (x : LaneAcc) (reply : Reply) : State :=
  let seat := s.seat g
  let core := seat.1
  let sc := a.scopeAt x
  let bad := s.cacheMeets a x core
  let s := if a.releases then s.releaseAction core (a.actScope x) else s
  let rel : Option (Releaser × Nat) := if a.releases then some (.group core seat.2, sc) else none
  let done (s : State) : State :=
    ((s.onGroup gk fun g => g.deliver a.id x.lane [] 0).countVault (s.ctxOf g) x.target
      (if a.kind == .st then a.size else 0)).actionFault gk a x bad
  if isFabric x.target then
    match reply with
    | .refused => s.accessFault gk a x cENGINE 0x72 true
    | _ => if s.portDown x.port then s.accessFault gk a x cENGINE 0x70 true else done s
  else if a.kind == .st then
    let bs := leBytes x.data a.size
    if isVaultKey x.target then
      let s := s.writeHome x.target bs rel
      done (if a.fe == 1 then s.setGran (x.target / 16) { (s.granAt (x.target / 16)) with full := true } else s)
    else if x.nc then done (s.writeHome x.target bs rel)
    else if a.releases && 2 ≤ sc then done ((s.writeHome x.target bs rel).cacheUpdate core x.target bs)
    else if a.releases then
      let s := s.cacheStore core x.target true bs
      let k := s.liveKey x.target
      done ((granulesOf k a.size).foldl (fun s i => s.setGran i { (s.granAt i) with
        rel := some (.group core seat.2, sc), owner := some core }) s)
    else done (s.cacheStore core x.target false bs)
  else
    let i := x.target / 16
    let s := if a.releases then s.tagRelease [i] (.group core seat.2) sc else s
    done (s.setGran i { (s.granAt i) with full := a.kind == .feset })

/-! ## Fences (R296) -/

/-- Are the accesses that a fence waits for performed? -/
def Group.fenceReady (g : Group) (a : Access) : Bool :=
  (g.ahead a.id).all fun b =>
    b.performed ||
      (if b.isFence then false else b.kind == .evsig || (a.order == 1 && !b.kind.isLoad))

/-- STORE_PERFORMED: the next lane of a store or full-empty word, or a fence. -/
def execStorePerformed (gk id : Nat) (reply : Reply) (s : State) : Outcome :=
  match s.group gk with
  | none => .next s
  | some g =>
    match g.access id with
    | none => .next s
    | some a =>
      if a.isFence then
        if a.complete || !g.fenceReady a then .next s
        else
          let core := (s.seat g).1
          let bad := s.actionBad core a.scope
          let s := if a.order == 1 || a.order == 3 then s.acquireAction core a.scope else s.releaseAction core a.scope
          .next ((s.onGroup gk fun g => g.onAccess id fun a => { a with complete := true }).actionFault gk a
            (laneAcc 0 0 0 0 false 0 0 0) bad)
      else if !(a.kind == .st || a.kind == .feset || a.kind == .feclr) then .next s
      else
        match a.next with
        | none => .next s
        | some x => if g.mayPerform a x then .next (s.performStore gk g a x reply) else .next s

/-! ## CACHE_PROMOTION (R311) -/

/-- Core o writes back every dirty byte; the home clears the owner; tags of releasers on core o at group or
core scope become package scope. -/
def State.promote (s : State) (o : Nat) (grans : List Nat) : State :=
  let s := s.writeBack o fun _ => true
  let s := grans.foldl (fun s i => s.setGran i { (s.granAt i) with owner := none }) s
  { s with gran := s.gran.map fun p =>
      match p.2.rel with
      | some (.group c k, sc) =>
        if c == o && sc ≤ 1 then (p.1, { p.2 with rel := some (.group c k, 4) }) else p
      | _ => p }

def execCachePromotion (gk id : Nat) (s : State) : Outcome :=
  match s.group gk with
  | none => .next s
  | some g =>
    match g.access id with
    | none => .next s
    | some a =>
      match a.next with
      | none => .next s
      | some x =>
        if !g.mayPerform a x then .next s
        else
          match s.promotionOf a x (s.seat g).1 with
          | none => .next s
          | some o =>
            let k := if isVaultKey x.target then x.target else s.liveKey x.target
            .next ((s.promote o (granulesOf k a.size)).onGroup gk fun g =>
              g.onAccess id fun a => a.onLane x.lane fun x => { x with promoted := true })

end Sys2Proof.Machine
end

