-- ==== Sys2Proof/Machine/Atomic.lean ====
section
/-! DEFINITION. Atomics and ordered adds (R290 to R295) and the giving of full granules to waiters (R252). -/

namespace Sys2Proof.Machine

open Sys2Proof

/-- The new memory value and flags of an atomic (R290, R293). -/
def atomicNew (k : AccKind) (f : Fmt) (old b c : Nat) : Nat × Nat :=
  let n := f.width
  let less := decide (intVal f old ≤ intVal f b)
  match k with
  | .aadd => ((old + b) % 2 ^ n, 0)
  | .amin => (if less then old else b, 0)
  | .amax => (if less then b else old, 0)
  | .aand => (old &&& b, 0)
  | .aor => (old ||| b, 0)
  | .axor => (old ^^^ b, 0)
  | .aexch => (b, 0)
  | .acas => (if old == c then b else old, 0)
  | .afadd =>
    let va := decodeF f old
    let vb := decodeF f b
    addVal f FEnv.plain [va, vb] va vb
  | _ => (old, 0)

/-- Is an atomic carried on the path to its target (R292, R373)? -/
def State.carried (s : State) (k : AccKind) (f : Fmt) (target : Nat) : Bool :=
  if isVaultKey target then true
  else
    match paKind target with
    | .host => k == .aadd || k == .aexch || k == .acas
    | .fabric =>
      match s.pathOf target with
      | none => false
      | some x =>
        if k == .afadd then f == .f32 && x.f32add
        else if f.wide then x.int64 else x.int32
    | _ => true

/-- The further checks of R291 in their order: `ofadd` only on HBM through the global window; the path must
carry the op; the page or heap must have W. -/
def State.atomicMore (s : State) (p : Party) (k : AccKind) (f : Fmt) (ea target : Nat) : Option Nat :=
  let n := f.width / 8
  if k == .ofadd && (ea / 2 ^ 56 != 0 || isVaultKey target || paKind target != .hbm) then some cPROT
  else if k != .ofadd && !s.carried k f target then some cATOMPATH
  else
    match s.checkAccess p p.core ea n n true false with
    | .bad c => some c
    | _ => none

/-- Does the watchpoint check of an atomic belong to its issue: is its home on the issuing core's die (R347)? -/
def homeDie (target : Nat) : Option Nat :=
  if isVaultKey target then some (dieOfVault (vaultOfKey target))
  else if paKind target == .hbm then some (dieOfStack (stackOf target)) else none

/-- An atomic word (R291). -/
def atomicWord (o : TOp) (kind : AccKind) (self : Instr) (s : State) : Outcome :=
  let n := o.fmt.width / 8
  let w := o.fmt.wide
  let dest := kind != .ofadd
  let useC := kind == .acas
  let reads := span true o.va :: srcSpan w o.vb ++ (if useC then [span w o.vc] else [])
  let dn := if w then 2 else 1
  let regs := (if dest then [(o.vd.toNat, dn)] else []) ++ reads
  word o.h (srcLen o.vb) regs reads (fun e s =>
    let seqOf (l : Nat) : Nat := (e.g.lane l).seq.toNat
    match checkLanes (fun l a => s.checkAccess (e.party l) e.core a n n false false)
        (fun l => e.pair 0 l o.va) (fun l a t => s.atomicMore (e.party l) kind o.fmt a t)
        (fun l a t nc => laneAcc l (e.g.lane l).depth a t nc (e.src 1 o.fmt l o.vb)
          (if useC then e.val 2 o.fmt l o.vc else if kind == .ofadd then seqOf l else 0) (s.portOf t))
        e.lanes with
    | .bad f => .bad f
    | .unresolved l a => .park l a 1
    | .ok ls fill =>
      if e.g.counterFull kind && !e.lanes.isEmpty then .stall
      else
        let here := ls.filter fun x => homeDie x.target == some (dieOf e.core)
        let s' :=
          if kind == .ofadd then
            s.onGroup e.gk fun g => g.onLanes fun i l =>
              if e.lanes.contains i then { l with seq := l.seq + 1 } else l
          else s
        let a := newAccess e kind n o.fmt o.order.toNat o.scope.toNat o.rmt 0 o.vd.toNat self.encode.1 (litOf o.vb)
        let hits := if kind == .ofadd then [] else s.watchLanes e 1 n here
        let mkRec (h : LaneAcc × Nat × Bool × Nat) : FaultRec :=
          s.watchRecord e.gk e.run.tag 0 0 (e.g.pos e.run.tag) h.1.ea h.1.lane h.2.1 h.2.2.2 n
        match hits.find? fun h => h.2.2.1 with
        | some h => .watch (mkRec h)
        | none =>
          let s' :=
            match hits with
            | h :: _ => s'.addRecord (mkRec h)
            | [] => s'
          issueAccess e s' a none ls fill (if dest then natsFrom o.vd.toNat dn else [])) s

def execAadd (o : TOp) (s : State) : Outcome := atomicWord o .aadd (.aadd o) s
def execAmin (o : TOp) (s : State) : Outcome := atomicWord o .amin (.amin o) s
def execAmax (o : TOp) (s : State) : Outcome := atomicWord o .amax (.amax o) s
def execAand (o : TOp) (s : State) : Outcome := atomicWord o .aand (.aand o) s
def execAor (o : TOp) (s : State) : Outcome := atomicWord o .aor (.aor o) s
def execAxor (o : TOp) (s : State) : Outcome := atomicWord o .axor (.axor o) s
def execAexch (o : TOp) (s : State) : Outcome := atomicWord o .aexch (.aexch o) s
def execAcas (o : TOp) (s : State) : Outcome := atomicWord o .acas (.acas o) s
def execAfadd (o : TOp) (s : State) : Outcome := atomicWord o .afadd (.afadd o) s
def execOfadd (o : TOp) (s : State) : Outcome := atomicWord o .ofadd (.ofadd o) s

/-! ## ATOMIC_PERFORMED -/

/-- An imprecise watchpoint match of an atomic at a home on another die (R347): the record, and a stop at the
end of the current run, or once a group that is stopped already goes on. A word posts one record, for its first matching
lane (R348); a later lane's match that stops is answered through that record, while it waits for its answer. -/
def State.watchAtomic (s : State) (gk : Nat) (g : Group) (a : Access) (x : LaneAcc) : State :=
  match homeDie x.target with
  | none => s
  | some d =>
    if d == dieOf (s.seat g).1 then s
    else
      match s.watchHit (s.ctxOf g) 1 x.target a.size with
      | none => s
      | some h =>
        let src := dieOf (s.seat g).1
        let r := { (s.watchRecord gk g.lastTag (6 * 32 + src) 6 a.pos x.ea x.lane h.1 h.2.2 a.size) with
          cause := BitVec.ofNat 8 (6 * 32 + src) }
        let posted := a.watched.filter fun x => s.records.contains x || s.posted.contains x
        let s := if a.watched.isSome && (posted.isSome || !h.2.1.stop) then s
          else (s.addRecord r).onGroup gk fun g => g.onAccess a.id fun a => { a with watched := some r }
        let r := posted.getD r
        let held := match g.halt with
          | some h => h.code == r.code && h.time == r.time
          | none => false
        if !h.2.1.stop || g.stopNext.isSome || held then s
        else
          let s := s.onGroup gk fun g => { g with stopNext := some r }
          if s.holdsRun gk then s else s.takeOwed gk

/-- One lane's indivisible step at the home (R291); a peer's atomic unit performs a remote one, with the flags of R293
(R373). -/
def State.performAtomic (s : State) (gk : Nat) (g : Group) (a : Access) (x : LaneAcc) (reply : Reply) : State :=
  let seat := s.seat g
  let core := seat.1
  let sc := a.scopeAt x
  if (s.promotionOf a x core).isSome then s
  else
    let bad := (if a.releases || a.acquires then s.actionBad core sc else none).or
      (if isFabric x.target || isVaultKey x.target then none else s.lineBad core fun pa => pa / 128 == x.target / 128)
    let s := if a.releases then s.releaseAction core sc else s
    let s := if a.acquires then s.acquireAction core sc else s
    let give (s : State) (old flags : Nat) : State :=
      let s := s.clearLatent ((natsFrom a.vd (regsFor a.size)).map (latentReg gk x.depth.toNat x.lane))
      ((s.onGroup gk fun g => g.deliver a.id x.lane (wordsFrom old (regsFor a.size)) flags).countVault
        (s.ctxOf g) x.target a.size).actionFault gk a x bad
    if isFabric x.target then
      match reply with
      | .bytes bs tag =>
        if s.portDown x.port then s.accessFault gk a x cENGINE 0x70 true
        else if bs.length != a.size then s
        else
          let old := ofLeBytes bs
          give s old ((atomicNew a.kind a.fmt old x.data x.cmp).2 ||| fIf (remoteMiss a.acquires sc tag) fSCOPEMISS)
      | .refused => s.accessFault gk a x cENGINE 0x72 true
      | .error => s.accessFault gk a x cECCFATAL 0 false
      | .plain => if s.portDown x.port then s.accessFault gk a x cENGINE 0x70 true else s
    else if reply == .error then s.eccAccess gk a x .error
    else
      let s :=
        if isVaultKey x.target then s
        else s.invalidate core fun pa => pa / 128 == x.target / 128
      let acq := if a.acquires then some sc else none
      match s.readHome x.target a.size core seat.2 acq with
      | .ecc => s.accessFault gk a x cECCFATAL 0 false
      | .data s bs miss =>
        let (s, bs) := s.veil gk a.id (s.home x.target).2 bs
        let r := atomicNew a.kind a.fmt (ofLeBytes bs) x.data x.cmp
        let t := s.home x.target
        let s := t.1.write t.2 (leBytes r.1 a.size)
        let s :=
          if a.order == 2 || a.order == 3 then s.tagRelease (granulesOf t.2 a.size) (.group core seat.2) sc else s
        give (s.watchAtomic gk g a x) (ofLeBytes bs) (r.2 ||| fIf miss fSCOPEMISS)
      | _ => s

/-- ATOMIC_PERFORMED: the next lane of an atomic. -/
def execAtomicPerformed (gk id : Nat) (reply : Reply) (s : State) : Outcome :=
  match s.group gk with
  | none => .next s
  | some g =>
    match g.access id with
    | none => .next s
    | some a =>
      if !a.kind.isAtomic then .next s
      else
        match a.next with
        | none => .next s
        | some x => if g.mayPerform a x then .next (s.performAtomic gk g a x reply) else .next s

/-! ## Ordered adds (R294, R295) -/

/-- Contributions that a base die's buffer holds. -/
def State.buffered (s : State) (stack : Nat) : Nat :=
  (s.launches.vals.map fun l =>
    (l.contribs.filter fun c => c.area.isNone && stackOf c.addr == stack).length).foldl (· + ·) 0

/-- The home key of the next record of a launch's ordered-add spill area, when there is room. -/
def State.orderedArea (s : State) (l : Launch) (core : Nat) : Option Nat :=
  if field l.record 0x38 8 < (l.spillRecords + 1) * 32 then none
  else
    match s.translate l.ctx core (field l.record 0x30 8 + l.spillRecords * 32) with
    | .ok pa w _ _ => if w then some (s.liveKey pa) else none
    | _ => none

/-- Record one lane's contribution: in the buffer, in the spill area, or nowhere (R295). -/
def State.contribute (s : State) (gk : Nat) (g : Group) (tm : Team) (la : Launch) (a : Access) (x : LaneAcc) : State :=
  let c : Contribution := ⟨(gk, a.id), x.target, x.ea, tm.t, g.gidx, x.lane, x.cmp, a.fmt, x.data, none⟩
  let add (s : State) (c : Contribution) (more : Nat) : State :=
    s.onLaunch tm.launch fun l =>
      { l with contribs := l.contribs ++ [c], spillRecords := l.spillRecords + more,
               flagsOr := if more == 0 then l.flagsOr else l.flagsOr ||| BitVec.ofNat 32 fORDSPILL }
  if s.buffered (stackOf x.target) < 2 ^ 20 then
    (add s c 0).onGroup gk fun g => g.deliver a.id x.lane [] 0
  else
    match s.orderedArea la tm.core with
    | some key =>
      let s := s.write key ((natsFrom 0 32).map fun j => (freeVal s.free 9 0 j).setWidth 8)
      let s := { s with free := s.free + 1 }
      (add s { c with area := some (key, s.seq) } 1).onGroup gk fun g => g.deliver a.id x.lane [] fORDSPILL
    | none =>
      s.onGroup gk fun g =>
        (g.onAccess a.id fun a => a.onLane x.lane fun x => { x with value := 1 }).deliver a.id x.lane [] 0

/-- ORDERED_ADD_BUFFERED: the next lane of an `ofadd`; a word with a lost lane stops its group once all its
lanes are done. -/
def execOrderedAddBuffered (gk id : Nat) (s : State) : Outcome :=
  match s.group gk with
  | none => .next s
  | some g =>
    match g.access id, s.moduleOf g with
    | some a, some (tm, la, _) =>
      if a.kind != .ofadd then .next s
      else
        match a.next with
        | none => .next s
        | some x =>
          if !g.mayPerform a x then .next s
          else
            let bad := if a.order == 2 then s.actionBad tm.core (a.scopeAt x) else none
            let s := if a.order == 2 then s.releaseAction tm.core (a.scopeAt x) else s
            let s := (s.contribute gk g tm la a x).actionFault gk a x bad
            match (s.group gk).bind fun g => g.access id with
            | none => .next s
            | some a' =>
              match (if a'.complete then a'.lanes.find? fun y => y.value == 1 else none) with
              | none => .next s
              | some y =>
                .next (s.deferFault gk a'.pos ⟨cENGINE, 0x41, y.lane, y.ea, 0, 0⟩ true 0 0 0 none)
    | _, _ => .next s

/-- The order of keys (R294). -/
def keyLe (a b : Contribution) : Bool :=
  decide (a.t < b.t) || (a.t == b.t && (decide (a.gidx < b.gidx) || (a.gidx == b.gidx &&
    (decide (a.lane < b.lane) || (a.lane == b.lane && decide (a.seq ≤ b.seq))))))

/-- A group key that no group has, for records about none. -/
def noGroup : Nat := 2 ^ 128

/-- Was the spill record of a contribution written since (R295)? -/
def State.overwritten (s : State) (c : Contribution) : Bool :=
  match c.area with
  | none => false
  | some (k, since) => s.writtenSince k 32 since

/-- Apply one contribution at its home: x := Round(x + c, RNE), no flag. `told` are the words that have posted their
watchpoint record (R348). -/
def State.applyOne (s : State) (l : Launch) (told : List (Nat × Nat)) (c : Contribution) : State × List (Nat × Nat) :=
  let n := c.fmt.width / 8
  let r := s.home c.addr
  let s := r.1
  if s.poisoned r.2 n then (s, told)
  else
    let s := s.correctHome r.2 n
    let s := s.writeNum r.2 n (atomicNew .afadd c.fmt (s.readNum r.2 n) (c.value % 2 ^ c.fmt.width) 0).1
    match s.watchHit l.ctx 1 c.addr n with
    | none => (s, told)
    | some h =>
      if told.contains c.word then (s, told)
      else
        (s.addRecord { (s.watchRecord noGroup 0 (5 * 32) 6 0 c.ea 0 h.1 h.2.2 n) with launch := l.id }, c.word :: told)

/-- The final value at an address is undefined (R295). -/
def State.freeResult (s : State) (c : Contribution) : State :=
  let n := c.fmt.width / 8
  let r := s.home c.addr
  if r.1.poisoned r.2 n then r.1
  else
    { (r.1.writeNum r.2 n ((freeVal r.1.free 9 1 0).toNat + 2 ^ 32 * (freeVal r.1.free 9 1 1).toNat)) with
      free := r.1.free + 1 }

/-- ORDERED_ADD_APPLY: every team of the launch has retired; each address takes its contributions in key
order. Where software wrote the spill record of one, the final value is undefined. -/
def execOrderedAddApply (launch : Nat) (s : State) : Outcome :=
  match s.launches.find launch with
  | none => .next s
  | some l =>
    if l.applied || l.ended || !l.started || l.teamsRetired != l.teams then .next s
    else
      let lost := l.contribs.filter s.overwritten
      let s := ((sortBy keyLe l.contribs).foldl (fun r c => r.1.applyOne l r.2 c) (s, ([] : List (Nat × Nat)))).1
      let s := lost.foldl State.freeResult s
      .next (s.onLaunch launch fun l => { l with applied := true, contribs := [] })

end Sys2Proof.Machine
end

