-- ==== Sys2Proof/Machine/Sync.lean ====
section
/-! DEFINITION. `wait`, fences and team barriers (R154, R155, R202 to R206, R296). -/

namespace Sys2Proof.Machine

open Sys2Proof

/-! ## Accumulator rows (R227) -/

/-- The lanes of an `mma` whose A registers were written after it and before a `wait` covered it (R227); where it
follows an `mma` with `reuse`, one such register spoils all its rows (R228). -/
def TileOp.overLanes (o : TileOp) : List Nat :=
  match o.kind with
  | .mma _ _ whole _ => if whole && !o.stale.isEmpty then o.lanes else dedup (o.stale.map fun k => k / 256 % 64)
  | _ => []

/-- An uncovered `mma` no longer holds what a later tile operation writes. -/
def TileOp.giveUp (t : TileOp) (cell : Nat) : TileOp :=
  match t.kind with
  | .mma entry cols whole gone =>
    if t.complete && !gone.contains cell && t.lanes.any (fun l => t.base + l == cell / 128) then
      { t with kind := .mma entry cols whole (cell :: gone) }
    else t
  | _ => t

/-- Write an accumulator column. -/
def State.accWrite (s : State) (team row col : Nat) (w : Word) : State :=
  let cell := row * 128 + col
  let s := s.onTeam team fun tm => { tm with acc := if w == 0 then tm.acc.del cell else tm.acc.put cell w }
  let s := (s.teamGroups team).foldl (fun s k => s.onGroup k fun g =>
    { g with tiles := g.tiles.map fun t => t.giveUp cell }) s
  let name := team * 65536 + cell
  { s with latent := { s.latent with
      accs := s.latent.accs.filter (· != name), accs1 := s.latent.accs1.filter (· != name) } }

/-- The cells of a row that a complete `mma` leaves undefined, because a register it read from was written since (R227),
as far as no later tile operation has written them. -/
def TileOp.undefCells (t : TileOp) (row : Nat) : List Nat :=
  match t.kind with
  | .mma _ cols _ gone =>
    if t.complete && (t.overLanes.filter t.lanes.contains).any fun l => t.base + l == row then
      ((natsFrom 0 cols).map fun c => row * 128 + c).filter fun c => !gone.contains c
    else []
  | _ => []

/-- The undefined cells of a row take free values. -/
def State.settleRow (s : State) (team row : Nat) : State :=
  let cells := dedup ((s.teamGroups team).flatMap fun k =>
    ((s.group k).map fun g => g.tiles.flatMap fun t => t.undefCells row).getD [])
  if cells.isEmpty then s
  else
    let s' := cells.foldl (fun (x : State) c => x.accWrite team row (c % 128) (freeVal s.free 10 0 (c % 128))) s
    { s' with free := s'.free + 1 }

/-- The rows that a covered `mma` leaves undefined (R227). -/
def State.lateRows (s : State) (g : Group) : State :=
  (g.tiles.filter (·.complete)).foldl (fun s t =>
    (t.overLanes.filter t.lanes.contains).foldl (fun s l => s.settleRow g.team (t.base + l)) s) s

/-! ## wait (R155) -/

/-- The flags that a tile operation applies; a row that R227 leaves undefined applies none (R266). -/
def TileOp.allFlags (o : TileOp) : Word :=
  (o.rowFlags.filter fun p => !o.overLanes.contains p.1).foldl (fun a p => a ||| p.2) o.flags

/-- A `wait` covers every asynchronous operation of the group that has completed: its flags are applied, its
destinations become readable. -/
def Group.cover (g : Group) : Group :=
  let done := g.ops.filter (·.complete)
  let tiles := g.tiles.filter (·.complete)
  let f := done.foldl (fun a o => a ||| o.flags) (tiles.foldl (fun a o => a ||| o.allFlags) g.engFlags)
  { g with ops := g.ops.filter (fun o => !o.complete), tiles := g.tiles.filter (fun o => !o.complete),
           engFlags := 0, flags := g.flags ||| f }

def execWait (h : Hdr) (ld st eng tile : BitVec 6) (s : State) : Outcome :=
  word h 1 [] [] (fun e s =>
    if e.g.limitsMet ld.toNat st.toNat eng.toNat tile.toNat then .ok ((s.lateRows e.g).noWrite e Group.cover)
    else .hold (.wait ld.toNat st.toNat eng.toNat tile.toNat) s) s

/-! ## fence (R296) -/

/-- A fence enters the group's issue order; it counts in no counter. -/
def execFence (h : Hdr) (order : BitVec 2) (scope : BitVec 3) (s : State) : Outcome :=
  word h 1 [] [] (fun e s =>
    .ok (s.noWrite e fun g => { g with
      ops := g.ops ++ [newAccess e .fence 0 .n32 order.toNat scope.toNat false 0 0 0 0] })) s

/-! ## Barriers (R202 to R205) -/

/-- `arrive`: every slice of the gang is armed; the point before which accesses must be performed is kept. -/
def execArrive (h : Hdr) (bar : BitVec 4) (s : State) : Outcome :=
  word h 1 [] [] (fun e s =>
    let q := bar.toNat
    .ok (s.noWrite e fun g =>
      (g.onSlices e.slices.contains fun x => { x with armed := x.armed ||| BitVec.ofNat 16 (2 ^ q) }).noteArrival e.tm q)) s

def execBwait (h : Hdr) (bar : BitVec 4) (s : State) : Outcome :=
  word h 1 [] [] (fun e s =>
    if e.g.armedOn e.slices bar.toNat then .hold (.bwait bar.toNat) s else .ok (s.noWrite e id)) s

/-- The record of a saved group follows its armed bits and waiting arrivals (R204, R334). -/
def State.noteArmed (s : State) (gk : Nat) : State :=
  match s.group gk, s.teams.find (gk / 16) with
  | some g, some tm =>
    if g.saved then
      let a := tm.frame + groupArea g.gidx
      (mapIdxFrom 0 (fun i x => (i, x)) g.slices).foldl (fun s p =>
        s.writeQuiet (a + 0x10A + 64 * p.1) (leBytes p.2.armed.toNat 2))
        (s.writeQuiet (a + 0x16) (leBytes (maskOf (g.arrivals.map (·.1))) 2))
    else s
  | _, _ => s

/-- `Complete(q)`: the phase ends, the armed bits of every slice of the team are cleared. -/
def State.completeBarrier (s : State) (team q : Nat) : State :=
  let s := s.onTeam team fun tm =>
    { tm with barriers := tm.barriers.put q ⟨(tm.barrier q).phase + 1, 0, 0⟩ }
  (s.teamGroups team).foldl (fun s k => (s.onGroup k fun g =>
    { g with slices := g.slices.map (fun x => { x with armed := x.armed &&& ~~~(BitVec.ofNat 16 (2 ^ q)) }),
             arrivals := g.arrivals.filter fun p => p.1 != q }).noteArmed k) s

/-- The phase completes when every group that has not retired has arrived. -/
def State.checkBarrier (s : State) (team q : Nat) : State :=
  match s.teams.find team with
  | none => s
  | some tm =>
    let n := (tm.barrier q).count.toNat
    if n != 0 && (s.teamGroups team).length ≤ n then s.completeBarrier team q else s

/-- A group's arrival takes effect. -/
def State.countArrival (s : State) (gk : Nat) (g : Group) (q : Nat) : State :=
  (s.onTeam g.team fun tm =>
    let b := tm.barrier q
    { tm with barriers := tm.barriers.put q
                ⟨b.phase, b.count + 1, b.groups ||| BitVec.ofNat 16 (2 ^ g.gidx)⟩ }).onGroup gk fun g =>
      { g with arrivals := g.arrivals.filter fun p => p.1 != q }

/-- BARRIER_ARRIVAL_SETTLE: `Settle(G, q)` once the accesses before its point are performed. -/
def execBarrierArrivalSettle (gk bar : Nat) (s : State) : Outcome :=
  match s.group gk with
  | none => .next s
  | some g =>
    match g.arrivals.find? fun p => p.1 == bar with
    | none => .next s
    | some p =>
      if g.halt.isSome || g.saved || !g.settledMem p.2 then .next s
      else .next ((s.countArrival gk g bar).checkBarrier g.team bar)

end Sys2Proof.Machine
end

