-- ==== Sys2Proof/Machine/Special.lean ====
section
/-! DEFINITION. Special state, breakpoints and regions (R156 to R159). -/

namespace Sys2Proof.Machine

open Sys2Proof

/-- The count of the i-th loop from the outermost; 0 when there is none (R87). -/
def loopCount (x : Slice) (i : Nat) : Nat := ((x.loops[i]?).map fun e => e.count.toNat).getD 0

/-- The resident slot that `sx.team` reads: that of the team's group 0 (R180). -/
def sidVal (e : Env) (time : Dword) (l : Nat) : Sid → Nat
  | .lane => l
  | .slice => l / 4
  | .group => e.g.gidx
  | .team => e.tm.snum
  | .core => e.core
  | .cluster => clusterOf e.core
  | .die => dieOf e.core
  | .gridx => (gridOf e.la.record e.tm.t).1
  | .gridy => (gridOf e.la.record e.tm.t).2.1
  | .gridz => (gridOf e.la.record e.tm.t).2.2
  | .blk => (e.g.lane l).blk.toNat
  | .depth => (e.g.lane l).depth.toNat
  | .flags => e.g.flags.toNat
  | .mode => e.g.mode.toNat
  | .time => time.toNat
  | .lc0 => loopCount (e.g.slice (l / 4)) 0
  | .lc1 => loopCount (e.g.slice (l / 4)) 1
  | .lc2 => loopCount (e.g.slice (l / 4)) 2

def execMovs (h : Hdr) (k : Bool) (vd : Reg) (sid : Sid) (s : State) : Outcome :=
  let wide := sid == .time
  word h 1 [span wide vd] [] (fun e s =>
    perLane k (fun e l =>
      (if wide then putPair l vd (sidVal e s.time l sid) else put1 l vd (sidVal e s.time l sid), 0)) e s) s

/-- `movsm`: source B of the lowest active lane, with the fates of R28 and R29. -/
def execMovsm (h : Hdr) (sid : Sid) (vb : Src) (s : State) : Outcome :=
  word h (srcLen vb) (srcSpan false vb) (srcSpan false vb) (fun e s =>
    match e.lanes with
    | [] => .ok (s.noWrite e id)
    | l :: _ =>
      let v := BitVec.ofNat 32 (e.src 1 .n32 l vb)
      .ok (s.noWrite e fun g =>
        if sid == .mode then { g with mode := modeFate v } else { g with flags := flagsFate v })) s

/-- `brkpt` stops the group after the word when the launch has breakpoints enabled (R158). Where the word is a single
step, or a watchpoint's stop lands at its end, that stop alone is reported (DESIGN CHOICE, log entry 59). -/
def execBrkpt (h : Hdr) (imm : BitVec 8) (s : State) : Outcome :=
  wordAt h 1 none [] [] (fun e s' =>
      let s'' := s'.retire e h 1
      if e.lanes.isEmpty || !e.la.breaks then s''
      else
        match s''.group e.gk with
        | some g => if g.halt.isSome then s'' else s''.takeStop e.gk e.run.tag imm.toNat e.la.ctx (e.g.pos e.run.tag) none
        | none => s'')
    (fun e s => .ok (s.noWrite e id)) s

/-- `enter` (R159): push; a full stack loses its bottom entry. The stack's head is its top. -/
def execEnter (h : Hdr) (id : BitVec 16) (s : State) : Outcome :=
  wordAt h 1 (some id) [] [] (fun e s' => s'.retire e h 1) (fun e s =>
    .ok (s.noWrite e fun g =>
      if e.lanes.isEmpty then g
      else { g with regions := (id :: g.regions).take 8, regOverflow := g.regOverflow || 8 ≤ g.regions.length })) s

/-- The stack after a `leave`. -/
def leaveRegions (rs : List (BitVec 16)) (id : BitVec 16) : List (BitVec 16) :=
  if rs.contains id then (rs.dropWhile (· != id)).drop 1 else rs

def execLeave (h : Hdr) (id : BitVec 16) (s : State) : Outcome :=
  wordAt h 1 (some id) [] [] (fun e s' => s'.retire e h 1) (fun e s =>
    .ok (s.noWrite e fun g =>
      if e.lanes.isEmpty then g else { g with regions := leaveRegions g.regions id })) s

end Sys2Proof.Machine
end

