-- ==== Sys2Proof/Machine/Tile.lean ====
section
/-! DEFINITION. Crews, the operand-ready fence, weight loads (R218, R221 to R225), accumulator blocks (R207,
R234), accumulator transfers (R232, R233) and the core error log (R235, R236). -/

namespace Sys2Proof.Machine

open Sys2Proof

/-! ## The record of a saved group (R334) -/

/-- How a group's record names its stop (R334): its third byte, and the last fault code. -/
def stopBytes (g : Group) : List Byte :=
  let why := g.halt.map (·.why)
  leBytes (1 + fIf (why == some .park) 2 + fIf g.swapped 4 + fIf (why == some .debug) 8 + fIf (why == some .fault) 16) 1 ++
    leBytes g.lastFault.toNat 1

/-- How a group's record holds its counters (R334). -/
def counterBytes (g : Group) : List Byte :=
  leBytes g.loads 1 ++ leBytes g.stores 1 ++ leBytes g.engine 1 ++ leBytes g.tile 1

/-- The record of a saved group follows its stop and its counters (R334, R384). -/
def State.noteSaved (s : State) (gk : Nat) : State :=
  match s.group gk, s.teams.find (gk / 16) with
  | some g, some tm =>
    if g.saved then
      let a := tm.frame + groupArea g.gidx
      (s.writeQuiet (a + 2) (stopBytes g)).writeQuiet (a + 0x0C) (counterBytes g)
    else s
  | _, _ => s

/-! ## crew, fence.opr (R218, R225) -/

/-- Does x name a legal crew for a group? -/
def State.crewOk (s : State) (tm : Team) (team gidx x : Nat) : Bool :=
  let named := (natsFrom 0 16).filter fun i => x.testBit i
  x < 2 ^ 16 && (x == 0 || (x.testBit gidx && 2 ≤ named.length && named.length ≤ 6 &&
    named.all fun i => decide (i < tm.p + tm.c) && (s.group (gkOf team i)).isSome))

/-- `fence.opr`: registers whose data has been covered are in the banks; what is still outstanding is not. -/
def execFenceOpr (h : Hdr) (s : State) : Outcome :=
  word h 1 [] [] (fun e s =>
    .ok (s.noWrite e fun g => { g with fencePt := g.issued + 1, dirty := g.dirty.filter g.uncovered })) s

/-! ## Registers that tile operations read for addresses and masks -/

/-- A register that a tile operation reads for its address or mask: an uncorrectable error there raises nothing (R235),
and the spec gives it no value then (log entry 30). -/
def State.tileReg (s : State) (e : Env) (lane reg : Nat) : Word :=
  if (e.bankNames lane [(reg, 1)]).any s.latent.regs.contains then freeVal e.free 0 lane reg else e.reg 0 lane reg

/-- The address pair of a lane of a tile operation. -/
def State.tilePair (s : State) (e : Env) (lane : Nat) (r : Reg) : Nat :=
  (s.tileReg e lane r.toNat).toNat + 2 ^ 32 * (s.tileReg e lane (r.toNat + 1)).toNat

/-- A tile word with address pairs: it raises no `ECC_FATAL` (R240), and counts the single-bit errors it meets. -/
def tileWord (h : Hdr) (regs : List (Nat × Nat)) (body : Env → State → Res) (s : State) : Outcome :=
  wordAt h 1 none regs [] (fun e s' => (s'.correctReads e regs).retire e h 1) body s

/-! ## crew (R218) -/

/-- `crew`: an uncorrectable error in the mask register raises nothing (R235, R240); the mask is a free value then (log
entry 30). -/
def execCrew (h : Hdr) (va : Reg) (s : State) : Outcome :=
  tileWord h [span false va] (fun e s =>
    match e.lanes with
    | [] => .ok (s.noWrite e id)
    | l :: _ =>
      let x := (s.tileReg e l va.toNat).toNat
      if s.crewOk e.tm e.g.team e.g.gidx x then .ok (s.noWrite e fun g => { g with crew := BitVec.ofNat 16 x })
      else .bad { (wfault cCREWBAD l) with cause := 1 }) s

/-! ## wld (R222) -/

/-- The vault location of an array of a weight tile: its key, or the fault. -/
def State.tileArray (s : State) (p : Party) (ea n align : Nat) : Except Nat Nat :=
  match windowOf ea with
  | none => .error cSPACEINVALID
  | some w =>
    if w.foreign p.core then .error cSPACEFOREIGN
    else if !w.isVault then .error cPROT
    else
      match s.checkAddress p p.core ea n align false false with
      | .ok t _ _ => .ok t
      | .bad c => .error c
      | .unresolved => .error cPAGE

/-- The arrays that a `wld` names: registers, sizes and alignments, in the order they are checked. -/
def wldArrays (o : EOp) : List (Reg × Nat × Nat) :=
  let b := tileBytes o.fmt
  (o.va, b.1, 256) :: (if o.fmt.isBlock then [(o.vb, b.2.1, 16)] else [])
    ++ (if o.fmt == .xf4 then [(o.vc, b.2.2, 16)] else [])

/-- Check the arrays in turn: their keys, or the fault. -/
def State.tileArrays (s : State) (p : Party) : List (Nat × Nat × Nat) → Except (Nat × Nat) (List Nat)
  | [] => .ok []
  | (ea, n, align) :: rest =>
    match s.tileArray p ea n align with
    | .error c => .error (c, ea)
    | .ok k =>
      match State.tileArrays s p rest with
      | .ok ks => .ok (k :: ks)
      | .error x => .error x

/-- Append a tile operation (R154); its destinations follow R84. -/
def Group.addTile (g : Group) (t : TileOp) : Group :=
  let g := t.dests.foldl Group.supersede g
  { g with tile := g.tile + 1, tiles := g.tiles ++ [t] }

def newTile (e : Env) (kind : TileKind) (dests srcs : List Nat) (base : Nat) (lanes : List Nat) (flags : Nat) :
    TileOp :=
  { id := e.g.issued, kind := kind, dests := dests, srcs := srcs, stale := [], base := base, lanes := lanes,
    rowFlags := [], flags := BitVec.ofNat 32 flags, complete := false, pos := e.g.pos e.run.tag }

/-- The arrays of a weight tile in memory: home keys and bytes. -/
def LBank.arrays (b : LBank) : List (Nat × Nat) :=
  let n := tileBytes b.fmt
  [(b.elem, n.1), (b.scale, n.2.1), (b.extra, n.2.2)].filter fun p => p.2 != 0

/-- The granules of the arrays of a weight tile. -/
def LBank.granules (b : LBank) : List Nat := dedup (b.arrays.flatMap fun p => granulesOf p.1 p.2)

/-- `wld`: the logical bank takes a new generation. -/
def execWld (o : EOp) (s : State) : Outcome :=
  let regs := (wldArrays o).map fun a => span true a.1
  tileWord o.h regs (fun e s =>
    match e.lanes with
    | [] => .ok (s.noWrite e id)
    | l :: _ =>
      match s.tileArrays (e.party l) ((wldArrays o).map fun a => (s.tilePair e l a.1, a.2)) with
      | .error (c, ea) => .bad ⟨c, 0, l, BitVec.ofNat 64 ea, 0, 0⟩
      | .ok keys =>
        if 255 ≤ e.g.tile then .stall
        else
          let bank := fIf (o.jf.toNat.testBit 0) 1
          let full := o.jf.toNat.testBit 1
          let gen := ((e.tm.lbanks.find bank).map (·.gen)).getD 0 + 1
          let b : LBank := ⟨keys.getD 0 0, keys.getD 1 0, keys.getD 2 0, o.fmt, gen, .loading, s.seq⟩
          let t := newTile e (.wld bank b full none) [] [] 0 [] (fIf (isSixBit o.fmt) fSUBST)
          let s := s.onTeam e.g.team fun tm => { tm with lbanks := tm.lbanks.put bank b }
          .ok (s.noWrite e fun g => g.addTile t)) s

/-! ## The core error log (R235, R236) -/

/-- An entry of the error log from its fields. -/
def errEntry (time : Dword) (source team bank row k col : Nat) : BitVec 128 :=
  BitVec.ofNat 128 (time.toNat * 2 ^ 64 + source * 2 ^ 61 + team * 2 ^ 56 + bank * 2 ^ 55 + row * 2 ^ 46
    + k * 2 ^ 36 + col * 2 ^ 28)

def State.logError (s : State) (core : Nat) (x : BitVec 128) : State :=
  let l := (s.errLog.find core).getD ⟨[], false⟩
  let l' : ErrLog := if 64 ≤ l.entries.length then ⟨l.entries.drop 1 ++ [x], true⟩ else ⟨l.entries ++ [x], l.overflow⟩
  { s with errLog := s.errLog.put core l' }

/-! ## Accumulator blocks (R207, R234) -/

/-- The teams of a core. -/
def State.coreTeams (s : State) (core : Nat) : List (Nat × Team) :=
  s.teams.filter fun p => p.2.core == core && !p.2.saved

/-- The accumulator rows that one arrival of an entry writes: crew position p, width w (R220). -/
def arrivalBase (mask : BitVec 16) (gidx arow width : Nat) : Nat :=
  arow * 16 + ((natsFrom 0 gidx).filter fun i => mask.toNat.testBit i).length * width

def State.arrivalRows (s : State) (n : Entry) (a : Arrival) : List Nat :=
  let w := ((s.group a.gk).map Group.width).getD 0
  a.lanes.map fun l => arrivalBase n.mask a.gidx a.arow w + l

def State.entryRows (s : State) (n : Entry) : List Nat := n.arrivals.flatMap (s.arrivalRows n)

/-- Blocks in use on a core: of complete entries and of outstanding transfers; (team, block). -/
def State.blocksInUse (s : State) (core : Nat) : List (Nat × Nat) :=
  let ts := (s.coreTeams core).map (·.1)
  let byEntries := (s.entries.vals.filter fun n => n.complete && ts.contains n.team).flatMap fun n =>
    (s.entryRows n).map fun r => (n.team, r / 16)
  let byOps := (s.groups.vals.filter fun g => ts.contains g.team).flatMap fun g =>
    (g.tiles.filter fun t => !t.complete &&
      match t.kind with
      | .xfer _ _ _ _ _ _ _ => true
      | _ => false).flatMap fun t => t.lanes.map fun l => (g.team, (t.base + l) / 16)
  dedup (byEntries ++ byOps)

/-- The 8 KiB slots of a team's vault spill region that hold no block. -/
def Team.freeSlots (tm : Team) : List Nat :=
  (natsFrom 0 (8 * tm.vUnits)).filter fun i => !tm.blocks.any fun p => p.2.place == .spilled i

def Team.accAt (tm : Team) (row col : Nat) : Word := (tm.acc.find (row * 128 + col)).getD 0

/-- The bytes of an accumulator block (R207). -/
def Team.blockBytes (tm : Team) (b : Nat) : List Byte :=
  (natsFrom (b * 16) 16).flatMap fun r => (natsFrom 0 128).flatMap fun c => leBytes (tm.accAt r c).toNat 4

/-- Spill a block of a team into its first free slot. -/
def State.spillBlock (s : State) (team b : Nat) : State :=
  match s.teams.find team with
  | none => s
  | some tm =>
    match tm.freeSlots with
    | [] => s
    | i :: _ =>
      let s := s.write (vaultKey (clusterOf tm.core) (tm.vUnit * 65536 + i * 8192)) (tm.blockBytes b)
      s.onTeam team fun tm => { tm with blocks := tm.blocks.update b fun x => { x with place := .spilled i } }

/-- Physical blocks that a core has given out. -/
def State.blocksTaken (s : State) (core : Nat) : Nat :=
  ((s.coreTeams core).map fun p => (p.2.blocks.filter fun b => b.2.place == .core).length).foldl (· + ·) 0

/-- Spill the block of a core whose turn it is (R234), if any can be. -/
def State.spillOne (s : State) (core : Nat) : Option State :=
  let used := s.blocksInUse core
  let cands := (s.coreTeams core).flatMap fun p =>
    if p.2.freeSlots.isEmpty then []
    else (p.2.blocks.filter fun b => b.2.place == .core && !used.contains (p.1, b.1)).map fun b =>
      ((p.2.mmaPrio * 2 ^ 64 + b.2.used) * 32 + p.2.snum, p.1, b.1)
  match sortBy (fun a b => decide (a.1 ≤ b.1)) cands with
  | [] => none
  | (_, t, b) :: _ => some (s.spillBlock t b)

/-- Make a physical block free, where none is. -/
def State.freeBlock (s : State) (core : Nat) : Option State :=
  if s.blocksTaken core < 32 then some s else s.spillOne core

/-- Make n physical blocks free, in at most so many spills. -/
def State.freeBlocks (s : State) (core n : Nat) : Nat → Option State
  | 0 => if s.blocksTaken core + n ≤ 32 then some s else none
  | fuel + 1 => if s.blocksTaken core + n ≤ 32 then some s else (s.spillOne core).bind fun s => State.freeBlocks s core n fuel

/-- A block of a team is read back from its slot of the vault (R234): single-bit errors are corrected (R249), and an
accumulator that an uncorrectable error touches has it (R235). -/
def State.fetchBlock (s : State) (team b : Nat) : State :=
  match s.teams.find team with
  | none => s
  | some tm =>
    match (tm.blocks.find b).map AccBlock.place with
    | some (.spilled i) =>
      let a := vaultKey (clusterOf tm.core) (tm.vUnit * 65536 + i * 8192)
      let bad := s.latent.granules.filter fun g => a / 16 ≤ g && g < a / 16 + 512
      let s := s.correctHome a 8192
      { s with latent := { s.latent with accs := dedup (s.latent.accs ++ bad.flatMap fun g =>
          natsFrom (team * 65536 + b * 2048 + (g - a / 16) * 4) 4) } }
    | _ => s

/-- Take the blocks of some rows for a team; none when there is no block for one of them. -/
def State.takeBlocks (s : State) (team core : Nat) : List Nat → Option State
  | [] => some s
  | b :: rest =>
    let here := ((s.teams.find team).bind fun tm => tm.blocks.find b).map (·.place) == some .core
    match (if here then some s else s.freeBlock core) with
    | none => none
    | some s' =>
      State.takeBlocks ((s'.fetchBlock team b).onTeam team fun tm => { tm with blocks := tm.blocks.put b ⟨.core, s.seq⟩ }) team core rest

/-- A tile operation of a group ends without effect: it is counted down and applies nothing. -/
def Group.dropTile (g : Group) (id : Nat) : Group :=
  { g with tile := g.tile - 1, tiles := g.tiles.filter fun t => t.id != id }

/-- A tile operation completes. -/
def Group.doneTile (g : Group) (id : Nat) (f : TileOp → TileOp) : Group :=
  { g with tile := g.tile - 1,
           tiles := g.tiles.map fun t => if t.id == id then { f t with complete := true } else t }

/-- A tile operation fails with a deferred fault (R220, R234). -/
def State.failTile (s : State) (gk id : Nat) (pos : Word) (code cause : Nat) : State :=
  ((s.onGroup gk fun g => g.dropTile id).deferFault gk pos ⟨code, cause, 0, 0, 0, 0⟩ false 0 0 0 none).noteSaved gk

/-! ## Accumulator transfers (R232, R233) -/

/-- The width check that a field of a tile word needs (R226, R232), made with the other fields of R43. `reads` are the
address registers it reads. -/
def widthWord (h : Hdr) (arow : BitVec 5) (regs reads : List (Nat × Nat)) (fin : Env → State → State)
    (body : Env → State → Res) (s : State) : Outcome :=
  let run := wordAt h 1 none regs [] (fun e s' => fin e ((s'.correctReads e reads).retire e h 1)) body s
  match s.env h.m with
  | none => run
  | some e =>
    if h.m != 0 && !badMember h.m e.slots.length && decide (512 < arow.toNat * 16 + e.g.width) then
      .next (s.takeFault e.gk e.run.tag (wfault cILLFIELD 0))
    else run

/-- Elements that a transfer moves per lane. -/
def xferElems (fmt : Fmt) (cnt : Nat) : Nat := if fmt == .f64 then cnt / 2 else cnt

/-- Check the elements of one lane at rising addresses. -/
def State.xferElemsChk (s : State) (p : Party) (ea e : Nat) (write : Bool) :
    List Nat → Except (Option Nat × Nat) (List XferElem × List TlbEntry)
  | [] => .ok ([], [])
  | j :: rest =>
    let a := addressAdd false ea ((j * e : Nat) : Int)
    match s.checkAccess p p.core a e e write false with
    | .bad c => .error (some c, a)
    | .unresolved => .error (none, a)
    | .ok t nc fill =>
      match State.xferElemsChk s p ea e write rest with
      | .ok (xs, fs) => .ok (⟨t, nc, s.portOf t⟩ :: xs, fill ++ fs)
      | .error x => .error x

/-- The lanes of a transfer with their elements, checked in ascending order. -/
def State.xferLanes (s : State) (e : Env) (ea : Nat → Nat) (n size : Nat) (write : Bool) :
    List Nat → Except (Nat × Option Nat × Nat) (List XferLane × List TlbEntry)
  | [] => .ok ([], [])
  | l :: rest =>
    match s.xferElemsChk (e.party l) (ea l) size write (natsFrom 0 n) with
    | .error (c, a) => .error (l, c, a)
    | .ok (xs, fill) =>
      match State.xferLanes s e ea n size write rest with
      | .error x => .error x
      | .ok (ls, fs) => .ok (⟨l, (e.g.lane l).depth, BitVec.ofNat 64 (ea l), xs⟩ :: ls, fill ++ fs)

/-- The precise watchpoint matches of a transfer, by lane: the access of a lane is all its elements. -/
def State.watchXfer (s : State) (e : Env) (kind size : Nat) (ls : List XferLane) :
    List (XferLane × Nat × Bool × Nat) :=
  if e.skips 0x400 then []
  else ls.filterMap fun x =>
    (s.watchParts e.la.ctx kind (x.elems.map fun p => (p.target, size))).map fun h => (x, h.1, h.2.1.stop, h.2.2)

/-- A transfer between accumulator rows and memory. -/
def memXfer (o : AccOp) (kind : XferKind) (s : State) : Outcome :=
  let cnt := o.jf.toNat + 1
  let write := kind == .st
  let size := o.fmt.width / 8
  let n := xferElems o.fmt cnt
  widthWord o.h o.arow [span true o.va] [span true o.va] (fun _ s => s) (fun e s =>
    match s.xferLanes e (fun l => s.tilePair e l o.va) n size write e.lanes with
    | .error (l, some c, a) => .bad ⟨c, 0, l, BitVec.ofNat 64 a, 0, fIf (c == cECCFATAL) 1⟩
    | .error (l, none, a) => .park l (BitVec.ofNat 64 a) (fIf write 1)
    | .ok (ls, fill) =>
      if 255 ≤ e.g.tile && !e.lanes.isEmpty then .stall
      else
        let hits := s.watchXfer e (if write then 0 else 3) size ls
        let mkRec (h : XferLane × Nat × Bool × Nat) : FaultRec :=
          s.watchRecord e.gk e.run.tag 0 0 (e.g.pos e.run.tag) h.1.ea h.1.lane h.2.1 h.2.2.2 (n * size)
        match hits.find? fun h => h.2.2.1 with
        | some h => .watch (mkRec h)
        | none =>
          let s :=
            match hits with
            | h :: _ => s.addRecord (mkRec h)
            | [] => s
          let t := newTile e (.xfer kind o.col.toNat cnt o.fmt 0 e.g.mode ls) [] [] (o.arow.toNat * 16) e.lanes 0
          .ok ((s.fillTlb fill).noWrite e fun g => if e.lanes.isEmpty then g else g.addTile t)) s

def execAccld (o : AccOp) (s : State) : Outcome := memXfer o .ld s
def execAccst (o : AccOp) (s : State) : Outcome := memXfer o .st s

/-- `accrd` and `accz`. -/
def rowXfer (o : AccOp) (kind : XferKind) (s : State) : Outcome :=
  let cnt := o.jf.toNat + 1
  let regs := if kind == .rd then natsFrom o.vd.toNat cnt else []
  widthWord o.h o.arow (if kind == .rd then [(o.vd.toNat, cnt)] else []) [] (fun _ s => s) (fun e s =>
    if 255 ≤ e.g.tile && !e.lanes.isEmpty then .stall
    else
      let ls := e.lanes.map fun l => (⟨l, (e.g.lane l).depth, 0, []⟩ : XferLane)
      let dests := ls.flatMap fun x => regs.map fun r => regKey x.depth.toNat x.lane r
      let t := newTile e (.xfer kind o.col.toNat cnt .f32 o.vd.toNat e.g.mode ls) dests [] (o.arow.toNat * 16)
        e.lanes 0
      .ok (s.onGroup e.gk fun g =>
        (if e.lanes.isEmpty then g else g.addTile t).pushWindow
          (if regs.isEmpty then winEntry [] else winAsync regs e.lanes))) s

def execAccrd (o : AccOp) (s : State) : Outcome := rowXfer o .rd s
def execAccz (o : AccOp) (s : State) : Outcome := rowXfer o .z s

/-- Do earlier tile operations of the group on the same accumulator rows stand before this one (R227)? -/
def Group.rowsFree (g : Group) (t : TileOp) : Bool :=
  g.tiles.all fun b => !(decide (b.id < t.id) && !b.complete &&
    b.lanes.any fun l => t.lanes.any fun k => decide (b.base + l = t.base + k))

/-- May the accesses of a tile operation begin, after every earlier acquire (R150, R222)? Fences do not order tile
operations (R296). -/
def Group.tileMay (g : Group) (t : TileOp) : Bool :=
  ((g.before t.id).all fun b => b.performed || !b.acquires) &&
    g.tiles.all fun b => !(decide (b.id < t.id) && !b.complete &&
      match b.kind with
      | .wld _ _ full _ => full
      | _ => false)

/-- May a lane of a transfer access memory now (R149, R150, R291)? -/
def Group.xferMay (g : Group) (t : TileOp) (x : XferLane) (size : Nat) : Bool :=
  let clash (n : Nat) (target : Nat) : Bool := x.elems.any fun p => overlap p.target size target n
  x.elems.isEmpty || (g.tileMay t &&
    ((g.before t.id).all fun b => b.performed ||
        !b.lanes.any fun y => (y.lane == x.lane || b.kind.isAtomic) && !y.done && clash b.size y.target) &&
      g.tiles.all fun b => !(decide (b.id < t.id) && x.elems.any fun p => b.holdsBack x.lane p.target size))

/-- A plain read of n bytes of a group's core (R288); a fabric peer's bytes are free values (log entry 11). -/
def State.plainRead (s : State) (core n : Nat) (x : XferElem) : Got :=
  if isFabric x.target then
    if s.portDown x.port then .port 0x70
    else .data { s with free := s.free + 1 } ((natsFrom 0 n).map fun j => (freeVal s.free 11 0 j).setWidth 8) false
  else if isVaultKey x.target || x.nc then s.readHome x.target n core 0 none
  else s.readCached x.target n core 0 none

/-- A plain write of a group's core; none when the port on its path is down. -/
def State.plainWrite (s : State) (core : Nat) (x : XferElem) (bs : List Byte) : Option State :=
  if isFabric x.target then (if s.portDown x.port then none else some s)
  else if isVaultKey x.target || x.nc then some (s.writeHome x.target bs none)
  else some (s.cacheStore core x.target false bs)

/-- An element as accumulator words (R233). A half-width NaN keeps its sign, its quiet bit and its payload, extended with
zeros on the right, whatever the mode, and sets no flag (DESIGN CHOICE, log entry 64: R233 says "widen exactly" and names
R26 for `accst` alone). -/
def accWiden (fmt : Fmt) (x : Nat) : List Word :=
  match fmt with
  | .f64 => wordsFrom x 2
  | .f16 | .bf16 =>
    match decodeF fmt x with
    | .nan n _ pl => [BitVec.ofNat 32 (signBit .f32 n + 0x7F800000 + pl * 2 ^ (23 - (fparam fmt).mbits))]
    | v => [BitVec.ofNat 32 (floatToFloat .f32 FEnv.plain 23 v).1]
  | _ => [BitVec.ofNat 32 x]

/-- Accumulator words as an element with its flags. -/
def accNarrow (fmt : Fmt) (mode : Word) (ws : List Word) : Nat × Nat :=
  match fmt with
  | .f16 | .bf16 =>
    floatToFloat fmt { FEnv.plain with prop := modeProp mode } 23 (decodeF .f32 (ws.headD 0).toNat)
  | _ => (ws.foldr (fun w a => w.toNat + 2 ^ 32 * a) 0, 0)

/-- Single-bit errors in accumulators that are read: corrected, and counted in the core's error counter (R235; log entry
14). -/
def State.correctAccs (s : State) (core : Nat) (names : List Nat) : State :=
  match names.filter s.latent.accs1.contains with
  | [] => s
  | hits =>
    { s with
      latent := { s.latent with accs1 := s.latent.accs1.filter fun k => !hits.contains k },
      errCore := s.errCore.put core ((s.errCore.find core).getD 0 + BitVec.ofNat 64 hits.length) }

/-- Read the columns of one accumulator element for a tile operation: an uncorrectable error in them gives zero, `ECCZ`
and a log entry under column `n` (R235). -/
def State.accElem (s : State) (team row n : Nat) (cols : List Nat) : State × List Word × Nat :=
  let s := s.settleRow team row
  match s.teams.find team with
  | none => (s, cols.map fun _ => 0, 0)
  | some tm =>
    let names := cols.map fun c => team * 65536 + row * 128 + c
    if names.any s.latent.accs.contains then
      (s.logError tm.core (errEntry s.time 4 tm.snum 0 row 0 n), cols.map fun _ => 0, fECCZ)
    else (s.correctAccs tm.core names, cols.map (tm.accAt row), 0)

/-- Read some columns of a row in turn, each an element. -/
def State.accReads (s : State) (team row : Nat) : List Nat → State × List Word × Nat
  | [] => (s, [], 0)
  | c :: cs =>
    let r := s.accElem team row c [c]
    let q := State.accReads r.1 team row cs
    (q.1, r.2.1 ++ q.2.1, r.2.2 ||| q.2.2)

/-- Columns that one element covers. -/
def elemCols (fmt : Fmt) (col j : Nat) : List Nat := if fmt == .f64 then [col + 2 * j, col + 2 * j + 1] else [col + j]

/-- How a lane of a transfer ends: its flags, or a deferred fault at an address. -/
inductive XferRes where
  | ok (s : State) (flags : Nat)
  | bad (code cause : Nat) (port : Bool)
  deriving DecidableEq, Repr

/-- The elements of one lane of an `accld`. One that meets an uncorrectable error is zero, with `ECCZ` and a log entry
for its accumulator column: R240 lists no `ECC_FATAL`, and R235 speaks of any operand element of a tile operation's read
(DEDUCED, log entry 30). -/
def State.ldElems (s : State) (gk id team core row col : Nat) (fmt : Fmt) (fl : Nat) : List (Nat × XferElem) → XferRes
  | [] => .ok s fl
  | (j, x) :: rest =>
    let put (s : State) (v : Nat) : State :=
      ((elemCols fmt col j).zip (accWiden fmt v)).foldl (fun s p => s.accWrite team row p.1 p.2) s
    match s.plainRead core (fmt.width / 8) x with
    | .data s bs _ =>
      let r := if isFabric x.target then (s, bs) else s.veil gk id (s.home x.target).2 bs
      State.ldElems (put r.1 (ofLeBytes r.2)) gk id team core row col fmt fl rest
    | .port c => .bad cENGINE c true
    | .wait | .ecc =>
      let snum := ((s.teams.find team).map (·.snum)).getD 0
      State.ldElems ((put s 0).logError core (errEntry s.time 4 snum 0 row 0 ((elemCols fmt col j).headD 0)))
        gk id team core row col fmt (fl ||| fECCZ) rest

/-- The elements of one lane of an `accst`. -/
def State.stElems (s : State) (team core row col : Nat) (fmt : Fmt) (mode : Word) (fl : Nat) :
    List (Nat × XferElem) → XferRes
  | [] => .ok s fl
  | (j, x) :: rest =>
    let r := s.accElem team row ((elemCols fmt col j).headD 0) (elemCols fmt col j)
    let v := accNarrow fmt mode r.2.1
    match r.1.plainWrite core x (leBytes v.1 (fmt.width / 8)) with
    | some s => State.stElems s team core row col fmt mode (fl ||| r.2.2 ||| v.2) rest
    | none => .bad cENGINE 0x70 true

/-- One lane of a transfer takes effect. -/
def State.xferLane (s : State) (gk : Nat) (g : Group) (t : TileOp) (kind : XferKind) (col cnt : Nat) (fmt : Fmt)
    (vd : Nat) (mode : Word) (x : XferLane) : XferRes :=
  let core := (s.seat g).1
  let row := t.base + x.lane
  let elems := mapIdxFrom 0 (fun j p => (j, p)) x.elems
  match kind with
  | .ld => s.ldElems gk t.id g.team core row col fmt 0 elems
  | .st => s.stElems g.team core row col fmt mode 0 elems
  | .z => .ok ((natsFrom col cnt).foldl (fun s c => s.accWrite g.team row c 0) s) 0
  | .rd =>
    let r := s.accReads g.team row (natsFrom col cnt)
    let ws := mapIdxFrom vd (fun v w => (v, w)) r.2.1
    let s := r.1.clearLatent (ws.map fun w => latentReg gk x.depth.toNat x.lane w.1)
    .ok (s.onGroup gk fun g =>
      ws.foldl (fun g w =>
        let key := regKey x.depth.toNat x.lane w.1
        if t.stale.contains key then g
        else
          let g := g.arrivePut x.depth.toNat x.lane w.1 w.2
          { g with dirty := key :: g.dirty.filter (· != key), windowOnly := g.windowOnly.filter (· != key) }) g) r.2.2

/-- The next lane of a transfer; `peer` is the code and cause of the fault that a fabric peer's answer to it raises
instead (R374, R383). -/
def State.xferStep (s : State) (gk id : Nat) (peer : Option (Nat × Nat)) : State :=
  match s.group gk with
  | none => s
  | some g =>
    match g.tiles.find? fun t => t.id == id with
    | none => s
    | some t =>
      match t.complete, t.kind with
      | false, .xfer kind col cnt fmt vd mode (x :: rest) =>
        if g.saved || !g.rowsFree t || !g.xferMay t x (fmt.width / 8) || (peer.isSome && !x.elems.any fun p => isFabric p.target)
        then s
        else
          match s.takeBlocks g.team (s.seat g).1 (dedup (t.lanes.map fun l => (t.base + l) / 16)) with
          | none => s.failTile gk id t.pos cSPILLFULL 4
          | some s =>
            let finish (s : State) (fl : Nat) : State :=
              s.onGroup gk fun g =>
                if rest.isEmpty then
                  g.doneTile id fun t => { t with flags := t.flags ||| BitVec.ofNat 32 fl,
                                                  kind := .xfer kind col cnt fmt vd mode [] }
                else
                  { g with tiles := g.tiles.map fun t =>
                      if t.id == id then
                        { t with flags := t.flags ||| BitVec.ofNat 32 fl, kind := .xfer kind col cnt fmt vd mode rest }
                      else t }
            let bytes := ((x.elems.filter fun p => isVaultKey p.target).map fun _ => fmt.width / 8).foldl (· + ·) 0
            match (match peer with
              | some (code, cause) => XferRes.bad code cause (code == cENGINE)
              | none => s.xferLane gk g t kind col cnt fmt vd mode x) with
            | .ok s' fl => (finish s' fl).count (s.ctxOf g) 12 bytes
            | .bad code cause port =>
              (finish s 0).deferFault gk t.pos ⟨code, cause, x.lane, x.ea, 0, 0⟩ port 0 0 0 none
      | _, _ => s

/-- TILE_TRANSFER_COMPLETE: the next lane of a transfer; the last one completes it. -/
def execTileTransferComplete (gk id : Nat) (s : State) : Outcome := .next (s.xferStep gk id none)

end Sys2Proof.Machine
end

