-- ==== Sys2Proof/Machine/Array.lean ====
section
/-! DEFINITION. `mma`, the rendezvous and the execution of entries (R219, R220, R223, R226 to R231, R235, R265,
R266). -/

namespace Sys2Proof.Machine

open Sys2Proof

/-! ## Entries (R219, R220) -/

/-- Groups that an entry's mask names; a solo entry names none. -/
def Entry.named (n : Entry) : List Nat := (natsFrom 0 16).filter fun i => n.mask.toNat.testBit i

/-- Has every group of the mask joined? -/
def Entry.full (n : Entry) : Bool := n.named.all n.joined

/-- A group of the mask retired before joining (R220 cause 5). -/
def State.lacksRetired (s : State) (n : Entry) : Bool :=
  n.named.any fun i => !n.joined i && (s.group (gkOf n.team i)).isNone

def sameParams (a b : Arrival) : Bool :=
  a.fmt == b.fmt && a.rm == b.rm && a.prio == b.prio && a.reuse == b.reuse && a.bank == b.bank && a.cz == b.cz &&
    a.arow == b.arow && a.crew == b.crew

/-- The lowest cause of R220 that applies to an entry; none when it may execute or still waits. -/
def State.entryCause (s : State) (n : Entry) : Option Nat :=
  let retired := s.lacksRetired n
  if !n.full && !retired then none
  else
    match n.arrivals with
    | [] => none
    | a :: rest =>
      let w := ((s.group a.gk).map Group.width).getD 0
      let badBank := match n.bound with
        | none => true
        | some b => clsOf b.fmt != clsOf a.fmt
      if rest.any fun b => !sameParams a b then some 2
      else if badBank then some 3
      else if 512 < a.arow * 16 + max 1 n.named.length * w then some 4
      else if retired then some 5
      else none

/-- An entry fails for every group that joined it. -/
def State.failEntry (s : State) (key : Nat) (n : Entry) (code cause : Nat) : State :=
  let s := { s with entries := s.entries.del key }
  n.arrivals.foldl (fun s a => s.failTile a.gk a.id a.pos code cause) s

/-- Entries of a team that are full complete, or fail (R220). -/
def State.settleEntries (s : State) (team : Nat) : State :=
  (s.entries.filter fun p => p.2.team == team && !p.2.complete).foldl (fun s p =>
    match s.entryCause p.2 with
    | some c => s.failEntry p.1 p.2 cCREWBAD c
    | none =>
      if p.2.full then
        { s with entries := s.entries.put p.1 { p.2 with complete := true, completedAt := s.seq } }
      else s) s

def nextKey {α : Type} (m : KMap α) : Nat := m.keys.foldl (fun a k => max a (k + 1)) 0

/-- The registers that an `mma` reads. -/
def mmaSrcs (e : Env) (va : Nat) (fmt : Fmt) : List Nat :=
  e.lanes.flatMap fun l => (rowReads fmt).map fun j => regKey (e.g.lane l).depth.toNat l (va + j)

/-- Does an `mma` break what the last `mma` of its crew asked with `reuse` (R228): another `va`, one of those registers
written since, or a lane of it that now stands in another frame? A format that reads more registers breaks nothing. -/
def keepBroken (e : Env) (va : Nat) (fmt : Fmt) : Bool :=
  match e.g.keeps.find e.g.crew.toNat with
  | none => false
  | some k =>
    k.va != va || k.broken ||
      (mmaSrcs e va fmt).any fun x => k.srcs.any fun y => y / 256 % 64 == x / 256 % 64 && y / 16384 != x / 16384

/-- Lanes whose rows R227 or R228 leaves undefined already at the word. -/
def undefLanes (e : Env) (va : Nat) (fmt : Fmt) : List Nat :=
  e.lanes.filter fun l => keepBroken e va fmt || (rowReads fmt).any fun j =>
    let k := regKey (e.g.lane l).depth.toNat l (va + j)
    e.g.dirty.contains k || e.g.windowOnly.contains k || e.g.uncovered k

/-- Entries open on a core; those of a saved team are in its save frame. -/
def State.coreEntries (s : State) (core : Nat) : KMap Entry :=
  s.entries.filter fun p => match s.teams.find p.2.team with
    | some tm => tm.core == core && !tm.saved
    | none => false

/-- Record an arrival of the issuing group. -/
def State.arrive (s : State) (e : Env) (o : YOp) (cls : Cls) : State :=
  let va := o.va.toNat
  let bank := fIf o.bank 1
  let a : Arrival :=
    { gk := e.gk, gidx := e.g.gidx, id := e.g.issued, lanes := e.lanes,
      depths := e.lanes.map (fun l => (e.g.lane l).depth.toNat), va := va, fmt := o.fmt, rm := o.rm,
      mode := e.g.mode, prio := o.prio.toNat, reuse := o.reuse, bank := bank, cz := o.cz, arow := o.arow.toNat,
      crew := e.g.crew, fencePt := e.g.fencePt, undef := undefLanes e va o.fmt, rows := none, ecc := [],
      pos := e.g.pos e.run.tag, order := s.seq }
  let found := s.joinable e.g.team e.g.crew e.g.gidx
  let key := match found with
    | some p => p.1
    | none => nextKey s.entries
  let n : Entry := match found with
    | some p => { p.2 with arrivals := p.2.arrivals ++ [a] }
    | none => ⟨e.g.team, e.g.crew, [a], false, 0, e.tm.lbanks.find bank, 0⟩
  let srcs := mmaSrcs e va o.fmt
  let crew := e.g.crew.toNat
  let t := newTile e (.mma key cls.cols (e.g.keeps.find crew).isSome []) [] srcs
    (arrivalBase e.g.crew e.g.gidx o.arow.toNat e.g.width) e.lanes 0
  (({ s with entries := s.entries.put key n }).onTeam e.g.team fun tm =>
    { tm with mmaPrio := o.prio.toNat }).noWrite e fun g =>
      { (g.addTile t) with
        keeps := if o.reuse then g.keeps.put crew ⟨va, srcs, false⟩ else g.keeps.del crew }

def execMma (o : YOp) (s : State) : Outcome :=
  widthWord o.h o.arow [(o.va.toNat, rowRegs o.fmt)] [] (fun e s => s.settleEntries e.g.team) (fun e s =>
    match e.lanes, clsOf o.fmt with
    | [], _ => .ok (s.noWrite e id)
    | _, none => .bad (wfault cILLFIELD 0)
    | _, some cls =>
      let opens := (s.joinable e.g.team e.g.crew e.g.gidx).isNone
      if opens && e.g.crew != 0 && 2 ≤ (s.openEntries e.g.team e.g.crew.toNat).length then .hold (.crew e.g.crew) s
      else if 255 ≤ e.g.tile || (opens && 32 ≤ (s.coreEntries e.core).length) then .stall
      else .ok (s.arrive e o cls)) s

/-! ## Capture (R219, R227, R228) -/

/-- Read one register for the array: what the bank holds. -/
def State.captureReg (s : State) (gk depth lane reg : Nat) : Word :=
  match s.group gk with
  | none => freeVal s.free 12 lane reg
  | some g =>
    match g.frames.find depth with
    | some f => f.bank lane reg
    | none => freeVal s.free 12 lane reg

/-- The elements of w bits, of n, that hold a byte of which `bad` says that it has an error. -/
def hitElems (w n : Nat) (bad : Nat → Bool) : List Nat :=
  (natsFrom 0 n).filter fun i => bad (i * w / 8) || bad ((i * w + w - 1) / 8)

/-- Bytes with some elements of w bits replaced by zero (R235). -/
def zeroElems (w n : Nat) (bytes : List Byte) (hits : List Nat) : List Byte :=
  if hits.isEmpty then bytes else packCodes w (mapIdxFrom 0 (fun i c => if hits.contains i then 0 else c) (codesOf w n bytes))

/-- What the capture of one lane gives: its words, and (source, K index) of each element with an uncorrectable error
(R235, R236). -/
def State.captureLane (s : State) (a : Arrival) (p : Nat × Nat) : List Word × List (Nat × Nat) :=
  let regs := rowReads a.fmt
  let bytes := regs.flatMap fun j => leBytes (s.captureReg a.gk p.2 p.1 (a.va + j)).toNat 4
  let bad (j : Nat) : Bool := s.latent.regs.contains (latentReg a.gk p.2 p.1 (a.va + j))
  let k := ((clsOf a.fmt).map Cls.k).getD 0
  let n := k * a.fmt.width / 32
  let hits := hitElems a.fmt.width k fun b => bad (b / 4)
  let scales := hitElems 8 (4 * (regs.length - n)) fun b => bad (64 + b / 4)
  let out := zeroElems a.fmt.width k (bytes.take (4 * n)) hits ++ zeroElems 8 (4 * (regs.length - n)) (bytes.drop (4 * n)) scales
  (wordsFrom (ofLeBytes out) regs.length, hits.map (fun i => (0, i)) ++ scales.map fun i => (1, 32 * i))

/-- Capture one arrival's rows; errors are logged, one entry for each element, and single-bit errors counted. -/
def State.capture (s : State) (n : Entry) (a : Arrival) : State × Arrival :=
  let got := (a.lanes.zip a.depths).map fun p => (p.1, s.captureLane a p)
  let names := (a.lanes.zip a.depths).flatMap fun p => (rowReads a.fmt).map fun j => latentReg a.gk p.2 p.1 (a.va + j)
  let w := ((s.group a.gk).map Group.width).getD 0
  let base := arrivalBase n.mask a.gidx a.arow w
  let seat := ((s.teams.find n.team).map fun tm => (tm.core, tm.snum)).getD (0, 0)
  let s := (got.flatMap fun x => x.2.2.map fun r => (x.1, r)).foldl (fun s x =>
    s.logError seat.1 (errEntry s.time x.2.1 seat.2 0 (base + x.1) x.2.2 0)) s
  ({ (s.correctRegs seat.1 names) with free := s.free + 1 },
    { a with rows := some (got.map fun x => (x.1, x.2.1)), ecc := (got.filter fun x => !x.2.2.isEmpty).map (·.1) })

/-- The rows of an entry by `sx.group` × 64 + lane. -/
def Entry.rowMap (n : Entry) : KMap (List Word) :=
  n.arrivals.foldl (fun m a => (a.rows.getD []).foldl (fun m p => KMap.put m (a.gidx * 64 + p.1) p.2) m) []

/-- What the latch keeps of an entry whose first arrival has `reuse` (R228). -/
def Entry.kept (n : Entry) (a : Arrival) : Reuse :=
  ⟨n.team, n.mask, a.va, a.fmt, n.rowMap, n.arrivals.flatMap fun b => b.ecc.map (b.gidx * 64 + ·)⟩

/-- What a crew's latest captured arrivals before one in the order of arrival have left in the latch (R228): the rows of
an open entry that asked to keep them, else what an executed one left. -/
def State.latchFor (s : State) (core : Nat) (n : Entry) (a : Arrival) : Option Reuse :=
  let earlier := (s.coreEntries core).vals.filter fun x =>
    x.team == n.team && x.mask == n.mask && x.arrivals.any fun b => b.gk == a.gk && decide (b.order < a.order)
  match sortBy (fun x y => decide (y.2 ≤ x.2)) (earlier.map fun x =>
      (x, ((x.arrivals.find? fun b => b.gk == a.gk).map (·.order)).getD 0)) with
  | (x, _) :: _ => (x.arrivals.head?).bind fun b => if b.reuse then some (x.kept b) else none
  | [] => ((s.arrays.find core).bind (·.reuse)).filter fun k => k.team == n.team && k.mask == n.mask

/-- The rows that an arrival takes from the latch, for the same team, mask and lanes (R228). -/
def State.latchHolds (s : State) (core : Nat) (n : Entry) (a : Arrival) : Option Arrival :=
  (s.latchFor core n a).bind fun k =>
    let rows := a.lanes.filterMap fun l => (k.rows.find (a.gidx * 64 + l)).map fun r => (l, r)
    let held := (k.rows.filter fun p => p.1 / 64 == a.gidx).length
    if k.va == a.va && k.fmt == a.fmt && rows.length == a.lanes.length && held == a.lanes.length then
      some { a with rows := some rows, ecc := a.lanes.filter fun l => k.ecc.contains (a.gidx * 64 + l) }
    else none

/-- Rows that the latch of a core holds (R209). -/
def State.latchRows (s : State) (core : Nat) : Nat :=
  let held := (s.coreEntries core).vals.flatMap fun n => n.arrivals.map fun a => if a.rows.isSome then a.lanes.length else 0
  held.foldl (· + ·) 0 + (((s.arrays.find core).bind (·.reuse)).map fun r => r.rows.length).getD 0

/-- Reused rows leave the latch where an arrival needs their space (R228). -/
def State.makeLatchRoom (s : State) (core rows : Nat) : State :=
  if s.latchRows core + rows ≤ 768 then s
  else { s with arrays := s.arrays.update core fun a => { a with reuse := none } }

/-- ROW_CAPTURE: the oldest arrival not yet captured takes the rows that the latch keeps for it (R228), or its own
registers when the latch has space. -/
def execRowCapture (core : Nat) (s : State) : Outcome :=
  let open' := (s.coreEntries core).flatMap fun p =>
    (p.2.arrivals.filter fun a => a.rows.isNone).map fun a => (p.1, p.2, a)
  match sortBy (fun x y => decide (x.2.2.order ≤ y.2.2.order)) open' with
  | [] => .next s
  | (key, n, a) :: _ =>
    let put (s : State) (a' : Arrival) : State :=
      { s with
        entries := s.entries.put key { n with arrivals := replaceFirst (fun b => b.gk == a.gk) (fun _ => a') n.arrivals } }
    match s.latchHolds core n a with
    | some a' => .next (put s a')
    | none =>
      let s := s.makeLatchRoom core a.lanes.length
      if 768 < s.latchRows core + a.lanes.length then .next s
      else
        let r := s.capture n a
        .next (put r.1 r.2)

/-! ## Weights (R221 to R224, R230, R265) -/

/-- The bytes of an array with the elements of w bits that an uncorrectable error touches replaced by zero, and
the indexes of those elements. -/
def State.tileRead (s : State) (key n w : Nat) : List Byte × List Nat :=
  let bytes := s.readBytes key n
  if (granulesOf key n).any s.latent.granules.contains then
    let hits := hitElems w (n * 8 / w) fun b => s.latent.granules.contains ((key + b) / 16)
    (zeroElems w (n * 8 / w) bytes hits, hits)
  else (bytes, [])

/-- The entry chosen at a core's last boundary, when it still stands. -/
def State.chosenEntry (s : State) (core : Nat) : Option (Nat × Entry) :=
  match (s.arrays.find core).bind (·.chosen) with
  | none => none
  | some k => (s.entries.find k).map fun n => (k, n)

/-- The physical bank that holds a generation of a logical bank. -/
def State.residentBank (s : State) (core team bank gen : Nat) : Option (Nat × PBank) :=
  s.banks.find? fun p => p.1 / 2 == core && p.2.team == team && p.2.bank == bank && p.2.gen == gen

/-- The physical bank that the entry in execution multiplies against. -/
def State.bankInUse (s : State) (core : Nat) : Option Nat :=
  match s.chosenEntry core with
  | none => none
  | some (_, n) =>
    match n.bound, n.arrivals with
    | some b, a :: _ => (s.residentBank core n.team a.bank b.gen).map (·.1)
    | _, _ => none

/-- The physical bank that a load goes to: an empty one, else the one used least recently, but for the one in use (R230,
R265). -/
def State.bankChoice (s : State) (core : Nat) : Nat :=
  match s.banks.find (2 * core), s.banks.find (2 * core + 1) with
  | none, _ => 2 * core
  | _, none => 2 * core + 1
  | some a, some b =>
    if s.bankInUse core == some (2 * core) then 2 * core + 1
    else if s.bankInUse core == some (2 * core + 1) then 2 * core
    else if a.used ≤ b.used then 2 * core else 2 * core + 1

/-- Single-bit errors in the weights that a core reads from a vault: corrected, and counted in the core's error counter
(R235; log entry 14). -/
def State.correctWeights (s : State) (core a n : Nat) : State :=
  match (granulesOf a n).filter s.latent.granules1.contains with
  | [] => s
  | hits =>
    { s with
      latent := { s.latent with granules1 := s.latent.granules1.filter fun g => !hits.contains g },
      errCore := s.errCore.put core ((s.errCore.find core).getD 0 + BitVec.ofNat 64 hits.length) }

/-- Load a weight tile into a physical bank, for a word or, where no word of the group is named, for an entry: whether a
byte of it met an error. -/
def State.loadBank (s : State) (gk id core team bank : Nat) (b : LBank) : State × Bool :=
  let n := tileBytes b.fmt
  let k := ((clsOf b.fmt).map Cls.k).getD 1
  let s := b.arrays.foldl (fun s p => s.correctWeights core p.1 p.2) s
  let el := s.tileRead b.elem n.1 b.fmt.width
  let sc := s.tileRead b.scale n.2.1 8
  let ex := s.tileRead b.extra n.2.2 8
  let snum := ((s.teams.find team).map (·.snum)).getD 0
  let log (source : Nat) (each : Nat) (s : State) (i : Nat) : State :=
    s.logError core (errEntry s.time source snum bank 0 (i * each % k) (i * each / k))
  let s := el.2.foldl (log 2 1) s
  let s := (sc.2 ++ ex.2).foldl (log 3 32) s
  let ecc := !el.2.isEmpty || !sc.2.isEmpty || !ex.2.isEmpty
  let elems := s.veil gk id b.elem el.1
  let scales := elems.1.veil gk id b.scale sc.1
  let extras := scales.1.veil gk id b.extra ex.1
  let s := extras.1
  let pb : PBank := ⟨team, bank, b.gen, s.seq, b.fmt, elems.2, scales.2, extras.2, ecc⟩
  ({ s with banks := s.banks.put (s.bankChoice core) pb }, ecc)

/-- The bytes of a weight tile. -/
def LBank.bytes (b : LBank) : Nat := (b.arrays.map (·.2)).foldl (· + ·) 0

/-- A generation becomes READY, for the logical bank and the entries bound to it. -/
def State.makeReady (s : State) (team bank gen : Nat) (full : Bool) : State :=
  let up (b : LBank) : LBank :=
    if b.gen == gen then { b with status := .ready, since := if full then s.seq else b.since } else b
  let s := s.onTeam team fun tm => { tm with lbanks := tm.lbanks.update bank up }
  { s with entries := s.entries.map fun p =>
      if p.2.team == team && p.2.arrivals.any (fun a => a.bank == bank) then
        (p.1, { p.2 with bound := p.2.bound.map up })
      else p }

/-- A `wld` reads its bytes, whether a later one has taken its logical bank or not. With `full` it acquires: the error
that the core's write-back of a dirty byte meets is that of R289 (log entry 30). -/
def State.readWeights (s : State) (gk id : Nat) (g : Group) (t : TileOp) (bank : Nat) (b : LBank) (full : Bool) : State :=
  let core := (s.seat g).1
  let bad := if full then s.dirtyBad core else none
  let s := if full then s.acquireAction core 2 else s
  let r := s.loadBank gk id core g.team bank b
  let s := (((r.1.makeReady g.team bank b.gen full).onGroup gk fun g =>
    g.doneTile id fun t => { t with flags := t.flags ||| BitVec.ofNat 32 (fIf r.2 fECCZ) }).noteSaved gk).count (s.ctxOf g) 12
      b.bytes
  match bad with
  | none => s
  | some _ => s.deferFault gk t.pos ⟨cECCFATAL, 0, 0, 0, 0, 0⟩ false 0 0 0 none

/-- The granules of a weight tile that are not found full now, or for which others wait already (R252). -/
def State.weightWaits (s : State) (b : LBank) : List Nat :=
  b.granules.filter fun i => !(s.granAt i).full || s.feQ.any fun w => w.granule == i

/-- WEIGHT_LOAD_COMPLETE: a `wld` whose turn has come after earlier acquires (R150) begins its wait for full bits, or
reads its bytes; so does one of a group that is saved alone. -/
def execWeightLoadComplete (gk id : Nat) (s : State) : Outcome :=
  match s.group gk with
  | none => .next s
  | some g =>
    match g.tiles.find? fun t => t.id == id && !t.complete with
    | none => .next s
    | some t =>
      if ((s.teams.find g.team).map (·.saved)).getD true || !g.tileMay t then .next s
      else
        match t.kind with
        | .wld bank b full (some []) => .next (s.readWeights gk id g t bank b full)
        | .wld bank b full none =>
          let waits := if full then s.weightWaits b else []
          if waits.isEmpty then .next (s.readWeights gk id g t bank b full)
          else
            .next (({ s with feQ := s.feQ ++ waits.map fun i => (⟨i, .weights gk id, false⟩ : FeWait) } : State).onGroup gk
              fun g => { g with tiles := g.tiles.map fun t =>
                if t.id == id then { t with kind := .wld bank b full (some waits) } else t })
        | _ => .next s

/-! ## Boundaries (R229 to R231) -/

def ArrayState.idle : ArrayState := ⟨none, true, 0, none, none⟩

def State.array (s : State) (core : Nat) : ArrayState := (s.arrays.find core).getD ArrayState.idle

def State.setArray (s : State) (core : Nat) (a : ArrayState) : State := { s with arrays := s.arrays.put core a }

def Entry.prio (n : Entry) : Nat := if 16 ≤ n.passed then 3 else ((n.arrivals.head?).map (·.prio)).getD 0

/-- Do earlier operations of an entry's groups on its rows stand before it (R227)? -/
def State.entryTurn (s : State) (n : Entry) : Bool :=
  n.arrivals.all fun a => match s.group a.gk with
    | none => true
    | some g => match g.tiles.find? fun t => t.id == a.id with
      | none => true
      | some t => g.rowsFree t

/-- Entries that a boundary may choose: complete, with their rows in the latch (R239: an entry whose rows wait for latch
space comes after the entries ahead of it; DEDUCED, log entry 60) and their weights READY. -/
def State.boundaryEntries (s : State) (core : Nat) : KMap Entry :=
  (s.coreEntries core).filter fun p => p.2.complete && s.entryTurn p.2 && p.2.arrivals.all (fun a => a.rows.isSome) &&
    (match s.teams.find p.2.team with
     | some tm => !tm.latched
     | none => false) &&
    (match p.2.bound with
     | some b => b.status == .ready
     | none => false)

/-- The order of R229. -/
def State.boundaryKey (s : State) (n : Entry) : Nat :=
  let snum := ((s.teams.find n.team).map (·.snum)).getD 0
  ((3 - n.prio) * 2 ^ 64 + n.completedAt) * 32 + snum

/-- ARRAY_BOUNDARY: choose the next entry; the others are passed over. -/
def execArrayBoundary (core : Nat) (s : State) : Outcome :=
  if (s.chosenEntry core).isSome then .next s
  else
    let cands := s.boundaryEntries core
    match sortBy (fun a b => decide (s.boundaryKey a.2 ≤ s.boundaryKey b.2)) cands with
    | [] => .next s
    | (k, n) :: _ =>
      let a := s.array core
      let idle := decide (1000 ≤ s.time.toNat - a.idleSince.toNat)
      let passed := cands.filter fun p => p.1 != k && p.2.team != n.team
      let s := passed.foldl (fun s p => { s with entries := s.entries.put p.1 { p.2 with passed := p.2.passed + 1 } }) s
      .next (s.setArray core { a with chosen := some k, admitted := !idle })

/-- ARRAY_START_ADMISSION: at most 8 arrays of a die leave idleness in any 100 ns. -/
def execArrayStartAdmission (core : Nat) (s : State) : Outcome :=
  let a := s.array core
  if a.admitted || (s.chosenEntry core).isNone then .next s
  else
    let recent := s.arrays.filter fun p => dieOf p.1 == dieOf core && (match p.2.startedAt with
      | some t => decide (s.time.toNat < t.toNat + 100)
      | none => false)
    if 8 ≤ recent.length then .next s
    else .next (s.setArray core { a with admitted := true, startedAt := some s.time })

/-- WEIGHT_RELOAD: the chosen entry's weights are loaded when no bank holds them. -/
def execWeightReload (core : Nat) (s : State) : Outcome :=
  match s.chosenEntry core with
  | none => .next s
  | some (_, n) =>
    match n.bound, n.arrivals with
    | some b, a :: _ =>
      if (s.residentBank core n.team a.bank b.gen).isSome then .next s
      else .next ((s.loadBank a.gk a.id core n.team a.bank b).1.count (((s.group a.gk).map s.ctxOf).getD 0) 12 b.bytes)
    | _, _ => .next s

/-! ## Execution (R215 to R217, R227, R228, R266) -/

/-- The rounding control of a result (R217). -/
def arrayEnv (mode : Word) (rm : Rm) (gidx : Nat) (xyz : Nat × Nat × Nat) (row n : Nat) : FEnv :=
  { rm := resolveRm mode rm, sat := modeSat mode, flush := false, daz := false, prop := false,
    draw := stochDraw mode gidx xyz.1 xyz.2.1 xyz.2.2 (row % 256) n (row / 256) }

/-- The results of one row: accumulators written, flags. -/
def State.runRow (s : State) (n : Entry) (a : Arrival) (cls : Cls) (pb : PBank) (xyz : Nat × Nat × Nat) (row : Nat)
    (regs : List Word) : State × Nat :=
  let op := rowOf a.fmt regs
  (natsFrom 0 cls.n).foldl (fun acc col =>
    let cols := if cls == .d then [2 * col, 2 * col + 1] else [col]
    let c := if a.cz then (acc.1, [], 0) else acc.1.accElem n.team row col cols
    let cv := if a.cz then none else some (c.2.1.foldr (fun w x => w.toNat + 2 ^ 32 * x) 0)
    let r := cellResult cls a.fmt pb.fmt (arrayEnv a.mode a.rm a.gidx xyz row col) op
      (columnOf pb.fmt pb.elems pb.scales pb.extras col) cv
    ((cols.zip (wordsFrom r.1 cols.length)).foldl (fun s p => s.accWrite n.team row p.1 p.2) c.1,
      acc.2 ||| r.2 ||| c.2.2)) (s, 0)

/-- The columns of a row of results become free values. -/
def State.freeRow (s : State) (team row cols : Nat) : State :=
  { ((natsFrom 0 cols).foldl (fun s c => s.accWrite team row c (freeVal s.free 10 0 c)) s) with free := s.free + 1 }

/-- One arrival's rows: `free` says that the weights are undefined (R224). The flags of a row are those of its results,
`SUBST` for a 6-bit format, and `ECCZ` where it used an element with an error (R217, R235); an undefined row has none
(R266). -/
def State.runArrival (s : State) (n : Entry) (cls : Cls) (pb : PBank) (free : Bool) (a : Arrival) : State :=
  match s.group a.gk with
  | none => s
  | some g =>
    let xyz := ((s.moduleOf g).map fun x => gridOf x.2.1.record x.1.t).getD (0, 0, 0)
    let t := g.tiles.find? fun t => t.id == a.id
    let late := (t.map (·.overLanes)).getD []
    let base := arrivalBase n.mask a.gidx a.arow g.width
    let rows := a.rows.getD []
    let r := a.lanes.foldl (fun (acc : State × KMap Word) l =>
      if a.undef.contains l || late.contains l then (acc.1.freeRow n.team (base + l) cls.cols, acc.2)
      else
        let extra := fIf (isSixBit a.fmt) fSUBST ||| fIf (pb.ecc || a.ecc.contains l) fECCZ
        if free then (acc.1.freeRow n.team (base + l) cls.cols, acc.2.put l (BitVec.ofNat 32 extra))
        else
          let q := acc.1.runRow n a cls pb xyz (base + l) ((rows.find l).getD [])
          (q.1, acc.2.put l (BitVec.ofNat 32 (q.2 ||| extra)))) (s, [])
    ((r.1.onGroup a.gk fun g => g.doneTile a.id fun t => { t with rowFlags := r.2 }).noteSaved a.gk).count (s.ctxOf g) 10
      a.lanes.length

/-- Execute an entry against a resident bank. -/
def State.runEntry (s : State) (core key : Nat) (n : Entry) (bi : Nat) (pb : PBank) (b : LBank) (cls : Cls) : State :=
  let arr := s.array core
  let free := b.arrays.any fun p => s.writtenSince p.1 p.2 b.since
  let s := n.arrivals.foldl (fun s a => s.runArrival n cls pb free a) s
  let reuse := match n.arrivals with
    | [] => arr.reuse
    | a :: _ =>
      if a.reuse then some (n.kept a)
      else arr.reuse.filter fun k => !(k.team == n.team && k.mask == n.mask)
  let s := { s with entries := s.entries.del key, banks := s.banks.update bi fun p => { p with used := s.seq } }
  s.setArray core { arr with chosen := none, idleSince := s.time, reuse := reuse }

/-- ENTRY_EXECUTION: the chosen entry runs once its weights are in a bank and the array may start. -/
def execEntryExecution (core : Nat) (s : State) : Outcome :=
  match s.chosenEntry core with
  | none => .next s
  | some (key, n) =>
    match n.bound, n.arrivals with
    | some b, a :: _ =>
      match s.residentBank core n.team a.bank b.gen, clsOf a.fmt with
      | some (bi, pb), some cls =>
        if !(s.array core).admitted then .next s
        else
          match s.takeBlocks n.team core (dedup ((s.entryRows n).map (· / 16))) with
          | none =>
            .next ((s.failEntry key n cSPILLFULL 4).setArray core
              { s.array core with chosen := none, idleSince := s.time })
          | some s' => .next (s'.runEntry core key n bi pb b cls)
      | _, _ => .next s
    | _, _ => .next s

end Sys2Proof.Machine
end

