-- ==== Sys2Proof/Machine/Engine.lean ====
section
/-! DEFINITION. What the engines share: bytes checked, read and written at their homes, deferred `ENGINE` faults,
pauses and watchpoint matches (R256, R260 to R263, R280, R338, R347, R348). -/

namespace Sys2Proof.Machine

open Sys2Proof

/-- The party whose job an engine runs. -/
def State.jobParty (s : State) (gk lane : Nat) : Option Party :=
  match s.group gk with
  | none => none
  | some g => (s.moduleOf g).map fun x => ⟨x.1.core, x.1, x.2.1, g.width, g.gidx, lane⟩

/-- The engines of a die translate under its number (R300). -/
def engineOf (core : Nat) : Nat := 384 + dieOf core

/-- Advance an address within its window (R256). -/
def advance (a : Nat) (off : Int) : Nat := addressAdd false a off

/-- Bytes of its granule before the byte that an address names: a private address counts from its lane's base. -/
def Party.skew (p : Party) (a : Nat) : Nat :=
  match windowOf a with
  | some (.priv off) => (p.private0.1 + off) % 16
  | _ => a % 16

/-- n bytes from an address, cut where the address or what it names begins a granule. -/
def piecesFrom (p : Party) (a : Nat) : Nat → Nat → List (Nat × Nat)
  | 0, _ => []
  | _, 0 => []
  | fuel + 1, n =>
    let k := min n (min (16 - a % 16) (16 - p.skew a))
    (a, k) :: piecesFrom p (advance a k) fuel (n - k)

def pieces (p : Party) (a n : Nat) : List (Nat × Nat) := piecesFrom p a (n / 8 + 4) n

/-- What the checks of an engine's bytes give. -/
inductive Segs where
  | ok (segs : List Seg) (fill : List TlbEntry)
  | bad (code : Nat) (addr : Nat)
  | pause (addr : Nat)
  deriving DecidableEq, Repr

/-- Check and translate pieces in turn (R260 step 1). -/
def State.checkPieces (s : State) (p : Party) (write : Bool) : List (Nat × Nat) → Segs
  | [] => .ok [] []
  | (a, n) :: rest =>
    match s.checkAccess p (engineOf p.core) a n 1 write false with
    | .bad c => .bad c a
    | .unresolved => .pause a
    | .ok t _ fill =>
      match State.checkPieces s p write rest with
      | .ok ss fs => .ok (⟨a, t, n, s.portOf t⟩ :: ss) (fill ++ fs)
      | r => r

/-- Check ranges of bytes: (address, length). -/
def State.checkRanges (s : State) (p : Party) (write : Bool) (rs : List (Nat × Nat)) : Segs :=
  s.checkPieces p write (rs.flatMap fun r => pieces p r.1 r.2)

/-- Read a piece at its home: the bytes, or the address that met an uncorrectable error. A fabric peer's bytes
are free values (log entry 11). -/
def State.readSeg (s : State) (x : Seg) : Except Nat (State × List Byte) :=
  if isFabric x.target then
    .ok ({ s with free := s.free + 1 }, (natsFrom 0 x.len).map fun j => (freeVal s.free 13 (x.addr % 64) j).setWidth 8)
  else
    let h := s.home x.target
    if h.1.poisoned h.2 x.len then .error x.addr else .ok (h.1.correctHome h.2 x.len, h.1.readBytes h.2 x.len)

/-- Read pieces in turn. -/
def State.readSegs (s : State) : List Seg → Except Nat (State × List Byte)
  | [] => .ok (s, [])
  | x :: rest =>
    match s.readSeg x with
    | .error a => .error a
    | .ok (s, bs) =>
      match State.readSegs s rest with
      | .ok (s, more) => .ok (s, bs ++ more)
      | .error a => .error a

/-- What a group's job, or its word of a number, has read in pieces: bytes that a selection job owns are undefined
(R279). -/
def State.veilSegs (s : State) (gk id : Nat) : List Seg → List Byte → State × List Byte
  | [], _ => (s, [])
  | x :: rest, bs =>
    let mine := bs.take x.len
    let r := if isFabric x.target then (s, mine) else s.veil gk id (s.home x.target).2 mine
    let more := State.veilSegs r.1 gk id rest (bs.drop x.len)
    (more.1, r.2 ++ more.2)

/-- Read pieces in turn for a group's job or word. -/
def State.readSegsFor (s : State) (gk id : Nat) (segs : List Seg) : Except Nat (State × List Byte) :=
  match s.readSegs segs with
  | .ok (s, bs) => .ok (s.veilSegs gk id segs bs)
  | .error a => .error a

/-- Write bytes at the home of a piece: a copy or selection write (R308) is `plain`; another engine's write is not in the
table of R308 and leaves the tags as they are. -/
def State.writeSeg (s : State) (plain : Bool) (x : Seg) (bs : List Byte) : State :=
  if isFabric x.target then s else if plain then s.writeHome x.target bs none else s.writeQuiet x.target bs

/-- The bytes of pieces, in turn. -/
def splitBytes : List Seg → List Byte → List (Seg × List Byte)
  | [], _ => []
  | x :: rest, bs => (x, bs.take x.len) :: splitBytes rest (bs.drop x.len)

/-- The home keys of the bytes of pieces, where they are global. -/
def State.segKeys (s : State) (segs : List Seg) : List Nat :=
  (segs.filter fun x => !isVaultKey x.target && !isFabric x.target).flatMap fun x => natsFrom (s.liveKey x.target) x.len

/-- Write pieces in turn; lines that they cover whole lose their poison (R287). -/
def State.writeSegs (s : State) (plain : Bool) (segs : List Seg) (bs : List Byte) : State :=
  ((splitBytes segs bs).foldl (fun s x => s.writeSeg plain x.1 x.2) s).clearPoison (s.segKeys segs)

/-- Is the port on the path of some piece down (R383)? -/
def State.segsDown (s : State) (segs : List Seg) : Option Nat :=
  (segs.find? fun x => isFabric x.target && s.portDown x.port).map (·.addr)

/-- The sub-code with which a job ends (R383), `own` where it is the job's own for a byte with an uncorrectable error
(R261, R280, R287). -/
def PeerFault.sub (f : PeerFault) (own : Nat) : Nat :=
  match f with
  | .refused => 0x72
  | .timeout => 0x71
  | .poison => own

/-- The underlying condition that the record of a job names. -/
def PeerFault.under (f : PeerFault) : Nat := if f == .poison then cECCFATAL else 0

/-- The first piece of some ranges that lies at a fabric peer. -/
def State.peerSeg (s : State) (p : Party) (rs : List (Nat × Nat)) : Option Seg :=
  rs.findSome? fun r => match s.checkRanges p false [r] with
    | .ok segs _ => segs.find? fun x => isFabric x.target
    | _ => none

def vaultBytes (segs : List Seg) : Nat :=
  ((segs.filter fun x => isVaultKey x.target).map (·.len)).foldl (· + ·) 0

/-- The vault granules of pieces, ascending. -/
def segGranules (segs : List Seg) : List Nat :=
  dedup ((segs.filter fun x => isVaultKey x.target).map fun x => x.target / 16)

/-- A translation that an engine job cannot resolve: a record of type 2 (R260, R338). -/
def State.pauseRecord (s : State) (gk id : Nat) (pos : Word) (addr under row col : Nat) : State :=
  s.addRecord { (s.record gk 2 cPAGE 0 (48 + 4) (((s.group gk).map (·.lastTag)).getD 0) pos (BitVec.ofNat 64 addr) 0 0) with
    under := BitVec.ofNat 16 under, row := BitVec.ofNat 32 row, col := BitVec.ofNat 32 col, job := some id }

/-- Jobs of a group leave its engine counter. -/
def State.engineDown (s : State) (gk n : Nat) (flags : Word) : State :=
  (s.onGroup gk fun g => { g with engine := g.engine - n, engFlags := g.engFlags ||| flags }).noteSaved gk

/-- The deferred fault of an engine job (R261, R280). -/
def State.engineFault (s : State) (gk : Nat) (pos : Word) (sub addr under row col : Nat) : State :=
  (s.deferFault gk pos ⟨cENGINE, sub, 0, BitVec.ofNat 64 addr, 0, 0⟩ true under row col none).noteSaved gk

/-- The watchpoint match that an engine's writes report, one that stops before others (log entry 59): its index,
whether it stops, the matched bytes, and the granule's address as the job formed it (R346 to R348). -/
def State.watchSegs (s : State) (ctx : Nat) (segs : List Seg) : Option (Nat × Bool × Nat × Nat) :=
  match s.watchParts ctx 2 (segs.map fun x => (x.target, x.len)) with
  | none => none
  | some h =>
    let g := h.2.1.granule
    (segs.find? fun x => byteMask g x.target x.len != 0).map fun x =>
      (h.1, h.2.1.stop, h.2.2, x.addr + g * 16 - x.target)

/-- The record of an engine's match: `kind` and `index` are the engine's identifier. -/
def State.engineWatch (s : State) (gk : Nat) (pos : Word) (kind index col : Nat) (h : Nat × Bool × Nat × Nat) :
    FaultRec :=
  let ident := kind * 32 + index
  { (s.watchRecord gk (((s.group gk).map (·.lastTag)).getD 0) ident 6 pos (BitVec.ofNat 64 h.2.2.2) 0 h.1 h.2.2.1 col) with
    cause := BitVec.ofNat 8 ident }

/-- A stop that waited for an engine job's end is taken, or owed by a group that is stopped already (R347). -/
def State.jobStop (s : State) (gk : Nat) (r : Option FaultRec) : State :=
  match r with
  | some r => (s.onGroup gk fun g => { g with stopNext := some (g.stopNext.getD r) }).takeOwed gk
  | none => s

/-- Is a group blocked at a `wait`? -/
def State.atWait (s : State) (gk : Nat) : Bool :=
  match s.group gk with
  | none => false
  | some g => s.groupBlocked gk g && g.blocked.any fun p =>
      match p.2 with
      | .wait _ _ _ _ => true
      | _ => false

/-- An engine's writes match a watchpoint: the record, and the stop, at once for a group blocked at a `wait`, else after
the job (R347). -/
def State.engineHit (s : State) (gk : Nat) (pos : Word) (kind index col : Nat) (stop : Option FaultRec) :
    Option (Nat × Bool × Nat × Nat) → State × Option FaultRec
  | none => (s, stop)
  | some h =>
    let r := s.engineWatch gk pos kind index col h
    let s := s.addRecord r
    if !h.2.1 then (s, stop)
    else if s.atWait gk then (s.jobStop gk (some r), stop)
    else (s, some (stop.getD r))

/-- The next group in turn after the one served last, among some (R253, R267). -/
def turnAfter (last : Nat) (gks : List Nat) : List Nat :=
  let up := sortBy (fun a b => decide (a ≤ b)) (dedup gks)
  (up.filter fun k => decide (last < k)) ++ up.filter fun k => decide (k ≤ last)

/-- Have the accesses of a group's words before a point, those of its tile operations among them (R305), been performed,
so that a job may start (R262, R279)? -/
def Group.jobReady (g : Group) (point : Nat) : Bool := g.settled point && g.tilesDone point

/-- A job's release of its group's earlier stores (R262, R279); a dirty byte with an uncorrectable error stops the group
(R289). -/
def State.jobRelease (s : State) (gk core : Nat) (pos : Word) : State :=
  let bad := s.dirtyBad core
  let s := s.releaseAction core 2
  match bad with
  | none => s
  | some _ => s.deferFault gk pos ⟨cECCFATAL, 0, 0, 0, 0, 0⟩ false 0 0 0 none

/-- Is a group's team out of the machine, so that its jobs rest? -/
def State.teamAway (s : State) (gk : Nat) : Bool :=
  match s.teams.find (gk / 16) with
  | none => true
  | some tm => tm.saved

/-- A job's lines of global destinations leave its core's cache, dirty bytes first (R260, R279); a dirty byte with an
uncorrectable error stops the group (R289). -/
def State.dropLines (s : State) (gk core : Nat) (pos : Word) (lines : List Nat) : State :=
  let bad := s.lineBad core fun pa => lines.contains (pa / 128)
  let s := s.invalidate core fun pa => lines.contains (pa / 128)
  match bad with
  | none => s
  | some _ => s.deferFault gk pos ⟨cECCFATAL, 0, 0, 0, 0, 0⟩ false 0 0 0 none

/-- The lines of global pieces. -/
def segLines (segs : List Seg) : List Nat :=
  dedup ((segs.filter fun x => !isVaultKey x.target).map fun x => x.target / 128)

end Sys2Proof.Machine
end

