-- ==== Sys2Proof/Machine/Copy.lean ====
section
/-! DEFINITION. The copy engine (R253 to R262) and the giving of full granules to waiters (R252). -/

namespace Sys2Proof.Machine

open Sys2Proof

/-! ## The descriptor (R255, R257) -/

/-- Descriptor register i. -/
def jobReg (d : List Word) (i : Nat) : Nat := (d.getD i 0).toNat

def cols (d : List Word) : Nat := jobReg d 0
def rowsLess1 (d : List Word) : Nat := bitsOf (jobReg d 1) 15 0
def srcFmt (d : List Word) : Option Fmt := Fmt.ofCode (bitsOf (jobReg d 1) 20 16)
def strideOf (d : List Word) (i : Nat) : Int := sext 32 (jobReg d i)

/-- The formats that a converting job accepts. -/
def isConvFmt : Fmt → Bool
  | .f16x2 | .bf16x2 | .i4 => false
  | _ => true

/-- Does R257 allow the pair? -/
def pairOk (src dst : Fmt) : Bool :=
  src == dst || (isConvFmt src && isConvFmt dst && (!dst.isBlock || src == .f32 || src == .f16 || src == .bf16))

def descrOk (d : List Word) (fmt : Fmt) : Bool :=
  1 ≤ cols d && cols d ≤ 1048576 && bitsOf (jobReg d 1) 31 21 == 0 &&
    match srcFmt d with
    | some f => pairOk f fmt
    | none => false

/-- Element bytes of R259. -/
def elemBytes (f : Fmt) : Nat := if 16 ≤ f.width then f.width / 8 else 1

/-- Bytes of n elements. -/
def packedBytes (f : Fmt) (n : Nat) : Nat := (n * f.width + 7) / 8

/-- The ranges of one row or of columns c0 to c0 + cnt − 1 of it on one side: elements, scales, extras
(R256). -/
def sideRanges (f : Fmt) (base : Nat) (stride : Int) (so xo index nb c0 cnt : Nat) : List (Nat × Nat) :=
  let row := (index : Int) * stride
  let b0 := c0 / 32
  let blocks := (c0 + cnt + 31) / 32 - b0
  (advance base (row + (c0 * f.width / 8 : Nat)), packedBytes f cnt) ::
    (if f.isBlock then [(advance base ((so + index * nb + b0 : Nat) : Int), blocks)] else []) ++
    (if f == .xf4 then [(advance base ((xo + index * nb + b0 : Nat) : Int), blocks)] else [])

def srcRanges (d : List Word) (f : Fmt) (src index c0 cnt : Nat) : List (Nat × Nat) :=
  sideRanges f src (strideOf d 2) (jobReg d 4) (jobReg d 5) index ((cols d + 31) / 32) c0 cnt

def dstRanges (d : List Word) (f : Fmt) (dst index c0 cnt : Nat) : List (Nat × Nat) :=
  sideRanges f dst (strideOf d 3) (jobReg d 6) (jobReg d 7) index ((cols d + 31) / 32) c0 cnt

/-! ## Issue (R259) -/

/-- Does an address lie in a vault window? -/
def inVault (a : Nat) : Bool := ((windowOf a).map Win.isVault).getD false

/-- The window checks of an address. -/
def windowChk (core a : Nat) : Option Nat :=
  match windowOf a with
  | none => some cSPACEINVALID
  | some w => if w.foreign core then some cSPACEFOREIGN else none

/-- The first range of a list that leaves the bounds of R144. -/
def State.outOfBounds (s : State) (p : Party) (rs : List (Nat × Nat)) : Option Nat :=
  (rs.find? fun r => match s.checkRanges p false [r] with
    | .ok _ _ => false
    | _ => true).map (·.1)

/-- The checks of R259 in their order: the fault and its address. -/
def State.copyChecks (s : State) (p : Party) (kind : CopyKind) (fmt : Fmt) (jf : Nat) (src dst ix : Nat)
    (d : List Word) : Option (Nat × Nat) :=
  match srcFmt d with
  | none => some (cENGINE, 0)
  | some sf =>
    let addrs := [src, dst] ++ (if kind == .copy then [] else [ix])
    let rows := natsFrom 0 (rowsLess1 d + 1)
    if !descrOk d fmt then some (cENGINE, 0)
    else
      match addrs.filterMap fun a => (windowChk p.core a).map fun c => (c, a) with
      | x :: _ => some x
      | [] =>
        let misS := src % elemBytes sf != 0 || strideOf d 2 % (elemBytes sf : Int) != 0
        let misD := dst % elemBytes fmt != 0 || strideOf d 3 % (elemBytes fmt : Int) != 0
        if jf.testBit 0 && !inVault src then some (cPROT, src)
        else if misS then some (cALIGN, src)
        else if misD then some (cALIGN, dst)
        else if kind != .copy && ix % 4 != 0 then some (cALIGN, ix)
        else
          let side (on : Bool) (a : Nat) (rs : Nat → List (Nat × Nat)) : Option (Nat × Nat) :=
            if on && inVault a then (s.outOfBounds p (rows.flatMap rs)).map fun x => (cPROT, x) else none
          match side (kind != .gather) src fun r => srcRanges d sf src r 0 (cols d) with
          | some x => some x
          | none => side (kind != .scatter) dst fun r => dstRanges d fmt dst r 0 (cols d)

/-- The copy queue of a cluster. -/
def State.copyQueue (s : State) (cluster : Nat) : JobQueue CopyJob := (s.copyQ.find cluster).getD ⟨[], 0⟩

def State.setCopyQueue (s : State) (cluster : Nat) (q : JobQueue CopyJob) : State :=
  { s with copyQ := if q.jobs.isEmpty && q.last == 0 then s.copyQ.del cluster else s.copyQ.put cluster q }

/-- The captured descriptor of the lowest lane. -/
def Env.jobRegs (e : Env) (lane : Nat) (vc : Reg) : List Word := (natsFrom vc.toNat 8).map fun r => e.reg 2 lane r

/-- `copy`, `gather` and `scatter`. -/
def copyWord (o : EOp) (kind : CopyKind) (s : State) : Outcome :=
  let regs := (if kind == .copy then [] else [span true o.vd]) ++ [span true o.va, span true o.vb, (o.vc.toNat, 8)]
  word o.h 1 regs regs (fun e s =>
    match e.lanes with
    | [] => .ok (s.noWrite e id)
    | l :: _ =>
      let src := e.pair 0 l o.va
      let dst := e.pair 1 l o.vb
      let ix := if kind == .copy then 0 else e.pair 3 l o.vd
      let d := e.jobRegs l o.vc
      match s.copyChecks (e.party l) kind o.fmt o.jf.toNat src dst ix d with
      | some (c, a) => .bad ⟨c, fIf (c == cENGINE) 1, l, BitVec.ofNat 64 a, 0, 0⟩
      | none =>
        let cl := clusterOf e.core
        let q := s.copyQueue cl
        if 16 ≤ (q.jobs.filter fun j => j.gk == e.gk).length || 64 ≤ (q.jobs.filter fun j => !s.teamAway j.gk).length ||
            255 ≤ e.g.engine then .stall
        else
          let j : CopyJob :=
            { gk := e.gk, id := e.g.issued, lane := l, kind := kind, fmt := o.fmt, jf := o.jf.toNat,
              src := BitVec.ofNat 64 src, dst := BitVec.ofNat 64 dst, ix := BitVec.ofNat 64 ix, d := d,
              mode := e.g.mode, row := 0, chunk := 0, index := 0, work := none, lines := [], stop := none, flags := 0,
              pos := e.g.pos e.run.tag, paused := none }
          .ok ((s.setCopyQueue cl { q with jobs := q.jobs ++ [j] }).noWrite e fun g =>
            { g with engine := g.engine + 1 })) s

def execCopy (o : EOp) (s : State) : Outcome := copyWord o .copy s
def execGather (o : EOp) (s : State) : Outcome := copyWord o .gather s
def execScatter (o : EOp) (s : State) : Outcome := copyWord o .scatter s

/-! ## Conversion (R257, R258) -/

/-- The rounding control of element c of row r. -/
def copyEnv (jf : Nat) (mode : Word) (gidx : Nat) (xyz : Nat × Nat × Nat) (r c : Nat) : FEnv :=
  let rm : Rm := match bitsOf jf 5 4 with
    | 0 => .rne
    | 1 => .rtz
    | _ => .rst
  { rm := rm, sat := jf.testBit 3, flush := false, daz := false, prop := modeProp mode,
    draw := stochDraw mode gidx xyz.1 xyz.2.1 xyz.2.2 (c % 256) (c / 256 % 256) (r % 256) }

/-- One element to a scalar format. -/
def copyElem (src dst : Fmt) (env : FEnv) (code scale extra : Nat) : Nat × Nat :=
  if src.isBlock then
    let v := blockVal src code scale extra
    let r := if dst.isInt then floatToInt env dst.isSigned dst.width v
      else floatToFloat dst env (blockNanBits src code) v
    (r.1, r.2 ||| fIf (isSixBit src) fSUBST)
  else convert src dst env code

/-- 32 values, the tail as +0 (R17). -/
def padBlock (vals : List FVal) : List FVal :=
  vals ++ (natsFrom 0 (32 - vals.length)).map fun _ => .fin false 0 0

/-- Quantise the blocks of a chunk: codes, scales, extras, flags. -/
def quantBlocks (dst : Fmt) (rm : Rm) (draw : Nat → Nat) (c : Nat) : Nat → List FVal → List Nat × List Nat × List Nat × Nat
  | 0, _ => ([], [], [], 0)
  | fuel + 1, vals =>
    if vals.isEmpty then ([], [], [], 0)
    else
      let b := vals.take 32
      let q := if dst == .xf4 then quantXf4 (padBlock b)
        else
          let r := quantMx dst rm (fun i => draw (c + i)) (padBlock b)
          (r.1, r.2.1, 0, r.2.2)
      let r := quantBlocks dst rm draw (c + 32) fuel (vals.drop 32)
      (q.1.take b.length ++ r.1, q.2.1 :: r.2.1, q.2.2.1 :: r.2.2.1, q.2.2.2 ||| r.2.2.2)

/-- The destination bytes of a chunk (elements, scales, extras) and its flags. -/
def copyConvert (src dst : Fmt) (env : Nat → FEnv) (c0 cnt : Nat) (el sc ex : List Byte) :
    (List Byte × List Byte × List Byte) × Nat :=
  let codes := codesOf src.width cnt el
  if src == dst then ((packCodes dst.width codes, sc, ex), 0)
  else if dst.isBlock then
    let rm := (env 0).rm
    let q := quantBlocks dst rm (fun c => (env c).draw) c0 (cnt / 32 + 1) (codes.map (decodeF src))
    ((packCodes dst.width q.1, q.2.1.map (BitVec.ofNat 8), q.2.2.1.map (BitVec.ofNat 8)), q.2.2.2)
  else
    let side (xs : List Byte) (i : Nat) : Nat := (xs.getD (i / 32) 0).toNat
    let rs := mapIdxFrom 0 (fun i x => copyElem src dst (env (c0 + i)) x (side sc i) (side ex i)) codes
    ((packCodes dst.width (rs.map (·.1)), [], []), rs.foldl (fun a r => a ||| r.2) 0)

/-! ## Waiting for full granules (R252) -/

/-- The granules that a chunk waits on. -/
def State.chunkGranules (s : State) (w : Waiter) : List Nat :=
  (s.feQ.filter fun x => x.who == w).map (·.granule)

/-- Does a waiter take part? A consuming chunk does only while all of its granules are full; a load of a stopped group
is withdrawn (R153). -/
def State.eligible (s : State) (x : FeWait) : Bool :=
  match x.who with
  | .chunk _ _ _ => !x.consumes || (s.chunkGranules x.who).all fun i => (s.granAt i).full
  | .lane gk _ _ =>
    match s.group gk with
    | some g => g.halt.isNone
    | none => true
  | .weights _ _ => true

/-- The first waiter of a granule that takes part. -/
def State.firstWaiter (s : State) (granule : Nat) : Option FeWait :=
  s.feQ.find? fun x => x.granule == granule && s.eligible x

/-- A consuming chunk takes all of its granules at once, when none of them goes to a waiter before it. -/
def State.chunkTakes (s : State) (w : Waiter) : Bool :=
  let gs := s.chunkGranules w
  gs.all fun i => (s.granAt i).full && ((s.firstWaiter i).map (·.who)) == some w

def State.setFull (s : State) (granule : Nat) (b : Bool) : State :=
  s.setGran granule { (s.granAt granule) with full := b }

/-- Change a copy job of a cluster. -/
def State.onCopyJob (s : State) (cluster gk id : Nat) (f : CopyJob → CopyJob) : State :=
  let q := s.copyQueue cluster
  s.setCopyQueue cluster { q with jobs := q.jobs.map fun j => if j.gk == gk && j.id == id then f j else j }

def State.dropWaiter (s : State) (w : Waiter) : State := { s with feQ := s.feQ.filter fun x => x.who != w }

/-- A chunk found granules full: it is past step 2 once it has found all that it reads (R252, R260). -/
def ChunkWork.finds (w : ChunkWork) (gs : List Nat) : ChunkWork :=
  let seen := dedup (w.seen ++ gs)
  { w with seen := seen, stage := if w.stage == .wait && (segGranules w.src).all seen.contains then .ready else w.stage }

/-- Note that a chunk found granules full; a consuming one empties them. -/
def State.chunkFinds (s : State) (cluster gk id : Nat) (consumes : Bool) (gs : List Nat) : State :=
  let s := if consumes then gs.foldl (fun s i => s.setFull i false) s else s
  let s := { s with feQ := s.feQ.filter fun x => !(x.who == Waiter.chunk cluster gk id && gs.contains x.granule) }
  s.onCopyJob cluster gk id fun j => { j with work := j.work.map fun w => w.finds gs }

/-- Give a full granule to one waiter. A lane keeps its place, and the granule waits for it, until the lower lanes of its
word are performed (R149, R152). -/
def State.give (s : State) (x : FeWait) : State :=
  match x.who with
  | .lane gk id lane =>
    match s.group gk with
    | none => s.dropWaiter x.who
    | some g =>
      match (g.access id).bind fun a => (a.lanes.find? fun y => y.lane == lane).map fun y => (a, y) with
      | none => s.dropWaiter x.who
      | some (a, y) =>
        if (s.promotionOf a y (s.seat g).1).isSome || a.next != some y || !g.mayPerform a y then s
        else (s.dropWaiter x.who).performLoad gk g a y .plain
  | .weights gk id =>
    let s := { s with feQ := s.feQ.filter fun y => !(y == x) }
    s.onGroup gk fun g => { g with tiles := g.tiles.map fun t =>
      if t.id != id then t
      else match t.kind with
        | .wld n b full pending => { t with kind := .wld n b full (pending.map fun gs => gs.filter (· != x.granule)) }
        | _ => t }
  | .chunk cluster gk id =>
    if x.consumes then
      if s.chunkTakes x.who then s.chunkFinds cluster gk id true (s.chunkGranules x.who) else s
    else s.chunkFinds cluster gk id false [x.granule]

/-- FE_WAIT_SATISFIED: a full granule is given to the first waiter that may take it. -/
def execFeWaitSatisfied (granule : Nat) (s : State) : Outcome :=
  if !(s.granAt granule).full then .next s
  else
    match s.firstWaiter granule with
    | none => .next s
    | some x => .next (s.give x)

/-! ## Chunks (R260, R261) -/

/-- The failing job and the group's later copy jobs are discarded (R261); their chunks wait for no granule. -/
def State.failCopy (s : State) (cluster : Nat) (j : CopyJob) (sub addr under : Nat) : State :=
  let q := s.copyQueue cluster
  let n := (q.jobs.filter fun x => x.gk == j.gk).length
  let s := s.setCopyQueue cluster { q with jobs := q.jobs.filter fun x => x.gk != j.gk }
  let mine (w : Waiter) : Bool :=
    match w with
    | .chunk _ gk _ => gk == j.gk
    | _ => false
  let s := { s with feQ := s.feQ.filter fun x => !mine x.who }
  (s.engineDown j.gk n 0).engineFault j.gk j.pos sub addr under j.row (j.chunk * 1024)

/-- A job meets a translation it cannot resolve. -/
def State.pauseCopy (s : State) (cluster : Nat) (j : CopyJob) (sub addr : Nat) : State :=
  ((s.dropWaiter (.chunk cluster j.gk j.id)).pauseRecord j.gk j.id j.pos addr 0 j.row (j.chunk * 1024)).onCopyJob cluster
    j.gk j.id fun j => { j with paused := some (sub, BitVec.ofNat 64 addr), work := none }

/-- A job's chunk changes. -/
def State.setWork (s : State) (cluster : Nat) (j : CopyJob) (w : ChunkWork) : State :=
  s.onCopyJob cluster j.gk j.id fun j => { j with work := some w }

/-- Read a row's index entry (step 1). -/
inductive IndexRes where
  | ok (s : State) (i : Nat)
  | fail (code addr : Nat)
  | ecc (addr : Nat)
  | pause (addr : Nat)
  deriving DecidableEq, Repr

def State.readIndex (s : State) (p : Party) (j : CopyJob) : IndexRes :=
  match s.checkRanges p false [(advance j.ix.toNat ((4 * j.row : Nat) : Int), 4)] with
  | .bad c a => .fail c a
  | .pause a => .pause a
  | .ok segs fill =>
    match s.readSegsFor j.gk j.id segs with
    | .error a => .ecc a
    | .ok (s, bs) => .ok ((s.fillTlb fill).count p.la.ctx 12 (vaultBytes segs)) (ofLeBytes bs)

/-- The granules that a job's chunk has found full in its wait. -/
def CopyJob.seen (j : CopyJob) : List Nat := (j.work.map (·.seen)).getD []

/-- Step 1 of a chunk whose index is known: every byte is checked and translated. -/
def State.checkChunk (s : State) (cluster : Nat) (p : Party) (j : CopyJob) : State :=
  match srcFmt j.d with
  | none => s
  | some sf =>
    let c0 := j.chunk * 1024
    let cnt := min 1024 (cols j.d - c0)
    let ri := if j.kind == .gather then j.index else j.row
    let wi := if j.kind == .scatter then j.index else j.row
    match s.checkRanges p false (srcRanges j.d sf j.src.toNat ri c0 cnt) with
    | .bad c a => s.failCopy cluster j 2 a c
    | .pause a => s.pauseCopy cluster j 2 a
    | .ok src fill =>
      match s.checkRanges p true (dstRanges j.d j.fmt j.dst.toNat wi c0 cnt) with
      | .bad c a => s.failCopy cluster j 3 a c
      | .pause a => s.pauseCopy cluster j 3 a
      | .ok dst fill' =>
        (s.fillTlb (fill ++ fill')).setWork cluster j
          ⟨if j.jf.testBit 0 then .wait else .read, src, dst, j.seen, src, [], [], []⟩

/-- Step 1, with the index entry of a row's first chunk. -/
def State.beginChunk (s : State) (cluster : Nat) (p : Party) (j : CopyJob) : State :=
  let s := if j.row == 0 && j.chunk == 0 then s.jobRelease j.gk p.core j.pos else s
  if j.kind == .copy || j.chunk != 0 then s.checkChunk cluster p j
  else
    match s.readIndex p j with
    | .fail c a => s.failCopy cluster j 4 a c
    | .ecc a => s.failCopy cluster j 5 a cECCFATAL
    | .pause a => s.pauseCopy cluster j 4 a
    | .ok s i =>
      let j := { j with index := i }
      (s.onCopyJob cluster j.gk j.id fun _ => j).checkChunk cluster p j

/-- Step 2: the chunk's wait. What it finds full at once counts; for the rest it stands in the queues of its vaults. -/
def State.chunkWait (s : State) (cluster : Nat) (j : CopyJob) (w : ChunkWork) : State :=
  let who : Waiter := .chunk cluster j.gk j.id
  let fec := j.jf.testBit 1
  let gs := segGranules w.src
  let queued := s.chunkGranules who
  let fresh := gs.filter fun i => !w.seen.contains i && !queued.contains i
  let now := if fec then [] else fresh.filter fun i => (s.granAt i).full && !s.feQ.any fun x => x.granule == i
  let s := { s with feQ := s.feQ ++ (fresh.filter fun i => !now.contains i).map fun i => (⟨i, who, fec⟩ : FeWait) }
  if fec then (if s.chunkTakes who then s.chunkFinds cluster j.gk j.id true gs else s)
  else s.chunkFinds cluster j.gk j.id false now

/-- A job moves on to its next chunk, or ends: lines invalidated, completion posted (R260). -/
def State.nextChunk (s : State) (cluster core : Nat) (j : CopyJob) : State :=
  if cols j.d ≤ (j.chunk + 1) * 1024 then
    if j.row == rowsLess1 j.d then
      let q := s.copyQueue cluster
      let s := s.setCopyQueue cluster { q with jobs := q.jobs.filter fun x => !(x.gk == j.gk && x.id == j.id) }
      ((s.dropLines j.gk core j.pos j.lines).engineDown j.gk 1 j.flags).jobStop j.gk j.stop
    else s.onCopyJob cluster j.gk j.id fun _ => { j with row := j.row + 1, chunk := 0, work := none }
  else s.onCopyJob cluster j.gk j.id fun _ => { j with chunk := j.chunk + 1, work := none }

/-- Step 4: the bytes that a chunk writes, from those it has read, and its flags. -/
def chunkOut (p : Party) (j : CopyJob) (w : ChunkWork) : List Byte × Nat :=
  match srcFmt j.d with
  | none => ([], 0)
  | some sf =>
    let c0 := j.chunk * 1024
    let cnt := min 1024 (cols j.d - c0)
    let nb := (c0 + cnt + 31) / 32 - c0 / 32
    let n := packedBytes sf cnt
    let sc := if sf.isBlock then (w.got.drop n).take nb else []
    let ex := if sf == .xf4 then (w.got.drop (n + nb)).take nb else []
    let xyz := gridOf p.la.record p.tm.t
    let r := copyConvert sf j.fmt (fun c => copyEnv j.jf j.mode p.gidx xyz j.row c) c0 cnt (w.got.take n) sc ex
    (r.1.1 ++ (if j.fmt.isBlock then r.1.2.1 else []) ++ (if j.fmt == .xf4 then r.1.2.2 else []), r.2)

/-- Steps 3 and 4: one more piece is read; after the last the bytes are converted. -/
def State.readPiece (s : State) (cluster : Nat) (p : Party) (j : CopyJob) (w : ChunkWork) : State :=
  match w.left with
  | x :: rest =>
    match s.segsDown [x] with
    | some a => s.failCopy cluster j 0x70 a 0
    | none =>
      match s.readSeg x with
      | .error a => s.failCopy cluster j 5 a cECCFATAL
      | .ok (s, bs) =>
        let k := if isVaultKey x.target || isFabric x.target then x.target else s.liveKey x.target
        let r := s.veil j.gk j.id k bs
        (r.1.count p.la.ctx 12 (vaultBytes [x])).setWork cluster j { w with left := rest, got := w.got ++ r.2 }
  | [] =>
    match s.segsDown w.dst with
    | some a => s.failCopy cluster j 0x70 a 0
    | none =>
      let r := chunkOut p j w
      s.onCopyJob cluster j.gk j.id fun j => { j with
        flags := j.flags ||| BitVec.ofNat 32 r.2, work := some { w with stage := .write, out := splitBytes w.dst r.1 } }

/-- Step 5: the bytes that fall into one vault granule, or one more piece, are written (R248); after the last, lines that
the chunk covers whole lose their poison (R287), and watchpoints match. -/
def State.writePiece (s : State) (cluster : Nat) (p : Party) (j : CopyJob) (w : ChunkWork) : State :=
  match w.out with
  | x :: rest =>
    let same (y : Seg × List Byte) : Bool := isVaultKey x.1.target && y.1.target / 16 == x.1.target / 16
    let s := (x :: rest.filter same).foldl (fun s y => s.writeSeg true y.1 y.2) s
    s.setWork cluster j { w with out := rest.filter fun y => !same y }
  | [] =>
    let s := s.clearPoison (s.segKeys w.dst)
    let s := (s.count p.la.ctx 12 (vaultBytes w.dst)).count p.la.ctx 14 1
    let r := s.engineHit j.gk j.pos 1 (cluster % 24) (j.chunk * 1024) j.stop (s.watchSegs p.la.ctx w.dst)
    let fills := if j.jf.testBit 2 then [] else sortBy (fun a b => decide (a ≤ b)) (segGranules w.dst)
    r.1.onCopyJob cluster j.gk j.id fun j => { j with
      stop := r.2, lines := dedup (j.lines ++ segLines w.dst), work := some { w with stage := .fill, fills := fills } }

/-- The next step of a chunk that the engine has in hand. -/
def State.stepChunk (s : State) (cluster : Nat) (p : Party) (j : CopyJob) (w : ChunkWork) : State :=
  match w.stage with
  | .wait => s.chunkWait cluster j w
  | .ready =>
    (if j.jf.testBit 0 then (s.jobRelease j.gk p.core j.pos).acquireAction p.core 2 else s).setWork cluster j
      { w with stage := .read }
  | .read => s.readPiece cluster p j w
  | .write => s.writePiece cluster p j w
  | .fill =>
    match w.fills with
    | i :: rest => (s.setFull i true).setWork cluster j { w with fills := rest }
    | [] => s.nextChunk cluster p.core j

/-- Does the engine have the job's chunk in hand, past its wait? -/
def CopyJob.inHand (j : CopyJob) : Bool :=
  match j.work with
  | some w => w.stage == .read || w.stage == .write || w.stage == .fill
  | none => false

/-- Has the job's chunk passed step 2, so that it completes before a save (R263)? -/
def CopyJob.pastWait (j : CopyJob) : Bool :=
  match j.work with
  | some w => w.stage != .wait
  | none => false

/-- The head job of a group in a copy queue. -/
def JobQueue.head (q : JobQueue CopyJob) (gk : Nat) : Option CopyJob := q.jobs.find? fun j => j.gk == gk

/-- May a group's head copy job take its turn (R262, R263)? For a team whose pre-emption is latched no further chunk
begins. -/
def State.copyRuns (s : State) (j : CopyJob) : Bool :=
  j.paused.isNone && !s.teamAway j.gk && (j.pastWait || !s.isLatched (j.gk / 16)) &&
    match s.group j.gk with
    | none => false
    | some g => g.jobReady j.id

/-- A chunk that does not wait goes on in its group's turn (R253): it tests its granules as it begins, and is in hand once it
has found them. -/
def State.pressOn (s : State) (cluster gk id : Nat) (p : Party) : Nat → State
  | 0 => s
  | fuel + 1 =>
    match (s.copyQueue cluster).jobs.find? fun (j : CopyJob) => j.gk == gk && j.id == id with
    | some j =>
      match j.work with
      | some w =>
        if w.stage == .ready || (w.stage == .wait && 0 < fuel) then
          State.pressOn (s.stepChunk cluster p j w) cluster gk id p fuel
        else s
      | none => s
    | none => s

/-- COPY_CHUNK: the next step of the chunk that the engine has in hand; without one, the next group in turn begins the
next chunk of its oldest job, or tests again what that chunk waits for; a chunk that has to wait gives up its turn. -/
def execCopyChunk (cluster : Nat) (s : State) : Outcome :=
  let q := s.copyQueue cluster
  let heads := (turnAfter q.last (q.jobs.map (·.gk))).filterMap q.head
  match (q.jobs.find? CopyJob.inHand).or (heads.find? s.copyRuns) with
  | none => .next s
  | some j =>
    match s.jobParty j.gk j.lane with
    | none => .next s
    | some p =>
      let s := s.setCopyQueue cluster { q with last := j.gk }
      match j.work with
      | none => .next ((s.beginChunk cluster p j).pressOn cluster j.gk j.id p 2)
      | some w => .next ((s.stepChunk cluster p j w).pressOn cluster j.gk j.id p 1)

/-- The chunk of a group that is past its wait completes (R263), in at most so many steps. -/
def State.finishChunk (s : State) (cluster gk : Nat) : Nat → State
  | 0 => s
  | fuel + 1 =>
    match (s.copyQueue cluster).jobs.find? fun (j : CopyJob) => j.gk == gk && j.pastWait with
    | none => s
    | some j =>
      match s.jobParty gk j.lane, j.work with
      | some p, some w => State.finishChunk (s.stepChunk cluster p j w) cluster gk fuel
      | _, _ => s

/-- Steps that are enough for a chunk. -/
def chunkSteps (j : CopyJob) : Nat :=
  match j.work with
  | some w => w.left.length + 3 * w.dst.length + 5
  | none => 0

/-- Where a copy job now reads or writes at a fabric peer: a piece of the chunk in hand, one that it reads alone if `reads`
holds, or the index entry that its next chunk begins with. -/
def State.copyPeer (s : State) (p : Party) (j : CopyJob) (reads : Bool) : Option Seg :=
  match j.work with
  | some w =>
    if j.inHand then (w.src ++ (if reads then [] else w.dst)).find? fun x => isFabric x.target else none
  | none =>
    if j.kind != .copy && j.chunk == 0 then s.peerSeg p [(advance j.ix.toNat ((4 * j.row : Nat) : Int), 4)] else none

/-- What a fabric peer, or the link to it, answers to a copy job's access (R374, R383): the job ends. -/
def State.peerCopy (s : State) (cluster gk id : Nat) (f : PeerFault) : State :=
  match (s.copyQueue cluster).head gk with
  | none => s
  | some j =>
    match s.jobParty gk j.lane with
    | none => s
    | some p =>
      if j.id != id || !s.copyRuns j then s
      else
        match s.copyPeer p j (f == .poison) with
        | some x => s.failCopy cluster j (f.sub 5) x.addr f.under
        | none => s

end Sys2Proof.Machine
end

