-- ==== Sys2Proof/Machine/Select.lean ====
section
/-! DEFINITION. The selection engine (R267 to R281, R283). -/

namespace Sys2Proof.Machine

open Sys2Proof

/-! ## The job's fields (R268, R269) -/

def selStride (d : List Word) : Nat := bitsOf (jobReg d 1) 15 0
def selMode (d : List Word) : Bool := (jobReg d 1).testBit 16
def selMi (d : List Word) : Bool := (jobReg d 1).testBit 17
def selMo (d : List Word) : Bool := (jobReg d 1).testBit 18
def selMaskAddr (d : List Word) : Nat := jobReg d 2 + 2 ^ 32 * jobReg d 3
def selThr (d : List Word) : Nat := jobReg d 4 + 2 ^ 32 * jobReg d 5

def SelJob.wtOn (j : SelJob) : Bool := !j.scmp && j.jf.testBit 0
def SelJob.desc (j : SelJob) : Bool := !j.scmp && j.jf.testBit 1
def SelJob.zm (j : SelJob) : Bool := if j.scmp then j.jf.testBit 4 else j.jf.testBit 2
def SelJob.nanb (j : SelJob) : Bool := j.jf.testBit 3
def SelJob.chain (j : SelJob) : Bool := j.scmp && j.jf.testBit 5
def SelJob.rad (j : SelJob) : Nat := 2 ^ bitsOf j.jf 5 4
def SelJob.count (j : SelJob) : Nat := jobReg j.d 0
def SelJob.width (j : SelJob) : Nat := imageWidth j.fmt
def SelJob.top (j : SelJob) : Nat := 2 ^ j.width - 1

/-- Is the format one whose elements may be strided (R269)? -/
def isStrided (f : Fmt) : Bool := !f.isBlock && 8 ≤ f.width

/-- Does the descriptor meet R269? -/
def selDescrOk (scmp : Bool) (jf : Nat) (fmt : Fmt) (d : List Word) : Bool :=
  jobReg d 0 != 0 &&
    (if isStrided fmt then selStride d % (fmt.width / 8) == 0 else selStride d == 0) &&
    bitsOf (jobReg d 1) 31 19 == 0 &&
    (if scmp then !selMode d && !selMo d
     else !(jf.testBit 0 && !selMode d) && jobReg d 5 == 0 && (!selMode d || jobReg d 4 ≤ 0x80000000))

/-- Bytes from one element to the next. -/
def selStep (f : Fmt) (d : List Word) : Nat := if selStride d == 0 then f.width / 8 else selStride d

/-- The ranges of elements c0 to c0 + cnt − 1 of a column and of its side arrays (R270). -/
def columnRanges (f : Fmt) (d : List Word) (col c0 cnt : Nat) : List (Nat × Nat) :=
  let b0 := c0 / 32
  let blocks := (c0 + cnt + 31) / 32 - b0
  (if isStrided f && selStep f d != f.width / 8 then
      (natsFrom c0 cnt).map fun i => (advance col ((i * selStep f d : Nat) : Int), f.width / 8)
    else [(advance col ((c0 * f.width / 8 : Nat) : Int), packedBytes f cnt)]) ++
    (if f.isBlock then [(advance col ((jobReg d 6 + b0 : Nat) : Int), blocks)] else []) ++
    (if f == .xf4 then [(advance col ((jobReg d 7 + b0 : Nat) : Int), blocks)] else [])

/-! ## Issue (R278) -/

/-- The addresses a job uses, with their alignment. -/
def selAddrs (scmp : Bool) (jf : Nat) (fmt : Fmt) (vd va vb : Nat) (d : List Word) : List (Nat × Nat) :=
  [(vd, 16), (va, elemBytes fmt)] ++ (if scmp || jf.testBit 0 then [(vb, 4)] else []) ++
    (if selMi d || selMo d then [(selMaskAddr d, 16)] else []) ++
    (if scmp && jf.testBit 5 then [(selThr d, 16)] else [])

/-- The areas a job uses: (address, bytes). -/
def selAreas (scmp : Bool) (jf : Nat) (fmt : Fmt) (vd va vb : Nat) (d : List Word) : List (Nat × Nat) :=
  let n := jobReg d 0
  [(vd, 128)] ++ columnRanges fmt d va 0 n ++ (if scmp || jf.testBit 0 then [(vb, 4 * n)] else []) ++
    (if selMi d || selMo d then [(selMaskAddr d, (n + 7) / 8)] else []) ++
    (if scmp && jf.testBit 5 then [(selThr d, 128)] else [])

/-- Does a byte of an area in a vault window lie outside the bounds of R144? -/
def State.areaBad (s : State) (p : Party) (r : Nat × Nat) : Bool :=
  inVault r.1 && match s.checkRanges p false [r] with
    | .ok _ _ => false
    | _ => true

def State.selChecks (s : State) (p : Party) (scmp : Bool) (jf : Nat) (fmt : Fmt) (vd va vb : Nat) (d : List Word) :
    Option (Nat × Nat) :=
  let addrs := selAddrs scmp jf fmt vd va vb d
  if !selDescrOk scmp jf fmt d then some (cENGINE, 0)
  else
    match addrs.filterMap fun a => (windowChk p.core a.1).map fun c => (c, a.1) with
    | x :: _ => some x
    | [] =>
      match addrs.find? fun a => a.1 % a.2 != 0 with
      | some a => some (cALIGN, a.1)
      | none => ((selAreas scmp jf fmt vd va vb d).find? (s.areaBad p)).map fun r => (cPROT, r.1)

def State.selQueue (s : State) (cluster : Nat) : JobQueue SelJob := (s.selQ.find cluster).getD ⟨[], 0⟩

def State.setSelQueue (s : State) (cluster : Nat) (q : JobQueue SelJob) : State :=
  { s with selQ := if q.jobs.isEmpty && q.last == 0 then s.selQ.del cluster else s.selQ.put cluster q }

/-- A range cut where its address, or what that names, begins a 64 KiB page. -/
def pageParts (p : Party) (a : Nat) : Nat → Nat → List (Nat × Nat)
  | 0, _ => []
  | _, 0 => []
  | fuel + 1, n =>
    let base := match windowOf a with
      | some (.priv off) => p.private0.1 + off
      | _ => a
    let k := min n (min (65536 - a % 65536) (65536 - base % 65536))
    (a, k) :: pageParts p (advance a k) fuel (n - k)

/-- The homes of areas that a job owns (R279), where they translate. -/
def State.homesOf (s : State) (p : Party) (rs : List (Nat × Nat)) : List (Nat × Nat) :=
  (rs.flatMap fun r => pageParts p r.1 (r.2 / 32768 + 3) r.2).filterMap fun x =>
    match s.checkAddress p (engineOf p.core) x.1 x.2 1 false false with
    | .ok t _ _ => some (if isVaultKey t || isFabric t then t else s.liveKey t, x.2)
    | _ => none

/-- `srank` and `scmp`. -/
def selWord (o : EOp) (scmp : Bool) (s : State) : Outcome :=
  let useB := scmp || o.jf.toNat.testBit 0
  let regs := [span true o.vd, span true o.va] ++ (if useB then [span true o.vb] else []) ++ [(o.vc.toNat, 8)]
  word o.h 1 regs regs (fun e s =>
    match e.lanes with
    | [] => .ok (s.noWrite e id)
    | l :: _ =>
      let vd := e.pair 3 l o.vd
      let va := e.pair 0 l o.va
      let vb := if useB then e.pair 1 l o.vb else 0
      let d := e.jobRegs l o.vc
      match s.selChecks (e.party l) scmp o.jf.toNat o.fmt vd va vb d with
      | some (c, a) => .bad ⟨c, fIf (c == cENGINE) 0x21, l, BitVec.ofNat 64 a, 0, 0⟩
      | none =>
        let cl := clusterOf e.core
        let q := s.selQueue cl
        if 8 ≤ (q.jobs.filter fun j => j.gk == e.gk).length || 32 ≤ (q.jobs.filter fun j => !s.teamAway j.gk).length ||
            255 ≤ e.g.engine then .stall
        else
          let j : SelJob :=
            { gk := e.gk, id := e.g.issued, lane := l, scmp := scmp, fmt := o.fmt, jf := o.jf.toNat,
              recAddr := BitVec.ofNat 64 vd, col := BitVec.ofNat 64 va, aux := BitVec.ofNat 64 vb, d := d, mode := e.g.mode,
              started := false, since := 0, mask := [], pass := 0, hi := imageWidth o.fmt - 1, cursor := 0, pre := 0, base := 0,
              n := 0, wt := 0, below := 0, bins := [], emitted := 0, thr := 0, thrEnc := 0, dead := false, fin := none,
              owned := s.homesOf (e.party l) ((vd, 128) :: (if scmp then [(vb, 4 * jobReg d 0)] else []) ++
                (if selMi d || selMo d then [(selMaskAddr d, (jobReg d 0 + 7) / 8)] else [])),
              maskDone := false, spoiled := false, lines := [], stop := none, pos := e.g.pos e.run.tag, paused := none }
          .ok ((s.setSelQueue cl { q with jobs := q.jobs ++ [j] }).noWrite e fun g =>
            { g with engine := g.engine + 1 })) s

def execSrank (o : EOp) (s : State) : Outcome := selWord o false s
def execScmp (o : EOp) (s : State) : Outcome := selWord o true s

/-! ## Bytes -/

/-- What a read or write of an engine gives: its value, a failure, or a pause. -/
inductive EngRes (α : Type) where
  | ok (s : State) (x : α)
  | fail (sub code addr : Nat)
  | pause (sub addr : Nat)
  deriving DecidableEq, Repr

/-- Read ranges for a job; failures carry `sub`, uncorrectable errors 0x27. -/
def State.selGet (s : State) (p : Party) (gk id sub : Nat) (rs : List (Nat × Nat)) : EngRes (List Byte) :=
  match s.checkRanges p false rs with
  | .bad c a => .fail sub c a
  | .pause a => .pause sub a
  | .ok segs fill =>
    match s.segsDown segs with
    | some a => .fail 0x70 0 a
    | none =>
      match s.readSegsFor gk id segs with
      | .error a => .fail 0x27 cECCFATAL a
      | .ok (s, bs) => .ok ((s.fillTlb fill).count p.la.ctx 12 (vaultBytes segs)) bs

/-- Write a range, with its watchpoint match. -/
def State.selPut (s : State) (p : Party) (sub addr : Nat) (bs : List Byte) : EngRes (List Seg) :=
  match s.checkRanges p true [(addr, bs.length)] with
  | .bad c a => .fail sub c a
  | .pause a => .pause sub a
  | .ok segs fill =>
    match s.segsDown segs with
    | some a => .fail 0x70 0 a
    | none => .ok (((s.fillTlb fill).writeSegs true segs bs).count p.la.ctx 12 (vaultBytes segs)) segs

/-- Note what a job wrote: lines, and its watchpoint match. -/
def State.selWrote (s : State) (cluster : Nat) (p : Party) (j : SelJob) (segs : List Seg) : State × SelJob :=
  let size := (segs.map (·.len)).foldl (· + ·) 0
  let r := s.engineHit j.gk j.pos 2 (cluster % 24) size j.stop (s.watchSegs p.la.ctx segs)
  (r.1, { j with lines := dedup (j.lines ++ segLines segs), stop := r.2 })

/-! ## The counted set (R271) -/

/-- An element: its index, its key, and whether it is counted. -/
structure Elem where
  i : Nat
  key : Nat
  counted : Bool
  deriving DecidableEq, Repr

/-- An element's image as R271 forms it, whether it is NaN, and its encoding (R275). -/
def selImage (f : Fmt) (zm : Bool) (code scale extra : Nat) : Nat × Bool × Nat :=
  let enc := if f.isBlock then blockToF32 f code scale extra else code
  let g : Fmt := if f.isBlock then .f32 else f
  let v := if f.isBlock then blockVal f code scale extra else decodeF f code
  let nan := !f.isInt && v.isNan
  let zero := !f.isInt && zm && v.isZero && v.sign
  (image g (if zero then 0 else enc), nan, enc)

/-- The codes, scales and extras of columns c0 to c0 + cnt − 1, from the bytes of `columnRanges`. -/
def columnCodes (f : Fmt) (c0 cnt : Nat) (bs : List Byte) : List (Nat × Nat × Nat) :=
  let n := packedBytes f cnt
  let nb := (c0 + cnt + 31) / 32 - c0 / 32
  let sc := bs.drop n
  let ex := bs.drop (n + nb)
  mapIdxFrom 0 (fun i c => (c, if f.isBlock then (sc.getD (i / 32) 0).toNat else 0,
    if f == .xf4 then (ex.getD (i / 32) 0).toNat else 0)) (codesOf f.width cnt bs)

/-- Is index i in the set that the mask leaves? -/
def SelJob.unmasked (j : SelJob) (i : Nat) : Bool :=
  !selMi j.d || (j.mask.getD (i / 8) 0).toNat.testBit (i % 8)

/-- The elements of a chunk. -/
def SelJob.elems (j : SelJob) (c0 cnt : Nat) (bs : List Byte) : List Elem :=
  mapIdxFrom c0 (fun i x =>
    let r := selImage j.fmt j.zm x.1 x.2.1 x.2.2
    ⟨i, if j.desc then j.top - r.1 else r.1, j.unmasked i && !(r.2.1 && !j.nanb)⟩) (columnCodes j.fmt c0 cnt bs)

/-! ## Failures (R280) -/

def State.failSel (s : State) (cluster : Nat) (j : SelJob) (sub code addr : Nat) : State :=
  let q := s.selQueue cluster
  let n := (q.jobs.filter fun x => x.gk == j.gk).length
  let s := s.setSelQueue cluster { q with jobs := q.jobs.filter fun x => x.gk != j.gk }
  (s.engineDown j.gk n 0).engineFault j.gk j.pos sub addr code j.pass j.cursor

def State.onSelJob (s : State) (cluster gk id : Nat) (f : SelJob → SelJob) : State :=
  let q := s.selQueue cluster
  s.setSelQueue cluster { q with jobs := q.jobs.map fun j => if j.gk == gk && j.id == id then f j else j }

def State.pauseSel (s : State) (cluster : Nat) (j : SelJob) (sub addr : Nat) : State :=
  (s.pauseRecord j.gk j.id j.pos addr 0 j.pass j.cursor).onSelJob cluster j.gk j.id fun _ =>
    { j with paused := some (sub, BitVec.ofNat 64 addr) }

/-- Go on with an engine result, or fail or pause the job. -/
def EngRes.elim {α : Type} (r : EngRes α) (s : State) (cluster : Nat) (j : SelJob) (f : State → α → State) : State :=
  match r with
  | .ok s' x => f s' x
  | .fail sub c a => s.failSel cluster j sub c a
  | .pause sub a => s.pauseSel cluster j sub a

/-! ## Completion (R275, R276, R279) -/

/-- A completion record's bytes from its fields. -/
def recordBytes (status w4 v8 img n below ties wt before : Nat) : List Byte :=
  leBytes status 4 ++ leBytes w4 4 ++ leBytes v8 8 ++ leBytes img 8 ++ leBytes n 4 ++ leBytes below 4 ++
    leBytes ties 4 ++ leBytes 0 4 ++ leBytes wt 40 ++ leBytes before 40 ++ leBytes 0 8

/-- The ranges that a job reads in every pass: the column with its side arrays, and the weights. -/
def SelJob.inputs (j : SelJob) : List (Nat × Nat) :=
  columnRanges j.fmt j.d j.col.toNat 0 j.count ++ (if j.wtOn then [(j.aux.toNat, 4 * j.count)] else [])

def SelJob.maskArea (j : SelJob) : List (Nat × Nat) := [(selMaskAddr j.d, (j.count + 7) / 8)]

/-- The record and the index list. -/
def SelJob.results (j : SelJob) : List (Nat × Nat) :=
  (j.recAddr.toNat, 128) :: (if j.scmp then [(j.aux.toNat, 4 * j.count)] else [])

/-- The bytes of ranges: their home keys. -/
def State.rangeKeys (s : State) (p : Party) (rs : List (Nat × Nat)) : List Nat :=
  match s.checkRanges p false rs with
  | .ok segs _ => segs.flatMap fun x =>
      natsFrom (if isVaultKey x.target || isFabric x.target then x.target else s.liveKey x.target) x.len
  | _ => []

/-- Was a byte of the inputs, or of a mask area read with `mi`, written by others while the job ran, or do the areas it
writes overlap them, so that every field it writes is undefined (R279)? The job itself writes the mask area at its end
(R276). -/
def State.selTaint (s : State) (p : Party) (j : SelJob) : Bool :=
  let ins := s.rangeKeys p j.inputs
  let maskIn := if selMi j.d then s.rangeKeys p j.maskArea else []
  let maskOut := if selMo j.d then s.rangeKeys p j.maskArea else []
  let outs := s.rangeKeys p j.results
  j.spoiled || (ins ++ maskIn).any outs.contains || ins.any maskOut.contains ||
    s.changedSince (ins ++ (if j.maskDone then [] else maskIn)) j.since

/-- n bytes of free values; they take n / 32768 + 1 numbers of the counter. -/
def freeBytes (free n : Nat) : List Byte :=
  (natsFrom 0 n).map fun i => (freeVal (free + i / 32768) 14 (i / 512 % 64) (i % 512)).setWidth 8

/-- The counter after n free bytes. -/
def afterFree (free n : Nat) : Nat := free + n / 32768 + 1

/-- Write the record: all but the status first, then the status as a release at package scope (R279); free bytes when
the job is tainted. -/
def State.selRecord (s : State) (cluster : Nat) (p : Party) (j : SelJob) (taint : Bool) (bs : List Byte) : State :=
  let rec0 := j.recAddr.toNat
  let bs := if taint then freeBytes s.free 128 else bs
  let s := { s with free := s.free + 1 }
  (s.selPut p 0x25 (advance rec0 4) (bs.drop 4)).elim s cluster j fun s segs =>
    match s.checkRanges p true [(rec0, 4)] with
    | .bad c a => s.failSel cluster j 0x25 c a
    | .pause a => s.pauseSel cluster j 0x25 a
    | .ok st _ =>
      let w := s.selWrote cluster p j (segs ++ st)
      let s := (w.1.count p.la.ctx 12 (vaultBytes st)).dropLines j.gk p.core j.pos w.2.lines
      let slot := ((s.group j.gk).map (·.slot)).getD 0
      let s := st.foldl (fun s x =>
        if isFabric x.target then s
        else s.writeHome x.target (bs.take 4) (some (.group p.core slot, 4))) s
      let q := s.selQueue cluster
      let s := s.setSelQueue cluster { q with jobs := q.jobs.filter fun x => !(x.gk == j.gk && x.id == j.id) }
      (s.engineDown j.gk 1 0).jobStop j.gk w.2.stop

/-- The mask area after a job (R276): bit i says that `sel` holds. -/
def maskBytes (n : Nat) (sel : Nat → Bool) : List Byte :=
  (natsFrom 0 ((n + 7) / 8)).map fun b =>
    BitVec.ofNat 8 (((natsFrom 0 8).filter fun i => decide (b * 8 + i < n) && sel (b * 8 + i)).map (2 ^ ·) |>.foldl (· + ·) 0)

/-- Write the mask area when `mo` asks for it, then the record; `lost`: the inputs are known to have changed. -/
def State.selFinish (s : State) (cluster : Nat) (p : Party) (j : SelJob) (lost : Bool) (sel : Nat → Bool)
    (bs : List Byte) : State :=
  let taint := lost || s.selTaint p j
  if selMo j.d && !j.maskDone then
    let mask := if taint then freeBytes s.free ((j.count + 7) / 8) else maskBytes j.count sel
    let s := { s with free := afterFree s.free j.count }
    (s.selPut p 0x24 (selMaskAddr j.d) mask).elim s cluster j fun s segs =>
      let w := s.selWrote cluster p j segs
      w.1.selRecord cluster p { w.2 with maskDone := true, spoiled := taint } taint bs
  else s.selRecord cluster p j taint bs

/-- An EMPTY job ends. -/
def State.selEmpty (s : State) (cluster : Nat) (p : Party) (j : SelJob) : State :=
  s.selFinish cluster p j false (fun _ => false) (recordBytes 1 0 0 0 j.n 0 0 0 0)

/-! ## Passes of `srank` (R272 to R274) -/

/-- The lowest bit of the current pass's digit. -/
def SelJob.lo (j : SelJob) : Nat := j.hi + 1 - min j.rad (j.hi + 1)

def SelJob.digit (j : SelJob) (key : Nat) : Nat := bitsOf key j.hi j.lo

/-- Does a key agree with the bits that the walk has fixed? -/
def SelJob.candidate (j : SelJob) (x : Elem) : Bool := x.counted && x.key / 2 ^ (j.hi + 1) == j.pre

/-- The goal of R272. -/
def SelJob.goal (j : SelJob) (s : Nat) : Bool :=
  if selMode j.d then jobReg j.d 4 * j.wt ≤ s * 2 ^ 31 else jobReg j.d 4 + 1 ≤ s

/-- A weight as a count of 2^-149 (R274); none when it is negative, NaN or infinite. -/
def weightUnits (x : Nat) : Option Nat :=
  match decodeF .f32 x with
  | .fin n m e => if n && m != 0 then none else some (m * 2 ^ (e + 149).toNat)
  | _ => none

/-- Put an element into its bin. -/
def addBin (bins : KMap (Nat × Nat × Nat)) (d i w : Nat) : KMap (Nat × Nat × Nat) :=
  match bins.find d with
  | none => bins.put d (w, 1, i)
  | some b => bins.put d (b.1 + w, b.2.1 + 1, min b.2.2 i)

/-- Count the candidates of a chunk; weights are read one by one. -/
def State.countElems (s : State) (p : Party) (j : SelJob) : List Elem → KMap (Nat × Nat × Nat) →
    EngRes (KMap (Nat × Nat × Nat))
  | [], bins => .ok s bins
  | x :: rest, bins =>
    if !j.candidate x then State.countElems s p j rest bins
    else if !j.wtOn then State.countElems s p j rest (addBin bins (j.digit x.key) x.i 1)
    else
      let a := advance j.aux.toNat ((4 * x.i : Nat) : Int)
      match s.selGet p j.gk j.id 0x23 [(a, 4)] with
      | .fail sub c a => .fail sub c a
      | .pause sub a => .pause sub a
      | .ok s bs =>
        match weightUnits (ofLeBytes bs) with
        | some w => State.countElems s p j rest (addBin bins (j.digit x.key) x.i w)
        | none =>
          if j.pass == 0 then .fail 0x26 0 a else State.countElems s p j rest (addBin bins (j.digit x.key) x.i 0)

/-- The lowest digit at which the goal holds: the digit, and the sum and members of lower bins. -/
def SelJob.choose (j : SelJob) (cum below : Nat) : KMap (Nat × Nat × Nat) → Option (Nat × Nat × Nat × Nat × Nat)
  | [] => none
  | (d, b) :: rest =>
    if j.goal (cum + b.1) then some (d, cum, below, b.2.1, b.2.2)
    else SelJob.choose j (cum + b.1) (below + b.2.1) rest

/-- The walk has found v: the record of R275. -/
def State.selDone (s : State) (cluster : Nat) (p : Party) (j : SelJob) (v ties idx : Nat) : State :=
  (s.selGet p j.gk j.id 0x22 (columnRanges j.fmt j.d j.col.toNat 0 j.count)).elim s cluster j fun s bs =>
    let es := j.elems 0 j.count bs
    let enc := match (columnCodes j.fmt 0 j.count bs)[idx]? with
      | some x => (selImage j.fmt j.zm x.1 x.2.1 x.2.2).2.2
      | none => 0
    let hits := (es.filter fun x => x.counted && x.key == v).map (·.i)
    s.selFinish cluster p j false hits.contains
      (recordBytes 0 idx enc (if j.desc then j.top - v else v) j.n j.below ties (if j.wtOn then j.wt else 0)
        (if j.wtOn then j.base else 0))

/-- The walk is over: the record is written, now and, after a pause, again. -/
def State.selEnd (s : State) (cluster : Nat) (p : Party) (j : SelJob) : SelEnd → State
  | .found v ties idx => s.selDone cluster p { j with fin := some (.found v ties idx) } v ties idx
  | .empty => s.selEmpty cluster p { j with fin := some .empty }
  | .lost => s.selFinish cluster p { j with fin := some .lost } true (fun _ => false) []

/-- The end of a pass. Where inputs that changed leave no digit at which the goal holds, the record is undefined
(R279). -/
def State.endPassSel (s : State) (cluster : Nat) (p : Party) (j : SelJob) : State :=
  let sums := (j.bins.vals.map (·.1)).foldl (· + ·) 0
  let members := (j.bins.vals.map (·.2.1)).foldl (· + ·) 0
  let j := if j.pass == 0 then { j with n := members, wt := sums } else j
  let empty := j.n == 0 || (!selMode j.d && j.n ≤ jobReg j.d 4)
  if j.pass == 0 && empty then s.selEnd cluster p j .empty
  else
    match j.choose j.base j.below j.bins with
    | none => s.selEnd cluster p j .lost
    | some (d, cum, below, ties, idx) =>
      let v := j.pre * 2 ^ (j.hi + 1 - j.lo) + d
      let j' := { j with base := cum, below := below, pre := v, bins := [] }
      if j.lo == 0 then s.selEnd cluster p j' (.found v ties idx)
      else s.onSelJob cluster j.gk j.id fun _ => { j' with hi := j.lo - 1, pass := j.pass + 1, cursor := 0 }

/-! ## `scmp` (R277, R283) -/

/-- `cond` of R45 on unsigned images. -/
def selCond (jf : Nat) (a b : Nat) : Bool :=
  match jf % 8 with
  | 0 => a == b
  | 1 => a != b
  | 2 => a < b
  | 3 => a ≤ b
  | 4 => b < a
  | _ => b ≤ a

/-- One chunk of an `scmp`: its indices go to the list. -/
def State.emitChunk (s : State) (cluster : Nat) (p : Party) (j : SelJob) (es : List Elem) : State :=
  let u := es.filter (·.counted)
  let hits := if j.dead then [] else (u.filter fun x => selCond j.jf x.key j.thr).map (·.i)
  let cnt := min 4096 (j.count - j.cursor)
  let next (s : State) (j : SelJob) : State :=
    let s := s.count p.la.ctx 14 1
    let j := { j with n := j.n + u.length, emitted := j.emitted + hits.length, cursor := j.cursor + cnt }
    if j.cursor < j.count then s.onSelJob cluster j.gk j.id fun _ => j
    else
      let s := if 0 < j.emitted && s.selTaint p j then
          match s.selPut p 0x25 j.aux.toNat (freeBytes s.free (4 * j.emitted)) with
          | .ok s _ => { s with free := afterFree s.free (4 * j.emitted) }
          | _ => s
        else s
      if j.dead then s.selEmpty cluster p j
      else s.selRecord cluster p j (s.selTaint p j) (recordBytes 0 j.emitted j.thrEnc j.thr j.n 0 0 0 0)
  if hits.isEmpty then next s j
  else
    (s.selPut p 0x25 (advance j.aux.toNat ((4 * j.emitted : Nat) : Int)) (hits.flatMap fun i => leBytes i 4)).elim s
      cluster j fun s segs =>
        let w := s.selWrote cluster p j segs
        next w.1 w.2

/-! ## SELECTION_CHUNK -/

/-- The start of a job: the mask, and the threshold (R271, R277, R283). A job that pauses here starts again. -/
def State.selStart (s : State) (cluster : Nat) (p : Party) (j : SelJob) (k : State → SelJob → State) : State :=
  let first := j.since == 0
  let s := if first then s.jobRelease j.gk p.core j.pos else s
  let j := { j with since := if first then s.seq else j.since }
  let mask := if selMi j.d then s.selGet p j.gk j.id 0x24 [(selMaskAddr j.d, (j.count + 7) / 8)] else .ok s []
  mask.elim s cluster j fun s mask =>
    let j := { j with mask := mask }
    if j.chain then
      (s.selGet p j.gk j.id 0x25 [(selThr j.d, 0x18)]).elim s cluster j fun s bs =>
        let m := 2 ^ j.width
        k s { j with started := true, dead := field bs 0 4 != 0, thr := field bs 0x10 8 % m, thrEnc := field bs 8 8 % m }
    else if j.scmp then
      let f : Fmt := if j.fmt.isBlock then .f32 else j.fmt
      let t := selThr j.d % 2 ^ f.width
      k s { j with started := true, thr := (selImage f j.zm t 0 0).1, thrEnc := t }
    else k s { j with started := true }

/-- A chunk of up to 4,096 elements of a job that has started. -/
def State.selChunk (s : State) (cluster : Nat) (p : Party) (j : SelJob) : State :=
  match j.fin with
  | some x => s.selEnd cluster p j x
  | none =>
  let cnt := min 4096 (j.count - j.cursor)
  (s.selGet p j.gk j.id 0x22 (columnRanges j.fmt j.d j.col.toNat j.cursor cnt)).elim s cluster j fun s bs =>
    let es := j.elems j.cursor cnt bs
    if j.scmp then s.emitChunk cluster p j es
    else
      (s.countElems p j es j.bins).elim s cluster j fun s bins =>
        let s := s.count p.la.ctx 14 1
        let j := { j with bins := bins, cursor := j.cursor + cnt }
        if j.cursor < j.count then s.onSelJob cluster j.gk j.id fun _ => j else s.endPassSel cluster p j

/-- May a group's head selection job run a chunk (R279)? -/
def State.selRuns (s : State) (j : SelJob) : Bool :=
  j.paused.isNone && !s.teamAway j.gk &&
    match s.group j.gk with
    | none => false
    | some g => j.started || g.jobReady j.id

def execSelectionChunk (cluster : Nat) (s : State) : Outcome :=
  let q := s.selQueue cluster
  let heads := (turnAfter q.last (q.jobs.map (·.gk))).filterMap fun gk => q.jobs.find? fun j => j.gk == gk
  match heads.find? s.selRuns with
  | none => .next s
  | some j =>
    match s.jobParty j.gk j.lane with
    | none => .next s
    | some p =>
      let s := s.setSelQueue cluster { q with last := j.gk }
      if j.started then .next (s.selChunk cluster p j)
      else .next (s.selStart cluster p j fun s j => s.selChunk cluster p j)

/-- The ranges that a selection job may now access, the ones that it reads alone if `reads` holds. -/
def SelJob.ranges (j : SelJob) (reads : Bool) : List (Nat × Nat) :=
  (if j.chain && !j.started then [(selThr j.d, 0x18)] else []) ++ j.inputs ++
    (if selMi j.d || (selMo j.d && !reads) then j.maskArea else []) ++ (if reads then [] else j.results)

/-- What a fabric peer, or the link to it, answers to a selection job's access (R374, R383): the job ends. -/
def State.peerSel (s : State) (cluster gk id : Nat) (f : PeerFault) : State :=
  match (s.selQueue cluster).jobs.find? fun (j : SelJob) => j.gk == gk with
  | none => s
  | some j =>
    match s.jobParty gk j.lane with
    | none => s
    | some p =>
      if j.id != id || !s.selRuns j then s
      else
        match s.peerSeg p (j.ranges (f == .poison)) with
        | some x => s.failSel cluster j (f.sub 0x27) f.under x.addr
        | none => s

end Sys2Proof.Machine
end

