-- ==== Sys2Proof/Machine/Post.lean ====
section
/-! DEFINITION. `launch` and `evsig` (R317, R322 to R325). -/

namespace Sys2Proof.Machine

open Sys2Proof

/-! ## launch (R324) -/

/-- A device queue. -/
def State.deviceQueue (s : State) (q : Nat) : DevQ := (s.devQ.find q).getD ⟨[], none⟩

def State.setDeviceQueue (s : State) (q : Nat) (d : DevQ) : State := { s with devQ := s.devQ.put q d }

/-- `launch`: the record's address is checked and captured; the engine counter counts the word. -/
def execLaunch (o : EOp) (s : State) : Outcome :=
  word o.h 1 [span true o.va] [span true o.va] (fun e s =>
    match e.lanes with
    | [] => .ok (s.noWrite e id)
    | l :: _ =>
      let a := e.pair 0 l o.va
      match s.checkAccess (e.party l) e.core a 256 256 false false with
      | .bad c => .bad ⟨c, 0, l, BitVec.ofNat 64 a, 0, fIf (c == cECCFATAL) 1⟩
      | .unresolved => .park l (BitVec.ofNat 64 a) 0
      | .ok t nc fill =>
        if 255 ≤ e.g.engine then .stall
        else
          let op := newAccess e .launch 256 .n32 0 0 false 0 (o.jf.toNat % 16) (Instr.launch o).encode.1 0
          .ok ((s.fillTlb fill).noWrite e fun g =>
            { (g.addAccess { op with lanes := [laneAcc l (e.g.lane l).depth a t nc 0 0 (s.portOf t)] }) with
              engine := g.engine + 1 })) s

/-- An access of a group that counts elsewhere is over. -/
def Group.finishOp (g : Group) (id : Nat) : Group :=
  g.onAccess id fun a => { a with complete := true, lanes := a.lanes.map fun x => { x with done := true } }

/-- The accesses of a group's words before one have been performed, at system scope once the core's dirty bytes
are written back (R288, R324, R325, R380, R381). -/
def State.beforeAll (s : State) (gk id : Nat) (pos : Word) : Option State :=
  match s.group gk with
  | none => none
  | some g =>
    if g.settledRest id && g.tilesDone id && !s.teamAway gk then some (s.jobRelease gk (s.seat g).1 pos) else none

/-- The 256 bytes that a word's lane reads, each of their two lines at its home; none where they hold an uncorrectable
error. A fabric peer's bytes are free values (log entry 11). -/
def State.recordBytes (s : State) (gk id : Nat) (x : LaneAcc) : Option (State × List Byte) :=
  match s.readSegsFor gk id [⟨x.ea.toNat, x.target, 128, x.port⟩, ⟨x.ea.toNat + 128, x.target + 128, 128, x.port⟩] with
  | .ok r => some r
  | .error _ => none

/-- A record that has been read joins the device queue of its word once that has room. -/
def State.appendRecord (s : State) (gk : Nat) (g : Group) (a : Access) (x : LaneAcc) : State :=
  let q := 48 + a.vd
  let d := s.deviceQueue q
  if 64 ≤ d.entries.length then s
  else
    match s.moduleOf g with
    | none => s
    | some (_, la, _) =>
      ((s.setDeviceQueue q { d with entries := d.entries ++ [(la.ctx, la.function, leBytes x.value 256)] }).onGroup gk
        fun g => { (g.finishOp a.id) with engine := g.engine - 1 }).noteSaved gk

/-- A launch whose record cannot be read is over: its group takes a deferred fault (R249, R301, R383). -/
def State.failLaunch (s : State) (gk : Nat) (a : Access) (x : LaneAcc) (code cause : Nat) : State :=
  ((s.onGroup gk fun g => { (g.finishOp a.id) with engine := g.engine - 1 }).deferFault gk a.pos
    ⟨code, cause, x.lane, x.ea, 0, 0⟩ false 0 0 0 none).noteSaved gk

/-- LAUNCH_RECORD_APPEND: the record is read, and with that the word's access is performed; the record joins its device
queue now, or later where that has no room (R324). -/
def execLaunchRecordAppend (gk id : Nat) (s : State) : Outcome :=
  match s.group gk with
  | none => .next s
  | some g =>
    match g.access id with
    | none => .next s
    | some a =>
      if a.kind != .launch || a.complete then .next s
      else
        match a.lanes with
        | [] => .next s
        | x :: _ =>
          if x.done then .next (s.appendRecord gk g a x)
          else
            match s.beforeAll gk id a.pos with
            | none => .next s
            | some s =>
              if isFabric x.target && s.portDown x.port then .next (s.failLaunch gk a x cENGINE 0x70)
              else
                match s.recordBytes gk id x with
                | none => .next (s.failLaunch gk a x cECCFATAL 0)
                | some (s, bs) =>
                  let x := { x with done := true, value := ofLeBytes bs }
                  .next (((s.countVault (s.ctxOf g) x.target 256).onGroup gk fun g =>
                    g.onAccess id fun a => a.onLane x.lane fun _ => x).appendRecord gk g a x)

/-- What a fabric peer, or the link to it, answers to the read of a `launch` record (R374, R383). -/
def State.peerLaunch (s : State) (gk : Nat) (g : Group) (a : Access) (x : LaneAcc) (f : PeerFault) : State :=
  if isFabric x.target && !x.done && !a.complete && g.settledRest a.id && g.tilesDone a.id && !s.teamAway gk then
    s.failLaunch gk a x (if f == .poison then cECCFATAL else cENGINE) (f.sub 0)
  else s

/-! ## evsig (R325) -/

/-- Does a context own an event counter? -/
def Ctx.owns (c : Ctx) (i : Nat) : Bool := c.evFirst ≤ i && i < c.evFirst + c.evCount

/-- `evsig`: index and amount are captured; the stores counter counts the word. -/
def execEvsig (o : EOp) (s : State) : Outcome :=
  let wide := o.fmt == .n64
  let regs := [span false o.va, span wide o.vb]
  word o.h 1 regs regs (fun e s =>
    match e.lanes with
    | [] => .ok (s.noWrite e id)
    | l :: _ =>
      let i := e.reg1 0 l o.va
      let x := e.val 1 o.fmt l o.vb
      let own := match s.ctxs.find e.la.ctx with
        | some c => c.owns i
        | none => false
      if 4096 ≤ i || !own then .bad (wfault cPROT l)
      else if 255 ≤ e.g.stores then .stall
      else
        let op := newAccess e .evsig 8 o.fmt 0 0 false 0 0 (Instr.evsig o).encode.1 0
        .ok (s.noWrite e fun g =>
          { (g.addAccess { op with lanes := [laneAcc l (e.g.lane l).depth i (2 ^ 60 + i) true x 0 0] }) with
            stores := g.stores + 1 })) s

/-- Does the wait counter of a launch, if it names one, hold its wait value (R320)? -/
def Launch.waitHolds (l : Launch) (events : KMap Dword) : Bool :=
  let w := field l.record 0x48 2
  !bitOf w 15 || field l.record 0x50 8 ≤ ((events.find (bitsOf w 11 0)).getD 0).toNat

/-- Launches whose wait counter holds the wait value have done with waiting, whatever it holds later (R320). -/
def State.noteWaits (s : State) : State :=
  { s with launches := s.launches.map fun p => if p.2.waitHolds s.events then (p.1, { p.2 with waitMet := true }) else p }

/-- An event counter takes a value. -/
def State.setEvent (s : State) (i : Nat) (v : Dword) : State := ({ s with events := s.events.put i v } : State).noteWaits

/-- Add to an event counter. -/
def State.addEvent (s : State) (i n : Nat) : State := s.setEvent i ((s.events.find i).getD 0 + BitVec.ofNat 64 n)

/-- EVENT_COUNTER_ADD: the accesses of earlier words are performed; the counter takes the amount. -/
def execEventCounterAdd (gk id : Nat) (s : State) : Outcome :=
  match s.group gk with
  | none => .next s
  | some g =>
    match g.access id with
    | none => .next s
    | some a =>
      if a.kind != .evsig || a.complete then .next s
      else
        match s.beforeAll gk id a.pos, a.lanes with
        | some s', x :: _ =>
          .next (((s'.addEvent x.ea.toNat x.data).onGroup gk fun g =>
            { (g.finishOp id) with stores := g.stores - 1 }).noteSaved gk)
        | _, _ => .next s

end Sys2Proof.Machine
end

