-- ==== Sys2Proof/Machine/Collective.lean ====
section
/-! DEFINITION. The collective engine: `coll` and its fold (R376 to R380, R383, R384). -/

namespace Sys2Proof.Machine

open Sys2Proof

/-! ## The descriptor and the list (R378) -/

def collN (d : List Word) : Nat := jobReg d 0
def collP (d : List Word) : Nat := bitsOf (jobReg d 1) 7 0
def collRank (d : List Word) : Nat := bitsOf (jobReg d 1) 15 8
def collListAddr (d : List Word) : Nat := jobReg d 2 + 2 ^ 32 * jobReg d 3
def collId (d : List Word) : Word := d.getD 4 0

/-- Bytes of an element. -/
def collElem (fmt : Fmt) (fn : Nat) : Nat := if fn == 3 then 8 else fmt.width / 8

def collDescrOk (d : List Word) : Bool :=
  1 ≤ collN d && collN d ≤ 1048576 && 2 ≤ collP d && collP d ≤ 64 && collRank d < collP d
    && bitsOf (jobReg d 1) 31 16 == 0 && jobReg d 5 == 0 && jobReg d 6 == 0 && jobReg d 7 == 0

/-- This package's node id by a path table; 1,023 where none is loaded. -/
def ownNode (paths : Option PathTable) : Nat := (paths.map (·.own)).getD 1023

/-- Entry i of a list: the node, where 1,023 means this package, and the die. -/
def listEntry (paths : Option PathTable) (list : List Byte) (i : Nat) : Nat × Nat :=
  let x := field list (4 * i) 4
  let n := bitsOf x 9 0
  (if n == 1023 then ownNode paths else n, bitsOf x 11 10)

/-- Does an entry name this package? -/
def isLocal (paths : Option PathTable) (x : Nat × Nat) : Bool := x.1 == ownNode paths

def noRepeats (xs : List (Nat × Nat)) : Bool := (dedup xs).length == xs.length

/-- The conditions on the list of a descriptor, for a word issued on a die under a path table. -/
def listOk (paths : Option PathTable) (d : List Word) (die : Nat) (list : List Byte) : Bool :=
  let es := (natsFrom 0 (collP d)).map (listEntry paths list)
  (natsFrom 0 (collP d)).all (fun i => bitsOf (field list (4 * i) 4) 31 12 == 0) && noRepeats es &&
    listEntry paths list (collRank d) == (ownNode paths, die)

/-- Checks of a range in a global or vault window. -/
def State.collRange (s : State) (p : Party) (write : Bool) (addr n : Nat) : Segs :=
  match windowOf addr with
  | some (.priv _) => .bad cSPACEINVALID addr
  | _ => s.checkRanges p write [(addr, n)]

/-- Is an address misaligned within its window? -/
def misaligned (addr n : Nat) : Bool :=
  match windowOf addr with
  | some w => w.offset % n != 0
  | none => false

/-! ## The queue (R376) -/

def State.collQueue (s : State) (die : Nat) : List CollPart := (s.collQ.find die).getD []

def State.setCollQueue (s : State) (die : Nat) (q : List CollPart) : State := { s with collQ := s.collQ.put die q }

/-- The die of a group. -/
def State.dieOfGroup (s : State) (gk : Nat) : Nat := dieOf (((s.teams.find (gk / 16)).map (·.core)).getD 0)

/-- The groups of the jobs that an engine holds, one entry for each job. -/
def State.collJobs (s : State) (die : Nat) : List Nat :=
  (s.collQueue die).map (·.gk) ++ (s.colls.vals.flatMap fun c => (c.parts.filter fun x => x.die == die).map (·.gk))
    ++ (s.msgs.vals.filter fun m => (s.group m.gk).isSome && s.dieOfGroup m.gk == die).map (·.gk)

/-- Has the engine of a die no room for a further job of a group? -/
def State.collFull (s : State) (die gk : Nat) : Bool :=
  let jobs := s.collJobs die
  64 ≤ jobs.length || 8 ≤ (jobs.filter (· == gk)).length

/-- `coll`: the descriptor is checked; once the accesses of earlier words are performed the list is read and
checked, and the job is queued. A list that cannot be read is left to the job (R383): its 0x50, if the list breaks R378, is
then a deferred fault (DESIGN CHOICE, log entry 70). -/
def execColl (o : EOp) (s : State) : Outcome :=
  let regs := [span true o.va, span true o.vb, (o.vc.toNat, 8)]
  let fn := o.jf.toNat % 4
  word o.h 1 regs regs (fun e s =>
    match e.lanes with
    | [] => .ok (s.noWrite e id)
    | l :: _ =>
      let src := e.pair 0 l o.va
      let dst := e.pair 1 l o.vb
      let d := e.jobRegs l o.vc
      let la := collListAddr d
      let el := collElem o.fmt fn
      let die := dieOf e.core
      if !collDescrOk d then .bad ⟨cENGINE, 0x50, l, 0, 0, 4⟩
      else if misaligned la 4 then .bad ⟨cALIGN, 0, l, BitVec.ofNat 64 la, 0, 0⟩
      else if misaligned src el then .bad ⟨cALIGN, 0, l, BitVec.ofNat 64 src, 0, 0⟩
      else if misaligned dst el then .bad ⟨cALIGN, 0, l, BitVec.ofNat 64 dst, 0, 0⟩
      else if s.collFull die e.gk || 255 ≤ e.g.engine then .stall
      else
        match s.dirtyBad e.core, s.beforeAll e.gk e.g.issued (e.g.pos e.run.tag) with
        | _, none => .stall
        | some a, some _ => .bad ⟨cECCFATAL, 0, l, BitVec.ofNat 64 a, 0, 1⟩
        | none, some s =>
          let read : Option (State × List Byte) :=
            match s.collRange (e.party l) false la (4 * collP d) with
            | .ok segs fill =>
              if (s.segsDown segs).isSome then none
              else (s.readSegsFor e.gk e.g.issued segs).toOption.map fun r => ((r.1.fillTlb fill).count e.la.ctx 12 (vaultBytes segs), r.2)
            | _ => none
          let job (list : Option (List Byte)) : CollPart :=
            { gk := e.gk, id := e.g.issued, lane := l, die := die, fmt := o.fmt, fn := fn, nofe := o.jf.toNat.testBit 2,
              d := d, src := BitVec.ofNat 64 src, dst := BitVec.ofNat 64 dst, list := list,
              paths := s.pathTable, data := [], since := s.seq,
              pos := e.g.pos e.run.tag, paused := none }
          let go (s : State) (list : Option (List Byte)) : Res :=
            .ok ((s.setCollQueue die (s.collQueue die ++ [job list])).noWrite e fun g =>
              { g with engine := g.engine + 1 })
          match read with
          | none => go s none
          | some (s, list) =>
            if listOk s.pathTable d die list then go s (some list) else .bad ⟨cENGINE, 0x50, l, BitVec.ofNat 64 la, 0, 4⟩) s

/-! ## Failures (R383) -/

/-- A job fails: it and the later queued jobs of its group leave the engine. -/
def State.failCollJob (s : State) (gk id : Nat) (pos : Word) (sub addr under : Nat) : State :=
  let die := s.dieOfGroup gk
  let later := (s.collQueue die).filter fun x => x.gk == gk && decide (id < x.id)
  let msgs := (s.msgs.filter fun p => p.2.gk == gk && p.2.sender.isNone && !p.2.sent && decide (id < p.2.id)).map (·.1)
  let s := s.setCollQueue die ((s.collQueue die).filter fun x => !(x.gk == gk && decide (id < x.id)))
  let s := { s with msgs := s.msgs.filter fun p => !msgs.contains p.1 }
  (s.engineDown gk (1 + later.length + msgs.length) 0).engineFault gk pos sub addr under 0 0

/-- A collective fails: every participant that it still holds takes a sub-code, and so do those that join
later. -/
def State.failColl (s : State) (index sub : Nat) : State :=
  match s.colls.find index with
  | none => s
  | some c =>
    let s := { s with colls := s.colls.put index { c with parts := [], failed := some sub } }
    c.parts.foldl (fun s x => s.failCollJob x.gk x.id x.pos sub 0 0) s

/-- One participant of a collective fails, the others take 0x52. -/
def State.failPart (s : State) (index : Nat) (x : CollPart) (sub addr under : Nat) : State :=
  match s.colls.find index with
  | none => s.failCollJob x.gk x.id x.pos sub addr under
  | some c =>
    let s := { s with colls := s.colls.put index { c with parts := c.parts.filter fun y => y.gk != x.gk || y.id != x.id } }
    (s.failCollJob x.gk x.id x.pos sub addr under).failColl index 0x52

/-! ## Starting a job (R379, R380) -/

/-- The collective of an id and a sequence number: its key, made where there is none. -/
def State.collFor (s : State) (cid : Word) (n : Nat) : State × Nat :=
  match s.colls.find? fun p => p.2.cid == cid && p.2.seq == n with
  | some p => (s, p.1)
  | none =>
    let k := nextKey s.colls
    ({ s with colls := s.colls.put k ⟨cid, n, [], none, none⟩ }, k)

/-- Do two participants agree? -/
def CollPart.agrees (a b : CollPart) : Bool :=
  collN a.d == collN b.d && a.fmt == b.fmt && a.fn == b.fn && collP a.d == collP b.d && a.list == b.list

/-- Change a queued job. -/
def State.onCollJob (s : State) (x : CollPart) (f : CollPart → CollPart) : State :=
  s.setCollQueue x.die ((s.collQueue x.die).map fun y => if y.gk == x.gk && y.id == x.id then f y else y)

/-- The record of a translation that a `coll` job cannot resolve, and its pause. -/
def State.pauseColl (s : State) (x : CollPart) (addr : Nat) : State :=
  s.pauseRecord x.gk x.id x.pos addr 0 0 0

/-- A started job joins its collective. -/
def State.joinColl (s : State) (x : CollPart) (fail : Option (Nat × Nat × Nat)) : State :=
  let s := s.setCollQueue x.die ((s.collQueue x.die).filter fun y => !(y.gk == x.gk && y.id == x.id))
  let key := x.die * 2 ^ 32 + (collId x.d).toNat
  let n := (s.collSeq.find key).getD 0
  let s := { s with collSeq := s.collSeq.put key (n + 1) }
  let r := s.collFor (collId x.d) n
  let s := r.1
  match s.colls.find r.2 with
  | none => s
  | some c =>
    match c.failed, fail with
    | some sub, _ => s.failCollJob x.gk x.id x.pos sub 0 0
    | none, some (sub, addr, under) => s.failPart r.2 x sub addr under
    | none, none =>
      let s := { s with colls := s.colls.put r.2 { c with parts := c.parts ++ [x] } }
      if c.parts.all x.agrees then s else s.failColl r.2 0x51

/-- The engine of a die starts a group's oldest `coll` job: it reads its source, and its list where the word could not. What
the word's check has read of the list and of the path table stands (R372). -/
def State.startColl (s : State) (gk id : Nat) : State :=
  match (s.collQueue (s.dieOfGroup gk)).find? fun x => x.gk == gk with
  | none => s
  | some x =>
    let earlier := s.msgs.vals.any fun m => m.gk == gk && m.sender.isNone && !m.sent && decide (m.id < id)
    if x.id != id || x.paused.isSome || s.teamAway gk || earlier then s
    else
      match s.jobParty gk x.lane with
      | none => s
      | some p =>
        let read (addr n : Nat) : EngRes (List Byte) :=
          match s.collRange p false addr n with
          | .bad c a => .fail 0x53 c a
          | .pause a => .pause 0x53 a
          | .ok segs fill =>
            match s.segsDown segs with
            | some a => .fail 0x70 0 a
            | none =>
              match s.readSegsFor gk id segs with
              | .error a => .fail 0x54 cECCFATAL a
              | .ok (s, bs) => .ok ((s.fillTlb fill).count p.la.ctx 12 (vaultBytes segs)) bs
        let list : EngRes (List Byte) :=
          match x.list with
          | some l => .ok s l
          | none => read (collListAddr x.d) (4 * collP x.d)
        match list with
        | .fail sub c a => s.joinColl x (some (sub, a, c))
        | .pause sub a => (s.pauseColl x a).onCollJob x fun y => { y with paused := some (sub, BitVec.ofNat 64 a) }
        | .ok s l =>
          if x.list.isNone && !listOk x.paths x.d x.die l then s.joinColl x (some (0x50, collListAddr x.d, 0))
          else
            match read x.src.toNat (collN x.d * collElem x.fmt x.fn) with
            | .fail sub c a => s.joinColl x (some (sub, a, c))
            | .pause sub a => (s.pauseColl x a).onCollJob x fun y => { y with paused := some (sub, BitVec.ofNat 64 a) }
            | .ok s bs =>
              s.joinColl { x with list := some l, data := bs } none

/-! ## COLLECTIVE_FOLD (R379) -/

/-- Combine two values of a format. -/
def combine (fmt : Fmt) (fn acc x : Nat) : Nat × Nat :=
  if fmt.isInt then
    let less := decide (intVal fmt x < intVal fmt acc)
    match fn with
    | 0 => ((acc + x) % 2 ^ fmt.width, 0)
    | 1 => (if less then x else acc, 0)
    | _ => (if less then acc else x, 0)
  else
    match fn with
    | 0 => faddVal fmt FEnv.plain acc x
    | 1 => ((minmax fmt FEnv.plain false false acc x).1, 0)
    | _ => ((minmax fmt FEnv.plain true false acc x).1, 0)

/-- Argmax on pairs: value in the low half, index in the high half. -/
def argmax (acc x : Nat) : Nat :=
  let m := 2 ^ 32
  let a := acc % m
  let b := x % m
  let na := (decodeF .f32 a).isNan
  let nb := (decodeF .f32 b).isNan
  let pick :=
    if a == b || (na && nb) then (if acc / m ≤ x / m then acc else x)
    else if na then x
    else if nb then acc
    else if image .f32 a < image .f32 b then x else acc
  let v := pick % m
  (if (decodeF .f32 v).isNan then canonicalNan .f32 else v) + m * (pick / m)

/-- The fold of one element over the ranks in order. -/
def foldElem (fmt : Fmt) (fn : Nat) : List Nat → Nat × Nat
  | [] => (0, 0)
  | a :: rest =>
    if fn == 3 then (rest.foldl argmax (if (decodeF .f32 (a % 2 ^ 32)).isNan then canonicalNan .f32 + 2 ^ 32 * (a / 2 ^ 32)
      else a), 0)
    else rest.foldl (fun r x => let y := combine fmt fn r.1 x; (y.1, r.2 ||| y.2)) (a, 0)

/-- The result bytes and flags of n elements from the contributions of the ranks. -/
def foldBytes (fmt : Fmt) (fn : Nat) : Nat → List (List Byte) → List Byte × Nat
  | 0, _ => ([], 0)
  | n + 1, ds =>
    let w := collElem fmt fn
    let r := foldElem fmt fn (ds.map fun d => ofLeBytes (d.take w))
    let rest := foldBytes fmt fn n (ds.map (·.drop w))
    (leBytes r.1 w ++ rest.1, r.2 ||| rest.2)

/-- The contributions of all ranks, in order: none while one is missing; an error is a participant that
failed, or whose job disagrees: its bytes are of another number (R380). The nodes and ports are those of the path table
that the word's checks read (R372). -/
def State.contributions (s : State) (c : Coll) (list : List Byte) (paths : Option PathTable) (size : Nat)
    (remote : List (Nat × Option (List Byte))) : List Nat → Except Nat (Option (List (List Byte)))
  | [] => .ok (some [])
  | r :: rs =>
    let e := listEntry paths list r
    let mine : Except Nat (Option (List Byte)) :=
      if isLocal paths e then .ok ((c.parts.find? fun x => x.die == e.2).map (·.data))
      else
        match pathIn paths (2 ^ 50 + e.1 * 2 ^ 40) with
        | none => .error 0x70
        | some path =>
          if s.portDown path.port then .error 0x70
          else
            match remote.find? fun p => p.1 == r with
            | none => .ok none
            | some (_, none) => .error 0x52
            | some (_, some bs) => if bs.length == size then .ok (some bs) else .error 0x51
    match mine, State.contributions s c list paths size remote rs with
    | .error a, _ => .error a
    | _, .error a => .error a
    | .ok (some a), .ok (some as) => .ok (some (a :: as))
    | _, _ => .ok none

/-- The keys of a team's units. -/
def Team.hasKey (tm : Team) (a : Nat) : Bool :=
  let v := clusterOf tm.core
  let inside (u n : Nat) : Bool := decide (vaultKey v (u * 65536) ≤ a) && decide (a < vaultKey v ((u + n) * 65536))
  inside tm.sUnit tm.sUnits || inside tm.vUnit tm.vUnits

/-- Was a byte of the units of a saved team written after a point before its save? -/
def Team.changedBefore (tm : Team) (a n since : Nat) : Bool :=
  (natsFrom a n).any fun b =>
    decide (since < (((tm.granCopy.find (b / 16)).bind fun g => g.written.find (b % 16)).getD 0))

/-- Was a byte of a participant's source changed since it was issued (R380): at its home, in the cache of a core that has
not written it back yet, or, for a saved team, in its units before the save? What stands at their place since then is of
other teams (R247). -/
def State.collTaint (s : State) (x : CollPart) : Bool :=
  match s.jobParty x.gk x.lane with
  | none => false
  | some p =>
    match s.collRange p false x.src.toNat (collN x.d * collElem x.fmt x.fn) with
    | .ok segs _ => segs.any fun g => !isFabric g.target &&
        if p.tm.saved && p.tm.hasKey g.target then p.tm.changedBefore g.target g.len x.since
        else s.changedSince (if isVaultKey g.target then natsFrom g.target g.len else s.segKeys [g]) x.since
    | _ => false

/-- Where a participant's destination stands. -/
inductive DestRes where
  | ready (segs : List Seg) (fill : List TlbEntry)
  | bad (sub code addr : Nat)
  | pause (addr : Nat)
  | away
  deriving DecidableEq, Repr

def State.destOf (s : State) (x : CollPart) (n : Nat) : DestRes :=
  if s.teamAway x.gk || x.paused.isSome then .away
  else
    match s.jobParty x.gk x.lane with
    | none => .away
    | some p =>
      match s.collRange p true x.dst.toNat n with
      | .bad c a => .bad 0x53 c a
      | .pause a => .pause a
      | .ok segs fill =>
        match s.segsDown segs with
        | some a => .bad 0x70 0 a
        | none => .ready segs fill

/-- A participant receives the result: destination, full bits, watchpoints, completion. Its core's cache keeps no line
of the destination (R315). -/
def State.deliverColl (s : State) (x : CollPart) (segs : List Seg) (fill : List TlbEntry) (bs : List Byte)
    (flags : Word) : State :=
  let ctx := ((s.group x.gk).map s.ctxOf).getD 0
  let core := ((s.group x.gk).map fun g => (s.seat g).1).getD 0
  let s := ((s.fillTlb fill).writeSegs false segs bs).dropLines x.gk core x.pos (segLines segs)
  let s := if x.nofe then s else (sortBy (fun a b => decide (a ≤ b)) (segGranules segs)).foldl
    (fun s i => s.setFull i true) s
  let s := s.count ctx 12 (vaultBytes segs)
  let r := s.engineHit x.gk x.pos 3 x.die bs.length none (s.watchSegs ctx segs)
  (r.1.engineDown x.gk 1 flags).jobStop x.gk r.2

/-- Give the result of a collective to the participants that can take it now. Where a source has changed, the result bits
are undefined and set no flag (R4, R380). -/
def State.finishColl (s : State) (index : Nat) (bs : List Byte) (flags : Word) : State :=
  match s.colls.find index with
  | none => s
  | some c =>
    let lost := c.parts.any s.collTaint
    let flags := if lost then 0 else flags
    let r := if lost then ({ s with free := afterFree s.free bs.length }, freeBytes s.free bs.length) else (s, bs)
    let s := r.1
    let bs := r.2
    let dests := c.parts.map fun x => (x, s.destOf x bs.length)
    match dests.findSome? fun p => match p.2 with
      | .bad sub code addr => some (p.1, sub, code, addr)
      | _ => none with
    | some (x, sub, code, addr) => s.failPart index x sub addr code
    | none =>
      let s := dests.foldl (fun s p =>
        match p.2 with
        | .ready segs fill => s.deliverColl p.1 segs fill bs flags
        | .pause a => s.pauseColl p.1 a
        | _ => s) s
      let left := dests.filterMap fun p =>
        match p.2 with
        | .ready _ _ => none
        | .pause a => some { p.1 with paused := some (0x53, BitVec.ofNat 64 a) }
        | _ => some p.1
      if left.isEmpty then { s with colls := s.colls.del index }
      else { s with colls := s.colls.put index { c with parts := left, result := some (bs, flags) } }

/-- What a fabric peer, or the link to it, answers to a collective job's access (R374, R383): of a job that waits to start
its list and its source, of one that has started its destination. The job fails, and the others take 0x52. -/
def State.peerColl (s : State) (gk id : Nat) (f : PeerFault) : State :=
  let n (x : CollPart) : Nat := collN x.d * collElem x.fmt x.fn
  let q := s.collQueue (s.dieOfGroup gk)
  match q.find? fun x => x.gk == gk && x.id == id with
  | some x =>
    if s.teamAway gk || x.paused.isSome || (q.find? fun y => y.gk == gk) != some x then s
    else
      match (s.jobParty gk x.lane).bind fun p => s.peerSeg p [(collListAddr x.d, 4 * collP x.d), (x.src.toNat, n x)] with
      | some y => s.joinColl x (some (f.sub 0x54, y.addr, f.under))
      | none => s
  | none =>
    match s.colls.findSome? fun p => (p.2.parts.find? fun x => x.gk == gk && x.id == id).map fun x => (p.1, x) with
    | none => s
    | some (i, x) =>
      if f == .poison then s
      else
        match (s.jobParty gk x.lane).bind fun p => s.peerSeg p [(x.dst.toNat, n x)] with
        | some y => s.failPart i x (f.sub 0) y.addr 0
        | none => s

/-- COLLECTIVE_FOLD: all participants have contributed; `remote` gives the contributions of other packages by
rank, none for one that failed. -/
def execCollectiveFold (index : Nat) (remote : List (Nat × Option (List Byte))) (s : State) : Outcome :=
  match s.colls.find index with
  | none => .next s
  | some c =>
    match c.result, c.parts with
    | some (bs, flags), _ => .next (s.finishColl index bs flags)
    | none, [] => .next s
    | none, x :: _ =>
      match x.list with
      | none => .next s
      | some list =>
        let size := collN x.d * collElem x.fmt x.fn
        match s.contributions c list x.paths size remote (natsFrom 0 (collP x.d)) with
        | .error sub => .next (s.failColl index sub)
        | .ok none => .next s
        | .ok (some ds) =>
          let r := foldBytes x.fmt x.fn (collN x.d) ds
          .next (s.finishColl index r.1 (BitVec.ofNat 32 r.2))

end Sys2Proof.Machine
end

