-- ==== Sys2Proof/Machine/Message.lean ====
section
/-! DEFINITION. Messages, accesses of fabric peers, and the failures of links (R371 to R375, R381 to R384). -/

namespace Sys2Proof.Machine

open Sys2Proof

/-! ## msg (R381) -/

/-- Has a node a path that a word may use (R371)? -/
def State.nodeValid (s : State) (node : Nat) : Bool :=
  match s.pathTable with
  | none => false
  | some t => node != t.own &&
    match t.entries[node]? with
    | some x => x.valid
    | none => false

def execMsg (o : EOp) (s : State) : Outcome :=
  let regs := [span true o.va, span false o.vb, (o.vc.toNat, 16)]
  word o.h 1 regs regs (fun e s =>
    match e.lanes with
    | [] => .ok (s.noWrite e id)
    | l :: _ =>
      let a := e.pair 0 l o.va
      let node := e.reg1 1 l o.vb
      let data := (natsFrom o.vc.toNat 16).map fun r => e.reg 2 l r
      match windowOf a with
      | some (.vault v off) =>
        if 1024 ≤ node || off % 64 != 0 then .bad ⟨cENGINE, 0x60, l, BitVec.ofNat 64 a, 0, 4⟩
        else if node != 1023 && !s.nodeValid node then .bad ⟨cPROT, 0, l, BitVec.ofNat 64 a, 0, 0⟩
        else if s.collFull (dieOf e.core) e.gk || 255 ≤ e.g.engine then .stall
        else
          let m : Message :=
            { gk := e.gk, id := e.g.issued, node := node, vault := v, offset := off, data := data,
              port := if node == 1023 then 0 else s.portOf (2 ^ 50 + node * 2 ^ 40), sender := none,
              pos := e.g.pos e.run.tag, sent := false, atPort := none }
          .ok ({ s with msgs := s.msgs.put (nextKey s.msgs) m }.noWrite e fun g => { g with engine := g.engine + 1 })
      | _ => .bad ⟨cENGINE, 0x60, l, BitVec.ofNat 64 a, 0, 4⟩) s

/-- Do 64 bytes of a vault lie in a scratchpad or a cluster-shared region allocated now? -/
def State.inboxOk (s : State) (v off : Nat) : Bool :=
  (s.teams.vals.any fun tm => !tm.saved && clusterOf tm.core == v && tm.sUnit * 65536 ≤ off &&
    off + 64 ≤ (tm.sUnit + tm.sUnits) * 65536) ||
  s.launches.vals.any fun l => l.shared.1 ≤ off && off + 64 ≤ l.shared.1 + l.shared.2

/-- A message fails at its sender. -/
def State.failMsg (s : State) (index : Nat) (m : Message) (sub : Nat) : State :=
  let s := { s with msgs := s.msgs.del index }
  if m.sender.isSome then s else s.failCollJob m.gk m.id m.pos sub (vaultAddress m.vault m.offset) 0

/-- Messages held for a region that is gone are refused. -/
def State.sweepMsgs (s : State) : State :=
  s.msgs.foldl (fun s p =>
    if p.2.sent && p.2.node == 1023 && !s.inboxOk p.2.vault p.2.offset then s.failMsg p.1 p.2 0x61 else s) s

/-- The messages that a vault holds. -/
def State.heldAt (s : State) (v : Nat) : List (Nat × Message) :=
  s.msgs.filter fun p => p.2.sent && p.2.node == 1023 && p.2.vault == v

/-- The watchpoint that a fill or an access of a fabric peer matches, of any context where the agent has
none. -/
def State.watchFill (s : State) (ctx : Option Nat) (kind target n : Nat) : Option (Nat × Watch × Nat) :=
  match ctx with
  | some c => s.watchHit c kind target n
  | none => (s.watch.vals.findSome? fun w => s.watchHit w.ctx kind target n)

/-- Write a held message into its inbox: one indivisible step. The table of R308 lists no such write, so that the tags stay
as they are. -/
def State.fillInbox (s : State) (index : Nat) (m : Message) : State :=
  let key := vaultKey m.vault m.offset
  let ctx := (s.group m.gk).map s.ctxOf
  let s := { s with msgs := s.msgs.del index }
  let s := s.writeQuiet key (m.data.flatMap fun w => leBytes w.toNat 4)
  let s := (natsFrom (key / 16) 4).foldl (fun s i => s.setFull i true) s
  let s := match ctx with
    | some c => s.count c 12 64
    | none => s
  let die := match m.sender with
    | some _ => 0
    | none => s.dieOfGroup m.gk
  let s := match s.watchFill ctx 2 key 64 with
    | none => s
    | some h =>
      let gk := if m.sender.isSome then noGroup else m.gk
      let off := ((s.watch.find h.1).map fun w => w.granule % 4 * 16).getD 0
      s.addRecord { (s.watchRecord gk 0 (4 * 32 + die) 6 m.pos (BitVec.ofNat 64 (vaultAddress m.vault (m.offset + off))) 0
        h.1 h.2.2 64) with cause := BitVec.ofNat 8 (4 * 32 + die) }
  if m.sender.isSome then s else s.engineDown m.gk 1 0

/-- The state in which a message may be sent: the accesses of earlier words are performed, at system scope once the core's
dirty bytes are written back (R381); none before that. It is sent whatever state its sender is in (R384). -/
def State.beforeMsg (s : State) (m : Message) : Option State :=
  match s.group m.gk with
  | none => none
  | some g =>
    if g.settledRest m.id && g.tilesDone m.id then some ((s.jobRelease m.gk (s.seat g).1 m.pos).noteSaved m.gk) else none

/-- Does a message within the package wait in the sending port of its die, before the vault that it goes to, and delay the
later messages of that port (R381)? A waiting one is delayed by those that came before it. -/
def State.portWaits (s : State) (m : Message) : Bool :=
  m.node == 1023 && s.msgs.vals.any fun x =>
    s.dieOfGroup x.gk == s.dieOfGroup m.gk &&
      match x.atPort, m.atPort with
      | some a, some b => decide (a < b)
      | some _, none => true
      | none, _ => false

/-- A message leaves its group's engine, in issue order, once earlier accesses are performed: it reaches its
vault, or goes to a peer. One that finds its vault full waits in the sending port. -/
def State.sendMsg (s : State) (index : Nat) (m : Message) : State :=
  let earlier := s.msgs.vals.any (fun x => x.gk == m.gk && x.sender.isNone && !x.sent && decide (x.id < m.id)) ||
    (s.collQueue (s.dieOfGroup m.gk)).any fun x => x.gk == m.gk && decide (x.id < m.id)
  if earlier || s.portWaits m then s
  else
    match s.beforeMsg m with
    | none => s
    | some s =>
      if m.node == 1023 then
        if !s.inboxOk m.vault m.offset then s.failMsg index m 0x61
        else if 64 ≤ (s.heldAt m.vault).length then
          { s with msgs := s.msgs.put index { m with atPort := some (m.atPort.getD s.seq) } }
        else { s with msgs := (s.msgs.del index).put (nextKey s.msgs) { m with sent := true, atPort := none } }
      else if s.portDown m.port then s.failMsg index m 0x70
      else { s with msgs := s.msgs.put index { m with sent := true } }

/-- MESSAGE_DELIVERY: a message is sent, then written once its four granules are empty; a peer answers with
`reply`. -/
def execMessageDelivery (index : Nat) (reply : Reply) (s : State) : Outcome :=
  match s.msgs.find index with
  | none => .next s
  | some m =>
    if !m.sent then .next (s.sendMsg index m)
    else if m.node != 1023 then
      if s.portDown m.port then .next (s.failMsg index m 0x70)
      else
        match reply with
        | .plain => .next ({ s with msgs := s.msgs.del index }.engineDown m.gk 1 0)
        | .refused => .next (s.failMsg index m 0x61)
        | _ => .next s
    else
      let first := (s.heldAt m.vault).find? fun p => p.2.offset == m.offset
      let grans := natsFrom (vaultKey m.vault m.offset / 16) 4
      if (first.map (·.1)) == some index && grans.all (fun i => !(s.granAt i).full) then .next (s.fillInbox index m)
      else .next s

/-! ## Accesses of peers (R374) -/

/-- The path entry that this package holds for a sender. -/
def State.entryOf (s : State) (node : Nat) : Option PathEntry :=
  match s.pathTable with
  | none => none
  | some t =>
    match t.entries[node]? with
    | some x => if x.valid then some x else none
    | none => none

/-- Does a peer's access lie in its window on this package's HBM? -/
def PathEntry.inWindow (x : PathEntry) (a n : Nat) : Bool :=
  x.base * 65536 ≤ a && a + n ≤ x.limit * 65536 && a + n ≤ 0x00C000000000

/-- The atomic that an op code names. -/
def atomicOf : Nat → Option AccKind
  | 0x100 => some .aadd
  | 0x101 => some .amin
  | 0x102 => some .amax
  | 0x103 => some .aand
  | 0x104 => some .aor
  | 0x105 => some .axor
  | 0x106 => some .aexch
  | 0x107 => some .acas
  | 0x108 => some .afadd
  | _ => none

/-- The tag that a peer's access leaves: the hub and its scope for a release, and never an owner. -/
def inboundTag (a : Inbound) : Option (Releaser × Nat) :=
  if a.order == 2 || a.order == 3 then some (.hub, a.scope.toNat) else none

/-- A peer's atomic (R291, R293); poison is left as it is. One that releases tags its granules (R308). -/
def State.inboundAtomic (s : State) (a : Inbound) (x : PathEntry) (k : AccKind) (f : Fmt) : State :=
  let n := f.width / 8
  let r := s.home a.addr
  let s := r.1
  if s.poisoned r.2 n then s
  else
    let old := s.readNum r.2 n
    let m := 2 ^ f.width
    let s := (s.correctHome r.2 n).write r.2 (leBytes (atomicNew k f old (a.data.1.toNat % m) (a.cmp.toNat % m)).1 n)
    let s := match inboundTag a with
      | some (who, sc) => s.tagRelease (granulesOf r.2 n) who sc
      | none => s
    match s.watchFill none 1 a.addr n with
    | none => s
    | some h =>
      s.addRecord { (s.watchRecord noGroup 0 (7 * 32 + x.port) 6 0 (BitVec.ofNat 64 a.addr) 0 h.1 h.2.2 n) with
        cause := BitVec.ofNat 8 (7 * 32 + x.port) }

/-- INBOUND_ACCESS: a peer's read, write, atomic or message, performed at this package's home or refused. -/
def execInboundAccess (a : Inbound) (s : State) : Outcome :=
  match s.entryOf a.node.toNat with
  | none => .next s
  | some x =>
    if s.portsDown.contains x.port then .next s
    else
      match a.message with
      | some (off, data) =>
        let v := a.addr
        if !x.inMsg || 96 ≤ v || off % 64 != 0 || data.length != 16 || !s.inboxOk v off || 64 ≤ (s.heldAt v).length then
          .next s
        else
          let m : Message :=
            { gk := noGroup, id := 0, node := 1023, vault := v, offset := off, data := data, port := 0,
              sender := some a.node.toNat,
              pos := 0, sent := true, atPort := none }
          .next { s with msgs := s.msgs.put (nextKey s.msgs) m }
      | none =>
        match a.atomic with
        | some (op, f) =>
          match atomicOf op.toNat with
          | none => .next s
          | some k =>
            if x.inWrite && x.inWindow a.addr (f.width / 8) && a.addr % (f.width / 8) == 0 then
              .next (s.inboundAtomic a x k f)
            else .next s
        | none =>
          if a.write then
            if x.inWrite && x.inWindow a.addr a.size && a.size ≤ 16 then
              .next (s.writeHome a.addr (leBytes (a.data.1.toNat + 2 ^ 64 * a.data.2.toNat) a.size) (inboundTag a))
            else .next s
          else if x.inRead && x.inWindow a.addr a.size then .next (s.touch a.addr)
          else .next s

/-! ## Links (R371, R383) -/

/-- Does the next lane of an accumulator transfer reach a peer? -/
def TileOp.peerLane (t : TileOp) : Option XferLane :=
  match t.kind with
  | .xfer _ _ _ _ _ _ (x :: _) => if x.elems.any fun p => isFabric p.target then some x else none
  | _ => none

/-- The message of a group's word that is under way to a peer. -/
def State.peerMsg (s : State) (gk id : Nat) : Option (Nat × Message) :=
  s.msgs.find? fun p => p.2.gk == gk && p.2.id == id && p.2.sender.isNone && p.2.sent && p.2.node != 1023

/-- What a fabric peer, or the link to it, answers to a `launch`, a tile transfer or an engine job of a group (R374, R383).
Poison is for reads alone. -/
def State.peerAnswer (s : State) (gk id : Nat) (f : PeerFault) : State :=
  match s.group gk with
  | none => s
  | some g =>
    let cl := clusterOf (s.seat g).1
    match g.access id with
    | some a =>
      match a.kind, a.lanes with
      | .launch, x :: _ => s.peerLaunch gk g a x f
      | _, _ => s
    | none =>
      match g.tiles.find? fun t => t.id == id with
      | some t =>
        let reads := match t.kind with
          | .xfer .ld _ _ _ _ _ _ => true
          | _ => false
        if f == .poison && !reads then s
        else s.xferStep gk id (some (if f == .poison then (cECCFATAL, 0) else (cENGINE, f.sub 0)))
      | none =>
        if (s.copyQueue cl).jobs.any fun (j : CopyJob) => j.gk == gk && j.id == id then s.peerCopy cl gk id f
        else if (s.selQueue cl).jobs.any fun (j : SelJob) => j.gk == gk && j.id == id then s.peerSel cl gk id f
        else s.peerColl gk id f

/-- Does a collective in progress still wait for a participant of another package? -/
def Coll.remote (c : Coll) : Bool :=
  c.result.isNone && c.parts.any fun x => (natsFrom 0 (collP x.d)).any fun r =>
    !isLocal x.paths (listEntry x.paths (x.list.getD []) r)

/-- LINK_TIMEOUT: an access, message, transfer or job of a group that is under way to a peer gets no
acknowledgement. -/
def execLinkTimeout (gk id : Nat) (s : State) : Outcome :=
  match s.group gk with
  | none => .next s
  | some g =>
    match (g.access id).bind fun a => if a.kind == .launch then none else a.next.map fun x => (a, x) with
    | some (a, x) =>
      if isFabric x.target && g.mayPerform a x && !g.saved then .next (s.accessFault gk a x cENGINE 0x71 true)
      else .next s
    | none =>
      match s.peerMsg gk id with
      | some (i, m) => .next (s.failMsg i m 0x71)
      | none =>
        match s.colls.find? fun p => p.2.remote && p.2.parts.any fun x => x.gk == gk && x.id == id with
        | some (i, _) => .next (s.failColl i 0x71)
        | none => .next (s.peerAnswer gk id .timeout)

/-- PORT_DOWN: accesses, jobs and messages that use the port take 0x70 from now on. -/
def execPortDown (port : BitVec 4) (s : State) : Outcome :=
  .next { s with portsDown := if s.portsDown.contains port.toNat then s.portsDown else port.toNat :: s.portsDown }

/-- FLIT_RETRY: a damaged flit is sent again, without any effect that software can see. -/
def execFlitRetry (_port : BitVec 4) (s : State) : Outcome := .next s

end Sys2Proof.Machine
end

