-- ==== Sys2Proof/Machine/Loader.lean ====
section
/-! DEFINITION. The heads of the launch queues, completion records, and the loading of modules (R163 to R176, R317
to R320, R350, R386). -/

namespace Sys2Proof.Machine

open Sys2Proof

/-! ## Queue heads (R317, R360) -/

def HostQ.fresh : HostQ := ⟨⟨0, 0, 0, 0⟩, none, none, none⟩

def State.hostQueue (s : State) (q : Nat) : HostQ := (s.hostQ.find q).getD HostQ.fresh

def State.setHostQueue (s : State) (q : Nat) (x : HostQ) : State := { s with hostQ := s.hostQ.put q x }

/-- The parts of n bytes at a physical address by 128-byte line: address and number. -/
def lineParts (pa n : Nat) : List (Nat × Nat) :=
  (natsFrom (pa / 128) ((pa + n + 127) / 128 - pa / 128)).map fun l =>
    let a := max pa (128 * l)
    (a, min (pa + n) (128 * l + 128) - a)

/-- Bytes at a physical address, each line's at its live home. -/
def State.physBytes (s : State) (pa n : Nat) : List Byte :=
  (lineParts pa n).flatMap fun x => s.readBytes (s.liveKey x.1) x.2

/-- The device reads bytes at a physical address: an ABSENT line is pulled first (R302), and single-bit errors are
corrected and counted (R287). -/
def State.correctPhys (s : State) (pa n : Nat) : State :=
  (lineParts pa n).foldl (fun s x =>
    let s := s.touch x.1
    s.correctHome (s.liveKey x.1) x.2) s

/-- Write bytes at a physical address as a write of the device (R305): the tag takes the hub and the scope. With no scope
the write is none that the table of R308 lists, and the tags stay as they are. -/
def State.physWrite (s : State) (pa : Nat) (bs : List Byte) (scope : Option Nat) : State :=
  (lineParts pa bs.length).foldl (fun s x =>
    let part := (bs.drop (x.1 - pa)).take x.2
    match scope with
    | some c => s.writeHome x.1 part (some (.hub, c))
    | none => s.writeQuiet x.1 part) s

/-- A ring's next entry and the ring past it. -/
def Ring.at (r : Ring) (size : Nat) : Nat := r.base.toNat + r.head.toNat % r.entries.toNat * size
def Ring.isEmpty (r : Ring) : Bool := r.entries == 0 || r.head == r.tail
def Ring.pop (r : Ring) : Ring := { r with head := BitVec.ofNat 32 ((r.head.toNat + 1) % r.entries.toNat) }

/-- An entry at a queue head: its context, its function, its 256 bytes. -/
structure HeadEntry where
  ctx : Nat
  fn : Nat
  rec0 : List Byte
  deriving DecidableEq, Repr

/-- The entry at the head of a queue whose current launch has placed all its teams. -/
def State.headOf (s : State) (q : Nat) : Option HeadEntry :=
  if q < 48 then
    let x := s.hostQueue q
    match x.bound with
    | none => none
    | some (ctx, fn) =>
      if x.current.isSome || x.ring.isEmpty then none else some ⟨ctx, fn, s.physBytes (x.ring.at 256) 256⟩
  else if q < 64 then
    let d := s.deviceQueue q
    match d.current, d.entries with
    | none, e :: _ => some ⟨e.1, e.2.1, e.2.2⟩
    | _, _ => none
  else none

/-- The head moves past its entry, which has been read. -/
def State.popHead (s : State) (q : Nat) : State :=
  if q < 48 then
    (s.correctPhys ((s.hostQueue q).ring.at 256) 256).setHostQueue q { s.hostQueue q with ring := (s.hostQueue q).ring.pop }
  else s.setDeviceQueue q { s.deviceQueue q with entries := (s.deviceQueue q).entries.drop 1 }

/-- The launch whose teams a queue is placing. -/
def State.currentOf (s : State) (q : Nat) : Option Nat :=
  if q < 48 then (s.hostQueue q).current else (s.deviceQueue q).current

def State.setCurrent (s : State) (q : Nat) (l : Option Nat) : State :=
  if q < 48 then s.setHostQueue q { s.hostQueue q with current := l }
  else s.setDeviceQueue q { s.deviceQueue q with current := l }

/-! ## Completion (R319, R386) -/

/-- The kind of an entry (R318). -/
def recKind (r : List Byte) : Nat := field r 0x40 1

/-- The hub translates an address of a context, without a TLB. -/
def hubId : Nat := 388

/-- Where a completion record can be written: 16 bytes, aligned, with W, in HBM or host memory. -/
def State.recordTarget (s : State) (ctx addr : Nat) : Option Nat :=
  if addr % 16 != 0 || 2 ^ 56 ≤ addr then none
  else
    match s.translate ctx hubId addr with
    | .ok pa true _ _ => if paKind pa == .hbm || paKind pa == .host then some pa else none
    | _ => none

/-- The hub has read the table entries for a virtual address. -/
def State.hubWalked (s : State) (ctx va : Nat) : State :=
  match s.translate ctx hubId va with
  | .ok _ _ _ fill => s.walked fill
  | _ => s

/-- The vectors of a function (none by default). -/
def State.vectorsOf (s : State) (fn : Nat) : Nat × Nat := (s.vectors.find fn).getD (0, 0)

/-- The end of an entry: its completion record, the signal of its counter for status 0, its message. -/
def State.finishEntry (s : State) (ctx fn : Nat) (r : List Byte) (status : Nat) (id : Word) : State :=
  let addr := field r 0x60 8
  let s :=
    if addr == 0 then s
    else
      match s.recordTarget ctx addr with
      | none => s
      | some pa => (s.hubWalked ctx addr).physWrite pa (leBytes status 4 ++ leBytes id.toNat 4 ++ leBytes s.time.toNat 8) (some 5)
  let sig := field r 0x4A 2
  let s := if status == 0 && bitOf sig 15 then s.addEvent (bitsOf sig 11 0) (field r 0x58 8) else s
  let v := field r 0x46 2
  if bitOf v 15 && bitsOf v 10 0 < (s.vectorsOf fn).2 then
    { s with msix := s.msix ++ [(s.vectorsOf fn).1 + bitsOf v 10 0] }
  else s

/-- The limits of bytes 0x40 to 0x7F (R318, R386). -/
def State.queueFieldsOk (s : State) (ctx fn : Nat) (r : List Byte) : Bool :=
  let inRange (i : Nat) : Bool :=
    match s.ctxs.find ctx with
    | some c => c.owns i
    | none => false
  let counter (off : Nat) : Bool :=
    let x := field r off 2
    bitsOf x 14 12 == 0 && (!bitOf x 15 || inRange (bitsOf x 11 0))
  let v := field r 0x46 2
  let urgent := bitOf (field r 0x41 1) 2
  field r 0x41 1 < 16 && field r 0x42 1 < 16 && field r 0x43 1 == 0 && (!urgent || field r 0x44 2 != 0) &&
    bitsOf v 14 11 == 0 && (!bitOf v 15 || bitsOf v 10 0 < (s.vectorsOf fn).2) && counter 0x48 && counter 0x4A &&
    field r 0x4C 4 == 0 && field r 0x68 24 == 0 &&
    (field r 0x60 8 == 0 || (s.recordTarget ctx (field r 0x60 8)).isSome)

/-- Are the bytes of a list zero from a to b? -/
def zeroBytes (r : List Byte) (a b : Nat) : Bool := ((r.drop a).take (b - a)).all (· == 0)

/-- An entry is refused: the launch id of its record is a free value, since it has none. -/
def State.refuseEntry (s : State) (q : Nat) (h : HeadEntry) (status : Nat) : State :=
  let s := s.popHead q
  { s with free := s.free + 1 }.finishEntry h.ctx h.fn h.rec0 status (freeVal s.free 12 0 0)

/-! ## The file (R172) -/

structure Sect where
  ty : Nat
  flags : Nat
  align : Nat
  off : Nat
  size : Nat
  link : Nat
  ok : Bool
  deriving DecidableEq, Repr

def sectAt (f : List Byte) (o : Nat) : Sect :=
  ⟨field f (o + 4) 4, field f (o + 8) 4, field f (o + 12) 4, field f (o + 16) 8, field f (o + 24) 8,
    field f (o + 32) 4, field f (o + 36) 4 == 0⟩

/-- The section table, when it lies in the file. -/
def sections (f : List Byte) : Option (List Sect) :=
  let o := field f 0x10 8
  let n := field f 0x18 4
  if o % 8 != 0 || n == 0 || 64 < n || f.length < o + 40 * n then none
  else some ((natsFrom 0 n).map fun i => sectAt f (o + 40 * i))

def Sect.bytes (x : Sect) (f : List Byte) : List Byte := (f.drop x.off).take x.size

/-- The first section of a type. -/
def sectOf (ss : List Sect) (ty : Nat) : Option Sect := ss.find? fun x => x.ty == ty

/-- The bytes of the first section of a type. -/
def sectBytes (f : List Byte) (ss : List Sect) (ty : Nat) : List Byte := ((sectOf ss ty).map (·.bytes f)).getD []

def sectCount (ss : List Sect) (ty : Nat) : Nat := (ss.filter fun x => x.ty == ty).length

/-- Do no two sections overlap? -/
def disjointSects : List Sect → Bool
  | [] => true
  | x :: rest => rest.all (fun y => x.size == 0 || y.size == 0 || x.off + x.size ≤ y.off || y.off + y.size ≤ x.off)
      && disjointSects rest

/-- The end of the section table. -/
def tableEnd (f : List Byte) : Nat := field f 0x10 8 + 40 * field f 0x18 4

/-- Check 0x04: the signature stands last in the file, behind the section table. -/
def tableOk (f : List Byte) : Bool :=
  match sections f with
  | none => false
  | some ss =>
    let signed := bitOf (field f 0x0C 4) 0
    field f 0x0C 4 < 2 && zeroBytes f 0x24 0x40 &&
    ss.all (fun x => x.ok && 1 ≤ x.ty && x.ty ≤ 13 && x.flags < 4 && 3 ≤ x.align && x.align ≤ 16 &&
      x.off + x.size ≤ f.length) &&
    disjointSects ss && [1, 2, 3, 4, 5, 7, 10, 11].all (fun t => sectCount ss t == 1) && sectCount ss 6 ≤ 1 &&
    sectCount ss 13 == (if signed then 1 else 0) &&
    (match sectOf ss 13 with
     | some x => x.size == 140 && x.off + x.size == f.length && tableEnd f ≤ x.off &&
         ss.all fun y => y.ty == 13 || y.off + y.size ≤ x.off
     | none => true) &&
    (match ss[field f 0x1C 4]?, ss[field f 0x20 4]? with
     | some a, some b => a.ty == 11 && b.ty == 10
     | _, _ => false) &&
    (sectBytes f ss 1).length == 24 && field (sectBytes f ss 1) 22 2 == 0

/-- Check 0x03 (R175): the section table is part of what is signed. DESIGN CHOICE (log entry 39): header flag bit 0 with no
signature section, and a signature section whose reserved bytes 4 to 7 are not 0, fail this check. -/
def State.signatureOk (s : State) (f : List Byte) (required : Bool) : Bool :=
  let ss := (sections f).getD []
  match sectOf ss 13 with
  | none => !required && !bitOf (field f 0x0C 4) 0
  | some x =>
    let b := x.bytes f
    let slot := field b 2 2
    b.length == 140 && field b 0 2 == 1 && slot < 8 && field b 4 4 == 0 && tableEnd f ≤ x.off &&
      match s.image.keys.find? fun k => k.1 == slot with
      | some k => Config.ecdsaOk k.2 (f.take x.off) ((b.drop 8).take 66) ((b.drop 74).take 66)
      | none => false

/-! ## The tables (R163 to R169) -/

/-- What the checks of the tables use: the header's counts and the sections' bytes. -/
structure ModFile where
  nStates : Nat
  nBlocks : Nat
  nDescrs : Nat
  nKernels : Nat
  h : Nat
  trap : Nat
  code : List Byte
  states : List Byte
  singleton : List Byte
  xtab : List Byte
  descrs : List Byte
  kernels : List Byte
  deriving DecidableEq, Repr

def modFile (f : List Byte) : ModFile :=
  let ss := (sections f).getD []
  let hd := sectBytes f ss 1
  ⟨field hd 0 4, field hd 4 4, field hd 8 4, field hd 12 4, field hd 16 4, field hd 20 2, sectBytes f ss 2,
    sectBytes f ss 3, sectBytes f ss 4, sectBytes f ss 5, sectBytes f ss 6, sectBytes f ss 7⟩

def distinctNats (xs : List Nat) : Bool := (dedup xs).length == xs.length

def risingNats : List Nat → Bool
  | [] => true
  | [_] => true
  | a :: b :: rest => a < b && risingNats (b :: rest)

/-- The slots of a state entry of 24 bytes. -/
def slotIds (e : List Byte) : List Nat := (natsFrom 0 8).map fun i => bitsOf (field e 8 12) (12 * i + 11) (12 * i)

def ModFile.stateEntry (m : ModFile) (i : Nat) : List Byte := (m.states.drop (24 * i)).take 24

def ModFile.stateOk (m : ModFile) (i : Nat) : Bool :=
  let e := m.stateEntry i
  let n := field e 6 1
  let ids := slotIds e
  8 * (field e 0 4 + field e 4 2 + 1) ≤ m.code.length && 1 ≤ n && n ≤ 8 && field e 7 1 == 0 && field e 20 4 == 0 &&
    (ids.take n).all (fun b => decide (b < m.nBlocks) && b != 0xFFF) && distinctNats (ids.take n) &&
    (ids.drop n).all (· == 0xFFF)

/-- Check 0x05. -/
def ModFile.statesOk (m : ModFile) : Bool :=
  1 ≤ m.nStates && m.nStates ≤ 65536 && m.states.length == 24 * m.nStates && (natsFrom 0 m.nStates).all m.stateOk

/-- Check 0x06. A reserved bit of an entry that is not 0 fails it (DESIGN CHOICE, log entry 39). -/
def ModFile.blocksOk (m : ModFile) : Bool :=
  1 ≤ m.nBlocks && m.nBlocks ≤ 4095 && m.singleton.length == 4 * m.nBlocks && (natsFrom 0 m.nBlocks).all fun b =>
    let x := field m.singleton (4 * b) 4
    let st := bitsOf x 15 0
    bitOf x 31 && bitsOf x 30 16 == 0 && decide (st < m.nStates) && field (m.stateEntry st) 6 1 == 1 &&
      (slotIds (m.stateEntry st)).headD 0 == b

def ModFile.xtabEntry (m : ModFile) (i : Nat) : Nat := field m.xtab (16 * i) 16

/-- Are the entries from one index, for some number of steps, all in use? -/
def ModFile.fullFrom (m : ModFile) (i : Nat) : Nat → Bool
  | 0 => true
  | n + 1 => m.xtabEntry (i % 2 ^ m.h) != 0 && ModFile.fullFrom m (i + 1) n

def ModFile.xtabOk1 (m : ModFile) (i : Nat) : Bool :=
  let x := m.xtabEntry i
  let n := bitsOf x 115 112
  let ids := (natsFrom 0 8).map fun j => bitsOf x (12 * j + 11) (12 * j)
  x == 0 ||
    (bitsOf x 127 116 == 0 && 2 ≤ n && n ≤ 8 && decide (bitsOf x 111 96 < m.nStates) && risingNats (ids.take n) &&
      (ids.take n).all (· != 0xFFF) && (ids.drop n).all (· == 0xFFF) &&
      (let start := hashSet (ids.take n) m.h
       m.fullFrom start ((i + 2 ^ m.h - start) % 2 ^ m.h)))

/-- Check 0x07. -/
def ModFile.xtabOk (m : ModFile) : Bool :=
  1 ≤ m.h && m.h ≤ 18 && m.xtab.length == 16 * 2 ^ m.h && (natsFrom 0 (2 ^ m.h)).any (fun i => m.xtabEntry i == 0) &&
    (natsFrom 0 (2 ^ m.h)).all m.xtabOk1

def ModFile.descr (m : ModFile) (i : Nat) : Nat := field m.descrs (8 * i) 8

def ModFile.descrOk (m : ModFile) (i : Nat) : Bool :=
  let x := m.descr i
  let d := descrOf x
  let n := max d.nargs d.nres
  bitsOf x 63 46 == 0 && bitsOf x 39 38 == 0 && bitsOf x 23 21 == 0 && bitsOf x 15 12 == 0 && d.nargs ≤ 32 &&
    d.nres ≤ 32 && decide (d.entry < m.nBlocks) && d.argbase + n ≤ 256 && n ≤ d.demand

/-- Check 0x08. -/
def ModFile.descrsOk (m : ModFile) : Bool :=
  m.nDescrs ≤ 65535 && m.descrs.length == 8 * m.nDescrs && (natsFrom 0 m.nDescrs).all m.descrOk &&
    (m.trap == 0xFFFF || (decide (m.trap < m.nDescrs) && 8 ≤ (descrOf (m.descr m.trap)).demand))

/-! ## Kernel headers (R169) -/

def kWidth (k : List Byte) : Nat := 16 * 2 ^ field k 6 1
def kEntry (k : List Byte) : Nat := bitsOf (field k 4 2) 11 0
def kWeight (k : List Byte) : Nat := [4, 6, 8, 12, 16, 24, 32, 48].getD (field k 7 1 % 8) 48
def kP (k : List Byte) : Nat := field k 8 1
def kC (k : List Byte) : Nat := field k 9 1
def kDp (k : List Byte) : Nat := field k 0x0A 2
def kDc (k : List Byte) : Nat := field k 0x0C 2
def kQuota (k : List Byte) : Nat := field k 0x14 2
def kScratch (k : List Byte) : Nat := field k 0x16 2
def kVault (k : List Byte) : Nat := field k 0x1E 2
def kArgs (k : List Byte) : Nat := field k 0x1C 1

/-- Granules of the register pool (R64). -/
def granulesOfWidth (w : Nat) : Nat := 24576 / w

/-- The largest demand of some descriptors. -/
def maxDemand (ds : List Nat) : Nat := (ds.map fun x => (descrOf x).demand).foldl max 0

def ModFile.kernelOk (m : ModFile) (i : Nat) : Bool :=
  let k := (m.kernels.drop (32 * i)).take 32
  let dp := kDp k
  let dc := kDc k
  let dem (d : Nat) : Bool := 8 ≤ d && d ≤ 256 && d % 8 == 0
  decide (kEntry k < m.nBlocks) && field k 4 2 < 4096 && field k 6 1 ≤ 2 && field k 7 1 < 8 && kP k ≤ 15 && 1 ≤ kC k &&
    kP k + kC k ≤ 16 && (if kP k == 0 then dp == 0 else dem dp) && dem dc && kScratch k ≤ 256 && kArgs k ≤ 32 &&
    field k 0x1D 1 == 0 && kVault k ≤ 256 &&
    max dp dc + maxDemand ((natsFrom 0 m.nDescrs).map m.descr) ≤ 8 * kQuota k &&
    kQuota k ≤ granulesOfWidth (kWidth k) && kArgs k ≤ dc && (kP k == 0 || kArgs k ≤ dp)

/-- Check 0x09. -/
def ModFile.kernelsOk (m : ModFile) : Bool :=
  1 ≤ m.nKernels && m.kernels.length == 32 * m.nKernels && (natsFrom 0 m.nKernels).all m.kernelOk

/-! ## Code words (check 0x0A) -/

def ModFile.blkOk (m : ModFile) (b : Nat) : Bool := decide (b < m.nBlocks) || b == 0xFFF

/-- One code word's block and function numbers. -/
def ModFile.wordOk (m : ModFile) (w : Dword) : Bool :=
  let form := num w 61 2
  let op := num w 44 9
  if num w 53 8 == 0 || (form != 0 && form != 2) then true
  else if op == 0x140 || op == 0x14B then m.blkOk (num w 15 12)
  else if op == 0x141 then m.blkOk (num w 15 12) && m.blkOk (num w 3 12)
  else if op == 0x148 then decide (num w 11 16 < m.nDescrs)
  else true

/-- The scan of a state's code: a literal is passed over. -/
def ModFile.scan (m : ModFile) : List Byte → Nat → Bool → Bool
  | _, 0, _ => true
  | bs, n + 1, lit =>
    let w : Dword := BitVec.ofNat 64 (ofLeBytes (bs.take 8))
    if lit then ModFile.scan m (bs.drop 8) n false
    else m.wordOk w && ModFile.scan m (bs.drop 8) n (num w 61 2 == 2)

def ModFile.codeOk (m : ModFile) : Bool :=
  (natsFrom 0 m.nStates).all fun i =>
    let e := m.stateEntry i
    m.scan (m.code.drop (8 * field e 0 4)) (field e 4 2 + 1) false

/-! ## Placing and relocations (R174, R318) -/

/-- The literal words of a state's code, by index in the code section from word i on. -/
def literalsFrom : List Byte → Nat → Nat → Bool → List Nat
  | _, _, 0, _ => []
  | bs, i, n + 1, lit =>
    if lit then i :: literalsFrom (bs.drop 8) (i + 1) n false
    else literalsFrom (bs.drop 8) (i + 1) n (num (BitVec.ofNat 64 (ofLeBytes (bs.take 8)) : Dword) 61 2 == 2)

/-- The literal words of a module's code section. -/
def ModFile.literals (m : ModFile) : List Nat :=
  dedup ((natsFrom 0 m.nStates).flatMap fun i =>
    let e := m.stateEntry i
    literalsFrom (m.code.drop (8 * field e 0 4)) (field e 0 4) (field e 4 2 + 1) false)

/-- Is a section placed in the module pool? The code and the tables are, whatever their flags say (DESIGN CHOICE, log
entry 39); of the others those whose flag says so. -/
def Sect.placed (x : Sect) : Bool := (2 ≤ x.ty && x.ty ≤ 7) || x.flags.testBit 0

/-- Offsets of the placed sections from the module's base, in file order; and the end. -/
def placeFrom (at0 : Nat) : List Sect → List (Option Nat) × Nat
  | [] => ([], at0)
  | x :: rest =>
    if x.placed then
      let a := (at0 + 2 ^ x.align - 1) / 2 ^ x.align * 2 ^ x.align
      let r := placeFrom (a + x.size) rest
      (some a :: r.1, r.2)
    else
      let r := placeFrom at0 rest
      (none :: r.1, r.2)

/-- A patch: its offset from the module's base and its bytes. -/
abbrev Patch := Nat × List Byte

/-- May n bytes at an offset of a section be patched: a data value, or a literal word of the code (R174)? -/
def Sect.patchable (t : Sect) (lits : List Nat) (off n : Nat) : Bool :=
  off + n ≤ t.size && (t.ty == 8 || t.ty == 9 || (t.ty == 2 && off % n == 0 && lits.contains (off / 8)))

/-- One relocation entry of a section that patches section `link`: none where it breaks R174, or where the address is
beyond the global window. DESIGN CHOICE (log entry 39): none too where the symbol is not of kind 5, data, or where its
section or the patched one is not placed. -/
def relocOne (f : List Byte) (ss : List Sect) (offs : List (Option Nat)) (va : Nat) (x : Sect) (e : List Byte) :
    Option Patch :=
  let ty := field e 12 2
  let n := if ty == 5 then 8 else 4
  let syms := sectBytes f ss 10
  let y := (syms.drop (24 * field e 8 4)).take 24
  let si := field y 6 2
  match ss[x.link]?, (offs[x.link]?).join, (offs[si]?).join with
  | some t, some base, some sym =>
    let v : Int := ((va + sym + field y 8 8 : Nat) : Int) + sext 64 (field e 16 8)
    if (ty != 5 && ty != 6) || field e 14 2 != 0 || !t.patchable (modFile f).literals (field e 0 8) n ||
        syms.length < 24 * field e 8 4 + 24 || field y 4 1 != 5 || v < 0 || 2 ^ 56 ≤ v then none
    else some (base + field e 0 8, leBytes v.toNat n)
  | _, _, _ => none

/-- All patches: none where check 0x0B fails. -/
def relocate (f : List Byte) (ss : List Sect) (offs : List (Option Nat)) (va : Nat) : Option (List Patch) :=
  (ss.filter fun x => x.ty == 12).foldl (fun acc x =>
    match acc with
    | none => none
    | some ps =>
      if x.size % 24 != 0 then none
      else
        ((natsFrom 0 (x.size / 24)).mapM fun i => relocOne f ss offs va x ((x.bytes f).drop (24 * i) |>.take 24)).map
          (ps ++ ·)) (some [])

/-- The status of the loader's checks before 0x0B; 0 when they pass (R170). A file shorter than the header of 64 bytes fails
the first check, of magic and version (DESIGN CHOICE, log entry 39). -/
def State.loaderStatus (s : State) (f : List Byte) (signed : Bool) : Nat :=
  let m := modFile f
  if f.length < 64 || field f 0 4 != 0x4C444245 || field f 4 2 != 1 || field f 6 2 != 2 then 1
  else if field f 8 4 != 1 then 2
  else if !s.signatureOk f signed then 3
  else if !tableOk f then 4
  else if !m.statesOk then 5
  else if !m.blocksOk then 6
  else if !m.xtabOk then 7
  else if !m.descrsOk then 8
  else if !m.kernelsOk then 9
  else if !m.codeOk then 0x0A
  else 0

/-- A place in the module pool: first fit among the loaded modules. -/
def State.poolPlace (s : State) (size : Nat) : Option Nat :=
  let units (n : Nat) : Nat := (n + 65535) / 65536
  let used := s.modules.vals.map fun m => ((m.base - s.image.poolBase) / 65536, units m.size)
  (firstFit used (s.image.poolSize / 65536) (units size)).map fun u => s.image.poolBase + u * 65536

/-- The bytes of a virtual range of a context, page by page: none where one does not translate. -/
def State.hubRead (s : State) (ctx : Nat) : Nat → Nat → Nat → Option (List Byte)
  | 0, _, _ => some []
  | _, _, 0 => some []
  | fuel + 1, va, n =>
    match s.translate ctx hubId va with
    | .ok pa _ _ _ =>
      let k := min n (65536 - va % 65536)
      if paKind pa == .fabric || (lineParts pa k).any (fun x => s.poisoned (s.liveKey x.1) x.2) then none
      else (State.hubRead s ctx fuel (va + k) (n - k)).map fun rest => s.physBytes pa k ++ rest
    | _ => none

/-- Single-bit errors in what `hubRead` reads, table entries of its walks included, are corrected and counted (R287). -/
def State.correctHub (s : State) (ctx : Nat) : Nat → Nat → Nat → State
  | 0, _, _ => s
  | _, _, 0 => s
  | fuel + 1, va, n =>
    match s.translate ctx hubId va with
    | .ok pa _ _ fill =>
      let k := min n (65536 - va % 65536)
      State.correctHub ((s.walked fill).correctPhys pa k) ctx fuel (va + k) (n - k)
    | _ => s

/-- Load a module whose file and placement are known. -/
def State.placeModule (s : State) (f : List Byte) (ss : List Sect) (offs : List (Option Nat)) (size base handle va : Nat)
    (patches : List Patch) : State :=
  let s := (ss.zip offs).foldl (fun s p =>
    match p.2 with
    | none => s
    | some o => s.physWrite (base + o) (p.1.bytes f) none) s
  let s := patches.foldl (fun s p => s.physWrite (base + p.1) p.2 none) s
  let m := modFile f
  let at0 (ty : Nat) : Nat := base + (((ss.zip offs).find? fun p => p.1.ty == ty).bind (·.2)).getD 0
  let maps := (ss.zip offs).filterMap fun p =>
    match p.2 with
    | some o => some (base + o, p.1.size, p.1.ty == 8 && p.1.flags.testBit 1)
    | none => none
  let x : Module :=
    { base := base, size := size, va := va, maps := maps, code := at0 2, codeWords := m.code.length / 8,
      states := at0 3, singleton := at0 4, xtab := at0 5, descrs := at0 6, kernels := at0 7, nStates := m.nStates,
      nBlocks := m.nBlocks, nDescrs := m.nDescrs, nKernels := m.nKernels, h := m.h, trap := m.trap }
  { s with modules := s.modules.put handle x }

/-- MODULE_LOAD: an entry of kind 1 at a queue head. A module that passes every check and finds no room in the module pool
waits at its queue head, until another is unloaded or for ever (DESIGN CHOICE, log entry 39: the spec gives this case no
status). -/
def execModuleLoad (q : Nat) (s : State) : Outcome :=
  match s.headOf q with
  | none => .next s
  | some h =>
    if 48 ≤ q || recKind h.rec0 != 1 then .next s
    else
      let r := h.rec0
      let signed := bitOf (field r 0x10 4) 0 || ((s.ctxs.find h.ctx).map (·.signed)).getD false
      if !s.queueFieldsOk h.ctx h.fn r || 2 ≤ field r 0x10 4 || !zeroBytes r 0x14 0x40 || !zeroBytes r 0x80 0x100 then
        .next (s.refuseEntry q h 0x21)
      else
        let n := field r 8 8
        match s.hubRead h.ctx (n / 65536 + 2) (field r 0 8) n with
        | none => .next (s.refuseEntry q h 0x21)
        | some f =>
          let s := s.correctHub h.ctx (n / 65536 + 2) (field r 0 8) n
          let st := s.loaderStatus f signed
          if st != 0 then .next (s.refuseEntry q h st)
          else
            let ss := (sections f).getD []
            let pl := placeFrom 0 ss
            let handle := nextKey s.modules
            let va := Config.moduleVa handle * 65536
            match relocate f ss pl.1 va with
            | none => .next (s.refuseEntry q h 0x0B)
            | some ps =>
              match s.poolPlace pl.2 with
              | none => .next s
              | some base =>
                .next (((s.popHead q).placeModule f ss pl.1 pl.2 base handle va ps).finishEntry h.ctx h.fn r 0
                  (BitVec.ofNat 32 handle))

/-- Has a launch a group that has not retired? A saved one returns to its slot, and counts (log entry 23). -/
def State.hasGroups (s : State) (l : Nat) : Bool :=
  s.groups.vals.any fun g => ((s.teams.find g.team).map (·.launch)) == some l

/-- Is a module named by a launch that has teams to place or has groups, or by an entry that waits in a queue (R171)? -/
def State.moduleInUse (s : State) (m : Nat) : Bool :=
  s.launches.any (fun p => p.2.module == m && ((!p.2.ended && p.2.next < p.2.teams) || s.hasGroups p.1)) ||
  s.devQ.vals.any (fun d => d.entries.any fun e => recKind e.2.2 == 0 && field e.2.2 0 4 == m) ||
  s.hostQ.any fun p =>
    let r := p.2.ring
    p.2.bound.isSome && r.entries != 0 && (natsFrom 0 ((r.tail.toNat + r.entries.toNat - r.head.toNat) % r.entries.toNat)).any
      fun i =>
        let e := s.physBytes (r.base.toNat + (r.head.toNat + i) % r.entries.toNat * 256) 256
        recKind e == 0 && field e 0 4 == m

/-- MODULE_UNLOAD: an entry of kind 2 at a queue head. -/
def execModuleUnload (q : Nat) (s : State) : Outcome :=
  match s.headOf q with
  | none => .next s
  | some h =>
    if 48 ≤ q || recKind h.rec0 != 2 then .next s
    else
      let r := h.rec0
      let m := field r 0 4
      if !s.queueFieldsOk h.ctx h.fn r || !zeroBytes r 4 0x40 || !zeroBytes r 0x80 0x100 then
        .next (s.refuseEntry q h 0x21)
      else if (s.modules.find m).isNone then .next (s.refuseEntry q h 0x20)
      else if s.moduleInUse m then .next (s.refuseEntry q h 0x10)
      else
        .next ({ ((s.popHead q).dropBodies m) with modules := s.modules.del m }.finishEntry h.ctx h.fn r 0 (BitVec.ofNat 32 m))

/-- COUNTER_START: an entry of kind 3 at a queue head (R350). -/
def execCounterStart (q : Nat) (s : State) : Outcome :=
  match s.headOf q with
  | none => .next s
  | some h =>
    if 48 ≤ q || recKind h.rec0 != 3 then .next s
    else
      let r := h.rec0
      let n := field r 8 8
      if !s.queueFieldsOk h.ctx h.fn r || field r 0 8 % 512 != 0 || 2 ^ 56 ≤ field r 0 8 || n == 0 || 2 ^ 20 < n ||
          !zeroBytes r 0x10 0x40 || !zeroBytes r 0x80 0x100 then .next (s.refuseEntry q h 0x21)
      else
        let s := s.popHead q
        let s := s.setHostQueue q { s.hostQueue q with counting := some (BitVec.ofNat 64 (field r 0 8), n, 0) }
        .next ({ s with free := s.free + 1 }.finishEntry h.ctx h.fn r 0 (freeVal s.free 12 0 0))

/-- COUNTER_STOP: an entry of kind 4 at a queue head. -/
def execCounterStop (q : Nat) (s : State) : Outcome :=
  match s.headOf q with
  | none => .next s
  | some h =>
    if 48 ≤ q || recKind h.rec0 != 4 then .next s
    else
      let r := h.rec0
      if !s.queueFieldsOk h.ctx h.fn r || !zeroBytes r 0 0x40 || !zeroBytes r 0x80 0x100 then
        .next (s.refuseEntry q h 0x21)
      else
        let s := s.popHead q
        let s := s.setHostQueue q { s.hostQueue q with counting := none }
        .next ({ s with free := s.free + 1 }.finishEntry h.ctx h.fn r 0 (freeVal s.free 12 0 0))

end Sys2Proof.Machine
end

