-- ==== Sys2Proof/Machine/Launch.lean ====
section
/-! DEFINITION. Launches: their acceptance, the admission of teams, retirement and completion (R82, R90, R176,
R180 to R184, R244 to R246, R289, R319 to R321, R331, R350, R351). -/

namespace Sys2Proof.Machine

open Sys2Proof

/-! ## The checks at the queue head (R176, R184, R245, R320) -/

def recModule (r : List Byte) : Nat := field r 0 4
def recKernel (r : List Byte) : Nat := field r 4 2
def recTeams (r : List Byte) : Nat := field r 0x08 4 * field r 0x0C 4 * field r 0x10 4
def recT (r : List Byte) : Nat := field r 0x14 4
def recCs (r : List Byte) : Nat := field r 0x24 4
def recUrgent (r : List Byte) : Bool := bitOf (field r 0x41 1) 2
def recPreemptible (r : List Byte) : Bool := bitOf (field r 0x41 1) 3

/-- The bytes of a kernel header of a loaded module. -/
def State.kernelHeader (s : State) (m : Module) (i : Nat) : List Byte := s.liveBytes (m.kernels + 32 * i) 32

/-- Bytes of the save frame of a team (R331). -/
def frameBytes (k : List Byte) : Nat :=
  let n := (264 + (kP k + kC k) * 180) * 1024 + kQuota k * (36 * kWidth k + 256) + (kScratch k + kVault k) * 66048
  (n + 65535) / 65536 * 65536

/-- The fields of R176 lie within their limits. The reserved bits [15:1] of the flags must be 0 (DESIGN CHOICE, log entry
40: R176 gives them no limit and no fate). -/
def launchFieldsOk (r k : List Byte) : Bool :=
  let dim (o : Nat) : Bool := 1 ≤ field r o 4 && field r o 4 ≤ 65536
  field r 6 2 < 2 && dim 0x08 && dim 0x0C && dim 0x10 && 1 ≤ recT r && recT r ≤ (kP k + kC k) * kWidth k &&
    field r 0x18 8 < 2 ^ 56 && field r 0x20 4 % 16 == 0 && recCs r % 65536 == 0 && field r 0x28 8 % 65536 == 0 &&
    field r 0x28 8 < 2 ^ 56 && field r 0x30 8 < 2 ^ 56

/-- The status with which a launch record is refused; 0 when it is accepted. -/
def State.launchStatus (s : State) (h : HeadEntry) : Nat :=
  let r := h.rec0
  match s.modules.find (recModule r) with
  | none => 0x20
  | some m =>
    if m.nKernels ≤ recKernel r then 0x20
    else
      let k := s.kernelHeader m (recKernel r)
      let d := maxDemand ((natsFrom 0 m.nDescrs).map fun i => s.liveNum (m.descrs + 8 * i) 8)
      let dp := if kP k == 0 then 0 else kDp k
      let q0 := (kP k * dp + kC k * kDc k) / 8
      let q1 := (max (max dp (kDc k)) d + d) / 8
      if !launchFieldsOk r k || !s.queueFieldsOk h.ctx h.fn r then 0x21
      else if 256 < (kP k + kC k) * kWeight k then 0x22
      else if kQuota k < max q0 q1 || granulesOfWidth (kWidth k) < kQuota k then 0x23
      else if 256 < kScratch k + kVault k + recCs r / 65536 then 0x24
      else if s.image.saveSize < frameBytes k then 0x27
      else 0

/-- A launch that was accepted. -/
def newLaunch (id : Word) (q : Nat) (h : HeadEntry) (kernel : List Byte) : Launch :=
  { id := id, queue := q, ctx := h.ctx, module := recModule h.rec0, kernel := kernel, record := h.rec0, function := h.fn,
    next := 0, waitMet := false, teams := recTeams h.rec0, teamsRetired := 0, cb := none, started := false, ended := false, faulted := false,
    contribs := [], applied := false, spillRecords := 0, counting := none, flagsOr := 0, absentSum := 0,
    groupsRetired := 0, urgentSince := none, urgentCore := none }

/-- LAUNCH_ENTRY: the record at a queue head is checked; a launch is accepted and becomes its queue's current
one. Entries of an unknown kind are refused. -/
def execLaunchEntry (q : Nat) (s : State) : Outcome :=
  match s.headOf q with
  | none => .next s
  | some h =>
    let kind := recKind h.rec0
    if kind != 0 then
      if 5 ≤ kind || 48 ≤ q then .next (s.refuseEntry q h 0x21) else .next s
    else
      let st := s.launchStatus h
      if st != 0 then .next (s.refuseEntry q h st)
      else
        let kernel := match s.modules.find (recModule h.rec0) with
          | some m => s.kernelHeader m (recKernel h.rec0)
          | none => []
        let id := s.nextLaunch
        let s := (s.popHead q).setCurrent q (some id.toNat)
        .next ({ s with nextLaunch := id + 1, launches := s.launches.put id.toNat (newLaunch id q h kernel) } : State).noteWaits

/-! ## Room on a core (R181, R183, R244, R331) -/

/-- The teams on a core whose context is not saved whole. -/
def State.liveTeams (s : State) (core : Nat) : List (Nat × Team) :=
  s.teams.filter fun p => p.2.core == core && !p.2.saved

/-- The slots and weights of a core's resident groups. -/
def State.slotsUsed (s : State) (core : Nat) : List Nat :=
  (s.coreGroups core).filterMap fun k => (s.group k).map (·.slot)

def State.weightUsed (s : State) (core : Nat) : Nat :=
  ((s.coreGroups core).map fun k => ((s.teams.find (k / 16)).map (·.weight)).getD 0).foldl (· + ·) 0

/-- The teams on a core that have a resident group: they hold their quota and fix the core's width (R181, R183). -/
def State.residentTeams (s : State) (core : Nat) : List (Nat × Team) :=
  (s.liveTeams core).filter fun p => (s.coreGroups core).any fun k => k / 16 == p.1

def State.quotaUsed (s : State) (core : Nat) : Nat := ((s.residentTeams core).map (·.2.quota)).foldl (· + ·) 0

/-- Do the widths and the quotas of a core leave room for a team (R181, R183)? -/
def State.poolFits (s : State) (core width quota : Nat) : Bool :=
  (s.residentTeams core).all (fun p => p.2.width == width) && s.quotaUsed core + quota ≤ granulesOfWidth width

/-- The unit ranges in use: of the teams above a cluster, and of the shared regions. -/
def State.sharedUnits (s : State) : List (Nat × Nat) :=
  s.launches.vals.filterMap fun l => l.cb.map fun b => (b / 65536, recCs l.record / 65536)

def Team.units (tm : Team) : List (Nat × Nat) :=
  (if tm.sUnits == 0 then [] else [(tm.sUnit, tm.sUnits)]) ++ (if tm.vUnits == 0 then [] else [(tm.vUnit, tm.vUnits)])

def State.unitsUsed (s : State) (cluster : Nat) : List (Nat × Nat) :=
  s.sharedUnits ++ (s.teams.vals.filter fun tm => clusterOf tm.core == cluster && !tm.saved).flatMap Team.units

/-- Does a range of units meet none of some ranges? -/
def unitsFree (used : List (Nat × Nat)) (u n : Nat) : Bool :=
  u + n ≤ 256 && used.all fun p => decide (u + n ≤ p.1) || decide (p.1 + p.2 ≤ u)

/-- The highest unit at which n units are free in every vault. -/
def State.sharedPlace (s : State) (n : Nat) : Option Nat :=
  let used := s.sharedUnits ++ (s.teams.vals.filter fun tm => !tm.saved).flatMap Team.units
  if 256 < n then none
  else
    ((sortBy (fun a b => decide (b ≤ a)) ((256 - n) :: (used.filter fun p => decide (n ≤ p.1)).map fun p => p.1 - n)).filter
      fun u => unitsFree used u n).head?

/-- A place in the save pool: first fit among the teams' reservations. -/
def State.framePlace (s : State) (size : Nat) : Option Nat :=
  let used := s.teams.vals.map fun tm => ((tm.frame - s.image.saveBase) / 65536, tm.frameSize / 65536)
  (firstFit used (s.image.saveSize / 65536) (size / 65536)).map fun u => s.image.saveBase + u * 65536

/-- Where a team would stand. -/
structure Place where
  core : Nat
  slots : List Nat
  cb : Option Nat
  sUnit : Nat
  vUnit : Nat
  frame : Nat
  deriving DecidableEq, Repr

/-- Is a group stopped so that it does not return before the host answers? -/
def Group.waitsHost (g : Group) : Bool :=
  match g.halt with
  | some h => h.why != .preempt
  | none => false

/-- A saved team that must return to its core: some group of it can go on (R321, R344). -/
def State.returns (s : State) (t : Nat) (tm : Team) : Bool :=
  tm.saved && (s.teamGroups t).any fun k => match s.group k with
    | some g => !g.waitsHost
    | none => false

/-- Does the order of restores hold a core back from a team at a priority level (R321)? -/
def State.restoreFirst (s : State) (core level : Nat) : Bool :=
  s.teams.any fun p => p.2.core == core && s.returns p.1 p.2 &&
    match s.launches.find p.2.launch with
    | some l => decide (recPriority l.record ≤ level)
    | none => false

/-- The place that a core has for the next team of a launch, when R183 holds there. -/
def State.placeOn (s : State) (l : Launch) (core : Nat) : Option Place :=
  let k := l.kernel
  let n := kP k + kC k
  let free := (natsFrom 0 32).filter fun i => !(s.slotsUsed core).contains i
  let cs := recCs l.record / 65536
  let cb : Option (Option Nat) :=
    if cs == 0 || l.cb.isSome then some none else (s.sharedPlace cs).map fun u => some (u * 65536)
  if !s.poolFits core (kWidth k) (kQuota k) || free.length < n || 256 < s.weightUsed core + n * kWeight k then none
  else
    match cb with
    | none => none
    | some cb =>
      let shared := match cb with
        | some b => [(b / 65536, cs)]
        | none => []
      let used := shared ++ s.unitsUsed (clusterOf core)
      match firstFit used 256 (kScratch k) with
      | none => none
      | some su =>
        match firstFit ((if kScratch k == 0 then [] else [(su, kScratch k)]) ++ used) 256 (kVault k) with
        | none => none
        | some vu =>
          (s.framePlace (frameBytes k)).map fun f => ⟨core, free.take n, cb, su, vu, f⟩

/-- The cores of a record's die mask in the order of R321. -/
def State.coreOrder (s : State) (r : List Byte) : List Nat :=
  let mask := field r 0x42 1 % 16
  let cores := (natsFrom 0 384).filter fun c => mask == 0 || mask.testBit (dieOf c)
  sortBy (fun a b => decide (s.weightUsed a ≤ s.weightUsed b)) cores

/-- Is a core kept for the urgent team of a launch other than one (R327)? -/
def State.keptCore (s : State) (core : Nat) (but : Option Word) : Bool :=
  s.launches.vals.any fun l => l.urgentCore == some core && some l.id != but

/-- The place of a launch's next team; after an urgency delay only on the core that it has chosen (R327). -/
def State.placeFor (s : State) (l : Launch) : Option Place :=
  (match l.urgentCore with
   | some c => [c]
   | none => s.coreOrder l.record).findSome? fun c =>
    if s.keptCore c (some l.id) || s.restoreFirst c (recPriority l.record) then none else s.placeOn l c

/-- Does a queue's current launch have a team that may be placed now: its wait counter has been met? -/
def State.headReady (_s : State) (l : Launch) : Bool := !l.ended && l.next < l.teams && (l.started || l.waitMet)

/-- The launches whose next team has a place, by queue. -/
def State.placeable (s : State) : List (Nat × Launch) :=
  (natsFrom 0 64).filterMap fun q =>
    match (s.currentOf q).bind s.launches.find with
    | none => none
    | some l => if s.headReady l && (s.placeFor l).isSome then some (q, l) else none

/-- The queue that a free resource goes to: the lowest level, round-robin within it (R320). -/
def State.chosenQueue (s : State) : Option Nat :=
  let ps := s.placeable
  let lv := (ps.map fun p => recPriority p.2.record).foldl min 4
  let qs := (ps.filter fun p => recPriority p.2.record == lv).map (·.1)
  (turnAfter ((s.lastQueue.find lv).getD 64) qs).head?

/-! ## A group at its start (R61 to R63, R65, R90, R176) -/

/-- Live lanes of group g of a team. -/
def liveLanes (t g width : Nat) : Nat := min (t - g * width) width

/-- The slices of a group of `live` live lanes in the singleton state of its entry block. -/
def startSlices (width live st : Nat) : List Slice :=
  let n := (live + 3) / 4
  (natsFrom 0 (width / 4)).map fun i =>
    { sid := BitVec.ofNat 16 st, off := 0, cursor := 0,
      status := if n ≤ i then .done else if 2 ≤ n then .gang else .lone,
      tag := 0, loops := [], patience := 0, armed := 0 }

def startLanes (width live blk : Nat) : List Lane :=
  (natsFrom 0 width).map fun i =>
    let b : BitVec 12 := if i < live then BitVec.ofNat 12 blk else deadBlk
    { blk := b, nxt := b, park := false, sweep := false, depth := 0, seq := 0 }

/-- The entry frame: arguments uniform from v0 up. -/
def startFrame (free gk demand width stamp : Nat) (args : List Word) : Frame :=
  { seeds := (natsFrom 0 (demand / 8)).map (freshSeed free gk 0),
    regs := (natsFrom 0 width).flatMap fun l => mapIdxFrom 0 (fun i w => (l * 256 + i, w)) args,
    recs := [], late := [], stamp := stamp, place := .pool }

def startGroup (team gidx slot width live blk st demand free stamp : Nat) (mode : Word) (args : List Word) : Group :=
  { team := team, gidx := gidx, slot := slot, resident := true, swapped := false,
    lanes := startLanes width live blk, slices := startSlices width live st,
    frames := if live == 0 then [] else [(0, startFrame free (gkOf team gidx) demand width stamp args)],
    mode := mode, flags := 0, absent := 0, window := [], winTag := 0, regions := [], regOverflow := false,
    loads := 0, stores := 0, engine := 0, tile := 0, ops := [], tiles := [], engFlags := 0, crew := 0, fencePt := 0,
    dirty := [], windowOnly := [], keeps := [], issued := 0, pass := 0, lastTag := 16, lastRun := 0, blocked := [], blockedAt := 0,
    reqAge := [], arrivals := [], halt := none, lastFault := 0, entered := natsFrom 0 ((live + 3) / 4), saved := false, alone := false,
    stopNext := none, skipStop := [], step := none }

/-- A team at its start. -/
def newTeam (l : Launch) (p : Place) : Team :=
  let k := l.kernel
  { launch := l.id.toNat, t := l.next, core := p.core, snum := p.slots.headD 0, width := kWidth k, p := kP k, c := kC k,
    dp := kDp k, dc := kDc k, quota := kQuota k, weight := kWeight k, sUnit := p.sUnit, sUnits := kScratch k,
    vUnit := p.vUnit, vUnits := kVault k, barriers := [], requests := [],
    lbanks := [], acc := [], blocks := [], mmaPrio := 0, frame := p.frame, frameSize := frameBytes k, latched := false,
    saved := false, changedAt := 0, saveTime := 0, granCopy := [] }

/-- Keys of the bytes of a list of cells outside a range. -/
def Memory.clear (m : Memory) (a n : Nat) : Memory := m.filter fun c => !(decide (a ≤ c.1) && decide (c.1 < a + n))

/-- A newly allocated region reads 0, each granule empty (R246). -/
def State.clearUnits (s : State) (vault unit n : Nat) : State :=
  let a := vaultKey vault (unit * 65536)
  let inside (g : Nat) : Bool := decide (a ≤ g * 16) && decide (g * 16 < a + n * 65536)
  if n == 0 then s
  else
    { s with
      mem := Memory.clear s.mem a (n * 65536),
      gran := s.gran.filter fun p => !inside p.1,
      latent := { s.latent with
        granules := s.latent.granules.filter fun g => !inside g,
        granules1 := s.latent.granules1.filter fun g => !inside g } }

/-- The counters of a context, 0 to 15. What the line caches miss is not fixed, so that counter 13 reads as a free value
(log entry 15). -/
def State.latchCounters (s : State) (ctx : Nat) : List Dword :=
  (natsFrom 0 16).map fun i =>
    if i == 13 then (freeVal s.free 12 2 1 ++ freeVal s.free 12 2 0 : BitVec 64)
    else ((s.ctxs.find ctx).bind fun c => c.counters.find i).getD 0

/-- The first team of a launch starts: its shared region, and the start latch when counting is on (R350). -/
def State.startLaunch (s : State) (l : Launch) (p : Place) : State :=
  if l.started then s
  else
    let q := s.hostQueue l.queue
    let cnt : Option Counting :=
      if 48 ≤ l.queue then none
      else q.counting.map fun c =>
        ⟨c.1 + BitVec.ofNat 64 (c.2.2 % c.2.1 * 512), s.time, s.latchCounters l.ctx, 0, []⟩
    let s := if cnt.isSome then
        { s with free := s.free + 1 }.setHostQueue l.queue
          { q with counting := q.counting.map fun (c : Dword × Nat × Nat) => (c.1, c.2.1, c.2.2 + 1) }
      else s
    let s := match p.cb with
      | some b => (natsFrom 0 96).foldl (fun (s : State) v => s.clearUnits v (b / 65536) (recCs l.record / 65536)) s
      | none => s
    s.onLaunch l.id.toNat fun l => { l with started := true, counting := cnt, cb := p.cb }

/-- ADMISSION: the team becomes resident whole (R180); the core acquires at system scope (R289). -/
def State.admitTeam (s : State) (l : Launch) (m : Module) (p : Place) : State :=
  let s := s.startLaunch l p
  let k := l.kernel
  let key := l.id.toNat * 2 ^ 48 + l.next
  let v := clusterOf p.core
  let s := (s.clearUnits v p.sUnit (kScratch k)).clearUnits v p.vUnit (kVault k)
  let st := s.liveNum (m.singleton + 4 * kEntry k) 4 % 65536
  let args := (natsFrom 0 (kArgs k)).map fun i => BitVec.ofNat 32 (field l.record (0x80 + 4 * i) 4)
  let mode := modeFate (BitVec.ofNat 32 (field k 0x10 4))
  let groups := mapIdxFrom 0 (fun g slot =>
    (gkOf key g, startGroup key g slot (kWidth k) (liveLanes (recT l.record) g (kWidth k)) (kEntry k) st
      (if g < kP k then kDp k else kDc k) s.free s.seq mode args)) p.slots
  let s := groups.foldl (fun s x => s.setGroup x.1 x.2) s
  let s := { s with free := s.free + 1, teams := s.teams.put key (newTeam l p) }
  let s := s.onLaunch l.id.toNat fun l => { l with next := l.next + 1, urgentSince := none, urgentCore := none }
  let s := (s.jobRelease (gkOf key 0) p.core (BitVec.ofNat 32 st)).acquireAction p.core 5
  let s := { s with lastQueue := s.lastQueue.put (recPriority l.record) l.queue }
  if l.next + 1 == l.teams then s.setCurrent l.queue none else s

/-- TEAM_ADMISSION: the queue whose turn it is places its next team. -/
def execTeamAdmission (q : Nat) (s : State) : Outcome :=
  match (s.currentOf q).bind s.launches.find with
  | none => .next s
  | some l =>
    if !s.headReady l then .next s
    else
      match s.placeFor l, s.modules.find l.module with
      | some p, some m => if s.chosenQueue == some q then .next (s.admitTeam l m p) else .next s
      | _, _ => .next s

/-! ## Retirement (R82) and completion (R319) -/

/-- A launch's last team has retired: the stop latch, and the shared region is free. -/
def State.lastTeam (s : State) (id : Nat) : State :=
  match s.launches.find id with
  | none => s
  | some l =>
    if l.teamsRetired != l.teams then s
    else
      let cnt := l.counting.map fun c => { c with stopTime := s.time, stop := s.latchCounters l.ctx }
      ({ s with free := s.free + 1 } : State).onLaunch id fun l => { l with counting := cnt, cb := none }

/-- What a team held returns: banks, entries, units, the spill engine. -/
def State.dropTeam (s : State) (t : Nat) : State :=
  { s with
    teams := s.teams.del t,
    banks := s.banks.filter fun p => p.2.team != t,
    entries := s.entries.filter fun p => p.2.team != t,
    spill := s.spill.filter fun p => p.2 != t,
    latent := { s.latent with
      accs := s.latent.accs.filter fun a => a / 65536 != t, accs1 := s.latent.accs1.filter fun a => a / 65536 != t } }

/-- A group leaves the machine: what it left in queues goes with it. -/
def State.dropGroup (s : State) (gk : Nat) : State :=
  { (s.dropRuns gk) with
    groups := s.groups.del gk,
    latent := { s.latent with
      regs := s.latent.regs.filter fun k => k / 16384 / 256 != gk,
      regs1 := s.latent.regs1.filter fun k => k / 16384 / 256 != gk } }

/-- Saturating sum of absent-set counters (R351). -/
def satAdd (a b : Word) : Word := if 2 ^ 32 ≤ a.toNat + b.toNat then 0xFFFFFFFF else a + b

/-- What a group leaves in its launch's record: flags, those of completed operations too, and its counter. -/
def State.noteGroup (s : State) (g : Group) (retired : Nat) : State :=
  match s.teams.find g.team with
  | none => s
  | some tm => s.onLaunch tm.launch fun l =>
      { l with flagsOr := l.flagsOr ||| g.cover.flags, absentSum := satAdd l.absentSum g.absent,
               groupsRetired := l.groupsRetired + retired }

/-- A group retires: its release at system scope, its flags, its barrier arrivals, its slot. -/
def State.retireGroup (s : State) (gk : Nat) (g : Group) : State :=
  let team := g.team
  let s := ((s.releaseAction (s.seat g).1 5).lateRows g).noteGroup g 1
  let s := s.onTeam team fun tm => { tm with requests := tm.requests.filter fun r => r.gk != gk, changedAt := s.seq }
  let s := (g.arrivals.map (·.1)).foldl (fun s q => (s.countArrival gk g q).checkBarrier team q) s
  let s := s.dropGroup gk
  let s := (natsFrom 0 16).foldl (fun s q => s.checkBarrier team q) s
  let s := s.settleEntries team
  if (s.teamGroups team).isEmpty then
    let id := ((s.teams.find team).map (·.launch)).getD 0
    (((s.dropTeam team).onLaunch id fun l => { l with teamsRetired := l.teamsRetired + 1 }).lastTeam id).sweepMsgs
  else s

/-- Has a group nothing outstanding? -/
def Group.quiet (g : Group) : Bool := g.loads == 0 && g.stores == 0 && g.engine == 0 && g.tile == 0

/-- GROUP_RETIRE: all slices are DONE and the counters are 0. A dirty byte with an uncorrectable error that the group's
release meets stops it instead (R289). -/
def execGroupRetire (gk : Nat) (s : State) : Outcome :=
  match s.group gk with
  | none => .next s
  | some g =>
    let latched := ((s.teams.find g.team).map (·.latched)).getD false
    if g.allDone && g.quiet && !g.stopped && !latched && !s.holdsRun gk then
      match s.dirtyBad (s.seat g).1 with
      | none => .next (s.retireGroup gk g)
      | some _ => .next (s.jobRelease gk (s.seat g).1 (g.pos g.lastTag))
    else .next s

/-- The bytes of a per-launch record (R351). -/
def countingBytes (l : Launch) (c : Counting) (status : Nat) : List Byte :=
  leBytes l.id.toNat 4 ++ leBytes 1 4 ++ leBytes c.startTime.toNat 8 ++ leBytes c.stopTime.toNat 8 ++
    leBytes l.flagsOr.toNat 4 ++ leBytes l.absentSum.toNat 4 ++ leBytes l.groupsRetired 4 ++ leBytes status 4 ++
    leBytes 0 24 ++ c.start.flatMap (fun x => leBytes x.toNat 8) ++ c.stop.flatMap (fun x => leBytes x.toNat 8) ++
    leBytes 0 192

/-- Write a per-launch record, where its address can be written. -/
def State.writeCounting (s : State) (l : Launch) (status : Nat) : State :=
  match l.counting with
  | none => s
  | some c =>
    match s.translate l.ctx hubId c.addr.toNat with
    | .ok pa true _ _ =>
      if paKind pa == .hbm || paKind pa == .host then
        (s.hubWalked l.ctx c.addr.toNat).physWrite pa (countingBytes l c status) none else s
    | _ => s

/-- The end of a launch. -/
def State.endEntry (s : State) (l : Launch) (status : Nat) : State :=
  let s := (s.writeCounting l status).finishEntry l.ctx l.function l.record status l.id
  { s with launches := s.launches.del l.id.toNat, regionStops := s.regionStops.filter fun p => p.1 != l.id }

/-- LAUNCH_COMPLETION: every team has retired and the ordered adds are applied. -/
def execLaunchCompletion (launch : Nat) (s : State) : Outcome :=
  match s.launches.find launch with
  | none => .next s
  | some l =>
    if l.started && l.next == l.teams && l.teamsRetired == l.teams && (l.applied || l.contribs.isEmpty) then
      .next (s.endEntry l 0)
    else .next s

end Sys2Proof.Machine
end

