-- ==== Sys2Proof/Machine/Save.lean ====
section
/-! DEFINITION. The save frame: its bytes (R331 to R335), and the saving of groups and teams (R237, R247, R263, R281,
R328, R329, R338, R344). -/

namespace Sys2Proof.Machine

open Sys2Proof

/-! ## The bytes of a save frame -/

/-- Bytes at offsets from a frame's base. -/
abbrev Piece := Nat × List Byte

def le (n x : Nat) : List Byte := leBytes x n

def maskIf (n : Nat) (p : Nat → Bool) : Nat := maskOf ((natsFrom 0 n).filter p)

/-- A logical bank's location as an any-vault address. -/
def bankAddress (key : Nat) : Nat := if isVaultKey key then vaultAddress (vaultOfKey key) ((key - 2 ^ 52) % 2 ^ 24) else 0

def bankBytes : Option LBank → List Byte
  | none => le 32 0
  | some b =>
    le 8 (bankAddress b.elem) ++ le 8 (bankAddress b.scale) ++ le 8 (bankAddress b.extra) ++ le 1 b.fmt.code.toNat ++
      le 1 (match b.status with
        | .empty => 0
        | .loading => 1
        | .ready => 2) ++ le 2 0 ++ le 4 b.gen

/-- A tile-entry record (R333). -/
def entryBytes (n : Entry) : List Byte :=
  let a := n.arrivals.head?
  let up := sortBy (fun x y => decide (x.gidx ≤ y.gidx)) n.arrivals
  let six (f : Arrival → Nat) : List Byte :=
    (natsFrom 0 6).flatMap fun i => le 8 (((up[i]?).map f).getD 0)
  match a with
  | none => le 128 0
  | some a =>
    le 2 n.mask.toNat ++ le 2 (maskOf (n.arrivals.map (·.gidx))) ++ le 1 a.fmt.code.toNat ++
      le 1 (a.rm.code.toNat + 8 * a.prio + fIf a.reuse 32 + 64 * a.bank + fIf a.cz 128) ++ le 1 a.arow ++
      le 1 (fIf n.complete 1) ++ le 4 ((n.bound.map (·.gen)).getD 0) ++ le 4 0 ++ six (fun a => maskOf a.lanes) ++
      six (fun a => maskOf a.undef) ++ le 16 0

def statusCode : SliceStatus → Nat
  | .gang => 0
  | .lone => 1
  | .peel => 2
  | .await => 3
  | .done => 4

def sliceBytes (x : Slice) : List Byte :=
  le 2 x.sid.toNat ++ le 2 x.off.toNat ++ le 2 x.cursor.toNat ++ le 1 (statusCode x.status) ++ le 1 x.tag.toNat ++
    le 2 x.patience.toNat ++ le 2 x.armed.toNat ++ le 1 x.loops.length ++ le 3 0 ++
    (natsFrom 0 3).flatMap fun i =>
      match x.loops[i]? with
      | some l => le 4 l.count.toNat ++ le 2 l.start.toNat ++ le 2 l.stop.toNat ++ le 8 0
      | none => le 16 0

def laneBytes (l : Lane) : List Byte :=
  le 16 (l.blk.toNat + l.nxt.toNat * 2 ^ 12 + fIf l.park (2 ^ 24) + fIf l.sweep (2 ^ 25) + l.depth.toNat * 2 ^ 26 +
    l.seq.toNat * 2 ^ 64)

def windowBytes (w : WinEntry) : List Byte :=
  let regs := w.regs.take 4
  le 1 regs.length ++ (natsFrom 0 4).flatMap (fun i => le 1 (regs.getD i 0)) ++ le 3 0 ++ le 8 (maskOf w.lanes) ++ le 48 0 ++
    (natsFrom 0 4).flatMap fun i => (natsFrom 0 64).flatMap fun l =>
      le 4 (((w.vals.find (l * 256 + regs.getD i 256)).map (·.toNat)).getD 0)

/-! The sections behind the group areas (R331, R332): frame data, its length in units, the vault copy. -/

def Team.dataOff (tm : Team) : Nat := 0x42000 + (tm.p + tm.c) * 0x2D000
def Team.dataLen (tm : Team) : Nat := tm.quota * (36 * tm.width + 256)
def Team.vaultOff (tm : Team) : Nat := tm.dataOff + tm.dataLen

def Frame.isSaved (f : Frame) : Bool :=
  match f.place with
  | .saved _ => true
  | _ => false

/-- The units of frame data that a team's saved frames take. -/
def State.dataUsed (s : State) (t : Nat) : List (Nat × Nat) :=
  (s.teamGroups t).flatMap fun k =>
    match s.group k with
    | none => []
    | some g => g.frames.filterMap fun p =>
        match p.2.place with
        | .saved (some u) => some (u, frameUnits p.2.seeds.length g.width)
        | _ => none

/-- A frame goes from the pool to the first place in frame data that it fits. -/
def State.saveFrame (s : State) (gk depth : Nat) : State :=
  match (s.group gk).bind fun g => (g.frames.find depth).map fun f => (g, f) with
  | none => s
  | some (g, f) =>
    let total := ((s.teams.find g.team).map fun tm => tm.dataLen / 256).getD 0
    let u := firstFit (s.dataUsed g.team) total (frameUnits f.seeds.length g.width)
    if f.inPool then s.onGroup gk fun g => { g with frames := g.frames.put depth { f with place := .saved u } } else s

def frameRow (dataOff : Nat) (f : Frame) : List Byte :=
  let place : Nat × Nat :=
    match f.place with
    | .pool => (0, 0)
    | .saved (some u) => (1, dataOff + u * 256)
    | .saved none => (1, 0)
    | .spilled u _ _ => (2, u)
  le 16 (f.seeds.length % 256 + place.1 * 256 + place.2 * 2 ^ 32 + f.stamp % 2 ^ 64 * 2 ^ 64)

def reissueBytes (a : Access) : List Byte :=
  let left := a.lanes.filter fun x => !x.done
  le 8 a.word.toNat ++ le 8 a.lit.toNat ++ le 8 (maskOf (left.map (·.lane))) ++ le 8 0 ++
    (natsFrom 0 64).flatMap fun l => le 8 (((a.lanes.find? fun x => x.lane == l).map fun x => x.ea.toNat).getD 0)

def regs8 (d : List Word) : List Byte := (natsFrom 0 8).flatMap fun i => le 4 (d.getD i 0).toNat

def copyBytes (j : CopyJob) : List Byte :=
  let op := match j.kind with
    | .copy => 0x180
    | .gather => 0x181
    | .scatter => 0x182
  le 2 op ++ le 2 (j.fmt.code.toNat * 64 + j.jf) ++ le 4 j.pos.toNat ++ le 8 j.ix.toNat ++ le 8 j.src.toNat ++
    le 8 j.dst.toNat ++ regs8 j.d ++ le 4 j.row ++ le 4 j.chunk ++ le 4 j.mode.toNat ++ le 4 0 ++ le 944 0

def selBytes (j : SelJob) : List Byte :=
  (le 2 (if j.scmp then 0x189 else 0x188) ++ le 2 (j.fmt.code.toNat * 64 + j.jf) ++ le 4 j.pos.toNat ++
    le 8 j.recAddr.toNat ++ le 8 j.col.toNat ++ le 8 j.aux.toNat ++ regs8 j.d ++ le 4 j.pass ++ le 4 (j.cursor / 4096) ++
    le 4 j.mode.toNat ++ le 4 0 ++ le 4 j.hi ++ le 4 (if j.scmp then j.emitted else j.n) ++
    le 8 (j.pre * 2 ^ (j.hi + 1)) ++ le 40 j.base ++
    le 40 j.wt ++ (natsFrom 0 (2 ^ min 4 j.rad)).flatMap fun d =>
      match j.bins.find d with
      | some b => le 40 b.1 ++ le 4 b.2.1 ++ le 4 0
      | none => le 48 0) ++ le (1024 - 0xB0 - 48 * 2 ^ min 4 j.rad) 0

/-- The jobs of a group in issue order: ids and bytes. -/
def State.jobBytes (s : State) (gk core : Nat) : List (List Byte) :=
  let cl := clusterOf core
  let cs := ((s.copyQueue cl).jobs.filter fun j => j.gk == gk).map fun j => (j.id, copyBytes j)
  let ss := ((s.selQueue cl).jobs.filter fun j => j.gk == gk).map fun j => (j.id, selBytes j)
  (sortBy (fun a b => decide (a.1 ≤ b.1)) (cs ++ ss)).map (·.2)

/-- A frame's registers and return records in frame data. -/
def frameData (g : Group) (f : Frame) : List Byte :=
  ((natsFrom 0 f.size).flatMap fun r => (natsFrom 0 g.width).flatMap fun l => le 4 (f.bank l r).toNat) ++
    (natsFrom 0 g.width).flatMap fun l =>
      match f.recs.find l with
      | some r => le 4 (r.block.toNat + r.fn.toNat * 2 ^ 12)
      | none => le 4 0

/-- The parts of a saved group's area that go on changing while it is saved alone: its stop (R338), its counters, its
waiting arrivals (R206) and its jobs (R263, R281). -/
def State.runningPieces (s : State) (gk core : Nat) (g : Group) : List Piece :=
  let area := groupArea g.gidx
  let jobs := s.jobBytes gk core
  [(area + 2, stopBytes g), (area + 0x0C, counterBytes g),
    (area + 0x16, le 2 (maskOf (g.arrivals.map (·.1)))), (area + 0x30, le 4 jobs.length)] ++
    mapIdxFrom 0 (fun i b => (area + 0x26000 + 1024 * i, b)) jobs

/-- A saved group's area (R334, R335) and its frames in frame data. -/
def State.groupPieces (gk core dataOff : Nat) (s : State) (g : Group) : List Piece :=
  let area := groupArea g.gidx
  let stack := g.regions.reverse
  let re := g.ops.filter Access.withdrawn
  let head : List Byte :=
    le 2 g.gidx ++ le 2 0 ++ le 4 g.flags.toNat ++ le 4 g.mode.toNat ++ le 4 0 ++ le 4 g.absent.toNat ++ le 2 g.crew.toNat ++
      le 2 0 ++
      (natsFrom 0 8).flatMap (fun i => le 2 (stack.getD i 0).toNat) ++ le 1 stack.length ++ le 1 (fIf g.regOverflow 1) ++
      le 2 (g.winTag % 16 + g.window.length * 16) ++ le 4 re.length ++ le 4 0 ++ le 204 0
  [(area, head)] ++ mapIdxFrom 0 (fun i x => (area + 0x100 + 64 * i, sliceBytes x)) g.slices ++
    mapIdxFrom 0 (fun i l => (area + 0x500 + 16 * i, laneBytes l)) g.lanes ++
    mapIdxFrom 0 (fun i w => (area + 0x900 + 0x440 * i, windowBytes w)) g.window.reverse ++
    (natsFrom 0 256).map (fun d => (area + 0x2700 + 16 * d, match g.frames.find d with
      | some f => frameRow dataOff f
      | none => le 16 0)) ++
    mapIdxFrom 0 (fun i a => (area + 0x4000 + 544 * i, reissueBytes a)) re ++
    (g.frames.filterMap fun p =>
      match p.2.place with
      | .saved (some u) => some (dataOff + u * 256, frameData g p.2)
      | _ => none) ++
    s.runningPieces gk core g

/-- The vault copy of some units; single-bit errors are corrected as they are read (`State.correctUnits`). -/
def State.unitPieces (s : State) (vault base : Nat) (units : List Nat) : List Piece :=
  mapIdxFrom 0 (fun i u =>
    let a := vaultKey vault (u * 65536)
    (base + i * 66048, s.readBytes a 65536 ++ (natsFrom 0 512).flatMap fun b =>
      le 1 (maskIf 8 fun j => (s.granAt (a / 16 + 8 * b + j)).full))) units

def barrierBytes (b : Barrier) : List Byte := le 8 (b.phase.toNat + b.count.toNat * 2 ^ 16 + b.groups.toNat * 2 ^ 21)

def blockBytes : Option AccBlock → List Byte
  | none => le 4 0
  | some b =>
    match b.place with
    | .core => le 4 1
    | .spilled i => le 4 (2 + i * 65536)

/-- The header of a team's frame (R333). -/
def State.headerBytes (s : State) (t : Nat) (tm : Team) (whole : Bool) : List Byte :=
  let gs := (s.teamGroups t).filterMap fun k => s.group k
  let saved := gs.filter (·.saved)
  let parked := saved.filter fun g => (g.halt.map (·.why)) == some .park
  let used := s.spillUsed t
  let units := (used.map (·.2)).foldl (· + ·) 0
  let total := match s.launches.find tm.launch with
    | some l => l.spillUnits
    | none => 0
  let w := if tm.width == 16 then 0 else if tm.width == 32 then 1 else 2
  le 4 1 ++ le 4 tm.launch ++ le 4 tm.t ++ le 2 tm.core ++ le 1 w ++ le 1 (tm.p + tm.c) ++
    le 2 (maskOf (saved.map (·.gidx))) ++ le 2 (maskOf (parked.map (·.gidx))) ++ le 2 tm.quota ++ le 2 (fIf whole 1) ++
    le 8 tm.saveTime.toNat ++ (natsFrom 0 16).flatMap (fun i => le 1 (((gs.find? fun g => g.gidx == i).map (·.slot)).getD 0)) ++
    le 4 (units * 256) ++ le 4 ((firstFit used total 1).getD total) ++ le 4 tm.dataOff ++ le 4 tm.dataLen ++ le 4 tm.vaultOff ++
    le 2 tm.sUnit ++ le 2 tm.sUnits ++ le 2 tm.vUnit ++ le 2 tm.vUnits ++ le 52 0 ++
    (natsFrom 0 16).flatMap (fun q => barrierBytes (tm.barrier q)) ++ bankBytes (tm.lbanks.find 0) ++
    bankBytes (tm.lbanks.find 1) ++ le 64 0 ++ (natsFrom 0 32).flatMap (fun b => blockBytes (tm.blocks.find b)) ++
    le 4 (s.entries.vals.filter fun n => n.team == t).length ++ le 508 0

/-- Write a team's save frame: its header, entries, blocks and units, the areas of the groups that are saved now, and
of the other saved groups what went on changing; their records stay as they are (R329). -/
def State.writeFrame (s : State) (t : Nat) (tm : Team) (whole : Bool) (fresh : List Nat) : State :=
  let es := (s.entries.vals.filter fun n => n.team == t).take 32
  let groups := (s.teamGroups t).flatMap fun k =>
    match s.group k with
    | some g =>
      if !g.saved then []
      else if fresh.contains k then State.groupPieces k tm.core tm.dataOff s g
      else s.runningPieces k tm.core g
    | none => []
  let blocks := (natsFrom 0 32).filterMap fun b =>
    match tm.blocks.find b with
    | some x => if x.place == .core then some (0x2000 + b * 0x2000, tm.blockBytes b) else none
    | none => none
  let units := if whole then s.unitPieces (clusterOf tm.core) tm.vaultOff
      (natsFrom tm.sUnit tm.sUnits ++ natsFrom tm.vUnit tm.vUnits)
    else []
  let pieces := [(0, s.headerBytes t tm whole), (0x1400, le 3072 0)] ++
    mapIdxFrom 0 (fun i n => (0x400 + 128 * i, entryBytes n)) es ++ blocks ++ groups ++ units
  pieces.foldl (fun s p => s.physWrite (tm.frame + p.1) p.2 none) s

/-- The stop of a saved group has changed: its record and the header's masks follow. -/
def State.noteStop (s : State) (gk : Nat) : State :=
  match s.teams.find (gk / 16), s.group gk with
  | some tm, some g =>
    if g.saved then
      let header := s.headerBytes (gk / 16) tm tm.saved
      (s.physWrite (tm.frame + 0x10) ((header.drop 0x10).take 4) none).physWrite (tm.frame + groupArea g.gidx + 2) (stopBytes g) none
    else s
  | _, _ => s

/-! ## Settling and saving -/

/-- Does a tile operation that has not started hold an access back? -/
def Group.stuck (g : Group) (a : Access) : Bool :=
  !a.complete && !a.withdrawn &&
    match a.kind, a.next with
    | .fence, _ => false
    | .launch, _ => !a.performed && !g.tilesDone a.id
    | .evsig, _ => !g.tilesDone a.id
    | _, some x => !g.tilesLet a x
    | _, none => false

/-- May an access of a stopped group still go on? -/
def Group.goesOn (g : Group) (a : Access) : Bool :=
  match a.kind, a.next with
  | .fence, _ => g.fenceReady a
  | .launch, _ => g.settledRest a.id && g.tilesDone a.id
  | .evsig, _ => g.settledRest a.id && g.tilesDone a.id
  | _, some x => g.mayPerform a x
  | _, none => false

/-- Is an access settled (R153, R328): complete, a load that is withdrawn, a record that the launch unit holds, or held
up by a tile operation that has not started, with which it waits for the restore (DEDUCED, log entry 12)? -/
def Group.opSettled (g : Group) (a : Access) : Bool :=
  a.complete || a.withdrawn || (a.kind == .launch && a.performed) ||
    (!g.goesOn a && g.ops.any fun b => decide (b.id ≤ a.id) && g.stuck b)

/-- Is a transfer under way? -/
def TileOp.started (t : TileOp) : Bool :=
  !t.complete &&
    match t.kind with
    | .xfer _ _ _ _ _ _ todo => !todo.isEmpty && todo.length != t.lanes.length
    | _ => false

/-- May a stopped group be saved now? -/
def State.settledGroup (s : State) (gk : Nat) (g : Group) : Bool :=
  g.halt.isSome && !g.saved && !s.holdsRun gk && g.ops.all g.opSettled && !g.tiles.any TileOp.started

/-- The key of `reqAge` that keeps the age of a group's restore request. -/
def restoreTag : Nat := 16

/-- A group's context is saved, with its team or alone: loads withdrawn, its frames in frame data, its slot, weight and
granules free, its frame requests gone. The restore request of a swapped-out group is made again with its age when the
group returns (R192, R201): a saved group's frames are not moved. -/
def State.saveGroup (s : State) (alone : Bool) (gk : Nat) : State :=
  let mine (w : Waiter) : Bool :=
    match w with
    | .lane k _ _ => k == gk
    | _ => false
  let s := { s with feQ := s.feQ.filter fun x => !mine x.who }
  let old := ((((s.teams.find (gk / 16)).map (·.requests)).getD []).find? fun r => r.gk == gk && r.restore).map (·.age)
  let s := s.onTeam (gk / 16) fun tm => { tm with requests := tm.requests.filter (·.gk != gk), changedAt := s.seq }
  let depths := (((s.group gk).map fun g => g.frames.keys).getD [])
  (depths.foldl (fun s d => s.saveFrame gk d) s).onGroup gk fun g =>
    { g with
      saved := true, resident := false, alone := alone,
      reqAge := match old with
        | some age => g.reqAge.put restoreTag age
        | none => g.reqAge,
      blocked := if g.swapped then g.blocked else g.blocked.filter fun p => p.2 != .frame,
      ops := g.ops.map fun a => { a with lanes := a.lanes.map fun x => { x with queued := false } } }

/-- A weight load's wait for full bits begins anew. -/
def TileOp.waitAgain (t : TileOp) : TileOp :=
  match t.kind with
  | .wld bank b full (some _) => if t.complete then t else { t with kind := .wld bank b full none }
  | _ => t

/-- Chunks that wait are abandoned, weight loads leave the vaults' queues, captured rows and banks are dropped
(R237, R263). -/
def State.restTeam (s : State) (t core : Nat) : State :=
  let ofTeam (k : Nat) : Bool := k / 16 == t
  let cl := clusterOf core
  let q := s.copyQueue cl
  let s := s.setCopyQueue cl { q with jobs := q.jobs.map fun j => if ofTeam j.gk then { j with work := none } else j }
  let gone (w : Waiter) : Bool :=
    match w with
    | .lane k _ _ => ofTeam k
    | .weights k _ => ofTeam k
    | .chunk _ k _ => ofTeam k
  let arr := s.array core
  let chosen := match s.chosenEntry core with
    | some (_, n) => if n.team == t then none else arr.chosen
    | none => none
  let reuse := match arr.reuse with
    | some r => if r.team == t then none else some r
    | none => none
  let s := s.setArray core { arr with chosen := chosen, reuse := reuse }
  { s with
    feQ := s.feQ.filter fun x => !gone x.who,
    banks := s.banks.filter fun p => p.2.team != t,
    entries := s.entries.map fun p =>
      if p.2.team == t then
        (p.1, { p.2 with passed := 0, arrivals := p.2.arrivals.map fun a => { a with rows := none, ecc := [] } })
      else p,
    groups := s.groups.map fun p => if ofTeam p.1 then (p.1, { p.2 with tiles := p.2.tiles.map TileOp.waitAgain }) else p,
    spill := s.spill.filter fun p => p.2 != t }

/-- Single-bit errors in a team's units are corrected, and counted, as its save reads them (R249). -/
def State.correctUnits (s : State) (tm : Team) : State :=
  let at0 (u : Nat) : Nat := vaultKey (clusterOf tm.core) (u * 65536)
  (s.correctHome (at0 tm.sUnit) (tm.sUnits * 65536)).correctHome (at0 tm.vUnit) (tm.vUnits * 65536)

/-- The accumulator rows that a saved team's groups leave undefined are so in its frame (R227). -/
def State.lateTeam (s : State) (t : Nat) : State :=
  (s.teamGroups t).foldl (fun s k => match s.group k with
    | some g => s.lateRows g
    | none => s) s

/-- The whole team leaves the machine with the groups saved now, `fresh`: its units are copied and freed (R247). -/
def State.saveWhole (s : State) (t : Nat) (fresh : List Nat) : State :=
  match s.teams.find t with
  | none => s
  | some tm =>
    let s := ((s.restTeam t tm.core).lateTeam t).correctUnits tm
    let s := s.onTeam t fun tm => { tm with latched := false, saveTime := s.time }
    let s := match s.teams.find t with
      | some tm => s.writeFrame t tm true fresh
      | none => s
    let grans := s.gran.filter fun p => tm.hasKey (p.1 * 16)
    let s := s.onTeam t fun tm => { tm with saved := true, granCopy := grans }
    let s := (s.clearUnits (clusterOf tm.core) tm.sUnit tm.sUnits).clearUnits (clusterOf tm.core) tm.vUnit tm.vUnits
    s.sweepMsgs

/-- Is every group of a team that has not retired saved, and stopped for debug? -/
def State.allDebug (s : State) (t : Nat) : Bool :=
  !(s.teamGroups t).isEmpty && (s.teamGroups t).all fun k => match s.group k with
    | some g => g.saved && (g.halt.map (·.why)) == some .debug
    | none => true

/-- Is a chunk of a team's jobs past its wait? It completes before the team is saved (R263). -/
def State.chunkUnderWay (s : State) (t core : Nat) : Bool :=
  (s.copyQueue (clusterOf core)).jobs.any fun j => j.gk / 16 == t && j.pastWait

/-- CONTEXT_SAVE: a team whose pre-emption is latched is saved whole once all its groups have halted and
settled; of another team, the groups that a fault, a park or a debug stop holds are saved alone, and the team is saved
whole when all its groups are stopped for debug. -/
def execContextSave (team : Nat) (s : State) : Outcome :=
  match s.teams.find team with
  | none => .next s
  | some tm =>
    let ks := s.teamGroups team
    let fresh := ks.filter fun k => match s.group k with
      | some g => s.settledGroup k g
      | none => false
    let busy := s.chunkUnderWay team tm.core
    if tm.saved then .next s
    else if tm.latched then
      if !busy && ks.all fun k => fresh.contains k || ((s.group k).map (·.saved)).getD true then
        .next ((fresh.foldl (State.saveGroup · false) s).saveWhole team fresh)
      else .next s
    else
      let s := fresh.foldl (State.saveGroup · true) s
      if !busy && s.allDebug team then .next (s.saveWhole team fresh)
      else if fresh.isEmpty then .next s
      else
        let s := s.onTeam team fun tm => { tm with saveTime := s.time }
        .next (match s.teams.find team with
          | some tm => s.writeFrame team tm false fresh
          | none => s)

end Sys2Proof.Machine
end

