-- ==== Sys2Proof/Machine/Restore.lean ====
section
/-! DEFINITION. The return of saved groups and teams: every section of the save frame is reloaded, and what was withdrawn
is issued again (R153, R191, R207, R237, R247, R321, R330, R333 to R335, R338). Log entry 12 names what no section holds. -/

namespace Sys2Proof.Machine

open Sys2Proof

/-! ## Reading a save frame (R332 to R334) -/

/-- The number that n bytes at an offset of a frame hold. -/
abbrev FrameRead := Nat → Nat → Nat

def State.frameRead (s : State) (tm : Team) : FrameRead := fun off n => ofLeBytes (s.physBytes (tm.frame + off) n)

/-- A lane record. -/
def readLaneRecord (x : Nat) : Lane :=
  { blk := BitVec.ofNat 12 x, nxt := BitVec.ofNat 12 (bitsOf x 23 12), park := bitOf x 24, sweep := bitOf x 25,
    depth := BitVec.ofNat 8 (bitsOf x 33 26), seq := BitVec.ofNat 32 (bitsOf x 95 64) }

def statusOf : Nat → SliceStatus
  | 0 => .gang
  | 1 => .lone
  | 2 => .peel
  | 3 => .await
  | _ => .done

/-- A slice record. -/
def readSliceRecord (rd : FrameRead) (o : Nat) : Slice :=
  { sid := BitVec.ofNat 16 (rd o 2), off := BitVec.ofNat 16 (rd (o + 2) 2), cursor := BitVec.ofNat 12 (rd (o + 4) 2),
    status := statusOf (rd (o + 6) 1), tag := BitVec.ofNat 4 (rd (o + 7) 1),
    loops := (natsFrom 0 (min 3 (rd (o + 0x0C) 1))).map fun i =>
      ⟨BitVec.ofNat 32 (rd (o + 0x10 + 16 * i) 4), BitVec.ofNat 16 (rd (o + 0x14 + 16 * i) 2),
        BitVec.ofNat 16 (rd (o + 0x16 + 16 * i) 2)⟩,
    patience := BitVec.ofNat 16 (rd (o + 8) 2), armed := BitVec.ofNat 16 (rd (o + 0x0A) 2) }

/-- Does a frame still hold some bytes at an offset? -/
def stillAt (rd : FrameRead) (o : Nat) (bs : List Byte) : Bool := rd o bs.length == ofLeBytes bs

/-- A window entry: its registers, the lanes that wrote them, their values. -/
def readWindowRecord (rd : FrameRead) (o : Nat) (w : WinEntry) : WinEntry :=
  if stillAt rd o (windowBytes w) then w
  else
    let regs := (natsFrom 0 (min 4 (rd o 1))).map fun i => rd (o + 1 + i) 1
    let lanes := (natsFrom 0 64).filter (rd (o + 8) 8).testBit
    let at0 (l i : Nat) : Word := BitVec.ofNat 32 (rd (o + 0x40 + 256 * i + 4 * l) 4)
    { async := w.async, regs := regs, lanes := lanes,
      vals := if w.async then [] else
        lanes.foldl (fun m l => (mapIdxFrom 0 (fun i r => (i, r)) regs).foldl (fun m x => m.put (l * 256 + x.2) (at0 l x.1)) m) [] }

/-- The forwarding window, newest word first. -/
def readWindow (rd : FrameRead) (area : Nat) (window : List WinEntry) : List WinEntry :=
  let old := window.reverse
  ((natsFrom 0 (min 7 (bitsOf (rd (area + 0x2A) 2) 7 4))).map fun i =>
    readWindowRecord rd (area + 0x900 + 0x440 * i) (old.getD i (winEntry []))).reverse

/-- A frame of frame data: its registers and return records, from the offset that its row of the frame table names. -/
def readFrameData (rd : FrameRead) (row width : Nat) (f : Frame) : Frame :=
  let off := rd (row + 4) 4
  let recs := off + 4 * f.size * width
  { f with
    regs := (natsFrom 0 width).flatMap fun l => (natsFrom 0 f.size).map fun r =>
      (l * 256 + r, BitVec.ofNat 32 (rd (off + 4 * (r * width + l)) 4)),
    recs := f.recs.map fun p =>
      let x := rd (recs + 4 * p.1) 4
      (p.1, ⟨BitVec.ofNat 12 x, BitVec.ofNat 16 (bitsOf x 27 12)⟩),
    stamp := rd (row + 8) 8 }

/-- A frame as a row of the frame table names it; a row that still names the frame that was saved changes nothing but what
frame data holds. -/
def readFrame (rd : FrameRead) (dataOff row width : Nat) (old : Option Frame) : Option Frame :=
  let keeps := match old with
    | some f => stillAt rd row (frameRow dataOff f)
    | none => rd row 16 == 0
  if keeps then
    old.map fun f => match f.place with
      | .saved (some _) => readFrameData rd row width f
      | _ => f
  else
    let f := old.getD ⟨[], [], [], [], 0, .pool⟩
    let n := rd row 1
    let f := { f with seeds := f.seeds.take n ++ List.replicate (n - f.seeds.length) 0, stamp := rd (row + 8) 8 }
    match rd (row + 1) 1 % 4 with
    | 1 => some { (readFrameData rd row width f) with place := .saved (some ((rd (row + 4) 4 - dataOff) / 256)) }
    | 2 => some { f with place := .spilled (rd (row + 4) 4) (frameUnits n width) (match f.place with
        | .spilled _ _ since => since
        | _ => 0) }
    | _ => none

def readFrames (rd : FrameRead) (dataOff area : Nat) (g : Group) : KMap Frame :=
  (natsFrom 0 256).filterMap fun d =>
    (readFrame rd dataOff (area + 0x2700 + 16 * d) g.width (g.frames.find d)).map fun f => (d, f)

/-- A load as its word has it. -/
def Access.asWord (a : Access) (w lit : Dword) : Access :=
  let load (k : AccKind) (o : MOp) : Access :=
    { a with kind := k, size := if k == .fetest then 16 else 2 ^ o.size.toNat, order := o.order.toNat,
             scope := o.scope.toNat, rmt := o.rmt, fe := if k == .fetest then 0 else o.fe.toNat, vd := o.vd.toNat,
             word := w, lit := lit }
  match decode w lit with
  | .ok (.ld o) => load .ld o
  | .ok (.lds o) => load .lds o
  | .ok (.fetest o) => load .fetest o
  | _ => { a with word := w, lit := lit }

/-- A reissue record (R335): the word, the lanes that still perform it, their addresses. -/
def readReissue (rd : FrameRead) (o : Nat) (g : Group) (a : Access) : Access :=
  if stillAt rd o (reissueBytes a) then a
  else
    let a := a.asWord (BitVec.ofNat 64 (rd o 8)) (BitVec.ofNat 64 (rd (o + 8) 8))
    let left := rd (o + 0x10) 8
    let lanes := (natsFrom 0 64).filterMap fun l =>
      let ea := rd (o + 0x20 + 8 * l) 8
      match a.lanes.find? fun x => x.lane == l with
      | some x => if x.done then some x else if left.testBit l then some { x with ea := BitVec.ofNat 64 ea } else none
      | none => if left.testBit l then some (laneAcc l (g.lane l).depth ea 0 false 0 0 0) else none
    let n := if a.kind == .fetest then 1 else regsFor a.size
    { a with lanes := lanes, complete := lanes.all (·.done),
             dests := lanes.flatMap fun x => (natsFrom a.vd n).map (regKey x.depth.toNat x.lane) }

/-- The accesses of a group, with its reissue records in issue order: a load without a record is not issued again. -/
def readReissues (rd : FrameRead) (area : Nat) (g : Group) : Nat → List Access → List Access
  | _, [] => []
  | i, a :: rest =>
    if a.withdrawn then
      (if i < rd (area + 0x2C) 4 then [readReissue rd (area + 0x4000 + 544 * i) g a] else []) ++
        readReissues rd area g (i + 1) rest
    else a :: readReissues rd area g i rest

/-- A group as its area of the frame has it. -/
def Group.reload (g : Group) (rd : FrameRead) (dataOff : Nat) : Group :=
  let area := groupArea g.gidx
  let waits := rd (area + 0x16) 2
  { g with
    lanes := (natsFrom 0 g.lanes.length).map fun i => readLaneRecord (rd (area + 0x500 + 16 * i) 16),
    slices := (natsFrom 0 g.slices.length).map fun i => readSliceRecord rd (area + 0x100 + 64 * i),
    frames := readFrames rd dataOff area g,
    swapped := bitOf (rd (area + 2) 1) 2, lastFault := BitVec.ofNat 8 (rd (area + 3) 1),
    flags := BitVec.ofNat 32 (rd (area + 4) 4), mode := BitVec.ofNat 32 (rd (area + 8) 4),
    loads := rd (area + 0x0C) 1, stores := rd (area + 0x0D) 1, engine := rd (area + 0x0E) 1, tile := rd (area + 0x0F) 1,
    absent := BitVec.ofNat 32 (rd (area + 0x10) 4), crew := BitVec.ofNat 16 (rd (area + 0x14) 2),
    arrivals := g.arrivals.filter fun p => waits.testBit p.1,
    regions := ((natsFrom 0 (min 8 (rd (area + 0x28) 1))).map fun i => BitVec.ofNat 16 (rd (area + 0x18 + 2 * i) 2)).reverse,
    regOverflow := bitOf (rd (area + 0x29) 1) 0, winTag := rd (area + 0x2A) 1 % 16,
    window := readWindow rd area g.window, ops := readReissues rd area g 0 g.ops }

/-! ## Job records and tile entries (R333, R335) -/

/-- A job record of a copy. -/
def readCopy (rd : FrameRead) (o : Nat) (j : CopyJob) : CopyJob :=
  if stillAt rd o (copyBytes j) then j
  else
    { j with
      kind := (match rd o 2 with
        | 0x180 => .copy
        | 0x181 => .gather
        | 0x182 => .scatter
        | _ => j.kind),
      fmt := (Fmt.ofCode (rd (o + 2) 2 / 64)).getD j.fmt, jf := rd (o + 2) 2 % 64, pos := BitVec.ofNat 32 (rd (o + 4) 4),
      ix := BitVec.ofNat 64 (rd (o + 8) 8), src := BitVec.ofNat 64 (rd (o + 0x10) 8), dst := BitVec.ofNat 64 (rd (o + 0x18) 8),
      d := (natsFrom 0 8).map fun i => BitVec.ofNat 32 (rd (o + 0x20 + 4 * i) 4),
      row := rd (o + 0x40) 4, chunk := rd (o + 0x44) 4, mode := BitVec.ofNat 32 (rd (o + 0x48) 4) }

/-- A job record of a selection. No field of it holds the lowest index of a bin. -/
def readSel (rd : FrameRead) (o : Nat) (j : SelJob) : SelJob :=
  if stillAt rd o (selBytes j) then j
  else
    let scmp := rd o 2 == 0x189
    let hi := rd (o + 0x50) 4
    let count := rd (o + 0x54) 4
    { j with
      scmp := scmp, fmt := (Fmt.ofCode (rd (o + 2) 2 / 64)).getD j.fmt, jf := rd (o + 2) 2 % 64,
      pos := BitVec.ofNat 32 (rd (o + 4) 4), recAddr := BitVec.ofNat 64 (rd (o + 8) 8),
      col := BitVec.ofNat 64 (rd (o + 0x10) 8), aux := BitVec.ofNat 64 (rd (o + 0x18) 8),
      d := (natsFrom 0 8).map fun i => BitVec.ofNat 32 (rd (o + 0x20 + 4 * i) 4),
      pass := rd (o + 0x40) 4, mode := BitVec.ofNat 32 (rd (o + 0x48) 4), hi := hi,
      cursor := if rd (o + 0x44) 4 == j.cursor / 4096 then j.cursor else rd (o + 0x44) 4 * 4096,
      emitted := if scmp then count else j.emitted, n := if scmp then j.n else count,
      pre := rd (o + 0x58) 8 / 2 ^ (hi + 1), base := rd (o + 0x60) 40, wt := rd (o + 0x88) 40,
      bins := (natsFrom 0 16).filterMap fun d =>
        if rd (o + 0xB0 + 48 * d + 40) 4 == 0 then none
        else some (d, rd (o + 0xB0 + 48 * d) 40, rd (o + 0xB0 + 48 * d + 40) 4,
          ((j.bins.find d).map fun b => b.2.2).getD 0) }

/-- The queued copy and selection jobs of a group of a saved team, as its job records have them in issue order; a job
without a record is gone. -/
def State.reloadJobs (s : State) (rd : FrameRead) (core gk : Nat) : State :=
  let cl := clusterOf core
  let area := groupArea (gk % 16)
  let cq := s.copyQueue cl
  let sq := s.selQueue cl
  let ids := sortBy (fun a b => decide (a ≤ b))
    ((cq.jobs.filter fun j => j.gk == gk).map (·.id) ++ (sq.jobs.filter fun j => j.gk == gk).map (·.id))
  let at0 (id : Nat) : Option Nat :=
    (ids.idxOf? id).bind fun i => if i < rd (area + 0x30) 4 then some (area + 0x26000 + 1024 * i) else none
  let cjobs := cq.jobs.filterMap fun j => if j.gk == gk then (at0 j.id).map (readCopy rd · j) else some j
  let sjobs := sq.jobs.filterMap fun j => if j.gk == gk then (at0 j.id).map (readSel rd · j) else some j
  (s.setCopyQueue cl { cq with jobs := cjobs }).setSelQueue cl { sq with jobs := sjobs }

/-- A tile-entry record. -/
def readEntry (rd : FrameRead) (o : Nat) (banks : KMap LBank) (n : Entry) : Entry :=
  if stillAt rd o (entryBytes n) then n
  else
    let x := rd (o + 5) 1
    let bank := bitsOf x 6 6
    let up := (sortBy (fun a b => decide (a ≤ b)) (n.arrivals.map (·.gidx)))
    let lanes (base gidx : Nat) : List Nat :=
      (natsFrom 0 64).filter (rd (o + base + 8 * (up.idxOf? gidx).getD 0) 8).testBit
    let gen := rd (o + 8) 4
    { n with
      mask := BitVec.ofNat 16 (rd o 2), complete := rd (o + 7) 1 == 1,
      bound := match n.bound with
        | some b => if b.gen == gen then some b else (banks.find bank).filter fun c => c.gen == gen
        | none => (banks.find bank).filter fun c => c.gen == gen,
      arrivals := (n.arrivals.filter fun a => (rd (o + 2) 2).testBit a.gidx).map fun a =>
        let ls := lanes 0x10 a.gidx
        { a with
          fmt := (Fmt.ofCode (rd (o + 4) 1)).getD a.fmt, rm := (Rm.ofCode (bitsOf x 2 0)).getD a.rm, prio := bitsOf x 4 3,
          reuse := bitOf x 5, bank := bank, cz := bitOf x 7, arow := rd (o + 6) 1, lanes := ls,
          depths := ls.map fun l => (((a.lanes.idxOf? l).bind fun i => a.depths[i]?).getD 0), undef := lanes 0x40 a.gidx } }

/-- The open entries of a saved team, as their records have them. -/
def State.reloadEntries (s : State) (rd : FrameRead) (t : Nat) (banks : KMap LBank) : State :=
  let keys := (s.entries.filter fun p => p.2.team == t).map (·.1)
  { s with entries := s.entries.filterMap fun p =>
      if p.2.team != t then some p
      else
        let i := (keys.idxOf? p.1).getD 0
        if i < rd 0x200 4 then some (p.1, readEntry rd (0x400 + 128 * i) banks p.2) else none }

/-! ## The team's header and blocks (R333) -/

def readBarrier (x : Nat) : Barrier :=
  ⟨BitVec.ofNat 16 x, BitVec.ofNat 5 (bitsOf x 20 16), BitVec.ofNat 16 (bitsOf x 36 21)⟩

/-- A location of a logical bank's record; 0 stands for one outside the vaults, which stays. -/
def readLocation (x old : Nat) : Nat := if x == 0 then old else vaultKey (bitsOf x 47 46 * 24 + bitsOf x 45 41) (x % 2 ^ 24)

def readBank (rd : FrameRead) (o : Nat) (b : LBank) : LBank :=
  { b with
    elem := readLocation (rd o 8) b.elem, scale := readLocation (rd (o + 8) 8) b.scale,
    extra := readLocation (rd (o + 16) 8) b.extra, fmt := (Fmt.ofCode (rd (o + 24) 1)).getD b.fmt,
    status := match rd (o + 25) 1 with
      | 0 => .empty
      | 1 => .loading
      | _ => .ready,
    gen := rd (o + 28) 4 }

/-- The map of a team's accumulator blocks. -/
def readBlocks (rd : FrameRead) (now : Nat) (old : KMap AccBlock) : KMap AccBlock :=
  (natsFrom 0 32).filterMap fun b =>
    let x := rd (0x180 + 4 * b) 4
    let used := ((old.find b).map (·.used)).getD now
    match x % 4 with
    | 1 => some (b, ⟨.core, used⟩)
    | 2 => some (b, ⟨.spilled (x / 65536), used⟩)
    | _ => none

/-- The accumulators of the blocks that the frame holds. -/
def readAccs (rd : FrameRead) (blocks : KMap AccBlock) (acc : KMap Word) : KMap Word :=
  (blocks.filter fun p => p.2.place == .core).foldl (fun acc p =>
    (natsFrom 0 2048).foldl (fun acc i =>
      KMap.put acc (p.1 * 2048 + i) (BitVec.ofNat 32 (rd (0x2000 + p.1 * 0x2000 + 4 * i) 4))) acc) acc

/-- A team as its header and blocks have it. -/
def Team.reload (tm : Team) (rd : FrameRead) (now : Nat) : Team :=
  let blocks := readBlocks rd now tm.blocks
  { tm with
    barriers := tm.barriers.map fun p => (p.1, readBarrier (rd (0x080 + 8 * p.1) 8)),
    lbanks := tm.lbanks.map fun p => (p.1, readBank rd (0x100 + 32 * p.1) p.2),
    blocks := blocks, acc := readAccs rd blocks tm.acc }

/-! ## Return (R330, R338) -/

/-- The bytes and full-empty bits of one unit come back from its vault copy. -/
def State.restoreUnit (s : State) (vault unit off : Nat) (tm : Team) : State :=
  let a := vaultKey vault (unit * 65536)
  let rd := s.frameRead tm
  let s := { s with mem := Memory.putBytes s.mem a (s.physBytes (tm.frame + off) 65536) }
  (natsFrom 0 4096).foldl (fun s i =>
    let old := (tm.granCopy.find (a / 16 + i)).getD Gran.blank
    s.setGran (a / 16 + i) { old with full := bitOf (rd (off + 65536 + i / 8) 1) (i % 8) }) s

/-- Put a team's units back. What stood there before is gone (R246, R247). -/
def State.restoreUnits (s : State) (tm : Team) : State :=
  let v := clusterOf tm.core
  let units := natsFrom tm.sUnit tm.sUnits ++ natsFrom tm.vUnit tm.vUnits
  let s := (s.clearUnits v tm.sUnit tm.sUnits).clearUnits v tm.vUnit tm.vUnits
  (mapIdxFrom 0 (fun i u => (i, u)) units).foldl (fun s x => s.restoreUnit v x.2 (tm.vaultOff + x.1 * 66048) tm) s

/-- What the check of a load that is issued again gives. -/
inductive Again where
  | ok (lanes : List LaneAcc) (fill : List TlbEntry)
  | bad (code lane : Nat) (ea : Dword)
  | park (lane : Nat) (ea : Dword)
  deriving DecidableEq, Repr

/-- The lanes of an access that are not performed are checked and translated again (R148), the lowest first. -/
def State.againLanes (s : State) (p : Party) (a : Access) : List LaneAcc → Again
  | [] => .ok [] []
  | x :: rest =>
    let go (x : LaneAcc) (fill : List TlbEntry) : Again :=
      match State.againLanes s p a rest with
      | .ok xs fs => .ok (x :: xs) (fill ++ fs)
      | r => r
    if x.done then go x []
    else
      let load := a.withdrawn
      match s.checkAccess { p with lane := x.lane } p.core x.ea.toNat a.size (if load then a.size else 1)
          (!load && a.kind != .launch) (load && (a.fe != 0 || a.kind == .fetest)) with
      | .ok t nc fill => go { x with target := t, nc := nc, port := s.portOf t } fill
      | .bad c => .bad c x.lane x.ea
      | .unresolved => .park x.lane x.ea

/-- Accesses of a group that returns are issued again, in issue order (R153, R330): each is checked and translated again.
Where that fails, the group stops for it, with a deferred fault or parked at that word (DEDUCED, log entry 71). -/
def State.againOps (s : State) (gk : Nat) (p : Party) : List Access → State
  | [] => s
  | a :: rest =>
    if a.complete || a.isFence || a.kind == .evsig then State.againOps s gk p rest
    else
      match s.againLanes p a a.lanes with
      | .ok xs fill =>
        State.againOps ((s.fillTlb fill).onGroup gk fun g => g.onAccess a.id fun a => { a with lanes := xs }) gk p rest
      | .bad c l ea => s.deferFault gk a.pos ⟨c, 0, l, ea, 0, 0⟩ false 0 0 0 none
      | .park l ea =>
        let tag := ((s.group gk).map (·.lastTag)).getD 0
        ((s.count p.la.ctx 15 1).addRecord (s.record gk 2 cPAGE 0 (fIf (!a.kind.isLoad) 16) tag a.pos ea l 0)).halt gk .park cPAGE
          l tag

def State.reissue (s : State) (gk : Nat) : State :=
  match s.group gk, s.jobParty gk 0 with
  | some g, some p => s.againOps gk p g.ops
  | _, _ => s

/-- A saved group returns to its slot. The frames of one that was saved with its team are back in the pool; those of one
that was saved alone come back by a restore request, as do the frames of a swapped-out group, whose request keeps its age
(R191, R192, R330, R338). -/
def State.returnGroup (s : State) (rd : FrameRead) (gk : Nat) : State :=
  match s.group gk, s.teams.find (gk / 16) with
  | some g0, some tm =>
    let g := g0.reload rd tm.dataOff
    let saved := (g.frames.filter fun p => p.2.isSaved).map (·.1)
    let swapped := g.swapped || (g.alone && !saved.isEmpty)
    let depths := (if g.alone then saved else []) ++ (if g.swapped then g.liveDepths.filter g.isSpilled else [])
    let size := (depths.map fun d => g.frameSize d / 8).foldl (· + ·) 0
    let r : FrameReq := ⟨gk, g.lastTag, (g.reqAge.find restoreTag).getD s.seq, size, false, true, depths,
      depths.map fun d => gk * 256 + d⟩
    let s := s.onGroup gk fun _ =>
      { g with saved := false, alone := false, resident := true, swapped := swapped, pass := 0,
               reqAge := g.reqAge.del restoreTag,
               frames := if g.alone then g.frames
                 else g.frames.map fun p => if p.2.isSaved then (p.1, { p.2 with place := .pool }) else p }
    let s := s.onTeam (gk / 16) fun tm =>
      let tm := { tm with changedAt := s.seq }
      if swapped then tm.addRequest r else tm
    let s := if g.halt.isSome then s.release gk g.step.isSome else s
    s.reissue gk
  | _, _ => s

/-- Is a slot of a core free, and its weight? -/
def State.slotFree (s : State) (core slot weight : Nat) : Bool :=
  !(s.slotsUsed core).contains slot && s.weightUsed core + weight ≤ 256

/-- Has a core room for the groups of a saved team that go on: slots, weights, granules, units (R247, R330), and places
for its open entries (R219)? It waits for no room in the engines' queues: the copy jobs of a team that returns may bring
its engine above the 64 jobs of R253 (DESIGN CHOICE, log entry 69). -/
def State.roomFor (s : State) (t : Nat) (tm : Team) (back : List (Nat × Group)) : Bool :=
  let used := s.unitsUsed (clusterOf tm.core)
  let slots := s.slotsUsed tm.core
  let es := (s.entries.filter fun p => p.2.team == t).length
  !(back.any fun p => slots.contains p.2.slot) && s.weightUsed tm.core + back.length * tm.weight ≤ 256 &&
    s.poolFits tm.core tm.width tm.quota && (unitsFree used tm.sUnit tm.sUnits || tm.sUnits == 0) &&
    (unitsFree used tm.vUnit tm.vUnits || tm.vUnits == 0) && (s.coreEntries tm.core).length + es ≤ 32

/-- The saved groups of a team that go on. -/
def State.goingOn (s : State) (team : Nat) : List (Nat × Group) :=
  (s.teamGroups team).filterMap fun k => match s.group k with
    | some g => if g.saved && !g.waitsHost then some (k, g) else none
    | none => none

/-- The blocks that a saved team needs on its core. -/
def State.blocksBack (s : State) (tm : Team) : Nat :=
  ((readBlocks (s.frameRead tm) s.seq tm.blocks).filter fun b => b.2.place == .core).length

/-- A saved team is back on its core: its units, its header's fields, its entries and jobs, the groups that go on. -/
def State.restoreTeam (s : State) (t : Nat) (tm : Team) (back : List (Nat × Group)) : State :=
  let rd := s.frameRead tm
  let tm' := tm.reload rd s.seq
  let s := ((s.correctPhys tm.frame tm.frameSize).restoreUnits tm).onTeam t fun _ =>
    { tm' with saved := false, granCopy := [], changedAt := s.seq }
  let s := (s.teamGroups t).foldl (fun s k => s.reloadJobs rd tm.core k) (s.reloadEntries rd t tm'.lbanks)
  back.foldl (fun s p => s.returnGroup rd p.1) s

/-- Does a core wait for the urgent team of a launch that it was kept for, before a saved team returns to it (R327)? A
saved team of equal or higher priority is restored first (R321). -/
def State.waitsUrgent (s : State) (tm : Team) : Bool :=
  let level := ((s.launches.find tm.launch).map fun l => recPriority l.record).getD 3
  s.launches.vals.any fun l => l.urgentCore == some tm.core && decide (recPriority l.record < level)

/-- TEAM_RESTORE: a saved team returns to its core, slots and units when they are free and physical blocks can be made
free for its accumulators (R207); of a team in the machine, the first group that was resumed returns. -/
def execTeamRestore (team : Nat) (s : State) : Outcome :=
  match s.teams.find team with
  | none => .next s
  | some tm =>
    let back := s.goingOn team
    if tm.latched || s.waitsUrgent tm then .next s
    else if tm.saved then
      if back.isEmpty || !s.roomFor team tm back then .next s
      else
        match s.freeBlocks tm.core (s.blocksBack tm) 32 with
        | some s => .next (s.restoreTeam team tm back)
        | none => .next s
    else
      match back with
      | [] => .next s
      | (k, g) :: _ =>
        let fits := (s.residentTeams tm.core).any (fun p => p.1 == team) || s.poolFits tm.core tm.width tm.quota
        if s.slotFree tm.core g.slot tm.weight && fits then
          .next ((s.correctPhys (tm.frame + groupArea g.gidx) 0x2D000).returnGroup (s.frameRead tm) k)
        else .next s

end Sys2Proof.Machine
end

