-- ==== Sys2Proof/Machine/Preempt.lean ====
section
/-! DEFINITION. Pre-emption, the posting of fault records, the end of a launch by the host, page migration and the
patrol scrubber (R287, R302, R326 to R329, R336). -/

namespace Sys2Proof.Machine

open Sys2Proof

/-! ## Pre-emption (R327, R328) -/

/-- Latch a pre-emption of a team; a saved team is left as it is (R329). A word of the team that is stalled at issue is
abandoned: its run ends. -/
def State.latch (s : State) (t : Nat) : State :=
  match s.teams.find t with
  | none => s
  | some tm =>
    if tm.saved then s
    else
      let held (r : Run) : Bool := r.stalled && r.gk / 16 == t
      let gks := (s.runs.vals.filter held).map (·.gk)
      let s := s.onTeam t fun tm => { tm with latched := true }
      gks.foldl State.takeOwed { s with runs := s.runs.filter fun r => !held r.2 }

/-- The lowest slot of a team: that of its group 0. -/
def victimKey (s : State) (tm : Team) : Nat :=
  let lv := match s.launches.find tm.launch with
    | some l => recPriority l.record
    | none => 3
  (3 - lv) * 64 + tm.snum

/-- The teams of a core that an urgent launch at a level may pre-empt, in the order of R327. -/
def State.victims (s : State) (core level : Nat) : List Nat :=
  let ts := (s.liveTeams core).filter fun p =>
    match s.launches.find p.2.launch with
      | some l => recPreemptible l.record && decide (level < recPriority l.record)
      | none => false
  (sortBy (fun a b => decide (victimKey s a.2 ≤ victimKey s b.2)) ts).map (·.1)

/-- The machine with some teams away, for the question of R183. -/
def State.without (s : State) (ts : List Nat) : State :=
  let s := ts.foldl (fun s t => s.onTeam t fun tm => { tm with saved := true }) s
  { s with groups := s.groups.map fun p => if ts.contains p.2.team then (p.1, { p.2 with resident := false }) else p }

/-- How many teams, in order, must leave a core before a launch's next team has a place there. -/
def State.needed (s : State) (l : Launch) (core : Nat) (vs : List Nat) : Option Nat :=
  (natsFrom 0 (vs.length + 1)).find? fun n => ((s.without (vs.take n)).placeOn l core).isSome

/-- The core that needs the fewest teams, the lowest of equals, and the teams. -/
def State.urgentChoice (s : State) (l : Launch) : Option (Nat × List Nat) :=
  let lv := recPriority l.record
  let mask := field l.record 0x42 1 % 16
  let cores := (natsFrom 0 384).filter fun c => (mask == 0 || mask.testBit (dieOf c)) && !s.keptCore c (some l.id)
  let all := cores.filterMap fun c =>
    let vs := s.victims c lv
    (s.needed l c vs).map fun n => (n * 384 + c, c, vs.take n)
  ((sortBy (fun a b => decide (a.1 ≤ b.1)) all).map (·.2)).head?

/-- The mark of a delay that has run out once for the waiting team. -/
def urgencyDone : Dword := BitVec.allOnes 64

/-- Does the urgency delay of a launch start now (R327)? -/
def State.urgencyStarts (s : State) (l : Launch) : Bool :=
  recUrgent l.record && l.urgentSince.isNone && s.headReady l && (s.placeFor l).isNone

/-- The delays that start in this cycle. -/
def State.startDelays (s : State) : State :=
  (natsFrom 0 64).foldl (fun s q =>
    match (s.currentOf q).bind s.launches.find with
    | some l => if s.urgencyStarts l then s.onLaunch l.id.toNat fun l => { l with urgentSince := some s.time } else s
    | none => s) s

/-- Is the core that is kept for a launch clear of what the choice waits for, the saves of the teams pre-empted there and
the restores that come first, and has it no place even so? -/
def State.choiceFailed (s : State) (l : Launch) : Bool :=
  match l.urgentCore with
  | some c => (s.liveTeams c).all (fun p => !p.2.latched) && !s.restoreFirst c (recPriority l.record)
  | none => true

/-- URGENCY_DELAY_EXPIRY: the waiting team's delay has run out without a core; the teams of one core are
pre-empted for it, and that core is kept for it. The choice is made again where that core has no place after all, because
saved teams have returned to it first (DEDUCED, log entry 72). -/
def execUrgencyDelayExpiry (q : Nat) (s : State) : Outcome :=
  match (s.currentOf q).bind s.launches.find with
  | none => .next s
  | some l =>
    match l.urgentSince with
    | none => .next s
    | some t =>
      let due := t.toNat + field l.record 0x44 2 * 1000
      let waits := if t == urgencyDone then !s.choiceFailed l else decide (s.time.toNat < due)
      if waits || !s.headReady l || (s.placeFor l).isSome then .next s
      else
        match s.urgentChoice l with
        | none => .next s
        | some (c, ts) =>
          .next ((ts.foldl State.latch s).onLaunch l.id.toNat fun l =>
            { l with urgentSince := some urgencyDone, urgentCore := some c })

/-- A group halts for a pre-emption; one that is stopped already stays as it is. -/
def State.preemptGroup (s : State) (gk : Nat) : State :=
  match s.group gk with
  | none => s
  | some g => if g.halt.isSome then s else (s.count (s.ctxOf g) 15 1).halt gk .preempt 0 0 (g.step.getD g.lastTag)

/-- PREEMPTION_HALT: every group of a latched team halts at a word boundary. -/
def execPreemptionHalt (team : Nat) (s : State) : Outcome :=
  match s.teams.find team with
  | none => .next s
  | some tm => if tm.latched && !tm.saved then .next ((s.teamGroups team).foldl State.preemptGroup s) else .next s

/-! ## The end of a launch (R326) -/

/-- The chunk in progress of a group's copy job on each engine ends (R263). -/
def State.finishChunks (s : State) (gk : Nat) : State :=
  s.copyQ.keys.foldl (fun s cl =>
    match (s.copyQueue cl).jobs.find? fun j => j.gk == gk && j.pastWait with
    | some j => s.finishChunk cl gk (chunkSteps j)
    | none => s) s

/-- A group of an ended launch is discarded: its accesses not yet performed, its jobs and waits go with it. A message
already sent is still delivered, for no group (R384). -/
def State.discardGroup (s : State) (gk : Nat) : State :=
  let s := s.finishChunks gk
  let mine (w : Waiter) : Bool :=
    match w with
    | .lane k _ _ => k == gk
    | .weights k _ => k == gk
    | .chunk _ k _ => k == gk
  let s := match s.group gk with
    | some g => s.noteGroup g 0
    | none => s
  let s : State := (s.colls.filter fun p => p.2.parts.any fun x => x.gk == gk).foldl (fun (s : State) p =>
    match s.colls.find p.1 with
    | some c =>
      ({ s with colls := s.colls.put p.1 { c with parts := c.parts.filter fun x => x.gk != gk } }).failColl p.1 0x52
    | none => s) s
  let s := { s with
    feQ := s.feQ.filter fun x => !mine x.who,
    copyQ := s.copyQ.map fun (p : Nat × JobQueue CopyJob) => (p.1, { p.2 with jobs := p.2.jobs.filter fun j => j.gk != gk }),
    selQ := s.selQ.map fun (p : Nat × JobQueue SelJob) => (p.1, { p.2 with jobs := p.2.jobs.filter fun j => j.gk != gk }),
    collQ := s.collQ.map fun (p : Nat × List CollPart) => (p.1, p.2.filter fun x => x.gk != gk),
    msgs := s.msgs.filterMap fun (p : Nat × Message) =>
      if p.2.gk != gk then some p else if p.2.sent then some (p.1, { p.2 with gk := noGroup }) else none }
  s.dropGroup gk

/-- The host ends a launch: status 0x26 when a fault of it was posted, else 0x25. -/
def State.endLaunch (s : State) (l : Launch) : State :=
  let ts := (s.teams.filter fun p => p.2.launch == l.id.toNat).map (·.1)
  let s := ts.foldl (fun s t => ((s.teamGroups t).foldl State.discardGroup s).dropTeam t) s
  let s := if s.currentOf l.queue == some l.id.toNat then s.setCurrent l.queue none else s
  match s.launches.find l.id.toNat with
  | none => s
  | some l =>
    let cnt := l.counting.map fun c => { c with stopTime := s.time, stop := s.latchCounters l.ctx }
    (s.endEntry { l with counting := cnt, ended := true } (if l.faulted then 0x26 else 0x25)).sweepMsgs

/-! ## FAULT_RECORD_POST (R336) -/

/-- The 64 bytes of a record. -/
def recordRow (r : FaultRec) : List Byte :=
  le 1 r.ty ++ le 1 r.code.toNat ++ le 1 r.cause.toNat ++ le 1 r.bits.toNat ++ le 2 r.core ++ le 1 r.slot ++ le 1 r.tag ++
    le 4 r.launch.toNat ++ le 4 r.pos.toNat ++ le 8 r.addr.toNat ++ le 1 r.lane ++ le 1 0 ++ le 2 r.under.toNat ++
    le 4 r.row.toNat ++ le 4 r.col.toNat ++ (natsFrom 0 3).flatMap (fun i => le 2 (r.regions.getD i 0xFFFF).toNat) ++
    le 2 r.imm.toNat ++ le 4 0 ++ le 8 r.time.toNat ++ le 8 r.frame.toNat

/-- Is the context that a record speaks of in its save frame? -/
def State.postable (s : State) (r : FaultRec) : Bool :=
  match s.group r.gk with
  | none => true
  | some g =>
    match g.halt with
    | some h => g.saved || h.time != r.time || h.code != r.code
    | none => true

/-- Room in the fault queue. -/
def Ring.hasRoom (r : Ring) : Bool :=
  r.entries != 0 && (r.tail.toNat + 1) % r.entries.toNat != r.head.toNat % r.entries.toNat

def execFaultRecordPost (s : State) : Outcome :=
  match s.records.find? s.postable with
  | none => .next s
  | some r =>
    let q := s.faultQ
    if !q.hasRoom then .next s
    else
      let s := s.physWrite (q.base.toNat + q.tail.toNat % q.entries.toNat * 64) (recordRow r) (some 5)
      let fault := r.ty == 1 && r.code.toNat != cBRKPT && r.code.toNat != cWATCH
      let s := if fault then s.onLaunch r.launch.toNat fun l => { l with faulted := true } else s
      .next { s with
        faultQ := { q with tail := BitVec.ofNat 32 ((q.tail.toNat + 1) % q.entries.toNat) },
        records := s.records.erase r,
        posted := if r.ty == 3 then s.posted else s.posted ++ [r] }

/-! ## Migration (R302) and the scrubber (R287) -/

/-- The completion record of a migration. -/
def State.migrationDone (s : State) (m : Mig) : State :=
  if m.posted || m.pulled.length != m.size / 128 then s
  else
    let r : FaultRec :=
      { s.record noGroup 3 0 0 0 0 0 0 0 m.id with launch := 0 }
    { (s.addRecord r) with migs := s.migs.put m.id { m with posted := true } }

/-- BACKGROUND_PULL: the lowest line of a migration that is not VALID is pulled; the last one posts the
completion. -/
def execBackgroundPull (id : Nat) (s : State) : Outcome :=
  match s.migs.find id with
  | none => .next s
  | some m =>
    let s := match (natsFrom 0 (m.size / 128)).find? fun i => !m.pulled.contains i with
      | some i => s.pullLine id i
      | none => s
    match s.migs.find id with
    | some m => .next (s.migrationDone m)
    | none => .next s

/-- PATROL_SCRUB: the scrubber reads a line of a stack: corrected errors are counted, uncorrectable ones poison the
line. -/
def execPatrolScrub (stack line : Nat) (found : Scrub) (s : State) : Outcome :=
  let a := stack * 2 ^ 36 + line * 128
  if 12 ≤ stack || 2 ^ 29 ≤ line then .next s
  else
    match found with
    | .clean => .next s
    | .corrected => .next { s with
        errStack := s.errStack.put stack ((s.errStack.find stack).getD 0 + 1),
        latent := { s.latent with blocks1 := s.latent.blocks1.filter fun b => b / 4 != a / 128 } }
    | .uncorrectable => .next { s with poison := if s.poison.contains a then s.poison else a :: s.poison }

end Sys2Proof.Machine
end

