-- ==== Sys2Proof/Machine/Host.lean ====
section
/-! DEFINITION. The host link: the command ring with the commands of R361 and R362 other than those of debug and
measurement, the fault responses of R337 and R338, the registers of BAR0, BAR2, and ownership (R297, R300, R302,
R303, R326, R327, R357 to R364, R368, R369, R372). -/

namespace Sys2Proof.Machine

open Sys2Proof

/-! ## Masters (R363) -/

/-- The ids of R363: the PF, the management port, a fabric peer. -/
def validMaster (m : Nat) : Bool := m == 0 || m == 0x40 || (0x80 ≤ m && m < 0x90)

/-- Ids 1 to 31 stand for the VFs, which never own (log entry 24). -/
def isVf (m : Nat) : Bool := 1 ≤ m && m < 32

def State.isOwner (s : State) (m : Nat) : Bool := validMaster m && s.owner == BitVec.ofNat 32 (0x100 + m)

/-- Does the link serve more than identity and boot status (R366)? -/
def State.serves (s : State) : Bool := s.boot.status != 2

/-! ## The command ring (R361) -/

/-- The entry at the head of the command ring: its address and bytes. The device takes commands once it has
started. -/
def State.commandHead (s : State) : Option (Nat × List Byte) :=
  if s.boot.status != 1 || s.cmdRing.isEmpty then none
  else
    let a := s.cmdRing.at 64
    some (a, s.physBytes a 64)

/-- A command ends: its status is written, then the head moves. -/
def State.endCommand (s : State) (a status : Nat) : State :=
  let s := (s.correctPhys a 64).physWrite (a + 2) (leBytes status 2) none
  { s with cmdRing := s.cmdRing.pop }

/-- Payload bytes outside the listed ones (offset, size) are 0 (R362). -/
def reservedZero (e : List Byte) (listed : List (Nat × Nat)) : Bool :=
  (natsFrom 0 56).all fun i =>
    listed.any (fun r => r.1 ≤ i && i < r.1 + r.2) || e.getD (8 + i) 0 == 0

/-- A payload field of a command ring entry. -/
def pay (e : List Byte) (off n : Nat) : Nat := field e (8 + off) n

/-- A command: `run` gives its status and effect, or nothing while it cannot end yet. -/
def command (op : Nat) (listed : List (Nat × Nat)) (run : State → List Byte → Option (Nat × State)) (s : State) :
    Outcome :=
  match s.commandHead with
  | none => .next s
  | some (a, e) =>
    if field e 0 2 != op then .next s
    else if !reservedZero e listed then .next (s.endCommand a 2)
    else
      match run s e with
      | none => .next s
      | some (st, s') => .next (s'.endCommand a st)

/-- A payload outside its limits. -/
def refused (s : State) : Option (Nat × State) := some (2, s)

/-- Done. -/
def done (s : State) : Option (Nat × State) := some (0, s)

/-- Do n bytes at a physical address lie in HBM, or in host memory? -/
def inHbm (a n : Nat) : Bool := a + n ≤ 0x00C000000000
def inHost (a n : Nat) : Bool := 2 ^ 51 ≤ a && a + n ≤ 2 ^ 52
def isPhysical (a n : Nat) : Bool := inHbm a n || inHost a n

/-! ## Contexts and queues -/

/-- A translation descriptor: none where R297 refuses it. -/
def descOf (b : List Byte) : Option Desc :=
  let root := field b 0 8
  let base := field b 8 8
  let limit := field b 0x10 8
  let off := field b 0x18 8
  let hf := field b 0x20 4
  let fl := field b 0x24 4
  if !inHbm root 2048 || root % 2048 != 0 || base % 65536 != 0 || limit % 65536 != 0 || limit < base ||
      off % 65536 != 0 || 4 ≤ hf || 2 ≤ fl || !zeroBytes b 0x28 0x40 then none
  else
    some { root := root, heapBase := base, heapLimit := limit, heapOffset := off, heapW := bitOf hf 0, heapNc := bitOf hf 1,
           tables := bitOf fl 0 }

/-- Do two ranges of counters meet? -/
def rangesMeet (a n b m : Nat) : Bool := decide (a < b + m) && decide (b < a + n)

/-- CREATE_CONTEXT. -/
def execCreateContext (s : State) : Outcome :=
  command 0x01 [(0, 7), (8, 8)] (fun s e =>
    let id := pay e 0 2
    let first := pay e 2 2
    let n := pay e 4 2
    let fl := pay e 6 1
    let a := pay e 8 8
    if 1024 ≤ id || (s.ctxs.find id).isSome || 4096 ≤ first || 4096 < first + n ||
        s.ctxs.vals.any (fun c => n != 0 && c.evCount != 0 && rangesMeet first n c.evFirst c.evCount) ||
        2 ≤ fl || a % 64 != 0 || !isPhysical a 64 then
      refused s
    else
      match descOf (s.physBytes a 64) with
      | none => refused s
      | some d =>
        let c : Ctx := { desc := d, evFirst := first, evCount := n, signed := bitOf fl 0, breaks := [], counters := [],
                         sampling := none }
        let s := s.correctPhys a 64
        done { s with ctxs := s.ctxs.put id c }) s

/-- The entries from head to tail of a host queue. -/
def State.hostEntries (s : State) (q : HostQ) : List (List Byte) :=
  let r := q.ring
  if r.entries == 0 then []
  else
    (natsFrom 0 ((r.tail.toNat + r.entries.toNat - r.head.toNat) % r.entries.toNat)).map fun i =>
      s.physBytes (r.base.toNat + (r.head.toNat + i) % r.entries.toNat * 256) 256

/-- Has a context a launch that is queued or under way? -/
def State.ctxBusy (s : State) (c : Nat) : Bool :=
  s.launches.vals.any (fun l => l.ctx == c) || s.devQ.vals.any (fun d => d.entries.any fun e => e.1 == c) ||
  s.hostQ.vals.any fun q => (q.bound.map (·.1)) == some c && (s.hostEntries q).any fun e => recKind e == 0

/-- DESTROY_CONTEXT: queues bound to it are no longer bound (log entry 24). -/
def execDestroyContext (s : State) : Outcome :=
  command 0x02 [(0, 2)] (fun s e =>
    let c := pay e 0 2
    if (s.ctxs.find c).isNone || s.ctxBusy c then refused s
    else
      done { s with
        ctxs := s.ctxs.del c,
        hostQ := s.hostQ.map fun (p : Nat × HostQ) =>
          if (p.2.bound.map (·.1)) == some c then (p.1, { p.2 with bound := none }) else p }) s

/-- BIND_HOST_QUEUE. -/
def execBindHostQueue (s : State) : Outcome :=
  command 0x03 [(0, 4)] (fun s e =>
    let q := pay e 0 1
    let fn := pay e 1 1
    let c := pay e 2 2
    if 48 ≤ q || 32 ≤ fn || !(fn == 0 || Config.functionEnabled fn) || (s.ctxs.find c).isNone then refused s
    else done (s.setHostQueue q { s.hostQueue q with bound := some (c, fn) })) s

/-! ## Translation invalidate (R300) -/

/-- Has a group in the machine accesses of global memory that are not performed? -/
def Group.globalPending (g : Group) : Bool :=
  g.ops.any (fun a => !a.isFence && a.lanes.any fun x => !x.done && !isVaultKey x.target) ||
  g.tiles.any fun t =>
    !t.complete &&
      match t.kind with
      | .xfer _ _ _ _ _ _ todo => todo.any fun x => x.elems.any fun y => !isVaultKey y.target
      | _ => false

/-- The groups of a context. -/
def State.ctxGroups (s : State) (c : Nat) : List (Nat × Group) :=
  s.groups.filter fun p => s.ctxOf p.2 == c

/-- The chunks that a context's copy jobs have begun: the cluster and the job. -/
def State.ctxChunks (s : State) (c : Nat) : List (Nat × CopyJob) :=
  s.copyQ.flatMap fun q => (q.2.jobs.filter fun j =>
    j.work.isSome && (match s.group j.gk with
      | some g => s.ctxOf g == c
      | none => false)).map fun j => (q.1, j)

/-- Does a chunk past its wait access global memory? -/
def CopyJob.globalPending (j : CopyJob) : Bool :=
  match j.work with
  | some w => w.stage != .wait && (w.src ++ w.dst).any fun x => !isVaultKey x.target
  | none => false

/-- A chunk that waits for full bits is checked and translated again; one past its wait has no byte in global memory. -/
def State.recheckChunk (s : State) (cluster : Nat) (j : CopyJob) : State :=
  match s.jobParty j.gk j.lane with
  | some p => if j.pastWait then s else s.checkChunk cluster p j
  | none => s

/-- TRANSLATION_INVALIDATE: it ends when every access through the entries of the range is performed (the model
waits for all that the context has outstanding, chunks past their wait among it; a chunk that waits is translated again);
the entries go. Every core writes back and invalidates all its lines:
those of the frames that the entries mapped, entries that have left a TLB among them, and others, which may leave a
cache at any time (R288; log entry 61). -/
def execTranslationInvalidate (s : State) : Outcome :=
  command 0x04 [(0, 2), (8, 16)] (fun s e =>
    let c := pay e 0 2
    let base := pay e 8 8
    let size := pay e 16 8
    if (s.ctxs.find c).isNone || base % 65536 != 0 || size % 65536 != 0 then refused s
    else if ((s.ctxGroups c).any fun p => !p.2.saved && p.2.globalPending) || (s.ctxChunks c).any (·.2.globalPending) then none
    else
      let hit (t : TlbEntry) : Bool := t.ctx == c && (size == 0 || rangesMeet t.va t.size base size)
      let s := { s with tlb := s.tlb.filter fun t => !hit t }
      let s := s.caches.keys.foldl (fun s core => s.invalidate core fun _ => true) s
      done ((s.ctxChunks c).foldl (fun s x => s.recheckChunk x.1 x.2) s)) s

/-! ## Migration records (R302, R303) -/

/-- POST_MIGRATION_RECORD. -/
def execPostMigrationRecord (s : State) : Outcome :=
  command 0x05 [(0, 3), (8, 16)] (fun s e =>
    let id := pay e 0 2
    let big := pay e 2 1
    let size := if big == 0 then 65536 else 2 ^ 21
    let old := pay e 8 8
    let new := pay e 16 8
    if (s.migs.find id).isSome || 2 ≤ big || !inHbm old size || old % size != 0 || !inHbm new size || new % size != 0 ||
        64 ≤ (s.migs.vals.filter fun m => stackOf m.new == stackOf new).length then refused s
    else done { s with migs := s.migs.put id ⟨id, old, new, size, [], false⟩ }) s

/-- RELEASE_MIGRATION_RECORD. -/
def execReleaseMigrationRecord (s : State) : Outcome :=
  command 0x06 [(0, 2), (8, 8)] (fun s e =>
    match s.migs.find (pay e 0 2) with
    | none => refused s
    | some m => if m.new == pay e 8 8 then done { s with migs := s.migs.del m.id } else refused s) s

/-! ## Pre-emption, the end of a launch, responses -/

/-- PRE_EMPT: the teams of a launch with a linear index in the range. -/
def execPreEmpt (s : State) : Outcome :=
  command 0x07 [(0, 12)] (fun s e =>
    let l := pay e 0 4
    let first := pay e 4 4
    let last := pay e 8 4
    if last < first then refused s
    else
      let ts := (s.teams.filter fun p => p.2.launch == l && decide (first ≤ p.2.t) && decide (p.2.t ≤ last)).map (·.1)
      done (ts.foldl State.latch s)) s

/-- A launch ends by the host's word; its records need no answer any more. -/
def State.hostEnds (s : State) (l : Nat) : State :=
  match s.launches.find l with
  | none => s
  | some x => { (s.endLaunch x) with posted := s.posted.filter fun r => r.launch != x.id }

/-- END_LAUNCH. -/
def execEndLaunch (s : State) : Outcome :=
  command 0x08 [(0, 4)] (fun s e => done (s.hostEnds (pay e 0 4))) s

/-- May a record be answered by a resume, or by unresolvable? -/
def FaultRec.resumable (r : FaultRec) : Bool := r.ty == 2 || r.code.toNat == cBRKPT || r.code.toNat == cWATCH

/-- An engine job goes on at its chunk. -/
def State.resumeJob (s : State) (gk id : Nat) : State :=
  let copy (j : CopyJob) : CopyJob := if j.gk == gk && j.id == id then { j with paused := none } else j
  let sel (j : SelJob) : SelJob := if j.gk == gk && j.id == id then { j with paused := none } else j
  let part (x : CollPart) : CollPart := if x.gk == gk && x.id == id then { x with paused := none } else x
  { s with
    copyQ := s.copyQ.map fun (p : Nat × JobQueue CopyJob) => (p.1, { p.2 with jobs := p.2.jobs.map copy }),
    selQ := s.selQ.map fun (p : Nat × JobQueue SelJob) => (p.1, { p.2 with jobs := p.2.jobs.map sel }),
    collQ := s.collQ.map fun (p : Nat × List CollPart) => (p.1, p.2.map part),
    colls := s.colls.map fun (p : Nat × Coll) => (p.1, { p.2 with parts := p.2.parts.map part }) }

/-- A paused engine job ends with its sub-code and the condition `PAGE` (R338); the other participants of its collective,
whether they have started or not, take 0x52 (R383). -/
def State.unresolvableJob (s : State) (gk id : Nat) : State :=
  let core := match s.group gk with
    | some g => (s.seat g).1
    | none => 0
  let cl := clusterOf core
  match (s.copyQueue cl).jobs.find? fun j => j.gk == gk && j.id == id with
  | some j =>
    match j.paused with
    | some (sub, a) => s.failCopy cl j sub a.toNat cPAGE
    | none => s
  | none =>
    match (s.selQueue cl).jobs.find? fun j => j.gk == gk && j.id == id with
    | some j =>
      match j.paused with
      | some (sub, a) => s.failSel cl j sub cPAGE a.toNat
      | none => s
    | none =>
      let die := s.dieOfGroup gk
      match (s.collQueue die).find? fun x => x.gk == gk && x.id == id with
      | some x =>
        match x.paused with
        | some (sub, a) => s.joinColl x (some (sub, a.toNat, cPAGE))
        | none => s
      | none =>
        match s.colls.findSome? fun p => (p.2.parts.find? fun x => x.gk == gk && x.id == id).map fun x => (p.1, x) with
        | some (i, x) =>
          match x.paused with
          | some (sub, a) => s.failPart i x sub a.toNat cPAGE
          | none => s
        | none => s

/-- Stops that wait for the end of a run or a job are called off by the resume of their record (R347). -/
def State.cancelStops (s : State) (r : FaultRec) : State :=
  let mine (x : Option FaultRec) : Option FaultRec :=
    match x with
    | some y => if y.time == r.time && y.gk == r.gk then none else some y
    | none => none
  let s := s.onGroup r.gk fun g => { g with stopNext := mine g.stopNext }
  { s with
    copyQ := s.copyQ.map fun (p : Nat × JobQueue CopyJob) =>
      (p.1, { p.2 with jobs := p.2.jobs.map fun j => { j with stop := mine j.stop } }),
    selQ := s.selQ.map fun (p : Nat × JobQueue SelJob) =>
      (p.1, { p.2 with jobs := p.2.jobs.map fun j => { j with stop := mine j.stop } }) }

/-- Is a group stopped by what a record reports? -/
def Group.haltedBy (g : Group) (r : FaultRec) : Bool :=
  match g.halt with
  | some h => h.time == r.time && h.code == r.code && h.why != .preempt
  | none => false

/-- Resume after one record; `step` asks for one word (R345). -/
def State.resumeRec (s : State) (step : Bool) (r : FaultRec) : State :=
  match r.job with
  | some id => s.resumeJob r.gk id
  | none =>
    let s := s.cancelStops r
    match s.group r.gk with
    | none => s
    | some g =>
      if !g.haltedBy r then s
      else
        let breaks := match s.launches.find r.launch.toNat with
          | some l => l.breaks
          | none => false
        s.release r.gk (step && breaks)

/-- Unresolvable after one record of type 2. -/
def State.unresolvable (s : State) (r : FaultRec) : State :=
  match r.job with
  | some id => s.unresolvableJob r.gk id
  | none =>
    match s.group r.gk with
    | none => s
    | some g =>
      if g.haltedBy r then (s.takeFault r.gk r.tag { (wfault cPAGE r.lane) with addr := r.addr }).noteStop r.gk else s

/-- The answer to the records of a launch at a time (R337). A response that a record does not allow is ignored. -/
def State.respond (s : State) (launch : Word) (time : Dword) (resp : Nat) : State :=
  let rs := s.posted.filter fun r => r.launch == launch && r.time == time
  if resp == 3 then (if rs.isEmpty then s else s.hostEnds launch.toNat)
  else
    let rs := rs.filter fun r => if resp == 2 then r.ty == 2 else r.resumable
    let s := { s with posted := s.posted.filter fun r => !rs.contains r }
    if resp == 2 then rs.foldl State.unresolvable s else rs.foldl (State.resumeRec · (resp == 1)) s

/-- FAULT_RESPONSE. -/
def execFaultResponse (s : State) : Outcome :=
  command 0x09 [(0, 5), (8, 8)] (fun s e =>
    if 4 ≤ pay e 4 1 then refused s
    else done (s.respond (BitVec.ofNat 32 (pay e 0 4)) (BitVec.ofNat 64 (pay e 8 8)) (pay e 4 1))) s

/-! ## Path table, vectors -/

/-- An entry of the path table: none where R372 refuses it. -/
def pathEntryOf (b : List Byte) : Option PathEntry :=
  let x := field b 0 4
  let base := field b 8 4
  let limit := field b 12 4
  if 2 ^ 11 ≤ x || field b 4 4 != 0 || limit < base || 12582912 < limit then none
  else
    some { port := bitsOf x 3 0, valid := bitOf x 4, int32 := bitOf x 5, int64 := bitOf x 6, f32add := bitOf x 7,
           inRead := bitOf x 8, inWrite := bitOf x 9, inMsg := bitOf x 10, base := base, limit := limit }

/-- LOAD_ATOMIC_PATH_TABLE. -/
def execLoadAtomicPathTable (s : State) : Outcome :=
  command 0x10 [(0, 4), (8, 8)] (fun s e =>
    let n := pay e 0 4
    let a := pay e 8 8
    if a % 16 != 0 || n < 16 || 16 + 16 * 1023 < n || !isPhysical a n then refused s
    else
      let b := s.physBytes a n
      let s := s.correctPhys a n
      let cnt := field b 4 4
      if 1023 ≤ field b 0 2 || field b 2 2 != 0 || 1023 < cnt || n != 16 + 16 * cnt || field b 8 8 != 0 then refused s
      else
        match (natsFrom 0 cnt).mapM fun i => pathEntryOf ((b.drop (16 + 16 * i)).take 16) with
        | none => refused s
        | some es => done { s with pathTable := some ⟨field b 0 2, es⟩ }) s

/-- ASSIGN_MSI_X_VECTORS. -/
def execAssignMsiXVectors (s : State) : Outcome :=
  command 0x11 [(0, 1), (2, 4)] (fun s e =>
    let fn := pay e 0 1
    let first := pay e 2 2
    let n := pay e 4 2
    if 32 ≤ fn || 2048 ≤ first || 2048 < first + n then refused s
    else done { s with vectors := s.vectors.put fn (first, n) }) s

/-! ## Attestation and firmware (R368, R369) -/

/-- A list of exactly n bytes. -/
def fixLen (n : Nat) (bs : List Byte) : List Byte := (natsFrom 0 n).map fun i => bs.getD i 0

/-- The image in a firmware slot. -/
def State.slotImage (s : State) (slot : Nat) : List Byte := (s.flash.find slot).getD (Config.firmwareImage slot)

/-- The report of R369 for a nonce. -/
def State.attestation (s : State) (nonce : List Byte) : List Byte :=
  let body := fixLen 64 nonce ++ fixLen 64 (Config.sha512 (s.slotImage s.boot.slot)) ++
    fixLen 64 (Config.sha512 s.image.bytes) ++ leBytes Config.serial.toNat 8
  body ++ fixLen 132 (Config.attestSign body)

/-- ATTEST. -/
def execAttest (s : State) : Outcome :=
  command 0x12 [(0, 16)] (fun s e =>
    let a := pay e 0 8
    let b := pay e 8 8
    if !isPhysical a 64 || !isPhysical b 332 then refused s
    else done ((s.correctPhys a 64).physWrite b (s.attestation (s.physBytes a 64)) none)) s

/-- WRITE_FIRMWARE_SLOT: an image whose signature does not verify is not written. Which image is the newest the spec does
not say, so the event says whether this one is; of two images the one that is not the newest leaves that to the other
(R368; log entry 8). -/
def execWriteFirmwareSlot (newer : Bool) (s : State) : Outcome :=
  command 0x13 [(0, 1), (4, 12)] (fun s e =>
    let slot := pay e 0 1
    let n := pay e 4 4
    let a := pay e 8 8
    let bs := s.physBytes a n
    let s := s.correctPhys a n
    if 2 ≤ slot || slot == s.boot.slot || !isPhysical a n || !Config.imageVerifies bs then refused s
    else
      done { s with flash := s.flash.put slot bs,
                    boot := { s.boot with
                      newest := if newer then slot else if s.boot.newest == slot then 1 - slot else s.boot.newest } }) s

/-- A command with an opcode that R361 does not list: status 1. -/
def State.unknownCommand (s : State) : State :=
  match s.commandHead with
  | none => s
  | some (a, e) => if 1 ≤ field e 0 2 && field e 0 2 ≤ 0x13 then s else s.endCommand a 1

/-! ## Mailboxes (R369) -/

def Mailbox.blank : Mailbox := ⟨List.replicate 64 0, 0, 0, List.replicate 332 0⟩

def State.mailbox (s : State) (m : Nat) : Mailbox := (s.mailboxes.find m).getD Mailbox.blank

def State.setMailbox (s : State) (m : Nat) (x : Mailbox) : State := { s with mailboxes := s.mailboxes.put m x }

/-- Has a master a mailbox of its own? -/
def hasMailbox (m : Nat) : Bool := validMaster m || isVf m

/-- A write of 1 to control. -/
def State.requestReport (s : State) (m : Nat) : State :=
  s.setMailbox m { s.mailbox m with control := 1, status := 1 }

/-- ATTEST_MAILBOX_REQUEST. -/
def execAttestMailboxRequest (master : BitVec 8) (s : State) : Outcome :=
  if hasMailbox master.toNat && s.serves then .next (s.requestReport master.toNat) else .next s

/-- ATTEST_REPORT_DONE. -/
def execAttestReportDone (master : BitVec 8) (s : State) : Outcome :=
  let x := s.mailbox master.toNat
  if x.status == 1 then
    .next (s.setMailbox master.toNat { x with status := 2, report := s.attestation x.nonce })
  else .next s

/-! ## Ownership (R363, R364) -/

/-- A claim: takes effect when the device is free. Of the claims of one hub cycle the lowest id goes first (R364): it
takes the place of a claim of a higher id that reached the hub in this cycle. -/
def State.claim (s : State) (m : Nat) (v : Word) : State :=
  let first := s.claimed && decide (v.toNat < s.owner.toNat)
  if s.serves && validMaster m && v == BitVec.ofNat 32 (0x100 + m) && (!s.owner.getLsbD 8 || first) then
    { s with owner := v, claimed := true }
  else s

/-- A handover by the owner. -/
def State.handover (s : State) (m : Nat) (v : Word) : State :=
  if s.serves && s.isOwner m && v.toNat / 256 == 2 then { s with owner := 0x100 ||| (v &&& 0xFF), claimed := false } else s

/-- A release by the owner. -/
def State.disown (s : State) (m : Nat) : State := if s.serves && s.isOwner m then { s with owner := 0, claimed := false } else s

/-- OWNER_CLAIM. -/
def execOwnerClaim (master : BitVec 8) (value : Word) (s : State) : Outcome := .next (s.claim master.toNat value)

/-- OWNER_HANDOVER. -/
def execOwnerHandover (master : BitVec 8) (value : Word) (s : State) : Outcome := .next (s.handover master.toNat value)

/-- OWNER_RELEASE. -/
def execOwnerRelease (master : BitVec 8) (s : State) : Outcome := .next (s.disown master.toNat)

/-! ## BAR0 (R359) -/

/-- Bytes of a field of `n` bytes at `o` after a write of `bs` at `off`. -/
def overlay (o n v off : Nat) (bs : List Byte) : Nat :=
  ofLeBytes ((natsFrom 0 n).map fun i =>
    if off ≤ o + i && o + i < off + bs.length then bs.getD (o + i - off) 0 else BitVec.ofNat 8 (v / 256 ^ i))

/-- Does a write at `off` of n bytes reach a field? -/
def touches (o n off k : Nat) : Bool := rangesMeet o n off k

/-- Is x a power of two? -/
def isPow2 (x : Nat) : Bool := x != 0 && 2 ^ Nat.log2 x == x

/-- A write to a ring's registers at offset `off`: base, entries, then the host's index; a number of entries that is not
allowed is not stored (log entry 24). -/
def Ring.write (r : Ring) (allowed : Nat → Bool) (headWritten : Bool) (off : Nat) (bs : List Byte) : Ring :=
  let e := overlay 8 4 r.entries.toNat off bs
  let idx := overlay 12 4 (if headWritten then r.head else r.tail).toNat off bs
  { base := BitVec.ofNat 64 (overlay 0 8 r.base.toNat off bs),
    entries := if allowed e then BitVec.ofNat 32 e else r.entries,
    head := if headWritten then BitVec.ofNat 32 idx else r.head,
    tail := if headWritten then r.tail else BitVec.ofNat 32 idx }

/-- Does a function own event counter i: a context that owns it has a queue of that function (log entry 19)? -/
def State.ownsEvent (s : State) (fn i : Nat) : Bool :=
  s.ctxs.any fun p => p.2.owns i && s.hostQ.vals.any fun q => q.bound == some (p.1, fn)

/-- A write to a mailbox at offset `o` in it. -/
def State.writeMailbox (s : State) (m off : Nat) (bs : List Byte) : State :=
  let x := s.mailbox m
  let nonce := (natsFrom 0 64).map fun i =>
    if off ≤ i && i < off + bs.length then bs.getD (i - off) 0 else x.nonce.getD i 0
  let c := overlay 0x40 4 x.control.toNat off bs
  let s := s.setMailbox m { x with nonce := nonce, control := BitVec.ofNat 32 c }
  if touches 0x40 4 off bs.length && c == 1 then s.requestReport m else s

/-- A write of BAR0 registers that have no behaviour of their own. -/
def State.writeRegister (s : State) (m off : Nat) (bs : List Byte) : State :=
  let n := bs.length
  if 0x4000 ≤ off && off + n ≤ 0x4020 then
    if s.isOwner m then { s with faultQ := s.faultQ.write (fun e => isPow2 e && 64 ≤ e && e ≤ 2 ^ 20) true (off - 0x4000) bs } else s
  else if 0x5000 ≤ off && off + n ≤ 0x5020 then
    if s.isOwner m then { s with cmdRing := s.cmdRing.write isPow2 false (off - 0x5000) bs } else s
  else if 0x6000 ≤ off && off + n ≤ 0x6200 then
    if hasMailbox m then s.writeMailbox m (off - 0x6000) bs else s
  else if 0x10000 ≤ off && off < 0x40000 then
    let q := (off - 0x10000) / 0x1000
    let o := (off - 0x10000) % 0x1000
    let x := s.hostQueue q
    if m < 32 && (x.bound.map (·.2)) == some m && o + n ≤ 32 then
      s.setHostQueue q { x with ring := x.ring.write (fun _ => true) false o bs }
    else s
  else if 0x100000 ≤ off && off + n ≤ 0x108000 then
    let i := (off - 0x100000) / 8
    let o := (off - 0x100000) % 8
    if m < 32 && s.ownsEvent m i && o + n ≤ 8 then
      let v := overlay 0 8 ((s.events.find i).getD 0).toNat o bs
      s.setEvent i (BitVec.ofNat 64 v)
    else s
  else s

/-- REGISTER_WRITE. -/
def execRegisterWrite (master : BitVec 8) (offset size : Nat) (value : Dword) (s : State) : Outcome :=
  if s.serves && 1 ≤ size && size ≤ 8 then .next (s.writeRegister master.toNat offset (leBytes value.toNat size))
  else .next s

/-- The 32 bytes of a ring's registers; `headFirst` is the order of the fault queue. -/
def Ring.image (r : Ring) (headFirst : Bool) : List Byte :=
  leBytes r.base.toNat 8 ++ leBytes r.entries.toNat 4 ++
    (if headFirst then leBytes r.head.toNat 4 ++ leBytes r.tail.toNat 4
     else leBytes r.tail.toNat 4 ++ leBytes r.head.toNat 4) ++ leBytes 0 12

/-- What a master reads at a BAR0 offset (R359). -/
def State.readRegister (s : State) (m off : Nat) : Byte :=
  let at0 (o : Nat) (bs : List Byte) : Byte := bs.getD (off - o) 0
  let vf := isVf m
  if s.serves && 0x6000 ≤ off && off < 0x6200 && hasMailbox m then
    let x := s.mailbox m
    at0 0x6000 (fixLen 64 x.nonce ++ leBytes x.control.toNat 4 ++ leBytes x.status.toNat 4 ++ List.replicate 56 0 ++
      fixLen 332 x.report)
  else if s.serves && 0x10000 ≤ off && off < 0x40000 && (off - 0x10000) % 0x1000 < 32 then
    let q := (off - 0x10000) / 0x1000
    let x := s.hostQueue q
    if vf && (x.bound.map (·.2)) != some m then 0 else at0 (0x10000 + 0x1000 * q) (x.ring.image false)
  else if s.serves && 0x100000 ≤ off && off < 0x108000 then
    let i := (off - 0x100000) / 8
    if vf && !s.ownsEvent m i then 0 else at0 (0x100000 + 8 * i) (leBytes ((s.events.find i).getD 0).toNat 8)
  else if vf then 0
  else if off < 8 then
    at0 0 (leBytes (0x4180 + Config.revision.toNat * 2 ^ 16 + s.boot.slot * 2 ^ 24) 8)
  else if off < 16 then (if s.serves then at0 8 (leBytes Config.serial.toNat 8) else 0)
  else if off < 0x14 then at0 0x10 (leBytes (s.boot.status + s.boot.failedStep.toNat * 256) 4)
  else if !s.serves then 0
  else if 0x1000 ≤ off && off < 0x1004 then at0 0x1000 (leBytes s.owner.toNat 4)
  else if 0x3000 ≤ off && off < 0x3008 then at0 0x3000 (leBytes s.time.toNat 8)
  else if 0x4000 ≤ off && off < 0x4020 then at0 0x4000 (s.faultQ.image true)
  else if 0x5000 ≤ off && off < 0x5020 then at0 0x5000 (s.cmdRing.image false)
  else 0

/-! ## BAR2 (R358) -/

/-- BAR2_WRITE: the PF's writes, when it owns the device, reach their home at system scope. Bytes at or beyond
768 GiB are dropped. -/
def execBar2Write (master : BitVec 8) (offset : Nat) (bytes : List Byte) (s : State) : Outcome :=
  let bs := bytes.take (0x00C000000000 - offset)
  if master == 0 && s.isOwner 0 && s.serves && !bs.isEmpty then .next (s.physWrite offset bs (some 5)) else .next s

/-- The bytes of a host read, each from its home; what an uncorrectable error hides, or a selection job owns (R279), is a
free value. -/
def State.hostBytes (s : State) (a : Nat) : Nat → State × List Byte
  | 0 => (s, [])
  | n + 1 =>
    if 0x00C000000000 ≤ a then
      let r := State.hostBytes s (a + 1) n
      (r.1, 0 :: r.2)
    else
      let h := s.home a
      let b := if h.1.poisoned h.2 1 || h.1.ownedByte noGroup 0 h.2 then
          (freeVal s.free 14 (a % 64) (a / 64 % 512)).setWidth 8
        else Memory.byte h.1.mem h.2
      let r := State.hostBytes (h.1.correctHome h.2 1) (a + 1) n
      (r.1, b :: r.2)

/-- BAR2_READ: a VF reads zeros; only the functions have a BAR2. -/
def execBar2Read (master : BitVec 8) (offset count : Nat) (s : State) : Outcome :=
  if !s.serves then .next s
  else if master == 0 then
    let r := s.hostBytes offset count
    .next { r.1 with hostRead := r.2, free := r.1.free + 1 }
  else if isVf master.toNat then .next { s with hostRead := List.replicate count 0 }
  else .next s

end Sys2Proof.Machine
end

