-- ==== Sys2Proof/Machine/Boot.lean ====
section
/-! DEFINITION. Starting the package, resets, power and temperature (R331, R365 to R367, R370). -/

namespace Sys2Proof.Machine

open Sys2Proof

/-- Host memory is not the package's: a reset leaves it. -/
def hostCells (m : List Host.Cell) : List Host.Cell := m.filter fun c => decide (2 ^ 51 ≤ c.1) && decide (c.1 < 2 ^ 52)

def hbmCells (m : List Host.Cell) : List Host.Cell := m.filter fun c => decide (c.1 < 0x00C000000000)

/-- The machine after a reset or a loss of power: every launch ends without a record, BAR0 is at its reset values. The
flash keeps its slots, what has left the package stays outside, and the model's own counters run on. `poison` and
`soft` are the errors that lines and blocks of HBM keep. -/
def State.restart (s : State) (cells : List Host.Cell) (poison soft : List Nat) (step : BitVec 8) (warm : Bool) : State :=
  { State.reset with
    boot := ⟨0, step, s.boot.slot, warm, s.boot.newest⟩, flash := s.flash, image := s.image, mem := cells, poison := poison,
    latent := { State.reset.latent with blocks1 := soft },
    portsDown := s.portsDown, msix := s.msix, hostRead := s.hostRead, agenda := s.agenda, seq := s.seq, free := s.free }

/-- A cold reset: HBM is trained again and holds nothing (log entry 25). -/
def State.coldReset (s : State) (step : BitVec 8) : State := s.restart (hostCells s.mem) [] [] step false

/-- A warm reset, with power held: HBM keeps its bytes and their errors. -/
def State.warmReset (s : State) : State :=
  s.restart (hbmCells s.mem ++ hostCells s.mem) s.poison s.latent.blocks1 0 true

/-- COLD_RESET: the owner writes reset control. -/
def execColdReset (master : BitVec 8) (s : State) : Outcome :=
  if s.isOwner master.toNat && s.serves then .next (s.coldReset 0) else .next s

/-- WARM_RESET. -/
def execWarmReset (master : BitVec 8) (s : State) : Outcome :=
  if s.isOwner master.toNat && s.serves then .next s.warmReset else .next s

/-- The limits of R331 on the pools of the configuration image. -/
def imageOk (x : Image) : Bool :=
  x.saveBase % 2 ^ 30 == 0 && x.saveSize % 2 ^ 30 == 0 && 2 ^ 30 ≤ x.saveSize && x.saveSize ≤ 64 * 2 ^ 30 &&
    inHbm x.saveBase x.saveSize && !rangesMeet x.saveBase x.saveSize x.poolBase x.poolSize

/-- Does a start run a step past the images (R365)? `warm` says that the start is warm, `retained` that the retained
state matches. -/
def runsStep (warm retained : Bool) (f : BitVec 8) : Bool :=
  f == 4 || f == 7 || f == 8 || (f == 3 && warm) || ((f == 5 || f == 6) && !(warm && retained))

/-- The step at which a start of the firmware image `fw` fails (R365): step 1 where it does not verify, step 2 where the
configuration image does not, or breaks R331, and else the step that the event names, if the start runs it. -/
def failAt (fw : List Byte) (x : Image) (warm retained : Bool) (f : Option (BitVec 8)) : Option (BitVec 8) :=
  if !Config.imageVerifies fw then some 1
  else if !Config.imageVerifies x.bytes || !imageOk x then some 2
  else f.filter (runsStep warm retained)

/-- Steps 7 and 8 of R365: the pools are cleared, every context and queue is emptied, the status reads ready. -/
def State.ready8 (s : State) (x : Image) (slot : Nat) (warm : Bool) : State :=
  let mem := Memory.clear (Memory.clear s.mem x.saveBase x.saveSize) x.poolBase x.poolSize
  let kept (a : Nat) : Bool :=
    !(decide (x.saveBase ≤ a) && decide (a < x.saveBase + x.saveSize)) &&
      !(decide (x.poolBase ≤ a) && decide (a < x.poolBase + x.poolSize))
  { s with mem := mem, poison := s.poison.filter kept,
           latent := { s.latent with blocks1 := s.latent.blocks1.filter fun b => kept (b * 32) },
           ctxs := [], modules := [], launches := [], teams := [], groups := [], runs := [], hostQ := [], devQ := [],
           image := x, boot := { s.boot with status := 1, slot := slot, warm := warm } }

/-- PACKAGE_START: the slot with the newest image starts; at a failure, one of verification among them (R368), the other
slot starts, cold (R366). A warm start whose retained state does not match goes on cold from step 4. -/
def execPackageStart (boot : BootRun) (s : State) : Outcome :=
  if s.boot.status != 0 then .next s
  else
    let slot := s.boot.newest
    match failAt (s.slotImage slot) boot.image s.boot.warm boot.retained boot.fail with
    | none => .next (s.ready8 boot.image slot (s.boot.warm && boot.retained))
    | some f =>
      let s := { s with boot := { s.boot with failedStep := f, warm := false } }
      match failAt (s.slotImage (1 - slot)) boot.image false false boot.failOther with
      | none => .next (s.ready8 boot.image (1 - slot) false)
      | some g => .next { s with boot := { s.boot with status := 2, failedStep := g } }

/-- POWER_LOSS: all state is erased. -/
def execPowerLoss (s : State) : Outcome :=
  .next { (s.restart (hostCells s.mem) [] [] 0 false) with image := State.reset.image, portsDown := [] }

/-- WATCHDOG_EXPIRY. -/
def execWatchdogExpiry (s : State) : Outcome := .next (s.coldReset 0xFF)

/-- COLD_PLATE_OVER_LIMIT: the core clock goes down, to a value that the spec does not state, not below 600 MHz; there
it is a cold reset. -/
def execColdPlateOverLimit (s : State) : Outcome :=
  if s.clockMHz ≤ 600 then .next (s.coldReset 0xFE)
  else
    let mhz := 600 + (freeVal s.free 15 0 0).toNat % (s.clockMHz - 600)
    .next { s with clockMHz := mhz, free := s.free + 1 }

end Sys2Proof.Machine
end

