-- ==== Sys2Proof/Machine/Measure.lean ====
section
/-! DEFINITION. The commands of debug and measurement, the time series, program-counter sampling and the error logs
(R236, R341, R342, R346, R352 to R356, R362). -/

namespace Sys2Proof.Machine

open Sys2Proof

/-! ## Stops and watchpoints -/

/-- CODE_BREAKPOINT. -/
def execCodeBreakpoint (s : State) : Outcome :=
  command 0x0A [(0, 8)] (fun s e =>
    let c := pay e 0 2
    let i := pay e 2 1
    let b : CodeBreak := ⟨BitVec.ofNat 16 (pay e 4 2), BitVec.ofNat 16 (pay e 6 2), bitOf (pay e 3 1) 0⟩
    if (s.ctxs.find c).isNone || 8 ≤ i || 2 ≤ pay e 3 1 then refused s
    else done { s with ctxs := s.ctxs.update c fun c => { c with breaks := c.breaks.put i b } }) s

/-- REGION_STOP. -/
def execRegionStop (s : State) : Outcome :=
  command 0x0B [(0, 7)] (fun s e =>
    let x : Word × BitVec 16 := (BitVec.ofNat 32 (pay e 0 4), BitVec.ofNat 16 (pay e 4 2))
    let rest := s.regionStops.filter (· != x)
    if 2 ≤ pay e 6 1 then refused s
    else done { s with regionStops := if pay e 6 1 == 1 then rest ++ [x] else rest }) s

/-- The granule that a watchpoint's address names on a die: in a vault or not, and its key by 16 bytes. -/
def watchGranule (die a : Nat) : Option (Bool × Nat) :=
  if a % 16 != 0 then none
  else if bitsOf a 63 56 == 0 then
    if bitsOf a 55 52 == 0 && inHbm a 16 && dieOfStack (stackOf a) == die then some (false, a / 16) else none
  else
    let v := bitsOf a 45 41
    if bitsOf a 63 56 == 0xA4 && bitsOf a 55 48 == 0 && bitsOf a 47 46 == die && v < 24 && bitsOf a 40 24 == 0 then
      some (true, vaultKey (die * 24 + v) (bitsOf a 23 0) / 16)
    else none

/-- WATCHPOINT: every core has the new copy when it ends. -/
def execWatchpoint (s : State) : Outcome :=
  command 0x0C [(0, 2), (8, 16)] (fun s e =>
    let die := pay e 0 1
    let i := pay e 1 1
    let kinds := pay e 18 1
    let ctl := pay e 19 1
    let c := pay e 20 4
    if 4 ≤ die || 8 ≤ i || 16 ≤ kinds || 4 ≤ ctl || (s.ctxs.find c).isNone then refused s
    else
      match watchGranule die (pay e 8 8) with
      | none => refused s
      | some (v, g) =>
        let w : Watch := ⟨v, g, BitVec.ofNat 16 (pay e 16 2), BitVec.ofNat 8 kinds, bitOf ctl 0, bitOf ctl 1, c⟩
        done { s with watch := s.watch.put (8 * die + i) w }) s

/-! ## The time series (R352, R353) -/

/-- The tick of sample n. -/
def Series.due (x : Series) (n : Nat) : Nat := x.t0.toNat + n * 2 ^ x.k * 5 / 6

/-- The first sample whose tick is not before a time, in a series of period exponent k from t0. -/
def firstSample (k t0 now : Nat) : Nat := (6 * (now - t0) + 5 * 2 ^ k - 1) / (5 * 2 ^ k)

/-- Every die latches its next sample, with the counts since the previous latch; a record not yet written is dropped. -/
def Series.latch (x : Series) (counts : KMap Nat) : Series :=
  { x with n := x.n + 1, held := some (x.n, counts),
           dropped := if x.held.isSome then x.dropped.map (· + 1) else x.dropped }

/-- TIME_SERIES: start or stop. A series begins with the first sample whose tick has not passed (log entry 15). -/
def execTimeSeries (s : State) : Outcome :=
  command 0x0D [(0, 2), (4, 20)] (fun s e =>
    let k := pay e 1 1
    let q := pay e 4 4
    let b := pay e 16 8
    if 2 ≤ pay e 0 1 || k < 10 || 24 < k || q == 0 || 2 ^ 20 < q || b % 2048 != 0 || !isPhysical b (q * 4 * 2048) then
      refused s
    else if pay e 0 1 == 0 then done { s with series := { s.series with running := false, held := none } }
    else
      let n := firstSample k (pay e 8 8) s.time.toNat
      done { s with
        busy := [], series := ⟨true, k, q, BitVec.ofNat 64 (pay e 8 8), BitVec.ofNat 64 b, n, List.replicate 4 0, none⟩ }) s

/-- A count of a record, at most 2^24. Those of a die's cores come first: issue slots, stalls and array are counted; when
an engine, a vault, a stack or the MMU is busy the spec does not say, so the others are free values (log entry 15). -/
def seriesCount (busy : KMap Nat) (free k die i : Nat) : List Byte :=
  let n :=
    if i < 384 then (busy.find (die * 384 + i)).getD 0
    else (freeVal free (8 + die) (i / 512) (i % 512)).toNat % (2 ^ k + 1)
  leBytes (min n (2 ^ 24)) 4

/-- The record of sample n of a die. -/
def seriesRecord (x : Series) (n : Nat) (busy : KMap Nat) (free die : Nat) (dropped : Word) : List Byte :=
  leBytes n 8 ++ leBytes (x.due n) 8 ++ leBytes die 1 ++ leBytes x.k 1 ++ leBytes 0 2 ++ leBytes dropped.toNat 4 ++
    leBytes 0 40 ++ (natsFrom 0 461).flatMap (fun i => seriesCount busy free x.k die i) ++ leBytes 0 140

/-- SERIES_SAMPLE: every die writes the record that it holds. -/
def execSeriesSample (s : State) : Outcome :=
  let x := s.series
  match x.held with
  | none => .next s
  | some (n, counts) =>
    let s := (natsFrom 0 4).foldl (fun (s : State) d =>
      s.physWrite (x.base.toNat + (d * x.q + n % x.q) * 2048) (seriesRecord x n counts s.free d (x.dropped.getD d 0)) none) s
    .next { s with series := { x with held := none, dropped := List.replicate 4 0 }, free := s.free + 1 }

/-! ## Program-counter sampling (R354, R355) -/

/-- SAMPLING. -/
def execSampling (s : State) : Outcome :=
  command 0x0E [(0, 16)] (fun s e =>
    let c := pay e 0 2
    let j := pay e 3 1
    let q := pay e 4 4
    let b := pay e 8 8
    if (s.ctxs.find c).isNone || 2 ≤ pay e 2 1 || j < 8 || 20 < j || q == 0 || 2 ^ 20 < q || b % 64 != 0 || 2 ^ 56 ≤ b then
      refused s
    else
      let x : Option Sampling := if pay e 2 1 == 1 then some ⟨j, q, BitVec.ofNat 64 b, 0⟩ else none
      done { s with ctxs := s.ctxs.update c fun c => { c with sampling := x } }) s

/-- The next occupied slot of a core whose group's context is sampled. -/
def State.sampleGroup (s : State) (core : Nat) : Option (Nat × Group) :=
  let gs := (s.coreGroups core).filterMap fun k =>
    match s.group k with
    | some g => if (((s.ctxs.find (s.ctxOf g)).bind (·.sampling))).isSome then some (k, g) else none
    | none => none
  let gs := sortBy (fun a b => decide (a.2.slot ≤ b.2.slot)) gs
  match gs.find? fun p => (s.sampled.find core).getD 0 ≤ p.2.slot with
  | some p => some p
  | none => gs.head?

/-- The gang that a sample is about: the one that holds a run, or whose turn comes next (R67). -/
def State.sampleTag (s : State) (gk : Nat) (g : Group) : Nat :=
  match s.runs.find? fun r => r.2.gk == gk with
  | some r => r.2.tag
  | none =>
    let rs := s.readyGangs g
    nextTag g.lastTag (if rs.isEmpty then g.tags else rs)

def blockCause : Block → Nat
  | .wait _ _ _ _ => 1
  | .bwait _ => 2
  | .frame => 3
  | .crew _ => 5

/-- State and cause of a sampled gang. A group swapped out waits for its frames; one that is stopped and not yet saved is
blocked for no cause of the table (log entry 15). -/
def State.sampleState (s : State) (gk : Nat) (g : Group) (tag : Nat) : Nat × Nat :=
  if s.holdsRun gk then (if s.runs.any (fun r => r.2.gk == gk && r.2.stalled) then 3 else 0, 0)
  else if g.halt.isSome then (2, 0)
  else if g.swapped then (2, 3)
  else if (g.gang tag).any fun i => (g.slice i).status == .await then (2, 4)
  else
    match g.blocked.find tag with
    | some b => if s.blockHolds g tag b then (2, blockCause b) else (1, 0)
    | none => (1, 0)

/-- Is the fetch of a gang's word awaited? Not of a word that stalls or at which the gang blocked; of the first word of a
state just entered, yes. Of another it is a free value (log entry 15). -/
def State.awaitsFetch (s : State) (gk : Nat) (g : Group) (tag : Nat) : Bool :=
  if s.runs.any (fun r => r.2.gk == gk && r.2.tag == tag && r.2.stalled) || (g.blocked.find tag).isSome then false
  else if (g.gang tag).any g.entered.contains then true
  else (freeVal s.free 12 0 0).getLsbD 0

/-- A sample record. A gang that holds a run and awaits a fetch is stalled (R189). -/
def State.sampleBytes (s : State) (gk : Nat) (g : Group) (core : Nat) : List Byte :=
  let tm := s.teams.find g.team
  let tag := s.sampleTag gk g
  let i := (g.gang tag).headD 0
  let x := g.slice i
  let exited := g.allDone
  let fetch := !exited && s.awaitsFetch gk g tag
  let st := if exited then (2, 0) else if fetch && s.holdsRun gk then (3, 0) else s.sampleState gk g tag
  let lanes :=
    if exited || fetch then []
    else
      match s.moduleOf g with
      | some (_, la, m) =>
        let w := (s.bufferedWord core la.module x.sid.toNat x.off.toNat).getD (s.codeWord m x.sid.toNat x.off.toNat)
        activeLanes g (g.gang tag) (s.slotsOf m x.sid.toNat) (BitVec.ofNat 8 (bitsOf w.toNat 60 53))
      | none => []
  leBytes s.time.toNat 8 ++ leBytes ((tm.map (·.launch)).getD 0) 4 ++ leBytes core 2 ++ leBytes g.slot 1 ++ leBytes tag 1 ++
    leBytes (if exited then 0xFFFF else x.sid.toNat) 2 ++ leBytes (if exited then 0xFFFF else x.off.toNat) 2 ++
    leBytes (fIf fetch 1 + fIf exited 2 + fIf g.regOverflow 4) 1 ++ leBytes st.1 1 ++ leBytes st.2 1 ++
    leBytes g.regions.length 1 ++ g.snapshot.flatMap (fun r => leBytes r.toNat 2) ++ leBytes 0 2 ++
    leBytes (maskOf lanes) 8 ++ leBytes 0 24

/-- PC_SAMPLE: every 2^j cycles a core samples the group in its next occupied slot. -/
def execPcSample (core : Nat) (s : State) : Outcome :=
  match s.sampleGroup core with
  | none => .next s
  | some (gk, g) =>
    let c := s.ctxOf g
    match (s.ctxs.find c).bind (·.sampling) with
    | none => .next s
    | some x =>
      let age := (s.sampleAge.find core).getD 0
      if age < 2 ^ x.j then .next s
      else
      let bs := s.sampleBytes gk g core
      let s := { s with
        sampled := s.sampled.put core (g.slot + 1), sampleAge := s.sampleAge.put core (age - 2 ^ x.j), free := s.free + 1 }
      let s := { s with ctxs := s.ctxs.update c fun c => { c with sampling := some { x with next := x.next + 1 } } }
      match s.translate c hubId (x.base.toNat + x.next % x.q * 64) with
      | .ok pa true _ fill =>
        .next (if paKind pa == .hbm || paKind pa == .host then (s.walked fill).physWrite pa bs none else s)
      | _ => .next s

/-! ## Error logs (R236, R356) -/

/-- Where bytes of a virtual range of a context can be written, page by page: (address, bytes, what the walk has read). -/
def State.hubTargets (s : State) (ctx : Nat) : Nat → Nat → List Byte → Option (List (Nat × List Byte × List TlbEntry))
  | 0, _, _ => some []
  | _, _, [] => some []
  | fuel + 1, va, bs =>
    match s.translate ctx hubId va with
    | .ok pa true _ fill =>
      let k := 65536 - va % 65536
      if paKind pa == .fabric || paKind pa == .none then none
      else (State.hubTargets s ctx fuel (va + k) (bs.drop k)).map fun rest => (pa, bs.take k, fill) :: rest
    | _ => none

/-- What a log-read command writes, and the machine with that log or counter cleared. -/
def State.takeLog (s : State) (kind unit : Nat) : List Byte × State :=
  match kind with
  | 0 =>
    let l := (s.errLog.find unit).getD ⟨[], false⟩
    (leBytes l.entries.length 4 ++ leBytes (fIf l.overflow 1) 4 ++ leBytes 0 8 ++
      l.entries.flatMap (fun x => leBytes x.toNat 16), { s with errLog := s.errLog.del unit })
  | 1 => (leBytes ((s.errCluster.find unit).getD 0).toNat 8, { s with errCluster := s.errCluster.del unit })
  | _ => (leBytes ((s.errStack.find unit).getD 0).toNat 8, { s with errStack := s.errStack.del unit })

/-- READ_ERROR_LOG: an address that cannot be written gives status 2 and the log keeps its entries (log entry 24). -/
def execReadErrorLog (s : State) : Outcome :=
  command 0x0F [(0, 1), (2, 4), (8, 8)] (fun s e =>
    let kind := pay e 0 1
    let unit := pay e 2 2
    let c := pay e 4 2
    let a := pay e 8 8
    let units := if kind == 0 then 384 else if kind == 1 then 96 else 12
    if 3 ≤ kind || units ≤ unit || (s.ctxs.find c).isNone || a % 16 != 0 || 2 ^ 56 ≤ a then refused s
    else
      let r := s.takeLog kind unit
      match s.hubTargets c 3 a r.1 with
      | none => refused s
      | some ts => done (ts.foldl (fun s t => (s.walked t.2.2).physWrite t.1 t.2.1 none) r.2)) s

end Sys2Proof.Machine
end

