-- ==== Sys2Proof/Machine/Pair.lean ====
section
/-! DEFINITION. Pair words (R39, R40, R58): one meaning per first half. -/

namespace Sys2Proof.Machine

open Sys2Proof

/-- Whether `vs` is an immediate. -/
def pairImm : PairOp → Bool
  | .addi | .shli | .shri | .srai | .andi | .movi => true
  | _ => false

/-- The rounding mode that `smod` names (R22). -/
def smodRm (m : BitVec 3) : Rm :=
  match m.toNat with
  | 0 => .rne
  | 1 => .rtz
  | 2 => .rdn
  | 3 => .rup
  | 4 => .rna
  | 5 => .rst
  | _ => .dyn

/-- The result and flags of a half from d and s (R58); `env` is its rounding control. -/
def pairVal (op : PairOp) (smod : BitVec 3) (env : FEnv) (d s : Nat) : Nat × Nat :=
  let zd := daz env.daz .f32 d
  let zs := daz env.daz .f32 s
  let imm := wrapN 32 (sext 8 s)
  let sra (c : Nat) : Nat := wrapN 32 (sext 32 d / (2 ^ c : Int))
  let less := if smod == 0 then decide (sext 32 d ≤ sext 32 s) else decide (d ≤ s)
  match op with
  | .nop => (0, 0)
  | .mov => (s, 0)
  | .add => (d + s, 0)
  | .sub => (d + 2 ^ 32 - s, 0)
  | .mul => (d * s, 0)
  | .and => (d &&& s, 0)
  | .or => (d ||| s, 0)
  | .xor => (d ^^^ s, 0)
  | .shl => (d * 2 ^ (s % 32), 0)
  | .shr => (d / 2 ^ (s % 32), 0)
  | .sra => (sra (s % 32), 0)
  | .min => (if less then d else s, 0)
  | .max => (if less then s else d, 0)
  | .addi => (d + imm, 0)
  | .shli => (d * 2 ^ (s % 32), 0)
  | .shri => (d / 2 ^ (s % 32), 0)
  | .srai => (sra (s % 32), 0)
  | .andi => (d &&& s, 0)
  | .movi => (imm, 0)
  | .fadd => faddVal .f32 env zd zs
  | .fsub => fsubVal .f32 env zd zs
  | .fmul => fmulVal .f32 env zd zs
  | .fmin => minmax .f32 env false false zd zs
  | .fmax => minmax .f32 env true false zd zs
  | .fminn => minmax .f32 env false true zd zs
  | .fmaxn => minmax .f32 env true true zd zs
  | .fabs => (clearSign .f32 s, 0)
  | .fneg => (flipSign .f32 s, 0)
  | .cvtif => intToFloat .f32 env (sext 32 s)
  | .cvtfi => floatToInt env true 32 (decodeF .f32 zs)

/-- The registers a half names (R43 step 8), and those it reads. -/
def halfRegs (x : Half) : List (Nat × Nat) :=
  if x.op == .nop then []
  else span false x.args.vd :: (if pairImm x.op then [] else [span false x.args.vs])

/-- One half of a lane: its write and flags. `a` numbers its sources. -/
def halfLane (x : Half) (a : Nat) (e : Env) (l : Nat) : List RegWrite × Nat :=
  if x.op == .nop then ([], 0)
  else
    let d := e.reg1 a l x.args.vd
    let s := if pairImm x.op then x.args.vs.toNat else e.reg1 (a + 1) l x.args.vs
    let r := pairVal x.op x.args.smod (e.fenv (smodRm x.args.smod) .mode l 0 x.args.vd) d s
    (put1 l x.args.vd r.1, r.2)

/-- Commit a pair word: one window entry for both halves, each under its own `k` (R40). -/
def State.commitPair (s : State) (e : Env) (ka kb : Bool) (wa wb : List RegWrite) (flags : Nat) : State :=
  let names (ws : List RegWrite) : List Nat := ws.map fun w => latentReg e.gk (e.g.lane w.1).depth.toNat w.1 w.2.1
  let s := s.clearLatent ((if ka then names wa else []) ++ if kb then names wb else [])
  s.onGroup e.gk fun g =>
    let g := wa.foldl (fun g w => g.writeReg ka w) g
    let g := wb.foldl (fun g w => g.writeReg kb w) g
    (g.pushWindow (winEntry (wa ++ wb))).raise flags

/-- A pair word: both halves read before either writes. -/
def pairWord (h : Hdr) (a b : Half) (s : State) : Outcome :=
  let regs := halfRegs a ++ halfRegs b
  word h 1 regs regs (fun e s =>
    let ra := e.eachLane (halfLane a 0)
    let rb := e.eachLane (halfLane b 2)
    .ok (s.commitPair e a.args.k b.args.k ra.1 rb.1 (ra.2 ||| rb.2))) s

def execPairNop (h : Hdr) (a : HalfArgs) (b : Half) (s : State) : Outcome :=
  pairWord h ⟨.nop, a⟩ b s
def execPairMov (h : Hdr) (a : HalfArgs) (b : Half) (s : State) : Outcome :=
  pairWord h ⟨.mov, a⟩ b s
def execPairAdd (h : Hdr) (a : HalfArgs) (b : Half) (s : State) : Outcome :=
  pairWord h ⟨.add, a⟩ b s
def execPairSub (h : Hdr) (a : HalfArgs) (b : Half) (s : State) : Outcome :=
  pairWord h ⟨.sub, a⟩ b s
def execPairMul (h : Hdr) (a : HalfArgs) (b : Half) (s : State) : Outcome :=
  pairWord h ⟨.mul, a⟩ b s
def execPairAnd (h : Hdr) (a : HalfArgs) (b : Half) (s : State) : Outcome :=
  pairWord h ⟨.and, a⟩ b s
def execPairOr (h : Hdr) (a : HalfArgs) (b : Half) (s : State) : Outcome :=
  pairWord h ⟨.or, a⟩ b s
def execPairXor (h : Hdr) (a : HalfArgs) (b : Half) (s : State) : Outcome :=
  pairWord h ⟨.xor, a⟩ b s
def execPairShl (h : Hdr) (a : HalfArgs) (b : Half) (s : State) : Outcome :=
  pairWord h ⟨.shl, a⟩ b s
def execPairShr (h : Hdr) (a : HalfArgs) (b : Half) (s : State) : Outcome :=
  pairWord h ⟨.shr, a⟩ b s
def execPairSra (h : Hdr) (a : HalfArgs) (b : Half) (s : State) : Outcome :=
  pairWord h ⟨.sra, a⟩ b s
def execPairMin (h : Hdr) (a : HalfArgs) (b : Half) (s : State) : Outcome :=
  pairWord h ⟨.min, a⟩ b s
def execPairMax (h : Hdr) (a : HalfArgs) (b : Half) (s : State) : Outcome :=
  pairWord h ⟨.max, a⟩ b s
def execPairAddi (h : Hdr) (a : HalfArgs) (b : Half) (s : State) : Outcome :=
  pairWord h ⟨.addi, a⟩ b s
def execPairShli (h : Hdr) (a : HalfArgs) (b : Half) (s : State) : Outcome :=
  pairWord h ⟨.shli, a⟩ b s
def execPairShri (h : Hdr) (a : HalfArgs) (b : Half) (s : State) : Outcome :=
  pairWord h ⟨.shri, a⟩ b s
def execPairSrai (h : Hdr) (a : HalfArgs) (b : Half) (s : State) : Outcome :=
  pairWord h ⟨.srai, a⟩ b s
def execPairAndi (h : Hdr) (a : HalfArgs) (b : Half) (s : State) : Outcome :=
  pairWord h ⟨.andi, a⟩ b s
def execPairMovi (h : Hdr) (a : HalfArgs) (b : Half) (s : State) : Outcome :=
  pairWord h ⟨.movi, a⟩ b s
def execPairFadd (h : Hdr) (a : HalfArgs) (b : Half) (s : State) : Outcome :=
  pairWord h ⟨.fadd, a⟩ b s
def execPairFsub (h : Hdr) (a : HalfArgs) (b : Half) (s : State) : Outcome :=
  pairWord h ⟨.fsub, a⟩ b s
def execPairFmul (h : Hdr) (a : HalfArgs) (b : Half) (s : State) : Outcome :=
  pairWord h ⟨.fmul, a⟩ b s
def execPairFmin (h : Hdr) (a : HalfArgs) (b : Half) (s : State) : Outcome :=
  pairWord h ⟨.fmin, a⟩ b s
def execPairFmax (h : Hdr) (a : HalfArgs) (b : Half) (s : State) : Outcome :=
  pairWord h ⟨.fmax, a⟩ b s
def execPairFminn (h : Hdr) (a : HalfArgs) (b : Half) (s : State) : Outcome :=
  pairWord h ⟨.fminn, a⟩ b s
def execPairFmaxn (h : Hdr) (a : HalfArgs) (b : Half) (s : State) : Outcome :=
  pairWord h ⟨.fmaxn, a⟩ b s
def execPairFabs (h : Hdr) (a : HalfArgs) (b : Half) (s : State) : Outcome :=
  pairWord h ⟨.fabs, a⟩ b s
def execPairFneg (h : Hdr) (a : HalfArgs) (b : Half) (s : State) : Outcome :=
  pairWord h ⟨.fneg, a⟩ b s
def execPairCvtif (h : Hdr) (a : HalfArgs) (b : Half) (s : State) : Outcome :=
  pairWord h ⟨.cvtif, a⟩ b s
def execPairCvtfi (h : Hdr) (a : HalfArgs) (b : Half) (s : State) : Outcome :=
  pairWord h ⟨.cvtfi, a⟩ b s

end Sys2Proof.Machine
end

