-- ==== Sys2Proof/Machine/Fetch.lean ====
section
/-! DEFINITION. Fetching a word (R41 to R43, R287), the passing of time, and which agent moves next when the agenda
says nothing (log entries 2, 3). -/

namespace Sys2Proof.Machine

open Sys2Proof

/-! ## Fetch -/

/-- Where an issue slot's run stands: the core, the run, its group, module with its handle, state and offset, by the
gang's lowest slice. -/
structure At where
  core : Nat
  run : Run
  g : Group
  handle : Nat
  md : Module
  st : Nat
  off : Nat
  deriving DecidableEq, Repr

def State.position (s : State) (core slot : Nat) : Option At :=
  match s.runs.find (unitKey core slot) with
  | none => none
  | some r =>
    match s.group r.gk with
    | none => none
    | some g =>
      match s.moduleOf g, g.gang r.tag with
      | some (_, la, m), i :: _ => some ⟨core, r, g, la.module, m, (g.slice i).sid.toNat, (g.slice i).off.toNat⟩
      | _, _ => none

/-- The word `i` words on from where a run stands: from the core's loop buffer where that holds it (R190). -/
def State.wordOf (s : State) (p : At) (i : Nat) : Dword :=
  (s.bufferedWord p.core p.handle p.st (p.off + i)).getD (s.codeWord p.md p.st (p.off + i))

/-- Is the word at a run's position a literal form? -/
def State.literalAt (s : State) (p : At) : Bool := num (s.wordOf p 0) 61 2 == 2

/-- Does the word, or its literal, lie past the last word of the state's code (R42)? -/
def State.outside (s : State) (p : At) : Bool :=
  let n := s.stateLen p.md p.st
  decide (n ≤ p.off) || (s.literalAt p && decide (n ≤ p.off + 1))

/-- Has one of the words at a run's position, which must be fetched, an uncorrectable error (R287)? -/
def State.badFetch (s : State) (p : At) : Bool :=
  (natsFrom 0 (if s.literalAt p then 2 else 1)).any fun i =>
    (s.bufferedWord p.core p.handle p.st (p.off + i)).isNone &&
      s.poisoned (s.liveKey (s.stateCode p.md p.st + 8 * (p.off + i))) 8

/-- The word `i` words on from where a run stands is fetched, if the loop buffer does not hold it: its line is pulled
where it is ABSENT (R302), single-bit errors are corrected (R287), and the loop buffer keeps it (R190). -/
def State.fetchWord (s : State) (p : At) (i : Nat) : State :=
  let a := s.stateCode p.md p.st + 8 * (p.off + i)
  let w := s.wordOf p i
  let s := if (s.bufferedWord p.core p.handle p.st (p.off + i)).isSome then s
    else
      let s := s.touch a
      s.correctHome (s.liveKey a) 8
  s.captureWord p.core p.handle p.st (p.off + i) w

/-- What an issue slot fetches: its word, with the literal. -/
def State.captureNext (s : State) (core slot : Nat) : State :=
  match s.position core slot with
  | none => s
  | some p =>
    if s.outside p || s.badFetch p then s
    else if s.literalAt p then (s.fetchWord p 0).fetchWord p 1
    else s.fetchWord p 0

/-- FETCH_PAST_STATE_CODE: the fetch of the run's gang raises `FETCH_RANGE`. -/
def execFetchPastStateCode (s : State) : Outcome :=
  match s.position s.cur.1 s.cur.2 with
  | none => .next s
  | some p => if s.outside p then .next (s.takeFault p.run.gk p.run.tag (wfault cFETCHRANGE 0)) else .next s

/-- UNASSIGNED_OPCODE: `ILL_FORM` or `ILL_OP` (R43 steps 1, 3 and 4). -/
def execUnassignedOpcode (h : Hdr) (illForm : Bool) (s : State) : Outcome :=
  match s.env h.m with
  | none => .fault .noRun
  | some e => .next (s.takeFault e.gk e.run.tag (wfault (if illForm then cILLFORM else cILLOP) 0))

/-- What a fetch gives: an instruction to run, or the end of the move. -/
inductive Fetched where
  | run (i : Instr)
  | done (s : State)
  deriving DecidableEq, Repr

/-- The run of an issue slot ends before its next word (R41). -/
def State.endRunAt (s : State) (core slot : Nat) : State :=
  match s.env 1 with
  | some e => s.endRun e
  | none => { s with runs := s.runs.del (unitKey core slot) }

/-- A rejected word: step 5 of R43 before steps 6 and 7. -/
def decodeFault (slots : Nat) (m : BitVec 8) : DecErr → Nat
  | .field => if badMember m slots then cILLMEMB else cILLFIELD
  | .pair => if badMember m slots then cILLMEMB else cILLPAIR

/-- The next word of the run that `cur` names; `t` is the machine once the word is fetched. -/
def State.fetch (s t : State) : Fetched :=
  match s.position s.cur.1 s.cur.2 with
  | none => .done s
  | some p =>
    let w := s.wordOf p 0
    if s.stateLen p.md p.st ≤ p.off then .run .fetchPastStateCode
    else if s.literalAt p && p.run.words == 23 then .done (s.endRunAt s.cur.1 s.cur.2)
    else if s.outside p then .run .fetchPastStateCode
    else if s.badFetch p then .done (s.takeFault p.run.gk p.run.tag { (wfault cECCFATAL 0) with bits := 1 })
    else
      match decode w (s.wordOf p 1) with
      | .ok i => .run i
      | .error e =>
        .done (t.takeFault p.run.gk p.run.tag (wfault (decodeFault (s.slotsOf p.md p.st).length (hdrOf w).m e) 0))

/-! ## Time (log entries 3 and 15) -/

/-- Patience of the AWAIT slices of a group counts down (R80). -/
def Group.patienceDown (g : Group) (n : Nat) : Group :=
  if g.stopped then g
  else g.onSlices (fun i => (g.slice i).status == .await) fun x =>
    { x with patience := BitVec.ofNat 16 (x.patience.toNat - n) }

/-- Counters 0, 3, 4 and 11 (R349) after some cycles. -/
def State.countCycles (s : State) (n : Nat) : State :=
  let s := s.runs.vals.foldl (fun (s : State) r =>
    match s.group r.gk with
    | some g =>
      let s := s.count (s.ctxOf g) 0 n
      if r.stalled then s.count (s.ctxOf g) 3 n else s
    | none => s) s
  let s := s.groups.foldl (fun (s : State) p => if s.ready p.1 p.2 then s.count (s.ctxOf p.2) 4 n else s) s
  s.arrays.foldl (fun (s : State) p =>
    match s.chosenEntry p.1 with
    | some (_, x) =>
      if p.2.admitted then
        match (s.teams.find x.team).bind fun tm => s.launches.find tm.launch with
        | some l => s.count l.ctx 11 n
        | none => s
      else s
    | none => s) s

/-- Is the array of a core executing an entry? -/
def State.arrayBusy (s : State) (core : Nat) : Bool :=
  (s.chosenEntry core).isSome && ((s.arrays.find core).map (·.admitted)).getD false

/-- The busy counts of the series (R353) after some more cycles: issue slots, stalled slot-cycles, array. -/
def State.busyAfter (s : State) (busy : KMap Nat) (n : Nat) : KMap Nat :=
  let add (m : KMap Nat) (k : Nat) : KMap Nat := m.put k ((m.find k).getD 0 + n)
  if n = 0 then busy
  else
    let m := s.runs.foldl (fun m r =>
      let m := add m (r.1 / 2 * 4 + r.1 % 2)
      if r.2.stalled then add m (r.1 / 2 * 4 + 2) else m) busy
    (s.arrays.keys.filter s.arrayBusy).foldl (fun m c => add m (c * 4 + 3)) m

/-- The series and its busy counts from a time on, up to another that so many cycles lead to: at each sample's tick the
counts up to it are latched (R352). -/
def State.runSeries (s : State) (upto : Nat) : Nat → Nat → Nat → Series × KMap Nat → Series × KMap Nat
  | 0, _, cycles, p => (p.1, s.busyAfter p.2 cycles)
  | fuel + 1, now, cycles, p =>
    let d := p.1.due p.1.n
    if upto < d then (p.1, s.busyAfter p.2 cycles)
    else
      let c := cycles * (d - now) / (upto - now)
      State.runSeries s upto fuel (max now d) (cycles - c) (p.1.latch (s.busyAfter p.2 c), [])

/-- The series and its counts after a tick, while it runs. -/
def State.seriesAfter (s : State) (cycles ns : Nat) : Series × KMap Nat :=
  let x := s.series
  if !x.running then (x, s.busy)
  else s.runSeries (s.time.toNat + ns) (ns * 6 / (5 * 2 ^ x.k) + 2) s.time.toNat cycles (x, s.busy)

/-- Cycles since each core that has a group to sample took its last sample (R354). -/
def State.ageSamples (s : State) (n : Nat) : KMap Nat :=
  (dedup (s.teams.vals.map (·.core))).foldl (fun m c =>
    if (s.sampleGroup c).isSome then KMap.put m c ((s.sampleAge.find c).getD 0 + n) else m) []

/-- The cycle ends: rounds that are out of patience close, with what has arrived (R178). -/
def State.endCycle (s : State) : State := s.groups.keys.foldl State.closeDue s

/-- Time passes; a claim no longer waits for one of a lower id (R364). -/
def State.tick (s : State) (cycles ns : Nat) : State :=
  let s := s.endCycle.startDelays.countCycles cycles
  let x := s.seriesAfter cycles ns
  { s with
    time := s.time + BitVec.ofNat 64 ns, claimed := false, series := x.1, busy := x.2, sampleAge := s.ageSamples cycles,
    groups := s.groups.map fun p => (p.1, p.2.patienceDown cycles) }

/-! ## Evictions (R288, R300) -/

/-- A core writes back and drops a line of its cache. -/
def State.evictLine (s : State) (core line : Nat) : State := s.invalidate core fun pa => pa / 128 == line

def State.evictTlb (s : State) (index : Nat) : State := { s with tlb := s.tlb.eraseIdx index }

/-! ## The move of an empty agenda (log entry 2) -/

/-- The events that may be due for a group. -/
def Group.events (gk : Nat) (g : Group) : List Instr :=
  [.patienceExpiry gk, .groupRetire gk] ++
    (g.ops.flatMap fun a =>
      if a.complete then []
      else if a.kind == .launch then [.launchRecordAppend gk a.id]
      else if a.kind == .evsig then [.eventCounterAdd gk a.id]
      else
        [.cachePromotion gk a.id, .loadDataArrival gk a.id .plain, .storePerformed gk a.id .plain,
          .atomicPerformed gk a.id .plain, .orderedAddBuffered gk a.id]) ++
    (g.tiles.flatMap fun t =>
      if t.complete then [] else [.weightLoadComplete gk t.id, .tileTransferComplete gk t.id]) ++
    g.arrivals.map fun p => .barrierArrivalSettle gk p.1

/-- The events that may be due for a team on its core. -/
def teamEvents (t : Nat) (tm : Team) : List Instr :=
  [.frameRequestServed t, .spillEngineStart tm.core, .frameMove tm.core, .rowCapture tm.core, .arrayBoundary tm.core,
    .weightReload tm.core, .arrayStartAdmission tm.core, .entryExecution tm.core, .preemptionHalt t, .contextSave t,
    .teamRestore t]

/-- The events that may be due at a launch queue. -/
def queueEvents (q : Nat) : List Instr :=
  [.launchEntry q, .moduleLoad q, .moduleUnload q, .counterStart q, .counterStop q, .teamAdmission q, .urgencyDelayExpiry q]

/-- The command at the head of the ring. -/
def commandEvent : Nat → List Instr
  | 0x01 => [.createContext] | 0x02 => [.destroyContext] | 0x03 => [.bindHostQueue] | 0x04 => [.translationInvalidate]
  | 0x05 => [.postMigrationRecord] | 0x06 => [.releaseMigrationRecord] | 0x07 => [.preEmpt] | 0x08 => [.endLaunch]
  | 0x09 => [.faultResponse] | 0x0A => [.codeBreakpoint] | 0x0B => [.regionStop] | 0x0C => [.watchpoint]
  | 0x0D => [.timeSeries] | 0x0E => [.sampling] | 0x0F => [.readErrorLog] | 0x10 => [.loadAtomicPathTable]
  | 0x11 => [.assignMsiXVectors] | 0x12 => [.attest] | _ => []

/-- Every move that the machine may make by itself. -/
def State.moves (s : State) : List Move :=
  let issue := s.runs.keys.map fun k => Move.issue (k / 2) (k % 2)
  let cores := dedup (s.teams.vals.map (·.core))
  let arb := cores.flatMap fun c => [Move.event (.issueSlotArbitration c 0), .event (.issueSlotArbitration c 1)]
  let evs : List Instr :=
    s.groups.flatMap (fun p => Group.events p.1 p.2) ++ s.teams.flatMap (fun p => teamEvents p.1 p.2) ++
    (dedup (s.feQ.map (·.granule))).map Instr.feWaitSatisfied ++ s.copyQ.keys.map Instr.copyChunk ++
    s.selQ.keys.map Instr.selectionChunk ++ s.colls.keys.map (fun k => Instr.collectiveFold k []) ++
    s.msgs.keys.map (fun k => Instr.messageDelivery k .plain) ++
    s.launches.keys.flatMap (fun l => [Instr.orderedAddApply l, .launchCompletion l]) ++
    (s.hostQ.keys ++ s.devQ.keys).flatMap queueEvents ++ s.migs.keys.map Instr.backgroundPull ++ [.faultRecordPost, .seriesSample] ++
    (match s.commandHead with
     | some (_, e) => commandEvent (field e 0 2)
     | none => [])
  let colls := s.collQ.vals.flatMap fun q => q.map fun x => Move.startColl x.gk x.id
  issue ++ arb ++ evs.map Move.event ++ colls ++ [.tick 6 5]

/-- The move of an empty agenda: the moves take turns. -/
def State.defaultMove (s : State) : Move :=
  let ms := s.moves
  ms.getD (s.seq % ms.length) (.tick 6 5)

/-- The next move, and the machine once it is taken from the agenda. -/
def State.nextMove (s : State) : Move × State :=
  match s.agenda with
  | m :: rest => (m, { s with agenda := rest, seq := s.seq + 1 })
  | [] => (s.defaultMove, { s with seq := s.seq + 1 })

/-! ## A word placed for the next step (log entry 6)

What a loaded module, an accepted launch and an admitted team of one lane leave in the state, with the word at
offset 0 of the lane's state and the run held by issue slot 0 of core 0. -/

def placedModule : Module :=
  { base := 0x10000, size := 0x10000, va := 0, maps := [], code := 0x11000, codeWords := 2, states := 0x12000,
    singleton := 0x13000, xtab := 0x14000, descrs := 0x15000, kernels := 0x16000, nStates := 1, nBlocks := 8,
    nDescrs := 0, nKernels := 1, h := 1, trap := 0xFFFF }

/-- State 0: two words of code, the blocks 0 to 7. -/
def placedState : List Byte :=
  leBytes 0 4 ++ leBytes 1 2 ++ leBytes 8 1 ++ leBytes 0 1 ++
    leBytes (((natsFrom 0 8).map fun i => i * 2 ^ (12 * i)).foldl (· + ·) 0) 12 ++ leBytes 0 4

def placedCtx : Ctx :=
  { desc := ⟨0, 0, 0, 0, false, false, false⟩, evFirst := 0, evCount := 0, signed := false, breaks := [], counters := [],
    sampling := none }

def placedLaunch : Launch :=
  { id := 0, queue := 0, ctx := 0, module := 0, kernel := List.replicate 32 0, record := List.replicate 256 0, function := 0,
    next := 1, waitMet := false, teams := 1, teamsRetired := 0, cb := none, started := true, ended := false, faulted := false, contribs := [],
    applied := false, spillRecords := 0, counting := none, flagsOr := 0, absentSum := 0, groupsRetired := 0,
    urgentSince := none, urgentCore := none }

def placedTeam : Team :=
  { launch := 0, t := 0, core := 0, snum := 0, width := 16, p := 0, c := 1, dp := 0, dc := 256, quota := 64, weight := 4,
    sUnit := 0, sUnits := 0, vUnit := 0, vUnits := 0, barriers := [], requests := [], lbanks := [], acc := [], blocks := [],
    mmaPrio := 0, frame := 0, frameSize := 0, latched := false, saved := false, changedAt := 0, saveTime := 0, granCopy := [] }

/-- The 16 bytes of an instruction stand where the next step fetches. -/
def State.placeWord (s : State) (bs : List Byte) : State :=
  let mem := Memory.putBytes s.mem placedModule.code bs
  let mem := Memory.putBytes mem placedModule.states placedState
  let mem := Memory.putBytes mem placedModule.singleton (leBytes (2 ^ 31) 4)
  { s with
    mem := mem, ctxs := s.ctxs.put 0 placedCtx, modules := s.modules.put 0 placedModule,
    launches := s.launches.put 0 placedLaunch, nextLaunch := 1, teams := s.teams.put 0 placedTeam,
    groups := s.groups.put 0 (startGroup 0 0 0 16 1 0 0 256 s.free s.seq 0 []),
    runs := s.runs.put (unitKey 0 0) ⟨0, 0, 0, false⟩, agenda := .issue 0 0 :: s.agenda }

end Sys2Proof.Machine
end

