-- ==== Sys2Proof/Machine/Dispatch.lean ====
section
/-! DEFINITION. What each instruction and event does: one arm per constructor. -/

namespace Sys2Proof.Machine

open Sys2Proof

def exec (i : Instr) (s : State) : Host.Outcome State Fault Refusal :=
  match i with
  | .add o => Sys2Proof.Machine.execAdd o s
  | .sub o => Sys2Proof.Machine.execSub o s
  | .mul o => Sys2Proof.Machine.execMul o s
  | .mulhi o => Sys2Proof.Machine.execMulhi o s
  | .mulw o => Sys2Proof.Machine.execMulw o s
  | .mad o => Sys2Proof.Machine.execMad o s
  | .madw o => Sys2Proof.Machine.execMadw o s
  | .min o => Sys2Proof.Machine.execMin o s
  | .max o => Sys2Proof.Machine.execMax o s
  | .abs o => Sys2Proof.Machine.execAbs o s
  | .neg o => Sys2Proof.Machine.execNeg o s
  | .and o => Sys2Proof.Machine.execAnd o s
  | .or o => Sys2Proof.Machine.execOr o s
  | .xor o => Sys2Proof.Machine.execXor o s
  | .not o => Sys2Proof.Machine.execNot o s
  | .andn o => Sys2Proof.Machine.execAndn o s
  | .shl o => Sys2Proof.Machine.execShl o s
  | .shr o => Sys2Proof.Machine.execShr o s
  | .sra o => Sys2Proof.Machine.execSra o s
  | .rol o => Sys2Proof.Machine.execRol o s
  | .ror o => Sys2Proof.Machine.execRor o s
  | .bfx o => Sys2Proof.Machine.execBfx o s
  | .bfi o => Sys2Proof.Machine.execBfi o s
  | .popc o => Sys2Proof.Machine.execPopc o s
  | .clz o => Sys2Proof.Machine.execClz o s
  | .ctz o => Sys2Proof.Machine.execCtz o s
  | .brev o => Sys2Proof.Machine.execBrev o s
  | .cmp o => Sys2Proof.Machine.execCmp o s
  | .sel o => Sys2Proof.Machine.execSel o s
  | .mov o => Sys2Proof.Machine.execMov o s
  | .adda o => Sys2Proof.Machine.execAdda o s
  | .addsc o => Sys2Proof.Machine.execAddsc o s
  | .fadd o => Sys2Proof.Machine.execFadd o s
  | .fsub o => Sys2Proof.Machine.execFsub o s
  | .fmul o => Sys2Proof.Machine.execFmul o s
  | .fma o => Sys2Proof.Machine.execFma o s
  | .fmin o => Sys2Proof.Machine.execFmin o s
  | .fmax o => Sys2Proof.Machine.execFmax o s
  | .fminn o => Sys2Proof.Machine.execFminn o s
  | .fmaxn o => Sys2Proof.Machine.execFmaxn o s
  | .fabs o => Sys2Proof.Machine.execFabs o s
  | .fneg o => Sys2Proof.Machine.execFneg o s
  | .fcmp o => Sys2Proof.Machine.execFcmp o s
  | .fclass o => Sys2Proof.Machine.execFclass o s
  | .frint o => Sys2Proof.Machine.execFrint o s
  | .fscale o => Sys2Proof.Machine.execFscale o s
  | .cvt o => Sys2Proof.Machine.execCvt o s
  | .rcps o => Sys2Proof.Machine.execRcps o s
  | .rsqs o => Sys2Proof.Machine.execRsqs o s
  | .cord o => Sys2Proof.Machine.execCord o s
  | .shfl o => Sys2Proof.Machine.execShfl o s
  | .red o => Sys2Proof.Machine.execRed o s
  | .scan o => Sys2Proof.Machine.execScan o s
  | .ballot o => Sys2Proof.Machine.execBallot o s
  | .any o => Sys2Proof.Machine.execAny o s
  | .all o => Sys2Proof.Machine.execAll o s
  | .matchLanes o => Sys2Proof.Machine.execMatchLanes o s
  | .ld o => Sys2Proof.Machine.execLd o s
  | .lds o => Sys2Proof.Machine.execLds o s
  | .st o => Sys2Proof.Machine.execSt o s
  | .sptest o => Sys2Proof.Machine.execSptest o s
  | .spcast o => Sys2Proof.Machine.execSpcast o s
  | .feset o => Sys2Proof.Machine.execFeset o s
  | .feclr o => Sys2Proof.Machine.execFeclr o s
  | .fetest o => Sys2Proof.Machine.execFetest o s
  | .aadd o => Sys2Proof.Machine.execAadd o s
  | .amin o => Sys2Proof.Machine.execAmin o s
  | .amax o => Sys2Proof.Machine.execAmax o s
  | .aand o => Sys2Proof.Machine.execAand o s
  | .aor o => Sys2Proof.Machine.execAor o s
  | .axor o => Sys2Proof.Machine.execAxor o s
  | .aexch o => Sys2Proof.Machine.execAexch o s
  | .acas o => Sys2Proof.Machine.execAcas o s
  | .afadd o => Sys2Proof.Machine.execAfadd o s
  | .ofadd o => Sys2Proof.Machine.execOfadd o s
  | .fence h order scope => Sys2Proof.Machine.execFence h order scope s
  | .fenceOpr h => Sys2Proof.Machine.execFenceOpr h s
  | .wait h ld st eng tile => Sys2Proof.Machine.execWait h ld st eng tile s
  | .arrive h bar => Sys2Proof.Machine.execArrive h bar s
  | .bwait h bar => Sys2Proof.Machine.execBwait h bar s
  | .br h blka => Sys2Proof.Machine.execBr h blka s
  | .brc h va blka blkb => Sys2Proof.Machine.execBrc h va blka blkb s
  | .brx h va => Sys2Proof.Machine.execBrx h va s
  | .vote h => Sys2Proof.Machine.execVote h s
  | .regang h => Sys2Proof.Machine.execRegang h s
  | .loop h va tend => Sys2Proof.Machine.execLoop h va tend s
  | .yield h => Sys2Proof.Machine.execYield h s
  | .exit h => Sys2Proof.Machine.execExit h s
  | .call h fidx => Sys2Proof.Machine.execCall h fidx s
  | .calli h va => Sys2Proof.Machine.execCalli h va s
  | .ret h => Sys2Proof.Machine.execRet h s
  | .unwind h va blka => Sys2Proof.Machine.execUnwind h va blka s
  | .copy o => Sys2Proof.Machine.execCopy o s
  | .gather o => Sys2Proof.Machine.execGather o s
  | .scatter o => Sys2Proof.Machine.execScatter o s
  | .srank o => Sys2Proof.Machine.execSrank o s
  | .scmp o => Sys2Proof.Machine.execScmp o s
  | .coll o => Sys2Proof.Machine.execColl o s
  | .msg o => Sys2Proof.Machine.execMsg o s
  | .crew h va => Sys2Proof.Machine.execCrew h va s
  | .wld o => Sys2Proof.Machine.execWld o s
  | .mma o => Sys2Proof.Machine.execMma o s
  | .accld o => Sys2Proof.Machine.execAccld o s
  | .accst o => Sys2Proof.Machine.execAccst o s
  | .accrd o => Sys2Proof.Machine.execAccrd o s
  | .accz o => Sys2Proof.Machine.execAccz o s
  | .nop h lit => Sys2Proof.Machine.execNop h lit s
  | .movs h k vd sid => Sys2Proof.Machine.execMovs h k vd sid s
  | .movsm h sid vb => Sys2Proof.Machine.execMovsm h sid vb s
  | .trap h imm => Sys2Proof.Machine.execTrap h imm s
  | .brkpt h imm => Sys2Proof.Machine.execBrkpt h imm s
  | .enter h id => Sys2Proof.Machine.execEnter h id s
  | .leave h id => Sys2Proof.Machine.execLeave h id s
  | .launch o => Sys2Proof.Machine.execLaunch o s
  | .evsig o => Sys2Proof.Machine.execEvsig o s
  | .pairNop h a second => Sys2Proof.Machine.execPairNop h a second s
  | .pairMov h a second => Sys2Proof.Machine.execPairMov h a second s
  | .pairAdd h a second => Sys2Proof.Machine.execPairAdd h a second s
  | .pairSub h a second => Sys2Proof.Machine.execPairSub h a second s
  | .pairMul h a second => Sys2Proof.Machine.execPairMul h a second s
  | .pairAnd h a second => Sys2Proof.Machine.execPairAnd h a second s
  | .pairOr h a second => Sys2Proof.Machine.execPairOr h a second s
  | .pairXor h a second => Sys2Proof.Machine.execPairXor h a second s
  | .pairShl h a second => Sys2Proof.Machine.execPairShl h a second s
  | .pairShr h a second => Sys2Proof.Machine.execPairShr h a second s
  | .pairSra h a second => Sys2Proof.Machine.execPairSra h a second s
  | .pairMin h a second => Sys2Proof.Machine.execPairMin h a second s
  | .pairMax h a second => Sys2Proof.Machine.execPairMax h a second s
  | .pairAddi h a second => Sys2Proof.Machine.execPairAddi h a second s
  | .pairShli h a second => Sys2Proof.Machine.execPairShli h a second s
  | .pairShri h a second => Sys2Proof.Machine.execPairShri h a second s
  | .pairSrai h a second => Sys2Proof.Machine.execPairSrai h a second s
  | .pairAndi h a second => Sys2Proof.Machine.execPairAndi h a second s
  | .pairMovi h a second => Sys2Proof.Machine.execPairMovi h a second s
  | .pairFadd h a second => Sys2Proof.Machine.execPairFadd h a second s
  | .pairFsub h a second => Sys2Proof.Machine.execPairFsub h a second s
  | .pairFmul h a second => Sys2Proof.Machine.execPairFmul h a second s
  | .pairFmin h a second => Sys2Proof.Machine.execPairFmin h a second s
  | .pairFmax h a second => Sys2Proof.Machine.execPairFmax h a second s
  | .pairFminn h a second => Sys2Proof.Machine.execPairFminn h a second s
  | .pairFmaxn h a second => Sys2Proof.Machine.execPairFmaxn h a second s
  | .pairFabs h a second => Sys2Proof.Machine.execPairFabs h a second s
  | .pairFneg h a second => Sys2Proof.Machine.execPairFneg h a second s
  | .pairCvtif h a second => Sys2Proof.Machine.execPairCvtif h a second s
  | .pairCvtfi h a second => Sys2Proof.Machine.execPairCvtfi h a second s
  | .issueSlotArbitration core slot => Sys2Proof.Machine.execIssueSlotArbitration core slot s
  | .patienceExpiry gk => Sys2Proof.Machine.execPatienceExpiry gk s
  | .loadDataArrival gk id reply => Sys2Proof.Machine.execLoadDataArrival gk id reply s
  | .storePerformed gk id reply => Sys2Proof.Machine.execStorePerformed gk id reply s
  | .feWaitSatisfied granule => Sys2Proof.Machine.execFeWaitSatisfied granule s
  | .atomicPerformed gk id reply => Sys2Proof.Machine.execAtomicPerformed gk id reply s
  | .orderedAddBuffered gk id => Sys2Proof.Machine.execOrderedAddBuffered gk id s
  | .orderedAddApply launch => Sys2Proof.Machine.execOrderedAddApply launch s
  | .barrierArrivalSettle gk bar => Sys2Proof.Machine.execBarrierArrivalSettle gk bar s
  | .groupRetire gk => Sys2Proof.Machine.execGroupRetire gk s
  | .frameRequestServed team => Sys2Proof.Machine.execFrameRequestServed team s
  | .spillEngineStart core => Sys2Proof.Machine.execSpillEngineStart core s
  | .frameMove core => Sys2Proof.Machine.execFrameMove core s
  | .copyChunk cluster => Sys2Proof.Machine.execCopyChunk cluster s
  | .selectionChunk cluster => Sys2Proof.Machine.execSelectionChunk cluster s
  | .weightLoadComplete gk id => Sys2Proof.Machine.execWeightLoadComplete gk id s
  | .rowCapture core => Sys2Proof.Machine.execRowCapture core s
  | .arrayBoundary core => Sys2Proof.Machine.execArrayBoundary core s
  | .weightReload core => Sys2Proof.Machine.execWeightReload core s
  | .arrayStartAdmission core => Sys2Proof.Machine.execArrayStartAdmission core s
  | .entryExecution core => Sys2Proof.Machine.execEntryExecution core s
  | .tileTransferComplete gk id => Sys2Proof.Machine.execTileTransferComplete gk id s
  | .cachePromotion gk id => Sys2Proof.Machine.execCachePromotion gk id s
  | .backgroundPull id => Sys2Proof.Machine.execBackgroundPull id s
  | .patrolScrub stack line found => Sys2Proof.Machine.execPatrolScrub stack line found s
  | .faultRecordPost => Sys2Proof.Machine.execFaultRecordPost s
  | .launchEntry q => Sys2Proof.Machine.execLaunchEntry q s
  | .moduleLoad q => Sys2Proof.Machine.execModuleLoad q s
  | .moduleUnload q => Sys2Proof.Machine.execModuleUnload q s
  | .counterStart q => Sys2Proof.Machine.execCounterStart q s
  | .counterStop q => Sys2Proof.Machine.execCounterStop q s
  | .teamAdmission q => Sys2Proof.Machine.execTeamAdmission q s
  | .urgencyDelayExpiry q => Sys2Proof.Machine.execUrgencyDelayExpiry q s
  | .preemptionHalt team => Sys2Proof.Machine.execPreemptionHalt team s
  | .contextSave team => Sys2Proof.Machine.execContextSave team s
  | .teamRestore team => Sys2Proof.Machine.execTeamRestore team s
  | .launchCompletion launch => Sys2Proof.Machine.execLaunchCompletion launch s
  | .launchRecordAppend gk id => Sys2Proof.Machine.execLaunchRecordAppend gk id s
  | .eventCounterAdd gk id => Sys2Proof.Machine.execEventCounterAdd gk id s
  | .createContext => Sys2Proof.Machine.execCreateContext s
  | .destroyContext => Sys2Proof.Machine.execDestroyContext s
  | .bindHostQueue => Sys2Proof.Machine.execBindHostQueue s
  | .translationInvalidate => Sys2Proof.Machine.execTranslationInvalidate s
  | .postMigrationRecord => Sys2Proof.Machine.execPostMigrationRecord s
  | .releaseMigrationRecord => Sys2Proof.Machine.execReleaseMigrationRecord s
  | .preEmpt => Sys2Proof.Machine.execPreEmpt s
  | .endLaunch => Sys2Proof.Machine.execEndLaunch s
  | .faultResponse => Sys2Proof.Machine.execFaultResponse s
  | .codeBreakpoint => Sys2Proof.Machine.execCodeBreakpoint s
  | .regionStop => Sys2Proof.Machine.execRegionStop s
  | .watchpoint => Sys2Proof.Machine.execWatchpoint s
  | .timeSeries => Sys2Proof.Machine.execTimeSeries s
  | .sampling => Sys2Proof.Machine.execSampling s
  | .readErrorLog => Sys2Proof.Machine.execReadErrorLog s
  | .loadAtomicPathTable => Sys2Proof.Machine.execLoadAtomicPathTable s
  | .assignMsiXVectors => Sys2Proof.Machine.execAssignMsiXVectors s
  | .attest => Sys2Proof.Machine.execAttest s
  | .writeFirmwareSlot newer => Sys2Proof.Machine.execWriteFirmwareSlot newer s
  | .ownerClaim master value => Sys2Proof.Machine.execOwnerClaim master value s
  | .ownerHandover master value => Sys2Proof.Machine.execOwnerHandover master value s
  | .ownerRelease master => Sys2Proof.Machine.execOwnerRelease master s
  | .coldReset master => Sys2Proof.Machine.execColdReset master s
  | .warmReset master => Sys2Proof.Machine.execWarmReset master s
  | .attestMailboxRequest master => Sys2Proof.Machine.execAttestMailboxRequest master s
  | .attestReportDone master => Sys2Proof.Machine.execAttestReportDone master s
  | .registerWrite master offset size value => Sys2Proof.Machine.execRegisterWrite master offset size value s
  | .bar2Write master offset bytes => Sys2Proof.Machine.execBar2Write master offset bytes s
  | .bar2Read master offset count => Sys2Proof.Machine.execBar2Read master offset count s
  | .packageStart boot => Sys2Proof.Machine.execPackageStart boot s
  | .powerLoss => Sys2Proof.Machine.execPowerLoss s
  | .watchdogExpiry => Sys2Proof.Machine.execWatchdogExpiry s
  | .coldPlateOverLimit => Sys2Proof.Machine.execColdPlateOverLimit s
  | .seriesSample => Sys2Proof.Machine.execSeriesSample s
  | .pcSample core => Sys2Proof.Machine.execPcSample core s
  | .inboundAccess acc => Sys2Proof.Machine.execInboundAccess acc s
  | .collectiveFold index remote => Sys2Proof.Machine.execCollectiveFold index remote s
  | .messageDelivery index reply => Sys2Proof.Machine.execMessageDelivery index reply s
  | .linkTimeout gk id => Sys2Proof.Machine.execLinkTimeout gk id s
  | .portDown port => Sys2Proof.Machine.execPortDown port s
  | .flitRetry port => Sys2Proof.Machine.execFlitRetry port s
  | .unassignedOpcode h illForm => Sys2Proof.Machine.execUnassignedOpcode h illForm s
  | .fetchPastStateCode => Sys2Proof.Machine.execFetchPastStateCode s

end Sys2Proof.Machine
end

