-- ==== Sys2Proof/Machine/Step.lean ====
section
/-! DEFINITION. One step of the package: the next move of the agenda, and a word placed for it. -/

namespace Sys2Proof.Machine

open Sys2Proof

/-- One move. -/
def State.move (m : Move) (s : State) : Host.Outcome State Fault Refusal :=
  match m with
  | .issue core slot =>
    let s : State := { s with cur := (core, slot) }
    let t := s.captureNext core slot
    match s.fetch t with
    | .run i => exec i t
    | .done u => .next u
  | .event i => if i.hdr.isNone then exec i s else .next s
  | .tick cycles ns => .next (s.tick cycles ns)
  | .evict core line => .next (s.evictLine core line)
  | .evictTlb index => .next (s.evictTlb index)
  | .unknownCommand => .next s.unknownCommand
  | .startColl gk id => .next (s.startColl gk id)
  | .refuse gk id => .next (s.peerAnswer gk id .refused)
  | .peerPoison gk id => .next (s.peerAnswer gk id .poison)

/-- The step: the move at the head of the agenda, or the machine's own when the agenda is empty (log entry 2). -/
def step (s : State) : Host.Outcome State Fault Refusal := State.move s.nextMove.1 s.nextMove.2

/-- The state whose next step fetches and runs the instruction with bits `w` (log entry 6). -/
def State.withFetchWord (s : State) (nbits w : Nat) : State := s.placeWord (leBytes (w % 2 ^ nbits) 16)

end Sys2Proof.Machine
end

