-- ==== Sys2Proof/Safety.lean ====
section
/-! DEFINITION. The terms of the claims: when a group word passes its checks, which words write registers lane by
lane, what a register holds for software, what a word leaves as it was, and what every step keeps. -/

namespace Sys2Proof.Machine

open Sys2Proof

/-- The invariant of every step: memory is in its one form. -/
def State.Inv (s : State) : Prop := Memory.wf s.mem = true

/-! ## A word that passes its checks -/

/-- The word that the current run issues passes the checks that come before its own (R35, R36, R43, R208, R343):
`e` is what it sees of its group; its mask is not empty and names no absent slot; the registers it names lie in the
frames of its active lanes and those it reads hold no uncorrectable error; no stop stands before it. -/
structure Ready (h : Hdr) (region : Option (BitVec 16)) (regs reads : List (Nat × Nat)) (s : State) (e : Env) :
    Prop where
  env : s.env h.m = some e
  active : h.m ≠ 0
  member : badMember h.m e.slots.length = false
  frame : e.badFrame regs = none
  ecc : e.badEcc s.latent reads = none
  stop : s.stopBefore e region = none

/-- The same as a test. -/
def readyEnv (h : Hdr) (region : Option (BitVec 16)) (regs reads : List (Nat × Nat)) (s : State) : Option Env :=
  match s.env h.m with
  | none => none
  | some e =>
    if h.m != 0 && !badMember h.m e.slots.length && (e.badFrame regs).isNone && (e.badEcc s.latent reads).isNone &&
        (s.stopBefore e region).isNone then some e else none

/-- The instruction answers a next state in which the issuing group stands, and P holds of both. -/
def Completes (i : Instr) (s : State) (e : Env) (P : State → Group → Prop) : Prop :=
  ∃ t g', exec i s = .next t ∧ t.group e.gk = some g' ∧ P t g'

/-! ## What registers hold -/

/-- What the next word of the gang reads of a register that a word of the window wrote (R83). -/
def Group.seen (g : Group) (lane reg : Nat) : Option Word := windowRead g.window lane reg

/-- What the bank holds of a register at a call depth; none where there is no frame. -/
def Group.bankAt (g : Group) (depth lane reg : Nat) : Option Word := (g.frames.find depth).map fun f => f.bank lane reg

/-- A register or pair was written with the N-bit encoding x of a format (R36, R99). -/
def Group.shows (g : Group) (f : Fmt) (lane : Nat) (r : Reg) (x : Nat) : Prop :=
  if f.wide then
    g.seen lane r.toNat = some (BitVec.ofNat 32 x) ∧ g.seen lane (r.toNat + 1) = some (BitVec.ofNat 32 (x / 2 ^ 32))
  else if f.isSigned then g.seen lane r.toNat = some ((BitVec.ofNat f.width x).signExtend 32)
  else g.seen lane r.toNat = some ((BitVec.ofNat f.width x).setWidth 32)

/-- A register was written with a 32-bit value. -/
def Group.shows32 (g : Group) (lane : Nat) (r : Reg) (x : Word) : Prop := g.seen lane r.toNat = some x

/-- A pair was written with a 64-bit value (R36). -/
def Group.showsPair (g : Group) (lane : Nat) (r : Reg) (x : Dword) : Prop :=
  g.seen lane r.toNat = some (x.setWidth 32) ∧ g.seen lane (r.toNat + 1) = some ((x >>> 32).setWidth 32)

/-! ## What a word leaves as it was -/

/-- A slice but for its offset and its loops, which the end of a word moves (R87, R88). -/
def Slice.still (x : Slice) : Slice := { x with off := 0, loops := [] }

/-- A frame but for its registers and its use stamp (R194). -/
def Frame.still (f : Frame) : Frame := { f with regs := [], stamp := 0 }

/-- Two machines differ at most in groups, teams, runs, records, contexts, the counter of free values, latent errors and
the counts of corrected ones. -/
def State.sameBut (s t : State) : Prop :=
  t = { s with groups := t.groups, teams := t.teams, runs := t.runs, records := t.records, ctxs := t.ctxs, free := t.free,
               latent := t.latent, errCore := t.errCore }

/-- What a word leaves of the machine, from `s` with its own effect outside its group already made: `g0` is its
group with the word's own effect, but for registers. `banked` names the registers that it may have written in the bank,
`windowed` those that its window entry names. All else stands: memory, every table, every other group, the
accumulators of every team, and of its own group the lanes, slices, special registers, regions, counters, frames
and other registers. The end of a word may count events, post a record and stop its group; where the program stands is not
said. -/
structure Spared (s t : State) (e : Env) (g0 : Group) (banked windowed : Nat → Nat → Prop) (g' : Group) : Prop where
  rest : s.sameBut t
  teams : ∀ k, (t.teams.find k).map (fun tm => { tm with requests := [] }) =
    (s.teams.find k).map fun tm => { tm with requests := [] }
  others : ∀ k, k ≠ e.gk → t.group k = s.group k
  lanes : g'.lanes = g0.lanes
  slices : g'.slices.map Slice.still = g0.slices.map Slice.still
  special : (g'.mode, g'.flags, g'.absent, g'.crew) = (g0.mode, g0.flags, g0.absent, g0.crew)
  regions : (g'.regions, g'.regOverflow) = (g0.regions, g0.regOverflow)
  counters : (g'.loads, g'.stores, g'.engine, g'.tile) = (g0.loads, g0.stores, g0.engine, g0.tile)
  frames : ∀ d, (g'.frames.find d).map Frame.still = (e.g.frames.find d).map Frame.still
  bank : ∀ d l r, r < 256 → ¬ (banked l r ∧ d = (e.g.lane l).depth.toNat) → g'.bankAt d l r = e.g.bankAt d l r
  window : ∀ l r, r < 256 → ¬ windowed l r → g'.seen l r = windowRead (e.g.window.take 6) l r

/-- No register. -/
def noReg (_ _ : Nat) : Prop := False

/-- Taking a fault at a word (R95, R336): nothing of the word is committed, the group stops where it stands with its
cause, no issue slot holds a run of it, and one record of type 1 says so. -/
structure FaultTaken (s t : State) (e : Env) (code cause lane : Nat) : Prop where
  memory : t.mem = s.mem
  others : ∀ k, k ≠ e.gk → t.group k = s.group k
  group : t.group e.gk =
    some { e.g with halt := some ⟨.fault, BitVec.ofNat 8 code, s.time, lane, e.run.tag, none⟩, lastFault := BitVec.ofNat 8 code,
                    pass := 0 }
  runs : ∀ p ∈ t.runs, p.2.gk ≠ e.gk
  record : ∃ r, t.records = s.records ++ [r] ∧ r.ty = 1 ∧ r.code = BitVec.ofNat 8 code ∧
    r.cause = BitVec.ofNat 8 cause ∧ r.tag = e.run.tag ∧ r.pos = e.g.pos e.run.tag ∧ r.lane = lane ∧
    r.regions = e.g.snapshot ∧ r.time = s.time

/-! ## Words that write registers lane by lane (classes 0 to 2, `sptest`, `spcast`, `movs`) -/

/-- What the common rules of such a word need: its header, `k`, how many offsets it occupies, its destination and
its sources as (first register, registers). -/
structure LaneWord where
  h : Hdr
  k : Bool
  len : Nat
  dest : Nat × Nat
  reads : List (Nat × Nat)
  deriving DecidableEq, Repr

/-- Is a register of a lane the word's destination? -/
def LaneWord.writes (w : LaneWord) (e : Env) (lane reg : Nat) : Prop :=
  lane ∈ e.lanes ∧ w.dest.1 ≤ reg ∧ reg < w.dest.1 + w.dest.2

/-- A word of layout A with its destination wide or not, and its sources. -/
def laneA (o : AOp) (wide : Bool) (reads : List (Nat × Nat)) : LaneWord :=
  ⟨o.h, o.k, srcLen o.vb, span wide o.vd, reads⟩

/-- Sources A and B in the word's format. -/
def readsAB (o : AOp) : List (Nat × Nat) := span o.fmt.wide o.va :: srcSpan o.fmt.wide o.vb

/-- The operands of the words that write registers lane by lane (R99 to R124, R145, R146, R156). -/
def laneWordOf : Instr → Option LaneWord
  | .add o | .sub o | .mul o | .mulhi o | .min o | .max o | .and o | .or o | .xor o | .andn o
  | .fadd o | .fsub o | .fmul o | .fmin o | .fmax o | .fminn o | .fmaxn o => some (laneA o o.fmt.wide (readsAB o))
  | .mulw o => some (laneA o (doubleFmt o.fmt).wide (readsAB o))
  | .mad o | .fma o => some (laneA o o.fmt.wide ((readsAB o) ++ [span o.fmt.wide o.vc]))
  | .madw o => some (laneA o (doubleFmt o.fmt).wide ((readsAB o) ++ [span (doubleFmt o.fmt).wide o.vc]))
  | .abs o | .neg o | .not o | .brev o | .fabs o | .fneg o | .frint o | .rcps o | .rsqs o =>
    some (laneA o o.fmt.wide [span o.fmt.wide o.va])
  | .shl o | .shr o | .sra o | .rol o | .ror o | .bfx o | .fscale o =>
    some (laneA o o.fmt.wide (span o.fmt.wide o.va :: srcSpan false o.vb))
  | .bfi o => some (laneA o o.fmt.wide (span o.fmt.wide o.va :: srcSpan false o.vb ++ [span o.fmt.wide o.vc]))
  | .popc o | .clz o | .ctz o | .fclass o => some (laneA o false [span o.fmt.wide o.va])
  | .sel o => some (laneA o o.fmt.wide ((readsAB o) ++ [span false o.vc]))
  | .mov o => some (laneA o o.fmt.wide (srcSpan o.fmt.wide o.vb))
  | .adda o => some (laneA o true (span true o.va :: srcSpan o.fmt.wide o.vb))
  | .addsc o => some (laneA o true (span true o.va :: srcSpan o.fmt.wide o.vb ++ [span false o.vc]))
  | .cmp o | .fcmp o =>
    some ⟨o.h, o.k, srcLen o.vb, span false o.vd, span o.fmt.wide o.va :: srcSpan o.fmt.wide o.vb⟩
  | .cvt o =>
    some ⟨o.h, o.k, 1, span o.fmt.wide o.vd,
      span o.src.wide o.va :: (if o.fmt.isPacked && !o.src.isPacked then [span false o.vc] else [])⟩
  | .cord o =>
    some ⟨o.h, o.k, 1, span (cordPair o.cmode) o.vd,
      span false o.va :: (if cordTwoSources o.cmode then [span false o.vb] else [])⟩
  | .shfl o => some ⟨o.h, o.k, srcLen o.vb, span o.fmt.wide o.vd, span o.fmt.wide o.va :: srcSpan false o.vb⟩
  | .red o | .scan o | .ballot o => some ⟨o.h, o.k, srcLen o.vb, span o.fmt.wide o.vd, [span o.fmt.wide o.va]⟩
  | .any o | .all o => some ⟨o.h, o.k, srcLen o.vb, span false o.vd, [span o.fmt.wide o.va]⟩
  | .matchLanes o => some ⟨o.h, o.k, srcLen o.vb, span true o.vd, [span o.fmt.wide o.va]⟩
  | .sptest o => some ⟨o.h, o.k, 1, span false o.vd, [span true o.va]⟩
  | .spcast o => some ⟨o.h, o.k, 1, span true o.vd, [span true o.va]⟩
  | .movs h k vd sid => some ⟨h, k, 1, span (sid == .time) vd, []⟩
  | _ => none

/-- A lane word that passes its checks. -/
def LaneReady (i : Instr) (w : LaneWord) (s : State) (e : Env) : Prop :=
  laneWordOf i = some w ∧ i.wf = true ∧ Ready w.h none (w.dest :: w.reads) w.reads s e

/-! ## Tables of the spec's results -/

/-- R102: the operands, the result format and the exact value from A, B and C. -/
def intValue : Instr → Option (AOp × Fmt × (Int → Int → Int → Int))
  | .add o => some (o, o.fmt, fun a b _ => a + b)
  | .sub o => some (o, o.fmt, fun a b _ => a - b)
  | .mul o => some (o, o.fmt, fun a b _ => a * b)
  | .mulhi o => some (o, o.fmt, fun a b _ => a * b / 2 ^ o.fmt.width)
  | .mulw o => some (o, doubleFmt o.fmt, fun a b _ => a * b)
  | .mad o => some (o, o.fmt, fun a b c => a * b + c)
  | .madw o => some (o, doubleFmt o.fmt, fun a b c => a * b + c)
  | .min o => some (o, o.fmt, fun a b _ => min a b)
  | .max o => some (o, o.fmt, fun a b _ => max a b)
  | .abs o => some (o, o.fmt, fun a _ _ => |a|)
  | .neg o => some (o, o.fmt, fun a _ _ => -a)
  | _ => none

/-- The least and the greatest value of an integer format. -/
def leastOf (f : Fmt) : Int := if f.isSigned then -2 ^ (f.width - 1) else 0
def greatestOf (f : Fmt) : Int := if f.isSigned then 2 ^ (f.width - 1) - 1 else 2 ^ f.width - 1

/-- R103: the logic words as functions of a bit of A and of B. -/
def logicBit : Instr → Option (AOp × (Bool → Bool → Bool))
  | .and o => some (o, fun a b => a && b)
  | .or o => some (o, fun a b => a || b)
  | .xor o => some (o, fun a b => a != b)
  | .andn o => some (o, fun a b => a && !b)
  | .not o => some (o, fun a _ => !a)
  | _ => none

/-- R103: the shifts and rotates of N bits by a count. -/
def shiftValue : Instr → Option (AOp × Bool × ((n : Nat) → BitVec n → Nat → BitVec n))
  | .shl o => some (o, false, fun _ x c => x <<< c)
  | .shr o => some (o, false, fun _ x c => x >>> c)
  | .sra o => some (o, false, fun _ x c => x.sshiftRight c)
  | .rol o => some (o, true, fun _ x c => x.rotateLeft c)
  | .ror o => some (o, true, fun _ x c => x.rotateRight c)
  | _ => none

/-- R104: the length of the field that `b` names, and its position. -/
def bitField (n b : Nat) : Nat × Nat := (if n ≤ b % 256 then 0 else min (b / 256 % 256) (n - b % 256), b % 256)

/-- R106. -/
def condTrue (c : Cond) (a b : Int) : Bool :=
  match c with
  | .eq => a == b
  | .ne => a != b
  | .lt => a < b
  | .le => a ≤ b
  | .gt => b < a
  | .ge => b ≤ a
  | .ord => true
  | .unord => false

/-- R108: the bits that an address's top byte leaves to the offset. -/
def offsetBits (top : Nat) : Option Nat :=
  if top = 0 then some 56 else if top = 0xA1 then some 32 else if top = 0xA2 ∨ top = 0xA3 ∨ top = 0xA4 then some 24 else none

/-- R108: the two words that add an offset to an address, with the offset. -/
def addressWord : Instr → Option (AOp × (Env → Nat → Int))
  | .adda o => some (o, fun e l => intVal o.fmt (e.src 1 o.fmt l o.vb))
  | .addsc o => some (o, fun e l => intVal o.fmt (e.src 1 o.fmt l o.vb) * (e.reg1 2 l o.vc : Int))
  | _ => none

/-- The words of R110 that add, subtract, multiply or round, and the sources whose NaN makes the result NaN. -/
def nanWord : Instr → Option (AOp × (Env → Nat → List Nat))
  | .fadd o | .fsub o | .fmul o | .fmin o | .fmax o =>
    some (o, fun e l => [e.val 0 o.fmt l o.va, e.src 1 o.fmt l o.vb])
  | .fma o => some (o, fun e l => [e.val 0 o.fmt l o.va, e.src 1 o.fmt l o.vb, e.val 2 o.fmt l o.vc])
  | .frint o | .fscale o | .rcps o | .rsqs o => some (o, fun e l => [e.val 0 o.fmt l o.va])
  | _ => none

/-- R156: the value of each special state for a lane. -/
def specialValue (e : Env) (time : Dword) (l : Nat) : Sid → Nat
  | .lane => l
  | .slice => l / 4
  | .group => e.g.gidx
  | .team => e.tm.snum
  | .core => e.core
  | .cluster => e.core / 4
  | .die => e.core / 96
  | .gridx => e.tm.t % field e.la.record 8 4
  | .gridy => e.tm.t / field e.la.record 8 4 % field e.la.record 12 4
  | .gridz => e.tm.t / (field e.la.record 8 4 * field e.la.record 12 4)
  | .blk => (e.g.lane l).blk.toNat
  | .depth => (e.g.lane l).depth.toNat
  | .flags => e.g.flags.toNat
  | .mode => e.g.mode.toNat
  | .time => time.toNat
  | .lc0 => (((e.g.slice (l / 4)).loops[0]?).map fun x => x.count.toNat).getD 0
  | .lc1 => (((e.g.slice (l / 4)).loops[1]?).map fun x => x.count.toNat).getD 0
  | .lc2 => (((e.g.slice (l / 4)).loops[2]?).map fun x => x.count.toNat).getD 0


/-- R58: what an integer half computes from d and s, as 32-bit words; none for the float halves. -/
def halfValue (x : Half) (d s : Word) : Option Word :=
  let imm : Word := x.args.vs.signExtend 32
  let count := s.toNat % 32
  let less : Bool := if x.args.smod = 0 then d.sle s else d.ule s
  match x.op with
  | .mov => some s
  | .add => some (d + s)
  | .sub => some (d - s)
  | .mul => some (d * s)
  | .and => some (d &&& s)
  | .or => some (d ||| s)
  | .xor => some (d ^^^ s)
  | .shl => some (d <<< count)
  | .shr => some (d >>> count)
  | .sra => some (d.sshiftRight count)
  | .min => some (if less then d else s)
  | .max => some (if less then s else d)
  | .addi => some (d + imm)
  | .shli => some (d <<< (x.args.vs.toNat % 32))
  | .shri => some (d >>> (x.args.vs.toNat % 32))
  | .srai => some (d.sshiftRight (x.args.vs.toNat % 32))
  | .andi => some (d &&& x.args.vs.setWidth 32)
  | .movi => some imm
  | .fabs => some (s &&& 0x7FFFFFFF)
  | .fneg => some (s ^^^ 0x80000000)
  | _ => none

/-! ## Words that move their gang -/

/-- The block that each lane of a gang is in after a vote has moved it (R74). -/
def votedBlk (e : Env) (l : Nat) : BitVec 12 :=
  if (e.g.lane l).blk ≠ 0xFFF ∧ (e.g.lane l).park = false then (e.g.lane l).nxt else (e.g.lane l).blk

/-- The set of blocks that the lanes of some slices are in, ascending (R70, R74). -/
def blockSet (e : Env) (blk : Nat → BitVec 12) (slices : List Nat) : List Nat :=
  sortBy (fun a b => decide (a ≤ b)) (dedup
    (((lanesOf slices).filter fun l => decide (l < e.g.lanes.length) && blk l != 0xFFF).map fun l => (blk l).toNat))

/-- The vote of the gang answers at once: no round is open, and its set is empty or has a state. -/
structure CanArrive (s : State) (e : Env) (blk : Nat → BitVec 12) : Prop where
  noRound : e.g.awaiting = []
  set : blockSet e blk e.slices = [] ∨ ∃ st, s.lookup e.md (blockSet e blk e.slices) = .found st

/-- A slice at the start of a state (R73). -/
def Slice.atStart (x : Slice) (st : Nat) (status : SliceStatus) : Slice :=
  { x with sid := BitVec.ofNat 16 st, off := 0, loops := [], status := status }

/-- Where the vote leaves the gang (R73, R74): at the start of the state of its set, or DONE when no lane of it lives. -/
structure Arrived (s : State) (e : Env) (blk : Nat → BitVec 12) (g' : Group) : Prop where
  lanes : ∀ l ∈ lanesOf e.slices, l < e.g.lanes.length →
    (g'.lane l).blk = blk l ∧ (g'.lane l).park = false ∧ (blk l ≠ 0xFFF → (g'.lane l).nxt = blk l)
  done : blockSet e blk e.slices = [] → ∀ i ∈ e.slices, (g'.slice i).status = .done
  entered : ∀ st, blockSet e blk e.slices ≠ [] → s.lookup e.md (blockSet e blk e.slices) = .found st →
    ∀ i ∈ e.slices, g'.slice i = (e.g.slice i).atStart st (if e.slices.length = 1 then .lone else .gang)
  window : g'.window = []

/-- What a word that moves its gang leaves of the machine: all but its gang, its frames and flags, the end of its run and
what the end of a word counts and records. -/
structure Moved (s t : State) (e : Env) (g' : Group) : Prop where
  rest : s.sameBut t
  teams : ∀ k, (t.teams.find k).map (fun tm => { tm with requests := [] }) =
    (s.teams.find k).map fun tm => { tm with requests := [] }
  others : ∀ k, k ≠ e.gk → t.group k = s.group k
  lanes : ∀ l, l / 4 ∉ e.slices → g'.lane l = e.g.lane l
  slices : ∀ i, i ∉ e.slices → g'.slice i = e.g.slice i
  special : (g'.mode, g'.crew, g'.regions, g'.regOverflow) = (e.g.mode, e.g.crew, e.g.regions, e.g.regOverflow)
  counters : (g'.loads, g'.stores, g'.engine, g'.tile) = (e.g.loads, e.g.stores, e.g.engine, e.g.tile)

/-- What becomes of the frames (R133, R134): a frame that is there before and after keeps its registers but those
that the word writes, and a frame goes only when no lane needs it. `written` names depth, lane and register. -/
structure FramesKept (s : State) (e : Env) (written : Nat → Nat → Nat → Prop) (g' : Group) : Prop where
  regs : ∀ d f f', e.g.frames.find d = some f → g'.frames.find d = some f' →
    ∀ l r, r < 256 → r < f.size → r < f'.size → ¬ written d l r → f'.bank l r = f.bank l r
  gone : ∀ d f, e.g.frames.find d = some f → g'.frames.find d = none →
    ∀ l, (g'.lane l).blk ≠ 0xFFF → d ≤ (e.g.lane l).depth.toNat → d ≤ (g'.lane l).depth.toNat →
      s.demandAt e.md e.tm e.g l d = 0

/-- R136, R140: the words that call: their header, the register that they name, and the function of each lane. -/
def callOf : Instr → Option (Hdr × List (Nat × Nat) × (Env → Nat → Nat))
  | .call h fidx => some (h, [], fun _ _ => fidx.toNat)
  | .calli h va => some (h, [span false va], fun e l => e.reg1 0 l va)
  | .trap h _ => some (h, [], fun e _ => e.md.trap)
  | _ => none

/-- R136, R140: what a calling lane passes in register j. -/
def passedArg (i : Instr) (s : State) (e : Env) (fn l j : Nat) : Word :=
  match i with
  | .trap _ imm => if j = 0 then imm.setWidth 32 else if j = 1 then (e.g.lane l).blk.setWidth 32
      else (e.g.lane l).depth.setWidth 32
  | _ => e.reg 1 l ((s.descr e.md fn).argbase + j)

/-- R136, R140: how many registers a calling lane passes. -/
def passedCount (i : Instr) (s : State) (e : Env) (fn : Nat) : Nat :=
  match i with
  | .trap _ _ => 3
  | _ => (s.descr e.md fn).nargs

/-- The registers that the callees of the lanes at a depth need at the next one (R134). -/
def callSize (s : State) (e : Env) (fn : Nat → Nat) (k : Nat) : Nat :=
  (e.lanes.filter fun l => (e.g.lane l).depth.toNat == k).foldl (fun a l => max a (s.descr e.md (fn l)).demand)
    (e.g.frameSize (k + 1))

/-- The granules that a call takes (R136). -/
def callGranules (s : State) (e : Env) (fn : Nat → Nat) : Nat :=
  ((dedup (e.lanes.map fun l => (e.g.lane l).depth.toNat)).map fun k =>
    callSize s e fn k / 8 - e.g.frameSize (k + 1) / 8).foldl (· + ·) 0

/-- A gang that blocks at its word (R189): of its group only what it waits for, the run and the stops that its end lets
in change. -/
def Group.blockedOn (g : Group) (tag : Nat) (b : Block) (g' : Group) : Prop :=
  g' = { g with blocked := g.blocked.put tag b, blockedAt := g'.blockedAt, lastTag := tag, winTag := tag,
                halt := g'.halt, lastFault := g'.lastFault, stopNext := g'.stopNext, step := g'.step, pass := g'.pass }

/-! ## Words that issue an operation -/

/-- What the common rules of an access word need (R147, R148, R290, R291): its destination registers, the address of a
lane, its bytes, whether it writes and whether it works on full-empty bits. -/
structure AccessOp where
  h : Hdr
  len : Nat
  kind : AccKind
  vd : Reg
  dest : Nat
  reads : List (Nat × Nat)
  ea : Env → Nat → Nat
  size : Nat
  write : Bool
  fe : Bool
  order : BitVec 2
  scope : BitVec 3

/-- A load, store or full-empty word. -/
def memoryOp (o : MOp) (kind : AccKind) (n dest data : Nat) (write feOp : Bool) : AccessOp :=
  ⟨o.h, srcLen o.vb, kind, o.vd, dest,
    span true o.va :: srcSpan false o.vb ++ (if data = 0 then [] else [(o.vc.toNat, data)]),
    fun e l => addressAdd false (e.pair 0 l o.va) (sext 32 (e.src 1 .n32 l o.vb)), n, write, feOp || o.fe != 0, o.order,
    o.scope⟩

/-- An atomic. -/
def atomicOp (o : TOp) (kind : AccKind) (dest : Nat) : AccessOp :=
  ⟨o.h, srcLen o.vb, kind, o.vd, dest,
    span true o.va :: srcSpan o.fmt.wide o.vb ++ (if kind = .acas then [span o.fmt.wide o.vc] else []),
    fun e l => e.pair 0 l o.va, o.fmt.width / 8, false, false, o.order, o.scope⟩

/-- The access words (R147, R290). -/
def accessOf : Instr → Option AccessOp
  | .ld o => some (memoryOp o .ld (2 ^ o.size.toNat) ((2 ^ o.size.toNat + 3) / 4) 0 false false)
  | .lds o => some (memoryOp o .lds (2 ^ o.size.toNat) ((2 ^ o.size.toNat + 3) / 4) 0 false false)
  | .st o => some (memoryOp o .st (2 ^ o.size.toNat) 0 ((2 ^ o.size.toNat + 3) / 4) true false)
  | .feset o => some (memoryOp o .feset 16 0 0 true true)
  | .feclr o => some (memoryOp o .feclr 16 0 0 true true)
  | .fetest o => some (memoryOp o .fetest 16 1 0 false true)
  | .aadd o => some (atomicOp o .aadd (if o.fmt.wide then 2 else 1))
  | .amin o => some (atomicOp o .amin (if o.fmt.wide then 2 else 1))
  | .amax o => some (atomicOp o .amax (if o.fmt.wide then 2 else 1))
  | .aand o => some (atomicOp o .aand (if o.fmt.wide then 2 else 1))
  | .aor o => some (atomicOp o .aor (if o.fmt.wide then 2 else 1))
  | .axor o => some (atomicOp o .axor (if o.fmt.wide then 2 else 1))
  | .aexch o => some (atomicOp o .aexch (if o.fmt.wide then 2 else 1))
  | .acas o => some (atomicOp o .acas (if o.fmt.wide then 2 else 1))
  | .afadd o => some (atomicOp o .afadd (if o.fmt.wide then 2 else 1))
  | .ofadd o => some (atomicOp o .ofadd 0)
  | _ => none

/-- The format of an atomic, for its further checks (R291). -/
def atomicFmt : Instr → Option Fmt
  | .aadd o | .amin o | .amax o | .aand o | .aor o | .axor o | .aexch o | .acas o | .afadd o | .ofadd o => some o.fmt
  | _ => none

/-- The registers that an access word names, its destination first. -/
def AccessOp.regs (x : AccessOp) : List (Nat × Nat) := (if x.dest = 0 then [] else [(x.vd.toNat, x.dest)]) ++ x.reads

/-- What the checks of R148 and, for an atomic, of R291 say of a lane. -/
def laneCheck (i : Instr) (x : AccessOp) (s : State) (e : Env) (l : Nat) : Chk :=
  match s.checkAccess (e.party l) e.core (x.ea e l) x.size x.size x.write x.fe with
  | .ok t nc fill =>
    match (atomicFmt i).bind fun f => s.atomicMore (e.party l) x.kind f (x.ea e l) t with
    | some c => .bad c
    | none => .ok t nc fill
  | r => r

/-- No watchpoint stops the group before an access of the launch (R347). -/
def State.noStops (s : State) (ctx : Nat) : Prop := ∀ p ∈ s.watch, p.2.ctx = ctx → p.2.stop = false

/-- A destination that an asynchronous word writes (R84). -/
def AccessOp.writes (x : AccessOp) (e : Env) (lane reg : Nat) : Prop :=
  lane ∈ e.lanes ∧ x.vd.toNat ≤ reg ∧ reg < x.vd.toNat + x.dest

/-! ## Words that queue a job or a tile operation -/

/-- R254: the copy words. -/
def copyOf : Instr → Option (EOp × CopyKind)
  | .copy o => some (o, .copy)
  | .gather o => some (o, .gather)
  | .scatter o => some (o, .scatter)
  | _ => none

/-- R268: the selection words; true for `scmp`. -/
def selOf : Instr → Option (EOp × Bool)
  | .srank o => some (o, false)
  | .scmp o => some (o, true)
  | _ => none

/-- The registers that a copy or a selection word names. -/
def jobRegsOf (o : EOp) (useD useB : Bool) : List (Nat × Nat) :=
  (if useD then [span true o.vd] else []) ++ [span true o.va] ++ (if useB then [span true o.vb] else []) ++ [(o.vc.toNat, 8)]

/-- R226, R232: the words that name accumulator rows: header, first row divided by 16, and the registers that they
name and read. -/
def rowWord : Instr → Option (Hdr × BitVec 5 × List (Nat × Nat) × List (Nat × Nat))
  | .mma o => some (o.h, o.arow, [(o.va.toNat, rowRegs o.fmt)], [])
  | .accld o | .accst o => some (o.h, o.arow, [span true o.va], [span true o.va])
  | .accrd o => some (o.h, o.arow, [(o.vd.toNat, o.jf.toNat + 1)], [])
  | .accz o => some (o.h, o.arow, [], [])
  | _ => none

/-- Every entry of a team that has not completed still waits for a group (R219). -/
def State.entriesWait (s : State) (team : Nat) : Prop :=
  ∀ p ∈ s.entries, p.2.team = team → p.2.complete = false → p.2.full = false ∧ s.lacksRetired p.2 = false


/-! ## Events -/

/-- R187: does a ready group come before another? -/
def comesBefore (s : State) (a b : Group) : Bool :=
  let p := a.pass.toNat
  let q := b.pass.toNat
  if 32 ≤ p ∨ 32 ≤ q then decide (q < p) || (p == q && decide (a.slot < b.slot))
  else decide (s.priorityOf a < s.priorityOf b) || (s.priorityOf a == s.priorityOf b &&
    (decide (q < p) || (p == q && decide (a.slot < b.slot))))

/-- An event changes of the groups only one. -/
def State.onlyGroup (s t : State) (gk : Nat) (g' : Group) : Prop :=
  t.group gk = some g' ∧ ∀ k, k ≠ gk → t.group k = s.group k

/-- A lane of an access word is performed (R154): it is done, the word completes with its last lane, and only then its
counter falls by one. -/
structure LaneDone (s t : State) (gk : Nat) (g : Group) (a : Access) (x : LaneAcc) (g' : Group) : Prop where
  group : s.onlyGroup t gk g'
  access : ∃ a', g'.access a.id = some a' ∧
    a'.lanes = a.lanes.map (fun y => if y.lane = x.lane then { y with done := true, queued := false } else y) ∧
    a'.complete = a'.lanes.all (·.done) ∧
    (g'.loads, g'.stores) =
      if a'.complete then (if a.kind.isLoad then (g.loads - 1, g.stores) else (g.loads, g.stores - 1))
      else (g.loads, g.stores)

/-- Every launch stands as it was, but that its wait may be over (R320). -/
def State.sameLaunches (s t : State) : Prop :=
  t.launches.map (fun p => (p.1, { p.2 with waitMet := false })) = s.launches.map fun p => (p.1, { p.2 with waitMet := false })

/-- A frame of a depth stands where data reaches its registers below `top`: they lie in it (log entry 66), and it is not
in the spill area (R196). -/
def Group.frameHere (g : Group) (d top : Nat) : Prop :=
  ∃ f, g.frames.find d = some f ∧ top ≤ f.size ∧ ∀ u n since, f.place ≠ .spilled u n since

/-- No selection job owns a byte of n at a home that a word or job reads (R279). -/
def State.unowned (s : State) (gk id a n : Nat) : Prop := ∀ j < n, s.ownedByte gk id (a + j) = false

/-- A core's cache has room for the line of an address (R288). -/
def State.cacheRoom (s : State) (core pa : Nat) : Prop :=
  (∃ p ∈ s.cacheOf core, p.1 / 128 = pa / 128) ∨ (dedup ((s.cacheOf core).map fun p => p.1 / 128)).length < 2048

/-- The next lane of an access of a group may be performed now (R149, R151). -/
structure NextLane (s : State) (gk id : Nat) (g : Group) (a : Access) (x : LaneAcc) : Prop where
  group : s.group gk = some g
  access : g.access id = some a
  next : a.next = some x
  lane : a.lanes.find? (fun y => y.lane == x.lane) = some x
  order : g.mayPerform a x = true

/-- The words of a result stand in the bank, but where a later word has written (R84). -/
def Group.holdsWords (g' : Group) (a : Access) (x : LaneAcc) (v n : Nat) : Prop :=
  ∀ r < n, ¬ regKey x.depth.toNat x.lane (a.vd + r) ∈ a.stale →
    g'.bankAt x.depth.toNat x.lane (a.vd + r) = some (BitVec.ofNat 32 (v / 2 ^ (32 * r)))

/-- Memory holds the n bytes of a number at an address, and every other byte is as it was. -/
def wroteOnly (s t : State) (a n v : Nat) : Prop :=
  ∀ b, Memory.byte t.mem b =
    if a ≤ b ∧ b < a + n then BitVec.ofNat 8 (v / 256 ^ (b - a)) else Memory.byte s.mem b

/-- R290: the new memory value of an integer atomic from the old one and sources B and C. -/
def atomicResult (k : AccKind) (f : Fmt) (old b c : Nat) : Option Nat :=
  match k with
  | .aadd => some ((old + b) % 2 ^ f.width)
  | .amin => some (if intVal f b < intVal f old then b else old)
  | .amax => some (if intVal f old ≤ intVal f b then b else old)
  | .aand => some (Nat.land old b)
  | .aor => some (Nat.lor old b)
  | .axor => some (Nat.xor old b)
  | .aexch => some b
  | .acas => some (if old = c then b else old)
  | _ => none

/-- R294: contributions added one by one, each sum rounded to nearest even. -/
def orderedSum (f : Fmt) (x : Nat) (cs : List Contribution) : Nat :=
  cs.foldl (fun x c =>
    let a := decodeF f x
    let b := decodeF f (c.value % 2 ^ f.width)
    (addVal f FEnv.plain [a, b] a b).1 % 2 ^ f.width) x

/-- A frame was moved between the pool and the spill area (R198): its place alone has changed. -/
def Frame.movedTo (f : Frame) (p : FramePlace) (f' : Frame) : Prop := f' = { f with place := p, stamp := f'.stamp }

/-- The arrivals of a core's entries that wait to be captured (R219): the entry's key, the entry, the arrival. -/
def State.waitingArrivals (s : State) (core : Nat) : List (Nat × Entry × Arrival) :=
  s.entries.flatMap fun p =>
    if (s.teams.find p.2.team).map (fun tm => (tm.core, tm.saved)) = some (core, false) then
      (p.2.arrivals.filter fun a => a.rows.isNone).map fun a => (p.1, p.2, a)
    else []

/-- R229: does an entry come before another at a boundary? -/
def boundaryBefore (s : State) (a b : Entry) : Bool :=
  let snum (n : Entry) : Nat := ((s.teams.find n.team).map (·.snum)).getD 0
  decide (b.prio < a.prio) || (a.prio == b.prio && (decide (a.completedAt < b.completedAt) ||
    (a.completedAt == b.completedAt && decide (snum a < snum b))))

/-- R231: the arrays of a die that left idleness in the last 100 ns. -/
def State.startedLately (s : State) (die : Nat) : Nat :=
  (s.arrays.filter fun p => p.1 / 96 == die && (match p.2.startedAt with
    | some t => decide (s.time.toNat < t.toNat + 100)
    | none => false)).length

/-- No tile operation of a team has completed that no `wait` has covered yet. -/
def State.tilesOpen (s : State) (team : Nat) : Prop :=
  ∀ k ∈ s.teamGroups team, ∀ g, s.group k = some g → ∀ o ∈ g.tiles, o.complete = false

/-- A physical bank of a core holds a weight tile (R222, R230, R265): the bytes of its arrays, under its tag; an empty
bank took it, or, where both were taken, one that the entry in execution does not use, and of two such the one used
longer ago. -/
def State.holdsTile (t s : State) (core team bank : Nat) (b : LBank) : Prop :=
  ∃ key pb, (key = 2 * core ∨ key = 2 * core + 1) ∧ t.banks.find key = some pb ∧
    (∀ k, k ≠ key → t.banks.find k = s.banks.find k) ∧
    ((s.banks.find (2 * core)).isNone ∨ (s.banks.find (2 * core + 1)).isNone → (s.banks.find key).isNone) ∧
    (∀ x y, s.banks.find (2 * core) = some x → s.banks.find (2 * core + 1) = some y → s.bankInUse core ≠ some key ∧
      (s.bankInUse core = none → ∀ z, s.banks.find key = some z → z.used ≤ x.used ∧ z.used ≤ y.used)) ∧
    (pb.team, pb.bank, pb.gen, pb.fmt, pb.ecc) = (team, bank, b.gen, b.fmt, false) ∧
    pb.elems = Memory.bytes s.mem b.elem (tileBytes b.fmt).1 ∧
    pb.scales = Memory.bytes s.mem b.scale (tileBytes b.fmt).2.1 ∧
    pb.extras = Memory.bytes s.mem b.extra (tileBytes b.fmt).2.2

/-- A tile operation of a group has completed: its counter falls by one. -/
def Group.tileDone (g : Group) (id : Nat) (g' : Group) : Prop :=
  g'.tile = g.tile - 1 ∧ (∀ t ∈ g'.tiles, t.id = id → t.complete = true) ∧ g'.tiles.map (·.id) = g.tiles.map (·.id)

/-- Some teams have been latched for a pre-emption (R327, R328), but for the saved ones (R329): a run of theirs that was
stalled at issue is over, and all else stands but for the stops that their groups owed then (R347). -/
structure State.latched (s : State) (ts : List Nat) (t : State) : Prop where
  rest : t = { s with teams := t.teams, groups := t.groups, runs := t.runs, ctxs := t.ctxs }
  latch : ∀ k ∈ ts, ∀ tm, s.teams.find k = some tm → tm.saved = false →
    (t.teams.find k).map (fun x => { x with requests := [] }) = some { tm with latched := true, requests := [] }
  saved : ∀ k tm, s.teams.find k = some tm → tm.saved = true → (t.teams.find k).map (·.latched) = some tm.latched
  others : ∀ k, k ∉ ts → t.teams.find k = s.teams.find k
  runs : ∀ p ∈ t.runs, p ∈ s.runs ∧ (p.2.gk / 16 ∈ ts → p.2.stalled = true →
    ∀ tm, s.teams.find (p.2.gk / 16) = some tm → tm.saved = true)
  groups : ∀ k g, s.group k = some g → (g.stopNext = none ∨ k / 16 ∉ ts) → t.group k = some g

/-- A group `x`, as its save frame has it, is back in its slot and goes on (R330, R338), with no access to issue again. -/
structure Group.returned (x g' : Group) : Prop where
  place : (g'.saved, g'.resident, g'.halt, g'.pass) = (false, true, none, 0)
  lanes : (g'.lanes, g'.slices) = (x.lanes, x.slices)
  special : (g'.mode, g'.flags, g'.window, g'.regions, g'.crew) = (x.mode, x.flags, x.window, x.regions, x.crew)
  counters : (g'.loads, g'.stores, g'.engine, g'.tile) = (x.loads, x.stores, x.engine, x.tile)
  bank : ∀ d lane r, g'.bankAt d lane r = x.bankAt d lane r

/-! ## Commands of the owner (R361) -/

/-- The commands: opcode and the payload bytes that hold fields (offset, size). -/
def commandOf : Instr → Option (Nat × List (Nat × Nat))
  | .createContext => some (0x01, [(0, 7), (8, 8)])
  | .destroyContext => some (0x02, [(0, 2)])
  | .bindHostQueue => some (0x03, [(0, 4)])
  | .translationInvalidate => some (0x04, [(0, 2), (8, 16)])
  | .postMigrationRecord => some (0x05, [(0, 3), (8, 16)])
  | .releaseMigrationRecord => some (0x06, [(0, 2), (8, 8)])
  | .preEmpt => some (0x07, [(0, 12)])
  | .endLaunch => some (0x08, [(0, 4)])
  | .faultResponse => some (0x09, [(0, 5), (8, 8)])
  | .codeBreakpoint => some (0x0A, [(0, 8)])
  | .regionStop => some (0x0B, [(0, 7)])
  | .watchpoint => some (0x0C, [(0, 2), (8, 16)])
  | .timeSeries => some (0x0D, [(0, 2), (4, 20)])
  | .sampling => some (0x0E, [(0, 16)])
  | .readErrorLog => some (0x0F, [(0, 1), (2, 4), (8, 8)])
  | .loadAtomicPathTable => some (0x10, [(0, 4), (8, 8)])
  | .assignMsiXVectors => some (0x11, [(0, 1), (2, 4)])
  | .attest => some (0x12, [(0, 16)])
  | .writeFirmwareSlot _ => some (0x13, [(0, 1), (4, 12)])
  | _ => none

/-- A command stands at the head of the ring at `a`, its entry is `e`, and its reserved bytes are 0. -/
def Commanded (i : Instr) (s : State) (a : Nat) (e : List Byte) : Prop :=
  s.commandHead = some (a, e) ∧ ∃ op listed, commandOf i = some (op, listed) ∧ field e 0 2 = op ∧
    reservedZero e listed = true

/-- The command ends with status 0, its effect is `s'`. -/
def Did (i : Instr) (s : State) (a : Nat) (s' : State) : Prop := exec i s = .next (s'.endCommand a 0)

/-- The command ends with status 2 and no effect. -/
def Refuses (i : Instr) (s : State) (a : Nat) : Prop := exec i s = .next (s.endCommand a 2)

/-- The master is the owner of a device that serves (R363, R366). -/
def State.served (s : State) (m : Nat) : Prop :=
  (m = 0 ∨ m = 0x40 ∨ (0x80 ≤ m ∧ m < 0x90)) ∧ s.owner = BitVec.ofNat 32 (0x100 + m) ∧ s.boot.status ≠ 2

/-- A reset leaves only what outlives it: the flash, the configuration image, the ports, and what lies outside the
package; every launch and every table is gone and nobody owns the device (R367). -/
def State.restarted (s t : State) (step : BitVec 8) (warm : Bool) : Prop :=
  t = { State.reset with
    boot := ⟨0, step, s.boot.slot, warm, s.boot.newest⟩, flash := s.flash, image := s.image, mem := t.mem, poison := t.poison,
    latent := { State.reset.latent with blocks1 := t.latent.blocks1 },
    portsDown := s.portsDown, msix := s.msix, hostRead := s.hostRead, agenda := s.agenda, seq := s.seq, free := s.free }

/-- Only host memory keeps its bytes. -/
def State.onlyHostMemory (s t : State) : Prop :=
  t.poison = [] ∧ t.latent.blocks1 = [] ∧ ∀ b, Memory.byte t.mem b = if 2 ^ 51 ≤ b ∧ b < 2 ^ 52 then Memory.byte s.mem b else 0

end Sys2Proof.Machine
end

