-- ==== Sys2Proof/Certificates/Slice0/Obligations.lean ====
section
/-! DEFINITION. The statements for the provers. -/

open Sys2Proof Sys2Proof.Machine

/-! ## Decoding and the step -/

/-- Words written out from the encodings of R34, R39, R44, R46 and R47 decode to what they stand for. -/
def Obligations.DecodesWrittenWords : Prop :=
  decode 0x80A4085018380008 0 =
    .ok (.fadd ⟨⟨true, 5⟩, true, 10, 3, .reg 7, 0, .f32, .rtz, .off, false⟩) ∧
  decode 0x20614102445060A2 0 =
    .ok (.pairAdd ⟨false, 3⟩ ⟨true, 4, 9, 0⟩ ⟨.fmul, ⟨true, 6, 10, 1⟩⟩) ∧
  decode 0x4021D8A000000480 0x1122334455667788 =
    .ok (.mov ⟨⟨false, 1⟩, true, 20, 0, .lit 0 0x1122334455667788, 0, .i32, .rne, .off, false⟩) ∧
  decode 0x0024386020283000 0 =
    .ok (.fma ⟨⟨false, 1⟩, true, 12, 4, .reg 5, 6, .f32, .rne, .off, false⟩) ∧
  decode 0x00341000300900A8 0 = .ok (.brc ⟨false, 1⟩ 6 0x012 0x015) ∧
  decode 0x402C084050000250 0x40 =
    .ok (.ld ⟨⟨false, 1⟩, true, 8, 10, .lit 0 0x40, 0, 2, 1, 2, false, 0⟩) ∧
  decode 0x00300840506005A8 0 =
    .ok (.aadd ⟨⟨false, 1⟩, true, 8, 10, .reg 12, 0, .n32, 2, 4, false⟩) ∧
  decode 0x0039A002001008C3 0 = .ok (.mma ⟨⟨false, 1⟩, 64, 2, false, true, .bf16, .rne, 1, true⟩) ∧
  decode 0x0039C0014010001F 0 = .ok (.accst ⟨⟨false, 1⟩, 0, 40, 2, 0, .f32, 31⟩) ∧
  decode 0x00388070506080A1 0 = .ok (.srank ⟨⟨false, 1⟩, 14, 10, 12, 16, .f16, 33⟩) ∧
  decode 0x003C500000091800 0 = .ok (.enter ⟨false, 1⟩ 0x0123)

/-- Decoding the encoding of a well-formed instruction gives it back, with every operand at every value that its
encoding admits; an instruction without a literal is read whatever stands behind it. -/
def Obligations.EncodeDecodeAgree : Prop :=
  ∀ (i : Instr) (lit : Dword), i.wf = true → decode i.encode.1 (i.encode.2.getD lit) = .ok i

/-- R43 steps 1 and 2: form 0b11 and a pair word with bit 0 set are `ILL_FORM` words whatever else they hold; any
other word whose mask is 0 is a no-op, and only its form is acted on. Both come before every other check. -/
def Obligations.FormAndEmptyMaskComeFirst : Prop :=
  ∀ w lit : Dword,
    ((num w 61 2 = 3 ∨ (num w 61 2 = 1 ∧ w.getLsbD 0 = true)) → decode w lit = .ok (.unassignedOpcode (hdrOf w) true)) ∧
    (num w 61 2 ≠ 3 → ¬ (num w 61 2 = 1 ∧ w.getLsbD 0 = true) → num w 53 8 = 0 →
      decode w lit = .ok (.nop (hdrOf w) (if num w 61 2 = 2 then some lit else none)))

/-- Where the agenda lets an issue slot issue, and its run's position lies in the state's code and holds a word that
decodes, the step is the meaning of that word, with `cur` naming the slot. The fetch itself changes the loop buffer,
which keeps the word, and, of a word that the buffer does not hold, corrects single-bit errors (R287) and pulls the line
of a migrating frame (R302); nothing else. The word is that of memory where no body in the loop buffer covers its offset (R190).
A literal form that would be the run's 24th word does not issue in this run. The agenda is the model's choice (log
entry 2), and so is what a literal at the end of a run does (log entry 21). -/
def Obligations.StepRunsTheFetchedWord : Prop :=
  ∀ (s s0 s1 : State) (core slot : Nat) (rest : List Move) (p : At) (w : Dword) (i : Instr),
    s.agenda = .issue core slot :: rest →
    s0 = { s with agenda := rest, seq := s.seq + 1, cur := (core, slot) } → s1 = s0.captureNext core slot →
    s0.position core slot = some p → s0.outside p = false → w = s0.wordOf p 0 →
    ¬ (num w 61 2 = 2 ∧ p.run.words = 23) → s0.badFetch p = false →
    decode w (s0.wordOf p 1) = .ok i →
    step s = exec i s1 ∧
      s1 = { s0 with loopBuf := s1.loopBuf, latent := s1.latent, errStack := s1.errStack, errCluster := s1.errCluster,
                     mem := s1.mem, poison := s1.poison, gran := s1.gran, migs := s1.migs } ∧
      (s0.migs = [] → s0.latent.blocks1 = [] → s0.latent.granules1 = [] → s1 = { s0 with loopBuf := s1.loopBuf }) ∧
      ∀ j, (∀ b ∈ s0.bodies p.core, b.covers p.handle p.st (p.off + j) = false) →
        s0.wordOf p j = s0.codeWord p.md p.st (p.off + j)

/-- Where the agenda names an event of the table, the step is the meaning of that event. The agenda is the model's
choice (log entry 2). -/
def Obligations.StepRunsTheAgendaEvent : Prop :=
  ∀ (s : State) (i : Instr) (rest : List Move),
    s.agenda = .event i :: rest → i.hdr = none → step s = exec i { s with agenda := rest, seq := s.seq + 1 }

/-- R42: a fetch that lies, or whose literal lies, past the last word of the state's code takes `FETCH_RANGE`. R43: an
unassigned opcode takes `ILL_OP`, a wrong form `ILL_FORM`. Those faults are the whole effect of the events
`fetchPastStateCode` and `unassignedOpcode`, which complete with them. That a missing literal counts as past the end
is the model's reading (log entry 21). -/
def Obligations.FetchFaults : Prop :=
  (∀ (s : State) (m : BitVec 8) (e : Env) (p : At),
    s.env m = some e → s.position s.cur.1 s.cur.2 = some p → s.outside p = true →
    ∃ t, exec .fetchPastStateCode s = .next t ∧ FaultTaken s t e 0x06 0 0) ∧
  ∀ (s : State) (h : Hdr) (illForm : Bool) (e : Env), s.env h.m = some e →
    ∃ t, exec (.unassignedOpcode h illForm) s = .next t ∧ FaultTaken s t e (if illForm then 0x01 else 0x02) 0 0

/-- R35, R95: every word whose mask names a slot that the state does not have takes `ILL_MEMB` and commits nothing.
R36, R98: a lane word one of whose registers lies beyond the frame of an active lane takes `FRAME_RANGE` for the
lowest such lane and commits nothing. -/
def Obligations.MemberAndFrameFaults : Prop :=
  (∀ (i : Instr) (s : State) (h : Hdr) (e : Env),
    i.hdr = some h → (∀ x f, i ≠ .unassignedOpcode x f) → s.env h.m = some e → 2 ^ e.slots.length ≤ h.m.toNat →
    ∃ t, exec i s = .next t ∧ FaultTaken s t e 0x05 0 0) ∧
  ∀ (i : Instr) (w : LaneWord) (s : State) (e : Env) (l : Nat),
    laneWordOf i = some w → s.env w.h.m = some e → w.h.m ≠ 0 → w.h.m.toNat < 2 ^ e.slots.length →
    l ∈ e.lanes →
    (∃ x ∈ w.dest :: w.reads, e.g.frameSize (e.g.lane l).depth.toNat < x.1 + x.2) →
    (∀ l' ∈ e.lanes, l' < l → ∀ x ∈ w.dest :: w.reads, x.1 + x.2 ≤ e.g.frameSize (e.g.lane l').depth.toNat) →
    ∃ t, exec i s = .next t ∧ FaultTaken s t e 0x10 0 l

/-- R35, R57: `nop`, and every word with an empty mask, completes and leaves lanes, slices, special registers, regions,
counters, registers, memory and every table as they were; it still counts in the forwarding window. Where its gang stands
then, `PositionsAndBackEdges` says; what the end of any word may bring (event counts, the end of the run, a stop that
falls due, with its record) it may bring too. -/
def Obligations.NopDoesNothing : Prop :=
  ∀ (h : Hdr) (lit : Option Dword) (s : State) (e : Env),
    s.env h.m = some e → (h.m = 0 ∨ Ready h none [] [] s e) →
    Completes (.nop h lit) s e fun t g' => Spared s t e e.g noReg noReg g'

/-! ## Words that write registers lane by lane -/

/-- R83, R98: a lane word that passes its checks completes. It gives its destination in each active lane a value,
which the next words of the gang read and which, with `k`, the bank holds; every other register of every lane, in the
window and in the bank, and all else stands, but for flags that it adds.
The lane words are those of `laneWordOf`: `add`, `sub`, `mul`, `mulhi`, `mulw`, `mad`, `madw`, `min`, `max`, `abs`,
`neg`, `and`, `or`, `xor`, `andn`, `not`, `shl`, `shr`, `sra`, `rol`, `ror`, `bfx`, `bfi`, `brev`, `popc`, `clz`, `ctz`,
`cmp`, `sel`, `mov`, `adda`, `addsc`, `fadd`, `fsub`, `fmul`, `fma`, `fmin`, `fmax`, `fminn`, `fmaxn`, `fabs`, `fneg`,
`fcmp`, `fclass`, `frint`, `fscale`, `cvt`, `rcps`, `rsqs`, `cord`, `shfl`, `red`, `scan`, `ballot`, `any`, `all`,
`matchLanes`, `sptest`, `spcast` and `movs`. -/
def Obligations.LaneWordsComplete : Prop :=
  ∀ (i : Instr) (w : LaneWord) (s : State) (e : Env), LaneReady i w s e →
    Completes i s e fun t g' =>
      (∃ fl, Spared s t e { e.g with flags := e.g.flags ||| fl } (fun l r => w.k = true ∧ w.writes e l r) (w.writes e) g') ∧
      ∀ l r, w.writes e l r → ∃ v, g'.seen l r = some v ∧
        (w.k = true → (e.g.frames.find (e.g.lane l).depth.toNat).isSome →
          g'.bankAt (e.g.lane l).depth.toNat l r = some v)

/-- R101, R102: each integer word writes its exact value, clamped to the result format where saturation is on and
reduced modulo 2^W where it is off; it sets `SAT` when a lane's value was clamped, and no other flag. -/
def Obligations.IntegerResults : Prop :=
  ∀ (i : Instr) (w : LaneWord) (o : AOp) (res : Fmt) (v : Int → Int → Int → Int) (s : State) (e : Env),
    LaneReady i w s e → intValue i = some (o, res, v) →
    let sat := resolveSat e.g.mode o.sat
    let exact (l : Nat) : Int :=
      v (intVal o.fmt (e.val 0 o.fmt l o.va)) (intVal o.fmt (e.src 1 o.fmt l o.vb)) (intVal res (e.val 2 res l o.vc))
    let clamped (l : Nat) : Prop := exact l < leastOf res ∨ greatestOf res < exact l
    Completes i s e fun _ g' =>
      (∀ l ∈ e.lanes, g'.shows res l o.vd
        ((if sat then max (leastOf res) (min (exact l) (greatestOf res)) else exact l) % 2 ^ res.width).toNat) ∧
      (sat = true → (∃ l ∈ e.lanes, clamped l) → g'.flags = e.g.flags ||| 0x20) ∧
      ((sat = false ∨ ¬ ∃ l ∈ e.lanes, clamped l) → g'.flags = e.g.flags)

/-- R103: `and`, `or`, `xor`, `andn` and `not` act on each of the N bits by itself. R103: shifts and rotates of the N
bits of A by source B as n32: modulo N, or with `x` saturating at N in a shift. -/
def Obligations.LogicAndShiftResults : Prop :=
  (∀ (i : Instr) (w : LaneWord) (o : AOp) (f : Bool → Bool → Bool) (s : State) (e : Env),
    LaneReady i w s e → logicBit i = some (o, f) →
    Completes i s e fun _ g' => g'.flags = e.g.flags ∧ ∀ l ∈ e.lanes, ∃ x,
      g'.shows o.fmt l o.vd x ∧ x < 2 ^ o.fmt.width ∧
      ∀ j < o.fmt.width, x.testBit j = f ((e.val 0 o.fmt l o.va).testBit j) ((e.src 1 o.fmt l o.vb).testBit j)) ∧
  ∀ (i : Instr) (w : LaneWord) (o : AOp) (rotate : Bool) (f : (n : Nat) → BitVec n → Nat → BitVec n) (s : State)
    (e : Env), LaneReady i w s e → shiftValue i = some (o, rotate, f) →
    let count (l : Nat) : Nat :=
      if o.x && !rotate then min (e.src 1 .n32 l o.vb) o.fmt.width else e.src 1 .n32 l o.vb % o.fmt.width
    Completes i s e fun _ g' => g'.flags = e.g.flags ∧
      ∀ l ∈ e.lanes, g'.shows o.fmt l o.vd (f o.fmt.width (BitVec.ofNat _ (e.val 0 o.fmt l o.va)) (count l)).toNat

/-- R104: `bfx` takes a field out of A, extended by the signedness of the format; `bfi` puts A into a field of C.
R105: `popc` counts the ones of the N bits of A, `clz` the zeros above the highest one, `ctz` those below the lowest
one (N where there is none); `brev` reverses the bits. The counts fill one 32-bit register. -/
def Obligations.FieldAndCountResults : Prop :=
  (∀ (o : AOp) (w : LaneWord) (s : State) (e : Env),
    let n := o.fmt.width
    let fld (l : Nat) : Nat × Nat := bitField n (e.src 1 .n32 l o.vb)
    (LaneReady (.bfx o) w s e → Completes (.bfx o) s e fun _ g' => g'.flags = e.g.flags ∧
      ∀ l ∈ e.lanes, ∃ x, g'.shows o.fmt l o.vd x ∧ x < 2 ^ n ∧ ∀ j < n,
        x.testBit j = if j < (fld l).1 then (e.val 0 o.fmt l o.va).testBit ((fld l).2 + j)
          else o.fmt.isSigned && 0 < (fld l).1 && (e.val 0 o.fmt l o.va).testBit ((fld l).2 + (fld l).1 - 1)) ∧
    (LaneReady (.bfi o) w s e → Completes (.bfi o) s e fun _ g' => g'.flags = e.g.flags ∧
      ∀ l ∈ e.lanes, ∃ x, g'.shows o.fmt l o.vd x ∧ x < 2 ^ n ∧ ∀ j < n,
        x.testBit j = if (fld l).2 ≤ j ∧ j < (fld l).2 + (fld l).1 then (e.val 0 o.fmt l o.va).testBit (j - (fld l).2)
          else (e.val 2 o.fmt l o.vc).testBit j)) ∧
  ∀ (o : AOp) (w : LaneWord) (s : State) (e : Env),
    let n := o.fmt.width
    let a (l : Nat) : Nat := e.val 0 o.fmt l o.va
    (LaneReady (.popc o) w s e → Completes (.popc o) s e fun _ g' => g'.flags = e.g.flags ∧
      ∀ l ∈ e.lanes, g'.shows32 l o.vd (BitVec.ofNat 32 ((List.range n).countP fun j => (a l).testBit j))) ∧
    (LaneReady (.clz o) w s e → Completes (.clz o) s e fun _ g' => g'.flags = e.g.flags ∧
      ∀ l ∈ e.lanes, ∃ x ≤ n, g'.shows32 l o.vd (BitVec.ofNat 32 x) ∧
        (∀ j < n, n - x ≤ j → (a l).testBit j = false) ∧ (x < n → (a l).testBit (n - 1 - x) = true)) ∧
    (LaneReady (.ctz o) w s e → Completes (.ctz o) s e fun _ g' => g'.flags = e.g.flags ∧
      ∀ l ∈ e.lanes, ∃ x ≤ n, g'.shows32 l o.vd (BitVec.ofNat 32 x) ∧
        (∀ j < x, (a l).testBit j = false) ∧ (x < n → (a l).testBit x = true)) ∧
    (LaneReady (.brev o) w s e → Completes (.brev o) s e fun _ g' => g'.flags = e.g.flags ∧
      ∀ l ∈ e.lanes, ∃ x, g'.shows o.fmt l o.vd x ∧ x < 2 ^ n ∧ ∀ j < n, x.testBit j = (a l).testBit (n - 1 - j))

/-- R106, R107: `cmp` writes 1, or all ones with `x`, where the condition holds of A and B in the format, else 0;
`sel` writes A where C is not zero, else B, by element in a packed format; `mov` writes B. None sets a flag. -/
def Obligations.CompareSelectMove : Prop :=
  ∀ (w : LaneWord) (s : State) (e : Env),
    (∀ o : COp, LaneReady (.cmp o) w s e → Completes (.cmp o) s e fun _ g' => g'.flags = e.g.flags ∧
      ∀ l ∈ e.lanes, g'.shows32 l o.vd
        (if condTrue o.cond (intVal o.fmt (e.val 0 o.fmt l o.va)) (intVal o.fmt (e.src 1 o.fmt l o.vb)) then
          (if o.x then 0xFFFFFFFF else 1) else 0)) ∧
    (∀ o : AOp, LaneReady (.sel o) w s e → Completes (.sel o) s e fun _ g' => g'.flags = e.g.flags ∧
      ∀ l ∈ e.lanes,
        let a := e.val 0 o.fmt l o.va
        let b := e.src 1 o.fmt l o.vb
        let c := e.reg 2 l o.vc.toNat
        if o.fmt.isPacked then
          g'.shows32 l o.vd
            ((if c.extractLsb' 16 16 ≠ 0 then BitVec.ofNat 16 (a / 2 ^ 16) else BitVec.ofNat 16 (b / 2 ^ 16)) ++
              (if c.extractLsb' 0 16 ≠ 0 then BitVec.ofNat 16 a else BitVec.ofNat 16 b))
        else g'.shows o.fmt l o.vd (if c ≠ 0 then a else b)) ∧
    (∀ o : AOp, LaneReady (.mov o) w s e → Completes (.mov o) s e fun _ g' => g'.flags = e.g.flags ∧
      ∀ l ∈ e.lanes, g'.shows o.fmt l o.vd (e.src 1 o.fmt l o.vb))

/-- R108: `adda` and `addsc` add an offset to an address within the offset field of its window; with `x` an offset
that leaves the field makes the top byte 0xFF; an address of no window takes the sum modulo 2^64. -/
def Obligations.AddressArithmetic : Prop :=
  ∀ (i : Instr) (w : LaneWord) (o : AOp) (off : Env → Nat → Int) (s : State) (e : Env),
    LaneReady i w s e → addressWord i = some (o, off) →
    Completes i s e fun _ g' => g'.flags = e.g.flags ∧ ∀ l ∈ e.lanes,
      let p := e.pair 0 l o.va
      ∃ x : Nat, x < 2 ^ 64 ∧ g'.showsPair l o.vd (BitVec.ofNat 64 x) ∧
        match offsetBits (p / 2 ^ 56) with
        | none => x = ((p + off e l) % 2 ^ 64).toNat
        | some n =>
          if o.x = true ∧ ((p % 2 ^ n : Nat) + off e l < 0 ∨ 2 ^ n ≤ (p % 2 ^ n : Nat) + off e l) then
            x % 2 ^ 56 = p % 2 ^ 56 ∧ x / 2 ^ 56 = 0xFF
          else x / 2 ^ n = p / 2 ^ n ∧ (x % 2 ^ n : Nat) = (p + off e l) % 2 ^ n

/-- R110: `fabs` clears the sign bit of each element and `fneg` inverts it, NaNs included; with `x` a packed word
keeps element 1. Neither sets a flag. R113: `fclass` sets the one bit of the class of a scalar's encoding, and no
flag. -/
def Obligations.SignAndClassResults : Prop :=
  (∀ (o : AOp) (w : LaneWord) (s : State) (e : Env),
    let n := o.fmt.width
    let signBits : List Nat := if o.fmt.isPacked then (if o.x then [15] else [15, 31]) else [n - 1]
    let a (l : Nat) : Nat := e.val 0 o.fmt l o.va
    (LaneReady (.fabs o) w s e → Completes (.fabs o) s e fun _ g' => g'.flags = e.g.flags ∧
      ∀ l ∈ e.lanes, ∃ x, g'.shows o.fmt l o.vd x ∧ x < 2 ^ n ∧
        ∀ j < n, x.testBit j = ((a l).testBit j && !signBits.contains j)) ∧
    (LaneReady (.fneg o) w s e → Completes (.fneg o) s e fun _ g' => g'.flags = e.g.flags ∧
      ∀ l ∈ e.lanes, ∃ x, g'.shows o.fmt l o.vd x ∧ x < 2 ^ n ∧
        ∀ j < n, x.testBit j = ((a l).testBit j != signBits.contains j))) ∧
  ∀ (o : AOp) (w : LaneWord) (s : State) (e : Env), LaneReady (.fclass o) w s e → o.fmt.isFloat = true →
    Completes (.fclass o) s e fun _ g' => g'.flags = e.g.flags ∧ ∀ l ∈ e.lanes,
      let p := fparam o.fmt
      let a := e.val 0 o.fmt l o.va
      let neg := a.testBit (o.fmt.width - 1)
      let ex := a / 2 ^ p.mbits % 2 ^ p.ebits
      let fr := a % 2 ^ p.mbits
      g'.shows32 l o.vd (BitVec.twoPow 32
        (if ex = 2 ^ p.ebits - 1 then
          (if fr = 0 then (if neg then 2 else 9) else if fr.testBit (p.mbits - 1) then 1 else 0)
        else if ex = 0 then
          (if fr = 0 then (if neg then 5 else 6) else if neg then 4 else 7)
        else if neg then 3 else 8))

/-- R13, R26, R30, R110: with NaN propagation off, a scalar float word with a NaN among its sources writes the
canonical NaN of its format, whatever its sign, and sets `INV` when one of them is signalling. R106: a scalar `fcmp`
with a NaN operand is true for `ne` and `unord` only; it sets `INV`, and no other flag, when an operand of some lane
is signalling or, with `sig`, any NaN. -/
def Obligations.NanAndUnorderedResults : Prop :=
  (∀ (i : Instr) (w : LaneWord) (o : AOp) (srcs : Env → Nat → List Nat) (s : State) (e : Env),
    LaneReady i w s e → nanWord i = some (o, srcs) → o.fmt.isFloat = true → e.g.mode.getLsbD 6 = false →
    Completes i s e fun _ g' => ∀ l ∈ e.lanes,
      ((srcs e l).any fun x => (decodeF o.fmt x).isNan) = true →
      g'.shows o.fmt l o.vd (match o.fmt with
        | .f64 => 0x7FF8000000000000
        | .f32 => 0x7FC00000
        | .f16 => 0x7E00
        | _ => 0x7FC0) ∧
      (((srcs e l).any fun x => (decodeF o.fmt x).isSnan) = true → g'.flags.getLsbD 0 = true)) ∧
  ∀ (o : COp) (w : LaneWord) (s : State) (e : Env), LaneReady (.fcmp o) w s e → o.fmt.isFloat = true →
    Completes (.fcmp o) s e fun _ g' =>
      let a (l : Nat) : FVal := decodeF o.fmt (e.val 0 o.fmt l o.va)
      let b (l : Nat) : FVal := decodeF o.fmt (e.src 1 o.fmt l o.vb)
      let raises (l : Nat) : Bool := (a l).isSnan || (b l).isSnan || (o.sig && ((a l).isNan || (b l).isNan))
      g'.flags = (if ∃ l ∈ e.lanes, raises l = true then e.g.flags ||| 1 else e.g.flags) ∧
      ∀ l ∈ e.lanes, ((a l).isNan || (b l).isNan) = true →
        g'.shows32 l o.vd (if o.cond = .ne ∨ o.cond = .unord then (if o.x then 0xFFFFFFFF else 1) else 0)

/-- R122, R124: `ballot` gathers the active lanes whose A is not zero, `match` those whose A is the lane's own, `any`
and `all` vote; `shfl` reads A of the lane that its operator names, or its own A, or 0 with `x`, where that lane is
not active. R123: an integer `red` writes the sum of A over the active lanes modulo 2^N to each of them; `scan` the sum
over those up to the lane, or below it with `x`. None sets a flag. -/
def Obligations.CrossLaneResults : Prop :=
  (∀ (o : XOp) (w : LaneWord) (s : State) (e : Env),
    let a (l : Nat) : Nat := e.val 0 o.fmt l o.va
    (LaneReady (.ballot o) w s e → Completes (.ballot o) s e fun _ g' => g'.flags = e.g.flags ∧
      ∀ l ∈ e.lanes, ∃ x : Dword, (if o.fmt = .n64 then g'.showsPair l o.vd x else g'.shows32 l o.vd (x.setWidth 32)) ∧
        ∀ j < 64, x.getLsbD j = (e.lanes.contains j && a j != 0)) ∧
    (LaneReady (.matchLanes o) w s e → Completes (.matchLanes o) s e fun _ g' => g'.flags = e.g.flags ∧
      ∀ l ∈ e.lanes, ∃ x : Dword, g'.showsPair l o.vd x ∧ ∀ j < 64, x.getLsbD j = (e.lanes.contains j && a j == a l)) ∧
    (LaneReady (.any o) w s e → Completes (.any o) s e fun _ g' => g'.flags = e.g.flags ∧
      ∀ l ∈ e.lanes, g'.shows32 l o.vd (if ∃ j ∈ e.lanes, a j ≠ 0 then 1 else 0)) ∧
    (LaneReady (.all o) w s e → Completes (.all o) s e fun _ g' => g'.flags = e.g.flags ∧
      ∀ l ∈ e.lanes, g'.shows32 l o.vd (if ∀ j ∈ e.lanes, a j ≠ 0 then 1 else 0)) ∧
    (LaneReady (.shfl o) w s e → Completes (.shfl o) s e fun _ g' => g'.flags = e.g.flags ∧
      ∀ l ∈ e.lanes,
        let b := e.src 1 .n32 l o.vb
        let from' : Int := if o.opr = 0 then b else if o.opr = 1 then (l : Int) - b else if o.opr = 2 then (l : Int) + b
          else ((l ^^^ b : Nat) : Int)
        (∀ j ∈ e.lanes, (j : Int) = from' → g'.shows o.fmt l o.vd (a j)) ∧
        ((∀ j ∈ e.lanes, (j : Int) ≠ from') → g'.shows o.fmt l o.vd (if o.x = 0 then a l else 0)))) ∧
  ∀ (o : XOp) (w : LaneWord) (s : State) (e : Env), o.fmt.isInt = true → o.opr = 0 →
    let sum (ls : List Nat) : Nat := (ls.map fun j => e.val 0 o.fmt j o.va).sum % 2 ^ o.fmt.width
    (LaneReady (.red o) w s e → Completes (.red o) s e fun _ g' => g'.flags = e.g.flags ∧
      ∀ l ∈ e.lanes, g'.shows o.fmt l o.vd (sum e.lanes)) ∧
    (LaneReady (.scan o) w s e → Completes (.scan o) s e fun _ g' => g'.flags = e.g.flags ∧
      ∀ l ∈ e.lanes, g'.shows o.fmt l o.vd
        (sum (e.lanes.filter fun j => if o.x = 0 then j ≤ l else j < l)))

/-- R48, R156: `movs` writes the special state that it names, `time` to a pair, and sets no flag. R28, R29, R157:
`movsm` gives `sx.mode` or `sx.flags` source B of the lowest active lane: reserved bits read 0, a rounding mode above
5 is written as 0; with no active lane it writes nothing. -/
def Obligations.SpecialReadsAndWrites : Prop :=
  (∀ (h : Hdr) (k : Bool) (vd : Reg) (sid : Sid) (w : LaneWord) (s : State) (e : Env),
    LaneReady (.movs h k vd sid) w s e →
    Completes (.movs h k vd sid) s e fun _ g' => g'.flags = e.g.flags ∧ ∀ l ∈ e.lanes,
      if sid = .time then g'.showsPair l vd s.time
      else g'.shows32 l vd (BitVec.ofNat 32 (specialValue e s.time l sid))) ∧
  ∀ (h : Hdr) (sid : Sid) (vb : Src) (s : State) (e : Env), (sid = .mode ∨ sid = .flags) →
    Ready h none (srcSpan false vb) (srcSpan false vb) s e →
    Completes (.movsm h sid vb) s e fun t g' =>
      ∃ mode flags, Spared s t e { e.g with mode := mode, flags := flags } noReg noReg g' ∧
        match e.lanes with
        | [] => mode = e.g.mode ∧ flags = e.g.flags
        | l :: _ =>
          let v : Word := BitVec.ofNat 32 (e.src 1 .n32 l vb)
          if sid = .mode then
            flags = e.g.flags ∧ mode = v &&& (if 5 < (v.extractLsb' 0 3).toNat then 0xFFFFFF78 else 0xFFFFFF7F)
          else mode = e.g.mode ∧ flags = v &&& 0x3FFF

/-- R145: `sptest` writes the window of an address, or 7, in bits 2 to 0, whether it is local in bit 3, and in bit 4
whether it is the window that the word asks for; addresses of the five windows, as R142 lays them out. -/
def Obligations.WindowTest : Prop :=
  ∀ (o : POp) (w : LaneWord) (s : State) (e : Env), LaneReady (.sptest o) w s e →
    Completes (.sptest o) s e fun _ g' => g'.flags = e.g.flags ∧ ∀ l ∈ e.lanes,
      let p := e.pair 0 l o.va
      let top := p / 2 ^ 56
      let unit := p % 2 ^ 48 / 2 ^ 24
      let found : Nat × Bool :=
        if top = 0 then (0, true)
        else if top = 0xA1 ∧ p / 2 ^ 32 % 2 ^ 24 = 0 then (1, true)
        else if top = 0xA2 ∧ p / 2 ^ 48 % 2 ^ 8 = 0 ∧ unit % 2 ^ 15 = 0 ∧ unit / 2 ^ 15 < 384 then (2, unit / 2 ^ 15 == e.core)
        else if top = 0xA3 ∧ p / 2 ^ 48 % 2 ^ 8 = 0 ∧ unit % 2 ^ 17 = 0 ∧ unit / 2 ^ 17 < 96 then
          (3, unit / 2 ^ 17 == e.core / 4)
        else if top = 0xA4 ∧ p / 2 ^ 48 % 2 ^ 8 = 0 ∧ unit % 2 ^ 17 = 0 ∧ unit / 2 ^ 17 % 2 ^ 5 < 24 then (4, true)
        else (7, false)
      g'.shows32 l o.vd (BitVec.ofNat 32 (found.1 + (if found.2 then 8 else 0) +
        (if found.1 = o.win.toNat then 16 else 0)))

/-! ## Pair words -/

/-- R40, R58: a pair word that passes its checks completes; both halves read their sources before either writes, each
writes its own destination under its own `k`, integer halves wrap and set no flag, and a `nop` half does nothing. The
pair words, one constructor for each first half: `pairNop`, `pairMov`, `pairAdd`, `pairSub`, `pairMul`, `pairAnd`,
`pairOr`, `pairXor`, `pairShl`, `pairShr`, `pairSra`, `pairMin`, `pairMax`, `pairAddi`, `pairShli`, `pairShri`,
`pairSrai`, `pairAndi`, `pairMovi`, `pairFadd`, `pairFsub`, `pairFmul`, `pairFmin`, `pairFmax`, `pairFminn`,
`pairFmaxn`, `pairFabs`, `pairFneg`, `pairCvtif`, `pairCvtfi`. -/
def Obligations.PairWordsComplete : Prop :=
  ∀ (i : Instr) (h : Hdr) (x : HalfArgs) (a b : Half) (s : State) (e : Env),
    a.args = x → (i, a.op) ∈
      [(.pairNop h x b, .nop), (.pairMov h x b, .mov), (.pairAdd h x b, .add), (.pairSub h x b, .sub),
        (.pairMul h x b, .mul), (.pairAnd h x b, .and), (.pairOr h x b, .or), (.pairXor h x b, .xor),
        (.pairShl h x b, .shl), (.pairShr h x b, .shr), (.pairSra h x b, .sra), (.pairMin h x b, .min),
        (.pairMax h x b, .max), (.pairAddi h x b, .addi), (.pairShli h x b, .shli), (.pairShri h x b, .shri),
        (.pairSrai h x b, .srai), (.pairAndi h x b, .andi), (.pairMovi h x b, .movi), (.pairFadd h x b, .fadd),
        (.pairFsub h x b, .fsub), (.pairFmul h x b, .fmul), (.pairFmin h x b, .fmin), (.pairFmax h x b, .fmax),
        (.pairFminn h x b, .fminn), (.pairFmaxn h x b, .fmaxn), (.pairFabs h x b, .fabs), (.pairFneg h x b, .fneg),
        (.pairCvtif h x b, .cvtif), (.pairCvtfi h x b, .cvtfi)] → i.wf = true →
    Ready h none (halfRegs a ++ halfRegs b) (halfRegs a ++ halfRegs b) s e →
    let writes (x : Half) (l r : Nat) : Prop := x.op ≠ .nop ∧ l ∈ e.lanes ∧ r = x.args.vd.toNat
    ∃ t g', exec i s = .next t ∧ t.group e.gk = some g' ∧
      (∃ fl, Spared s t e { e.g with flags := e.g.flags ||| fl }
        (fun l r => (a.args.k = true ∧ writes a l r) ∨ (b.args.k = true ∧ writes b l r))
        (fun l r => writes a l r ∨ writes b l r) g' ∧
        (((a.op = .nop ∨ ∀ d s, (halfValue a d s).isSome) ∧ (b.op = .nop ∨ ∀ d s, (halfValue b d s).isSome)) → fl = 0)) ∧
      (∀ l ∈ e.lanes, ∀ v, a.op ≠ .nop →
        halfValue a (e.reg 0 l a.args.vd.toNat) (e.reg 1 l a.args.vs.toNat) = some v → g'.shows32 l a.args.vd v) ∧
      ∀ l ∈ e.lanes, ∀ v, b.op ≠ .nop →
        halfValue b (e.reg 2 l b.args.vd.toNat) (e.reg 3 l b.args.vs.toNat) = some v → g'.shows32 l b.args.vd v

/-! ## Reset and the invariant -/

/-- R359, R365, R367: right after a reset the device is starting (boot status 0, failed step 0), free, with time 0, no
launch running or queued, no context, no team and no group; a ring's registers are 0 and every counter of R236, R287
and R317 reads 0. The values that no rule gives are the model's choice (log entry 19). -/
def Obligations.ResetValues : Prop :=
  let s := State.reset
  s.boot.status = 0 ∧ s.boot.failedStep = 0 ∧ s.owner = 0 ∧ s.time = 0 ∧
  s.faultQ = ⟨0, 0, 0, 0⟩ ∧ s.cmdRing = ⟨0, 0, 0, 0⟩ ∧
  (∀ q, s.hostQueue q = ⟨⟨0, 0, 0, 0⟩, none, none, none⟩) ∧ (∀ q, s.deviceQueue q = ⟨[], none⟩) ∧
  (∀ i, s.events.find i = none ∧ s.errStack.find i = none ∧ s.errCluster.find i = none ∧ s.errLog.find i = none) ∧
  (∀ m, (s.mailbox m).control = 0 ∧ (s.mailbox m).status = 0) ∧
  (∀ c, s.ctxs.find c = none) ∧ (∀ l, s.launches.find l = none) ∧ (∀ t, s.teams.find t = none) ∧
  (∀ g, s.group g = none) ∧ (∀ u, s.runs.find u = none) ∧ s.records = []

/-- The invariant of `StepKeepsMemoryCanonical` holds at reset, where memory lists nothing. What unlisted memory reads
as is the model's choice (log entry 1). -/
def Obligations.ResetIsCanonical : Prop :=
 State.reset.Inv ∧ ∀ a, Memory.byte State.reset.mem a = Memory.blank

/-- Every step of the package, an issued word or an event, keeps memory in its one form: addresses rise strictly and
no entry equals what an unlisted address reads as, so that equal memories are equal data. The form is the model's own;
what an unlisted address reads as is its choice (log entry 1). -/
def Obligations.StepKeepsMemoryCanonical : Prop :=
 ∀ s t : State, s.Inv → step s = .next t → t.Inv

/-! ## Branches, votes, loops, calls -/

/-- R127: `br` gives the active lanes' `nxt` its block; `brc` one of its two blocks by source A; `brx` the block that
source A [11:0] names, when each is a block of the module or 0xFFF. No lane moves. R127: a `brx` lane that names no
block of the module takes `XTAB_BAD` (the lowest such lane). -/
def Obligations.BranchesSetNxt : Prop :=
  (∀ (i : Instr) (h : Hdr) (srcs : List (Nat × Nat)) (target : Nat → BitVec 12) (s : State) (e : Env),
    ((∃ b, i = .br h b ∧ srcs = [] ∧ target = fun _ => b) ∨
     (∃ va a b, i = .brc h va a b ∧ srcs = [span false va] ∧
       target = fun l => if e.reg1 0 l va = 0 then b else a) ∨
     (∃ va, i = .brx h va ∧ srcs = [span false va] ∧ (target = fun l => BitVec.ofNat 12 (e.reg1 0 l va)) ∧
       ∀ l ∈ e.lanes, target l = 0xFFF ∨ (target l).toNat < e.md.nBlocks)) →
    Ready h none srcs srcs s e →
    Completes i s e fun t g' => ∃ lanes, Spared s t e { e.g with lanes := lanes } noReg noReg g' ∧
      lanes.length = e.g.lanes.length ∧
      ∀ l x, e.g.lanes[l]? = some x → lanes[l]? = some (if l ∈ e.lanes then { x with nxt := target l } else x)) ∧
  ∀ (h : Hdr) (va : Reg) (s : State) (e : Env) (l : Nat), Ready h none [span false va] [span false va] s e →
    let target (l : Nat) : BitVec 12 := BitVec.ofNat 12 (e.reg1 0 l va)
    let bad (l : Nat) : Prop := target l ≠ 0xFFF ∧ e.md.nBlocks ≤ (target l).toNat
    l ∈ e.lanes → bad l → (∀ j ∈ e.lanes, j < l → ¬ bad j) →
    ∃ t, exec (.brx h va) s = .next t ∧ FaultTaken s t e 0x07 0 l

/-- R70, R73, R74, R81, R128: a vote moves every unparked live lane to its `nxt`; the gang enters the state of its
set, at offset 0 with no loop, or is DONE when no lane of it lives. `exit` first ends the active lanes. Registers and
flags stand. `vote`, `regang` in PEEL, and `exit` complete so. -/
def Obligations.VotesArrive : Prop :=
  ∀ (h : Hdr) (s : State) (e : Env), Ready h none [] [] s e →
    let arrives (blk : Nat → BitVec 12) (t : State) : Prop := ∃ g', t.group e.gk = some g' ∧ Moved s t e g' ∧
      Arrived s e blk g' ∧ FramesKept s e (fun _ _ _ => False) g' ∧ g'.flags = e.g.flags ∧ g'.absent = e.g.absent ∧
      ∀ l, (g'.lane l).depth = (e.g.lane l).depth
    (CanArrive s e (votedBlk e) → ∃ t, exec (.vote h) s = .next t ∧ arrives (votedBlk e) t) ∧
    (CanArrive s e (votedBlk e) → (∃ j ∈ e.slices, (e.g.slice j).status = .peel) →
      ∃ t, exec (.regang h) s = .next t ∧ arrives (votedBlk e) t) ∧
    let ended (l : Nat) : BitVec 12 := if l ∈ e.lanes then 0xFFF else votedBlk e l
    CanArrive s e ended → ∃ t, exec (.exit h) s = .next t ∧ arrives ended t

/-- R63, R74, R75, R76: a `vote` whose set has no state sets `SETABSENT` and counts an absent set. A gang of more than
one slice parts: each slice whose own set has a state goes on alone under its own number in that state. A lone slice
peels: `PEEL` is set, and the lanes of one block of it, which a first visit of a sweep takes by block id from the
cursor, stand in that block's own state while its other lanes are parked. -/
def Obligations.AbsentSetsPartOrPeel : Prop :=
  ∀ (h : Hdr) (s : State) (e : Env), Ready h none [] [] s e → e.g.awaiting = [] →
    let set := blockSet e (votedBlk e) e.slices
    set ≠ [] → s.lookup e.md set = .absent →
    let counted : Word := if e.g.absent = 0xFFFFFFFF then e.g.absent else e.g.absent + 1
    (2 ≤ e.slices.length →
      (∀ i ∈ e.slices, blockSet e (votedBlk e) [i] ≠ [] ∧ ∃ st, s.lookup e.md (blockSet e (votedBlk e) [i]) = .found st) →
      Completes (.vote h) s e fun t g' => Moved s t e g' ∧ FramesKept s e (fun _ _ _ => False) g' ∧
        g'.absent = counted ∧ g'.flags = e.g.flags ||| 0x800 ∧
        ∀ i ∈ e.slices, ∃ st, s.lookup e.md (blockSet e (votedBlk e) [i]) = .found st ∧
          g'.slice i = { (e.g.slice i).atStart st .lone with tag := BitVec.ofNat 4 i }) ∧
    (∀ (i : Nat) (b : BitVec 12) (st : Nat), e.slices = [i] →
      let at' (l : Nat) : Prop := l < e.g.lanes.length ∧ l / 4 = i ∧ votedBlk e l ≠ 0xFFF
      (∀ l, at' l → (e.g.lane l).sweep = false) → (∃ l, at' l ∧ votedBlk e l = b) →
      (∀ l, at' l → if (e.g.slice i).cursor ≤ b then b ≤ votedBlk e l ∨ votedBlk e l < (e.g.slice i).cursor
        else b ≤ votedBlk e l ∧ votedBlk e l < (e.g.slice i).cursor) →
      s.lookup e.md [b.toNat] = .found st →
      Completes (.vote h) s e fun t g' => Moved s t e g' ∧ FramesKept s e (fun _ _ _ => False) g' ∧
        g'.absent = counted ∧ g'.flags = e.g.flags ||| 0x1800 ∧
        (g'.slice i).status = .peel ∧ (g'.slice i).sid = BitVec.ofNat 16 st ∧ (g'.slice i).off = 0 ∧
        (g'.slice i).cursor = (if b < 0xFFE then b + 1 else 0) ∧
        ∀ l, at' l → (g'.lane l).blk = votedBlk e l ∧ (g'.lane l).park = (votedBlk e l != b) ∧
          (g'.lane l).sweep = (votedBlk e l == b))

/-- R78, R79, R129: a `regang` of a gang that does not peel moves its lanes and waits: its slices are AWAIT with the
kernel's patience, or what is left of it where a round is open already, with no loop (R89); here while the round is not
full and patience is left. -/
def Obligations.RegangWaits : Prop :=
  ∀ (h : Hdr) (s : State) (e : Env), Ready h none [] [] s e →
    (∀ i ∈ e.slices, (e.g.slice i).status ≠ .peel) →
    (∃ i, i < e.g.slices.length ∧ i ∉ e.slices ∧ (e.g.slice i).status ≠ .done ∧ (e.g.slice i).status ≠ .await) →
    ∀ left : BitVec 16, left ≠ 0 →
    (match e.g.awaiting with
      | [] => left = BitVec.ofNat 16 (field e.la.kernel 0x0E 2)
      | i :: _ => left = (e.g.slice i).patience) →
    Completes (.regang h) s e fun t g' => Moved s t e g' ∧ FramesKept s e (fun _ _ _ => False) g' ∧
      g'.flags = e.g.flags ∧ g'.absent = e.g.absent ∧
      (∀ i ∈ e.slices, g'.slice i = { e.g.slice i with status := .await, patience := left, loops := [] }) ∧
      (∀ l ∈ lanesOf e.slices, l < e.g.lanes.length →
        (g'.lane l).blk = votedBlk e l ∧ (g'.lane l).park = false ∧ (g'.lane l).nxt = (e.g.lane l).nxt)

/-- R87, R88: a word that stays in its state moves its gang on past itself and its literal; where the innermost loop
ends within it, the loop goes back to its start with one iteration less, or is done when this was its last. That the next
offset of a word at the last offset wraps to 0 is the model's choice (log entry 21). -/
def Obligations.PositionsAndBackEdges : Prop :=
  ∀ (i : Instr) (h : Hdr) (len : Nat) (s : State) (e : Env),
    ((∃ lit, i = .nop h lit ∧ len = (if lit.isSome then 2 else 1) ∧
        (Ready h none [] [] s e ∨ (h.m = 0 ∧ s.env h.m = some e))) ∨
     (∃ w, LaneReady i w s e ∧ h = w.h ∧ len = w.len)) →
    Completes i s e fun _ g' => ∀ j ∈ e.slices,
      let x := e.g.slice j
      let ends (y : LoopEntry) : Prop := x.off.toNat ≤ y.stop.toNat ∧ y.stop.toNat < x.off.toNat + len
      ((∀ y, x.loops.getLast? = some y → ¬ ends y) →
        (g'.slice j).off = x.off + BitVec.ofNat 16 len ∧ (g'.slice j).loops = x.loops) ∧
      ∀ outer y, x.loops = outer ++ [y] → ends y →
        (y.count ≠ 1 → (g'.slice j).off = y.start ∧ (g'.slice j).loops = outer ++ [{ y with count := y.count - 1 }]) ∧
        (y.count = 1 → (∀ z, outer.getLast? = some z → ¬ ends z) →
          (g'.slice j).off = x.off + BitVec.ofNat 16 len ∧ (g'.slice j).loops = outer)

/-- R87, R131: `loop` pushes a loop with the count of the lowest active lane and goes on behind itself; a count of 0
pushes none and goes on behind the loop's end. Where that lies beyond offset 0xFFFF, the offset wraps and `FETCH_RANGE` is
taken at this word: the model's choice (log entry 21). `NONUNIF` is set when active lanes give different counts. R190: a
loop of at most 256 words that starts has a body in its core's loop buffer.
R130: `yield` does nothing but end its run. -/
def Obligations.LoopsPushAndYieldEndsTheRun : Prop :=
  (∀ (h : Hdr) (va : Reg) (tend : BitVec 16) (s : State) (e : Env),
    Ready h none [span false va] [span false va] s e →
    (e.g.slice (e.slices.headD 0)).loops.length < 3 → e.off < tend.toNat → tend.toNat < s.stateLen e.md e.st →
    (∀ x, (e.g.slice (e.slices.headD 0)).loops.getLast? = some x → tend ≤ x.stop) →
    let n : Nat := (e.lanes.head?.map fun l => e.reg1 0 l va).getD 0
    let next : Nat := if num (s.codeWord e.md e.st tend.toNat) 61 2 = 2 then tend.toNat + 2 else tend.toNat + 1
    Completes (.loop h va tend) s e fun t g' =>
      (n ≠ 0 → next - (e.off + 1) ≤ 256 → ∃ b ∈ t.bodies e.core,
        (b.module, b.st, b.first, b.last) = (e.la.module, e.st, e.off + 1, next - 1)) ∧
      (n = 0 → t.loopBuf = s.loopBuf ∧ (0xFFFF < next → g'.halt.map (·.code) = some 0x06)) ∧
      ∃ fl, Spared { s with loopBuf := t.loopBuf } t e { e.g with flags := fl } noReg noReg g' ∧
        fl = (if ∃ l ∈ e.lanes, e.reg1 0 l va ≠ n then e.g.flags ||| 0x400 else e.g.flags) ∧
        ∀ j ∈ e.slices, g'.slice j =
          (if n = 0 then { e.g.slice j with off := BitVec.ofNat 16 next }
           else { e.g.slice j with
              off := BitVec.ofNat 16 (e.off + 1),
              loops := (e.g.slice j).loops ++ [⟨BitVec.ofNat 32 n, BitVec.ofNat 16 (e.off + 1), tend⟩] })) ∧
  (∀ (h : Hdr) (s : State) (e : Env), Ready h none [] [] s e →
    Completes (.yield h) s e fun t g' => Spared s t e e.g noReg noReg g' ∧ t.runs.find (2 * e.core + e.unit) = none)

/-- R133, R134, R136, R140: a call (`call`, `calli`), and a `trap` where the module has a trap function, gives each
active lane a frame one deeper, with the arguments in v0 up and a record of the lane's `nxt` and the function; the
lane's depth is one more and the vote takes it to the entry block. Here for a team that no request holds up and whose
free granules cover the call, and arguments without an uncorrectable error. A trap with no active lane does nothing.
-/
def Obligations.CallsEnterFunctions : Prop :=
  (∀ (i : Instr) (h : Hdr) (srcs : List (Nat × Nat)) (f : Env → Nat → Nat) (s : State) (e : Env),
    callOf i = some (h, srcs, f) → Ready h none srcs srcs s e →
    let fn (l : Nat) : Nat := f e l
    let depth (l : Nat) : Nat := (e.g.lane l).depth.toNat
    let blk (l : Nat) : BitVec 12 := if l ∈ e.lanes then BitVec.ofNat 12 (s.descr e.md (fn l)).entry else votedBlk e l
    (∀ l ∈ e.lanes, fn l < e.md.nDescrs ∧ fn l < 2 ^ 16 ∧ depth l < 255 ∧
      ((∀ x imm, i ≠ .trap x imm) →
        (s.descr e.md (fn l)).argbase + (s.descr e.md (fn l)).nargs ≤ e.g.frameSize (depth l)) ∧
      ∀ fr, e.g.frames.find (depth l + 1) = some fr → fr.place = .pool) →
    ((∀ x imm, i ≠ .trap x imm) → ∀ l ∈ e.lanes,
      e.laneEcc s.latent [((s.descr e.md (fn l)).argbase, (s.descr e.md (fn l)).nargs)] l = false) →
    (∀ x imm, i = .trap x imm → e.lanes ≠ [] ∧ e.md.trap ≠ 0xFFFF) →
    e.tm.requests = [] → callGranules s e fn ≤ s.freeGranules e.g.team → CanArrive s e blk →
    Completes i s e fun t g' => Moved s t e g' ∧ Arrived s e blk g' ∧ g'.flags = e.g.flags ∧
      FramesKept s e (fun d l _ => l ∈ e.lanes ∧ d = depth l + 1) g' ∧
      (∀ l, l ∉ e.lanes → (g'.lane l).depth = (e.g.lane l).depth) ∧
      ∀ l ∈ e.lanes, (g'.lane l).depth.toNat = depth l + 1 ∧
        (blk l ≠ 0xFFF →
          (g'.frames.find (depth l + 1)).map (fun fr => fr.recs.find l) =
            some (some ⟨(e.g.lane l).nxt, BitVec.ofNat 16 (fn l)⟩) ∧
          ∀ j, j < passedCount i s e (fn l) →
            j < (s.descr e.md (fn l)).demand →
            g'.bankAt (depth l + 1) l j = some (passedArg i s e (fn l) l j))) ∧
  (∀ (h : Hdr) (imm : BitVec 8) (s : State) (e : Env), Ready h none [] [] s e → e.lanes = [] →
    Completes (.trap h imm) s e fun t g' => Spared s t e e.g noReg noReg g')

/-- R138, R139: `ret` copies v0 up of a returning lane to the caller's registers from `argbase`, goes back to the
recorded block one depth up, and ends a lane at depth 0; `unwind` takes each active lane to the depth that source A
names and to its block, deeper than it stands is `CALLDEPTH`. Here where no frame is to be refilled and no result has
an uncorrectable error. -/
def Obligations.ReturnsAndUnwinds : Prop :=
  (∀ (h : Hdr) (s : State) (e : Env), Ready h none [] [] s e →
    let depth (l : Nat) : Nat := (e.g.lane l).depth.toNat
    let rec' (l : Nat) : RetRec := e.g.recOf l
    let d (l : Nat) : Descr := s.descr e.md (rec' l).fn.toNat
    let back (l : Nat) : Prop := l ∈ e.lanes ∧ depth l ≠ 0
    let blk (l : Nat) : BitVec 12 :=
      if l ∈ e.lanes then (if depth l = 0 then 0xFFF else (rec' l).block) else votedBlk e l
    (∀ k, e.g.frameSize k ≤ 256) →
    (∀ l, back l → (d l).argbase + (d l).nres ≤ e.g.frameSize (depth l - 1) ∧
      e.laneEcc s.latent [(0, (d l).nres)] l = false ∧
      ∀ fr, e.g.frames.find (depth l - 1) = some fr → fr.place = .pool) →
    CanArrive s e blk →
    Completes (.ret h) s e fun t g' => Moved s t e g' ∧ Arrived s e blk g' ∧ g'.flags = e.g.flags ∧
      FramesKept s e (fun k l r => back l ∧ k = depth l - 1 ∧ (d l).argbase ≤ r ∧ r < (d l).argbase + (d l).nres) g' ∧
      (∀ l, ¬ back l → (g'.lane l).depth = (e.g.lane l).depth) ∧
      ∀ l, back l → (g'.lane l).depth.toNat = depth l - 1 ∧
        ∀ j fr, j < (d l).nres → g'.frames.find (depth l - 1) = some fr → (d l).argbase + j < fr.size →
          fr.bank l ((d l).argbase + j) = e.reg 0 l j) ∧
  (∀ (h : Hdr) (va : Reg) (b : BitVec 12) (s : State) (e : Env), Ready h none [span false va] [span false va] s e →
    let goal (l : Nat) : Nat := e.reg1 0 l va
    let blk (l : Nat) : BitVec 12 := if l ∈ e.lanes then b else votedBlk e l
    ((∀ l ∈ e.lanes, goal l ≤ (e.g.lane l).depth.toNat ∧
        ∀ fr, e.g.frames.find (goal l) = some fr → fr.place = .pool) → CanArrive s e blk →
      Completes (.unwind h va b) s e fun t g' => Moved s t e g' ∧ Arrived s e blk g' ∧ g'.flags = e.g.flags ∧
        FramesKept s e (fun _ _ _ => False) g' ∧
        ∀ l, (g'.lane l).depth.toNat = if l ∈ e.lanes then goal l else (e.g.lane l).depth.toNat) ∧
    ∀ l ∈ e.lanes, (e.g.lane l).depth.toNat < goal l → (∀ j ∈ e.lanes, j < l → goal j ≤ (e.g.lane j).depth.toNat) →
      ∃ t, exec (.unwind h va b) s = .next t ∧ FaultTaken s t e 0x12 0 l)

/-! ## Regions, breakpoints, waits, barriers, fences -/

/-- R158, R159: `enter` pushes its id on the region stack of 8, which loses its bottom entry and notes it when full;
`leave` pops the topmost entry of its id and those above it, or nothing where there is none; with no active lane
neither does anything. `brkpt`, where the launch takes debug stops and a lane is active, stops the group with its
immediate; else it stops nothing and makes no record, here where no step and no stop is due at the end of any word.
`enter`, `leave` and `brkpt` complete so. That the record of a breakpoint names the
stopped word is the model's reading (log entry 27), and which stop a stepped `brkpt` reports is its choice (log entry
59). -/
def Obligations.RegionsAndBreakpoints : Prop :=
  ∀ (h : Hdr) (s : State) (e : Env),
    (∀ id : BitVec 16, Ready h (some id) [] [] s e →
      (∃ t g' regions lost, exec (.enter h id) s = .next t ∧ t.group e.gk = some g' ∧
        Spared s t e { e.g with regions := regions, regOverflow := lost } noReg noReg g' ∧
        if e.lanes = [] then regions = e.g.regions ∧ lost = e.g.regOverflow
        else regions = (id :: e.g.regions).take 8 ∧ (lost = true ↔ e.g.regOverflow = true ∨ 8 ≤ e.g.regions.length)) ∧
      ∃ t g' regions, exec (.leave h id) s = .next t ∧ t.group e.gk = some g' ∧
        Spared s t e { e.g with regions := regions } noReg noReg g' ∧
        if e.lanes = [] ∨ id ∉ e.g.regions then regions = e.g.regions
        else ∃ above, e.g.regions = above ++ id :: regions ∧ id ∉ above) ∧
    (∀ imm : BitVec 8, Ready h none [] [] s e →
      ∃ t g', exec (.brkpt h imm) s = .next t ∧ t.group e.gk = some g' ∧ Spared s t e e.g noReg noReg g' ∧
        (e.lanes ≠ [] → e.la.breaks = true → e.g.step = none → e.g.stopNext = none → e.g.halt = none → e.off < 0xFFFF →
          g'.halt = some ⟨.debug, 0x41, s.time, 0, e.run.tag, none⟩ ∧ (∀ p ∈ t.runs, p.2.gk ≠ e.gk) ∧
          ∃ r, t.records = s.records ++ [r] ∧ r.ty = 1 ∧ r.code = 0x41 ∧ r.imm = imm.setWidth 16) ∧
        (e.lanes = [] ∨ e.la.breaks = false → e.g.step = none → e.g.stopNext = none → e.off < 0xFFFF →
          g'.halt = e.g.halt ∧ t.records = s.records))

/-- R84, R155: a `wait` whose four limits hold covers every operation of the group that has completed: their flags are
set and they are no longer outstanding; a wait whose limits do not hold blocks its gang and does nothing else. R205:
`bwait` blocks while a slice of the gang is armed on the barrier. That rows of covered words may become free values is
the model's reading of R227 (log entry 33). -/
def Obligations.WaitsCoverOrBlock : Prop :=
  ∀ (h : Hdr) (s : State) (e : Env), Ready h none [] [] s e →
    let blocks (b : Block) (i : Instr) : Prop := Completes i s e fun t g' => s.sameBut t ∧
      (∀ k, (t.teams.find k).map (fun tm => { tm with requests := [] }) =
        (s.teams.find k).map fun tm => { tm with requests := [] }) ∧
      (∀ k, k ≠ e.gk → t.group k = s.group k) ∧ e.g.blockedOn e.run.tag b g' ∧
      t.runs.find (2 * e.core + e.unit) = none
    (∀ ld st eng tile : BitVec 6,
      (e.g.loads ≤ ld.toNat → e.g.stores ≤ st.toNat → e.g.engine ≤ eng.toNat → e.g.tile ≤ tile.toNat →
        Completes (.wait h ld st eng tile) s e fun t g' =>
          ∃ fl, Spared (s.lateRows e.g) t e { e.g with flags := fl } noReg noReg g' ∧
            (∀ j < 32, fl.getLsbD j = (e.g.flags.getLsbD j || e.g.engFlags.getLsbD j ||
              e.g.ops.any (fun o => o.complete && o.flags.getLsbD j) ||
              e.g.tiles.any fun o => o.complete && o.allFlags.getLsbD j)) ∧
            g'.ops = e.g.ops.filter (fun o => !o.complete) ∧ g'.tiles = e.g.tiles.filter fun o => !o.complete) ∧
      (ld.toNat < e.g.loads ∨ st.toNat < e.g.stores ∨ eng.toNat < e.g.engine ∨ tile.toNat < e.g.tile →
        blocks (.wait ld.toNat st.toNat eng.toNat tile.toNat) (.wait h ld st eng tile))) ∧
    ∀ bar : BitVec 4,
      ((∀ i ∈ e.slices, (e.g.slice i).armed.getLsbD bar.toNat = false) →
        Completes (.bwait h bar) s e fun t g' => Spared s t e e.g noReg noReg g') ∧
      ((∃ i ∈ e.slices, (e.g.slice i).armed.getLsbD bar.toNat = true) → blocks (.bwait bar.toNat) (.bwait h bar))

/-- R203, R204, R206: `arrive` arms the gang's slices; once every slice of the group is armed or DONE the group's
arrival awaits the accesses issued before, unless it has been counted in this phase. R296: `fence` joins the issue
order and counts in no counter. R225: after `fence.opr` only registers of words still outstanding are behind the fence
point. The bookkeeping behind the fence point is the model's reading (log entry 33). -/
def Obligations.ArrivalsAndFences : Prop :=
  ∀ (h : Hdr) (s : State) (e : Env), Ready h none [] [] s e →
    (∀ bar : BitVec 4, Completes (.arrive h bar) s e fun t g' => ∃ slices,
      Spared s t e { e.g with slices := slices } noReg noReg g' ∧ slices.length = e.g.slices.length ∧
      (∀ i x, e.g.slices[i]? = some x →
        slices[i]? = some (if i ∈ e.slices then { x with armed := x.armed ||| BitVec.twoPow 16 bar.toNat } else x)) ∧
      ((∀ (i : Nat) (x : Slice), slices[i]? = some x → x.status = .done ∨ x.armed.getLsbD bar.toNat = true) →
        (∀ p ∈ e.g.arrivals, p.1 ≠ bar.toNat) → g'.arrivals =
          if e.tm.hasArrived e.g.gidx bar.toNat then e.g.arrivals else e.g.arrivals ++ [(bar.toNat, e.g.issued)])) ∧
    (∀ (order : BitVec 2) (scope : BitVec 3), Completes (.fence h order scope) s e fun t g' =>
      Spared s t e e.g noReg noReg g' ∧ ∃ a, g'.ops = e.g.ops ++ [a] ∧ a.kind = .fence ∧ a.id = e.g.issued ∧
        a.order = order.toNat ∧ a.scope = scope.toNat ∧ a.complete = false ∧ a.lanes = []) ∧
    Completes (.fenceOpr h) s e fun t g' => Spared s t e e.g noReg noReg g' ∧ g'.fencePt = e.g.issued + 1 ∧
      ∀ k, k ∈ g'.dirty ↔ k ∈ e.g.dirty ∧ ((∃ o ∈ e.g.ops, k ∈ o.dests) ∨ ∃ o ∈ e.g.tiles, k ∈ o.dests)

/-! ## Words that issue an operation -/

/-- R142, R143, R144, R148: the checks of an address in their order: no window, or a bit that must be 0, `SPACE_INVALID`;
another core's scratchpad or cluster region `SPACE_FOREIGN`; misaligned `ALIGN`; a full-empty operation outside a
vault `PROT`; beyond the private area, the scratchpad or the shared region, or in a vault outside both kinds of
region, `PROT`. What an any-vault address gives does not depend on the core. The sum of a private address is taken modulo
2^56, which is the model's choice (log entry 58). -/
def Obligations.AddressChecksInOrder : Prop :=
  ∀ (s : State) (p : Party) (who ea n : Nat) (write fe : Bool), ea < 2 ^ 64 →
    let top := ea / 2 ^ 56
    let off := ea % 2 ^ 24
    let core := ea / 2 ^ 39 % 2 ^ 9
    let cluster := ea / 2 ^ 41 % 2 ^ 7
    let chk := s.checkAddress p who ea n n write fe
    ((top ≠ 0 ∧ top ≠ 0xA1 ∧ top ≠ 0xA2 ∧ top ≠ 0xA3 ∧ top ≠ 0xA4) → chk = .bad 0x20) ∧
    ((top = 0xA1 ∧ ea / 2 ^ 32 % 2 ^ 24 ≠ 0) ∨
      ((top = 0xA2 ∨ top = 0xA3 ∨ top = 0xA4) ∧ ea / 2 ^ 48 % 2 ^ 8 ≠ 0) ∨
      (top = 0xA2 ∧ ea / 2 ^ 24 % 2 ^ 15 ≠ 0) ∨ ((top = 0xA3 ∨ top = 0xA4) ∧ ea / 2 ^ 24 % 2 ^ 17 ≠ 0) → chk = .bad 0x20) ∧
    (top = 0xA2 → ea / 2 ^ 48 % 2 ^ 8 = 0 → ea / 2 ^ 24 % 2 ^ 15 = 0 →
      if 384 ≤ core then chk = .bad 0x20
      else if core ≠ p.core then chk = .bad 0x21
      else if off % n ≠ 0 then chk = .bad 0x22
      else if p.tm.sUnits * 65536 < off + n then chk = .bad 0x24
      else chk = .ok (2 ^ 52 + p.tm.core / 4 * 2 ^ 24 + (p.tm.sUnit * 65536 + off)) true []) ∧
    (top = 0xA3 → ea / 2 ^ 48 % 2 ^ 8 = 0 → ea / 2 ^ 24 % 2 ^ 17 = 0 →
      if 96 ≤ cluster then chk = .bad 0x20
      else if cluster ≠ p.core / 4 then chk = .bad 0x21
      else if off % n ≠ 0 then chk = .bad 0x22
      else match p.la.cb with
        | none => 0 < off + n → chk = .bad 0x24
        | some cb =>
          if field p.la.record 0x24 4 < off + n then chk = .bad 0x24
          else chk = .ok (2 ^ 52 + cluster * 2 ^ 24 + (cb + off)) true []) ∧
    (top = 0xA4 → ea / 2 ^ 48 % 2 ^ 8 = 0 → ea / 2 ^ 24 % 2 ^ 17 = 0 →
      let vault := ea / 2 ^ 46 % 2 ^ 2 * 24 + ea / 2 ^ 41 % 2 ^ 5
      if 24 ≤ ea / 2 ^ 41 % 2 ^ 5 then chk = .bad 0x20
      else if off % n ≠ 0 then chk = .bad 0x22
      else if s.vaultAllowed p.la vault off n = false then chk = .bad 0x24
      else chk = .ok (2 ^ 52 + vault * 2 ^ 24 + off) true []) ∧
    (top = 0 → if ea % n ≠ 0 then chk = .bad 0x22 else fe = true → chk = .bad 0x24) ∧
    (top = 0xA1 → ea / 2 ^ 32 % 2 ^ 24 = 0 →
      if ea % 2 ^ 32 % n ≠ 0 then chk = .bad 0x22
      else if fe = true ∨ field p.la.record 0x20 4 < ea % 2 ^ 32 + n then chk = .bad 0x24
      else ∀ va, va = (field p.la.record 0x18 8 +
          ((p.tm.t * (p.tm.p + p.tm.c) + p.gidx) * p.width + p.lane) * field p.la.record 0x20 4 + ea % 2 ^ 32) % 2 ^ 56 →
        chk = s.checkGlobal p.la.ctx who va write)

/-- R143: a dereferenced address of a scratchpad whose core tag is not the core's takes `SPACE_FOREIGN`, one of a
cluster's shared region whose cluster tag is not its cluster's too: in every check of an access, and at an access word
for its lowest active lane with such an address, where the lanes below pass. An any-vault address takes neither window
fault, whatever the core. -/
def Obligations.ForeignAddressesFault : Prop :=
  let reserved (ea : Nat) (unit : Nat) : Prop := ea / 2 ^ 48 % 2 ^ 8 = 0 ∧ ea / 2 ^ 24 % 2 ^ unit = 0
  let foreign (core ea : Nat) : Prop :=
    (ea / 2 ^ 56 = 0xA2 ∧ reserved ea 15 ∧ ea / 2 ^ 39 % 2 ^ 9 < 384 ∧ ea / 2 ^ 39 % 2 ^ 9 ≠ core) ∨
    (ea / 2 ^ 56 = 0xA3 ∧ reserved ea 17 ∧ ea / 2 ^ 41 % 2 ^ 7 < 96 ∧ ea / 2 ^ 41 % 2 ^ 7 ≠ core / 4)
  (∀ (s : State) (p : Party) (who ea n align : Nat) (write fe : Bool),
    (foreign p.core ea → s.checkAccess p who ea n align write fe = .bad 0x21) ∧
    (ea / 2 ^ 56 = 0xA4 → reserved ea 17 → ea / 2 ^ 41 % 2 ^ 5 < 24 →
      s.checkAccess p who ea n align write fe ≠ .bad 0x20 ∧ s.checkAccess p who ea n align write fe ≠ .bad 0x21)) ∧
  ∀ (i : Instr) (x : AccessOp) (s : State) (e : Env) (l : Nat), accessOf i = some x →
    Ready x.h none x.regs x.reads s e → l ∈ e.lanes → foreign e.core (x.ea e l) →
    (∀ j ∈ e.lanes, j < l → ∃ tgt nc fill, laneCheck i x s e j = .ok tgt nc fill) →
    ∃ t, exec i s = .next t ∧ FaultTaken s t e 0x21 0 l

/-- R84, R148, R154, R290, R291: an access word all of whose lanes pass their checks issues: its counter goes up by
one, an operation with the lanes, their addresses and targets joins the issue order, and its destinations are what the
bank holds until its data comes. With no active lane it does nothing. The access words are `ld`, `lds`, `st`, `feset`,
`feclr`, `fetest`, `aadd`, `amin`, `amax`, `aand`, `aor`, `axor`, `aexch`, `acas`, `afadd` and `ofadd`. The order of
issue numbers is the model's own (log entry 3). -/
def Obligations.AccessWordsIssue : Prop :=
  ∀ (i : Instr) (x : AccessOp) (s : State) (e : Env), accessOf i = some x →
    Ready x.h none x.regs x.reads s e → (∀ l ∈ e.lanes, ∃ tgt nc fill, laneCheck i x s e l = .ok tgt nc fill) →
    s.noStops e.la.ctx → (if x.kind.isLoad then e.g.loads < 255 else e.g.stores < 255) →
    Completes i s e fun t g' => ∃ (g0 : Group) (walks : List TlbEntry),
      Spared (s.fillTlb walks) t e g0 noReg (x.writes e) g' ∧ (∀ l r, x.writes e l r → g'.seen l r = none) ∧
      if e.lanes = [] then g0 = e.g ∧ walks = [] ∧ g'.ops = e.g.ops
      else
        g0 = { e.g with
          loads := if x.kind.isLoad then e.g.loads + 1 else e.g.loads,
          stores := if x.kind.isLoad then e.g.stores else e.g.stores + 1,
          lanes := g0.lanes } ∧
        g0.lanes.length = e.g.lanes.length ∧
        (∀ l y, e.g.lanes[l]? = some y →
          g0.lanes[l]? = some (if x.kind = .ofadd ∧ l ∈ e.lanes then { y with seq := y.seq + 1 } else y)) ∧
        ∃ a, g'.ops.getLast? = some a ∧ g'.ops.length = e.g.ops.length + 1 ∧ a.kind = x.kind ∧ a.id = e.g.issued ∧
          a.size = x.size ∧ a.order = x.order.toNat ∧ a.scope = x.scope.toNat ∧ a.complete = false ∧
          a.lanes.map (·.lane) = e.lanes ∧
          ∀ y ∈ a.lanes, y.done = false ∧ y.ea = BitVec.ofNat 64 (x.ea e y.lane) ∧
            y.depth = (e.g.lane y.lane).depth ∧ y.port = s.portOf y.target ∧
            ∃ fill, laneCheck i x s e y.lane = .ok y.target y.nc fill

/-- R95, R148, R338: the lowest active lane of an access word that fails a check stops the word: a fault with its code
and address, with nothing issued; an unresolved translation parks the group, with a record of type 2. R255, R268: a
copy or selection word whose checks find a fault takes it, precisely, with the address that failed; for a malformed
descriptor that is `ENGINE` with sub-code 0x01 or 0x21. R132, R136, R140: a call of a function that the module does
not have takes `ILL_FIELD`, one at depth 255 `CALLDEPTH`; a `trap` in a module without a trap function takes `TRAP`
with its immediate. Bit 2 of an ENGINE record is the model's reading (log entry 28). -/
def Obligations.ChecksStopWords : Prop :=
  (∀ (i : Instr) (x : AccessOp) (s : State) (e : Env) (l : Nat), accessOf i = some x →
    Ready x.h none x.regs x.reads s e → l ∈ e.lanes →
    (∀ j ∈ e.lanes, j < l → ∃ tgt nc fill, laneCheck i x s e j = .ok tgt nc fill) →
    (∀ c, laneCheck i x s e l = .bad c →
      ∃ t, exec i s = .next t ∧ FaultTaken s t e c 0 l ∧
        ∃ r, t.records = s.records ++ [r] ∧ r.addr = BitVec.ofNat 64 (x.ea e l)) ∧
    (laneCheck i x s e l = .unresolved →
      ∃ t g', exec i s = .next t ∧ t.group e.gk = some g' ∧ g'.halt = some ⟨.park, 0x23, s.time, l, e.run.tag, none⟩ ∧
        g'.ops = e.g.ops ∧ (g'.loads, g'.stores) = (e.g.loads, e.g.stores) ∧ t.mem = s.mem ∧
        ∃ r, t.records = s.records ++ [r] ∧ r.ty = 2 ∧ r.code = 0x23 ∧ r.addr = BitVec.ofNat 64 (x.ea e l) ∧ r.lane = l)) ∧
  ((∀ (i : Instr) (o : EOp) (kind : CopyKind) (s : State) (e : Env) (l : Nat) (ls : List Nat) (c a : Nat),
    copyOf i = some (o, kind) → Ready o.h none (jobRegsOf o (kind != .copy) true) (jobRegsOf o (kind != .copy) true) s e →
    e.lanes = l :: ls →
    s.copyChecks (e.party l) kind o.fmt o.jf.toNat (e.pair 0 l o.va) (e.pair 1 l o.vb)
      (if kind = .copy then 0 else e.pair 3 l o.vd) ((natsFrom o.vc.toNat 8).map fun r => e.reg 2 l r) = some (c, a) →
    ∃ t, exec i s = .next t ∧ FaultTaken s t e c (if c = 0x31 then 0x01 else 0) l ∧
      ∃ r, t.records = s.records ++ [r] ∧ r.addr = BitVec.ofNat 64 a) ∧
  ∀ (i : Instr) (o : EOp) (scmp : Bool) (s : State) (e : Env) (l : Nat) (ls : List Nat) (c a : Nat),
    selOf i = some (o, scmp) → Ready o.h none (jobRegsOf o true (scmp || o.jf.getLsbD 0))
      (jobRegsOf o true (scmp || o.jf.getLsbD 0)) s e →
    e.lanes = l :: ls →
    s.selChecks (e.party l) scmp o.jf.toNat o.fmt (e.pair 3 l o.vd) (e.pair 0 l o.va)
      (if scmp || o.jf.getLsbD 0 then e.pair 1 l o.vb else 0) ((natsFrom o.vc.toNat 8).map fun r => e.reg 2 l r) =
        some (c, a) →
    ∃ t, exec i s = .next t ∧ FaultTaken s t e c (if c = 0x31 then 0x21 else 0) l ∧
      ∃ r, t.records = s.records ++ [r] ∧ r.addr = BitVec.ofNat 64 a) ∧
  (∀ (i : Instr) (h : Hdr) (srcs : List (Nat × Nat)) (f : Env → Nat → Nat) (s : State) (e : Env) (l : Nat),
    callOf i = some (h, srcs, f) → (∀ x imm, i ≠ .trap x imm) → Ready h none srcs srcs s e → l ∈ e.lanes →
    (e.md.nDescrs ≤ f e l ∨ (e.g.lane l).depth = 255) →
    (∀ j ∈ e.lanes, j < l → f e j < e.md.nDescrs ∧ (e.g.lane j).depth ≠ 255 ∧
      (s.descr e.md (f e j)).argbase + (s.descr e.md (f e j)).nargs ≤ e.g.frameSize (e.g.lane j).depth.toNat ∧
      e.laneEcc s.latent [((s.descr e.md (f e j)).argbase, (s.descr e.md (f e j)).nargs)] j = false) →
    ∃ t, exec i s = .next t ∧ FaultTaken s t e (if e.md.nDescrs ≤ f e l then 0x03 else 0x12) 0 l) ∧
  (∀ (h : Hdr) (imm : BitVec 8) (s : State) (e : Env) (l : Nat) (ls : List Nat),
    Ready h none [] [] s e → e.lanes = l :: ls → e.md.trap = 0xFFFF →
    ∃ t, exec (.trap h imm) s = .next t ∧ FaultTaken s t e 0x40 0 l ∧
      ∃ r, t.records = s.records ++ [r] ∧ r.imm = imm.setWidth 16)

/-- R253, R254, R259, R267, R268, R278: a copy or selection word (`copy`, `gather`, `scatter`, `srank`, `scmp`) whose
descriptor passes its checks, where the queue has room and the engine counter stands below 255, captures the operands of
its lowest active lane in a job at the end of its cluster's queue and raises the engine counter; with no active lane it
does nothing. Nothing of the job has run yet. -/
def Obligations.EngineWordsQueueJobs : Prop :=
  (∀ (i : Instr) (o : EOp) (kind : CopyKind) (s : State) (e : Env), copyOf i = some (o, kind) →
    let regs := jobRegsOf o (kind != .copy) true
    Ready o.h none regs regs s e →
    (e.lanes = [] → Completes i s e fun t g' => Spared s t e e.g noReg noReg g') ∧
    ∀ l ls, e.lanes = l :: ls →
      let q := s.copyQueue (e.core / 4)
      let src := e.pair 0 l o.va
      let dst := e.pair 1 l o.vb
      let ix := if kind = .copy then 0 else e.pair 3 l o.vd
      let d := (natsFrom o.vc.toNat 8).map fun r => e.reg 2 l r
      s.copyChecks (e.party l) kind o.fmt o.jf.toNat src dst ix d = none → e.g.engine < 255 →
      (q.jobs.filter fun j => j.gk == e.gk).length < 16 → (q.jobs.filter fun j => !s.teamAway j.gk).length < 64 →
      Completes i s e fun t g' => ∃ j : CopyJob,
        Spared (s.setCopyQueue (e.core / 4) { q with jobs := q.jobs ++ [j] }) t e { e.g with engine := e.g.engine + 1 }
          noReg noReg g' ∧
        (j.gk, j.id, j.lane, j.kind, j.fmt, j.jf) = (e.gk, e.g.issued, l, kind, o.fmt, o.jf.toNat) ∧
        (j.src, j.dst, j.ix, j.d) = (BitVec.ofNat 64 src, BitVec.ofNat 64 dst, BitVec.ofNat 64 ix, d) ∧
        (j.row, j.chunk, j.work, j.flags, j.paused) = (0, 0, none, 0, none)) ∧
  ∀ (i : Instr) (o : EOp) (scmp : Bool) (s : State) (e : Env), selOf i = some (o, scmp) →
    let useB := scmp || o.jf.getLsbD 0
    let regs := jobRegsOf o true useB
    Ready o.h none regs regs s e →
    (e.lanes = [] → Completes i s e fun t g' => Spared s t e e.g noReg noReg g') ∧
    ∀ l ls, e.lanes = l :: ls →
      let q := s.selQueue (e.core / 4)
      let vb := if useB then e.pair 1 l o.vb else 0
      let d := (natsFrom o.vc.toNat 8).map fun r => e.reg 2 l r
      s.selChecks (e.party l) scmp o.jf.toNat o.fmt (e.pair 3 l o.vd) (e.pair 0 l o.va) vb d = none →
      e.g.engine < 255 → (q.jobs.filter fun j => j.gk == e.gk).length < 8 →
      (q.jobs.filter fun j => !s.teamAway j.gk).length < 32 →
      Completes i s e fun t g' => ∃ j : SelJob,
        Spared (s.setSelQueue (e.core / 4) { q with jobs := q.jobs ++ [j] }) t e { e.g with engine := e.g.engine + 1 }
          noReg noReg g' ∧
        (j.gk, j.id, j.lane, j.scmp, j.fmt, j.jf) = (e.gk, e.g.issued, l, scmp, o.fmt, o.jf.toNat) ∧
        (j.recAddr, j.col, j.aux, j.d) =
          (BitVec.ofNat 64 (e.pair 3 l o.vd), BitVec.ofNat 64 (e.pair 0 l o.va), BitVec.ofNat 64 vb, d) ∧
        (j.started, j.pass, j.cursor, j.emitted, j.paused) = (false, 0, 0, 0, none)

/-- R376, R377, R379, R381: `msg` captures 16 registers of its lowest active lane with the node, vault and offset;
`coll` captures its descriptor once the accesses of earlier words are performed and its list, where it can be read, is
read. Each takes a place at its die's engine and raises the engine counter. When the list of a coll is read is the
model's reading (log entry 41), and that a list which cannot be read is left to the job is its choice (log entry 70). -/
def Obligations.FabricWordsQueue : Prop :=
  ∀ (o : EOp) (s : State) (e : Env) (l : Nat) (ls : List Nat), e.lanes = l :: ls → e.g.engine < 255 →
    s.collFull (e.core / 96) e.gk = false →
    (∀ v off, Ready o.h none [span true o.va, span false o.vb, (o.vc.toNat, 16)]
        [span true o.va, span false o.vb, (o.vc.toNat, 16)] s e →
      windowOf (e.pair 0 l o.va) = some (.vault v off) → off % 64 = 0 →
      (e.reg1 1 l o.vb = 1023 ∨ (e.reg1 1 l o.vb < 1023 ∧ s.nodeValid (e.reg1 1 l o.vb) = true)) →
      Completes (.msg o) s e fun t g' => ∃ key m, s.msgs.find key = none ∧
        Spared { s with msgs := s.msgs.put key m } t e { e.g with engine := e.g.engine + 1 } noReg noReg g' ∧
        (m.gk, m.id, m.node, m.vault, m.offset) = (e.gk, e.g.issued, e.reg1 1 l o.vb, v, off) ∧
        m.data = ((natsFrom o.vc.toNat 16).map fun r => e.reg 2 l r) ∧ m.sender = none ∧ m.sent = false) ∧
    ∀ s1, Ready o.h none [span true o.va, span true o.vb, (o.vc.toNat, 8)]
        [span true o.va, span true o.vb, (o.vc.toNat, 8)] s e →
      let d := (natsFrom o.vc.toNat 8).map fun r => e.reg 2 l r
      collDescrOk d = true → misaligned (collListAddr d) 4 = false →
      misaligned (e.pair 0 l o.va) (collElem o.fmt (o.jf.toNat % 4)) = false →
      misaligned (e.pair 1 l o.vb) (collElem o.fmt (o.jf.toNat % 4)) = false →
      s.dirtyBad e.core = none → s.beforeAll e.gk e.g.issued (e.g.pos e.run.tag) = some s1 →
      let range := s1.collRange (e.party l) false (collListAddr d) (4 * collP d)
      let queued (s3 : State) (list : Option (List Byte)) : Prop := Completes (.coll o) s e fun t g' => ∃ x : CollPart,
        Spared (s3.setCollQueue (e.core / 96) (s3.collQueue (e.core / 96) ++ [x])) t e
          { e.g with engine := e.g.engine + 1 } noReg noReg g' ∧
        (x.gk, x.id, x.lane, x.die, x.fmt, x.fn) = (e.gk, e.g.issued, l, e.core / 96, o.fmt, o.jf.toNat % 4) ∧
        (x.d, x.list, x.paths, x.nofe) = (d, list, s1.pathTable, o.jf.getLsbD 2) ∧
        (x.src, x.dst) = (BitVec.ofNat 64 (e.pair 0 l o.va), BitVec.ofNat 64 (e.pair 1 l o.vb))
      (∀ segs fill s2 list, range = .ok segs fill → s1.segsDown segs = none →
        s1.readSegsFor e.gk e.g.issued segs = .ok (s2, list) → listOk s1.pathTable d (e.core / 96) list = true →
        queued ((s2.fillTlb fill).count e.la.ctx 12 (vaultBytes segs)) (some list)) ∧
      ((∀ segs fill, range = .ok segs fill → s1.segsDown segs ≠ none ∨
          ∃ a, s1.readSegsFor e.gk e.g.issued segs = .error a) →
        queued s1 none)

/-- R323 to R325: `launch` checks and captures the address of a record of 256 bytes and counts in the engine counter;
`evsig` captures an index and an amount and counts in the stores counter; an index that the context does not own is
`PROT`. With no active lane neither does anything. -/
def Obligations.LaunchAndSignalWords : Prop :=
  ∀ (o : EOp) (s : State) (e : Env),
    (Ready o.h none [span true o.va] [span true o.va] s e →
      (e.lanes = [] → Completes (.launch o) s e fun t g' => Spared s t e e.g noReg noReg g') ∧
      ∀ l ls tgt nc fill, e.lanes = l :: ls →
        s.checkAccess (e.party l) e.core (e.pair 0 l o.va) 256 256 false false = .ok tgt nc fill → e.g.engine < 255 →
        Completes (.launch o) s e fun t g' =>
          Spared (s.fillTlb fill) t e { e.g with engine := e.g.engine + 1 } noReg noReg g' ∧
          ∃ a x, g'.ops = e.g.ops ++ [a] ∧ a.kind = .launch ∧ a.id = e.g.issued ∧ a.complete = false ∧
            a.vd = o.jf.toNat % 16 ∧ a.lanes = [x] ∧ x.lane = l ∧ x.target = tgt ∧ x.done = false ∧
            x.ea = BitVec.ofNat 64 (e.pair 0 l o.va)) ∧
    (Ready o.h none [span false o.va, span (o.fmt == .n64) o.vb] [span false o.va, span (o.fmt == .n64) o.vb] s e →
      (e.lanes = [] → Completes (.evsig o) s e fun t g' => Spared s t e e.g noReg noReg g') ∧
      ∀ l ls c, e.lanes = l :: ls → s.ctxs.find e.la.ctx = some c →
        let k := e.reg1 0 l o.va
        (k < 4096 → c.evFirst ≤ k → k < c.evFirst + c.evCount → e.g.stores < 255 →
          Completes (.evsig o) s e fun t g' =>
            Spared s t e { e.g with stores := e.g.stores + 1 } noReg noReg g' ∧
            ∃ a x, g'.ops = e.g.ops ++ [a] ∧ a.kind = .evsig ∧ a.id = e.g.issued ∧ a.complete = false ∧
              a.lanes = [x] ∧ x.lane = l ∧ x.ea = BitVec.ofNat 64 k ∧ x.data = e.val 1 o.fmt l o.vb ∧ x.done = false) ∧
        ((4096 ≤ k ∨ k < c.evFirst ∨ c.evFirst + c.evCount ≤ k) →
          ∃ t, exec (.evsig o) s = .next t ∧ FaultTaken s t e 0x24 0 l))

/-- R218: `crew` takes the mask that the lowest active lane names: 0, or a mask of 2 to 6 groups of the team that have
not retired, its own among them; any other mask is `CREW_BAD` with cause 1. R210, R222: `wld` gives its logical bank a
new generation at the checked arrays and counts in the tile counter. Generations of a bank are the model's own numbers
(log entry 18), and that the mask or an address with an uncorrectable error raises nothing and is a free value is its
reading (log entry 30). -/
def Obligations.CrewsAndWeightLoads : Prop :=
  ∀ (s : State) (e : Env) (l : Nat) (ls : List Nat), e.lanes = l :: ls →
    (∀ (h : Hdr) (va : Reg), Ready h none [span false va] [] s e →
      let x := (s.tileReg e l va.toNat).toNat
      let named := (List.range 16).filter fun i => x.testBit i
      let legal : Prop := x = 0 ∨ (x < 2 ^ 16 ∧ x.testBit e.g.gidx = true ∧ 2 ≤ named.length ∧ named.length ≤ 6 ∧
        ∀ i ∈ named, i < e.tm.p + e.tm.c ∧ (s.group (e.g.team * 16 + i)).isSome)
      (legal → Completes (.crew h va) s e fun t g' =>
        Spared s t e { e.g with crew := BitVec.ofNat 16 x } noReg noReg g') ∧
      (¬ legal → ∃ t, exec (.crew h va) s = .next t ∧ FaultTaken s t e 0x50 1 l)) ∧
    ∀ (o : EOp) (keys : List Nat),
      let regs := (wldArrays o).map fun a => span true a.1
      let bank := if o.jf.getLsbD 0 then 1 else 0
      Ready o.h none regs [] s e →
      s.tileArrays (e.party l) ((wldArrays o).map fun a => (s.tilePair e l a.1, a.2)) = .ok keys → e.g.tile < 255 →
      Completes (.wld o) s e fun t g' => ∃ b,
        Spared (s.onTeam e.g.team fun tm => { tm with lbanks := tm.lbanks.put bank b })
          t e { e.g with tile := e.g.tile + 1 } noReg noReg g' ∧
        (b.elem, b.scale, b.extra, b.fmt, b.status) = (keys.getD 0 0, keys.getD 1 0, keys.getD 2 0, o.fmt, .loading) ∧
        b.gen = ((e.tm.lbanks.find bank).map (·.gen)).getD 0 + 1 ∧
        ∃ x, g'.tiles = e.g.tiles ++ [x] ∧ x.id = e.g.issued ∧ x.complete = false ∧
          x.kind = .wld bank b (o.jf.getLsbD 1) none

/-- R219, R226, R229: an `mma` joins its crew's entry, or opens one bound to its logical bank as that stands, and
counts in the tile counter; a group without a crew makes an entry that is complete at once. Here where the entry has
no cause of `CREW_BAD` and, in a crew, still waits for a group. Which arrivals may still wait is the model's reading
(log entry 31). -/
def Obligations.MmaArrives : Prop :=
  ∀ (o : YOp) (s : State) (e : Env) (cls : Cls), clsOf o.fmt = some cls →
    Ready o.h none [(o.va.toNat, rowRegs o.fmt)] [] s e → e.lanes ≠ [] → o.arow.toNat * 16 + e.g.width ≤ 512 →
    e.g.tile < 255 → s.entriesWait e.g.team →
    let bank := if o.bank then 1 else 0
    let joined (n : Entry) (t : State) (g' : Group) : Prop := ∃ key,
      Spared ({ s with entries := s.entries.put key n }.onTeam e.g.team fun tm => { tm with mmaPrio := o.prio.toNat }) t e
        { e.g with tile := e.g.tile + 1 } noReg noReg g' ∧ n.team = e.g.team ∧ n.mask = e.g.crew ∧
      (∃ a, n.arrivals.getLast? = some a ∧ (a.gk, a.gidx, a.id, a.lanes) = (e.gk, e.g.gidx, e.g.issued, e.lanes) ∧
        (a.va, a.fmt, a.rm, a.bank, a.cz) = (o.va.toNat, o.fmt, o.rm, bank, o.cz) ∧
        (a.arow, a.prio, a.reuse, a.rows) = (o.arow.toNat, o.prio.toNat, o.reuse, none)) ∧
      ∃ x, g'.tiles.getLast? = some x ∧ g'.tiles.length = e.g.tiles.length + 1 ∧ x.id = e.g.issued ∧ x.complete = false ∧
        x.kind = .mma key cls.cols (e.g.keeps.find e.g.crew.toNat).isSome []
    (e.g.crew = 0 → (s.coreEntries e.core).length < 32 →
      ∀ b, e.tm.lbanks.find bank = some b → clsOf b.fmt = some cls →
      Completes (.mma o) s e fun t g' => ∃ n, joined n t g' ∧ n.complete = true ∧ n.bound = some b ∧ n.arrivals.length = 1) ∧
    (e.g.crew ≠ 0 → (∀ i < 16, e.g.crew.getLsbD i = true → (s.group (e.g.team * 16 + i)).isSome) →
      (∃ i < 16, e.g.crew.getLsbD i = true ∧ i ≠ e.g.gidx ∧
        ∀ p ∈ s.entries, p.2.team = e.g.team → p.2.mask = e.g.crew → p.2.joined i = false) →
      match s.joinable e.g.team e.g.crew e.g.gidx with
      | some p => Completes (.mma o) s e fun t g' => ∃ n, joined n t g' ∧ n.complete = false ∧ n.bound = p.2.bound ∧
          n.arrivals.length = p.2.arrivals.length + 1
      | none => (s.openEntries e.g.team e.g.crew.toNat).length < 2 → (s.coreEntries e.core).length < 32 →
          Completes (.mma o) s e fun t g' => ∃ n, joined n t g' ∧ n.complete = false ∧
            n.bound = e.tm.lbanks.find bank ∧ n.arrivals.length = 1)

/-- R154, R232, R233: an accumulator transfer issues: the tile counter goes up by one and an operation on the rows of
its lanes joins the group's tile operations; `accrd` leaves its destinations to the data to come. R226, R232: rows
beyond 511 are `ILL_FIELD`. That the operation keeps the mode of its issue is the model's reading (log entry 34). -/
def Obligations.AccumulatorTransfersIssue : Prop :=
  (∀ (i : Instr) (o : AccOp) (kind : XferKind) (s : State) (e : Env),
    ((i = .accld o ∧ kind = .ld) ∨ (i = .accst o ∧ kind = .st)) →
    Ready o.h none [span true o.va] [] s e → o.arow.toNat * 16 + e.g.width ≤ 512 →
    s.noStops e.la.ctx → e.g.tile < 255 →
    ∀ ls fill, s.xferLanes e (fun l => s.tilePair e l o.va) (xferElems o.fmt (o.jf.toNat + 1)) (o.fmt.width / 8) (kind == .st)
      e.lanes = .ok (ls, fill) →
    Completes i s e fun t g' =>
      if e.lanes = [] then Spared s t e e.g noReg noReg g' ∧ g'.tiles = e.g.tiles
      else Spared (s.fillTlb fill) t e { e.g with tile := e.g.tile + 1 } noReg noReg g' ∧
        ∃ x, g'.tiles = e.g.tiles ++ [x] ∧ x.id = e.g.issued ∧ x.lanes = e.lanes ∧ x.base = o.arow.toNat * 16 ∧
          x.complete = false ∧ x.dests = [] ∧ x.kind = .xfer kind o.col.toNat (o.jf.toNat + 1) o.fmt 0 e.g.mode ls) ∧
  (∀ (o : AccOp) (s : State) (e : Env), o.arow.toNat * 16 + e.g.width ≤ 512 → e.g.tile < 255 → e.lanes ≠ [] →
    let issued (kind : XferKind) (vd : Nat) (g' : Group) : Prop :=
      ∃ x ls, g'.tiles.getLast? = some x ∧ g'.tiles.length = e.g.tiles.length + 1 ∧ x.id = e.g.issued ∧
        x.lanes = e.lanes ∧ x.base = o.arow.toNat * 16 ∧ x.complete = false ∧
        x.kind = .xfer kind o.col.toNat (o.jf.toNat + 1) .f32 vd e.g.mode ls ∧ ls.map (·.lane) = e.lanes
    (Ready o.h none [(o.vd.toNat, o.jf.toNat + 1)] [] s e →
      let writes (l r : Nat) : Prop := l ∈ e.lanes ∧ o.vd.toNat ≤ r ∧ r < o.vd.toNat + (o.jf.toNat + 1)
      Completes (.accrd o) s e fun t g' => Spared s t e { e.g with tile := e.g.tile + 1 } noReg writes g' ∧
        issued .rd o.vd.toNat g' ∧ ∀ l r, writes l r → g'.seen l r = none) ∧
    (Ready o.h none [] [] s e →
      Completes (.accz o) s e fun t g' => Spared s t e { e.g with tile := e.g.tile + 1 } noReg noReg g' ∧
        issued .z o.vd.toNat g')) ∧
  ∀ (i : Instr) (h : Hdr) (arow : BitVec 5) (regs reads : List (Nat × Nat)) (s : State) (e : Env),
    rowWord i = some (h, arow, regs, reads) → s.env h.m = some e → h.m ≠ 0 → h.m.toNat < 2 ^ e.slots.length →
    512 < arow.toNat * 16 + e.g.width → ∃ t, exec i s = .next t ∧ FaultTaken s t e 0x03 0 0

/-! ## Events of the core and of memory -/

/-- R186, R187: a free issue slot (slot 1 only beside a busy slot 0) takes a ready group that no ready group of the
core comes before, and of its gangs the next ready one after the last (R67), or the one that is stepped (R345). Its
pass count is 0 again, those of the other ready groups rise up to 255. R80: a round whose patience has run out closes:
its slices become one gang under their lowest number, in the state of their blocks. When an event happens is the
model's choice (log entry 2), and the turn among gangs goes by tag. R178: a `regang` of the last slices that issues in
this cycle joins the round first. The events `issueSlotArbitration` and `patienceExpiry` complete so. -/
def Obligations.RunsStartAndRoundsClose : Prop :=
  (∀ (s : State) (core slot : Nat), s.candidates core ≠ [] → slot < 2 → s.runs.find (unitKey core slot) = none →
    (slot = 1 → (s.runs.find (unitKey core 0)).isSome) → (∀ p ∈ s.candidates core, p.2.slot < 32) →
    ∃ gk g g' tag t, exec (.issueSlotArbitration core slot) s = .next t ∧
      t = { s with groups := t.groups, runs := t.runs } ∧
      (gk, g) ∈ s.candidates core ∧ (∀ p ∈ s.candidates core, comesBefore s p.2 g = false) ∧
      tag ∈ s.turnGangs g ∧ (∀ x ∈ s.turnGangs g, g.lastTag < x → g.lastTag < tag ∧ tag ≤ x) ∧
      ((∀ x ∈ s.turnGangs g, x ≤ g.lastTag) → ∀ x ∈ s.turnGangs g, tag ≤ x) ∧
      t.runs.find (unitKey core slot) = some ⟨gk, tag, 0, false⟩ ∧
      (∀ k, k ≠ unitKey core slot → t.runs.find k = s.runs.find k) ∧
      t.group gk = some g' ∧ g'.pass = 0 ∧ (g'.lanes, g'.slices, g'.frames) = (g.lanes, g.slices, g.frames) ∧
      (∀ p ∈ s.candidates core, p.1 ≠ gk → ∃ x, t.group p.1 = some x ∧ (p.2.pass < x.pass ∨ p.2.pass = 255)) ∧
      ∀ k, k ∉ (s.candidates core).map (·.1) → t.group k = s.group k) ∧
  ∀ (s : State) (gk : Nat) (g : Group) (tm : Team) (la : Launch) (md : Module) (st : Nat), s.group gk = some g →
    g.stopped = false → (∃ i ∈ g.awaiting, (g.slice i).patience = 0) → s.moduleOf g = some (tm, la, md) →
    s.regangDue tm.core md gk g = false → g.blocks g.awaiting ≠ [] → s.lookup md (g.blocks g.awaiting) = .found st →
    ∃ g' t, exec (.patienceExpiry gk) s = .next t ∧ s.onlyGroup t gk g' ∧
      t = { s with groups := t.groups, ctxs := t.ctxs, teams := t.teams } ∧
      (∀ k, (t.teams.find k).map (fun tm => { tm with requests := [] }) =
        (s.teams.find k).map fun tm => { tm with requests := [] }) ∧
      (∀ i ∈ g.awaiting, g'.slice i = ({ g.slice i with tag := BitVec.ofNat 4 (g.awaiting.headD 0) } : Slice).atStart st
        (if g.awaiting.length = 1 then .lone else .gang)) ∧
      (∀ i, i ∉ g.awaiting → g'.slice i = g.slice i) ∧
      ∀ l, (g'.lane l).blk = (g.lane l).blk ∧ (g'.lane l).depth = (g.lane l).depth ∧
        (g'.lane l).park = (g.lane l).park

/-- R150 to R152, R154, R288: a plain load of a vault, or of HBM without the cache, brings its lane the bytes that
stand there, little-endian, extended by `lds`; a blocking word that finds a granule empty, or others waiting, joins
the queues with all lanes that it still has to perform. A plain store to a vault writes its bytes and no others, and
`fe` = 1 fills its granule; a cached one stays in the core's cache, here while that has room for the line; `feset` and
`feclr` set one full bit. A fence completes: after an acquire wider than core the core's cache is empty, after a
release it holds no dirty byte. The events `loadDataArrival` and `storePerformed` complete so. When an access is
performed is the model's choice (log entry 2); that a blocking word joins the queues with all its lanes at once is its
reading (log entry 29), and so is what data finds of a frame released meanwhile its choice (log entry 66). -/
def Obligations.AccessesPerform : Prop :=
  (∀ (s : State) (gk id : Nat) (g : Group) (a : Access) (x : LaneAcc), NextLane s gk id g a x → a.rmt = false →
    g.saved = false → g.halt = none → x.queued = false →
    (a.kind = .ld ∨ a.kind = .lds → a.fe = 0 → a.order = 0 → s.poisoned x.target a.size = false →
      (isVaultKey x.target = true ∨ (x.nc = true ∧ paKind x.target = .hbm ∧ s.migs = [])) →
      ∃ g' t, exec (.loadDataArrival gk id .plain) s = .next t ∧ LaneDone s t gk g a x g' ∧ t.mem = s.mem ∧
        let v := Memory.num s.mem x.target a.size
        (s.unowned gk a.id x.target a.size →
          (a.kind = .ld → g.frameHere x.depth.toNat (a.vd + (a.size + 3) / 4) → g'.holdsWords a x v ((a.size + 3) / 4)) ∧
          (a.kind = .lds → g.frameHere x.depth.toNat (a.vd + 1) →
            g'.holdsWords a x ((BitVec.ofNat (8 * a.size) v).signExtend 32).toNat 1))) ∧
    (a.kind = .ld ∨ a.kind = .lds → a.fe ≠ 0 →
      ((s.granAt (x.target / 16)).full = false ∨ ∃ w ∈ s.feQ, w.granule = x.target / 16) →
      ∃ g' t, exec (.loadDataArrival gk id .plain) s = .next t ∧ s.onlyGroup t gk g' ∧ t.mem = s.mem ∧
        (g'.loads, g'.frames) = (g.loads, g.frames) ∧
        t.feQ = s.feQ ++ (a.lanes.filter fun y => !y.done).map fun y => ⟨y.target / 16, .lane gk id y.lane, a.fe == 2⟩) ∧
    (a.kind = .st → a.order = 0 → s.Inv → isVaultKey x.target = true →
      ∃ g' t, exec (.storePerformed gk id .plain) s = .next t ∧ LaneDone s t gk g a x g' ∧ g'.frames = g.frames ∧
        wroteOnly s t x.target a.size x.data ∧
        (a.fe = 1 → (t.granAt (x.target / 16)).full = true) ∧
        ∀ i, (a.fe ≠ 1 ∨ i ≠ x.target / 16) → (t.granAt i).full = (s.granAt i).full) ∧
    (a.kind = .st → a.order = 0 → isVaultKey x.target = false → paKind x.target = .hbm → x.nc = false →
      s.cacheRoom (s.seat g).1 x.target →
      ∃ g' t, exec (.storePerformed gk id .plain) s = .next t ∧ LaneDone s t gk g a x g' ∧ g'.frames = g.frames ∧
        t.mem = s.mem ∧
        (∀ j < a.size, (t.cacheOf (s.seat g).1).find (x.target + j) =
          some ⟨BitVec.ofNat 8 (x.data / 256 ^ j), true, false, s.seq⟩) ∧
        ∀ b, (b < x.target ∨ x.target + a.size ≤ b) →
          (t.cacheOf (s.seat g).1).find b = (s.cacheOf (s.seat g).1).find b) ∧
    (a.kind = .feset ∨ a.kind = .feclr → a.order = 0 → isVaultKey x.target = true →
      ∃ g' t, exec (.storePerformed gk id .plain) s = .next t ∧ LaneDone s t gk g a x g' ∧ g'.frames = g.frames ∧
        t.mem = s.mem ∧ (t.granAt (x.target / 16)).full = (a.kind == .feset) ∧
        ∀ i, i ≠ x.target / 16 → t.granAt i = s.granAt i)) ∧
  ∀ (s : State) (gk id : Nat) (g : Group) (a : Access), s.group gk = some g → g.access id = some a → a.kind = .fence →
    a.complete = false → g.fenceReady a = true → s.dirtyBad (s.seat g).1 = none →
    ∃ g' t, exec (.storePerformed gk id .plain) s = .next t ∧ s.onlyGroup t gk g' ∧ g'.frames = g.frames ∧
      g'.access id = some { a with complete := true } ∧
      (a.scope < 2 → t.mem = s.mem ∧ t.caches = s.caches) ∧
      (2 ≤ a.scope → (a.order = 1 ∨ a.order = 3) → t.cacheOf (s.seat g).1 = []) ∧
      (2 ≤ a.scope → ∀ p ∈ t.cacheOf (s.seat g).1, p.2.dirty = false)

/-- R290, R291: a lane of a plain atomic on a vault reads the old value, writes the new one and no other byte, and
brings its lane the old one. R252: a full granule goes to the first waiter that may take it, which leaves the queue; a
consuming one empties the granule. R311: a promotion leaves no dirty byte in the owner's cache, clears the owner and
widens to the package every tag of that core at group or core scope. R383: a peer that does not answer is `ENGINE`
with cause 0x71, deferred, and the destination is not written. The events `atomicPerformed`, `cachePromotion`,
`linkTimeout` and `feWaitSatisfied` complete so. When an event happens is the model's choice (log entry 2); the
time-out's record is its reading (log entries 28 and 42); a granule that waits for a lane too (log entry 29). -/
def Obligations.AtomicsAndWaitersPerform : Prop :=
  (∀ (s : State) (gk id : Nat) (g : Group) (a : Access) (x : LaneAcc), NextLane s gk id g a x →
    (a.kind.isAtomic = true → a.order = 0 → a.fe = 0 → a.rmt = false → s.Inv → isVaultKey x.target = true → s.watch = [] →
      s.poisoned x.target a.size = false →
      ∃ g' t, exec (.atomicPerformed gk id .plain) s = .next t ∧ LaneDone s t gk g a x g' ∧
        let old := Memory.num s.mem x.target a.size
        (s.unowned gk a.id x.target a.size →
          (g.frameHere x.depth.toNat (a.vd + (a.size + 3) / 4) → g'.holdsWords a x old ((a.size + 3) / 4)) ∧
          ∀ v, atomicResult a.kind a.fmt old x.data x.cmp = some v → wroteOnly s t x.target a.size v) ∧
        ∀ b, (b < x.target ∨ x.target + a.size ≤ b) → Memory.byte t.mem b = Memory.byte s.mem b) ∧
    (∀ o, s.promotionOf a x (s.seat g).1 = some o →
      ∃ g' t, exec (.cachePromotion gk id) s = .next t ∧ s.onlyGroup t gk g' ∧
        (g'.loads, g'.stores, g'.frames) = (g.loads, g.stores, g.frames) ∧
        (∀ p ∈ t.cacheOf o, p.2.dirty = false) ∧
        (isVaultKey x.target = true → ∀ i ∈ granulesOf x.target a.size, (t.granAt i).owner = none) ∧
        ∀ i k sc, (t.granAt i).rel = some (.group o k, sc) → 2 ≤ sc) ∧
    (a.kind ≠ .launch → isFabric x.target = true → g.saved = false →
      ∃ g' r t, exec (.linkTimeout gk id) s = .next t ∧ s.onlyGroup t gk g' ∧ t.mem = s.mem ∧
        g'.frames = g.frames ∧ g'.halt = some ⟨.fault, 0x31, s.time, x.lane, g.lastTag, none⟩ ∧ t.records = s.records ++ [r] ∧ r.ty = 1 ∧
        (r.code, r.cause, r.lane, r.addr, r.pos) = (0x31, 0x71, x.lane, x.ea, a.pos) ∧
        r.bits.getLsbD 0 = true ∧ r.bits.getLsbD 2 = true)) ∧
  ∀ (s : State) (w : FeWait) (gk id lane : Nat) (g : Group) (a : Access) (x : LaneAcc), s.firstWaiter w.granule = some w →
    (s.granAt w.granule).full = true → w.who = .lane gk id lane → s.group gk = some g → g.access id = some a →
    a.kind = .ld → a.rmt = false → (a.fe = 1 ∨ a.fe = 2) → a.lanes.find? (fun y => y.lane == lane) = some x →
    a.next = some x → g.mayPerform a x = true → s.dirtyBad (s.seat g).1 = none → isVaultKey x.target = true → x.target / 16 = w.granule → s.poisoned x.target a.size = false → s.migs = [] →
    ∃ g' t, exec (.feWaitSatisfied w.granule) s = .next t ∧ LaneDone s t gk g a x g' ∧
      t.feQ = s.feQ.filter (fun y => y.who != w.who) ∧ (t.granAt w.granule).full = (a.fe == 1)

/-- R294: an `ofadd` lane's contribution is buffered under its key and changes no memory; when every team of the
launch has retired, an address takes its contributions in key order, each sum rounded to nearest even. Here for
contributions to one address that no migration moves and no watchpoint watches. R204: an arrival whose earlier
accesses are performed counts; the last one ends the phase and clears the armed bits of the team. R82: a group whose
slices are DONE and whose counters are 0 retires: its flags join its launch's, and the last one takes its team with
it; here where its release meets no uncorrectable error. The events `orderedAddBuffered`, `orderedAddApply`,
`barrierArrivalSettle` and `groupRetire` complete so. When an event happens is the model's choice (log entry 2), and
that a latched team's groups do not retire is its reading (log entry 44). -/
def Obligations.OrderedAddsBarriersRetirement : Prop :=
  (∀ (s : State) (gk id : Nat) (g : Group) (a : Access) (x : LaneAcc) (tm : Team) (la : Launch) (md : Module),
    NextLane s gk id g a x → s.moduleOf g = some (tm, la, md) → a.kind = .ofadd → a.order = 0 → a.fe = 0 →
    (∀ y ∈ a.lanes, y.value = 0) → s.buffered (stackOf x.target) < 2 ^ 20 →
    ∃ g' t, exec (.orderedAddBuffered gk id) s = .next t ∧ LaneDone s t gk g a x g' ∧
      t = { s with groups := t.groups, launches := t.launches } ∧
      t.launches.find tm.launch = some { la with
        contribs := la.contribs ++ [⟨(gk, a.id), x.target, x.ea, tm.t, g.gidx, x.lane, x.cmp, a.fmt, x.data, none⟩] }) ∧
  (∀ (s : State) (id : Nat) (l : Launch) (a : Nat) (f : Fmt), s.launches.find id = some l →
    l.applied = false → l.ended = false → l.started = true → l.teamsRetired = l.teams → s.Inv →
    (f = .f32 ∨ f = .f64) → (∀ c ∈ l.contribs, c.addr = a ∧ c.fmt = f ∧ c.area = none) → s.migs = [] → s.watch = [] →
    s.poisoned a (f.width / 8) = false →
    ∃ cs t, exec (.orderedAddApply id) s = .next t ∧ cs.Perm l.contribs ∧ cs.Pairwise (fun x y => keyLe x y = true) ∧
      Memory.num t.mem a (f.width / 8) = orderedSum f (Memory.num s.mem a (f.width / 8)) cs ∧
      (∀ b, (b < a ∨ a + f.width / 8 ≤ b) → Memory.byte t.mem b = Memory.byte s.mem b) ∧
      t.launches.find id = some { l with applied := true, contribs := [] } ∧ t.groups = s.groups) ∧
  (∀ (s : State) (gk q point : Nat) (g : Group) (tm : Team), s.group gk = some g → s.teams.find g.team = some tm →
    q < 16 → g.halt = none → g.saved = false → g.arrivals.find? (fun p => p.1 == q) = some (q, point) →
    g.settledMem point = true → (tm.barrier q).count < 16 →
    ((tm.barrier q).count.toNat + 1 < (s.teamGroups g.team).length →
      ∃ tm' t, exec (.barrierArrivalSettle gk q) s = .next t ∧ t.teams.find g.team = some tm' ∧ t.mem = s.mem ∧
        tm'.barrier q = ⟨(tm.barrier q).phase, (tm.barrier q).count + 1,
          (tm.barrier q).groups ||| BitVec.ofNat 16 (2 ^ g.gidx)⟩) ∧
    ((s.teamGroups g.team).length ≤ (tm.barrier q).count.toNat + 1 →
      ∃ tm' t, exec (.barrierArrivalSettle gk q) s = .next t ∧ t.teams.find g.team = some tm' ∧
        ((∀ k ∈ s.teamGroups g.team, ∀ x, s.group k = some x → x.saved = false) → t.mem = s.mem) ∧
        tm'.barrier q = ⟨(tm.barrier q).phase + 1, 0, 0⟩ ∧
        ∀ k ∈ s.teamGroups g.team, ∀ x, t.group k = some x → ∀ y ∈ x.slices, y.armed.getLsbD q = false)) ∧
  ∀ (s : State) (gk : Nat) (g : Group), s.group gk = some g → g.allDone = true → g.stopped = false →
    (g.loads, g.stores, g.engine, g.tile) = (0, 0, 0, 0) → s.holdsRun gk = false →
    (∀ tm, s.teams.find g.team = some tm → tm.latched = false) → s.dirtyBad (s.seat g).1 = none →
    ∃ t, exec (.groupRetire gk) s = .next t ∧ t.group gk = none ∧
      (∀ k, k ≠ gk → (t.group k).isSome = (s.group k).isSome) ∧
      ((∀ k ∈ s.teamGroups g.team, k = gk) → t.teams.find g.team = none) ∧
      ∀ tm l, s.teams.find g.team = some tm → s.launches.find tm.launch = some l →
        ∃ l', t.launches.find tm.launch = some l' ∧ l'.groupsRetired = l.groupsRetired + 1 ∧
          l'.flagsOr = l.flagsOr ||| g.cover.flags

/-- R192: the oldest frame request of a team is served once the free granules cover it: its gang is blocked no more,
or its group is back from its swap (R197). R198: a refilled frame is as it was unless its area was written, here where
no data has arrived for it meanwhile. R195: an
idle spill engine takes, of the teams of its core that want it, the one that has waited longest. R196: it stops where
it is no longer wanted; it moves the first idle frame to the lowest units of the area that hold it, and writes only
there; with nothing left to move, and no frame held for a capture, the request's gang takes `SPILL_FULL` with cause 2
and the request is gone. The events `frameRequestServed`, `spillEngineStart` and `frameMove` complete so. Which idle
frame is first is the model's reading (log entry 32), places are by first fit (log entry 19). -/
def Obligations.FramesAreServedAndMoved : Prop :=
  (∀ (s : State) (team : Nat) (tm : Team) (r : FrameReq) (rest : List FrameReq) (g : Group),
    s.teams.find team = some tm → tm.saved = false → tm.queue = r :: rest → r.size ≤ s.freeGranules team →
    s.group r.gk = some g →
    let same (x : FrameReq) : Bool := x.gk == r.gk && x.tag == r.tag && x.restore == r.restore
    (r.refill = [] → r.restore = false →
      ∃ t g' tm', exec (.frameRequestServed team) s = .next t ∧ s.onlyGroup t r.gk g' ∧ t.mem = s.mem ∧
        g'.blocked.find r.tag = none ∧ (g'.pass, g'.frames, g'.swapped) = (g.pass, g.frames, g.swapped) ∧
        t.teams.find team = some tm' ∧
        tm'.requests = tm.requests.map fun x => if same x then { x with served := true, refill := [] } else x) ∧
    (r.refill = [] → r.restore = true →
      ∃ t g' tm', exec (.frameRequestServed team) s = .next t ∧ s.onlyGroup t r.gk g' ∧ t.mem = s.mem ∧
        (g'.swapped, g'.pass, g'.frames) = (false, 0, g.frames) ∧ (∀ p ∈ g'.blocked, p.2 ≠ .frame) ∧
        t.teams.find team = some tm' ∧
        tm'.requests = tm.requests.filter fun x => !same x) ∧
    ∀ d f u n since la md keys, r.refill = [d] → s.moduleOf g = some (tm, la, md) → g.team = team →
      g.frames.find d = some f → f.place = .spilled u n since → f.late = [] →
      s.areaKeys la.ctx tm.core (spillBase la tm.t + u * 256) n = some keys →
      (∀ k ∈ keys, s.writtenSince k 256 since = false) →
      ∃ t g' f', exec (.frameRequestServed team) s = .next t ∧ s.onlyGroup t r.gk g' ∧ t.mem = s.mem ∧
        g'.frames.find d = some f' ∧ f.movedTo .pool f' ∧ ∀ d', d' ≠ d → g'.frames.find d' = g.frames.find d') ∧
  (∀ (s : State) (core : Nat), s.spill.find core = none →
    (∃ p ∈ s.teams, p.2.core = core ∧ s.engineWanted p.1 = true) →
    ∃ p, p ∈ s.teams ∧ p.2.core = core ∧ s.engineWanted p.1 = true ∧
      (∀ q ∈ s.teams, q.2.core = core → s.engineWanted q.1 = true → s.wantedSince p.1 ≤ s.wantedSince q.1) ∧
      exec (.spillEngineStart core) s = .next { s with spill := s.spill.put core p.1 }) ∧
  ∀ (s : State) (core team : Nat), s.spill.find core = some team →
    (s.engineWanted team = false → exec (.frameMove core) s = .next { s with spill := s.spill.del core }) ∧
    ∀ (tm : Team) (r : FrameReq) (rest : List FrameReq), s.engineWanted team = true → s.teams.find team = some tm →
      tm.queue = r :: rest → s.freeGranules team < r.size →
      (∀ k d more g f la md u keys, s.idleFrames team r.uses = (k, d) :: more → s.group k = some g →
        s.moduleOf g = some (tm, la, md) → g.team = team → g.frames.find d = some f →
        firstFit (s.spillUsed team) la.spillUnits (frameUnits f.seeds.length g.width) = some u →
        s.areaKeys la.ctx tm.core (spillBase la tm.t + u * 256) (frameUnits f.seeds.length g.width) = some keys → s.Inv →
        ∃ t g' f', exec (.frameMove core) s = .next t ∧ s.onlyGroup t k g' ∧ t.spill = s.spill ∧
          g'.frames.find d = some f' ∧ f.movedTo (.spilled u (frameUnits f.seeds.length g.width) s.seq) f' ∧
          (∀ d', d' ≠ d → g'.frames.find d' = g.frames.find d') ∧
          ∀ b, (∀ x ∈ keys, b < x ∨ x + 256 ≤ b) → Memory.byte t.mem b = Memory.byte s.mem b) ∧
      ∀ g, s.idleFrames team r.uses = [] → s.swapCandidates team r.gk = [] → s.heldBack team r.uses = false →
        s.group r.gk = some g →
        ∃ t g' tm' x, exec (.frameMove core) s = .next t ∧ s.onlyGroup t r.gk g' ∧ t.mem = s.mem ∧
          g'.halt = some ⟨.fault, 0x11, s.time, 0, r.tag, none⟩ ∧ t.records = s.records ++ [x] ∧
          (x.ty, x.code, x.cause) = (1, 0x11, 2) ∧ t.spill.find core = none ∧ t.teams.find team = some tm' ∧
          ∀ y ∈ tm'.requests, ¬ (y.gk = r.gk ∧ y.tag = r.tag ∧ y.restore = r.restore)

/-- R260: the steps of a copy job that is alone in its queue: step 1 checks and translates the bytes of its first
chunk, which with `fes` then waits in the queues of its granules, here while none of them is full; the chunk reads its
pieces in turn; in one format the bytes stay as they are; each is written to its
destination, whose vault granules are then set full one by one; after its last chunk the job leaves its queue and the
engine counter. R271, R274: a chunk of 4,096 elements of an `srank` puts its candidates into their bins and the job
goes on behind them. R381: a held message is written to its inbox once the four granules are empty, which are then
full. R379: a collective folds the contributions in rank order; here an integer sum, modulo 2^32, for one participant
whose destination is in a vault. The events `copyChunk`, `selectionChunk`, `messageDelivery` and `collectiveFold`
complete so. The grain of the work is the model's choice (log entry 36); undefined inputs are excluded (log entry 35).
-/
def Obligations.EnginesWork : Prop :=
  (∀ (s : State) (cl last : Nat) (j : CopyJob) (p : Party) (g : Group), s.copyQueue cl = ⟨[j], last⟩ →
    s.jobParty j.gk j.lane = some p → s.group j.gk = some g →
    let goesOn (t : State) (flags : Word) (w : ChunkWork) : Prop :=
      t.groups = s.groups ∧ t.copyQueue cl = ⟨[{ j with flags := flags, work := some w }], j.gk⟩
    (∀ sf src dst f1 f2, j.work = none → s.copyRuns j = true → j.kind = .copy → (j.row, j.chunk) = (0, 0) →
      s.dirtyBad p.core = none → srcFmt j.d = some sf →
      let s1 := (s.setCopyQueue cl ⟨[j], j.gk⟩).releaseAction p.core 2
      s1.checkRanges p false (srcRanges j.d sf j.src.toNat 0 0 (min 1024 (cols j.d))) = .ok src f1 →
      s1.checkRanges p true (dstRanges j.d j.fmt j.dst.toNat 0 0 (min 1024 (cols j.d))) = .ok dst f2 →
      let begun (stage : ChunkStage) (queued : List FeWait) : Prop :=
        ∃ t, exec (.copyChunk cl) s = .next t ∧ (t.mem, t.tlb) = ((s1.fillTlb (f1 ++ f2)).mem, (s1.fillTlb (f1 ++ f2)).tlb) ∧
          t.feQ = s1.feQ ++ queued ∧ goesOn t j.flags ⟨stage, src, dst, [], src, [], [], []⟩
      (j.jf.testBit 0 = false → begun .read []) ∧
      (j.jf.testBit 0 = true → segGranules src ≠ [] → (∀ i ∈ segGranules src, (s1.granAt i).full = false) →
        s1.chunkGranules (.chunk cl j.gk j.id) = [] →
        begun .wait ((segGranules src).map fun i => ⟨i, .chunk cl j.gk j.id, j.jf.testBit 1⟩))) ∧
    ∀ w : ChunkWork, j.work = some w →
      (∀ x rest, w.stage = .read → w.left = x :: rest → isFabric x.target = false → s.migs = [] →
        s.poisoned x.target x.len = false → s.unowned j.gk j.id x.target x.len →
        ∃ t, exec (.copyChunk cl) s = .next t ∧ t.mem = s.mem ∧
          goesOn t j.flags { w with left := rest, got := w.got ++ Memory.bytes s.mem x.target x.len }) ∧
      (w.stage = .read → w.left = [] → (∀ x ∈ w.dst, isFabric x.target = false) → srcFmt j.d = some j.fmt →
        j.fmt.isBlock = false → j.fmt.width % 8 = 0 →
        w.got.length = min 1024 (cols j.d - j.chunk * 1024) * (j.fmt.width / 8) →
        ∃ t, exec (.copyChunk cl) s = .next t ∧ t.mem = s.mem ∧
          goesOn t j.flags { w with stage := .write, out := splitBytes w.dst w.got }) ∧
      (∀ x bs rest, w.stage = .write → w.out = (x, bs) :: rest → isVaultKey x.target = true →
        (∀ y ∈ rest, y.1.target / 16 ≠ x.target / 16) → s.Inv →
        ∃ t, exec (.copyChunk cl) s = .next t ∧ wroteOnly s t x.target bs.length (ofLeBytes bs) ∧
          goesOn t j.flags { w with out := rest }) ∧
      (∀ i rest, w.stage = .fill → w.fills = i :: rest →
        ∃ t, exec (.copyChunk cl) s = .next t ∧ t.mem = s.mem ∧ (t.granAt i).full = true ∧
          (∀ k, k ≠ i → t.granAt k = s.granAt k) ∧ goesOn t j.flags { w with fills := rest }) ∧
      (w.stage = .fill → w.fills = [] → cols j.d ≤ (j.chunk + 1) * 1024 → j.row = rowsLess1 j.d → j.stop = none →
        ∃ t g', exec (.copyChunk cl) s = .next t ∧ s.onlyGroup t j.gk g' ∧ g'.engine = g.engine - 1 ∧
          g'.engFlags = g.engFlags ||| j.flags ∧ g'.frames = g.frames ∧ (t.copyQueue cl).jobs = [])) ∧
  (∀ (s : State) (cl last : Nat) (j : SelJob) (p : Party) (s2 : State) (bs : List Byte), s.selQueue cl = ⟨[j], last⟩ →
    s.selRuns j = true → s.jobParty j.gk j.lane = some p → j.scmp = false → j.started = true → j.wtOn = false →
    j.fin = none →
    j.cursor + 4096 < j.count →
    (s.setSelQueue cl ⟨[j], j.gk⟩).selGet p j.gk j.id 0x22 (columnRanges j.fmt j.d j.col.toNat j.cursor 4096) = .ok s2 bs →
    ∃ t, exec (.selectionChunk cl) s = .next t ∧ t.groups = s.groups ∧ t.mem = s2.mem ∧
      (t.selQueue cl).jobs = [{ j with
        cursor := j.cursor + 4096,
        bins := ((j.elems j.cursor 4096 bs).filter j.candidate).foldl (fun b x => addBin b (j.digit x.key) x.i 1) j.bins }]) ∧
  (∀ (s : State) (index : Nat) (m : Message) (g : Group), s.msgs.find index = some m → m.sent = true → m.node = 1023 →
    m.sender = none → m.data.length = 16 → s.group m.gk = some g → g.saved = false → s.watch = [] → s.Inv →
    (s.heldAt m.vault).find? (fun p => p.2.offset == m.offset) = some (index, m) →
    let key := vaultKey m.vault m.offset
    (∀ i < 4, (s.granAt (key / 16 + i)).full = false) →
    ∃ t g', exec (.messageDelivery index .plain) s = .next t ∧ s.onlyGroup t m.gk g' ∧ g'.engine = g.engine - 1 ∧
      t.msgs.find index = none ∧ wroteOnly s t key 64 (ofLeBytes (m.data.flatMap fun w => leBytes w.toNat 4)) ∧
      ∀ i < 4, (t.granAt (key / 16 + i)).full = true) ∧
  ∀ (s : State) (index : Nat) (c : Coll) (x : CollPart) (g : Group) (list : List Byte) (remote : List (Nat × Option (List Byte)))
    (ds : List (List Byte)) (a k port : Nat), s.colls.find index = some c → c.result = none →
    c.parts = [x] → x.list = some list → s.group x.gk = some g → g.saved = false → s.watch = [] → s.Inv →
    (x.fmt = .i32 ∨ x.fmt = .n32) →
    x.fn = 0 → x.nofe = false →
    s.contributions c list x.paths (collN x.d * 4) remote (natsFrom 0 (collP x.d)) = .ok (some ds) → s.collTaint x = false →
    s.destOf x (collN x.d * 4) = .ready [⟨a, k, collN x.d * 4, port⟩] [] → isVaultKey k = true →
    ∃ t g', exec (.collectiveFold index remote) s = .next t ∧ s.onlyGroup t x.gk g' ∧ g'.engine = g.engine - 1 ∧
      t.colls.find index = none ∧ (t.granAt (k / 16)).full = true ∧
      (∀ e < collN x.d, Memory.num t.mem (k + 4 * e) 4 = (ds.map fun d => field d (4 * e) 4).sum % 2 ^ 32) ∧
      ∀ b, (b < k ∨ k + collN x.d * 4 ≤ b) → Memory.byte t.mem b = Memory.byte s.mem b

/-- R222, R230: a `wld` that waits for no granule puts its tile into an empty physical bank, or the one used longer
ago, but not into one in use, and its logical bank is ready. R219: the oldest arrival is captured from the banks of
its registers while the latch has room, or has the rows that `reuse` kept for it (R228). R229: a boundary chooses the entry of greatest priority, then the one complete
longest, and passes over the others. R265: weights that no bank holds are loaded again. R231: at most 8 arrays of a
die leave idleness in 100 ns. R215, R219: an entry that runs ends, and each of its rows takes its results. R232, R233:
`accz` clears, `accrd` reads and `accld` and `accst` move columns of a row. The events `weightLoadComplete`,
`rowCapture`, `arrayBoundary`, `arrayStartAdmission`, `weightReload`, `entryExecution` and `tileTransferComplete`
complete so. The order of events is the model's choice (log entry 2), taint by byte stamps its reading (log entry 18),
scheduling points too (log entries 31 and 60). -/
def Obligations.ArraysWork : Prop :=
  (∀ (s : State) (gk id : Nat) (g : Group) (tm : Team) (o : TileOp) (bank : Nat) (b : LBank), s.group gk = some g →
    s.teams.find g.team = some tm → tm.saved = false → g.tiles.find? (fun t => t.id == id && !t.complete) = some o →
    g.tileMay o = true → o.kind = .wld bank b false none → tm.lbanks.find bank = some b → s.latent.granules = [] →
    (∀ p ∈ b.arrays, s.unowned gk id p.1 p.2) →
    ∃ t g' tm', exec (.weightLoadComplete gk id) s = .next t ∧ s.onlyGroup t gk g' ∧ g.tileDone id g' ∧
      (g.saved = false → t.mem = s.mem) ∧
      t.holdsTile s tm.core g.team bank b ∧ t.teams.find g.team = some tm' ∧
      tm'.lbanks.find bank = some { b with status := .ready }) ∧
  (∀ (s : State) (core key : Nat) (n : Entry) (a : Arrival) (g : Group) (tm : Team), (key, n, a) ∈ s.waitingArrivals core →
    (∀ y ∈ s.waitingArrivals core, y = (key, n, a) ∨ a.order < y.2.2.order) → s.teams.find n.team = some tm →
    tm.saved = false → s.latchRows core + a.lanes.length ≤ 768 → s.latent.regs = [] → s.group a.gk = some g →
    (∀ d ∈ a.depths, (g.frames.find d).isSome) → n.arrivals.find? (fun y => y.gk == a.gk) = some a →
    ∃ t n', exec (.rowCapture core) s = .next t ∧
      t = { s with entries := t.entries, free := t.free, latent := t.latent, errCore := t.errCore } ∧
      t.entries.find key = some n' ∧ (∀ k, k ≠ key → t.entries.find k = s.entries.find k) ∧
      n'.arrivals.find? (fun y => y.gk == a.gk) = some (match s.latchHolds core n a with
        | some kept => kept
        | none => { a with
          ecc := []
          rows := some ((a.lanes.zip a.depths).map fun p =>
            (p.1, (rowReads a.fmt).map fun j => (g.bankAt p.2 p.1 (a.va + j)).getD 0)) })) ∧
  (∀ (s : State) (core : Nat), s.chosenEntry core = none → s.boundaryEntries core ≠ [] →
    (∀ p ∈ s.boundaryEntries core, p.2.prio ≤ 3 ∧ p.2.completedAt < 2 ^ 64 ∧
      ((s.teams.find p.2.team).map (·.snum)).getD 0 < 32) →
    ∃ t k n, exec (.arrayBoundary core) s = .next t ∧ t = { s with entries := t.entries, arrays := t.arrays } ∧
      (k, n) ∈ s.boundaryEntries core ∧ (∀ p ∈ s.boundaryEntries core, boundaryBefore s p.2 n = false) ∧
      (t.array core).chosen = some k ∧
      (t.array core).admitted = decide (s.time.toNat < (s.array core).idleSince.toNat + 1000) ∧
      ∀ p ∈ s.boundaryEntries core, p.1 ≠ k → p.2.team ≠ n.team → (∀ q ∈ s.boundaryEntries core, q.1 = p.1 → q = p) →
        t.entries.find p.1 = some { p.2 with passed := p.2.passed + 1 }) ∧
  (∀ (s : State) (core key : Nat) (n : Entry), s.chosenEntry core = some (key, n) →
    ((s.array core).admitted = false → exec (.arrayStartAdmission core) s = .next
      (if s.startedLately (core / 96) < 8 then
        { s with arrays := s.arrays.put core { s.array core with admitted := true, startedAt := some s.time } }
      else s)) ∧
    ∀ (b : LBank) (a : Arrival) (more : List Arrival), n.bound = some b → n.arrivals = a :: more →
      s.residentBank core n.team a.bank b.gen = none → s.latent.granules = [] →
      (∀ p ∈ b.arrays, s.unowned a.gk a.id p.1 p.2) →
      ∃ t, exec (.weightReload core) s = .next t ∧
        t = { s with banks := t.banks, ctxs := t.ctxs, latent := t.latent, errCore := t.errCore } ∧
        t.holdsTile s core n.team a.bank b) ∧
  (∀ (s : State) (core key : Nat) (n : Entry) (b : LBank) (a : Arrival) (bi : Nat) (pb : PBank) (cls : Cls) (s1 : State) (g : Group)
    (tm : Team) (la : Launch) (md : Module) (rows : KMap (List Word)), s.chosenEntry core = some (key, n) →
    n.bound = some b → n.arrivals = [a] → s.residentBank core n.team a.bank b.gen = some (bi, pb) → clsOf a.fmt = some cls →
    cls ≠ .d → (s.array core).admitted = true →
    s.takeBlocks n.team core (dedup ((s.entryRows n).map (· / 16))) = some s1 → s.group a.gk = some g → g.team = n.team →
    s.moduleOf g = some (tm, la, md) → a.rows = some rows → a.undef = [] → a.lanes.Nodup →
    (∀ o, g.tiles.find? (fun t => t.id == a.id) = some o → o.stale = []) → s.tilesOpen n.team →
    s1.latent.accs = [] → (∀ p ∈ b.arrays, s1.writtenSince p.1 p.2 b.since = false) →
    let base := arrivalBase n.mask a.gidx a.arow g.width
    ∃ t g' tm', exec (.entryExecution core) s = .next t ∧ s.onlyGroup t a.gk g' ∧ g.tileDone a.id g' ∧
      t.entries.find key = none ∧ (t.array core).chosen = none ∧ t.teams.find n.team = some tm' ∧
      (∀ l ∈ a.lanes, ∀ col < 128, tm'.accAt (base + l) col = BitVec.ofNat 32 (cellResult cls a.fmt pb.fmt
        (arrayEnv a.mode a.rm a.gidx (gridOf la.record tm.t) (base + l) col) (rowOf a.fmt ((rows.find l).getD []))
        (columnOf pb.fmt pb.elems pb.scales pb.extras col)
        (if a.cz then none else some (tm.accAt (base + l) col).toNat)).1) ∧
      ∀ row col, col < 128 → (∀ l ∈ a.lanes, row ≠ base + l) → tm'.accAt row col = tm.accAt row col) ∧
  ∀ (s : State) (gk id : Nat) (g : Group) (o : TileOp) (kind : XferKind) (col cnt : Nat) (fmt : Fmt) (vd : Nat) (mode : Word)
    (x : XferLane) (tm : Team) (s1 : State), s.group gk = some g → g.saved = false →
    g.tiles.find? (fun t => t.id == id) = some o → o.complete = false → o.kind = .xfer kind col cnt fmt vd mode [x] →
    g.rowsFree o = true → g.xferMay o x (fmt.width / 8) = true → s.teams.find g.team = some tm → s.tilesOpen g.team →
    s.takeBlocks g.team tm.core (dedup (o.lanes.map fun l => (o.base + l) / 16)) = some s1 → s1.latent.accs = [] →
    col + cnt ≤ 128 →
    (kind = .z ∨ kind = .rd ∨ ((kind = .ld ∨ kind = .st) ∧ fmt = .f32 ∧ cnt = 1 ∧
      ∃ k port, x.elems = [⟨k, false, port⟩] ∧ isVaultKey k = true ∧ s1.poisoned k 4 = false ∧ s1.unowned gk id k 4)) →
    ∃ t g' tm', exec (.tileTransferComplete gk id) s = .next t ∧ s.onlyGroup t gk g' ∧ g.tileDone id g' ∧
      t.teams.find g.team = some tm' ∧
      (∀ row c, c < 128 → ¬ ((kind = .z ∨ kind = .ld) ∧ row = o.base + x.lane ∧ col ≤ c ∧ c < col + cnt) →
        tm'.accAt row c = tm.accAt row c) ∧
      (kind = .z → ∀ c, col ≤ c → c < col + cnt → tm'.accAt (o.base + x.lane) c = 0) ∧
      (kind = .rd → g.frameHere x.depth.toNat (vd + cnt) → ∀ i < cnt, ¬ regKey x.depth.toNat x.lane (vd + i) ∈ o.stale →
        g'.bankAt x.depth.toNat x.lane (vd + i) = some (tm.accAt (o.base + x.lane) (col + i))) ∧
      (kind = .ld → ∀ p ∈ x.elems, tm'.accAt (o.base + x.lane) col = BitVec.ofNat 32 (Memory.num s1.mem p.target 4)) ∧
      (kind = .st → s1.Inv → ∀ p ∈ x.elems, wroteOnly s1 t p.target 4 (tm.accAt (o.base + x.lane) col).toNat)

/-- R302: a background pull moves the lowest line of a migration that is not VALID, poison included, and the last one
posts the completion. R287: the scrubber counts corrected errors and poisons a line with an uncorrectable one. R336: a
postable record goes to the fault queue while that has room. R383: a port that goes down stays so; R384: a retried
flit changes nothing. R374: a peer's write in its window is performed and tags its granules, one without the right is
refused. The events background pull, patrol scrub, fault record post, flit retry, port down and inbound access complete
so. The use of head and tail is the model's reading (log entry 13), granule records follow a pulled line (log entry
10). -/
def Obligations.MemoryUpkeepAndPeers : Prop :=
  (∀ (s : State) (id i : Nat) (m : Mig), s.migs = [(id, m)] → m.id = id →
    (m.old = m.new ∨ m.old + m.size ≤ m.new ∨ m.new + m.size ≤ m.old) → i < m.size / 128 → i ∉ m.pulled →
    (∀ j < i, j ∈ m.pulled) → s.Inv →
    let last : Bool := !m.posted && m.pulled.length + 1 == m.size / 128
    ∃ t, exec (.backgroundPull id) s = .next t ∧ t.groups = s.groups ∧
      (∀ b, Memory.byte t.mem b = if m.new + 128 * i ≤ b ∧ b < m.new + 128 * i + 128 then
        Memory.byte s.mem (m.old + 128 * i + (b - (m.new + 128 * i))) else Memory.byte s.mem b) ∧
      (m.new + 128 * i ∈ t.poison ↔ m.old + 128 * i ∈ s.poison) ∧
      t.migs.find id = some { m with pulled := i :: m.pulled, posted := m.posted || last } ∧
      if last then ∃ r, t.records = s.records ++ [r] ∧ r.ty = 3 ∧ r.imm = BitVec.ofNat 16 id else t.records = s.records) ∧
  (∀ (s : State) (stack line : Nat), stack < 12 → line < 2 ^ 29 →
    exec (.patrolScrub stack line .clean) s = .next s ∧
    exec (.patrolScrub stack line .corrected) s =
      .next { s with
        errStack := s.errStack.put stack ((s.errStack.find stack).getD 0 + 1)
        latent := { s.latent with
          blocks1 := s.latent.blocks1.filter fun b => b / 4 != (stack * 2 ^ 36 + line * 128) / 128 } } ∧
    ∃ t, exec (.patrolScrub stack line .uncorrectable) s = .next t ∧ t = { s with poison := t.poison } ∧
      ∀ a, a ∈ t.poison ↔ a = stack * 2 ^ 36 + line * 128 ∨ a ∈ s.poison) ∧
  (∀ (s : State) (r : FaultRec), s.records.find? s.postable = some r → s.faultQ.entries ≠ 0 →
    (s.faultQ.tail.toNat + 1) % s.faultQ.entries.toNat ≠ s.faultQ.head.toNat % s.faultQ.entries.toNat → s.migs = [] →
    s.Inv →
    let a := s.faultQ.base.toNat + s.faultQ.tail.toNat % s.faultQ.entries.toNat * 64
    ∃ t, exec .faultRecordPost s = .next t ∧ t.groups = s.groups ∧ t.records = s.records.erase r ∧
      t.faultQ = { s.faultQ with tail := BitVec.ofNat 32 ((s.faultQ.tail.toNat + 1) % s.faultQ.entries.toNat) } ∧
      t.posted = (if r.ty = 3 then s.posted else s.posted ++ [r]) ∧
      (∀ b, (b < a ∨ a + 64 ≤ b) → Memory.byte t.mem b = Memory.byte s.mem b) ∧
      Memory.num t.mem a 1 = r.ty % 256 ∧ Memory.num t.mem (a + 1) 1 = r.code.toNat ∧
      Memory.num t.mem (a + 2) 1 = r.cause.toNat ∧ Memory.num t.mem (a + 3) 1 = r.bits.toNat ∧
      Memory.num t.mem (a + 4) 2 = r.core % 2 ^ 16 ∧ Memory.num t.mem (a + 6) 1 = r.slot % 256 ∧
      Memory.num t.mem (a + 7) 1 = r.tag % 256 ∧ Memory.num t.mem (a + 8) 4 = r.launch.toNat ∧
      Memory.num t.mem (a + 0x0C) 4 = r.pos.toNat ∧ Memory.num t.mem (a + 0x10) 8 = r.addr.toNat ∧
      Memory.num t.mem (a + 0x18) 1 = r.lane % 256 ∧ Memory.num t.mem (a + 0x1A) 2 = r.under.toNat ∧
      Memory.num t.mem (a + 0x1C) 4 = r.row.toNat ∧ Memory.num t.mem (a + 0x20) 4 = r.col.toNat ∧
      Memory.num t.mem (a + 0x2A) 2 = r.imm.toNat ∧ Memory.num t.mem (a + 0x30) 8 = r.time.toNat ∧
      Memory.num t.mem (a + 0x38) 8 = r.frame.toNat) ∧
  (∀ (s : State) (port : BitVec 4), exec (.flitRetry port) s = .next s ∧
    ∃ t, exec (.portDown port) s = .next t ∧ t = { s with portsDown := t.portsDown } ∧
      ∀ p, p ∈ t.portsDown ↔ p = port.toNat ∨ p ∈ s.portsDown) ∧
  ∀ (s : State) (x : Inbound) (p : PathEntry), s.entryOf x.node.toNat = some p → p.port ∉ s.portsDown → x.message = none →
    x.atomic = none → x.write = true →
    (p.inWrite = false → exec (.inboundAccess x) s = .next s) ∧
    (p.inWrite = true → p.base * 65536 ≤ x.addr → x.addr + x.size ≤ p.limit * 65536 → x.addr + x.size ≤ 0x00C000000000 →
      x.size ≤ 16 → s.migs = [] → s.Inv →
      ∃ t, exec (.inboundAccess x) s = .next t ∧ t.groups = s.groups ∧
        wroteOnly s t x.addr x.size (x.data.1.toNat + 2 ^ 64 * x.data.2.toNat) ∧
        ∀ b, x.addr ≤ b → b < x.addr + x.size → (t.granAt (b / 16)).owner = (s.granAt (b / 16)).owner ∧
          (t.granAt (b / 16)).rel = if x.order = 2 ∨ x.order = 3 then some (.hub, x.scope.toNat) else none)

/-! ## The launch unit -/

/-- R324: a `launch` word whose earlier accesses are performed reads the 256 bytes at its address; they join its device
queue, with its own context and function, once that holds fewer than 64. R325: `evsig` adds its amount to its counter,
modulo 2^64. R318 to R320, R350: an entry that passes its checks takes effect at its queue head. A launch takes the next
id and becomes its queue's current one; a refused one takes none. A module that the loader accepts takes a free handle;
one that is not in use is unloaded. A start entry switches counting on for its queue, a stop entry off. The events
launch record append, event counter add, launch entry, module load, module unload, counter start and counter stop
complete so. Launch ids, handles and places are the model's choice (log entry 19), and so are refusals without an id
(log entry 40) and the module's address (log entry 23). -/
def Obligations.QueueHeadsTakeEntries : Prop :=
  (∀ (s : State) (gk id : Nat) (g : Group) (a : Access) (x : LaneAcc) (more : List LaneAcc), s.group gk = some g →
    g.access id = some a → a.complete = false → a.lanes = x :: more → g.jobReady id = true → s.teamAway gk = false →
    (∀ (tm : Team) (la : Launch) (md : Module), a.kind = .launch → s.moduleOf g = some (tm, la, md) → x.done = false →
      g.saved = false → s.caches = [] → s.migs = [] → s.poisoned x.target 128 = false →
      s.poisoned (x.target + 128) 128 = false → s.unowned gk id x.target 256 →
      paKind x.target ≠ .fabric → paKind (x.target + 128) ≠ .fabric →
      let d := s.deviceQueue (48 + a.vd)
      let record := Memory.bytes s.mem x.target 256
      ∃ g' t b, exec (.launchRecordAppend gk id) s = .next t ∧ s.onlyGroup t gk g' ∧ t.mem = s.mem ∧
        (g'.stores, g'.frames) = (g.stores, g.frames) ∧ g'.access id = some b ∧
        (d.entries.length < 64 → g'.engine = g.engine - 1 ∧ b.complete = true ∧
          t.deviceQueue (48 + a.vd) = { d with entries := d.entries ++ [(la.ctx, la.function, record)] }) ∧
        (64 ≤ d.entries.length → g'.engine = g.engine ∧ b.complete = false ∧ t.deviceQueue (48 + a.vd) = d ∧
          ∃ y ys, b.lanes = y :: ys ∧ y.done = true ∧ y.value = ofLeBytes record)) ∧
    (a.kind = .evsig → s.dirtyBad (s.seat g).1 = none →
      ∃ g' t, exec (.eventCounterAdd gk id) s = .next t ∧ s.onlyGroup t gk g' ∧
        (g'.engine, g'.stores, g'.frames) = (g.engine, g.stores - 1, g.frames) ∧
        (∃ b, g'.access id = some b ∧ b.complete = true) ∧
        t.events.find x.ea.toNat = some ((s.events.find x.ea.toNat).getD 0 + BitVec.ofNat 64 x.data) ∧
        ∀ i, i ≠ x.ea.toNat → t.events.find i = s.events.find i)) ∧
  ∀ (s : State) (q : Nat) (h : HeadEntry), s.headOf q = some h →
    (recKind h.rec0 = 0 → s.launchStatus h = 0 →
      ∃ t l, exec (.launchEntry q) s = .next t ∧ t.groups = s.groups ∧ t.mem = s.mem ∧ t.nextLaunch = s.nextLaunch + 1 ∧
        t.currentOf q = some s.nextLaunch.toNat ∧ t.launches.find s.nextLaunch.toNat = some l ∧
        (l.id, l.queue, l.ctx, l.function, l.record) = (s.nextLaunch, q, h.ctx, h.fn, h.rec0) ∧
        (l.module, l.teams) = (field h.rec0 0 4, field h.rec0 8 4 * field h.rec0 12 4 * field h.rec0 16 4) ∧
        (l.next, l.teamsRetired, l.started, l.ended, l.contribs, l.waitMet) = (0, 0, false, false, [], l.waitHolds s.events)) ∧
    (recKind h.rec0 = 0 → s.launchStatus h ≠ 0 →
      ∃ t, exec (.launchEntry q) s = .next t ∧ t.launches = s.launches ∧ t.nextLaunch = s.nextLaunch ∧ t.groups = s.groups ∧
        t.events = s.events) ∧
    (q < 48 → s.queueFieldsOk h.ctx h.fn h.rec0 = true → zeroBytes h.rec0 0x80 0x100 = true →
      (∀ f ps base, recKind h.rec0 = 1 → field h.rec0 0x10 4 < 2 → zeroBytes h.rec0 0x14 0x40 = true →
        s.hubRead h.ctx (field h.rec0 8 8 / 65536 + 2) (field h.rec0 0 8) (field h.rec0 8 8) = some f →
        s.loaderStatus f (bitOf (field h.rec0 0x10 4) 0 || ((s.ctxs.find h.ctx).map (·.signed)).getD false) = 0 →
        let ss := (sections f).getD []
        let pl := placeFrom 0 ss
        let handle := nextKey s.modules
        relocate f ss pl.1 (Config.moduleVa handle * 65536) = some ps → s.poolPlace pl.2 = some base →
        s.modules.find handle = none ∧
        ∃ t m, exec (.moduleLoad q) s = .next t ∧ t.groups = s.groups ∧ s.sameLaunches t ∧
          t.modules.find handle = some m ∧ (∀ k, k ≠ handle → t.modules.find k = s.modules.find k) ∧
          (m.base, m.size) = (base, pl.2) ∧
          (m.nStates, m.nBlocks, m.nDescrs, m.nKernels, m.h, m.trap) =
            ((modFile f).nStates, (modFile f).nBlocks, (modFile f).nDescrs, (modFile f).nKernels, (modFile f).h,
              (modFile f).trap)) ∧
      (recKind h.rec0 = 2 → zeroBytes h.rec0 4 0x40 = true → (s.modules.find (field h.rec0 0 4)).isSome →
        ∃ t, exec (.moduleUnload q) s = .next t ∧ t.groups = s.groups ∧ s.sameLaunches t ∧
          if s.moduleInUse (field h.rec0 0 4) then t.modules = s.modules
          else t.modules.find (field h.rec0 0 4) = none ∧
            ∀ k, k ≠ field h.rec0 0 4 → t.modules.find k = s.modules.find k) ∧
      (recKind h.rec0 = 3 → field h.rec0 0 8 % 512 = 0 → field h.rec0 0 8 < 2 ^ 56 → 1 ≤ field h.rec0 8 8 →
        field h.rec0 8 8 ≤ 2 ^ 20 → zeroBytes h.rec0 0x10 0x40 = true →
        ∃ t, exec (.counterStart q) s = .next t ∧ t.groups = s.groups ∧ s.sameLaunches t ∧
          t.hostQueue q = { s.hostQueue q with
            ring := (s.hostQueue q).ring.pop
            counting := some (BitVec.ofNat 64 (field h.rec0 0 8), field h.rec0 8 8, 0) }) ∧
      (recKind h.rec0 = 4 → zeroBytes h.rec0 0 0x40 = true →
        ∃ t, exec (.counterStop q) s = .next t ∧ t.groups = s.groups ∧ s.sameLaunches t ∧
          t.hostQueue q = { s.hostQueue q with ring := (s.hostQueue q).ring.pop, counting := none }))

/-- R180, R61 to R63: the team whose turn it is becomes resident whole, its lanes live in the entry block with their
arguments, its scratchpad cleared. R319: a launch whose teams have retired writes its completion record, adds its
signal and is gone. R327, R328: an urgent team that has waited its delay latches the teams of one core, which is kept
for it; the groups of a latched team halt; R330 to R338: settled groups are saved, a latched team whole, and a group
that returns has what its save frame holds, a team's units the bytes of their vault copy; here for a group with no access to issue again and no stop that it owes. The
events team admission,
launch completion, urgency delay expiry, pre-emption halt, context save and team restore complete so. Places are the
model's choice (log entry 19), and what a frame has no field for stays its own copy (log entry 12); stopped groups saved
alone and latched teams are its reading (log entries 26 and 44). -/
def Obligations.TeamsComeAndGo : Prop :=
  (∀ (s : State) (q : Nat) (l : Launch) (p : Place) (m : Module), s.currentOf q = some l.id.toNat →
    s.launches.find l.id.toNat = some l → s.headReady l = true → s.placeFor l = some p → s.modules.find l.module = some m →
    s.chosenQueue = some q → s.dirtyBad p.core = none →
    let key := l.id.toNat * 2 ^ 48 + l.next
    let w := kWidth l.kernel
    ∃ t tm l', exec (.teamAdmission q) s = .next t ∧ t.teams.find key = some tm ∧
      (tm.launch, tm.t, tm.core, tm.width, tm.p, tm.c) = (l.id.toNat, l.next, p.core, w, kP l.kernel, kC l.kernel) ∧
      (tm.saved, tm.latched, tm.requests, tm.lbanks, tm.acc) = (false, false, [], [], []) ∧
      t.launches.find l.id.toNat = some l' ∧ (l'.next, l'.started) = (l.next + 1, true) ∧
      (∀ g slot, p.slots[g]? = some slot → ∃ x, t.group (key * 16 + g) = some x ∧
        (x.team, x.gidx, x.slot, x.resident, x.saved, x.halt) = (key, g, slot, true, false, none) ∧
        (x.loads, x.stores, x.engine, x.tile, x.flags, x.regions) = (0, 0, 0, 0, 0, []) ∧
        x.lanes.length = w ∧
        let live := min (field l.record 0x14 4 - g * w) w
        (∀ i < w, (x.lane i).blk = (if i < live then BitVec.ofNat 12 (kEntry l.kernel) else 0xFFF) ∧
          (x.lane i).depth = 0 ∧ (x.lane i).park = false) ∧
        (live ≠ 0 → ∀ i < w, ∀ j < kArgs l.kernel,
          x.bankAt 0 i j = some (BitVec.ofNat 32 (field l.record (0x80 + 4 * j) 4)))) ∧
      (s.cacheOf p.core = [] → ∀ b, vaultKey (p.core / 4) (p.sUnit * 65536) ≤ b →
        b < vaultKey (p.core / 4) (p.sUnit * 65536) + kScratch l.kernel * 65536 → Memory.byte t.mem b = 0)) ∧
  (∀ (s : State) (id : Nat) (l : Launch), s.launches.find id = some l → l.id.toNat = id → l.started = true →
    l.next = l.teams → l.teamsRetired = l.teams → (l.applied = true ∨ l.contribs = []) → l.counting = none →
    ∃ t, exec (.launchCompletion id) s = .next t ∧ t.launches.find id = none ∧ t.groups = s.groups ∧
      (bitOf (field l.record 0x4A 2) 15 = true →
        let i := field l.record 0x4A 2 % 4096
        t.events.find i = some ((s.events.find i).getD 0 + BitVec.ofNat 64 (field l.record 0x58 8))) ∧
      ∀ pa, field l.record 0x60 8 ≠ 0 → s.recordTarget l.ctx (field l.record 0x60 8) = some pa → s.migs = [] → s.Inv →
        Memory.num t.mem pa 4 = 0 ∧ Memory.num t.mem (pa + 4) 4 = l.id.toNat ∧ Memory.num t.mem (pa + 8) 8 = s.time.toNat ∧
        ∀ b, (b < pa ∨ pa + 16 ≤ b) → Memory.byte t.mem b = Memory.byte s.mem b) ∧
  (∀ (s : State) (q core : Nat) (l : Launch) (since : Dword) (ts : List Nat), s.currentOf q = some l.id.toNat →
    s.launches.find l.id.toNat = some l → l.urgentSince = some since → since ≠ BitVec.allOnes 64 →
    since.toNat + field l.record 0x44 2 * 1000 ≤ s.time.toNat → s.headReady l = true → s.placeFor l = none →
    s.urgentChoice l = some (core, ts) →
    ∃ t, exec (.urgencyDelayExpiry q) s = .next t ∧ s.latched ts { t with launches := s.launches } ∧
      t.launches.find l.id.toNat = some { l with urgentSince := some (BitVec.allOnes 64), urgentCore := some core }) ∧
  (∀ (s : State) (team : Nat) (tm : Team), s.teams.find team = some tm → tm.latched = true → tm.saved = false →
    ∃ t, exec (.preemptionHalt team) s = .next t ∧ t.mem = s.mem ∧ (∀ p ∈ t.runs, p ∈ s.runs) ∧
      (∀ k ∈ s.teamGroups team, ∀ g, s.group k = some g →
        (g.halt = none →
          t.group k = some { g with halt := some ⟨.preempt, 0, s.time, 0, g.step.getD g.lastTag, none⟩, pass := 0 } ∧
          ∀ p ∈ t.runs, p.2.gk ≠ k) ∧
        (g.halt ≠ none → t.group k = some g)) ∧
      ∀ k, k ∉ s.teamGroups team → t.group k = s.group k) ∧
  (∀ (s : State) (team : Nat) (tm : Team), s.teams.find team = some tm → tm.saved = false →
    (tm.latched = true → s.chunkUnderWay team tm.core = false ∧
      ∀ k ∈ s.teamGroups team, ∀ g, s.group k = some g → s.settledGroup k g = true ∨ g.saved = true) →
    (∃ k ∈ s.teamGroups team, ∃ g, s.group k = some g ∧ s.settledGroup k g = true) →
    ∃ t tm', exec (.contextSave team) s = .next t ∧ t.teams.find team = some tm' ∧
      (tm.latched = true → (tm'.saved, tm'.latched, tm'.saveTime) = (true, false, s.time)) ∧
      ∀ k ∈ s.teamGroups team, ∀ g, s.group k = some g → s.settledGroup k g = true →
        ∃ g', t.group k = some g' ∧ (g'.saved, g'.resident) = (true, false) ∧ (g'.lanes, g'.slices) = (g.lanes, g.slices) ∧
          (g'.mode, g'.flags, g'.window, g'.regions) = (g.mode, g.flags, g.window, g.regions) ∧
          ∀ d lane r, g'.bankAt d lane r = g.bankAt d lane r) ∧
  ∀ (s : State) (team k : Nat) (tm : Team) (g : Group), s.teams.find team = some tm → k ∈ s.teamGroups team →
    s.group k = some g → g.saved = true → g.waitsHost = false → k / 16 = team → tm.latched = false →
    s.waitsUrgent tm = false → (∀ a ∈ g.ops, a.complete = true) → g.stopNext = none →
    (tm.saved = false → (∀ j ∈ s.teamGroups team, ∀ x, s.group j = some x → x.saved = true → x.waitsHost = false → j = k) →
      g.slot ∉ s.slotsUsed tm.core → s.weightUsed tm.core + tm.weight ≤ 256 →
      ((∃ p ∈ s.residentTeams tm.core, p.1 = team) ∨ s.poolFits tm.core tm.width tm.quota = true) →
      let x := g.reload (s.frameRead tm) tm.dataOff
      ∃ t g' tm', exec (.teamRestore team) s = .next t ∧ s.onlyGroup t k g' ∧ (s.migs = [] → t.mem = s.mem) ∧
        x.returned g' ∧ t.teams.find team = some tm' ∧
        (g.alone = true → ∀ d f, x.frames.find d = some f → f.isSaved = true → g'.swapped = true ∧
          ∃ r ∈ tm'.requests, r.gk = k ∧ r.restore = true ∧ d ∈ r.refill)) ∧
    ∀ s2, tm.saved = true → s.roomFor team tm (s.goingOn team) = true →
      s.freeBlocks tm.core (s.blocksBack tm) 32 = some s2 →
      let x := g.reload (s2.frameRead tm) tm.dataOff
      let units := List.range' tm.sUnit tm.sUnits ++ List.range' tm.vUnit tm.vUnits
      ∃ t g' tm', exec (.teamRestore team) s = .next t ∧ t.group k = some g' ∧ t.teams.find team = some tm' ∧
        (tm'.saved, tm'.core) = (false, tm.core) ∧ x.returned g' ∧
        (s2.Inv → s2.migs = [] → units.Nodup → tm.frame + tm.vaultOff + units.length * 66048 ≤ 0x00C000000000 →
          ∀ i u, units[i]? = some u → ∀ j < 65536, Memory.byte t.mem (vaultKey (tm.core / 4) (u * 65536) + j) =
            Memory.byte s2.mem (tm.frame + tm.vaultOff + i * 66048 + j))

/-! ## The host's side -/

/-- R361, R362: a command runs only when it stands at the head of the ring, and a payload with a reserved byte that is
not 0 ends with status 2 and no effect. The end of a command writes its status and moves the head. What commands 0x01
to 0x09 do, and that each of them completes so (R297, R300, R302, R326, R327, R337, R338): here without a migration in
the way of the status bytes. The use of the ring is the model's reading (log entry 13); statuses that no rule gives
are its choice (log entry 24). The wait of an invalidate is its reading (log entry 45), and so is that it leaves every
core's cache empty (log entry 61). That an event whose command is not at the head changes nothing is its choice (log entry
5). -/
def Obligations.ContextAndLaunchCommands : Prop :=
  (∀ (i : Instr) (op : Nat) (listed : List (Nat × Nat)) (s : State), commandOf i = some (op, listed) →
    (s.commandHead = none → exec i s = .next s) ∧
    ∀ a e, s.commandHead = some (a, e) →
      (field e 0 2 ≠ op → exec i s = .next s) ∧
      (field e 0 2 = op → reservedZero e listed = false → Refuses i s a)) ∧
  (∀ (s : State) (a st : Nat), st < 2 ^ 16 → s.migs = [] → s.Inv →
    let t := s.endCommand a st
    wroteOnly s t (a + 2) 2 st ∧
      t.cmdRing = { s.cmdRing with head := BitVec.ofNat 32 ((s.cmdRing.head.toNat + 1) % s.cmdRing.entries.toNat) } ∧
      (t.ctxs, t.groups, t.launches, t.records) = (s.ctxs, s.groups, s.launches, s.records)) ∧
  ∀ (s : State) (a : Nat) (e : List Byte),
    (Commanded .createContext s a e → ∀ d, pay e 0 2 < 1024 → s.ctxs.find (pay e 0 2) = none →
      pay e 2 2 < 4096 → pay e 2 2 + pay e 4 2 ≤ 4096 → pay e 6 1 < 2 →
      (∀ p ∈ s.ctxs, pay e 4 2 = 0 ∨ p.2.evCount = 0 ∨ pay e 2 2 + pay e 4 2 ≤ p.2.evFirst ∨
        p.2.evFirst + p.2.evCount ≤ pay e 2 2) →
      pay e 8 8 % 64 = 0 → isPhysical (pay e 8 8) 64 = true → descOf (s.physBytes (pay e 8 8) 64) = some d →
      let c : Ctx := ⟨d, pay e 2 2, pay e 4 2, bitOf (pay e 6 1) 0, [], [], none⟩
      Did .createContext s a { s.correctPhys (pay e 8 8) 64 with ctxs := s.ctxs.put (pay e 0 2) c }) ∧
    (Commanded .destroyContext s a e → s.ctxBusy (pay e 0 2) = true → Refuses .destroyContext s a) ∧
    (Commanded .destroyContext s a e → s.ctxBusy (pay e 0 2) = false → (s.ctxs.find (pay e 0 2)).isSome →
      ∃ s', Did .destroyContext s a s' ∧ s' = { s with ctxs := s.ctxs.del (pay e 0 2), hostQ := s'.hostQ } ∧
        ∀ p ∈ s'.hostQ, p.2.bound.map (·.1) ≠ some (pay e 0 2)) ∧
    (Commanded .bindHostQueue s a e → pay e 0 1 < 48 → pay e 1 1 < 32 →
      (pay e 1 1 = 0 ∨ Config.functionEnabled (pay e 1 1) = true) → (s.ctxs.find (pay e 2 2)).isSome →
      Did .bindHostQueue s a (s.setHostQueue (pay e 0 1)
        { s.hostQueue (pay e 0 1) with bound := some (pay e 2 2, pay e 1 1) })) ∧
    (Commanded .translationInvalidate s a e → (s.ctxs.find (pay e 0 2)).isSome → pay e 8 8 % 65536 = 0 →
      pay e 16 8 % 65536 = 0 → (∀ p ∈ s.ctxGroups (pay e 0 2), p.2.saved = true ∨ p.2.globalPending = false) →
      (∀ x ∈ s.ctxChunks (pay e 0 2), x.2.globalPending = false) →
      ∃ s', Did .translationInvalidate s a s' ∧ s'.ctxs = s.ctxs ∧ (∀ core, s'.cacheOf core = []) ∧
        ((∀ x ∈ s.ctxChunks (pay e 0 2), x.2.pastWait = true) → ∀ x, x ∈ s'.tlb ↔ x ∈ s.tlb ∧ ¬ (x.ctx = pay e 0 2 ∧
          (pay e 16 8 = 0 ∨ (x.va < pay e 8 8 + pay e 16 8 ∧ pay e 8 8 < x.va + x.size))))) ∧
    (Commanded .postMigrationRecord s a e → pay e 2 1 < 2 → s.migs.find (pay e 0 2) = none →
      let size := if pay e 2 1 = 0 then 2 ^ 16 else 2 ^ 21
      pay e 8 8 % size = 0 → pay e 16 8 % size = 0 → pay e 8 8 + size ≤ 0x00C000000000 →
      pay e 16 8 + size ≤ 0x00C000000000 →
      (s.migs.vals.filter fun m => stackOf m.new == stackOf (pay e 16 8)).length < 64 →
      Did .postMigrationRecord s a
        { s with migs := s.migs.put (pay e 0 2) ⟨pay e 0 2, pay e 8 8, pay e 16 8, size, [], false⟩ }) ∧
    (Commanded .releaseMigrationRecord s a e → ∀ m, s.migs.find (pay e 0 2) = some m → m.id = pay e 0 2 →
      m.new = pay e 8 8 → Did .releaseMigrationRecord s a { s with migs := s.migs.del (pay e 0 2) }) ∧
    (Commanded .preEmpt s a e → pay e 4 4 ≤ pay e 8 4 →
      ∃ s' ts, Did .preEmpt s a s' ∧ s.latched ts s' ∧
        ∀ k tm, s.teams.find k = some tm → (k ∈ ts ↔ tm.launch = pay e 0 4 ∧ pay e 4 4 ≤ tm.t ∧ tm.t ≤ pay e 8 4)) ∧
    (Commanded .endLaunch s a e → ∀ l, s.launches.find (pay e 0 4) = some l → l.id.toNat = pay e 0 4 →
      ∃ s', Did .endLaunch s a s' ∧ s'.launches.find (pay e 0 4) = none ∧
        (∀ k, (∀ p ∈ s.teams, p.2.launch = pay e 0 4 → k ∉ s.teamGroups p.1) →
          (s'.group k).isSome = (s.group k).isSome) ∧
        ∀ p ∈ s.teams, p.2.launch = pay e 0 4 → s'.teams.find p.1 = none ∧ ∀ k ∈ s.teamGroups p.1, s'.group k = none) ∧
    (Commanded .faultResponse s a e → pay e 4 1 < 2 → ∀ r g, s.posted = [r] → r.launch = BitVec.ofNat 32 (pay e 0 4) →
      r.time = BitVec.ofNat 64 (pay e 8 8) → r.job = none → (r.ty = 2 ∨ r.code = 0x41 ∨ r.code = 0x42) →
      s.group r.gk = some g → (∀ x, g.stopNext = some x → x.time = r.time ∧ x.gk = r.gk) →
      ∀ h, g.halt = some h → h.time = r.time → h.code = r.code → h.why ≠ .preempt →
      ∃ s' g', Did .faultResponse s a s' ∧ s.onlyGroup s' r.gk g' ∧ s'.posted = [] ∧ s'.mem = s.mem ∧
        (g'.halt, g'.saved, g'.lanes, g'.slices, g'.frames) = (none, g.saved, g.lanes, g.slices, g.frames) ∧
        (∀ x, h.before = some x → (h.tag, x) ∈ g'.skipStop) ∧
        g'.step = if pay e 4 1 = 1 ∧ ((s.launches.find (pay e 0 4)).map (·.breaks)).getD false = true then some h.tag
          else none)

/-- What commands 0x0A to 0x13 do, and that each of them completes so (R236, R342, R346, R352, R354, R356, R362, R368,
R369, R372). Statuses that no rule gives are the model's choice (log entry 24); the attestation's algorithms are
opaque (log entry 7), which written image counts as the newest comes with the event (log entry 8), and the first sample
of a series is the model's reading (log entry 15). -/
def Obligations.DebugAndMeasureCommands : Prop :=
  ∀ (s : State) (a : Nat) (e : List Byte),
    (Commanded .codeBreakpoint s a e → ∀ c, s.ctxs.find (pay e 0 2) = some c → pay e 2 1 < 8 → pay e 3 1 < 2 →
      ∃ s' c', Did .codeBreakpoint s a s' ∧ s' = { s with ctxs := s'.ctxs } ∧ s'.ctxs.find (pay e 0 2) = some c' ∧
        c' = { c with breaks := c'.breaks } ∧
        c'.breaks.find (pay e 2 1) =
          some ⟨BitVec.ofNat 16 (pay e 4 2), BitVec.ofNat 16 (pay e 6 2), pay e 3 1 == 1⟩ ∧
        ∀ i, i ≠ pay e 2 1 → c'.breaks.find i = c.breaks.find i) ∧
    (Commanded .regionStop s a e → pay e 6 1 < 2 →
      ∃ s', Did .regionStop s a s' ∧ s' = { s with regionStops := s'.regionStops } ∧
        ∀ x, x ∈ s'.regionStops ↔
          if x = (BitVec.ofNat 32 (pay e 0 4), BitVec.ofNat 16 (pay e 4 2)) then pay e 6 1 = 1 else x ∈ s.regionStops) ∧
    (Commanded .watchpoint s a e → ∀ v k, pay e 0 1 < 4 → pay e 1 1 < 8 → pay e 18 1 < 16 → pay e 19 1 < 4 →
      (s.ctxs.find (pay e 20 4)).isSome → watchGranule (pay e 0 1) (pay e 8 8) = some (v, k) →
      let w : Watch := ⟨v, k, BitVec.ofNat 16 (pay e 16 2), BitVec.ofNat 8 (pay e 18 1), bitOf (pay e 19 1) 0,
        bitOf (pay e 19 1) 1, pay e 20 4⟩
      Did .watchpoint s a { s with watch := s.watch.put (8 * pay e 0 1 + pay e 1 1) w }) ∧
    (Commanded .timeSeries s a e → 10 ≤ pay e 1 1 → pay e 1 1 ≤ 24 → 1 ≤ pay e 4 4 → pay e 4 4 ≤ 2 ^ 20 →
      pay e 16 8 % 2048 = 0 → isPhysical (pay e 16 8) (pay e 4 4 * 4 * 2048) = true →
      (pay e 0 1 = 0 → Did .timeSeries s a { s with series := { s.series with running := false, held := none } }) ∧
      (pay e 0 1 = 1 → ∃ n, Did .timeSeries s a { s with busy := [], series :=
        ⟨true, pay e 1 1, pay e 4 4, BitVec.ofNat 64 (pay e 8 8), BitVec.ofNat 64 (pay e 16 8), n, [0, 0, 0, 0], none⟩ } ∧
        let due (n : Nat) : Nat := pay e 8 8 + n * 2 ^ pay e 1 1 * 5 / 6
        s.time.toNat ≤ due n ∧ ∀ m < n, due m < s.time.toNat)) ∧
    (Commanded .sampling s a e → ∀ c, s.ctxs.find (pay e 0 2) = some c → pay e 2 1 < 2 → 8 ≤ pay e 3 1 → pay e 3 1 ≤ 20 →
      1 ≤ pay e 4 4 → pay e 4 4 ≤ 2 ^ 20 → pay e 8 8 % 64 = 0 → pay e 8 8 < 2 ^ 56 →
      let x : Option Sampling :=
        if pay e 2 1 = 1 then some ⟨pay e 3 1, pay e 4 4, BitVec.ofNat 64 (pay e 8 8), 0⟩ else none
      ∃ s', Did .sampling s a s' ∧ s' = { s with ctxs := s'.ctxs } ∧
        s'.ctxs.find (pay e 0 2) = some { c with sampling := x }) ∧
    (Commanded .readErrorLog s a e → ∀ pa nc fill, pay e 0 1 = 2 → pay e 2 2 < 12 → (s.ctxs.find (pay e 4 2)).isSome →
      pay e 8 8 % 16 = 0 → pay e 8 8 < 2 ^ 56 → s.translate (pay e 4 2) hubId (pay e 8 8) = .ok pa true nc fill →
      (paKind pa = .hbm ∨ paKind pa = .host) → s.migs = [] → s.latent.blocks1 = [] → s.Inv →
      ∃ s', Did .readErrorLog s a s' ∧ s'.errStack.find (pay e 2 2) = none ∧ s'.groups = s.groups ∧
        wroteOnly s s' pa 8 ((s.errStack.find (pay e 2 2)).getD 0).toNat) ∧
    (Commanded .loadAtomicPathTable s a e →
      let b := s.physBytes (pay e 8 8) (pay e 0 4)
      ∀ es, pay e 8 8 % 16 = 0 → pay e 0 4 = 16 + 16 * field b 4 4 → field b 4 4 ≤ 1023 →
      isPhysical (pay e 8 8) (pay e 0 4) = true → field b 0 2 < 1023 → field b 2 2 = 0 → field b 8 8 = 0 →
      (List.range (field b 4 4)).mapM (fun i => pathEntryOf ((b.drop (16 + 16 * i)).take 16)) = some es →
      Did .loadAtomicPathTable s a { s.correctPhys (pay e 8 8) (pay e 0 4) with pathTable := some ⟨field b 0 2, es⟩ }) ∧
    (Commanded .assignMsiXVectors s a e → pay e 0 1 < 32 → pay e 2 2 < 2048 → pay e 2 2 + pay e 4 2 ≤ 2048 →
      Did .assignMsiXVectors s a { s with vectors := s.vectors.put (pay e 0 1) (pay e 2 2, pay e 4 2) }) ∧
    (Commanded .attest s a e → isPhysical (pay e 0 8) 64 = true → isPhysical (pay e 8 8) 332 = true → s.migs = [] →
      s.Inv →
      ∃ s', Did .attest s a s' ∧ s'.groups = s.groups ∧
        (∀ i < 64, Memory.byte s'.mem (pay e 8 8 + i) = Memory.byte s.mem (pay e 0 8 + i)) ∧
        Memory.num s'.mem (pay e 8 8 + 192) 8 = Config.serial.toNat ∧
        ∀ b, (b < pay e 8 8 ∨ pay e 8 8 + 332 ≤ b) → Memory.byte s'.mem b = Memory.byte s.mem b) ∧
    (∀ newer, Commanded (.writeFirmwareSlot newer) s a e → pay e 0 1 < 2 → pay e 0 1 ≠ s.boot.slot →
      isPhysical (pay e 8 8) (pay e 4 4) = true →
      let image := s.physBytes (pay e 8 8) (pay e 4 4)
      let s1 := s.correctPhys (pay e 8 8) (pay e 4 4)
      (Config.imageVerifies image = true → Did (.writeFirmwareSlot newer) s a
        { s1 with
          flash := s.flash.put (pay e 0 1) image,
          boot := { s.boot with newest := (if newer then pay e 0 1
            else (if s.boot.newest = pay e 0 1 then 1 - pay e 0 1 else s.boot.newest)) } }) ∧
      (Config.imageVerifies image = false → exec (.writeFirmwareSlot newer) s = .next (s1.endCommand a 2)))

/-- R363, R364: `OWNER` changes only by a claim of a valid master while no one holds the device, or, in the hub cycle
of a claim of a higher id, by one of a lower id, and by a handover or a release of its owner. R369: a mailbox request
makes the report of its nonce. R359: the owner's writes reach the fault queue and the command ring, a function's its
own queue and event counters; others change nothing. R358: the owner's PF writes HBM through BAR2, tagged as a release
of the hub at system scope; reads give the bytes, and zeros to a VF. The events of ownership, register write, BAR2 and
the mailboxes complete so, and the resets of one that is not the owner. Who owns an event counter is the model's
choice (log entry 19); what a write that is not allowed does, and the use of the ring, are its reading (log entries 5,
13 and 24). -/
def Obligations.MastersAndRegisters : Prop :=
  ∀ (s : State) (master : BitVec 8), s.boot.status ≠ 2 →
    let m := master.toNat
    (∀ v : Word, exec (.ownerClaim master v) s = .next
      (if (m = 0 ∨ m = 0x40 ∨ (0x80 ≤ m ∧ m < 0x90)) ∧ v = BitVec.ofNat 32 (0x100 + m) ∧
          (s.owner.getLsbD 8 = false ∨ (s.claimed = true ∧ v.toNat < s.owner.toNat))
        then { s with owner := v, claimed := true } else s)) ∧
    (s.served m →
      (∀ v : Word, v.toNat / 256 = 2 → exec (.ownerHandover master v) s =
        .next { s with owner := BitVec.ofNat 32 (v.toNat % 256 + 256), claimed := false }) ∧
      exec (.ownerRelease master) s = .next { s with owner := 0, claimed := false } ∧
      (∀ v : Dword, exec (.registerWrite master 0x5000 8 v) s = .next { s with cmdRing := { s.cmdRing with base := v } } ∧
        exec (.registerWrite master 0x500C 4 v) s = .next { s with cmdRing := { s.cmdRing with tail := v.setWidth 32 } } ∧
        exec (.registerWrite master 0x4000 8 v) s = .next { s with faultQ := { s.faultQ with base := v } } ∧
        exec (.registerWrite master 0x400C 4 v) s = .next { s with faultQ := { s.faultQ with head := v.setWidth 32 } }) ∧
      (∀ k, k ≤ 31 → exec (.registerWrite master 0x5008 4 (BitVec.ofNat 64 (2 ^ k))) s =
        .next { s with cmdRing := { s.cmdRing with entries := BitVec.ofNat 32 (2 ^ k) } }) ∧
      ∀ k, 6 ≤ k → k ≤ 20 → exec (.registerWrite master 0x4008 4 (BitVec.ofNat 64 (2 ^ k))) s =
        .next { s with faultQ := { s.faultQ with entries := BitVec.ofNat 32 (2 ^ k) } }) ∧
    (¬ s.served m → ∀ v : Word, v.toNat / 256 = 2 → exec (.ownerHandover master v) s = .next s ∧
      exec (.ownerRelease master) s = .next s ∧ exec (.coldReset master) s = .next s ∧ exec (.warmReset master) s = .next s ∧
      ∀ off n x, 0x4000 ≤ off → off + n ≤ 0x4020 → exec (.registerWrite master off n x) s = .next s ∧
        exec (.registerWrite master (off + 0x1000) n x) s = .next s) ∧
    (m < 32 → ∀ (q c : Nat) (v : Dword), q < 48 → (s.hostQueue q).bound = some (c, m) →
      exec (.registerWrite master (0x10000 + 0x1000 * q + 0xC) 4 v) s = .next (s.setHostQueue q
        { s.hostQueue q with ring := { (s.hostQueue q).ring with tail := v.setWidth 32 } })) ∧
    (m < 32 → ∀ (i : Nat) (v : Dword), i < 4096 → s.ownsEvent m i = true →
      exec (.registerWrite master (0x100000 + 8 * i) 8 v) s = .next (s.setEvent i v)) ∧
    (hasMailbox m = true → ∃ t x, exec (.attestMailboxRequest master) s = .next t ∧ t = { s with mailboxes := t.mailboxes } ∧
      t.mailbox m = x ∧ (x.control, x.status, x.nonce, x.report) = (1, 1, (s.mailbox m).nonce, (s.mailbox m).report)) ∧
    ((s.mailbox m).status = 1 → ∃ t, exec (.attestReportDone master) s = .next t ∧ t = { s with mailboxes := t.mailboxes } ∧
      (t.mailbox m).status = 2 ∧ (t.mailbox m).nonce = (s.mailbox m).nonce ∧ (t.mailbox m).report.length = 332 ∧
      ∀ i < 64, (t.mailbox m).report.getD i 0 = (s.mailbox m).nonce.getD i 0) ∧
    (∀ (off : Nat) (bs : List Byte), bs ≠ [] → off + bs.length ≤ 0x00C000000000 → s.migs = [] → s.Inv →
      (m = 0 → s.served m → ∃ t, exec (.bar2Write master off bs) s = .next t ∧ t.groups = s.groups ∧
        (∀ b, Memory.byte t.mem b = if off ≤ b ∧ b < off + bs.length then bs.getD (b - off) 0 else Memory.byte s.mem b) ∧
        ∀ b, off ≤ b → b < off + bs.length → (t.granAt (b / 16)).rel = some (.hub, 5)) ∧
      (¬ (m = 0 ∧ s.served m) → exec (.bar2Write master off bs) s = .next s)) ∧
    ∀ off n, off + n ≤ 0x00C000000000 → s.migs = [] → s.poison = [] → s.unowned noGroup 0 off n →
      (m = 0 → ∃ t, exec (.bar2Read master off n) s = .next t ∧
        t = { s with hostRead := Memory.bytes s.mem off n, free := s.free + 1, latent := t.latent, errStack := t.errStack }) ∧
      (1 ≤ m → m < 32 → exec (.bar2Read master off n) s = .next { s with hostRead := List.replicate n 0 })

/-- R331, R365, R366, R368: a start that no step fails makes the package ready from the slot with the newest image, its
tables empty and its pools cleared; one that fails, at step 1 where the slot's image does not verify, at step 2 where the
configuration image does not or where its pools break their limits, goes on, cold, in the other slot, and fails for good
there. R367: a cold reset leaves host memory alone, a warm one HBM
too. R370: the watchdog and a cold plate that stays too hot reset the package cold, with failed steps 0xFF and 0xFE;
before that the clock goes down. R352, R354: a series sample, with the counts latched at its tick, and a program-counter
sample write their records; at the next tick a record that is not yet written is dropped and counted. The events package
start, cold reset, warm reset, watchdog expiry, power loss, cold plate over limit, series sample and program-counter
sample complete so. What outlives a reset is the model's reading (log entry 25), that erased HBM and vault bytes read 0 is
its choice (log entry 1), the outcome of the steps past 2 comes with the event (log entry 8), what counts as busy of a core
is its reading (log entry 15), and so are late samples (log entry 46). -/
def Obligations.StartsResetsAndSamples : Prop :=
  (∀ (s : State) (b : BootRun), s.boot.status = 0 →
    let x := b.image
    let verifies (slot : Nat) : Prop := Config.imageVerifies (s.slotImage slot) = true
    let runs (f : BitVec 8) : Prop := f = 4 ∨ f = 7 ∨ f = 8 ∨ (f = 3 ∧ s.boot.warm = true) ∨
      ((f = 5 ∨ f = 6) ∧ ¬ (s.boot.warm = true ∧ b.retained = true))
    let runsCold (f : BitVec 8) : Prop := 4 ≤ f ∧ f ≤ 8
    let reads : Prop := Config.imageVerifies x.bytes = true ∧ x.saveBase % 2 ^ 30 = 0 ∧ x.saveSize % 2 ^ 30 = 0 ∧
      2 ^ 30 ≤ x.saveSize ∧ x.saveSize ≤ 64 * 2 ^ 30 ∧ x.saveBase + x.saveSize ≤ 0x00C000000000 ∧
      (x.saveBase + x.saveSize ≤ x.poolBase ∨ x.poolBase + x.poolSize ≤ x.saveBase)
    let started (t : State) (slot : Nat) (step : BitVec 8) (warm : Bool) : Prop :=
      t.boot = ⟨1, step, slot, warm, s.boot.newest⟩ ∧ t.image = x ∧
      (t.ctxs, t.modules, t.launches, t.teams, t.groups, t.runs, t.hostQ, t.devQ) = ([], [], [], [], [], [], [], []) ∧
      (s.Inv → ∀ a, Memory.byte t.mem a =
        if (x.saveBase ≤ a ∧ a < x.saveBase + x.saveSize) ∨ (x.poolBase ≤ a ∧ a < x.poolBase + x.poolSize) then 0
        else Memory.byte s.mem a)
    let other := 1 - s.boot.newest
    (verifies s.boot.newest → reads → (∀ f, b.fail = some f → ¬ runs f) → ∃ t, exec (.packageStart b) s = .next t ∧
      started t s.boot.newest s.boot.failedStep (s.boot.warm && b.retained)) ∧
    ∀ f, (if ¬ verifies s.boot.newest then f = 1 else if ¬ reads then f = 2 else b.fail = some f ∧ runs f) →
      (verifies other → reads → (∀ k, b.failOther = some k → ¬ runsCold k) →
        ∃ t, exec (.packageStart b) s = .next t ∧ started t other f false) ∧
      ∀ k, (if ¬ verifies other then k = 1 else if ¬ reads then k = 2 else b.failOther = some k ∧ runsCold k) →
        ∃ t, exec (.packageStart b) s = .next t ∧ (t.boot.status, t.boot.failedStep) = (2, k)) ∧
  (∀ s : State, s.Inv →
    (∀ master : BitVec 8, s.served master.toNat →
      (∃ t, exec (.coldReset master) s = .next t ∧ s.restarted t 0 false ∧ s.onlyHostMemory t) ∧
      ∃ t, exec (.warmReset master) s = .next t ∧ s.restarted t 0 true ∧ t.poison = s.poison ∧
        ∀ b, Memory.byte t.mem b = if b < 0x00C000000000 ∨ (2 ^ 51 ≤ b ∧ b < 2 ^ 52) then Memory.byte s.mem b else 0) ∧
    (∃ t, exec .watchdogExpiry s = .next t ∧ s.restarted t 0xFF false ∧ s.onlyHostMemory t) ∧
    (∃ t, exec .powerLoss s = .next t ∧ s.onlyHostMemory t ∧ (t.boot.status, t.owner) = (0, 0) ∧
      (t.groups, t.ctxs, t.launches, t.portsDown) = ([], [], [], [])) ∧
    (s.clockMHz ≤ 600 → ∃ t, exec .coldPlateOverLimit s = .next t ∧ s.restarted t 0xFE false ∧ s.onlyHostMemory t) ∧
    (600 < s.clockMHz → ∃ mhz, exec .coldPlateOverLimit s = .next { s with clockMHz := mhz, free := s.free + 1 } ∧
      600 ≤ mhz ∧ mhz < s.clockMHz)) ∧
  (∀ (s : State) (n : Nat) (counts : KMap Nat), s.Inv → s.migs = [] → 0 < s.series.q → s.series.held = some (n, counts) →
    let x := s.series
    let due (n : Nat) : Nat := x.t0.toNat + n * 2 ^ x.k * 5 / 6
    ∃ t, exec .seriesSample s = .next t ∧ t.groups = s.groups ∧
      (t.series, t.busy) = ({ x with held := none, dropped := [0, 0, 0, 0] }, s.busy) ∧
      ∀ d < 4, let a := x.base.toNat + (d * x.q + n % x.q) * 2048
        Memory.num t.mem a 8 = n % 2 ^ 64 ∧ Memory.num t.mem (a + 8) 8 = due n % 2 ^ 64 ∧
        Memory.num t.mem (a + 16) 1 = d ∧ Memory.num t.mem (a + 17) 1 = x.k % 256 ∧
        Memory.num t.mem (a + 20) 4 = (x.dropped.getD d 0).toNat ∧
        ∀ i < 384, Memory.num t.mem (a + 64 + 4 * i) 4 = min ((counts.find (d * 384 + i)).getD 0) (2 ^ 24)) ∧
  (∀ (s : State) (cycles ns : Nat), s.series.running = true →
    let x := s.series
    let due (n : Nat) : Nat := x.t0.toNat + n * 2 ^ x.k * 5 / 6
    due x.n ≤ s.time.toNat + ns → s.time.toNat + ns < due (x.n + 1) →
    ∃ counts, (s.tick cycles ns).series = { x with
      n := x.n + 1, held := some (x.n, counts),
      dropped := if x.held.isSome then x.dropped.map (· + 1) else x.dropped }) ∧
  ∀ (s : State) (core gk pa : Nat) (g : Group) (c : Ctx) (x : Sampling) (nc : Bool) (fill : List TlbEntry),
    s.sampleGroup core = some (gk, g) → s.ctxs.find (s.ctxOf g) = some c → c.sampling = some x →
    2 ^ x.j ≤ (s.sampleAge.find core).getD 0 → s.Inv → s.migs = [] →
    s.translate (s.ctxOf g) hubId (x.base.toNat + x.next % x.q * 64) = .ok pa true nc fill →
    (paKind pa = .hbm ∨ paKind pa = .host) →
    ∃ t, exec (.pcSample core) s = .next t ∧ t.groups = s.groups ∧ t.sampled.find core = some (g.slot + 1) ∧
      t.ctxs.find (s.ctxOf g) = some { c with sampling := some { x with next := x.next + 1 } } ∧
      Memory.num t.mem pa 8 = s.time.toNat ∧ Memory.num t.mem (pa + 12) 2 = core % 2 ^ 16 ∧
      Memory.num t.mem (pa + 14) 1 = g.slot % 256 ∧
      ∀ b, (b < pa ∨ pa + 64 ≤ b) → Memory.byte t.mem b = Memory.byte s.mem b

/-- R216: in classes I8 and I4 an accumulator takes the sum of the K exact products and of C, read as i32 or 0 with
`cz`, modulo 2^32; the row's flags are `OVF` where the sum of one of its columns lies outside the i32 range, and no
other. Here for an entry of one group whose weights a bank holds. -/
def Obligations.IntegerMatrixResults : Prop :=
  ∀ (s : State) (core key : Nat) (n : Entry) (b : LBank) (a : Arrival) (bi : Nat) (pb : PBank) (cls : Cls) (w : Nat)
    (s1 : State) (g : Group) (tm : Team) (la : Launch) (md : Module) (rows : KMap (List Word)) (o : TileOp),
    s.chosenEntry core = some (key, n) → n.bound = some b → n.arrivals = [a] →
    s.residentBank core n.team a.bank b.gen = some (bi, pb) →
    (cls = .i8 ∧ w = 8) ∨ (cls = .i4 ∧ w = 4) → clsOf a.fmt = some cls → clsOf pb.fmt = some cls →
    (s.array core).admitted = true →
    s.takeBlocks n.team core (dedup ((s.entryRows n).map (· / 16))) = some s1 → s.group a.gk = some g → g.team = n.team →
    s.moduleOf g = some (tm, la, md) → a.rows = some rows → a.undef = [] → a.lanes.Nodup →
    g.tiles.find? (fun t => t.id == a.id) = some o → o.stale = [] → s.tilesOpen n.team →
    s1.latent.accs = [] → pb.ecc = false → a.ecc = [] → (∀ p ∈ b.arrays, s1.writtenSince p.1 p.2 b.since = false) →
    let base := arrivalBase n.mask a.gidx a.arow g.width
    let product (l col k : Nat) : Int := sext w ((rowOf a.fmt ((rows.find l).getD [])).codes.getD k 0) *
      sext w ((columnOf pb.fmt pb.elems pb.scales pb.extras col).codes.getD k 0)
    let sum (l col : Nat) : Int :=
      ((List.range cls.k).map (product l col)).sum + (if a.cz then 0 else (tm.accAt (base + l) col).toInt)
    ∃ t g' tm' o', exec (.entryExecution core) s = .next t ∧ s.onlyGroup t a.gk g' ∧ g.tileDone a.id g' ∧
      t.teams.find n.team = some tm' ∧
      (∀ l ∈ a.lanes, ∀ col < 128, tm'.accAt (base + l) col = BitVec.ofInt 32 (sum l col)) ∧
      g'.tiles.find? (fun t => t.id == a.id) = some o' ∧ o'.flags = o.flags ∧
      ∀ l ∈ a.lanes, o'.rowFlags.find l =
        some (if ∃ col < 128, sum l col < -2 ^ 31 ∨ 2 ^ 31 ≤ sum l col then 4 else 0)

/-- R245: a launch record at a queue head whose s + v + Cs / 64 KiB exceeds 256 is refused: the launch unit gives it a
status that is not 0, and no launch comes of it. R319, R320: it changes no group and adds to no event counter. That it
takes no launch id is the model's reading (log entry 40). -/
def Obligations.LaunchVaultLimit : Prop :=
  ∀ (s : State) (q : Nat) (h : HeadEntry) (m : Module), s.headOf q = some h → recKind h.rec0 = 0 →
    s.modules.find (recModule h.rec0) = some m →
    let k := s.kernelHeader m (recKernel h.rec0)
    256 * 65536 < (kScratch k + kVault k) * 65536 + recCs h.rec0 →
    s.launchStatus h ≠ 0 ∧
      ∃ t, exec (.launchEntry q) s = .next t ∧ t.launches = s.launches ∧ t.nextLaunch = s.nextLaunch ∧
        t.groups = s.groups ∧ t.events = s.events
end

