-- ==== Sys2Proof/Laws/Memory.lean ====
section
/-! SUPPORT. The laws of memory: a byte read after a write, and that every operation keeps the canonical form. -/

namespace Sys2Proof.Machine

open Sys2Proof

namespace Memory

theorem wfFrom_mono {lo lo' : Nat} (h : lo' ≤ lo) {m : Memory} (hm : wfFrom lo m = true) : wfFrom lo' m = true := by
  cases m with
  | nil => rfl
  | cons c m =>
    obtain ⟨b, w⟩ := c
    simp only [wfFrom, Bool.and_eq_true, decide_eq_true_eq] at hm ⊢
    exact ⟨⟨by omega, hm.1.2⟩, hm.2⟩

/-- Below the first listed address every byte is blank. -/
theorem byte_below {lo : Nat} {m : Memory} (hm : wfFrom lo m = true) {a : Nat} (h : a < lo) : byte m a = blank := by
  cases m with
  | nil => rfl
  | cons c m =>
    obtain ⟨b, v⟩ := c
    simp only [wfFrom, Bool.and_eq_true, decide_eq_true_eq] at hm
    have : b ≠ a := by omega
    have : a < b := by omega
    simp [byte, *]

theorem wfFrom_put {lo : Nat} {m : Memory} (hm : wfFrom lo m = true) {a : Nat} (ha : lo ≤ a) (v : Byte) :
    wfFrom lo (put m a v) = true := by
  induction m generalizing lo with
  | nil => by_cases hv : v = blank <;> simp [put, wfFrom, hv, ha]
  | cons c m ih =>
    obtain ⟨b, w⟩ := c
    simp only [wfFrom, Bool.and_eq_true, decide_eq_true_eq] at hm
    obtain ⟨⟨h1, h2⟩, h3⟩ := hm
    simp only [put]
    split
    · rename_i hab
      by_cases hv : v = blank
      · simp [hv, wfFrom, h1, h2, h3]
      · have : a + 1 ≤ b := by omega
        simp [hv, wfFrom, h2, h3, ha, this]
    · split
      · rename_i e
        subst e
        by_cases hv : v = blank
        · simp [hv, wfFrom_mono (by omega : lo ≤ b + 1) h3]
        · simp [hv, wfFrom, h1, h3]
      · have := ih h3 (by omega : b + 1 ≤ a)
        simp [wfFrom, h1, h2, this]

theorem byte_put {lo : Nat} {m : Memory} (hm : wfFrom lo m = true) (a : Nat) (v : Byte) (x : Nat) :
    byte (put m a v) x = if x = a then v else byte m x := by
  induction m generalizing lo with
  | nil =>
    by_cases hv : v = blank
    · simp [put, hv, byte]
    · simp only [put, hv, if_false, byte]
      by_cases h : a = x
      · simp [h]
      · simp [h, Ne.symm h]
  | cons c m ih =>
    obtain ⟨b, w⟩ := c
    simp only [wfFrom, Bool.and_eq_true, decide_eq_true_eq] at hm
    obtain ⟨⟨h1, h2⟩, h3⟩ := hm
    simp only [put]
    split
    · rename_i hab
      by_cases hv : v = blank
      · subst hv
        rw [if_pos rfl]
        split
        · rename_i e
          subst e
          exact byte_below (lo := b) (by simp [wfFrom, h2, h3]) hab
        · rfl
      · rw [if_neg hv]
        by_cases h : a = x
        · simp [byte, h]
        · have hx : ¬ x = a := fun e => h e.symm
          by_cases h' : x < a
          · have : b ≠ x := by omega
            have : x < b := by omega
            simp [byte, *]
          · simp [byte, h, hx, h']
    · split
      · rename_i e
        subst e
        by_cases hv : v = blank
        · subst hv
          rw [if_pos rfl]
          by_cases h : x = b
          · subst h
            rw [if_pos rfl, byte_below h3 (by omega)]
          · by_cases h' : x < b
            · have : b ≠ x := by omega
              rw [if_neg h, byte_below h3 (by omega)]
              simp [byte, *]
            · have : b ≠ x := by omega
              simp [byte, *]
        · rw [if_neg hv]
          by_cases h : x = b
          · simp [byte, h]
          · have : b ≠ x := by omega
            simp [byte, *]
      · by_cases h : b = x
        · have : ¬ x = a := by omega
          simp [byte, *]
        · by_cases h' : x < b
          · have : ¬ x = a := by omega
            simp [byte, *]
          · simp [byte, h, h', ih h3]

theorem wf_put {m : Memory} (hm : wf m = true) (a : Nat) (v : Byte) : wf (put m a v) = true :=
  wfFrom_put hm (Nat.zero_le a) v

theorem wf_putBytes {m : Memory} (hm : wf m = true) (a : Nat) (bs : List Byte) : wf (putBytes m a bs) = true := by
  induction bs generalizing m a with
  | nil => exact hm
  | cons b bs ih => exact ih (wf_put hm a b) (a + 1)

/-- A read after a write of bytes at rising addresses. -/
theorem byte_putBytes {m : Memory} (hm : wf m = true) (a : Nat) (bs : List Byte) (x : Nat) :
    byte (putBytes m a bs) x = if a ≤ x ∧ x < a + bs.length then bs.getD (x - a) 0 else byte m x := by
  induction bs generalizing m a with
  | nil =>
    have : ¬ (a ≤ x ∧ x < a + ([] : List Byte).length) := by simp
    rw [if_neg this]
    rfl
  | cons b bs ih =>
    rw [putBytes, ih (wf_put hm a b), byte_put hm]
    by_cases h : x = a
    · subst h
      have h1 : ¬ (x + 1 ≤ x ∧ x < x + 1 + bs.length) := by omega
      have h2 : x ≤ x ∧ x < x + (b :: bs).length := by simp
      rw [if_neg h1, if_pos h2, if_pos rfl]
      simp
    · by_cases h' : a ≤ x ∧ x < a + (b :: bs).length
      · have h1 : a + 1 ≤ x ∧ x < a + 1 + bs.length := by simp at h'; omega
        have h2 : x - a = (x - (a + 1)) + 1 := by omega
        rw [if_pos h1, if_pos h', h2, List.getD_cons_succ]
      · have h1 : ¬ (a + 1 ≤ x ∧ x < a + 1 + bs.length) := by simp at h'; omega
        rw [if_neg h1, if_neg h', if_neg h]

theorem wfFrom_filter {lo : Nat} {m : Memory} (hm : wfFrom lo m = true) (p : Host.Cell → Bool) :
    wfFrom lo (m.filter p) = true := by
  induction m generalizing lo with
  | nil => rfl
  | cons c m ih =>
    obtain ⟨b, w⟩ := c
    simp only [wfFrom, Bool.and_eq_true, decide_eq_true_eq] at hm
    obtain ⟨⟨h1, h2⟩, h3⟩ := hm
    by_cases hp : p (b, w)
    · simp [hp, wfFrom, h1, h2, ih h3]
    · simp [hp, wfFrom_mono (by omega : lo ≤ b + 1) (ih h3)]

theorem wf_filter {m : Memory} (hm : wf m = true) (p : Host.Cell → Bool) : wf (m.filter p) = true :=
  wfFrom_filter hm p

theorem wf_clear {m : Memory} (hm : wf m = true) (a n : Nat) : wf (clear m a n) = true := wf_filter hm _

@[simp] theorem bytes_length (m : Memory) (a n : Nat) : (bytes m a n).length = n := by
  induction n generalizing a with
  | zero => rfl
  | succ n ih => simp [bytes, ih]

/-- Byte i of a read. -/
theorem bytes_getD (m : Memory) (a n i : Nat) (h : i < n) (d : Byte) : (bytes m a n).getD i d = byte m (a + i) := by
  induction n generalizing a i with
  | zero => omega
  | succ n ih =>
    cases i with
    | zero => simp [bytes]
    | succ i =>
      rw [bytes, List.getD_cons_succ, ih (a + 1) i (by omega)]
      congr 1
      omega

/-- A range is read in parts. -/
theorem bytes_append (m : Memory) (a n k : Nat) : bytes m a n ++ bytes m (a + n) k = bytes m a (n + k) := by
  induction n generalizing a with
  | zero => simp [bytes]
  | succ n ih =>
    have := ih (a + 1)
    rw [Nat.add_right_comm n 1 k]
    simp only [bytes, List.cons_append]
    rw [← this, Nat.add_assoc a 1 n, Nat.add_comm 1 n]

/-- Reading a range that has just been written gives what was written. -/
theorem bytes_putBytes {m : Memory} (hm : wf m = true) (a : Nat) (bs : List Byte) :
    bytes (putBytes m a bs) a bs.length = bs := by
  apply List.ext_getElem (by simp)
  intro i h1 h2
  have := bytes_getD (putBytes m a bs) a bs.length i h2 0
  rw [byte_putBytes hm, ← List.getElem_eq_getD (h := h1)] at this
  simpa [h2] using this

end Memory

theorem reset_memory_wf : Memory.wf State.reset.mem = true := rfl

end Sys2Proof.Machine
end

