-- ==== Sys2Proof/Laws/Commands.lean ====
section
/-! SUPPORT. What a command of the ring can do (R361, R362), and what reads at homes and writes of memory leave. -/

namespace Sys2Proof.Machine

open Sys2Proof

theorem command_waits {op : Nat} {listed : List (Nat × Nat)} {run : State → List Byte → Option (Nat × State)} {s : State}
    (h : s.commandHead = none) : command op listed run s = .next s := by
  simp [command, h]

theorem command_other {op : Nat} {listed : List (Nat × Nat)} {run : State → List Byte → Option (Nat × State)} {s : State}
    {a : Nat} {e : List Byte} (h : s.commandHead = some (a, e)) (hop : field e 0 2 ≠ op) : command op listed run s = .next s := by
  simp [command, h, hop]

theorem command_refused {op : Nat} {listed : List (Nat × Nat)} {run : State → List Byte → Option (Nat × State)} {s : State}
    {a : Nat} {e : List Byte} (h : s.commandHead = some (a, e)) (hop : field e 0 2 = op) (hz : reservedZero e listed = false) :
    command op listed run s = .next (s.endCommand a 2) := by
  simp [command, h, hop, hz]

theorem command_runs {op : Nat} {listed : List (Nat × Nat)} {run : State → List Byte → Option (Nat × State)} {s s' : State}
    {a st : Nat} {e : List Byte} (h : s.commandHead = some (a, e)) (hop : field e 0 2 = op) (hz : reservedZero e listed = true)
    (hr : run s e = some (st, s')) : command op listed run s = .next (s'.endCommand a st) := by
  simp [command, h, hop, hz, hr]

/-- A stamp changes granules only. -/
theorem stampBytes_gran (s : State) (a n : Nat) : ∃ x, s.stampBytes a n = { s with gran := x } := by
  unfold State.stampBytes
  induction granulesOf a n generalizing s with
  | nil => exact ⟨_, rfl⟩
  | cons g gs ih => exact ⟨_, (ih _).choose_spec⟩

/-- A write changes memory, granules, poison and what is latent only. -/
theorem write_rest (s : State) (a : Nat) (bs : List Byte) :
    ∃ x p l, s.write a bs = { s with mem := Memory.putBytes s.mem a bs, gran := x, poison := p, latent := l } := by
  simp only [State.write]
  split
  · exact ⟨_, _, _, rfl⟩
  · obtain ⟨x, hx⟩ := stampBytes_gran _ a bs.length
    exact ⟨_, _, _, hx⟩

/-- Reading at a home corrects latent errors and counts them; nothing else changes. -/
theorem correctHome_rest (s : State) (a n : Nat) :
    ∃ l c k, s.correctHome a n = { s with latent := l, errCluster := c, errStack := k } := by
  unfold State.correctHome
  split <;> split <;> exact ⟨_, _, _, rfl⟩

theorem correctHome_mem (s : State) (a n : Nat) : (s.correctHome a n).mem = s.mem := by
  obtain ⟨l, c, k, h⟩ := correctHome_rest s a n
  rw [h]

theorem write_mem (s : State) (a : Nat) (bs : List Byte) : (s.write a bs).mem = Memory.putBytes s.mem a bs := by
  obtain ⟨x, p, l, h⟩ := write_rest s a bs
  rw [h]

theorem byte_write {s : State} (hm : Memory.wf s.mem = true) (a : Nat) (bs : List Byte) (x : Nat) :
    Memory.byte (s.write a bs).mem x = if a ≤ x ∧ x < a + bs.length then bs.getD (x - a) 0 else Memory.byte s.mem x := by
  rw [write_mem]
  exact Memory.byte_putBytes hm a bs x

theorem wf_write {s : State} (hm : Memory.wf s.mem = true) (a : Nat) (bs : List Byte) : Memory.wf (s.write a bs).mem = true := by
  rw [write_mem]
  exact Memory.wf_putBytes hm a bs

/-! ### Without a migration (R302) -/

@[simp] theorem liveKey_idle {s : State} (h : s.migs = []) (pa : Nat) : s.liveKey pa = pa := by
  simp [State.liveKey, h, liveFrom]

@[simp] theorem touch_idle {s : State} (h : s.migs = []) (pa : Nat) : s.touch pa = s := by
  simp [State.touch, h, State.touchFrom]

theorem home_idle {s : State} (h : s.migs = []) (target : Nat) : s.home target = (s, target) := by
  simp [State.home, touch_idle h, liveKey_idle h]

/-- What reads of many places at their homes change is what one of them changes. -/
theorem foldl_correctHome {α : Type} (f : State → α → State) (p : α → Nat × Nat)
    (hf : ∀ (s : State) (x : α), s.migs = [] → f s x = s.correctHome (p x).1 (p x).2) (xs : List α) (s : State)
    (h : s.migs = []) : ∃ l c k, xs.foldl f s = { s with latent := l, errCluster := c, errStack := k } := by
  induction xs generalizing s with
  | nil => exact ⟨_, _, _, rfl⟩
  | cons x xs ih =>
    obtain ⟨l, c, k, e⟩ := correctHome_rest s (p x).1 (p x).2
    obtain ⟨l', c', k', e'⟩ := ih (s.correctHome (p x).1 (p x).2) (by rw [e]; exact h)
    exact ⟨l', c', k', by rw [List.foldl_cons, hf s x h, e', e]⟩

/-- Walks correct errors of the entries that they read; nothing else changes. -/
theorem walked_rest {s : State} (h : s.migs = []) (ts : List TlbEntry) :
    ∃ l c k, s.walked ts = { s with latent := l, errCluster := c, errStack := k } :=
  foldl_correctHome _ (fun a => (a, 8)) (fun s a h => by simp [touch_idle h, liveKey_idle h]) _ s h

/-- Keeping translations changes the TLBs, and what the walks have changed. -/
theorem fillTlb_rest {s : State} (h : s.migs = []) (ts : List TlbEntry) :
    ∃ x l c k, s.fillTlb ts = { s with tlb := x, latent := l, errCluster := c, errStack := k } := by
  obtain ⟨l, c, k, e⟩ := walked_rest h ts
  exact ⟨_, l, c, k, by unfold State.fillTlb; rw [e]⟩

@[simp] theorem fillTlb_nil (s : State) : s.fillTlb [] = s := rfl

/-- A read of the device corrects errors; nothing else changes. -/
theorem correctPhys_rest {s : State} (h : s.migs = []) (pa n : Nat) :
    ∃ l c k, s.correctPhys pa n = { s with latent := l, errCluster := c, errStack := k } :=
  foldl_correctHome _ id (fun s x h => by simp [touch_idle h, liveKey_idle h]) _ s h

/-- A write that R308's table does not list writes its bytes. -/
theorem writeQuiet_mem {s : State} (h : s.migs = []) (a : Nat) (bs : List Byte) :
    (s.writeQuiet a bs).mem = Memory.putBytes s.mem a bs := by
  simp [State.writeQuiet, home_idle h, write_mem]

end Sys2Proof.Machine
end

