-- ==== Sys2Proof/Laws/Fields.lean ====
section
/-! SUPPORT. The fields that the encoder lays down are the ones the decoder reads (R33, R34, R38). -/

namespace Sys2Proof

/-! ## Codes -/

theorem Fmt.ofCode_code (f : Fmt) : Fmt.ofCode f.code.toNat = some f := by cases f <;> rfl
theorem Rm.ofCode_code (r : Rm) : Rm.ofCode r.code.toNat = some r := by cases r <;> rfl
theorem Sat.ofCode_code (x : Sat) : Sat.ofCode x.code.toNat = some x := by cases x <;> rfl
theorem Cond.ofCode_code (c : Cond) : Cond.ofCode c.code.toNat = some c := by cases c <;> rfl
theorem Sid.ofCode_code (x : Sid) : Sid.ofCode x.code.toNat = some x := by cases x <;> rfl
theorem PairOp.ofCode_code (x : PairOp) : PairOp.ofCode x.code.toNat = some x := by cases x <;> rfl

theorem bit_toNat (b : Bool) : ((bit b).toNat == 1) = b := by cases b <;> rfl

theorem extract_self {n : Nat} (x : BitVec n) : x.extractLsb' 0 n = x := by simp

/-! ## The parts of a full word -/

section Full

variable (h : Hdr) (form : BitVec 2) (op : BitVec 9) (k : Bool) (vd va vb vc : BitVec 8) (md : BitVec 11)

theorem full_md (lo len : Nat) (hl : lo + len ≤ 11) :
    fld (full h form op k vd va vb vc md) lo len = md.extractLsb' lo len := by
  simp (disch := omega) only [fld, full, BitVec.extractLsb'_append_eq_of_add_le]

theorem full_vc (lo len : Nat) (hl : lo + len ≤ 8) :
    fld (full h form op k vd va vb vc md) (11 + lo) len = vc.extractLsb' lo len := by
  simp (disch := omega) only [fld, full, BitVec.extractLsb'_append_eq_of_le,
    BitVec.extractLsb'_append_eq_of_add_le]
  congr 1; omega

theorem full_vb (lo len : Nat) (hl : lo + len ≤ 8) :
    fld (full h form op k vd va vb vc md) (19 + lo) len = vb.extractLsb' lo len := by
  simp (disch := omega) only [fld, full, BitVec.extractLsb'_append_eq_of_le,
    BitVec.extractLsb'_append_eq_of_add_le]
  congr 1; omega

theorem full_va : fld (full h form op k vd va vb vc md) 27 8 = va := by
  simp (disch := omega) only [fld, full, BitVec.extractLsb'_append_eq_of_le,
    BitVec.extractLsb'_append_eq_of_add_le]
  exact extract_self _

theorem full_vd : fld (full h form op k vd va vb vc md) 35 8 = vd := by
  simp (disch := omega) only [fld, full, BitVec.extractLsb'_append_eq_of_le,
    BitVec.extractLsb'_append_eq_of_add_le]
  exact extract_self _

theorem full_k : flag (full h form op k vd va vb vc md) 43 = k := by
  have : fld (full h form op k vd va vb vc md) 43 1 = bit k := by
    simp (disch := omega) only [fld, full, BitVec.extractLsb'_append_eq_of_le,
      BitVec.extractLsb'_append_eq_of_add_le]
    exact extract_self _
  rw [flag, num, this, bit_toNat]

theorem full_op : num (full h form op k vd va vb vc md) 44 9 = op.toNat := by
  have : fld (full h form op k vd va vb vc md) 44 9 = op := by
    simp (disch := omega) only [fld, full, BitVec.extractLsb'_append_eq_of_le,
      BitVec.extractLsb'_append_eq_of_add_le]
    exact extract_self _
  rw [num, this]

theorem full_form : num (full h form op k vd va vb vc md) 61 2 = form.toNat := by
  have : fld (full h form op k vd va vb vc md) 61 2 = form := by
    simp (disch := omega) only [fld, full, BitVec.extractLsb'_append_eq_of_le,
      BitVec.extractLsb'_append_eq_of_add_le]
    exact extract_self _
  rw [num, this]

theorem full_hdr : hdrOf (full h form op k vd va vb vc md) = h := by
  have hb : fld (full h form op k vd va vb vc md) 63 1 = bit h.b := by
    simp (disch := omega) only [fld, full, BitVec.extractLsb'_append_eq_of_le,
      BitVec.extractLsb'_append_eq_of_add_le]
    exact extract_self _
  have hm : fld (full h form op k vd va vb vc md) 53 8 = h.m := by
    simp (disch := omega) only [fld, full, BitVec.extractLsb'_append_eq_of_le,
      BitVec.extractLsb'_append_eq_of_add_le]
    exact extract_self _
  simp [hdrOf, flag, num, hb, hm, bit_toNat]

end Full

/-! ## The parts of a word whose low 35 bits are given whole -/

section Low

variable (h : Hdr) (op : BitVec 9) (low : BitVec 35)

theorem low_fld (lo len : Nat) (hl : lo + len ≤ 35) : fld (fullLow h op low) lo len = low.extractLsb' lo len := by
  simp (disch := omega) only [fld, fullLow, BitVec.extractLsb'_append_eq_of_add_le]

theorem low_zero : num (fullLow h op low) 35 9 = 0 := by
  have : fld (fullLow h op low) 35 9 = 0 := by
    simp (disch := omega) only [fld, fullLow, BitVec.extractLsb'_append_eq_of_le,
      BitVec.extractLsb'_append_eq_of_add_le]
    exact extract_self _
  rw [num, this]; rfl

theorem low_op : num (fullLow h op low) 44 9 = op.toNat := by
  have : fld (fullLow h op low) 44 9 = op := by
    simp (disch := omega) only [fld, fullLow, BitVec.extractLsb'_append_eq_of_le,
      BitVec.extractLsb'_append_eq_of_add_le]
    exact extract_self _
  rw [num, this]

theorem low_form : num (fullLow h op low) 61 2 = 0 := by
  have : fld (fullLow h op low) 61 2 = 0 := by
    simp (disch := omega) only [fld, fullLow, BitVec.extractLsb'_append_eq_of_le,
      BitVec.extractLsb'_append_eq_of_add_le]
    exact extract_self _
  rw [num, this]; rfl

theorem low_hdr : hdrOf (fullLow h op low) = h := by
  have hb : fld (fullLow h op low) 63 1 = bit h.b := by
    simp (disch := omega) only [fld, fullLow, BitVec.extractLsb'_append_eq_of_le]
    exact extract_self _
  have hm : fld (fullLow h op low) 53 8 = h.m := by
    simp (disch := omega) only [fld, fullLow, BitVec.extractLsb'_append_eq_of_le,
      BitVec.extractLsb'_append_eq_of_add_le]
    exact extract_self _
  simp [hdrOf, flag, num, hb, hm, bit_toNat]

end Low

/-! ## The parts of a pair word (R39) -/

section PairFields

variable (h : Hdr) (a s : Half)

theorem pair_form : num (pairWord h a s) 61 2 = 1 := by
  have : fld (pairWord h a s) 61 2 = 1 := by
    simp (disch := omega) only [fld, pairWord, BitVec.extractLsb'_append_eq_of_le,
      BitVec.extractLsb'_append_eq_of_add_le]
    exact extract_self _
  rw [num, this]; rfl

theorem pair_zero : flag (pairWord h a s) 0 = false := by
  have : fld (pairWord h a s) 0 1 = 0 := by
    simp (disch := omega) only [fld, pairWord, BitVec.extractLsb'_append_eq_of_add_le]
    exact extract_self _
  rw [flag, num, this]; rfl

theorem pair_hdr : hdrOf (pairWord h a s) = h := by
  have hb : fld (pairWord h a s) 63 1 = bit h.b := by
    simp (disch := omega) only [fld, pairWord, BitVec.extractLsb'_append_eq_of_le]
    exact extract_self _
  have hm : fld (pairWord h a s) 53 8 = h.m := by
    simp (disch := omega) only [fld, pairWord, BitVec.extractLsb'_append_eq_of_le,
      BitVec.extractLsb'_append_eq_of_add_le]
    exact extract_self _
  simp [hdrOf, flag, num, hb, hm, bit_toNat]

theorem pair_first : halfOf (pairWord h a s) 27 = some a := by
  have h0 : fld (pairWord h a s) 47 6 = a.op.code := by
    simp (disch := omega) only [fld, pairWord, BitVec.extractLsb'_append_eq_of_le,
      BitVec.extractLsb'_append_eq_of_add_le]
    exact extract_self _
  have h1 : fld (pairWord h a s) 46 1 = bit a.args.k := by
    simp (disch := omega) only [fld, pairWord, BitVec.extractLsb'_append_eq_of_le,
      BitVec.extractLsb'_append_eq_of_add_le]
    exact extract_self _
  have h2 : fld (pairWord h a s) 38 8 = a.args.vd := by
    simp (disch := omega) only [fld, pairWord, BitVec.extractLsb'_append_eq_of_le,
      BitVec.extractLsb'_append_eq_of_add_le]
    exact extract_self _
  have h3 : fld (pairWord h a s) 30 8 = a.args.vs := by
    simp (disch := omega) only [fld, pairWord, BitVec.extractLsb'_append_eq_of_le,
      BitVec.extractLsb'_append_eq_of_add_le]
    exact extract_self _
  have h4 : fld (pairWord h a s) 27 3 = a.args.smod := by
    simp (disch := omega) only [fld, pairWord, BitVec.extractLsb'_append_eq_of_le,
      BitVec.extractLsb'_append_eq_of_add_le]
    exact extract_self _
  simp [halfOf, num, flag, h0, h1, h2, h3, h4, PairOp.ofCode_code, bit_toNat]

theorem pair_second : halfOf (pairWord h a s) 1 = some s := by
  have h0 : fld (pairWord h a s) 21 6 = s.op.code := by
    simp (disch := omega) only [fld, pairWord, BitVec.extractLsb'_append_eq_of_le,
      BitVec.extractLsb'_append_eq_of_add_le]
    exact extract_self _
  have h1 : fld (pairWord h a s) 20 1 = bit s.args.k := by
    simp (disch := omega) only [fld, pairWord, BitVec.extractLsb'_append_eq_of_le,
      BitVec.extractLsb'_append_eq_of_add_le]
    exact extract_self _
  have h2 : fld (pairWord h a s) 12 8 = s.args.vd := by
    simp (disch := omega) only [fld, pairWord, BitVec.extractLsb'_append_eq_of_le,
      BitVec.extractLsb'_append_eq_of_add_le]
    exact extract_self _
  have h3 : fld (pairWord h a s) 4 8 = s.args.vs := by
    simp (disch := omega) only [fld, pairWord, BitVec.extractLsb'_append_eq_of_le,
      BitVec.extractLsb'_append_eq_of_add_le]
    exact extract_self _
  have h4 : fld (pairWord h a s) 1 3 = s.args.smod := by
    simp (disch := omega) only [fld, pairWord, BitVec.extractLsb'_append_eq_of_le,
      BitVec.extractLsb'_append_eq_of_add_le]
    exact extract_self _
  simp [halfOf, num, flag, h0, h1, h2, h3, h4, PairOp.ofCode_code, bit_toNat]

end PairFields

/-! ## Source B, and whole layouts -/

theorem srcOf_full (h : Hdr) (op : BitVec 9) (k : Bool) (vd va vc : BitVec 8) (md : BitVec 11) (b : Src) :
    srcOf (full h b.form op k vd va b.field vc md) (b.word.getD 0) = some b := by
  cases b with
  | reg r =>
    have := full_vb h 0 op k vd va r vc md 0 8 (by omega)
    rw [extract_self] at this
    rw [srcOf, full_form, Src.form, Src.field]
    exact congrArg (fun x => some (Src.reg x)) this
  | lit sel v =>
    have h6 := full_vb h 2 op k vd va ((0 : BitVec 6) ++ sel) vc md 2 6 (by omega)
    have h2 := full_vb h 2 op k vd va ((0 : BitVec 6) ++ sel) vc md 0 2 (by omega)
    have e6 : ((0 : BitVec 6) ++ sel).extractLsb' 2 6 = 0 := by
      simp (disch := omega) only [BitVec.extractLsb'_append_eq_of_le]
      exact extract_self _
    have e2 : ((0 : BitVec 6) ++ sel).extractLsb' 0 2 = sel := by
      simp (disch := omega) only [BitVec.extractLsb'_append_eq_of_add_le]
      exact extract_self _
    have n6 : num (full h (Src.lit sel v).form op k vd va (Src.lit sel v).field vc md) 21 6 = 0 := by
      rw [num, show (21 : Nat) = 19 + 2 from rfl, Src.form, Src.field, h6, e6]; rfl
    have f2 : fld (full h (Src.lit sel v).form op k vd va (Src.lit sel v).field vc md) 19 2 = sel := by
      rw [show (19 : Nat) = 19 + 0 from rfl, Src.form, Src.field, h2, e2]
    rw [srcOf, full_form, n6, f2]; rfl

/-- A full word in register or literal form decodes to the instruction its op and fields give. -/
theorem decode_full {w lit : Dword} {h : Hdr} {form : BitVec 2} {op : BitVec 9} {i : Instr}
    (hf : num w 61 2 = form.toNat) (hform : form = 0 ∨ form = 2) (hh : hdrOf w = h) (hm : h.m ≠ 0)
    (hop : num w 44 9 = op.toNat) (hi : fullInstr op.toNat w (srcOf w lit) = some (some i))
    (hl : form = 2 → opTakesLiteral op.toNat = true) (h6 : i.fieldsOk = true) (h7 : i.pairOk = true) :
    decode w lit = .ok i := by
  rcases hform with rfl | rfl
  · simp only [ne_eq, BitVec.ofNat_eq_ofNat] at hm; simp [decode, hf, hh, hm, hop, hi, accept, h6, h7]
  · simp only [ne_eq, BitVec.ofNat_eq_ofNat] at hm; simp [decode, hf, hh, hm, hop, hi, accept, h6, h7, hl rfl]

theorem Src.form_cases (b : Src) : b.form = 0 ∨ b.form = 2 := by cases b <;> simp [Src.form]

end Sys2Proof
end

