-- ==== Sys2Proof/Laws/Tables.lean ====
section
/-! SUPPORT. The laws of sparse tables: what a lookup gives after a put, a removal and a change. -/

namespace Sys2Proof.KMap

variable {α : Type}

@[simp] theorem find_nil (k : Nat) : KMap.find ([] : KMap α) k = none := rfl

@[simp] theorem find_put_self (m : KMap α) (k : Nat) (x : α) : KMap.find (KMap.put m k x) k = some x := by
  induction m with
  | nil => simp [put, find]
  | cons p m ih =>
    obtain ⟨j, v⟩ := p
    simp only [put]
    split
    · simp [find]
    · split <;> simp_all [find]

theorem find_put_ne (m : KMap α) {k k' : Nat} (x : α) (h : k' ≠ k) :
    KMap.find (KMap.put m k x) k' = KMap.find m k' := by
  induction m with
  | nil => simp [put, find, h.symm]
  | cons p m ih =>
    obtain ⟨j, v⟩ := p
    simp only [put]
    split
    · simp [find, h.symm]
    · split
      · rename_i e
        subst e
        simp [find, h.symm]
      · simp [find, ih]

theorem find_put (m : KMap α) (k k' : Nat) (x : α) :
    KMap.find (KMap.put m k x) k' = if k' = k then some x else KMap.find m k' := by
  split
  · rename_i e
    simp [e]
  · exact find_put_ne m x ‹_›

@[simp] theorem find_del_self (m : KMap α) (k : Nat) : KMap.find (KMap.del m k) k = none := by
  induction m with
  | nil => rfl
  | cons p m ih =>
    obtain ⟨j, v⟩ := p
    unfold del at ih ⊢
    by_cases h : j = k <;> simp_all [find]

theorem find_del_ne (m : KMap α) {k k' : Nat} (h : k' ≠ k) : KMap.find (KMap.del m k) k' = KMap.find m k' := by
  induction m with
  | nil => rfl
  | cons p m ih =>
    obtain ⟨j, v⟩ := p
    unfold del at ih ⊢
    by_cases e : j = k
    · subst e
      simp_all [find, h.symm]
    · simp_all [find]

theorem find_del (m : KMap α) (k k' : Nat) :
    KMap.find (KMap.del m k) k' = if k' = k then none else KMap.find m k' := by
  split
  · rename_i e
    simp [e]
  · exact find_del_ne m ‹_›

@[simp] theorem find_update_self (m : KMap α) (k : Nat) (f : α → α) :
    KMap.find (KMap.update m k f) k = (KMap.find m k).map f := by
  unfold update
  cases h : find m k <;> simp [h]

theorem find_update_ne (m : KMap α) {k k' : Nat} (f : α → α) (h : k' ≠ k) :
    KMap.find (KMap.update m k f) k' = KMap.find m k' := by
  unfold update
  cases find m k
  · rfl
  · exact find_put_ne m _ h

theorem find_update (m : KMap α) (k k' : Nat) (f : α → α) :
    KMap.find (KMap.update m k f) k' = if k' = k then (KMap.find m k).map f else KMap.find m k' := by
  split
  · rename_i e
    simp [e]
  · exact find_update_ne m f ‹_›

/-- A lookup after every value has been changed. -/
theorem find_map {β : Type} (m : KMap α) (k : Nat) (f : Nat → α → β) :
    KMap.find (m.map fun p => (p.1, f p.1 p.2) : KMap β) k = (KMap.find m k).map (f k) := by
  induction m with
  | nil => rfl
  | cons p m ih =>
    obtain ⟨j, v⟩ := p
    simp only [List.map_cons, find, ih]
    split
    · rename_i e
      subst e
      rfl
    · rfl

/-- A lookup after the entries that fail a test have been dropped. -/
theorem find_filter (m : KMap α) (k : Nat) (p : Nat → Bool) :
    KMap.find (m.filter fun x => p x.1) k = if p k then KMap.find m k else none := by
  induction m with
  | nil => simp
  | cons q m ih =>
    obtain ⟨j, v⟩ := q
    by_cases hj : p j
    · simp only [List.filter_cons, hj, if_true, find, ih]
      split
      · rename_i e
        subst e
        simp [hj]
      · rfl
    · simp only [List.filter_cons, hj, find]
      by_cases e : j = k
      · subst e
        simp [hj, ih]
      · simp [e, ih]

end Sys2Proof.KMap
end

