-- ==== Sys2Proof/Laws/Words.lean ====
section
/-! SUPPORT. What the common parts of a group word do: a word that passes its checks runs its body and its end; the end
of a word changes of its group only position, stops and use stamps; what a commit of register writes leaves. -/

namespace Sys2Proof.Machine

open Sys2Proof

/-! ## A word that passes its checks -/

theorem wordAt_ready {h : Hdr} {len : Nat} {region : Option (BitVec 16)} {regs reads : List (Nat × Nat)}
    {fin : Env → State → State} {body : Env → State → Res} {s s' : State} {e : Env} (r : Ready h region regs reads s e)
    (hb : body e s = .ok s') : wordAt h len region regs reads fin body s = .next (fin e (s'.correctReads e reads)) := by
  unfold wordAt
  simp only [r.env, if_neg r.active, r.member, r.frame, r.ecc, hb, r.stop]
  simp

theorem wordAt_bad {h : Hdr} {len : Nat} {region : Option (BitVec 16)} {regs reads : List (Nat × Nat)}
    {fin : Env → State → State} {body : Env → State → Res} {s : State} {e : Env} {f : WFault}
    (r : Ready h region regs reads s e) (hb : body e s = .bad f) :
    wordAt h len region regs reads fin body s = .next (s.takeFault e.gk e.run.tag f) := by
  unfold wordAt
  simp only [r.env, if_neg r.active, r.member, r.frame, r.ecc, hb]
  simp

theorem wordAt_hold {h : Hdr} {len : Nat} {region : Option (BitVec 16)} {regs reads : List (Nat × Nat)}
    {fin : Env → State → State} {body : Env → State → Res} {s s' : State} {e : Env} {b : Block}
    (r : Ready h region regs reads s e) (hb : body e s = .hold b s') :
    wordAt h len region regs reads fin body s = .next (s'.block e b) := by
  unfold wordAt
  simp only [r.env, if_neg r.active, r.member, r.frame, r.ecc, hb, r.stop]
  simp

theorem word_ready {h : Hdr} {len : Nat} {regs reads : List (Nat × Nat)} {body : Env → State → Res} {s s' : State}
    {e : Env} (r : Ready h none regs reads s e) (hb : body e s = .ok s') :
    word h len regs reads body s = .next ((s'.correctReads e reads).retire e h len) := wordAt_ready r hb

theorem ready_of_readyEnv {h : Hdr} {region : Option (BitVec 16)} {regs reads : List (Nat × Nat)} {s : State} {e : Env}
    (he : readyEnv h region regs reads s = some e) : Ready h region regs reads s e := by
  unfold readyEnv at he
  split at he
  · cases he
  · split at he
    · rename_i e' h1 h2
      cases he
      simp only [Bool.and_eq_true, bne_iff_ne, ne_eq, Bool.not_eq_true', Option.isNone_iff_eq_none] at h2
      obtain ⟨⟨⟨⟨a, b⟩, c⟩, d⟩, f⟩ := h2
      exact ⟨h1, a, b, c, d, f⟩
    · cases he

/-- The environment names the group that holds the run. -/
theorem env_group {s : State} {m : BitVec 8} {e : Env} (he : s.env m = some e) : s.group e.gk = some e.g := by
  unfold State.env at he
  repeat (split at he <;> first | (cases he; done) | skip)
  cases he
  assumption

/-! ## The end of a word -/

/-- What the end of a word leaves of its group. -/
structure Tail (g g' : Group) : Prop where
  lanes : g'.lanes = g.lanes
  slices : g'.slices.map Slice.still = g.slices.map Slice.still
  window : g'.window = g.window
  special : (g'.mode, g'.flags, g'.absent, g'.crew) = (g.mode, g.flags, g.absent, g.crew)
  regions : (g'.regions, g'.regOverflow) = (g.regions, g.regOverflow)
  counters : (g'.loads, g'.stores, g'.engine, g'.tile) = (g.loads, g.stores, g.engine, g.tile)
  ops : g'.ops = g.ops
  tiles : g'.tiles = g.tiles
  arrivals : g'.arrivals = g.arrivals
  fencePt : g'.fencePt = g.fencePt
  frames : ∀ d, (g'.frames.find d).map (fun f => { f with stamp := 0 }) =
    (g.frames.find d).map fun f => { f with stamp := 0 }

theorem Tail.refl (g : Group) : Tail g g := ⟨rfl, rfl, rfl, rfl, rfl, rfl, rfl, rfl, rfl, rfl, fun _ => rfl⟩

theorem Tail.trans {a b c : Group} (h : Tail a b) (h' : Tail b c) : Tail a c :=
  ⟨h'.lanes.trans h.lanes, h'.slices.trans h.slices, h'.window.trans h.window, h'.special.trans h.special,
    h'.regions.trans h.regions, h'.counters.trans h.counters, h'.ops.trans h.ops, h'.tiles.trans h.tiles,
    h'.arrivals.trans h.arrivals, h'.fencePt.trans h.fencePt, fun d => (h'.frames d).trans (h.frames d)⟩

/-- Frames that agree but for their use stamps have the same registers. -/
theorem Tail.bank {g g' : Group} (h : Tail g g') (d l r : Nat) : g'.bankAt d l r = g.bankAt d l r := by
  have := congrArg (Option.map fun f : Frame => f.bank l r) (h.frames d)
  simpa [Group.bankAt, Option.map_map, Function.comp_def, Frame.bank] using this

theorem Tail.still {g g' : Group} (h : Tail g g') (d : Nat) :
    (g'.frames.find d).map Frame.still = (g.frames.find d).map Frame.still := by
  have := congrArg (Option.map Frame.still) (h.frames d)
  rw [Option.map_map, Option.map_map] at this
  exact this

theorem State.sameBut_trans {a b c : State} (h : a.sameBut b) (h' : b.sameBut c) : a.sameBut c := by
  unfold State.sameBut at *
  rw [h', h]

/-- The same of a whole machine: nothing but the group, runs, requests, records and counts of events changes. -/
structure TailAt (k : Nat) (s t : State) : Prop where
  rest : s.sameBut t
  teams : ∀ j, (t.teams.find j).map (fun tm => { tm with requests := [] }) =
    (s.teams.find j).map fun tm => { tm with requests := [] }
  others : ∀ j, j ≠ k → t.group j = s.group j
  group : ∀ g, s.group k = some g → ∃ g', t.group k = some g' ∧ Tail g g'

theorem TailAt.refl (k : Nat) (s : State) : TailAt k s s := ⟨rfl, fun _ => rfl, fun _ _ => rfl, fun g h => ⟨g, h, .refl g⟩⟩

theorem TailAt.trans {k : Nat} {a b c : State} (h : TailAt k a b) (h' : TailAt k b c) : TailAt k a c :=
  ⟨State.sameBut_trans h.rest h'.rest, fun j => (h'.teams j).trans (h.teams j),
    fun j hj => (h'.others j hj).trans (h.others j hj), fun g hg =>
    let ⟨_, h1, t1⟩ := h.group g hg
    let ⟨g2, h2, t2⟩ := h'.group _ h1
    ⟨g2, h2, t1.trans t2⟩⟩

/-- A change that reaches neither groups nor teams. -/
theorem TailAt.of_eq {k : Nat} {s t : State} (hr : s.sameBut t) (hg : t.groups = s.groups)
    (ht : t.teams = s.teams) : TailAt k s t := by
  refine ⟨hr, fun j => by rw [ht], fun j _ => ?_, fun g h => ⟨g, ?_, .refl g⟩⟩ <;> simp_all [State.group]

theorem group_onGroup (s : State) (k j : Nat) (f : Group → Group) :
    (s.onGroup k f).group j = if j = k then (s.group k).map f else s.group j := KMap.find_update _ _ _ _

theorem TailAt.onGroup {k : Nat} (s : State) {f : Group → Group} (hf : ∀ g, Tail g (f g)) : TailAt k s (s.onGroup k f) := by
  refine ⟨rfl, fun _ => rfl, fun j hj => ?_, fun g h => ⟨f g, ?_, hf g⟩⟩
  · rw [group_onGroup, if_neg hj]
  · rw [group_onGroup, if_pos rfl, h]
    rfl

theorem TailAt.count (k : Nat) (s : State) (c i n : Nat) : TailAt k s (s.count c i n) := .of_eq rfl rfl rfl
theorem TailAt.addRecord (k : Nat) (s : State) (r : FaultRec) : TailAt k s (s.addRecord r) := .of_eq rfl rfl rfl
theorem TailAt.dropRuns (k : Nat) (s : State) (j : Nat) : TailAt k s (s.dropRuns j) := .of_eq rfl rfl rfl

theorem TailAt.requests (k : Nat) (s : State) (t : Nat) (f : Team → List FrameReq) :
    TailAt k s (s.onTeam t fun tm => { tm with requests := f tm }) := by
  refine ⟨rfl, fun j => ?_, fun _ _ => rfl, fun g h => ⟨g, h, .refl g⟩⟩
  simp only [State.onTeam, KMap.find_update]
  split
  · rename_i e
    rw [e]
    cases s.teams.find t <;> rfl
  · rfl

theorem TailAt.haltAt (s : State) (k : Nat) (h : Halt) : TailAt k s (s.haltAt k h) := by
  unfold State.haltAt
  refine ((TailAt.dropRuns k s k).trans ?_).trans (.requests _ _ _ _)
  exact .onGroup _ fun g => ⟨rfl, rfl, rfl, rfl, rfl, rfl, rfl, rfl, rfl, rfl, fun _ => rfl⟩

theorem TailAt.halt (s : State) (k : Nat) (why : HaltWhy) (code lane tag : Nat) (before : Option Nat) :
    TailAt k s (s.halt k why code lane tag before) := .haltAt _ _ _

/-- Correcting what a word reads changes latent errors and counts alone (R208). -/
theorem TailAt.correctReads (k : Nat) (s : State) (e : Env) (regs : List (Nat × Nat)) : TailAt k s (s.correctReads e regs) := by
  unfold State.correctReads State.correctRegs
  split
  · exact .refl _ _
  · exact .of_eq rfl rfl rfl

theorem TailAt.takeFault (s : State) (k tag : Nat) (f : WFault) : TailAt k s (s.takeFault k tag f) := by
  unfold State.takeFault
  split
  · exact .refl _ _
  · exact (TailAt.addRecord _ _ _).trans (.halt _ _ _ _ _ _ _)

theorem TailAt.takeStop (s : State) (k tag imm ctx : Nat) (pos : Word) (before : Option Nat) :
    TailAt k s (s.takeStop k tag imm ctx pos before) := by
  unfold State.takeStop
  split
  · exact .refl _ _
  · exact ((TailAt.count _ _ _ _ _).trans (.addRecord _ _ _)).trans (.halt _ _ _ _ _ _ _)

/-- Taking the stop that a group owes changes only what a stop changes (R347). -/
theorem TailAt.takeOwed (s : State) (k : Nat) : TailAt k s (s.takeOwed k) := by
  unfold State.takeOwed
  split
  · exact .refl _ _
  · split
    · refine ((TailAt.count _ _ _ _ _).trans (.onGroup _ fun g => ?_)).trans (.haltAt _ _ _)
      exact ⟨rfl, rfl, rfl, rfl, rfl, rfl, rfl, rfl, rfl, rfl, fun _ => rfl⟩
    · exact .refl _ _

theorem TailAt.endRun (s : State) (e : Env) : TailAt e.gk s (s.endRun e) := by
  have h0 : TailAt e.gk s { s with runs := s.runs.del (unitKey e.core e.unit) } := .of_eq rfl rfl rfl
  exact h0.trans (.takeOwed _ _)

theorem TailAt.stepStop (s : State) (e : Env) : TailAt e.gk s (s.stepStop e) := by
  unfold State.stepStop
  split
  · split
    · refine (TailAt.onGroup _ fun g => ?_).trans (.takeStop _ _ _ _ _ _ _)
      exact ⟨rfl, rfl, rfl, rfl, rfl, rfl, rfl, rfl, rfl, rfl, fun _ => rfl⟩
    · exact .refl _ _
  · exact .refl _ _

theorem TailAt.runOn (s : State) (e : Env) (b : Bool) (len : Nat) : TailAt e.gk s (s.runOn e b len) := by
  unfold State.runOn
  have h0 : TailAt e.gk s { s with free := s.free + 1 } := .of_eq rfl rfl rfl
  refine TailAt.trans ?_ (.stepStop _ _)
  refine h0.trans ?_
  split
  · exact .endRun _ _
  · exact .of_eq rfl rfl rfl

theorem TailAt.issued (s : State) (e : Env) : TailAt e.gk s (s.issued e) := by
  unfold State.issued
  refine ((TailAt.onGroup _ fun g => ?_).trans (.count _ _ _ _ _)).trans (.count _ _ _ _ _)
  refine ⟨rfl, rfl, rfl, rfl, rfl, rfl, rfl, rfl, rfl, rfl, fun d => ?_⟩
  have := KMap.find_map g.frames d fun d x =>
    if (dedup (e.lanes.map fun l => (e.g.lane l).depth.toNat)).contains d then { x with stamp := s.seq } else x
  have h2 : (g.frames.map fun p => if (dedup (e.lanes.map fun l => (e.g.lane l).depth.toNat)).contains p.1 then
      (p.1, { p.2 with stamp := s.seq }) else p) = g.frames.map fun p => (p.1,
        if (dedup (e.lanes.map fun l => (e.g.lane l).depth.toNat)).contains p.1 then { p.2 with stamp := s.seq } else p.2) :=
    List.map_congr_left fun p _ => by split <;> rfl
  simp only [h2, this, Option.map_map]
  congr 1
  funext f
  simp only [Function.comp]
  split <;> rfl

theorem mapIdxFrom_map_still {α β : Type} (h : α → β) (f : Nat → α → α) (hf : ∀ i x, h (f i x) = h x) (n : Nat) (xs : List α) :
    (mapIdxFrom n f xs).map h = xs.map h := by
  induction xs generalizing n with
  | nil => rfl
  | cons x xs ih => simp [mapIdxFrom, hf, ih]

theorem TailAt.advance (s : State) (k : Nat) (slices : List Nat) (len : Nat) :
    TailAt k s (s.onGroup k fun g => g.advance slices len) := by
  refine .onGroup _ fun g => ⟨rfl, ?_, rfl, rfl, rfl, rfl, rfl, rfl, rfl, rfl, fun _ => rfl⟩
  exact mapIdxFrom_map_still _ _ (fun i x => by dsimp only; split <;> rfl) _ _

theorem TailAt.pastFault (s : State) (e : Env) : TailAt e.gk s (s.pastFault e) := by
  have h0 : TailAt e.gk s { s with free := s.free + 1 } := .of_eq rfl rfl rfl
  exact h0.trans (.takeFault _ _ _ _)

theorem TailAt.retire (s : State) (e : Env) (h : Hdr) (len : Nat) : TailAt e.gk s (s.retire e h len) := by
  unfold State.retire
  have h1 := (TailAt.issued s e).trans (.advance _ e.gk e.slices len)
  simp only
  split
  · exact h1.trans (.pastFault _ _)
  · exact h1.trans (.runOn _ _ _ _)

theorem TailAt.endPass (s : State) (e : Env) : TailAt e.gk s (s.endPass e) := by
  unfold State.endPass
  refine ((TailAt.issued s e).trans (.onGroup _ fun g => ?_)).trans (.runOn _ _ _ _)
  exact ⟨rfl, rfl, rfl, rfl, rfl, rfl, rfl, rfl, rfl, rfl, fun _ => rfl⟩

/-! ## Faults -/

/-- Taking a fault at a word does what R95 and R336 say. -/
theorem takeFault_taken {s : State} {m : BitVec 8} {e : Env} (he : s.env m = some e) (f : WFault) :
    FaultTaken s (s.takeFault e.gk e.run.tag f) e f.code f.cause f.lane := by
  have hg := env_group he
  constructor
  · unfold State.takeFault
    simp only [hg]
    rfl
  · exact (TailAt.takeFault s e.gk e.run.tag f).others
  · unfold State.takeFault
    simp only [hg, State.halt, State.haltAt]
    show (State.onGroup _ _ _).group _ = _
    rw [group_onGroup]
    simp only [if_true]
    show (s.group e.gk).map _ = _
    rw [hg]
    rfl
  · unfold State.takeFault
    simp only [hg, State.halt, State.haltAt]
    intro p hp
    have : p ∈ (s.runs.filter fun r => r.2.gk != e.gk) := hp
    simpa using (List.mem_filter.1 this).2
  · unfold State.takeFault
    simp only [hg]
    refine ⟨_, rfl, ?_⟩
    simp [State.record, hg]

/-- A mask that names an absent slot: the word takes `ILL_MEMB` (R35). -/
theorem wordAt_absent {h : Hdr} {len : Nat} {region : Option (BitVec 16)} {regs reads : List (Nat × Nat)}
    {fin : Env → State → State} {body : Env → State → Res} {s : State} {e : Env} (he : s.env h.m = some e)
    (hm : h.m ≠ 0) (hb : badMember h.m e.slots.length = true) :
    wordAt h len region regs reads fin body s = .next (s.takeFault e.gk e.run.tag (wfault cILLMEMB 0)) := by
  unfold wordAt
  simp only [he, if_neg hm, hb, if_true]

/-- A register beyond its frame: the word takes `FRAME_RANGE` (R36). -/
theorem wordAt_frame {h : Hdr} {len : Nat} {region : Option (BitVec 16)} {regs reads : List (Nat × Nat)}
    {fin : Env → State → State} {body : Env → State → Res} {s : State} {e : Env} {l : Nat} (he : s.env h.m = some e)
    (hm : h.m ≠ 0) (hb : badMember h.m e.slots.length = false) (hl : e.badFrame regs = some l) :
    wordAt h len region regs reads fin body s = .next (s.takeFault e.gk e.run.tag (wfault cFRAMERANGE l)) := by
  unfold wordAt
  simp only [he, if_neg hm, hb, hl]
  simp

end Sys2Proof.Machine
end

