-- ==== Sys2Proof/Laws/Lanes.lean ====
section
/-! SUPPORT. What a word that commits register writes leaves: each written register shows its value, in the window and,
with `k`, in the bank; everything else stands. -/

namespace Sys2Proof.Machine

open Sys2Proof

/-! ## The window entry -/

theorem find_fold_put (ws : List RegWrite) (m : KMap Word) (key : Nat) (v : Word)
    (hv : ∀ w ∈ ws, w.1 * 256 + w.2.1 = key → w.2.2 = v)
    (h : (∃ w ∈ ws, w.1 * 256 + w.2.1 = key) ∨ KMap.find m key = some v) :
    KMap.find (ws.foldl (fun m w => KMap.put m (w.1 * 256 + w.2.1) w.2.2) m) key = some v := by
  induction ws generalizing m with
  | nil => simpa using h
  | cons w ws ih =>
    refine ih _ (fun w' hw' => hv w' (List.mem_cons_of_mem _ hw')) ?_
    by_cases e : w.1 * 256 + w.2.1 = key
    · right
      rw [KMap.find_put, if_pos e.symm, hv w List.mem_cons_self e]
    · rcases h with ⟨w', hw', e'⟩ | h
      · rcases List.mem_cons.1 hw' with rfl | hw'
        · exact absurd e' e
        · exact .inl ⟨w', hw', e'⟩
      · right
        rw [KMap.find_put, if_neg (fun x => e x.symm), h]

theorem find_fold_put_none (ws : List RegWrite) (m : KMap Word) (key : Nat)
    (hn : ∀ w ∈ ws, w.1 * 256 + w.2.1 ≠ key) :
    KMap.find (ws.foldl (fun m w => KMap.put m (w.1 * 256 + w.2.1) w.2.2) m) key = KMap.find m key := by
  induction ws generalizing m with
  | nil => rfl
  | cons w ws ih =>
    rw [List.foldl_cons, ih _ fun w' hw' => hn w' (List.mem_cons_of_mem _ hw'), KMap.find_put,
      if_neg fun x => hn w List.mem_cons_self x.symm]

/-- Registers lie below 256, so that lane and register are told apart in a key. -/
theorem key_inj {l l' r r' : Nat} (hr : r < 256) (hr' : r' < 256) (h : l * 256 + r = l' * 256 + r') : l = l' ∧ r = r' := by
  omega

theorem windowRead_winEntry_some {ws : List RegWrite} {rest : List WinEntry} {l r : Nat} {v : Word}
    (hv : ∀ w ∈ ws, w.1 * 256 + w.2.1 = l * 256 + r → w.2.2 = v) (h : ∃ w ∈ ws, w.1 * 256 + w.2.1 = l * 256 + r) :
    windowRead (winEntry ws :: rest) l r = some v := by
  simp [windowRead, winEntry, find_fold_put ws [] _ v hv (.inl h)]

theorem windowRead_winEntry_none {ws : List RegWrite} {rest : List WinEntry} {l r : Nat}
    (h : ∀ w ∈ ws, w.1 * 256 + w.2.1 ≠ l * 256 + r) : windowRead (winEntry ws :: rest) l r = windowRead rest l r := by
  simp [windowRead, winEntry, find_fold_put_none ws [] _ h, KMap.find]

theorem windowRead_winAsync_of_not_mem {regs lanes : List Nat} {rest : List WinEntry} {l r : Nat}
    (h : ¬ (l ∈ lanes ∧ r ∈ regs)) : windowRead (winAsync regs lanes :: rest) l r = windowRead rest l r := by
  have : ((winAsync regs lanes).async && (winAsync regs lanes).regs.contains r && (winAsync regs lanes).lanes.contains l)
      = false := by
    simp only [winAsync, Bool.true_and, Bool.and_eq_false_iff]
    by_cases hr : r ∈ regs
    · exact .inr (by simpa using fun x => h ⟨x, hr⟩)
    · exact .inl (by simpa using hr)
  rw [windowRead, this]
  simp [winAsync]

theorem windowRead_winAsync_of_mem {regs lanes : List Nat} {rest : List WinEntry} {l r : Nat} (hl : l ∈ lanes)
    (hr : r ∈ regs) : windowRead (winAsync regs lanes :: rest) l r = none := by
  simp [windowRead, winAsync, hl, hr]

/-! ## Register writes -/

/-- What a register write leaves of a group: nothing but the register, and with `k` the bank. -/
structure WroteBy (k : Bool) (ws : List RegWrite) (g g' : Group) : Prop where
  lanes : g'.lanes = g.lanes
  slices : g'.slices = g.slices
  window : g'.window = g.window
  special : (g'.mode, g'.flags, g'.absent, g'.crew) = (g.mode, g.flags, g.absent, g.crew)
  regions : (g'.regions, g'.regOverflow) = (g.regions, g.regOverflow)
  counters : (g'.loads, g'.stores, g'.engine, g'.tile) = (g.loads, g.stores, g.engine, g.tile)
  frames : ∀ d, (g'.frames.find d).map Frame.still = (g.frames.find d).map Frame.still
  bank : ∀ d l r, ¬ (k = true ∧ ∃ w ∈ ws, d = (g.lane w.1).depth.toNat ∧ w.1 * 256 + w.2.1 = l * 256 + r) →
    g'.bankAt d l r = g.bankAt d l r
  put : k = true → ∀ d l r v, (∃ w ∈ ws, d = (g.lane w.1).depth.toNat ∧ w.1 * 256 + w.2.1 = l * 256 + r) →
    (∀ w ∈ ws, w.1 * 256 + w.2.1 = l * 256 + r → w.2.2 = v) → (g.frames.find d).isSome →
    g'.bankAt d l r = some v

theorem bankAt_bankPut (g : Group) (depth lane reg : Nat) (v : Word) (d l r : Nat) :
    (g.bankPut depth lane reg v).bankAt d l r =
      if d = depth ∧ lane * 256 + reg = l * 256 + r then (g.frames.find d).map fun _ => v else g.bankAt d l r := by
  simp only [Group.bankAt, Group.bankPut, KMap.find_update]
  by_cases hd : d = depth
  · subst hd
    simp only [if_true, true_and, Option.map_map]
    cases g.frames.find d with
    | none => simp
    | some f =>
      simp only [Option.map_some, Function.comp, Frame.bank, KMap.find_put]
      by_cases e : lane * 256 + reg = l * 256 + r
      · simp [e]
      · rw [if_neg fun x => e x.symm, if_neg e]
  · simp [hd]

theorem still_bankPut (g : Group) (depth lane reg : Nat) (v : Word) (d : Nat) :
    ((g.bankPut depth lane reg v).frames.find d).map Frame.still = (g.frames.find d).map Frame.still := by
  simp only [Group.bankPut, KMap.find_update]
  split
  · rename_i e
    subst e
    cases g.frames.find d <;> rfl
  · rfl

theorem writeReg_wrote (g : Group) (k : Bool) (w : RegWrite) : WroteBy k [w] g (g.writeReg k w) := by
  cases k with
  | false =>
    refine ⟨rfl, rfl, rfl, rfl, rfl, rfl, fun _ => rfl, fun _ _ _ _ => rfl, fun h => by simp at h⟩
  | true =>
    refine ⟨rfl, rfl, rfl, rfl, rfl, rfl, fun d => still_bankPut g _ _ _ _ d, fun d l r h => ?_, fun _ d l r v h hv hf => ?_⟩
    · refine (bankAt_bankPut g _ _ _ _ d l r).trans (if_neg fun x => h ⟨rfl, w, List.mem_cons_self, x⟩)
    · obtain ⟨w', hw', hd, hk⟩ := h
      obtain rfl := List.mem_singleton.1 hw'
      refine (bankAt_bankPut g _ _ _ _ d l r).trans ?_
      rw [if_pos ⟨hd, hk⟩, hv w' hw' hk]
      obtain ⟨f, hf⟩ := Option.isSome_iff_exists.1 hf
      simp [hf]

theorem WroteBy.trans {k : Bool} {a b : List RegWrite} {x y z : Group} (h : WroteBy k a x y) (h' : WroteBy k b y z) :
    WroteBy k (a ++ b) x z := by
  have hl : ∀ l, y.lane l = x.lane l := fun l => by rw [Group.lane, h.lanes]; rfl
  refine ⟨h'.lanes.trans h.lanes, h'.slices.trans h.slices, h'.window.trans h.window, h'.special.trans h.special,
    h'.regions.trans h.regions, h'.counters.trans h.counters, fun d => (h'.frames d).trans (h.frames d),
    fun d l r hn => ?_, fun hk d l r v hw hv hf => ?_⟩
  · refine (h'.bank d l r fun ⟨e, w, hw, h1, h2⟩ => hn ⟨e, w, List.mem_append_right _ hw, ?_, h2⟩).trans
      (h.bank d l r fun ⟨e, w, hw, h1, h2⟩ => hn ⟨e, w, List.mem_append_left _ hw, h1, h2⟩)
    rw [h1, hl]
  · have hf' : (y.frames.find d).isSome := by
      have := congrArg Option.isSome (h.frames d)
      simpa [hf] using this
    by_cases hb : ∃ w ∈ b, d = (y.lane w.1).depth.toNat ∧ w.1 * 256 + w.2.1 = l * 256 + r
    · exact h'.put hk d l r v hb (fun w hw => hv w (List.mem_append_right _ hw)) hf'
    · rw [h'.bank d l r fun x => hb x.2]
      refine h.put hk d l r v ?_ (fun w hw => hv w (List.mem_append_left _ hw)) hf
      obtain ⟨w, hw, h1, h2⟩ := hw
      rcases List.mem_append.1 hw with hw | hw
      · exact ⟨w, hw, h1, h2⟩
      · exact absurd ⟨w, hw, by rw [hl]; exact h1, h2⟩ hb

theorem WroteBy.nil (k : Bool) (g : Group) : WroteBy k [] g g :=
  ⟨rfl, rfl, rfl, rfl, rfl, rfl, fun _ => rfl, fun _ _ _ _ => rfl, fun _ _ _ _ _ h => by simp at h⟩

theorem foldWrites_wrote (k : Bool) (ws : List RegWrite) (g : Group) :
    WroteBy k ws g (ws.foldl (fun g w => g.writeReg k w) g) := by
  induction ws generalizing g with
  | nil => exact .nil k g
  | cons w ws ih => exact (writeReg_wrote g k w).trans (ih _)

/-! ## A committed word -/

/-- The group after a commit. -/
def Group.committed (g : Group) (k : Bool) (ws : List RegWrite) (flags : Nat) : Group :=
  let x := (ws.foldl (fun g w => g.writeReg k w) g).pushWindow (winEntry ws)
  { x with flags := x.flags ||| BitVec.ofNat 32 flags }

theorem group_clearLatent (s : State) (ks : List Nat) (j : Nat) : (s.clearLatent ks).group j = s.group j := rfl

theorem commit_group {s : State} {e : Env} (hg : s.group e.gk = some e.g) (k : Bool) (ws : List RegWrite) (flags : Nat) :
    (s.commit e k ws flags).group e.gk = some (e.g.committed k ws flags) := by
  cases k <;> simp [State.commit, group_onGroup, group_clearLatent, hg, Group.committed]

theorem commit_others (s : State) (e : Env) (k : Bool) (ws : List RegWrite) (flags j : Nat) (hj : j ≠ e.gk) :
    (s.commit e k ws flags).group j = s.group j := by
  cases k <;> simp [State.commit, group_onGroup, group_clearLatent, hj]

theorem commit_rest (s : State) (e : Env) (k : Bool) (ws : List RegWrite) (flags : Nat) :
    s.sameBut (s.commit e k ws flags) := by
  cases k <;> rfl

theorem commit_teams (s : State) (e : Env) (k : Bool) (ws : List RegWrite) (flags : Nat) :
    (s.commit e k ws flags).teams = s.teams := by
  cases k <;> rfl

/-- A word of layout `word` that passes its checks and commits writes: what its next state holds. -/
theorem committed_word {h : Hdr} {len : Nat} {regs reads : List (Nat × Nat)} {s : State} {e : Env} {k : Bool}
    {ws : List RegWrite} {flags : Nat} {body : Env → State → Res} (r : Ready h none regs reads s e)
    (hb : body e s = .ok (s.commit e k ws flags)) (dest : Nat → Nat → Prop)
    (hd : ∀ w ∈ ws, dest w.1 w.2.1 ∧ w.2.1 < 256) :
    ∃ t g', word h len regs reads body s = .next t ∧ t.group e.gk = some g' ∧
      Spared s t e { e.g with flags := e.g.flags ||| BitVec.ofNat 32 flags } (fun l r => k = true ∧ dest l r) dest g' ∧
      (∀ l r v, (∃ w ∈ ws, w.1 = l ∧ w.2.1 = r) → (∀ w ∈ ws, w.1 = l → w.2.1 = r → w.2.2 = v) →
        g'.seen l r = some v ∧
        (k = true → (e.g.frames.find (e.g.lane l).depth.toNat).isSome → g'.bankAt (e.g.lane l).depth.toNat l r = some v)) := by
  have hg := env_group r.env
  have T := (TailAt.correctReads e.gk (s.commit e k ws flags) e reads).trans (TailAt.retire _ e h len)
  obtain ⟨g', hg', T'⟩ := T.group _ (commit_group hg k ws flags)
  have W := foldWrites_wrote k ws e.g
  refine ⟨_, g', word_ready r hb, hg', ?_, fun l q v hw hv => ⟨?_, fun hk hf => ?_⟩⟩
  · refine ⟨State.sameBut_trans (commit_rest s e k ws flags) T.rest, fun j => ?_, fun j hj => ?_, T'.lanes.trans W.lanes,
      ?_, ?_, T'.regions.trans W.regions, T'.counters.trans W.counters, fun d => ?_, fun d l q hq hn => ?_, fun l q hq hn => ?_⟩
    · rw [T.teams, commit_teams]
    · rw [T.others j hj, commit_others _ _ _ _ _ _ hj]
    · rw [T'.slices]
      exact congrArg _ W.slices
    · rw [T'.special]
      have := W.special
      simp only [Prod.mk.injEq] at this
      simp [Group.committed, Group.pushWindow, this]
    · rw [T'.still]
      exact W.frames d
    · rw [T'.bank]
      refine W.bank d l q fun ⟨hk, w, hw, h1, h2⟩ => hn ?_
      obtain ⟨rfl, rfl⟩ := key_inj (hd w hw).2 hq h2
      exact ⟨⟨hk, (hd w hw).1⟩, h1⟩
    · rw [Group.seen, T'.window]
      show windowRead ((winEntry ws :: (ws.foldl (fun g w => g.writeReg k w) e.g).window).take 7) l q = _
      rw [W.window, List.take_succ_cons]
      refine windowRead_winEntry_none fun w hw h2 => hn ?_
      obtain ⟨rfl, rfl⟩ := key_inj (hd w hw).2 hq h2
      exact (hd w hw).1
  · rw [Group.seen, T'.window]
    show windowRead ((winEntry ws :: (ws.foldl (fun g w => g.writeReg k w) e.g).window).take 7) l q = _
    rw [List.take_succ_cons]
    obtain ⟨w0, hw0, rfl, rfl⟩ := hw
    refine windowRead_winEntry_some (fun w hw h2 => ?_) ⟨w0, hw0, rfl⟩
    obtain ⟨h3, h4⟩ := key_inj (hd w hw).2 (hd w0 hw0).2 h2
    exact hv w hw h3 h4
  · rw [T'.bank]
    obtain ⟨w0, hw0, rfl, rfl⟩ := hw
    refine W.put hk _ _ _ v ⟨w0, hw0, rfl, rfl⟩ (fun w hw h2 => ?_) hf
    obtain ⟨h3, h4⟩ := key_inj (hd w hw).2 (hd w0 hw0).2 h2
    exact hv w hw h3 h4

/-! ## Lane words -/

/-- The registers that a lane function writes for each lane. -/
def Fills (f : LaneFn) (dest : Nat × Nat) : Prop :=
  ∀ e l, (f e l).1.map (fun w => (w.1, w.2.1)) = (natsFrom dest.1 dest.2).map fun r => (l, r)

theorem mem_natsFrom {a n x : Nat} : x ∈ natsFrom a n ↔ a ≤ x ∧ x < a + n := by
  induction n generalizing a with
  | zero => simp [natsFrom]
  | succ n ih => rw [natsFrom, List.mem_cons, ih]; omega

theorem fills_mem {f : LaneFn} {dest : Nat × Nat} (hf : Fills f dest) {e : Env} {l : Nat} {w : RegWrite}
    (hw : w ∈ (f e l).1) : w.1 = l ∧ dest.1 ≤ w.2.1 ∧ w.2.1 < dest.1 + dest.2 := by
  have : (w.1, w.2.1) ∈ (f e l).1.map fun w => (w.1, w.2.1) := List.mem_map_of_mem hw
  rw [hf e l, List.mem_map] at this
  obtain ⟨r, hr, h⟩ := this
  rw [mem_natsFrom] at hr
  simp only [Prod.mk.injEq] at h
  omega

theorem fills_exists {f : LaneFn} {dest : Nat × Nat} (hf : Fills f dest) (e : Env) (l : Nat) {r : Nat}
    (hr : dest.1 ≤ r ∧ r < dest.1 + dest.2) : ∃ w ∈ (f e l).1, w.1 = l ∧ w.2.1 = r := by
  have : (l, r) ∈ (f e l).1.map fun w => (w.1, w.2.1) := by
    rw [hf e l]
    exact List.mem_map_of_mem (mem_natsFrom.2 hr)
  obtain ⟨w, hw, h⟩ := List.mem_map.1 this
  simp only [Prod.mk.injEq] at h
  exact ⟨w, hw, h⟩

/-- What a lane word that passes its checks leaves: `hv` finds in a lane's writes what a register is given. -/
theorem lane_word {h : Hdr} {len : Nat} {regs reads : List (Nat × Nat)} {s : State} {e : Env} {k : Bool} {f : LaneFn}
    {dest : Nat × Nat} (r : Ready h none regs reads s e) (hf : Fills f dest) (hd : dest.1 + dest.2 ≤ 256) :
    ∃ t g', word h len regs reads (perLane k f) s = .next t ∧ t.group e.gk = some g' ∧
      Spared s t e { e.g with flags := e.g.flags ||| BitVec.ofNat 32 (e.lanes.foldl (fun a l => a ||| (f e l).2) 0) }
        (fun l q => k = true ∧ l ∈ e.lanes ∧ dest.1 ≤ q ∧ q < dest.1 + dest.2)
        (fun l q => l ∈ e.lanes ∧ dest.1 ≤ q ∧ q < dest.1 + dest.2) g' ∧
      ∀ l ∈ e.lanes, ∀ q v, dest.1 ≤ q → q < dest.1 + dest.2 → (∀ w ∈ (f e l).1, w.2.1 = q → w.2.2 = v) →
        g'.seen l q = some v ∧
        (k = true → (e.g.frames.find (e.g.lane l).depth.toNat).isSome → g'.bankAt (e.g.lane l).depth.toNat l q = some v) := by
  obtain ⟨t, g', h1, h2, h3, h4⟩ := committed_word (len := len) (k := k) (ws := (e.eachLane f).1) (flags := (e.eachLane f).2)
    (body := perLane k f) r rfl (fun l q => l ∈ e.lanes ∧ dest.1 ≤ q ∧ q < dest.1 + dest.2) (fun w hw => by
      obtain ⟨l, hl, hw⟩ := List.mem_flatMap.1 hw
      obtain ⟨e1, e2, e3⟩ := fills_mem hf hw
      exact ⟨⟨e1 ▸ hl, e2, e3⟩, by omega⟩)
  refine ⟨t, g', h1, h2, h3, fun l hl q v hq hq' hv => h4 l q v ?_ ?_⟩
  · obtain ⟨w, hw, e1, e2⟩ := fills_exists hf e l ⟨hq, hq'⟩
    exact ⟨w, List.mem_flatMap.2 ⟨l, hl, hw⟩, e1, e2⟩
  · intro w hw e1 e2
    obtain ⟨l', _, hw⟩ := List.mem_flatMap.1 hw
    obtain rfl : w.1 = l' := (fills_mem hf hw).1
    rw [e1] at hw
    exact hv w hw e2

theorem fills_put1 (l : Nat) (vd : Reg) (x : Nat) :
    (put1 l vd x).map (fun w => (w.1, w.2.1)) = (natsFrom (span false vd).1 (span false vd).2).map fun r => (l, r) := rfl

theorem fills_putPair (l : Nat) (vd : Reg) (x : Nat) :
    (putPair l vd x).map (fun w => (w.1, w.2.1)) = (natsFrom (span true vd).1 (span true vd).2).map fun r => (l, r) := rfl

theorem fills_putFmt (f : Fmt) (l : Nat) (vd : Reg) (x : Nat) :
    (putFmt f l vd x).map (fun w => (w.1, w.2.1)) = (natsFrom (span f.wide vd).1 (span f.wide vd).2).map fun r => (l, r) := by
  unfold putFmt
  cases f.wide
  · exact fills_put1 l vd _
  · exact fills_putPair l vd _

/-- A word whose body does the same on a state runs the same there. -/
theorem word_congr {h : Hdr} {len : Nat} {regs reads : List (Nat × Nat)} {body body' : Env → State → Res} {s : State}
    (hb : ∀ e, body e s = body' e s) : word h len regs reads body s = word h len regs reads body' s := by
  unfold word wordAt
  simp only [hb]

end Sys2Proof.Machine
end

