-- ==== Sys2Proof/Laws/LaneWords.lean ====
section
/-! SUPPORT. Every word that writes registers lane by lane is one: its meaning checks its operands and then acts on each
active lane separately (R98). -/

namespace Sys2Proof.Machine

open Sys2Proof

/-- The meaning of an instruction is that of a lane word, with some lane function. -/
def ActsByLane (i : Instr) (w : LaneWord) (s : State) : Prop :=
  ∃ f : LaneFn, Fills f w.dest ∧ exec i s = word w.h w.len (w.dest :: w.reads) w.reads (perLane w.k f) s

theorem wide_of_packed {f : Fmt} (h : f.isPacked = true) : f.wide = false := by cases f <;> first | rfl | cases h

theorem aWord_a (o : AOp) (wd wa : Bool) (f : LaneFn) (s : State) : aWord o wd (some wa) none none f s =
    word o.h (srcLen o.vb) (span wd o.vd :: [span wa o.va]) [span wa o.va] (perLane o.k f) s := by simp [aWord]

theorem aWord_b (o : AOp) (wd wb : Bool) (f : LaneFn) (s : State) : aWord o wd none (some wb) none f s =
    word o.h (srcLen o.vb) (span wd o.vd :: srcSpan wb o.vb) (srcSpan wb o.vb) (perLane o.k f) s := by simp [aWord]

theorem aWord_ab (o : AOp) (wd wa wb : Bool) (f : LaneFn) (s : State) : aWord o wd (some wa) (some wb) none f s =
    word o.h (srcLen o.vb) (span wd o.vd :: span wa o.va :: srcSpan wb o.vb) (span wa o.va :: srcSpan wb o.vb)
      (perLane o.k f) s := by simp [aWord]

theorem aWord_abc (o : AOp) (wd wa wb wc : Bool) (f : LaneFn) (s : State) : aWord o wd (some wa) (some wb) (some wc) f s =
    word o.h (srcLen o.vb) (span wd o.vd :: (span wa o.va :: srcSpan wb o.vb ++ [span wc o.vc]))
      (span wa o.va :: srcSpan wb o.vb ++ [span wc o.vc]) (perLane o.k f) s := by simp [aWord]

theorem fills_floatLane (o : AOp) (x : Bool) (g : ElemFn) : Fills (floatLane o x g) (span o.fmt.wide o.vd) := by
  intro e l
  unfold floatLane
  by_cases hp : o.fmt.isPacked = true
  · simp only [hp, if_true, wide_of_packed hp]
    exact fills_put1 _ _ _
  · simp only [hp]
    exact fills_putFmt _ _ _ _

theorem fills_one (f : Env → Nat → Nat) (g : Env → Nat → Nat) (vd : Reg) :
    Fills (fun e l => (put1 l vd (f e l), g e l)) (span false vd) := fun _ l => fills_put1 l _ _
theorem fills_pair (f : Env → Nat → Nat) (g : Env → Nat → Nat) (vd : Reg) :
    Fills (fun e l => (putPair l vd (f e l), g e l)) (span true vd) := fun _ l => fills_putPair l _ _
theorem fills_fmt (t : Fmt) (f : Env → Nat → Nat) (g : Env → Nat → Nat) (vd : Reg) :
    Fills (fun e l => (putFmt t l vd (f e l), g e l)) (span t.wide vd) := fun _ l => fills_putFmt t l _ _

theorem fills_cvt (o : CvtOp) (hwf : o.fieldsOk = true) : Fills (cvtLane o) (span o.fmt.wide o.vd) := by
  intro e l
  have h2 : o.src.isPacked = true → o.fmt.isPacked = false → o.fmt.wide = false := by
    intro a b
    rcases hs : o.src <;> rcases hf : o.fmt <;> simp_all [CvtOp.fieldsOk, Fmt.isPacked, Fmt.wide, Fmt.isScalarCvt, Fmt.isInt]
  unfold cvtLane
  by_cases hs : o.src.isPacked = true <;> by_cases hf : o.fmt.isPacked = true
  · simp only [hs, hf, Bool.and_self, if_true, wide_of_packed hf]
    exact fills_put1 _ _ _
  · simp only [hs, hf, Bool.and_false, if_true, h2 hs (by simpa using hf)]
    exact fills_put1 _ _ _
  · simp only [hs, hf, Bool.false_and, if_true, wide_of_packed hf]
    exact fills_put1 _ _ _
  · simp only [hs, hf]
    exact fills_putFmt _ _ _ _

theorem acts_add (o : AOp) (s : State) : ActsByLane (.add o)
    (laneA o o.fmt.wide (readsAB o)) s :=
  ⟨_, fills_fmt _ _ _ _, aWord_ab _ _ _ _ _ _⟩

theorem acts_sub (o : AOp) (s : State) : ActsByLane (.sub o)
    (laneA o o.fmt.wide (readsAB o)) s :=
  ⟨_, fills_fmt _ _ _ _, aWord_ab _ _ _ _ _ _⟩

theorem acts_mul (o : AOp) (s : State) : ActsByLane (.mul o)
    (laneA o o.fmt.wide (readsAB o)) s :=
  ⟨_, fills_fmt _ _ _ _, aWord_ab _ _ _ _ _ _⟩

theorem acts_mulhi (o : AOp) (s : State) : ActsByLane (.mulhi o)
    (laneA o o.fmt.wide (readsAB o)) s :=
  ⟨_, fills_fmt _ _ _ _, aWord_ab _ _ _ _ _ _⟩

theorem acts_min (o : AOp) (s : State) : ActsByLane (.min o)
    (laneA o o.fmt.wide (readsAB o)) s :=
  ⟨_, fills_fmt _ _ _ _, aWord_ab _ _ _ _ _ _⟩

theorem acts_max (o : AOp) (s : State) : ActsByLane (.max o)
    (laneA o o.fmt.wide (readsAB o)) s :=
  ⟨_, fills_fmt _ _ _ _, aWord_ab _ _ _ _ _ _⟩

theorem acts_and (o : AOp) (s : State) : ActsByLane (.and o)
    (laneA o o.fmt.wide (readsAB o)) s :=
  ⟨_, fills_fmt _ _ _ _, aWord_ab _ _ _ _ _ _⟩

theorem acts_or (o : AOp) (s : State) : ActsByLane (.or o)
    (laneA o o.fmt.wide (readsAB o)) s :=
  ⟨_, fills_fmt _ _ _ _, aWord_ab _ _ _ _ _ _⟩

theorem acts_xor (o : AOp) (s : State) : ActsByLane (.xor o)
    (laneA o o.fmt.wide (readsAB o)) s :=
  ⟨_, fills_fmt _ _ _ _, aWord_ab _ _ _ _ _ _⟩

theorem acts_andn (o : AOp) (s : State) : ActsByLane (.andn o)
    (laneA o o.fmt.wide (readsAB o)) s :=
  ⟨_, fills_fmt _ _ _ _, aWord_ab _ _ _ _ _ _⟩

theorem acts_fadd (o : AOp) (s : State) : ActsByLane (.fadd o)
    (laneA o o.fmt.wide (readsAB o)) s :=
  ⟨_, fills_floatLane _ _ _, aWord_ab _ _ _ _ _ _⟩

theorem acts_fsub (o : AOp) (s : State) : ActsByLane (.fsub o)
    (laneA o o.fmt.wide (readsAB o)) s :=
  ⟨_, fills_floatLane _ _ _, aWord_ab _ _ _ _ _ _⟩

theorem acts_fmul (o : AOp) (s : State) : ActsByLane (.fmul o)
    (laneA o o.fmt.wide (readsAB o)) s :=
  ⟨_, fills_floatLane _ _ _, aWord_ab _ _ _ _ _ _⟩

theorem acts_fmin (o : AOp) (s : State) : ActsByLane (.fmin o)
    (laneA o o.fmt.wide (readsAB o)) s :=
  ⟨_, fills_floatLane _ _ _, aWord_ab _ _ _ _ _ _⟩

theorem acts_fmax (o : AOp) (s : State) : ActsByLane (.fmax o)
    (laneA o o.fmt.wide (readsAB o)) s :=
  ⟨_, fills_floatLane _ _ _, aWord_ab _ _ _ _ _ _⟩

theorem acts_fminn (o : AOp) (s : State) : ActsByLane (.fminn o)
    (laneA o o.fmt.wide (readsAB o)) s :=
  ⟨_, fills_floatLane _ _ _, aWord_ab _ _ _ _ _ _⟩

theorem acts_fmaxn (o : AOp) (s : State) : ActsByLane (.fmaxn o)
    (laneA o o.fmt.wide (readsAB o)) s :=
  ⟨_, fills_floatLane _ _ _, aWord_ab _ _ _ _ _ _⟩

theorem acts_mulw (o : AOp) (s : State) : ActsByLane (.mulw o)
    (laneA o (doubleFmt o.fmt).wide (readsAB o)) s :=
  ⟨_, fills_fmt _ _ _ _, aWord_ab _ _ _ _ _ _⟩

theorem acts_mad (o : AOp) (s : State) : ActsByLane (.mad o)
    (laneA o o.fmt.wide (readsAB o ++ [span o.fmt.wide o.vc])) s :=
  ⟨_, fills_fmt _ _ _ _, aWord_abc _ _ _ _ _ _ _⟩

theorem acts_fma (o : AOp) (s : State) : ActsByLane (.fma o)
    (laneA o o.fmt.wide (readsAB o ++ [span o.fmt.wide o.vc])) s :=
  ⟨_, fills_floatLane _ _ _, aWord_abc _ _ _ _ _ _ _⟩

theorem acts_madw (o : AOp) (s : State) : ActsByLane (.madw o)
    (laneA o (doubleFmt o.fmt).wide (readsAB o ++ [span (doubleFmt o.fmt).wide o.vc])) s :=
  ⟨_, fills_fmt _ _ _ _, aWord_abc _ _ _ _ _ _ _⟩

theorem acts_abs (o : AOp) (s : State) : ActsByLane (.abs o)
    (laneA o o.fmt.wide [span o.fmt.wide o.va]) s :=
  ⟨_, fills_fmt _ _ _ _, aWord_a _ _ _ _ _⟩

theorem acts_neg (o : AOp) (s : State) : ActsByLane (.neg o)
    (laneA o o.fmt.wide [span o.fmt.wide o.va]) s :=
  ⟨_, fills_fmt _ _ _ _, aWord_a _ _ _ _ _⟩

theorem acts_not (o : AOp) (s : State) : ActsByLane (.not o)
    (laneA o o.fmt.wide [span o.fmt.wide o.va]) s :=
  ⟨_, fills_fmt _ _ _ _, aWord_a _ _ _ _ _⟩

theorem acts_brev (o : AOp) (s : State) : ActsByLane (.brev o)
    (laneA o o.fmt.wide [span o.fmt.wide o.va]) s :=
  ⟨_, fills_fmt _ _ _ _, aWord_a _ _ _ _ _⟩

theorem acts_rcps (o : AOp) (s : State) : ActsByLane (.rcps o)
    (laneA o o.fmt.wide [span o.fmt.wide o.va]) s :=
  ⟨_, fills_fmt _ _ _ _, aWord_a _ _ _ _ _⟩

theorem acts_rsqs (o : AOp) (s : State) : ActsByLane (.rsqs o)
    (laneA o o.fmt.wide [span o.fmt.wide o.va]) s :=
  ⟨_, fills_fmt _ _ _ _, aWord_a _ _ _ _ _⟩

theorem acts_fabs (o : AOp) (s : State) : ActsByLane (.fabs o)
    (laneA o o.fmt.wide [span o.fmt.wide o.va]) s :=
  ⟨_, fills_floatLane _ _ _, aWord_a _ _ _ _ _⟩

theorem acts_fneg (o : AOp) (s : State) : ActsByLane (.fneg o)
    (laneA o o.fmt.wide [span o.fmt.wide o.va]) s :=
  ⟨_, fills_floatLane _ _ _, aWord_a _ _ _ _ _⟩

theorem acts_frint (o : AOp) (s : State) : ActsByLane (.frint o)
    (laneA o o.fmt.wide [span o.fmt.wide o.va]) s :=
  ⟨_, fills_floatLane _ _ _, aWord_a _ _ _ _ _⟩

theorem acts_shl (o : AOp) (s : State) : ActsByLane (.shl o)
    (laneA o o.fmt.wide (span o.fmt.wide o.va :: srcSpan false o.vb)) s :=
  ⟨_, fills_fmt _ _ _ _, aWord_ab _ _ _ _ _ _⟩

theorem acts_shr (o : AOp) (s : State) : ActsByLane (.shr o)
    (laneA o o.fmt.wide (span o.fmt.wide o.va :: srcSpan false o.vb)) s :=
  ⟨_, fills_fmt _ _ _ _, aWord_ab _ _ _ _ _ _⟩

theorem acts_sra (o : AOp) (s : State) : ActsByLane (.sra o)
    (laneA o o.fmt.wide (span o.fmt.wide o.va :: srcSpan false o.vb)) s :=
  ⟨_, fills_fmt _ _ _ _, aWord_ab _ _ _ _ _ _⟩

theorem acts_rol (o : AOp) (s : State) : ActsByLane (.rol o)
    (laneA o o.fmt.wide (span o.fmt.wide o.va :: srcSpan false o.vb)) s :=
  ⟨_, fills_fmt _ _ _ _, aWord_ab _ _ _ _ _ _⟩

theorem acts_ror (o : AOp) (s : State) : ActsByLane (.ror o)
    (laneA o o.fmt.wide (span o.fmt.wide o.va :: srcSpan false o.vb)) s :=
  ⟨_, fills_fmt _ _ _ _, aWord_ab _ _ _ _ _ _⟩

theorem acts_bfx (o : AOp) (s : State) : ActsByLane (.bfx o)
    (laneA o o.fmt.wide (span o.fmt.wide o.va :: srcSpan false o.vb)) s :=
  ⟨_, fills_fmt _ _ _ _, aWord_ab _ _ _ _ _ _⟩

theorem acts_bfi (o : AOp) (s : State) : ActsByLane (.bfi o)
    (laneA o o.fmt.wide (span o.fmt.wide o.va :: srcSpan false o.vb ++ [span o.fmt.wide o.vc])) s :=
  ⟨_, fills_fmt _ _ _ _, aWord_abc _ _ _ _ _ _ _⟩

theorem acts_popc (o : AOp) (s : State) : ActsByLane (.popc o)
    (laneA o false [span o.fmt.wide o.va]) s :=
  ⟨_, fills_one _ _ _, aWord_a _ _ _ _ _⟩

theorem acts_clz (o : AOp) (s : State) : ActsByLane (.clz o)
    (laneA o false [span o.fmt.wide o.va]) s :=
  ⟨_, fills_one _ _ _, aWord_a _ _ _ _ _⟩

theorem acts_ctz (o : AOp) (s : State) : ActsByLane (.ctz o)
    (laneA o false [span o.fmt.wide o.va]) s :=
  ⟨_, fills_one _ _ _, aWord_a _ _ _ _ _⟩

theorem acts_fclass (o : AOp) (s : State) : ActsByLane (.fclass o)
    (laneA o false [span o.fmt.wide o.va]) s :=
  ⟨_, fills_one _ _ _, aWord_a _ _ _ _ _⟩

theorem acts_sel (o : AOp) (s : State) : ActsByLane (.sel o)
    (laneA o o.fmt.wide (readsAB o ++ [span false o.vc])) s :=
  ⟨_, fills_fmt _ _ _ _, aWord_abc _ _ _ _ _ _ _⟩

theorem acts_mov (o : AOp) (s : State) : ActsByLane (.mov o)
    (laneA o o.fmt.wide (srcSpan o.fmt.wide o.vb)) s :=
  ⟨_, fills_fmt _ _ _ _, aWord_b _ _ _ _ _⟩

theorem acts_adda (o : AOp) (s : State) : ActsByLane (.adda o)
    (laneA o true (span true o.va :: srcSpan o.fmt.wide o.vb)) s :=
  ⟨_, fills_pair _ _ _, aWord_ab _ _ _ _ _ _⟩

theorem acts_addsc (o : AOp) (s : State) : ActsByLane (.addsc o)
    (laneA o true (span true o.va :: srcSpan o.fmt.wide o.vb ++ [span false o.vc])) s :=
  ⟨_, fills_pair _ _ _, aWord_abc _ _ _ _ _ _ _⟩

theorem acts_cmp (o : COp) (s : State) : ActsByLane (.cmp o)
    (⟨o.h, o.k, srcLen o.vb, span false o.vd, span o.fmt.wide o.va :: srcSpan o.fmt.wide o.vb⟩) s :=
  ⟨_, fills_one _ _ _, rfl⟩

theorem acts_shfl (o : XOp) (s : State) : ActsByLane (.shfl o)
    (⟨o.h, o.k, srcLen o.vb, span o.fmt.wide o.vd, span o.fmt.wide o.va :: srcSpan false o.vb⟩) s :=
  ⟨_, fills_fmt _ _ _ _, rfl⟩

theorem acts_red (o : XOp) (s : State) : ActsByLane (.red o)
    (⟨o.h, o.k, srcLen o.vb, span o.fmt.wide o.vd, [span o.fmt.wide o.va]⟩) s :=
  ⟨_, fills_fmt _ _ _ _, rfl⟩

theorem acts_scan (o : XOp) (s : State) : ActsByLane (.scan o)
    (⟨o.h, o.k, srcLen o.vb, span o.fmt.wide o.vd, [span o.fmt.wide o.va]⟩) s :=
  ⟨_, fills_fmt _ _ _ _, rfl⟩

theorem acts_any (o : XOp) (s : State) : ActsByLane (.any o)
    (⟨o.h, o.k, srcLen o.vb, span false o.vd, [span o.fmt.wide o.va]⟩) s :=
  ⟨_, fills_one _ _ _, rfl⟩

theorem acts_all (o : XOp) (s : State) : ActsByLane (.all o)
    (⟨o.h, o.k, srcLen o.vb, span false o.vd, [span o.fmt.wide o.va]⟩) s :=
  ⟨_, fills_one _ _ _, rfl⟩

theorem acts_matchLanes (o : XOp) (s : State) : ActsByLane (.matchLanes o)
    (⟨o.h, o.k, srcLen o.vb, span true o.vd, [span o.fmt.wide o.va]⟩) s :=
  ⟨_, fills_pair _ _ _, rfl⟩

theorem acts_sptest (o : POp) (s : State) : ActsByLane (.sptest o)
    (⟨o.h, o.k, 1, span false o.vd, [span true o.va]⟩) s :=
  ⟨_, fills_one _ _ _, rfl⟩

theorem actsByLane_of {i : Instr} {w : LaneWord} (h : laneWordOf i = some w) (hwf : i.wf = true) (s : State) :
    ActsByLane i w s := by
  cases i
  case movs h' k vd sid =>
    obtain rfl := Option.some.inj h
    refine ⟨fun e l => (if sid == .time then putPair l vd (sidVal e s.time l sid) else put1 l vd (sidVal e s.time l sid), 0),
      fun e l => ?_, ?_⟩
    · dsimp only
      cases sid == Sid.time
      · exact fills_put1 _ _ _
      · exact fills_putPair _ _ _
    · simp only [exec, execMovs]
      exact word_congr fun e => rfl
  all_goals first
    | (cases h; done)
    | skip
  case cvt o => 
    obtain rfl := Option.some.inj h
    refine ⟨cvtLane o, fills_cvt o ?_, rfl⟩
    simp only [Instr.wf, Bool.and_eq_true] at hwf
    exact hwf.1.2
  case fscale o =>
    obtain rfl := Option.some.inj h
    refine ⟨_, fun e l => ?_, aWord_ab _ _ _ _ _ _⟩
    dsimp only
    by_cases hp : o.fmt.isPacked = true
    · simp only [hp, if_true, laneA, wide_of_packed hp]
      exact fills_put1 _ _ _
    · simp only [hp]
      exact fills_putFmt _ _ _ _
  case cord o =>
    obtain rfl := Option.some.inj h
    refine ⟨_, fun e l => ?_, rfl⟩
    dsimp only
    cases cordPair o.cmode
    · exact fills_put1 _ _ _
    · exact fills_putPair _ _ _
  case ballot o =>
    obtain rfl := Option.some.inj h
    refine ⟨_, fun e l => ?_, rfl⟩
    dsimp only
    cases o.fmt.wide
    · exact fills_put1 _ _ _
    · exact fills_putPair _ _ _
  case spcast o =>
    obtain rfl := Option.some.inj h
    refine ⟨_, fun e l => ?_, rfl⟩
    dsimp only
    split
    · exact fills_putPair _ _ _
    · rfl
  case fcmp o =>
    obtain rfl := Option.some.inj h
    refine ⟨_, fun e l => ?_, rfl⟩
    dsimp only
    split <;> exact fills_put1 _ _ _
  all_goals obtain rfl := Option.some.inj h
  case add o => exact acts_add o s
  case sub o => exact acts_sub o s
  case mul o => exact acts_mul o s
  case mulhi o => exact acts_mulhi o s
  case min o => exact acts_min o s
  case max o => exact acts_max o s
  case and o => exact acts_and o s
  case or o => exact acts_or o s
  case xor o => exact acts_xor o s
  case andn o => exact acts_andn o s
  case fadd o => exact acts_fadd o s
  case fsub o => exact acts_fsub o s
  case fmul o => exact acts_fmul o s
  case fmin o => exact acts_fmin o s
  case fmax o => exact acts_fmax o s
  case fminn o => exact acts_fminn o s
  case fmaxn o => exact acts_fmaxn o s
  case mulw o => exact acts_mulw o s
  case mad o => exact acts_mad o s
  case fma o => exact acts_fma o s
  case madw o => exact acts_madw o s
  case abs o => exact acts_abs o s
  case neg o => exact acts_neg o s
  case not o => exact acts_not o s
  case brev o => exact acts_brev o s
  case rcps o => exact acts_rcps o s
  case rsqs o => exact acts_rsqs o s
  case fabs o => exact acts_fabs o s
  case fneg o => exact acts_fneg o s
  case frint o => exact acts_frint o s
  case shl o => exact acts_shl o s
  case shr o => exact acts_shr o s
  case sra o => exact acts_sra o s
  case rol o => exact acts_rol o s
  case ror o => exact acts_ror o s
  case bfx o => exact acts_bfx o s
  case bfi o => exact acts_bfi o s
  case popc o => exact acts_popc o s
  case clz o => exact acts_clz o s
  case ctz o => exact acts_ctz o s
  case fclass o => exact acts_fclass o s
  case sel o => exact acts_sel o s
  case mov o => exact acts_mov o s
  case adda o => exact acts_adda o s
  case addsc o => exact acts_addsc o s
  case cmp o => exact acts_cmp o s
  case shfl o => exact acts_shfl o s
  case red o => exact acts_red o s
  case scan o => exact acts_scan o s
  case any o => exact acts_any o s
  case all o => exact acts_all o s
  case matchLanes o => exact acts_matchLanes o s
  case sptest o => exact acts_sptest o s

end Sys2Proof.Machine
end

