-- ==== Sys2Proof/Laws/PerInstr.lean ====
section
/-! SUPPORT. Family RoundTrip: decoding the encoded words of a well-formed instruction gives it back, one lemma
per constructor. An event has no words and is not well formed. -/

namespace Sys2Proof.Laws.RoundTrip

open Sys2Proof

/-- Decode after encode is the instruction. -/
def Statement (i : Instr) : Prop := i.wf = true → decode i.encode.1 (i.encode.2.getD 0) = .ok i

/-- What `wf` says of a group word that is not the no-op. -/
def Wf (h : Hdr) (i : Instr) : Prop :=
  i.wf = (h.m != 0 && i.litOk && i.fieldsOk && i.pairOk)

theorem Wf.parts {h : Hdr} {i : Instr} (e : Wf h i) (w : i.wf = true) :
    h.m ≠ 0 ∧ i.litOk = true ∧ i.fieldsOk = true ∧ i.pairOk = true := by
  rw [e] at w
  simp only [Bool.and_eq_true, bne_iff_ne] at w
  exact ⟨w.1.1.1, w.1.1.2, w.1.2, w.2⟩

/-- What `litOk` says of a word that is not the no-op. -/
def litGate (i : Instr) : Bool :=
  match i.srcB with
  | some (.lit _ _) => i.takesLiteral
  | _ => true

/-- A literal stands only behind an op that takes one. -/
theorem lit_form {b : Src} {t : Bool}
    (h : (match some b with | some (.lit _ _) => t | _ => true) = true) : b.form = 2 → t = true := by
  cases b <;> simp_all [Src.form]

theorem full_kvd (h : Hdr) (form : BitVec 2) (op : BitVec 9) (va vb vc : BitVec 8) (md : BitVec 11) :
    fld (full h form op false 0 va vb vc md) 35 9 = 0 := by
  apply BitVec.eq_of_getLsbD_eq
  intro i hi
  simp only [fld, full, BitVec.getLsbD_extractLsb', BitVec.getLsbD_append]
  have h' : i = 0 ∨ i = 1 ∨ i = 2 ∨ i = 3 ∨ i = 4 ∨ i = 5 ∨ i = 6 ∨ i = 7 ∨ i = 8 := by omega
  rcases h' with rfl | rfl | rfl | rfl | rfl | rfl | rfl | rfl | rfl <;> simp [bit]

theorem low_z (h : Hdr) (op : BitVec 9) (low : BitVec 35) : (fld (fullLow h op low) 35 9).toNat = 0 := low_zero ..

theorem full_vb0 (h : Hdr) (form : BitVec 2) (op : BitVec 9) (k : Bool) (vd va vb vc : BitVec 8) (md : BitVec 11) :
    fld (full h form op k vd va vb vc md) 19 8 = vb := by
  have := full_vb h form op k vd va vb vc md 0 8 (by omega)
  rwa [extract_self] at this

theorem full_vc0 (h : Hdr) (form : BitVec 2) (op : BitVec 9) (k : Bool) (vd va vb vc : BitVec 8) (md : BitVec 11) :
    fld (full h form op k vd va vb vc md) 11 8 = vc := by
  have := full_vc h form op k vd va vb vc md 0 8 (by omega)
  rwa [extract_self] at this

theorem full_imm (h : Hdr) (form : BitVec 2) (op : BitVec 9) (k : Bool) (vd va : BitVec 8) (imm : BitVec 8) :
    fld (full h form op k vd va 0 0 ((0 : BitVec 3) ++ imm)) 8 19 = 0 := by
  apply BitVec.eq_of_getLsbD_eq
  intro i hi
  simp only [fld, full, BitVec.getLsbD_extractLsb', BitVec.getLsbD_append, hi, decide_true, Bool.true_and]
  by_cases h1 : 8 + i < 11
  · simp [h1]
  · by_cases h2 : 8 + i - 11 < 8
    · simp [h1, h2]
    · have h3 : 8 + i - 11 - 8 < 8 := by omega
      simp [h1, h2, h3]

theorem full_low0 (h : Hdr) (form : BitVec 2) (op : BitVec 9) (k : Bool) (vd va : BitVec 8) :
    fld (full h form op k vd va 0 0 0) 0 27 = 0 := by
  apply BitVec.eq_of_getLsbD_eq
  intro i hi
  simp only [fld, full, BitVec.getLsbD_extractLsb', BitVec.getLsbD_append, hi, decide_true, Bool.true_and]
  simp
  intro a b c
  omega

theorem mkA_enc (op : BitVec 9) (o : AOp) (b : Src) : mkA (encA op o).1 b = some { o with vb := b } := by
  have m (lo len : Nat) (hl : lo + len ≤ 11) := full_md o.h o.vb.form op o.k o.vd o.va o.vb.field o.vc
    (o.fmt.code ++ o.rm.code ++ o.sat.code ++ bit o.x) lo len hl
  have hc := full_vc o.h o.vb.form op o.k o.vd o.va o.vb.field o.vc
    (o.fmt.code ++ o.rm.code ++ o.sat.code ++ bit o.x) 0 8 (by omega)
  have m6 := m 6 5 (by omega)
  have m3 := m 3 3 (by omega)
  have m1 := m 1 2 (by omega)
  have m0 := m 0 1 (by omega)
  simp (disch := omega) only [BitVec.extractLsb'_append_eq_of_le, BitVec.extractLsb'_append_eq_of_add_le,
    Nat.sub_self, extract_self] at m6 m3 m1 m0
  rw [extract_self] at hc
  simp only [mkA, encA, num, flag, m6, m3, m1, m0, Fmt.ofCode_code, Rm.ofCode_code, Sat.ofCode_code, bit_toNat,
    full_hdr, full_vd, full_va, Option.bind_eq_bind, Option.bind_some]
  have hk : ((fld (full o.h o.vb.form op o.k o.vd o.va o.vb.field o.vc
    (o.fmt.code ++ o.rm.code ++ o.sat.code ++ bit o.x)) 43 1).toNat == 1) = o.k := full_k ..
  rw [hk, show (11 : Nat) = 11 + 0 from rfl, hc]


theorem flag_of {w : Dword} {i : Nat} {b : Bool} (h : fld w i 1 = bit b) : flag w i = b := by
  rw [flag, num, h, bit_toNat]

theorem zero_toNat (n : Nat) : ((0 : BitVec n).toNat == 0) = true := by simp


theorem mkC_enc (op : BitVec 9) (o : COp) (b : Src) :
    mkC (encC op o).1 b = some { o with vb := b } := by
  have md6 : fld (full o.h o.vb.form op o.k o.vd o.va o.vb.field 0 (o.fmt.code ++ o.cond.code ++ bit o.sig ++ bit o.x)) 6 5 = _ :=
    full_md o.h o.vb.form op o.k o.vd o.va o.vb.field 0 (o.fmt.code ++ o.cond.code ++ bit o.sig ++ bit o.x) 6 5 (by omega)
  have md2 : fld (full o.h o.vb.form op o.k o.vd o.va o.vb.field 0 (o.fmt.code ++ o.cond.code ++ bit o.sig ++ bit o.x)) 2 4 = _ :=
    full_md o.h o.vb.form op o.k o.vd o.va o.vb.field 0 (o.fmt.code ++ o.cond.code ++ bit o.sig ++ bit o.x) 2 4 (by omega)
  have md1 : fld (full o.h o.vb.form op o.k o.vd o.va o.vb.field 0 (o.fmt.code ++ o.cond.code ++ bit o.sig ++ bit o.x)) 1 1 = _ :=
    full_md o.h o.vb.form op o.k o.vd o.va o.vb.field 0 (o.fmt.code ++ o.cond.code ++ bit o.sig ++ bit o.x) 1 1 (by omega)
  have md0 : fld (full o.h o.vb.form op o.k o.vd o.va o.vb.field 0 (o.fmt.code ++ o.cond.code ++ bit o.sig ++ bit o.x)) 0 1 = _ :=
    full_md o.h o.vb.form op o.k o.vd o.va o.vb.field 0 (o.fmt.code ++ o.cond.code ++ bit o.sig ++ bit o.x) 0 1 (by omega)
  have vc0 : fld (full o.h o.vb.form op o.k o.vd o.va o.vb.field 0 (o.fmt.code ++ o.cond.code ++ bit o.sig ++ bit o.x)) 11 8 = _ :=
    full_vc o.h o.vb.form op o.k o.vd o.va o.vb.field 0 (o.fmt.code ++ o.cond.code ++ bit o.sig ++ bit o.x) 0 8 (by omega)
  simp (disch := omega) only [BitVec.extractLsb'_append_eq_of_le, BitVec.extractLsb'_append_eq_of_add_le,
    Nat.sub_self, extract_self] at md6 md2 md1 md0 vc0
  have fmd1 := flag_of md1
  have fmd0 := flag_of md0
  simp only [mkC, encC, num, md6, md2, vc0, fmd1, fmd0, full_k, Fmt.ofCode_code, Rm.ofCode_code, Sat.ofCode_code,
    Cond.ofCode_code, full_hdr, full_vd, full_va, Option.bind_eq_bind, Option.bind_some, zero_toNat]
  rfl


theorem mkCvt_enc (o : CvtOp) :
    mkCvt (encCvt o).1 = some o := by
  have md6 : fld (full o.h 0 0x080 o.k o.vd o.va ((0 : BitVec 3) ++ o.src.code) o.vc (o.fmt.code ++ o.rm.code ++ o.sat.code ++ bit o.x)) 6 5 = _ :=
    full_md o.h 0 0x080 o.k o.vd o.va ((0 : BitVec 3) ++ o.src.code) o.vc (o.fmt.code ++ o.rm.code ++ o.sat.code ++ bit o.x) 6 5 (by omega)
  have md3 : fld (full o.h 0 0x080 o.k o.vd o.va ((0 : BitVec 3) ++ o.src.code) o.vc (o.fmt.code ++ o.rm.code ++ o.sat.code ++ bit o.x)) 3 3 = _ :=
    full_md o.h 0 0x080 o.k o.vd o.va ((0 : BitVec 3) ++ o.src.code) o.vc (o.fmt.code ++ o.rm.code ++ o.sat.code ++ bit o.x) 3 3 (by omega)
  have md1 : fld (full o.h 0 0x080 o.k o.vd o.va ((0 : BitVec 3) ++ o.src.code) o.vc (o.fmt.code ++ o.rm.code ++ o.sat.code ++ bit o.x)) 1 2 = _ :=
    full_md o.h 0 0x080 o.k o.vd o.va ((0 : BitVec 3) ++ o.src.code) o.vc (o.fmt.code ++ o.rm.code ++ o.sat.code ++ bit o.x) 1 2 (by omega)
  have md0 : fld (full o.h 0 0x080 o.k o.vd o.va ((0 : BitVec 3) ++ o.src.code) o.vc (o.fmt.code ++ o.rm.code ++ o.sat.code ++ bit o.x)) 0 1 = _ :=
    full_md o.h 0 0x080 o.k o.vd o.va ((0 : BitVec 3) ++ o.src.code) o.vc (o.fmt.code ++ o.rm.code ++ o.sat.code ++ bit o.x) 0 1 (by omega)
  have vc0 : fld (full o.h 0 0x080 o.k o.vd o.va ((0 : BitVec 3) ++ o.src.code) o.vc (o.fmt.code ++ o.rm.code ++ o.sat.code ++ bit o.x)) 11 8 = _ :=
    full_vc o.h 0 0x080 o.k o.vd o.va ((0 : BitVec 3) ++ o.src.code) o.vc (o.fmt.code ++ o.rm.code ++ o.sat.code ++ bit o.x) 0 8 (by omega)
  have vb0 : fld (full o.h 0 0x080 o.k o.vd o.va ((0 : BitVec 3) ++ o.src.code) o.vc (o.fmt.code ++ o.rm.code ++ o.sat.code ++ bit o.x)) 19 5 = _ :=
    full_vb o.h 0 0x080 o.k o.vd o.va ((0 : BitVec 3) ++ o.src.code) o.vc (o.fmt.code ++ o.rm.code ++ o.sat.code ++ bit o.x) 0 5 (by omega)
  have vb5 : fld (full o.h 0 0x080 o.k o.vd o.va ((0 : BitVec 3) ++ o.src.code) o.vc (o.fmt.code ++ o.rm.code ++ o.sat.code ++ bit o.x)) 24 3 = _ :=
    full_vb o.h 0 0x080 o.k o.vd o.va ((0 : BitVec 3) ++ o.src.code) o.vc (o.fmt.code ++ o.rm.code ++ o.sat.code ++ bit o.x) 5 3 (by omega)
  simp (disch := omega) only [BitVec.extractLsb'_append_eq_of_le, BitVec.extractLsb'_append_eq_of_add_le,
    Nat.sub_self, extract_self] at md6 md3 md1 md0 vc0 vb0 vb5
  have fmd0 := flag_of md0
  simp only [mkCvt, encCvt, num, md6, md3, md1, vc0, vb0, vb5, fmd0, full_k, Fmt.ofCode_code, Rm.ofCode_code, Sat.ofCode_code,
    Cond.ofCode_code, full_hdr, full_vd, full_va, Option.bind_eq_bind, Option.bind_some, zero_toNat]
  rfl


theorem mkK_enc (o : KOp) :
    mkK (encK o).1 = some o := by
  have md8 : fld (full o.h 0 0x083 o.k o.vd o.va o.vb 0 (o.cmode ++ o.iter ++ (0 : BitVec 3))) 8 3 = _ :=
    full_md o.h 0 0x083 o.k o.vd o.va o.vb 0 (o.cmode ++ o.iter ++ (0 : BitVec 3)) 8 3 (by omega)
  have md3 : fld (full o.h 0 0x083 o.k o.vd o.va o.vb 0 (o.cmode ++ o.iter ++ (0 : BitVec 3))) 3 5 = _ :=
    full_md o.h 0 0x083 o.k o.vd o.va o.vb 0 (o.cmode ++ o.iter ++ (0 : BitVec 3)) 3 5 (by omega)
  have md0 : fld (full o.h 0 0x083 o.k o.vd o.va o.vb 0 (o.cmode ++ o.iter ++ (0 : BitVec 3))) 0 3 = _ :=
    full_md o.h 0 0x083 o.k o.vd o.va o.vb 0 (o.cmode ++ o.iter ++ (0 : BitVec 3)) 0 3 (by omega)
  have vc0 : fld (full o.h 0 0x083 o.k o.vd o.va o.vb 0 (o.cmode ++ o.iter ++ (0 : BitVec 3))) 11 8 = _ :=
    full_vc o.h 0 0x083 o.k o.vd o.va o.vb 0 (o.cmode ++ o.iter ++ (0 : BitVec 3)) 0 8 (by omega)
  have vb0 : fld (full o.h 0 0x083 o.k o.vd o.va o.vb 0 (o.cmode ++ o.iter ++ (0 : BitVec 3))) 19 8 = _ :=
    full_vb o.h 0 0x083 o.k o.vd o.va o.vb 0 (o.cmode ++ o.iter ++ (0 : BitVec 3)) 0 8 (by omega)
  simp (disch := omega) only [BitVec.extractLsb'_append_eq_of_le, BitVec.extractLsb'_append_eq_of_add_le,
    Nat.sub_self, extract_self] at md8 md3 md0 vc0 vb0
  simp only [mkK, encK, num, md8, md3, md0, vc0, vb0, full_k, Fmt.ofCode_code, Rm.ofCode_code, Sat.ofCode_code,
    Cond.ofCode_code, full_hdr, full_vd, full_va, Option.bind_eq_bind, Option.bind_some, zero_toNat]
  rfl


theorem mkX_enc (op : BitVec 9) (o : XOp) (b : Src) :
    mkX (encX op o).1 b = some { o with vb := b } := by
  have md6 : fld (full o.h o.vb.form op o.k o.vd o.va o.vb.field 0 (o.fmt.code ++ o.opr ++ o.x)) 6 5 = _ :=
    full_md o.h o.vb.form op o.k o.vd o.va o.vb.field 0 (o.fmt.code ++ o.opr ++ o.x) 6 5 (by omega)
  have md2 : fld (full o.h o.vb.form op o.k o.vd o.va o.vb.field 0 (o.fmt.code ++ o.opr ++ o.x)) 2 4 = _ :=
    full_md o.h o.vb.form op o.k o.vd o.va o.vb.field 0 (o.fmt.code ++ o.opr ++ o.x) 2 4 (by omega)
  have md0 : fld (full o.h o.vb.form op o.k o.vd o.va o.vb.field 0 (o.fmt.code ++ o.opr ++ o.x)) 0 2 = _ :=
    full_md o.h o.vb.form op o.k o.vd o.va o.vb.field 0 (o.fmt.code ++ o.opr ++ o.x) 0 2 (by omega)
  have vc0 : fld (full o.h o.vb.form op o.k o.vd o.va o.vb.field 0 (o.fmt.code ++ o.opr ++ o.x)) 11 8 = _ :=
    full_vc o.h o.vb.form op o.k o.vd o.va o.vb.field 0 (o.fmt.code ++ o.opr ++ o.x) 0 8 (by omega)
  simp (disch := omega) only [BitVec.extractLsb'_append_eq_of_le, BitVec.extractLsb'_append_eq_of_add_le,
    Nat.sub_self, extract_self] at md6 md2 md0 vc0
  simp only [mkX, encX, num, md6, md2, md0, vc0, full_k, Fmt.ofCode_code, Rm.ofCode_code, Sat.ofCode_code,
    Cond.ofCode_code, full_hdr, full_vd, full_va, Option.bind_eq_bind, Option.bind_some, zero_toNat]
  rfl


theorem mkM_enc (op : BitVec 9) (o : MOp) (b : Src) :
    mkM (encM op o).1 b = { o with vb := b } := by
  have md8 : fld (full o.h o.vb.form op o.k o.vd o.va o.vb.field o.vc (o.size ++ o.order ++ o.scope ++ bit o.rmt ++ o.fe)) 8 3 = _ :=
    full_md o.h o.vb.form op o.k o.vd o.va o.vb.field o.vc (o.size ++ o.order ++ o.scope ++ bit o.rmt ++ o.fe) 8 3 (by omega)
  have md6 : fld (full o.h o.vb.form op o.k o.vd o.va o.vb.field o.vc (o.size ++ o.order ++ o.scope ++ bit o.rmt ++ o.fe)) 6 2 = _ :=
    full_md o.h o.vb.form op o.k o.vd o.va o.vb.field o.vc (o.size ++ o.order ++ o.scope ++ bit o.rmt ++ o.fe) 6 2 (by omega)
  have md3 : fld (full o.h o.vb.form op o.k o.vd o.va o.vb.field o.vc (o.size ++ o.order ++ o.scope ++ bit o.rmt ++ o.fe)) 3 3 = _ :=
    full_md o.h o.vb.form op o.k o.vd o.va o.vb.field o.vc (o.size ++ o.order ++ o.scope ++ bit o.rmt ++ o.fe) 3 3 (by omega)
  have md2 : fld (full o.h o.vb.form op o.k o.vd o.va o.vb.field o.vc (o.size ++ o.order ++ o.scope ++ bit o.rmt ++ o.fe)) 2 1 = _ :=
    full_md o.h o.vb.form op o.k o.vd o.va o.vb.field o.vc (o.size ++ o.order ++ o.scope ++ bit o.rmt ++ o.fe) 2 1 (by omega)
  have md0 : fld (full o.h o.vb.form op o.k o.vd o.va o.vb.field o.vc (o.size ++ o.order ++ o.scope ++ bit o.rmt ++ o.fe)) 0 2 = _ :=
    full_md o.h o.vb.form op o.k o.vd o.va o.vb.field o.vc (o.size ++ o.order ++ o.scope ++ bit o.rmt ++ o.fe) 0 2 (by omega)
  have vc0 : fld (full o.h o.vb.form op o.k o.vd o.va o.vb.field o.vc (o.size ++ o.order ++ o.scope ++ bit o.rmt ++ o.fe)) 11 8 = _ :=
    full_vc o.h o.vb.form op o.k o.vd o.va o.vb.field o.vc (o.size ++ o.order ++ o.scope ++ bit o.rmt ++ o.fe) 0 8 (by omega)
  simp (disch := omega) only [BitVec.extractLsb'_append_eq_of_le, BitVec.extractLsb'_append_eq_of_add_le,
    Nat.sub_self, extract_self] at md8 md6 md3 md2 md0 vc0
  have fmd2 := flag_of md2
  simp only [mkM, encM, num, md8, md6, md3, md0, vc0, fmd2, full_k, Fmt.ofCode_code, Rm.ofCode_code, Sat.ofCode_code,
    Cond.ofCode_code, full_hdr, full_vd, full_va, Option.bind_eq_bind, Option.bind_some, zero_toNat]


theorem mkP_enc (op : BitVec 9) (o : POp) :
    mkP (encP op o).1 = some o := by
  have md3 : fld (full o.h 0 op o.k o.vd o.va 0 0 ((0 : BitVec 8) ++ o.win)) 3 8 = _ :=
    full_md o.h 0 op o.k o.vd o.va 0 0 ((0 : BitVec 8) ++ o.win) 3 8 (by omega)
  have md0 : fld (full o.h 0 op o.k o.vd o.va 0 0 ((0 : BitVec 8) ++ o.win)) 0 3 = _ :=
    full_md o.h 0 op o.k o.vd o.va 0 0 ((0 : BitVec 8) ++ o.win) 0 3 (by omega)
  have vc0 : fld (full o.h 0 op o.k o.vd o.va 0 0 ((0 : BitVec 8) ++ o.win)) 11 8 = _ :=
    full_vc o.h 0 op o.k o.vd o.va 0 0 ((0 : BitVec 8) ++ o.win) 0 8 (by omega)
  have vb0 : fld (full o.h 0 op o.k o.vd o.va 0 0 ((0 : BitVec 8) ++ o.win)) 19 8 = _ :=
    full_vb o.h 0 op o.k o.vd o.va 0 0 ((0 : BitVec 8) ++ o.win) 0 8 (by omega)
  simp (disch := omega) only [BitVec.extractLsb'_append_eq_of_le, BitVec.extractLsb'_append_eq_of_add_le,
    Nat.sub_self, extract_self] at md3 md0 vc0 vb0
  simp only [mkP, encP, num, md3, md0, vc0, vb0, full_k, Fmt.ofCode_code, Rm.ofCode_code, Sat.ofCode_code,
    Cond.ofCode_code, full_hdr, full_vd, full_va, Option.bind_eq_bind, Option.bind_some, zero_toNat]
  rfl


theorem mkT_enc (op : BitVec 9) (o : TOp) (b : Src) :
    mkT (encT op o).1 b = some { o with vb := b } := by
  have md6 : fld (full o.h o.vb.form op o.k o.vd o.va o.vb.field o.vc (o.fmt.code ++ o.order ++ o.scope ++ bit o.rmt)) 6 5 = _ :=
    full_md o.h o.vb.form op o.k o.vd o.va o.vb.field o.vc (o.fmt.code ++ o.order ++ o.scope ++ bit o.rmt) 6 5 (by omega)
  have md4 : fld (full o.h o.vb.form op o.k o.vd o.va o.vb.field o.vc (o.fmt.code ++ o.order ++ o.scope ++ bit o.rmt)) 4 2 = _ :=
    full_md o.h o.vb.form op o.k o.vd o.va o.vb.field o.vc (o.fmt.code ++ o.order ++ o.scope ++ bit o.rmt) 4 2 (by omega)
  have md1 : fld (full o.h o.vb.form op o.k o.vd o.va o.vb.field o.vc (o.fmt.code ++ o.order ++ o.scope ++ bit o.rmt)) 1 3 = _ :=
    full_md o.h o.vb.form op o.k o.vd o.va o.vb.field o.vc (o.fmt.code ++ o.order ++ o.scope ++ bit o.rmt) 1 3 (by omega)
  have md0 : fld (full o.h o.vb.form op o.k o.vd o.va o.vb.field o.vc (o.fmt.code ++ o.order ++ o.scope ++ bit o.rmt)) 0 1 = _ :=
    full_md o.h o.vb.form op o.k o.vd o.va o.vb.field o.vc (o.fmt.code ++ o.order ++ o.scope ++ bit o.rmt) 0 1 (by omega)
  have vc0 : fld (full o.h o.vb.form op o.k o.vd o.va o.vb.field o.vc (o.fmt.code ++ o.order ++ o.scope ++ bit o.rmt)) 11 8 = _ :=
    full_vc o.h o.vb.form op o.k o.vd o.va o.vb.field o.vc (o.fmt.code ++ o.order ++ o.scope ++ bit o.rmt) 0 8 (by omega)
  simp (disch := omega) only [BitVec.extractLsb'_append_eq_of_le, BitVec.extractLsb'_append_eq_of_add_le,
    Nat.sub_self, extract_self] at md6 md4 md1 md0 vc0
  have fmd0 := flag_of md0
  simp only [mkT, encT, num, md6, md4, md1, vc0, fmd0, full_k, Fmt.ofCode_code, Rm.ofCode_code, Sat.ofCode_code,
    Cond.ofCode_code, full_hdr, full_vd, full_va, Option.bind_eq_bind, Option.bind_some, zero_toNat]


theorem mkE_enc (op : BitVec 9) (o : EOp) :
    mkE (encE op o).1 = some o := by
  have md6 : fld (full o.h 0 op false o.vd o.va o.vb o.vc (o.fmt.code ++ o.jf)) 6 5 = _ :=
    full_md o.h 0 op false o.vd o.va o.vb o.vc (o.fmt.code ++ o.jf) 6 5 (by omega)
  have md0 : fld (full o.h 0 op false o.vd o.va o.vb o.vc (o.fmt.code ++ o.jf)) 0 6 = _ :=
    full_md o.h 0 op false o.vd o.va o.vb o.vc (o.fmt.code ++ o.jf) 0 6 (by omega)
  have vc0 : fld (full o.h 0 op false o.vd o.va o.vb o.vc (o.fmt.code ++ o.jf)) 11 8 = _ :=
    full_vc o.h 0 op false o.vd o.va o.vb o.vc (o.fmt.code ++ o.jf) 0 8 (by omega)
  have vb0 : fld (full o.h 0 op false o.vd o.va o.vb o.vc (o.fmt.code ++ o.jf)) 19 8 = _ :=
    full_vb o.h 0 op false o.vd o.va o.vb o.vc (o.fmt.code ++ o.jf) 0 8 (by omega)
  simp (disch := omega) only [BitVec.extractLsb'_append_eq_of_le, BitVec.extractLsb'_append_eq_of_add_le,
    Nat.sub_self, extract_self] at md6 md0 vc0 vb0
  simp only [mkE, encE, num, md6, md0, vc0, vb0, full_k, Fmt.ofCode_code, Rm.ofCode_code, Sat.ofCode_code,
    Cond.ofCode_code, full_hdr, full_vd, full_va, Option.bind_eq_bind, Option.bind_some, zero_toNat]
  rfl


theorem mkY_enc (o : YOp) :
    mkY (Instr.encode (.mma o)).1 = some o := by
  have md6 : fld (full o.h 0 0x19A false 0 o.va ((0 : BitVec 3) ++ o.arow) ((0 : BitVec 6) ++ bit o.cz ++ bit o.bank)
    (o.fmt.code ++ o.rm.code ++ o.prio ++ bit o.reuse)) 6 5 = _ :=
    full_md o.h 0 0x19A false 0 o.va ((0 : BitVec 3) ++ o.arow) ((0 : BitVec 6) ++ bit o.cz ++ bit o.bank)
    (o.fmt.code ++ o.rm.code ++ o.prio ++ bit o.reuse) 6 5 (by omega)
  have md3 : fld (full o.h 0 0x19A false 0 o.va ((0 : BitVec 3) ++ o.arow) ((0 : BitVec 6) ++ bit o.cz ++ bit o.bank)
    (o.fmt.code ++ o.rm.code ++ o.prio ++ bit o.reuse)) 3 3 = _ :=
    full_md o.h 0 0x19A false 0 o.va ((0 : BitVec 3) ++ o.arow) ((0 : BitVec 6) ++ bit o.cz ++ bit o.bank)
    (o.fmt.code ++ o.rm.code ++ o.prio ++ bit o.reuse) 3 3 (by omega)
  have md1 : fld (full o.h 0 0x19A false 0 o.va ((0 : BitVec 3) ++ o.arow) ((0 : BitVec 6) ++ bit o.cz ++ bit o.bank)
    (o.fmt.code ++ o.rm.code ++ o.prio ++ bit o.reuse)) 1 2 = _ :=
    full_md o.h 0 0x19A false 0 o.va ((0 : BitVec 3) ++ o.arow) ((0 : BitVec 6) ++ bit o.cz ++ bit o.bank)
    (o.fmt.code ++ o.rm.code ++ o.prio ++ bit o.reuse) 1 2 (by omega)
  have md0 : fld (full o.h 0 0x19A false 0 o.va ((0 : BitVec 3) ++ o.arow) ((0 : BitVec 6) ++ bit o.cz ++ bit o.bank)
    (o.fmt.code ++ o.rm.code ++ o.prio ++ bit o.reuse)) 0 1 = _ :=
    full_md o.h 0 0x19A false 0 o.va ((0 : BitVec 3) ++ o.arow) ((0 : BitVec 6) ++ bit o.cz ++ bit o.bank)
    (o.fmt.code ++ o.rm.code ++ o.prio ++ bit o.reuse) 0 1 (by omega)
  have vc2 : fld (full o.h 0 0x19A false 0 o.va ((0 : BitVec 3) ++ o.arow) ((0 : BitVec 6) ++ bit o.cz ++ bit o.bank)
    (o.fmt.code ++ o.rm.code ++ o.prio ++ bit o.reuse)) 13 6 = _ :=
    full_vc o.h 0 0x19A false 0 o.va ((0 : BitVec 3) ++ o.arow) ((0 : BitVec 6) ++ bit o.cz ++ bit o.bank)
    (o.fmt.code ++ o.rm.code ++ o.prio ++ bit o.reuse) 2 6 (by omega)
  have vc1 : fld (full o.h 0 0x19A false 0 o.va ((0 : BitVec 3) ++ o.arow) ((0 : BitVec 6) ++ bit o.cz ++ bit o.bank)
    (o.fmt.code ++ o.rm.code ++ o.prio ++ bit o.reuse)) 12 1 = _ :=
    full_vc o.h 0 0x19A false 0 o.va ((0 : BitVec 3) ++ o.arow) ((0 : BitVec 6) ++ bit o.cz ++ bit o.bank)
    (o.fmt.code ++ o.rm.code ++ o.prio ++ bit o.reuse) 1 1 (by omega)
  have vc0 : fld (full o.h 0 0x19A false 0 o.va ((0 : BitVec 3) ++ o.arow) ((0 : BitVec 6) ++ bit o.cz ++ bit o.bank)
    (o.fmt.code ++ o.rm.code ++ o.prio ++ bit o.reuse)) 11 1 = _ :=
    full_vc o.h 0 0x19A false 0 o.va ((0 : BitVec 3) ++ o.arow) ((0 : BitVec 6) ++ bit o.cz ++ bit o.bank)
    (o.fmt.code ++ o.rm.code ++ o.prio ++ bit o.reuse) 0 1 (by omega)
  have vb5 : fld (full o.h 0 0x19A false 0 o.va ((0 : BitVec 3) ++ o.arow) ((0 : BitVec 6) ++ bit o.cz ++ bit o.bank)
    (o.fmt.code ++ o.rm.code ++ o.prio ++ bit o.reuse)) 24 3 = _ :=
    full_vb o.h 0 0x19A false 0 o.va ((0 : BitVec 3) ++ o.arow) ((0 : BitVec 6) ++ bit o.cz ++ bit o.bank)
    (o.fmt.code ++ o.rm.code ++ o.prio ++ bit o.reuse) 5 3 (by omega)
  have vb0 : fld (full o.h 0 0x19A false 0 o.va ((0 : BitVec 3) ++ o.arow) ((0 : BitVec 6) ++ bit o.cz ++ bit o.bank)
    (o.fmt.code ++ o.rm.code ++ o.prio ++ bit o.reuse)) 19 5 = _ :=
    full_vb o.h 0 0x19A false 0 o.va ((0 : BitVec 3) ++ o.arow) ((0 : BitVec 6) ++ bit o.cz ++ bit o.bank)
    (o.fmt.code ++ o.rm.code ++ o.prio ++ bit o.reuse) 0 5 (by omega)
  simp (disch := omega) only [BitVec.extractLsb'_append_eq_of_le, BitVec.extractLsb'_append_eq_of_add_le,
    Nat.sub_self, extract_self] at md6 md3 md1 md0 vc2 vc1 vc0 vb5 vb0
  have fmd0 := flag_of md0
  have fvc1 := flag_of vc1
  have fvc0 := flag_of vc0
  simp only [mkY, Instr.encode, num, md6, md3, md1, vc2, vb5, vb0, fmd0, fvc1, fvc0, full_k, Fmt.ofCode_code, Rm.ofCode_code, Sat.ofCode_code,
    Cond.ofCode_code, full_hdr, full_vd, full_va, Option.bind_eq_bind, Option.bind_some, zero_toNat]
  have h9 : fld (full o.h 0 0x19A false 0 o.va ((0 : BitVec 3) ++ o.arow) ((0 : BitVec 6) ++ bit o.cz ++ bit o.bank)
    (o.fmt.code ++ o.rm.code ++ o.prio ++ bit o.reuse)) 35 9 = 0 := full_kvd ..
  simp only [h9, zero_toNat]
  rfl


theorem mkAcc_enc (op : BitVec 9) (k : Bool) (o : AccOp) :
    mkAcc (encAcc op k o).1 k = some o := by
  have md6 : fld (full o.h 0 op k o.vd o.va ((0 : BitVec 3) ++ o.arow) ((0 : BitVec 1) ++ o.col) (o.fmt.code ++ o.jf)) 6 5 = _ :=
    full_md o.h 0 op k o.vd o.va ((0 : BitVec 3) ++ o.arow) ((0 : BitVec 1) ++ o.col) (o.fmt.code ++ o.jf) 6 5 (by omega)
  have md0 : fld (full o.h 0 op k o.vd o.va ((0 : BitVec 3) ++ o.arow) ((0 : BitVec 1) ++ o.col) (o.fmt.code ++ o.jf)) 0 6 = _ :=
    full_md o.h 0 op k o.vd o.va ((0 : BitVec 3) ++ o.arow) ((0 : BitVec 1) ++ o.col) (o.fmt.code ++ o.jf) 0 6 (by omega)
  have vc7 : fld (full o.h 0 op k o.vd o.va ((0 : BitVec 3) ++ o.arow) ((0 : BitVec 1) ++ o.col) (o.fmt.code ++ o.jf)) 18 1 = _ :=
    full_vc o.h 0 op k o.vd o.va ((0 : BitVec 3) ++ o.arow) ((0 : BitVec 1) ++ o.col) (o.fmt.code ++ o.jf) 7 1 (by omega)
  have vc0 : fld (full o.h 0 op k o.vd o.va ((0 : BitVec 3) ++ o.arow) ((0 : BitVec 1) ++ o.col) (o.fmt.code ++ o.jf)) 11 7 = _ :=
    full_vc o.h 0 op k o.vd o.va ((0 : BitVec 3) ++ o.arow) ((0 : BitVec 1) ++ o.col) (o.fmt.code ++ o.jf) 0 7 (by omega)
  have vb5 : fld (full o.h 0 op k o.vd o.va ((0 : BitVec 3) ++ o.arow) ((0 : BitVec 1) ++ o.col) (o.fmt.code ++ o.jf)) 24 3 = _ :=
    full_vb o.h 0 op k o.vd o.va ((0 : BitVec 3) ++ o.arow) ((0 : BitVec 1) ++ o.col) (o.fmt.code ++ o.jf) 5 3 (by omega)
  have vb0 : fld (full o.h 0 op k o.vd o.va ((0 : BitVec 3) ++ o.arow) ((0 : BitVec 1) ++ o.col) (o.fmt.code ++ o.jf)) 19 5 = _ :=
    full_vb o.h 0 op k o.vd o.va ((0 : BitVec 3) ++ o.arow) ((0 : BitVec 1) ++ o.col) (o.fmt.code ++ o.jf) 0 5 (by omega)
  simp (disch := omega) only [BitVec.extractLsb'_append_eq_of_le, BitVec.extractLsb'_append_eq_of_add_le,
    Nat.sub_self, extract_self] at md6 md0 vc7 vc0 vb5 vb0
  simp only [mkAcc, encAcc, num, md6, md0, vc7, vc0, vb5, vb0, full_k, Fmt.ofCode_code, Rm.ofCode_code, Sat.ofCode_code,
    Cond.ofCode_code, full_hdr, full_vd, full_va, Option.bind_eq_bind, Option.bind_some, zero_toNat]
  cases k <;> rfl


/-- Words of layout A. -/
theorem rtA (op : BitVec 9) (c : AOp → Instr) (o : AOp)
    (hn : ∀ w b, fullInstr op.toNat w b = some (b.bind fun b => (mkA w b).map c))
    (he : (c o).encode = encA op o) (hw : Wf o.h (c o))
    (hl : (c o).litOk = litGate (c o)) (hs : (c o).srcB = some o.vb)
    (ht : (c o).takesLiteral = opTakesLiteral op.toNat) : Statement (c o) := by
  intro w
  obtain ⟨hm, h4, h6, h7⟩ := hw.parts w
  rw [hl, litGate, hs, ht] at h4
  rw [he]
  refine decode_full (form := o.vb.form) (op := op) (full_form ..) o.vb.form_cases (full_hdr ..) hm (full_op ..) ?_
    (lit_form h4) h6 h7
  rw [hn, show srcOf (encA op o).1 ((encA op o).2.getD 0) = some o.vb from srcOf_full ..]
  simp only [Option.bind_some, Option.map_some, mkA_enc]


/-- Words of layout C. -/
theorem rtC (op : BitVec 9) (c : COp → Instr) (o : COp)
    (hn : ∀ w b, fullInstr op.toNat w b = some (b.bind fun b => (mkC w b).map c))
    (he : (c o).encode = encC op o) (hw : Wf o.h (c o))
    (hl : (c o).litOk = litGate (c o)) (hs : (c o).srcB = some o.vb)
    (ht : (c o).takesLiteral = opTakesLiteral op.toNat) : Statement (c o) := by
  intro w
  obtain ⟨hm, h4, h6, h7⟩ := hw.parts w
  rw [hl, litGate, hs, ht] at h4
  rw [he]
  refine decode_full (form := o.vb.form) (op := op) (full_form ..) o.vb.form_cases (full_hdr ..) hm (full_op ..) ?_
    (lit_form h4) h6 h7
  rw [hn, show srcOf (encC op o).1 ((encC op o).2.getD 0) = some o.vb from srcOf_full ..]
  simp only [Option.bind_some, Option.map_some, mkC_enc]


/-- Words of layout X. -/
theorem rtX (op : BitVec 9) (c : XOp → Instr) (o : XOp)
    (hn : ∀ w b, fullInstr op.toNat w b = some (b.bind fun b => (mkX w b).map c))
    (he : (c o).encode = encX op o) (hw : Wf o.h (c o))
    (hl : (c o).litOk = litGate (c o)) (hs : (c o).srcB = some o.vb)
    (ht : (c o).takesLiteral = opTakesLiteral op.toNat) : Statement (c o) := by
  intro w
  obtain ⟨hm, h4, h6, h7⟩ := hw.parts w
  rw [hl, litGate, hs, ht] at h4
  rw [he]
  refine decode_full (form := o.vb.form) (op := op) (full_form ..) o.vb.form_cases (full_hdr ..) hm (full_op ..) ?_
    (lit_form h4) h6 h7
  rw [hn, show srcOf (encX op o).1 ((encX op o).2.getD 0) = some o.vb from srcOf_full ..]
  simp only [Option.bind_some, Option.map_some, mkX_enc]


/-- Words of layout M. -/
theorem rtM (op : BitVec 9) (c : MOp → Instr) (o : MOp)
    (hn : ∀ w b, fullInstr op.toNat w b = some (b.map fun b => c (mkM w b)))
    (he : (c o).encode = encM op o) (hw : Wf o.h (c o))
    (hl : (c o).litOk = litGate (c o)) (hs : (c o).srcB = some o.vb)
    (ht : (c o).takesLiteral = opTakesLiteral op.toNat) : Statement (c o) := by
  intro w
  obtain ⟨hm, h4, h6, h7⟩ := hw.parts w
  rw [hl, litGate, hs, ht] at h4
  rw [he]
  refine decode_full (form := o.vb.form) (op := op) (full_form ..) o.vb.form_cases (full_hdr ..) hm (full_op ..) ?_
    (lit_form h4) h6 h7
  rw [hn, show srcOf (encM op o).1 ((encM op o).2.getD 0) = some o.vb from srcOf_full ..]
  simp only [Option.bind_some, Option.map_some, mkM_enc]


/-- Words of layout T. -/
theorem rtT (op : BitVec 9) (c : TOp → Instr) (o : TOp)
    (hn : ∀ w b, fullInstr op.toNat w b = some (b.bind fun b => (mkT w b).map c))
    (he : (c o).encode = encT op o) (hw : Wf o.h (c o))
    (hl : (c o).litOk = litGate (c o)) (hs : (c o).srcB = some o.vb)
    (ht : (c o).takesLiteral = opTakesLiteral op.toNat) : Statement (c o) := by
  intro w
  obtain ⟨hm, h4, h6, h7⟩ := hw.parts w
  rw [hl, litGate, hs, ht] at h4
  rw [he]
  refine decode_full (form := o.vb.form) (op := op) (full_form ..) o.vb.form_cases (full_hdr ..) hm (full_op ..) ?_
    (lit_form h4) h6 h7
  rw [hn, show srcOf (encT op o).1 ((encT op o).2.getD 0) = some o.vb from srcOf_full ..]
  simp only [Option.bind_some, Option.map_some, mkT_enc]


/-- Words without a source B. -/
theorem rtPlain {w : Dword} {h : Hdr} {i : Instr} (op : BitVec 9) (he : i.encode = (w, none)) (hw : Wf h i)
    (hf : num w 61 2 = 0) (hh : hdrOf w = h) (hop : num w 44 9 = op.toNat)
    (hi : fullInstr op.toNat w (srcOf w 0) = some (some i)) : Statement i := by
  intro wf
  obtain ⟨hm, -, h6, h7⟩ := hw.parts wf
  rw [he]
  exact decode_full (form := 0) (op := op) hf (.inl rfl) hh hm hop hi (fun e => absurd e (by decide)) h6 h7

/-- Pair words. -/
theorem rtPair {h : Hdr} {i : Instr} (a s : Half) (he : i.encode = (pairWord h a s, none)) (hw : Wf h i)
    (hi : a.op.instr h a.args s = i) : Statement i := by
  intro wf
  obtain ⟨hm, -, h6, h7⟩ := hw.parts wf
  rw [he]
  simp only [ne_eq, BitVec.ofNat_eq_ofNat] at hm
  simp [decode, pair_form, pair_zero, pair_hdr, hm, pair_first, pair_second, hi, accept, h6, h7]


theorem add (o : AOp) : Statement (.add o) := rtA 0x000 .add o (fun _ _ => rfl) rfl rfl rfl rfl rfl

theorem sub (o : AOp) : Statement (.sub o) := rtA 0x001 .sub o (fun _ _ => rfl) rfl rfl rfl rfl rfl

theorem mul (o : AOp) : Statement (.mul o) := rtA 0x002 .mul o (fun _ _ => rfl) rfl rfl rfl rfl rfl

theorem mulhi (o : AOp) : Statement (.mulhi o) := rtA 0x003 .mulhi o (fun _ _ => rfl) rfl rfl rfl rfl rfl

theorem mulw (o : AOp) : Statement (.mulw o) := rtA 0x004 .mulw o (fun _ _ => rfl) rfl rfl rfl rfl rfl

theorem mad (o : AOp) : Statement (.mad o) := rtA 0x005 .mad o (fun _ _ => rfl) rfl rfl rfl rfl rfl

theorem madw (o : AOp) : Statement (.madw o) := rtA 0x006 .madw o (fun _ _ => rfl) rfl rfl rfl rfl rfl

theorem min (o : AOp) : Statement (.min o) := rtA 0x007 .min o (fun _ _ => rfl) rfl rfl rfl rfl rfl

theorem max (o : AOp) : Statement (.max o) := rtA 0x008 .max o (fun _ _ => rfl) rfl rfl rfl rfl rfl

theorem abs (o : AOp) : Statement (.abs o) := rtA 0x009 .abs o (fun _ _ => rfl) rfl rfl rfl rfl rfl

theorem neg (o : AOp) : Statement (.neg o) := rtA 0x00A .neg o (fun _ _ => rfl) rfl rfl rfl rfl rfl

theorem and (o : AOp) : Statement (.and o) := rtA 0x00B .and o (fun _ _ => rfl) rfl rfl rfl rfl rfl

theorem or (o : AOp) : Statement (.or o) := rtA 0x00C .or o (fun _ _ => rfl) rfl rfl rfl rfl rfl

theorem xor (o : AOp) : Statement (.xor o) := rtA 0x00D .xor o (fun _ _ => rfl) rfl rfl rfl rfl rfl

theorem not (o : AOp) : Statement (.not o) := rtA 0x00E .not o (fun _ _ => rfl) rfl rfl rfl rfl rfl

theorem andn (o : AOp) : Statement (.andn o) := rtA 0x00F .andn o (fun _ _ => rfl) rfl rfl rfl rfl rfl

theorem shl (o : AOp) : Statement (.shl o) := rtA 0x010 .shl o (fun _ _ => rfl) rfl rfl rfl rfl rfl

theorem shr (o : AOp) : Statement (.shr o) := rtA 0x011 .shr o (fun _ _ => rfl) rfl rfl rfl rfl rfl

theorem sra (o : AOp) : Statement (.sra o) := rtA 0x012 .sra o (fun _ _ => rfl) rfl rfl rfl rfl rfl

theorem rol (o : AOp) : Statement (.rol o) := rtA 0x013 .rol o (fun _ _ => rfl) rfl rfl rfl rfl rfl

theorem ror (o : AOp) : Statement (.ror o) := rtA 0x014 .ror o (fun _ _ => rfl) rfl rfl rfl rfl rfl

theorem bfx (o : AOp) : Statement (.bfx o) := rtA 0x015 .bfx o (fun _ _ => rfl) rfl rfl rfl rfl rfl

theorem bfi (o : AOp) : Statement (.bfi o) := rtA 0x016 .bfi o (fun _ _ => rfl) rfl rfl rfl rfl rfl

theorem popc (o : AOp) : Statement (.popc o) := rtA 0x017 .popc o (fun _ _ => rfl) rfl rfl rfl rfl rfl

theorem clz (o : AOp) : Statement (.clz o) := rtA 0x018 .clz o (fun _ _ => rfl) rfl rfl rfl rfl rfl

theorem ctz (o : AOp) : Statement (.ctz o) := rtA 0x019 .ctz o (fun _ _ => rfl) rfl rfl rfl rfl rfl

theorem brev (o : AOp) : Statement (.brev o) := rtA 0x01A .brev o (fun _ _ => rfl) rfl rfl rfl rfl rfl

theorem cmp (o : COp) : Statement (.cmp o) := rtC 0x01B .cmp o (fun _ _ => rfl) rfl rfl rfl rfl rfl

theorem sel (o : AOp) : Statement (.sel o) := rtA 0x01C .sel o (fun _ _ => rfl) rfl rfl rfl rfl rfl

theorem mov (o : AOp) : Statement (.mov o) := rtA 0x01D .mov o (fun _ _ => rfl) rfl rfl rfl rfl rfl

theorem adda (o : AOp) : Statement (.adda o) := rtA 0x01E .adda o (fun _ _ => rfl) rfl rfl rfl rfl rfl

theorem addsc (o : AOp) : Statement (.addsc o) := rtA 0x01F .addsc o (fun _ _ => rfl) rfl rfl rfl rfl rfl

theorem fadd (o : AOp) : Statement (.fadd o) := rtA 0x040 .fadd o (fun _ _ => rfl) rfl rfl rfl rfl rfl

theorem fsub (o : AOp) : Statement (.fsub o) := rtA 0x041 .fsub o (fun _ _ => rfl) rfl rfl rfl rfl rfl

theorem fmul (o : AOp) : Statement (.fmul o) := rtA 0x042 .fmul o (fun _ _ => rfl) rfl rfl rfl rfl rfl

theorem fma (o : AOp) : Statement (.fma o) := rtA 0x043 .fma o (fun _ _ => rfl) rfl rfl rfl rfl rfl

theorem fmin (o : AOp) : Statement (.fmin o) := rtA 0x044 .fmin o (fun _ _ => rfl) rfl rfl rfl rfl rfl

theorem fmax (o : AOp) : Statement (.fmax o) := rtA 0x045 .fmax o (fun _ _ => rfl) rfl rfl rfl rfl rfl

theorem fminn (o : AOp) : Statement (.fminn o) := rtA 0x046 .fminn o (fun _ _ => rfl) rfl rfl rfl rfl rfl

theorem fmaxn (o : AOp) : Statement (.fmaxn o) := rtA 0x047 .fmaxn o (fun _ _ => rfl) rfl rfl rfl rfl rfl

theorem fabs (o : AOp) : Statement (.fabs o) := rtA 0x048 .fabs o (fun _ _ => rfl) rfl rfl rfl rfl rfl

theorem fneg (o : AOp) : Statement (.fneg o) := rtA 0x049 .fneg o (fun _ _ => rfl) rfl rfl rfl rfl rfl

theorem fcmp (o : COp) : Statement (.fcmp o) := rtC 0x04A .fcmp o (fun _ _ => rfl) rfl rfl rfl rfl rfl

theorem fclass (o : AOp) : Statement (.fclass o) := rtA 0x04B .fclass o (fun _ _ => rfl) rfl rfl rfl rfl rfl

theorem frint (o : AOp) : Statement (.frint o) := rtA 0x04C .frint o (fun _ _ => rfl) rfl rfl rfl rfl rfl

theorem fscale (o : AOp) : Statement (.fscale o) := rtA 0x04D .fscale o (fun _ _ => rfl) rfl rfl rfl rfl rfl

theorem rcps (o : AOp) : Statement (.rcps o) := rtA 0x081 .rcps o (fun _ _ => rfl) rfl rfl rfl rfl rfl

theorem rsqs (o : AOp) : Statement (.rsqs o) := rtA 0x082 .rsqs o (fun _ _ => rfl) rfl rfl rfl rfl rfl

theorem shfl (o : XOp) : Statement (.shfl o) := rtX 0x084 .shfl o (fun _ _ => rfl) rfl rfl rfl rfl rfl

theorem red (o : XOp) : Statement (.red o) := rtX 0x085 .red o (fun _ _ => rfl) rfl rfl rfl rfl rfl

theorem scan (o : XOp) : Statement (.scan o) := rtX 0x086 .scan o (fun _ _ => rfl) rfl rfl rfl rfl rfl

theorem ballot (o : XOp) : Statement (.ballot o) := rtX 0x087 .ballot o (fun _ _ => rfl) rfl rfl rfl rfl rfl

theorem any (o : XOp) : Statement (.any o) := rtX 0x088 .any o (fun _ _ => rfl) rfl rfl rfl rfl rfl

theorem all (o : XOp) : Statement (.all o) := rtX 0x089 .all o (fun _ _ => rfl) rfl rfl rfl rfl rfl

theorem matchLanes (o : XOp) : Statement (.matchLanes o) := rtX 0x08A .matchLanes o (fun _ _ => rfl) rfl rfl rfl rfl rfl

theorem ld (o : MOp) : Statement (.ld o) := rtM 0x0C0 .ld o (fun _ _ => rfl) rfl rfl rfl rfl rfl

theorem lds (o : MOp) : Statement (.lds o) := rtM 0x0C1 .lds o (fun _ _ => rfl) rfl rfl rfl rfl rfl

theorem st (o : MOp) : Statement (.st o) := rtM 0x0C2 .st o (fun _ _ => rfl) rfl rfl rfl rfl rfl

theorem feset (o : MOp) : Statement (.feset o) := rtM 0x0C5 .feset o (fun _ _ => rfl) rfl rfl rfl rfl rfl

theorem feclr (o : MOp) : Statement (.feclr o) := rtM 0x0C6 .feclr o (fun _ _ => rfl) rfl rfl rfl rfl rfl

theorem fetest (o : MOp) : Statement (.fetest o) := rtM 0x0C7 .fetest o (fun _ _ => rfl) rfl rfl rfl rfl rfl

theorem aadd (o : TOp) : Statement (.aadd o) := rtT 0x100 .aadd o (fun _ _ => rfl) rfl rfl rfl rfl rfl

theorem amin (o : TOp) : Statement (.amin o) := rtT 0x101 .amin o (fun _ _ => rfl) rfl rfl rfl rfl rfl

theorem amax (o : TOp) : Statement (.amax o) := rtT 0x102 .amax o (fun _ _ => rfl) rfl rfl rfl rfl rfl

theorem aand (o : TOp) : Statement (.aand o) := rtT 0x103 .aand o (fun _ _ => rfl) rfl rfl rfl rfl rfl

theorem aor (o : TOp) : Statement (.aor o) := rtT 0x104 .aor o (fun _ _ => rfl) rfl rfl rfl rfl rfl

theorem axor (o : TOp) : Statement (.axor o) := rtT 0x105 .axor o (fun _ _ => rfl) rfl rfl rfl rfl rfl

theorem aexch (o : TOp) : Statement (.aexch o) := rtT 0x106 .aexch o (fun _ _ => rfl) rfl rfl rfl rfl rfl

theorem acas (o : TOp) : Statement (.acas o) := rtT 0x107 .acas o (fun _ _ => rfl) rfl rfl rfl rfl rfl

theorem afadd (o : TOp) : Statement (.afadd o) := rtT 0x108 .afadd o (fun _ _ => rfl) rfl rfl rfl rfl rfl

theorem ofadd (o : TOp) : Statement (.ofadd o) := rtT 0x109 .ofadd o (fun _ _ => rfl) rfl rfl rfl rfl rfl

theorem sptest (o : POp) : Statement (.sptest o) :=
  rtPlain 0x0C3 rfl rfl (full_form ..) (full_hdr ..) (full_op ..)
    (congrArg some (congrArg (Option.map Instr.sptest) (mkP_enc 0x0C3 o)))

theorem spcast (o : POp) : Statement (.spcast o) :=
  rtPlain 0x0C4 rfl rfl (full_form ..) (full_hdr ..) (full_op ..)
    (congrArg some (congrArg (Option.map Instr.spcast) (mkP_enc 0x0C4 o)))

theorem copy (o : EOp) : Statement (.copy o) :=
  rtPlain 0x180 rfl rfl (full_form ..) (full_hdr ..) (full_op ..)
    (congrArg some (congrArg (Option.map Instr.copy) (mkE_enc 0x180 o)))

theorem gather (o : EOp) : Statement (.gather o) :=
  rtPlain 0x181 rfl rfl (full_form ..) (full_hdr ..) (full_op ..)
    (congrArg some (congrArg (Option.map Instr.gather) (mkE_enc 0x181 o)))

theorem scatter (o : EOp) : Statement (.scatter o) :=
  rtPlain 0x182 rfl rfl (full_form ..) (full_hdr ..) (full_op ..)
    (congrArg some (congrArg (Option.map Instr.scatter) (mkE_enc 0x182 o)))

theorem srank (o : EOp) : Statement (.srank o) :=
  rtPlain 0x188 rfl rfl (full_form ..) (full_hdr ..) (full_op ..)
    (congrArg some (congrArg (Option.map Instr.srank) (mkE_enc 0x188 o)))

theorem scmp (o : EOp) : Statement (.scmp o) :=
  rtPlain 0x189 rfl rfl (full_form ..) (full_hdr ..) (full_op ..)
    (congrArg some (congrArg (Option.map Instr.scmp) (mkE_enc 0x189 o)))

theorem coll (o : EOp) : Statement (.coll o) :=
  rtPlain 0x190 rfl rfl (full_form ..) (full_hdr ..) (full_op ..)
    (congrArg some (congrArg (Option.map Instr.coll) (mkE_enc 0x190 o)))

theorem msg (o : EOp) : Statement (.msg o) :=
  rtPlain 0x191 rfl rfl (full_form ..) (full_hdr ..) (full_op ..)
    (congrArg some (congrArg (Option.map Instr.msg) (mkE_enc 0x191 o)))

theorem wld (o : EOp) : Statement (.wld o) :=
  rtPlain 0x199 rfl rfl (full_form ..) (full_hdr ..) (full_op ..)
    (congrArg some (congrArg (Option.map Instr.wld) (mkE_enc 0x199 o)))

theorem launch (o : EOp) : Statement (.launch o) :=
  rtPlain 0x1C7 rfl rfl (full_form ..) (full_hdr ..) (full_op ..)
    (congrArg some (congrArg (Option.map Instr.launch) (mkE_enc 0x1C7 o)))

theorem evsig (o : EOp) : Statement (.evsig o) :=
  rtPlain 0x1C8 rfl rfl (full_form ..) (full_hdr ..) (full_op ..)
    (congrArg some (congrArg (Option.map Instr.evsig) (mkE_enc 0x1C8 o)))

theorem accld (o : AccOp) : Statement (.accld o) :=
  rtPlain 0x19B rfl rfl (full_form ..) (full_hdr ..) (full_op ..)
    (congrArg some (congrArg (Option.map Instr.accld) (mkAcc_enc 0x19B false o)))

theorem accst (o : AccOp) : Statement (.accst o) :=
  rtPlain 0x19C rfl rfl (full_form ..) (full_hdr ..) (full_op ..)
    (congrArg some (congrArg (Option.map Instr.accst) (mkAcc_enc 0x19C false o)))

theorem accrd (o : AccOp) : Statement (.accrd o) :=
  rtPlain 0x19D rfl rfl (full_form ..) (full_hdr ..) (full_op ..)
    (congrArg some (congrArg (Option.map Instr.accrd) (mkAcc_enc 0x19D true o)))

theorem accz (o : AccOp) : Statement (.accz o) :=
  rtPlain 0x19E rfl rfl (full_form ..) (full_hdr ..) (full_op ..)
    (congrArg some (congrArg (Option.map Instr.accz) (mkAcc_enc 0x19E false o)))

theorem cvt (o : CvtOp) : Statement (.cvt o) :=
  rtPlain 0x080 rfl rfl (full_form ..) (full_hdr ..) (full_op ..)
    (congrArg some (congrArg (Option.map Instr.cvt) (mkCvt_enc o)))

theorem cord (o : KOp) : Statement (.cord o) :=
  rtPlain 0x083 rfl rfl (full_form ..) (full_hdr ..) (full_op ..)
    (congrArg some (congrArg (Option.map Instr.cord) (mkK_enc o)))

theorem mma (o : YOp) : Statement (.mma o) :=
  rtPlain 0x19A rfl rfl (full_form ..) (full_hdr ..) (full_op ..)
    (congrArg some (congrArg (Option.map Instr.mma) (mkY_enc o)))

theorem br (h : Hdr) (blka : BitVec 12) : Statement (.br h blka) :=
  rtPlain 0x140 (w := fullLow h 0x140 ((0 : BitVec 8) ++ blka ++ (0 : BitVec 15))) rfl rfl (low_form ..) (low_hdr ..) (low_op ..) (by
      generalize srcOf (fullLow h 0x140 ((0 : BitVec 8) ++ blka ++ (0 : BitVec 15))) 0 = b
      show mkOther 0x140 (fullLow h 0x140 ((0 : BitVec 8) ++ blka ++ (0 : BitVec 15))) b = _
      simp (disch := omega) only [mkOther, zeros, List.all_cons, List.all_nil, num, low_fld, low_hdr,
        BitVec.extractLsb'_append_eq_of_le, BitVec.extractLsb'_append_eq_of_add_le, Nat.sub_self, extract_self]
      simp [low_z])

theorem brc (h : Hdr) (va : Reg) (blka blkb : BitVec 12) : Statement (.brc h va blka blkb) :=
  rtPlain 0x141 (w := fullLow h 0x141 (va ++ blka ++ blkb ++ (0 : BitVec 3))) rfl rfl (low_form ..) (low_hdr ..) (low_op ..) (by
      generalize srcOf (fullLow h 0x141 (va ++ blka ++ blkb ++ (0 : BitVec 3))) 0 = b
      show mkOther 0x141 (fullLow h 0x141 (va ++ blka ++ blkb ++ (0 : BitVec 3))) b = _
      simp (disch := omega) only [mkOther, zeros, List.all_cons, List.all_nil, num, low_fld, low_hdr,
        BitVec.extractLsb'_append_eq_of_le, BitVec.extractLsb'_append_eq_of_add_le, Nat.sub_self, extract_self]
      simp [low_z])

theorem brx (h : Hdr) (va : Reg) : Statement (.brx h va) :=
  rtPlain 0x142 (w := fullLow h 0x142 (va ++ (0 : BitVec 27))) rfl rfl (low_form ..) (low_hdr ..) (low_op ..) (by
      generalize srcOf (fullLow h 0x142 (va ++ (0 : BitVec 27))) 0 = b
      show mkOther 0x142 (fullLow h 0x142 (va ++ (0 : BitVec 27))) b = _
      simp (disch := omega) only [mkOther, zeros, List.all_cons, List.all_nil, num, low_fld, low_hdr,
        BitVec.extractLsb'_append_eq_of_le, BitVec.extractLsb'_append_eq_of_add_le, Nat.sub_self, extract_self]
      simp [low_z])

theorem vote (h : Hdr) : Statement (.vote h) :=
  rtPlain 0x143 (w := fullLow h 0x143 0) rfl rfl (low_form ..) (low_hdr ..) (low_op ..) (by
      generalize srcOf (fullLow h 0x143 0) 0 = b
      show mkOther 0x143 (fullLow h 0x143 0) b = _
      simp (disch := omega) only [mkOther, zeros, List.all_cons, List.all_nil, num, low_fld, low_hdr,
        BitVec.extractLsb'_append_eq_of_le, BitVec.extractLsb'_append_eq_of_add_le, Nat.sub_self, extract_self]
      simp [low_z])

theorem regang (h : Hdr) : Statement (.regang h) :=
  rtPlain 0x144 (w := fullLow h 0x144 0) rfl rfl (low_form ..) (low_hdr ..) (low_op ..) (by
      generalize srcOf (fullLow h 0x144 0) 0 = b
      show mkOther 0x144 (fullLow h 0x144 0) b = _
      simp (disch := omega) only [mkOther, zeros, List.all_cons, List.all_nil, num, low_fld, low_hdr,
        BitVec.extractLsb'_append_eq_of_le, BitVec.extractLsb'_append_eq_of_add_le, Nat.sub_self, extract_self]
      simp [low_z])

theorem loop (h : Hdr) (va : Reg) (tend : BitVec 16) : Statement (.loop h va tend) :=
  rtPlain 0x145 (w := fullLow h 0x145 (va ++ tend ++ (0 : BitVec 11))) rfl rfl (low_form ..) (low_hdr ..) (low_op ..) (by
      generalize srcOf (fullLow h 0x145 (va ++ tend ++ (0 : BitVec 11))) 0 = b
      show mkOther 0x145 (fullLow h 0x145 (va ++ tend ++ (0 : BitVec 11))) b = _
      simp (disch := omega) only [mkOther, zeros, List.all_cons, List.all_nil, num, low_fld, low_hdr,
        BitVec.extractLsb'_append_eq_of_le, BitVec.extractLsb'_append_eq_of_add_le, Nat.sub_self, extract_self]
      simp [low_z])

theorem yield (h : Hdr) : Statement (.yield h) :=
  rtPlain 0x146 (w := fullLow h 0x146 0) rfl rfl (low_form ..) (low_hdr ..) (low_op ..) (by
      generalize srcOf (fullLow h 0x146 0) 0 = b
      show mkOther 0x146 (fullLow h 0x146 0) b = _
      simp (disch := omega) only [mkOther, zeros, List.all_cons, List.all_nil, num, low_fld, low_hdr,
        BitVec.extractLsb'_append_eq_of_le, BitVec.extractLsb'_append_eq_of_add_le, Nat.sub_self, extract_self]
      simp [low_z])

theorem exit (h : Hdr) : Statement (.exit h) :=
  rtPlain 0x147 (w := fullLow h 0x147 0) rfl rfl (low_form ..) (low_hdr ..) (low_op ..) (by
      generalize srcOf (fullLow h 0x147 0) 0 = b
      show mkOther 0x147 (fullLow h 0x147 0) b = _
      simp (disch := omega) only [mkOther, zeros, List.all_cons, List.all_nil, num, low_fld, low_hdr,
        BitVec.extractLsb'_append_eq_of_le, BitVec.extractLsb'_append_eq_of_add_le, Nat.sub_self, extract_self]
      simp [low_z])

theorem call (h : Hdr) (fidx : BitVec 16) : Statement (.call h fidx) :=
  rtPlain 0x148 (w := fullLow h 0x148 ((0 : BitVec 8) ++ fidx ++ (0 : BitVec 11))) rfl rfl (low_form ..) (low_hdr ..) (low_op ..) (by
      generalize srcOf (fullLow h 0x148 ((0 : BitVec 8) ++ fidx ++ (0 : BitVec 11))) 0 = b
      show mkOther 0x148 (fullLow h 0x148 ((0 : BitVec 8) ++ fidx ++ (0 : BitVec 11))) b = _
      simp (disch := omega) only [mkOther, zeros, List.all_cons, List.all_nil, num, low_fld, low_hdr,
        BitVec.extractLsb'_append_eq_of_le, BitVec.extractLsb'_append_eq_of_add_le, Nat.sub_self, extract_self]
      simp [low_z])

theorem calli (h : Hdr) (va : Reg) : Statement (.calli h va) :=
  rtPlain 0x149 (w := fullLow h 0x149 (va ++ (0 : BitVec 27))) rfl rfl (low_form ..) (low_hdr ..) (low_op ..) (by
      generalize srcOf (fullLow h 0x149 (va ++ (0 : BitVec 27))) 0 = b
      show mkOther 0x149 (fullLow h 0x149 (va ++ (0 : BitVec 27))) b = _
      simp (disch := omega) only [mkOther, zeros, List.all_cons, List.all_nil, num, low_fld, low_hdr,
        BitVec.extractLsb'_append_eq_of_le, BitVec.extractLsb'_append_eq_of_add_le, Nat.sub_self, extract_self]
      simp [low_z])

theorem ret (h : Hdr) : Statement (.ret h) :=
  rtPlain 0x14A (w := fullLow h 0x14A 0) rfl rfl (low_form ..) (low_hdr ..) (low_op ..) (by
      generalize srcOf (fullLow h 0x14A 0) 0 = b
      show mkOther 0x14A (fullLow h 0x14A 0) b = _
      simp (disch := omega) only [mkOther, zeros, List.all_cons, List.all_nil, num, low_fld, low_hdr,
        BitVec.extractLsb'_append_eq_of_le, BitVec.extractLsb'_append_eq_of_add_le, Nat.sub_self, extract_self]
      simp [low_z])

theorem unwind (h : Hdr) (va : Reg) (blka : BitVec 12) : Statement (.unwind h va blka) :=
  rtPlain 0x14B (w := fullLow h 0x14B (va ++ blka ++ (0 : BitVec 15))) rfl rfl (low_form ..) (low_hdr ..) (low_op ..) (by
      generalize srcOf (fullLow h 0x14B (va ++ blka ++ (0 : BitVec 15))) 0 = b
      show mkOther 0x14B (fullLow h 0x14B (va ++ blka ++ (0 : BitVec 15))) b = _
      simp (disch := omega) only [mkOther, zeros, List.all_cons, List.all_nil, num, low_fld, low_hdr,
        BitVec.extractLsb'_append_eq_of_le, BitVec.extractLsb'_append_eq_of_add_le, Nat.sub_self, extract_self]
      simp [low_z])

theorem crew (h : Hdr) (va : Reg) : Statement (.crew h va) :=
  rtPlain 0x198 (w := fullLow h 0x198 (va ++ (0 : BitVec 27))) rfl rfl (low_form ..) (low_hdr ..) (low_op ..) (by
      generalize srcOf (fullLow h 0x198 (va ++ (0 : BitVec 27))) 0 = b
      show mkOther 0x198 (fullLow h 0x198 (va ++ (0 : BitVec 27))) b = _
      simp (disch := omega) only [mkOther, zeros, List.all_cons, List.all_nil, num, low_fld, low_hdr,
        BitVec.extractLsb'_append_eq_of_le, BitVec.extractLsb'_append_eq_of_add_le, Nat.sub_self, extract_self]
      simp [low_z])

theorem enter (h : Hdr) (id : BitVec 16) : Statement (.enter h id) :=
  rtPlain 0x1C5 (w := fullLow h 0x1C5 ((0 : BitVec 8) ++ id ++ (0 : BitVec 11))) rfl rfl (low_form ..) (low_hdr ..) (low_op ..) (by
      generalize srcOf (fullLow h 0x1C5 ((0 : BitVec 8) ++ id ++ (0 : BitVec 11))) 0 = b
      show mkOther 0x1C5 (fullLow h 0x1C5 ((0 : BitVec 8) ++ id ++ (0 : BitVec 11))) b = _
      simp (disch := omega) only [mkOther, zeros, List.all_cons, List.all_nil, num, low_fld, low_hdr,
        BitVec.extractLsb'_append_eq_of_le, BitVec.extractLsb'_append_eq_of_add_le, Nat.sub_self, extract_self]
      simp [low_z])

theorem leave (h : Hdr) (id : BitVec 16) : Statement (.leave h id) :=
  rtPlain 0x1C6 (w := fullLow h 0x1C6 ((0 : BitVec 8) ++ id ++ (0 : BitVec 11))) rfl rfl (low_form ..) (low_hdr ..) (low_op ..) (by
      generalize srcOf (fullLow h 0x1C6 ((0 : BitVec 8) ++ id ++ (0 : BitVec 11))) 0 = b
      show mkOther 0x1C6 (fullLow h 0x1C6 ((0 : BitVec 8) ++ id ++ (0 : BitVec 11))) b = _
      simp (disch := omega) only [mkOther, zeros, List.all_cons, List.all_nil, num, low_fld, low_hdr,
        BitVec.extractLsb'_append_eq_of_le, BitVec.extractLsb'_append_eq_of_add_le, Nat.sub_self, extract_self]
      simp [low_z])

theorem wait (h : Hdr) (ld st eng tile : BitVec 6) : Statement (.wait h ld st eng tile) :=
  rtPlain 0x10B (w := fullLow h 0x10B (ld ++ st ++ eng ++ tile ++ (0 : BitVec 11))) rfl rfl (low_form ..) (low_hdr ..) (low_op ..) (by
      generalize srcOf (fullLow h 0x10B (ld ++ st ++ eng ++ tile ++ (0 : BitVec 11))) 0 = b
      show mkOther 0x10B (fullLow h 0x10B (ld ++ st ++ eng ++ tile ++ (0 : BitVec 11))) b = _
      simp (disch := omega) only [mkOther, zeros, List.all_cons, List.all_nil, num, low_fld, low_hdr,
        BitVec.extractLsb'_append_eq_of_le, BitVec.extractLsb'_append_eq_of_add_le, Nat.sub_self, extract_self]
      simp [low_z])

theorem fence (h : Hdr) (order : BitVec 2) (scope : BitVec 3) : Statement (.fence h order scope) :=
  rtPlain 0x10A (w := full h 0 0x10A false 0 0 0 0 ((0 : BitVec 5) ++ order ++ scope ++ (0 : BitVec 1))) rfl rfl (full_form ..) (full_hdr ..) (full_op ..) (by
      generalize srcOf (full h 0 0x10A false 0 0 0 0 ((0 : BitVec 5) ++ order ++ scope ++ (0 : BitVec 1))) 0 = b
      show mkOther 0x10A (full h 0 0x10A false 0 0 0 0 ((0 : BitVec 5) ++ order ++ scope ++ (0 : BitVec 1))) b = _
      simp (disch := omega) only [mkOther, zeros, List.all_cons, List.all_nil, num, full_md, full_vb0, full_vc0,
        full_va, full_kvd, full_hdr, full_imm, BitVec.extractLsb'_append_eq_of_le,
        BitVec.extractLsb'_append_eq_of_add_le, Nat.sub_self, extract_self]
      simp)

theorem fenceOpr (h : Hdr) : Statement (.fenceOpr h) :=
  rtPlain 0x10A (w := full h 0 0x10A false 0 0 0 0 0x200) rfl rfl (full_form ..) (full_hdr ..) (full_op ..) (by
      generalize srcOf (full h 0 0x10A false 0 0 0 0 0x200) 0 = b
      show mkOther 0x10A (full h 0 0x10A false 0 0 0 0 0x200) b = _
      simp (disch := omega) only [mkOther, zeros, List.all_cons, List.all_nil, num, full_md, full_vb0, full_vc0,
        full_va, full_kvd, full_hdr, full_imm, BitVec.extractLsb'_append_eq_of_le,
        BitVec.extractLsb'_append_eq_of_add_le, Nat.sub_self, extract_self]
      simp)

theorem arrive (h : Hdr) (bar : BitVec 4) : Statement (.arrive h bar) :=
  rtPlain 0x10C (w := full h 0 0x10C false 0 0 0 0 ((0 : BitVec 7) ++ bar)) rfl rfl (full_form ..) (full_hdr ..) (full_op ..) (by
      generalize srcOf (full h 0 0x10C false 0 0 0 0 ((0 : BitVec 7) ++ bar)) 0 = b
      show mkOther 0x10C (full h 0 0x10C false 0 0 0 0 ((0 : BitVec 7) ++ bar)) b = _
      simp (disch := omega) only [mkOther, zeros, List.all_cons, List.all_nil, num, full_md, full_vb0, full_vc0,
        full_va, full_kvd, full_hdr, full_imm, BitVec.extractLsb'_append_eq_of_le,
        BitVec.extractLsb'_append_eq_of_add_le, Nat.sub_self, extract_self]
      simp)

theorem bwait (h : Hdr) (bar : BitVec 4) : Statement (.bwait h bar) :=
  rtPlain 0x10D (w := full h 0 0x10D false 0 0 0 0 ((0 : BitVec 7) ++ bar)) rfl rfl (full_form ..) (full_hdr ..) (full_op ..) (by
      generalize srcOf (full h 0 0x10D false 0 0 0 0 ((0 : BitVec 7) ++ bar)) 0 = b
      show mkOther 0x10D (full h 0 0x10D false 0 0 0 0 ((0 : BitVec 7) ++ bar)) b = _
      simp (disch := omega) only [mkOther, zeros, List.all_cons, List.all_nil, num, full_md, full_vb0, full_vc0,
        full_va, full_kvd, full_hdr, full_imm, BitVec.extractLsb'_append_eq_of_le,
        BitVec.extractLsb'_append_eq_of_add_le, Nat.sub_self, extract_self]
      simp)

theorem trap (h : Hdr) (imm : BitVec 8) : Statement (.trap h imm) :=
  rtPlain 0x1C3 (w := full h 0 0x1C3 false 0 0 0 0 ((0 : BitVec 3) ++ imm)) rfl rfl (full_form ..) (full_hdr ..) (full_op ..) (by
      generalize srcOf (full h 0 0x1C3 false 0 0 0 0 ((0 : BitVec 3) ++ imm)) 0 = b
      show mkOther 0x1C3 (full h 0 0x1C3 false 0 0 0 0 ((0 : BitVec 3) ++ imm)) b = _
      simp (disch := omega) only [mkOther, zeros, List.all_cons, List.all_nil, num, full_md, full_vb0, full_vc0,
        full_va, full_kvd, full_hdr, full_imm, BitVec.extractLsb'_append_eq_of_le,
        BitVec.extractLsb'_append_eq_of_add_le, Nat.sub_self, extract_self]
      simp)

theorem brkpt (h : Hdr) (imm : BitVec 8) : Statement (.brkpt h imm) :=
  rtPlain 0x1C4 (w := full h 0 0x1C4 false 0 0 0 0 ((0 : BitVec 3) ++ imm)) rfl rfl (full_form ..) (full_hdr ..) (full_op ..) (by
      generalize srcOf (full h 0 0x1C4 false 0 0 0 0 ((0 : BitVec 3) ++ imm)) 0 = b
      show mkOther 0x1C4 (full h 0 0x1C4 false 0 0 0 0 ((0 : BitVec 3) ++ imm)) b = _
      simp (disch := omega) only [mkOther, zeros, List.all_cons, List.all_nil, num, full_md, full_vb0, full_vc0,
        full_va, full_kvd, full_hdr, full_imm, BitVec.extractLsb'_append_eq_of_le,
        BitVec.extractLsb'_append_eq_of_add_le, Nat.sub_self, extract_self]
      simp)

theorem movs (h : Hdr) (k : Bool) (vd : Reg) (sid : Sid) : Statement (.movs h k vd sid) :=
  rtPlain 0x1C1 (w := full h 0 0x1C1 k vd 0 0 0 ((0 : BitVec 6) ++ sid.code)) rfl rfl (full_form ..) (full_hdr ..) (full_op ..) (by
      generalize srcOf (full h 0 0x1C1 k vd 0 0 0 ((0 : BitVec 6) ++ sid.code)) 0 = b
      show mkOther 0x1C1 (full h 0 0x1C1 k vd 0 0 0 ((0 : BitVec 6) ++ sid.code)) b = _
      simp (disch := omega) only [mkOther, zeros, List.all_cons, List.all_nil, num, full_md, full_vb0, full_vc0,
        full_va, full_kvd, full_hdr, full_imm, BitVec.extractLsb'_append_eq_of_le,
        BitVec.extractLsb'_append_eq_of_add_le, Nat.sub_self, extract_self, Sid.ofCode_code, full_k, full_vd]
      simp)

theorem pairNop (h : Hdr) (a : HalfArgs) (second : Half) : Statement (.pairNop h a second) :=
  rtPair ⟨.nop, a⟩ second rfl rfl rfl

theorem pairMov (h : Hdr) (a : HalfArgs) (second : Half) : Statement (.pairMov h a second) :=
  rtPair ⟨.mov, a⟩ second rfl rfl rfl

theorem pairAdd (h : Hdr) (a : HalfArgs) (second : Half) : Statement (.pairAdd h a second) :=
  rtPair ⟨.add, a⟩ second rfl rfl rfl

theorem pairSub (h : Hdr) (a : HalfArgs) (second : Half) : Statement (.pairSub h a second) :=
  rtPair ⟨.sub, a⟩ second rfl rfl rfl

theorem pairMul (h : Hdr) (a : HalfArgs) (second : Half) : Statement (.pairMul h a second) :=
  rtPair ⟨.mul, a⟩ second rfl rfl rfl

theorem pairAnd (h : Hdr) (a : HalfArgs) (second : Half) : Statement (.pairAnd h a second) :=
  rtPair ⟨.and, a⟩ second rfl rfl rfl

theorem pairOr (h : Hdr) (a : HalfArgs) (second : Half) : Statement (.pairOr h a second) :=
  rtPair ⟨.or, a⟩ second rfl rfl rfl

theorem pairXor (h : Hdr) (a : HalfArgs) (second : Half) : Statement (.pairXor h a second) :=
  rtPair ⟨.xor, a⟩ second rfl rfl rfl

theorem pairShl (h : Hdr) (a : HalfArgs) (second : Half) : Statement (.pairShl h a second) :=
  rtPair ⟨.shl, a⟩ second rfl rfl rfl

theorem pairShr (h : Hdr) (a : HalfArgs) (second : Half) : Statement (.pairShr h a second) :=
  rtPair ⟨.shr, a⟩ second rfl rfl rfl

theorem pairSra (h : Hdr) (a : HalfArgs) (second : Half) : Statement (.pairSra h a second) :=
  rtPair ⟨.sra, a⟩ second rfl rfl rfl

theorem pairMin (h : Hdr) (a : HalfArgs) (second : Half) : Statement (.pairMin h a second) :=
  rtPair ⟨.min, a⟩ second rfl rfl rfl

theorem pairMax (h : Hdr) (a : HalfArgs) (second : Half) : Statement (.pairMax h a second) :=
  rtPair ⟨.max, a⟩ second rfl rfl rfl

theorem pairAddi (h : Hdr) (a : HalfArgs) (second : Half) : Statement (.pairAddi h a second) :=
  rtPair ⟨.addi, a⟩ second rfl rfl rfl

theorem pairShli (h : Hdr) (a : HalfArgs) (second : Half) : Statement (.pairShli h a second) :=
  rtPair ⟨.shli, a⟩ second rfl rfl rfl

theorem pairShri (h : Hdr) (a : HalfArgs) (second : Half) : Statement (.pairShri h a second) :=
  rtPair ⟨.shri, a⟩ second rfl rfl rfl

theorem pairSrai (h : Hdr) (a : HalfArgs) (second : Half) : Statement (.pairSrai h a second) :=
  rtPair ⟨.srai, a⟩ second rfl rfl rfl

theorem pairAndi (h : Hdr) (a : HalfArgs) (second : Half) : Statement (.pairAndi h a second) :=
  rtPair ⟨.andi, a⟩ second rfl rfl rfl

theorem pairMovi (h : Hdr) (a : HalfArgs) (second : Half) : Statement (.pairMovi h a second) :=
  rtPair ⟨.movi, a⟩ second rfl rfl rfl

theorem pairFadd (h : Hdr) (a : HalfArgs) (second : Half) : Statement (.pairFadd h a second) :=
  rtPair ⟨.fadd, a⟩ second rfl rfl rfl

theorem pairFsub (h : Hdr) (a : HalfArgs) (second : Half) : Statement (.pairFsub h a second) :=
  rtPair ⟨.fsub, a⟩ second rfl rfl rfl

theorem pairFmul (h : Hdr) (a : HalfArgs) (second : Half) : Statement (.pairFmul h a second) :=
  rtPair ⟨.fmul, a⟩ second rfl rfl rfl

theorem pairFmin (h : Hdr) (a : HalfArgs) (second : Half) : Statement (.pairFmin h a second) :=
  rtPair ⟨.fmin, a⟩ second rfl rfl rfl

theorem pairFmax (h : Hdr) (a : HalfArgs) (second : Half) : Statement (.pairFmax h a second) :=
  rtPair ⟨.fmax, a⟩ second rfl rfl rfl

theorem pairFminn (h : Hdr) (a : HalfArgs) (second : Half) : Statement (.pairFminn h a second) :=
  rtPair ⟨.fminn, a⟩ second rfl rfl rfl

theorem pairFmaxn (h : Hdr) (a : HalfArgs) (second : Half) : Statement (.pairFmaxn h a second) :=
  rtPair ⟨.fmaxn, a⟩ second rfl rfl rfl

theorem pairFabs (h : Hdr) (a : HalfArgs) (second : Half) : Statement (.pairFabs h a second) :=
  rtPair ⟨.fabs, a⟩ second rfl rfl rfl

theorem pairFneg (h : Hdr) (a : HalfArgs) (second : Half) : Statement (.pairFneg h a second) :=
  rtPair ⟨.fneg, a⟩ second rfl rfl rfl

theorem pairCvtif (h : Hdr) (a : HalfArgs) (second : Half) : Statement (.pairCvtif h a second) :=
  rtPair ⟨.cvtif, a⟩ second rfl rfl rfl

theorem pairCvtfi (h : Hdr) (a : HalfArgs) (second : Half) : Statement (.pairCvtfi h a second) :=
  rtPair ⟨.cvtfi, a⟩ second rfl rfl rfl

theorem movsm (h : Hdr) (sid : Sid) (vb : Src) : Statement (.movsm h sid vb) := by
  intro w
  obtain ⟨hm, h4, h6, h7⟩ := (show Wf h (.movsm h sid vb) from rfl).parts w
  refine decode_full (w := full h vb.form 0x1C2 false 0 0 vb.field 0 ((0 : BitVec 6) ++ sid.code)) (form := vb.form)
    (op := 0x1C2) (full_form ..) vb.form_cases (full_hdr ..) hm (full_op ..) ?_ (fun _ => rfl) h6 h7
  rw [show srcOf (full h vb.form 0x1C2 false 0 0 vb.field 0 ((0 : BitVec 6) ++ sid.code))
    ((Instr.encode (.movsm h sid vb)).2.getD 0) = some vb from srcOf_full ..]
  show mkOther 0x1C2 _ (some vb) = _
  simp (disch := omega) only [mkOther, zeros, List.all_cons, List.all_nil, num, full_md, full_vb0, full_vc0,
    full_va, full_kvd, full_hdr, BitVec.extractLsb'_append_eq_of_le,
    BitVec.extractLsb'_append_eq_of_add_le, Nat.sub_self, extract_self, Sid.ofCode_code]
  simp

theorem nop (h : Hdr) (lit : Option Dword) : Statement (.nop h lit) := by
  intro w
  have e : decode (full h (if lit.isSome then 2 else 0) 0x1C0 false 0 0 0 0 0) (lit.getD 0) = .ok (.nop h lit) := by
    by_cases hm : h.m = 0
    · have hb : (h.m == 0) = true := by simpa using hm
      cases lit with
      | none => simp only [decode, full_form, full_hdr, hb]; rfl
      | some v => simp only [decode, full_form, full_hdr, hb]; rfl
    · cases lit with
      | none =>
        refine decode_full (form := 0) (op := 0x1C0) (full_form ..) (.inl rfl) (full_hdr ..) hm (full_op ..) ?_
          (fun x => absurd x (by decide)) rfl rfl
        generalize srcOf _ _ = b
        show mkOther 0x1C0 (full h 0 0x1C0 false 0 0 0 0 0) b = _
        simp (disch := omega) only [mkOther, zeros, List.all_cons, List.all_nil, num, full_md, full_vb0, full_vc0,
          full_va, full_kvd, full_hdr, full_low0]
        simp
      | some v =>
        have hb : (h.m == 0) = false := by simpa using hm
        simp [Instr.wf, Instr.litOk, hb] at w
        exact absurd w.1.1 (by simpa using hm)
  exact e

theorem unassignedOpcode (h : Hdr) (illForm : Bool) : Statement (.unassignedOpcode h illForm) :=
  fun w => Bool.noConfusion w

/-! ## Events -/

theorem issueSlotArbitration (core slot : Nat) : Statement (.issueSlotArbitration core slot) := fun w => Bool.noConfusion w

theorem patienceExpiry (gk : Nat) : Statement (.patienceExpiry gk) := fun w => Bool.noConfusion w

theorem loadDataArrival (gk id : Nat) (reply : Reply) : Statement (.loadDataArrival gk id reply) := fun w => Bool.noConfusion w

theorem storePerformed (gk id : Nat) (reply : Reply) : Statement (.storePerformed gk id reply) := fun w => Bool.noConfusion w

theorem feWaitSatisfied (granule : Nat) : Statement (.feWaitSatisfied granule) := fun w => Bool.noConfusion w

theorem atomicPerformed (gk id : Nat) (reply : Reply) : Statement (.atomicPerformed gk id reply) := fun w => Bool.noConfusion w

theorem orderedAddBuffered (gk id : Nat) : Statement (.orderedAddBuffered gk id) := fun w => Bool.noConfusion w

theorem orderedAddApply (launch : Nat) : Statement (.orderedAddApply launch) := fun w => Bool.noConfusion w

theorem barrierArrivalSettle (gk bar : Nat) : Statement (.barrierArrivalSettle gk bar) := fun w => Bool.noConfusion w

theorem groupRetire (gk : Nat) : Statement (.groupRetire gk) := fun w => Bool.noConfusion w

theorem frameRequestServed (team : Nat) : Statement (.frameRequestServed team) := fun w => Bool.noConfusion w

theorem spillEngineStart (core : Nat) : Statement (.spillEngineStart core) := fun w => Bool.noConfusion w

theorem frameMove (core : Nat) : Statement (.frameMove core) := fun w => Bool.noConfusion w

theorem copyChunk (cluster : Nat) : Statement (.copyChunk cluster) := fun w => Bool.noConfusion w

theorem selectionChunk (cluster : Nat) : Statement (.selectionChunk cluster) := fun w => Bool.noConfusion w

theorem weightLoadComplete (gk id : Nat) : Statement (.weightLoadComplete gk id) := fun w => Bool.noConfusion w

theorem rowCapture (core : Nat) : Statement (.rowCapture core) := fun w => Bool.noConfusion w

theorem arrayBoundary (core : Nat) : Statement (.arrayBoundary core) := fun w => Bool.noConfusion w

theorem weightReload (core : Nat) : Statement (.weightReload core) := fun w => Bool.noConfusion w

theorem arrayStartAdmission (core : Nat) : Statement (.arrayStartAdmission core) := fun w => Bool.noConfusion w

theorem entryExecution (core : Nat) : Statement (.entryExecution core) := fun w => Bool.noConfusion w

theorem tileTransferComplete (gk id : Nat) : Statement (.tileTransferComplete gk id) := fun w => Bool.noConfusion w

theorem cachePromotion (gk id : Nat) : Statement (.cachePromotion gk id) := fun w => Bool.noConfusion w

theorem backgroundPull (id : Nat) : Statement (.backgroundPull id) := fun w => Bool.noConfusion w

theorem patrolScrub (stack line : Nat) (found : Scrub) : Statement (.patrolScrub stack line found) := fun w => Bool.noConfusion w

theorem faultRecordPost : Statement .faultRecordPost := fun w => Bool.noConfusion w

theorem launchEntry (q : Nat) : Statement (.launchEntry q) := fun w => Bool.noConfusion w

theorem moduleLoad (q : Nat) : Statement (.moduleLoad q) := fun w => Bool.noConfusion w

theorem moduleUnload (q : Nat) : Statement (.moduleUnload q) := fun w => Bool.noConfusion w

theorem counterStart (q : Nat) : Statement (.counterStart q) := fun w => Bool.noConfusion w

theorem counterStop (q : Nat) : Statement (.counterStop q) := fun w => Bool.noConfusion w

theorem teamAdmission (q : Nat) : Statement (.teamAdmission q) := fun w => Bool.noConfusion w

theorem urgencyDelayExpiry (q : Nat) : Statement (.urgencyDelayExpiry q) := fun w => Bool.noConfusion w

theorem preemptionHalt (team : Nat) : Statement (.preemptionHalt team) := fun w => Bool.noConfusion w

theorem contextSave (team : Nat) : Statement (.contextSave team) := fun w => Bool.noConfusion w

theorem teamRestore (team : Nat) : Statement (.teamRestore team) := fun w => Bool.noConfusion w

theorem launchCompletion (launch : Nat) : Statement (.launchCompletion launch) := fun w => Bool.noConfusion w

theorem launchRecordAppend (gk id : Nat) : Statement (.launchRecordAppend gk id) := fun w => Bool.noConfusion w

theorem eventCounterAdd (gk id : Nat) : Statement (.eventCounterAdd gk id) := fun w => Bool.noConfusion w

theorem createContext : Statement .createContext := fun w => Bool.noConfusion w

theorem destroyContext : Statement .destroyContext := fun w => Bool.noConfusion w

theorem bindHostQueue : Statement .bindHostQueue := fun w => Bool.noConfusion w

theorem translationInvalidate : Statement .translationInvalidate := fun w => Bool.noConfusion w

theorem postMigrationRecord : Statement .postMigrationRecord := fun w => Bool.noConfusion w

theorem releaseMigrationRecord : Statement .releaseMigrationRecord := fun w => Bool.noConfusion w

theorem preEmpt : Statement .preEmpt := fun w => Bool.noConfusion w

theorem endLaunch : Statement .endLaunch := fun w => Bool.noConfusion w

theorem faultResponse : Statement .faultResponse := fun w => Bool.noConfusion w

theorem codeBreakpoint : Statement .codeBreakpoint := fun w => Bool.noConfusion w

theorem regionStop : Statement .regionStop := fun w => Bool.noConfusion w

theorem watchpoint : Statement .watchpoint := fun w => Bool.noConfusion w

theorem timeSeries : Statement .timeSeries := fun w => Bool.noConfusion w

theorem sampling : Statement .sampling := fun w => Bool.noConfusion w

theorem readErrorLog : Statement .readErrorLog := fun w => Bool.noConfusion w

theorem loadAtomicPathTable : Statement .loadAtomicPathTable := fun w => Bool.noConfusion w

theorem assignMsiXVectors : Statement .assignMsiXVectors := fun w => Bool.noConfusion w

theorem attest : Statement .attest := fun w => Bool.noConfusion w

theorem writeFirmwareSlot (newer : Bool) : Statement (.writeFirmwareSlot newer) := fun w => Bool.noConfusion w

theorem ownerClaim (master : BitVec 8) (value : Word) : Statement (.ownerClaim master value) := fun w => Bool.noConfusion w

theorem ownerHandover (master : BitVec 8) (value : Word) : Statement (.ownerHandover master value) := fun w => Bool.noConfusion w

theorem ownerRelease (master : BitVec 8) : Statement (.ownerRelease master) := fun w => Bool.noConfusion w

theorem coldReset (master : BitVec 8) : Statement (.coldReset master) := fun w => Bool.noConfusion w

theorem warmReset (master : BitVec 8) : Statement (.warmReset master) := fun w => Bool.noConfusion w

theorem attestMailboxRequest (master : BitVec 8) : Statement (.attestMailboxRequest master) := fun w => Bool.noConfusion w

theorem attestReportDone (master : BitVec 8) : Statement (.attestReportDone master) := fun w => Bool.noConfusion w

theorem registerWrite (master : BitVec 8) (offset size : Nat) (value : Dword) : Statement (.registerWrite master offset size value) := fun w => Bool.noConfusion w

theorem bar2Write (master : BitVec 8) (offset : Nat) (bytes : List Byte) : Statement (.bar2Write master offset bytes) := fun w => Bool.noConfusion w

theorem bar2Read (master : BitVec 8) (offset count : Nat) : Statement (.bar2Read master offset count) := fun w => Bool.noConfusion w

theorem packageStart (boot : BootRun) : Statement (.packageStart boot) := fun w => Bool.noConfusion w

theorem powerLoss : Statement .powerLoss := fun w => Bool.noConfusion w

theorem watchdogExpiry : Statement .watchdogExpiry := fun w => Bool.noConfusion w

theorem coldPlateOverLimit : Statement .coldPlateOverLimit := fun w => Bool.noConfusion w

theorem seriesSample : Statement .seriesSample := fun w => Bool.noConfusion w

theorem pcSample (core : Nat) : Statement (.pcSample core) := fun w => Bool.noConfusion w

theorem inboundAccess (acc : Inbound) : Statement (.inboundAccess acc) := fun w => Bool.noConfusion w

theorem collectiveFold (index : Nat) (remote : List (Nat × Option (List Byte))) : Statement (.collectiveFold index remote) := fun w => Bool.noConfusion w

theorem messageDelivery (index : Nat) (reply : Reply) : Statement (.messageDelivery index reply) := fun w => Bool.noConfusion w

theorem linkTimeout (gk id : Nat) : Statement (.linkTimeout gk id) := fun w => Bool.noConfusion w

theorem portDown (port : BitVec 4) : Statement (.portDown port) := fun w => Bool.noConfusion w

theorem flitRetry (port : BitVec 4) : Statement (.flitRetry port) := fun w => Bool.noConfusion w

theorem fetchPastStateCode : Statement .fetchPastStateCode := fun w => Bool.noConfusion w

end Sys2Proof.Laws.RoundTrip
end

