-- ==== Sys2Proof/Laws/State.lean ====
section
/-! SUPPORT. What each update of the state leaves as it was: one lemma per field. -/

namespace Sys2Proof.Machine

/-! ### `setGroup` writes `groups` only -/

@[simp] theorem State.setGroup_time (s : State) (k : Nat) (g : Group) : (s.setGroup k g).time = s.time := rfl
@[simp] theorem State.setGroup_clockMHz (s : State) (k : Nat) (g : Group) : (s.setGroup k g).clockMHz = s.clockMHz := rfl
@[simp] theorem State.setGroup_boot (s : State) (k : Nat) (g : Group) : (s.setGroup k g).boot = s.boot := rfl
@[simp] theorem State.setGroup_flash (s : State) (k : Nat) (g : Group) : (s.setGroup k g).flash = s.flash := rfl
@[simp] theorem State.setGroup_image (s : State) (k : Nat) (g : Group) : (s.setGroup k g).image = s.image := rfl
@[simp] theorem State.setGroup_owner (s : State) (k : Nat) (g : Group) : (s.setGroup k g).owner = s.owner := rfl
@[simp] theorem State.setGroup_claimed (s : State) (k : Nat) (g : Group) : (s.setGroup k g).claimed = s.claimed := rfl
@[simp] theorem State.setGroup_faultQ (s : State) (k : Nat) (g : Group) : (s.setGroup k g).faultQ = s.faultQ := rfl
@[simp] theorem State.setGroup_cmdRing (s : State) (k : Nat) (g : Group) : (s.setGroup k g).cmdRing = s.cmdRing := rfl
@[simp] theorem State.setGroup_mailboxes (s : State) (k : Nat) (g : Group) : (s.setGroup k g).mailboxes = s.mailboxes := rfl
@[simp] theorem State.setGroup_vectors (s : State) (k : Nat) (g : Group) : (s.setGroup k g).vectors = s.vectors := rfl
@[simp] theorem State.setGroup_msix (s : State) (k : Nat) (g : Group) : (s.setGroup k g).msix = s.msix := rfl
@[simp] theorem State.setGroup_hostRead (s : State) (k : Nat) (g : Group) : (s.setGroup k g).hostRead = s.hostRead := rfl
@[simp] theorem State.setGroup_hostQ (s : State) (k : Nat) (g : Group) : (s.setGroup k g).hostQ = s.hostQ := rfl
@[simp] theorem State.setGroup_devQ (s : State) (k : Nat) (g : Group) : (s.setGroup k g).devQ = s.devQ := rfl
@[simp] theorem State.setGroup_lastQueue (s : State) (k : Nat) (g : Group) : (s.setGroup k g).lastQueue = s.lastQueue := rfl
@[simp] theorem State.setGroup_events (s : State) (k : Nat) (g : Group) : (s.setGroup k g).events = s.events := rfl
@[simp] theorem State.setGroup_nextLaunch (s : State) (k : Nat) (g : Group) : (s.setGroup k g).nextLaunch = s.nextLaunch := rfl
@[simp] theorem State.setGroup_pathTable (s : State) (k : Nat) (g : Group) : (s.setGroup k g).pathTable = s.pathTable := rfl
@[simp] theorem State.setGroup_portsDown (s : State) (k : Nat) (g : Group) : (s.setGroup k g).portsDown = s.portsDown := rfl
@[simp] theorem State.setGroup_tlb (s : State) (k : Nat) (g : Group) : (s.setGroup k g).tlb = s.tlb := rfl
@[simp] theorem State.setGroup_migs (s : State) (k : Nat) (g : Group) : (s.setGroup k g).migs = s.migs := rfl
@[simp] theorem State.setGroup_poison (s : State) (k : Nat) (g : Group) : (s.setGroup k g).poison = s.poison := rfl
@[simp] theorem State.setGroup_errStack (s : State) (k : Nat) (g : Group) : (s.setGroup k g).errStack = s.errStack := rfl
@[simp] theorem State.setGroup_errCluster (s : State) (k : Nat) (g : Group) : (s.setGroup k g).errCluster = s.errCluster := rfl
@[simp] theorem State.setGroup_errCore (s : State) (k : Nat) (g : Group) : (s.setGroup k g).errCore = s.errCore := rfl
@[simp] theorem State.setGroup_errLog (s : State) (k : Nat) (g : Group) : (s.setGroup k g).errLog = s.errLog := rfl
@[simp] theorem State.setGroup_watch (s : State) (k : Nat) (g : Group) : (s.setGroup k g).watch = s.watch := rfl
@[simp] theorem State.setGroup_regionStops (s : State) (k : Nat) (g : Group) : (s.setGroup k g).regionStops = s.regionStops := rfl
@[simp] theorem State.setGroup_series (s : State) (k : Nat) (g : Group) : (s.setGroup k g).series = s.series := rfl
@[simp] theorem State.setGroup_busy (s : State) (k : Nat) (g : Group) : (s.setGroup k g).busy = s.busy := rfl
@[simp] theorem State.setGroup_sampled (s : State) (k : Nat) (g : Group) : (s.setGroup k g).sampled = s.sampled := rfl
@[simp] theorem State.setGroup_sampleAge (s : State) (k : Nat) (g : Group) : (s.setGroup k g).sampleAge = s.sampleAge := rfl
@[simp] theorem State.setGroup_records (s : State) (k : Nat) (g : Group) : (s.setGroup k g).records = s.records := rfl
@[simp] theorem State.setGroup_posted (s : State) (k : Nat) (g : Group) : (s.setGroup k g).posted = s.posted := rfl
@[simp] theorem State.setGroup_ctxs (s : State) (k : Nat) (g : Group) : (s.setGroup k g).ctxs = s.ctxs := rfl
@[simp] theorem State.setGroup_modules (s : State) (k : Nat) (g : Group) : (s.setGroup k g).modules = s.modules := rfl
@[simp] theorem State.setGroup_launches (s : State) (k : Nat) (g : Group) : (s.setGroup k g).launches = s.launches := rfl
@[simp] theorem State.setGroup_teams (s : State) (k : Nat) (g : Group) : (s.setGroup k g).teams = s.teams := rfl
@[simp] theorem State.setGroup_runs (s : State) (k : Nat) (g : Group) : (s.setGroup k g).runs = s.runs := rfl
@[simp] theorem State.setGroup_loopBuf (s : State) (k : Nat) (g : Group) : (s.setGroup k g).loopBuf = s.loopBuf := rfl
@[simp] theorem State.setGroup_spill (s : State) (k : Nat) (g : Group) : (s.setGroup k g).spill = s.spill := rfl
@[simp] theorem State.setGroup_banks (s : State) (k : Nat) (g : Group) : (s.setGroup k g).banks = s.banks := rfl
@[simp] theorem State.setGroup_entries (s : State) (k : Nat) (g : Group) : (s.setGroup k g).entries = s.entries := rfl
@[simp] theorem State.setGroup_arrays (s : State) (k : Nat) (g : Group) : (s.setGroup k g).arrays = s.arrays := rfl
@[simp] theorem State.setGroup_copyQ (s : State) (k : Nat) (g : Group) : (s.setGroup k g).copyQ = s.copyQ := rfl
@[simp] theorem State.setGroup_selQ (s : State) (k : Nat) (g : Group) : (s.setGroup k g).selQ = s.selQ := rfl
@[simp] theorem State.setGroup_collQ (s : State) (k : Nat) (g : Group) : (s.setGroup k g).collQ = s.collQ := rfl
@[simp] theorem State.setGroup_colls (s : State) (k : Nat) (g : Group) : (s.setGroup k g).colls = s.colls := rfl
@[simp] theorem State.setGroup_collSeq (s : State) (k : Nat) (g : Group) : (s.setGroup k g).collSeq = s.collSeq := rfl
@[simp] theorem State.setGroup_msgs (s : State) (k : Nat) (g : Group) : (s.setGroup k g).msgs = s.msgs := rfl
@[simp] theorem State.setGroup_mem (s : State) (k : Nat) (g : Group) : (s.setGroup k g).mem = s.mem := rfl
@[simp] theorem State.setGroup_gran (s : State) (k : Nat) (g : Group) : (s.setGroup k g).gran = s.gran := rfl
@[simp] theorem State.setGroup_caches (s : State) (k : Nat) (g : Group) : (s.setGroup k g).caches = s.caches := rfl
@[simp] theorem State.setGroup_feQ (s : State) (k : Nat) (g : Group) : (s.setGroup k g).feQ = s.feQ := rfl
@[simp] theorem State.setGroup_agenda (s : State) (k : Nat) (g : Group) : (s.setGroup k g).agenda = s.agenda := rfl
@[simp] theorem State.setGroup_cur (s : State) (k : Nat) (g : Group) : (s.setGroup k g).cur = s.cur := rfl
@[simp] theorem State.setGroup_seq (s : State) (k : Nat) (g : Group) : (s.setGroup k g).seq = s.seq := rfl
@[simp] theorem State.setGroup_free (s : State) (k : Nat) (g : Group) : (s.setGroup k g).free = s.free := rfl
@[simp] theorem State.setGroup_latent (s : State) (k : Nat) (g : Group) : (s.setGroup k g).latent = s.latent := rfl

/-! ### `onGroup` writes `groups` only -/

@[simp] theorem State.onGroup_time (s : State) (k : Nat) (f : Group → Group) : (s.onGroup k f).time = s.time := rfl
@[simp] theorem State.onGroup_clockMHz (s : State) (k : Nat) (f : Group → Group) : (s.onGroup k f).clockMHz = s.clockMHz := rfl
@[simp] theorem State.onGroup_boot (s : State) (k : Nat) (f : Group → Group) : (s.onGroup k f).boot = s.boot := rfl
@[simp] theorem State.onGroup_flash (s : State) (k : Nat) (f : Group → Group) : (s.onGroup k f).flash = s.flash := rfl
@[simp] theorem State.onGroup_image (s : State) (k : Nat) (f : Group → Group) : (s.onGroup k f).image = s.image := rfl
@[simp] theorem State.onGroup_owner (s : State) (k : Nat) (f : Group → Group) : (s.onGroup k f).owner = s.owner := rfl
@[simp] theorem State.onGroup_claimed (s : State) (k : Nat) (f : Group → Group) : (s.onGroup k f).claimed = s.claimed := rfl
@[simp] theorem State.onGroup_faultQ (s : State) (k : Nat) (f : Group → Group) : (s.onGroup k f).faultQ = s.faultQ := rfl
@[simp] theorem State.onGroup_cmdRing (s : State) (k : Nat) (f : Group → Group) : (s.onGroup k f).cmdRing = s.cmdRing := rfl
@[simp] theorem State.onGroup_mailboxes (s : State) (k : Nat) (f : Group → Group) : (s.onGroup k f).mailboxes = s.mailboxes := rfl
@[simp] theorem State.onGroup_vectors (s : State) (k : Nat) (f : Group → Group) : (s.onGroup k f).vectors = s.vectors := rfl
@[simp] theorem State.onGroup_msix (s : State) (k : Nat) (f : Group → Group) : (s.onGroup k f).msix = s.msix := rfl
@[simp] theorem State.onGroup_hostRead (s : State) (k : Nat) (f : Group → Group) : (s.onGroup k f).hostRead = s.hostRead := rfl
@[simp] theorem State.onGroup_hostQ (s : State) (k : Nat) (f : Group → Group) : (s.onGroup k f).hostQ = s.hostQ := rfl
@[simp] theorem State.onGroup_devQ (s : State) (k : Nat) (f : Group → Group) : (s.onGroup k f).devQ = s.devQ := rfl
@[simp] theorem State.onGroup_lastQueue (s : State) (k : Nat) (f : Group → Group) : (s.onGroup k f).lastQueue = s.lastQueue := rfl
@[simp] theorem State.onGroup_events (s : State) (k : Nat) (f : Group → Group) : (s.onGroup k f).events = s.events := rfl
@[simp] theorem State.onGroup_nextLaunch (s : State) (k : Nat) (f : Group → Group) : (s.onGroup k f).nextLaunch = s.nextLaunch := rfl
@[simp] theorem State.onGroup_pathTable (s : State) (k : Nat) (f : Group → Group) : (s.onGroup k f).pathTable = s.pathTable := rfl
@[simp] theorem State.onGroup_portsDown (s : State) (k : Nat) (f : Group → Group) : (s.onGroup k f).portsDown = s.portsDown := rfl
@[simp] theorem State.onGroup_tlb (s : State) (k : Nat) (f : Group → Group) : (s.onGroup k f).tlb = s.tlb := rfl
@[simp] theorem State.onGroup_migs (s : State) (k : Nat) (f : Group → Group) : (s.onGroup k f).migs = s.migs := rfl
@[simp] theorem State.onGroup_poison (s : State) (k : Nat) (f : Group → Group) : (s.onGroup k f).poison = s.poison := rfl
@[simp] theorem State.onGroup_errStack (s : State) (k : Nat) (f : Group → Group) : (s.onGroup k f).errStack = s.errStack := rfl
@[simp] theorem State.onGroup_errCluster (s : State) (k : Nat) (f : Group → Group) : (s.onGroup k f).errCluster = s.errCluster := rfl
@[simp] theorem State.onGroup_errCore (s : State) (k : Nat) (f : Group → Group) : (s.onGroup k f).errCore = s.errCore := rfl
@[simp] theorem State.onGroup_errLog (s : State) (k : Nat) (f : Group → Group) : (s.onGroup k f).errLog = s.errLog := rfl
@[simp] theorem State.onGroup_watch (s : State) (k : Nat) (f : Group → Group) : (s.onGroup k f).watch = s.watch := rfl
@[simp] theorem State.onGroup_regionStops (s : State) (k : Nat) (f : Group → Group) : (s.onGroup k f).regionStops = s.regionStops := rfl
@[simp] theorem State.onGroup_series (s : State) (k : Nat) (f : Group → Group) : (s.onGroup k f).series = s.series := rfl
@[simp] theorem State.onGroup_busy (s : State) (k : Nat) (f : Group → Group) : (s.onGroup k f).busy = s.busy := rfl
@[simp] theorem State.onGroup_sampled (s : State) (k : Nat) (f : Group → Group) : (s.onGroup k f).sampled = s.sampled := rfl
@[simp] theorem State.onGroup_sampleAge (s : State) (k : Nat) (f : Group → Group) : (s.onGroup k f).sampleAge = s.sampleAge := rfl
@[simp] theorem State.onGroup_records (s : State) (k : Nat) (f : Group → Group) : (s.onGroup k f).records = s.records := rfl
@[simp] theorem State.onGroup_posted (s : State) (k : Nat) (f : Group → Group) : (s.onGroup k f).posted = s.posted := rfl
@[simp] theorem State.onGroup_ctxs (s : State) (k : Nat) (f : Group → Group) : (s.onGroup k f).ctxs = s.ctxs := rfl
@[simp] theorem State.onGroup_modules (s : State) (k : Nat) (f : Group → Group) : (s.onGroup k f).modules = s.modules := rfl
@[simp] theorem State.onGroup_launches (s : State) (k : Nat) (f : Group → Group) : (s.onGroup k f).launches = s.launches := rfl
@[simp] theorem State.onGroup_teams (s : State) (k : Nat) (f : Group → Group) : (s.onGroup k f).teams = s.teams := rfl
@[simp] theorem State.onGroup_runs (s : State) (k : Nat) (f : Group → Group) : (s.onGroup k f).runs = s.runs := rfl
@[simp] theorem State.onGroup_loopBuf (s : State) (k : Nat) (f : Group → Group) : (s.onGroup k f).loopBuf = s.loopBuf := rfl
@[simp] theorem State.onGroup_spill (s : State) (k : Nat) (f : Group → Group) : (s.onGroup k f).spill = s.spill := rfl
@[simp] theorem State.onGroup_banks (s : State) (k : Nat) (f : Group → Group) : (s.onGroup k f).banks = s.banks := rfl
@[simp] theorem State.onGroup_entries (s : State) (k : Nat) (f : Group → Group) : (s.onGroup k f).entries = s.entries := rfl
@[simp] theorem State.onGroup_arrays (s : State) (k : Nat) (f : Group → Group) : (s.onGroup k f).arrays = s.arrays := rfl
@[simp] theorem State.onGroup_copyQ (s : State) (k : Nat) (f : Group → Group) : (s.onGroup k f).copyQ = s.copyQ := rfl
@[simp] theorem State.onGroup_selQ (s : State) (k : Nat) (f : Group → Group) : (s.onGroup k f).selQ = s.selQ := rfl
@[simp] theorem State.onGroup_collQ (s : State) (k : Nat) (f : Group → Group) : (s.onGroup k f).collQ = s.collQ := rfl
@[simp] theorem State.onGroup_colls (s : State) (k : Nat) (f : Group → Group) : (s.onGroup k f).colls = s.colls := rfl
@[simp] theorem State.onGroup_collSeq (s : State) (k : Nat) (f : Group → Group) : (s.onGroup k f).collSeq = s.collSeq := rfl
@[simp] theorem State.onGroup_msgs (s : State) (k : Nat) (f : Group → Group) : (s.onGroup k f).msgs = s.msgs := rfl
@[simp] theorem State.onGroup_mem (s : State) (k : Nat) (f : Group → Group) : (s.onGroup k f).mem = s.mem := rfl
@[simp] theorem State.onGroup_gran (s : State) (k : Nat) (f : Group → Group) : (s.onGroup k f).gran = s.gran := rfl
@[simp] theorem State.onGroup_caches (s : State) (k : Nat) (f : Group → Group) : (s.onGroup k f).caches = s.caches := rfl
@[simp] theorem State.onGroup_feQ (s : State) (k : Nat) (f : Group → Group) : (s.onGroup k f).feQ = s.feQ := rfl
@[simp] theorem State.onGroup_agenda (s : State) (k : Nat) (f : Group → Group) : (s.onGroup k f).agenda = s.agenda := rfl
@[simp] theorem State.onGroup_cur (s : State) (k : Nat) (f : Group → Group) : (s.onGroup k f).cur = s.cur := rfl
@[simp] theorem State.onGroup_seq (s : State) (k : Nat) (f : Group → Group) : (s.onGroup k f).seq = s.seq := rfl
@[simp] theorem State.onGroup_free (s : State) (k : Nat) (f : Group → Group) : (s.onGroup k f).free = s.free := rfl
@[simp] theorem State.onGroup_latent (s : State) (k : Nat) (f : Group → Group) : (s.onGroup k f).latent = s.latent := rfl

/-! ### `onTeam` writes `teams` only -/

@[simp] theorem State.onTeam_time (s : State) (k : Nat) (f : Team → Team) : (s.onTeam k f).time = s.time := rfl
@[simp] theorem State.onTeam_clockMHz (s : State) (k : Nat) (f : Team → Team) : (s.onTeam k f).clockMHz = s.clockMHz := rfl
@[simp] theorem State.onTeam_boot (s : State) (k : Nat) (f : Team → Team) : (s.onTeam k f).boot = s.boot := rfl
@[simp] theorem State.onTeam_flash (s : State) (k : Nat) (f : Team → Team) : (s.onTeam k f).flash = s.flash := rfl
@[simp] theorem State.onTeam_image (s : State) (k : Nat) (f : Team → Team) : (s.onTeam k f).image = s.image := rfl
@[simp] theorem State.onTeam_owner (s : State) (k : Nat) (f : Team → Team) : (s.onTeam k f).owner = s.owner := rfl
@[simp] theorem State.onTeam_claimed (s : State) (k : Nat) (f : Team → Team) : (s.onTeam k f).claimed = s.claimed := rfl
@[simp] theorem State.onTeam_faultQ (s : State) (k : Nat) (f : Team → Team) : (s.onTeam k f).faultQ = s.faultQ := rfl
@[simp] theorem State.onTeam_cmdRing (s : State) (k : Nat) (f : Team → Team) : (s.onTeam k f).cmdRing = s.cmdRing := rfl
@[simp] theorem State.onTeam_mailboxes (s : State) (k : Nat) (f : Team → Team) : (s.onTeam k f).mailboxes = s.mailboxes := rfl
@[simp] theorem State.onTeam_vectors (s : State) (k : Nat) (f : Team → Team) : (s.onTeam k f).vectors = s.vectors := rfl
@[simp] theorem State.onTeam_msix (s : State) (k : Nat) (f : Team → Team) : (s.onTeam k f).msix = s.msix := rfl
@[simp] theorem State.onTeam_hostRead (s : State) (k : Nat) (f : Team → Team) : (s.onTeam k f).hostRead = s.hostRead := rfl
@[simp] theorem State.onTeam_hostQ (s : State) (k : Nat) (f : Team → Team) : (s.onTeam k f).hostQ = s.hostQ := rfl
@[simp] theorem State.onTeam_devQ (s : State) (k : Nat) (f : Team → Team) : (s.onTeam k f).devQ = s.devQ := rfl
@[simp] theorem State.onTeam_lastQueue (s : State) (k : Nat) (f : Team → Team) : (s.onTeam k f).lastQueue = s.lastQueue := rfl
@[simp] theorem State.onTeam_events (s : State) (k : Nat) (f : Team → Team) : (s.onTeam k f).events = s.events := rfl
@[simp] theorem State.onTeam_nextLaunch (s : State) (k : Nat) (f : Team → Team) : (s.onTeam k f).nextLaunch = s.nextLaunch := rfl
@[simp] theorem State.onTeam_pathTable (s : State) (k : Nat) (f : Team → Team) : (s.onTeam k f).pathTable = s.pathTable := rfl
@[simp] theorem State.onTeam_portsDown (s : State) (k : Nat) (f : Team → Team) : (s.onTeam k f).portsDown = s.portsDown := rfl
@[simp] theorem State.onTeam_tlb (s : State) (k : Nat) (f : Team → Team) : (s.onTeam k f).tlb = s.tlb := rfl
@[simp] theorem State.onTeam_migs (s : State) (k : Nat) (f : Team → Team) : (s.onTeam k f).migs = s.migs := rfl
@[simp] theorem State.onTeam_poison (s : State) (k : Nat) (f : Team → Team) : (s.onTeam k f).poison = s.poison := rfl
@[simp] theorem State.onTeam_errStack (s : State) (k : Nat) (f : Team → Team) : (s.onTeam k f).errStack = s.errStack := rfl
@[simp] theorem State.onTeam_errCluster (s : State) (k : Nat) (f : Team → Team) : (s.onTeam k f).errCluster = s.errCluster := rfl
@[simp] theorem State.onTeam_errCore (s : State) (k : Nat) (f : Team → Team) : (s.onTeam k f).errCore = s.errCore := rfl
@[simp] theorem State.onTeam_errLog (s : State) (k : Nat) (f : Team → Team) : (s.onTeam k f).errLog = s.errLog := rfl
@[simp] theorem State.onTeam_watch (s : State) (k : Nat) (f : Team → Team) : (s.onTeam k f).watch = s.watch := rfl
@[simp] theorem State.onTeam_regionStops (s : State) (k : Nat) (f : Team → Team) : (s.onTeam k f).regionStops = s.regionStops := rfl
@[simp] theorem State.onTeam_series (s : State) (k : Nat) (f : Team → Team) : (s.onTeam k f).series = s.series := rfl
@[simp] theorem State.onTeam_busy (s : State) (k : Nat) (f : Team → Team) : (s.onTeam k f).busy = s.busy := rfl
@[simp] theorem State.onTeam_sampled (s : State) (k : Nat) (f : Team → Team) : (s.onTeam k f).sampled = s.sampled := rfl
@[simp] theorem State.onTeam_sampleAge (s : State) (k : Nat) (f : Team → Team) : (s.onTeam k f).sampleAge = s.sampleAge := rfl
@[simp] theorem State.onTeam_records (s : State) (k : Nat) (f : Team → Team) : (s.onTeam k f).records = s.records := rfl
@[simp] theorem State.onTeam_posted (s : State) (k : Nat) (f : Team → Team) : (s.onTeam k f).posted = s.posted := rfl
@[simp] theorem State.onTeam_ctxs (s : State) (k : Nat) (f : Team → Team) : (s.onTeam k f).ctxs = s.ctxs := rfl
@[simp] theorem State.onTeam_modules (s : State) (k : Nat) (f : Team → Team) : (s.onTeam k f).modules = s.modules := rfl
@[simp] theorem State.onTeam_launches (s : State) (k : Nat) (f : Team → Team) : (s.onTeam k f).launches = s.launches := rfl
@[simp] theorem State.onTeam_groups (s : State) (k : Nat) (f : Team → Team) : (s.onTeam k f).groups = s.groups := rfl
@[simp] theorem State.onTeam_runs (s : State) (k : Nat) (f : Team → Team) : (s.onTeam k f).runs = s.runs := rfl
@[simp] theorem State.onTeam_loopBuf (s : State) (k : Nat) (f : Team → Team) : (s.onTeam k f).loopBuf = s.loopBuf := rfl
@[simp] theorem State.onTeam_spill (s : State) (k : Nat) (f : Team → Team) : (s.onTeam k f).spill = s.spill := rfl
@[simp] theorem State.onTeam_banks (s : State) (k : Nat) (f : Team → Team) : (s.onTeam k f).banks = s.banks := rfl
@[simp] theorem State.onTeam_entries (s : State) (k : Nat) (f : Team → Team) : (s.onTeam k f).entries = s.entries := rfl
@[simp] theorem State.onTeam_arrays (s : State) (k : Nat) (f : Team → Team) : (s.onTeam k f).arrays = s.arrays := rfl
@[simp] theorem State.onTeam_copyQ (s : State) (k : Nat) (f : Team → Team) : (s.onTeam k f).copyQ = s.copyQ := rfl
@[simp] theorem State.onTeam_selQ (s : State) (k : Nat) (f : Team → Team) : (s.onTeam k f).selQ = s.selQ := rfl
@[simp] theorem State.onTeam_collQ (s : State) (k : Nat) (f : Team → Team) : (s.onTeam k f).collQ = s.collQ := rfl
@[simp] theorem State.onTeam_colls (s : State) (k : Nat) (f : Team → Team) : (s.onTeam k f).colls = s.colls := rfl
@[simp] theorem State.onTeam_collSeq (s : State) (k : Nat) (f : Team → Team) : (s.onTeam k f).collSeq = s.collSeq := rfl
@[simp] theorem State.onTeam_msgs (s : State) (k : Nat) (f : Team → Team) : (s.onTeam k f).msgs = s.msgs := rfl
@[simp] theorem State.onTeam_mem (s : State) (k : Nat) (f : Team → Team) : (s.onTeam k f).mem = s.mem := rfl
@[simp] theorem State.onTeam_gran (s : State) (k : Nat) (f : Team → Team) : (s.onTeam k f).gran = s.gran := rfl
@[simp] theorem State.onTeam_caches (s : State) (k : Nat) (f : Team → Team) : (s.onTeam k f).caches = s.caches := rfl
@[simp] theorem State.onTeam_feQ (s : State) (k : Nat) (f : Team → Team) : (s.onTeam k f).feQ = s.feQ := rfl
@[simp] theorem State.onTeam_agenda (s : State) (k : Nat) (f : Team → Team) : (s.onTeam k f).agenda = s.agenda := rfl
@[simp] theorem State.onTeam_cur (s : State) (k : Nat) (f : Team → Team) : (s.onTeam k f).cur = s.cur := rfl
@[simp] theorem State.onTeam_seq (s : State) (k : Nat) (f : Team → Team) : (s.onTeam k f).seq = s.seq := rfl
@[simp] theorem State.onTeam_free (s : State) (k : Nat) (f : Team → Team) : (s.onTeam k f).free = s.free := rfl
@[simp] theorem State.onTeam_latent (s : State) (k : Nat) (f : Team → Team) : (s.onTeam k f).latent = s.latent := rfl

/-! ### `onLaunch` writes `launches` only -/

@[simp] theorem State.onLaunch_time (s : State) (k : Nat) (f : Launch → Launch) : (s.onLaunch k f).time = s.time := rfl
@[simp] theorem State.onLaunch_clockMHz (s : State) (k : Nat) (f : Launch → Launch) : (s.onLaunch k f).clockMHz = s.clockMHz := rfl
@[simp] theorem State.onLaunch_boot (s : State) (k : Nat) (f : Launch → Launch) : (s.onLaunch k f).boot = s.boot := rfl
@[simp] theorem State.onLaunch_flash (s : State) (k : Nat) (f : Launch → Launch) : (s.onLaunch k f).flash = s.flash := rfl
@[simp] theorem State.onLaunch_image (s : State) (k : Nat) (f : Launch → Launch) : (s.onLaunch k f).image = s.image := rfl
@[simp] theorem State.onLaunch_owner (s : State) (k : Nat) (f : Launch → Launch) : (s.onLaunch k f).owner = s.owner := rfl
@[simp] theorem State.onLaunch_claimed (s : State) (k : Nat) (f : Launch → Launch) : (s.onLaunch k f).claimed = s.claimed := rfl
@[simp] theorem State.onLaunch_faultQ (s : State) (k : Nat) (f : Launch → Launch) : (s.onLaunch k f).faultQ = s.faultQ := rfl
@[simp] theorem State.onLaunch_cmdRing (s : State) (k : Nat) (f : Launch → Launch) : (s.onLaunch k f).cmdRing = s.cmdRing := rfl
@[simp] theorem State.onLaunch_mailboxes (s : State) (k : Nat) (f : Launch → Launch) : (s.onLaunch k f).mailboxes = s.mailboxes := rfl
@[simp] theorem State.onLaunch_vectors (s : State) (k : Nat) (f : Launch → Launch) : (s.onLaunch k f).vectors = s.vectors := rfl
@[simp] theorem State.onLaunch_msix (s : State) (k : Nat) (f : Launch → Launch) : (s.onLaunch k f).msix = s.msix := rfl
@[simp] theorem State.onLaunch_hostRead (s : State) (k : Nat) (f : Launch → Launch) : (s.onLaunch k f).hostRead = s.hostRead := rfl
@[simp] theorem State.onLaunch_hostQ (s : State) (k : Nat) (f : Launch → Launch) : (s.onLaunch k f).hostQ = s.hostQ := rfl
@[simp] theorem State.onLaunch_devQ (s : State) (k : Nat) (f : Launch → Launch) : (s.onLaunch k f).devQ = s.devQ := rfl
@[simp] theorem State.onLaunch_lastQueue (s : State) (k : Nat) (f : Launch → Launch) : (s.onLaunch k f).lastQueue = s.lastQueue := rfl
@[simp] theorem State.onLaunch_events (s : State) (k : Nat) (f : Launch → Launch) : (s.onLaunch k f).events = s.events := rfl
@[simp] theorem State.onLaunch_nextLaunch (s : State) (k : Nat) (f : Launch → Launch) : (s.onLaunch k f).nextLaunch = s.nextLaunch := rfl
@[simp] theorem State.onLaunch_pathTable (s : State) (k : Nat) (f : Launch → Launch) : (s.onLaunch k f).pathTable = s.pathTable := rfl
@[simp] theorem State.onLaunch_portsDown (s : State) (k : Nat) (f : Launch → Launch) : (s.onLaunch k f).portsDown = s.portsDown := rfl
@[simp] theorem State.onLaunch_tlb (s : State) (k : Nat) (f : Launch → Launch) : (s.onLaunch k f).tlb = s.tlb := rfl
@[simp] theorem State.onLaunch_migs (s : State) (k : Nat) (f : Launch → Launch) : (s.onLaunch k f).migs = s.migs := rfl
@[simp] theorem State.onLaunch_poison (s : State) (k : Nat) (f : Launch → Launch) : (s.onLaunch k f).poison = s.poison := rfl
@[simp] theorem State.onLaunch_errStack (s : State) (k : Nat) (f : Launch → Launch) : (s.onLaunch k f).errStack = s.errStack := rfl
@[simp] theorem State.onLaunch_errCluster (s : State) (k : Nat) (f : Launch → Launch) : (s.onLaunch k f).errCluster = s.errCluster := rfl
@[simp] theorem State.onLaunch_errCore (s : State) (k : Nat) (f : Launch → Launch) : (s.onLaunch k f).errCore = s.errCore := rfl
@[simp] theorem State.onLaunch_errLog (s : State) (k : Nat) (f : Launch → Launch) : (s.onLaunch k f).errLog = s.errLog := rfl
@[simp] theorem State.onLaunch_watch (s : State) (k : Nat) (f : Launch → Launch) : (s.onLaunch k f).watch = s.watch := rfl
@[simp] theorem State.onLaunch_regionStops (s : State) (k : Nat) (f : Launch → Launch) : (s.onLaunch k f).regionStops = s.regionStops := rfl
@[simp] theorem State.onLaunch_series (s : State) (k : Nat) (f : Launch → Launch) : (s.onLaunch k f).series = s.series := rfl
@[simp] theorem State.onLaunch_busy (s : State) (k : Nat) (f : Launch → Launch) : (s.onLaunch k f).busy = s.busy := rfl
@[simp] theorem State.onLaunch_sampled (s : State) (k : Nat) (f : Launch → Launch) : (s.onLaunch k f).sampled = s.sampled := rfl
@[simp] theorem State.onLaunch_sampleAge (s : State) (k : Nat) (f : Launch → Launch) : (s.onLaunch k f).sampleAge = s.sampleAge := rfl
@[simp] theorem State.onLaunch_records (s : State) (k : Nat) (f : Launch → Launch) : (s.onLaunch k f).records = s.records := rfl
@[simp] theorem State.onLaunch_posted (s : State) (k : Nat) (f : Launch → Launch) : (s.onLaunch k f).posted = s.posted := rfl
@[simp] theorem State.onLaunch_ctxs (s : State) (k : Nat) (f : Launch → Launch) : (s.onLaunch k f).ctxs = s.ctxs := rfl
@[simp] theorem State.onLaunch_modules (s : State) (k : Nat) (f : Launch → Launch) : (s.onLaunch k f).modules = s.modules := rfl
@[simp] theorem State.onLaunch_teams (s : State) (k : Nat) (f : Launch → Launch) : (s.onLaunch k f).teams = s.teams := rfl
@[simp] theorem State.onLaunch_groups (s : State) (k : Nat) (f : Launch → Launch) : (s.onLaunch k f).groups = s.groups := rfl
@[simp] theorem State.onLaunch_runs (s : State) (k : Nat) (f : Launch → Launch) : (s.onLaunch k f).runs = s.runs := rfl
@[simp] theorem State.onLaunch_loopBuf (s : State) (k : Nat) (f : Launch → Launch) : (s.onLaunch k f).loopBuf = s.loopBuf := rfl
@[simp] theorem State.onLaunch_spill (s : State) (k : Nat) (f : Launch → Launch) : (s.onLaunch k f).spill = s.spill := rfl
@[simp] theorem State.onLaunch_banks (s : State) (k : Nat) (f : Launch → Launch) : (s.onLaunch k f).banks = s.banks := rfl
@[simp] theorem State.onLaunch_entries (s : State) (k : Nat) (f : Launch → Launch) : (s.onLaunch k f).entries = s.entries := rfl
@[simp] theorem State.onLaunch_arrays (s : State) (k : Nat) (f : Launch → Launch) : (s.onLaunch k f).arrays = s.arrays := rfl
@[simp] theorem State.onLaunch_copyQ (s : State) (k : Nat) (f : Launch → Launch) : (s.onLaunch k f).copyQ = s.copyQ := rfl
@[simp] theorem State.onLaunch_selQ (s : State) (k : Nat) (f : Launch → Launch) : (s.onLaunch k f).selQ = s.selQ := rfl
@[simp] theorem State.onLaunch_collQ (s : State) (k : Nat) (f : Launch → Launch) : (s.onLaunch k f).collQ = s.collQ := rfl
@[simp] theorem State.onLaunch_colls (s : State) (k : Nat) (f : Launch → Launch) : (s.onLaunch k f).colls = s.colls := rfl
@[simp] theorem State.onLaunch_collSeq (s : State) (k : Nat) (f : Launch → Launch) : (s.onLaunch k f).collSeq = s.collSeq := rfl
@[simp] theorem State.onLaunch_msgs (s : State) (k : Nat) (f : Launch → Launch) : (s.onLaunch k f).msgs = s.msgs := rfl
@[simp] theorem State.onLaunch_mem (s : State) (k : Nat) (f : Launch → Launch) : (s.onLaunch k f).mem = s.mem := rfl
@[simp] theorem State.onLaunch_gran (s : State) (k : Nat) (f : Launch → Launch) : (s.onLaunch k f).gran = s.gran := rfl
@[simp] theorem State.onLaunch_caches (s : State) (k : Nat) (f : Launch → Launch) : (s.onLaunch k f).caches = s.caches := rfl
@[simp] theorem State.onLaunch_feQ (s : State) (k : Nat) (f : Launch → Launch) : (s.onLaunch k f).feQ = s.feQ := rfl
@[simp] theorem State.onLaunch_agenda (s : State) (k : Nat) (f : Launch → Launch) : (s.onLaunch k f).agenda = s.agenda := rfl
@[simp] theorem State.onLaunch_cur (s : State) (k : Nat) (f : Launch → Launch) : (s.onLaunch k f).cur = s.cur := rfl
@[simp] theorem State.onLaunch_seq (s : State) (k : Nat) (f : Launch → Launch) : (s.onLaunch k f).seq = s.seq := rfl
@[simp] theorem State.onLaunch_free (s : State) (k : Nat) (f : Launch → Launch) : (s.onLaunch k f).free = s.free := rfl
@[simp] theorem State.onLaunch_latent (s : State) (k : Nat) (f : Launch → Launch) : (s.onLaunch k f).latent = s.latent := rfl

/-! ### `setGran` writes `gran` only -/

@[simp] theorem State.setGran_groups (s : State) (k : Nat) (x : Gran) : (s.setGran k x).groups = s.groups := rfl
@[simp] theorem State.setGran_teams (s : State) (k : Nat) (x : Gran) : (s.setGran k x).teams = s.teams := rfl
@[simp] theorem State.setGran_launches (s : State) (k : Nat) (x : Gran) : (s.setGran k x).launches = s.launches := rfl
@[simp] theorem State.setGran_ctxs (s : State) (k : Nat) (x : Gran) : (s.setGran k x).ctxs = s.ctxs := rfl
@[simp] theorem State.setGran_modules (s : State) (k : Nat) (x : Gran) : (s.setGran k x).modules = s.modules := rfl
@[simp] theorem State.setGran_runs (s : State) (k : Nat) (x : Gran) : (s.setGran k x).runs = s.runs := rfl
@[simp] theorem State.setGran_loopBuf (s : State) (k : Nat) (x : Gran) : (s.setGran k x).loopBuf = s.loopBuf := rfl
@[simp] theorem State.setGran_mem (s : State) (k : Nat) (x : Gran) : (s.setGran k x).mem = s.mem := rfl
@[simp] theorem State.setGran_caches (s : State) (k : Nat) (x : Gran) : (s.setGran k x).caches = s.caches := rfl
@[simp] theorem State.setGran_tlb (s : State) (k : Nat) (x : Gran) : (s.setGran k x).tlb = s.tlb := rfl
@[simp] theorem State.setGran_records (s : State) (k : Nat) (x : Gran) : (s.setGran k x).records = s.records := rfl
@[simp] theorem State.setGran_posted (s : State) (k : Nat) (x : Gran) : (s.setGran k x).posted = s.posted := rfl
@[simp] theorem State.setGran_time (s : State) (k : Nat) (x : Gran) : (s.setGran k x).time = s.time := rfl
@[simp] theorem State.setGran_spill (s : State) (k : Nat) (x : Gran) : (s.setGran k x).spill = s.spill := rfl
@[simp] theorem State.setGran_feQ (s : State) (k : Nat) (x : Gran) : (s.setGran k x).feQ = s.feQ := rfl
@[simp] theorem State.setGran_latent (s : State) (k : Nat) (x : Gran) : (s.setGran k x).latent = s.latent := rfl
@[simp] theorem State.setGran_events (s : State) (k : Nat) (x : Gran) : (s.setGran k x).events = s.events := rfl
@[simp] theorem State.setGran_cur (s : State) (k : Nat) (x : Gran) : (s.setGran k x).cur = s.cur := rfl

/-! ### `addRecord` writes `records` only -/

@[simp] theorem State.addRecord_groups (s : State) (r : FaultRec) : (s.addRecord r).groups = s.groups := rfl
@[simp] theorem State.addRecord_teams (s : State) (r : FaultRec) : (s.addRecord r).teams = s.teams := rfl
@[simp] theorem State.addRecord_launches (s : State) (r : FaultRec) : (s.addRecord r).launches = s.launches := rfl
@[simp] theorem State.addRecord_ctxs (s : State) (r : FaultRec) : (s.addRecord r).ctxs = s.ctxs := rfl
@[simp] theorem State.addRecord_modules (s : State) (r : FaultRec) : (s.addRecord r).modules = s.modules := rfl
@[simp] theorem State.addRecord_runs (s : State) (r : FaultRec) : (s.addRecord r).runs = s.runs := rfl
@[simp] theorem State.addRecord_loopBuf (s : State) (r : FaultRec) : (s.addRecord r).loopBuf = s.loopBuf := rfl
@[simp] theorem State.addRecord_mem (s : State) (r : FaultRec) : (s.addRecord r).mem = s.mem := rfl
@[simp] theorem State.addRecord_gran (s : State) (r : FaultRec) : (s.addRecord r).gran = s.gran := rfl
@[simp] theorem State.addRecord_caches (s : State) (r : FaultRec) : (s.addRecord r).caches = s.caches := rfl
@[simp] theorem State.addRecord_tlb (s : State) (r : FaultRec) : (s.addRecord r).tlb = s.tlb := rfl
@[simp] theorem State.addRecord_posted (s : State) (r : FaultRec) : (s.addRecord r).posted = s.posted := rfl
@[simp] theorem State.addRecord_time (s : State) (r : FaultRec) : (s.addRecord r).time = s.time := rfl
@[simp] theorem State.addRecord_spill (s : State) (r : FaultRec) : (s.addRecord r).spill = s.spill := rfl
@[simp] theorem State.addRecord_feQ (s : State) (r : FaultRec) : (s.addRecord r).feQ = s.feQ := rfl
@[simp] theorem State.addRecord_latent (s : State) (r : FaultRec) : (s.addRecord r).latent = s.latent := rfl
@[simp] theorem State.addRecord_events (s : State) (r : FaultRec) : (s.addRecord r).events = s.events := rfl
@[simp] theorem State.addRecord_cur (s : State) (r : FaultRec) : (s.addRecord r).cur = s.cur := rfl

/-! ### `dropRuns` writes `runs` only -/

@[simp] theorem State.dropRuns_groups (s : State) (k : Nat) : (s.dropRuns k).groups = s.groups := rfl
@[simp] theorem State.dropRuns_teams (s : State) (k : Nat) : (s.dropRuns k).teams = s.teams := rfl
@[simp] theorem State.dropRuns_launches (s : State) (k : Nat) : (s.dropRuns k).launches = s.launches := rfl
@[simp] theorem State.dropRuns_ctxs (s : State) (k : Nat) : (s.dropRuns k).ctxs = s.ctxs := rfl
@[simp] theorem State.dropRuns_modules (s : State) (k : Nat) : (s.dropRuns k).modules = s.modules := rfl
@[simp] theorem State.dropRuns_loopBuf (s : State) (k : Nat) : (s.dropRuns k).loopBuf = s.loopBuf := rfl
@[simp] theorem State.dropRuns_mem (s : State) (k : Nat) : (s.dropRuns k).mem = s.mem := rfl
@[simp] theorem State.dropRuns_gran (s : State) (k : Nat) : (s.dropRuns k).gran = s.gran := rfl
@[simp] theorem State.dropRuns_caches (s : State) (k : Nat) : (s.dropRuns k).caches = s.caches := rfl
@[simp] theorem State.dropRuns_tlb (s : State) (k : Nat) : (s.dropRuns k).tlb = s.tlb := rfl
@[simp] theorem State.dropRuns_records (s : State) (k : Nat) : (s.dropRuns k).records = s.records := rfl
@[simp] theorem State.dropRuns_posted (s : State) (k : Nat) : (s.dropRuns k).posted = s.posted := rfl
@[simp] theorem State.dropRuns_time (s : State) (k : Nat) : (s.dropRuns k).time = s.time := rfl
@[simp] theorem State.dropRuns_spill (s : State) (k : Nat) : (s.dropRuns k).spill = s.spill := rfl
@[simp] theorem State.dropRuns_feQ (s : State) (k : Nat) : (s.dropRuns k).feQ = s.feQ := rfl
@[simp] theorem State.dropRuns_latent (s : State) (k : Nat) : (s.dropRuns k).latent = s.latent := rfl
@[simp] theorem State.dropRuns_events (s : State) (k : Nat) : (s.dropRuns k).events = s.events := rfl
@[simp] theorem State.dropRuns_cur (s : State) (k : Nat) : (s.dropRuns k).cur = s.cur := rfl

/-! ### `setArray` writes `arrays` only -/

@[simp] theorem State.setArray_groups (s : State) (k : Nat) (a : ArrayState) : (s.setArray k a).groups = s.groups := rfl
@[simp] theorem State.setArray_teams (s : State) (k : Nat) (a : ArrayState) : (s.setArray k a).teams = s.teams := rfl
@[simp] theorem State.setArray_launches (s : State) (k : Nat) (a : ArrayState) : (s.setArray k a).launches = s.launches := rfl
@[simp] theorem State.setArray_ctxs (s : State) (k : Nat) (a : ArrayState) : (s.setArray k a).ctxs = s.ctxs := rfl
@[simp] theorem State.setArray_modules (s : State) (k : Nat) (a : ArrayState) : (s.setArray k a).modules = s.modules := rfl
@[simp] theorem State.setArray_runs (s : State) (k : Nat) (a : ArrayState) : (s.setArray k a).runs = s.runs := rfl
@[simp] theorem State.setArray_loopBuf (s : State) (k : Nat) (a : ArrayState) : (s.setArray k a).loopBuf = s.loopBuf := rfl
@[simp] theorem State.setArray_mem (s : State) (k : Nat) (a : ArrayState) : (s.setArray k a).mem = s.mem := rfl
@[simp] theorem State.setArray_gran (s : State) (k : Nat) (a : ArrayState) : (s.setArray k a).gran = s.gran := rfl
@[simp] theorem State.setArray_caches (s : State) (k : Nat) (a : ArrayState) : (s.setArray k a).caches = s.caches := rfl
@[simp] theorem State.setArray_tlb (s : State) (k : Nat) (a : ArrayState) : (s.setArray k a).tlb = s.tlb := rfl
@[simp] theorem State.setArray_records (s : State) (k : Nat) (a : ArrayState) : (s.setArray k a).records = s.records := rfl
@[simp] theorem State.setArray_posted (s : State) (k : Nat) (a : ArrayState) : (s.setArray k a).posted = s.posted := rfl
@[simp] theorem State.setArray_time (s : State) (k : Nat) (a : ArrayState) : (s.setArray k a).time = s.time := rfl
@[simp] theorem State.setArray_spill (s : State) (k : Nat) (a : ArrayState) : (s.setArray k a).spill = s.spill := rfl
@[simp] theorem State.setArray_feQ (s : State) (k : Nat) (a : ArrayState) : (s.setArray k a).feQ = s.feQ := rfl
@[simp] theorem State.setArray_latent (s : State) (k : Nat) (a : ArrayState) : (s.setArray k a).latent = s.latent := rfl
@[simp] theorem State.setArray_events (s : State) (k : Nat) (a : ArrayState) : (s.setArray k a).events = s.events := rfl
@[simp] theorem State.setArray_cur (s : State) (k : Nat) (a : ArrayState) : (s.setArray k a).cur = s.cur := rfl

/-! ### `setCopyQueue` writes `copyQ` only -/

@[simp] theorem State.setCopyQueue_groups (s : State) (k : Nat) (q : JobQueue CopyJob) : (s.setCopyQueue k q).groups = s.groups := rfl
@[simp] theorem State.setCopyQueue_teams (s : State) (k : Nat) (q : JobQueue CopyJob) : (s.setCopyQueue k q).teams = s.teams := rfl
@[simp] theorem State.setCopyQueue_launches (s : State) (k : Nat) (q : JobQueue CopyJob) : (s.setCopyQueue k q).launches = s.launches := rfl
@[simp] theorem State.setCopyQueue_ctxs (s : State) (k : Nat) (q : JobQueue CopyJob) : (s.setCopyQueue k q).ctxs = s.ctxs := rfl
@[simp] theorem State.setCopyQueue_modules (s : State) (k : Nat) (q : JobQueue CopyJob) : (s.setCopyQueue k q).modules = s.modules := rfl
@[simp] theorem State.setCopyQueue_runs (s : State) (k : Nat) (q : JobQueue CopyJob) : (s.setCopyQueue k q).runs = s.runs := rfl
@[simp] theorem State.setCopyQueue_loopBuf (s : State) (k : Nat) (q : JobQueue CopyJob) : (s.setCopyQueue k q).loopBuf = s.loopBuf := rfl
@[simp] theorem State.setCopyQueue_mem (s : State) (k : Nat) (q : JobQueue CopyJob) : (s.setCopyQueue k q).mem = s.mem := rfl
@[simp] theorem State.setCopyQueue_gran (s : State) (k : Nat) (q : JobQueue CopyJob) : (s.setCopyQueue k q).gran = s.gran := rfl
@[simp] theorem State.setCopyQueue_caches (s : State) (k : Nat) (q : JobQueue CopyJob) : (s.setCopyQueue k q).caches = s.caches := rfl
@[simp] theorem State.setCopyQueue_tlb (s : State) (k : Nat) (q : JobQueue CopyJob) : (s.setCopyQueue k q).tlb = s.tlb := rfl
@[simp] theorem State.setCopyQueue_records (s : State) (k : Nat) (q : JobQueue CopyJob) : (s.setCopyQueue k q).records = s.records := rfl
@[simp] theorem State.setCopyQueue_posted (s : State) (k : Nat) (q : JobQueue CopyJob) : (s.setCopyQueue k q).posted = s.posted := rfl
@[simp] theorem State.setCopyQueue_time (s : State) (k : Nat) (q : JobQueue CopyJob) : (s.setCopyQueue k q).time = s.time := rfl
@[simp] theorem State.setCopyQueue_spill (s : State) (k : Nat) (q : JobQueue CopyJob) : (s.setCopyQueue k q).spill = s.spill := rfl
@[simp] theorem State.setCopyQueue_feQ (s : State) (k : Nat) (q : JobQueue CopyJob) : (s.setCopyQueue k q).feQ = s.feQ := rfl
@[simp] theorem State.setCopyQueue_latent (s : State) (k : Nat) (q : JobQueue CopyJob) : (s.setCopyQueue k q).latent = s.latent := rfl
@[simp] theorem State.setCopyQueue_events (s : State) (k : Nat) (q : JobQueue CopyJob) : (s.setCopyQueue k q).events = s.events := rfl
@[simp] theorem State.setCopyQueue_cur (s : State) (k : Nat) (q : JobQueue CopyJob) : (s.setCopyQueue k q).cur = s.cur := rfl

/-! ### `setSelQueue` writes `selQ` only -/

@[simp] theorem State.setSelQueue_groups (s : State) (k : Nat) (q : JobQueue SelJob) : (s.setSelQueue k q).groups = s.groups := rfl
@[simp] theorem State.setSelQueue_teams (s : State) (k : Nat) (q : JobQueue SelJob) : (s.setSelQueue k q).teams = s.teams := rfl
@[simp] theorem State.setSelQueue_launches (s : State) (k : Nat) (q : JobQueue SelJob) : (s.setSelQueue k q).launches = s.launches := rfl
@[simp] theorem State.setSelQueue_ctxs (s : State) (k : Nat) (q : JobQueue SelJob) : (s.setSelQueue k q).ctxs = s.ctxs := rfl
@[simp] theorem State.setSelQueue_modules (s : State) (k : Nat) (q : JobQueue SelJob) : (s.setSelQueue k q).modules = s.modules := rfl
@[simp] theorem State.setSelQueue_runs (s : State) (k : Nat) (q : JobQueue SelJob) : (s.setSelQueue k q).runs = s.runs := rfl
@[simp] theorem State.setSelQueue_loopBuf (s : State) (k : Nat) (q : JobQueue SelJob) : (s.setSelQueue k q).loopBuf = s.loopBuf := rfl
@[simp] theorem State.setSelQueue_mem (s : State) (k : Nat) (q : JobQueue SelJob) : (s.setSelQueue k q).mem = s.mem := rfl
@[simp] theorem State.setSelQueue_gran (s : State) (k : Nat) (q : JobQueue SelJob) : (s.setSelQueue k q).gran = s.gran := rfl
@[simp] theorem State.setSelQueue_caches (s : State) (k : Nat) (q : JobQueue SelJob) : (s.setSelQueue k q).caches = s.caches := rfl
@[simp] theorem State.setSelQueue_tlb (s : State) (k : Nat) (q : JobQueue SelJob) : (s.setSelQueue k q).tlb = s.tlb := rfl
@[simp] theorem State.setSelQueue_records (s : State) (k : Nat) (q : JobQueue SelJob) : (s.setSelQueue k q).records = s.records := rfl
@[simp] theorem State.setSelQueue_posted (s : State) (k : Nat) (q : JobQueue SelJob) : (s.setSelQueue k q).posted = s.posted := rfl
@[simp] theorem State.setSelQueue_time (s : State) (k : Nat) (q : JobQueue SelJob) : (s.setSelQueue k q).time = s.time := rfl
@[simp] theorem State.setSelQueue_spill (s : State) (k : Nat) (q : JobQueue SelJob) : (s.setSelQueue k q).spill = s.spill := rfl
@[simp] theorem State.setSelQueue_feQ (s : State) (k : Nat) (q : JobQueue SelJob) : (s.setSelQueue k q).feQ = s.feQ := rfl
@[simp] theorem State.setSelQueue_latent (s : State) (k : Nat) (q : JobQueue SelJob) : (s.setSelQueue k q).latent = s.latent := rfl
@[simp] theorem State.setSelQueue_events (s : State) (k : Nat) (q : JobQueue SelJob) : (s.setSelQueue k q).events = s.events := rfl
@[simp] theorem State.setSelQueue_cur (s : State) (k : Nat) (q : JobQueue SelJob) : (s.setSelQueue k q).cur = s.cur := rfl

/-! ### `setHostQueue` writes `hostQ` only -/

@[simp] theorem State.setHostQueue_groups (s : State) (k : Nat) (q : HostQ) : (s.setHostQueue k q).groups = s.groups := rfl
@[simp] theorem State.setHostQueue_teams (s : State) (k : Nat) (q : HostQ) : (s.setHostQueue k q).teams = s.teams := rfl
@[simp] theorem State.setHostQueue_launches (s : State) (k : Nat) (q : HostQ) : (s.setHostQueue k q).launches = s.launches := rfl
@[simp] theorem State.setHostQueue_ctxs (s : State) (k : Nat) (q : HostQ) : (s.setHostQueue k q).ctxs = s.ctxs := rfl
@[simp] theorem State.setHostQueue_modules (s : State) (k : Nat) (q : HostQ) : (s.setHostQueue k q).modules = s.modules := rfl
@[simp] theorem State.setHostQueue_runs (s : State) (k : Nat) (q : HostQ) : (s.setHostQueue k q).runs = s.runs := rfl
@[simp] theorem State.setHostQueue_loopBuf (s : State) (k : Nat) (q : HostQ) : (s.setHostQueue k q).loopBuf = s.loopBuf := rfl
@[simp] theorem State.setHostQueue_mem (s : State) (k : Nat) (q : HostQ) : (s.setHostQueue k q).mem = s.mem := rfl
@[simp] theorem State.setHostQueue_gran (s : State) (k : Nat) (q : HostQ) : (s.setHostQueue k q).gran = s.gran := rfl
@[simp] theorem State.setHostQueue_caches (s : State) (k : Nat) (q : HostQ) : (s.setHostQueue k q).caches = s.caches := rfl
@[simp] theorem State.setHostQueue_tlb (s : State) (k : Nat) (q : HostQ) : (s.setHostQueue k q).tlb = s.tlb := rfl
@[simp] theorem State.setHostQueue_records (s : State) (k : Nat) (q : HostQ) : (s.setHostQueue k q).records = s.records := rfl
@[simp] theorem State.setHostQueue_posted (s : State) (k : Nat) (q : HostQ) : (s.setHostQueue k q).posted = s.posted := rfl
@[simp] theorem State.setHostQueue_time (s : State) (k : Nat) (q : HostQ) : (s.setHostQueue k q).time = s.time := rfl
@[simp] theorem State.setHostQueue_spill (s : State) (k : Nat) (q : HostQ) : (s.setHostQueue k q).spill = s.spill := rfl
@[simp] theorem State.setHostQueue_feQ (s : State) (k : Nat) (q : HostQ) : (s.setHostQueue k q).feQ = s.feQ := rfl
@[simp] theorem State.setHostQueue_latent (s : State) (k : Nat) (q : HostQ) : (s.setHostQueue k q).latent = s.latent := rfl
@[simp] theorem State.setHostQueue_events (s : State) (k : Nat) (q : HostQ) : (s.setHostQueue k q).events = s.events := rfl
@[simp] theorem State.setHostQueue_cur (s : State) (k : Nat) (q : HostQ) : (s.setHostQueue k q).cur = s.cur := rfl

/-! ### `noteWaits` writes `launches` only -/

@[simp] theorem State.noteWaits_groups (s : State) : (s.noteWaits).groups = s.groups := rfl
@[simp] theorem State.noteWaits_teams (s : State) : (s.noteWaits).teams = s.teams := rfl
@[simp] theorem State.noteWaits_ctxs (s : State) : (s.noteWaits).ctxs = s.ctxs := rfl
@[simp] theorem State.noteWaits_modules (s : State) : (s.noteWaits).modules = s.modules := rfl
@[simp] theorem State.noteWaits_runs (s : State) : (s.noteWaits).runs = s.runs := rfl
@[simp] theorem State.noteWaits_loopBuf (s : State) : (s.noteWaits).loopBuf = s.loopBuf := rfl
@[simp] theorem State.noteWaits_mem (s : State) : (s.noteWaits).mem = s.mem := rfl
@[simp] theorem State.noteWaits_gran (s : State) : (s.noteWaits).gran = s.gran := rfl
@[simp] theorem State.noteWaits_caches (s : State) : (s.noteWaits).caches = s.caches := rfl
@[simp] theorem State.noteWaits_tlb (s : State) : (s.noteWaits).tlb = s.tlb := rfl
@[simp] theorem State.noteWaits_records (s : State) : (s.noteWaits).records = s.records := rfl
@[simp] theorem State.noteWaits_posted (s : State) : (s.noteWaits).posted = s.posted := rfl
@[simp] theorem State.noteWaits_time (s : State) : (s.noteWaits).time = s.time := rfl
@[simp] theorem State.noteWaits_spill (s : State) : (s.noteWaits).spill = s.spill := rfl
@[simp] theorem State.noteWaits_feQ (s : State) : (s.noteWaits).feQ = s.feQ := rfl
@[simp] theorem State.noteWaits_latent (s : State) : (s.noteWaits).latent = s.latent := rfl
@[simp] theorem State.noteWaits_events (s : State) : (s.noteWaits).events = s.events := rfl
@[simp] theorem State.noteWaits_cur (s : State) : (s.noteWaits).cur = s.cur := rfl

/-! ### `clearLatent` writes `latent` only -/

@[simp] theorem State.clearLatent_groups (s : State) (ks : List Nat) : (s.clearLatent ks).groups = s.groups := rfl
@[simp] theorem State.clearLatent_teams (s : State) (ks : List Nat) : (s.clearLatent ks).teams = s.teams := rfl
@[simp] theorem State.clearLatent_launches (s : State) (ks : List Nat) : (s.clearLatent ks).launches = s.launches := rfl
@[simp] theorem State.clearLatent_ctxs (s : State) (ks : List Nat) : (s.clearLatent ks).ctxs = s.ctxs := rfl
@[simp] theorem State.clearLatent_modules (s : State) (ks : List Nat) : (s.clearLatent ks).modules = s.modules := rfl
@[simp] theorem State.clearLatent_runs (s : State) (ks : List Nat) : (s.clearLatent ks).runs = s.runs := rfl
@[simp] theorem State.clearLatent_loopBuf (s : State) (ks : List Nat) : (s.clearLatent ks).loopBuf = s.loopBuf := rfl
@[simp] theorem State.clearLatent_mem (s : State) (ks : List Nat) : (s.clearLatent ks).mem = s.mem := rfl
@[simp] theorem State.clearLatent_gran (s : State) (ks : List Nat) : (s.clearLatent ks).gran = s.gran := rfl
@[simp] theorem State.clearLatent_caches (s : State) (ks : List Nat) : (s.clearLatent ks).caches = s.caches := rfl
@[simp] theorem State.clearLatent_tlb (s : State) (ks : List Nat) : (s.clearLatent ks).tlb = s.tlb := rfl
@[simp] theorem State.clearLatent_records (s : State) (ks : List Nat) : (s.clearLatent ks).records = s.records := rfl
@[simp] theorem State.clearLatent_posted (s : State) (ks : List Nat) : (s.clearLatent ks).posted = s.posted := rfl
@[simp] theorem State.clearLatent_time (s : State) (ks : List Nat) : (s.clearLatent ks).time = s.time := rfl
@[simp] theorem State.clearLatent_spill (s : State) (ks : List Nat) : (s.clearLatent ks).spill = s.spill := rfl
@[simp] theorem State.clearLatent_feQ (s : State) (ks : List Nat) : (s.clearLatent ks).feQ = s.feQ := rfl
@[simp] theorem State.clearLatent_events (s : State) (ks : List Nat) : (s.clearLatent ks).events = s.events := rfl
@[simp] theorem State.clearLatent_cur (s : State) (ks : List Nat) : (s.clearLatent ks).cur = s.cur := rfl

/-! ### `clearPoison` writes `poison` only -/

@[simp] theorem State.clearPoison_groups (s : State) (ks : List Nat) : (s.clearPoison ks).groups = s.groups := rfl
@[simp] theorem State.clearPoison_teams (s : State) (ks : List Nat) : (s.clearPoison ks).teams = s.teams := rfl
@[simp] theorem State.clearPoison_launches (s : State) (ks : List Nat) : (s.clearPoison ks).launches = s.launches := rfl
@[simp] theorem State.clearPoison_ctxs (s : State) (ks : List Nat) : (s.clearPoison ks).ctxs = s.ctxs := rfl
@[simp] theorem State.clearPoison_modules (s : State) (ks : List Nat) : (s.clearPoison ks).modules = s.modules := rfl
@[simp] theorem State.clearPoison_runs (s : State) (ks : List Nat) : (s.clearPoison ks).runs = s.runs := rfl
@[simp] theorem State.clearPoison_loopBuf (s : State) (ks : List Nat) : (s.clearPoison ks).loopBuf = s.loopBuf := rfl
@[simp] theorem State.clearPoison_mem (s : State) (ks : List Nat) : (s.clearPoison ks).mem = s.mem := rfl
@[simp] theorem State.clearPoison_gran (s : State) (ks : List Nat) : (s.clearPoison ks).gran = s.gran := rfl
@[simp] theorem State.clearPoison_caches (s : State) (ks : List Nat) : (s.clearPoison ks).caches = s.caches := rfl
@[simp] theorem State.clearPoison_tlb (s : State) (ks : List Nat) : (s.clearPoison ks).tlb = s.tlb := rfl
@[simp] theorem State.clearPoison_records (s : State) (ks : List Nat) : (s.clearPoison ks).records = s.records := rfl
@[simp] theorem State.clearPoison_posted (s : State) (ks : List Nat) : (s.clearPoison ks).posted = s.posted := rfl
@[simp] theorem State.clearPoison_time (s : State) (ks : List Nat) : (s.clearPoison ks).time = s.time := rfl
@[simp] theorem State.clearPoison_spill (s : State) (ks : List Nat) : (s.clearPoison ks).spill = s.spill := rfl
@[simp] theorem State.clearPoison_feQ (s : State) (ks : List Nat) : (s.clearPoison ks).feQ = s.feQ := rfl
@[simp] theorem State.clearPoison_latent (s : State) (ks : List Nat) : (s.clearPoison ks).latent = s.latent := rfl
@[simp] theorem State.clearPoison_events (s : State) (ks : List Nat) : (s.clearPoison ks).events = s.events := rfl
@[simp] theorem State.clearPoison_cur (s : State) (ks : List Nat) : (s.clearPoison ks).cur = s.cur := rfl

/-! ### What was put is found -/

@[simp] theorem State.group_setGroup (s : State) (k : Nat) (g : Group) : (s.setGroup k g).group k = some g :=
  KMap.find_put_self _ _ _

theorem State.group_setGroup_ne (s : State) {k j : Nat} (g : Group) (h : j ≠ k) : (s.setGroup k g).group j = s.group j :=
  KMap.find_put_ne _ _ h

@[simp] theorem State.copyQueue_setCopyQueue (s : State) (k : Nat) (q : JobQueue CopyJob) :
    (s.setCopyQueue k q).copyQueue k = q := by
  obtain ⟨jobs, last⟩ := q
  simp only [State.setCopyQueue, State.copyQueue, Bool.and_eq_true, List.isEmpty_iff, beq_iff_eq]
  split
  · simp_all
  · simp

@[simp] theorem State.selQueue_setSelQueue (s : State) (k : Nat) (q : JobQueue SelJob) :
    (s.setSelQueue k q).selQueue k = q := by
  obtain ⟨jobs, last⟩ := q
  simp only [State.setSelQueue, State.selQueue, Bool.and_eq_true, List.isEmpty_iff, beq_iff_eq]
  split
  · simp_all
  · simp

@[simp] theorem State.hostQueue_setHostQueue (s : State) (k : Nat) (q : HostQ) : (s.setHostQueue k q).hostQueue k = q := by
  simp [State.setHostQueue, State.hostQueue]

@[simp] theorem State.array_setArray (s : State) (k : Nat) (a : ArrayState) : (s.setArray k a).array k = a := by
  simp [State.setArray, State.array]

/-- A granule that is blank is not listed. -/
theorem State.granAt_setGran (s : State) (k : Nat) (x : Gran) (i : Nat) :
    (s.setGran k x).granAt i = if i = k then x else s.granAt i := by
  unfold State.setGran State.granAt
  by_cases hx : x = Gran.blank
  · simp only [hx, if_true, KMap.find_del]
    split <;> rfl
  · simp only [hx, if_false, KMap.find_put]
    split <;> rfl

end Sys2Proof.Machine
end

