-- ==== Sys2Proof/Tests/Slice0.lean ====
section
/-! SUPPORT. Tests: words of the manual decode to what they stand for, a few results of the manual, an ill-formed
term for each check, and for the hypotheses of every statement a state that meets them. -/

set_option Elab.async false

namespace Sys2Proof.Tests

open Sys2Proof Sys2Proof.Machine

/-! ## Small states -/

/-- One team of one group of 16 lanes with `n` live ones in block 0, its gang held by slot 0 of core 0 (log entry 6). -/
def wide (n : Nat) : State :=
  let s := State.reset.withFetchWord 64 0
  { s with agenda := [], groups := s.groups.put 0 (startGroup 0 0 0 16 n 0 0 256 0 0 0 []) }

/-- One live lane. -/
def one : State := wide 1

/-- Registers of lanes at depth 0: lane, register, value. -/
def withRegs (s : State) (xs : List (Nat × Nat × Word)) : State :=
  s.onGroup 0 fun g => xs.foldl (fun g x => g.bankPut 0 x.1 x.2.1 x.2.2) g

/-- Member mask of slot 0. -/
def h0 : Hdr := ⟨false, 1⟩

/-- The state after an instruction. -/
def after (i : Instr) (s : State) : Option State :=
  match exec i s with
  | .next t => some t
  | _ => none

/-- What a register of lane 0 of group 0 reads after a word. -/
def reads (i : Instr) (s : State) (lane reg : Nat) : Option Word :=
  ((after i s).bind fun t => t.group 0).bind fun g => g.seen lane reg

/-- The environment of a word that passes its checks, with a condition on it. -/
def okEnv (h : Hdr) (region : Option (BitVec 16)) (regs rd : List (Nat × Nat)) (s : State) (p : Env → Bool) : Bool :=
  match readyEnv h region regs rd s with
  | some e => p e
  | none => false

theorem ready_of_okEnv {h : Hdr} {region : Option (BitVec 16)} {regs rd : List (Nat × Nat)} {s : State} {p : Env → Bool}
    (hp : okEnv h region regs rd s p = true) : ∃ e, Ready h region regs rd s e ∧ p e = true := by
  unfold okEnv at hp
  split at hp
  · exact ⟨_, ready_of_readyEnv ‹_›, hp⟩
  · cases hp

/-- The same for a word that writes registers lane by lane. -/
def okLane (i : Instr) (s : State) (p : Env → Bool) : Bool :=
  match laneWordOf i with
  | some w => i.wf && okEnv w.h none (w.dest :: w.reads) w.reads s p
  | none => false

theorem lane_of_okLane {i : Instr} {s : State} {p : Env → Bool} (hp : okLane i s p = true) :
    ∃ w e, LaneReady i w s e ∧ p e = true := by
  unfold okLane at hp
  split at hp
  · simp only [Bool.and_eq_true] at hp
    obtain ⟨e, he, h⟩ := ready_of_okEnv hp.2
    exact ⟨_, e, ⟨‹_›, hp.1, he⟩, h⟩
  · cases hp

/-- An environment of the slot that `cur` names, with a condition on it. -/
def hasEnv (m : BitVec 8) (s : State) (p : Env → Bool) : Bool :=
  match s.env m with
  | some e => p e
  | none => false

theorem env_of_hasEnv {m : BitVec 8} {s : State} {p : Env → Bool} (hp : hasEnv m s p = true) :
    ∃ e, s.env m = some e ∧ p e = true := by
  unfold hasEnv at hp
  split at hp
  · exact ⟨_, ‹_›, hp⟩
  · cases hp

/-- Operands of layout A, C, X with the fields that a test does not care about. -/
def opA (vd va vb vc : Reg) (f : Fmt) : AOp := ⟨h0, true, vd, va, .reg vb, vc, f, .rne, .off, false⟩
def opC (vd va vb : Reg) (f : Fmt) (c : Cond) : COp := ⟨h0, true, vd, va, .reg vb, f, c, false, false⟩
def opX (vd va : Reg) (f : Fmt) (o : BitVec 4) : XOp := ⟨h0, true, vd, va, .reg 0, f, o, 0⟩

/-! ## Decoding: words of the manual -/

theorem test_decode_add_words : decode 0x0020002808100480 0 = .ok (.add ⟨h0, false, 5, 1, .reg 2, 0, .i32, .rne, .off, false⟩) := by
  decide +kernel
theorem test_decode_add_sat : decode 0x4020081808000542 0x9C40 =
    .ok (.add ⟨h0, true, 3, 1, .lit 0 0x9C40, 0, .n16, .rne, .on, false⟩) := by decide +kernel
theorem test_decode_sra : decode 0x4081283020000480 2 =
    .ok (.sra ⟨⟨false, 4⟩, true, 6, 4, .lit 0 2, 0, .i32, .rne, .off, false⟩) := by decide +kernel
theorem test_decode_br : decode 0x0074000000038000 0 = .ok (.br ⟨false, 3⟩ 7) := by decide +kernel
theorem test_decode_call : decode 0x0034800000001800 0 = .ok (.call h0 3) := by decide +kernel
theorem test_decode_brx : decode 0x0034200040000000 0 = .ok (.brx h0 8) := by decide +kernel
theorem test_decode_copy : decode 0x00380000506080C0 0 = .ok (.copy ⟨h0, 0, 10, 12, 16, .bf16, 0⟩) := by decide +kernel
theorem test_decode_crew : decode 0x0039800030000000 0 = .ok (.crew h0 6) := by decide +kernel
theorem test_decode_wld : decode 0x00399000A0B0C303 0 = .ok (.wld ⟨h0, 0, 20, 22, 24, .xf4, 3⟩) := by decide +kernel
theorem test_decode_fence_opr : decode 0x0030A00000000200 0 = .ok (.fenceOpr h0) := by decide +kernel
theorem test_decode_fence : decode 0x0030A00000000028 0 = .ok (.fence h0 2 4) := by decide +kernel
theorem test_decode_wait : decode 0x0030B00000040000 0 = .ok (.wait h0 0 0 2 0) := by decide +kernel
theorem test_decode_coll : decode 0x0039000050608003 0 = .ok (.coll ⟨h0, 0, 10, 12, 16, .f32, 3⟩) := by decide +kernel
theorem test_decode_msg : decode 0x00391000A0B0C000 0 = .ok (.msg ⟨h0, 0, 20, 22, 24, .f32, 0⟩) := by decide +kernel
theorem test_decode_ofadd : decode 0x0030900050300000 0 =
    .ok (.ofadd ⟨h0, false, 0, 10, .reg 6, 0, .f32, 0, 0, false⟩) := by decide +kernel
theorem test_decode_launch : decode 0x003C7000A0000003 0 = .ok (.launch ⟨h0, 0, 20, 0, 0, .f32, 3⟩) := by decide +kernel
theorem test_decode_evsig : decode 0x003C800030400580 0 = .ok (.evsig ⟨h0, 0, 6, 8, 0, .n32, 0⟩) := by decide +kernel
theorem test_decode_leave : decode 0x003C600000091800 0 = .ok (.leave h0 0x123) := by decide +kernel
theorem test_decode_arrive : decode 0x0030C00000000005 0 = .ok (.arrive h0 5) := by decide +kernel
theorem test_decode_bwait : decode 0x8030D00000000005 0 = .ok (.bwait ⟨true, 1⟩ 5) := by decide +kernel

/-! ## WellFormed: for each check a term that it accepts, and one that breaks it in one place only -/

/-- The first term passes and every other one is refused. -/
def judged (xs : List Instr) : Bool :=
  match xs with
  | [] => false
  | x :: ys => x.wf && ys.all fun y => !y.wf

def iOp : AOp := opA 4 6 8 0 .i32
def wOp : AOp := opA 4 6 8 0 .i64

theorem test_wf_header : judged [.vote h0, .vote ⟨false, 0⟩, .unassignedOpcode h0 false, .watchdogExpiry] = true := by
  decide +kernel
theorem test_wf_nop : judged [.nop h0 none, .nop h0 (some 0)] = true ∧ (Instr.nop ⟨false, 0⟩ (some 0)).wf = true := by
  decide +kernel
theorem test_wf_literal_only_behind_L : judged [.add { iOp with vb := .lit 0 1 }, .abs { iOp with vb := .lit 0 0 },
    .red { opX 4 6 .i32 0 with vb := .lit 0 0 }] = true := by decide +kernel
theorem test_wf_selector : judged [.add { wOp with vb := .lit 2 1 }, .add { wOp with vb := .lit 0 1 },
    .add { iOp with vb := .lit 2 1 }, .add { iOp with vb := .lit 3 1 }] = true := by decide +kernel
theorem test_wf_intSat : judged [.add { iOp with sat := .on }, .add { iOp with fmt := .f32 }, .add { iOp with rm := .rtz },
    .add { iOp with x := true }, .add { wOp with vd := 5 }, .add { wOp with va := 5 }, .add { wOp with vb := .reg 5 },
    .add { iOp with vc := 1 }] = true := by decide +kernel
theorem test_wf_intTwo : judged [.mulhi iOp, .mulhi { iOp with sat := .on }, .and { iOp with fmt := .f32 },
    .min { iOp with x := true }, .xor { wOp with vd := 5 }, .or { wOp with va := 5 }, .max { wOp with vb := .reg 5 },
    .andn { iOp with vc := 1 }] = true := by decide +kernel
theorem test_wf_mulw : judged [.mulw iOp, .mulw wOp, .mulw { iOp with sat := .on }, .mulw { iOp with vd := 5 },
    .mulw { iOp with vc := 2 }, .mulw { iOp with vb := .lit 2 0 }] = true := by decide +kernel
theorem test_wf_mad : judged [.mad { wOp with vc := 2 }, .mad { wOp with vc := 3 }, .mad { wOp with fmt := .f64 },
    .mad { wOp with rm := .rtz }, .mad { wOp with x := true }, .mad { wOp with vd := 1 }, .mad { wOp with va := 1 },
    .mad { wOp with vb := .reg 1 }] = true := by decide +kernel
theorem test_wf_madw : judged [.madw { iOp with vc := 2 }, .madw { iOp with vc := 3 }, .madw wOp, .madw { iOp with vd := 5 },
    .madw { iOp with rm := .rdn }, .madw { iOp with x := true }] = true := by decide +kernel
theorem test_wf_intOne : judged [.abs { iOp with vb := .reg 0, sat := .on }, .abs { opA 4 6 0 0 .n32 with x := false },
    .neg { iOp with vb := .reg 1 }, .neg { opA 4 6 0 1 .i32 with x := false }, .neg { opA 4 6 0 0 .i32 with x := true },
    .not { opA 4 6 0 0 .i32 with sat := .on }, .brev { opA 4 6 0 0 .i32 with sat := .on }, .abs (opA 5 6 0 0 .i64),
    .abs (opA 4 7 0 0 .i64), .neg (opA 4 6 0 0 .f32)] = true := by decide +kernel
theorem test_wf_shift : judged [.shl { wOp with x := true, vb := .reg 9 }, .shl { iOp with sat := .on },
    .shr { iOp with rm := .rtz }, .sra { wOp with vd := 5 }, .rol { iOp with x := true }, .ror { iOp with fmt := .f32 },
    .bfx { iOp with x := true }, .shl { iOp with vc := 1 }, .shl { wOp with va := 7 }, .shl { wOp with vb := .lit 2 0 }] = true := by
  decide +kernel
theorem test_wf_bfi : judged [.bfi { wOp with vc := 2, vb := .reg 9 }, .bfi { wOp with vc := 3 }, .bfi { iOp with sat := .on },
    .bfi { iOp with fmt := .f32 }, .bfi { wOp with vd := 1 }, .bfi { wOp with va := 1 }] = true := by decide +kernel
theorem test_wf_count : judged [.popc (opA 5 6 0 0 .i64), .popc (opA 5 7 0 0 .i64), .clz (opA 5 6 1 0 .i32),
    .ctz (opA 5 6 0 1 .i32), .popc { opA 5 6 0 0 .i32 with sat := .on }, .popc (opA 5 6 0 0 .f32)] = true := by decide +kernel
theorem test_wf_cmp : judged [.cmp (opC 5 6 8 .i32 .lt), .cmp (opC 5 6 8 .i32 .ord), .cmp (opC 5 6 8 .f32 .lt),
    .cmp { opC 5 6 8 .i32 .lt with sig := true }, .cmp (opC 5 7 8 .i64 .lt), .cmp (opC 5 6 9 .i64 .lt)] = true := by
  decide +kernel
theorem test_wf_fcmp : judged [.fcmp { opC 5 6 8 .f32 .ord with sig := true }, .fcmp (opC 5 6 8 .i32 .lt),
    .fcmp (opC 5 7 8 .f64 .lt), .fcmp (opC 5 6 9 .f64 .lt)] = true := by decide +kernel
theorem test_wf_sel_mov : judged [.sel (opA 4 6 8 9 .f64), .sel (opA 5 6 8 9 .f64), .sel (opA 4 6 8 9 .e4m3),
    .sel { opA 4 6 8 9 .f32 with rm := .rtz }, .mov (opA 4 1 8 0 .f32), .mov (opA 4 0 8 1 .f32), .mov (opA 5 0 8 0 .i64),
    .sel (opA 4 7 8 9 .f64), .mov (opA 4 0 9 0 .i64)] = true := by decide +kernel
theorem test_wf_address : judged [.adda (opA 4 6 9 0 .n32), .adda (opA 4 6 9 0 .n64), .adda (opA 5 6 9 0 .n32),
    .adda (opA 4 7 9 0 .n32), .adda (opA 4 6 9 0 .i64), .adda (opA 4 6 9 1 .n32), .adda { opA 4 6 9 0 .n32 with sat := .on },
    .addsc { opA 4 6 9 7 .n32 with rm := .rtz }, .addsc (opA 4 6 9 7 .n16), .addsc (opA 4 7 9 7 .n32)] = true := by decide +kernel
theorem test_wf_floatTwo : judged [.fadd { opA 4 6 8 0 .f16x2 with x := true, rm := .rtz, sat := .on }, .fadd (opA 4 6 8 0 .i32),
    .fmul { opA 4 6 8 0 .f32 with x := true }, .fmin { opA 4 6 8 0 .f32 with rm := .rtz },
    .fmaxn { opA 4 6 8 0 .f32 with sat := .on }, .fsub (opA 5 6 8 0 .f64), .fadd (opA 4 6 8 1 .f32),
    .fadd (opA 4 7 8 0 .f64), .fadd (opA 4 6 9 0 .f64)] = true := by decide +kernel
theorem test_wf_fma : judged [.fma (opA 4 6 8 10 .f64), .fma (opA 4 6 8 11 .f64), .fma (opA 5 6 8 10 .f64),
    .fma (opA 4 7 8 10 .f64), .fma (opA 4 6 9 10 .f64), .fma (opA 4 6 8 10 .i32), .fma { opA 4 6 8 10 .f32 with x := true }] = true := by
  decide +kernel
theorem test_wf_floatOne : judged [.fabs (opA 4 6 0 0 .f32), .fabs (opA 4 6 1 0 .f32), .fneg { opA 4 6 0 0 .f32 with rm := .rtz },
    .fclass { opA 4 6 0 0 .f32 with x := true }, .fclass (opA 4 6 1 0 .f32), .fclass (opA 4 6 0 1 .f32), .fclass (opA 4 7 0 0 .f64),
    .frint { opA 4 6 0 0 .f32 with sat := .on }, .frint (opA 4 6 1 0 .f32), .frint (opA 5 6 0 0 .f64), .frint (opA 4 6 0 0 .i32),
    .fscale (opA 4 6 8 1 .f32), .fscale { opA 4 6 8 0 .f32 with x := true }, .fscale (opA 5 6 8 0 .f64),
    .fscale { opA 4 6 8 0 .f64 with vb := .lit 2 0 }, .rcps (opA 4 6 0 0 .f16), .rsqs (opA 4 6 1 0 .f32),
    .rcps (opA 5 6 0 0 .f64), .rsqs { opA 4 6 0 0 .f32 with rm := .rtz }] = true := by decide +kernel
theorem test_wf_cvt : judged [.cvt ⟨h0, true, 4, 6, 0, .f32, .i8, .rtz, .on, false⟩, .cvt ⟨h0, true, 4, 6, 0, .f32, .i8, .rtz, .on, true⟩,
    .cvt ⟨h0, true, 4, 6, 1, .f32, .i8, .rtz, .on, false⟩, .cvt ⟨h0, true, 5, 6, 0, .f32, .f64, .rne, .off, false⟩,
    .cvt ⟨h0, true, 4, 7, 0, .f64, .f32, .rne, .off, false⟩, .cvt ⟨h0, true, 4, 6, 1, .f16x2, .f32, .rne, .off, false⟩,
    .cvt ⟨h0, true, 4, 6, 0, .f16x2, .f16x2, .rne, .off, false⟩, .cvt ⟨h0, true, 4, 6, 0, .f16x2, .bf16x2, .rne, .off, true⟩,
    .cvt ⟨h0, true, 4, 6, 0, .xf4, .f32, .rne, .off, false⟩, .cvt ⟨h0, true, 4, 6, 0, .f32, .mxe4m3, .rne, .off, false⟩] = true := by
  decide +kernel
theorem test_wf_cord : judged [.cord ⟨h0, true, 4, 6, 7, 1, 28⟩, .cord ⟨h0, true, 4, 6, 7, 6, 28⟩, .cord ⟨h0, true, 4, 6, 7, 1, 7⟩,
    .cord ⟨h0, true, 4, 6, 7, 1, 29⟩, .cord ⟨h0, true, 5, 6, 7, 1, 28⟩, .cord ⟨h0, true, 4, 6, 7, 3, 28⟩] = true := by decide +kernel
theorem test_wf_cross : judged [.shfl { opX 4 6 .i64 3 with x := 1, vb := .reg 9 }, .shfl (opX 4 6 .i32 4), .shfl { opX 4 6 .i32 0 with x := 2 },
    .shfl (opX 5 6 .i64 0), .shfl (opX 4 7 .i64 0), .shfl (opX 4 6 .i8 0), .red { opX 4 6 .i32 0 with x := 1 }, .red (opX 4 6 .f32 5),
    .red (opX 4 6 .i32 3), .scan { opX 4 6 .i32 0 with x := 2 }, .scan (opX 4 6 .i32 8), .ballot (opX 4 6 .i32 0), .ballot (opX 5 6 .n64 0),
    .ballot (opX 4 6 .n32 1), .any (opX 4 7 .n64 0), .all { opX 4 6 .n32 0 with vb := .reg 1 }, .matchLanes (opX 5 6 .f32 0),
    .matchLanes (opX 4 6 .f32 1), .matchLanes (opX 4 6 .f16 0), .red { opX 4 6 .i32 0 with vb := .reg 1 }] = true := by decide +kernel

def mOp : MOp := ⟨h0, true, 4, 6, .reg 8, 0, 2, 0, 0, false, 0⟩
def sOp : MOp := ⟨h0, false, 0, 6, .reg 8, 4, 2, 0, 0, false, 0⟩

theorem test_wf_load : judged [.ld { mOp with fe := 2, order := 1, scope := 5, rmt := true }, .ld { mOp with k := false }, .ld { mOp with va := 7 },
    .ld { mOp with size := 5 }, .lds { mOp with size := 2 }, .ld { mOp with size := 4, vd := 6 }, .ld { mOp with size := 3, vd := 5 },
    .ld { mOp with order := 2 }, .ld { mOp with fe := 3 }, .ld { mOp with vc := 1 }, .ld { mOp with scope := 6 },
    .ld { mOp with rmt := true }, .ld { mOp with vb := .lit 2 0 }] = true := by decide +kernel
theorem test_wf_store : judged [.st { sOp with fe := 1, order := 2, scope := 5 }, .st { sOp with k := true }, .st { sOp with vd := 1 },
    .st { sOp with size := 5 }, .st { sOp with size := 4, vc := 6 }, .st { sOp with order := 1 }, .st { sOp with fe := 2 },
    .st { sOp with rmt := true, order := 2 }] = true := by decide +kernel
theorem test_wf_full_empty : judged [.feset { sOp with vc := 0, size := 0 }, .feset { sOp with size := 0 }, .feclr { sOp with vc := 0 },
    .feclr { sOp with vc := 0, size := 0, fe := 1 }, .feset { sOp with vc := 0, size := 0, order := 1 },
    .feset { sOp with vc := 0, size := 0, k := true }, .fetest { mOp with size := 1 }, .fetest { mOp with size := 0, k := false },
    .fetest { mOp with size := 0, order := 2 }, .fetest { mOp with size := 0, vc := 1 }] = true ∧
    (Instr.fetest { mOp with size := 0 }).wf = true := by decide +kernel
theorem test_wf_window : judged [.sptest ⟨h0, true, 5, 6, 4⟩, .sptest ⟨h0, true, 5, 6, 5⟩, .sptest ⟨h0, true, 5, 7, 4⟩,
    .spcast ⟨h0, true, 5, 6, 4⟩, .spcast ⟨h0, true, 4, 7, 4⟩, .spcast ⟨h0, true, 4, 6, 5⟩] = true := by decide +kernel

def tOp : TOp := ⟨h0, true, 4, 6, .reg 8, 0, .i64, 0, 0, false⟩

theorem test_wf_atomic : judged [.aadd { tOp with order := 3, rmt := true, scope := 5 }, .aadd { tOp with k := false }, .aadd { tOp with vd := 5 },
    .amin { tOp with va := 7 }, .amax { tOp with vb := .reg 9 }, .aand { tOp with vc := 1 }, .aor { tOp with scope := 6 },
    .axor { tOp with rmt := true }, .aadd { tOp with fmt := .f32 }, .aexch { tOp with fmt := .i8 }, .acas { tOp with vc := 3 },
    .afadd tOp] = true ∧ (Instr.acas { tOp with vc := 2 }).wf = true := by decide +kernel
theorem test_wf_ofadd : judged [.ofadd ⟨h0, false, 0, 6, .reg 8, 0, .f64, 2, 0, false⟩, .ofadd ⟨h0, true, 0, 6, .reg 8, 0, .f64, 2, 0, false⟩,
    .ofadd ⟨h0, false, 1, 6, .reg 8, 0, .f64, 2, 0, false⟩, .ofadd ⟨h0, false, 0, 7, .reg 8, 0, .f64, 2, 0, false⟩,
    .ofadd ⟨h0, false, 0, 6, .reg 9, 0, .f64, 2, 0, false⟩, .ofadd ⟨h0, false, 0, 6, .reg 8, 1, .f64, 2, 0, false⟩,
    .ofadd ⟨h0, false, 0, 6, .reg 8, 0, .i64, 2, 0, false⟩, .ofadd ⟨h0, false, 0, 6, .reg 8, 0, .f64, 1, 0, false⟩,
    .ofadd ⟨h0, false, 0, 6, .reg 8, 0, .f64, 2, 6, false⟩, .ofadd ⟨h0, false, 0, 6, .reg 8, 0, .f64, 2, 0, true⟩] = true := by decide +kernel
theorem test_wf_fence : judged [.fence h0 2 5, .fence h0 0 5, .fence h0 2 6] = true := by decide +kernel
theorem test_wf_copy : judged [.copy ⟨h0, 0, 10, 12, 16, .bf16, 3⟩, .copy ⟨h0, 2, 10, 12, 16, .bf16, 3⟩, .copy ⟨h0, 0, 11, 12, 16, .bf16, 3⟩,
      .copy ⟨h0, 0, 10, 13, 16, .bf16, 3⟩, .copy ⟨h0, 0, 10, 12, 20, .bf16, 3⟩, .copy ⟨h0, 0, 10, 12, 16, .bf16, 2⟩,
      .copy ⟨h0, 0, 10, 12, 16, .bf16, 0x30⟩, .copy ⟨h0, 0, 10, 12, 16, .xf4, 0x10⟩, .gather ⟨h0, 3, 10, 12, 16, .bf16, 3⟩] = true ∧
    (Instr.scatter ⟨h0, 2, 10, 12, 16, .bf16, 3⟩).wf = true := by decide +kernel
theorem test_wf_selection : judged [.srank ⟨h0, 14, 10, 12, 16, .f16, 33⟩, .srank ⟨h0, 15, 10, 12, 16, .f16, 33⟩,
    .srank ⟨h0, 14, 11, 12, 16, .f16, 33⟩, .srank ⟨h0, 14, 10, 13, 16, .f16, 33⟩, .srank ⟨h0, 14, 10, 12, 16, .f16, 32⟩,
    .srank ⟨h0, 14, 10, 12, 20, .f16, 33⟩, .srank ⟨h0, 14, 10, 12, 16, .f16x2, 33⟩, .srank ⟨h0, 14, 10, 12, 16, .f16, 49⟩,
    .scmp ⟨h0, 14, 10, 12, 16, .f16, 6⟩, .scmp ⟨h0, 14, 10, 12, 16, .i4, 5⟩, .scmp ⟨h0, 14, 10, 13, 16, .f16, 5⟩] = true := by decide +kernel
theorem test_wf_fabric : judged [.coll ⟨h0, 0, 10, 12, 16, .f32, 7⟩, .coll ⟨h0, 2, 10, 12, 16, .f32, 7⟩, .coll ⟨h0, 0, 11, 12, 16, .f32, 7⟩,
    .coll ⟨h0, 0, 10, 13, 16, .f32, 7⟩, .coll ⟨h0, 0, 10, 12, 20, .f32, 7⟩, .coll ⟨h0, 0, 10, 12, 16, .f64, 0⟩,
    .coll ⟨h0, 0, 10, 12, 16, .f32, 8⟩, .coll ⟨h0, 0, 10, 12, 16, .i32, 3⟩, .msg ⟨h0, 1, 20, 22, 24, .f32, 0⟩, .msg ⟨h0, 0, 21, 22, 24, .f32, 0⟩,
    .msg ⟨h0, 0, 20, 22, 26, .f32, 0⟩, .msg ⟨h0, 0, 20, 22, 24, .i32, 0⟩, .msg ⟨h0, 0, 20, 22, 24, .f32, 1⟩] = true := by decide +kernel
theorem test_wf_tile : judged [.wld ⟨h0, 0, 20, 22, 24, .xf4, 3⟩, .wld ⟨h0, 1, 20, 22, 24, .xf4, 3⟩, .wld ⟨h0, 0, 21, 22, 24, .xf4, 3⟩,
    .wld ⟨h0, 0, 20, 23, 24, .xf4, 3⟩, .wld ⟨h0, 0, 20, 22, 25, .xf4, 3⟩, .wld ⟨h0, 0, 20, 22, 0, .f16, 3⟩, .wld ⟨h0, 0, 20, 22, 24, .f32, 3⟩,
    .wld ⟨h0, 0, 20, 22, 24, .mxe4m3, 3⟩, .wld ⟨h0, 0, 20, 22, 24, .xf4, 4⟩, .mma ⟨h0, 65, 2, false, true, .bf16, .rne, 1, true⟩,
    .mma ⟨h0, 64, 2, false, true, .xf4, .rne, 1, true⟩, .mma ⟨h0, 64, 2, false, true, .i8, .rtz, 1, true⟩] = true ∧
    (Instr.mma ⟨h0, 64, 2, false, true, .bf16, .rtz, 1, true⟩).wf = true := by decide +kernel
theorem test_wf_accumulator : judged [.accst ⟨h0, 0, 40, 2, 64, .f64, 63⟩, .accst ⟨h0, 1, 40, 2, 64, .f64, 63⟩, .accst ⟨h0, 0, 41, 2, 64, .f64, 63⟩,
    .accld ⟨h0, 0, 40, 2, 65, .f32, 63⟩, .accld ⟨h0, 0, 40, 2, 63, .f64, 63⟩, .accld ⟨h0, 0, 40, 2, 62, .f64, 62⟩, .accld ⟨h0, 0, 40, 2, 0, .n32, 0⟩,
    .accrd ⟨h0, 4, 1, 2, 0, .f32, 0⟩, .accrd ⟨h0, 4, 0, 2, 0, .i32, 0⟩, .accrd ⟨h0, 4, 0, 2, 127, .f32, 1⟩, .accz ⟨h0, 1, 0, 2, 0, .f32, 0⟩,
    .accz ⟨h0, 0, 2, 2, 0, .f32, 0⟩, .accz ⟨h0, 0, 0, 2, 0, .f16, 0⟩] = true ∧ (Instr.accrd ⟨h0, 5, 0, 2, 127, .f32, 0⟩).wf = true := by
  decide +kernel
theorem test_wf_special : judged [.movs h0 true 4 .time, .movs h0 true 5 .time, .movsm h0 .lane (.reg 1), .movsm h0 .mode (.lit 2 0)] = true ∧
    (Instr.movsm h0 .flags (.lit 0 0)).wf = true := by decide +kernel
theorem test_wf_post : judged [.launch ⟨h0, 0, 20, 0, 0, .f32, 15⟩, .launch ⟨h0, 0, 21, 0, 0, .f32, 15⟩, .launch ⟨h0, 0, 20, 1, 0, .f32, 15⟩,
    .launch ⟨h0, 0, 20, 0, 1, .f32, 15⟩, .launch ⟨h0, 0, 20, 0, 0, .f32, 16⟩, .launch ⟨h0, 1, 20, 0, 0, .f32, 15⟩, .launch ⟨h0, 0, 20, 0, 0, .n32, 15⟩,
    .evsig ⟨h0, 0, 6, 8, 0, .i32, 0⟩, .evsig ⟨h0, 0, 6, 9, 0, .n64, 0⟩, .evsig ⟨h0, 0, 6, 8, 0, .n32, 1⟩, .evsig ⟨h0, 0, 6, 8, 1, .n32, 0⟩,
    .evsig ⟨h0, 1, 6, 8, 0, .n32, 0⟩] = true ∧ (Instr.evsig ⟨h0, 0, 6, 8, 0, .n64, 0⟩).wf = true := by decide +kernel

def halfA (v s : Reg) (m : BitVec 3) : HalfArgs := ⟨true, v, s, m⟩

theorem test_wf_pair : judged [.pairAdd h0 (halfA 4 9 0) ⟨.fmul, halfA 6 10 1⟩, .pairAdd h0 (halfA 4 9 0) ⟨.fmul, halfA 6 13 1⟩,
    .pairAdd h0 (halfA 4 9 0) ⟨.fmul, halfA 4 10 1⟩, .pairAdd h0 (halfA 4 9 1) ⟨.fmul, halfA 6 10 1⟩,
    .pairAdd h0 (halfA 4 9 0) ⟨.fmul, halfA 6 10 6⟩, .pairMin h0 (halfA 4 9 2) ⟨.nop, ⟨false, 0, 0, 0⟩⟩,
    .pairShli h0 (halfA 4 32 0) ⟨.nop, ⟨false, 0, 0, 0⟩⟩, .pairShli h0 (halfA 4 31 1) ⟨.nop, ⟨false, 0, 0, 0⟩⟩,
    .pairAdd h0 (halfA 4 9 0) ⟨.nop, ⟨true, 0, 0, 0⟩⟩, .pairNop h0 ⟨false, 1, 0, 0⟩ ⟨.nop, ⟨false, 0, 0, 0⟩⟩,
    .pairNop h0 ⟨false, 0, 1, 0⟩ ⟨.nop, ⟨false, 0, 0, 0⟩⟩, .pairNop h0 ⟨false, 0, 0, 1⟩ ⟨.nop, ⟨false, 0, 0, 0⟩⟩] = true := by decide +kernel

/-! ## Results that the manual works out -/

/-- R102: 30000 + 40000 as n16, with and without saturation. -/
def add16 (sat : Sat) : Instr := .add ⟨h0, true, 3, 1, .lit 0 40000, 0, .n16, .rne, sat, false⟩
def sum16 : State := withRegs one [(0, 1, 30000)]

theorem test_add_saturates : reads (add16 .on) sum16 0 3 = some 0x0000FFFF ∧
    ((after (add16 .on) sum16).bind fun t => t.group 0).map (·.flags) = some 0x20 := by decide +kernel
theorem test_add_wraps : reads (add16 .off) sum16 0 3 = some 4464 ∧
    ((after (add16 .off) sum16).bind fun t => t.group 0).map (·.flags) = some 0 := by decide +kernel

/-- R123: 2^24, 1, 1 and −2^24. -/
def terms : State := withRegs (wide 4) [(0, 4, 0x4B800000), (1, 4, 0x3F800000), (2, 4, 0x3F800000), (3, 4, 0xCB800000)]

theorem test_red_rounds_once : reads (.red (opX 6 4 .f32 0)) terms 3 6 = some 0x40000000 := by decide +kernel
theorem test_scan_rounds_each : (List.range 4).map (fun l => reads (.scan (opX 6 4 .f32 0)) terms l 6) =
    [some 0x4B800000, some 0x4B800000, some 0x4B800001, some 0x40000000] := by decide +kernel

/-- R145, R146: the team stands on core 263, its scratchpad at 0x0C_0000 of vault 17 of die 2. -/
def onCore (c : Nat) : State :=
  let s := withRegs one [(0, 4, 0x00001230), (0, 5, 0xA2008380)]
  { s.onTeam 0 (fun tm => { tm with core := c, sUnit := 12, sUnits := 1 }) with
    runs := [(unitKey c 0, ⟨0, 0, 0, false⟩)], cur := (c, 0) }

theorem test_spcast_to_vault : reads (.spcast ⟨h0, true, 6, 4, 4⟩) (onCore 263) 0 6 = some 0x000C1230 ∧
    reads (.spcast ⟨h0, true, 6, 4, 4⟩) (onCore 263) 0 7 = some 0xA400A200 := by decide +kernel
theorem test_sptest_tag : reads (.sptest ⟨h0, true, 6, 4, 2⟩) (onCore 263) 0 6 = some 0x1A ∧
    reads (.sptest ⟨h0, true, 6, 4, 2⟩) (onCore 262) 0 6 = some 0x12 := by decide +kernel

/-- R21: the block whose first values are 0.5, 1.25, −3.0, 10.0 and 0.3. -/
theorem test_xf4_block : quantXf4 ((natsFrom 0 32).map fun i =>
      decodeF .f32 ([0x3F000000, 0x3FA00000, 0xC0400000, 0x41200000, 0x3E99999A].getD i 0)) =
    ([0, 1, 11, 8] ++ List.replicate 28 0, 128, 0x4A, 0x10) := by decide +kernel

/-- R215: columns 0 and 1 of the row worked through in the manual. -/
theorem test_matrix_row :
    let env : FEnv := ⟨.rne, false, false, false, false, 0⟩
    let pad (xs : List Nat) : OpRow := ⟨xs ++ List.replicate (128 - xs.length) 0, [], []⟩
    cellResult .h .bf16 .bf16 env (pad [0x3F80, 0x3980, 0x3080]) (pad [0x3F80, 0x3980, 0x3080]) (some 0) = (0x3F800000, 0x10) ∧
    cellResult .h .bf16 .bf16 env (pad [0x3F80, 0x3980, 0x3080]) (pad [0x3F80]) (some 0x26800000) = (0x3F800000, 0x90) := by
  decide +kernel

/-- R166: the key of blocks 1 and 2, h = 4. The die chapter's example: 0x70_0012_3480 lies in stack 7 on die 2. -/
theorem test_hash_index : hashSet [1, 2] 4 = 1 := by decide +kernel
theorem test_stack_of_address : stackOf 0x7000123480 = 7 ∧ dieOfStack 7 = 2 := by decide +kernel

/-- R380: the maximum of (2.25, 3), (2.5, 130), (2.5, 77) and (−∞, 200) with index bytes. -/
theorem test_fold_max_with_index : foldBytes .f32 3 1
    [leBytes 0x40100000 4 ++ leBytes 3 4, leBytes 0x40200000 4 ++ leBytes 130 4, leBytes 0x40200000 4 ++ leBytes 77 4,
      leBytes 0xFF800000 4 ++ leBytes 200 4] = (leBytes 0x40200000 4 ++ leBytes 77 4, 0) := by decide +kernel

/-! ## For the hypotheses of every statement a state and operands that meet them -/

/-- An option holds a value with a property. -/
theorem got {α : Type} {o : Option α} {P : α → Prop} [DecidablePred P]
    (h : (match o with | some x => decide (P x) | none => false) = true) : ∃ x, o = some x ∧ P x := by
  cases o with
  | none => cases h
  | some x => exact ⟨x, rfl, of_decide_eq_true h⟩

theorem meets {h : Hdr} {region : Option (BitVec 16)} {regs rd : List (Nat × Nat)} {s : State} {P : Env → Prop}
    [DecidablePred P] (hp : okEnv h region regs rd s (fun e => decide (P e)) = true) :
    ∃ e, Ready h region regs rd s e ∧ P e := by
  obtain ⟨e, he, h⟩ := ready_of_okEnv hp
  exact ⟨e, he, of_decide_eq_true h⟩

theorem meetsLane {i : Instr} {s : State} {P : Env → Prop} [DecidablePred P]
    (hp : okLane i s (fun e => decide (P e)) = true) : ∃ w e, LaneReady i w s e ∧ P e := by
  obtain ⟨w, e, he, h⟩ := lane_of_okLane hp
  exact ⟨w, e, he, of_decide_eq_true h⟩

theorem meetsEnv {m : BitVec 8} {s : State} {P : Env → Prop} [DecidablePred P]
    (hp : hasEnv m s (fun e => decide (P e)) = true) : ∃ e, s.env m = some e ∧ P e := by
  obtain ⟨e, he, h⟩ := env_of_hasEnv hp
  exact ⟨e, he, of_decide_eq_true h⟩

/-- Bytes in memory. -/
def withMem (s : State) (a : Nat) (bs : List Byte) : State := { s with mem := Memory.putBytes s.mem a bs }
theorem withMem_mem (s : State) (a : Nat) (bs : List Byte) : (withMem s a bs).mem = Memory.putBytes s.mem a bs := rfl

/-- A number in memory. -/
def withNum (s : State) (a n v : Nat) : State := withMem s a (leBytes v n)

/-- A change of the placed module. -/
def onModule (s : State) (f : Module → Module) : State := { s with modules := s.modules.update 0 f }

/-- Bytes of the launch record of the placed launch. -/
def withRecord (s : State) (off n v : Nat) : State :=
  s.onLaunch 0 fun l => { l with record := l.record.take off ++ leBytes v n ++ l.record.drop (off + n) }

/-- Four lanes, the second one with other values. -/
def four : State := withRegs (wide 4) [(0, 4, 0x40000000), (1, 4, 0x7FFFFFFF), (0, 6, 0xFFFF), (1, 6, 5), (0, 8, 1), (1, 8, 2)]

theorem meets_EncodeDecodeAgree : (Instr.add iOp).wf = true := by decide +kernel

theorem meets_FormAndEmptyMaskComeFirst :
    num (0x6000000000000000 : Dword) 61 2 = 3 ∧
    (num (0x2000000000000001 : Dword) 61 2 = 1 ∧ (0x2000000000000001 : Dword).getLsbD 0 = true) ∧
    (num (0x2000000000000000 : Dword) 61 2 ≠ 3 ∧
      ¬ (num (0x2000000000000000 : Dword) 61 2 = 1 ∧ (0x2000000000000000 : Dword).getLsbD 0 = true) ∧
      num (0x2000000000000000 : Dword) 53 8 = 0) ∧
    (num (0x4000000000000001 : Dword) 61 2 = 2 ∧ num (0x4000000000000001 : Dword) 53 8 = 0) := by decide +kernel

/-- A placed `add.i32`, about to be issued. -/
def placed : State := State.reset.withFetchWord 64 0x0020002808100480

theorem meets_StepRunsTheFetchedWord : ∃ s0 : State, ∃ p : At,
    placed.agenda = .issue 0 0 :: [] ∧ s0 = { placed with agenda := [], seq := placed.seq + 1, cur := (0, 0) } ∧
    s0.position 0 0 = some p ∧ s0.outside p = false ∧ s0.wordOf p 0 = 0x0020002808100480 ∧
    ¬ (num (0x0020002808100480 : Dword) 61 2 = 2 ∧ p.run.words = 23) ∧ s0.badFetch p = false ∧
    (∀ b ∈ s0.bodies p.core, b.covers p.handle p.st p.off = false) ∧
    decode 0x0020002808100480 (s0.wordOf p 1) = .ok (.add ⟨h0, false, 5, 1, .reg 2, 0, .i32, .rne, .off, false⟩) := by
  refine ⟨{ placed with agenda := [], seq := placed.seq + 1, cur := (0, 0) }, ?_⟩
  obtain ⟨p, hp, h⟩ := got (o := ({ placed with agenda := [], seq := placed.seq + 1, cur := (0, 0) } : State).position 0 0)
    (P := fun p => let s0 : State := { placed with agenda := [], seq := placed.seq + 1, cur := (0, 0) }
      s0.outside p = false ∧ s0.wordOf p 0 = 0x0020002808100480 ∧
      ¬ (num (0x0020002808100480 : Dword) 61 2 = 2 ∧ p.run.words = 23) ∧ s0.badFetch p = false ∧
      (∀ b ∈ s0.bodies p.core, b.covers p.handle p.st p.off = false) ∧
      decode 0x0020002808100480 (s0.wordOf p 1) = .ok (.add ⟨h0, false, 5, 1, .reg 2, 0, .i32, .rne, .off, false⟩))
    (by decide +kernel)
  exact ⟨p, by decide +kernel, rfl, hp, h⟩

theorem meets_StepRunsTheAgendaEvent : ∃ s : State, s.agenda = .event (.groupRetire 0) :: [] ∧
    (Instr.groupRetire 0).hdr = none := ⟨{ one with agenda := [.event (.groupRetire 0)] }, by decide +kernel⟩

/-- The gang stands at an offset of its state, whose code has two words. -/
def atOffset (s : State) (n : Nat) : State :=
  s.onGroup 0 fun g => g.onSlices (fun _ => true) fun x => { x with off := BitVec.ofNat 16 n }

theorem meets_FetchFaults_past : ∃ e p, (atOffset one 2).env 1 = some e ∧ (atOffset one 2).position 0 0 = some p ∧
    (atOffset one 2).outside p = true := by
  obtain ⟨e, he, -⟩ := meetsEnv (m := 1) (s := atOffset one 2) (P := fun _ => True) (by decide +kernel)
  obtain ⟨p, hp, h⟩ := got (o := (atOffset one 2).position 0 0) (P := fun p => (atOffset one 2).outside p = true)
    (by decide +kernel)
  exact ⟨e, p, he, hp, h⟩

theorem meets_FetchFaults_form : ∃ e, one.env h0.m = some e ∧ True := meetsEnv (by decide +kernel)

/-- State 0 has one slot only. -/
def oneSlot : State := withNum one 0x12006 1 1

theorem meets_MemberAndFrameFaults_member : ∃ e, oneSlot.env 2 = some e ∧ 2 ^ e.slots.length ≤ (2 : BitVec 8).toNat :=
  meetsEnv (by decide +kernel)

/-- Two lanes whose frame has 8 registers. -/
def small : State :=
  { one with groups := one.groups.put 0 (startGroup 0 0 0 16 2 0 0 8 0 0 0 []) }

theorem meets_MemberAndFrameFaults_frame : ∃ e, small.env 1 = some e ∧
    (laneWordOf (.add (opA 8 4 6 0 .i32)) = some ⟨h0, true, 1, (8, 1), [(4, 1), (6, 1)]⟩ ∧
     (1 : BitVec 8) ≠ 0 ∧ (1 : BitVec 8).toNat < 2 ^ e.slots.length ∧ 0 ∈ e.lanes ∧
     (∃ x ∈ [(8, 1), (4, 1), (6, 1)], e.g.frameSize (e.g.lane 0).depth.toNat < x.1 + x.2) ∧
     ∀ l' ∈ e.lanes, l' < 0 → ∀ x ∈ [(8, 1), (4, 1), (6, 1)], x.1 + x.2 ≤ e.g.frameSize (e.g.lane l').depth.toNat) :=
  meetsEnv (by decide +kernel)

theorem meets_NopDoesNothing : ∃ e, Ready h0 none [] [] one e ∧ one.env (0 : BitVec 8) = one.env 0 :=
  meets (by decide +kernel)

theorem meets_LaneWordsComplete : ∃ w e, LaneReady (.fma (opA 4 6 8 10 .f32)) w four e ∧
    (1 ∈ e.lanes ∧ (e.g.frames.find (e.g.lane 1).depth.toNat).isSome) := meetsLane (by decide +kernel)

/-- An `add.n16` with saturation. -/
def satAdd16 : Instr := .add { opA 10 6 8 0 .n16 with sat := .on }

theorem meets_IntegerResults_clamped : ∃ w e, LaneReady satAdd16 w four e ∧
    (resolveSat e.g.mode .on = true ∧ ∃ l ∈ e.lanes,
      intVal .n16 (e.val 0 .n16 l 6) + intVal .n16 (e.src 1 .n16 l (.reg 8)) = greatestOf .n16 + 1) :=
  meetsLane (by decide +kernel)

theorem meets_IntegerResults_least : ∃ w e, LaneReady satAdd16 w (withRegs one [(0, 6, 0xFFFF), (0, 8, 0)]) e ∧
    ∀ l ∈ e.lanes, intVal .n16 (e.val 0 .n16 l 6) + intVal .n16 (e.src 1 .n16 l (.reg 8)) = greatestOf .n16 :=
  meetsLane (by decide +kernel)

theorem meets_LogicAndShiftResults_logic : ∃ w e, LaneReady (.andn (opA 10 6 8 0 .i32)) w four e ∧ True :=
  meetsLane (by decide +kernel)

theorem meets_LogicAndShiftResults_shift :
    (∃ w e, LaneReady (.shl { opA 10 4 6 0 .i32 with x := true }) w four e ∧ ∃ l ∈ e.lanes, 32 ≤ e.src 1 .n32 l (.reg 6)) ∧
    ∃ w e, LaneReady (.ror (opA 10 4 6 0 .i8)) w four e ∧ ∃ l ∈ e.lanes, 8 ≤ e.src 1 .n32 l (.reg 6) :=
  ⟨meetsLane (by decide +kernel), meetsLane (by decide +kernel)⟩

theorem meets_FieldAndCountResults :
    (∃ w e, LaneReady (.bfx (opA 10 4 6 0 .i32)) w (withRegs one [(0, 4, 0), (0, 6, 0x0120)]) e ∧
      ∃ l ∈ e.lanes, bitField 32 (e.src 1 .n32 l (.reg 6)) = (0, 32)) ∧
    (∃ w e, LaneReady (.bfi (opA 10 4 8 6 .i32)) w (withRegs four [(0, 8, 0x1F1F)]) e ∧
      ∃ l ∈ e.lanes, bitField 32 (e.src 1 .n32 l (.reg 8)) = (1, 31)) ∧
    (∃ w e, LaneReady (.popc (opA 10 4 0 0 .i64)) w four e ∧ True) ∧
    (∃ w e, LaneReady (.clz (opA 10 4 0 0 .i32)) w four e ∧ ∃ l ∈ e.lanes, e.val 0 .i32 l 4 = 2 ^ 30) ∧
    (∃ w e, LaneReady (.ctz (opA 10 4 0 0 .i32)) w (withRegs one [(0, 4, 0)]) e ∧ ∃ l ∈ e.lanes, e.val 0 .i32 l 4 = 0) ∧
    ∃ w e, LaneReady (.brev (opA 10 4 0 0 .n8)) w four e ∧ True := by
  refine ⟨meetsLane ?_, meetsLane ?_, meetsLane ?_, meetsLane ?_, meetsLane ?_, meetsLane ?_⟩ <;> decide +kernel

theorem meets_CompareSelectMove :
    (∃ w e, LaneReady (.cmp (opC 10 4 6 .i32 .le)) w (withRegs one [(0, 4, 7), (0, 6, 7)]) e ∧
      ∀ l ∈ e.lanes, e.val 0 .i32 l 4 = e.src 1 .i32 l (.reg 6)) ∧
    (∃ w e, LaneReady (.sel (opA 10 4 6 8 .f16x2)) w (withRegs one [(0, 8, 0x10000)]) e ∧
      ∀ l ∈ e.lanes, (e.reg 2 l 8).extractLsb' 0 16 = 0 ∧ (e.reg 2 l 8).extractLsb' 16 16 ≠ 0) ∧
    (∃ w e, LaneReady (.sel (opA 10 4 6 8 .f64)) w (withRegs one [(0, 8, 0)]) e ∧ ∀ l ∈ e.lanes, e.reg 2 l 8 = 0) ∧
    ∃ w e, LaneReady (.mov (opA 10 0 6 0 .i64)) w four e ∧ True :=
  ⟨meetsLane (by decide +kernel), meetsLane (by decide +kernel), meetsLane (by decide +kernel), meetsLane (by decide +kernel)⟩

/-- The last byte of a core's scratchpad field. -/
def lastByte : State := withRegs one [(0, 4, 0x00FFFFFF), (0, 5, 0xA2000000), (0, 6, 1), (0, 8, 1)]

theorem meets_AddressArithmetic :
    (∃ w e, LaneReady (.adda { opA 10 4 6 0 .i32 with x := true }) w lastByte e ∧
      ∀ l ∈ e.lanes, offsetBits (e.pair 0 l 4 / 2 ^ 56) = some 24 ∧ e.pair 0 l 4 % 2 ^ 24 = 2 ^ 24 - 1) ∧
    (∃ w e, LaneReady (.addsc (opA 10 4 6 8 .n32)) w lastByte e ∧ ∀ l ∈ e.lanes, e.reg1 2 l 8 = 1) ∧
    ∃ w e, LaneReady (.adda (opA 10 4 6 0 .n32)) w (withRegs one [(0, 4, 0xFFFFFFFF), (0, 5, 0xFFFFFFFF), (0, 6, 1)]) e ∧
      ∀ l ∈ e.lanes, offsetBits (e.pair 0 l 4 / 2 ^ 56) = none :=
  ⟨meetsLane (by decide +kernel), meetsLane (by decide +kernel), meetsLane (by decide +kernel)⟩

theorem meets_SignAndClassResults :
    (∃ w e, LaneReady (.fabs (opA 10 4 0 0 .f64)) w four e ∧ True) ∧
    (∃ w e, LaneReady (.fneg { opA 10 4 0 0 .bf16x2 with x := true }) w four e ∧ True) ∧
    ∃ w e, LaneReady (.fclass (opA 10 4 0 0 .f32)) w four e ∧ Fmt.f32.isFloat = true :=
  ⟨meetsLane (by decide +kernel), meetsLane (by decide +kernel), meetsLane (by decide +kernel)⟩

/-- A signalling NaN and 1. -/
def withNan : State := withRegs one [(0, 4, 0xFF800001), (0, 6, 0x3F800000)]

theorem meets_NanAndUnorderedResults :
    (∃ w e, LaneReady (.fadd (opA 10 6 4 0 .f32)) w withNan e ∧
      (Fmt.f32.isFloat = true ∧ e.g.mode.getLsbD 6 = false ∧
        ∀ l ∈ e.lanes, (decodeF .f32 (e.src 1 .f32 l (.reg 4))).isSnan = true)) ∧
    ∃ w e, LaneReady (.fcmp { opC 10 6 4 .f32 .unord with sig := true }) w withNan e ∧ Fmt.f32.isFloat = true :=
  ⟨meetsLane (by decide +kernel), meetsLane (by decide +kernel)⟩

theorem meets_CrossLaneResults :
    (∃ w e, LaneReady (.ballot (opX 10 4 .n64 0)) w four e ∧ True) ∧
    (∃ w e, LaneReady (.matchLanes (opX 10 4 .i32 0)) w four e ∧ True) ∧
    (∃ w e, LaneReady (.any (opX 10 4 .n32 0)) w four e ∧ True) ∧
    (∃ w e, LaneReady (.all (opX 10 4 .n32 0)) w four e ∧ True) ∧
    ∃ w e, LaneReady (.shfl { opX 10 4 .i32 1 with vb := .reg 8 }) w four e ∧
      (((0 : Nat) : Int) - e.src 1 .n32 0 (.reg 8) = -1 ∧ 0 ∈ e.lanes) :=
  ⟨meetsLane (by decide +kernel), meetsLane (by decide +kernel), meetsLane (by decide +kernel), meetsLane (by decide +kernel),
    meetsLane (by decide +kernel)⟩

theorem meets_SumsOverLanes :
    (∃ w e, LaneReady (.red (opX 10 4 .i32 0)) w four e ∧ Fmt.i32.isInt = true) ∧
    ∃ w e, LaneReady (.scan { opX 10 4 .n64 0 with x := 1 }) w four e ∧ Fmt.n64.isInt = true :=
  ⟨meetsLane (by decide +kernel), meetsLane (by decide +kernel)⟩

theorem meets_SpecialReadsAndWrites :
    (∃ w e, LaneReady (.movs h0 true 4 .time) w four e ∧ True) ∧
    (∃ e, Ready h0 none (srcSpan false (.reg 4)) (srcSpan false (.reg 4)) (withRegs one [(0, 4, 6)]) e ∧
      (e.lanes = [0] ∧ e.src 1 .n32 0 (.reg 4) = 6)) ∧
    ∃ e, Ready ⟨false, 2⟩ none (srcSpan false (.reg 4)) (srcSpan false (.reg 4)) one e ∧ e.lanes = [] :=
  ⟨meetsLane (by decide +kernel), meets (by decide +kernel), meets (by decide +kernel)⟩

theorem meets_WindowTest : ∃ w e, LaneReady (.sptest ⟨h0, true, 10, 4, 2⟩) w lastByte e ∧ 0 ∈ e.lanes :=
  meetsLane (by decide +kernel)

theorem meets_PairWordsComplete :
    let a : Half := ⟨.add, halfA 4 6 0⟩
    let b : Half := ⟨.fmul, halfA 6 4 0⟩
    (Instr.pairAdd h0 a.args b).halves = some (h0, a, b) ∧ (Instr.pairAdd h0 a.args b).wf = true ∧
    ∃ e, Ready h0 none (halfRegs a ++ halfRegs b) (halfRegs a ++ halfRegs b) four e ∧
      (a.op ≠ .nop ∧ b.op ≠ .nop ∧ ∀ l ∈ e.lanes, (halfValue a (e.reg 0 l 4) (e.reg 1 l 6)).isSome) :=
  ⟨by decide +kernel, by decide +kernel, meets (by decide +kernel)⟩

theorem meets_StepKeepsMemoryCanonical : Memory.wf placed.mem = true ∧ ∃ t, step placed = .next t := by
  refine ⟨by decide +kernel, ?_⟩
  cases h : step placed with
  | next t => exact ⟨t, rfl⟩
  | fault r =>
    have : (match step placed with | .next _ => true | _ => false) = true := by decide +kernel
    rw [h] at this; cases this
  | refused r =>
    have : (match step placed with | .next _ => true | _ => false) = true := by decide +kernel
    rw [h] at this; cases this

theorem meets_BranchesSetNxt :
    (∃ e, Ready h0 none [] [] four e ∧ True) ∧
    (∃ e, Ready h0 none [span false 4] [span false 4] four e ∧ True) ∧
    (∃ e, Ready h0 none [span false 4] [span false 4] (withRegs (wide 2) [(0, 4, 7), (1, 4, 0xFFF)]) e ∧
      ∀ l ∈ e.lanes, BitVec.ofNat 12 (e.reg1 0 l 4) = 0xFFF ∨ (BitVec.ofNat 12 (e.reg1 0 l 4)).toNat < e.md.nBlocks) ∧
    ∃ e, Ready h0 none [span false 4] [span false 4] (withRegs (wide 2) [(0, 4, 7), (1, 4, 8)]) e ∧
      (1 ∈ e.lanes ∧ (BitVec.ofNat 12 (e.reg1 0 1 4) ≠ 0xFFF ∧ e.md.nBlocks ≤ (BitVec.ofNat 12 (e.reg1 0 1 4)).toNat) ∧
        ∀ j ∈ e.lanes, j < 1 →
          ¬ (BitVec.ofNat 12 (e.reg1 0 j 4) ≠ 0xFFF ∧ e.md.nBlocks ≤ (BitVec.ofNat 12 (e.reg1 0 j 4)).toNat)) :=
  ⟨meets (by decide +kernel), meets (by decide +kernel), meets (by decide +kernel), meets (by decide +kernel)⟩

/-- Every block from 0 to 7 has state 0 as its singleton state. -/
def withBlocks (s : State) : State := withMem s 0x13000 ((List.range 8).flatMap fun _ => leBytes (2 ^ 31) 4)

/-- `nxt` of the lanes 0, 1, … of group 0. -/
def withNxt (s : State) (bs : List (BitVec 12)) : State :=
  s.onGroup 0 fun g => g.onLanes fun i l => { l with nxt := bs.getD i l.nxt }

def found (s : State) (m : Module) (set : List Nat) : Bool :=
  match s.lookup m set with
  | .found _ => true
  | _ => false

theorem canArrive {s : State} {e : Env} {blk : Nat → BitVec 12} (h : e.g.awaiting = [] ∧
    (blockSet e blk e.slices = [] ∨ found s e.md (blockSet e blk e.slices) = true)) : CanArrive s e blk := by
  refine ⟨h.1, h.2.imp_right fun x => ?_⟩
  unfold found at x
  split at x
  · exact ⟨_, ‹_›⟩
  · cases x

/-- Votes: all lanes into block 3; a peeling gang at `regang`; the last lanes exit. -/
theorem meets_VotesArrive :
    (∃ e, Ready h0 none [] [] (withNxt (withBlocks (wide 2)) [3, 3]) e ∧
      CanArrive (withNxt (withBlocks (wide 2)) [3, 3]) e (votedBlk e)) ∧
    (∃ e, Ready h0 none [] [] (withNxt ((withBlocks one).onGroup 0 fun g => g.setStatus [0] .peel) [3]) e ∧
      ((∃ j ∈ e.slices, (e.g.slice j).status = .peel) ∧
        CanArrive (withNxt ((withBlocks one).onGroup 0 fun g => g.setStatus [0] .peel) [3]) e (votedBlk e))) ∧
    ∃ e, Ready h0 none [] [] (wide 2) e ∧ CanArrive (wide 2) e (fun l => if l ∈ e.lanes then 0xFFF else votedBlk e l) := by
  refine ⟨?_, ?_, ?_⟩
  · obtain ⟨e, h, p⟩ := meets (h := h0) (region := none) (regs := []) (rd := []) (s := withNxt (withBlocks (wide 2)) [3, 3])
      (P := fun e => e.g.awaiting = [] ∧ (blockSet e (votedBlk e) e.slices = [] ∨
        found (withNxt (withBlocks (wide 2)) [3, 3]) e.md (blockSet e (votedBlk e) e.slices) = true)) (by decide +kernel)
    exact ⟨e, h, canArrive p⟩
  · obtain ⟨e, h, p⟩ := meets (h := h0) (region := none) (regs := []) (rd := [])
      (s := withNxt ((withBlocks one).onGroup 0 fun g => g.setStatus [0] .peel) [3])
      (P := fun e => (∃ j ∈ e.slices, (e.g.slice j).status = .peel) ∧ e.g.awaiting = [] ∧
        (blockSet e (votedBlk e) e.slices = [] ∨
        found (withNxt ((withBlocks one).onGroup 0 fun g => g.setStatus [0] .peel) [3]) e.md
          (blockSet e (votedBlk e) e.slices) = true)) (by decide +kernel)
    exact ⟨e, h, p.1, canArrive p.2⟩
  · obtain ⟨e, h, p⟩ := meets (h := h0) (region := none) (regs := []) (rd := []) (s := wide 2)
      (P := fun e => e.g.awaiting = [] ∧ (blockSet e (fun l => if l ∈ e.lanes then 0xFFF else votedBlk e l) e.slices = [] ∨
        found (wide 2) e.md (blockSet e (fun l => if l ∈ e.lanes then 0xFFF else votedBlk e l) e.slices) = true))
      (by decide +kernel)
    exact ⟨e, h, canArrive p⟩

theorem meets_AbsentSetsPartOrPeel_part : ∃ e, Ready h0 none [] [] (withNxt (withBlocks (wide 5)) [0, 0, 0, 0, 1]) e ∧
    (let s := withNxt (withBlocks (wide 5)) [0, 0, 0, 0, 1]
     e.g.awaiting = [] ∧ blockSet e (votedBlk e) e.slices = [0, 1] ∧ s.lookup e.md [0, 1] = .absent ∧ 2 ≤ e.slices.length ∧
     ∀ i ∈ e.slices, blockSet e (votedBlk e) [i] ≠ [] ∧ found s e.md (blockSet e (votedBlk e) [i]) = true) :=
  meets (by decide +kernel)

theorem meets_AbsentSetsPartOrPeel_peel : ∃ e, Ready h0 none [] [] (withNxt (withBlocks (wide 2)) [1, 0]) e ∧
    (let s := withNxt (withBlocks (wide 2)) [1, 0]
     e.g.awaiting = [] ∧ blockSet e (votedBlk e) e.slices = [0, 1] ∧ s.lookup e.md [0, 1] = .absent ∧ e.slices = [0] ∧
     (∀ l < 4, votedBlk e l ≠ 0xFFF → (e.g.lane l).sweep = false) ∧ votedBlk e 1 = 0 ∧ (e.g.slice 0).cursor = 0 ∧
     (∀ l < 4, votedBlk e l ≠ 0xFFF → (e.g.slice 0).cursor ≤ 0 ∧ (0 : BitVec 12) ≤ votedBlk e l) ∧ s.lookup e.md [0] = .found 0) :=
  meets (by decide +kernel)

/-- Two lone slices; the kernel's patience is 9. -/
def twoGangs : State :=
  (wide 8).onGroup 0 (fun g => { g with slices := mapIdxFrom 0 (fun i x => { x with tag := BitVec.ofNat 4 i }) g.slices })
    |>.onLaunch 0 fun l => { l with kernel := l.kernel.take 14 ++ leBytes 9 2 ++ l.kernel.drop 16 }

theorem meets_RegangWaits :
    (∃ e, Ready h0 none [] [] twoGangs e ∧ ((∀ i ∈ e.slices, (e.g.slice i).status ≠ .peel) ∧
      (1 < e.g.slices.length ∧ 1 ∉ e.slices ∧ (e.g.slice 1).status ≠ .done ∧ (e.g.slice 1).status ≠ .await) ∧
      (9 : BitVec 16) ≠ 0 ∧ e.g.awaiting = [] ∧ 9 = BitVec.ofNat 16 (field e.la.kernel 0x0E 2))) ∧
    ∃ e, Ready h0 none [] [] ((wide 12).onGroup 0 fun g => { g with slices := mapIdxFrom 0 (fun i x =>
        { x with tag := BitVec.ofNat 4 i, status := if i = 2 then .await else x.status, patience := 1 }) g.slices }) e ∧
      ((∀ i ∈ e.slices, (e.g.slice i).status ≠ .peel) ∧
      (1 < e.g.slices.length ∧ 1 ∉ e.slices ∧ (e.g.slice 1).status ≠ .done ∧ (e.g.slice 1).status ≠ .await) ∧
      (1 : BitVec 16) ≠ 0 ∧ e.g.awaiting = [2] ∧ 1 = (e.g.slice 2).patience) :=
  ⟨meets (by decide +kernel), meets (by decide +kernel)⟩

/-- The gang of group 0 in loops, outermost first. -/
def inLoops (s : State) (ls : List LoopEntry) : State :=
  s.onGroup 0 fun g => { g with slices := g.slices.map fun x => { x with loops := ls } }

theorem meets_PositionsAndBackEdges :
    (∃ e, Ready h0 none [] [] (inLoops one [⟨3, 0, 1⟩]) e ∧
      ∀ j ∈ e.slices, (e.g.slice j).loops.getLast? = some ⟨3, 0, 1⟩ ∧ ¬ (1 < (e.g.slice j).off.toNat + 1)) ∧
    (∃ e, Ready h0 none [] [] (inLoops one [⟨3, 0, 1⟩]) e ∧
      ∀ j ∈ e.slices, (e.g.slice j).off.toNat ≤ 1 ∧ 1 < (e.g.slice j).off.toNat + 2) ∧
    (∃ e, Ready h0 none [] [] (inLoops one [⟨3, 0, 1⟩, ⟨1, 0, 0⟩]) e ∧
      ∀ j ∈ e.slices, (e.g.slice j).loops = [⟨3, 0, 1⟩] ++ [⟨1, 0, 0⟩] ∧ (e.g.slice j).off.toNat ≤ 0 ∧
        ¬ (1 < (e.g.slice j).off.toNat + 1)) ∧
    (∃ w e, LaneReady (.add iOp) w (inLoops four [⟨2, 0, 0⟩]) e ∧ ∀ j ∈ e.slices, (e.g.slice j).loops = [] ++ [⟨2, 0, 0⟩]) ∧
    ∃ e, one.env (0 : BitVec 8) = some e ∧ True :=
  ⟨meets (by decide +kernel), meets (by decide +kernel), meets (by decide +kernel), meetsLane (by decide +kernel),
    meetsEnv (by decide +kernel)⟩

theorem meets_LoopsPushAndYieldEndsTheRun :
    (∃ e, Ready h0 none [span false 4] [span false 4] (withRegs (wide 2) [(0, 4, 0), (1, 4, 2)]) e ∧
      ((e.g.slice (e.slices.headD 0)).loops.length < 3 ∧ e.off < (1 : BitVec 16).toNat ∧
        (1 : BitVec 16).toNat < (withRegs (wide 2) [(0, 4, 0), (1, 4, 2)]).stateLen e.md e.st ∧
        (e.g.slice (e.slices.headD 0)).loops.getLast? = none)) ∧
    (∃ e, Ready h0 none [span false 4] [span false 4] (inLoops (withRegs one [(0, 4, 1)]) [⟨3, 0, 1⟩, ⟨2, 0, 1⟩]) e ∧
      ((e.g.slice (e.slices.headD 0)).loops.length < 3 ∧ e.off < (1 : BitVec 16).toNat ∧
        (1 : BitVec 16).toNat < (inLoops (withRegs one [(0, 4, 1)]) [⟨3, 0, 1⟩, ⟨2, 0, 1⟩]).stateLen e.md e.st ∧
        (e.g.slice (e.slices.headD 0)).loops.getLast? = some ⟨2, 0, 1⟩ ∧ (1 : BitVec 16) ≤ 1)) ∧
    ∃ e, Ready h0 none [] [] one e ∧ True :=
  ⟨meets (by decide +kernel), meets (by decide +kernel), meets (by decide +kernel)⟩

/-! ### Calls -/

/-- Function 0: block 2, 16 registers, 2 arguments and 1 result from v4 up; it is also the trap function. -/
def withFn (s : State) : State :=
  withNum (onModule (withBlocks s) fun m => { m with nDescrs := 1, trap := 0 }) 0x15000 8
    (2 + 1 * 2 ^ 16 + 4 * 2 ^ 24 + 2 * 2 ^ 32 + 1 * 2 ^ 40)

/-- The hypotheses of a call of function 0 by the lanes of `withFn (wide 2)`. -/
def callMeets (e : Env) (args : Bool) : Prop :=
  let s := withFn (wide 2)
  let blk (l : Nat) : BitVec 12 := if l ∈ e.lanes then BitVec.ofNat 12 (s.descr e.md 0).entry else votedBlk e l
  e.lanes = [0, 1] ∧ (∀ l ∈ e.lanes, 0 < e.md.nDescrs ∧ (e.g.lane l).depth.toNat < 255 ∧
    (args = true → (s.descr e.md 0).argbase + (s.descr e.md 0).nargs ≤ e.g.frameSize (e.g.lane l).depth.toNat ∧
      e.laneEcc s.latent [((s.descr e.md 0).argbase, (s.descr e.md 0).nargs)] l = false) ∧
    ∀ fr ∈ e.g.frames.find ((e.g.lane l).depth.toNat + 1), fr.place = .pool) ∧
  e.md.trap ≠ 0xFFFF ∧ e.tm.requests = [] ∧ callGranules s e (fun _ => 0) ≤ s.freeGranules e.g.team ∧
  e.g.awaiting = [] ∧ (blockSet e blk e.slices = [] ∨ found s e.md (blockSet e blk e.slices) = true)

theorem meets_CallsEnterFunctions :
    (∃ e, Ready h0 none [] [] (withFn (wide 2)) e ∧ callMeets e true) ∧
    (∃ e, Ready h0 none [span false 6] [span false 6] (withRegs (withFn (wide 2)) [(0, 6, 0), (1, 6, 0)]) e ∧
      ∀ l ∈ e.lanes, e.reg1 0 l 6 = 0) ∧
    ∃ e, Ready ⟨false, 2⟩ none [] [] one e ∧ e.lanes = [] := by
  refine ⟨?_, meets (by decide +kernel), meets (by decide +kernel)⟩
  unfold callMeets
  exact meets (by decide +kernel)

/-- Lane 0 has called function 0 from block 3, lane 1 stands at depth 0. -/
def inFn : State :=
  ((withFn (wide 2)).onGroup 0 fun g => g.onLanes fun i l => if i = 0 then { l with blk := 0, depth := 1 } else l).onGroup 0
    fun g => { g with frames := g.frames.put 1 ⟨[7, 8], [], [(0, ⟨3, 0⟩)], [], 0, .pool⟩ }

theorem frameSize_le {g : Group} (h : ∀ p ∈ g.frames, p.2.size ≤ 256) (k : Nat) : g.frameSize k ≤ 256 := by
  have : ∀ (m : KMap Frame), (∀ p ∈ m, p.2.size ≤ 256) → ∀ f, m.find k = some f → f.size ≤ 256 := by
    intro m
    induction m with
    | nil => intro _ f hf; cases hf
    | cons p rest ih =>
      intro hm f hf
      simp only [KMap.find] at hf
      split at hf
      · cases hf; exact hm _ (List.mem_cons_self ..)
      · exact ih (fun q hq => hm q (List.mem_cons_of_mem _ hq)) f hf
  unfold Group.frameSize
  split
  · exact this _ h _ ‹_›
  · omega

/-- Where a `ret` of `inFn` takes each lane. -/
def retBlk (e : Env) (l : Nat) : BitVec 12 :=
  if l ∈ e.lanes then (if (e.g.lane l).depth.toNat = 0 then 0xFFF else (e.g.recOf l).block) else votedBlk e l

/-- The caller's frame of a returning lane takes its results and stands in the pool. -/
def retFits (e : Env) (l : Nat) : Bool :=
  decide ((inFn.descr e.md (e.g.recOf l).fn.toNat).argbase + (inFn.descr e.md (e.g.recOf l).fn.toNat).nres ≤
    e.g.frameSize ((e.g.lane l).depth.toNat - 1)) &&
  !e.laneEcc inFn.latent [(0, (inFn.descr e.md (e.g.recOf l).fn.toNat).nres)] l &&
  (e.g.frames.find ((e.g.lane l).depth.toNat - 1)).all fun fr => fr.place == .pool

theorem meets_ReturnsAndUnwinds_ret : ∃ e, Ready h0 none [] [] inFn e ∧ (∀ k, e.g.frameSize k ≤ 256) ∧
    (∀ l ∈ e.lanes, (e.g.lane l).depth.toNat ≠ 0 → retFits e l = true) ∧
    (0 ∈ e.lanes ∧ (e.g.lane 0).depth.toNat = 1) ∧ CanArrive inFn e (retBlk e) := by
  obtain ⟨e, h, p⟩ := meets (h := h0) (region := none) (regs := []) (rd := []) (s := inFn)
    (P := fun e => (e.g.frames.all fun p => decide (p.2.size ≤ 256)) = true ∧
      (∀ l ∈ e.lanes, (e.g.lane l).depth.toNat ≠ 0 → retFits e l = true) ∧
      (0 ∈ e.lanes ∧ (e.g.lane 0).depth.toNat = 1) ∧ e.g.awaiting = [] ∧
      (blockSet e (retBlk e) e.slices = [] ∨ found inFn e.md (blockSet e (retBlk e) e.slices) = true)) (by decide +kernel)
  exact ⟨e, h, frameSize_le (by simpa using p.1), p.2.1, p.2.2.1, canArrive p.2.2.2⟩

theorem meets_ReturnsAndUnwinds_unwind :
    (∃ e, Ready h0 none [span false 4] [span false 4] (withRegs ((withBlocks one)) [(0, 4, 0)]) e ∧
      ((∀ l ∈ e.lanes, e.reg1 0 l 4 ≤ (e.g.lane l).depth.toNat ∧ ∀ fr ∈ e.g.frames.find (e.reg1 0 l 4), fr.place = .pool) ∧
        e.g.awaiting = [] ∧ found (withBlocks one) e.md (blockSet e (fun l => if l ∈ e.lanes then 5 else votedBlk e l) e.slices) =
          true)) ∧
    ∃ e, Ready h0 none [span false 4] [span false 4] (withRegs (wide 2) [(0, 4, 0), (1, 4, 1)]) e ∧
      (1 ∈ e.lanes ∧ (e.g.lane 1).depth.toNat < e.reg1 0 1 4 ∧
        ∀ j ∈ e.lanes, j < 1 → e.reg1 0 j 4 ≤ (e.g.lane j).depth.toNat) :=
  ⟨meets (by decide +kernel), meets (by decide +kernel)⟩

/-! ### Regions, waits, fences -/

/-- Group 0 changed. -/
def grp (s : State) (f : Group → Group) : State := s.onGroup 0 f

theorem meets_RegionsAndBreakpoints :
    (∃ e, Ready h0 (some 7) [] [] (grp one fun g => { g with regions := [1, 2, 3, 4, 5, 6, 7, 8] }) e ∧
      (e.lanes ≠ [] ∧ 8 ≤ e.g.regions.length ∧ 7 ∈ e.g.regions)) ∧
    (∃ e, Ready ⟨false, 2⟩ (some 7) [] [] one e ∧ (e.lanes = [] ∧ 7 ∉ e.g.regions)) ∧
    (∃ e, Ready h0 none [] [] (withRecord one 0x06 2 1) e ∧ (e.lanes ≠ [] ∧ e.la.breaks = true ∧ e.g.step = none ∧
      e.g.stopNext = none ∧ e.g.halt = none ∧ e.off < 0xFFFF)) ∧
    ∃ e, Ready h0 none [] [] one e ∧ (e.lanes ≠ [] ∧ e.la.breaks = false ∧ e.g.step = none ∧ e.g.stopNext = none ∧
      e.off < 0xFFFF) :=
  ⟨meets (by decide +kernel), meets (by decide +kernel), meets (by decide +kernel), meets (by decide +kernel)⟩

theorem meets_WaitsCoverOrBlock :
    (∃ e, Ready h0 none [] [] (grp one fun g => { g with loads := 2, tile := 1 }) e ∧
      ((e.g.loads ≤ (2 : BitVec 6).toNat ∧ e.g.stores ≤ (0 : BitVec 6).toNat ∧ e.g.engine ≤ (0 : BitVec 6).toNat ∧
        e.g.tile ≤ (1 : BitVec 6).toNat) ∧ (1 : BitVec 6).toNat < e.g.loads ∧
        ∀ i ∈ e.slices, (e.g.slice i).armed.getLsbD (15 : BitVec 4).toNat = false)) ∧
    ∃ e, Ready h0 none [] [] (grp one fun g => { g with slices := g.slices.map fun x => { x with armed := 0x8000 } }) e ∧
      ∃ i ∈ e.slices, (e.g.slice i).armed.getLsbD (15 : BitVec 4).toNat = true :=
  ⟨meets (by decide +kernel), meets (by decide +kernel)⟩

theorem meets_ArrivalsAndFences : ∃ e, Ready h0 none [] [] one e ∧
    ((∀ (i : Nat) (x : Slice), e.g.slices[i]? = some x → i ∈ e.slices ∨ x.status = .done) ∧ ∀ p ∈ e.g.arrivals, p.1 ≠ 0) := by
  obtain ⟨e, h, p⟩ := meets (h := h0) (region := none) (regs := []) (rd := []) (s := one)
    (P := fun e => (∀ i < e.g.slices.length, i ∈ e.slices ∨ (e.g.slice i).status = .done) ∧ ∀ p ∈ e.g.arrivals, p.1 ≠ 0)
    (by decide +kernel)
  refine ⟨e, h, fun i x hx => ?_, p.2⟩
  have := p.1 i (List.getElem?_eq_some_iff.mp hx).1
  simpa [Group.slice, List.getD, hx] using this

/-! ### Addresses: for each clause an address at the edge of its range -/

/-- Does an address meet the clause of a window, with the field that its range is about? -/
def edge (ea top unit : Nat) (shift : Nat) : Bool :=
  ea < 2 ^ 64 && ea / 2 ^ 56 == top && ea / 2 ^ 48 % 2 ^ 8 == 0 && ea / 2 ^ 24 % 2 ^ (shift - 24) == 0 &&
    ea / 2 ^ shift % 2 ^ (48 - shift) == unit

theorem meets_AddressChecksInOrder :
    (0xA000000000000000 < 2 ^ 64 ∧ 0xA000000000000000 / 2 ^ 56 = 0xA0) ∧ 0xA5FFFFFFFFFFFFFF / 2 ^ 56 = 0xA5 ∧
    (0xA100000100000000 / 2 ^ 56 = 0xA1 ∧ 0xA100000100000000 / 2 ^ 32 % 2 ^ 24 ≠ 0) ∧
    (0xA201000000000000 / 2 ^ 56 = 0xA2 ∧ 0xA201000000000000 / 2 ^ 48 % 2 ^ 8 ≠ 0) ∧
    (0xA200000001000000 / 2 ^ 56 = 0xA2 ∧ 0xA200000001000000 / 2 ^ 24 % 2 ^ 15 ≠ 0) ∧
    (0xA400010000000000 / 2 ^ 56 = 0xA4 ∧ 0xA400010000000000 / 2 ^ 24 % 2 ^ 17 ≠ 0) ∧
    edge (0xA2 * 2 ^ 56 + 383 * 2 ^ 39) 0xA2 383 39 ∧ edge (0xA2 * 2 ^ 56 + 384 * 2 ^ 39) 0xA2 384 39 ∧
    edge (0xA3 * 2 ^ 56 + 95 * 2 ^ 41) 0xA3 95 41 ∧ edge (0xA3 * 2 ^ 56 + 96 * 2 ^ 41) 0xA3 96 41 ∧
    edge (0xA4 * 2 ^ 56 + 23 * 2 ^ 41) 0xA4 23 41 ∧ edge (0xA4 * 2 ^ 56 + 24 * 2 ^ 41) 0xA4 24 41 ∧
    (0x00FFFFFFFFFFFFFF / 2 ^ 56 = 0) ∧ (0xA1000000FFFFFFFF / 2 ^ 56 = 0xA1 ∧ 0xA1000000FFFFFFFF / 2 ^ 32 % 2 ^ 24 = 0) := by
  decide +kernel

/-- Each window at the edges of its tags: core 0 with a tag beside its own and the last, cluster 0 likewise, and the first
and the last vault. -/
theorem meets_ForeignAddressesFault :
    edge (0xA2 * 2 ^ 56 + 1 * 2 ^ 39) 0xA2 1 39 ∧ edge (0xA2 * 2 ^ 56 + 383 * 2 ^ 39) 0xA2 383 39 ∧
    edge (0xA3 * 2 ^ 56 + 1 * 2 ^ 41) 0xA3 1 41 ∧ edge (0xA3 * 2 ^ 56 + 95 * 2 ^ 41) 0xA3 95 41 ∧
    edge (0xA4 * 2 ^ 56) 0xA4 0 41 ∧ edge (0xA4 * 2 ^ 56 + 23 * 2 ^ 41) 0xA4 23 41 := by decide +kernel

/-! ### Words that issue an operation -/

/-- The team's scratchpad is unit 2 of vault 0, the launch's shared region is unit 4; the context's heap is the first
16 MiB of HBM. -/
def mapped (s : State) : State :=
  let s := withRecord (s.onTeam 0 fun tm => { tm with sUnit := 2, sUnits := 1, vUnit := 3, vUnits := 1 }) 0x24 4 0x10000
  { (s.onLaunch 0 fun l => { l with cb := some 0x40000 }) with
    ctxs := s.ctxs.update 0 fun c => { c with desc := { c.desc with heapLimit := 2 ^ 24, heapW := true } } }

/-- Lane 0 holds scratchpad addresses in v4, v6 and v8, an HBM address in v10 and a shared one in v12. -/
def atData : State :=
  withRegs (mapped one) [(0, 4, 0), (0, 5, 0xA2000000), (0, 6, 0x100), (0, 7, 0xA2000000), (0, 8, 0x200), (0, 9, 0xA2000000),
    (0, 10, 0x800000), (0, 11, 0), (0, 12, 0), (0, 13, 0xA3000000), (0, 14, 0), (0, 15, 0xA4000000), (0, 16, 0),
    (0, 17, 0)]

/-- A load of 4 bytes at v4. -/
def ld4 : MOp := { mOp with vd := 20, va := 4, vb := .lit 0 0 }

def accMeets (i : Instr) (s : State) : Bool :=
  match accessOf i with
  | some x => okEnv x.h none x.regs x.reads s fun e =>
      (e.lanes.all fun l => match laneCheck i x s e l with
        | .ok _ _ _ => true
        | _ => false) && s.watch.isEmpty && decide (e.g.loads < 255) && decide (e.g.stores < 255)
  | none => false

theorem meets_access {i : Instr} {s : State} (h : accMeets i s = true) : ∃ x e, accessOf i = some x ∧
    Ready x.h none x.regs x.reads s e ∧ (∀ l ∈ e.lanes, ∃ tgt nc fill, laneCheck i x s e l = .ok tgt nc fill) ∧
    s.noStops e.la.ctx ∧ e.g.loads < 255 ∧ e.g.stores < 255 := by
  unfold accMeets at h
  split at h
  · obtain ⟨e, hr, hp⟩ := ready_of_okEnv h
    simp only [Bool.and_eq_true, List.all_eq_true, decide_eq_true_eq, List.isEmpty_iff] at hp
    refine ⟨_, e, ‹_›, hr, fun l hl => ?_, ?_, hp.1.2, hp.2⟩
    · have := hp.1.1.1 l hl
      split at this
      · exact ⟨_, _, _, ‹_›⟩
      · cases this
    · intro p hp'
      rw [hp.1.1.2] at hp'
      cases hp'
  · cases h

theorem meets_AccessWordsIssue :
    (∃ x e, accessOf (.ld ld4) = some x ∧ Ready x.h none x.regs x.reads atData e ∧
      (∀ l ∈ e.lanes, ∃ tgt nc fill, laneCheck (.ld ld4) x atData e l = .ok tgt nc fill) ∧
      atData.noStops e.la.ctx ∧ e.g.loads < 255 ∧ e.g.stores < 255) ∧
    (∃ x e, accessOf (.ofadd ⟨h0, false, 0, 10, .reg 14, 0, .f32, 2, 0, false⟩) = some x ∧
      Ready x.h none x.regs x.reads atData e ∧
      (∀ l ∈ e.lanes, ∃ tgt nc fill, laneCheck (.ofadd ⟨h0, false, 0, 10, .reg 14, 0, .f32, 2, 0, false⟩) x atData e l =
        .ok tgt nc fill) ∧
      atData.noStops e.la.ctx ∧ e.g.loads < 255 ∧ e.g.stores < 255) ∧
    ∃ x e, accessOf (.acas { tOp with vd := 20, va := 12, vb := .reg 14, vc := 16 }) = some x ∧
      Ready x.h none x.regs x.reads atData e ∧
      (∀ l ∈ e.lanes, ∃ tgt nc fill, laneCheck (.acas { tOp with vd := 20, va := 12, vb := .reg 14, vc := 16 }) x atData e l =
        .ok tgt nc fill) ∧
      atData.noStops e.la.ctx ∧ e.g.loads < 255 ∧ e.g.stores < 255 :=
  ⟨meets_access (by decide +kernel), meets_access (by decide +kernel), meets_access (by decide +kernel)⟩

/-- A load whose lane 0 passes its checks and whose lane 1 is misaligned or unresolved. -/
def twoLanes (a b : Word) : State :=
  withRegs (mapped (wide 2)) [(0, 4, 0), (0, 5, 0xA2000000), (1, 4, a), (1, 5, b)]

def ldOp : AccessOp := memoryOp ld4 .ld 4 1 0 false false

theorem meets_ChecksStopWords_access :
    (∃ e, Ready h0 none ldOp.regs ldOp.reads (twoLanes 2 0xA2000000) e ∧
      (1 ∈ e.lanes ∧ laneCheck (.ld ld4) ldOp (twoLanes 2 0xA2000000) e 0 = .ok (2 ^ 52 + 0x20000) true [] ∧
        (∀ j ∈ e.lanes, j < 1 → j = 0) ∧ laneCheck (.ld ld4) ldOp (twoLanes 2 0xA2000000) e 1 = .bad 0x22)) ∧
    ∃ e, Ready h0 none ldOp.regs ldOp.reads (twoLanes 0x1000000 0) e ∧
      (1 ∈ e.lanes ∧ laneCheck (.ld ld4) ldOp (twoLanes 0x1000000 0) e 0 = .ok (2 ^ 52 + 0x20000) true [] ∧
        (∀ j ∈ e.lanes, j < 1 → j = 0) ∧ laneCheck (.ld ld4) ldOp (twoLanes 0x1000000 0) e 1 = .unresolved) :=
  ⟨meets (by decide +kernel), meets (by decide +kernel)⟩

/-- Lane 0's address is in its own scratchpad, lane 1's in that of core 1. -/
theorem meets_ForeignAddressesFault_word :
    ∃ e, Ready h0 none ldOp.regs ldOp.reads (twoLanes 0 0xA2000080) e ∧
      (1 ∈ e.lanes ∧ e.core = 0 ∧ edge (ldOp.ea e 1) 0xA2 1 39 = true ∧ (∀ j ∈ e.lanes, j < 1 → j = 0) ∧
        laneCheck (.ld ld4) ldOp (twoLanes 0 0xA2000080) e 0 = .ok (2 ^ 52 + 0x20000) true []) :=
  meets (by decide +kernel)

/-- A copy of bf16 elements from v4 to v6, its descriptor in v16 up. -/
def copyOp : EOp := ⟨h0, 0, 4, 6, 16, .bf16, 0⟩

/-- The same state with a descriptor in v16 up. -/
def withDescr (ws : List Word) : State := withRegs atData ((List.range 8).map fun i => (0, 16 + i, ws.getD i 0))

theorem meets_ChecksStopWords_engines :
    (∃ e, Ready copyOp.h none (jobRegsOf copyOp false true) (jobRegsOf copyOp false true) (withDescr [0]) e ∧
      (e.lanes = [0] ∧ (withDescr [0]).copyChecks (e.party 0) .copy .bf16 0 (e.pair 0 0 4) (e.pair 1 0 6) 0
        ((natsFrom 16 8).map fun r => e.reg 2 0 r) = some (0x31, 0))) ∧
    ∃ e, Ready h0 none (jobRegsOf ⟨h0, 8, 4, 6, 16, .f16, 0⟩ true false) (jobRegsOf ⟨h0, 8, 4, 6, 16, .f16, 0⟩ true false)
        (withDescr [0]) e ∧
      (e.lanes = [0] ∧ (withDescr [0]).selChecks (e.party 0) false 0 .f16 (e.pair 3 0 8) (e.pair 0 0 4) 0
        ((natsFrom 16 8).map fun r => e.reg 2 0 r) = some (0x31, 0)) :=
  ⟨meets (by decide +kernel), meets (by decide +kernel)⟩

theorem meets_ChecksStopWords_calls :
    (∃ e, Ready h0 none [] [] (withFn (wide 2)) e ∧ (1 ∈ e.lanes ∧ 0 ∈ e.lanes ∧ e.md.nDescrs ≤ (1 : BitVec 16).toNat)) ∧
    (∃ e, Ready h0 none [] [] (grp (withFn one) fun g => g.onLanes fun _ l => { l with depth := 255 }) e ∧
      (0 ∈ e.lanes ∧ (e.g.lane 0).depth = 255)) ∧
    ∃ e, Ready h0 none [] [] one e ∧ (e.lanes = [0] ∧ e.md.trap = 0xFFFF) :=
  ⟨meets (by decide +kernel), meets (by decide +kernel), meets (by decide +kernel)⟩

theorem meets_EngineWordsQueueJobs :
    (∃ e, Ready copyOp.h none (jobRegsOf copyOp false true) (jobRegsOf copyOp false true) (withDescr [16, 3 * 2 ^ 16]) e ∧
      (e.lanes = [0] ∧ (withDescr [16, 3 * 2 ^ 16]).copyChecks (e.party 0) .copy .bf16 0 (e.pair 0 0 4) (e.pair 1 0 6) 0
        ((natsFrom 16 8).map fun r => e.reg 2 0 r) = none ∧ e.g.engine < 255 ∧
        (((withDescr [16, 3 * 2 ^ 16]).copyQueue 0).jobs = []))) ∧
    (∃ e, Ready h0 none (jobRegsOf ⟨h0, 8, 4, 6, 16, .bf16, 0⟩ true true) (jobRegsOf ⟨h0, 8, 4, 6, 16, .bf16, 0⟩ true true)
        (withDescr [16, 3 * 2 ^ 16]) e ∧
      (e.lanes = [0] ∧ (withDescr [16, 3 * 2 ^ 16]).copyChecks (e.party 0) .gather .bf16 0 (e.pair 0 0 4) (e.pair 1 0 6)
        (e.pair 3 0 8) ((natsFrom 16 8).map fun r => e.reg 2 0 r) = none)) ∧
    (∃ e, Ready h0 none (jobRegsOf ⟨h0, 8, 4, 6, 16, .f16, 0⟩ true false) (jobRegsOf ⟨h0, 8, 4, 6, 16, .f16, 0⟩ true false)
        (withDescr [8]) e ∧
      (e.lanes = [0] ∧ (withDescr [8]).selChecks (e.party 0) false 0 .f16 (e.pair 3 0 8) (e.pair 0 0 4) 0
        ((natsFrom 16 8).map fun r => e.reg 2 0 r) = none ∧ e.g.engine < 255 ∧ ((withDescr [8]).selQueue 0).jobs = [])) ∧
    (∃ e, Ready ⟨false, 2⟩ none (jobRegsOf copyOp false true) (jobRegsOf copyOp false true) atData e ∧ e.lanes = []) :=
  ⟨meets (by decide +kernel), meets (by decide +kernel), meets (by decide +kernel), meets (by decide +kernel)⟩

theorem meets_FabricWordsQueue_msg : ∃ e,
    Ready h0 none [span true 14, span false 16, ((32 : Reg).toNat, 16)] [span true 14, span false 16, ((32 : Reg).toNat, 16)]
      (withRegs atData [(0, 16, 1023)]) e ∧
    (e.lanes = [0] ∧ e.g.engine < 255 ∧ (withRegs atData [(0, 16, 1023)]).collFull (e.core / 96) e.gk = false ∧
      windowOf (e.pair 0 0 14) = some (.vault 0 0) ∧ e.reg1 1 0 16 = 1023) := meets (by decide +kernel)

/-- Node 1 has a valid path. -/
def withPath : State :=
  { withRegs atData [(0, 16, 1)] with
    pathTable := some ⟨0, [⟨0, false, false, false, false, false, false, false, 0, 0⟩,
      ⟨2, true, true, true, true, true, true, true, 0, 1⟩]⟩ }

theorem meets_FabricWordsQueue_peer : ∃ e,
    Ready h0 none [span true 14, span false 16, ((32 : Reg).toNat, 16)] [span true 14, span false 16, ((32 : Reg).toNat, 16)]
      withPath e ∧
    (e.lanes = [0] ∧ e.reg1 1 0 16 < 1023 ∧ withPath.nodeValid (e.reg1 1 0 16) = true ∧
      windowOf (e.pair 0 0 14) = some (.vault 0 0)) := meets (by decide +kernel)

/-- A descriptor of 4 elements, two participants, the list at scratchpad offset 0x300. -/
def withColl : State :=
  withNum (withRegs (mapped one) [(0, 4, 0), (0, 5, 0xA2000000), (0, 6, 0x100), (0, 7, 0xA2000000), (0, 16, 4), (0, 17, 2),
    (0, 18, 0x300), (0, 19, 0xA2000000), (0, 20, 9), (0, 21, 0), (0, 22, 0), (0, 23, 0)])
    (2 ^ 52 + 0x20300) 8 (1023 + 2 ^ 32 * (1023 + 1 * 2 ^ 10))

/-- The list of `withColl` can be read and is right. -/
def listReads (e : Env) : Bool :=
  let d := (natsFrom 16 8).map fun r => e.reg 2 0 r
  match withColl.beforeAll e.gk e.g.issued (e.g.pos e.run.tag) with
  | none => false
  | some s1 =>
    match s1.collRange (e.party 0) false (collListAddr d) (4 * collP d) with
    | .ok segs _ =>
      (s1.segsDown segs).isNone && (match s1.readSegsFor e.gk e.g.issued segs with
        | .ok (_, list) => listOk s1.pathTable d (e.core / 96) list
        | .error _ => false)
    | _ => false

/-- The list lies beyond the heap, so that it cannot be read. -/
def withFarColl : State := withRegs withColl [(0, 18, 0), (0, 19, 1)]

def listFails (e : Env) : Bool :=
  let d := (natsFrom 16 8).map fun r => e.reg 2 0 r
  match withFarColl.beforeAll e.gk e.g.issued (e.g.pos e.run.tag) with
  | none => false
  | some s1 =>
    match s1.collRange (e.party 0) false (collListAddr d) (4 * collP d) with
    | .ok _ _ => false
    | _ => collDescrOk d && !misaligned (collListAddr d) 4 && (withFarColl.dirtyBad e.core).isNone

theorem meets_FabricWordsQueue_coll : ∃ e,
    Ready h0 none [span true 4, span true 6, ((16 : Reg).toNat, 8)] [span true 4, span true 6, ((16 : Reg).toNat, 8)] withColl e ∧
    (e.lanes = [0] ∧ e.g.engine < 255 ∧ withColl.collFull (e.core / 96) e.gk = false ∧
      collDescrOk ((natsFrom 16 8).map fun r => e.reg 2 0 r) = true ∧
      misaligned (collListAddr ((natsFrom 16 8).map fun r => e.reg 2 0 r)) 4 = false ∧
      misaligned (e.pair 0 0 4) (collElem .f32 0) = false ∧ misaligned (e.pair 1 0 6) (collElem .f32 0) = false ∧
      withColl.dirtyBad e.core = none ∧ listReads e = true) := meets (by decide +kernel)

theorem meets_FabricWordsQueue_list : ∃ e,
    Ready h0 none [span true 4, span true 6, ((16 : Reg).toNat, 8)] [span true 4, span true 6, ((16 : Reg).toNat, 8)] withFarColl e ∧
    (e.lanes = [0] ∧ e.g.engine < 255 ∧ withFarColl.collFull (e.core / 96) e.gk = false ∧ listFails e = true) :=
  meets (by decide +kernel)

/-! ### Tiles -/

/-- A team of two groups. -/
def twoGroups : State :=
  { (mapped one).onTeam 0 (fun tm => { tm with c := 2 }) with
    groups := [(0, startGroup 0 0 0 16 1 0 0 256 0 0 0 []), (1, startGroup 0 1 1 16 1 0 0 256 0 0 0 [])] }

/-- A weight tile of i8 in the scratchpad. -/
def wldOp : EOp := ⟨h0, 0, 4, 0, 0, .i8, 3⟩

theorem meets_CrewsAndWeightLoads :
    (∃ e, Ready h0 none [span false 20] [] (withRegs twoGroups [(0, 20, 3)]) e ∧
      (e.lanes = [0] ∧ ((withRegs twoGroups [(0, 20, 3)]).tileReg e 0 20).toNat = 3 ∧ (3 : Nat).testBit e.g.gidx = true ∧
        ∀ i < 2, i < e.tm.p + e.tm.c ∧ ((withRegs twoGroups [(0, 20, 3)]).group (e.g.team * 16 + i)).isSome)) ∧
    (∃ e, Ready h0 none [span false 20] [] (withRegs twoGroups [(0, 20, 1)]) e ∧
      (e.lanes = [0] ∧ ((withRegs twoGroups [(0, 20, 1)]).tileReg e 0 20).toNat = 1 ∧ ((List.range 16).filter fun i => (1 : Nat).testBit i).length < 2)) ∧
    ∃ e, Ready h0 none [span true 4] [] atData e ∧ (e.lanes = [0] ∧ e.g.tile < 255 ∧
      (match atData.tileArrays (e.party 0) ((wldArrays wldOp).map fun a => (atData.tilePair e 0 a.1, a.2)) with
        | .ok keys => keys == [2 ^ 52 + 0x20000]
        | .error _ => false) = true) :=
  ⟨meets (by decide +kernel), meets (by decide +kernel), meets (by decide +kernel)⟩

/-- The weights of bank 0. -/
def lbank : LBank := ⟨2 ^ 52 + 0x20000, 0, 0, .i8, 1, .ready, 0⟩

/-- One lane's arrival, its rows captured. -/
def arrival : Arrival := ⟨0, 0, 0, [0], [0], 64, .i8, .rne, 0, 0, false, 0, true, 0, 0, 0, [], some [(0, [])], [], 0, 0⟩

/-- An entry of group 0 alone. -/
def entry : Entry := ⟨0, 0, [arrival], true, 0, some lbank, 0⟩

/-- Groups 0 and 1 in one crew, group 1 has joined. -/
def crewed : State :=
  let s := twoGroups.onTeam 0 fun tm => { tm with lbanks := [(0, lbank)] }
  grp s fun g => { g with crew := 3 }

def mmaOp : YOp := ⟨h0, 64, 2, true, false, .i8, .rne, 1, false⟩

theorem entriesWait_of {s : State} {team : Nat} (h : (s.entries.all fun p => p.2.team != team || p.2.complete ||
    (!p.2.full && !s.lacksRetired p.2)) = true) : s.entriesWait team := by
  intro p hp ht hc
  have := List.all_eq_true.mp h p hp
  simpa [ht, hc] using this

theorem meets_MmaArrives_alone :
    let s := grp crewed fun g => { g with crew := 0 }
    clsOf mmaOp.fmt = some .i8 ∧ s.entriesWait 0 ∧ ∃ e, Ready h0 none [(mmaOp.va.toNat, rowRegs mmaOp.fmt)] [] s e ∧
      (e.lanes ≠ [] ∧ mmaOp.arow.toNat * 16 + e.g.width ≤ 512 ∧ e.g.tile < 255 ∧ e.g.team = 0 ∧ e.g.crew = 0 ∧
        (s.coreEntries e.core).length < 32 ∧ e.tm.lbanks.find 0 = some lbank ∧ clsOf lbank.fmt = some .i8) :=
  ⟨rfl, entriesWait_of (by decide +kernel), meets (by decide +kernel)⟩

theorem meets_MmaArrives_crew :
    (crewed.entriesWait 0 ∧ ∃ e, Ready h0 none [(mmaOp.va.toNat, rowRegs mmaOp.fmt)] [] crewed e ∧
      (e.lanes ≠ [] ∧ e.g.team = 0 ∧ e.g.crew = 3 ∧ crewed.entries = [] ∧ e.g.gidx = 0 ∧ e.g.crew.getLsbD 1 = true ∧
        (∀ i < 16, e.g.crew.getLsbD i = true → (crewed.group (e.g.team * 16 + i)).isSome) ∧
        crewed.joinable 0 3 0 = none ∧ (crewed.openEntries 0 3).length < 2)) ∧
    let s : State := { crewed.onTeam 0 (fun tm => { tm with c := 3 }) with
      groups := (grp crewed fun g => { g with crew := 7 }).groups.put 2 (startGroup 0 2 2 16 1 0 0 256 0 0 0 []),
      entries := [(5, ⟨0, 7, [{ arrival with gk := 1, gidx := 1, crew := 7 }], false, 0, some lbank, 0⟩)] }
    s.entriesWait 0 ∧ ∃ e, Ready h0 none [(mmaOp.va.toNat, rowRegs mmaOp.fmt)] [] s e ∧
      (e.g.crew = 7 ∧ (s.joinable 0 7 0).isSome ∧ ∀ p ∈ s.entries.vals, p.joined 2 = false) :=
  ⟨⟨entriesWait_of (by decide +kernel), meets (by decide +kernel)⟩, entriesWait_of (by decide +kernel), meets (by decide +kernel)⟩

/-- `accld.f32` of 2 columns from v4. -/
def accOp : AccOp := ⟨h0, 20, 4, 31, 0, .f32, 1⟩

theorem meets_AccumulatorTransfersIssue :
    (∃ e, Ready h0 none [span true accOp.va] [] atData e ∧
      (accOp.arow.toNat * 16 + e.g.width = 512 ∧ e.g.tile < 255 ∧ e.lanes = [0] ∧ atData.watch = [] ∧
        (match atData.xferLanes e (fun l => atData.tilePair e l accOp.va) (xferElems .f32 2) (Fmt.f32.width / 8) false e.lanes with
          | .ok _ => true
          | .error _ => false) = true)) ∧
    (∃ e, Ready h0 none [(accOp.vd.toNat, accOp.jf.toNat + 1)] [] one e ∧ (accOp.arow.toNat * 16 + e.g.width ≤ 512 ∧ e.lanes ≠ [])) ∧
    (∃ e, Ready h0 none [] [] one e ∧ (accOp.arow.toNat * 16 + e.g.width ≤ 512 ∧ e.lanes ≠ [])) ∧
    let s := grp one fun g => { g with lanes := g.lanes ++ g.lanes }
    rowWord (.accz accOp) = some (h0, 31, [], []) ∧
      ∃ e, s.env h0.m = some e ∧ (h0.m ≠ 0 ∧ h0.m.toNat < 2 ^ e.slots.length ∧ 512 < accOp.arow.toNat * 16 + e.g.width) :=
  ⟨meets (by decide +kernel), meets (by decide +kernel), meets (by decide +kernel), rfl, meetsEnv (by decide +kernel)⟩

/-! ### Events of the core -/

/-- A group of one lane, and a state in which it stands alone. -/
def lone : Group := startGroup 0 0 0 16 1 0 0 256 0 0 0 []

def holding (g : Group) : State := { withBlocks (mapped one) with groups := [(0, g)], runs := [] }

theorem meets_RunsStartAndRoundsClose_run :
    (holding lone).candidates 0 ≠ [] ∧ (holding lone).runs.find (unitKey 0 0) = none ∧
    ∀ p ∈ (holding lone).candidates 0, p.2.slot < 32 := by decide +kernel

theorem meets_RunsStartAndRoundsClose_second :
    let s : State := { twoGroups with runs := [(0, ⟨1, 0, 3, false⟩)] }
    s.candidates 0 ≠ [] ∧ s.runs.find (unitKey 0 1) = none ∧ (s.runs.find (unitKey 0 0)).isSome ∧
    ∀ p ∈ s.candidates 0, p.2.slot < 32 := by decide +kernel

/-- Slice 0 awaits, its patience is used up. -/
def waited : Group := lone.onSlices (· == 0) fun x => { x with status := .await, patience := 0 }

theorem meets_RunsStartAndRoundsClose_patience :
    (holding waited).group 0 = some waited ∧ waited.stopped = false ∧ (∃ i ∈ waited.awaiting, (waited.slice i).patience = 0) ∧
    waited.blocks waited.awaiting = [0] ∧
    ∃ x, (holding waited).moduleOf waited = some x ∧ (holding waited).regangDue x.1.core x.2.2 0 waited = false ∧
      (holding waited).lookup x.2.2 [0] = .found 0 :=
  ⟨by decide +kernel, by decide +kernel, by decide +kernel, by decide +kernel, got (by decide +kernel)⟩

/-! ### Accesses -/

/-- Lane 0's part of an access of 4 bytes, and the access. -/
def part (target : Nat) (nc : Bool) : LaneAcc := laneAcc 0 0 0 target nc 0x12345678 0 0
def oper (kind : AccKind) (fe : Nat) (x : LaneAcc) : Access :=
  ⟨0, kind, 4, .n32, 0, 0, false, fe, 20, [x], [regKey 0 0 20], [], 0, false, none, 0, 0, 0⟩
def busy (a : Access) : Group := { lone with ops := [a], loads := 1, stores := 1, issued := 1 }

/-- A vault granule in the scratchpad, and a place in HBM. -/
def vaultPlace : Nat := 2 ^ 52 + 0x20000
def hbmPlace : Nat := 0x800000

/-- The access of `busy` may be performed, and more. -/
def mayDo (s : State) (g : Group) (a : Access) (x : LaneAcc) (more : Bool) : Bool :=
  decide (s.group 0 = some g) && decide (g.access 0 = some a) && decide (a.next = some x) &&
    decide (a.lanes.find? (fun y => y.lane == x.lane) = some x) && g.mayPerform a x && more

theorem mayDo_spec {s : State} {g : Group} {a : Access} {x : LaneAcc} {more : Bool} (h : mayDo s g a x more = true) :
    NextLane s 0 0 g a x ∧ more = true := by
  simp only [mayDo, Bool.and_eq_true, decide_eq_true_eq] at h
  exact ⟨⟨h.1.1.1.1.1, h.1.1.1.1.2, h.1.1.1.2, h.1.1.2, h.1.2⟩, h.2⟩

/-- For one kind of access at a place: everything that its clause asks. -/
def doable (kind : AccKind) (fe : Nat) (target : Nat) (nc : Bool) (s : State → State) (more : State → Bool) : Bool :=
  let x := part target nc
  let a := oper kind fe x
  let st := s (holding (busy a))
  mayDo st (busy a) a x ((busy a).saved == false && (busy a).halt.isNone && !x.queued && !st.poisoned target 4 && st.migs.isEmpty && st.watch.isEmpty &&
    Memory.wf st.mem && (more st && (natsFrom target 4).all (fun b => !st.ownedByte 0 0 b) &&
      (((busy a).frames.find 0).any fun f => decide (21 ≤ f.size) && f.place == .pool)))

/-- Loads of a vault and of HBM without the cache; a blocking load of an empty granule; stores to a vault and to the
cache; a full bit. -/
theorem meets_AccessesPerform :
    doable .ld 0 vaultPlace true id (fun _ => isVaultKey vaultPlace) = true ∧
    doable .lds 0 hbmPlace true id (fun _ => decide (paKind hbmPlace = .hbm)) = true ∧
    doable .ld 2 vaultPlace true id (fun s => !(s.granAt (vaultPlace / 16)).full) = true ∧
    doable .st 1 vaultPlace true id (fun _ => isVaultKey vaultPlace) = true ∧
    doable .st 0 hbmPlace false id (fun s => !isVaultKey hbmPlace && decide (paKind hbmPlace = .hbm) &&
      decide ((dedup ((s.cacheOf 0).map fun p => p.1 / 128)).length < 2048)) = true ∧
    doable .feclr 0 vaultPlace true id (fun _ => isVaultKey vaultPlace) = true := by decide +kernel

/-- `doable` is what the clauses ask for. -/
theorem doable_spec {kind : AccKind} {fe target : Nat} {nc : Bool} {f : State → State} {more : State → Bool}
    (h : doable kind fe target nc f more = true) :
    let s := f (holding (busy (oper kind fe (part target nc))))
    NextLane s 0 0 (busy (oper kind fe (part target nc))) (oper kind fe (part target nc)) (part target nc) ∧
      (busy (oper kind fe (part target nc))).saved = false ∧ (busy (oper kind fe (part target nc))).halt = none ∧
      (part target nc).queued = false ∧ s.poisoned target 4 = false ∧ s.migs = [] ∧ s.watch = [] ∧ s.Inv ∧ more s = true ∧
      s.unowned 0 0 target 4 ∧ (busy (oper kind fe (part target nc))).frameHere 0 21 := by
  obtain ⟨h1, h2⟩ := mayDo_spec h
  simp only [Bool.and_eq_true, beq_iff_eq, Bool.not_eq_true', List.isEmpty_iff, Option.isNone_iff_eq_none] at h2
  obtain ⟨⟨⟨⟨⟨⟨⟨ha, hb⟩, hc⟩, hd⟩, he⟩, hf⟩, hg⟩, ⟨hh, ho⟩, hp⟩ := h2
  refine ⟨h1, ha, hb, hc, hd, he, hf, hg, hh, fun j hj => ?_, ?_⟩
  · have := List.all_eq_true.mp ho (target + j) (List.mem_range'.mpr ⟨j, hj, by omega⟩)
    simpa using this
  · cases hf : (busy (oper kind fe (part target nc))).frames.find 0 with
    | none => simp [hf] at hp
    | some f =>
      simp only [hf, Option.any_some, Bool.and_eq_true, decide_eq_true_eq, beq_iff_eq] at hp
      exact ⟨f, hf, hp.1, fun u n since => by simp [hp.2]⟩

/-- A fence of a scope wider than core, behind no other access. -/
def fenceAcc : Access := { (oper .fence 0 (part 0 true)) with lanes := [], dests := [], order := 3, scope := 2 }

theorem meets_AccessesPerform_fence :
    (holding (busy fenceAcc)).group 0 = some (busy fenceAcc) ∧ (busy fenceAcc).access 0 = some fenceAcc ∧
    fenceAcc.complete = false ∧ (busy fenceAcc).fenceReady fenceAcc = true ∧
    (holding (busy fenceAcc)).dirtyBad ((holding (busy fenceAcc)).seat (busy fenceAcc)).1 = none := by decide +kernel

/-- The granule of `vaultPlace` is full, and an earlier waiter stands before it. -/
def filled (s : State) : State :=
  { s with gran := [(vaultPlace / 16, ⟨true, none, none, []⟩)], feQ := [⟨vaultPlace / 16, .lane 0 0 0, true⟩] }

theorem meets_AtomicsAndWaitersPerform :
    doable .aadd 0 vaultPlace true id (fun s => s.caches.isEmpty) = true ∧
    doable .ld 0 (2 ^ 50 + 2 ^ 40) true id (fun _ => isFabric (2 ^ 50 + 2 ^ 40)) = true ∧
    doable .ld 2 vaultPlace true filled (fun s => decide (s.firstWaiter (vaultPlace / 16) = some ⟨vaultPlace / 16, .lane 0 0 0, true⟩)
      && (s.granAt (vaultPlace / 16)).full && decide (s.dirtyBad 0 = none)) = true := by decide +kernel

/-- A remote acquire of a granule that core 1 owns. -/
def promoting : Access := { (oper .acas 0 (part vaultPlace true)) with rmt := true, order := 3 }
def owned : State :=
  { holding (busy promoting) with gran := [(vaultPlace / 16, ⟨false, some (.group 1 0, 1), some 1, []⟩)] }

theorem meets_AtomicsAndWaitersPerform_promotion :
    mayDo owned (busy promoting) promoting (part vaultPlace true)
      (decide (owned.promotionOf promoting (part vaultPlace true) 0 = some 1)) = true := by decide +kernel

/-! ### Ordered adds, barriers, retirement -/

def contrib (t : Nat) : Contribution := ⟨(t, 0), hbmPlace, 0x800000, t, 0, 0, 0, .f32, 0x3F800000, none⟩

theorem meets_OrderedAddsBarriersRetirement_add :
    doable .ofadd 0 hbmPlace true id (fun s => decide (s.buffered (stackOf hbmPlace) < 2 ^ 20)) = true ∧
    (∀ y ∈ (oper .ofadd 0 (part hbmPlace true)).lanes, y.value = 0) ∧
    ∃ x, (holding (busy (oper .ofadd 0 (part hbmPlace true)))).moduleOf (busy (oper .ofadd 0 (part hbmPlace true))) = some x ∧
      True := ⟨by decide +kernel, by decide +kernel, got (by decide +kernel)⟩

theorem meets_OrderedAddsBarriersRetirement_apply :
    let s := (mapped one).onLaunch 0 fun l => { l with contribs := [contrib 1, contrib 0], teamsRetired := 1 }
    (∃ l, s.launches.find 0 = some l ∧ (l.applied = false ∧ l.ended = false ∧ l.started = true ∧ l.teamsRetired = l.teams ∧
      ∀ c ∈ l.contribs, c.addr = hbmPlace ∧ c.fmt = .f32 ∧ c.area = none)) ∧
    Memory.wf s.mem = true ∧ s.migs = [] ∧ s.watch = [] ∧ s.poisoned hbmPlace 4 = false :=
  ⟨got (by decide +kernel), by decide +kernel, by decide +kernel, by decide +kernel, by decide +kernel⟩

/-- Every slice of group 0 is armed on barrier 15, and its arrival waits for nothing. -/
def armed : Group := { lone with slices := lone.slices.map fun x => { x with armed := 0x8000 }, arrivals := [(15, 0)] }

theorem meets_OrderedAddsBarriersRetirement_barrier :
    ((holding armed).group 0 = some armed ∧ (∃ tm, (holding armed).teams.find 0 = some tm ∧
      ((tm.barrier 15).groups.toNat.testBit armed.gidx = false ∧ (tm.barrier 15).count < 16 ∧
        ((holding armed).teamGroups 0).length ≤ (tm.barrier 15).count.toNat + 1)) ∧
      armed.halt = none ∧ armed.saved = false ∧ armed.arrivals.find? (fun p => p.1 == 15) = some (15, 0) ∧
      armed.settledMem 0 = true) ∧
    (let s : State := { twoGroups with groups := twoGroups.groups.put 0 armed }
     s.group 0 = some armed ∧ ∃ tm, s.teams.find 0 = some tm ∧ (tm.barrier 15).count.toNat + 1 < (s.teamGroups 0).length) :=
  ⟨⟨by decide +kernel, got (by decide +kernel), by decide +kernel, by decide +kernel, by decide +kernel, by decide +kernel⟩,
    by decide +kernel, got (by decide +kernel)⟩

/-- Every slice of group 0 is DONE. -/
def finished : Group := { lone with slices := lone.slices.map fun x => { x with status := .done } }

theorem meets_OrderedAddsBarriersRetirement_retire :
    (holding finished).group 0 = some finished ∧ finished.allDone = true ∧ finished.stopped = false ∧
    (finished.loads, finished.stores, finished.engine, finished.tile) = (0, 0, 0, 0) ∧ (holding finished).holdsRun 0 = false ∧
    (∃ tm, (holding finished).teams.find 0 = some tm ∧ tm.latched = false) ∧
    (holding finished).dirtyBad ((holding finished).seat finished).1 = none ∧
    ∀ k ∈ (holding finished).teamGroups 0, k = 0 :=
  ⟨by decide +kernel, by decide +kernel, by decide +kernel, by decide +kernel, by decide +kernel, got (by decide +kernel),
    by decide +kernel, by decide +kernel⟩

/-! ### Frames -/

def request (size : Nat) (restore : Bool) (refill : List Nat) : FrameReq := ⟨0, 0, 0, size, false, restore, refill, []⟩

/-- Group 0 waits for a frame. -/
def requesting (r : FrameReq) (g : Group) : State :=
  let s := (holding { g with blocked := [(0, .frame)] }).onTeam 0 fun tm => { tm with requests := [r] }
  (withRecord s 0x28 8 0x900000).onLaunch 0 fun l => { l with kernel := l.kernel.take 24 ++ leBytes 1 4 ++ l.kernel.drop 28 }

/-- Does the oldest request of team 0 stand and fit? -/
def asks (s : State) (r : FrameReq) (fits : Bool) : Bool :=
  match s.teams.find 0 with
  | some tm => tm.saved == false && decide (tm.queue = [r]) && (decide (r.size ≤ s.freeGranules 0) == fits) && (s.group 0).isSome
  | none => false

/-- A frame of 8 registers at depth 1, in the pool or spilled to unit 0. -/
def withFrame (p : FramePlace) : Group := { lone with frames := lone.frames.put 1 ⟨[3], [], [], [], 0, p⟩ }

theorem meets_FramesAreServedAndMoved_serve :
    asks (requesting (request 32 false []) lone) (request 32 false []) true = true ∧
    asks (requesting (request 0 true []) { lone with swapped := true }) (request 0 true []) true = true ∧
    asks (requesting (request 1 false [1]) (withFrame (.spilled 0 3 0))) (request 1 false [1]) true = true ∧
    ∃ keys, (requesting (request 1 false [1]) (withFrame (.spilled 0 3 0))).areaKeys 0 0 0x900000 3 = some keys ∧
      ∀ k ∈ keys, (requesting (request 1 false [1]) (withFrame (.spilled 0 3 0))).writtenSince k 256 0 = false :=
  ⟨by decide +kernel, by decide +kernel, by decide +kernel, got (by decide +kernel)⟩

/-- The spill engine of core 0 works for team 0, which asks for more than is free. -/
def spilling (g : Group) : State := { requesting (request 33 false []) g with spill := [(0, 0)] }

theorem meets_FramesAreServedAndMoved_engine :
    ((requesting (request 33 false []) (withFrame .pool)).spill.find 0 = none ∧
      ∃ p ∈ (requesting (request 33 false []) (withFrame .pool)).teams.map id, p.2.core = 0 ∧
        (requesting (request 33 false []) (withFrame .pool)).engineWanted p.1 = true) ∧
    ({ (holding lone) with spill := [(0, 0)] } : State).engineWanted 0 = false ∧
    ((spilling (withFrame .pool)).engineWanted 0 = true ∧ asks (spilling (withFrame .pool)) (request 33 false []) false = true ∧
      (spilling (withFrame .pool)).idleFrames 0 [] = [(0, 1)] ∧ Memory.wf (spilling (withFrame .pool)).mem = true ∧
      firstFit ((spilling (withFrame .pool)).spillUsed 0) 256 (frameUnits 1 16) = some 0 ∧
      ((spilling (withFrame .pool)).areaKeys 0 0 0x900000 (frameUnits 1 16)).isSome) ∧
    (spilling lone).idleFrames 0 [] = [] ∧ (spilling lone).swapCandidates 0 0 = [] ∧ (spilling lone).heldBack 0 [] = false ∧
    (spilling lone).engineWanted 0 = true := by
  decide +kernel

/-! ### Engines -/

/-- A group with one engine job. -/
def engaged : Group := { lone with engine := 1, issued := 1 }

/-- A copy job of 16 bf16 elements inside the scratchpad. -/
def copyJob : CopyJob :=
  { gk := 0, id := 0, lane := 0, kind := .copy, fmt := .bf16, jf := 0, src := 0xA200000000000000, dst := 0xA200000000000100, ix := 0,
    d := [16, 0x30000, 0, 0, 0, 0, 0, 0], mode := 0, row := 0, chunk := 0, index := 0, work := none, lines := [], stop := none,
    flags := 0, pos := 0, paused := none }

/-- The job alone in its queue, its chunk after step 1. -/
def copyingAt (w : Option ChunkWork) : State := (holding engaged).setCopyQueue 0 ⟨[{ copyJob with work := w }], 0⟩

def copying : State := copyingAt none

/-- The ranges of the chunk check. -/
def copyReads (p : Party) : Bool :=
  let s1 := (copying.setCopyQueue 0 ⟨[copyJob], 0⟩).releaseAction p.core 2
  match s1.checkRanges p false (srcRanges copyJob.d .bf16 copyJob.src.toNat 0 0 16),
      s1.checkRanges p true (dstRanges copyJob.d .bf16 copyJob.dst.toNat 0 0 16) with
  | .ok _ _, .ok _ _ => true
  | _, _ => false

theorem meets_EnginesWork_copy :
    copying.copyQueue 0 = ⟨[copyJob], 0⟩ ∧ copying.copyRuns copyJob = true ∧ copying.group 0 = some engaged ∧
    (copyJob.work = none ∧ min 1024 (cols copyJob.d) = 16 ∧ srcFmt copyJob.d = some .bf16) ∧
    ∃ p, copying.jobParty 0 0 = some p ∧ (copying.dirtyBad p.core = none ∧ copyReads p = true) :=
  ⟨by decide +kernel, by decide +kernel, by decide +kernel, by decide +kernel, got (by decide +kernel)⟩

/-- The source and destination of the chunk, 32 bytes of the scratchpad each. -/
def srcSeg : Seg := ⟨0xA200000000000000, vaultPlace, 32, 0⟩
def dstSeg : Seg := ⟨0xA200000000000100, vaultPlace + 0x100, 32, 0⟩

def chunkAt (stage : ChunkStage) (left : List Seg) (got : List Byte) (out : List (Seg × List Byte)) (fills : List Nat) :
    ChunkWork := ⟨stage, [srcSeg], [dstSeg], [], left, got, out, fills⟩

/-- The job with `fes` and `fec`, the granules of its source empty. -/
def waitingCopy : State := (holding engaged).setCopyQueue 0 ⟨[{ copyJob with jf := 3 }], 0⟩

theorem meets_EnginesWork_wait :
    let s1 := (waitingCopy.setCopyQueue 0 ⟨[{ copyJob with jf := 3 }], 0⟩).releaseAction 0 2
    (3 : Nat).testBit 0 = true ∧ segGranules [srcSeg] ≠ [] ∧ (∀ i ∈ segGranules [srcSeg], (s1.granAt i).full = false) ∧
      s1.chunkGranules (.chunk 0 0 0) = [] ∧ copyJob.work = none ∧ waitingCopy.copyRuns { copyJob with jf := 3 } = true := by
  decide +kernel

/-- The stages of a chunk: a piece to read, all read, a piece to write, a granule to set full, all done. -/
theorem meets_EnginesWork_stages :
    (∀ w ∈ [chunkAt .read [srcSeg] [] [] [], chunkAt .read [] (List.replicate 32 5) [] [],
        chunkAt .write [] [] [(dstSeg, List.replicate 32 5)] [], chunkAt .fill [] [] [] [vaultPlace / 16 + 16], chunkAt .fill [] [] [] []],
      (copyingAt (some w)).copyQueue 0 = ⟨[{ copyJob with work := some w }], 0⟩ ∧ (copyingAt (some w)).group 0 = some engaged ∧
      ((copyingAt (some w)).jobParty 0 0).isSome ∧ (copyingAt (some w)).migs = [] ∧ (copyingAt (some w)).watch = [] ∧
      (copyingAt (some w)).poisoned vaultPlace 32 = false ∧ (copyingAt (some w)).selQ = [] ∧ Memory.wf (copyingAt (some w)).mem = true) ∧
    (isFabric srcSeg.target = false ∧ isFabric dstSeg.target = false ∧ isVaultKey dstSeg.target = true) ∧
    (Fmt.bf16.isBlock = false ∧ Fmt.bf16.width % 8 = 0 ∧
      (List.replicate 32 (5 : Byte)).length = min 1024 (cols copyJob.d - copyJob.chunk * 1024) * (Fmt.bf16.width / 8)) ∧
    (cols copyJob.d ≤ (copyJob.chunk + 1) * 1024 ∧ copyJob.row = rowsLess1 copyJob.d ∧ copyJob.stop = none) := by
  refine ⟨?_, ?_, ?_, ?_⟩ <;> decide +kernel

/-- An `srank` job of 4,097 i8 elements that has just started. -/
def selJob : SelJob :=
  { gk := 0, id := 0, lane := 0, scmp := false, fmt := .i8, jf := 0, recAddr := 0xA200000000008000, col := 0xA200000000000000,
    aux := 0, d := [4097, 0, 0, 0, 0, 0, 0, 0], mode := 0, started := true, since := 0, mask := [], pass := 0, hi := 7, cursor := 0,
    pre := 0, base := 0, n := 0, wt := 0, below := 0, bins := [], emitted := 0, thr := 0, thrEnc := 0, dead := false, fin := none,
    owned := [], maskDone := false, spoiled := false, lines := [],
    stop := none, pos := 0, paused := none }

def selecting : State := (holding engaged).setSelQueue 0 ⟨[selJob], 0⟩

def selReads (p : Party) : Bool :=
  match (selecting.setSelQueue 0 ⟨[selJob], 0⟩).selGet p 0 0 0x22 (columnRanges .i8 selJob.d selJob.col.toNat 0 4096) with
  | .ok _ _ => true
  | _ => false

theorem meets_EnginesWork_selection :
    selecting.selQueue 0 = ⟨[selJob], 0⟩ ∧ selecting.selRuns selJob = true ∧ selJob.wtOn = false ∧
    selJob.cursor + 4096 + 1 = selJob.count ∧ ∃ p, selecting.jobParty 0 0 = some p ∧ selReads p = true :=
  ⟨by decide +kernel, by decide +kernel, by decide +kernel, by decide +kernel, got (by decide +kernel)⟩

/-- A message held for the scratchpad. -/
def message : Message := ⟨0, 0, 1023, 0, 0x20000, List.replicate 16 7, 0, none, 0, true, none⟩
def messaging : State := { holding engaged with msgs := [(4, message)] }

theorem meets_EnginesWork_message :
    messaging.msgs.find 4 = some message ∧ message.sent = true ∧ message.data.length = 16 ∧
    messaging.group 0 = some engaged ∧ engaged.saved = false ∧ messaging.watch = [] ∧ Memory.wf messaging.mem = true ∧
    (messaging.heldAt 0).find? (fun p => p.2.offset == 0x20000) = some (4, message) ∧
    ∀ i < 4, (messaging.granAt (vaultKey 0 0x20000 / 16 + i)).full = false := by decide +kernel

/-- A collective of this die and node 1, which has answered; 2 elements each. -/
def collPart : CollPart :=
  { gk := 0, id := 0, lane := 0, die := 0, fmt := .i32, fn := 0, nofe := false, d := [2, 2, 0, 0, 9, 0, 0, 0],
    src := 0xA200000000000000, dst := 0xA200000000000100, list := some (leBytes 1023 4 ++ leBytes 1 4), paths := withPath.pathTable,
    data := leBytes 0xFFFFFFFF 4 ++ leBytes 5 4, since := 0, pos := 0, paused := none }
def folding : State := { holding engaged with pathTable := withPath.pathTable, colls := [(3, ⟨9, 0, [collPart], none, none⟩)] }
def answers : List (Nat × Option (List Byte)) := [(1, some (leBytes 1 4 ++ leBytes 6 4))]

theorem meets_EnginesWork_fold :
    folding.colls.find 3 = some ⟨9, 0, [collPart], none, none⟩ ∧ folding.group 0 = some engaged ∧ engaged.saved = false ∧
    folding.watch = [] ∧
    Memory.wf folding.mem = true ∧
    (match folding.contributions ⟨9, 0, [collPart], none, none⟩ (leBytes 1023 4 ++ leBytes 1 4) collPart.paths (collN collPart.d * 4) answers
        (natsFrom 0 (collP collPart.d)) with
      | .ok (some ds) => ds == [collPart.data, leBytes 1 4 ++ leBytes 6 4]
      | _ => false) = true ∧
    folding.collTaint collPart = false ∧
    folding.destOf collPart (collN collPart.d * 4) = .ready [⟨0xA200000000000100, 2 ^ 52 + 0x20100, 8, 0⟩] [] ∧
    isVaultKey (2 ^ 52 + 0x20100) = true := by
  refine ⟨?_, ?_, ?_, ?_, ?_, ?_, ?_, ?_, ?_⟩ <;> decide +kernel

/-! ### The array -/

/-- A tile operation of group 0. -/
def tileOp (kind : TileKind) : TileOp := ⟨0, kind, [], [], [], 0, [0], [], 0, false, 0⟩

def tiled (kind : TileKind) : Group := { lone with tiles := [tileOp kind], tile := 1, issued := 1 }

/-- The array of core 0 with an entry, its weights in bank 0. -/
def arrayed (n : Entry) (x : ArrayState) : State :=
  { (holding (tiled (.mma 7 128 false []))).onTeam 0 (fun tm => { tm with lbanks := [(0, lbank)] }) with
    entries := [(7, n)], banks := [(0, ⟨0, 0, 1, 0, .i8, [], [], [], false⟩)], arrays := [(0, x)] }

def running : State := arrayed entry ⟨some 7, true, 0, none, none⟩

theorem meets_ArraysWork_load :
    let k : TileKind := .wld 0 lbank false none
    let s := (holding (tiled k)).onTeam 0 fun tm => { tm with lbanks := [(0, lbank)] }
    s.group 0 = some (tiled k) ∧ (tiled k).tiles.find? (fun t => t.id == 0 && !t.complete) = some (tileOp k) ∧
    (tiled k).tileMay (tileOp k) = true ∧ s.latent.granules = [] ∧
    ∃ tm, s.teams.find 0 = some tm ∧ (tm.saved = false ∧ tm.lbanks.find 0 = some lbank) :=
  ⟨by decide +kernel, by decide +kernel, by decide +kernel, by decide +kernel, got (by decide +kernel)⟩

/-- An arrival that waits to be captured. -/
def waiting : Arrival := { arrival with rows := none }

theorem meets_ArraysWork_capture :
    let s := arrayed { entry with arrivals := [waiting] } ⟨none, true, 0, none, none⟩
    s.waitingArrivals 0 = [(7, { entry with arrivals := [waiting] }, waiting)] ∧
    (∃ tm, s.teams.find 0 = some tm ∧ tm.saved = false) ∧ s.latchRows 0 + waiting.lanes.length ≤ 768 ∧ s.latent.regs = [] ∧
    s.group 0 = some (tiled (.mma 7 128 false [])) ∧
    (∀ d ∈ waiting.depths, ((tiled (.mma 7 128 false [])).frames.find d).isSome) ∧
    [waiting].find? (fun y => y.gk == 0) = some waiting :=
  ⟨by decide +kernel, got (by decide +kernel), by decide +kernel, by decide +kernel, by decide +kernel, by decide +kernel,
    by decide +kernel⟩

theorem meets_ArraysWork_boundary :
    let s := arrayed entry ⟨none, true, 0, none, none⟩
    s.chosenEntry 0 = none ∧ s.boundaryEntries 0 = [(7, entry)] ∧ entry.prio ≤ 3 ∧ entry.completedAt < 2 ^ 64 ∧
    ∃ tm, s.teams.find 0 = some tm ∧ tm.snum < 32 :=
  ⟨by decide +kernel, by decide +kernel, by decide +kernel, by decide +kernel, got (by decide +kernel)⟩

theorem meets_ArraysWork_start :
    (let s := arrayed entry ⟨some 7, false, 0, none, none⟩
     s.chosenEntry 0 = some (7, entry) ∧ (s.array 0).admitted = false) ∧
    let s : State := { running with banks := [] }
    s.chosenEntry 0 = some (7, entry) ∧ s.residentBank 0 0 0 1 = none ∧ s.latent.granules = [] := by decide +kernel

theorem meets_execution :
    running.chosenEntry 0 = some (7, entry) ∧
    running.residentBank 0 0 0 1 = some (0, ⟨0, 0, 1, 0, .i8, [], [], [], false⟩) ∧ clsOf arrival.fmt = some .i8 ∧
    (running.array 0).admitted = true ∧ running.group 0 = some (tiled (.mma 7 128 false [])) ∧ arrival.lanes.Nodup ∧
    (tiled (.mma 7 128 false [])).tiles.find? (fun t => t.id == 0) = some (tileOp (.mma 7 128 false [])) ∧
    ((tileOp (.mma 7 128 false [])).stale = [] ∧ arrival.undef = [] ∧ arrival.ecc = []) ∧
    (∀ k ∈ running.teamGroups 0, ∀ g ∈ running.group k, ∀ o ∈ g.tiles, o.complete = false) ∧
    running.latent.accs = [] ∧ (∃ x, running.moduleOf (tiled (.mma 7 128 false [])) = some x ∧ True) ∧
    ∃ s1, running.takeBlocks 0 0 (dedup ((running.entryRows entry).map (· / 16))) = some s1 ∧
      ∀ p ∈ lbank.arrays, s1.writtenSince p.1 p.2 lbank.since = false := by
  refine ⟨?_, ?_, ?_, ?_, ?_, ?_, ?_, ?_, ?_, ?_, got ?_, got ?_⟩ <;> decide +kernel

/-- `accld.f32` of one element, `accrd` of two columns, and the blocks of their row. -/
def xferLane1 : XferLane := ⟨0, 0, 0xA200000000000000, [⟨vaultPlace, false, 0⟩]⟩

def xferMeets (kind : XferKind) (cnt : Nat) (x : XferLane) : Bool :=
  let g := tiled (.xfer kind 126 cnt .f32 20 0 [x])
  let o := tileOp (.xfer kind 126 cnt .f32 20 0 [x])
  let s := holding g
  decide (s.group 0 = some g) && g.rowsFree o && g.xferMay o x 4 && s.latent.accs.isEmpty && decide (126 + cnt ≤ 128) &&
    decide (∀ k ∈ s.teamGroups 0, ∀ g ∈ s.group k, ∀ o ∈ g.tiles, o.complete = false) &&
    (match s.takeBlocks 0 0 (dedup (o.lanes.map fun l => (o.base + l) / 16)) with
      | some s1 => !s1.poisoned vaultPlace 4 && Memory.wf s1.mem
      | none => false)

theorem meets_ArraysWork_transfer :
    xferMeets .ld 1 xferLane1 = true ∧ xferMeets .st 1 xferLane1 = true ∧
    xferMeets .rd 2 { xferLane1 with elems := [] } = true ∧ xferMeets .z 2 { xferLane1 with elems := [] } = true := by
  decide +kernel

/-! ### Upkeep and peers -/

def migrating (pulled : List Nat) : State := { one with migs := [(5, ⟨5, 0x200000, 0x400000, 2 ^ 16, pulled, false⟩)] }

theorem meets_MemoryUpkeepAndPeers_pull :
    ((0 : Nat) < 2 ^ 16 / 128 ∧ (migrating []).migs = [(5, ⟨5, 0x200000, 0x400000, 2 ^ 16, [], false⟩)] ∧
      0x200000 + 2 ^ 16 ≤ 0x400000 ∧ Memory.wf (migrating []).mem = true) ∧
    ((511 : Nat) < 2 ^ 16 / 128 ∧ 511 ∉ List.range 511 ∧ ∀ j < 511, j ∈ List.range 511) ∧
    ((11 : Nat) < 12 ∧ (2 ^ 29 - 1 : Nat) < 2 ^ 29) := by
  refine ⟨by decide +kernel, ⟨by decide, by simp, fun j hj => by simpa using hj⟩, by decide⟩

/-- A record about no group, and a fault queue of 2 entries with room for one. -/
def reporting : State :=
  { one with records := [one.record noGroup 3 0 0 0 0 0 0 0 1], faultQ := ⟨0x300000, 2, 0, 0⟩ }

theorem meets_MemoryUpkeepAndPeers_post :
    (∃ r, reporting.records.find? reporting.postable = some r ∧ True) ∧ reporting.faultQ.entries ≠ 0 ∧
    (reporting.faultQ.tail.toNat + 1) % reporting.faultQ.entries.toNat ≠
      reporting.faultQ.head.toNat % reporting.faultQ.entries.toNat ∧
    reporting.migs = [] ∧ Memory.wf reporting.mem = true :=
  ⟨got (by decide +kernel), by decide +kernel, by decide +kernel, by decide +kernel, by decide +kernel⟩

/-- A peer's write of the last 16 bytes of its window. -/
def inbound : Inbound := ⟨1, 0xFFF0, 16, true, none, (1, 2), 0, 2, 5, none⟩

theorem meets_MemoryUpkeepAndPeers_peer :
    (∃ p, withPath.entryOf inbound.node.toNat = some p ∧ (p.port ∉ withPath.portsDown ∧ p.inWrite = true ∧
      p.base * 65536 ≤ inbound.addr ∧ inbound.addr + inbound.size = p.limit * 65536)) ∧
    inbound.addr + inbound.size ≤ 0x00C000000000 ∧ inbound.size ≤ 16 ∧ withPath.migs = [] ∧ Memory.wf withPath.mem = true ∧
    let s : State := { one with pathTable := some ⟨1, [⟨0, true, false, false, false, false, false, false, 0, 0⟩]⟩ }
    ∃ p, s.entryOf 0 = some p ∧ p.inWrite = false :=
  ⟨got (by decide +kernel), by decide +kernel, by decide +kernel, by decide +kernel, by decide +kernel, got (by decide +kernel)⟩

/-! ### The launch unit -/

def posting (kind : AccKind) (target : Nat) : Access := { (oper kind 0 (part target true)) with dests := [] }

theorem meets_QueueHeadsTakeEntries_words :
    (let g := busy (posting .launch hbmPlace)
     (holding g).group 0 = some g ∧ g.access 0 = some (posting .launch hbmPlace) ∧ (posting .launch hbmPlace).complete = false ∧
      g.jobReady 0 = true ∧ (holding g).teamAway 0 = false ∧ (part hbmPlace true).done = false ∧ g.saved = false ∧
      (holding g).selQ = [] ∧
      ((holding g).deviceQueue 68).entries.length < 64 ∧ (holding g).caches = [] ∧
      (holding g).migs = [] ∧ (holding g).poisoned hbmPlace 128 = false ∧ (holding g).poisoned (hbmPlace + 128) 128 = false ∧
      paKind hbmPlace ≠ .fabric ∧ paKind (hbmPlace + 128) ≠ .fabric ∧ ∃ x, (holding g).moduleOf g = some x ∧ True) ∧
    let g := busy (posting .evsig 0)
    (holding g).group 0 = some g ∧ g.access 0 = some (posting .evsig 0) ∧ g.jobReady 0 = true ∧ (holding g).teamAway 0 = false ∧
      (holding g).dirtyBad ((holding g).seat g).1 = none := by
  refine ⟨⟨?_, ?_, ?_, ?_, ?_, ?_, ?_, ?_, ?_, ?_, ?_, ?_, ?_, ?_, ?_, got ?_⟩, ?_⟩ <;> decide +kernel

/-- An entry of 256 bytes from its fields (offset, bytes, value). -/
def record (fs : List (Nat × Nat × Nat)) : List Byte :=
  fs.foldl (fun r f => r.take f.1 ++ leBytes f.2.2 f.2.1 ++ r.drop (f.1 + f.2.1)) (List.replicate 256 0)

/-- Kernel 0 of module 0: one consumer group, 8 registers, 1 granule, `sc` scratchpad units; queue 0 holds an entry. -/
def queued (sc : Nat) (r : List Byte) : State :=
  let s := withMem (withBlocks (mapped one)) 0x16000 (leBytes 0 8 ++ leBytes 0x100 2 ++ leBytes 0 2 ++ leBytes 8 2 ++ leBytes 0 6 ++
    leBytes 1 2 ++ leBytes sc 2 ++ leBytes 0 8)
  { (withMem s 0x100000 r).setHostQueue 0 ⟨⟨0x100000, 2, 0, 1⟩, some (0, 0), none, none⟩ with
    image := ⟨0x4000000000, 2 ^ 30, 0x8000000000, 2 ^ 20, [], [], []⟩ }

/-- One team of one lane. -/
def launchRecord (cs : Nat) : List Byte := record [(8, 4, 1), (12, 4, 1), (16, 4, 1), (20, 4, 1), (0x24, 4, cs)]

def headIs (s : State) (p : HeadEntry → Bool) : Bool :=
  match s.headOf 0 with
  | some h => p h
  | none => false

theorem headIs_spec {s : State} {p : HeadEntry → Bool} (h : headIs s p = true) : ∃ x, s.headOf 0 = some x ∧ p x = true := by
  unfold headIs at h
  split at h
  · exact ⟨_, ‹_›, h⟩
  · cases h

theorem meets_QueueHeadsTakeEntries_launch :
    (∃ h, (queued 255 (launchRecord 0x10000)).headOf 0 = some h ∧
      (recKind h.rec0 == 0 && (queued 255 (launchRecord 0x10000)).launchStatus h == 0) = true) ∧
    ∃ h, (queued 0 (record [])).headOf 0 = some h ∧ (recKind h.rec0 == 0 && (queued 0 (record [])).launchStatus h != 0) = true :=
  ⟨headIs_spec (by decide +kernel), headIs_spec (by decide +kernel)⟩

theorem meets_LaunchVaultLimit : ∃ h, (queued 256 (launchRecord 0x10000)).headOf 0 = some h ∧
    (recKind h.rec0 == 0 && (match (queued 256 (launchRecord 0x10000)).modules.find (recModule h.rec0) with
      | some m =>
        let k := (queued 256 (launchRecord 0x10000)).kernelHeader m (recKernel h.rec0)
        decide (256 * 65536 < (kScratch k + kVault k) * 65536 + recCs h.rec0)
      | none => false)) = true := headIs_spec (by decide +kernel)

/-- A section table's entry. -/
def sect (ty off size : Nat) : List Byte :=
  leBytes 0 4 ++ leBytes ty 4 ++ leBytes 0 4 ++ leBytes 3 4 ++ leBytes off 8 ++ leBytes size 8 ++ leBytes 0 8

/-- A file of one state of one word, one block and one kernel. -/
def moduleFile : List Byte :=
  leBytes 0x4C444245 4 ++ leBytes 1 2 ++ leBytes 2 2 ++ leBytes 1 4 ++ leBytes 0 4 ++ leBytes 64 8 ++ leBytes 8 4 ++ leBytes 7 4 ++
    leBytes 6 4 ++ leBytes 0 28 ++
  sect 1 384 24 ++ sect 2 408 8 ++ sect 3 416 24 ++ sect 4 440 4 ++ sect 5 444 32 ++ sect 7 476 32 ++ sect 10 508 0 ++
    sect 11 508 0 ++
  leBytes 1 4 ++ leBytes 1 4 ++ leBytes 0 4 ++ leBytes 1 4 ++ leBytes 1 4 ++ leBytes 0xFFFF 2 ++ leBytes 0 2 ++ leBytes 0 8 ++
  leBytes 0 4 ++ leBytes 0 2 ++ leBytes 1 1 ++ leBytes 0 1 ++ leBytes (2 ^ 96 - 2 ^ 12) 12 ++ leBytes 0 4 ++ leBytes (2 ^ 31) 4 ++
  leBytes 0 32 ++ leBytes 0 8 ++ leBytes 0x100 2 ++ leBytes 0 2 ++ leBytes 8 2 ++ leBytes 0 6 ++ leBytes 1 2 ++ leBytes 0 10

/-- The file at 0x200000 and an entry that loads it. -/
def loading : State :=
  withMem (queued 0 (record [(0, 8, 0x200000), (8, 8, 508), (0x40, 1, 1)])) 0x200000 moduleFile

/-- The first page of the module file, and what a read there asks. -/
def filePage : Bool :=
  match loading.translate 0 hubId 0x200000 with
  | .ok pa _ _ _ => pa == 0x200000 && paKind pa != .fabric &&
      !(lineParts pa 508).any fun x => loading.poisoned (loading.liveKey x.1) x.2
  | _ => false

theorem fileLines : (lineParts 0x200000 508).map (fun x => (loading.liveKey x.1, x.2)) =
    [(0x200000, 128), (0x200080, 128), (0x200100, 128), (0x200180, 124)] := by decide +kernel

theorem moduleFile_read : loading.hubRead 0 2 0x200000 508 = some moduleFile := by
  have h : filePage = true := by decide +kernel
  have hl : moduleFile.length = 508 := by decide +kernel
  have hb : Memory.bytes loading.mem 0x200000 508 = moduleFile := by
    have := Memory.bytes_putBytes (m := (queued 0 (record [(0, 8, 0x200000), (8, 8, 508), (0x40, 1, 1)])).mem) (by decide +kernel)
      0x200000 moduleFile
    rw [hl] at this
    rwa [loading, withMem_mem]
  have hf : loading.physBytes 0x200000 508 = moduleFile := by
    have : loading.physBytes 0x200000 508 =
        ((lineParts 0x200000 508).map fun x => (loading.liveKey x.1, x.2)).flatMap fun x => Memory.bytes loading.mem x.1 x.2 := by
      simp only [State.physBytes, State.readBytes, List.flatMap_map]
    rw [this, fileLines, ← hb]
    have key (a : Nat) : Memory.bytes loading.mem a 128 ++ (Memory.bytes loading.mem (a + 128) 128 ++
        (Memory.bytes loading.mem (a + 128 + 128) 128 ++ Memory.bytes loading.mem (a + 128 + 128 + 128) 124)) =
        Memory.bytes loading.mem a 508 := by rw [Memory.bytes_append, Memory.bytes_append, Memory.bytes_append]
    simpa using key 0x200000
  unfold filePage at h
  unfold State.hubRead
  split at h
  next pa nc fill ht he =>
    simp only [Bool.and_eq_true, beq_iff_eq, bne_iff_ne, Bool.not_eq_true'] at h
    obtain ⟨⟨rfl, hk⟩, hp⟩ := h
    have hk' : (paKind 0x200000 == PaKind.fabric) = false := beq_eq_false_iff_ne.mpr hk
    have hm : min 508 (65536 - 0x200000 % 65536) = 508 := rfl
    simp only [he, hm, hk', hp, hf, Bool.or_self]
    simp [State.hubRead]
  · cases h

theorem moduleFile_ok : let ss := (sections moduleFile).getD []
    loading.loaderStatus moduleFile false = 0 ∧ (loading.poolPlace (placeFrom 0 ss).2).isSome ∧
    (relocate moduleFile ss (placeFrom 0 ss).1 (Config.moduleVa 1 * 65536)).isSome := by decide +kernel

theorem meets_QueueHeadsTakeEntries_load : ∃ h, loading.headOf 0 = some h ∧
    (recKind h.rec0 == 1 && loading.queueFieldsOk h.ctx h.fn h.rec0 && zeroBytes h.rec0 0x80 0x100 &&
      field h.rec0 0x10 4 < 2 && zeroBytes h.rec0 0x14 0x40 && h.ctx == 0 && field h.rec0 0 8 == 0x200000 &&
      field h.rec0 8 8 == 508) = true := headIs_spec (by decide +kernel)

theorem meets_QueueHeadsTakeEntries_others :
    let ok (r : List Byte) (more : HeadEntry → Bool) : Bool := headIs (queued 0 r) fun h =>
      (queued 0 r).queueFieldsOk h.ctx h.fn h.rec0 && zeroBytes h.rec0 0x80 0x100 && more h
    ok (record [(0x40, 1, 2)]) (fun h => recKind h.rec0 == 2 && zeroBytes h.rec0 4 0x40 && field h.rec0 0 4 == 0) = true ∧
    ok (record [(0, 8, 512), (8, 8, 1), (0x40, 1, 3)]) (fun h => recKind h.rec0 == 3 && field h.rec0 0 8 % 512 == 0 &&
      1 ≤ field h.rec0 8 8 && zeroBytes h.rec0 0x10 0x40) = true ∧
    ok (record [(0x40, 1, 4)]) (fun h => recKind h.rec0 == 4 && zeroBytes h.rec0 0 0x40) = true := by decide +kernel

/-! ### Launch and signal words -/

/-- Context 0 owns the event counters 3 and 4; lane 0 holds an index in v20. -/
def signalling (i : Word) : State :=
  let s := withRegs atData [(0, 20, i)]
  { s with ctxs := s.ctxs.update 0 fun c => { c with evFirst := 3, evCount := 2 } }

def evsigOp : EOp := ⟨h0, 0, 20, 22, 0, .n32, 0⟩
def launchOp : EOp := ⟨h0, 0, 10, 0, 0, .n32, 3⟩

def signalMeets (i : Word) (p : Ctx → Nat → Bool) : Bool :=
  okEnv h0 none [span false 20, span false 22] [span false 20, span false 22] (signalling i) fun e =>
    e.lanes == [0] && decide (e.g.stores < 255) && match (signalling i).ctxs.find e.la.ctx with
      | some c => p c (e.reg1 0 0 20)
      | none => false

theorem meets_LaunchAndSignalWords :
    okEnv launchOp.h none [span true 10] [span true 10] atData (fun e =>
      e.lanes == [0] && decide (e.g.engine < 255) &&
        match atData.checkAccess (e.party 0) e.core (e.pair 0 0 10) 256 256 false false with
        | .ok _ _ _ => true
        | _ => false) = true ∧
    signalMeets 3 (fun c k => k < 4096 && c.evFirst ≤ k && k < c.evFirst + c.evCount) = true ∧
    signalMeets 4 (fun c k => k < 4096 && c.evFirst ≤ k && k < c.evFirst + c.evCount) = true ∧
    signalMeets 5 (fun c k => decide (c.evFirst + c.evCount ≤ k)) = true ∧
    signalMeets 2 (fun c k => decide (k < c.evFirst)) = true ∧ signalMeets 4096 (fun _ k => decide (4096 ≤ k)) = true := by
  decide +kernel

/-! ### Teams -/

/-- What `launchEntry` of queue 0 leaves. -/
def accepted (sc : Nat) (r : List Byte) : State := (after (.launchEntry 0) (queued sc r)).getD one

def admits (s : State) (q : Nat) : Bool :=
  match (s.currentOf q).bind s.launches.find with
  | some l => decide (s.currentOf q = some l.id.toNat) && s.headReady l && (s.placeFor l).isSome &&
      (s.modules.find l.module).isSome && s.chosenQueue == some q && (s.placeFor l).all fun p => s.dirtyBad p.core == none
  | none => false

theorem meets_TeamsComeAndGo_admission :
    admits (accepted 2 (record [(8, 4, 1), (12, 4, 1), (16, 4, 1), (20, 4, 1), (0x42, 1, 1)])) 0 = true := by decide +kernel

/-- The launch of `one`, its team retired, with a record at 0x300000 and a signal of counter 7. -/
def retired : State :=
  (withRecord (withRecord (mapped one) 0x4A 2 0x8007) 0x60 8 0x300000).onLaunch 0 fun l => { l with teamsRetired := 1 }

theorem meets_TeamsComeAndGo_completion : ∃ l, retired.launches.find 0 = some l ∧
    (l.id.toNat = 0 ∧ l.started = true ∧ l.next = l.teams ∧ l.teamsRetired = l.teams ∧ l.contribs = [] ∧ l.counting = none ∧
      bitOf (field l.record 0x4A 2) 15 = true ∧ field l.record 0x60 8 ≠ 0 ∧
      retired.recordTarget l.ctx (field l.record 0x60 8) = some 0x300000 ∧ retired.migs = [] ∧ Memory.wf retired.mem = true) :=
  got (by decide +kernel)

/-- A pre-emptible team in each cluster of die 0 that holds its whole vault, and an urgent launch whose delay of 5 µs is
over. -/
def crowded : State :=
  let s := withRecord (accepted 2 (record [(8, 4, 1), (12, 4, 1), (16, 4, 1), (20, 4, 1), (0x41, 1, 4), (0x42, 1, 1), (0x44, 2, 5)]))
    0x41 1 0xB
  let tms := (List.range 24).map fun i => (i, { placedTeam with core := 4 * i, sUnits := 256 })
  { s.onLaunch 1 (fun l => { l with urgentSince := some 7 }) with teams := tms, groups := [], runs := [], time := 5007 }

def urgent (s : State) (q : Nat) (ts : List Nat) : Bool :=
  match (s.currentOf q).bind s.launches.find with
  | some l => decide (s.currentOf q = some l.id.toNat) && s.headReady l && (s.placeFor l).isNone &&
      (match l.urgentSince with
        | some x => decide (x ≠ BitVec.allOnes 64) && decide (x.toNat + field l.record 0x44 2 * 1000 = s.time.toNat)
        | none => false) &&
      s.urgentChoice l == some (0, ts)
  | none => false

theorem meets_TeamsComeAndGo_urgency : urgent crowded 0 [0] = true := by decide +kernel

/-- Group 0 halted by a pre-emption, its team latched. -/
def halted : Group := { lone with halt := some ⟨.preempt, 0, 3, 0, 0, none⟩ }
def latched (g : Group) : State := (holding g).onTeam 0 fun tm => { tm with latched := true }

theorem meets_TeamsComeAndGo_halt : ∃ tm, (latched lone).teams.find 0 = some tm ∧
    (tm.latched = true ∧ tm.saved = false ∧ (latched lone).teamGroups 0 = [0] ∧ (latched lone).group 0 = some lone ∧
      lone.halt = none) := got (by decide +kernel)

theorem meets_TeamsComeAndGo_save : ∃ tm, (latched halted).teams.find 0 = some tm ∧
    (tm.latched = true ∧ tm.saved = false ∧ (latched halted).teamGroups 0 = [0] ∧
      (latched halted).chunkUnderWay 0 tm.core = false ∧
      (latched halted).group 0 = some halted ∧ (latched halted).settledGroup 0 halted = true) := got (by decide +kernel)

/-- Group 0 saved alone, its frame in frame data, as the frame table says; and the same with its team. -/
def savedGroup : Group :=
  { lone with saved := true, resident := false, alone := true, frames := lone.frames.map fun p => (p.1, { p.2 with place := .saved (some 0) }) }
def savedAlone : State :=
  let s := holding savedGroup
  withMem s (((s.teams.find 0).map (·.frame)).getD 0 + groupArea 0 + 0x2700) (leBytes 32 1 ++ leBytes 1 1)
def savedTeam : State := (holding { savedGroup with halt := some ⟨.preempt, 0, 3, 0, 0, none⟩ }).onTeam 0 fun tm => { tm with saved := true }

theorem meets_TeamsComeAndGo_restoreAlone : ∃ tm, savedAlone.teams.find 0 = some tm ∧
    (0 ∈ savedAlone.teamGroups 0 ∧ savedAlone.group 0 = some savedGroup ∧ savedGroup.waitsHost = false ∧ tm.saved = false ∧
      tm.latched = false ∧ savedAlone.waitsUrgent tm = false ∧ savedGroup.ops = [] ∧ savedGroup.stopNext = none ∧ savedAlone.teamGroups 0 = [0] ∧
      savedGroup.slot ∉ savedAlone.slotsUsed tm.core ∧ savedAlone.weightUsed tm.core + tm.weight ≤ 256 ∧
      savedAlone.poolFits tm.core tm.width tm.quota = true ∧ ((savedGroup.reload (savedAlone.frameRead tm) tm.dataOff).frames.find 0).map (·.isSaved) = some true) :=
  got (by decide +kernel)

theorem meets_TeamsComeAndGo_restoreTeam : ∃ tm, savedTeam.teams.find 0 = some tm ∧
    ((0 ∈ savedTeam.teamGroups 0 ∧ tm.saved = true ∧ tm.latched = false) ∧ savedTeam.waitsUrgent tm = false ∧
      savedTeam.roomFor 0 tm (savedTeam.goingOn 0) = true ∧
      (match savedTeam.freeBlocks tm.core (savedTeam.blocksBack tm) 32 with
        | some s2 => Memory.wf s2.mem && s2.migs.isEmpty
        | none => false) = true ∧
      (List.range' tm.sUnit tm.sUnits ++ List.range' tm.vUnit tm.vUnits).Nodup ∧
      tm.frame + tm.vaultOff + (tm.sUnits + tm.vUnits) * 66048 ≤ 0x00C000000000) := got (by decide +kernel)

/-! ### Commands -/

/-- The ring holds one entry of a payload's fields (offset, bytes, value); the package is ready and PF owns it. -/
def commanding (op : Nat) (fs : List (Nat × Nat × Nat)) : State :=
  let e := (record ((0, 2, op) :: fs.map fun f => (8 + f.1, f.2.1, f.2.2))).take 64
  { withMem (mapped one) 0x100000 e with
    boot := ⟨1, 0, 0, false, 0⟩, cmdRing := ⟨0x100000, 2, 0, 1⟩, owner := 0x100 }

/-- The command stands at the head of the ring of `s`, and more holds of its payload. -/
def comes (i : Instr) (s : State) (p : List Byte → Bool) : Bool :=
  match s.commandHead, commandOf i with
  | some (_, e), some (op, listed) => decide (field e 0 2 = op) && reservedZero e listed && p e
  | _, _ => false

theorem comes_spec {i : Instr} {s : State} {p : List Byte → Bool} (h : comes i s p = true) :
    ∃ a e, Commanded i s a e ∧ p e = true := by
  unfold comes at h
  split at h
  · simp only [Bool.and_eq_true, decide_eq_true_eq] at h
    exact ⟨_, _, ⟨‹_›, _, _, ‹_›, h.1.1, h.1.2⟩, h.2⟩
  · cases h

theorem meets_ContextAndLaunchCommands_head :
    one.commandHead = none ∧ ((commanding 2 []).commandHead.map fun x => field x.2 0 2) = some 2 ∧
    ((commanding 2 [(2, 1, 1)]).commandHead.map fun x => reservedZero x.2 [(0, 2)]) = some false ∧
    (commanding 2 []).migs = [] ∧ Memory.wf (commanding 2 []).mem = true := by decide +kernel

/-- A context descriptor at 0x200000, its root table at 0x300000. -/
def described (s : State) : State := withNum s 0x200000 8 0x300000

theorem meets_ContextAndLaunchCommands_create : ∃ a e,
    Commanded .createContext (described (commanding 1 [(0, 2, 9), (2, 2, 4095), (4, 2, 1), (6, 1, 1), (8, 8, 0x200000)])) a e ∧
    (let s := described (commanding 1 [(0, 2, 9), (2, 2, 4095), (4, 2, 1), (6, 1, 1), (8, 8, 0x200000)])
     (s.ctxs.find (pay e 0 2)).isNone && decide (pay e 2 2 + pay e 4 2 = 4096) &&
       s.ctxs.all (fun p => decide (p.2.evFirst + p.2.evCount ≤ pay e 2 2)) && isPhysical (pay e 8 8) 64 &&
       (descOf (s.physBytes (pay e 8 8) 64)).isSome) = true := comes_spec (by decide +kernel)

theorem meets_ContextAndLaunchCommands_destroy :
    (∃ a e, Commanded .destroyContext (commanding 2 []) a e ∧ (commanding 2 []).ctxBusy (pay e 0 2) = true) ∧
    ∃ a e, Commanded .destroyContext { commanding 2 [] with launches := [] } a e ∧
      (!({ commanding 2 [] with launches := [] } : State).ctxBusy (pay e 0 2) &&
        (({ commanding 2 [] with launches := [] } : State).ctxs.find (pay e 0 2)).isSome) = true :=
  ⟨comes_spec (by decide +kernel), comes_spec (by decide +kernel)⟩

theorem meets_ContextAndLaunchCommands_bind : ∃ a e, Commanded .bindHostQueue (commanding 3 [(0, 1, 47), (1, 1, 31)]) a e ∧
    (decide (pay e 0 1 = 47) && decide (pay e 1 1 = 31) &&
      ((commanding 3 [(0, 1, 47), (1, 1, 31)]).ctxs.find (pay e 2 2)).isSome) = true := comes_spec (by decide +kernel)

theorem meets_ContextAndLaunchCommands_invalidate : ∃ a e, Commanded .translationInvalidate (commanding 4 []) a e ∧
    (((commanding 4 []).ctxs.find (pay e 0 2)).isSome && decide (pay e 8 8 = 0) && decide (pay e 16 8 = 0) &&
      ((commanding 4 []).ctxGroups (pay e 0 2)).all (fun p => !p.2.globalPending) &&
      ((commanding 4 []).ctxChunks (pay e 0 2)).isEmpty) = true := comes_spec (by decide +kernel)

theorem meets_ContextAndLaunchCommands_migrate :
    (∃ a e, Commanded .postMigrationRecord (commanding 5 [(0, 2, 6), (8, 8, 0x400000), (16, 8, 0x600000)]) a e ∧
      (decide (pay e 2 1 = 0) && decide (pay e 8 8 % 2 ^ 16 = 0) && decide (pay e 16 8 % 2 ^ 16 = 0) &&
        decide (pay e 16 8 + 2 ^ 16 ≤ 0x00C000000000)) = true) ∧
    let s : State := { commanding 6 [(0, 2, 5), (8, 8, 0x400000)] with migs := [(5, ⟨5, 0x200000, 0x400000, 2 ^ 16, [], false⟩)] }
    ∃ a e, Commanded .releaseMigrationRecord s a e ∧ (match s.migs.find (pay e 0 2) with
      | some m => m.id == pay e 0 2 && m.new == pay e 8 8
      | none => false) = true := ⟨comes_spec (by decide +kernel), comes_spec (by decide +kernel)⟩

theorem meets_ContextAndLaunchCommands_launch :
    (∃ a e, Commanded .preEmpt (commanding 7 []) a e ∧ (decide (pay e 4 4 ≤ pay e 8 4) &&
      match (commanding 7 []).teams.find 0 with
        | some tm => tm.launch == pay e 0 4 && !tm.saved && decide (pay e 4 4 ≤ tm.t) && decide (tm.t ≤ pay e 8 4)
        | none => false) = true) ∧
    ∃ a e, Commanded .endLaunch (commanding 8 []) a e ∧ (match (commanding 8 []).launches.find (pay e 0 4) with
      | some l => l.id.toNat == pay e 0 4
      | none => false) = true := ⟨comes_spec (by decide +kernel), comes_spec (by decide +kernel)⟩

/-- Group 0 parked at time 3, its record posted. -/
def parkRecord : FaultRec := { one.record noGroup 2 0x21 0 0 0 0 0 0 1 with gk := 0, time := 3, launch := 0 }
def answering : State :=
  { commanding 9 [(8, 8, 3)] with
    posted := [parkRecord], groups := [(0, { lone with halt := some ⟨.park, parkRecord.code, 3, 0, 0, none⟩ })] }

theorem meets_ContextAndLaunchCommands_response : ∃ a e, Commanded .faultResponse answering a e ∧
    (decide (pay e 4 1 < 2) && decide (parkRecord.launch = BitVec.ofNat 32 (pay e 0 4)) &&
      decide (parkRecord.time = BitVec.ofNat 64 (pay e 8 8)) && decide (parkRecord.job = none) && decide (parkRecord.ty = 2) &&
      (answering.group parkRecord.gk).isSome) = true := comes_spec (by decide +kernel)

theorem meets_DebugAndMeasureCommands_stops :
    (∃ a e, Commanded .codeBreakpoint (commanding 10 [(2, 1, 7), (3, 1, 1)]) a e ∧
      (((commanding 10 [(2, 1, 7), (3, 1, 1)]).ctxs.find (pay e 0 2)).isSome && decide (pay e 2 1 = 7) &&
        decide (pay e 3 1 = 1)) = true) ∧
    (∃ a e, Commanded .regionStop (commanding 11 [(6, 1, 1)]) a e ∧ decide (pay e 6 1 = 1) = true) ∧
    ∃ a e, Commanded .watchpoint (commanding 12 [(1, 1, 7), (8, 8, 0x300000), (18, 1, 15), (19, 1, 3)]) a e ∧
      (decide (pay e 0 1 = 0) && decide (pay e 1 1 = 7) && decide (pay e 18 1 = 15) && decide (pay e 19 1 = 3) &&
        (watchGranule (pay e 0 1) (pay e 8 8)).isSome &&
        ((commanding 12 []).ctxs.find (pay e 20 4)).isSome) = true :=
  ⟨comes_spec (by decide +kernel), comes_spec (by decide +kernel), comes_spec (by decide +kernel)⟩

theorem meets_DebugAndMeasureCommands_samples :
    (∃ a e, Commanded .timeSeries (commanding 13 [(0, 1, 1), (1, 1, 10), (4, 4, 1), (16, 8, 0x200000)]) a e ∧
      (decide (pay e 0 1 = 1) && decide (10 ≤ pay e 1 1) && decide (pay e 1 1 ≤ 24) && decide (1 ≤ pay e 4 4) &&
        decide (pay e 4 4 ≤ 2 ^ 20) && decide (pay e 16 8 % 2048 = 0) && isPhysical (pay e 16 8) (pay e 4 4 * 4 * 2048)) = true) ∧
    (∃ a e, Commanded .timeSeries (commanding 13 [(1, 1, 24), (4, 4, 1), (16, 8, 0x200000)]) a e ∧
      (decide (pay e 0 1 = 0) && isPhysical (pay e 16 8) (pay e 4 4 * 4 * 2048)) = true) ∧
    ∃ a e, Commanded .sampling (commanding 14 [(2, 1, 1), (3, 1, 8), (4, 4, 1), (8, 8, 0x200000)]) a e ∧
      (((commanding 14 []).ctxs.find (pay e 0 2)).isSome && decide (pay e 2 1 = 1) && decide (8 ≤ pay e 3 1) &&
        decide (1 ≤ pay e 4 4) && decide (pay e 8 8 % 64 = 0) && decide (pay e 8 8 < 2 ^ 56)) = true :=
  ⟨comes_spec (by decide +kernel), comes_spec (by decide +kernel), comes_spec (by decide +kernel)⟩

theorem meets_DebugAndMeasureCommands_errors : ∃ a e,
    Commanded .readErrorLog (commanding 15 [(0, 1, 2), (2, 2, 11), (8, 8, 0x300000)]) a e ∧
    (decide (pay e 0 1 = 2) && decide (pay e 2 2 < 12) &&
      (match (commanding 15 [(0, 1, 2), (2, 2, 11), (8, 8, 0x300000)]).translate (pay e 4 2) hubId (pay e 8 8) with
        | .ok pa w _ _ => w && paKind pa == .hbm
        | _ => false)) = true := comes_spec (by decide +kernel)

/-- A path table of node 7 with one entry at 0x200000. -/
def paths : State :=
  withMem (commanding 16 [(0, 4, 32), (8, 8, 0x200000)]) 0x200000 (leBytes 7 4 ++ leBytes 1 4 ++ leBytes 0 8 ++ leBytes 0x10 16)

theorem meets_DebugAndMeasureCommands_paths : ∃ a e, Commanded .loadAtomicPathTable paths a e ∧
    (let b := paths.physBytes (pay e 8 8) (pay e 0 4)
     decide (pay e 8 8 % 16 = 0) && decide (pay e 0 4 = 16 + 16 * field b 4 4) && decide (field b 4 4 ≤ 1023) &&
      isPhysical (pay e 8 8) (pay e 0 4) && decide (field b 0 2 < 1023) && decide (field b 2 2 = 0) && decide (field b 8 8 = 0) &&
      ((List.range (field b 4 4)).mapM (fun i => pathEntryOf ((b.drop (16 + 16 * i)).take 16))).isSome) = true :=
  comes_spec (by decide +kernel)

theorem meets_DebugAndMeasureCommands_others :
    (∃ a e, Commanded .assignMsiXVectors (commanding 17 [(0, 1, 31), (2, 2, 2047), (4, 2, 1)]) a e ∧
      (decide (pay e 0 1 < 32) && decide (pay e 2 2 < 2048) && decide (pay e 2 2 + pay e 4 2 = 2048)) = true) ∧
    (∃ a e, Commanded .attest (commanding 18 [(0, 8, 0x200000), (8, 8, 0x300000)]) a e ∧
      (isPhysical (pay e 0 8) 64 && isPhysical (pay e 8 8) 332) = true) ∧
    ∃ a e, Commanded (.writeFirmwareSlot true) (commanding 19 [(0, 1, 1), (4, 4, 4), (8, 8, 0x200000)]) a e ∧
      (decide (pay e 0 1 < 2) && decide (pay e 0 1 ≠ 0) && isPhysical (pay e 8 8) (pay e 4 4)) = true :=
  ⟨comes_spec (by decide +kernel), comes_spec (by decide +kernel), comes_spec (by decide +kernel)⟩

/-! ### Masters, starts and samples -/

/-- Queue 47 is bound to context 0 for function 1, which owns the counters 3 and 4; its mailbox waits. -/
def hosted : State :=
  let s := (commanding 2 []).setHostQueue 47 ⟨⟨0, 0, 0, 0⟩, some (0, 1), none, none⟩
  let s := s.setMailbox 1 { s.mailbox 1 with status := 1 }
  { s with ctxs := s.ctxs.update 0 fun c => { c with evFirst := 3, evCount := 2 } }

theorem meets_MastersAndRegisters :
    hosted.boot.status ≠ 2 ∧ hosted.owner = BitVec.ofNat 32 (0x100 + 0) ∧ (0x0000023F : Word).toNat / 256 = 2 ∧
    (hosted.hostQueue 47).bound = some (0, 1) ∧ hosted.ownsEvent 1 3 = true ∧ hasMailbox 1 = true ∧
    (hosted.mailbox 1).status = 1 ∧ hosted.migs = [] ∧ hosted.poison = [] ∧ Memory.wf hosted.mem = true ∧
    ((1 : BitVec 8).toNat ≠ 0 ∧ hosted.owner ≠ BitVec.ofNat 32 (0x100 + 1)) ∧ (0x4000 : Nat) + 0x20 ≤ 0x4020 ∧
    (0x00BFFFFFFFFF : Nat) + 1 ≤ 0x00C000000000 := by decide +kernel

/-- A configuration image with room to save and a pool; whatever its signature and those of the firmware are worth, one
clause of the start is met. -/
def bootImage : Image := ⟨0, 2 ^ 30, 2 ^ 30, 2 ^ 20, [], [], []⟩

theorem meets_StartsResetsAndSamples_start :
    State.reset.boot.status = 0 ∧
    (let v (n : Nat) : Bool := Config.imageVerifies (State.reset.slotImage n)
     let c : Bool := Config.imageVerifies bootImage.bytes
     (v 0 = true ∧ c = true) ∨ (v 1 = true ∧ c = true) ∨ ∃ f k : BitVec 8,
       (if ¬ v 0 = true then f = 1 else if ¬ c = true then f = 2 else False) ∧
       (if ¬ v 1 = true then k = 1 else if ¬ c = true then k = 2 else False)) ∧
    bootImage.saveBase % 2 ^ 30 = 0 ∧ bootImage.saveSize % 2 ^ 30 = 0 ∧ 2 ^ 30 ≤ bootImage.saveSize ∧
    bootImage.saveSize ≤ 64 * 2 ^ 30 ∧ bootImage.saveBase + bootImage.saveSize ≤ bootImage.poolBase ∧
    Memory.wf State.reset.mem = true := by
  refine ⟨by decide +kernel, ?_, by decide +kernel⟩
  cases h0 : Config.imageVerifies (State.reset.slotImage 0) <;> cases h1 : Config.imageVerifies (State.reset.slotImage 1) <;>
    cases h2 : Config.imageVerifies bootImage.bytes <;> simp [h0, h1]

theorem meets_StartsResetsAndSamples_reset :
    (let s := commanding 2 []
     Memory.wf s.mem = true ∧ s.owner = 0x100 ∧ s.boot.status ≠ 2) ∧
    ({ commanding 2 [] with clockMHz := 600 } : State).clockMHz ≤ 600 ∧
    600 < ({ commanding 2 [] with clockMHz := 601 } : State).clockMHz := by decide +kernel

/-- A series of 2 records per die, sampled every 2^10 cycles of 5/6 ns, that starts at 0. -/
def inSeries (now : Dword) : State :=
  { commanding 2 [] with series := ⟨true, 10, 2, 0, 0x400000, 3, [0, 1, 2, 3], some (2, [])⟩, time := now }

theorem meets_StartsResetsAndSamples_series :
    let x := (inSeries 2559).series
    let due (n : Nat) : Nat := x.t0.toNat + n * 2 ^ x.k * 5 / 6
    (inSeries 2559).migs = [] ∧ x.running = true ∧ 0 < x.q ∧ x.held = some (2, []) ∧ Memory.wf (inSeries 2559).mem = true ∧
      due x.n ≤ (inSeries 2559).time.toNat + 1 ∧ (inSeries 2559).time.toNat + 1 < due (x.n + 1) := by decide +kernel

/-- Context 0 samples core 0 into 2 records at 0x400000 of the heap. -/
def sampling : State :=
  { mapped one with ctxs := (mapped one).ctxs.update 0 fun c => { c with sampling := some ⟨8, 2, 0x400000, 3⟩ } }

theorem meets_StartsResetsAndSamples_sample :
    (match sampling.sampleGroup 0 with
      | some (_, g) =>
        (match sampling.ctxs.find (sampling.ctxOf g) with
          | some c => c.sampling == some ⟨8, 2, 0x400000, 3⟩
          | none => false) &&
        (match sampling.translate (sampling.ctxOf g) hubId (0x400000 + 3 % 2 * 64) with
          | .ok pa w _ _ => w && paKind pa == .hbm
          | _ => false)
      | none => false) = true ∧ Memory.wf sampling.mem = true ∧ sampling.migs = [] := by decide +kernel

end Sys2Proof.Tests
end

section
/-! SUPPORT. The window faults of an address (R142, R143), and which lane's fault an access word takes (R148): the family of
`05_group_control_and_access.md`. -/

namespace Sys2Proof.Machine

open Sys2Proof

/-! ## Windows and their faults (R142, R143) -/

theorem windowOf_spad {ea : Nat} (top : ea / 2 ^ 56 = 0xA2) (high : ea / 2 ^ 48 % 2 ^ 8 = 0) (low : ea / 2 ^ 24 % 2 ^ 15 = 0)
    (tag : ea / 2 ^ 39 % 2 ^ 9 < 384) : windowOf ea = some (.spad (ea / 2 ^ 39 % 2 ^ 9) (ea % 2 ^ 24)) := by
  simp_all [windowOf, bitsOf]

theorem windowOf_clu {ea : Nat} (top : ea / 2 ^ 56 = 0xA3) (high : ea / 2 ^ 48 % 2 ^ 8 = 0) (low : ea / 2 ^ 24 % 2 ^ 17 = 0)
    (tag : ea / 2 ^ 41 % 2 ^ 7 < 96) : windowOf ea = some (.clu (ea / 2 ^ 41 % 2 ^ 7) (ea % 2 ^ 24)) := by
  simp_all [windowOf, bitsOf]

theorem windowOf_vault {ea : Nat} (top : ea / 2 ^ 56 = 0xA4) (high : ea / 2 ^ 48 % 2 ^ 8 = 0)
    (low : ea / 2 ^ 24 % 2 ^ 17 = 0) (tag : ea / 2 ^ 41 % 2 ^ 5 < 24) :
    windowOf ea = some (.vault (ea / 2 ^ 46 % 2 ^ 2 * 24 + ea / 2 ^ 41 % 2 ^ 5) (ea % 2 ^ 24)) := by
  simp_all [windowOf, bitsOf]

/-- The check of foreign windows comes first of those of an address that has a window (R148). -/
theorem checkAccess_foreign {s : State} {p : Party} {who ea n align : Nat} {write fe : Bool} {w : Win}
    (hw : windowOf ea = some w) (hf : w.foreign p.core = true) :
    s.checkAccess p who ea n align write fe = .bad cSPACEFOREIGN := by
  simp [State.checkAccess, State.checkAddress, hw, hf]

theorem checkAddress_vault {s : State} {p : Party} {who ea n align v off : Nat} {write fe : Bool}
    (hw : windowOf ea = some (.vault v off)) :
    s.checkAddress p who ea n align write fe =
      if off % align ≠ 0 then .bad cALIGN
      else if s.vaultAllowed p.la v off n then .ok (vaultKey v off) true [] else .bad cPROT := by
  simp [State.checkAddress, hw, Win.foreign, Win.offset, Win.isVault]

/-- The fabric's check adds no fault but `PROT` (R371). -/
theorem checkAccess_bad {s : State} {p : Party} {who ea n align c : Nat} {write fe : Bool}
    (h : s.checkAccess p who ea n align write fe = .bad c) :
    s.checkAddress p who ea n align write fe = .bad c ∨ c = cPROT := by
  unfold State.checkAccess at h
  split at h
  · split at h <;> cases h
    exact .inr rfl
  · exact .inl h

/-- An any-vault address is valid from every core: its faults are `ALIGN` and `PROT`. -/
theorem checkAccess_vault_bad {s : State} {p : Party} {who ea n align v off c : Nat} {write fe : Bool}
    (hw : windowOf ea = some (.vault v off)) (h : s.checkAccess p who ea n align write fe = .bad c) :
    c = cALIGN ∨ c = cPROT := by
  rcases checkAccess_bad h with h | h
  · rw [checkAddress_vault hw] at h
    split at h
    · cases h
      exact .inl rfl
    · split at h <;> cases h
      exact .inr rfl
  · exact .inr h

/-! ## The order of a word's lanes (R5, R7) -/

theorem natsFrom_eq_range' (a n : Nat) : natsFrom a n = List.range' a n := by
  induction n generalizing a with
  | zero => rfl
  | succ n ih => rw [natsFrom, ih, List.range'_succ]

theorem natsFrom_pairwise_lt (a n : Nat) : (natsFrom a n).Pairwise (· < ·) :=
  natsFrom_eq_range' a n ▸ List.pairwise_lt_range'

theorem lanesOf_pairwise_lt {slices : List Nat} (h : slices.Pairwise (· < ·)) : (lanesOf slices).Pairwise (· < ·) := by
  refine List.pairwise_flatMap.2 ⟨fun i _ => natsFrom_pairwise_lt _ _, h.imp fun hij x hx y hy => ?_⟩
  rw [mem_natsFrom] at hx hy
  omega

theorem gang_pairwise_lt (g : Group) (tag : Nat) : (g.gang tag).Pairwise (· < ·) := (natsFrom_pairwise_lt _ _).filter _

/-- The active lanes of a word stand in ascending order. -/
theorem env_lanes_pairwise_lt {s : State} {m : BitVec 8} {e : Env} (he : s.env m = some e) : e.lanes.Pairwise (· < ·) := by
  unfold State.env at he
  repeat (split at he; · cases he)
  rename_i hgang
  cases he
  exact (lanesOf_pairwise_lt (hgang ▸ gang_pairwise_lt _ _)).filter _

/-! ## The checks of a word's lanes (R148) -/

/-- What the checks of a word say of one lane. -/
def laneVerdict (chk : Nat → Nat → Chk) (ea : Nat → Nat) (more : Nat → Nat → Nat → Option Nat) (l : Nat) : Chk :=
  match chk l (ea l) with
  | .ok t nc fill =>
    match more l (ea l) t with
    | some c => .bad c
    | none => .ok t nc fill
  | r => r

section
variable {chk : Nat → Nat → Chk} {ea : Nat → Nat} {more : Nat → Nat → Nat → Option Nat} {mk : Nat → Nat → Nat → Bool → LaneAcc}

theorem laneVerdict_bad {l c : Nat} (h : laneVerdict chk ea more l = .bad c) :
    chk l (ea l) = .bad c ∨ ∃ t nc fill, chk l (ea l) = .ok t nc fill ∧ more l (ea l) t = some c := by
  unfold laneVerdict at h
  split at h
  · split at h <;> cases h
    exact .inr ⟨_, _, _, ‹_›, ‹_›⟩
  · exact .inl h

theorem laneVerdict_ok {l t : Nat} {nc : Bool} {fill : List TlbEntry} (h : laneVerdict chk ea more l = .ok t nc fill) :
    chk l (ea l) = .ok t nc fill ∧ more l (ea l) t = none := by
  unfold laneVerdict at h
  split at h
  · split at h <;> cases h
    exact ⟨‹_›, ‹_›⟩
  · exact (‹∀ t nc fill, chk l (ea l) = .ok t nc fill → False› _ _ _ h).elim

/-- A first lane that fails stops the word. -/
theorem checkLanes_cons_bad {l c : Nat} {rest : List Nat} (h : laneVerdict chk ea more l = .bad c) :
    ∃ f : WFault, (∀ mk, checkLanes chk ea more mk (l :: rest) = .bad f) ∧ f.code = c ∧ f.cause = 0 ∧ f.lane = l ∧
      f.addr = BitVec.ofNat 64 (ea l) := by
  rcases laneVerdict_bad h with hc | ⟨t, nc, fill, hc, hm⟩
  · exact ⟨⟨c, 0, l, BitVec.ofNat 64 (ea l), 0, fIf (c == cECCFATAL) 1⟩, fun mk => by simp [checkLanes, hc], rfl, rfl, rfl, rfl⟩
  · exact ⟨⟨c, 0, l, BitVec.ofNat 64 (ea l), 0, 0⟩, fun mk => by simp [checkLanes, hc, hm], rfl, rfl, rfl, rfl⟩

/-- After a first lane that passes, a fault of the rest is the word's. -/
theorem checkLanes_cons_ok {l t : Nat} {nc : Bool} {fill : List TlbEntry} {rest : List Nat} {f : WFault}
    (h : laneVerdict chk ea more l = .ok t nc fill) (hr : checkLanes chk ea more mk rest = .bad f) :
    checkLanes chk ea more mk (l :: rest) = .bad f := by
  obtain ⟨hc, hm⟩ := laneVerdict_ok h
  simp [checkLanes, hc, hm, hr]

/-- Of lanes in ascending order, the lowest that fails gives the fault. -/
theorem checkLanes_lowest_bad {l c : Nat} {ls : List Nat} (order : ls.Pairwise (· < ·)) (hl : l ∈ ls)
    (below : ∀ j ∈ ls, j < l → ∃ t nc fill, laneVerdict chk ea more j = .ok t nc fill)
    (h : laneVerdict chk ea more l = .bad c) :
    ∃ f : WFault, (∀ mk, checkLanes chk ea more mk ls = .bad f) ∧ f.code = c ∧ f.cause = 0 ∧ f.lane = l ∧
      f.addr = BitVec.ofNat 64 (ea l) := by
  induction ls with
  | nil => cases hl
  | cons j rest ih =>
    rcases List.mem_cons.1 hl with rfl | hl
    · exact checkLanes_cons_bad h
    · obtain ⟨first, order⟩ := List.pairwise_cons.1 order
      obtain ⟨t, nc, fill, hj⟩ := below j List.mem_cons_self (first l hl)
      obtain ⟨f, hf, hrest⟩ := ih order hl fun k hk => below k (List.mem_cons_of_mem _ hk)
      exact ⟨f, fun mk => checkLanes_cons_ok hj (hf mk), hrest⟩

end

/-! ## Access words (R148, R291) -/

theorem laneVerdict_eq_laneCheck (i : Instr) (x : AccessOp) (s : State) (e : Env) (l : Nat) :
    laneVerdict (fun l a => s.checkAccess (e.party l) e.core a x.size x.size x.write x.fe) (x.ea e)
      (fun l a t => (atomicFmt i).bind fun fmt => s.atomicMore (e.party l) x.kind fmt a t) l = laneCheck i x s e l := by
  unfold laneVerdict laneCheck
  rfl

theorem regsFor_ne_zero {n : Nat} (h : 0 < n) : regsFor n ≠ 0 := by
  unfold regsFor
  omega

/-- A load, store or full-empty word takes the fault that the checks of its lanes find. -/
theorem accessWord_bad {o : MOp} {kind : AccKind} {n dest data : Nat} {write feOp : Bool} {self : Instr} {s : State}
    {e : Env} {f : WFault} (hfe : feOp = (kind == .fetest || kind == .feset || kind == .feclr))
    (hwrite : write = (kind == .st || kind == .feset || kind == .feclr)) (hn : n = if feOp then 16 else 2 ^ o.size.toNat)
    (hdest : dest = if write then 0 else if kind == .fetest then 1 else regsFor n)
    (hdata : data = if kind == .st then regsFor n else 0)
    (r : Ready o.h none (memoryOp o kind n dest data write feOp).regs (memoryOp o kind n dest data write feOp).reads s e)
    (hb : ∀ mk, checkLanes (fun l a => s.checkAccess (e.party l) e.core a n n write (feOp || o.fe != 0))
      (fun l => e.ea l o.va o.vb) (fun _ _ _ => none) mk e.lanes = .bad f) :
    accessWord o kind self s = .next (s.takeFault e.gk e.run.tag f) := by
  have hpos : regsFor n ≠ 0 := regsFor_ne_zero (by rw [hn]; split <;> simp)
  have hfeNat : (o.fe.toNat != 0) = (o.fe != 0) := by
    rw [Bool.eq_iff_iff]
    simp [BitVec.toNat_eq]
  have hreads : (memoryOp o kind n dest data write feOp).reads = span true o.va :: srcSpan false o.vb ++
      if kind == .st then [(o.vc.toNat, if kind == .fetest then 1 else regsFor n)] else [] := by
    cases hk : kind == .st
    · simp [memoryOp, hdata, hk]
    · rw [beq_iff_eq] at hk
      simp [memoryOp, hdata, hk, hpos]
  have hregs : (memoryOp o kind n dest data write feOp).regs =
      (if !write then [(o.vd.toNat, if kind == .fetest then 1 else regsFor n)] else []) ++
        (memoryOp o kind n dest data write feOp).reads := by
    cases write <;> cases hk : kind == .fetest <;> simp [AccessOp.regs, memoryOp, hdest, hk, hpos]
  rw [hregs, hreads] at r
  unfold accessWord
  simp only [← hfe, ← hwrite, ← hn]
  refine wordAt_bad r ?_
  simp only [hfeNat, hb]

/-- An atomic takes the fault that the checks of its lanes find. -/
theorem atomicWord_bad {o : TOp} {kind : AccKind} {dest : Nat} {self : Instr} {s : State} {e : Env} {f : WFault}
    (hdest : dest = if kind == .ofadd then 0 else if o.fmt.wide then 2 else 1)
    (r : Ready o.h none (atomicOp o kind dest).regs (atomicOp o kind dest).reads s e)
    (hb : ∀ mk, checkLanes (fun l a => s.checkAccess (e.party l) e.core a (o.fmt.width / 8) (o.fmt.width / 8) false false)
      (fun l => e.pair 0 l o.va) (fun l a t => s.atomicMore (e.party l) kind o.fmt a t) mk e.lanes = .bad f) :
    atomicWord o kind self s = .next (s.takeFault e.gk e.run.tag f) := by
  have hreads : (atomicOp o kind dest).reads = span true o.va :: srcSpan o.fmt.wide o.vb ++
      if kind == .acas then [span o.fmt.wide o.vc] else [] := by
    simp [atomicOp]
  have hregs : (atomicOp o kind dest).regs =
      (if kind != .ofadd then [(o.vd.toNat, if o.fmt.wide then 2 else 1)] else []) ++ (atomicOp o kind dest).reads := by
    cases hk : kind == .ofadd <;> cases hw : o.fmt.wide <;> simp [AccessOp.regs, atomicOp, hdest, hk, hw, bne]
  rw [hregs, hreads] at r
  unfold atomicWord
  refine wordAt_bad r ?_
  simp only [hb]

/-- R95, R148: an access word stops at the lowest active lane that fails a check, with that lane's fault. -/
theorem exec_access_bad {i : Instr} {x : AccessOp} {s : State} {e : Env} {l c : Nat} (hx : accessOf i = some x)
    (r : Ready x.h none x.regs x.reads s e) (hl : l ∈ e.lanes)
    (below : ∀ j ∈ e.lanes, j < l → ∃ t nc fill, laneCheck i x s e j = .ok t nc fill) (h : laneCheck i x s e l = .bad c) :
    ∃ f : WFault, exec i s = .next (s.takeFault e.gk e.run.tag f) ∧ f.code = c ∧ f.cause = 0 ∧ f.lane = l ∧
      f.addr = BitVec.ofNat 64 (x.ea e l) := by
  simp only [← laneVerdict_eq_laneCheck] at below h
  obtain ⟨f, hf, what⟩ := checkLanes_lowest_bad (env_lanes_pairwise_lt r.env) hl below h
  refine ⟨f, ?_, what⟩
  cases i <;> cases hx
  case ld | lds | st | feset | feclr | fetest => exact accessWord_bad rfl rfl rfl rfl rfl r hf
  all_goals exact atomicWord_bad rfl r hf

/-- The fault of the lowest failing lane does what R95 and R336 say of a fault. -/
theorem exec_access_faultTaken {i : Instr} {x : AccessOp} {s : State} {e : Env} {l c : Nat} (hx : accessOf i = some x)
    (r : Ready x.h none x.regs x.reads s e) (hl : l ∈ e.lanes)
    (below : ∀ j ∈ e.lanes, j < l → ∃ t nc fill, laneCheck i x s e j = .ok t nc fill) (h : laneCheck i x s e l = .bad c) :
    ∃ t, exec i s = .next t ∧ FaultTaken s t e c 0 l := by
  obtain ⟨f, hexec, rfl, hcause, rfl, -⟩ := exec_access_bad hx r hl below h
  exact ⟨_, hexec, hcause ▸ takeFault_taken r.env f⟩

theorem laneCheck_bad {i : Instr} {x : AccessOp} {s : State} {e : Env} {l c : Nat}
    (h : s.checkAccess (e.party l) e.core (x.ea e l) x.size x.size x.write x.fe = .bad c) : laneCheck i x s e l = .bad c := by
  simp [laneCheck, h]

/-- Settles O36: the check of foreign windows is the first of an address with a window, and the lowest lane that fails
stops an access word. -/
theorem foreignAddressesFault : Obligations.ForeignAddressesFault := by
  unfold Obligations.ForeignAddressesFault
  intro reserved foreign
  have window {core ea : Nat} (h : foreign core ea) : ∃ w, windowOf ea = some w ∧ w.foreign core = true := by
    rcases h with ⟨top, ⟨high, low⟩, tag, ne⟩ | ⟨top, ⟨high, low⟩, tag, ne⟩
    · exact ⟨_, windowOf_spad top high low tag, by simpa [Win.foreign] using ne⟩
    · exact ⟨_, windowOf_clu top high low tag, by simpa [Win.foreign, clusterOf] using ne⟩
  have faults {s : State} {p : Party} {who ea n align : Nat} {write fe : Bool} (h : foreign p.core ea) :
      s.checkAccess p who ea n align write fe = .bad 0x21 :=
    let ⟨_, hw, hf⟩ := window h
    checkAccess_foreign hw hf
  refine ⟨fun s p who ea n align write fe => ⟨faults, fun top ⟨high, low⟩ tag => ?_⟩,
    fun i x s e l hx r hl hfor below => exec_access_faultTaken hx r hl below (laneCheck_bad (faults hfor))⟩
  have hw := windowOf_vault top high low tag
  exact ⟨fun h => absurd (checkAccess_vault_bad hw h) (by decide), fun h => absurd (checkAccess_vault_bad hw h) (by decide)⟩

end Sys2Proof.Machine
end

section
/-! SUPPORT. What the run of an entry leaves in the accumulators and in its group (R215 to R217, R227, R234), and the numbers
of the integer classes (R216): the family of `09_matrix_array.md`. -/

namespace Sys2Proof.KMap

variable {α : Type}

theorem mem_of_find {m : KMap α} {k : Nat} {x : α} (h : KMap.find m k = some x) : (k, x) ∈ m := by
  induction m with
  | nil => simp at h
  | cons p m ih =>
    obtain ⟨j, v⟩ := p
    rw [find] at h
    split at h
    · simp_all
    · exact List.mem_cons_of_mem _ (ih h)

theorem mem_put {m : KMap α} {k : Nat} {x : α} {p : Nat × α} (h : p ∈ KMap.put m k x) : p = (k, x) ∨ p ∈ m := by
  induction m with
  | nil => exact .inl (by simpa [put] using h)
  | cons q m ih =>
    obtain ⟨j, v⟩ := q
    rw [put] at h
    split at h
    · simpa using h
    · split at h
      · exact (List.mem_cons.1 h).imp_right (List.mem_cons_of_mem _)
      · rcases List.mem_cons.1 h with rfl | h
        · exact .inr List.mem_cons_self
        · exact (ih h).imp_right (List.mem_cons_of_mem _)

section
variable {m : KMap α} {k : Nat} {f : α → α} (hf : ∀ x, KMap.find m k = some x → f x = x)
include hf

/-- A change that leaves the value at its key changes no lookup. -/
theorem find_update_fixed (j : Nat) : KMap.find (KMap.update m k f) j = KMap.find m j := by
  rw [find_update]
  split
  · rename_i e
    subst e
    cases h : KMap.find m j with
    | none => rfl
    | some x => rw [Option.map_some, hf x h]
  · rfl

/-- A change that leaves the value at its key adds no entry. -/
theorem update_fixed_subset : KMap.update m k f ⊆ m := by
  intro p hp
  unfold update at hp
  cases h : find m k with
  | none => simpa [h] using hp
  | some x =>
    rw [h] at hp
    rcases mem_put hp with rfl | hp
    · rw [hf x h]
      exact mem_of_find h
    · exact hp

end

end Sys2Proof.KMap

namespace Sys2Proof.Machine

open Sys2Proof

/-! ## What changes neither groups nor teams (R234, R302, R334) -/

theorem correctHome_groups_teams (s : State) (a n : Nat) :
    (s.correctHome a n).groups = s.groups ∧ (s.correctHome a n).teams = s.teams := by
  obtain ⟨l, c, k, h⟩ := correctHome_rest s a n
  exact ⟨by rw [h], by rw [h]⟩

theorem pullLine_groups_teams (s : State) (id line : Nat) :
    (s.pullLine id line).groups = s.groups ∧ (s.pullLine id line).teams = s.teams := by
  have setGrans (is : List Nat) (b : Nat) (x : Nat → Gran) (t : State) :
      (is.foldl (fun t i => t.setGran (b + i) (x i)) t).groups = t.groups ∧
        (is.foldl (fun t i => t.setGran (b + i) (x i)) t).teams = t.teams := by
    induction is generalizing t with
    | nil => exact ⟨rfl, rfl⟩
    | cons i is ih => exact ih _
  unfold State.pullLine
  split
  · exact ⟨rfl, rfl⟩
  · split
    · exact ⟨rfl, rfl⟩
    · rename_i m _ _
      obtain ⟨hg, ht⟩ := setGrans (natsFrom 0 8) ((m.new + 128 * line) / 16) _ _
      obtain ⟨hg', ht'⟩ := correctHome_groups_teams s (s.liveKey (m.old + 128 * line)) 128
      exact ⟨hg.trans hg', ht.trans ht'⟩

theorem touchFrom_groups_teams (s : State) (fuel pa : Nat) :
    (s.touchFrom fuel pa).groups = s.groups ∧ (s.touchFrom fuel pa).teams = s.teams := by
  induction fuel generalizing pa with
  | zero => exact ⟨rfl, rfl⟩
  | succ fuel ih =>
    rw [State.touchFrom]
    split
    · exact ih _
    · split
      · rename_i m _
        obtain ⟨hg, ht⟩ := pullLine_groups_teams (s.touchFrom fuel (pa - m.new + m.old)) m.id ((pa - m.new) / 128)
        obtain ⟨hg', ht'⟩ := ih (pa - m.new + m.old)
        exact ⟨hg.trans hg', ht.trans ht'⟩
      · exact ⟨rfl, rfl⟩

theorem write_groups_teams (s : State) (a : Nat) (bs : List Byte) :
    (s.write a bs).groups = s.groups ∧ (s.write a bs).teams = s.teams := by
  obtain ⟨x, p, l, h⟩ := write_rest s a bs
  exact ⟨by rw [h], by rw [h]⟩

theorem writeQuiet_groups_teams (s : State) (a : Nat) (bs : List Byte) :
    (s.writeQuiet a bs).groups = s.groups ∧ (s.writeQuiet a bs).teams = s.teams := by
  obtain ⟨hg, ht⟩ := write_groups_teams (s.home a).1 (s.home a).2 bs
  have hhome : (s.home a).1.groups = s.groups ∧ (s.home a).1.teams = s.teams := by
    unfold State.home
    split
    · exact ⟨rfl, rfl⟩
    · exact touchFrom_groups_teams s _ a
  exact ⟨hg.trans hhome.1, ht.trans hhome.2⟩

/-- The record of a saved group is memory (R334). -/
theorem noteSaved_groups_teams (s : State) (gk : Nat) :
    (s.noteSaved gk).groups = s.groups ∧ (s.noteSaved gk).teams = s.teams := by
  unfold State.noteSaved
  split
  · split
    · rename_i g tm _ _ _
      obtain ⟨hg, ht⟩ := writeQuiet_groups_teams s (tm.frame + groupArea g.gidx + 2) (stopBytes g)
      obtain ⟨hg', ht'⟩ := writeQuiet_groups_teams (s.writeQuiet (tm.frame + groupArea g.gidx + 2) (stopBytes g))
        (tm.frame + groupArea g.gidx + 0x0C) (counterBytes g)
      exact ⟨hg'.trans hg, ht'.trans ht⟩
    · exact ⟨rfl, rfl⟩
  · exact ⟨rfl, rfl⟩

/-! ## Blocks move, accumulators stand (R207, R234) -/

/-- The accumulator of a team at a row and a column; 0 where there is no team. -/
def State.accAt (s : State) (team row col : Nat) : Word := ((s.teams.find team).map fun tm => tm.accAt row col).getD 0

theorem State.accAt_team {s : State} {team : Nat} {tm : Team} (h : s.teams.find team = some tm) (row col : Nat) :
    s.accAt team row col = tm.accAt row col := by
  simp [State.accAt, h]

/-- Groups and the accumulators of every team stand. -/
structure SameAccs (s t : State) : Prop where
  groups : t.groups = s.groups
  accs : ∀ k, (t.teams.find k).map Team.acc = (s.teams.find k).map Team.acc

theorem SameAccs.trans {a b c : State} (h : SameAccs a b) (h' : SameAccs b c) : SameAccs a c :=
  ⟨h'.groups.trans h.groups, fun k => (h'.accs k).trans (h.accs k)⟩

theorem SameAccs.of_eq {s t : State} (h : t.groups = s.groups ∧ t.teams = s.teams) : SameAccs s t :=
  ⟨h.1, fun _ => by rw [h.2]⟩

theorem SameAccs.latent (s : State) (l : Latent) : SameAccs s { s with latent := l } := ⟨rfl, fun _ => rfl⟩

theorem SameAccs.onTeam (s : State) (team : Nat) {f : Team → Team} (hf : ∀ tm, (f tm).acc = tm.acc) :
    SameAccs s (s.onTeam team f) := by
  refine ⟨rfl, fun k => ?_⟩
  simp only [State.onTeam, KMap.find_update]
  split
  · rename_i e
    subst e
    cases s.teams.find k <;> simp [hf]
  · rfl

theorem SameAccs.accAt {s t : State} (h : SameAccs s t) (team row col : Nat) : t.accAt team row col = s.accAt team row col := by
  have e := congrArg (Option.map fun acc : KMap Word => (acc.find (row * 128 + col)).getD 0) (h.accs team)
  rw [Option.map_map, Option.map_map] at e
  exact congrArg (·.getD 0) e

theorem SameAccs.team_isSome {s t : State} (h : SameAccs s t) (team : Nat) :
    (t.teams.find team).isSome = (s.teams.find team).isSome := by
  simpa using congrArg Option.isSome (h.accs team)

theorem SameAccs.tilesOpen {s t : State} (h : SameAccs s t) {team : Nat} (ho : s.tilesOpen team) : t.tilesOpen team := by
  unfold State.tilesOpen State.teamGroups State.group at *
  rwa [h.groups]

theorem spillBlock_sameAccs (s : State) (team b : Nat) : SameAccs s (s.spillBlock team b) := by
  unfold State.spillBlock
  split
  · exact .of_eq ⟨rfl, rfl⟩
  · split
    · exact .of_eq ⟨rfl, rfl⟩
    · exact (SameAccs.of_eq (write_groups_teams _ _ _)).trans (.onTeam _ _ fun _ => rfl)

theorem freeBlock_sameAccs {s t : State} {core : Nat} (h : s.freeBlock core = some t) : SameAccs s t := by
  unfold State.freeBlock at h
  split at h
  · cases h
    exact .of_eq ⟨rfl, rfl⟩
  · unfold State.spillOne at h
    simp only at h
    split at h
    · cases h
    · cases h
      exact spillBlock_sameAccs _ _ _

theorem fetchBlock_sameAccs (s : State) (team b : Nat) : SameAccs s (s.fetchBlock team b) := by
  unfold State.fetchBlock
  split
  · exact .of_eq ⟨rfl, rfl⟩
  · split
    · exact (SameAccs.of_eq (correctHome_groups_teams s _ _)).trans (.latent _ _)
    · exact .of_eq ⟨rfl, rfl⟩

/-- Taking blocks changes no group and no accumulator (R234). -/
theorem takeBlocks_sameAccs {s t : State} {team core : Nat} {bs : List Nat} (h : s.takeBlocks team core bs = some t) :
    SameAccs s t := by
  induction bs generalizing s with
  | nil =>
    cases h
    exact .of_eq ⟨rfl, rfl⟩
  | cons b bs ih =>
    simp only [State.takeBlocks] at h
    split at h
    · cases h
    · rename_i s' hs'
      have hfree : SameAccs s s' := by
        split at hs'
        · cases hs'
          exact .of_eq ⟨rfl, rfl⟩
        · exact freeBlock_sameAccs hs'
      refine SameAccs.trans ?_ (ih h)
      exact (hfree.trans (fetchBlock_sameAccs s' team b)).trans (.onTeam _ _ fun _ => rfl)

/-! ## Accumulators while no tile operation of the team is complete (R227) -/

/-- Where a team runs on from a state: the groups stand, no tile operation of the team is complete, and no accumulator has an
uncorrectable error. -/
structure RunsFrom (s : State) (team : Nat) (t : State) : Prop where
  groups : ∀ k, t.group k = s.group k
  tilesOpen : t.tilesOpen team
  accs : t.latent.accs = []
  seated : (t.teams.find team).isSome

theorem giveUp_open {o : TileOp} (h : o.complete = false) (cell : Nat) : o.giveUp cell = o := by
  unfold TileOp.giveUp
  split <;> simp [h]

theorem undefCells_open {o : TileOp} (h : o.complete = false) (row : Nat) : o.undefCells row = [] := by
  unfold TileOp.undefCells
  split <;> simp [h]

/-- With no complete tile operation there is nothing to settle. -/
theorem settleRow_open {s : State} {team : Nat} (h : s.tilesOpen team) (row : Nat) : s.settleRow team row = s := by
  have none_undefined : ((s.teamGroups team).flatMap fun k =>
      ((s.group k).map fun g => g.tiles.flatMap fun t => t.undefCells row).getD []) = [] := by
    refine List.flatMap_eq_nil_iff.2 fun k hk => ?_
    cases hg : s.group k with
    | none => rfl
    | some g => exact List.flatMap_eq_nil_iff.2 fun o ho => undefCells_open (h k hk g hg o ho) row
  simp [State.settleRow, none_undefined, dedup]

/-- Changes that leave their groups as they are change no lookup of a group, and add no group. -/
theorem foldl_onGroup_fixed (f : Group → Group) (ks : List Nat) (s : State)
    (h : ∀ k ∈ ks, ∀ g, s.group k = some g → f g = g) :
    ∃ gs, ks.foldl (fun s k => s.onGroup k f) s = { s with groups := gs } ∧
      (∀ k, KMap.find gs k = s.group k) ∧ gs ⊆ s.groups := by
  induction ks generalizing s with
  | nil => exact ⟨_, rfl, fun _ => rfl, fun _ => id⟩
  | cons k ks ih =>
    have fixed := h k List.mem_cons_self
    have same : ∀ j, (s.onGroup k f).group j = s.group j := KMap.find_update_fixed fixed
    obtain ⟨gs, e, hfind, hsub⟩ := ih (s.onGroup k f) fun j hj g hg =>
      h j (List.mem_cons_of_mem _ hj) g (by rwa [same] at hg)
    exact ⟨gs, e, fun j => (hfind j).trans (same j), fun p hp => KMap.update_fixed_subset fixed (hsub hp)⟩

/-- A team with a word in one of its cells. -/
def Team.accPut (tm : Team) (cell : Nat) (w : Word) : Team :=
  { tm with acc := if w == 0 then tm.acc.del cell else tm.acc.put cell w }

theorem Team.accAt_accPut (tm : Team) (w : Word) {row col r c : Nat} (hcol : col < 128) (hc : c < 128) :
    (tm.accPut (row * 128 + col) w).accAt r c = if r = row ∧ c = col then w else tm.accAt r c := by
  have cell_eq : r * 128 + c = row * 128 + col ↔ r = row ∧ c = col := by omega
  simp only [Team.accAt, Team.accPut]
  by_cases hw : w = 0
  · simp only [hw, beq_self_eq_true, if_true, KMap.find_del, cell_eq]
    split <;> rfl
  · simp only [beq_iff_eq, hw, if_false, KMap.find_put, cell_eq]
    split <;> rfl

/-- What an accumulator write does while no tile operation of the team is complete: it writes its cell and clears the
errors there. -/
theorem accWrite_open {s : State} {team : Nat} (h : s.tilesOpen team) (row col : Nat) (w : Word) :
    ∃ gs, s.accWrite team row col w =
        { s.onTeam team (·.accPut (row * 128 + col) w) with
          groups := gs
          latent := { s.latent with
            accs := s.latent.accs.filter (· != team * 65536 + (row * 128 + col))
            accs1 := s.latent.accs1.filter (· != team * 65536 + (row * 128 + col)) } } ∧
      (∀ k, KMap.find gs k = s.group k) ∧ gs ⊆ s.groups := by
  obtain ⟨gs, e, hfind, hsub⟩ := foldl_onGroup_fixed
    (fun g => { g with tiles := g.tiles.map fun t => t.giveUp (row * 128 + col) }) (s.teamGroups team)
    (s.onTeam team (·.accPut (row * 128 + col) w)) fun k hk g hg => by
      have : (g.tiles.map fun t => t.giveUp (row * 128 + col)) = g.tiles :=
        (List.map_congr_left fun o ho => giveUp_open (h k hk g hg o ho) _).trans (List.map_id _)
      rw [this]
  refine ⟨gs, ?_, hfind, hsub⟩
  unfold State.accWrite
  exact congrArg (fun t : State => { t with latent := { t.latent with
    accs := t.latent.accs.filter (· != team * 65536 + (row * 128 + col))
    accs1 := t.latent.accs1.filter (· != team * 65536 + (row * 128 + col)) } }) e

theorem tilesOpen_mono {s t : State} {team : Nat} (h : s.tilesOpen team) (hfind : ∀ k, t.group k = s.group k)
    (hsub : t.groups ⊆ s.groups) : t.tilesOpen team := by
  intro k hk g hg
  obtain ⟨p, hp, rfl⟩ := List.mem_map.1 hk
  exact h p.1 (List.mem_map_of_mem (List.filter_subset _ hsub hp)) g (hfind p.1 ▸ hg)

section
variable {s t : State} {team : Nat} (h : RunsFrom s team t)
include h

theorem RunsFrom.accWrite (row col : Nat) (w : Word) : RunsFrom s team (t.accWrite team row col w) := by
  obtain ⟨gs, e, hfind, hsub⟩ := accWrite_open h.tilesOpen row col w
  refine ⟨fun k => ?_, tilesOpen_mono h.tilesOpen (fun k => ?_) ?_, ?_, ?_⟩ <;> rw [e]
  · exact (hfind k).trans (h.groups k)
  · exact hfind k
  · exact hsub
  · simp [h.accs]
  · simpa [State.onTeam] using h.seated

theorem RunsFrom.accAt_accWrite (w : Word) {row col r c : Nat} (hcol : col < 128) (hc : c < 128) :
    (t.accWrite team row col w).accAt team r c = if r = row ∧ c = col then w else t.accAt team r c := by
  obtain ⟨gs, e, -, -⟩ := accWrite_open h.tilesOpen row col w
  obtain ⟨tm, htm⟩ := Option.isSome_iff_exists.1 h.seated
  rw [State.accAt_team htm, ← tm.accAt_accPut w hcol hc, e]
  exact State.accAt_team (by simp [State.onTeam, htm]) r c

/-- A read of a cell gives its word and no flag; it corrects errors alone. -/
theorem RunsFrom.accElem (row n col : Nat) :
    ∃ t', t.accElem team row n [col] = (t', [t.accAt team row col], 0) ∧ RunsFrom s team t' ∧ t'.teams = t.teams := by
  obtain ⟨tm, htm⟩ := Option.isSome_iff_exists.1 h.seated
  refine ⟨t.correctAccs tm.core [team * 65536 + row * 128 + col], ?_, ?_⟩
  · simp [State.accElem, settleRow_open h.tilesOpen, htm, h.accs, State.accAt_team htm]
  · unfold State.correctAccs
    split
    · exact ⟨h, rfl⟩
    · exact ⟨⟨h.groups, h.tilesOpen, h.accs, h.seated⟩, rfl⟩

end

/-! ## The rows of an arrival (R215 to R217, R227), in the classes whose results fill one column -/

section
variable (n : Entry) (a : Arrival) (cls : Cls) (pb : PBank) (xyz : Nat × Nat × Nat)

/-- The registers that an arrival captured of a lane. -/
def Arrival.regsOf (l : Nat) : List Word := ((a.rows.getD []).find l).getD []

/-- The flags of a lane's row beside those of its results: `SUBST` (R211) and `ECCZ` (R235). -/
def Arrival.extraFlags (l : Nat) : Nat := fIf (isSixBit a.fmt) fSUBST ||| fIf (pb.ecc || a.ecc.contains l) fECCZ

/-- The result of a column of a lane's row, of the accumulator input, with its flags. -/
def cellOf (row : Nat) (regs : List Word) (col : Nat) (c : Word) : Nat × Nat :=
  cellResult cls a.fmt pb.fmt (arrayEnv a.mode a.rm a.gidx xyz row col) (rowOf a.fmt regs)
    (columnOf pb.fmt pb.elems pb.scales pb.extras col) (if a.cz then none else some c.toNat)

/-- One column of `State.runRow`. -/
def State.runCell (row : Nat) (regs : List Word) (acc : State × Nat) (col : Nat) : State × Nat :=
  let c := if a.cz then (acc.1, [], 0) else acc.1.accElem n.team row col [col]
  let cv := if a.cz then none else some (c.2.1.foldr (fun w x => w.toNat + 2 ^ 32 * x) 0)
  let r := cellResult cls a.fmt pb.fmt (arrayEnv a.mode a.rm a.gidx xyz row col) (rowOf a.fmt regs)
    (columnOf pb.fmt pb.elems pb.scales pb.extras col) cv
  (c.1.accWrite n.team row col (BitVec.ofNat 32 r.1), acc.2 ||| r.2 ||| c.2.2)

/-- The coordinates of a group's team in its grid, for the draws of stochastic rounding (R217). -/
def State.gridAt (s : State) (g : Group) : Nat × Nat × Nat :=
  ((s.moduleOf g).map fun x => gridOf x.2.1.record x.1.t).getD (0, 0, 0)

/-- One lane of `State.runArrival`, its row and the row's flags. -/
def State.runLane (base : Nat) (acc : State × KMap Word) (l : Nat) : State × KMap Word :=
  let q := acc.1.runRow n a cls pb xyz (base + l) (a.regsOf l)
  (q.1, acc.2.put l (BitVec.ofNat 32 (q.2 ||| a.extraFlags pb l)))

/-- The flags of a lane's row of results: those of its 128 columns. -/
def State.flagsOf (s : State) (row : Nat) (regs : List Word) : Nat :=
  ((List.range 128).map fun col => (cellOf a cls pb xyz row regs col (s.accAt n.team row col)).2).foldl (· ||| ·) 0

end

/-- Some columns of a row have taken results `v`, and the flags were collected: before `t`, after `q`. -/
structure WroteCells (s : State) (team row : Nat) (v : Nat → Nat × Nat) (cols : List Nat) (t q : State × Nat) : Prop where
  runs : RunsFrom s team q.1
  cells : ∀ r c, c < 128 →
    q.1.accAt team r c = if r = row ∧ c ∈ cols then BitVec.ofNat 32 (v c).1 else t.1.accAt team r c
  flags : q.2 = (cols.map fun c => (v c).2).foldl (· ||| ·) t.2

theorem WroteCells.cons {s : State} {team row : Nat} {v v' : Nat → Nat × Nat} {col : Nat} {cols : List Nat}
    {t q q' : State × Nat} (h : WroteCells s team row v [col] t q) (h' : WroteCells s team row v' cols q q')
    (hv : ∀ c ∈ cols, v' c = v c) : WroteCells s team row v (col :: cols) t q' := by
  refine ⟨h'.runs, fun r c hc => ?_, ?_⟩
  · rw [h'.cells r c hc, h.cells r c hc]
    by_cases hin : c ∈ cols
    · simp only [hin, hv c hin, and_true, List.mem_cons, or_true, List.not_mem_nil, or_false]
      split <;> simp_all
    · simp [hin]
  · rw [h'.flags, h.flags, List.map_congr_left fun c hc => congrArg Prod.snd (hv c hc)]
    rfl

section
variable {n : Entry} {a : Arrival} {cls : Cls} {pb : PBank} {xyz : Nat × Nat × Nat} {s : State}

theorem runCell_wrote {row col : Nat} {regs : List Word} {acc : State × Nat} (h : RunsFrom s n.team acc.1) (hcol : col < 128) :
    WroteCells s n.team row (fun c => cellOf a cls pb xyz row regs c (acc.1.accAt n.team row c)) [col] acc
      (State.runCell n a cls pb xyz row regs acc col) := by
  let v := cellOf a cls pb xyz row regs col (acc.1.accAt n.team row col)
  obtain ⟨t, e, ht, hteams⟩ : ∃ t, State.runCell n a cls pb xyz row regs acc col =
      (t.accWrite n.team row col (BitVec.ofNat 32 v.1), acc.2 ||| v.2) ∧ RunsFrom s n.team t ∧ t.teams = acc.1.teams := by
    by_cases hcz : a.cz = true
    · exact ⟨acc.1, by simp [State.runCell, cellOf, hcz, v], h, rfl⟩
    · obtain ⟨t, hread, ht, hteams⟩ := h.accElem row col col
      exact ⟨t, by simp [State.runCell, cellOf, hcz, hread, v], ht, hteams⟩
  rw [e]
  refine ⟨ht.accWrite row col _, fun r c hc => ?_, rfl⟩
  rw [ht.accAt_accWrite _ hcol hc]
  simp +contextual [State.accAt, hteams, v]

theorem runCells_wrote {row : Nat} {regs : List Word} {cols : List Nat} (hcols : ∀ c ∈ cols, c < 128) (hnd : cols.Nodup)
    {acc : State × Nat} (h : RunsFrom s n.team acc.1) :
    WroteCells s n.team row (fun c => cellOf a cls pb xyz row regs c (acc.1.accAt n.team row c)) cols acc
      (cols.foldl (State.runCell n a cls pb xyz row regs) acc) := by
  induction cols generalizing acc with
  | nil => exact ⟨h, fun r c _ => by simp, rfl⟩
  | cons col cols ih =>
    obtain ⟨hcol, hcols⟩ := List.forall_mem_cons.1 hcols
    obtain ⟨hnew, hnd⟩ := List.nodup_cons.1 hnd
    have first := runCell_wrote (a := a) (cls := cls) (pb := pb) (xyz := xyz) (row := row) (regs := regs) h hcol
    refine first.cons (ih hcols hnd first.runs) fun c hc => ?_
    have : c ≠ col := fun e => hnew (e ▸ hc)
    rw [first.cells row c (hcols c hc)]
    simp [this]

/-- A class whose results fill one column runs its row column by column. -/
theorem runRow_eq_foldl (hd : cls ≠ .d) (t : State) (row : Nat) (regs : List Word) :
    t.runRow n a cls pb xyz row regs = (List.range 128).foldl (State.runCell n a cls pb xyz row regs) (t, 0) := by
  have hn : cls.n = 128 := by cases cls <;> simp_all [Cls.n]
  have hcols : natsFrom 0 cls.n = List.range 128 := by rw [hn, natsFrom_eq_range', List.range_eq_range']
  have hcls : (cls == .d) = false := by simpa using hd
  unfold State.runRow
  rw [hcols]
  simp only [hcls]
  congr 1
  funext acc col
  simp [State.runCell, wordsFrom, natsFrom]

/-- A row of results: each column from what stood in it, no other row, and the flags of the columns (R215, R216). -/
theorem runRow_wrote (hd : cls ≠ .d) {t : State} (h : RunsFrom s n.team t) (row : Nat) (regs : List Word) :
    WroteCells s n.team row (fun c => cellOf a cls pb xyz row regs c (t.accAt n.team row c)) (List.range 128) (t, 0)
      (t.runRow n a cls pb xyz row regs) := by
  rw [runRow_eq_foldl hd]
  exact runCells_wrote (cols := List.range 128) (acc := (t, 0)) (fun c hc => List.mem_range.1 hc) List.nodup_range h

/-- Some lanes have run: before `t`, after `q`. -/
structure RanLanes (s : State) (n : Entry) (a : Arrival) (cls : Cls) (pb : PBank) (xyz : Nat × Nat × Nat) (base : Nat)
    (lanes : List Nat) (t q : State × KMap Word) : Prop where
  runs : RunsFrom s n.team q.1
  cells : ∀ l ∈ lanes, ∀ c < 128, q.1.accAt n.team (base + l) c =
    BitVec.ofNat 32 (cellOf a cls pb xyz (base + l) (a.regsOf l) c (t.1.accAt n.team (base + l) c)).1
  otherRows : ∀ r c, c < 128 → (∀ l ∈ lanes, r ≠ base + l) → q.1.accAt n.team r c = t.1.accAt n.team r c
  flags : ∀ l ∈ lanes, q.2.find l =
    some (BitVec.ofNat 32 (t.1.flagsOf n a cls pb xyz (base + l) (a.regsOf l) ||| a.extraFlags pb l))
  otherFlags : ∀ l, l ∉ lanes → q.2.find l = t.2.find l

theorem runLane_ran (hd : cls ≠ .d) {base l : Nat} {acc : State × KMap Word} (h : RunsFrom s n.team acc.1) :
    RanLanes s n a cls pb xyz base [l] acc (State.runLane n a cls pb xyz base acc l) := by
  obtain ⟨runs, cells, flags⟩ := runRow_wrote (a := a) (pb := pb) (xyz := xyz) hd h (base + l) (a.regsOf l)
  refine ⟨runs, fun j hj c hc => ?_, fun r c hc hr => ?_, fun j hj => ?_, fun j hj => ?_⟩
  · obtain rfl := List.mem_singleton.1 hj
    rw [State.runLane, cells _ c hc, if_pos ⟨rfl, List.mem_range.2 hc⟩]
  · rw [State.runLane, cells r c hc, if_neg fun e => hr l (List.mem_singleton_self l) e.1]
  · obtain rfl := List.mem_singleton.1 hj
    rw [State.runLane, KMap.find_put_self, flags]
    rfl
  · exact KMap.find_put_ne _ _ fun e => hj (List.mem_singleton.2 e)

theorem RanLanes.cons {base l : Nat} {lanes : List Nat} {t q q' : State × KMap Word} (hnew : l ∉ lanes)
    (h : RanLanes s n a cls pb xyz base [l] t q) (h' : RanLanes s n a cls pb xyz base lanes q q') :
    RanLanes s n a cls pb xyz base (l :: lanes) t q' := by
  have apart (j : Nat) (hj : j ∈ lanes) : base + j ≠ base + l := fun e =>
    hnew ((Nat.add_left_cancel e : j = l) ▸ hj)
  have stands (j : Nat) (hj : j ∈ lanes) (c : Nat) (hc : c < 128) :
      q.1.accAt n.team (base + j) c = t.1.accAt n.team (base + j) c :=
    h.otherRows _ c hc (by simpa using apart j hj)
  refine ⟨h'.runs, fun j hj c hc => ?_, fun r c hc hr => ?_, fun j hj => ?_, fun j hj => ?_⟩
  · rcases List.mem_cons.1 hj with rfl | hj
    · rw [h'.otherRows _ c hc fun i hi => (apart i hi).symm, h.cells _ List.mem_cons_self c hc]
    · rw [h'.cells j hj c hc, stands j hj c hc]
  · obtain ⟨hl, hr⟩ := List.forall_mem_cons.1 hr
    rw [h'.otherRows r c hc hr, h.otherRows r c hc (by simpa using hl)]
  · rcases List.mem_cons.1 hj with rfl | hj
    · rw [h'.otherFlags _ hnew, h.flags _ List.mem_cons_self]
    · have : q.1.flagsOf n a cls pb xyz (base + j) (a.regsOf j) = t.1.flagsOf n a cls pb xyz (base + j) (a.regsOf j) := by
        unfold State.flagsOf
        rw [List.map_congr_left fun c hc => by rw [stands j hj c (List.mem_range.1 hc)]]
      rw [h'.flags j hj, this]
  · obtain ⟨hl, hj⟩ := not_or.1 (mt List.mem_cons.2 hj)
    rw [h'.otherFlags j hj, h.otherFlags j (by simpa using hl)]

theorem runLanes_ran (hd : cls ≠ .d) {base : Nat} {lanes : List Nat} (hnd : lanes.Nodup) {acc : State × KMap Word}
    (h : RunsFrom s n.team acc.1) :
    RanLanes s n a cls pb xyz base lanes acc (lanes.foldl (State.runLane n a cls pb xyz base) acc) := by
  induction lanes generalizing acc with
  | nil => exact ⟨h, by simp, fun _ _ _ _ => rfl, by simp, fun _ _ => rfl⟩
  | cons l lanes ih =>
    obtain ⟨hnew, hnd⟩ := List.nodup_cons.1 hnd
    have first := runLane_ran (a := a) (pb := pb) (xyz := xyz) (base := base) (l := l) hd h
    exact first.cons hnew (ih hnd first.runs)

end

/-! ## An arrival, and its entry (R219, R227) -/

/-- The operation of an arrival lacks no lane where no register it read was written since. -/
theorem overLanes_fresh {o : TileOp} (h : o.stale = []) : o.overLanes = [] := by
  unfold TileOp.overLanes
  split <;> simp [h, dedup]

/-- Against weights that stand, an arrival with all its operands runs its lanes in turn, and its operation completes. -/
theorem runArrival_eq {s : State} {n : Entry} {a : Arrival} {pb : PBank} (cls : Cls) {g : Group} (hg : s.group a.gk = some g)
    (hundef : a.undef = []) (hstale : ∀ o, g.tiles.find? (fun t => t.id == a.id) = some o → o.stale = []) :
    s.runArrival n cls pb false a =
      let r := a.lanes.foldl (State.runLane n a cls pb (s.gridAt g) (arrivalBase n.mask a.gidx a.arow g.width)) (s, [])
      ((r.1.onGroup a.gk fun g => g.doneTile a.id fun t => { t with rowFlags := r.2 }).noteSaved a.gk).count (s.ctxOf g) 10
        a.lanes.length := by
  have late : ((g.tiles.find? fun t => t.id == a.id).map (·.overLanes)).getD [] = [] := by
    cases h : g.tiles.find? fun t => t.id == a.id with
    | none => rfl
    | some o => exact overLanes_fresh (hstale o h)
  unfold State.runArrival
  simp only [hg, hundef, late]
  rfl

theorem moduleOf_team {s : State} {g : Group} {tm : Team} {la : Launch} {md : Module} (h : s.moduleOf g = some (tm, la, md)) :
    s.teams.find g.team = some tm := by
  unfold State.moduleOf at h
  split at h
  · cases h
  · split at h
    · cases h
    · simp_all

theorem doneTile_tileDone (g : Group) (id : Nat) {f : TileOp → TileOp} (hf : ∀ t, (f t).id = t.id) :
    g.tileDone id (g.doneTile id f) := by
  refine ⟨rfl, fun t ht hid => ?_, ?_⟩
  · obtain ⟨o, -, rfl⟩ := List.mem_map.1 ht
    by_cases h : o.id = id
    · simp [h]
    · simp [h] at hid
  · simp only [Group.doneTile, List.map_map]
    refine List.map_congr_left fun o _ => ?_
    by_cases h : o.id = id <;> simp [h, hf]

theorem find_doneTile (g : Group) (id : Nat) {f : TileOp → TileOp} (hf : ∀ t, (f t).id = t.id) :
    (g.doneTile id f).tiles.find? (fun t => t.id == id) =
      (g.tiles.find? fun t => t.id == id).map fun t => { f t with complete := true } := by
  simp only [Group.doneTile]
  induction g.tiles with
  | nil => rfl
  | cons o tiles ih =>
    by_cases h : o.id = id
    · simp [h, hf]
    · have : (o.id == id) = false := by simpa using h
      simpa only [List.map_cons, List.find?_cons, this, Bool.false_eq_true, if_false] using ih

/-- An arrival's run leaves what its lanes leave, and completes its operation. -/
theorem runArrival_ran {s : State} {n : Entry} {a : Arrival} {cls : Cls} {pb : PBank} {g : Group} (hd : cls ≠ .d)
    (h : RunsFrom s n.team s) (hg : s.group a.gk = some g) (hundef : a.undef = []) (hnd : a.lanes.Nodup)
    (hstale : ∀ o, g.tiles.find? (fun t => t.id == a.id) = some o → o.stale = []) :
    ∃ r : State × KMap Word,
      RanLanes s n a cls pb (s.gridAt g) (arrivalBase n.mask a.gidx a.arow g.width) a.lanes (s, []) r ∧
      (s.runArrival n cls pb false a).teams = r.1.teams ∧
      (s.runArrival n cls pb false a).groups =
        (r.1.onGroup a.gk fun g => g.doneTile a.id fun t => { t with rowFlags := r.2 }).groups := by
  refine ⟨_, runLanes_ran (acc := (s, [])) hd hnd h, ?_⟩
  rw [runArrival_eq cls hg hundef hstale]
  exact (noteSaved_groups_teams _ _).symm

/-- An entry of one group may run (R219, R229 to R231, R234): it is chosen and admitted, its weights are in a bank and still
those it was bound to, `s1` gives it its blocks, and nothing of its operands, its accumulators or its team's tile operations
is undefined or in error (R227, R235). -/
structure SoloReady (s s1 : State) (core key : Nat) (n : Entry) (b : LBank) (a : Arrival) (bi : Nat) (pb : PBank) (cls : Cls)
    (g : Group) : Prop where
  chosen : s.chosenEntry core = some (key, n)
  bound : n.bound = some b
  solo : n.arrivals = [a]
  resident : s.residentBank core n.team a.bank b.gen = some (bi, pb)
  clsOf : clsOf a.fmt = some cls
  admitted : (s.array core).admitted = true
  blocks : s.takeBlocks n.team core (dedup ((s.entryRows n).map (· / 16))) = some s1
  weights : ∀ p ∈ b.arrays, s1.writtenSince p.1 p.2 b.since = false
  group : s.group a.gk = some g
  seated : (s.teams.find n.team).isSome
  tilesOpen : s.tilesOpen n.team
  accs : s1.latent.accs = []
  undef : a.undef = []
  lanes : a.lanes.Nodup
  fresh : ∀ o, g.tiles.find? (fun t => t.id == a.id) = some o → o.stale = []

section
variable {s s1 : State} {core key bi : Nat} {n : Entry} {b : LBank} {a : Arrival} {pb : PBank} {cls : Cls} {g : Group}
  (e : SoloReady s s1 core key n b a bi pb cls g)
include e

/-- ENTRY_EXECUTION of an entry of one group runs its arrival; all else that it does touches neither groups nor teams. -/
theorem SoloReady.exec : ∃ t, exec (.entryExecution core) s = .next t ∧
    t.groups = (s1.runArrival n cls pb false a).groups ∧ t.teams = (s1.runArrival n cls pb false a).teams := by
  have hfree : (b.arrays.any fun p => s1.writtenSince p.1 p.2 b.since) = false :=
    List.any_eq_false.2 fun p hp => by simp [e.weights p hp]
  refine ⟨s1.runEntry core key n bi pb b cls, ?_, ?_, ?_⟩
  · show execEntryExecution core s = _
    simp only [execEntryExecution, e.chosen, e.bound, e.solo, e.resident, e.clsOf, e.admitted, e.blocks, Bool.not_true]
    rfl
  all_goals simp [State.runEntry, e.solo, hfree, State.setArray]

/-- R215, R216, R219: in a class whose results fill one column, each row of a lane takes its results, of the accumulators as
they stood; no other row changes; and the operation completes with the flags of its rows. -/
theorem SoloReady.ran (hd : cls ≠ .d) {base : Nat} (hbase : base = arrivalBase n.mask a.gidx a.arow g.width) :
    ∃ t fl tm', Machine.exec (.entryExecution core) s = .next t ∧
      s.onlyGroup t a.gk (g.doneTile a.id fun o => { o with rowFlags := fl }) ∧ t.teams.find n.team = some tm' ∧
      (∀ l ∈ a.lanes, ∀ c < 128, tm'.accAt (base + l) c =
        BitVec.ofNat 32 (cellOf a cls pb (s1.gridAt g) (base + l) (a.regsOf l) c (s.accAt n.team (base + l) c)).1) ∧
      (∀ r c, c < 128 → (∀ l ∈ a.lanes, r ≠ base + l) → tm'.accAt r c = s.accAt n.team r c) ∧
      ∀ l ∈ a.lanes, fl.find l =
        some (BitVec.ofNat 32 (s.flagsOf n a cls pb (s1.gridAt g) (base + l) (a.regsOf l) ||| a.extraFlags pb l)) := by
  subst hbase
  have same := takeBlocks_sameAccs e.blocks
  have hgroup (k : Nat) : s1.group k = s.group k := congrArg (KMap.find · k) same.groups
  have hs1 : RunsFrom s1 n.team s1 :=
    ⟨fun _ => rfl, same.tilesOpen e.tilesOpen, e.accs, same.team_isSome n.team ▸ e.seated⟩
  obtain ⟨t, hexec, hgroups, hteams⟩ := e.exec
  obtain ⟨r, ran, hteams', hgroups'⟩ :=
    runArrival_ran (cls := cls) (pb := pb) hd hs1 ((hgroup _).trans e.group) e.undef e.lanes e.fresh
  obtain ⟨tm', htm'⟩ := Option.isSome_iff_exists.1 ran.runs.seated
  have acc (row c : Nat) : tm'.accAt row c = r.1.accAt n.team row c := (State.accAt_team htm' row c).symm
  have old (row c : Nat) : (s1, ([] : KMap Word)).1.accAt n.team row c = s.accAt n.team row c := same.accAt _ _ _
  have lookup (k : Nat) : t.group k =
      (r.1.onGroup a.gk fun g => g.doneTile a.id fun o => { o with rowFlags := r.2 }).group k :=
    congrArg (KMap.find · k) (hgroups.trans hgroups')
  refine ⟨t, r.2, tm', hexec, ⟨?_, fun k hk => ?_⟩, ?_, fun l hl c hc => ?_, fun row c hc hr => ?_, fun l hl => ?_⟩
  · rw [lookup, group_onGroup, if_pos rfl, ran.runs.groups, hgroup, e.group]
    rfl
  · rw [lookup, group_onGroup, if_neg hk, ran.runs.groups, hgroup]
  · rw [hteams, hteams', htm']
  · rw [acc, ran.cells l hl c hc, old]
  · rw [acc, ran.otherRows row c hc hr, old]
  · rw [ran.flags l hl]
    simp only [State.flagsOf, old]

end

/-! ## The numbers of the integer classes (R216) -/

/-- The sum of a column of a row in an integer class whose elements have `w` bits, with its accumulator input (R216). -/
def intSum (w : Nat) (cls : Cls) (a : Arrival) (pb : PBank) (regs : List Word) (col : Nat) (c : Word) : Int :=
  ((List.range cls.k).map fun k => sext w ((rowOf a.fmt regs).codes.getD k 0) *
    sext w ((columnOf pb.fmt pb.elems pb.scales pb.extras col).codes.getD k 0)).sum + if a.cz then 0 else c.toInt

/-- Does a sum lie outside the i32 range? -/
def outsideI32 (x : Int) : Bool := decide (x < -2 ^ 31) || decide (2 ^ 31 ≤ x)

theorem zip_eq_map_range {k : Nat} {xs ys : List Nat} (hx : xs.length = k) (hy : ys.length = k) :
    xs.zip ys = (List.range k).map fun i => (xs.getD i 0, ys.getD i 0) := by
  refine List.ext_getElem (by simp [hx, hy]) fun i h h' => ?_
  have hi : i < k := by simpa using h'
  simp [hx, hy, hi]

theorem sext_toNat (c : Word) : sext 32 c.toNat = c.toInt := by
  have hmod : c.toNat % 2 ^ 32 = c.toNat := Nat.mod_eq_of_lt c.isLt
  simp only [sext, hmod, BitVec.toInt_eq_msb_cond, BitVec.msb_eq_getLsbD_last, BitVec.testBit_toNat]
  rfl

theorem codesOf_length (w n : Nat) (bs : List Byte) : (codesOf w n bs).length = n := by
  simp [codesOf, natsFrom_eq_range']

theorem ofNat_wrapN (x : Int) : BitVec.ofNat 32 (wrapN 32 x) = BitVec.ofInt 32 x := by
  apply BitVec.eq_of_toNat_eq
  simp only [wrapN, BitVec.toNat_ofNat, BitVec.toNat_ofInt]
  omega

theorem foldl_or_fIf (f : Nat) (p : Nat → Bool) (cols : List Nat) (b : Bool) :
    (cols.map fun c => fIf (p c) f).foldl (· ||| ·) (fIf b f) = fIf (b || cols.any p) f := by
  induction cols generalizing b with
  | nil => simp
  | cons c cols ih =>
    have : fIf b f ||| fIf (p c) f = fIf (b || p c) f := by cases b <;> cases p c <;> simp [fIf]
    rw [List.map_cons, List.foldl_cons, this, ih, List.any_cons, Bool.or_assoc]

section
variable {w : Nat} {cls : Cls} {a : Arrival} {pb : PBank} (hw : (cls = .i8 ∧ w = 8) ∨ (cls = .i4 ∧ w = 4))
  (ha : clsOf a.fmt = some cls) (hpb : clsOf pb.fmt = some cls)
include hw ha hpb

theorem cellOf_int (xyz : Nat × Nat × Nat) (row : Nat) (regs : List Word) (col : Nat) (c : Word) :
    cellOf a cls pb xyz row regs col c =
      (wrapN 32 (intSum w cls a pb regs col c), fIf (outsideI32 (intSum w cls a pb regs col c)) fOVF) := by
  have row_length : (rowOf a.fmt regs).codes.length = cls.k := by simp [rowOf, ha, codesOf_length]
  have column_length : (columnOf pb.fmt pb.elems pb.scales pb.extras col).codes.length = cls.k := by
    simp [columnOf, hpb, codesOf_length]
  have hcell : cellOf a cls pb xyz row regs col c = accumulateInt w
      ((rowOf a.fmt regs).codes.zip (columnOf pb.fmt pb.elems pb.scales pb.extras col).codes)
      (if a.cz then none else some c.toNat) := by
    rcases hw with ⟨rfl, rfl⟩ | ⟨rfl, rfl⟩ <;> rfl
  have hsum : intSum w cls a pb regs col c =
      (((rowOf a.fmt regs).codes.zip (columnOf pb.fmt pb.elems pb.scales pb.extras col).codes).map
        fun p => sext w p.1 * sext w p.2).foldl (· + ·) 0 +
        ((if a.cz then none else some c.toNat).map fun x => sext 32 x).getD 0 := by
    rw [zip_eq_map_range row_length column_length, List.map_map, ← List.sum_eq_foldl]
    cases h : a.cz <;> simp [intSum, h, sext_toNat, Function.comp_def]
  have range_top (x : Int) : decide (2 ^ 31 - 1 < x) = decide (2 ^ 31 ≤ x) := decide_eq_decide.2 (by omega)
  rw [hcell, accumulateInt, ← hsum, outsideI32, range_top]

/-- R216: the flags of a row are `OVF` where a sum of one of its columns lies outside the i32 range, and no other. -/
theorem flagsOf_int (s : State) (n : Entry) (xyz : Nat × Nat × Nat) (row : Nat) (regs : List Word) :
    s.flagsOf n a cls pb xyz row regs =
      fIf ((List.range 128).any fun col => outsideI32 (intSum w cls a pb regs col (s.accAt n.team row col))) fOVF := by
  simp only [State.flagsOf, cellOf_int hw ha hpb]
  exact foldl_or_fIf _ _ _ false

omit hpb in
theorem extraFlags_int (hecc : pb.ecc = false) (hrows : a.ecc = []) (l : Nat) : a.extraFlags pb l = 0 := by
  have six : ∀ f, isSixBit f = true → clsOf f = some .e := by
    intro f
    cases f <;> decide
  have : isSixBit a.fmt = false := by
    rcases hw with ⟨rfl, -⟩ | ⟨rfl, -⟩ <;> exact Bool.eq_false_iff.2 fun h => by simp [six _ h] at ha
  simp [Arrival.extraFlags, this, hecc, hrows, fIf]

end

/-- Settles O59: the run of an entry, with the numbers of the integer classes. -/
theorem integerMatrixResults : Obligations.IntegerMatrixResults := by
  unfold Obligations.IntegerMatrixResults
  intro s core key n b a bi pb cls w s1 g tm la md rows o hchosen hbound ha hbank hw hcls hcls' hadm htake hg hteam hmodule
    hrows hundef hnd ho hstale hopen haccs hecc hecc' hkept base product sum
  have hd : cls ≠ .d := by rcases hw with ⟨rfl, -⟩ | ⟨rfl, -⟩ <;> decide
  have htm : s.teams.find n.team = some tm := hteam ▸ moduleOf_team hmodule
  have sum_eq (l col : Nat) : intSum w cls a pb (a.regsOf l) col (s.accAt n.team (base + l) col) = sum l col := by
    simp only [intSum, Arrival.regsOf, hrows, State.accAt_team htm, sum, product, Option.getD_some]
  have fresh : ∀ o', g.tiles.find? (fun t => t.id == a.id) = some o' → o'.stale = [] := by
    rw [ho]
    rintro _ ⟨⟩
    exact hstale
  have e : SoloReady s s1 core key n b a bi pb cls g :=
    ⟨hchosen, hbound, ha, hbank, hcls, hadm, htake, hkept, hg, by simp [htm], hopen, haccs, hundef, hnd, fresh⟩
  obtain ⟨t, fl, tm', hexec, hgroup, htm', hcells, -, hflags⟩ := e.ran hd (base := base) rfl
  refine ⟨t, _, tm', { o with rowFlags := fl, complete := true }, hexec, hgroup, doneTile_tileDone g a.id fun _ => rfl, htm',
    fun l hl col hcol => ?_, ?_, rfl, fun l hl => ?_⟩
  · rw [hcells l hl col hcol, cellOf_int hw hcls hcls', ofNat_wrapN, sum_eq]
  · rw [find_doneTile (f := fun o => { o with rowFlags := fl }) g a.id fun _ => rfl, ho, Option.map_some]
  · rw [hflags l hl, flagsOf_int hw hcls hcls', extraFlags_int hw hcls hecc hecc']
    simp only [sum_eq, Nat.or_zero]
    have anywhere : ((List.range 128).any fun col => outsideI32 (sum l col)) = true ↔
        ∃ col < 128, sum l col < -2 ^ 31 ∨ 2 ^ 31 ≤ sum l col := by
      simp only [outsideI32, List.any_eq_true, List.mem_range, Bool.or_eq_true, decide_eq_true_eq]
    simp only [fIf, anywhere]
    split <;> rfl

end Sys2Proof.Machine
end

section
/-! SUPPORT. The round trip of every instruction, with any word behind one that has no literal, and the first two steps of
R43. -/

namespace Sys2Proof.Laws

open Sys2Proof

/-- The round trips of the words, put together; an event is no word, and not well formed. -/
theorem roundTrip (i : Instr) : RoundTrip.Statement i := by
  cases i with
  | add o => exact RoundTrip.add o
  | sub o => exact RoundTrip.sub o
  | mul o => exact RoundTrip.mul o
  | mulhi o => exact RoundTrip.mulhi o
  | mulw o => exact RoundTrip.mulw o
  | mad o => exact RoundTrip.mad o
  | madw o => exact RoundTrip.madw o
  | min o => exact RoundTrip.min o
  | max o => exact RoundTrip.max o
  | abs o => exact RoundTrip.abs o
  | neg o => exact RoundTrip.neg o
  | and o => exact RoundTrip.and o
  | or o => exact RoundTrip.or o
  | xor o => exact RoundTrip.xor o
  | not o => exact RoundTrip.not o
  | andn o => exact RoundTrip.andn o
  | shl o => exact RoundTrip.shl o
  | shr o => exact RoundTrip.shr o
  | sra o => exact RoundTrip.sra o
  | rol o => exact RoundTrip.rol o
  | ror o => exact RoundTrip.ror o
  | bfx o => exact RoundTrip.bfx o
  | bfi o => exact RoundTrip.bfi o
  | popc o => exact RoundTrip.popc o
  | clz o => exact RoundTrip.clz o
  | ctz o => exact RoundTrip.ctz o
  | brev o => exact RoundTrip.brev o
  | cmp o => exact RoundTrip.cmp o
  | sel o => exact RoundTrip.sel o
  | mov o => exact RoundTrip.mov o
  | adda o => exact RoundTrip.adda o
  | addsc o => exact RoundTrip.addsc o
  | fadd o => exact RoundTrip.fadd o
  | fsub o => exact RoundTrip.fsub o
  | fmul o => exact RoundTrip.fmul o
  | fma o => exact RoundTrip.fma o
  | fmin o => exact RoundTrip.fmin o
  | fmax o => exact RoundTrip.fmax o
  | fminn o => exact RoundTrip.fminn o
  | fmaxn o => exact RoundTrip.fmaxn o
  | fabs o => exact RoundTrip.fabs o
  | fneg o => exact RoundTrip.fneg o
  | fcmp o => exact RoundTrip.fcmp o
  | fclass o => exact RoundTrip.fclass o
  | frint o => exact RoundTrip.frint o
  | fscale o => exact RoundTrip.fscale o
  | cvt o => exact RoundTrip.cvt o
  | rcps o => exact RoundTrip.rcps o
  | rsqs o => exact RoundTrip.rsqs o
  | cord o => exact RoundTrip.cord o
  | shfl o => exact RoundTrip.shfl o
  | red o => exact RoundTrip.red o
  | scan o => exact RoundTrip.scan o
  | ballot o => exact RoundTrip.ballot o
  | any o => exact RoundTrip.any o
  | all o => exact RoundTrip.all o
  | matchLanes o => exact RoundTrip.matchLanes o
  | ld o => exact RoundTrip.ld o
  | lds o => exact RoundTrip.lds o
  | st o => exact RoundTrip.st o
  | sptest o => exact RoundTrip.sptest o
  | spcast o => exact RoundTrip.spcast o
  | feset o => exact RoundTrip.feset o
  | feclr o => exact RoundTrip.feclr o
  | fetest o => exact RoundTrip.fetest o
  | aadd o => exact RoundTrip.aadd o
  | amin o => exact RoundTrip.amin o
  | amax o => exact RoundTrip.amax o
  | aand o => exact RoundTrip.aand o
  | aor o => exact RoundTrip.aor o
  | axor o => exact RoundTrip.axor o
  | aexch o => exact RoundTrip.aexch o
  | acas o => exact RoundTrip.acas o
  | afadd o => exact RoundTrip.afadd o
  | ofadd o => exact RoundTrip.ofadd o
  | fence a b c => exact RoundTrip.fence a b c
  | fenceOpr a => exact RoundTrip.fenceOpr a
  | wait a b c d e => exact RoundTrip.wait a b c d e
  | arrive a b => exact RoundTrip.arrive a b
  | bwait a b => exact RoundTrip.bwait a b
  | br a b => exact RoundTrip.br a b
  | brc a b c d => exact RoundTrip.brc a b c d
  | brx a b => exact RoundTrip.brx a b
  | vote a => exact RoundTrip.vote a
  | regang a => exact RoundTrip.regang a
  | loop a b c => exact RoundTrip.loop a b c
  | yield a => exact RoundTrip.yield a
  | exit a => exact RoundTrip.exit a
  | call a b => exact RoundTrip.call a b
  | calli a b => exact RoundTrip.calli a b
  | ret a => exact RoundTrip.ret a
  | unwind a b c => exact RoundTrip.unwind a b c
  | copy o => exact RoundTrip.copy o
  | gather o => exact RoundTrip.gather o
  | scatter o => exact RoundTrip.scatter o
  | srank o => exact RoundTrip.srank o
  | scmp o => exact RoundTrip.scmp o
  | coll o => exact RoundTrip.coll o
  | msg o => exact RoundTrip.msg o
  | crew a b => exact RoundTrip.crew a b
  | wld o => exact RoundTrip.wld o
  | mma o => exact RoundTrip.mma o
  | accld o => exact RoundTrip.accld o
  | accst o => exact RoundTrip.accst o
  | accrd o => exact RoundTrip.accrd o
  | accz o => exact RoundTrip.accz o
  | nop a b => exact RoundTrip.nop a b
  | movs a b c d => exact RoundTrip.movs a b c d
  | movsm a b c => exact RoundTrip.movsm a b c
  | trap a b => exact RoundTrip.trap a b
  | brkpt a b => exact RoundTrip.brkpt a b
  | enter a b => exact RoundTrip.enter a b
  | leave a b => exact RoundTrip.leave a b
  | launch o => exact RoundTrip.launch o
  | evsig o => exact RoundTrip.evsig o
  | pairNop a b c => exact RoundTrip.pairNop a b c
  | pairMov a b c => exact RoundTrip.pairMov a b c
  | pairAdd a b c => exact RoundTrip.pairAdd a b c
  | pairSub a b c => exact RoundTrip.pairSub a b c
  | pairMul a b c => exact RoundTrip.pairMul a b c
  | pairAnd a b c => exact RoundTrip.pairAnd a b c
  | pairOr a b c => exact RoundTrip.pairOr a b c
  | pairXor a b c => exact RoundTrip.pairXor a b c
  | pairShl a b c => exact RoundTrip.pairShl a b c
  | pairShr a b c => exact RoundTrip.pairShr a b c
  | pairSra a b c => exact RoundTrip.pairSra a b c
  | pairMin a b c => exact RoundTrip.pairMin a b c
  | pairMax a b c => exact RoundTrip.pairMax a b c
  | pairAddi a b c => exact RoundTrip.pairAddi a b c
  | pairShli a b c => exact RoundTrip.pairShli a b c
  | pairShri a b c => exact RoundTrip.pairShri a b c
  | pairSrai a b c => exact RoundTrip.pairSrai a b c
  | pairAndi a b c => exact RoundTrip.pairAndi a b c
  | pairMovi a b c => exact RoundTrip.pairMovi a b c
  | pairFadd a b c => exact RoundTrip.pairFadd a b c
  | pairFsub a b c => exact RoundTrip.pairFsub a b c
  | pairFmul a b c => exact RoundTrip.pairFmul a b c
  | pairFmin a b c => exact RoundTrip.pairFmin a b c
  | pairFmax a b c => exact RoundTrip.pairFmax a b c
  | pairFminn a b c => exact RoundTrip.pairFminn a b c
  | pairFmaxn a b c => exact RoundTrip.pairFmaxn a b c
  | pairFabs a b c => exact RoundTrip.pairFabs a b c
  | pairFneg a b c => exact RoundTrip.pairFneg a b c
  | pairCvtif a b c => exact RoundTrip.pairCvtif a b c
  | pairCvtfi a b c => exact RoundTrip.pairCvtfi a b c
  | _ => exact fun w => Bool.noConfusion w

/-- A source B without a literal word has the register form (R38). -/
theorem form_of_noWord {b : Src} (h : b.word = none) : b.form = 0 := by
  cases b with
  | reg _ => rfl
  | lit _ _ => cases h

/-- A word that is encoded without a literal is not of the literal form (R33): each layout lays down its own form, and a
source B gives form and literal together. -/
theorem encode_form_ne_two {i : Instr} (h : i.encode.2 = none) : num i.encode.1 61 2 ≠ 2 := by
  cases i
  case nop h' lit =>
    obtain rfl : lit = none := h
    simp [Instr.encode, full_form]
  all_goals
    simp_all [Instr.encode, Instr.halves, encA, encC, encCvt, encK, encX, encM, encP, encT, encE, encAcc, full_form, low_form,
      pair_form, form_of_noWord]
  all_goals decide

/-- What stands behind a word that is not of the literal form is not read (R33, R38). -/
theorem decode_lit_irrelevant {w : Dword} (h : num w 61 2 ≠ 2) (lit lit' : Dword) : decode w lit = decode w lit' := by
  have hf : (num w 61 2 == 2) = false := by simpa using h
  simp only [decode, srcOf, hf, Bool.false_eq_true, if_false]

/-- Settles O2: the round trip of each constructor, and that a word without a literal is read alone. -/
theorem encodeDecodeAgree : Obligations.EncodeDecodeAgree := by
  unfold Obligations.EncodeDecodeAgree
  intro i lit hwf
  have h0 : decode i.encode.1 (i.encode.2.getD 0) = .ok i := roundTrip i hwf
  cases h : i.encode.2 with
  | some v => rwa [h] at h0
  | none =>
    rw [h] at h0
    exact (decode_lit_irrelevant (encode_form_ne_two h) lit 0).trans h0

/-- Bit 0 of a word, as the decoder reads it. -/
theorem flag_zero (w : Dword) : flag w 0 = w.getLsbD 0 := by
  simp only [flag, num, fld, BitVec.getLsbD, Nat.testBit_zero, BitVec.extractLsb'_toNat, Nat.shiftRight_zero, pow_one]
  exact Bool.beq_eq_decide_eq _ _

/-- Settles O3: the decoder looks at form and mask before anything else. -/
theorem formAndEmptyMaskComeFirst : Obligations.FormAndEmptyMaskComeFirst := by
  unfold Obligations.FormAndEmptyMaskComeFirst
  intro w lit
  refine ⟨fun h => ?_, fun h3 h1 hm => ?_⟩
  · have : (num w 61 2 == 3 || (num w 61 2 == 1 && flag w 0)) = true := by
      rcases h with h | ⟨h1, h0⟩
      · simp [h]
      · simp [h1, flag_zero, h0]
    simp only [decode, this, if_true]
  · have hm0 : (hdrOf w).m = 0 := BitVec.eq_of_toNat_eq hm
    have hform : (num w 61 2 == 3 || (num w 61 2 == 1 && flag w 0)) = false := by
      simp only [Bool.or_eq_false_iff, Bool.and_eq_false_imp, beq_eq_false_iff_ne, beq_iff_eq]
      exact ⟨h3, fun h => by simpa [flag_zero, h] using h1⟩
    simp only [decode, hform, hm0, Bool.false_eq_true, if_false, beq_self_eq_true, if_true, beq_iff_eq]

end Sys2Proof.Laws
end

section
/-! SUPPORT. What a lane word that passes its checks leaves, for any lane function that the word is known to run (R83, R98):
its flags, and the value of each register that it writes. -/

namespace Sys2Proof.Machine

open Sys2Proof

/-! ## Destinations lie in the register file (R36) -/

theorem span_le {wide : Bool} {r : Reg} (h : regOk wide r = true) : (span wide r).1 + (span wide r).2 ≤ 256 := by
  have hr : r.toNat < 256 := r.isLt
  cases wide with
  | false => exact hr
  | true =>
    simp only [regOk, evenReg, Bool.not_true, Bool.false_or, beq_iff_eq] at h
    show r.toNat + 2 ≤ 256
    omega

theorem regOk_false (r : Reg) : regOk false r = true := rfl

theorem doubleFmt_wide {f : Fmt} (h : isMulwFmt f = true) : (doubleFmt f).wide = mulwWide f := by
  cases f <;> first | rfl | cases h

theorem Instr.wf_fields {i : Instr} (h : i.wf = true) : i.fieldsOk = true := by
  simp only [Instr.wf, Bool.and_eq_true] at h
  exact h.1.2

theorem cvt_destOk {o : CvtOp} (h : o.fieldsOk = true) : regOk o.fmt.wide o.vd = true := by
  rcases hf : o.fmt <;> simp_all [CvtOp.fieldsOk, regOk, Fmt.wide, Fmt.isPacked, Fmt.isScalarCvt, Fmt.isInt]

theorem cord_destOk {o : KOp} (h : (Instr.cord o).fieldsOk = true) : regOk (cordPair o.cmode) o.vd = true := by
  simp only [Instr.fieldsOk, Bool.and_eq_true, Bool.or_eq_true, decide_eq_true_eq] at h
  obtain ⟨⟨_, hd⟩, _⟩ := h
  rcases hd with hc | hd
  · have : cordPair o.cmode = false := by
      rw [cordPair, Bool.or_eq_false_iff, beq_eq_false_iff_ne, beq_eq_false_iff_ne]
      constructor <;> rintro h <;> simp [h] at hc
    rw [this, regOk_false]
  · simp [regOk, hd]

/-- The destination of a lane word that the decoder accepts. -/
theorem dest_le {i : Instr} {w : LaneWord} (h : laneWordOf i = some w) (hwf : i.wf = true) :
    w.dest.1 + w.dest.2 ≤ 256 := by
  have hf := Instr.wf_fields hwf
  cases i
  all_goals first | (cases h; done) | obtain rfl := Option.some.inj h
  all_goals refine span_le ?_
  case cvt o => exact cvt_destOk hf
  case cord o => exact cord_destOk hf
  all_goals
    simp_all [Instr.fieldsOk, AOp.intSat, AOp.intTwo, AOp.intOne, AOp.shift, AOp.floatTwo, doubleFmt_wide, regOk]

/-! ## What a lane word writes -/

theorem natsFrom_nodup (a n : Nat) : (natsFrom a n).Nodup := by
  induction n generalizing a with
  | zero => exact List.nodup_nil
  | succ n ih => exact List.nodup_cons.2 ⟨fun h => by have := mem_natsFrom.1 h; omega, ih _⟩

/-- A lane function that fills its destination writes each register once. -/
theorem fills_unique {f : LaneFn} {dest : Nat × Nat} (hf : Fills f dest) {e : Env} {l q l' : Nat} {v v' : Word}
    (h : (l, q, v) ∈ (f e l').1) (h' : (l, q, v') ∈ (f e l').1) : v = v' := by
  have hnd : ((f e l').1.map fun w => (w.1, w.2.1)).Nodup := by
    rw [hf e l']
    exact (natsFrom_nodup _ _).map fun a b hab => (Prod.mk.inj hab).2
  have := List.inj_on_of_nodup_map hnd h h' rfl
  exact (Prod.mk.inj (Prod.mk.inj this).2).2

/-- What a lane word that passes its checks leaves, when `f` is what it runs on each lane. -/
theorem LaneReady.completes {i : Instr} {w : LaneWord} {s : State} {e : Env} (r : LaneReady i w s e) {f : LaneFn}
    (hf : Fills f w.dest)
    (hx : exec i s = word w.h w.len (w.dest :: w.reads) w.reads (perLane w.k f) s) {P : State → Group → Prop}
    (hP : ∀ t g', Spared s t e
        { e.g with flags := e.g.flags ||| BitVec.ofNat 32 (e.lanes.foldl (fun a l => a ||| (f e l).2) 0) }
        (fun l q => w.k = true ∧ w.writes e l q) (w.writes e) g' →
      (∀ l ∈ e.lanes, ∀ q v, (l, q, v) ∈ (f e l).1 → g'.seen l q = some v ∧
        (w.k = true → (e.g.frames.find (e.g.lane l).depth.toNat).isSome →
          g'.bankAt (e.g.lane l).depth.toNat l q = some v)) → P t g') :
    Completes i s e P := by
  obtain ⟨hw, hwf, ready⟩ := r
  obtain ⟨t, g', ht, hg, hs, hv⟩ := lane_word (len := w.len) (k := w.k) ready hf (dest_le hw hwf)
  refine ⟨t, g', hx.trans ht, hg, hP t g' hs fun l hl q v hq => ?_⟩
  obtain ⟨-, h1, h2⟩ := fills_mem hf hq
  refine hv l hl q v h1 h2 fun w' hw' hq' => ?_
  obtain ⟨hl', -, -⟩ := fills_mem hf hw'
  obtain ⟨l', q', v'⟩ := w'
  obtain rfl : l' = l := hl'
  obtain rfl : q' = q := hq'
  exact fills_unique hf hw' hq

/-- The same for its group alone: its flags, and what the next word reads. -/
theorem LaneReady.results {i : Instr} {w : LaneWord} {s : State} {e : Env} (r : LaneReady i w s e) {f : LaneFn}
    (hf : Fills f w.dest)
    (hx : exec i s = word w.h w.len (w.dest :: w.reads) w.reads (perLane w.k f) s) {P : Group → Prop}
    (hP : ∀ g' : Group, g'.flags = e.g.flags ||| BitVec.ofNat 32 (e.lanes.foldl (fun a l => a ||| (f e l).2) 0) →
      (∀ l ∈ e.lanes, ∀ q v, (l, q, v) ∈ (f e l).1 → g'.seen l q = some v) → P g') :
    Completes i s e fun _ g' => P g' := by
  refine r.completes hf hx fun t g' hs hv => hP g' ?_ fun l hl q v hq => (hv l hl q v hq).1
  have := hs.special
  simp only [Prod.mk.injEq] at this
  exact this.2.1

/-- Settles O9: each lane word runs a function that fills its destination lane by lane. -/
theorem laneWordsComplete : Obligations.LaneWordsComplete := by
  unfold Obligations.LaneWordsComplete
  intro i w s e r
  obtain ⟨f, hf, hx⟩ := actsByLane_of r.1 r.2.1 s
  refine r.completes hf hx fun t g' hs hv => ⟨⟨_, hs⟩, fun l q hq => ?_⟩
  obtain ⟨hl, h1, h2⟩ := hq
  obtain ⟨⟨l', q', v⟩, hw, hl', hq'⟩ := fills_exists hf e l ⟨h1, h2⟩
  obtain rfl : l' = l := hl'
  obtain rfl : q' = q := hq'
  exact ⟨v, hv l' hl q' v hw⟩

/-! ## The values that registers show -/

theorem sext_eq_toInt (n x : Nat) : sext n x = (BitVec.ofNat n x).toInt := by
  simp only [sext, BitVec.toInt_eq_msb_cond, BitVec.msb_eq_getLsbD_last, BitVec.getLsbD, BitVec.toNat_ofNat]
  push_cast
  rfl

/-- A value written in a format shows as that value (R99). -/
theorem shows_putFmt {g : Group} {f : Fmt} {l : Nat} {vd : Reg} {x : Nat}
    (h : ∀ q v, (l, q, v) ∈ putFmt f l vd x → g.seen l q = some v) : g.shows f l vd x := by
  unfold putFmt at h
  unfold Group.shows
  split
  · next hw =>
    rw [if_pos hw] at h
    exact ⟨h _ _ List.mem_cons_self, h _ _ (List.mem_cons_of_mem _ List.mem_cons_self)⟩
  · next hw =>
    rw [if_neg hw] at h
    have h1 := h _ _ List.mem_cons_self
    rw [h1]
    split
    · next hs =>
      rw [extend, if_pos hs, ofNat_wrapN, sext_eq_toInt]
      rfl
    · next hs =>
      rw [extend, if_neg hs]
      congr 1
      apply BitVec.eq_of_toNat_eq
      simp

theorem shows32_put1 {g : Group} {l : Nat} {vd : Reg} {x : Nat}
    (h : ∀ q v, (l, q, v) ∈ put1 l vd x → g.seen l q = some v) : g.shows32 l vd (BitVec.ofNat 32 x) :=
  h _ _ List.mem_cons_self

theorem showsPair_putPair {g : Group} {l : Nat} {vd : Reg} {x : Nat}
    (h : ∀ q v, (l, q, v) ∈ putPair l vd x → g.seen l q = some v) : g.showsPair l vd (BitVec.ofNat 64 x) := by
  have h0 := h _ _ List.mem_cons_self
  have h1 := h _ _ (List.mem_cons_of_mem _ List.mem_cons_self)
  refine ⟨h0.trans (congrArg some (BitVec.eq_of_toNat_eq ?_)), h1.trans (congrArg some (BitVec.eq_of_toNat_eq ?_))⟩
  · simp only [BitVec.toNat_ofNat, BitVec.toNat_setWidth]
    omega
  · simp only [BitVec.toNat_ofNat, BitVec.toNat_setWidth, BitVec.toNat_ushiftRight, Nat.shiftRight_eq_div_pow]
    omega

/-- A word none of whose lanes raises a flag leaves the flags as they were. -/
theorem or_noFlags {α : Type} (c : α → Nat) (ls : List α) (h : ∀ l ∈ ls, c l = 0) :
    ls.foldl (fun a l => a ||| c l) 0 = 0 := by
  induction ls with
  | nil => rfl
  | cons l ls ih =>
    rw [List.foldl_cons, h l List.mem_cons_self]
    exact ih fun x hx => h x (List.mem_cons_of_mem _ hx)

/-- A flag that some lanes raise is set once (R29). -/
theorem or_flagIf {α : Type} (p : α → Bool) (f : Nat) (ls : List α) :
    ls.foldl (fun a l => a ||| fIf (p l) f) 0 = fIf (ls.any p) f := by
  induction ls using List.reverseRecOn with
  | nil => rfl
  | append_singleton ls l ih =>
    rw [List.foldl_append, ih, List.any_append, List.foldl_cons, List.foldl_nil, List.any_cons, List.any_nil]
    cases ls.any p <;> cases p l <;> simp [fIf]

end Sys2Proof.Machine
end

section
/-! SUPPORT. The results of class 0 (R101 to R108): integers, logic, shifts, fields, counts, selection, addresses. -/

namespace Sys2Proof.Machine

open Sys2Proof

/-! ## Integer words (R101, R102) -/

theorem leastOf_le_greatestOf (f : Fmt) : leastOf f ≤ greatestOf f := by
  cases f <;> decide

theorem abs_eq_ite (a : Int) : |a| = if a < 0 then -a else a := by
  split
  · exact abs_of_neg ‹_›
  · exact abs_of_nonneg (by omega)

/-- Every integer word acts on its lanes by its exact value. -/
theorem integer_acts {i : Instr} {w : LaneWord} {o : AOp} {res : Fmt} {v : Int → Int → Int → Int}
    (hw : laneWordOf i = some w) (hv : intValue i = some (o, res, v)) (s : State) :
    Fills (intLane o res v) w.dest ∧
      exec i s = word w.h w.len (w.dest :: w.reads) w.reads (perLane w.k (intLane o res v)) s := by
  cases i
  all_goals first | (cases hv; done) | skip
  all_goals
    obtain ⟨rfl, rfl, rfl⟩ := by simpa [intValue] using hv
    obtain rfl := Option.some.inj hw
    refine ⟨fills_fmt _ _ _ _, ?_⟩
  case add | sub | mul | mulhi | mulw => exact aWord_ab _ _ _ _ _ _
  case mad | madw => exact aWord_abc _ _ _ _ _ _ _
  case neg => exact aWord_a _ _ _ _ _
  case abs =>
    simp only [abs_eq_ite]
    exact aWord_a _ _ _ _ _
  case min | max =>
    simp only [min_def, max_def]
    exact aWord_ab _ _ _ _ _ _

/-- R101: the value of a narrowed result, and whether it was clamped. -/
theorem narrow_eq (f : Fmt) (sat : Bool) (x : Int) :
    narrow f.isSigned f.width sat x =
      (((if sat then max (leastOf f) (min x (greatestOf f)) else x) % 2 ^ f.width).toNat,
        fIf (sat && decide (x < leastOf f ∨ greatestOf f < x)) fSAT) := by
  have hle := leastOf_le_greatestOf f
  cases sat with
  | false => rfl
  | true =>
    have : max (leastOf f) (min x (greatestOf f)) ≠ x ↔ x < leastOf f ∨ greatestOf f < x := by omega
    show (wrapN _ _, fIf (decide (max (leastOf f) (min x (greatestOf f)) ≠ x)) fSAT) = _
    simp only [this, if_true, Bool.true_and]
    rfl

/-- Settles O10: each lane's value is narrowed to the result format, and the lanes' flags are gathered. -/
theorem integerResults : Obligations.IntegerResults := by
  unfold Obligations.IntegerResults
  intro i w o res v s e r hv sat exact clamped
  obtain ⟨hf, hx⟩ := integer_acts r.1 hv s
  have lane (l : Nat) : intLane o res v e l =
      (putFmt res l o.vd ((if sat then max (leastOf res) (min (exact l) (greatestOf res)) else exact l) % 2 ^ res.width).toNat,
        fIf (sat && decide (exact l < leastOf res ∨ greatestOf res < exact l)) fSAT) := by
    simp only [intLane, narrow_eq]
    rfl
  refine r.results hf hx fun g' hflags hseen => ⟨fun l hl => ?_, fun hsat hc => ?_, fun hn => ?_⟩
  · exact shows_putFmt fun q u hq => hseen l hl q u (by rwa [lane])
  all_goals
    simp only [lane, or_flagIf] at hflags
    rw [hflags]
  · have : (e.lanes.any fun l => sat && decide (exact l < leastOf res ∨ greatestOf res < exact l)) = true := by
      obtain ⟨l, hl, hc⟩ := hc
      exact List.any_eq_true.2 ⟨l, hl, by simpa [hsat] using hc⟩
    rw [this]
    rfl
  · have : (e.lanes.any fun l => sat && decide (exact l < leastOf res ∨ greatestOf res < exact l)) = false := by
      refine List.any_eq_false.2 fun l hl => ?_
      rcases hn with hn | hn
      · simp [hn]
      · have : ¬ clamped l := fun hc => hn ⟨l, hl, hc⟩
        simp only [clamped] at this
        simp [this]
    rw [this]
    simp [fIf]

/-! ## Words whose lanes each write one value and raise no flag -/

section
variable {i : Instr} {w : LaneWord} {s : State} {e : Env} {x : Env → Nat → Nat} {vd : Reg} {P : Group → Prop}

/-- A lane word that writes a value in a format. -/
theorem LaneReady.value {f : Fmt} (r : LaneReady i w s e) (hd : w.dest = span f.wide vd)
    (hx : exec i s = word w.h w.len (w.dest :: w.reads) w.reads (perLane w.k fun e l => (putFmt f l vd (x e l), 0)) s)
    (hP : ∀ g' : Group, g'.flags = e.g.flags → (∀ l ∈ e.lanes, g'.shows f l vd (x e l)) → P g') :
    Completes i s e fun _ g' => P g' := by
  refine r.results (hd ▸ fills_fmt f x (fun _ _ => 0) vd) hx fun g' hflags hseen => hP g' ?_ fun l hl => shows_putFmt (hseen l hl)
  rw [hflags, or_noFlags _ _ fun _ _ => rfl]
  simp

/-- A lane word that writes one 32-bit value. -/
theorem LaneReady.value32 (r : LaneReady i w s e) (hd : w.dest = span false vd)
    (hx : exec i s = word w.h w.len (w.dest :: w.reads) w.reads (perLane w.k fun e l => (put1 l vd (x e l), 0)) s)
    (hP : ∀ g' : Group, g'.flags = e.g.flags → (∀ l ∈ e.lanes, g'.shows32 l vd (BitVec.ofNat 32 (x e l))) → P g') :
    Completes i s e fun _ g' => P g' := by
  refine r.results (hd ▸ fills_one x (fun _ _ => 0) vd) hx fun g' hflags hseen => hP g' ?_ fun l hl => shows32_put1 (hseen l hl)
  rw [hflags, or_noFlags _ _ fun _ _ => rfl]
  simp

/-- A lane word that writes a 64-bit value to a pair. -/
theorem LaneReady.valuePair (r : LaneReady i w s e) (hd : w.dest = span true vd)
    (hx : exec i s = word w.h w.len (w.dest :: w.reads) w.reads (perLane w.k fun e l => (putPair l vd (x e l), 0)) s)
    (hP : ∀ g' : Group, g'.flags = e.g.flags → (∀ l ∈ e.lanes, g'.showsPair l vd (BitVec.ofNat 64 (x e l))) → P g') :
    Completes i s e fun _ g' => P g' := by
  refine r.results (hd ▸ fills_pair x (fun _ _ => 0) vd) hx fun g' hflags hseen => hP g' ?_ fun l hl => showsPair_putPair (hseen l hl)
  rw [hflags, or_noFlags _ _ fun _ _ => rfl]
  simp

end

/-- A register operand in a format has the format's bits (R99). -/
theorem val_lt (e : Env) (a : Nat) (f : Fmt) (l : Nat) (r : Reg) : e.val a f l r < 2 ^ f.width := by
  unfold Env.val
  split
  · next h =>
    have h64 : f.width = 64 := by cases f <;> first | rfl | cases h
    have := (e.reg a l r.toNat).isLt
    have := (e.reg a l (r.toNat + 1)).isLt
    rw [h64, Env.pair]
    omega
  · exact Nat.mod_lt _ (by positivity)

theorem src_lt (e : Env) (a : Nat) (f : Fmt) (l : Nat) (b : Src) : e.src a f l b < 2 ^ f.width := by
  cases b with
  | reg r => exact val_lt e a f l r
  | lit sel v => exact Nat.mod_lt _ (by positivity)

/-! ## Logic, shifts and rotates (R103) -/

theorem testBit_notN (n a j : Nat) : (notN n a).testBit j = (decide (j < n) && !a.testBit j) := by
  rw [notN, Nat.sub_sub, Nat.add_comm 1, Nat.testBit_two_pow_sub_succ (Nat.mod_lt _ (by positivity)), Nat.testBit_mod_two_pow]
  by_cases h : j < n <;> simp [h]

/-- Every logic word acts on each bit of its lanes by itself. -/
theorem logic_acts {i : Instr} {w : LaneWord} {o : AOp} {f : Bool → Bool → Bool} (hw : laneWordOf i = some w)
    (hv : logicBit i = some (o, f)) (s : State) : ∃ g : Env → Nat → Nat,
      w.dest = span o.fmt.wide o.vd ∧
      exec i s = word w.h w.len (w.dest :: w.reads) w.reads
        (perLane w.k fun e l => (putFmt o.fmt l o.vd (g e l % 2 ^ o.fmt.width), 0)) s ∧
      ∀ e l, ∀ j < o.fmt.width,
        (g e l).testBit j = f ((e.val 0 o.fmt l o.va).testBit j) ((e.src 1 o.fmt l o.vb).testBit j) := by
  cases i
  all_goals first | (cases hv; done) | skip
  all_goals
    obtain ⟨rfl, rfl⟩ := by simpa [logicBit] using hv
    obtain rfl := Option.some.inj hw
  case not => exact ⟨_, rfl, aWord_a _ _ _ _ _, fun e l j hj => by simp [testBit_notN, hj]⟩
  case andn => exact ⟨_, rfl, aWord_ab _ _ _ _ _ _, fun e l j hj => by simp [testBit_notN, hj]⟩
  case and => exact ⟨_, rfl, aWord_ab _ _ _ _ _ _, fun e l j _ => Nat.testBit_and _ _ _⟩
  case or => exact ⟨_, rfl, aWord_ab _ _ _ _ _ _, fun e l j _ => Nat.testBit_or _ _ _⟩
  case xor => exact ⟨_, rfl, aWord_ab _ _ _ _ _ _, fun e l j _ => Nat.testBit_xor _ _ _⟩

theorem shl_toNat (n a c : Nat) : a * 2 ^ c % 2 ^ n = (BitVec.ofNat n a <<< c).toNat := by
  simp [BitVec.toNat_shiftLeft, Nat.shiftLeft_eq, Nat.mod_mul_mod]

theorem shr_toNat {n a : Nat} (ha : a < 2 ^ n) (c : Nat) : a / 2 ^ c % 2 ^ n = (BitVec.ofNat n a >>> c).toNat := by
  have hle : a / 2 ^ c ≤ a := Nat.div_le_self _ _
  rw [BitVec.toNat_ushiftRight, BitVec.toNat_ofNat, Nat.mod_eq_of_lt ha, Nat.shiftRight_eq_div_pow,
    Nat.mod_eq_of_lt (by omega)]

theorem sra_toNat (n a c : Nat) :
    wrapN n (sext n a / (2 ^ c : Int)) % 2 ^ n = ((BitVec.ofNat n a).sshiftRight c).toNat := by
  rw [BitVec.sshiftRight_eq, BitVec.toNat_ofInt, sext_eq_toInt, Int.shiftRight_eq_div_pow]
  exact Nat.mod_eq_of_lt (by
    have h : (0 : Int) < 2 ^ n := by positivity
    have := Int.emod_lt_of_pos ((BitVec.ofNat n a).toInt / 2 ^ c) h
    have := Int.emod_nonneg ((BitVec.ofNat n a).toInt / 2 ^ c) h.ne'
    rw [wrapN]
    zify
    omega)

/-- The two parts of a rotated number do not meet. -/
theorem rotl_eq_or {n a c : Nat} (ha : a < 2 ^ n) (hc : c ≤ n) :
    rotl n a c = a * 2 ^ c % 2 ^ n ||| a / 2 ^ (n - c) ∧ rotl n a c < 2 ^ n := by
  obtain ⟨k, rfl⟩ := Nat.exists_eq_add_of_le hc
  have high : a * 2 ^ c % 2 ^ (c + k) = 2 ^ c * (a % 2 ^ k) := by
    rw [Nat.mul_comm, Nat.pow_add, Nat.mul_mod_mul_left]
  have low : a / 2 ^ k < 2 ^ c := by
    rw [Nat.div_lt_iff_lt_mul (by positivity), ← Nat.pow_add]
    exact ha
  have hk : a % 2 ^ k < 2 ^ k := Nat.mod_lt _ (by positivity)
  rw [rotl, Nat.add_sub_cancel_left, high]
  refine ⟨Nat.two_pow_add_eq_or_of_lt low _, ?_⟩
  calc 2 ^ c * (a % 2 ^ k) + a / 2 ^ k < 2 ^ c * (a % 2 ^ k) + 2 ^ c := by omega
    _ = 2 ^ c * (a % 2 ^ k + 1) := by ring
    _ ≤ 2 ^ c * 2 ^ k := Nat.mul_le_mul_left _ hk
    _ = 2 ^ (c + k) := (Nat.pow_add ..).symm

theorem rotl_toNat {n a c : Nat} (ha : a < 2 ^ n) (hc : c < n) :
    rotl n a c % 2 ^ n = ((BitVec.ofNat n a).rotateLeft c).toNat := by
  obtain ⟨hor, hlt⟩ := rotl_eq_or ha hc.le
  rw [Nat.mod_eq_of_lt hlt, hor, BitVec.toNat_rotateLeft, BitVec.toNat_ofNat, Nat.mod_eq_of_lt ha, Nat.mod_eq_of_lt hc,
    Nat.shiftLeft_eq, Nat.shiftRight_eq_div_pow]

theorem rotr_toNat {n a c : Nat} (ha : a < 2 ^ n) (hc : c < n) :
    rotl n a ((n - c) % n) % 2 ^ n = ((BitVec.ofNat n a).rotateRight c).toNat := by
  rw [BitVec.toNat_rotateRight, BitVec.toNat_ofNat, Nat.mod_eq_of_lt ha, Nat.mod_eq_of_lt hc, Nat.shiftLeft_eq,
    Nat.shiftRight_eq_div_pow]
  rcases Nat.eq_zero_or_pos c with rfl | hpos
  · simp [rotl, Nat.div_eq_of_lt ha, Nat.mod_eq_of_lt ha]
  · have hn : (n - c) % n = n - c := Nat.mod_eq_of_lt (by omega)
    obtain ⟨hor, hlt⟩ := rotl_eq_or ha (Nat.sub_le n c)
    rw [hn, Nat.mod_eq_of_lt hlt, hor, Nat.sub_sub_self hc.le, Nat.or_comm]

/-- How far a shift or rotate goes (R103). -/
def countOf (o : AOp) (rotate : Bool) (b : Nat) : Nat :=
  if o.x && !rotate then min b o.fmt.width else b % o.fmt.width

theorem Fmt.width_pos (f : Fmt) : 0 < f.width := by cases f <;> decide

/-- Every shift and rotate acts on the bits of A. -/
theorem shift_acts {i : Instr} {w : LaneWord} {o : AOp} {rotate : Bool} {f : (n : Nat) → BitVec n → Nat → BitVec n}
    (hw : laneWordOf i = some w) (hv : shiftValue i = some (o, rotate, f)) (s : State) : ∃ g : Env → Nat → Nat,
      w.dest = span o.fmt.wide o.vd ∧
      exec i s = word w.h w.len (w.dest :: w.reads) w.reads (perLane w.k fun e l => (putFmt o.fmt l o.vd (g e l), 0)) s ∧
      ∀ e l, g e l =
        (f o.fmt.width (BitVec.ofNat _ (e.val 0 o.fmt l o.va)) (countOf o rotate (e.src 1 .n32 l o.vb))).toNat := by
  have shift (b : Nat) : shiftCount o b = countOf o false b := by simp [shiftCount, countOf]
  have rot (b : Nat) : countOf o true b = b % o.fmt.width := by simp [countOf]
  have rot_lt (b : Nat) : b % o.fmt.width < o.fmt.width := Nat.mod_lt _ (Fmt.width_pos _)
  cases i
  all_goals first | (cases hv; done) | skip
  all_goals
    obtain ⟨rfl, rfl, rfl⟩ := by simpa [shiftValue] using hv
    obtain rfl := Option.some.inj hw
    refine ⟨_, rfl, aWord_ab _ _ _ _ _ _, fun e l => ?_⟩
    dsimp only
  case shl => rw [shift, shl_toNat]
  case shr => rw [shift, shr_toNat (val_lt ..)]
  case sra => rw [shift, sra_toNat]
  case rol => rw [rot, rotl_toNat (val_lt ..) (rot_lt _)]
  case ror => rw [rot, rotr_toNat (val_lt ..) (rot_lt _)]

/-- Settles O11: the logic words bit by bit, the shifts and rotates as operations of bit vectors. -/
theorem logicAndShiftResults : Obligations.LogicAndShiftResults := by
  unfold Obligations.LogicAndShiftResults
  refine ⟨fun i w o f s e r hv => ?_, ?_⟩
  · obtain ⟨g, hd, hx, hbit⟩ := logic_acts r.1 hv s
    refine r.value hd hx fun g' hflags hshows => ⟨hflags, fun l hl => ⟨_, hshows l hl, Nat.mod_lt _ (by positivity), ?_⟩⟩
    intro j hj
    rw [Nat.testBit_mod_two_pow, hbit e l j hj]
    simp [hj]
  · intro i w o rotate f s e r hv count
    obtain ⟨g, hd, hx, hval⟩ := shift_acts r.1 hv s
    refine r.value hd hx fun g' hflags hshows => ⟨hflags, fun l hl => ?_⟩
    have h := hshows l hl
    rw [hval] at h
    exact h

/-! ## Bit fields (R104) -/

theorem fieldSpec_eq (n b : Nat) : fieldSpec n b = ((bitField n b).2, (bitField n b).1) := by
  simp [fieldSpec, bitField, bitsOf]

theorem bitField_length_le (n b : Nat) : (bitField n b).1 ≤ n := by
  simp only [bitField]
  split <;> omega

/-- The bits of a sign-extended field. -/
theorem testBit_wrap_sext {n m : Nat} (x : Nat) {j : Nat} (hm : 0 < m) (hj : j < n) :
    (wrapN n (sext m x)).testBit j = x.testBit (if j < m then j else m - 1) := by
  have h : wrapN n (sext m x) = ((BitVec.ofNat m x).signExtend n).toNat := by
    rw [BitVec.signExtend, BitVec.toNat_ofInt, sext_eq_toInt]
    rfl
  rw [h, BitVec.testBit_toNat, BitVec.getLsbD_signExtend, BitVec.msb_eq_getLsbD_last]
  simp only [hj, decide_true, Bool.true_and, BitVec.getLsbD_ofNat]
  split
  · simp [*]
  · simp [hm]

theorem testBit_bfxVal (f : Fmt) (a b : Nat) {j : Nat} (hj : j < f.width) :
    (bfxVal f a b).testBit j =
      if j < (bitField f.width b).1 then a.testBit ((bitField f.width b).2 + j)
      else f.isSigned && 0 < (bitField f.width b).1 &&
        a.testBit ((bitField f.width b).2 + (bitField f.width b).1 - 1) := by
  simp only [bfxVal, fieldSpec_eq]
  generalize (bitField f.width b).1 = m
  generalize (bitField f.width b).2 = p
  have cut (i : Nat) : (a / 2 ^ p % 2 ^ m).testBit i = (decide (i < m) && a.testBit (p + i)) := by
    rw [Nat.testBit_mod_two_pow, Nat.testBit_div_two_pow, Nat.add_comm]
  rcases Nat.eq_zero_or_pos m with rfl | hm
  · simp
  · have hm0 : (m == 0) = false := by simpa using hm.ne'
    rw [hm0, if_neg Bool.false_ne_true]
    cases f.isSigned with
    | true =>
      rw [if_pos rfl, testBit_wrap_sext _ hm hj, cut]
      by_cases hjm : j < m
      · simp [hjm]
      · have : p + (m - 1) = p + m - 1 := by omega
        simp [hjm, hm, this]
    | false =>
      rw [if_neg Bool.false_ne_true, cut]
      by_cases hjm : j < m <;> simp [hjm]

theorem testBit_bfiVal (f : Fmt) (a b c : Nat) {j : Nat} (hj : j < f.width) :
    (bfiVal f a b c).testBit j =
      if (bitField f.width b).2 ≤ j ∧ j < (bitField f.width b).2 + (bitField f.width b).1 then
        a.testBit (j - (bitField f.width b).2)
      else c.testBit j := by
  simp only [bfiVal, fieldSpec_eq]
  generalize (bitField f.width b).1 = m
  generalize (bitField f.width b).2 = p
  have hmask : ((2 ^ m - 1) * 2 ^ p).testBit j = decide (p ≤ j ∧ j < p + m) := by
    rw [Nat.testBit_mul_two_pow, Nat.testBit_two_pow_sub_one, ← Bool.decide_and]
    exact decide_eq_decide.2 (by omega)
  rw [Nat.testBit_or, Nat.testBit_and, Nat.testBit_and, testBit_notN, hmask, Nat.testBit_mul_two_pow]
  by_cases h : p ≤ j ∧ j < p + m
  · simp [h]
  · simp [h, hj]

/-! ## Counts (R105) -/

theorem popcount_eq (n a : Nat) : popcount n a = (List.range n).countP fun j => a.testBit j := by
  rw [popcount, natsFrom_eq_range', ← List.range_eq_range', List.countP_eq_length_filter]

theorem clzN_spec {n a : Nat} (ha : a < 2 ^ n) : clzN n a ≤ n ∧
    (∀ j < n, n - clzN n a ≤ j → a.testBit j = false) ∧ (clzN n a < n → a.testBit (n - 1 - clzN n a) = true) := by
  rcases Nat.eq_zero_or_pos a with rfl | hpos
  · simp [clzN]
  · have hne : a ≠ 0 := hpos.ne'
    have hlog : a.log2 < n := (Nat.log2_lt hne).2 ha
    have hclz : clzN n a = n - 1 - a.log2 := by simp [clzN, hne]
    rw [hclz]
    refine ⟨by omega, fun j _ hj => Nat.testBit_lt_two_pow ?_, fun _ => ?_⟩
    · exact Nat.lt_of_lt_of_le Nat.lt_log2_self (Nat.pow_le_pow_right (by decide) (by omega))
    · rw [show n - 1 - (n - 1 - a.log2) = a.log2 by omega]
      exact Nat.testBit_log2 hne

theorem ctzN_spec (n a : Nat) : ctzN n a ≤ n ∧ (∀ j < ctzN n a, a.testBit j = false) ∧
    (ctzN n a < n → a.testBit (ctzN n a) = true) := by
  rw [ctzN, natsFrom_eq_range']
  cases h : (List.range' 0 n).find? fun i => a.testBit i with
  | none =>
    rw [List.find?_range'_eq_none] at h
    exact ⟨le_rfl, fun j hj => by simpa using h j (Nat.zero_le j) (by simpa using hj), fun hn => absurd hn (lt_irrefl n)⟩
  | some i =>
    rw [List.find?_range'_eq_some] at h
    obtain ⟨hi, hmem, hlow⟩ := h
    have := List.mem_range'_1.1 hmem
    exact ⟨by simp; omega, fun j hj => by simpa using hlow j (Nat.zero_le j) hj, fun _ => hi⟩

/-- The first m steps of the reversal: the m highest bits of the result, and no other. -/
theorem brev_steps {n a m : Nat} (hm : m ≤ n) :
    let r := (List.range m).foldl (fun r i => if a.testBit i then r + 2 ^ (n - 1 - i) else r) 0
    2 ^ (n - m) ∣ r ∧ ∀ j, r.testBit j = (decide (n - m ≤ j ∧ j < n) && a.testBit (n - 1 - j)) := by
  induction m with
  | zero => exact ⟨dvd_zero _, fun j => by have : ¬ (n ≤ j ∧ j < n) := by omega
                                           simp [this]⟩
  | succ m ih =>
    obtain ⟨⟨q, hq⟩, hbits⟩ := ih (by omega)
    have hpow : 2 ^ (n - m) = 2 ^ (n - (m + 1)) * 2 := by rw [← Nat.pow_succ]; congr 1; omega
    have hexp : n - 1 - m = n - (m + 1) := by omega
    simp only [List.range_succ, List.foldl_append, List.foldl_cons, List.foldl_nil, hexp] at hq hbits ⊢
    split
    · next ha =>
      rw [hq]
      refine ⟨⟨2 * q + 1, by rw [hpow]; ring⟩, fun j => ?_⟩
      rw [Nat.two_pow_add_eq_or_of_lt (Nat.pow_lt_pow_right (by decide) (by omega)), ← hq, Nat.testBit_or, hbits,
        Nat.testBit_two_pow]
      by_cases hj : j = n - (m + 1)
      · subst hj
        have h2 : n - 1 - (n - (m + 1)) = m := by omega
        have h3 : n - (m + 1) < n := by omega
        simp [h2, ha, h3]
      · have h2 : decide (n - (m + 1) ≤ j ∧ j < n) = decide (n - m ≤ j ∧ j < n) := decide_eq_decide.2 (by omega)
        simp only [Ne.symm hj, h2, decide_false, Bool.or_false]
    · next ha =>
      rw [hq]
      refine ⟨⟨2 * q, by rw [hpow]; ring⟩, fun j => ?_⟩
      rw [← hq, hbits]
      by_cases hj : j = n - (m + 1)
      · subst hj
        have h2 : n - 1 - (n - (m + 1)) = m := by omega
        simp [h2, ha]
      · rw [decide_eq_decide.2 (by omega : (n - (m + 1) ≤ j ∧ j < n) ↔ (n - m ≤ j ∧ j < n))]

theorem testBit_brevN (n a : Nat) {j : Nat} (hj : j < n) : (brevN n a).testBit j = a.testBit (n - 1 - j) := by
  have := (brev_steps (a := a) (le_refl n)).2 j
  rw [brevN, natsFrom_eq_range', ← List.range_eq_range', this]
  simp [hj]

/-- Settles O12: the bits of a field word's result, and what each count counts. -/
theorem fieldAndCountResults : Obligations.FieldAndCountResults := by
  unfold Obligations.FieldAndCountResults
  constructor
  · intro o w s e n fld
    constructor
    · intro r
      obtain rfl := Option.some.inj r.1
      refine r.value rfl (aWord_ab ..) fun g' hflags hshows => ⟨hflags, fun l hl => ⟨_, hshows l hl, ?_, fun j hj => ?_⟩⟩
      · exact Nat.mod_lt _ (by positivity)
      · rw [Nat.testBit_mod_two_pow, testBit_bfxVal _ _ _ hj]
        simp [hj, fld, n]
    · intro r
      obtain rfl := Option.some.inj r.1
      refine r.value rfl (aWord_abc ..) fun g' hflags hshows => ⟨hflags, fun l hl => ⟨_, hshows l hl, ?_, fun j hj => ?_⟩⟩
      · exact Nat.mod_lt _ (by positivity)
      · rw [Nat.testBit_mod_two_pow, testBit_bfiVal _ _ _ _ hj]
        simp [hj, fld, n]
  · intro o w s e n a
    refine ⟨fun r => ?_, fun r => ?_, fun r => ?_, fun r => ?_⟩ <;> obtain rfl := Option.some.inj r.1
    · refine r.value32 rfl (aWord_a ..) fun g' hflags hshows => ⟨hflags, fun l hl => ?_⟩
      rw [← popcount_eq]
      exact hshows l hl
    · refine r.value32 rfl (aWord_a ..) fun g' hflags hshows => ⟨hflags, fun l hl => ?_⟩
      obtain ⟨hle, hzero, hone⟩ := clzN_spec (val_lt e 0 o.fmt l o.va)
      exact ⟨_, hle, hshows l hl, hzero, hone⟩
    · refine r.value32 rfl (aWord_a ..) fun g' hflags hshows => ⟨hflags, fun l hl => ?_⟩
      obtain ⟨hle, hzero, hone⟩ := ctzN_spec n (a l)
      exact ⟨_, hle, hshows l hl, hzero, hone⟩
    · refine r.value rfl (aWord_a ..) fun g' hflags hshows => ⟨hflags, fun l hl => ⟨_, hshows l hl, ?_, fun j hj => ?_⟩⟩
      · exact Nat.mod_lt _ (by positivity)
      · rw [Nat.testBit_mod_two_pow, testBit_brevN _ _ hj]
        simp [hj, n, a]

/-! ## Compare, select, move (R106, R107) -/

theorem condHolds_compare (c : Cond) (a b : Int) : condHolds c (compare a b) = condTrue c a b := by
  rcases lt_trichotomy a b with h | rfl | h
  · rw [compare_lt_iff_lt.2 h]
    cases c <;> simp [condHolds, condTrue, h, h.ne, h.le, h.not_gt, h.not_ge, bne_iff_ne.2 h.ne]
  · rw [compare_eq_iff_eq.2 rfl]
    cases c <;> simp [condHolds, condTrue]
  · rw [compare_gt_iff_gt.2 h]
    cases c <;> simp [condHolds, condTrue, h, h.ne', h.le, h.not_gt, h.not_ge, bne_iff_ne.2 h.ne']

theorem ofNat_truth (x t : Bool) :
    BitVec.ofNat 32 (truth x t) = if t then (if x then 0xFFFFFFFF else 1) else 0 := by
  cases x <;> cases t <;> rfl

theorem elem16_ne_zero (c : Word) (j : Nat) : (elem16 c.toNat j != 0) = decide (c.extractLsb' (16 * j) 16 ≠ 0) := by
  have h : (c.extractLsb' (16 * j) 16).toNat = elem16 c.toNat j := by
    rw [BitVec.extractLsb'_toNat, Nat.shiftRight_eq_div_pow, elem16]
  rw [← h]
  have : (c.extractLsb' (16 * j) 16).toNat = 0 ↔ c.extractLsb' (16 * j) 16 = 0 :=
    ⟨fun h => BitVec.eq_of_toNat_eq h, fun h => by rw [h]; rfl⟩
  rw [Bool.eq_iff_iff]
  simp only [bne_iff_ne, ne_eq, decide_eq_true_eq, this]

theorem ofNat_pack16 (lo hi : Nat) : BitVec.ofNat 32 (pack16 lo hi) = BitVec.ofNat 16 hi ++ BitVec.ofNat 16 lo := by
  apply BitVec.eq_of_toNat_eq
  have hlo : lo % 2 ^ 16 < 2 ^ 16 := Nat.mod_lt _ (by decide)
  rw [BitVec.toNat_append, BitVec.toNat_ofNat, BitVec.toNat_ofNat, BitVec.toNat_ofNat, pack16,
    ← Nat.shiftLeft_add_eq_or_of_lt hlo, Nat.shiftLeft_eq]
  omega

theorem shows_packed {g : Group} {f : Fmt} (h : f.isPacked = true) {l : Nat} {r : Reg} {x : Nat} (hs : g.shows f l r x) :
    g.shows32 l r (BitVec.ofNat 32 x) := by
  cases f <;> first | (cases h; done) | simpa [Group.shows, Group.shows32, Fmt.wide, Fmt.isSigned, Fmt.width] using hs

theorem ofNat16_elem16 (x j : Nat) : BitVec.ofNat 16 (elem16 x j) = BitVec.ofNat 16 (x / 2 ^ (16 * j)) := by
  apply BitVec.eq_of_toNat_eq
  simp [elem16]

/-- Settles O13: what each of the three words writes. -/
theorem compareSelectMove : Obligations.CompareSelectMove := by
  unfold Obligations.CompareSelectMove
  intro w s e
  refine ⟨fun o r => ?_, fun o r => ?_, fun o r => ?_⟩ <;> obtain rfl := Option.some.inj r.1
  · refine r.value32 rfl rfl fun g' hflags hshows => ⟨hflags, fun l hl => ?_⟩
    rw [← condHolds_compare, ← ofNat_truth]
    exact hshows l hl
  · refine r.value rfl (aWord_abc ..) fun g' hflags hshows => ⟨hflags, fun l hl => ?_⟩
    have h := hshows l hl
    intro a b c
    split
    · next hp =>
      have h := shows_packed hp h
      rw [selVal, if_pos hp, ofNat_pack16, Env.reg1, elem16_ne_zero, elem16_ne_zero] at h
      simp only [decide_eq_true_eq, apply_ite (BitVec.ofNat 16), ofNat16_elem16] at h
      simpa [a, b, c] using h
    · next hp =>
      rw [selVal, if_neg hp] at h
      have hc : (e.reg1 2 l o.vc != 0) = decide (c ≠ 0) := by
        have : c.toNat = 0 ↔ c = 0 := ⟨fun h => BitVec.eq_of_toNat_eq h, fun h => by rw [h]; rfl⟩
        simp only [Env.reg1, bne, ne_eq, decide_not]
        congr 1
        exact (beq_eq_decide _ _).trans (decide_eq_decide.2 this)
      simpa only [hc, decide_eq_true_eq] using h
  · exact r.value rfl (aWord_b ..) fun g' hflags hshows => ⟨hflags, hshows⟩

/-! ## Address arithmetic (R108) -/

theorem offsetWidth_eq (p : Nat) : offsetWidth p = offsetBits (p / 2 ^ 56) := by
  unfold offsetWidth offsetBits
  split <;> simp_all

theorem offsetBits_le {top n : Nat} (h : offsetBits top = some n) : n ≤ 56 := by
  unfold offsetBits at h
  split at h
  · cases h; decide
  · split at h
    · cases h; decide
    · split at h
      · cases h; decide
      · cases h

/-- The sum of an address and an offset, as R108 lays it out. -/
theorem addressAdd_spec (x : Bool) {p : Nat} (hp : p < 2 ^ 64) (off : Int) : addressAdd x p off < 2 ^ 64 ∧
    match offsetBits (p / 2 ^ 56) with
    | none => addressAdd x p off = ((p + off) % 2 ^ 64).toNat
    | some n =>
      if x = true ∧ ((p % 2 ^ n : Nat) + off < 0 ∨ 2 ^ n ≤ (p % 2 ^ n : Nat) + off) then
        addressAdd x p off % 2 ^ 56 = p % 2 ^ 56 ∧ addressAdd x p off / 2 ^ 56 = 0xFF
      else addressAdd x p off / 2 ^ n = p / 2 ^ n ∧ ((addressAdd x p off % 2 ^ n : Nat) : Int) = (p + off) % 2 ^ n := by
  simp only [addressAdd, offsetWidth_eq]
  cases hn : offsetBits (p / 2 ^ 56) with
  | none => exact ⟨by simp only [wrapN]; omega, rfl⟩
  | some n =>
    simp only
    by_cases hout : x = true ∧ ((p % 2 ^ n : Nat) + off < 0 ∨ (2 ^ n : Int) ≤ (p % 2 ^ n : Nat) + off)
    · have hb : (x && (decide (((p % 2 ^ n : Nat) : Int) + off < 0) || decide ((2 ^ n : Int) ≤ (p % 2 ^ n : Nat) + off))) = true := by
        simpa using hout
      rw [if_pos hb, if_pos hout]
      omega
    · have hb : (x && (decide (((p % 2 ^ n : Nat) : Int) + off < 0) || decide ((2 ^ n : Int) ≤ (p % 2 ^ n : Nat) + off))) = false := by
        simpa using hout
      rw [hb, if_neg Bool.false_ne_true, if_neg hout]
      have hle := offsetBits_le hn
      have hpos : (0 : Int) < 2 ^ n := by positivity
      have low : wrapN n ((p % 2 ^ n : Nat) + off) < 2 ^ n := by
        have := Int.emod_lt_of_pos ((p % 2 ^ n : Nat) + off : Int) hpos
        have := Int.emod_nonneg ((p % 2 ^ n : Nat) + off : Int) hpos.ne'
        rw [wrapN]
        zify
        omega
      have value : ((wrapN n ((p % 2 ^ n : Nat) + off) : Nat) : Int) = (p + off) % 2 ^ n := by
        rw [wrapN, Int.toNat_of_nonneg (Int.emod_nonneg _ hpos.ne')]
        push_cast
        rw [Int.add_emod, Int.emod_emod, ← Int.add_emod]
      have hmul : p / 2 ^ n * 2 ^ n + wrapN n ((p % 2 ^ n : Nat) + off) = wrapN n ((p % 2 ^ n : Nat) + off) + 2 ^ n * (p / 2 ^ n) := by
        ring
      rw [hmul]
      refine ⟨?_, ?_, ?_⟩
      · have h64 : 2 ^ 64 = 2 ^ n * 2 ^ (64 - n) := by rw [← Nat.pow_add]; congr 1; omega
        have hq : p / 2 ^ n < 2 ^ (64 - n) := Nat.div_lt_of_lt_mul (h64 ▸ hp)
        calc wrapN n ((p % 2 ^ n : Nat) + off) + 2 ^ n * (p / 2 ^ n) < 2 ^ n + 2 ^ n * (p / 2 ^ n) := by omega
          _ = 2 ^ n * (p / 2 ^ n + 1) := by ring
          _ ≤ 2 ^ n * 2 ^ (64 - n) := Nat.mul_le_mul_left _ hq
          _ = 2 ^ 64 := h64.symm
      · rw [Nat.add_mul_div_left _ _ (by positivity), Nat.div_eq_of_lt low, Nat.zero_add]
      · rw [Nat.add_mul_mod_self_left, Nat.mod_eq_of_lt low, value]

theorem pair_lt (e : Env) (a l : Nat) (r : Reg) : e.pair a l r < 2 ^ 64 := by
  have := (e.reg a l r.toNat).isLt
  have := (e.reg a l (r.toNat + 1)).isLt
  rw [Env.pair]
  omega

/-- Settles O14: both words write the address plus their offset. -/
theorem addressArithmetic : Obligations.AddressArithmetic := by
  unfold Obligations.AddressArithmetic
  intro i w o off s e r hv
  have acts : w.dest = span true o.vd ∧ exec i s = word w.h w.len (w.dest :: w.reads) w.reads
      (perLane w.k fun e l => (putPair l o.vd (addressAdd o.x (e.pair 0 l o.va) (off e l)), 0)) s := by
    have hw := r.1
    cases i
    all_goals first | (cases hv; done) | skip
    all_goals
      obtain ⟨rfl, rfl⟩ := by simpa [addressWord] using hv
      obtain rfl := Option.some.inj hw
    case adda => exact ⟨rfl, aWord_ab ..⟩
    case addsc => exact ⟨rfl, aWord_abc ..⟩
  refine r.valuePair acts.1 acts.2 fun g' hflags hshows => ⟨hflags, fun l hl => ?_⟩
  obtain ⟨hlt, hspec⟩ := addressAdd_spec o.x (pair_lt e 0 l o.va) (off e l)
  exact ⟨_, hlt, hshows l hl, hspec⟩

end Sys2Proof.Machine
end

section
/-! SUPPORT. The results of class 1 (R106, R110, R113): signs, classes, NaNs. -/

namespace Sys2Proof.Machine

open Sys2Proof

/-- A lane word that writes a value in a format and raises flags. -/
theorem LaneReady.valueFlags {i : Instr} {w : LaneWord} {s : State} {e : Env} {x : Env → Nat → Nat × Nat} {f : Fmt} {vd : Reg}
    {P : Group → Prop} (r : LaneReady i w s e) (hd : w.dest = span f.wide vd)
    (hx : exec i s = word w.h w.len (w.dest :: w.reads) w.reads
      (perLane w.k fun e l => (putFmt f l vd (x e l).1, (x e l).2)) s)
    (hP : ∀ g' : Group, g'.flags = e.g.flags ||| BitVec.ofNat 32 (e.lanes.foldl (fun a l => a ||| (x e l).2) 0) →
      (∀ l ∈ e.lanes, g'.shows f l vd (x e l).1) → P g') :
    Completes i s e fun _ g' => P g' :=
  r.results (hd ▸ fills_fmt f (fun e l => (x e l).1) (fun e l => (x e l).2) vd) hx fun g' hflags hseen =>
    hP g' hflags fun l hl => shows_putFmt (hseen l hl)

/-- A lane word that writes a 32-bit value and raises flags. -/
theorem LaneReady.value32Flags {i : Instr} {w : LaneWord} {s : State} {e : Env} {x : Env → Nat → Nat × Nat} {vd : Reg}
    {P : Group → Prop} (r : LaneReady i w s e) (hd : w.dest = span false vd)
    (hx : exec i s = word w.h w.len (w.dest :: w.reads) w.reads
      (perLane w.k fun e l => (put1 l vd (x e l).1, (x e l).2)) s)
    (hP : ∀ g' : Group, g'.flags = e.g.flags ||| BitVec.ofNat 32 (e.lanes.foldl (fun a l => a ||| (x e l).2) 0) →
      (∀ l ∈ e.lanes, g'.shows32 l vd (BitVec.ofNat 32 (x e l).1)) → P g') :
    Completes i s e fun _ g' => P g' :=
  r.results (hd ▸ fills_one (fun e l => (x e l).1) (fun e l => (x e l).2) vd) hx fun g' hflags hseen =>
    hP g' hflags fun l hl => shows32_put1 (hseen l hl)

/-- Result and flags of one lane of a float word (R109, R112). -/
def floatResult (o : AOp) (useX : Bool) (f : ElemFn) (e : Env) (l : Nat) : Nat × Nat :=
  let a := e.val 0 o.fmt l o.va
  let b := e.src 1 o.fmt l o.vb
  let c := e.val 2 o.fmt l o.vc
  if o.fmt.isPacked then
    let r0 := f (e.fenv o.rm o.sat l 0 o.vd) (elem16 a 0) (elem16 b 0) (elem16 c 0)
    let r1 := if useX && o.x then (elem16 a 1, 0)
      else f (e.fenv o.rm o.sat l 1 o.vd) (elem16 a 1) (elem16 b 1) (elem16 c 1)
    (pack16 r0.1 r1.1, r0.2 ||| r1.2)
  else f (e.fenv o.rm o.sat l 0 o.vd) a b c

/-- A packed value fills its register as any value of its format does. -/
theorem put1_packed {f : Fmt} (h : f.isPacked = true) (l : Nat) (vd : Reg) (x : Nat) : put1 l vd x = putFmt f l vd x := by
  have : BitVec.ofNat 32 x = BitVec.ofNat 32 (x % 2 ^ 32) := by
    apply BitVec.eq_of_toNat_eq
    simp
  cases f <;> first | (cases h; done) | simp [putFmt, put1, Fmt.wide, extend, Fmt.isSigned, Fmt.width, this]

theorem floatLane_eq (o : AOp) (useX : Bool) (f : ElemFn) : floatLane o useX f = fun e l =>
    (putFmt o.fmt l o.vd (floatResult o useX f e l).1, (floatResult o useX f e l).2) := by
  funext e l
  unfold floatLane floatResult
  by_cases h : o.fmt.isPacked = true
  · simp only [h, if_true, put1_packed h]
  · simp only [h]
    rfl

/-! ## Signs (R110) -/

theorem testBit_elem16 (x j i : Nat) : (elem16 x j).testBit i = (decide (i < 16) && x.testBit (16 * j + i)) := by
  rw [elem16, Nat.testBit_mod_two_pow, Nat.testBit_div_two_pow, Nat.add_comm]

theorem testBit_pack16 (lo hi i : Nat) :
    (pack16 lo hi).testBit i = if i < 16 then lo.testBit i else decide (i < 32) && hi.testBit (i - 16) := by
  have hlo : lo % 2 ^ 16 < 2 ^ 16 := Nat.mod_lt _ (by decide)
  rw [pack16, Nat.add_comm, Nat.testBit_two_pow_mul_add _ hlo, Nat.testBit_mod_two_pow, Nat.testBit_mod_two_pow]
  split
  · next h => rw [decide_eq_true h, Bool.true_and]
  · have : (i - 16 < 16) = (i < 32) := propext (by omega)
    simp only [this]

theorem testBit_clearSign (f : Fmt) (a i : Nat) :
    (clearSign f a).testBit i = (decide (i < f.width - 1) && a.testBit i) := Nat.testBit_mod_two_pow ..

theorem testBit_flipSign (f : Fmt) (a i : Nat) :
    (flipSign f a).testBit i = (a.testBit i != decide (f.width - 1 = i)) := by
  rw [flipSign, Nat.testBit_xor, Nat.testBit_two_pow]

theorem pack16_lt (lo hi : Nat) : pack16 lo hi < 2 ^ 32 := by
  rw [pack16]
  omega

theorem packed_width {f : Fmt} (h : f.isPacked = true) : f.width = 32 ∧ f.element.width = 16 := by
  cases f <;> first | (cases h; done) | exact ⟨rfl, rfl⟩

theorem scalar_element {f : Fmt} (h : f.isFloat = true) : f.element = f ∧ f.isPacked = false := by
  cases f <;> first | (cases h; done) | exact ⟨rfl, rfl⟩

/-- The formats of the float words. -/
theorem floatTwo_format {o : AOp} {rounds : Bool} (h : o.floatTwo rounds = true) :
    o.fmt.isFloat = true ∨ o.fmt.isPacked = true := by
  simp only [AOp.floatTwo, Bool.and_eq_true, Bool.or_eq_true] at h
  exact h.1.1.1.1.1.1

/-- The sign bits that a word on signs works on (R110, R112). -/
def signBitsOf (o : AOp) : List Nat := if o.fmt.isPacked then (if o.x then [15] else [15, 31]) else [o.fmt.width - 1]

section
variable {o : AOp} (hfmt : o.fmt.isFloat = true ∨ o.fmt.isPacked = true) {f : Nat → Nat} {keep : Bool → Bool → Bool}
  (hf : ∀ a i, i < o.fmt.element.width → (f a).testBit i = keep (a.testBit i) (decide (o.fmt.element.width - 1 = i)))
  (hkeep : ∀ b, keep b false = b) (hlt : ∀ a, a < 2 ^ o.fmt.element.width → f a < 2 ^ o.fmt.element.width)
include hfmt hf hkeep hlt

/-- A word that changes nothing of an element but its sign bit. -/
theorem sign_result (e : Env) (l : Nat) :
    let x := (floatResult o true (fun _ a _ _ => (f a, 0)) e l).1
    x < 2 ^ o.fmt.width ∧ ∀ j < o.fmt.width, x.testBit j =
      keep ((e.val 0 o.fmt l o.va).testBit j) ((signBitsOf o).contains j) := by
  by_cases hp : o.fmt.isPacked = true
  · obtain ⟨hw, hew⟩ := packed_width hp
    simp only [floatResult, hp, if_true, Bool.true_and, hw, signBitsOf]
    refine ⟨pack16_lt _ _, fun j hj => ?_⟩
    rw [testBit_pack16]
    rw [hew] at hf
    by_cases h16 : j < 16
    · rw [if_pos h16, hf _ _ h16, testBit_elem16]
      have : (15 = j) = (j = 15) := propext eq_comm
      have h31 : j ≠ 31 := by omega
      cases o.x <;> simp [h16, this, h31]
    · rw [if_neg h16]
      have h15 : j ≠ 15 := by omega
      have hj16 : j - 16 < 16 := by omega
      have hadd : 16 + (j - 16) = j := by omega
      cases hx : o.x with
      | true => simp [testBit_elem16, hj, hj16, hadd, h15, hkeep]
      | false =>
        have : (15 = j - 16) = (j = 31) := propext (by omega)
        simp [hf _ _ hj16, testBit_elem16, hj, hj16, hadd, h15, this]
  · have hfl := hfmt.resolve_right hp
    obtain ⟨hel, hp⟩ := scalar_element hfl
    rw [hel] at hf hlt
    simp only [floatResult, hp, signBitsOf, Bool.false_eq_true, if_false]
    refine ⟨hlt _ (val_lt ..), fun j hj => ?_⟩
    rw [hf _ _ hj]
    have : (o.fmt.width - 1 = j) = (j = o.fmt.width - 1) := propext eq_comm
    simp [this]

end

theorem floatResult_noFlags (o : AOp) (f : Nat → Nat) (e : Env) (l : Nat) :
    (floatResult o true (fun _ a _ _ => (f a, 0)) e l).2 = 0 := by
  unfold floatResult
  dsimp only
  split
  · cases o.x <;> simp
  · rfl

/-- A word on the signs of its elements writes its result and raises no flag. -/
theorem LaneReady.sign {i : Instr} {w : LaneWord} {s : State} {e : Env} {o : AOp} {f : Nat → Nat} {P : Group → Prop}
    (r : LaneReady i w s e) (hd : w.dest = span o.fmt.wide o.vd)
    (hx : exec i s = word w.h w.len (w.dest :: w.reads) w.reads
      (perLane w.k (floatLane o true fun _ a _ _ => (f a, 0))) s)
    (hP : ∀ g' : Group, g'.flags = e.g.flags →
      (∀ l ∈ e.lanes, g'.shows o.fmt l o.vd (floatResult o true (fun _ a _ _ => (f a, 0)) e l).1) → P g') :
    Completes i s e fun _ g' => P g' := by
  simp only [floatLane_eq, floatResult_noFlags] at hx
  exact r.value hd hx hP

/-! ## Classes (R113) -/

/-- The class of an encoding, as the bit of its mask (R113). -/
theorem fclassMask_eq {f : Fmt} (h : f.isFloat = true) (a : Nat) :
    let p := fparam f
    let neg := a.testBit (f.width - 1)
    let ex := a / 2 ^ p.mbits % 2 ^ p.ebits
    let fr := a % 2 ^ p.mbits
    BitVec.ofNat 32 (fclassMask f a) = BitVec.twoPow 32
      (if ex = 2 ^ p.ebits - 1 then
        (if fr = 0 then (if neg then 2 else 9) else if fr.testBit (p.mbits - 1) then 1 else 0)
      else if ex = 0 then (if fr = 0 then (if neg then 5 else 6) else if neg then 4 else 7)
      else if neg then 3 else 8) := by
  have hp : (fparam f).inf = true ∧ (fparam f).ebits + (fparam f).mbits = f.width - 1 ∧ 0 < (fparam f).ebits := by
    cases f <;> first | (cases h; done) | exact ⟨rfl, rfl, by decide⟩
  intro p neg ex fr
  obtain ⟨hinf, hwidth, hpos⟩ : p.inf = true ∧ p.ebits + p.mbits = f.width - 1 ∧ 0 < p.ebits := hp
  have hex : bitsOf a (p.ebits + p.mbits - 1) p.mbits = ex := by
    have : p.ebits + p.mbits - 1 + 1 - p.mbits = p.ebits := by omega
    rw [bitsOf, this]
  have hneg : a.testBit (p.ebits + p.mbits) = neg := by rw [hwidth]
  have htop : 2 ^ p.ebits - 1 ≠ 0 := by
    have : 2 ^ 1 ≤ 2 ^ p.ebits := Nat.pow_le_pow_right (by decide) hpos
    omega
  have hpow : 2 ^ p.mbits ≠ 0 := by positivity
  rw [fclassMask, decodeF, isSubnormal]
  simp only [show fparam f = p from rfl, hex, hneg, show a % 2 ^ p.mbits = fr from rfl, hinf, Bool.and_true, beq_iff_eq]
  by_cases h1 : ex = 2 ^ p.ebits - 1
  · simp only [h1, if_true]
    by_cases h2 : fr = 0
    · cases neg <;> simp [h2] <;> rfl
    · cases fr.testBit (p.mbits - 1) <;> simp [h2] <;> rfl
  · simp only [h1, if_false, Bool.and_eq_true, beq_iff_eq, false_and]
    by_cases h2 : ex = 0
    · by_cases h3 : fr = 0
      · cases neg <;> simp [h2, h3] <;> rfl
      · cases neg <;> simp [h2, h3] <;> rfl
    · cases neg <;> simp [h2] <;> rfl

/-- Settles O15: signs bit by bit, and the class of a scalar. -/
theorem signAndClassResults : Obligations.SignAndClassResults := by
  unfold Obligations.SignAndClassResults
  constructor
  · intro o w s e n signBits a
    refine ⟨fun r => ?_, fun r => ?_⟩ <;> obtain rfl := Option.some.inj r.1
    · have hwf : (o.floatTwo false && o.vb.isZeroReg) = true := Instr.wf_fields r.2.1
      refine r.sign rfl (aWord_a ..) fun g' hflags hshows => ⟨hflags, fun l hl => ⟨_, hshows l hl, ?_⟩⟩
      exact sign_result (keep := fun b t => b && !t) (floatTwo_format (Bool.and_eq_true_iff.1 hwf).1) (fun a i hi => by
        have hb := testBit_clearSign o.fmt.element a i
        have : (i < o.fmt.element.width - 1) = ¬ (o.fmt.element.width - 1 = i) := propext (by omega)
        simp only [this, decide_not] at hb
        exact hb.trans (Bool.and_comm ..)) (fun b => by simp) (fun a _ => lt_of_lt_of_le (Nat.mod_lt _ (by positivity))
          (Nat.pow_le_pow_right (by decide) (Nat.sub_le ..))) e l
    · have hwf : (o.floatTwo false && o.vb.isZeroReg) = true := Instr.wf_fields r.2.1
      refine r.sign rfl (aWord_a ..) fun g' hflags hshows => ⟨hflags, fun l hl => ⟨_, hshows l hl, ?_⟩⟩
      refine sign_result (keep := fun b t => b != t) (floatTwo_format (Bool.and_eq_true_iff.1 hwf).1)
        (fun a i _ => testBit_flipSign _ a i) (fun b => by simp) (fun a ha => ?_) e l
      refine Nat.xor_lt_two_pow ha (Nat.pow_lt_pow_right (by decide) ?_)
      have := Fmt.width_pos o.fmt.element
      omega
  · intro o w s e r hfl
    obtain rfl := Option.some.inj r.1
    obtain ⟨hel, hp⟩ := scalar_element hfl
    refine r.value32 rfl (aWord_a ..) fun g' hflags hshows => ⟨hflags, fun l hl => ?_⟩
    have := hshows l hl
    simp only [hel, hp, Bool.false_eq_true, if_false, fclassMask_eq hfl] at this
    exact this

/-! ## NaNs (R13, R25, R26, R30) -/

/-- What R26 and R30 ask of a word with a NaN among its sources: the canonical NaN, and `INV` for a signalling one. -/
def GivesNan (f : Fmt) (srcs : List FVal) (r : Nat × Nat) : Prop :=
  r.1 = canonicalNan f ∧ (srcs.any FVal.isSnan = true → r.2.testBit 0 = true)

theorem nanResult_gives (f : Fmt) {env : FEnv} (hp : env.prop = false) (srcs : List FVal) (invalid : Bool) :
    GivesNan f srcs (nanResult f env srcs invalid) := by
  refine ⟨?_, fun h => ?_⟩
  · unfold nanResult
    simp only [hp, Bool.false_eq_true, if_false]
    split <;> rfl
  · have : (nanResult f env srcs invalid).2 = fIf (invalid || srcs.any FVal.isSnan) fINV := by
      unfold nanResult
      dsimp only
      split <;> rfl
    rw [this, h, Bool.or_true]
    rfl

theorem isNan_of_isSnan {v : FVal} (h : v.isSnan = true) : v.isNan = true := by
  cases v <;> first | rfl | cases h

theorem isNan_neg (v : FVal) : v.neg.isNan = v.isNan := by
  cases v <;> rfl

/-- An encoding whose exponent is 0 is finite. -/
theorem decodeF_exponent_zero {f : Fmt} (hf : f.isFloat = true) {b : Nat}
    (h : bitsOf b ((fparam f).ebits + (fparam f).mbits - 1) (fparam f).mbits = 0) :
    ∃ n m x, decodeF f b = .fin n m x := by
  have htop : (2 : Nat) ^ (fparam f).ebits - 1 ≠ 0 := by cases f <;> first | (cases hf; done) | decide
  have : (0 == 2 ^ (fparam f).ebits - 1) = false := by
    rw [beq_eq_false_iff_ne]
    exact htop.symm
  unfold decodeF
  simp only [h, this, Bool.false_and]
  exact ⟨_, _, _, rfl⟩

/-- Reading subnormals as zeros does not touch NaNs (R25). -/
theorem decodeF_daz {f : Fmt} (hf : f.isFloat = true) (on : Bool) (b : Nat) :
    (decodeF f (daz on f b)).isNan = (decodeF f b).isNan ∧ (decodeF f (daz on f b)).isSnan = (decodeF f b).isSnan := by
  unfold daz
  split
  · next h =>
    have hsub : bitsOf b ((fparam f).ebits + (fparam f).mbits - 1) (fparam f).mbits = 0 := by
      simp only [isSubnormal, Bool.and_eq_true, beq_iff_eq] at h
      exact h.2.1
    have hquot : (b - b % 2 ^ (fparam f).mbits) / 2 ^ (fparam f).mbits = b / 2 ^ (fparam f).mbits := by
      rw [← Nat.div_mul_self_eq_mod_sub_self, Nat.mul_div_cancel _ (by positivity)]
    obtain ⟨n, m, x, hb⟩ := decodeF_exponent_zero hf hsub
    obtain ⟨n', m', x', hb'⟩ := decodeF_exponent_zero hf (b := b - b % 2 ^ (fparam f).mbits) (by
      rw [bitsOf, hquot]
      exact hsub)
    rw [hb, hb']
    exact ⟨rfl, rfl⟩
  · exact ⟨rfl, rfl⟩

theorem isNan_daz {f : Fmt} (hfl : f.isFloat = true) (on : Bool) (b : Nat) : (decodeF f (daz on f b)).isNan = (decodeF f b).isNan :=
  (decodeF_daz hfl on b).1

theorem isSnan_daz {f : Fmt} (hfl : f.isFloat = true) (on : Bool) (b : Nat) : (decodeF f (daz on f b)).isSnan = (decodeF f b).isSnan :=
  (decodeF_daz hfl on b).2

theorem addVal_gives (f : Fmt) {env : FEnv} (hp : env.prop = false) (srcs : List FVal) {a b : FVal}
    (h : a.isNan = true ∨ b.isNan = true) : GivesNan f srcs (addVal f env srcs a b) := by
  have : addVal f env srcs a b = nanResult f env srcs false := by
    unfold addVal
    exact if_pos (by simpa using h)
  exact this ▸ nanResult_gives f hp ..

theorem fmaVal_gives (f : Fmt) {env : FEnv} (hp : env.prop = false) (srcs : List FVal) (a b : FVal) (c : Option FVal)
    (h : srcs.any FVal.isNan = true) : GivesNan f srcs (fmaVal f env srcs a b c) := by
  unfold fmaVal
  dsimp only
  split
  · exact nanResult_gives f hp ..
  · exact nanResult_gives f hp ..

theorem minmax_gives (f : Fmt) {env : FEnv} (hp : env.prop = false) (big : Bool) {a b : Nat}
    (h : (decodeF f a).isNan = true ∨ (decodeF f b).isNan = true) :
    GivesNan f [decodeF f a, decodeF f b] (minmax f env big false a b) := by
  have : minmax f env big false a b = nanResult f env [decodeF f a, decodeF f b] false := by
    unfold minmax
    rcases h with h | h <;> simp [h]
  exact this ▸ nanResult_gives f hp ..

theorem exists_nan {v : FVal} (h : v.isNan = true) : ∃ n q p, v = .nan n q p := by
  cases v with
  | nan n q p => exact ⟨n, q, p, rfl⟩
  | inf _ => cases h
  | fin _ _ _ => cases h

section
variable (f : Fmt) {env : FEnv} (hp : env.prop = false) {a : Nat} (h : (decodeF f a).isNan = true)
include hp h

theorem frintVal_gives (x : Bool) : GivesNan f [decodeF f a] (frintVal f x env a) := by
  obtain ⟨n, q, p, hv⟩ := exists_nan h
  have : frintVal f x env a = nanResult f env [decodeF f a] false := by simp only [frintVal, hv]
  exact this ▸ nanResult_gives f hp ..

theorem fscaleVal_gives (k : Int) : GivesNan f [decodeF f a] (fscaleVal f env a k) := by
  obtain ⟨n, q, p, hv⟩ := exists_nan h
  have : fscaleVal f env a k = nanResult f env [decodeF f a] false := by simp only [fscaleVal, hv]
  exact this ▸ nanResult_gives f hp ..

end

section
variable (f : Fmt) {env : FEnv} (hp : env.prop = false) {a : Nat} (h : (decodeF f (daz env.daz f a)).isNan = true)
include hp h

theorem rcpsVal_gives : GivesNan f [decodeF f (daz env.daz f a)] (rcpsVal f env a) := by
  obtain ⟨n, q, p, hv⟩ := exists_nan h
  have : rcpsVal f env a = nanResult f env [decodeF f (daz env.daz f a)] false := by simp only [rcpsVal, hv]
  exact this ▸ nanResult_gives f hp ..

theorem rsqsVal_gives : GivesNan f [decodeF f (daz env.daz f a)] (rsqsVal f env a) := by
  obtain ⟨n, q, p, hv⟩ := exists_nan h
  have : rsqsVal f env a = nanResult f env [decodeF f (daz env.daz f a)] false := by simp only [rsqsVal, hv]
  exact this ▸ nanResult_gives f hp ..

end

/-- Bit `j` of gathered flags is set where one lane's flags have it. -/
theorem testBit_or_of_mem {α : Type} (c : α → Nat) {ls : List α} {l : α} (hl : l ∈ ls) {j : Nat}
    (h : (c l).testBit j = true) : (ls.foldl (fun a l => a ||| c l) 0).testBit j = true := by
  induction ls using List.reverseRecOn with
  | nil => cases hl
  | append_singleton ls x ih =>
    rw [List.foldl_append, List.foldl_cons, List.foldl_nil, Nat.testBit_or, Bool.or_eq_true]
    rcases List.mem_append.1 hl with hl | hl
    · exact .inl (ih hl)
    · obtain rfl := List.mem_singleton.1 hl
      exact .inr h

section
variable {o : AOp} (hfl : o.fmt.isFloat = true) {e : Env} (hprop : e.g.mode.getLsbD 6 = false)
include hfl

theorem floatResult_scalar (useX : Bool) (f : ElemFn) (e : Env) (l : Nat) : floatResult o useX f e l =
    f (e.fenv o.rm o.sat l 0 o.vd) (e.val 0 o.fmt l o.va) (e.src 1 o.fmt l o.vb) (e.val 2 o.fmt l o.vc) := by
  obtain ⟨_, hp⟩ := scalar_element hfl
  simp only [floatResult, hp, Bool.false_eq_true, if_false]

include hprop

/-- A word on A and B (R109) whose operation gives the NaN of its two operands. -/
theorem binary_lane {g : Fmt → FEnv → Nat → Nat → Nat × Nat} {l : Nat}
    (hg : ∀ env : FEnv, env.prop = false → ∀ a b, (decodeF o.fmt a).isNan = true ∨ (decodeF o.fmt b).isNan = true →
      GivesNan o.fmt [decodeF o.fmt a, decodeF o.fmt b] (g o.fmt env a b))
    (h : ([e.val 0 o.fmt l o.va, e.src 1 o.fmt l o.vb].any fun x => (decodeF o.fmt x).isNan) = true) :
    GivesNan o.fmt ([e.val 0 o.fmt l o.va, e.src 1 o.fmt l o.vb].map (decodeF o.fmt))
      (floatResult o true (withDaz o.fmt.element fun env a b _ => g o.fmt.element env a b) e l) := by
  obtain ⟨hel, _⟩ := scalar_element hfl
  rw [floatResult_scalar hfl, hel]
  obtain ⟨h1, h2⟩ := hg (e.fenv o.rm o.sat l 0 o.vd) hprop (daz (e.fenv o.rm o.sat l 0 o.vd).daz o.fmt (e.val 0 o.fmt l o.va))
    (daz (e.fenv o.rm o.sat l 0 o.vd).daz o.fmt (e.src 1 o.fmt l o.vb)) (by
      rw [isNan_daz hfl, isNan_daz hfl]
      simpa using h)
  refine ⟨h1, fun hs => h2 ?_⟩
  simpa [isSnan_daz hfl] using hs

omit hprop in
/-- An operation on A alone (R109) that gives the NaN of its operand. -/
theorem unary_lane {r : Nat × Nat} {a : Nat} (on : Bool)
    (hr : (decodeF o.fmt (daz on o.fmt a)).isNan = true → GivesNan o.fmt [decodeF o.fmt (daz on o.fmt a)] r)
    (h : ([a].any fun x => (decodeF o.fmt x).isNan) = true) : GivesNan o.fmt ([a].map (decodeF o.fmt)) r := by
  obtain ⟨h1, h2⟩ := hr (by simpa [isNan_daz hfl] using h)
  refine ⟨h1, fun hs => h2 ?_⟩
  simpa [isSnan_daz hfl] using hs

end

/-- Each word of `nanWord` acts by a result that gives the NaN of its sources. -/
theorem nan_acts {i : Instr} {w : LaneWord} {o : AOp} {srcs : Env → Nat → List Nat} (hw : laneWordOf i = some w)
    (hn : nanWord i = some (o, srcs)) (hfl : o.fmt.isFloat = true) (s : State) :
    ∃ x : Env → Nat → Nat × Nat, w.dest = span o.fmt.wide o.vd ∧
      exec i s = word w.h w.len (w.dest :: w.reads) w.reads
        (perLane w.k fun e l => (putFmt o.fmt l o.vd (x e l).1, (x e l).2)) s ∧
      ∀ e l, e.g.mode.getLsbD 6 = false → ((srcs e l).any fun x => (decodeF o.fmt x).isNan) = true →
        GivesNan o.fmt ((srcs e l).map (decodeF o.fmt)) (x e l) := by
  obtain ⟨hel, hp⟩ := scalar_element hfl
  cases i
  all_goals first | (cases hn; done) | skip
  all_goals
    obtain ⟨rfl, rfl⟩ := by simpa [nanWord] using hn
    obtain rfl := Option.some.inj hw
  case fadd o =>
    refine ⟨_, rfl, (aWord_ab ..).trans (by rw [floatLane_eq]; rfl), fun e l hm h => binary_lane hfl hm (fun env hp a b h => ?_) h⟩
    exact addVal_gives _ hp _ h
  case fsub o =>
    refine ⟨_, rfl, (aWord_ab ..).trans (by rw [floatLane_eq]; rfl), fun e l hm h => binary_lane hfl hm (fun env hp a b h => ?_) h⟩
    exact addVal_gives _ hp _ (by rwa [isNan_neg])
  case fmul o =>
    refine ⟨_, rfl, (aWord_ab ..).trans (by rw [floatLane_eq]; rfl), fun e l hm h => binary_lane hfl hm (fun env hp a b h => ?_) h⟩
    exact fmaVal_gives _ hp _ _ _ _ (by simpa using h)
  case fmin o =>
    exact ⟨_, rfl, (aWord_ab ..).trans (by rw [floatLane_eq]; rfl), fun e l hm h =>
      binary_lane (g := fun f env a b => minmax f env false false a b) hfl hm (fun env hp a b h => minmax_gives _ hp _ h) h⟩
  case fmax o =>
    exact ⟨_, rfl, (aWord_ab ..).trans (by rw [floatLane_eq]; rfl), fun e l hm h =>
      binary_lane (g := fun f env a b => minmax f env true false a b) hfl hm (fun env hp a b h => minmax_gives _ hp _ h) h⟩
  case fma o =>
    refine ⟨_, rfl, (aWord_abc ..).trans (by rw [floatLane_eq]; rfl), fun e l hm h => ?_⟩
    rw [floatResult_scalar hfl, hel]
    obtain ⟨h1, h2⟩ := fmaVal_gives o.fmt (env := e.fenv o.rm o.sat l 0 o.vd) hm
      [decodeF o.fmt (daz (e.fenv o.rm o.sat l 0 o.vd).daz o.fmt (e.val 0 o.fmt l o.va)),
        decodeF o.fmt (daz (e.fenv o.rm o.sat l 0 o.vd).daz o.fmt (e.src 1 o.fmt l o.vb)),
        decodeF o.fmt (daz (e.fenv o.rm o.sat l 0 o.vd).daz o.fmt (e.val 2 o.fmt l o.vc))] _ _ _
      (by simpa [isNan_daz hfl] using h)
    refine ⟨h1, fun hs => h2 ?_⟩
    simpa [isSnan_daz hfl] using hs
  case frint o =>
    refine ⟨_, rfl, (aWord_a ..).trans (by rw [floatLane_eq]; rfl), fun e l hm h => ?_⟩
    rw [floatResult_scalar hfl, hel]
    exact unary_lane hfl (e.fenv o.rm o.sat l 0 o.vd).daz (fun h => frintVal_gives _ hm h _) h
  case fscale o =>
    refine ⟨fun e l => fscaleVal o.fmt (e.fenv o.rm o.sat l 0 o.vd)
      (daz (e.fenv o.rm o.sat l 0 o.vd).daz o.fmt (e.val 0 o.fmt l o.va)) (sext 32 (e.src 1 .n32 l o.vb)), rfl,
      (aWord_ab ..).trans ?_, fun e l hm h => unary_lane hfl _ (fun h => fscaleVal_gives _ hm h _) h⟩
    simp only [hp, hel, Bool.false_eq_true, if_false]
    rfl
  case rcps o =>
    exact ⟨_, rfl, aWord_a .., fun e l hm h => unary_lane hfl (e.fenv .rne .off l 0 o.vd).daz (fun h => rcpsVal_gives _ hm h) h⟩
  case rsqs o =>
    exact ⟨_, rfl, aWord_a .., fun e l hm h => unary_lane hfl (e.fenv .rne .off l 0 o.vd).daz (fun h => rsqsVal_gives _ hm h) h⟩

/-- R106: a comparison with a NaN. -/
theorem fcompare_nan (f : Fmt) (c : Cond) (sig : Bool) {a b : Nat}
    (h : ((decodeF f a).isNan || (decodeF f b).isNan) = true) : (fcompare f c sig a b).1 = (c == .ne || c == .unord) := by
  rw [fcompare, if_pos h]

theorem fcompare_flags (f : Fmt) (c : Cond) (sig : Bool) (a b : Nat) : (fcompare f c sig a b).2 =
    fIf ((decodeF f a).isSnan || (decodeF f b).isSnan || (sig && ((decodeF f a).isNan || (decodeF f b).isNan))) fINV := by
  unfold fcompare
  dsimp only
  split
  · next h => rw [h, Bool.and_true]
  · next h =>
    rw [Bool.not_eq_true] at h
    have ha : (decodeF f a).isSnan = false := by
      cases hs : (decodeF f a).isSnan with
      | false => rfl
      | true => simp [isNan_of_isSnan hs] at h
    have hb : (decodeF f b).isSnan = false := by
      cases hs : (decodeF f b).isSnan with
      | false => rfl
      | true => simp [isNan_of_isSnan hs] at h
    rw [h, ha, hb, Bool.and_false]
    rfl

/-- Result and flags of one lane of `fcmp` on scalars (R106). -/
def fcmpResult (o : COp) (e : Env) (l : Nat) : Nat × Nat :=
  let z := modeDaz e.g.mode
  let r := fcompare o.fmt o.cond o.sig (daz z o.fmt (e.val 0 o.fmt l o.va)) (daz z o.fmt (e.src 1 o.fmt l o.vb))
  (truth o.x r.1, r.2)

theorem fcmpLane_eq {o : COp} (hfl : o.fmt.isFloat = true) (s : State) :
    execFcmp o s = cWord o (fun e l => (put1 l o.vd (fcmpResult o e l).1, (fcmpResult o e l).2)) s := by
  obtain ⟨hel, hp⟩ := scalar_element hfl
  simp only [execFcmp, hel, hp, Bool.false_eq_true, if_false]
  rfl

/-- Settles O16: a float word answers a NaN with the canonical one; `fcmp` by its NaN branch. -/
theorem nanAndUnorderedResults : Obligations.NanAndUnorderedResults := by
  unfold Obligations.NanAndUnorderedResults
  constructor
  · intro i w o srcs s e r hn hfl hmode
    obtain ⟨x, hd, hx, hnan⟩ := nan_acts r.1 hn hfl s
    refine r.valueFlags hd hx fun g' hflags hshows l hl h => ?_
    obtain ⟨hval, hinv⟩ := hnan e l hmode h
    have hcanonical := hshows l hl
    rw [hval] at hcanonical
    refine ⟨?_, fun hs => ?_⟩
    · generalize o.fmt = f at hfl hcanonical ⊢
      cases f <;> first | (cases hfl; done) | exact hcanonical
    rw [hflags, BitVec.getLsbD_or, BitVec.getLsbD_ofNat]
    have := testBit_or_of_mem (fun l => (x e l).2) hl (hinv (by simpa using hs))
    simp [this]
  · intro o w s e r hfl
    obtain rfl := Option.some.inj r.1
    refine r.value32Flags (x := fcmpResult o) rfl (fcmpLane_eq hfl s) fun g' hflags hshows => ?_
    intro a b raises
    have hr (l : Nat) : (fcmpResult o e l).2 = fIf (raises l) fINV := by
      simp only [fcmpResult, fcompare_flags, isNan_daz hfl, isSnan_daz hfl]
      rfl
    refine ⟨?_, fun l hl h => ?_⟩
    · simp only [hr, or_flagIf] at hflags
      rw [hflags]
      by_cases hx : ∃ l ∈ e.lanes, raises l = true
      · rw [if_pos hx, List.any_eq_true.2 hx]
        rfl
      · have hany : e.lanes.any raises = false := List.any_eq_false.2 fun l hl h => hx ⟨l, hl, h⟩
        rw [if_neg hx, hany]
        exact BitVec.or_zero
    · have h := hshows l hl
      rw [fcmpResult, fcompare_nan _ _ _ (by rwa [isNan_daz hfl, isNan_daz hfl]), ofNat_truth] at h
      simpa using h

end Sys2Proof.Machine
end

section
/-! SUPPORT. Results of cross-lane words (R122 to R124), of special reads (R156) and of `sptest` (R145). -/

namespace Sys2Proof.Machine

open Sys2Proof

/-! ## Lane masks (R124) -/

theorem testBit_maskOf (ls : List Nat) (j : Nat) : (maskOf ls).testBit j = ls.contains j := by
  induction ls using List.reverseRecOn with
  | nil => simp [maskOf]
  | append_singleton ls l ih =>
    rw [maskOf] at ih ⊢
    rw [List.foldl_append, List.foldl_cons, List.foldl_nil, Nat.testBit_or, ih, Nat.testBit_two_pow]
    simp [eq_comm]

theorem getLsbD_maskOf_filter (ls : List Nat) (p : Nat → Bool) {j : Nat} (hj : j < 64) :
    (BitVec.ofNat 64 (maskOf (ls.filter p))).getLsbD j = (ls.contains j && p j) := by
  rw [BitVec.getLsbD_ofNat, testBit_maskOf]
  cases h : p j <;> simp [hj, h]

/-! ## `shfl` (R122) -/

theorem shflFrom_eq (opr : BitVec 4) (l b : Nat) : shflFrom opr l b =
    if opr = 0 then (b : Int) else if opr = 1 then (l : Int) - b else if opr = 2 then (l : Int) + b else ((l ^^^ b : Nat) : Int) := by
  have h0 : opr = 0 ↔ opr.toNat = 0 := ⟨fun h => h ▸ rfl, fun h => BitVec.eq_of_toNat_eq h⟩
  have h1 : opr = 1 ↔ opr.toNat = 1 := ⟨fun h => h ▸ rfl, fun h => BitVec.eq_of_toNat_eq h⟩
  have h2 : opr = 2 ↔ opr.toNat = 2 := ⟨fun h => h ▸ rfl, fun h => BitVec.eq_of_toNat_eq h⟩
  simp only [h0, h1, h2]
  unfold shflFrom
  split <;> simp_all

/-- An active lane is a lane of its group. -/
theorem active_lt {s : State} {m : BitVec 8} {e : Env} (he : s.env m = some e) {l : Nat} (hl : l ∈ e.lanes) : l < e.g.width := by
  have : e.lanes = activeLanes e.g e.slices e.slots m := by
    unfold State.env at he
    repeat (split at he <;> first | (cases he; done) | skip)
    cases he
    rfl
  rw [this, activeLanes, List.mem_filter] at hl
  obtain ⟨_, hl⟩ := hl
  by_contra hw
  have : e.g.lane l = Lane.blank := by
    rw [Group.lane, List.getD_eq_getElem?_getD, List.getElem?_eq_none (not_lt.1 hw)]
    rfl
  rw [this] at hl
  exact absurd hl (by simp [Lane.blank, Lane.live])

/-! ## Integer sums (R123) -/

theorem intVal_emod (f : Fmt) (x : Nat) : intVal f x % 2 ^ f.width = (x : Int) % 2 ^ f.width := by
  unfold intVal
  split
  · rw [sext_eq_toInt, BitVec.toInt_ofNat']
    have : ((2 : Int) ^ f.width) = ((2 ^ f.width : Nat) : Int) := by push_cast; rfl
    rw [this, Int.bmod_emod]
  · push_cast
    rw [Int.emod_emod]

theorem sum_emod (f : Fmt) (xs : List Nat) (a : Int) :
    (xs.map (intVal f)).foldl (· + ·) a % 2 ^ f.width = (a + (xs.sum : Nat)) % 2 ^ f.width := by
  induction xs generalizing a with
  | nil => simp
  | cons x xs ih =>
    have hx : intVal f x ≡ (x : Int) [ZMOD 2 ^ f.width] := intVal_emod f x
    rw [List.map_cons, List.foldl_cons, ih, List.sum_cons, Nat.cast_add, ← add_assoc]
    exact ((Int.ModEq.refl a).add hx).add_right _

theorem foldInt_sum (f : Fmt) (xs : List Nat) : foldInt f 0 xs = xs.sum % 2 ^ f.width := by
  show (((xs.map (intVal f)).foldl (· + ·) 0) % 2 ^ f.width).toNat = _
  rw [sum_emod, zero_add, ← Int.toNat_natCast (xs.sum % 2 ^ f.width)]
  push_cast
  rfl

/-- Settles O17: lane masks bit by bit, `shfl` by its source lane, integer sums modulo 2^N. -/
theorem crossLaneResults : Obligations.CrossLaneResults := by
  unfold Obligations.CrossLaneResults
  constructor
  · intro o w s e a
    refine ⟨fun r => ?_, fun r => ?_, fun r => ?_, fun r => ?_, fun r => ?_⟩ <;> obtain rfl := Option.some.inj r.1
    · let m (e : Env) : Nat := maskOf (e.lanes.filter fun j => e.val 0 o.fmt j o.va != 0)
      have hmask (j : Nat) (hj : j < 64) : (BitVec.ofNat 64 (m e)).getLsbD j = (e.lanes.contains j && a j != 0) :=
        getLsbD_maskOf_filter _ _ hj
      have hwf : ((o.fmt == .n32 || o.fmt == .n64) && o.plain && regOk o.fmt.wide o.vd &&
        regOk o.fmt.wide o.va) = true := Instr.wf_fields r.2.1
      simp only [Bool.and_eq_true, Bool.or_eq_true, beq_iff_eq] at hwf
      obtain ⟨⟨⟨hfmt, _⟩, _⟩, _⟩ := hwf
      rcases hfmt with hfmt | hfmt
      · refine r.value32 (x := fun e _ => m e) (vd := o.vd) (by simp [hfmt, Fmt.wide]) ?_ fun g' hflags hshows =>
          ⟨hflags, fun l hl => ⟨_, ?_, hmask⟩⟩
        · simp [exec, execBallot, xWord, hfmt, Fmt.wide, m]
        · rw [if_neg (by simp [hfmt]), BitVec.setWidth_ofNat_of_le (by decide)]
          exact hshows l hl
      · refine r.valuePair (x := fun e _ => m e) (vd := o.vd) (by simp [hfmt, Fmt.wide]) ?_ fun g' hflags hshows =>
          ⟨hflags, fun l hl => ⟨_, ?_, hmask⟩⟩
        · simp [exec, execBallot, xWord, hfmt, Fmt.wide, m]
        · rw [if_pos hfmt]
          exact hshows l hl
    · exact r.valuePair rfl rfl fun g' hflags hshows => ⟨hflags, fun l hl => ⟨_, hshows l hl, fun j hj =>
        getLsbD_maskOf_filter _ _ hj⟩⟩
    · refine r.value32 rfl rfl fun g' hflags hshows => ⟨hflags, fun l hl => ?_⟩
      have := hshows l hl
      simpa [apply_ite (BitVec.ofNat 32)] using this
    · refine r.value32 rfl rfl fun g' hflags hshows => ⟨hflags, fun l hl => ?_⟩
      have := hshows l hl
      simpa [apply_ite (BitVec.ofNat 32)] using this
    · refine r.value rfl rfl fun g' hflags hshows => ⟨hflags, fun l hl => ?_⟩
      have h := hshows l hl
      intro b from'
      have hfrom : shflFrom o.opr l b = from' := shflFrom_eq ..
      rw [hfrom] at h
      refine ⟨fun j hj hj' => ?_, fun hn => ?_⟩
      · have hlt := active_lt r.2.2.env hj
        rw [if_pos (by simp [← hj', hlt, hj]), ← hj'] at h
        exact h
      · rw [if_neg (by
          simp only [Bool.and_eq_true, decide_eq_true_eq, List.contains_iff_mem]
          rintro ⟨⟨h0, _⟩, hmem⟩
          exact hn _ hmem (Int.toNat_of_nonneg h0))] at h
        simpa using h
  · intro o w s e hint hopr sum
    have hopr : o.opr.toNat = 0 := by rw [hopr]; rfl
    refine ⟨fun r => ?_, fun r => ?_⟩ <;> obtain rfl := Option.some.inj r.1
    · refine r.value (x := fun e _ => foldInt o.fmt 0 (e.lanes.map fun j => e.val 0 o.fmt j o.va)) rfl ?_
        fun g' hflags hshows => ⟨hflags, fun l hl => by
          have h := hshows l hl
          rwa [foldInt_sum] at h⟩
      simp only [exec, execRed, foldVals, hint, if_true, hopr]
      rfl
    · refine r.value (x := fun e l => foldInt o.fmt 0 ((e.lanes.filter fun j => if o.x = 0 then j ≤ l else j < l).map
        fun j => e.val 0 o.fmt j o.va)) rfl ?_ fun g' hflags hshows => ⟨hflags, fun l hl => by
          have h := hshows l hl
          rwa [foldInt_sum] at h⟩
      simp only [exec, execScan, foldVals, hint, if_true, hopr, beq_iff_eq]
      rfl

/-! ## Words that write no register -/

/-- What a word leaves that changes its group by `f`, which touches no register. -/
theorem noWrite_spared {s t : State} {e : Env} {f : Group → Group} (hg : s.group e.gk = some e.g)
    (hframes : (f e.g).frames = e.g.frames) (hwindow : (f e.g).window = e.g.window) (T : TailAt e.gk (s.noWrite e f) t) :
    ∃ g', t.group e.gk = some g' ∧ Tail ((f e.g).pushWindow (winEntry [])) g' ∧ Spared s t e (f e.g) noReg noReg g' := by
  have hown : (s.noWrite e f).group e.gk = some ((f e.g).pushWindow (winEntry [])) := by
    rw [State.noWrite, group_onGroup, if_pos rfl, hg]
    rfl
  obtain ⟨g', hg', T'⟩ := T.group _ hown
  refine ⟨g', hg', T', State.sameBut_trans (show s.sameBut (s.noWrite e f) from rfl) T.rest, fun k => T.teams k, fun k hk => ?_, T'.lanes, T'.slices, T'.special,
    T'.regions, T'.counters, fun d => (T'.still d).trans ?_, fun d l r _ _ => (T'.bank d l r).trans ?_, fun l r _ _ => ?_⟩
  · rw [T.others k hk, State.noWrite, group_onGroup, if_neg hk]
  · show ((f e.g).frames.find d).map Frame.still = _
    rw [hframes]
  · show ((f e.g).frames.find d).map (fun x => x.bank l r) = _
    rw [hframes]
    rfl
  · rw [Group.seen, T'.window]
    show windowRead ((winEntry [] :: (f e.g).window).take 7) l r = _
    rw [hwindow, List.take_succ_cons]
    exact windowRead_winEntry_none fun w hw => absurd hw (List.not_mem_nil)

/-- The same for a word that passes its checks and ends as most words do. -/
theorem noWrite_completes {i : Instr} {h : Hdr} {len : Nat} {regs reads : List (Nat × Nat)} {s : State} {e : Env}
    {f : Group → Group} {body : Env → State → Res} {P : State → Group → Prop}
    (hx : exec i s = word h len regs reads body s) (r : Ready h none regs reads s e)
    (hb : body e s = .ok (s.noWrite e f)) (hframes : (f e.g).frames = e.g.frames) (hwindow : (f e.g).window = e.g.window)
    (hP : ∀ t g', Spared s t e (f e.g) noReg noReg g' → P t g') : Completes i s e P := by
  obtain ⟨g', hg', -, hs⟩ := noWrite_spared (env_group r.env) hframes hwindow
    ((TailAt.correctReads e.gk (s.noWrite e f) e reads).trans (.retire _ e h len))
  exact ⟨_, g', hx.trans (word_ready r hb), hg', hP _ _ hs⟩

/-! ## Special state (R28, R29, R156, R157) -/

theorem sidVal_eq (e : Env) (time : Dword) (l : Nat) (sid : Sid) : sidVal e time l sid = specialValue e time l sid := by
  cases sid <;> rfl

theorem modeFate_eq (v : Word) :
    modeFate v = v &&& (if 5 < (v.extractLsb' 0 3).toNat then 0xFFFFFF78 else 0xFFFFFF7F) := by
  have h : (v &&& 7).toNat = (v.extractLsb' 0 3).toNat := by
    have := Nat.and_two_pow_sub_one_eq_mod v.toNat 3
    simpa using this
  unfold modeFate
  rw [h]
  split
  · rw [if_pos (by omega), BitVec.and_assoc]
    rfl
  · rw [if_neg (by omega)]

/-- Settles O18: each special state by its number, and the fates of `sx.mode` and `sx.flags`. -/
theorem specialReadsAndWrites : Obligations.SpecialReadsAndWrites := by
  unfold Obligations.SpecialReadsAndWrites
  constructor
  · intro h k vd sid w s e r
    obtain rfl := Option.some.inj r.1
    by_cases hsid : sid = .time
    · subst hsid
      refine r.valuePair (x := fun _ _ => s.time.toNat) rfl rfl fun g' hflags hshows => ⟨hflags, fun l hl => ?_⟩
      have := hshows l hl
      rw [BitVec.ofNat_toNat] at this
      exact this
    · have hw : (sid == Sid.time) = false := beq_eq_false_iff_ne.2 hsid
      refine r.value32 (x := fun e l => sidVal e s.time l sid) (vd := vd) (by rw [hw]) ?_ fun g' hflags hshows =>
        ⟨hflags, fun l hl => ?_⟩
      · show word h 1 _ _ _ s = _
        simp only [hw, Bool.false_eq_true, if_false]
      · rw [if_neg hsid, ← sidVal_eq]
        exact hshows l hl
  · intro h sid vb s e hsid r
    cases hl : e.lanes with
    | nil => exact noWrite_completes (Eq.refl (execMovsm ..)) r (f := id) (by rw [hl]) rfl rfl fun t g' hs => ⟨_, _, hs, rfl, rfl⟩
    | cons l ls =>
      rcases hsid with rfl | rfl
      · refine noWrite_completes (Eq.refl (execMovsm ..)) r (f := fun g => { g with mode := modeFate (BitVec.ofNat 32 (e.src 1 .n32 l vb)) })
          (by rw [hl]; rfl) rfl rfl fun t g' hs => ⟨_, _, hs, rfl, modeFate_eq _⟩
      · refine noWrite_completes (Eq.refl (execMovsm ..)) r (f := fun g => { g with flags := flagsFate (BitVec.ofNat 32 (e.src 1 .n32 l vb)) })
          (by rw [hl]; rfl) rfl rfl fun t g' hs => ⟨_, _, hs, rfl, rfl⟩

/-! ## The window test (R142, R145) -/

/-- Window and locality of an address, as `sptest` gives them. -/
theorem sptestVal_eq (core win : Nat) {p : Nat} (hp : p < 2 ^ 64) :
    let top := p / 2 ^ 56
    let unit := p % 2 ^ 48 / 2 ^ 24
    let found : Nat × Bool :=
      if top = 0 then (0, true)
      else if top = 0xA1 ∧ p / 2 ^ 32 % 2 ^ 24 = 0 then (1, true)
      else if top = 0xA2 ∧ p / 2 ^ 48 % 2 ^ 8 = 0 ∧ unit % 2 ^ 15 = 0 ∧ unit / 2 ^ 15 < 384 then (2, unit / 2 ^ 15 == core)
      else if top = 0xA3 ∧ p / 2 ^ 48 % 2 ^ 8 = 0 ∧ unit % 2 ^ 17 = 0 ∧ unit / 2 ^ 17 < 96 then (3, unit / 2 ^ 17 == core / 4)
      else if top = 0xA4 ∧ p / 2 ^ 48 % 2 ^ 8 = 0 ∧ unit % 2 ^ 17 = 0 ∧ unit / 2 ^ 17 % 2 ^ 5 < 24 then (4, true)
      else (7, false)
    sptestVal core p win = found.1 + (if found.2 then 8 else 0) + (if found.1 = win then 16 else 0) := by
  intro top unit found
  have htop : bitsOf p 63 56 = top := by
    rw [bitsOf]
    omega
  have h1 : bitsOf p 38 24 = unit % 2 ^ 15 := by
    simp only [bitsOf, unit]
    omega
  have h2 : bitsOf p 47 39 = unit / 2 ^ 15 := by
    simp only [bitsOf, unit]
    omega
  have h3 : bitsOf p 40 24 = unit % 2 ^ 17 := by
    simp only [bitsOf, unit]
    omega
  have h4 : bitsOf p 47 41 = unit / 2 ^ 17 := by
    simp only [bitsOf, unit]
    omega
  have h5 : bitsOf p 45 41 = unit / 2 ^ 17 % 2 ^ 5 := by
    simp only [bitsOf, unit]
    omega
  have h6 : bitsOf p 55 48 = p / 2 ^ 48 % 2 ^ 8 := rfl
  have h7 : bitsOf p 55 32 = p / 2 ^ 32 % 2 ^ 24 := rfl
  unfold sptestVal windowOf
  rw [htop, h1, h2, h3, h4, h5, h6, h7]
  simp only [found]
  by_cases t0 : top = 0
  · simp [-Nat.reducePow, t0, Win.code, Win.foreign, fIf]
  by_cases t1 : top = 0xA1
  · by_cases c : p / 2 ^ 32 % 2 ^ 24 = 0 <;> simp [-Nat.reducePow, t1, c, Win.code, Win.foreign, fIf, @eq_comm _ win 7]
  by_cases t2 : top = 0xA2
  · by_cases c : p / 2 ^ 48 % 2 ^ 8 = 0 ∧ unit % 2 ^ 15 = 0 ∧ unit / 2 ^ 15 < 384
    · obtain ⟨c1, c2, c3⟩ := c
      simp [-Nat.reducePow, t2, c1, c2, c3, Win.code, Win.foreign, fIf]
    · simp [-Nat.reducePow, t2, c, and_assoc, fIf, @eq_comm _ win 7]
  by_cases t3 : top = 0xA3
  · by_cases c : p / 2 ^ 48 % 2 ^ 8 = 0 ∧ unit % 2 ^ 17 = 0 ∧ unit / 2 ^ 17 < 96
    · obtain ⟨c1, c2, c3⟩ := c
      simp [-Nat.reducePow, t3, c1, c2, c3, Win.code, Win.foreign, clusterOf, fIf]
    · simp [-Nat.reducePow, t3, c, and_assoc, fIf, @eq_comm _ win 7]
  by_cases t4 : top = 0xA4
  · by_cases c : p / 2 ^ 48 % 2 ^ 8 = 0 ∧ unit % 2 ^ 17 = 0 ∧ unit / 2 ^ 17 % 2 ^ 5 < 24
    · obtain ⟨c1, c2, c3⟩ := c
      simp [-Nat.reducePow, t4, c1, c2, c3, Win.code, Win.foreign, fIf]
    · simp [-Nat.reducePow, t4, c, and_assoc, fIf, @eq_comm _ win 7]
  simp [-Nat.reducePow, t0, t1, t2, t3, t4, fIf, @eq_comm _ win 7]

/-- Settles O19: each lane writes the code of its address's window, which `sptestVal_eq` gives. -/
theorem windowTest : Obligations.WindowTest := by
  unfold Obligations.WindowTest
  intro o w s e r
  obtain rfl := Option.some.inj r.1
  refine r.value32 rfl rfl fun g' hflags hshows => ⟨hflags, fun l hl => ?_⟩
  intro p top unit found
  have h := hshows l hl
  rw [sptestVal_eq _ _ (pair_lt e 0 l o.va)] at h
  exact h

end Sys2Proof.Machine
end

section
/-! SUPPORT. Pair words (R39, R40, R58): the results of a half, and what a pair word commits. -/

namespace Sys2Proof.Machine

open Sys2Proof

/-! ## The result of a half (R58) -/

theorem ofNat_sra (d : Word) (c : Nat) : BitVec.ofNat 32 (wrapN 32 (sext 32 d.toNat / (2 ^ c : Int))) = d.sshiftRight c := by
  apply BitVec.eq_of_toNat_eq
  rw [BitVec.toNat_ofNat, sra_toNat, BitVec.ofNat_toNat, BitVec.setWidth_eq]

theorem ofNat_shl (d : Word) (c : Nat) : BitVec.ofNat 32 (d.toNat * 2 ^ c) = d <<< c := by
  apply BitVec.eq_of_toNat_eq
  rw [BitVec.toNat_ofNat, shl_toNat, BitVec.ofNat_toNat, BitVec.setWidth_eq]

theorem ofNat_shr (d : Word) (c : Nat) : BitVec.ofNat 32 (d.toNat / 2 ^ c) = d >>> c := by
  apply BitVec.eq_of_toNat_eq
  rw [BitVec.toNat_ofNat, shr_toNat d.isLt, BitVec.ofNat_toNat, BitVec.setWidth_eq]

theorem ofNat_ite_toNat (p : Prop) [Decidable p] (a b : Word) :
    BitVec.ofNat 32 (if p then a.toNat else b.toNat) = if p then a else b := by
  split <;> rw [BitVec.ofNat_toNat, BitVec.setWidth_eq]

theorem ofNat_imm (x : BitVec 8) : BitVec.ofNat 32 (wrapN 32 (sext 8 x.toNat)) = x.signExtend 32 := by
  rw [ofNat_wrapN, sext_eq_toInt, BitVec.ofNat_toNat, BitVec.setWidth_eq]
  rfl

theorem less_eq (smod : BitVec 3) (d s : Word) :
    (if (smod == 0) = true then decide (sext 32 d.toNat ≤ sext 32 s.toNat) else decide (d.toNat ≤ s.toNat)) =
      if smod = 0 then d.sle s else d.ule s := by
  rw [sext_eq_toInt, sext_eq_toInt, BitVec.ofNat_toNat, BitVec.ofNat_toNat, BitVec.setWidth_eq, BitVec.setWidth_eq]
  simp [BitVec.sle, BitVec.ule]

/-- What an integer half writes is `halfValue`, and it raises no flag. -/
theorem pairVal_eq {x : Half} {d s v : Word} (h : halfValue x d s = some v) (env : FEnv) :
    let r := pairVal x.op x.args.smod env d.toNat (if pairImm x.op then x.args.vs.toNat else s.toNat)
    BitVec.ofNat 32 r.1 = v ∧ r.2 = 0 := by
  obtain ⟨op, k, vd, vs, smod⟩ := x
  cases op
  all_goals first | (cases h; done) | skip
  all_goals
    obtain rfl := Option.some.inj h
    refine ⟨?_, rfl⟩
  case mov => exact (BitVec.ofNat_toNat ..).trans (BitVec.setWidth_eq _)
  case add => exact BitVec.eq_of_toNat_eq (by simp [pairVal, pairImm])
  case sub => exact BitVec.eq_of_toNat_eq (by simp [pairVal, pairImm]; omega)
  case mul => exact BitVec.eq_of_toNat_eq (by simp [pairVal, pairImm])
  case and => exact BitVec.eq_of_toNat_eq (by simp [pairVal, pairImm])
  case or => exact BitVec.eq_of_toNat_eq (by simp [pairVal, pairImm])
  case xor => exact BitVec.eq_of_toNat_eq (by simp [pairVal, pairImm])
  case shl => exact ofNat_shl ..
  case shr => exact ofNat_shr ..
  case sra => exact ofNat_sra ..
  case shli => exact ofNat_shl ..
  case shri => exact ofNat_shr ..
  case srai => exact ofNat_sra ..
  case addi =>
    show BitVec.ofNat 32 (d.toNat + wrapN 32 (sext 8 vs.toNat)) = _
    rw [BitVec.ofNat_add, ofNat_imm, BitVec.ofNat_toNat, BitVec.setWidth_eq]
  case andi =>
    exact BitVec.eq_of_toNat_eq (by simp [pairVal, pairImm])
  case movi => exact ofNat_imm ..
  case fabs =>
    refine BitVec.eq_of_toNat_eq ?_
    show s.toNat % 2 ^ 31 % 2 ^ 32 = _
    show _ = s.toNat &&& (2 ^ 31 - 1)
    rw [Nat.and_two_pow_sub_one_eq_mod]
    exact Nat.mod_eq_of_lt (by omega)
  case fneg =>
    refine BitVec.eq_of_toNat_eq ?_
    show (s.toNat ^^^ 2 ^ 31) % 2 ^ 32 = s.toNat ^^^ 2 ^ 31
    exact Nat.mod_eq_of_lt (Nat.xor_lt_two_pow s.isLt (by decide))
  case min => exact (ofNat_ite_toNat _ d s).trans (congrArg (fun t : Bool => if t then d else s) (less_eq smod d s))
  case max => exact (ofNat_ite_toNat _ s d).trans (congrArg (fun t : Bool => if t then s else d) (less_eq smod d s))

/-! ## Committing both halves (R40) -/

/-- A half's writes: its destination in each active lane, nothing for a `nop`. -/
def halfWrites (x : Half) (e : Env) (l r : Nat) : Prop := x.op ≠ .nop ∧ l ∈ e.lanes ∧ r = x.args.vd.toNat

theorem halfLane_nop {x : Half} (h : x.op = .nop) (a : Nat) (e : Env) (l : Nat) : halfLane x a e l = ([], 0) := by
  rw [halfLane, if_pos (beq_iff_eq.2 h)]

/-- What a half that is not a `nop` does in a lane. -/
theorem halfLane_op {x : Half} (h : x.op ≠ .nop) (a : Nat) (e : Env) (l : Nat) : halfLane x a e l =
    let r := pairVal x.op x.args.smod (e.fenv (smodRm x.args.smod) .mode l 0 x.args.vd) (e.reg1 a l x.args.vd)
      (if pairImm x.op then x.args.vs.toNat else e.reg1 (a + 1) l x.args.vs)
    ([(l, x.args.vd.toNat, BitVec.ofNat 32 r.1)], r.2) := by
  rw [halfLane, if_neg (by simpa using h)]
  rfl

theorem mem_half {x : Half} {a : Nat} {e : Env} {w : RegWrite} (hw : w ∈ (e.eachLane (halfLane x a)).1) :
    halfWrites x e w.1 w.2.1 ∧ w ∈ (halfLane x a e w.1).1 := by
  obtain ⟨l, hl, hw⟩ := List.mem_flatMap.1 hw
  by_cases h : x.op = .nop
  · rw [halfLane_nop h] at hw
    cases hw
  · have hw' := hw
    rw [halfLane_op h] at hw'
    obtain rfl := List.mem_singleton.1 hw'
    exact ⟨⟨h, hl, rfl⟩, hw⟩

/-- What a pair word that passes its checks leaves (R40). -/
theorem pair_completes {h : Hdr} {a b : Half} {s : State} {e : Env}
    (r : Ready h none (halfRegs a ++ halfRegs b) (halfRegs a ++ halfRegs b) s e) :
    let wa := (e.eachLane (halfLane a 0)).1
    let wb := (e.eachLane (halfLane b 2)).1
    let fl := BitVec.ofNat 32 ((e.eachLane (halfLane a 0)).2 ||| (e.eachLane (halfLane b 2)).2)
    ∃ t g', pairWord h a b s = .next t ∧ t.group e.gk = some g' ∧
      Spared s t e { e.g with flags := e.g.flags ||| fl }
        (fun l r => (a.args.k = true ∧ halfWrites a e l r) ∨ (b.args.k = true ∧ halfWrites b e l r))
        (fun l r => halfWrites a e l r ∨ halfWrites b e l r) g' ∧
      ∀ l r v, (∃ w ∈ wa ++ wb, w.1 = l ∧ w.2.1 = r) → (∀ w ∈ wa ++ wb, w.1 = l → w.2.1 = r → w.2.2 = v) →
        g'.seen l r = some v := by
  intro wa wb fl
  have hlt {w : RegWrite} (hw : w ∈ wa ++ wb) : w.2.1 < 256 := by
    rcases List.mem_append.1 hw with hw | hw
    · obtain ⟨⟨_, _, h⟩, _⟩ := mem_half hw
      rw [h]
      exact BitVec.isLt _
    · obtain ⟨⟨_, _, h⟩, _⟩ := mem_half hw
      rw [h]
      exact BitVec.isLt _
  have hg := env_group r.env
  have Wa := foldWrites_wrote a.args.k wa e.g
  have Wb := foldWrites_wrote b.args.k wb (wa.foldl (fun g w => g.writeReg a.args.k w) e.g)
  have hbody : (s.commitPair e a.args.k b.args.k wa wb ((e.eachLane (halfLane a 0)).2 ||| (e.eachLane (halfLane b 2)).2)).group
      e.gk = some (((wb.foldl (fun g w => g.writeReg b.args.k w) (wa.foldl (fun g w => g.writeReg a.args.k w) e.g)).pushWindow
        (winEntry (wa ++ wb))).raise ((e.eachLane (halfLane a 0)).2 ||| (e.eachLane (halfLane b 2)).2)) := by
    rw [State.commitPair, group_onGroup, if_pos rfl, group_clearLatent, hg]
    rfl
  have T := (TailAt.correctReads e.gk (s.commitPair e a.args.k b.args.k wa wb
    ((e.eachLane (halfLane a 0)).2 ||| (e.eachLane (halfLane b 2)).2)) e (halfRegs a ++ halfRegs b)).trans (TailAt.retire _ e h 1)
  obtain ⟨g', hg', T'⟩ := T.group _ hbody
  refine ⟨_, g', word_ready r rfl, hg', ?_, fun l q v hw hv => ?_⟩
  · refine ⟨State.sameBut_trans (show s.sameBut (s.commitPair ..) from rfl) T.rest, T.teams, fun j hj => ?_,
      T'.lanes.trans (Wb.lanes.trans Wa.lanes), ?_, ?_, T'.regions.trans (Wb.regions.trans Wa.regions),
      T'.counters.trans (Wb.counters.trans Wa.counters), fun d => ?_, fun d l q hq hn => ?_, fun l q hq hn => ?_⟩
    · rw [T.others j hj, State.commitPair, group_onGroup, if_neg hj, group_clearLatent]
    · rw [T'.slices]
      exact congrArg _ (Wb.slices.trans Wa.slices)
    · rw [T'.special]
      have := Wb.special.trans Wa.special
      simp only [Prod.mk.injEq] at this
      simp [Group.raise, Group.pushWindow, this, fl]
    · rw [T'.still]
      exact (Wb.frames d).trans (Wa.frames d)
    · rw [T'.bank]
      have hdepth (l : Nat) : (wa.foldl (fun g w => g.writeReg a.args.k w) e.g).lane l = e.g.lane l := by
        rw [Group.lane, Wa.lanes]
        rfl
      refine (Wb.bank d l q fun ⟨hk, w, hw, h1, h2⟩ => hn ?_).trans (Wa.bank d l q fun ⟨hk, w, hw, h1, h2⟩ => hn ?_)
      · obtain ⟨rfl, rfl⟩ := key_inj (hlt (List.mem_append_right _ hw)) hq h2
        exact ⟨.inr ⟨hk, (mem_half hw).1⟩, h1.trans (by rw [hdepth])⟩
      · obtain ⟨rfl, rfl⟩ := key_inj (hlt (List.mem_append_left _ hw)) hq h2
        exact ⟨.inl ⟨hk, (mem_half hw).1⟩, h1⟩
    · rw [Group.seen, T'.window]
      show windowRead ((winEntry (wa ++ wb) :: (wb.foldl (fun g w => g.writeReg b.args.k w)
        (wa.foldl (fun g w => g.writeReg a.args.k w) e.g)).window).take 7) l q = _
      rw [Wb.window, Wa.window, List.take_succ_cons]
      refine windowRead_winEntry_none fun w hw h2 => hn ?_
      obtain ⟨rfl, rfl⟩ := key_inj (hlt hw) hq h2
      exact (List.mem_append.1 hw).imp (fun hw => (mem_half hw).1) fun hw => (mem_half hw).1
  · rw [Group.seen, T'.window]
    show windowRead ((winEntry (wa ++ wb) :: (wb.foldl (fun g w => g.writeReg b.args.k w)
      (wa.foldl (fun g w => g.writeReg a.args.k w) e.g)).window).take 7) l q = _
    rw [List.take_succ_cons]
    obtain ⟨w0, hw0, rfl, rfl⟩ := hw
    refine windowRead_winEntry_some (fun w hw h2 => ?_) ⟨w0, hw0, rfl⟩
    obtain ⟨h3, h4⟩ := key_inj (hlt hw) (hlt hw0) h2
    exact hv w hw h3 h4

/-- A half whose values `halfValue` gives raises no flag. -/
theorem half_noFlags {x : Half} {n : Nat} (h : x.op = .nop ∨ ∀ d s, (halfValue x d s).isSome) (e : Env) :
    (e.eachLane (halfLane x n)).2 = 0 := by
  refine or_noFlags _ _ fun l _ => ?_
  by_cases hop : x.op = .nop
  · rw [halfLane_nop hop]
  · obtain ⟨v, hv⟩ := Option.isSome_iff_exists.1 (h.resolve_left hop (e.reg n l x.args.vd.toNat) (e.reg (n + 1) l x.args.vs.toNat))
    rw [halfLane_op hop]
    exact (pairVal_eq hv _).2

/-- What a half writes in a lane is `halfValue` of what it reads there. -/
theorem half_value {x : Half} {n : Nat} {e : Env} {w : RegWrite} {v : Word} (hw : w ∈ (e.eachLane (halfLane x n)).1)
    (hv : halfValue x (e.reg n w.1 x.args.vd.toNat) (e.reg (n + 1) w.1 x.args.vs.toNat) = some v) : w.2.2 = v := by
  obtain ⟨⟨hop, _, _⟩, hw⟩ := mem_half hw
  rw [halfLane_op hop] at hw
  obtain ⟨l, q, u⟩ := w
  obtain ⟨-, rfl⟩ := by simpa using hw
  exact (pairVal_eq hv _).1

theorem half_mem {x : Half} (hop : x.op ≠ .nop) (n : Nat) {e : Env} {l : Nat} (hl : l ∈ e.lanes) :
    ∃ w ∈ (e.eachLane (halfLane x n)).1, w.1 = l ∧ w.2.1 = x.args.vd.toNat := by
  have : ∃ w ∈ (halfLane x n e l).1, w.1 = l ∧ w.2.1 = x.args.vd.toNat := by
    rw [halfLane_op hop]
    exact ⟨_, List.mem_cons_self, rfl, rfl⟩
  obtain ⟨w, hw, h⟩ := this
  exact ⟨w, List.mem_flatMap.2 ⟨l, hl, hw⟩, h⟩

/-- Settles O20: both halves run on the state before the word, and their writes are committed together. -/
theorem pairWordsComplete : Obligations.PairWordsComplete := by
  unfold Obligations.PairWordsComplete
  rintro i h x ⟨op, args⟩ b s e rfl hm hwf r writes
  have hi : exec i s = pairWord h ⟨op, args⟩ b s ∧ i.halves = some (h, ⟨op, args⟩, b) := by
    cases op <;> simp at hm <;> obtain rfl := hm <;> exact ⟨rfl, rfl⟩
  obtain ⟨hx, hhalves⟩ := hi
  generalize (⟨op, args⟩ : Half) = a at *
  obtain ⟨t, g', ht, hg', hs, hseen⟩ := pair_completes r
  have hother (ha : a.op ≠ .nop) (hb : b.op ≠ .nop) : a.args.vd ≠ b.args.vd := by
    simp only [Instr.wf, Instr.pairOk, hhalves, halvesOk, Bool.and_eq_true, Bool.or_eq_true, beq_iff_eq, bne_iff_ne] at hwf
    obtain ⟨-, (h | h) | ⟨-, h⟩⟩ := hwf
    · exact absurd h ha
    · exact absurd h hb
    · exact h
  refine ⟨t, g', hx.trans ht, hg', ⟨_, hs, fun ⟨ha, hb⟩ => ?_⟩, fun l hl v hop hv => ?_, fun l hl v hop hv => ?_⟩
  · rw [half_noFlags ha, half_noFlags hb]
    rfl
  · obtain ⟨w, hw, h1, h2⟩ := half_mem hop 0 hl
    refine hseen l _ v ⟨w, List.mem_append_left _ hw, h1, h2⟩ fun w' hw' h1' h2' => ?_
    rcases List.mem_append.1 hw' with hw' | hw'
    · exact half_value hw' (h1' ▸ hv)
    · obtain ⟨⟨hop', _, h3⟩, _⟩ := mem_half hw'
      exact absurd (BitVec.eq_of_toNat_eq (h2'.symm.trans h3)) (hother hop hop')
  · obtain ⟨w, hw, h1, h2⟩ := half_mem hop 2 hl
    refine hseen l _ v ⟨w, List.mem_append_right _ hw, h1, h2⟩ fun w' hw' h1' h2' => ?_
    rcases List.mem_append.1 hw' with hw' | hw'
    · obtain ⟨⟨hop', _, h3⟩, _⟩ := mem_half hw'
      exact absurd (BitVec.eq_of_toNat_eq (h3.symm.trans h2')) (hother hop' hop)
    · exact half_value hw' (h1' ▸ hv)

end Sys2Proof.Machine
end

section
/-! SUPPORT. Fetching, faults that come before a word's meaning, and the words of tier 1 (R42, R43, R57, R95, R245). -/

namespace Sys2Proof.Machine

open Sys2Proof

/-- Settles O1: the decoder computes each of them. -/
theorem decodesWrittenWords : Obligations.DecodesWrittenWords := by
  unfold Obligations.DecodesWrittenWords
  decide +kernel

/-- Settles O21: the reset state is written out in the model. -/
theorem resetValues : Obligations.ResetValues := by
  unfold Obligations.ResetValues
  exact ⟨rfl, rfl, rfl, rfl, rfl, rfl, fun _ => rfl, fun _ => rfl, fun _ => ⟨rfl, rfl, rfl, rfl⟩, fun _ => ⟨rfl, rfl⟩,
    fun _ => rfl, fun _ => rfl, fun _ => rfl, fun _ => rfl, fun _ => rfl, rfl⟩

/-- Settles O22: memory lists nothing at reset. -/
theorem resetIsCanonical : Obligations.ResetIsCanonical :=
  ⟨reset_memory_wf, fun _ => rfl⟩

/-! ## Steps (R41 to R43) -/

/-- Settles O5: the agenda's head is the move, and an event has no header. -/
theorem stepRunsTheAgendaEvent : Obligations.StepRunsTheAgendaEvent := by
  unfold Obligations.StepRunsTheAgendaEvent
  intro s i rest ha hi
  simp only [step, State.nextMove, ha, State.move, hi, Option.isNone_none, if_true]

/-- What the fetch of a word may change: the loop buffer, what an error correction counts, and what the pull of a migrating
line moves (R190, R287, R302). -/
def State.Fetches (s t : State) : Prop :=
  t = { s with loopBuf := t.loopBuf, latent := t.latent, errStack := t.errStack, errCluster := t.errCluster,
               mem := t.mem, poison := t.poison, gran := t.gran, migs := t.migs }

theorem State.Fetches.refl (s : State) : s.Fetches s := rfl

theorem State.Fetches.trans {a b c : State} (h : a.Fetches b) (h' : b.Fetches c) : a.Fetches c := by
  unfold State.Fetches at *
  rw [h', h]

theorem fetches_correctHome (s : State) (a n : Nat) : s.Fetches (s.correctHome a n) := by
  obtain ⟨l, c, k, h⟩ := correctHome_rest s a n
  rw [h]
  rfl

theorem fetches_foldl_setGran (k : Nat → Nat) (v : Nat → Gran) (xs : List Nat) (s : State) :
    s.Fetches (xs.foldl (fun t i => t.setGran (k i) (v i)) s) := by
  induction xs generalizing s with
  | nil => exact .refl s
  | cons x xs ih => exact .trans (b := s.setGran (k x) (v x)) rfl (ih _)

theorem fetches_pullLine (s : State) (id line : Nat) : s.Fetches (s.pullLine id line) := by
  unfold State.pullLine
  split
  · exact .refl s
  · next m _ =>
    split
    · exact .refl s
    · refine (fetches_correctHome s (s.liveKey (m.old + 128 * line)) 128).trans ?_
      dsimp only
      generalize s.correctHome (s.liveKey (m.old + 128 * line)) 128 = t
      refine .trans ?_ (fetches_foldl_setGran (fun i => (m.new + 128 * line) / 16 + i)
        (fun i => t.granAt (s.liveKey (m.old + 128 * line) / 16 + i)) (natsFrom 0 8) _)
      simp only [State.Fetches]

theorem fetches_touchFrom (s : State) (fuel pa : Nat) : s.Fetches (s.touchFrom fuel pa) := by
  induction fuel generalizing pa with
  | zero => exact .refl s
  | succ fuel ih =>
    unfold State.touchFrom
    split
    · exact ih _
    · split
      · exact (ih _).trans (fetches_pullLine _ _ _)
      · exact .refl s

theorem fetches_captureWord (s : State) (core module st off : Nat) (w : Dword) :
    s.Fetches (s.captureWord core module st off w) := by
  unfold State.captureWord
  split <;> rfl

theorem fetches_fetchWord (s : State) (p : At) (i : Nat) : s.Fetches (s.fetchWord p i) := by
  unfold State.fetchWord
  split
  · exact fetches_captureWord ..
  · exact ((fetches_touchFrom s _ _).trans (fetches_correctHome _ _ _)).trans (fetches_captureWord ..)

theorem fetches_captureNext (s : State) (core slot : Nat) : s.Fetches (s.captureNext core slot) := by
  unfold State.captureNext
  split
  · exact .refl s
  · split
    · exact .refl s
    · split
      · exact (fetches_fetchWord ..).trans (fetches_fetchWord ..)
      · exact fetches_fetchWord ..

/-- Where nothing migrates and no single-bit error is latent, a fetch changes the loop buffer alone. -/
theorem fetchWord_clean {s : State} (hm : s.migs = []) (hb : s.latent.blocks1 = []) (hg : s.latent.granules1 = [])
    (p : At) (i : Nat) : s.fetchWord p i = { s with loopBuf := (s.fetchWord p i).loopBuf } := by
  have hc (a n : Nat) : s.correctHome a n = s := by
    unfold State.correctHome
    rw [hb, hg]
    split <;> rfl
  unfold State.fetchWord
  simp only [touch_idle hm, hc, ite_self]
  unfold State.captureWord
  split <;> rfl

theorem captureNext_clean {s : State} (hm : s.migs = []) (hb : s.latent.blocks1 = []) (hg : s.latent.granules1 = [])
    (core slot : Nat) : s.captureNext core slot = { s with loopBuf := (s.captureNext core slot).loopBuf } := by
  unfold State.captureNext
  split
  · rfl
  · next p _ =>
    split
    · rfl
    · split
      · have h0 := fetchWord_clean hm hb hg p 0
        have h1 := fetchWord_clean (s := s.fetchWord p 0) (by rw [h0]; exact hm) (by rw [h0]; exact hb) (by rw [h0]; exact hg) p 1
        rw [h1, h0]
      · exact fetchWord_clean hm hb hg p 0

/-- A word that no body of the loop buffer covers is that of memory (R190). -/
theorem wordOf_uncovered {s : State} {p : At} {j : Nat}
    (h : ∀ b ∈ s.bodies p.core, b.covers p.handle p.st (p.off + j) = false) :
    s.wordOf p j = s.codeWord p.md p.st (p.off + j) := by
  have : s.bufferedWord p.core p.handle p.st (p.off + j) = none := by
    rw [State.bufferedWord, List.findSome?_eq_none_iff]
    intro b hb
    rw [h b hb]
    rfl
  rw [State.wordOf, this]
  rfl

/-- Settles O4: the fetch answers the decoded word, and what it changes is what `captureNext` changes. -/
theorem stepRunsTheFetchedWord : Obligations.StepRunsTheFetchedWord := by
  unfold Obligations.StepRunsTheFetchedWord
  intro s s0 s1 core slot rest p w i ha h0 h1 hp hout hw hlit hbad hdec
  have hlen : ¬ s0.stateLen p.md p.st ≤ p.off := by
    simp only [State.outside, Bool.or_eq_false_iff, decide_eq_false_iff_not] at hout
    exact hout.1
  have hlit' : ¬ (s0.literalAt p && p.run.words == 23) = true := by
    rw [hw] at hlit
    simpa [State.literalAt] using hlit
  have hcur : s0.cur = (core, slot) := by rw [h0]
  refine ⟨?_, h1 ▸ fetches_captureNext s0 core slot, fun hm hb hg => ?_, fun j hj => wordOf_uncovered hj⟩
  · have hfetch : s0.fetch s1 = .run i := by
      simp only [State.fetch, hcur, hp, if_neg hlen, if_neg hlit', hout, hbad, ← hw, hdec, Bool.false_eq_true, if_false]
    have hstep : step s = match s0.fetch s1 with
        | .run i => exec i s1
        | .done u => .next u := by
      rw [step, State.nextMove, ha, h1, h0]
      rfl
    rw [hstep, hfetch]
  · rw [h1]
    exact captureNext_clean hm hb hg core slot

/-! ## Faults before a word's meaning (R35, R36, R42, R43) -/

/-- The environment is that of the run in the current issue slot. -/
theorem env_run {s : State} {m : BitVec 8} {e : Env} (he : s.env m = some e) :
    s.runs.find (unitKey s.cur.1 s.cur.2) = some e.run ∧ e.gk = e.run.gk := by
  unfold State.env at he
  split at he
  · cases he
  · next r hr =>
    repeat (split at he <;> first | (cases he; done) | skip)
    cases he
    exact ⟨hr, rfl⟩

theorem position_run {s : State} {core slot : Nat} {p : At} (h : s.position core slot = some p) :
    s.runs.find (unitKey core slot) = some p.run := by
  unfold State.position at h
  split at h
  · cases h
  · next r hr =>
    repeat (split at h <;> first | (cases h; done) | skip)
    cases h
    exact hr

/-- Settles O6: both events take the fault of the word. -/
theorem fetchFaults : Obligations.FetchFaults := by
  unfold Obligations.FetchFaults
  constructor
  · intro s m e p he hp hout
    obtain ⟨hr, hgk⟩ := env_run he
    have hrun : p.run = e.run := Option.some.inj ((position_run hp).symm.trans hr)
    refine ⟨_, ?_, takeFault_taken he (wfault cFETCHRANGE 0)⟩
    show execFetchPastStateCode s = _
    rw [execFetchPastStateCode, hp, hgk, ← hrun]
    exact if_pos hout
  · intro s h illForm e he
    have ht := takeFault_taken he (wfault (if illForm then cILLFORM else cILLOP) 0)
    refine ⟨s.takeFault e.gk e.run.tag (wfault (if illForm then cILLFORM else cILLOP) 0), ?_, ?_⟩
    · show execUnassignedOpcode h illForm s = _
      rw [execUnassignedOpcode, he]
    · cases illForm <;> exact ht

/-- The meaning of each lane word is that of a word with its operands. -/
theorem lane_runs {i : Instr} {w : LaneWord} (hw : laneWordOf i = some w) (s : State) :
    ∃ body, exec i s = word w.h w.len (w.dest :: w.reads) w.reads body s := by
  cases i
  all_goals first | (cases hw; done) | obtain rfl := Option.some.inj hw
  case abs | neg | not | brev | rcps | rsqs | fabs | fneg | frint | popc | clz | ctz | fclass => exact ⟨_, aWord_a ..⟩
  case mov => exact ⟨_, aWord_b ..⟩
  case mad | madw | fma | bfi | sel | addsc => exact ⟨_, aWord_abc ..⟩
  case cmp | fcmp | cvt | cord | shfl | red | scan | ballot | any | all | matchLanes | sptest | spcast | movs => exact ⟨_, rfl⟩
  all_goals exact ⟨_, aWord_ab ..⟩
theorem laneWordOf_hdr {i : Instr} {w : LaneWord} (hw : laneWordOf i = some w) : i.hdr = some w.h := by
  cases i
  all_goals first | (cases hw; done) | obtain rfl := Option.some.inj hw
  all_goals rfl

theorem halves_runs {i : Instr} {h : Hdr} {a b : Half} (hp : i.halves = some (h, a, b)) (s : State) :
    i.hdr = some h ∧ exec i s = pairWord h a b s := by
  cases i
  all_goals first | (cases hp; done) | (obtain ⟨rfl, rfl, rfl⟩ := by simpa [Instr.halves] using hp)
  all_goals exact ⟨rfl, rfl⟩

/-- An outcome is that of a word with a header, whatever its length, operands and meaning. -/
def IsWord (h : Hdr) (s : State) (x : Outcome) : Prop :=
  ∃ len region regs reads fin body, x = wordAt h len region regs reads fin body s

theorem isWord_wordAt (h : Hdr) (len : Nat) (region : Option (BitVec 16)) (regs reads : List (Nat × Nat))
    (fin : Env → State → State) (body : Env → State → Res) (s : State) : IsWord h s (wordAt h len region regs reads fin body s) :=
  ⟨_, _, _, _, _, _, rfl⟩
theorem isWord_word (h : Hdr) (len : Nat) (regs reads : List (Nat × Nat)) (body : Env → State → Res) (s : State) :
    IsWord h s (word h len regs reads body s) := ⟨_, _, _, _, _, _, rfl⟩
theorem isWord_termWord (h : Hdr) (regs reads : List (Nat × Nat)) (body : Env → State → Res) (s : State) :
    IsWord h s (termWord h regs reads body s) := ⟨_, _, _, _, _, _, rfl⟩
theorem isWord_tileWord (h : Hdr) (regs : List (Nat × Nat)) (body : Env → State → Res) (s : State) :
    IsWord h s (tileWord h regs body s) := ⟨_, _, _, _, _, _, rfl⟩

/-- Words that look at the rows of the accumulators before they look at their frames (R226, R232). -/
def isRowWord : Instr → Bool
  | .mma _ | .accld _ | .accst _ | .accrd _ | .accz _ => true
  | _ => false

/-- Every instruction with a header runs as a word. -/
theorem exec_isWord {i : Instr} {h : Hdr} (hh : i.hdr = some h) (hi : ∀ x f, i ≠ .unassignedOpcode x f)
    (hr : isRowWord i = false) (s : State) : IsWord h s (exec i s) := by
  cases hl : laneWordOf i with
  | some w =>
    obtain ⟨body, hx⟩ := lane_runs hl s
    obtain rfl := Option.some.inj (hh.symm.trans (laneWordOf_hdr hl))
    exact hx ▸ isWord_word ..
  | none =>
    cases hp : i.halves with
    | some x =>
      obtain ⟨h', a, b⟩ := x
      obtain ⟨hh', hx⟩ := halves_runs hp s
      obtain rfl := Option.some.inj (hh.symm.trans hh')
      exact hx ▸ isWord_word ..
    | none =>
      cases i
      case unassignedOpcode x f => exact absurd rfl (hi x f)
      all_goals first | (cases hh; done) | (obtain rfl := Option.some.inj hh)
      all_goals first | (cases hl; done) | (cases hp; done) | (cases hr; done) | skip
      case vote | exit | regang | call | calli | ret | unwind =>
        simp only [exec, execVote, execExit, execRegang, execCall, execCalli, execRet, execUnwind, isWord_termWord]
      case loop | yield | trap | brkpt | enter | leave =>
        simp only [exec, execLoop, execYield, execTrap, execBrkpt, execEnter, execLeave, isWord_wordAt]
      case crew | wld => simp only [exec, execCrew, execWld, isWord_tileWord]
      case ld | lds | st | feset | feclr | fetest =>
        simp only [exec, execLd, execLds, execSt, execFeset, execFeclr, execFetest, accessWord, isWord_word]
      case aadd | amin | amax | aand | aor | axor | aexch | acas | afadd | ofadd =>
        simp only [exec, execAadd, execAmin, execAmax, execAand, execAor, execAxor, execAexch, execAcas, execAfadd, execOfadd,
          atomicWord, isWord_word]
      case copy | gather | scatter | srank | scmp | coll | msg | launch | evsig =>
        simp only [exec, execCopy, execGather, execScatter, execSrank, execScmp, execColl, execMsg, execLaunch, execEvsig,
          copyWord, selWord, isWord_word]
      case fence | fenceOpr | wait | arrive | bwait | br | brc | brx | nop | movsm =>
        simp only [exec, execFence, execFenceOpr, execWait, execArrive, execBwait, execBr, execBrc, execBrx, execNop, execMovsm,
          isWord_word]

/-- A mask that names an absent slot takes `ILL_MEMB` before the rows are looked at. -/
theorem widthWord_absent {h : Hdr} {arow : BitVec 5} {regs reads : List (Nat × Nat)} {fin : Env → State → State}
    {body : Env → State → Res} {s : State} {e : Env} (he : s.env h.m = some e) (hm : h.m ≠ 0)
    (hb : badMember h.m e.slots.length = true) :
    widthWord h arow regs reads fin body s = .next (s.takeFault e.gk e.run.tag (wfault cILLMEMB 0)) := by
  simp only [widthWord, he, hb, Bool.not_true, Bool.and_false, Bool.false_and, Bool.false_eq_true, if_false]
  exact wordAt_absent he hm hb

theorem exec_absent {i : Instr} {h : Hdr} (hh : i.hdr = some h) (hi : ∀ x f, i ≠ .unassignedOpcode x f) {s : State} {e : Env}
    (he : s.env h.m = some e) (hm : h.m ≠ 0) (hb : badMember h.m e.slots.length = true) :
    exec i s = .next (s.takeFault e.gk e.run.tag (wfault cILLMEMB 0)) := by
  cases hr : isRowWord i with
  | false =>
    obtain ⟨len, region, regs, reads, fin, body, hx⟩ := exec_isWord hh hi hr s
    rw [hx, wordAt_absent he hm hb]
  | true =>
    cases i
    all_goals first | (cases hr; done) | (obtain rfl := Option.some.inj hh)
    all_goals
      simp only [exec, execMma, execAccld, execAccst, execAccrd, execAccz, memXfer, rowXfer]
      exact widthWord_absent he hm hb

/-- Of numbers in ascending order, the lowest that meets a condition is found first. -/
theorem find_lowest {p : Nat → Bool} {l : Nat} {ls : List Nat} (order : ls.Pairwise (· < ·)) (hl : l ∈ ls) (hp : p l = true)
    (below : ∀ j ∈ ls, j < l → p j = false) : ls.find? p = some l := by
  induction ls with
  | nil => cases hl
  | cons j rest ih =>
    obtain ⟨first, order⟩ := List.pairwise_cons.1 order
    rcases List.mem_cons.1 hl with rfl | hl
    · rw [List.find?_cons_of_pos hp]
    · rw [List.find?_cons_of_neg (by simp [below j List.mem_cons_self (first l hl)])]
      exact ih order hl fun k hk => below k (List.mem_cons_of_mem _ hk)

/-- Settles O7: every instruction with a header looks at its mask first, and a lane word then at its frames. -/
theorem memberAndFrameFaults : Obligations.MemberAndFrameFaults := by
  unfold Obligations.MemberAndFrameFaults
  constructor
  · intro i s h e hh hi he hm
    have hm0 : h.m ≠ 0 := by
      intro h0
      rw [h0] at hm
      exact absurd hm (by simp)
    exact ⟨_, exec_absent hh hi he hm0 (decide_eq_true hm), takeFault_taken he _⟩
  · intro i w s e l hw he hm hmem hl hbad hfirst
    obtain ⟨body, hx⟩ := lane_runs hw s
    have hb : badMember w.h.m e.slots.length = false := decide_eq_false (by omega)
    have hframe : e.badFrame (w.dest :: w.reads) = some l := by
      refine find_lowest (env_lanes_pairwise_lt he) hl ?_ fun j hj hlt => ?_
      · obtain ⟨x, hx, hlt⟩ := hbad
        exact List.any_eq_true.2 ⟨x, hx, decide_eq_true hlt⟩
      · exact List.any_eq_false.2 fun x hx h => absurd (hfirst j hj hlt x hx) (not_le.2 (of_decide_eq_true h))
    exact ⟨_, hx.trans (wordAt_frame he hm hb hframe), takeFault_taken he _⟩

/-! ## Words that do nothing (R35, R57) -/

/-- A word whose mask is empty only counts in the forwarding window. -/
theorem wordAt_empty {h : Hdr} {len : Nat} {region : Option (BitVec 16)} {regs reads : List (Nat × Nat)}
    {fin : Env → State → State} {body : Env → State → Res} {s : State} {e : Env} (he : s.env h.m = some e) (hm : h.m = 0) :
    wordAt h len region regs reads fin body s = .next ((s.noWrite e id).retire e h len) := by
  unfold wordAt
  simp only [he, if_pos hm]
  rfl

/-- Settles O8: with an empty mask the word is skipped, and with one its body changes nothing. -/
theorem nopDoesNothing : Obligations.NopDoesNothing := by
  unfold Obligations.NopDoesNothing
  intro h lit s e he hr
  rcases hr with hm | r
  · obtain ⟨g', hg', -, hs⟩ := noWrite_spared (f := id) (env_group he) rfl rfl
      (TailAt.retire (s.noWrite e id) e h (if lit.isSome then 2 else 1))
    refine ⟨_, g', ?_, hg', hs⟩
    simp only [exec, execNop, word]
    exact wordAt_empty he hm
  · exact noWrite_completes (Eq.refl (execNop ..)) r (f := id) rfl rfl rfl fun t g' hs => hs

end Sys2Proof.Machine
end

section
/-! SUPPORT. What accesses to memory change: bytes, poison, granules, migrations, caches, TLBs, latent errors and their
counts, never a table of the machine; and they keep memory in its canonical form. -/

namespace Sys2Proof.Machine

open Sys2Proof

/-- Two machines differ at most on the side of memory, and the second's memory is canonical where the first's is. -/
structure MemSide (s t : State) : Prop where
  rest : t = { s with mem := t.mem, gran := t.gran, poison := t.poison, migs := t.migs, latent := t.latent,
                      errStack := t.errStack, errCluster := t.errCluster, caches := t.caches, tlb := t.tlb, free := t.free }
  inv : s.Inv → t.Inv

namespace MemSide

theorem refl (s : State) : MemSide s s := ⟨rfl, id⟩

theorem trans {a b c : State} (h : MemSide a b) (h' : MemSide b c) : MemSide a c :=
  ⟨by rw [h'.rest, h.rest], h'.inv ∘ h.inv⟩

/-- A change that leaves the bytes. -/
theorem of_mem {s t : State} (hm : t.mem = s.mem)
    (hr : t = { s with mem := t.mem, gran := t.gran, poison := t.poison, migs := t.migs, latent := t.latent,
                       errStack := t.errStack, errCluster := t.errCluster, caches := t.caches, tlb := t.tlb,
                       free := t.free }) : MemSide s t :=
  ⟨hr, fun h => by rw [State.Inv, hm]; exact h⟩

theorem foldl {α : Type} {f : State → α → State} (hf : ∀ s x, MemSide s (f s x)) (xs : List α) (s : State) :
    MemSide s (xs.foldl f s) := by
  induction xs generalizing s with
  | nil => exact refl s
  | cons x xs ih => exact (hf s x).trans (ih _)

/-- A change followed by small ones. -/
theorem thenFoldl {α : Type} {f : State → α → State} {s t : State} (h : MemSide s t) (hf : ∀ s x, MemSide s (f s x))
    (xs : List α) : MemSide s (xs.foldl f t) := h.trans (foldl hf xs t)

end MemSide

/-! ## Homes -/

theorem memSide_setGran (s : State) (g : Nat) (x : Gran) : MemSide s (s.setGran g x) := .of_mem rfl rfl

theorem memSide_stampBytes (s : State) (a n : Nat) : MemSide s (s.stampBytes a n) :=
  .foldl (fun s g => memSide_setGran s g _) _ s

theorem memSide_write (s : State) (a : Nat) (bs : List Byte) : MemSide s (s.write a bs) := by
  obtain ⟨x, p, l, h⟩ := write_rest s a bs
  refine ⟨?_, fun hm => wf_write hm a bs⟩
  rw [h]

theorem memSide_clearPoison (s : State) (keys : List Nat) : MemSide s (s.clearPoison keys) := .of_mem rfl rfl

theorem memSide_correctHome (s : State) (a n : Nat) : MemSide s (s.correctHome a n) := by
  obtain ⟨l, c, k, h⟩ := correctHome_rest s a n
  rw [h]
  exact .of_mem rfl rfl

theorem memSide_movedLine (s : State) (b : Nat) (bs : List Byte) (p : List Nat) (m : KMap Mig) :
    MemSide s { s with mem := Memory.putBytes s.mem b bs, poison := p, migs := m } :=
  ⟨rfl, fun h => Memory.wf_putBytes h b bs⟩

theorem memSide_pullLine (s : State) (id line : Nat) : MemSide s (s.pullLine id line) := by
  unfold State.pullLine
  split
  · exact .refl s
  · next m _ =>
    split
    · exact .refl s
    · refine (memSide_correctHome s (s.liveKey (m.old + 128 * line)) 128).trans ?_
      exact MemSide.thenFoldl (memSide_movedLine _ _ _ _ _) (fun u i => memSide_setGran u _ _) _

theorem memSide_touchFrom (s : State) (fuel pa : Nat) : MemSide s (s.touchFrom fuel pa) := by
  induction fuel generalizing pa with
  | zero => exact .refl s
  | succ fuel ih =>
    unfold State.touchFrom
    split
    · exact ih _
    · split
      · exact (ih _).trans (memSide_pullLine _ _ _)
      · exact .refl s

theorem memSide_touch (s : State) (pa : Nat) : MemSide s (s.touch pa) := memSide_touchFrom ..

theorem memSide_home (s : State) (target : Nat) : MemSide s (s.home target).1 := by
  unfold State.home
  split
  · exact .refl s
  · exact memSide_touch s target

theorem memSide_tagRelease (s : State) (gs : List Nat) (r : Releaser) (scope : Nat) : MemSide s (s.tagRelease gs r scope) :=
  .foldl (fun s g => memSide_setGran s g _) _ s

theorem memSide_tagPlain (s : State) (gs : List Nat) : MemSide s (s.tagPlain gs) :=
  .foldl (fun s g => memSide_setGran s g _) _ s

theorem memSide_writeHome (s : State) (target : Nat) (bs : List Byte) (rel : Option (Releaser × Nat)) :
    MemSide s (s.writeHome target bs rel) := by
  have h := (memSide_home s target).trans (memSide_write (s.home target).1 (s.home target).2 bs)
  unfold State.writeHome
  cases rel with
  | none => exact h.trans (memSide_tagPlain _ _)
  | some r => exact h.trans (memSide_tagRelease _ _ _ _)

theorem memSide_writeQuiet (s : State) (target : Nat) (bs : List Byte) : MemSide s (s.writeQuiet target bs) :=
  (memSide_home s target).trans (memSide_write _ _ _)

theorem memSide_spoilHome (s : State) (target n : Nat) : MemSide s (s.spoilHome target n) := by
  unfold State.spoilHome
  split
  · exact .refl s
  · split <;> exact .of_mem rfl rfl

/-! ## Translations -/

theorem memSide_walked (s : State) (ts : List TlbEntry) : MemSide s (s.walked ts) :=
  .foldl (fun s a => (memSide_touch s a).trans (memSide_correctHome _ _ _)) _ s

theorem memSide_fillTlb (s : State) (ts : List TlbEntry) : MemSide s (s.fillTlb ts) :=
  (memSide_walked s ts).trans (.of_mem rfl rfl)

theorem memSide_hubWalked (s : State) (ctx va : Nat) : MemSide s (s.hubWalked ctx va) := by
  unfold State.hubWalked
  split
  · exact memSide_walked s _
  · exact .refl s

theorem memSide_correctPhys (s : State) (pa n : Nat) : MemSide s (s.correctPhys pa n) :=
  .foldl (fun t (x : Nat × Nat) => (memSide_touch t x.1).trans (memSide_correctHome _ _ x.2)) (lineParts pa n) s

theorem memSide_physWrite (s : State) (pa : Nat) (bs : List Byte) (scope : Option Nat) : MemSide s (s.physWrite pa bs scope) := by
  refine MemSide.foldl (fun s x => ?_) (lineParts pa bs.length) s
  cases scope with
  | none => exact memSide_writeQuiet ..
  | some c => exact memSide_writeHome ..

/-! ## Caches (R288, R289) -/

theorem memSide_setCache (s : State) (core : Nat) (c : KMap CacheByte) : MemSide s (s.setCache core c) := .of_mem rfl rfl

theorem memSide_clearCached (s : State) (core : Nat) (p : Nat → Bool) : MemSide s (s.clearCached core p) := .of_mem rfl rfl

theorem memSide_writeBackGran (s : State) (core gran : Nat) (bs : List (Nat × CacheByte)) :
    MemSide s (s.writeBackGran core gran bs) :=
  ((memSide_home s (gran * 16)).trans (.foldl (fun t _ => memSide_write t _ _) bs _)).trans (memSide_setGran _ _ _)

theorem memSide_freed (s : State) : MemSide s { s with free := s.free + 1 } := .of_mem rfl rfl

theorem memSide_writeBack (s : State) (core : Nat) (p : Nat → Bool) : MemSide s (s.writeBack core p) := by
  unfold State.writeBack
  generalize (s.cacheOf core).filter (fun x => p x.1 && x.2.dirty) = dirty
  split
  · exact .refl s
  · refine .trans ?_ (memSide_setCache _ _ _)
    refine .trans ?_ (memSide_freed _)
    refine .trans ?_ (memSide_clearCached _ _ _)
    refine .trans ?_ (memSide_clearPoison _ _)
    exact .foldl (fun t _ => memSide_writeBackGran t _ _ _) _ s

theorem memSide_invalidate (s : State) (core : Nat) (p : Nat → Bool) : MemSide s (s.invalidate core p) :=
  ((memSide_writeBack s core p).trans (memSide_clearCached _ _ _)).trans (memSide_setCache _ _ _)

theorem memSide_releaseAction (s : State) (core scope : Nat) : MemSide s (s.releaseAction core scope) := by
  unfold State.releaseAction
  split
  · exact memSide_writeBack ..
  · exact .refl s

theorem memSide_acquireAction (s : State) (core scope : Nat) : MemSide s (s.acquireAction core scope) := by
  unfold State.acquireAction
  split
  · exact memSide_invalidate ..
  · exact .refl s

theorem memSide_allocLine (s : State) (core pa : Nat) : MemSide s (s.allocLine core pa) := by
  unfold State.allocLine
  split
  · exact .refl s
  · exact memSide_invalidate ..

theorem memSide_fetchLine (s : State) (core pa : Nat) : MemSide s (s.fetchLine core pa) :=
  (((memSide_allocLine s core pa).trans (memSide_home _ pa)).trans (memSide_correctHome _ _ _)).trans (memSide_setCache _ _ _)

theorem memSide_dropBadClean (s : State) (core pa n : Nat) : MemSide s (s.dropBadClean core pa n) := by
  unfold State.dropBadClean
  split
  · exact (memSide_setCache _ _ _).trans (memSide_clearCached _ _ _)
  · exact .refl s

theorem memSide_cacheLoad (s : State) (core pa n : Nat) : MemSide s (s.cacheLoad core pa n).1 := by
  refine (memSide_dropBadClean s core pa n).trans ?_
  show MemSide _ (if _ then _ else _)
  split
  · exact .refl _
  · exact memSide_fetchLine ..

theorem memSide_cacheStore (s : State) (core pa : Nat) (rel : Bool) (bs : List Byte) : MemSide s (s.cacheStore core pa rel bs) :=
  ((memSide_allocLine s core pa).trans (memSide_clearCached _ _ _)).trans (memSide_setCache _ _ _)

theorem memSide_cacheUpdate (s : State) (core pa : Nat) (bs : List Byte) : MemSide s (s.cacheUpdate core pa bs) :=
  memSide_setCache ..

theorem memSide_veil (s : State) (gk id key : Nat) (bs : List Byte) : MemSide s (s.veil gk id key bs).1 := by
  unfold State.veil
  split
  · exact .of_mem rfl rfl
  · exact .refl s

theorem memSide_promote (s : State) (o : Nat) (gs : List Nat) : MemSide s (s.promote o gs) :=
  ((memSide_writeBack s o _).trans (.foldl (fun s i => memSide_setGran s i _) gs _)).trans (.of_mem rfl rfl)

end Sys2Proof.Machine
end

section
/-! SUPPORT. Refused entries of a queue (R319, R320), and the limit of R245. -/

namespace Sys2Proof.Machine

open Sys2Proof

/-! ## A refused entry -/

/-- The tables that a refused entry leaves as they are. -/
structure KeepsLaunches (s t : State) : Prop where
  launches : t.launches = s.launches
  nextLaunch : t.nextLaunch = s.nextLaunch
  groups : t.groups = s.groups
  events : t.events = s.events

namespace KeepsLaunches

theorem trans {a b c : State} (h : KeepsLaunches a b) (h' : KeepsLaunches b c) : KeepsLaunches a c :=
  ⟨h'.launches.trans h.launches, h'.nextLaunch.trans h.nextLaunch, h'.groups.trans h.groups, h'.events.trans h.events⟩

theorem of_memSide {s t : State} (h : MemSide s t) : KeepsLaunches s t := by
  rw [h.rest]
  exact ⟨rfl, rfl, rfl, rfl⟩

end KeepsLaunches

theorem popHead_keeps (s : State) (q : Nat) : KeepsLaunches s (s.popHead q) := by
  unfold State.popHead
  split
  · exact (KeepsLaunches.of_memSide (memSide_correctPhys s _ 256)).trans ⟨rfl, rfl, rfl, rfl⟩
  · exact ⟨rfl, rfl, rfl, rfl⟩

/-- The end of an entry with a status that is not 0 adds to no counter. -/
theorem finishEntry_keeps (s : State) (ctx fn : Nat) (r : List Byte) {status : Nat} (h : status ≠ 0) (id : Word) :
    KeepsLaunches s (s.finishEntry ctx fn r status id) := by
  have hs : ∀ t : State, KeepsLaunches s t → KeepsLaunches s
      (if bitOf (field r 0x46 2) 15 && bitsOf (field r 0x46 2) 10 0 < (t.vectorsOf fn).2 then
        { t with msix := t.msix ++ [(t.vectorsOf fn).1 + bitsOf (field r 0x46 2) 10 0] }
      else t) := fun t ht => by
    split
    · exact ht.trans ⟨rfl, rfl, rfl, rfl⟩
    · exact ht
  have hz : (status == 0) = false := by simp [h]
  unfold State.finishEntry
  simp only [hz, Bool.false_and, Bool.false_eq_true, if_false]
  refine hs _ ?_
  split
  · exact .of_memSide (.refl s)
  · split
    · exact .of_memSide (.refl s)
    · exact .of_memSide ((memSide_hubWalked s ctx _).trans (memSide_physWrite _ _ _ _))

theorem refuseEntry_keeps (s : State) (q : Nat) (h : HeadEntry) {status : Nat} (hs : status ≠ 0) :
    KeepsLaunches s (s.refuseEntry q h status) := by
  unfold State.refuseEntry
  exact ((popHead_keeps s q).trans (.of_memSide (memSide_freed _))).trans (finishEntry_keeps _ _ _ _ hs _)

/-! ## The limit of R245 -/

theorem ite_ne_zero {p : Prop} [Decidable p] {a b : Nat} (ha : a ≠ 0) (hb : b ≠ 0) : (if p then a else b) ≠ 0 := by
  split <;> assumption

/-- A record beyond the vault limit has a status of its own, or one of an earlier check. -/
theorem launchStatus_ne_zero {s : State} {h : HeadEntry} {m : Module} (hm : s.modules.find (recModule h.rec0) = some m)
    (hv : 256 * 65536 < (kScratch (s.kernelHeader m (recKernel h.rec0)) + kVault (s.kernelHeader m (recKernel h.rec0))) * 65536 +
      recCs h.rec0) : s.launchStatus h ≠ 0 := by
  simp only [State.launchStatus, hm]
  split
  · decide
  · split
    · decide
    · next hf =>
      have hc : recCs h.rec0 % 65536 = 0 := by
        simp only [launchFieldsOk, Bool.or_eq_true, Bool.not_eq_true', not_or, Bool.not_eq_false, Bool.and_eq_true,
          beq_iff_eq] at hf
        tauto
      have : 256 < kScratch (s.kernelHeader m (recKernel h.rec0)) + kVault (s.kernelHeader m (recKernel h.rec0)) +
        recCs h.rec0 / 65536 := by omega
      rw [if_pos this]
      exact ite_ne_zero (by decide) (ite_ne_zero (by decide) (by decide))

/-- Settles O60: the status of a record beyond the limit is not 0, and an entry that is refused keeps these tables. -/
theorem launchVaultLimit : Obligations.LaunchVaultLimit := by
  intro s q h m hh hk hm k hv
  have hst := launchStatus_ne_zero hm hv
  have hkeep := refuseEntry_keeps s q h hst
  refine ⟨hst, s.refuseEntry q h (s.launchStatus h), ?_, hkeep.launches, hkeep.nextLaunch, hkeep.groups, hkeep.events⟩
  have hx : exec (.launchEntry q) s = execLaunchEntry q s := rfl
  rw [hx, execLaunchEntry, hh]
  simp [hk, hst]

end Sys2Proof.Machine
end

section
/-! SUPPORT. Lanes and slices of a group after a change of some of them, and the branch words (R127). -/

namespace Sys2Proof.Machine

open Sys2Proof

/-! ## Lanes and slices -/

theorem getElem?_mapIdxFrom {α β : Type} (f : Nat → α → β) (n : Nat) (xs : List α) (i : Nat) :
    (mapIdxFrom n f xs)[i]? = xs[i]?.map (f (n + i)) := by
  induction xs generalizing n i with
  | nil => simp [mapIdxFrom]
  | cons x xs ih =>
    cases i with
    | zero => simp [mapIdxFrom]
    | succ i =>
      rw [mapIdxFrom, List.getElem?_cons_succ, ih, List.getElem?_cons_succ]
      congr 2
      omega

@[simp] theorem length_mapIdxFrom {α β : Type} (f : Nat → α → β) (n : Nat) (xs : List α) :
    (mapIdxFrom n f xs).length = xs.length := by
  induction xs generalizing n with
  | nil => rfl
  | cons x xs ih => simp [mapIdxFrom, ih]

theorem lane_of_getElem? {g : Group} {l : Nat} {x : Lane} (h : g.lanes[l]? = some x) : g.lane l = x := by
  rw [Group.lane, List.getD_eq_getElem?_getD, h, Option.getD_some]

theorem slice_of_getElem? {g : Group} {i : Nat} {x : Slice} (h : g.slices[i]? = some x) : g.slice i = x := by
  rw [Group.slice, List.getD_eq_getElem?_getD, h, Option.getD_some]

theorem lane_beyond {g : Group} {l : Nat} (h : g.lanes.length ≤ l) : g.lane l = Lane.blank := by
  rw [Group.lane, List.getD_eq_getElem?_getD, List.getElem?_eq_none h, Option.getD_none]

theorem slice_beyond {g : Group} {i : Nat} (h : g.slices.length ≤ i) : g.slice i = Slice.blank := by
  rw [Group.slice, List.getD_eq_getElem?_getD, List.getElem?_eq_none h, Option.getD_none]

theorem lane_onLanes (g : Group) (f : Nat → Lane → Lane) (l : Nat) :
    (g.onLanes f).lane l = if l < g.lanes.length then f l (g.lane l) else Lane.blank := by
  split
  · next h =>
    refine lane_of_getElem? ?_
    rw [Group.onLanes, getElem?_mapIdxFrom, List.getElem?_eq_getElem h, Option.map_some, Nat.zero_add,
      lane_of_getElem? (List.getElem?_eq_getElem h)]
  · next h => exact lane_beyond (by simpa [Group.onLanes] using h)

theorem slice_onSlices (g : Group) (p : Nat → Bool) (f : Slice → Slice) (i : Nat) :
    (g.onSlices p f).slice i = if i < g.slices.length ∧ p i = true then f (g.slice i) else g.slice i := by
  by_cases h : i < g.slices.length
  · simp only [h, true_and]
    refine slice_of_getElem? ?_
    rw [Group.onSlices, getElem?_mapIdxFrom, List.getElem?_eq_getElem h, Option.map_some, Nat.zero_add,
      slice_of_getElem? (List.getElem?_eq_getElem h)]
  · rw [if_neg (fun a => h a.1), slice_beyond (not_lt.1 h), slice_beyond (by simpa [Group.onSlices] using h)]

@[simp] theorem lane_onSlices (g : Group) (p : Nat → Bool) (f : Slice → Slice) (l : Nat) : (g.onSlices p f).lane l = g.lane l := rfl

@[simp] theorem slice_onLanes (g : Group) (f : Nat → Lane → Lane) (i : Nat) : (g.onLanes f).slice i = g.slice i := rfl

@[simp] theorem length_lanes_onLanes (g : Group) (f : Nat → Lane → Lane) : (g.onLanes f).lanes.length = g.lanes.length := by
  simp [Group.onLanes]

@[simp] theorem length_slices_onSlices (g : Group) (p : Nat → Bool) (f : Slice → Slice) :
    (g.onSlices p f).slices.length = g.slices.length := by
  simp [Group.onSlices]

/-! ## Branches -/

/-- A word that only sets `nxt` of its active lanes. -/
theorem setNxt_completes {i : Instr} {h : Hdr} {srcs : List (Nat × Nat)} {target f : Nat → BitVec 12} {s : State} {e : Env}
    {body : Env → State → Res} (hx : exec i s = word h 1 srcs srcs body s) (r : Ready h none srcs srcs s e)
    (hb : body e s = .ok (s.noWrite e fun g => g.setNxt e.lanes f)) (hf : ∀ l, f l = target l) :
    Completes i s e fun t g' => ∃ lanes, Spared s t e { e.g with lanes := lanes } noReg noReg g' ∧
      lanes.length = e.g.lanes.length ∧
      ∀ l x, e.g.lanes[l]? = some x → lanes[l]? = some (if l ∈ e.lanes then { x with nxt := target l } else x) := by
  refine noWrite_completes hx r hb rfl rfl fun t g' hs => ⟨_, hs, length_mapIdxFrom _ _ _, fun l x hl => ?_⟩
  rw [getElem?_mapIdxFrom, hl]
  simp [hf]

/-- Settles O24: a branch writes `nxt` alone, and `brx` first looks for the lowest lane whose block is none of the
module. -/
theorem branchesSetNxt : Obligations.BranchesSetNxt := by
  unfold Obligations.BranchesSetNxt
  constructor
  · intro i h srcs target s e hi r
    rcases hi with ⟨b, rfl, rfl, rfl⟩ | ⟨va, a, b, rfl, rfl, rfl⟩ | ⟨va, rfl, rfl, rfl, hok⟩
    · exact setNxt_completes (Eq.refl (execBr ..)) r rfl fun _ => rfl
    · exact setNxt_completes (Eq.refl (execBrc ..)) r rfl fun l => by simp
    · refine setNxt_completes (Eq.refl (execBrx ..)) r (f := brxTarget e va) ?_ fun _ => rfl
      have : (e.lanes.find? fun l => brxTarget e va l != deadBlk && decide (e.md.nBlocks ≤ (brxTarget e va l).toNat)) = none := by
        refine List.find?_eq_none.2 fun l hl => ?_
        rcases hok l hl with h | h
        · simp [brxTarget, deadBlk, h]
        · have : decide (e.md.nBlocks ≤ (brxTarget e va l).toNat) = false := decide_eq_false (Nat.not_le.2 h)
          simp [this]
      simp only [this]
  · intro h va s e l r target bad hl hbad hlow
    have hfind : (e.lanes.find? fun l => brxTarget e va l != deadBlk && decide (e.md.nBlocks ≤ (brxTarget e va l).toNat)) =
        some l := by
      have hp (j : Nat) : (brxTarget e va j != deadBlk && decide (e.md.nBlocks ≤ (brxTarget e va j).toNat)) = true ↔ bad j := by
        simp [bad, target, brxTarget, deadBlk]
      refine find_lowest (env_lanes_pairwise_lt r.env) hl ((hp l).2 hbad) fun j hj hlt => ?_
      exact Bool.eq_false_iff.2 fun h => hlow j hj hlt ((hp j).1 h)
    have hx : execBrx h va s = .next (s.takeFault e.gk e.run.tag (wfault cXTABBAD l)) := by
      unfold execBrx word
      refine wordAt_bad r ?_
      simp only [hfind]
    exact ⟨_, hx, takeFault_taken r.env _⟩

end Sys2Proof.Machine
end

section
/-! SUPPORT. What the end of a word changes of groups beyond what it moves, and where a word leaves its gang (R87, R88). -/

namespace Sys2Proof.Machine

open Sys2Proof

/-! ## What the end of a word may change of a group -/

/-- A group but for the stops that it has met and those that it owes. -/
def Group.stopless (g : Group) : Group := { g with halt := none, lastFault := 0, pass := 0, stopNext := none, step := none }

/-- No group changes but for that. -/
def StopAt (s t : State) : Prop := ∀ k, (t.group k).map Group.stopless = (s.group k).map Group.stopless

namespace StopAt

theorem refl (s : State) : StopAt s s := fun _ => rfl

theorem trans {a b c : State} (h : StopAt a b) (h' : StopAt b c) : StopAt a c := fun k => (h' k).trans (h k)

theorem of_eq {s t : State} (h : t.groups = s.groups) : StopAt s t := fun k => by simp only [State.group, h]

/-- A change of one group, whatever changes besides the groups. -/
theorem of_update {s t : State} {k : Nat} {f : Group → Group} (h : t.groups = s.groups.update k f)
    (hf : ∀ g, (f g).stopless = g.stopless) : StopAt s t := by
  intro j
  rw [State.group, h]
  show ((s.onGroup k f).group j).map _ = _
  rw [group_onGroup]
  split
  · next hj =>
    rw [hj]
    cases s.group k with
    | none => rfl
    | some g => exact congrArg some (hf g)
  · rfl

theorem haltAt (s : State) (k : Nat) (h : Halt) : StopAt s (s.haltAt k h) := of_update (k := k) rfl fun _ => by rfl

theorem takeFault (s : State) (k tag : Nat) (f : WFault) : StopAt s (s.takeFault k tag f) := by
  unfold State.takeFault
  split
  · exact refl _
  · exact (of_eq rfl).trans (haltAt (s.addRecord _) _ _)

theorem takeStop (s : State) (k tag imm ctx : Nat) (pos : Word) (before : Option Nat) :
    StopAt s (s.takeStop k tag imm ctx pos before) := by
  unfold State.takeStop
  split
  · exact refl _
  · exact (of_eq rfl).trans (haltAt ((s.count ctx 15 1).addRecord _) _ _)

theorem takeOwed (s : State) (k : Nat) : StopAt s (s.takeOwed k) := by
  unfold State.takeOwed
  split
  · exact refl _
  · split
    · exact .trans (of_update (k := k) rfl fun _ => by rfl) (haltAt _ _ _)
    · exact refl _

theorem endRun (s : State) (e : Env) : StopAt s (s.endRun e) :=
  (of_eq rfl).trans (takeOwed { s with runs := s.runs.del (unitKey e.core e.unit) } e.gk)

theorem stepStop (s : State) (e : Env) : StopAt s (s.stepStop e) := by
  unfold State.stepStop
  split
  · split
    · exact .trans (of_update (k := e.gk) rfl fun _ => by rfl) (takeStop _ _ _ _ _ _ _)
    · exact refl _
  · exact refl _

theorem runOn (s : State) (e : Env) (b : Bool) (len : Nat) : StopAt s (s.runOn e b len) := by
  unfold State.runOn
  have h0 : StopAt s { s with free := s.free + 1 } := of_eq rfl
  refine trans (h0.trans ?_) (stepStop _ _)
  split
  · exact endRun _ _
  · exact of_eq rfl

theorem pastFault (s : State) (e : Env) : StopAt s (s.pastFault e) := by
  have h0 : StopAt s { s with free := s.free + 1 } := of_eq rfl
  exact h0.trans (takeFault _ _ _ _)

theorem correctReads (s : State) (e : Env) (regs : List (Nat × Nat)) : StopAt s (s.correctReads e regs) := by
  unfold State.correctReads State.correctRegs
  split
  · exact refl _
  · exact of_eq rfl

/-- A group stands in the second machine as in the first. -/
theorem some {s t : State} (h : StopAt s t) {k : Nat} {g : Group} (hg : s.group k = .some g) :
    ∃ g', t.group k = .some g' ∧ g'.stopless = g.stopless := by
  have := h k
  rw [hg] at this
  obtain ⟨g', hg', e⟩ := Option.map_eq_some_iff.1 this
  exact ⟨g', hg', e⟩

end StopAt

/-- Groups that agree but for their stops differ in those fields alone. -/
theorem eq_of_stopless {g g' : Group} (h : g'.stopless = g.stopless) :
    g' = { g with halt := g'.halt, lastFault := g'.lastFault, pass := g'.pass, stopNext := g'.stopNext, step := g'.step } := by
  show { g'.stopless with halt := g'.halt, lastFault := g'.lastFault, pass := g'.pass, stopNext := g'.stopNext, step := g'.step } = _
  rw [h]
  rfl

/-- A group but for what the end of a word counts, stamps and stops. -/
def Group.atRest (g : Group) : Group :=
  { g.stopless with issued := 0, winTag := 0, lastTag := 0, skipStop := [], reqAge := [], frames := [], blockedAt := 0 }

/-- No group changes but for that. -/
def RestAt (s t : State) : Prop := ∀ k, (t.group k).map Group.atRest = (s.group k).map Group.atRest

namespace RestAt

theorem trans {a b c : State} (h : RestAt a b) (h' : RestAt b c) : RestAt a c := fun k => (h' k).trans (h k)

theorem of_stop {s t : State} (h : StopAt s t) : RestAt s t := by
  intro k
  have := congrArg (Option.map fun g : Group =>
    { g with issued := 0, winTag := 0, lastTag := 0, skipStop := [], reqAge := [], frames := [], blockedAt := 0 }) (h k)
  rw [Option.map_map, Option.map_map] at this
  exact this

/-- A change of one group, whatever changes besides the groups. -/
theorem of_update {s t : State} {k : Nat} {f : Group → Group} (h : t.groups = s.groups.update k f)
    (hf : ∀ g, (f g).atRest = g.atRest) : RestAt s t := by
  intro j
  rw [State.group, h]
  show ((s.onGroup k f).group j).map _ = _
  rw [group_onGroup]
  split
  · next hj =>
    rw [hj]
    cases s.group k with
    | none => rfl
    | some g => exact congrArg some (hf g)
  · rfl

theorem issued (s : State) (e : Env) : RestAt s (s.issued e) := by
  unfold State.issued
  exact of_update (k := e.gk) rfl fun _ => by rfl

theorem endPass (s : State) (e : Env) : RestAt s (s.endPass e) := by
  unfold State.endPass
  exact ((issued s e).trans (of_update (k := e.gk) rfl fun _ => by rfl)).trans (of_stop (.runOn _ _ _ _))

theorem correctReads (s : State) (e : Env) (regs : List (Nat × Nat)) : RestAt s (s.correctReads e regs) :=
  of_stop (.correctReads s e regs)

/-- A group stands in the second machine as in the first. -/
theorem some {s t : State} (h : RestAt s t) {k : Nat} {g : Group} (hg : s.group k = .some g) :
    ∃ g', t.group k = .some g' ∧ g'.atRest = g.atRest := by
  have := h k
  rw [hg] at this
  obtain ⟨g', hg', e⟩ := Option.map_eq_some_iff.1 this
  exact ⟨g', hg', e⟩

end RestAt

/-- The end of a word that stays in its state: but for what `atRest` leaves out, its gang has moved on. -/
theorem retire_rest {s : State} {e : Env} {g : Group} (hg : s.group e.gk = some g) (h : Hdr) (len : Nat) :
    ∃ g', (s.retire e h len).group e.gk = some g' ∧ g'.atRest = (g.advance e.slices len).atRest := by
  obtain ⟨g1, hg1, r1⟩ := (RestAt.issued s e).some hg
  have hadv : ((s.issued e).onGroup e.gk fun g => g.advance e.slices len).group e.gk = some (g1.advance e.slices len) := by
    rw [group_onGroup, if_pos rfl, hg1]
    rfl
  have hrest : RestAt ((s.issued e).onGroup e.gk fun g => g.advance e.slices len) (s.retire e h len) := by
    unfold State.retire
    dsimp only
    split
    · exact .of_stop (.pastFault _ _)
    · exact .of_stop (.runOn _ _ _ _)
  obtain ⟨g2, hg2, r2⟩ := hrest.some hadv
  refine ⟨g2, hg2, r2.trans ?_⟩
  have hcomm (x : Group) : (x.advance e.slices len).atRest = (x.atRest.advance e.slices len).atRest := rfl
  rw [hcomm g1, r1, ← hcomm]

theorem slices_of_atRest {g g' : Group} (h : g'.atRest = g.atRest) : g'.slices = g.slices :=
  show g'.atRest.slices = g.atRest.slices by rw [h]

theorem slice_of_atRest {g g' : Group} (h : g'.atRest = g.atRest) (i : Nat) : g'.slice i = g.slice i := by
  rw [Group.slice, slices_of_atRest h]
  rfl

/-! ## Where a word leaves its gang -/

/-- The position of a slice behind a word (R87, R88). -/
def Slice.past (x : Slice) (len : Nat) : Slice :=
  { x with off := BitVec.ofNat 16 (loopBack x.off.toNat len x.loops.reverse).1,
           loops := (loopBack x.off.toNat len x.loops.reverse).2.reverse }

theorem slice_advance {g : Group} {slices : List Nat} {j : Nat} (hj : j ∈ slices) (hlt : j < g.slices.length) (len : Nat) :
    (g.advance slices len).slice j = (g.slice j).past len := by
  have := slice_onSlices g (fun i => slices.contains i) (fun x => x.past len) j
  rw [if_pos ⟨hlt, by simpa using hj⟩] at this
  exact this

theorem env_slices {s : State} {m : BitVec 8} {e : Env} (he : s.env m = some e) : e.slices = e.g.gang e.run.tag := by
  unfold State.env at he
  repeat (split at he <;> first | (cases he; done) | skip)
  cases he
  rename_i h
  exact h.symm

/-- A slice of a gang is one of its group. -/
theorem env_slice_lt {s : State} {m : BitVec 8} {e : Env} (he : s.env m = some e) {j : Nat} (hj : j ∈ e.slices) :
    j < e.g.slices.length := by
  rw [env_slices he, Group.gang, List.mem_filter, natsFrom_eq_range', List.mem_range'_1] at hj
  omega

theorem env_slices_pairwise {s : State} {m : BitVec 8} {e : Env} (he : s.env m = some e) : e.slices.Pairwise (· < ·) := by
  rw [env_slices he]
  exact gang_pairwise_lt _ _

/-- A word's gang has a slice. -/
theorem env_has_slice {s : State} {m : BitVec 8} {e : Env} (he : s.env m = some e) : ∃ i, i ∈ e.slices := by
  unfold State.env at he
  repeat (split at he <;> first | (cases he; done) | skip)
  cases he
  exact ⟨_, List.mem_cons_self⟩

/-- Does the loop end within a word of `len` offsets (R88)? -/
def Slice.ends (x : Slice) (len : Nat) (y : LoopEntry) : Prop :=
  x.off.toNat ≤ y.stop.toNat ∧ y.stop.toNat < x.off.toNat + len

theorem past_outside {x : Slice} {len : Nat} (h : ∀ y, x.loops.getLast? = some y → ¬ x.ends len y) :
    (x.past len).off = x.off + BitVec.ofNat 16 len ∧ (x.past len).loops = x.loops := by
  have hoff : BitVec.ofNat 16 (x.off.toNat + len) = x.off + BitVec.ofNat 16 len := by
    rw [BitVec.ofNat_add, BitVec.ofNat_toNat, BitVec.setWidth_eq]
  rcases List.eq_nil_or_concat x.loops with hl | ⟨outer, y, hl⟩
  · simp [Slice.past, hl, loopBack, hoff]
  · have hy := h y (by simp [hl])
    have : ¬ (decide (x.off.toNat ≤ y.stop.toNat) && decide (y.stop.toNat < x.off.toNat + len)) = true := by
      simpa [Slice.ends] using hy
    simp only [Slice.past, hl, List.concat_eq_append, List.reverse_append, List.reverse_cons, List.reverse_nil,
      List.nil_append, List.cons_append, loopBack, if_neg this, hoff]
    simp

theorem past_last {x : Slice} {len : Nat} {outer : List LoopEntry} {y : LoopEntry} (hl : x.loops = outer ++ [y])
    (hy : x.ends len y) :
    (y.count ≠ 1 → (x.past len).off = y.start ∧ (x.past len).loops = outer ++ [{ y with count := y.count - 1 }]) ∧
    (y.count = 1 → (∀ z, outer.getLast? = some z → ¬ x.ends len z) →
      (x.past len).off = x.off + BitVec.ofNat 16 len ∧ (x.past len).loops = outer) := by
  have hin : (decide (x.off.toNat ≤ y.stop.toNat) && decide (y.stop.toNat < x.off.toNat + len)) = true := by
    simpa [Slice.ends] using hy
  constructor
  · intro hc
    have hc' : (y.count != 1) = true := by simpa using hc
    simp only [Slice.past, hl, List.reverse_append, List.reverse_cons, List.reverse_nil, List.nil_append, List.cons_append,
      loopBack, hin, hc', if_true, List.reverse_reverse, BitVec.ofNat_toNat, BitVec.setWidth_eq, and_self]
  · intro hc houter
    have := past_outside (x := { x with loops := outer }) (len := len) houter
    have hc' : (y.count != 1) = false := by simp [hc]
    have hp : x.past len = { x with loops := outer }.past len := by
      simp only [Slice.past, hl, List.reverse_append, List.reverse_cons, List.reverse_nil, List.nil_append, List.cons_append,
        loopBack, hin, hc', if_true, Bool.false_eq_true, if_false]
    rw [hp]
    exact this

/-- What R87 and R88 say of where a word leaves its gang. -/
theorem past_positions (x : Slice) (len : Nat) :
    ((∀ y, x.loops.getLast? = some y → ¬ x.ends len y) →
      (x.past len).off = x.off + BitVec.ofNat 16 len ∧ (x.past len).loops = x.loops) ∧
    ∀ outer y, x.loops = outer ++ [y] → x.ends len y →
      (y.count ≠ 1 → (x.past len).off = y.start ∧ (x.past len).loops = outer ++ [{ y with count := y.count - 1 }]) ∧
      (y.count = 1 → (∀ z, outer.getLast? = some z → ¬ x.ends len z) →
        (x.past len).off = x.off + BitVec.ofNat 16 len ∧ (x.past len).loops = outer) :=
  ⟨past_outside, fun _ _ => past_last⟩

/-- A word whose body leaves the slices of its group goes on behind itself. -/
theorem retire_positions {s : State} {m : BitVec 8} {e : Env} (he : s.env m = some e) {s' : State} {g : Group}
    (hg : s'.group e.gk = some g) (hs : g.slices = e.g.slices) (h : Hdr) (len : Nat) :
    ∃ g', (s'.retire e h len).group e.gk = some g' ∧ ∀ j ∈ e.slices, g'.slice j = (e.g.slice j).past len := by
  obtain ⟨g', hg', r⟩ := retire_rest hg h len
  refine ⟨g', hg', fun j hj => ?_⟩
  have hlt : j < g.slices.length := hs ▸ env_slice_lt he hj
  rw [slice_of_atRest r, slice_advance hj hlt, Group.slice, hs]
  rfl

theorem read_positions {s : State} {m : BitVec 8} {e : Env} (he : s.env m = some e) {s' : State} {g : Group}
    (hg : s'.group e.gk = some g) (hs : g.slices = e.g.slices) (regs : List (Nat × Nat)) (h : Hdr) (len : Nat) :
    ∃ g', ((s'.correctReads e regs).retire e h len).group e.gk = some g' ∧ ∀ j ∈ e.slices, g'.slice j = (e.g.slice j).past len := by
  obtain ⟨g1, hg1, r⟩ := (RestAt.correctReads s' e regs).some hg
  exact retire_positions he hg1 ((slices_of_atRest r).trans hs) h len

/-- Settles O28: the words of the statement keep the slices, and the end of a word moves each one on. -/
theorem positionsAndBackEdges : Obligations.PositionsAndBackEdges := by
  unfold Obligations.PositionsAndBackEdges
  intro i h len s e hi
  have hgo {t : State} (hx : exec i s = .next t) (hp : ∃ g', t.group e.gk = some g' ∧
      ∀ j ∈ e.slices, g'.slice j = (e.g.slice j).past len) : Completes i s e fun _ g' => ∀ j ∈ e.slices,
      g'.slice j = (e.g.slice j).past len := by
    obtain ⟨g', hg', h⟩ := hp
    exact ⟨t, g', hx, hg', h⟩
  suffices Completes i s e fun _ g' => ∀ j ∈ e.slices, g'.slice j = (e.g.slice j).past len by
    obtain ⟨t, g', hx, hg', hp⟩ := this
    refine ⟨t, g', hx, hg', fun j hj => ?_⟩
    rw [hp j hj]
    exact past_positions _ _
  have hnop (he : s.env h.m = some e) : (s.noWrite e id).group e.gk = some (e.g.pushWindow (winEntry [])) := by
    rw [State.noWrite, group_onGroup, if_pos rfl, env_group he]
    rfl
  rcases hi with ⟨lit, rfl, rfl, r | ⟨hm, he⟩⟩ | ⟨w, r, rfl, rfl⟩
  · exact hgo (word_ready (body := fun e s => .ok (s.noWrite e id)) r rfl) (read_positions r.env (hnop r.env) rfl [] h _)
  · have hx : execNop h lit s = .next ((s.noWrite e id).retire e h (if lit.isSome then 2 else 1)) := by
      unfold execNop word
      exact wordAt_empty he hm
    exact hgo hx (retire_positions he (hnop he) rfl h _)
  · obtain ⟨f, hf, hx⟩ := actsByLane_of r.1 r.2.1 s
    refine hgo (hx.trans (word_ready r.2.2 rfl)) ?_
    exact read_positions r.2.2.env (commit_group (env_group r.2.2.env) w.k _ _) (foldWrites_wrote w.k _ e.g).slices _ _ _

end Sys2Proof.Machine
end

section
/-! SUPPORT. `yield` at the last offset of its state (R42, R130). -/

namespace Sys2Proof.Machine

open Sys2Proof

/-- A team of one group with one live lane, whose gang is held by slot 0 of core 0 (log entry 6). -/
def oneLane : State :=
  let s := State.reset.withFetchWord 64 0
  { s with agenda := [], groups := s.groups.put 0 (startGroup 0 0 0 16 1 0 0 256 0 0 0 []) }

/-- The gang stands at offset 0xFFFF, and the table of runs lists slot 0 of core 0 a second time, for another group. -/
def listedTwice : State :=
  { oneLane with
    groups := oneLane.groups.update 0 fun g => g.onSlices (fun _ => true) fun x => { x with off := 0xFFFF },
    runs := oneLane.runs ++ [(0, ⟨1, 0, 0, false⟩)] }

/-- Refutes O29: a `yield` at offset 0xFFFF takes `FETCH_RANGE`, and the fault drops the runs of its own group only. Where
the table of runs names the issue slot twice, the second time for another group, the slot holds that group's run
afterwards. (The statement admits such tables; with rising keys the slot would be free.) -/
theorem not_loopsPushAndYieldEndsTheRun : ¬ Obligations.LoopsPushAndYieldEndsTheRun := by
  unfold Obligations.LoopsPushAndYieldEndsTheRun
  rintro ⟨-, hyield⟩
  obtain ⟨e, he⟩ := Option.isSome_iff_exists.1
    (show (readyEnv ⟨false, 1⟩ none [] [] listedTwice).isSome = true by decide +kernel)
  have hkey : (readyEnv ⟨false, 1⟩ none [] [] listedTwice).map (fun e => 2 * e.core + e.unit) = some 0 := by decide +kernel
  rw [he] at hkey
  obtain ⟨t, g', hx, -, -, hfree⟩ := hyield ⟨false, 1⟩ listedTwice e (ready_of_readyEnv he)
  have hrun : (match exec (.yield ⟨false, 1⟩) listedTwice with
      | .next t => (t.runs.find 0).isSome
      | _ => false) = true := by decide +kernel
  rw [hx] at hrun
  rw [show 2 * e.core + e.unit = 0 from Option.some.inj hkey] at hfree
  simp [hfree] at hrun

end Sys2Proof.Machine
end

section
/-! SUPPORT. Words that change special registers of their group, block their gang or stop their group: regions,
breakpoints, waits, barriers, fences (R154, R155, R158, R159, R203 to R206, R296). -/

namespace Sys2Proof.Machine

open Sys2Proof

/-! ## Corrections and checks of a word -/

@[simp] theorem correctReads_nil (s : State) (e : Env) : s.correctReads e [] = s := by
  have h : (e.lanes.flatMap fun l => e.bankNames l []) = [] := by simp [Env.bankNames]
  rw [State.correctReads, h]
  rfl

/-! ## Frames of words that write no register -/

/-- The frame of a word looks at some fields only of the group with the word's own effect. -/
theorem Spared.of_group {s t : State} {e : Env} {g0 g1 g' : Group} {banked windowed : Nat → Nat → Prop}
    (h : Spared s t e g0 banked windowed g') (hl : g0.lanes = g1.lanes)
    (hs : g0.slices.map Slice.still = g1.slices.map Slice.still)
    (hx : (g0.mode, g0.flags, g0.absent, g0.crew) = (g1.mode, g1.flags, g1.absent, g1.crew))
    (hr : (g0.regions, g0.regOverflow) = (g1.regions, g1.regOverflow))
    (hc : (g0.loads, g0.stores, g0.engine, g0.tile) = (g1.loads, g1.stores, g1.engine, g1.tile)) :
    Spared s t e g1 banked windowed g' :=
  ⟨h.rest, h.teams, h.others, h.lanes.trans hl, h.slices.trans hs, h.special.trans hx, h.regions.trans hr,
    h.counters.trans hc, h.frames, h.bank, h.window⟩

/-- What a word leaves that writes no register and ends as most words do: its own effect `f` and the frame. -/
theorem noWrite_word {i : Instr} {h : Hdr} {len : Nat} {region : Option (BitVec 16)} {regs : List (Nat × Nat)} {s : State}
    {e : Env} {f : Group → Group} {body : Env → State → Res}
    (hx : exec i s = wordAt h len region regs [] (fun e s' => s'.retire e h len) body s)
    (r : Ready h region regs [] s e) (hb : body e s = .ok (s.noWrite e f))
    (hframes : (f e.g).frames = e.g.frames) (hwindow : (f e.g).window = e.g.window) :
    ∃ t g', exec i s = .next t ∧ t.group e.gk = some g' ∧ Tail ((f e.g).pushWindow (winEntry [])) g' ∧
      Spared s t e (f e.g) noReg noReg g' ∧
      g'.atRest = (((f e.g).pushWindow (winEntry [])).advance e.slices len).atRest := by
  obtain ⟨g', hg', T, hs⟩ := noWrite_spared (env_group r.env) hframes hwindow
    (TailAt.retire (s.noWrite e f) e h len)
  have hown : (s.noWrite e f).group e.gk = some ((f e.g).pushWindow (winEntry [])) := by
    rw [State.noWrite, group_onGroup, if_pos rfl, env_group r.env]
    rfl
  obtain ⟨g2, hg2, hr⟩ := retire_rest hown h len
  obtain rfl := Option.some.inj (hg'.symm.trans hg2)
  exact ⟨_, g', by rw [hx, wordAt_ready r hb, correctReads_nil], hg', T, hs, hr⟩

/-- The same where no region counts. -/
theorem noWrite_plain {i : Instr} {h : Hdr} {len : Nat} {regs : List (Nat × Nat)} {s : State} {e : Env} {f : Group → Group}
    {body : Env → State → Res} (hx : exec i s = word h len regs [] body s) (r : Ready h none regs [] s e)
    (hb : body e s = .ok (s.noWrite e f)) (hframes : (f e.g).frames = e.g.frames) (hwindow : (f e.g).window = e.g.window) :
    ∃ t g', exec i s = .next t ∧ t.group e.gk = some g' ∧ Tail ((f e.g).pushWindow (winEntry [])) g' ∧
      Spared s t e (f e.g) noReg noReg g' ∧
      g'.atRest = (((f e.g).pushWindow (winEntry [])).advance e.slices len).atRest :=
  noWrite_word hx r hb hframes hwindow

/-! ## Stops at the end of a word -/

/-- A group that owes no stop meets none at the end of a word. -/
structure Quiet (k : Nat) (s t : State) : Prop where
  records : t.records = s.records
  time : t.time = s.time
  group : ∀ g, s.group k = some g → g.step = none → g.stopNext = none →
    ∃ g', t.group k = some g' ∧ g'.halt = g.halt ∧ g'.step = none ∧ g'.stopNext = none

namespace Quiet

theorem refl (k : Nat) (s : State) : Quiet k s s := ⟨rfl, rfl, fun g h hs hn => ⟨g, h, rfl, hs, hn⟩⟩

theorem trans {k : Nat} {a b c : State} (h : Quiet k a b) (h' : Quiet k b c) : Quiet k a c := by
  refine ⟨h'.records.trans h.records, h'.time.trans h.time, fun g hg hs hn => ?_⟩
  obtain ⟨g1, hg1, e1, hs1, hn1⟩ := h.group g hg hs hn
  obtain ⟨g2, hg2, e2, hs2, hn2⟩ := h'.group g1 hg1 hs1 hn1
  exact ⟨g2, hg2, e2.trans e1, hs2, hn2⟩

theorem onGroup {s t : State} {k : Nat} {f : Group → Group} (hr : t.records = s.records) (ht : t.time = s.time)
    (hg : t.groups = s.groups.update k f) (hh : ∀ g, ((f g).halt, (f g).step, (f g).stopNext) = (g.halt, g.step, g.stopNext)) :
    Quiet k s t := by
  refine ⟨hr, ht, fun g h hs hn => ⟨f g, ?_, congrArg Prod.fst (hh g), ?_, ?_⟩⟩
  · rw [State.group, hg, KMap.find_update_self]
    exact congrArg (Option.map f) h
  · exact (congrArg (·.2.1) (hh g)).trans hs
  · exact (congrArg (·.2.2) (hh g)).trans hn

theorem of_eq {s t : State} {k : Nat} (hr : t.records = s.records) (ht : t.time = s.time) (hg : t.groups = s.groups) :
    Quiet k s t :=
  ⟨hr, ht, fun g h hs hn => ⟨g, by rw [State.group, hg]; exact h, rfl, hs, hn⟩⟩

end Quiet

theorem takeOwed_quiet {s : State} {k : Nat} {g : Group} (hg : s.group k = some g) (hn : g.stopNext = none) :
    s.takeOwed k = s := by
  unfold State.takeOwed
  simp only [hg, hn]

theorem stepStop_quiet {s : State} {e : Env} {g : Group} (hg : s.group e.gk = some g) (hs : g.step = none) :
    s.stepStop e = s := by
  unfold State.stepStop
  simp [hg, hs]

/-- A word at whose end no step and no stop is due, and whose gang stays within its state, stops nothing. -/
theorem retire_quiet {s : State} {e : Env} {g : Group} (hg : s.group e.gk = some g) (hs : g.step = none)
    (hn : g.stopNext = none) {len : Nat} (hp : e.pastEnd len = false) (h : Hdr) : Quiet e.gk s (s.retire e h len) := by
  unfold State.retire
  dsimp only
  rw [if_neg (by simp [hp])]
  have h1 : Quiet e.gk s ((s.issued e).onGroup e.gk fun g => g.advance e.slices len) := by
    refine .trans (b := s.issued e) ?_ (.onGroup (f := fun g => g.advance e.slices len) rfl rfl rfl fun _ => rfl)
    unfold State.issued
    exact .onGroup rfl rfl rfl fun _ => by rfl
  refine h1.trans ?_
  obtain ⟨g1, hg1, -, hs1, hn1⟩ := h1.group g hg hs hn
  generalize ((s.issued e).onGroup e.gk fun g => g.advance e.slices len) = s1 at hg1
  unfold State.runOn
  dsimp only
  have hstep (x : State) (hx : x.groups = s1.groups) : x.stepStop e = x :=
    stepStop_quiet (show KMap.find x.groups e.gk = some g1 from hx ▸ hg1) hs1
  split
  · have : State.endRun { s1 with free := s1.free + 1 } e =
        { s1 with free := s1.free + 1, runs := s1.runs.del (unitKey e.core e.unit) } := takeOwed_quiet hg1 hn1
    rw [this, hstep { s1 with free := s1.free + 1, runs := s1.runs.del (unitKey e.core e.unit) } rfl]
    exact .of_eq rfl rfl rfl
  · rw [hstep { s1 with free := s1.free + 1, runs := s1.runs.put _ _ } rfl]
    exact .of_eq rfl rfl rfl

/-- Within a state, the next position of a word lies within it (R42). -/
theorem pastEnd_one {e : Env} (h : e.off < 0xFFFF) : e.pastEnd 1 = false := by
  have key (ls : List LoopEntry) : (loopBack e.off 1 ls).1 ≤ 0xFFFF := by
    induction ls with
    | nil => exact h
    | cons x rest ih =>
      unfold loopBack
      split
      · split
        · exact Nat.le_of_lt_succ x.start.isLt
        · exact ih
      · exact h
  exact decide_eq_false (not_lt.2 (key _))

/-! ## Runs at the end of a word -/

theorem find_filter_none {α : Type} {m : KMap α} {k : Nat} (h : m.find k = none) (p : Nat × α → Bool) :
    KMap.find (m.filter p) k = none := by
  induction m with
  | nil => rfl
  | cons q m ih =>
    obtain ⟨j, v⟩ := q
    rw [KMap.find] at h
    split at h
    · cases h
    · next hj =>
      rw [List.filter_cons]
      split
      · rw [KMap.find, if_neg hj]
        exact ih h
      · exact ih h

/-- A slot without a run has none after a stop. -/
theorem runs_haltAt {s : State} {key : Nat} (h : s.runs.find key = none) (k : Nat) (x : Halt) :
    (s.haltAt k x).runs.find key = none := find_filter_none h _

theorem runs_takeStop {s : State} {key : Nat} (h : s.runs.find key = none) (k tag imm ctx : Nat) (pos : Word)
    (before : Option Nat) : (s.takeStop k tag imm ctx pos before).runs.find key = none := by
  unfold State.takeStop
  split
  · exact h
  · exact runs_haltAt (s := (s.count ctx 15 1).addRecord _) h _ _

theorem runs_takeOwed {s : State} {key : Nat} (h : s.runs.find key = none) (k : Nat) : (s.takeOwed k).runs.find key = none := by
  unfold State.takeOwed
  split
  · exact h
  · split
    · exact runs_haltAt (s := (s.count _ 15 1).onGroup _ _) h _ _
    · exact h

theorem runs_endRun (s : State) (e : Env) : (s.endRun e).runs.find (2 * e.core + e.unit) = none := by
  unfold State.endRun
  exact runs_takeOwed (s := { s with runs := s.runs.del (unitKey e.core e.unit) }) (KMap.find_del_self _ _) _

theorem runs_stepStop {s : State} {key : Nat} (h : s.runs.find key = none) (e : Env) : (s.stepStop e).runs.find key = none := by
  unfold State.stepStop
  split
  · split
    · exact runs_takeStop (s := s.onGroup _ _) h _ _ _ _ _ _
    · exact h
  · exact h

/-! ## Regions -/

theorem leaveRegions_eq {rs : List (BitVec 16)} {id : BitVec 16} (h : id ∈ rs) :
    ∃ above, rs = above ++ id :: leaveRegions rs id ∧ id ∉ above := by
  rw [leaveRegions, if_pos (by simpa using h)]
  induction rs with
  | nil => cases h
  | cons x rs ih =>
    by_cases hx : x = id
    · subst hx
      exact ⟨[], by simp, List.not_mem_nil⟩
    · obtain ⟨above, ha, hn⟩ := ih ((List.mem_cons.1 h).resolve_left (Ne.symm hx))
      refine ⟨x :: above, ?_, by simp [hn, Ne.symm hx]⟩
      rw [List.dropWhile_cons_of_pos (by simpa using hx)]
      exact congrArg (x :: ·) ha

/-- The group and the records after a debug stop (R342, R344). -/
theorem takeStop_stops {s : State} {k : Nat} {g : Group} (hg : s.group k = some g) (tag imm ctx : Nat) (pos : Word) :
    (∃ g', (s.takeStop k tag imm ctx pos none).group k = some g' ∧ g'.halt = some ⟨.debug, 0x41, s.time, 0, tag, none⟩) ∧
    (∀ p ∈ (s.takeStop k tag imm ctx pos none).runs, p.2.gk ≠ k) ∧
    ∃ r, (s.takeStop k tag imm ctx pos none).records = s.records ++ [r] ∧ r.ty = 1 ∧ r.code = 0x41 ∧
      r.imm = BitVec.ofNat 16 imm := by
  unfold State.takeStop
  simp only [hg]
  refine ⟨⟨{ g with halt := some ⟨.debug, 0x41, s.time, 0, tag, none⟩, lastFault := 0x41, pass := 0 }, ?_, rfl⟩,
    fun p hp => ?_, _, rfl, ?_⟩
  · show (State.onGroup _ _ _).group _ = _
    rw [group_onGroup, if_pos rfl]
    show (s.group k).map _ = _
    rw [hg]
    rfl
  · have : p ∈ (s.runs.filter fun r => r.2.gk != k) := hp
    simpa using (List.mem_filter.1 this).2
  · simp [State.record, hg, cBRKPT]

/-- Settles O32: region words change the stack alone; `brkpt` ends like every word and then stops its group. -/
theorem regionsAndBreakpoints : Obligations.RegionsAndBreakpoints := by
  unfold Obligations.RegionsAndBreakpoints
  intro h s e
  refine ⟨fun id r => ⟨?_, ?_⟩, fun imm r => ?_⟩
  · obtain ⟨t, g', hx, hg', -, hs, -⟩ := noWrite_word (i := .enter h id) (Eq.refl (execEnter h id s)) r rfl (by split <;> rfl) (by split <;> rfl)
    refine ⟨t, g', _, _, hx, hg', hs.of_group ?_ ?_ ?_ rfl ?_, ?_⟩
    all_goals by_cases hl : e.lanes = [] <;> simp [hl]
  · obtain ⟨t, g', hx, hg', -, hs, -⟩ := noWrite_word (i := .leave h id) (Eq.refl (execLeave h id s)) r rfl (by split <;> rfl) (by split <;> rfl)
    refine ⟨t, g', if e.lanes = [] then e.g.regions else leaveRegions e.g.regions id, hx, hg',
      hs.of_group ?_ ?_ ?_ ?_ ?_, ?_⟩
    case refine_6 =>
      by_cases hl : e.lanes = []
      · simp [hl]
      · by_cases hid : id ∈ e.g.regions
        · simpa [hl, hid] using leaveRegions_eq hid
        · simp [hl, hid, leaveRegions]
    all_goals by_cases hl : e.lanes = [] <;> simp [hl]
  · let s'' := (s.noWrite e id).retire e h 1
    have hown : (s.noWrite e id).group e.gk = some (e.g.pushWindow (winEntry [])) := by
      rw [State.noWrite, group_onGroup, if_pos rfl, env_group r.env]
      rfl
    have hx (t : State) (ht : (if e.lanes.isEmpty || !e.la.breaks then s''
        else match s''.group e.gk with
          | some g => if g.halt.isSome then s'' else s''.takeStop e.gk e.run.tag imm.toNat e.la.ctx (e.g.pos e.run.tag) none
          | none => s'') = t) : exec (.brkpt h imm) s = .next t := by
      rw [← ht]
      show execBrkpt h imm s = _
      unfold execBrkpt
      rw [wordAt_ready r rfl, correctReads_nil] <;> rfl
    have quiet (hs : e.g.step = none) (hn : e.g.stopNext = none) (ho : e.off < 0xFFFF) : Quiet e.gk (s.noWrite e id) s'' :=
      retire_quiet hown hs hn (pastEnd_one ho) h
    have T0 : TailAt e.gk (s.noWrite e id) s'' := .retire _ e h 1
    by_cases hgo : e.lanes = [] ∨ e.la.breaks = false
    · obtain ⟨g', hg', -, hs⟩ := noWrite_spared (env_group r.env) rfl rfl T0
      refine ⟨s'', g', hx _ (if_pos ?_), hg', hs, fun h1 h2 => absurd hgo (by simp [h1, h2]), fun _ hs hn ho => ?_⟩
      · simpa using hgo
      · obtain ⟨g2, hg2, hh, -⟩ := (quiet hs hn ho).group _ hown hs hn
        rw [hg'] at hg2
        obtain rfl := Option.some.inj hg2
        exact ⟨hh, (quiet hs hn ho).records⟩
    · obtain ⟨hl, hb⟩ := not_or.1 hgo
      have hcond : (e.lanes.isEmpty || !e.la.breaks) = false :=
        Bool.or_eq_false_iff.2 ⟨by simpa using hl, by simpa using hb⟩
      obtain ⟨g2, hg2, -⟩ := noWrite_spared (env_group r.env) (f := id) rfl rfl T0
      have T1 : TailAt e.gk (s.noWrite e id)
          (if g2.halt.isSome then s'' else s''.takeStop e.gk e.run.tag imm.toNat e.la.ctx (e.g.pos e.run.tag) none) := by
        split
        · exact T0
        · exact T0.trans (.takeStop _ _ _ _ _ _ _)
      obtain ⟨g', hg', -, hs⟩ := noWrite_spared (env_group r.env) rfl rfl T1
      refine ⟨_, g', hx _ (by rw [hcond, hg2]; rfl), hg', hs, fun _ _ hst hn hh ho => ?_, fun h => absurd h hgo⟩
      obtain ⟨g3, hg3, hh3, -⟩ := (quiet hst hn ho).group _ hown hst hn
      obtain rfl := Option.some.inj (hg2.symm.trans hg3)
      have hnone : g2.halt.isSome = false := by
        rw [hh3]
        show e.g.halt.isSome = false
        rw [hh]
        rfl
      rw [hnone] at hg' ⊢
      obtain ⟨⟨g4, hg4, hhalt⟩, hruns, x, hrec, hty, hcode, himm⟩ :=
        takeStop_stops hg2 e.run.tag imm.toNat e.la.ctx (e.g.pos e.run.tag)
      obtain rfl := Option.some.inj (hg'.symm.trans hg4)
      rw [(quiet hst hn ho).records] at hrec
      rw [(quiet hst hn ho).time] at hhalt
      refine ⟨hhalt, hruns, x, hrec, hty, hcode, himm.trans ?_⟩
      exact BitVec.eq_of_toNat_eq (by simp)

end Sys2Proof.Machine
end

section
/-! SUPPORT. `arrive`, `fence`, `fence.opr`, `wait` and `bwait` (R84, R155, R203 to R206, R225 to R227, R296). -/

namespace Sys2Proof.Machine

open Sys2Proof

/-! ## Arrivals and fences -/

/-- Every slice of a gang is armed on a barrier (R203). -/
def Group.armAll (g : Group) (slices : List Nat) (q : Nat) : Group :=
  g.onSlices slices.contains fun x => { x with armed := x.armed ||| BitVec.ofNat 16 (2 ^ q) }

theorem ofNat_two_pow (w q : Nat) : BitVec.ofNat w (2 ^ q) = BitVec.twoPow w q := by
  apply BitVec.eq_of_toNat_eq
  rw [BitVec.toNat_twoPow, BitVec.toNat_ofNat]

theorem slice_armAll {g : Group} {i : Nat} {x : Slice} (hi : g.slices[i]? = some x) (slices : List Nat) (q : Nat) :
    (g.armAll slices q).slices[i]? =
      some (if i ∈ slices then { x with armed := x.armed ||| BitVec.twoPow 16 q } else x) := by
  show (mapIdxFrom 0 _ g.slices)[i]? = _
  rw [getElem?_mapIdxFrom, hi]
  simp only [ofNat_two_pow, Nat.zero_add, Option.map_some, List.contains_iff_mem]

/-- When the slices of a group have arrived, its arrival is noted unless it is noted or counted already (R204). -/
theorem noteArrival_arrivals {g : Group} {tm : Team} {q : Nat} {i : Nat} {x : Slice} (hx : g.slices[i]? = some x)
    (harm : x.armed.getLsbD q = true)
    (hall : ∀ (j : Nat) (y : Slice), g.slices[j]? = some y → y.status = .done ∨ y.armed.getLsbD q = true)
    (hnew : ∀ p ∈ g.arrivals, p.1 ≠ q) :
    (g.noteArrival tm q).arrivals = if tm.hasArrived g.gidx q then g.arrivals else g.arrivals ++ [(q, g.issued)] := by
  have harrived : g.slicesArrived q = true := by
    unfold Group.slicesArrived
    refine Bool.and_eq_true_iff.2 ⟨List.any_eq_true.2 ⟨x, List.mem_of_getElem? hx, harm⟩, List.all_eq_true.2 fun y hy => ?_⟩
    obtain ⟨j, hj⟩ := List.getElem?_of_mem hy
    exact Bool.or_eq_true_iff.2 ((hall j y hj).imp (fun h => by rw [h]; rfl) id)
  have hnone : g.arrivals.any (fun p => p.1 == q) = false := by simpa using hnew
  unfold Group.noteArrival
  rw [harrived, hnone]
  cases tm.hasArrived g.gidx q <;> rfl

/-- Noting an arrival changes the list of arrivals alone. -/
theorem noteArrival_rest (g : Group) (tm : Team) (q : Nat) :
    g.noteArrival tm q = { g with arrivals := (g.noteArrival tm q).arrivals } := by
  unfold Group.noteArrival
  split <;> rfl

/-- Settles O34: `arrive` arms its slices and notes the arrival, `fence` joins the operations, `fence.opr` moves the fence
point. -/
theorem arrivalsAndFences : Obligations.ArrivalsAndFences := by
  unfold Obligations.ArrivalsAndFences
  intro h s e r
  refine ⟨fun bar => ?_, fun order scope => ?_, ?_⟩
  · have hrest (g : Group) := noteArrival_rest (g.armAll e.slices bar.toNat) e.tm bar.toNat
    obtain ⟨t, g', hx, hg', T, hs, -⟩ := noWrite_plain (s := s) (i := .arrive h bar) (Eq.refl (execArrive h bar s)) r
      (f := fun g => (g.armAll e.slices bar.toNat).noteArrival e.tm bar.toNat) rfl (by rw [hrest]; rfl) (by rw [hrest]; rfl)
    rw [hrest] at hs
    refine ⟨t, g', hx, hg', _, hs.of_group rfl rfl rfl rfl rfl, length_mapIdxFrom _ _ _, fun i x hi => slice_armAll hi _ _,
      fun hall hnew => ?_⟩
    obtain ⟨i, hi⟩ := env_has_slice r.env
    have hi' := slice_armAll (List.getElem?_eq_getElem (env_slice_lt r.env hi)) e.slices bar.toNat
    rw [if_pos hi] at hi'
    rw [T.arrivals]
    refine noteArrival_arrivals hi' ?_ hall hnew
    rw [BitVec.getLsbD_or, BitVec.getLsbD_twoPow, Bool.or_eq_true_iff]
    exact .inr (by simpa using bar.isLt)
  · obtain ⟨t, g', hx, hg', T, hs, -⟩ := noWrite_plain (s := s) (i := .fence h order scope) (Eq.refl (execFence h order scope s)) r rfl rfl rfl
    exact ⟨t, g', hx, hg', hs.of_group rfl rfl rfl rfl rfl, _, T.ops, rfl, rfl, rfl, rfl, rfl, rfl⟩
  · obtain ⟨t, g', hx, hg', T, hs, hr⟩ := noWrite_plain (s := s) (i := .fenceOpr h) (Eq.refl (execFenceOpr h s)) r rfl rfl rfl
    refine ⟨t, g', hx, hg', hs.of_group rfl rfl rfl rfl rfl, T.fencePt, fun k => ?_⟩
    have : g'.dirty = e.g.dirty.filter e.g.uncovered := show g'.atRest.dirty = _ by rw [hr]; rfl
    rw [this, List.mem_filter]
    simp [Group.uncovered]

/-! ## Waits -/

/-- A tile operation but for the cells that it no longer holds once it is complete. -/
def TileOp.kept (t : TileOp) : TileOp :=
  if t.complete then { t with kind := match t.kind with
      | .mma entry cols whole _ => .mma entry cols whole []
      | x => x }
  else t

theorem kept_giveUp (t : TileOp) (cell : Nat) : (t.giveUp cell).kept = t.kept := by
  unfold TileOp.giveUp
  split
  · next hk =>
    split
    · next h =>
      simp only [Bool.and_eq_true] at h
      simp [TileOp.kept, h.1.1, hk]
    · rfl
  · rfl

theorem complete_kept (t : TileOp) : t.kept.complete = t.complete := by
  unfold TileOp.kept
  split <;> rfl

theorem allFlags_kept (t : TileOp) : t.kept.allFlags = t.allFlags := by
  unfold TileOp.kept
  split
  · unfold TileOp.allFlags TileOp.overLanes
    cases t.kind <;> rfl
  · rfl

/-- Two groups differ at most in cells that their complete tile operations no longer hold. -/
structure SameTiles (g g' : Group) : Prop where
  rest : g' = { g with tiles := g'.tiles }
  tiles : g'.tiles.map TileOp.kept = g.tiles.map TileOp.kept

namespace SameTiles

theorem refl (g : Group) : SameTiles g g := ⟨rfl, rfl⟩

theorem trans {a b c : Group} (h : SameTiles a b) (h' : SameTiles b c) : SameTiles a c :=
  ⟨by rw [h'.rest, h.rest], h'.tiles.trans h.tiles⟩

/-- The tile operations that are not complete are the same. -/
theorem incomplete {g g' : Group} (h : SameTiles g g') :
    g'.tiles.filter (fun o => !o.complete) = g.tiles.filter fun o => !o.complete := by
  have key (ts : List TileOp) : ts.filter (fun o => !o.complete) = (ts.map TileOp.kept).filter fun o => !o.complete := by
    induction ts with
    | nil => rfl
    | cons t ts ih =>
      rw [List.map_cons, List.filter_cons, List.filter_cons, complete_kept, ih]
      cases hc : t.complete
      · simp [TileOp.kept, hc]
      · rfl
  rw [key, h.tiles, ← key]

/-- The flags of complete tile operations are the same. -/
theorem any_flags {g g' : Group} (h : SameTiles g g') (p : Bool → Word → Bool) :
    (g'.tiles.any fun o => p o.complete o.allFlags) = g.tiles.any fun o => p o.complete o.allFlags := by
  have key (ts : List TileOp) : (ts.any fun o => p o.complete o.allFlags) =
      (ts.map TileOp.kept).any fun o => p o.complete o.allFlags := by
    rw [List.any_map]
    congr 1
    funext t
    simp [complete_kept, allFlags_kept]
  rw [key, h.tiles, ← key]

end SameTiles

/-- Writes of accumulators leave of each group all but that. -/
def TilesAt (s t : State) : Prop := ∀ k g, s.group k = some g → ∃ g', t.group k = some g' ∧ SameTiles g g'

theorem TilesAt.refl (s : State) : TilesAt s s := fun _ g h => ⟨g, h, .refl g⟩

theorem TilesAt.trans {a b c : State} (h : TilesAt a b) (h' : TilesAt b c) : TilesAt a c := fun k g hg =>
  let ⟨g1, hg1, h1⟩ := h k g hg
  let ⟨g2, hg2, h2⟩ := h' k g1 hg1
  ⟨g2, hg2, h1.trans h2⟩

theorem TilesAt.foldl {α : Type} {f : State → α → State} (hf : ∀ s x, TilesAt s (f s x)) (xs : List α) (s : State) :
    TilesAt s (xs.foldl f s) := by
  induction xs generalizing s with
  | nil => exact .refl s
  | cons x xs ih => exact (hf s x).trans (ih _)

theorem tilesAt_giveUp (s : State) (k cell : Nat) :
    TilesAt s (s.onGroup k fun g => { g with tiles := g.tiles.map fun t => t.giveUp cell }) := by
  intro j g hg
  rw [group_onGroup]
  split
  · next h =>
    subst h
    rw [hg]
    refine ⟨_, rfl, rfl, ?_⟩
    simp [Function.comp_def, kept_giveUp]
  · exact ⟨g, hg, .refl g⟩

theorem tilesAt_accWrite (s : State) (team row col : Nat) (w : Word) : TilesAt s (s.accWrite team row col w) := by
  have h (s1 : State) := TilesAt.foldl (fun s k => tilesAt_giveUp s k (row * 128 + col)) (s.teamGroups team) s1
  unfold State.accWrite
  dsimp only
  exact fun k g hg => h (s.onTeam team _) k g hg

theorem tilesAt_settleRow (s : State) (team row : Nat) : TilesAt s (s.settleRow team row) := by
  unfold State.settleRow
  dsimp only
  split
  · exact .refl s
  · exact fun k g hg => TilesAt.foldl (fun t c => tilesAt_accWrite t team row (c % 128) (freeVal s.free 10 0 (c % 128))) _ s k g hg

theorem tilesAt_lateRows (s : State) (g : Group) : TilesAt s (s.lateRows g) := by
  unfold State.lateRows
  exact .foldl (fun s t => .foldl (fun s l => tilesAt_settleRow s _ _) _ s) _ s

/-! ## Flags that a `wait` sets -/

theorem getLsbD_foldl_or {α : Type} (f : α → Word) (xs : List α) (a : Word) (j : Nat) :
    (xs.foldl (fun a o => a ||| f o) a).getLsbD j = (a.getLsbD j || xs.any fun o => (f o).getLsbD j) := by
  induction xs generalizing a with
  | nil => simp
  | cons x xs ih => rw [List.foldl_cons, ih, BitVec.getLsbD_or, List.any_cons, Bool.or_assoc]

theorem flags_cover (g : Group) (j : Nat) : g.cover.flags.getLsbD j = (g.flags.getLsbD j || g.engFlags.getLsbD j ||
    g.ops.any (fun o => o.complete && o.flags.getLsbD j) || g.tiles.any fun o => o.complete && o.allFlags.getLsbD j) := by
  show (g.flags ||| List.foldl _ _ _).getLsbD j = _
  rw [BitVec.getLsbD_or, getLsbD_foldl_or, getLsbD_foldl_or, List.any_filter, List.any_filter]
  cases g.flags.getLsbD j <;> cases g.engFlags.getLsbD j <;> simp [Bool.or_comm]

/-! ## Blocked gangs -/

/-- A held word blocks its gang, ends its run and does nothing else (R189). -/
theorem block_blocks {s : State} {e : Env} (hg : s.group e.gk = some e.g) (b : Block) :
    s.sameBut (s.block e b) ∧
    (∀ k, ((s.block e b).teams.find k).map (fun tm => { tm with requests := [] }) =
      (s.teams.find k).map fun tm => { tm with requests := [] }) ∧
    (∀ k, k ≠ e.gk → (s.block e b).group k = s.group k) ∧
    (s.block e b).runs.find (2 * e.core + e.unit) = none ∧
    ∃ g', (s.block e b).group e.gk = some g' ∧ e.g.blockedOn e.run.tag b g' := by
  let held : Group := { e.g with blocked := e.g.blocked.put e.run.tag b, blockedAt := s.seq, lastTag := e.run.tag,
                                 winTag := e.run.tag }
  let s1 := s.onGroup e.gk fun g =>
    { g with blocked := g.blocked.put e.run.tag b, blockedAt := s.seq, lastTag := e.run.tag, winTag := e.run.tag }
  have hown : s1.group e.gk = some held := by
    rw [group_onGroup, if_pos rfl, hg]
    rfl
  have T : TailAt e.gk s1 (s.block e b) := (TailAt.endRun s1 e).trans (.stepStop _ _)
  have S : StopAt s1 (s.block e b) := (StopAt.endRun s1 e).trans (.stepStop _ _)
  refine ⟨State.sameBut_trans (show s.sameBut s1 from rfl) T.rest, T.teams, fun k hk => ?_, ?_, ?_⟩
  · rw [T.others k hk, group_onGroup, if_neg hk]
  · exact runs_stepStop (runs_endRun _ _) e
  · obtain ⟨g', hg', h⟩ := S.some hown
    have hall := eq_of_stopless h
    have hat : g'.blockedAt = s.seq := by rw [hall]
    exact ⟨g', hg', by rw [Group.blockedOn, hat]; exact hall⟩

/-- A word that is held blocks. -/
theorem hold_blocks {i : Instr} {h : Hdr} {len : Nat} {s : State} {e : Env} {b : Block} {body : Env → State → Res}
    (hx : exec i s = word h len [] [] body s) (r : Ready h none [] [] s e) (hb : body e s = .hold b s) :
    Completes i s e fun t g' => s.sameBut t ∧
      (∀ k, (t.teams.find k).map (fun tm => { tm with requests := [] }) =
        (s.teams.find k).map fun tm => { tm with requests := [] }) ∧
      (∀ k, k ≠ e.gk → t.group k = s.group k) ∧ e.g.blockedOn e.run.tag b g' ∧
      t.runs.find (2 * e.core + e.unit) = none := by
  obtain ⟨h1, h2, h3, h4, g', hg', h5⟩ := block_blocks (env_group r.env) b
  exact ⟨_, g', hx.trans (wordAt_hold r hb), hg', h1, h2, h3, h5, h4⟩

/-- Settles O33: a `wait` whose limits hold covers what is complete, one whose limits do not hold blocks, and so does
`bwait` of an armed slice. -/
theorem waitsCoverOrBlock : Obligations.WaitsCoverOrBlock := by
  unfold Obligations.WaitsCoverOrBlock
  intro h s e r blocks
  refine ⟨fun ld st eng tile => ⟨fun h1 h2 h3 h4 => ?_, fun hbad => ?_⟩, fun bar => ⟨fun hfree => ?_, fun harm => ?_⟩⟩
  · have hmet : e.g.limitsMet ld.toNat st.toNat eng.toNat tile.toNat = true := by simp [Group.limitsMet, h1, h2, h3, h4]
    obtain ⟨g1, hg1, same⟩ := tilesAt_lateRows s e.g e.gk e.g (env_group r.env)
    have hinc := same.incomplete
    have hany (j : Nat) := same.any_flags fun c f => c && f.getLsbD j
    rw [same.rest] at hg1 hinc
    generalize g1.tiles = tiles at *
    obtain ⟨g', hg', T, hs⟩ := noWrite_spared (s := s.lateRows e.g) (e := { e with g := { e.g with tiles := tiles } })
      (f := Group.cover) hg1 rfl rfl (TailAt.retire _ e h 1)
    refine ⟨_, g', ?_, hg', ({ e.g with tiles := tiles } : Group).cover.flags, ?_, fun j _ => ?_, T.ops, T.tiles.trans hinc⟩
    · show execWait h ld st eng tile s = _
      unfold execWait
      rw [word_ready r (s' := (s.lateRows e.g).noWrite e Group.cover) (by rw [if_pos hmet]), correctReads_nil]
      rfl
    · exact ⟨hs.rest, hs.teams, hs.others, hs.lanes, hs.slices, hs.special, hs.regions, hs.counters, hs.frames, hs.bank, hs.window⟩
    · rw [flags_cover]
      exact congrArg _ (hany j)
  · have hmet : e.g.limitsMet ld.toNat st.toNat eng.toNat tile.toNat = false := by
      simp only [Group.limitsMet, Bool.and_eq_false_iff, decide_eq_false_iff_not, not_le]
      omega
    exact hold_blocks (Eq.refl (execWait ..)) r (by rw [hmet]; rfl)
  · have harm : e.g.armedOn e.slices bar.toNat = false := List.any_eq_false.2 fun i hi => by
      simpa [BitVec.getLsbD] using hfree i hi
    exact noWrite_completes (Eq.refl (execBwait ..)) r (f := id) (by rw [harm]; rfl) rfl rfl fun t g' hs => hs
  · have harm : e.g.armedOn e.slices bar.toNat = true := List.any_eq_true.2 harm
    exact hold_blocks (Eq.refl (execBwait ..)) r (by rw [harm]; rfl)

end Sys2Proof.Machine
end

section
/-! SUPPORT. What a terminator leaves once its vote has made a group: the group is installed with its frames at their
sizes (R72, R134). -/

namespace Sys2Proof.Machine

open Sys2Proof

/-! ## What lies aside of a group -/

/-- All but one group, the requests of teams and what the end of a word counts and records stays as it was. -/
structure Aside (k : Nat) (s t : State) : Prop where
  rest : s.sameBut t
  teams : ∀ j, (t.teams.find j).map (fun tm => { tm with requests := [] }) =
    (s.teams.find j).map fun tm => { tm with requests := [] }
  others : ∀ j, j ≠ k → t.group j = s.group j

namespace Aside

theorem refl (k : Nat) (s : State) : Aside k s s := ⟨rfl, fun _ => rfl, fun _ _ => rfl⟩

theorem trans {k : Nat} {a b c : State} (h : Aside k a b) (h' : Aside k b c) : Aside k a c :=
  ⟨State.sameBut_trans h.rest h'.rest, fun j => (h'.teams j).trans (h.teams j), fun j hj => (h'.others j hj).trans (h.others j hj)⟩

theorem of_tail {k : Nat} {s t : State} (h : TailAt k s t) : Aside k s t := ⟨h.rest, h.teams, h.others⟩

theorem setGroup (s : State) (k : Nat) (g : Group) : Aside k s (s.setGroup k g) :=
  ⟨rfl, fun _ => rfl, fun _ hj => KMap.find_put_ne _ _ hj⟩

theorem onGroup (s : State) (k : Nat) (f : Group → Group) : Aside k s (s.onGroup k f) :=
  ⟨rfl, fun _ => rfl, fun j hj => by rw [group_onGroup, if_neg hj]⟩

theorem lookState {k : Nat} {s t : State} (h : Aside k s t) (m : Module) (set : List Nat) (st : Nat) :
    t.lookState m set st = s.lookState m set st := by
  rw [h.rest]
  rfl

theorem liveNum {k : Nat} {s t : State} (h : Aside k s t) (pa n : Nat) : t.liveNum pa n = s.liveNum pa n := by
  rw [h.rest]
  rfl

theorem probe {k : Nat} {s t : State} (h : Aside k s t) (m : Module) (set : List Nat) (fuel i : Nat) :
    t.probe m set fuel i = s.probe m set fuel i := by
  induction fuel generalizing i with
  | zero => rfl
  | succ fuel ih => simp only [State.probe, h.liveNum, h.lookState, ih]

theorem singleton {k : Nat} {s t : State} (h : Aside k s t) (m : Module) (b : Nat) : t.singleton m b = s.singleton m b := by
  rw [h.rest]
  rfl

/-- A machine aside looks states up as before. -/
theorem lookup {k : Nat} {s t : State} (h : Aside k s t) (m : Module) (set : List Nat) : t.lookup m set = s.lookup m set := by
  unfold State.lookup
  split
  · exact h.singleton m _
  · rw [h.probe]

theorem descr {k : Nat} {s t : State} (h : Aside k s t) (m : Module) (i : Nat) : t.descr m i = s.descr m i := by
  rw [h.rest]
  rfl

theorem demandAt {k : Nat} {s t : State} (h : Aside k s t) (m : Module) (tm : Team) (g : Group) (l d : Nat) :
    t.demandAt m tm g l d = s.demandAt m tm g l d := by
  rw [h.rest]
  rfl

theorem sizeAt {k : Nat} {s t : State} (h : Aside k s t) (m : Module) (tm : Team) (g : Group) (d : Nat) :
    t.sizeAt m tm g d = s.sizeAt m tm g d := by
  rw [h.rest]
  rfl

end Aside

/-! ## Arrivals -/

/-- Noting the arrivals of a group changes the list of arrivals alone. -/
theorem noteArrivals_rest (g : Group) (tm : Team) : g.noteArrivals tm = { g with arrivals := (g.noteArrivals tm).arrivals } := by
  have key (qs : List Nat) (g : Group) : qs.foldl (fun g q => g.noteArrival tm q) g =
      { g with arrivals := (qs.foldl (fun g q => g.noteArrival tm q) g).arrivals } := by
    induction qs generalizing g with
    | nil => rfl
    | cons q qs ih =>
      rw [List.foldl_cons, ih, noteArrival_rest]
  exact key _ g

/-! ## Sizes of frames (R134) -/

theorem find_filterMap_keys {α β : Type} (m : KMap α) (k : Nat) (drop : Nat → Bool) (f : Nat → α → β) :
    KMap.find (m.filterMap fun p => if drop p.1 then none else some (p.1, f p.1 p.2) : KMap β) k =
      if drop k then none else (KMap.find m k).map (f k) := by
  induction m with
  | nil => cases drop k <;> rfl
  | cons p m ih =>
    obtain ⟨j, v⟩ := p
    rw [List.filterMap_cons]
    by_cases hj : j = k
    · subst hj
      cases hd : drop j
      · simp [KMap.find]
      · simpa [hd] using ih
    · cases hd : drop j
      · simpa [KMap.find, hj] using ih
      · simpa [KMap.find, hj] using ih

/-- The frames of a group once they have been recomputed. -/
theorem find_fitFrames (s : State) (m : Module) (tm : Team) (g : Group) (d : Nat) :
    (s.fitFrames m tm g).frames.find d =
      if s.sizeAt m tm g d == 0 then none else (g.frames.find d).map fun f => f.shrink (s.sizeAt m tm g d) :=
  find_filterMap_keys g.frames d (fun d => s.sizeAt m tm g d == 0) fun d f => f.shrink (s.sizeAt m tm g d)

theorem shrink_bank {f : Frame} {n r : Nat} (hr : r < 256) (hs : r < (f.shrink n).size) (l : Nat) :
    (f.shrink n).bank l r = f.bank l r := by
  unfold Frame.shrink at hs ⊢
  split
  · rfl
  · next h =>
    rw [if_neg h] at hs
    have hn : r < n := by
      simp only [Frame.size, List.length_take] at hs
      omega
    have hreg : KMap.find (f.regs.filter fun p => decide (p.1 % 256 < n)) (l * 256 + r) = f.regs.find (l * 256 + r) := by
      rw [KMap.find_filter f.regs (l * 256 + r) fun k => decide (k % 256 < n), if_pos]
      have : (l * 256 + r) % 256 = r := by omega
      simpa [this] using hn
    have hseed : (f.seeds.take (n / 8)).getD (r / 8) 0 = f.seeds.getD (r / 8) 0 := by
      have : r / 8 < (f.seeds.take (n / 8)).length := by
        simp only [Frame.size] at hs
        omega
      rw [List.getD_eq_getElem?_getD, List.getD_eq_getElem?_getD, List.getElem?_take_of_lt (by
        rw [List.length_take] at this
        omega)]
    unfold Frame.bank
    simp only [hreg, hseed]

theorem shrink_recs (f : Frame) (n : Nat) : (f.shrink n).recs = f.recs := by
  unfold Frame.shrink
  split <;> rfl

theorem size_shrink_of_le {f : Frame} {n : Nat} (h : f.size ≤ n) : f.shrink n = f := if_pos h

/-- A running maximum covers its start and every value that it has met. -/
theorem le_foldl_max (ls : List Nat) (f : Nat → Nat) (a : Nat) : a ≤ ls.foldl (fun a l => max a (f l)) a ∧
    ∀ l ∈ ls, f l ≤ ls.foldl (fun a l => max a (f l)) a := by
  induction ls generalizing a with
  | nil => simp
  | cons x ls ih =>
    obtain ⟨h1, h2⟩ := ih (max a (f x))
    refine ⟨le_trans (le_max_left _ _) h1, fun l hl => ?_⟩
    rcases List.mem_cons.1 hl with rfl | hl
    · exact le_trans (le_max_right _ _) h1
    · exact h2 l hl

/-- The size of a frame covers the demand of every live lane at its depth or deeper. -/
theorem le_sizeAt {s : State} {m : Module} {tm : Team} {g : Group} {l d : Nat} (hl : (g.lane l).blk ≠ 0xFFF)
    (hd : d ≤ (g.lane l).depth.toNat) : s.demandAt m tm g l d ≤ s.sizeAt m tm g d := by
  have hlt : l < g.lanes.length := by
    by_contra h
    exact hl (by rw [lane_beyond (not_lt.1 h)]; rfl)
  have hmem : l ∈ (natsFrom 0 g.lanes.length).filter fun l => (g.lane l).live && decide (d ≤ (g.lane l).depth.toNat) := by
    refine List.mem_filter.2 ⟨mem_natsFrom.2 ⟨Nat.zero_le _, by omega⟩, ?_⟩
    have : (g.lane l).live = true := by simpa [Lane.live, deadBlk] using hl
    simp [this, hd]
  exact (le_foldl_max _ (fun l => s.demandAt m tm g l d) 0).2 l hmem

/-! ## Installing a group -/

/-- What a terminator makes of the group that its vote gives. -/
structure Installed (s : State) (e : Env) (g g' : Group) : Prop where
  lanes : g'.lanes = g.lanes
  slices : g'.slices = g.slices
  window : g'.window = g.window
  special : (g'.mode, g'.flags, g'.absent, g'.crew) = (g.mode, g.flags, g.absent, g.crew)
  regions : (g'.regions, g'.regOverflow) = (g.regions, g.regOverflow)
  counters : (g'.loads, g'.stores, g'.engine, g'.tile) = (g.loads, g.stores, g.engine, g.tile)
  frames : ∀ d, (g'.frames.find d).map (fun f => { f with stamp := 0 }) =
    ((s.fitFrames e.md e.tm g).frames.find d).map fun f => { f with stamp := 0 }

theorem install_aside (s : State) (gk : Nat) (tm : Team) (la : Launch) (m : Module) (o : VoteOut) :
    Aside gk s (s.install gk tm la m o) := by
  let g := (s.fitFrames m tm o.g).noteArrivals tm
  have hfit : Aside gk s (s.fitRequests gk g) := by
    unfold State.fitRequests
    split
    · exact .refl _ _
    · exact .of_tail (.requests _ _ _ _)
  have hset := hfit.trans (.setGroup _ gk g)
  unfold State.install
  exact ((hset.trans (.of_tail (.count gk _ la.ctx 5 o.lookups))).trans (.of_tail (.count gk _ la.ctx 6 o.absent))).trans
    (.of_tail (.count gk _ la.ctx 7 o.peels))

theorem install_group (s : State) (gk : Nat) (tm : Team) (la : Launch) (m : Module) (o : VoteOut) :
    (s.install gk tm la m o).group gk = some ((s.fitFrames m tm o.g).noteArrivals tm) := KMap.find_put_self _ _ _

/-- A terminator that has installed a group ends its gang's pass. -/
theorem install_endPass (s : State) (e : Env) (o : VoteOut) :
    Aside e.gk s ((s.install e.gk e.tm e.la e.md o).endPass e) ∧
    ∃ g', ((s.install e.gk e.tm e.la e.md o).endPass e).group e.gk = some g' ∧ Installed s e o.g g' := by
  have hg := install_group s e.gk e.tm e.la e.md o
  have T := TailAt.endPass (s.install e.gk e.tm e.la e.md o) e
  obtain ⟨g', hg', T'⟩ := T.group _ hg
  obtain ⟨g2, hg2, hr⟩ := (RestAt.endPass (s.install e.gk e.tm e.la e.md o) e).some hg
  obtain rfl := Option.some.inj (hg'.symm.trans hg2)
  refine ⟨(install_aside s e.gk e.tm e.la e.md o).trans (.of_tail T), g', hg', ?_⟩
  have hs := slices_of_atRest hr
  rw [noteArrivals_rest] at T' hs
  exact ⟨T'.lanes, hs, T'.window, T'.special, T'.regions, T'.counters, T'.frames⟩

namespace Installed

/-- A frame that is left keeps its registers, its return records and its place. -/
theorem frame {s : State} {e : Env} {g g' : Group} (h : Installed s e g g') {d : Nat} {f' : Frame}
    (hf : g'.frames.find d = some f') : ∃ f, g.frames.find d = some f ∧ f'.recs = f.recs ∧
      f'.size = (f.shrink (s.sizeAt e.md e.tm g d)).size ∧
      ∀ l r, r < 256 → r < f'.size → f'.bank l r = f.bank l r := by
  have hd := h.frames d
  rw [hf, find_fitFrames] at hd
  split at hd
  · cases hd
  · cases hg : g.frames.find d with
    | none => rw [hg] at hd; cases hd
    | some f =>
      rw [hg] at hd
      have he : { f' with stamp := 0 } = { f.shrink (s.sizeAt e.md e.tm g d) with stamp := 0 } := Option.some.inj hd
      have hsize : f'.size = (f.shrink (s.sizeAt e.md e.tm g d)).size :=
        (congrArg Frame.size he : Frame.size { f' with stamp := 0 } = Frame.size { f.shrink _ with stamp := 0 })
      have hrecs : f'.recs = (f.shrink (s.sizeAt e.md e.tm g d)).recs :=
        (congrArg Frame.recs he : Frame.recs { f' with stamp := 0 } = Frame.recs { f.shrink _ with stamp := 0 })
      refine ⟨f, rfl, hrecs.trans (shrink_recs _ _), hsize, fun l r hr hlt => ?_⟩
      have hb : f'.bank l r = (f.shrink (s.sizeAt e.md e.tm g d)).bank l r :=
        (congrArg (fun x => Frame.bank x l r) he :
          Frame.bank { f' with stamp := 0 } l r = Frame.bank { f.shrink _ with stamp := 0 } l r)
      rw [hb]
      exact shrink_bank hr (hsize ▸ hlt) l

/-- A frame goes only when no live lane at its depth or deeper needs it. -/
theorem gone {s : State} {e : Env} {g g' : Group} (h : Installed s e g g') {d : Nat} {f : Frame}
    (hf : g.frames.find d = some f) (hn : g'.frames.find d = none) : s.sizeAt e.md e.tm g d = 0 := by
  have hd := h.frames d
  rw [hn, find_fitFrames, hf] at hd
  split at hd
  · next hz => simpa using hz
  · cases hd

theorem lane {s : State} {e : Env} {g g' : Group} (h : Installed s e g g') (l : Nat) : g'.lane l = g.lane l := by
  rw [Group.lane, h.lanes]
  rfl

theorem slice {s : State} {e : Env} {g g' : Group} (h : Installed s e g g') (i : Nat) : g'.slice i = g.slice i := by
  rw [Group.slice, h.slices]
  rfl

/-- A word that writes no register and whose vote changes no frame keeps the frames. -/
theorem framesKept {s s0 : State} {e : Env} {g g' : Group} (h : Installed s e g g') (hs : Aside e.gk s0 s)
    (hf : g.frames = e.g.frames) (hi : g.gidx = e.g.gidx) : FramesKept s0 e (fun _ _ _ => False) g' := by
  refine ⟨fun d f f' h1 h2 l r hr _ hlt _ => ?_, fun d f h1 h2 l hl _ hd => ?_⟩
  · obtain ⟨f1, hf1, -, -, hb⟩ := h.frame h2
    rw [hf, h1] at hf1
    obtain rfl := Option.some.inj hf1
    exact hb l r hr hlt
  · have hz := h.gone (by rw [hf]; exact h1) h2
    rw [h.lane] at hl hd
    have := le_sizeAt (s := s) (m := e.md) (tm := e.tm) hl hd
    rw [hz, hs.demandAt] at this
    have heq : s0.demandAt e.md e.tm g l d = s0.demandAt e.md e.tm e.g l d := by
      unfold State.demandAt
      rw [hf, hi]
    omega

end Installed

end Sys2Proof.Machine
end

section
/-! SUPPORT. `regang` of a gang that does not peel (R78, R79, R129), and the moves of a vote (R74). -/

namespace Sys2Proof.Machine

open Sys2Proof

/-! ## Lanes of slices -/

theorem mem_lanesOf {slices : List Nat} {l : Nat} : l ∈ lanesOf slices ↔ l / 4 ∈ slices := by
  rw [lanesOf, List.mem_flatMap]
  constructor
  · rintro ⟨i, hi, hl⟩
    obtain ⟨h1, h2⟩ := mem_natsFrom.1 hl
    have : l / 4 = i := by omega
    exact this ▸ hi
  · intro h
    exact ⟨l / 4, h, mem_natsFrom.2 ⟨by omega, by omega⟩⟩

theorem contains_lanesOf {slices : List Nat} {l : Nat} : (lanesOf slices).contains l = true ↔ l / 4 ∈ slices := by
  rw [List.contains_iff_mem, mem_lanesOf]

/-- What a vote's move makes of a lane of its gang. -/
def Lane.moved (x : Lane) : Lane := { x with blk := if x.live && !x.park then x.nxt else x.blk, park := false }

theorem lane_move (g : Group) (slices : List Nat) (l : Nat) : (g.move slices).lane l =
    if l / 4 ∈ slices ∧ l < g.lanes.length then (g.lane l).moved else g.lane l := by
  unfold Group.move
  rw [lane_onLanes]
  by_cases hl : l < g.lanes.length
  · by_cases hs : l / 4 ∈ slices
    · rw [if_pos hl, if_pos (contains_lanesOf.2 hs), if_pos (show l / 4 ∈ slices ∧ l < g.lanes.length from ⟨hs, hl⟩)]
      rfl
    · rw [if_pos hl, if_neg (by rwa [contains_lanesOf]), if_neg (fun h => hs h.1)]
  · rw [if_neg hl, if_neg (fun h => hl h.2), lane_beyond (not_lt.1 hl)]

theorem moved_blk (e : Env) (l : Nat) : (e.g.lane l).moved.blk = votedBlk e l := by
  unfold Lane.moved votedBlk
  by_cases h : (e.g.lane l).blk ≠ 0xFFF ∧ (e.g.lane l).park = false
  · rw [if_pos h]
    have hlive : (e.g.lane l).live = true := by simpa [Lane.live, deadBlk] using h.1
    simp [hlive, h.2]
  · rw [if_neg h]
    have : ((e.g.lane l).live && !(e.g.lane l).park) = false := by
      refine Bool.eq_false_iff.2 fun hc => h ?_
      simpa [Lane.live, deadBlk] using hc
    simp [this]

/-! ## `regang` waits (R78) -/

/-- What is left of a round's patience (R79). -/
def Group.patienceLeft (g : Group) (patience : Nat) : BitVec 16 :=
  match g.awaiting with
  | [] => BitVec.ofNat 16 patience
  | i :: _ => (g.slice i).patience

theorem slice_await {g : Group} {slices : List Nat} {i : Nat} (hi : i ∈ slices) (hlt : i < g.slices.length) (patience : Nat) :
    (g.await slices patience).slice i =
      { g.slice i with status := .await, patience := g.patienceLeft patience, loops := [] } := by
  have := slice_onSlices (g.move slices) slices.contains
    (fun x => { x with status := .await, patience := g.patienceLeft patience, loops := [] }) i
  rw [if_pos ⟨hlt, by simpa using hi⟩] at this
  exact this

theorem slice_await_other {g : Group} {slices : List Nat} {i : Nat} (hi : i ∉ slices) (patience : Nat) :
    (g.await slices patience).slice i = g.slice i := by
  have := slice_onSlices (g.move slices) slices.contains
    (fun x => { x with status := .await, patience := g.patienceLeft patience, loops := [] }) i
  rw [if_neg (fun h => hi (by simpa using h.2))] at this
  exact this

/-- A group in which a slice neither waits nor is DONE has no full round. -/
theorem roundFull_false {g : Group} {i : Nat} (hi : i < g.slices.length) (hd : (g.slice i).status ≠ .done)
    (ha : (g.slice i).status ≠ .await) : g.roundFull = false := by
  have hx := List.getElem?_eq_getElem hi
  have hmem := List.mem_of_getElem? hx
  rw [slice_of_getElem? hx] at hd ha
  have : (g.slices.all fun x => x.status == .done || x.status == .await) = false :=
    List.all_eq_false.2 ⟨_, hmem, by simp [hd, ha]⟩
  rw [Group.roundFull, this, Bool.and_false]

/-- A terminator that passes its checks and installs a group. -/
theorem terminator_completes {i : Instr} {h : Hdr} {regs : List (Nat × Nat)} {body : Env → State → Res} {s : State} {e : Env}
    (hx : exec i s = termWord h regs [] body s) (r : Ready h none regs [] s e) {s2 : State} {o : VoteOut}
    (hb : body e s = .ok (s2.install e.gk e.tm e.la e.md o)) (ha : Aside e.gk s s2) {P : State → Group → Prop}
    (hP : ∀ t g', Aside e.gk s t → Installed s2 e o.g g' → P t g') : Completes i s e P := by
  obtain ⟨ha', g', hg', hi⟩ := install_endPass s2 e o
  refine ⟨_, g', ?_, hg', hP _ _ (ha.trans ha') hi⟩
  rw [hx, termWord, wordAt_ready r hb, correctReads_nil]

/-- What a terminator leaves aside, from what the group that it installs has kept. -/
theorem moved_of_installed {s s2 t : State} {e : Env} {g g' : Group} (ha : Aside e.gk s t) (hi : Installed s2 e g g')
    (hl : ∀ l, l / 4 ∉ e.slices → g.lane l = e.g.lane l) (hs : ∀ i, i ∉ e.slices → g.slice i = e.g.slice i)
    (hx : (g.mode, g.crew, g.regions, g.regOverflow) = (e.g.mode, e.g.crew, e.g.regions, e.g.regOverflow))
    (hc : (g.loads, g.stores, g.engine, g.tile) = (e.g.loads, e.g.stores, e.g.engine, e.g.tile)) : Moved s t e g' := by
  refine ⟨ha.rest, ha.teams, ha.others, fun l hn => (hi.lane l).trans (hl l hn), fun i hn => (hi.slice i).trans (hs i hn), ?_,
    hi.counters.trans hc⟩
  have h1 := hi.special
  have h2 := hi.regions
  simp only [Prod.mk.injEq] at h1 h2 hx ⊢
  obtain ⟨hm, -, -, hcr⟩ := h1
  obtain ⟨hr, ho⟩ := h2
  obtain ⟨hm', hcr', hr', ho'⟩ := hx
  exact ⟨hm.trans hm', hcr.trans hcr', hr.trans hr', ho.trans ho'⟩

/-- Settles O27: the group that waits is installed as it is, since its round stays open. -/
theorem regangWaits : Obligations.RegangWaits := by
  unfold Obligations.RegangWaits
  rintro h s e r hpeel ⟨i, hi, hout, hnd, hna⟩ left hleft hl
  have hleft' : e.g.patienceLeft e.la.patience = left := by
    unfold Group.patienceLeft
    revert hl
    cases e.g.awaiting <;> exact fun hl => hl.symm
  let g : Group := { e.g.await e.slices e.la.patience with window := [] }
  have hslice (j : Nat) (hj : j ∈ e.slices) : g.slice j = { e.g.slice j with status := .await, patience := left, loops := [] } :=
    hleft' ▸ slice_await hj (env_slice_lt r.env hj) e.la.patience
  have hother (j : Nat) (hj : j ∉ e.slices) : g.slice j = e.g.slice j := slice_await_other hj e.la.patience
  have hlane (l : Nat) : g.lane l = if l / 4 ∈ e.slices ∧ l < e.g.lanes.length then (e.g.lane l).moved else e.g.lane l :=
    lane_move e.g e.slices l
  have hfull : g.roundFull = false := by
    refine roundFull_false (i := i) ?_ ?_ ?_
    · show i < ((e.g.move e.slices).onSlices _ _).slices.length
      rw [length_slices_onSlices]
      exact hi
    · rwa [hother i hout]
    · rwa [hother i hout]
  have hpat : ((g.slice (e.slices.headD 0)).patience == 0) = false := by
    have : e.slices.headD 0 ∈ e.slices := by
      obtain ⟨j, hj⟩ := env_has_slice r.env
      cases hs : e.slices with
      | nil => rw [hs] at hj; cases hj
      | cons a rest => exact List.mem_cons_self
    rw [hslice _ this]
    simpa using hleft
  have hnone : (e.slices.any fun i => (e.g.slice i).status == .peel) = false :=
    List.any_eq_false.2 fun j hj => by simpa using hpeel j hj
  refine terminator_completes (i := .regang h) (s := s) (Eq.refl (execRegang h s)) r (s2 := s) (o := ⟨g, 0, 0, 0⟩) ?_ (.refl _ s) fun t g' ha hi => ?_
  · simp only [hnone, Bool.false_eq_true, if_false]
    have hnow : (g.roundFull || (g.slice (e.slices.headD 0)).patience == 0) = false := by rw [hfull, hpat]; rfl
    show (if ((g.roundFull || (g.slice (e.slices.headD 0)).patience == 0) && _ && _) then _ else _) = _
    rw [hnow]
    rfl
  · refine ⟨moved_of_installed ha hi (fun l hl => ?_) hother rfl rfl, hi.framesKept (.refl _ s) rfl rfl, ?_, ?_, fun j hj => ?_,
      fun l hl hlt => ?_⟩
    · rw [hlane, if_neg (fun h => hl h.1)]
    · exact congrArg (·.2.1) hi.special
    · exact congrArg (·.2.2.1) hi.special
    · rw [hi.slice, hslice j hj]
    · rw [hi.lane, hlane, if_pos ⟨mem_lanesOf.1 hl, hlt⟩]
      exact ⟨moved_blk e l, rfl, rfl⟩

end Sys2Proof.Machine
end

section
/-! SUPPORT. A vote whose set has a state, or whose gang has ended (R70, R73, R74, R81, R128). -/

namespace Sys2Proof.Machine

open Sys2Proof

/-! ## Entering a state -/

/-- Two groups differ at most in lanes, slices, the slices that have issued no word, and the window. -/
def Reshaped (g g' : Group) : Prop :=
  g' = { g with lanes := g'.lanes, slices := g'.slices, entered := g'.entered, window := g'.window }

theorem Reshaped.trans {a b c : Group} (h : Reshaped a b) (h' : Reshaped b c) : Reshaped a c := by
  unfold Reshaped at *
  rw [h', h]

theorem reshaped_setStatus (g : Group) (slices : List Nat) (st : SliceStatus) : Reshaped g (g.setStatus slices st) := rfl

theorem reshaped_enter (g : Group) (slices : List Nat) (st : Nat) : Reshaped g (g.enter slices st) := rfl

theorem reshaped_move (g : Group) (slices : List Nat) : Reshaped g (g.move slices) := rfl

theorem reshaped_endPass (g : Group) (slices : List Nat) : Reshaped g (g.endPass slices) := rfl

theorem reshaped_leavePeel (g : Group) (slices : List Nat) : Reshaped g (g.leavePeel slices) := by
  unfold Group.leavePeel
  split <;> rfl

theorem slice_setStatus (g : Group) (slices : List Nat) (st : SliceStatus) (i : Nat) : (g.setStatus slices st).slice i =
    if i < g.slices.length ∧ i ∈ slices then { g.slice i with status := st } else g.slice i := by
  unfold Group.setStatus
  rw [slice_onSlices]
  simp only [List.contains_iff_mem]

theorem lane_leavePeel (g : Group) (slices : List Nat) (l : Nat) : (g.leavePeel slices).lane l =
    { g.lane l with sweep := ((g.leavePeel slices).lane l).sweep } := by
  unfold Group.leavePeel
  split
  · rw [lane_onLanes]
    split
    · split <;> rfl
    · next h => rw [lane_beyond (not_lt.1 h)]
  · rfl

theorem lane_leavePeel_other {g : Group} {slices : List Nat} {l : Nat} (h : l / 4 ∉ slices) :
    (g.leavePeel slices).lane l = g.lane l := by
  unfold Group.leavePeel
  split
  · rw [lane_onLanes]
    split
    · rw [if_neg (by rwa [contains_lanesOf])]
    · next h => rw [lane_beyond (not_lt.1 h)]
  · rfl

theorem lane_enter (g : Group) (slices : List Nat) (st l : Nat) : (g.enter slices st).lane l =
    if l / 4 ∈ slices ∧ (g.lane l).live = true ∧ (g.lane l).park = false then { g.lane l with nxt := (g.lane l).blk }
    else g.lane l := by
  have h := lane_onLanes { (g.onSlices slices.contains fun x => { x with sid := BitVec.ofNat 16 st, off := 0, loops := [] }) with
    entered := dedup (g.entered ++ slices) } (fun i x =>
      if (lanesOf slices).contains i && x.live && !x.park then { x with nxt := x.blk } else x) l
  refine h.trans ?_
  show (if l < g.lanes.length then if (lanesOf slices).contains l && (g.lane l).live && !(g.lane l).park then
    { g.lane l with nxt := (g.lane l).blk } else g.lane l else Lane.blank) = _
  by_cases hl : l < g.lanes.length
  · simp only [hl, if_true, Bool.and_eq_true, contains_lanesOf, Bool.not_eq_true', and_assoc]
  · rw [if_neg hl, lane_beyond (not_lt.1 hl)]
    split
    · next h => exact absurd h.2.1 (by decide)
    · rfl

theorem slice_enter (g : Group) (slices : List Nat) (st i : Nat) : (g.enter slices st).slice i =
    if i < g.slices.length ∧ i ∈ slices then { g.slice i with sid := BitVec.ofNat 16 st, off := 0, loops := [] } else g.slice i := by
  have h := slice_onSlices g slices.contains (fun x => { x with sid := BitVec.ofNat 16 st, off := 0, loops := [] }) i
  simp only [List.contains_iff_mem] at h
  exact h

theorem lane_endPass (g : Group) (slices : List Nat) (l : Nat) : (g.endPass slices).lane l = g.lane l := rfl

theorem slice_endPass (g : Group) (slices : List Nat) (i : Nat) : (g.endPass slices).slice i =
    if i < g.slices.length ∧ i ∈ slices then { g.slice i with loops := [] } else g.slice i := by
  have h := slice_onSlices g slices.contains (fun x => { x with loops := [] }) i
  simp only [List.contains_iff_mem] at h
  exact h

@[simp] theorem length_lanes_move (g : Group) (slices : List Nat) : (g.move slices).lanes.length = g.lanes.length :=
  length_lanes_onLanes g _

@[simp] theorem length_slices_endPass (g : Group) (slices : List Nat) :
    (g.endPass slices).slices.length = g.slices.length := length_slices_onSlices g _ _

@[simp] theorem length_slices_setStatus (g : Group) (slices : List Nat) (st : SliceStatus) :
    (g.setStatus slices st).slices.length = g.slices.length := length_slices_onSlices g _ _

@[simp] theorem length_slices_enter (g : Group) (slices : List Nat) (st : Nat) :
    (g.enter slices st).slices.length = g.slices.length := length_slices_onSlices g _ _

theorem slices_leavePeel (g : Group) (slices : List Nat) : (g.leavePeel slices).slices = g.slices := by
  unfold Group.leavePeel
  split <;> rfl

theorem window_leavePeel (g : Group) (slices : List Nat) : (g.leavePeel slices).window = g.window := by
  unfold Group.leavePeel
  split <;> rfl

theorem slice_leavePeel (g : Group) (slices : List Nat) (i : Nat) : (g.leavePeel slices).slice i = g.slice i := by
  rw [Group.slice, slices_leavePeel]
  rfl

/-! ## The set of a gang -/

/-- The blocks of a group's live lanes, when they are in the blocks that `blk` says. -/
theorem blocks_eq {e : Env} {g : Group} {slices : List Nat} {blk : Nat → BitVec 12} (hlen : g.lanes.length = e.g.lanes.length)
    (hblk : ∀ l ∈ lanesOf slices, l < e.g.lanes.length → (g.lane l).blk = blk l) : g.blocks slices = blockSet e blk slices := by
  have hlive (l : Nat) (hl : l ∈ lanesOf slices) :
      (g.lane l).live = (decide (l < e.g.lanes.length) && blk l != 0xFFF) := by
    by_cases h : l < e.g.lanes.length
    · simp [Lane.live, deadBlk, hblk l hl h, h]
    · rw [lane_beyond (by omega)]
      simp [h, Lane.blank, Lane.live]
  unfold Group.blocks blockSet
  rw [List.filter_congr hlive]
  congr 2
  refine List.map_congr_left fun l hl => ?_
  obtain ⟨hl, h⟩ := List.mem_filter.1 hl
  rw [hblk l hl (by simpa using (Bool.and_eq_true_iff.1 h).1)]

theorem insertBy_ne_nil {α : Type} (le : α → α → Bool) (x : α) (ys : List α) : insertBy le x ys ≠ [] := by
  cases ys with
  | nil => simp [insertBy]
  | cons y ys =>
    unfold insertBy
    split <;> simp

/-- A gang with no block has no live lane. -/
theorem blockSet_nil {e : Env} {blk : Nat → BitVec 12} {slices : List Nat} (h : blockSet e blk slices = []) {l : Nat}
    (hl : l ∈ lanesOf slices) (hlt : l < e.g.lanes.length) : blk l = 0xFFF := by
  by_contra hne
  have hmem : l ∈ (lanesOf slices).filter fun l => decide (l < e.g.lanes.length) && blk l != 0xFFF :=
    List.mem_filter.2 ⟨hl, by
      rw [decide_eq_true hlt, Bool.true_and]
      exact bne_iff_ne.2 hne⟩
  unfold blockSet at h
  revert h
  cases hf : (lanesOf slices).filter fun l => decide (l < e.g.lanes.length) && blk l != 0xFFF with
  | nil => rw [hf] at hmem; cases hmem
  | cons a rest =>
    rw [List.map_cons, dedup, sortBy]
    exact fun h => insertBy_ne_nil _ _ _ h

/-! ## The vote -/

/-- What a vote that answers makes of its group. -/
structure Voted (s : State) (e : Env) (blk : Nat → BitVec 12) (g g' : Group) : Prop where
  rest : Reshaped g g'
  window : g'.window = []
  lanes : ∀ l ∈ lanesOf e.slices, l < e.g.lanes.length →
    (g'.lane l).blk = blk l ∧ (g'.lane l).park = false ∧ (blk l ≠ 0xFFF → (g'.lane l).nxt = blk l)
  depth : ∀ l, (g'.lane l).depth = (g.lane l).depth
  otherLanes : ∀ l, l / 4 ∉ e.slices → g'.lane l = g.lane l
  otherSlices : ∀ i, i ∉ e.slices → g'.slice i = e.g.slice i
  done : blockSet e blk e.slices = [] → ∀ i ∈ e.slices, (g'.slice i).status = .done
  entered : ∀ st, blockSet e blk e.slices ≠ [] → s.lookup e.md (blockSet e blk e.slices) = .found st →
    ∀ i ∈ e.slices, g'.slice i = (e.g.slice i).atStart st (if e.slices.length = 1 then .lone else .gang)

theorem settleVote_done (s : State) (m : Module) {g : Group} {slices : List Nat} (h : g.blocks slices = []) :
    s.settleVote m g slices = some ⟨(g.leavePeel slices).setStatus slices .done, 0, 0, 0⟩ := by
  unfold State.settleVote
  rw [h]

theorem settleVote_found {s : State} {m : Module} {g : Group} {slices : List Nat} {st : Nat} (hne : g.blocks slices ≠ [])
    (h : s.lookup m (g.blocks slices) = .found st) : s.settleVote m g slices =
      some ⟨((g.leavePeel slices).enter slices st).setStatus slices (if slices.length ≤ 1 then .lone else .gang), 1, 0, 0⟩ := by
  unfold State.settleVote
  split
  · contradiction
  · rw [h]

/-- No slice waits in a group where none did whose gang has a new status. -/
theorem awaiting_nil {g g' : Group} {slices : List Nat} (h : g.awaiting = []) (hlen : g'.slices.length = g.slices.length)
    (hin : ∀ i ∈ slices, (g'.slice i).status ≠ .await) (hout : ∀ i, i ∉ slices → g'.slice i = g.slice i) : g'.awaiting = [] := by
  unfold Group.awaiting at h ⊢
  rw [List.filter_eq_nil_iff] at h ⊢
  intro i hi
  by_cases hs : i ∈ slices
  · simpa using hin i hs
  · rw [hout i hs]
    exact h i (hlen ▸ hi)

theorem roundFull_nil {g : Group} (h : g.awaiting = []) : g.roundFull = false := by
  rw [Group.roundFull, h]
  rfl

/-- A terminator's vote that finds a state for its set, or no lane alive, answers with that. -/
theorem terminate_voted {s s2 : State} {m : BitVec 8} {e : Env} (he : s.env m = some e) (ha : Aside e.gk s s2) {g : Group}
    {blk : Nat → BitVec 12} (hslices : g.slices = e.g.slices) (hlen : g.lanes.length = e.g.lanes.length)
    (hblk : ∀ l ∈ lanesOf e.slices, l < e.g.lanes.length → (g.lane l).moved.blk = blk l) (can : CanArrive s e blk) :
    ∃ o, s2.terminate e g = .ok (s2.install e.gk e.tm e.la e.md o) ∧ Voted s e blk g o.g := by
  let gm : Group := (g.endPass e.slices).move e.slices
  have hslice (i : Nat) : g.slice i = e.g.slice i := by rw [Group.slice, hslices]; rfl
  have hlt {i : Nat} (hi : i ∈ e.slices) : i < g.slices.length := hslices ▸ env_slice_lt he hi
  have hgm (l : Nat) : gm.lane l = if l / 4 ∈ e.slices ∧ l < g.lanes.length then (g.lane l).moved else g.lane l :=
    lane_move (g.endPass e.slices) e.slices l
  have hgms (i : Nat) : gm.slice i = if i < g.slices.length ∧ i ∈ e.slices then { g.slice i with loops := [] } else g.slice i :=
    slice_endPass g e.slices i
  have hin (l : Nat) (hl : l ∈ lanesOf e.slices) (hl' : l < e.g.lanes.length) : gm.lane l = (g.lane l).moved := by
    rw [hgm, if_pos ⟨mem_lanesOf.1 hl, hlen ▸ hl'⟩]
  have hset : gm.blocks e.slices = blockSet e blk e.slices :=
    blocks_eq ((length_lanes_move _ _).trans hlen) fun l hl hl' => by rw [hin l hl hl', hblk l hl hl']
  have hdepth (l : Nat) : (gm.lane l).depth = (g.lane l).depth := by
    rw [hgm]
    split <;> rfl
  have hlenp : ((gm.leavePeel e.slices)).slices.length = g.slices.length := by
    rw [slices_leavePeel]
    exact length_slices_endPass g e.slices
  have hpeel (l : Nat) := lane_leavePeel gm e.slices l
  have hshape : Reshaped g (gm.leavePeel e.slices) :=
    ((reshaped_endPass g e.slices).trans (reshaped_move _ _)).trans (reshaped_leavePeel gm e.slices)
  have hfin (o : VoteOut) (hv : s2.settleVote e.md gm e.slices = some o) (hw : o.g.awaiting = []) :
      s2.terminate e g = .ok (s2.install e.gk e.tm e.la e.md o) := by
    unfold State.terminate State.vote
    rw [hv]
    show Res.ok (s2.installRound e.gk e.tm e.la e.md o o.g.roundFull) = _
    rw [roundFull_nil hw]
    rfl
  by_cases hnil : blockSet e blk e.slices = []
  · let g' : Group := (gm.leavePeel e.slices).setStatus e.slices .done
    have hs' (i : Nat) : g'.slice i = if i < g.slices.length ∧ i ∈ e.slices then { gm.slice i with status := .done } else gm.slice i := by
      rw [slice_setStatus, hlenp, slice_leavePeel]
    have hout (i : Nat) (hi : i ∉ e.slices) : g'.slice i = e.g.slice i := by
      rw [hs', if_neg (fun h => hi h.2), hgms, if_neg (fun h => hi h.2), hslice]
    have hstat (i : Nat) (hi : i ∈ e.slices) : (g'.slice i).status = .done := by
      rw [hs', if_pos ⟨hlt hi, hi⟩]
    refine ⟨_, hfin _ (settleVote_done s2 e.md (hset.trans hnil)) (awaiting_nil can.noRound ?_ (fun i hi => ?_) hout),
      hshape.trans (reshaped_setStatus _ _ _), window_leavePeel gm e.slices, fun l hl hl' => ?_, fun l => ?_, fun l hl => ?_, hout, fun _ => hstat, fun _ h => absurd hnil h⟩
    · rw [length_slices_setStatus, hlenp, hslices]
    · rw [show ((gm.leavePeel e.slices).setStatus e.slices .done).slice i = g'.slice i from rfl, hstat i hi]
      decide
    · show ((gm.leavePeel e.slices).lane l).blk = _ ∧ ((gm.leavePeel e.slices).lane l).park = _ ∧ _
      rw [hpeel, hin l hl hl']
      exact ⟨hblk l hl hl', rfl, fun h => absurd (blockSet_nil hnil hl hl') h⟩
    · show ((gm.leavePeel e.slices).lane l).depth = _
      rw [hpeel]
      exact hdepth l
    · show (gm.leavePeel e.slices).lane l = _
      rw [lane_leavePeel_other hl, hgm, if_neg (fun h => hl h.1)]
  · obtain ⟨st, hst⟩ := can.set.resolve_left hnil
    have hstat : (if e.slices.length ≤ 1 then SliceStatus.lone else .gang) = if e.slices.length = 1 then .lone else .gang := by
      obtain ⟨i, hi⟩ := env_has_slice he
      have : 0 < e.slices.length := List.length_pos_of_mem hi
      simp only [show e.slices.length ≤ 1 ↔ e.slices.length = 1 by omega]
    let g' : Group := ((gm.leavePeel e.slices).enter e.slices st).setStatus e.slices
      (if e.slices.length ≤ 1 then .lone else .gang)
    have hs' (i : Nat) : g'.slice i = if i < g.slices.length ∧ i ∈ e.slices then
        (e.g.slice i).atStart st (if e.slices.length = 1 then .lone else .gang) else e.g.slice i := by
      rw [slice_setStatus, length_slices_enter, hlenp, slice_enter, hlenp, slice_leavePeel, hgms, hstat]
      by_cases h : i < g.slices.length ∧ i ∈ e.slices
      · simp only [if_pos h, hslice]
        rfl
      · simp only [if_neg h, hslice]
    have hout (i : Nat) (hi : i ∉ e.slices) : g'.slice i = e.g.slice i := by rw [hs', if_neg (fun h => hi h.2)]
    have hstart (i : Nat) (hi : i ∈ e.slices) : g'.slice i =
        (e.g.slice i).atStart st (if e.slices.length = 1 then .lone else .gang) := by rw [hs', if_pos ⟨hlt hi, hi⟩]
    have hl' (l : Nat) : g'.lane l = ((gm.leavePeel e.slices).enter e.slices st).lane l := rfl
    have hlook : s2.lookup e.md (gm.blocks e.slices) = .found st := by rw [ha.lookup, hset, hst]
    refine ⟨_, hfin _ (settleVote_found (hset.symm ▸ hnil) hlook) (awaiting_nil can.noRound ?_ (fun i hi => ?_) hout),
      (hshape.trans (reshaped_enter _ _ _)).trans (reshaped_setStatus _ _ _), window_leavePeel gm e.slices,
      fun l hl hlt' => ?_, fun l => ?_, fun l hl => ?_, hout, fun h => absurd h hnil, fun st' _ h i hi => ?_⟩
    · rw [length_slices_setStatus, length_slices_enter, hlenp, hslices]
    · rw [show (((gm.leavePeel e.slices).enter e.slices st).setStatus e.slices _).slice i = g'.slice i from rfl, hstart i hi]
      show (if _ then SliceStatus.lone else .gang) ≠ .await
      split <;> decide
    · show (g'.lane l).blk = _ ∧ (g'.lane l).park = _ ∧ (_ → (g'.lane l).nxt = _)
      rw [hl', lane_enter, hpeel, hin l hl hlt']
      have hb := hblk l hl hlt'
      split
      · exact ⟨hb, rfl, fun _ => hb⟩
      · next h =>
        refine ⟨hb, rfl, fun hne => absurd ⟨mem_lanesOf.1 hl, ?_, rfl⟩ h⟩
        rw [← hb] at hne
        simpa [Lane.live, deadBlk] using hne
    · show (g'.lane l).depth = _
      rw [hl', lane_enter, hpeel, ← hdepth]
      split <;> rfl
    · show g'.lane l = _
      rw [hl', lane_enter, if_neg (fun h => hl h.1), lane_leavePeel_other hl, hgm, if_neg (fun h => hl h.1)]
    · have : st' = st := Look.found.inj (h.symm.trans hst)
      rw [this]
      exact hstart i hi

/-! ## Votes that arrive -/

/-- What a vote that answers leaves of the machine. -/
theorem Voted.arrived {s s2 : State} {e : Env} {blk : Nat → BitVec 12} {g gv g' : Group} (v : Voted s e blk g gv)
    (hi : Installed s2 e gv g') : Arrived s e blk g' := by
  have hw : g'.window = [] := hi.window.trans v.window
  refine ⟨fun l hl hlt => ?_, fun hn i hm => ?_, fun st hn h i hm => ?_, hw⟩
  · rw [hi.lane]
    exact v.lanes l hl hlt
  · rw [hi.slice]
    exact v.done hn i hm
  · rw [hi.slice]
    exact v.entered st hn h i hm

theorem Voted.moved {s s2 t : State} {e : Env} {blk : Nat → BitVec 12} {g gv g' : Group} (v : Voted s e blk g gv)
    (hi : Installed s2 e gv g') (ha : Aside e.gk s t) (hl : ∀ l, l / 4 ∉ e.slices → g.lane l = e.g.lane l)
    (hx : (g.mode, g.crew, g.regions, g.regOverflow) = (e.g.mode, e.g.crew, e.g.regions, e.g.regOverflow))
    (hc : (g.loads, g.stores, g.engine, g.tile) = (e.g.loads, e.g.stores, e.g.engine, e.g.tile)) : Moved s t e g' := by
  refine moved_of_installed ha hi (fun l h => (v.otherLanes l h).trans (hl l h)) v.otherSlices ?_ ?_
  · rw [v.rest]
    exact hx
  · rw [v.rest]
    exact hc

/-- A lane whose move is that of its group's vote. -/
theorem lane_setNxt (g : Group) (lanes : List Nat) (f : Nat → BitVec 12) (l : Nat) : (g.setNxt lanes f).lane l =
    if l < g.lanes.length ∧ l ∈ lanes then { g.lane l with nxt := f l } else g.lane l := by
  unfold Group.setNxt
  rw [lane_onLanes]
  by_cases hl : l < g.lanes.length
  · simp [hl]
  · rw [if_neg hl, if_neg (fun h => hl h.1), lane_beyond (not_lt.1 hl)]

/-- An active lane lives and is not parked. -/
theorem active_lane {s : State} {m : BitVec 8} {e : Env} (he : s.env m = some e) {l : Nat} (hl : l ∈ e.lanes) :
    l / 4 ∈ e.slices ∧ (e.g.lane l).live = true ∧ (e.g.lane l).park = false := by
  have : e.lanes = activeLanes e.g e.slices e.slots m := by
    unfold State.env at he
    repeat (split at he <;> first | (cases he; done) | skip)
    cases he
    rfl
  rw [this, activeLanes, List.mem_filter] at hl
  obtain ⟨hmem, hl⟩ := hl
  simp only [Bool.and_eq_true, Bool.not_eq_true'] at hl
  exact ⟨mem_lanesOf.1 hmem, hl.1⟩

/-- A word that votes with its gang's lanes as they are, or after it has set their `nxt`. -/
theorem vote_arrives {i : Instr} {h : Hdr} {s : State} {e : Env} {body : Env → State → Res} (hx : exec i s = termWord h [] [] body s)
    (r : Ready h none [] [] s e) {g : Group} {blk : Nat → BitVec 12} (hb : body e s = s.terminate e g)
    (hg : g = { e.g with lanes := g.lanes }) (hlen : g.lanes.length = e.g.lanes.length)
    (hdepth : ∀ l, (g.lane l).depth = (e.g.lane l).depth) (hother : ∀ l, l / 4 ∉ e.slices → g.lane l = e.g.lane l)
    (hblk : ∀ l ∈ lanesOf e.slices, l < e.g.lanes.length → (g.lane l).moved.blk = blk l) (can : CanArrive s e blk) :
    ∃ t, exec i s = .next t ∧ ∃ g', t.group e.gk = some g' ∧ Moved s t e g' ∧ Arrived s e blk g' ∧
      FramesKept s e (fun _ _ _ => False) g' ∧ g'.flags = e.g.flags ∧ g'.absent = e.g.absent ∧
      ∀ l, (g'.lane l).depth = (e.g.lane l).depth := by
  obtain ⟨o, ho, v⟩ := terminate_voted r.env (.refl e.gk s) (g := g) (by rw [hg]) hlen hblk can
  obtain ⟨t, g', ht, hg', h'⟩ := terminator_completes hx r (hb.trans ho) (.refl e.gk s) (P := fun t g' =>
    Aside e.gk s t ∧ Installed s e o.g g') fun t g' ha hi => ⟨ha, hi⟩
  obtain ⟨ha, hi⟩ := h'
  refine ⟨t, ht, g', hg', v.moved hi ha hother (by rw [hg]) (by rw [hg]), v.arrived hi,
    hi.framesKept (.refl _ s) (by rw [v.rest, hg]) (by rw [v.rest, hg]), ?_, ?_, fun l => ?_⟩
  · refine (congrArg (·.2.1) hi.special).trans ?_
    rw [v.rest, hg]
  · refine (congrArg (·.2.2.1) hi.special).trans ?_
    rw [v.rest, hg]
  · rw [hi.lane, v.depth, hdepth]

/-- Settles O25: `vote` and a peeling `regang` vote with their lanes as they are, `exit` after it has ended its active lanes. -/
theorem votesArrive : Obligations.VotesArrive := by
  unfold Obligations.VotesArrive
  intro h s e r arrives
  refine ⟨fun can => ?_, fun can hpeel => ?_, fun can => ?_⟩
  · exact vote_arrives (i := .vote h) (Eq.refl (execVote h s)) r rfl rfl rfl (fun _ => rfl) (fun _ _ => rfl)
      (fun l _ _ => moved_blk e l) can
  · have hp : (e.slices.any fun i => (e.g.slice i).status == .peel) = true := by simpa using hpeel
    exact vote_arrives (i := .regang h) (Eq.refl (execRegang h s)) r (if_pos hp) rfl rfl (fun _ => rfl) (fun _ _ => rfl)
      (fun l _ _ => moved_blk e l) can
  · refine vote_arrives (i := .exit h) (Eq.refl (execExit h s)) r rfl rfl (length_lanes_onLanes _ _) (fun l => ?_) (fun l hl => ?_)
      (fun l _ hlt => ?_) can
    · rw [lane_setNxt]
      split <;> rfl
    · rw [lane_setNxt, if_neg (fun h => hl (active_lane r.env h.2).1)]
    · rw [lane_setNxt]
      by_cases hl : l ∈ e.lanes
      · obtain ⟨-, hlive, hpark⟩ := active_lane r.env hl
        rw [if_pos ⟨hlt, hl⟩, if_pos hl]
        show (if (e.g.lane l).live && !(e.g.lane l).park then deadBlk else _) = _
        rw [hlive, hpark]
        rfl
      · rw [if_neg (fun h => hl h.2), if_neg hl]
        exact moved_blk e l

end Sys2Proof.Machine
end

section
/-! SUPPORT. Votes whose set has no state: partings and peel steps (R63, R74 to R76). -/

namespace Sys2Proof.Machine

open Sys2Proof

/-! ## What a vote keeps of its group -/

theorem Reshaped.flags {g g' : Group} (h : Reshaped g g') : g'.flags = g.flags := by rw [h]

theorem Reshaped.absent {g g' : Group} (h : Reshaped g g') : g'.absent = g.absent := by rw [h]

/-- Two groups differ at most in what a vote moves and counts. -/
def Counted (g g' : Group) : Prop :=
  g' = { g with lanes := g'.lanes, slices := g'.slices, entered := g'.entered, window := g'.window, flags := g'.flags,
                absent := g'.absent }

namespace Counted

theorem trans {a b c : Group} (h : Counted a b) (h' : Counted b c) : Counted a c := by
  unfold Counted at *
  rw [h', h]

theorem of_shape {g g' : Group} (h : Reshaped g g') : Counted g g' := by
  unfold Counted
  rw [h]

theorem raise (g : Group) (f : Nat) : Counted g (g.raise f) := rfl

theorem noteAbsent (g : Group) : Counted g g.noteAbsent := rfl

section
variable {g g' : Group} (h : Counted g g')
include h

theorem special : (g'.mode, g'.crew, g'.regions, g'.regOverflow) = (g.mode, g.crew, g.regions, g.regOverflow) := by rw [h]

theorem counters : (g'.loads, g'.stores, g'.engine, g'.tile) = (g.loads, g.stores, g.engine, g.tile) := by rw [h]

theorem frames : g'.frames = g.frames := by rw [h]

theorem gidx : g'.gidx = g.gidx := by rw [h]

end

end Counted

/-! ## Sorted lists -/

theorem mem_insertBy {α : Type} (le : α → α → Bool) (x y : α) (xs : List α) : y ∈ insertBy le x xs ↔ y = x ∨ y ∈ xs := by
  induction xs with
  | nil => simp [insertBy]
  | cons z zs ih =>
    unfold insertBy
    split
    · simp
    · rw [List.mem_cons, ih, List.mem_cons]
      tauto

theorem mem_sortBy {α : Type} (le : α → α → Bool) (y : α) (xs : List α) : y ∈ sortBy le xs ↔ y ∈ xs := by
  induction xs with
  | nil => rfl
  | cons x xs ih => rw [sortBy, mem_insertBy, ih, List.mem_cons]

theorem mem_dedup {α : Type} [BEq α] [LawfulBEq α] (y : α) (xs : List α) : y ∈ dedup xs ↔ y ∈ xs := by
  induction xs with
  | nil => rfl
  | cons x xs ih =>
    rw [dedup, List.mem_cons, List.mem_filter, ih, List.mem_cons]
    by_cases h : y = x <;> simp [h]

theorem pairwise_insertBy (x : Nat) (xs : List Nat) (h : xs.Pairwise (· ≤ ·)) :
    (insertBy (fun a b => decide (a ≤ b)) x xs).Pairwise (· ≤ ·) := by
  induction xs with
  | nil => simp [insertBy]
  | cons y ys ih =>
    obtain ⟨hy, hys⟩ := List.pairwise_cons.1 h
    unfold insertBy
    split
    · next hle =>
      have hle : x ≤ y := of_decide_eq_true hle
      refine List.pairwise_cons.2 ⟨fun z hz => ?_, h⟩
      rcases List.mem_cons.1 hz with rfl | hz
      · exact hle
      · exact le_trans hle (hy z hz)
    · next hle =>
      have hle : ¬ x ≤ y := by simpa using hle
      refine List.pairwise_cons.2 ⟨fun z hz => ?_, ih hys⟩
      rcases (mem_insertBy _ _ _ _).1 hz with rfl | hz
      · omega
      · exact hy z hz

theorem pairwise_sortBy (xs : List Nat) : (sortBy (fun a b => decide (a ≤ b)) xs).Pairwise (· ≤ ·) := by
  induction xs with
  | nil => exact List.Pairwise.nil
  | cons x xs ih => exact pairwise_insertBy x _ ih

/-! ## The block of a peel step (R76) -/

/-- The first block from the cursor in cyclic order, among blocks of which it is the first. -/
theorem cyclicFirst_eq {cursor b : Nat} {bs : List Nat} (hs : bs.Pairwise (· ≤ ·)) (hb : b ∈ bs)
    (hfirst : ∀ x ∈ bs, if cursor ≤ b then b ≤ x ∨ x < cursor else b ≤ x ∧ x < cursor) : cyclicFirst cursor bs = b := by
  unfold cyclicFirst
  cases hf : bs.filter fun b => decide (cursor ≤ b) with
  | nil =>
    have hlow : ∀ x ∈ bs, x < cursor := fun x hx => by
      have := List.filter_eq_nil_iff.1 hf x hx
      simpa using this
    cases bs with
    | nil => cases hb
    | cons y ys =>
      have hy := hfirst y List.mem_cons_self
      rw [if_neg (not_le.2 (hlow b hb))] at hy
      have hle : y ≤ b := by
        rcases List.mem_cons.1 hb with rfl | hb
        · exact le_refl _
        · exact (List.pairwise_cons.1 hs).1 b hb
      exact le_antisymm hle hy.1
  | cons y ys =>
    have hmem : y ∈ bs.filter fun b => decide (cursor ≤ b) := hf ▸ List.mem_cons_self
    obtain ⟨hyb, hyc⟩ := List.mem_filter.1 hmem
    have hyc : cursor ≤ y := of_decide_eq_true hyc
    have hy := hfirst y hyb
    by_cases hcb : cursor ≤ b
    · rw [if_pos hcb] at hy
      have hbf : b ∈ y :: ys := hf ▸ List.mem_filter.2 ⟨hb, decide_eq_true hcb⟩
      have hle : y ≤ b := by
        rcases List.mem_cons.1 hbf with rfl | h
        · exact le_refl _
        · exact (List.pairwise_cons.1 (hf ▸ hs.filter _)).1 b h
      exact le_antisymm hle (hy.resolve_right (not_lt.2 hyc))
    · rw [if_neg hcb] at hy
      omega

/-! ## A vote whose set has no state -/

theorem settleVote_part {s : State} {m : Module} {g : Group} {slices : List Nat} (hne : g.blocks slices ≠ [])
    (h : s.lookup m (g.blocks slices) = .absent) (h2 : 2 ≤ slices.length) :
    s.settleVote m g slices = s.partAll m slices ⟨g.noteAbsent, 1, 1, 0⟩ := by
  unfold State.settleVote
  split
  · contradiction
  · rw [h]
    cases slices with
    | nil => cases h2
    | cons a rest =>
      cases rest with
      | nil => exact absurd h2 (by simp)
      | cons b rest => rfl

theorem settleVote_peel {s : State} {m : Module} {g : Group} {i : Nat} (hne : g.blocks [i] ≠ [])
    (h : s.lookup m (g.blocks [i]) = .absent) :
    s.settleVote m g [i] = s.peelStep m ⟨g.noteAbsent.setStatus [i] .peel, 1, 1, 0⟩ i := by
  unfold State.settleVote
  split
  · contradiction
  · rw [h]

/-! ## Parting (R74) -/

/-- What a parting has made of a group: some slices stand alone in their own states. -/
structure Parted (s : State) (e : Env) (blk : Nat → BitVec 12) (is : List Nat) (g g' : Group) : Prop where
  shape : Reshaped g g'
  window : g'.window = g.window
  length : g'.lanes.length = g.lanes.length
  slicesLength : g'.slices.length = g.slices.length
  blks : ∀ l, (g'.lane l).blk = (g.lane l).blk
  lanes : ∀ l, l / 4 ∉ is → g'.lane l = g.lane l
  others : ∀ i, i ∉ is → g'.slice i = g.slice i
  alone : ∀ i ∈ is, ∃ st, s.lookup e.md (blockSet e blk [i]) = .found st ∧
    g'.slice i = { (g.slice i).atStart st .lone with tag := BitVec.ofNat 4 i }

theorem Parted.nil (s : State) (e : Env) (blk : Nat → BitVec 12) (g : Group) : Parted s e blk [] g g :=
  ⟨rfl, rfl, rfl, rfl, fun _ => rfl, fun _ _ => rfl, fun _ _ => rfl, fun _ h => absurd h List.not_mem_nil⟩

/-- One slice of a parting, then others. -/
theorem Parted.cons {s : State} {e : Env} {blk : Nat → BitVec 12} {i : Nat} {is : List Nat} {g g1 g2 : Group}
    (h : Parted s e blk [i] g g1) (h' : Parted s e blk is g1 g2) (hi : i ∉ is) : Parted s e blk (i :: is) g g2 := by
  refine ⟨h.shape.trans h'.shape, h'.window.trans h.window, h'.length.trans h.length,
    h'.slicesLength.trans h.slicesLength, fun l => (h'.blks l).trans (h.blks l), fun l hl => ?_, fun j hj => ?_, fun j hj => ?_⟩
  · rw [List.mem_cons, not_or] at hl
    exact (h'.lanes l hl.2).trans (h.lanes l (by simpa using hl.1))
  · rw [List.mem_cons, not_or] at hj
    exact (h'.others j hj.2).trans (h.others j (by simpa using hj.1))
  · rcases List.mem_cons.1 hj with rfl | hj
    · rw [h'.others j hi]
      exact h.alone j List.mem_cons_self
    · obtain ⟨st, hst, hs⟩ := h'.alone j hj
      rw [h.others j (by rintro h; rw [List.mem_singleton.1 h] at hj; exact hi hj)] at hs
      exact ⟨st, hst, hs⟩

/-- A slice whose own set has a state goes on alone there. -/
theorem part_found {s : State} {e : Env} {blk : Nat → BitVec 12} {o : VoteOut} {i : Nat} (hi : i < o.g.slices.length)
    (hlen : o.g.lanes.length = e.g.lanes.length)
    (hblk : ∀ l, l / 4 = i → l < e.g.lanes.length → (o.g.lane l).blk = blk l) (hne : blockSet e blk [i] ≠ [])
    (hst : ∃ st, s.lookup e.md (blockSet e blk [i]) = .found st) :
    ∃ o', s.part e.md o i = some o' ∧ Parted s e blk [i] o.g o'.g := by
  obtain ⟨st, hst⟩ := hst
  let g : Group := o.g.onSlices (· == i) fun x => { x with tag := BitVec.ofNat 4 i }
  have hset : g.blocks [i] = blockSet e blk [i] :=
    blocks_eq hlen fun l hl hlt => hblk l (by simpa using mem_lanesOf.1 hl) hlt
  have hgs (j : Nat) : g.slice j = if j < o.g.slices.length ∧ j = i then { o.g.slice j with tag := BitVec.ofNat 4 i } else o.g.slice j := by
    have := slice_onSlices o.g (· == i) (fun x => { x with tag := BitVec.ofNat 4 i }) j
    simpa only [beq_iff_eq] using this
  refine ⟨{ o with g := (g.enter [i] st).setStatus [i] .lone, lookups := o.lookups + 1 }, ?_, rfl, rfl,
    ?_, ?_, fun l => ?_, fun l hl => ?_, fun j hj => ?_, fun j hj => ?_⟩
  · unfold State.part
    show (match g.blocks [i] with | [] => _ | set => match s.lookup e.md set with | .bad => _ | .found st => _ | .absent => _) = _
    rw [hset]
    split
    · contradiction
    · rw [hst]
  · show (g.enter [i] st).lanes.length = _
    simp [Group.enter, Group.onLanes, g, Group.onSlices]
  · rw [length_slices_setStatus, length_slices_enter]
    exact length_slices_onSlices _ _ _
  · show ((g.enter [i] st).lane l).blk = _
    rw [lane_enter]
    split <;> rfl
  · show (g.enter [i] st).lane l = _
    rw [lane_enter, if_neg (fun h => hl h.1)]
    rfl
  · have hj : j ≠ i := by simpa using hj
    rw [slice_setStatus, if_neg (by simpa using fun _ => hj), slice_enter, if_neg (by simpa using fun _ => hj), hgs,
      if_neg (fun h => hj h.2)]
  · obtain rfl : j = i := by simpa using hj
    have hlt : j < g.slices.length := by
      rw [length_slices_onSlices]
      exact hi
    refine ⟨st, hst, ?_⟩
    rw [slice_setStatus, length_slices_enter, if_pos ⟨hlt, hj⟩, slice_enter, if_pos ⟨hlt, hj⟩, hgs, if_pos ⟨hi, rfl⟩]
    rfl

/-- The slices of a parting each go on alone. -/
theorem partAll_found {s : State} {e : Env} {blk : Nat → BitVec 12} {is : List Nat} (hnodup : is.Nodup) {o : VoteOut}
    (hlt : ∀ i ∈ is, i < o.g.slices.length) (hlen : o.g.lanes.length = e.g.lanes.length)
    (hblk : ∀ l, l / 4 ∈ is → l < e.g.lanes.length → (o.g.lane l).blk = blk l)
    (hall : ∀ i ∈ is, blockSet e blk [i] ≠ [] ∧ ∃ st, s.lookup e.md (blockSet e blk [i]) = .found st) :
    ∃ o', s.partAll e.md is o = some o' ∧ Parted s e blk is o.g o'.g := by
  induction is generalizing o with
  | nil => exact ⟨o, rfl, .nil _ _ _ _⟩
  | cons i is ih =>
    obtain ⟨hi, hnodup⟩ := List.nodup_cons.1 hnodup
    obtain ⟨hne, hst⟩ := hall i List.mem_cons_self
    obtain ⟨o1, h1, p1⟩ := part_found (s := s) (hlt i List.mem_cons_self) hlen (fun l hl => hblk l (by simp [hl])) hne hst
    obtain ⟨o2, h2, p2⟩ := ih hnodup (o := o1) (fun j hj => by
        rw [p1.slicesLength]
        exact hlt j (List.mem_cons_of_mem _ hj)) (p1.length.trans hlen) (fun l hl hl' => by
        rw [p1.blks]
        exact hblk l (List.mem_cons_of_mem _ hl) hl') fun j hj => hall j (List.mem_cons_of_mem _ hj)
    refine ⟨o2, ?_, p1.cons p2 hi⟩
    rw [State.partAll, h1]
    exact h2

/-! ## Peel steps (R76) -/

/-- A lane's part in a peel step of block b. -/
def Lane.peel (x : Lane) (b : Nat) : Lane := { x with park := x.blk.toNat != b, sweep := x.sweep || x.blk.toNat == b }

/-- A slice's part in a peel step of block b. -/
def Slice.peel (x : Slice) (b : Nat) : Slice := { x with cursor := if b < 0xFFE then BitVec.ofNat 12 (b + 1) else 0 }

/-- A group in which a slice peels block b. -/
def Group.peel (g : Group) (i b : Nat) : Group :=
  (g.onLanes fun j x => if ((lanesOf [i]).filter fun l => (g.lane l).live).contains j then x.peel b else x).onSlices (· == i)
    fun x => x.peel b

theorem lane_peel (g : Group) (i b l : Nat) : (g.peel i b).lane l =
    if l / 4 = i ∧ (g.lane l).live = true then (g.lane l).peel b else g.lane l := by
  have hls : ((lanesOf [i]).filter fun l => (g.lane l).live).contains l = true ↔ l / 4 = i ∧ (g.lane l).live = true := by
    rw [List.contains_iff_mem, List.mem_filter, mem_lanesOf, List.mem_singleton]
  rw [Group.peel, lane_onSlices, lane_onLanes]
  by_cases hl : l < g.lanes.length
  · simp only [hl, if_true, hls]
  · rw [if_neg hl, if_neg, lane_beyond (not_lt.1 hl)]
    rw [lane_beyond (not_lt.1 hl)]
    exact fun h => absurd h.2 (by decide)

theorem slice_peel (g : Group) (i b j : Nat) : (g.peel i b).slice j =
    if j < g.slices.length ∧ j = i then (g.slice j).peel b else g.slice j := by
  rw [Group.peel, slice_onSlices]
  simp only [beq_iff_eq]
  rfl

theorem length_slices_peel (g : Group) (i b : Nat) : (g.peel i b).slices.length = g.slices.length := length_slices_onSlices _ _ _

/-- What a peel step of a slice with a state for block b makes of its group. -/
def Group.peelInto (g : Group) (i b st : Nat) : Group := { ((g.peel i b).raise fPEEL).enter [i] st with window := [] }

theorem lane_peelInto (g : Group) (i b st l : Nat) : (g.peelInto i b st).lane l =
    if l / 4 ∈ [i] ∧ ((g.peel i b).lane l).live = true ∧ ((g.peel i b).lane l).park = false then
      { (g.peel i b).lane l with nxt := ((g.peel i b).lane l).blk } else (g.peel i b).lane l :=
  lane_enter ((g.peel i b).raise fPEEL) [i] st l

theorem lane_peelInto_other {g : Group} {i l : Nat} (h : l / 4 ≠ i) (b st : Nat) : (g.peelInto i b st).lane l = g.lane l := by
  rw [lane_peelInto, if_neg (fun hh => h (by simpa using hh.1)), lane_peel, if_neg (fun hh => h hh.1)]

theorem lane_peelInto_own {g : Group} {i l : Nat} (h : l / 4 = i) (hv : (g.lane l).live = true) (b st : Nat) :
    ((g.peelInto i b st).lane l).blk = (g.lane l).blk ∧
    ((g.peelInto i b st).lane l).park = ((g.lane l).blk.toNat != b) ∧
    ((g.peelInto i b st).lane l).sweep = ((g.lane l).sweep || (g.lane l).blk.toNat == b) := by
  rw [lane_peelInto, (lane_peel g i b l).trans (if_pos ⟨h, hv⟩)]
  split <;> exact ⟨rfl, rfl, rfl⟩

theorem length_slices_peelInto (g : Group) (i b st : Nat) : (g.peelInto i b st).slices.length = g.slices.length :=
  (length_slices_enter ((g.peel i b).raise fPEEL) [i] st).trans (length_slices_peel g i b)

theorem shape_peelInto (g : Group) (i b st : Nat) : Reshaped (g.raise fPEEL) (g.peelInto i b st) := rfl

theorem slice_peelInto (g : Group) (i b st j : Nat) : (g.peelInto i b st).slice j =
    if j < g.slices.length ∧ j = i then { (g.slice j).peel b with sid := BitVec.ofNat 16 st, off := 0, loops := [] }
    else g.slice j := by
  have h : (g.peelInto i b st).slice j = if j < (g.peel i b).slices.length ∧ j ∈ [i] then
      { (g.peel i b).slice j with sid := BitVec.ofNat 16 st, off := 0, loops := [] } else (g.peel i b).slice j :=
    slice_enter ((g.peel i b).raise fPEEL) [i] st j
  rw [h, length_slices_peel, slice_peel]
  by_cases hj : j < g.slices.length ∧ j = i
  · rw [if_pos hj, if_pos (by simpa using hj), if_pos hj]
  · rw [if_neg hj, if_neg (by simpa using hj), if_neg hj]

/-- A first visit of a lone slice peels the first of its blocks from the cursor. -/
theorem peelStep_first {s : State} {m : Module} {o : VoteOut} {i st : Nat} {b : BitVec 12}
    (hfresh : ∀ l, l / 4 = i → (o.g.lane l).live = true → (o.g.lane l).sweep = false)
    (hb : ∃ l, l / 4 = i ∧ (o.g.lane l).live = true ∧ (o.g.lane l).blk = b)
    (hfirst : ∀ l, l / 4 = i → (o.g.lane l).live = true →
      if (o.g.slice i).cursor ≤ b then b ≤ (o.g.lane l).blk ∨ (o.g.lane l).blk < (o.g.slice i).cursor
      else b ≤ (o.g.lane l).blk ∧ (o.g.lane l).blk < (o.g.slice i).cursor)
    (hst : s.singleton m b.toNat = .found st) :
    s.peelStep m o i = some { o with g := o.g.peelInto i b.toNat st, peels := o.peels + 1 } := by
  have hls (l : Nat) : l ∈ ((lanesOf [i]).filter fun l => (o.g.lane l).live) ↔ l / 4 = i ∧ (o.g.lane l).live = true := by
    rw [List.mem_filter, mem_lanesOf, List.mem_singleton]
  have hsame : ((lanesOf [i]).filter fun l => (o.g.lane l).live).filter (fun l => !(o.g.lane l).sweep) =
      (lanesOf [i]).filter fun l => (o.g.lane l).live := List.filter_eq_self.2 fun l hl => by
    obtain ⟨h1, h2⟩ := (hls l).1 hl
    rw [hfresh l h1 h2]
    rfl
  obtain ⟨l0, h0, hlive0, hblk0⟩ := hb
  have hne : ((lanesOf [i]).filter fun l => (o.g.lane l).live).isEmpty = false :=
    List.isEmpty_eq_false_iff.2 (List.ne_nil_of_mem ((hls l0).2 ⟨h0, hlive0⟩))
  have hcyc : cyclicFirst (o.g.slice i).cursor.toNat (sortBy (fun a b => decide (a ≤ b)) (dedup
      (((lanesOf [i]).filter fun l => (o.g.lane l).live).map fun l => (o.g.lane l).blk.toNat))) = b.toNat := by
    have hmem (x : Nat) := (mem_sortBy (fun a b => decide (a ≤ b)) x _).trans ((mem_dedup x
      (((lanesOf [i]).filter fun l => (o.g.lane l).live).map fun l => (o.g.lane l).blk.toNat)).trans List.mem_map)
    refine cyclicFirst_eq (pairwise_sortBy _) ((hmem _).2 ⟨l0, (hls l0).2 ⟨h0, hlive0⟩, by rw [hblk0]⟩) fun x hx => ?_
    obtain ⟨l, hl, rfl⟩ := (hmem x).1 hx
    obtain ⟨h1, h2⟩ := (hls l).1 hl
    exact hfirst l h1 h2
  unfold State.peelStep
  simp only [hsame, hne, Bool.false_eq_true, if_false, hcyc, hst]
  rfl

/-! ## The group of a vote -/

/-- The group that a vote has moved (R74). -/
def Env.movedGroup (e : Env) : Group := (e.g.endPass e.slices).move e.slices

theorem lane_movedGroup (e : Env) (l : Nat) : e.movedGroup.lane l =
    if l / 4 ∈ e.slices ∧ l < e.g.lanes.length then (e.g.lane l).moved else e.g.lane l := lane_move (e.g.endPass e.slices) e.slices l

theorem slice_movedGroup (e : Env) (i : Nat) : e.movedGroup.slice i =
    if i < e.g.slices.length ∧ i ∈ e.slices then { e.g.slice i with loops := [] } else e.g.slice i := slice_endPass e.g e.slices i

theorem length_lanes_movedGroup (e : Env) : e.movedGroup.lanes.length = e.g.lanes.length := length_lanes_move _ _

theorem length_slices_movedGroup (e : Env) : e.movedGroup.slices.length = e.g.slices.length := length_slices_endPass e.g e.slices

theorem blk_movedGroup (e : Env) {l : Nat} (hl : l / 4 ∈ e.slices) (hlt : l < e.g.lanes.length) :
    (e.movedGroup.lane l).blk = votedBlk e l := by
  rw [lane_movedGroup, if_pos ⟨hl, hlt⟩, moved_blk]

theorem blocks_movedGroup (e : Env) : e.movedGroup.blocks e.slices = blockSet e (votedBlk e) e.slices :=
  blocks_eq (length_lanes_movedGroup e) fun _ hl hlt => blk_movedGroup e (mem_lanesOf.1 hl) hlt

theorem shape_movedGroup (e : Env) : Reshaped e.g e.movedGroup := (reshaped_endPass _ _).trans (reshaped_move _ _)

/-- R63: a vote whose set has no state, once it is noted. -/
theorem absent_noteAbsent (g : Group) : g.noteAbsent.absent = if g.absent = 0xFFFFFFFF then g.absent else g.absent + 1 := by
  simp only [Group.noteAbsent, Group.raise, beq_iff_eq]

theorem flags_noteAbsent (g : Group) : g.noteAbsent.flags = g.flags ||| 0x800 := rfl

theorem counted_noteAbsent (e : Env) : Counted e.g e.movedGroup.noteAbsent :=
  (Counted.of_shape (shape_movedGroup e)).trans (.noteAbsent _)

/-- A `vote` that installs the group that it makes of an absent set. -/
theorem vote_installs {h : Hdr} {s : State} {e : Env} (r : Ready h none [] [] s e) {o : VoteOut}
    (ho : s.settleVote e.md e.movedGroup e.slices = some o) (hround : o.g.awaiting = []) {P : State → Group → Prop}
    (hP : ∀ t g', Aside e.gk s t → Installed s e o.g g' → P t g') : Completes (.vote h) s e P := by
  refine terminator_completes (i := .vote h) (s := s) (Eq.refl (execVote h s)) r (s2 := s) (o := o) ?_ (.refl _ s) hP
  show s.terminate e e.g = _
  unfold State.terminate State.vote
  rw [show s.settleVote e.md ((e.g.endPass e.slices).move e.slices) e.slices = some o from ho]
  show Res.ok (s.installRound e.gk e.tm e.la e.md o o.g.roundFull) = _
  rw [roundFull_nil hround]
  rfl

/-- Settles O26: a gang of several slices parts slice by slice, and a lone slice takes a peel step. -/
theorem absentSetsPartOrPeel : Obligations.AbsentSetsPartOrPeel := by
  unfold Obligations.AbsentSetsPartOrPeel
  intro h s e r hround set hne habs counted
  have hset := blocks_movedGroup e
  refine ⟨fun h2 hall => ?_, ?_⟩
  · obtain ⟨o, ho, p⟩ := partAll_found (s := s) (e := e) (blk := votedBlk e) (is := e.slices)
      (o := ⟨e.movedGroup.noteAbsent, 1, 1, 0⟩) ((env_slices_pairwise r.env).imp Nat.ne_of_lt) (fun i hi => by
        show i < e.movedGroup.slices.length
        rw [length_slices_movedGroup]
        exact env_slice_lt r.env hi) (length_lanes_movedGroup e) (fun l hl hlt => blk_movedGroup e hl hlt) hall
    have hout (i : Nat) (hi : i ∉ e.slices) : o.g.slice i = e.g.slice i := by
      rw [p.others i hi]
      exact (slice_movedGroup e i).trans (if_neg fun h => hi h.2)
    have halone (i : Nat) (hi : i ∈ e.slices) : ∃ st, s.lookup e.md (blockSet e (votedBlk e) [i]) = .found st ∧
        o.g.slice i = { (e.g.slice i).atStart st .lone with tag := BitVec.ofNat 4 i } := by
      obtain ⟨st, hst, hs⟩ := p.alone i hi
      refine ⟨st, hst, hs.trans ?_⟩
      rw [show Group.slice e.movedGroup.noteAbsent i = _ from (slice_movedGroup e i).trans (if_pos ⟨env_slice_lt r.env hi, hi⟩)]
      rfl
    have hshape := p.shape
    have hcount := (counted_noteAbsent e).trans (.of_shape hshape)
    refine vote_installs r (o := o) ?_ (awaiting_nil hround ?_ (fun i hi => ?_) hout) fun t g' ha hI =>
      ⟨moved_of_installed ha hI (fun l hl => ?_) hout ?_ ?_, hI.framesKept (.refl _ s) ?_ ?_, ?_, ?_, fun i hi => ?_⟩
    · rw [settleVote_part (hset.symm ▸ hne) (hset.symm ▸ habs) h2]
      exact ho
    · rw [p.slicesLength]
      exact length_slices_movedGroup e
    · obtain ⟨st, -, hs⟩ := halone i hi
      rw [hs]
      exact SliceStatus.noConfusion
    · rw [p.lanes l hl]
      exact (lane_movedGroup e l).trans (if_neg fun h => hl h.1)
    · exact hcount.special
    · exact hcount.counters
    · exact hcount.frames
    · exact hcount.gidx
    · exact (congrArg (·.2.2.1) hI.special).trans (hshape.absent.trans (absent_noteAbsent e.movedGroup))
    · exact (congrArg (·.2.1) hI.special).trans (hshape.flags.trans (flags_noteAbsent e.movedGroup))
    · rw [hI.slice]
      exact halone i hi
  · intro i b st hi at' hfresh hb hfirst hst
    have hiin : i ∈ e.slices := hi ▸ List.mem_cons_self
    have hilt := env_slice_lt r.env hiin
    have hs0 : e.movedGroup.slice i = { e.g.slice i with loops := [] } := (slice_movedGroup e i).trans (if_pos ⟨hilt, hiin⟩)
    let g0 : Group := e.movedGroup.noteAbsent.setStatus [i] .peel
    have hlive (l : Nat) (hl : l / 4 = i) (hv : (e.movedGroup.lane l).live = true) : at' l := by
      have hlt : l < e.g.lanes.length := by
        by_contra hn
        rw [lane_beyond (by rw [length_lanes_movedGroup]; omega)] at hv
        exact absurd hv (by decide)
      refine ⟨hlt, hl, ?_⟩
      rw [← blk_movedGroup e (hl ▸ hiin) hlt]
      simpa [Lane.live, deadBlk] using hv
    have hat (l : Nat) (h : at' l) : (e.movedGroup.lane l).live = true ∧ (e.movedGroup.lane l).blk = votedBlk e l ∧
        (e.movedGroup.lane l).sweep = false := by
      obtain ⟨hlt, hl, hv⟩ := h
      have hb := blk_movedGroup e (hl ▸ hiin) hlt
      refine ⟨?_, hb, ?_⟩
      · rw [← hb] at hv
        simpa [Lane.live, deadBlk] using hv
      · rw [lane_movedGroup, if_pos ⟨hl ▸ hiin, hlt⟩]
        exact hfresh l ⟨hlt, hl, hv⟩
    have hs1 : g0.slice i = { e.g.slice i with loops := [], status := .peel } := by
      rw [slice_setStatus, if_pos ⟨by rw [show e.movedGroup.noteAbsent.slices.length = _ from length_slices_movedGroup e]; exact hilt,
        List.mem_cons_self⟩]
      rw [show e.movedGroup.noteAbsent.slice i = _ from hs0]
    have hstep := peelStep_first (s := s) (m := e.md) (o := ⟨g0, 1, 1, 0⟩) (i := i) (st := st) (b := b)
      (fun l hl hv => (hat l (hlive l hl hv)).2.2)
      (by
        obtain ⟨l, hl, hlb⟩ := hb
        exact ⟨l, hl.2.1, (hat l hl).1, (hat l hl).2.1.trans hlb⟩)
      (fun l hl hv => by
        have := hfirst l (hlive l hl hv)
        rw [← (hat l (hlive l hl hv)).2.1] at this
        rw [hs1]
        exact this) hst
    obtain ⟨gf, hgf⟩ : ∃ gf, gf = g0.peelInto i b.toNat st := ⟨_, rfl⟩
    have hsf : gf.slice i = { (g0.slice i).peel b.toNat with sid := BitVec.ofNat 16 st, off := 0, loops := [] } := by
      rw [hgf, slice_peelInto, if_pos ⟨by rw [length_slices_setStatus]; exact (length_slices_movedGroup e).symm ▸ hilt, rfl⟩]
    have hout (j : Nat) (hj : j ∉ e.slices) : gf.slice j = e.g.slice j := by
      have hji : j ≠ i := fun h => hj (h ▸ hiin)
      rw [hgf, slice_peelInto, if_neg (fun h => hji h.2), slice_setStatus, if_neg (by simpa using fun _ => hji)]
      exact (slice_movedGroup e j).trans (if_neg fun h => hj h.2)
    have hlen : gf.slices.length = e.g.slices.length := by
      rw [hgf, length_slices_peelInto, length_slices_setStatus]
      exact length_slices_movedGroup e
    have hshape : Reshaped (e.movedGroup.noteAbsent.raise fPEEL) gf := hgf ▸
      Reshaped.trans (reshaped_setStatus (e.movedGroup.noteAbsent.raise fPEEL) [i] .peel) (shape_peelInto g0 i b.toNat st)
    have hcount := ((counted_noteAbsent e).trans (.raise _ fPEEL)).trans (.of_shape hshape)
    refine vote_installs r (o := ⟨gf, 1, 1, 1⟩) ?_ (awaiting_nil hround hlen (fun j hj => ?_) hout) fun t g' ha hI =>
      ⟨moved_of_installed ha hI (fun l hl => ?_) hout ?_ ?_, hI.framesKept (.refl _ s) ?_ ?_, ?_, ?_, ?_, ?_, ?_, ?_,
        fun l hl => ?_⟩
    case refine_4 => exact hcount.special
    case refine_5 => exact hcount.counters
    case refine_6 => exact hcount.frames
    case refine_7 => exact hcount.gidx
    · have hne' : e.movedGroup.blocks e.slices ≠ [] := hset.symm ▸ hne
      have habs' : s.lookup e.md (e.movedGroup.blocks e.slices) = .absent := hset.symm ▸ habs
      rw [hi] at hne' habs' ⊢
      rw [settleVote_peel hne' habs', hgf]
      exact hstep
    · obtain rfl : j = i := by simpa [hi] using hj
      show (gf.slice j).status ≠ _
      rw [hsf, hs1]
      exact SliceStatus.noConfusion
    · have hli : l / 4 ≠ i := fun h => hl (h ▸ hiin)
      rw [hgf]
      refine (lane_peelInto_other hli _ _).trans ?_
      exact (lane_movedGroup e l).trans (if_neg fun h => hl h.1)
    · exact (congrArg (·.2.2.1) hI.special).trans (hshape.absent.trans (absent_noteAbsent e.movedGroup))
    · refine (congrArg (·.2.1) hI.special).trans (hshape.flags.trans ?_)
      have hmoved : e.movedGroup.noteAbsent.flags = e.g.flags ||| 0x800 := flags_noteAbsent e.movedGroup
      have hpeel : (e.movedGroup.noteAbsent.raise fPEEL).flags = e.movedGroup.noteAbsent.flags ||| 0x1000 := rfl
      rw [hpeel, hmoved, BitVec.or_assoc]
      rfl
    · rw [hI.slice, hsf, hs1]
      rfl
    · rw [hI.slice, hsf]
    · rw [hI.slice, hsf]
    · rw [hI.slice, hsf]
      show (if b.toNat < 0xFFE then BitVec.ofNat 12 (b.toNat + 1) else 0) = _
      have h1 : BitVec.ofNat 12 (b.toNat + 1) = b + 1 := BitVec.eq_of_toNat_eq (by simp)
      rw [h1]
      rfl
    · obtain ⟨hv, hblk, hsw⟩ := hat l hl
      obtain ⟨p1, p2, p3⟩ := lane_peelInto_own (g := g0) hl.2.1 hv b.toNat st
      have heq : ((votedBlk e l).toNat == b.toNat) = (votedBlk e l == b) := by
        rw [Bool.eq_iff_iff, beq_iff_eq, beq_iff_eq, ← BitVec.toNat_inj]
      have e1 : (g0.lane l).blk = votedBlk e l := hblk
      have e2 : (g0.lane l).sweep = false := hsw
      rw [e1] at p1 p2 p3
      rw [e2, Bool.false_or, heq] at p3
      rw [bne, heq] at p2
      rw [hI.lane, hgf]
      exact ⟨p1, p2, p3⟩

end Sys2Proof.Machine
end

section
/-! SUPPORT. Calls, returns and unwinding (R132 to R141). -/

namespace Sys2Proof.Machine

open Sys2Proof

/-! ## Checks that have passed -/

/-- A word that reads no register passes the check for uncorrectable errors. -/
theorem Ready.unread {h : Hdr} {region : Option (BitVec 16)} {regs reads : List (Nat × Nat)} {s : State} {e : Env}
    (r : Ready h region regs reads s e) : Ready h region regs [] s e :=
  ⟨r.env, r.active, r.member, r.frame, List.find?_eq_none.2 fun _ _ => by simp [Env.laneEcc, Env.bankNames], r.stop⟩

theorem Ready.laneEcc {h : Hdr} {region : Option (BitVec 16)} {regs reads : List (Nat × Nat)} {s : State} {e : Env}
    (r : Ready h region regs reads s e) {l : Nat} (hl : l ∈ e.lanes) : e.laneEcc s.latent reads l = false :=
  Bool.eq_false_iff.2 fun h => List.find?_eq_none.1 r.ecc l hl h

theorem env_teamOf {s : State} {m : BitVec 8} {e : Env} (he : s.env m = some e) : s.teams.find e.g.team = some e.tm := by
  unfold State.env at he
  repeat (split at he <;> first | (cases he; done) | skip)
  cases he
  assumption

theorem nodup_lanes {s : State} {m : BitVec 8} {e : Env} (he : s.env m = some e) : e.lanes.Nodup :=
  (env_lanes_pairwise_lt he).imp fun h => Nat.ne_of_lt h

theorem active_lane_lt {s : State} {m : BitVec 8} {e : Env} (he : s.env m = some e) {l : Nat} (hl : l ∈ e.lanes) :
    l < e.g.lanes.length := by
  by_contra h
  have := (active_lane he hl).2.1
  rw [lane_beyond (not_lt.1 h)] at this
  exact absurd this (by decide)

/-! ## Values that a frame is given (R136, R138) -/

/-- A frame with values in a lane's registers from one register up. -/
def Frame.holding (f : Frame) (lane base : Nat) (vs : List Word) : Frame :=
  { f with regs := (mapIdxFrom base (fun r v => (r, v)) vs).foldl (fun m w => m.put (lane * 256 + w.1) w.2) f.regs }

theorem bank_putReg (f : Frame) (lane reg : Nat) (v : Word) (l r : Nat) :
    ({ f with regs := f.regs.put (lane * 256 + reg) v } : Frame).bank l r =
      if lane * 256 + reg = l * 256 + r then v else f.bank l r := by
  unfold Frame.bank
  rw [KMap.find_put]
  by_cases h : lane * 256 + reg = l * 256 + r
  · simp [h]
  · rw [if_neg h, if_neg fun x => h x.symm]

theorem bank_holding (f : Frame) (lane base : Nat) (vs : List Word) (hb : base + vs.length ≤ 256) (l r : Nat) (hr : r < 256) :
    (f.holding lane base vs).bank l r =
      if l = lane ∧ base ≤ r ∧ r < base + vs.length then vs.getD (r - base) 0 else f.bank l r := by
  induction vs generalizing f base with
  | nil => rw [if_neg fun h => absurd h.2.2 (Nat.not_lt.2 h.2.1)]; rfl
  | cons v vs ih =>
    rw [List.length_cons] at hb ⊢
    refine (ih { f with regs := f.regs.put (lane * 256 + base) v } (base + 1) (by omega)).trans ?_
    rw [bank_putReg]
    by_cases h : l = lane ∧ base + 1 ≤ r ∧ r < base + 1 + vs.length
    · obtain ⟨h1, h2, h3⟩ := h
      rw [if_pos ⟨h1, h2, h3⟩, if_pos ⟨h1, by omega, by omega⟩, show r - base = (r - (base + 1)) + 1 by omega,
        List.getD_cons_succ]
    · rw [if_neg h]
      by_cases hk : lane * 256 + base = l * 256 + r
      · obtain ⟨rfl, rfl⟩ := key_inj (by omega) hr hk
        simp
      · rw [if_neg hk, if_neg]
        rintro ⟨rfl, h2, h3⟩
        exact h ⟨rfl, by omega, by omega⟩

/-- Two groups differ at most in lanes, frames and what is kept of registers that are written. -/
def Passed (g g' : Group) : Prop :=
  g' = { g with lanes := g'.lanes, frames := g'.frames, dirty := g'.dirty, windowOnly := g'.windowOnly, keeps := g'.keeps,
                ops := g'.ops, tiles := g'.tiles }

theorem Passed.trans {a b c : Group} (h : Passed a b) (h' : Passed b c) : Passed a c := by
  unfold Passed at *
  rw [h', h]

theorem putRegs_passed (g : Group) (d lane base : Nat) (vs : List Word) :
    Passed g (g.putRegs d lane base vs) ∧ (g.putRegs d lane base vs).lanes = g.lanes := by
  unfold Group.putRegs
  generalize mapIdxFrom base (fun r v => (r, v)) vs = ws
  induction ws generalizing g with
  | nil => exact ⟨rfl, rfl⟩
  | cons w ws ih =>
    obtain ⟨h1, h2⟩ := ih _
    refine ⟨Passed.trans ?_ h1, h2⟩
    rfl

theorem frames_putRegs (g : Group) (d lane base : Nat) (vs : List Word) (k : Nat) :
    (g.putRegs d lane base vs).frames.find k =
      if k = d then (g.frames.find k).map fun f => f.holding lane base vs else g.frames.find k := by
  unfold Group.putRegs Frame.holding
  generalize mapIdxFrom base (fun r v => (r, v)) vs = ws
  induction ws generalizing g with
  | nil => simp
  | cons w ws ih =>
    rw [List.foldl_cons, ih]
    simp only [Group.bankPut, Group.supersede, KMap.find_update, List.foldl_cons]
    by_cases hk : k = d
    · subst hk
      rw [if_pos rfl, if_pos rfl, if_pos rfl, Option.map_map]
      rfl
    · rw [if_neg hk, if_neg hk, if_neg hk]

/-- What words that hand values to frames make of a group: for each lane of `ls`, in the frame at depth `d`, the values
`vs` from register `base` up and, where `rec` gives one, a return record; the lane itself becomes what `fl` says. -/
structure Handed (ls : List Nat) (d base : Nat → Nat) (vs : Nat → List Word) (rec : Nat → Option RetRec)
    (fl : Nat → Lane → Lane) (g g' : Group) : Prop where
  rest : Passed g g'
  length : g'.lanes.length = g.lanes.length
  lane : ∀ l, g'.lane l = if l ∈ ls ∧ l < g.lanes.length then fl l (g.lane l) else g.lane l
  frames : ∀ k, (g'.frames.find k).map (fun f => { f with regs := [], recs := [] }) =
    (g.frames.find k).map fun f => { f with regs := [], recs := [] }
  bank : ∀ k f f', g.frames.find k = some f → g'.frames.find k = some f' → ∀ l r, r < 256 →
    f'.bank l r = if l ∈ ls ∧ k = d l ∧ base l ≤ r ∧ r < base l + (vs l).length then (vs l).getD (r - base l) 0 else f.bank l r
  recs : ∀ k f f', g.frames.find k = some f → g'.frames.find k = some f' → ∀ l,
    f'.recs.find l = if l ∈ ls ∧ k = d l ∧ (rec l).isSome then rec l else f.recs.find l

namespace Handed

variable {d base : Nat → Nat} {vs : Nat → List Word} {rec : Nat → Option RetRec} {fl : Nat → Lane → Lane}

theorem find {ls : List Nat} {g g' : Group} (h : Handed ls d base vs rec fl g g') {k : Nat} {f : Frame}
    (hf : g.frames.find k = some f) : ∃ f', g'.frames.find k = some f' ∧ f'.size = f.size := by
  have hk := h.frames k
  rw [hf] at hk
  cases hf' : g'.frames.find k with
  | none => rw [hf'] at hk; cases hk
  | some f' =>
    rw [hf'] at hk
    have he : ({ f' with regs := [], recs := [] } : Frame) = { f with regs := [], recs := [] } := Option.some.inj hk
    exact ⟨f', rfl, (congrArg Frame.size he :)⟩

theorem refl (g : Group) : Handed [] d base vs rec fl g g := by
  refine ⟨rfl, rfl, fun l => by simp, fun _ => rfl, fun k f f' h h' l r _ => ?_, fun k f f' h h' l => ?_⟩ <;>
  · obtain rfl := Option.some.inj (h.symm.trans h')
    simp

theorem cons {l : Nat} {ls : List Nat} (hn : l ∉ ls) {a b c : Group} (h : Handed [l] d base vs rec fl a b)
    (h' : Handed ls d base vs rec fl b c) : Handed (l :: ls) d base vs rec fl a c := by
  refine ⟨h.rest.trans h'.rest, h'.length.trans h.length, fun x => ?_, fun k => (h'.frames k).trans (h.frames k),
    fun k f f'' hf hf'' x r hr => ?_, fun k f f'' hf hf'' x => ?_⟩
  · rw [h'.lane, h.lane, h.length]
    by_cases hx : x = l
    · subst hx
      simp [hn]
    · simp [hx]
  · obtain ⟨f', hf', -⟩ := h.find hf
    rw [h'.bank k f' f'' hf' hf'' x r hr, h.bank k f f' hf hf' x r hr]
    by_cases hx : x = l
    · subst hx
      simp [hn]
    · simp [hx]
  · obtain ⟨f', hf', -⟩ := h.find hf
    rw [h'.recs k f' f'' hf' hf'' x, h.recs k f f' hf hf' x]
    by_cases hx : x = l
    · subst hx
      simp [hn]
    · simp [hx]

/-- Lanes taken one after the other, each as the group was before for it. -/
theorem foldl {step : Group → Nat → Group} {g0 : Group} {ls : List Nat} (hn : ls.Nodup)
    (hs : ∀ l ∈ ls, ∀ g : Group, g.lane l = g0.lane l → Handed [l] d base vs rec fl g (step g l)) {g : Group}
    (hg : ∀ l ∈ ls, g.lane l = g0.lane l) : Handed ls d base vs rec fl g (ls.foldl step g) := by
  induction ls generalizing g with
  | nil => exact refl g
  | cons l ls ih =>
    obtain ⟨h1, h2⟩ := List.nodup_cons.1 hn
    have h := hs l List.mem_cons_self g (hg l List.mem_cons_self)
    refine cons h1 h (ih h2 (fun x hx => hs x (List.mem_cons_of_mem _ hx)) fun x hx => ?_)
    rw [h.lane, if_neg]
    · exact hg x (List.mem_cons_of_mem _ hx)
    · rintro ⟨hx', -⟩
      exact h1 (List.mem_singleton.1 hx' ▸ hx)

end Handed

/-! ## Frames that grow (R134) -/

/-- What growing frames to the sizes of `needs` keeps, and what it gives. -/
structure Grown (needs : List (Nat × Nat)) (g g' : Group) : Prop where
  rest : g' = { g with frames := g'.frames }
  kept : ∀ k f, g.frames.find k = some f → ∃ f', g'.frames.find k = some f' ∧ f'.recs = f.recs ∧ f.size ≤ f'.size ∧
    ∀ l r, r < f.size → f'.bank l r = f.bank l r
  sized : ∀ p ∈ needs, ∃ f', g'.frames.find p.1 = some f' ∧ 8 * (p.2 / 8) ≤ f'.size

theorem size_grow (f : Frame) (free gk depth n stamp : Nat) : f.size ≤ (f.grow free gk depth n stamp).size ∧
    8 * (n / 8) ≤ (f.grow free gk depth n stamp).size := by
  have : (natsFrom f.seeds.length (n / 8 - f.seeds.length)).length = n / 8 - f.seeds.length := by
    rw [natsFrom_eq_range', List.length_range']
  simp only [Frame.size, Frame.grow, List.length_append, List.length_map, this]
  omega

theorem bank_grow (f : Frame) (free gk depth n stamp l : Nat) {r : Nat} (hr : r < f.size) :
    (f.grow free gk depth n stamp).bank l r = f.bank l r := by
  unfold Frame.size at hr
  unfold Frame.bank Frame.grow
  rw [List.getD_eq_getElem?_getD, List.getElem?_append_left (by omega), ← List.getD_eq_getElem?_getD]

theorem growAll_grown (g : Group) (free gk stamp : Nat) (needs : List (Nat × Nat)) :
    Grown needs g (g.growAll free gk stamp needs) := by
  unfold Group.growAll
  induction needs generalizing g with
  | nil => exact ⟨rfl, fun _ f h => ⟨f, h, rfl, le_rfl, fun _ _ _ => rfl⟩, fun _ h => nomatch h⟩
  | cons p needs ih =>
    rw [List.foldl_cons]
    obtain ⟨f0, hf0⟩ : ∃ f0, f0 = (g.frames.find p.1).getD Frame.empty := ⟨_, rfl⟩
    rw [← hf0]
    obtain ⟨h1, h2, h3⟩ := ih { g with frames := g.frames.put p.1 (f0.grow free gk p.1 p.2 stamp) }
    refine ⟨h1.trans rfl, fun k f hf => ?_, fun q hq => ?_⟩
    · obtain ⟨f1, hf1, hr, hsz, hb⟩ : ∃ f1, (g.frames.put p.1 (f0.grow free gk p.1 p.2 stamp)).find k = some f1 ∧
          f1.recs = f.recs ∧ f.size ≤ f1.size ∧ ∀ l r, r < f.size → f1.bank l r = f.bank l r := by
        rw [KMap.find_put]
        by_cases hk : k = p.1
        · rw [hk] at hf
          rw [hf] at hf0
          subst hf0
          exact ⟨_, if_pos hk, rfl, (size_grow _ _ _ _ _ _).1, fun l r hr => bank_grow _ _ _ _ _ _ _ hr⟩
        · exact ⟨f, by rw [if_neg hk, hf], rfl, le_rfl, fun _ _ _ => rfl⟩
      obtain ⟨f', hf', hr', hsz', hb'⟩ := h2 k f1 hf1
      exact ⟨f', hf', hr'.trans hr, hsz.trans hsz', fun l r h => (hb' l r (by omega)).trans (hb l r h)⟩
    · rcases List.mem_cons.1 hq with rfl | hq
      · obtain ⟨f', hf', -, hsz, -⟩ := h2 q.1 _ (KMap.find_put_self _ _ _)
        exact ⟨f', hf', (size_grow f0 free gk q.1 q.2 stamp).2.trans hsz⟩
      · exact h3 q hq

/-! ## Granules (R192) -/

/-- A word that refills no frame and asks for granules that are free, with no request in the way, goes on. -/
theorem demandFrames_go {s : State} {m : BitVec 8} {e : Env} (he : s.env m = some e) (hq : e.tm.requests = []) {size : Nat}
    (uses : List Nat) (hs : size ≤ s.freeGranules e.g.team) :
    s.demandFrames e size [] uses = .go (s.onTeam e.g.team fun tm => tm.dropRequests e.gk e.run.tag) := by
  have hteam := env_teamOf he
  have hfree : (s.onTeam e.g.team fun tm => tm.dropRequests e.gk e.run.tag).freeGranules e.g.team = s.freeGranules e.g.team := by
    unfold State.freeGranules State.onTeam
    simp only [KMap.find_update_self, hteam, Option.map_some, Team.dropRequests, Team.reserved, hq, List.filter_nil]
    rfl
  have hfind : (s.onTeam e.g.team fun tm => tm.dropRequests e.gk e.run.tag).teams.find e.g.team =
      some (e.tm.dropRequests e.gk e.run.tag) := by
    unfold State.onTeam
    rw [KMap.find_update_self, hteam]
    rfl
  have hqueue : (e.tm.dropRequests e.gk e.run.tag).queue = [] := by
    unfold Team.dropRequests Team.queue
    rw [hq]
    rfl
  unfold State.demandFrames
  split
  · rfl
  · simp only [hfree, hfind, Option.getD_some, hqueue, List.isEmpty_nil, Bool.true_and, decide_eq_true hs, Bool.or_true, if_true]

/-- A word that asks for nothing goes on. -/
theorem demandFrames_nothing (s : State) (e : Env) (uses : List Nat) :
    s.demandFrames e 0 [] uses = .go (s.onTeam e.g.team fun tm => tm.dropRequests e.gk e.run.tag) := rfl

theorem dropRequests_aside (s : State) (t gk tag k : Nat) : Aside k s (s.onTeam t fun tm => tm.dropRequests gk tag) :=
  .of_tail (.requests k s t fun tm => tm.requests.filter fun r => !(r.gk == gk && r.tag == tag && !r.restore))

theorem correctRegs_aside (k : Nat) (s : State) (core : Nat) (names : List Nat) : Aside k s (s.correctRegs core names) := by
  unfold State.correctRegs
  split
  · exact .refl k s
  · exact ⟨rfl, fun _ => rfl, fun _ _ => rfl⟩

theorem clearLatent_aside (k : Nat) (s : State) (ks : List Nat) : Aside k s (s.clearLatent ks) :=
  ⟨rfl, fun _ => rfl, fun _ _ => rfl⟩

/-! ## Words that hand values over and vote -/

/-- What such a word makes of its group before it votes: `written` names depth, lane and register, `blk` the block in
which the vote will put a lane. -/
structure HandsOver (e : Env) (written : Nat → Nat → Nat → Prop) (blk : Nat → BitVec 12) (g : Group) : Prop where
  passed : Passed e.g g
  length : g.lanes.length = e.g.lanes.length
  other : ∀ l, l ∉ e.lanes → g.lane l = e.g.lane l
  moved : ∀ l ∈ e.lanes, (g.lane l).moved.blk = blk l
  stays : ∀ l, l ∉ e.lanes → votedBlk e l = blk l
  kept : ∀ k f, e.g.frames.find k = some f → ∃ f', g.frames.find k = some f' ∧ f.size ≤ f'.size ∧
    (∀ l r, r < 256 → r < f.size → ¬ written k l r → f'.bank l r = f.bank l r) ∧
    ∀ l, k ≤ (e.g.lane l).depth.toNat → f'.recs.find l = f.recs.find l

/-- Where such a word leaves its group. -/
structure HandedOver (s t : State) (e : Env) (written : Nat → Nat → Nat → Prop) (blk : Nat → BitVec 12) (g g' : Group) :
    Prop where
  moved : Moved s t e g'
  arrived : Arrived s e blk g'
  flags : g'.flags = e.g.flags
  kept : FramesKept s e written g'
  depth : ∀ l, (g'.lane l).depth = (g.lane l).depth
  frame : ∀ d f', g'.frames.find d = some f' → ∃ f, g.frames.find d = some f ∧ f'.recs = f.recs ∧
    ∀ l r, r < 256 → r < f'.size → f'.bank l r = f.bank l r
  stays : ∀ l d f, g.frames.find d = some f → (g'.lane l).blk ≠ 0xFFF → d ≤ (g.lane l).depth.toNat →
    0 < s.demandAt e.md e.tm g l d → ∃ f', g'.frames.find d = some f' ∧
      min f.size (8 * (s.demandAt e.md e.tm g l d / 8)) ≤ f'.size

theorem termWord_runs {h : Hdr} {regs : List (Nat × Nat)} {body : Env → State → Res} {s s' : State} {e : Env}
    (r : Ready h none regs [] s e) (hb : body e s = .ok s') : termWord h regs [] body s = .next (s'.endPass e) := by
  rw [termWord, wordAt_ready r hb, correctReads_nil]

theorem handsOver_completes {i : Instr} {m : BitVec 8} {body : Res} {s s2 : State} {e : Env}
    {written : Nat → Nat → Nat → Prop} {blk : Nat → BitVec 12} {g : Group} (he : s.env m = some e)
    (hx : ∀ s', body = .ok s' → exec i s = .next (s'.endPass e)) (ha : Aside e.gk s s2)
    (hb : body = s2.terminate e g) (ho : HandsOver e written blk g) (can : CanArrive s e blk) :
    Completes i s e fun t g' => HandedOver s t e written blk g g' := by
  have hp := ho.passed
  obtain ⟨o, hv, v⟩ := terminate_voted he ha (g := g) (by rw [hp]) ho.length (fun l hl hlt => by
    by_cases hm : l ∈ e.lanes
    · exact ho.moved l hm
    · rw [ho.other l hm, moved_blk, ho.stays l hm]) can
  obtain ⟨ha2, g', hg', hi⟩ := install_endPass s2 e o
  have ha' := ha.trans ha2
  refine ⟨_, g', hx _ (hb.trans hv), hg', ?_⟩
  have hf : o.g.frames = g.frames := by rw [v.rest]
  have hdem (l d : Nat) : s2.demandAt e.md e.tm o.g l d = s.demandAt e.md e.tm g l d := by
    rw [ha.demandAt]
    unfold State.demandAt
    rw [hf, show o.g.gidx = g.gidx by rw [v.rest]]
  refine ⟨v.moved hi ha' (fun l hl => ho.other l fun hm => hl (active_lane he hm).1) (by rw [hp]) (by rw [hp]), v.arrived hi, ?_, ?_,
    fun l => by rw [hi.lane, v.depth], fun d f' hf' => ?_, fun l d f hfd hl hd hpos => ?_⟩
  · refine (congrArg (·.2.1) hi.special).trans ?_
    rw [v.rest, hp]
  · refine ⟨fun d f f' h1 h2 l x hx' hlt hlt' hw => ?_, fun d f h1 h2 l hl hd hd' => ?_⟩
    · obtain ⟨f1, hf1, -, -, hbank⟩ := hi.frame h2
      obtain ⟨f2, hf2, -, hbank', -⟩ := ho.kept d f h1
      rw [hf, hf2] at hf1
      obtain rfl := Option.some.inj hf1
      exact (hbank l x hx' hlt').trans (hbank' l x hx' hlt hw)
    · obtain ⟨f2, hf2, -, -, hrec⟩ := ho.kept d f h1
      have hz := hi.gone (hf ▸ hf2) h2
      rw [hi.lane] at hl hd'
      have hle := le_sizeAt (s := s2) (m := e.md) (tm := e.tm) hl hd'
      have heq : s.demandAt e.md e.tm g l d = s.demandAt e.md e.tm e.g l d := by
        unfold State.demandAt
        rw [hf2, h1, show g.gidx = e.g.gidx by rw [hp]]
        simp only [hrec l hd]
      rw [hz, hdem, heq] at hle
      omega
  · obtain ⟨f1, hf1, hrec, -, hbank⟩ := hi.frame hf'
    exact ⟨f1, hf ▸ hf1, hrec, hbank⟩
  · rw [hi.lane] at hl
    have hle : s.demandAt e.md e.tm g l d ≤ s2.sizeAt e.md e.tm o.g d := by
      rw [← hdem]
      exact le_sizeAt hl (by rw [v.depth]; exact hd)
    cases hf' : g'.frames.find d with
    | none =>
      have := hi.gone (hf ▸ hfd) hf'
      omega
    | some f' =>
      obtain ⟨f1, hf1, -, hsize, -⟩ := hi.frame hf'
      rw [hf, hfd] at hf1
      obtain rfl := Option.some.inj hf1
      refine ⟨f', rfl, ?_⟩
      rw [hsize]
      unfold Frame.shrink
      split
      · exact Nat.min_le_left _ _
      · simp only [Frame.size, List.length_take]
        omega

/-! ## Calls (R136, R140) -/

/-- A lane in the function that it calls. -/
def Lane.entered (x : Lane) (entry : BitVec 12) : Lane := { x with depth := x.depth + 1, nxt := entry }

theorem handOver_lane (g : Group) {ls : List Nat} (f : Lane → Lane) (lane l : Nat) (h : ls = [lane]) :
    (g.onLanes fun i x => if i == lane then f x else x).lane l = if l ∈ ls ∧ l < g.lanes.length then f (g.lane l) else g.lane l := by
  subst h
  rw [lane_onLanes]
  by_cases hl : l < g.lanes.length
  · by_cases hx : l = lane
    · subst hx
      simp [hl]
    · simp [hl, hx]
  · rw [if_neg hl, if_neg (fun h => hl h.2), lane_beyond (not_lt.1 hl)]

theorem find_recs_put (f : Frame) (l : Nat) (r : RetRec) (x : Nat) :
    ({ f with recs := f.recs.put l r } : Frame).recs.find x = if x = l then some r else f.recs.find x := KMap.find_put _ _ _ _

/-- One lane's entry into a function. -/
theorem enterFn_handed {d base : Nat → Nat} {vs : Nat → List Word} {rec : Nat → Option RetRec} {fl : Nat → Lane → Lane}
    (g : Group) (l fn : Nat) (x : Descr) (hd : d l = (g.lane l).depth.toNat + 1) (hbase : base l = 0)
    (hlen : (vs l).length ≤ 256) (hrec : rec l = some ⟨(g.lane l).nxt, BitVec.ofNat 16 fn⟩)
    (hfl : fl l = fun y => y.entered (BitVec.ofNat 12 x.entry)) : Handed [l] d base vs rec fl g (g.enterFn l fn x (vs l)) := by
  obtain ⟨hp, hl⟩ := putRegs_passed g (d l) l 0 (vs l)
  let gp : Group := (g.putRegs (d l) l 0 (vs l)).putRec (d l) l ⟨(g.lane l).nxt, BitVec.ofNat 16 fn⟩
  have hgp : g.enterFn l fn x (vs l) = gp.onLanes fun i y => if i == l then y.entered (BitVec.ofNat 12 x.entry) else y := by
    unfold Group.enterFn
    simp only [← hd]
    rfl
  have hfr (k : Nat) : (g.enterFn l fn x (vs l)).frames.find k = if k = d l then (g.frames.find k).map fun f =>
      { f.holding l 0 (vs l) with recs := f.recs.put l ⟨(g.lane l).nxt, BitVec.ofNat 16 fn⟩ } else g.frames.find k := by
    rw [hgp]
    show ((g.putRegs (d l) l 0 (vs l)).frames.update (d l) _).find k = _
    rw [KMap.find_update, frames_putRegs, frames_putRegs]
    by_cases hk : k = d l
    · rw [if_pos hk, if_pos rfl, if_pos hk, Option.map_map, hk]
      rfl
    · rw [if_neg hk, if_neg hk, if_neg hk]
  have hlanes : gp.lanes = g.lanes := hl
  refine ⟨?_, ?_, fun y => ?_, fun k => ?_, fun k f f' hf hf' y r hr => ?_, fun k f f' hf hf' y => ?_⟩
  · rw [hgp]
    refine hp.trans ?_
    rfl
  · rw [hgp, length_lanes_onLanes, hlanes]
  · rw [hgp, handOver_lane gp _ l y rfl, hlanes, show gp.lane y = g.lane y by rw [Group.lane, hlanes]; rfl]
    by_cases hy : y = l
    · subst hy
      rw [hfl]
    · simp [hy]
  · rw [hfr]
    split
    · rw [Option.map_map]
      rfl
    · rfl
  · rw [hfr, hf] at hf'
    by_cases hk : k = d l
    · rw [if_pos hk] at hf'
      obtain rfl := Option.some.inj hf'
      refine (bank_holding f l 0 (vs l) (by omega) y r hr).trans ?_
      by_cases hy : y = l
      · subst hy
        simp [hk, hbase]
      · simp [hy]
    · rw [if_neg hk] at hf'
      obtain rfl := Option.some.inj hf'
      rw [if_neg]
      rintro ⟨hy, hk', -⟩
      exact hk (List.mem_singleton.1 hy ▸ hk')
  · rw [hfr, hf] at hf'
    by_cases hk : k = d l
    · rw [if_pos hk] at hf'
      obtain rfl := Option.some.inj hf'
      refine (find_recs_put _ _ _ _).trans ?_
      by_cases hy : y = l
      · subst hy
        simp [hk, hrec]
      · rw [if_neg hy, if_neg fun h => hy (List.mem_singleton.1 h.1)]
        rfl
    · rw [if_neg hk] at hf'
      obtain rfl := Option.some.inj hf'
      rw [if_neg]
      rintro ⟨hy, hk', -⟩
      exact hk (List.mem_singleton.1 hy ▸ hk')

/-- The sizes that a call asks for (R134). -/
def callNeeds (s : State) (e : Env) (fn : Nat → Nat) : List (Nat × Nat) :=
  (e.g.depthsOf e.lanes).map fun k => (k + 1, callSize s e fn k)

/-- What a call makes of a grown group. -/
def Entered (s : State) (e : Env) (fn : Nat → Nat) (args : Env → Nat → Descr → List Word) (g g' : Group) : Prop :=
  Handed e.lanes (fun l => (e.g.lane l).depth.toNat + 1) (fun _ => 0) (fun l => args e l (s.descr e.md (fn l)))
    (fun l => some ⟨(e.g.lane l).nxt, BitVec.ofNat 16 (fn l)⟩)
    (fun l x => x.entered (BitVec.ofNat 12 (s.descr e.md (fn l)).entry)) g g'

theorem mem_depthsOf {g : Group} {ls : List Nat} {k : Nat} : k ∈ g.depthsOf ls ↔ ∃ l ∈ ls, (g.lane l).depth.toNat = k := by
  rw [Group.depthsOf, mem_dedup, List.mem_map]

/-- The checks of a calling lane (R136). -/
def callFault (f : Env → Nat → Nat) (src : List (Nat × Nat)) (argRange : Bool) (s : State) (e : Env) (l : Nat) : Option Nat :=
  if e.laneEcc s.latent src l then some cECCFATAL
  else if e.md.nDescrs ≤ f e l then some cILLFIELD
  else if (e.g.lane l).depth.toNat == 255 then some cCALLDEPTH
  else if argRange && decide (e.g.frameSize (e.g.lane l).depth.toNat <
    (s.descr e.md (f e l)).argbase + (s.descr e.md (f e l)).nargs) then some cFRAMERANGE
  else if e.laneEcc s.latent (if argRange then
    [((s.descr e.md (f e l)).argbase, (s.descr e.md (f e l)).nargs)] else []) l then some cECCFATAL
  else none

section
variable {f : Env → Nat → Nat} {src : List (Nat × Nat)} {argRange : Bool} {s : State} {e : Env} {l : Nat}
  (hsrc : e.laneEcc s.latent src l = false)
include hsrc

theorem callFault_none (hfn : f e l < e.md.nDescrs) (hd : (e.g.lane l).depth.toNat ≠ 255)
    (hargs : argRange = true →
      (s.descr e.md (f e l)).argbase + (s.descr e.md (f e l)).nargs ≤ e.g.frameSize (e.g.lane l).depth.toNat ∧
      e.laneEcc s.latent [((s.descr e.md (f e l)).argbase, (s.descr e.md (f e l)).nargs)] l = false) :
    callFault f src argRange s e l = none := by
  unfold callFault
  rw [if_neg (by simp [hsrc]), if_neg (Nat.not_le.2 hfn), if_neg (by simp [hd])]
  cases argRange with
  | false => simp [Env.laneEcc, Env.bankNames]
  | true =>
    obtain ⟨h3, h4⟩ := hargs rfl
    simp [h3, h4]

theorem callFault_some (hbad : e.md.nDescrs ≤ f e l ∨ (e.g.lane l).depth.toNat = 255) :
    callFault f src argRange s e l = some (if e.md.nDescrs ≤ f e l then cILLFIELD else cCALLDEPTH) := by
  unfold callFault
  rw [if_neg (by simp [hsrc])]
  by_cases h : e.md.nDescrs ≤ f e l
  · rw [if_pos h, if_pos h]
  · rw [if_neg h, if_neg h, if_pos (beq_iff_eq.2 (hbad.resolve_left h))]

end

/-- A call whose checks pass enters its functions and votes. -/
theorem callBody_enters {f : Env → Nat → Nat} {src : List (Nat × Nat)} {argRange : Bool}
    {args : Env → Nat → Descr → List Word} {s : State} {e : Env} {m : BitVec 8} (he : s.env m = some e)
    (hsrc : ∀ l ∈ e.lanes, e.laneEcc s.latent src l = false) (hlen : ∀ l fn, (args e l (s.descr e.md fn)).length ≤ 256)
    (hfn : ∀ l ∈ e.lanes, f e l < e.md.nDescrs ∧ (e.g.lane l).depth.toNat < 255 ∧
      ∀ fr, e.g.frames.find ((e.g.lane l).depth.toNat + 1) = some fr → fr.place = .pool)
    (hargs : argRange = true → ∀ l ∈ e.lanes,
      (s.descr e.md (f e l)).argbase + (s.descr e.md (f e l)).nargs ≤ e.g.frameSize (e.g.lane l).depth.toNat ∧
      e.laneEcc s.latent [((s.descr e.md (f e l)).argbase, (s.descr e.md (f e l)).nargs)] l = false)
    (hq : e.tm.requests = []) (hsz : callGranules s e (f e) ≤ s.freeGranules e.g.team) :
    ∃ s2 gg g, Aside e.gk s s2 ∧ callBody f src argRange args e s = s2.terminate e g ∧
      Grown (callNeeds s e (f e)) e.g gg ∧ Entered s e (f e) args gg g := by
  have hfault : (e.lanes.find? fun l => (callFault f src argRange s e l).isSome) = none := by
    refine List.find?_eq_none.2 fun l hl => ?_
    obtain ⟨h1, h2, -⟩ := hfn l hl
    rw [callFault_none (hsrc l hl) h1 (Nat.ne_of_lt h2) fun h => hargs h l hl]
    decide
  have hspill (k : Nat) (hk : k ∈ e.g.depthsOf e.lanes) : e.g.isSpilled (k + 1) = false := by
    obtain ⟨l, hl, rfl⟩ := mem_depthsOf.1 hk
    unfold Group.isSpilled
    cases hfr : e.g.frames.find ((e.g.lane l).depth.toNat + 1) with
    | none => rfl
    | some fr => simp [Frame.inPool, (hfn l hl).2.2 fr hfr]
  have hrefill : ((callNeeds s e (f e)).map (·.1)).filter e.g.isSpilled = [] := by
    refine List.filter_eq_nil_iff.2 fun k hk => ?_
    obtain ⟨p, hp, rfl⟩ := List.mem_map.1 hk
    obtain ⟨j, hj, rfl⟩ := List.mem_map.1 hp
    simp [hspill j hj]
  have hsize : ((callNeeds s e (f e)).map fun p =>
      p.2 / 8 - (if e.g.isSpilled p.1 then 0 else e.g.frameSize p.1 / 8)).foldl (· + ·) 0 = callGranules s e (f e) := by
    unfold callNeeds callGranules
    rw [List.map_map]
    refine congrArg (List.foldl (· + ·) 0) (List.map_congr_left fun k hk => ?_)
    show callSize s e (f e) k / 8 - (if e.g.isSpilled (k + 1) then 0 else e.g.frameSize (k + 1) / 8) = _
    rw [hspill k hk]
    rfl
  let s0 : State := s.onTeam e.g.team fun tm => tm.dropRequests e.gk e.run.tag
  have hgroup : (s.onTeam e.g.team fun tm => tm.dropRequests e.gk e.run.tag).group e.gk = some e.g := env_group (s := s) he
  have hgo := demandFrames_go he hq (e.g.depthsOf e.lanes ++ (e.g.depthsOf e.lanes).map (· + 1)) hsz
  let gg : Group := e.g.growAll s.free e.gk s.seq (callNeeds s e (f e))
  let g : Group := e.lanes.foldl (fun g l => g.enterFn l (f e l) (s.descr e.md (f e l)) (args e l (s.descr e.md (f e l)))) gg
  have hgg : Grown (callNeeds s e (f e)) e.g gg := growAll_grown _ _ _ _ _
  have hlane (l : Nat) : gg.lane l = e.g.lane l := by rw [Group.lane, hgg.rest]; rfl
  have hg : Entered s e (f e) args gg g :=
    Handed.foldl (g0 := e.g)
      (step := fun g l => g.enterFn l (f e l) (s.descr e.md (f e l)) (args e l (s.descr e.md (f e l)))) (nodup_lanes he)
      (fun l hl x hx => enterFn_handed (vs := fun l => args e l (s.descr e.md (f e l))) x l _ _ (by rw [hx]) rfl (hlen _ _)
        (by rw [hx]) rfl) fun l _ => hlane l
  let names : List Nat := e.lanes.flatMap fun l => e.bankNames l (src ++ if argRange then
    [((s.descr e.md (f e l)).argbase, (s.descr e.md (f e l)).nargs)] else [])
  let new : List Nat := e.lanes.flatMap fun l => (natsFrom 0 (args e l (s.descr e.md (f e l))).length).map
    (latentReg e.gk ((e.g.lane l).depth.toNat + 1) l)
  refine ⟨(s0.correctRegs e.core names).clearLatent new, gg, g, ?_, ?_, hgg, hg⟩
  · exact ((dropRequests_aside s _ _ _ _).trans (correctRegs_aside _ _ _ _)).trans (clearLatent_aside _ _ _)
  · unfold callFault at hfault
    unfold callBody
    simp only [hfault]
    simp only [← show callNeeds s e (f e) = (e.g.depthsOf e.lanes).map fun k =>
      (k + 1, (e.lanes.filter fun l => (e.g.lane l).depth.toNat == k).foldl
        (fun a l => max a (s.descr e.md (f e l)).demand) (e.g.frameSize (k + 1))) from rfl, hrefill, hsize, hgo, hgroup]
    simp only [List.foldl_map]
    rfl

/-! ## Where calls and returns leave their lanes -/

theorem descr_demand (s : State) (m : Module) (i : Nat) : (s.descr m i).demand % 8 = 0 ∧ 0 < (s.descr m i).demand ∧
    (s.descr m i).demand ≤ 256 := by
  have : bitsOf (s.liveNum (m.descrs + 8 * i) 8) 20 16 < 32 := by
    unfold bitsOf
    exact Nat.mod_lt _ (by decide)
  show (bitsOf (s.liveNum (m.descrs + 8 * i) 8) 20 16 + 1) * 8 % 8 = 0 ∧
    0 < (bitsOf (s.liveNum (m.descrs + 8 * i) 8) 20 16 + 1) * 8 ∧ (bitsOf (s.liveNum (m.descrs + 8 * i) 8) 20 16 + 1) * 8 ≤ 256
  omega

theorem nargs_lt (s : State) (m : Module) (i : Nat) : (s.descr m i).nargs < 64 := by
  show bitsOf (s.liveNum (m.descrs + 8 * i) 8) 37 32 < 64
  unfold bitsOf
  exact Nat.mod_lt _ (by decide)

theorem succ_depth {x : BitVec 8} (h : x.toNat < 255) : (x + 1).toNat = x.toNat + 1 := by
  rw [BitVec.toNat_add]
  exact Nat.mod_eq_of_lt (show x.toNat + 1 < 256 by omega)

/-- Where the frames of an entered group are from those before the call. -/
theorem Entered.handsOver {s : State} {e : Env} {m : BitVec 8} {fn : Nat → Nat} {args : Env → Nat → Descr → List Word} {gg g : Group}
    (hg : Entered s e fn args gg g) (hgg : Grown (callNeeds s e fn) e.g gg) (he : s.env m = some e) :
    HandsOver e (fun d l _ => l ∈ e.lanes ∧ d = (e.g.lane l).depth.toNat + 1)
      (fun l => if l ∈ e.lanes then BitVec.ofNat 12 (s.descr e.md (fn l)).entry else votedBlk e l) g := by
  have hlane (l : Nat) : gg.lane l = e.g.lane l := by rw [Group.lane, hgg.rest]; rfl
  have hlen : gg.lanes.length = e.g.lanes.length := by rw [hgg.rest]
  refine ⟨?_, hg.length.trans hlen, fun l hl => ?_, fun l hl => ?_, fun l hl => (if_neg hl).symm, fun k f hf => ?_⟩
  · refine Passed.trans ?_ hg.rest
    rw [Passed, hgg.rest]
  · rw [hg.lane, if_neg fun h => hl h.1, hlane]
  · obtain ⟨-, hlive, hpark⟩ := active_lane he hl
    rw [hg.lane, if_pos ⟨hl, hlen ▸ active_lane_lt he hl⟩, if_pos hl, hlane]
    show (if (e.g.lane l).live && !(e.g.lane l).park then _ else _) = _
    rw [hlive, hpark]
    rfl
  · obtain ⟨f1, hf1, hrec, hsize, hbank⟩ := hgg.kept k f hf
    obtain ⟨f', hf', hs⟩ := hg.find hf1
    refine ⟨f', hf', hs ▸ hsize, fun l r hr hlt hw => ?_, fun l hd => ?_⟩
    · rw [hg.bank k f1 f' hf1 hf' l r hr, if_neg fun h => hw ⟨h.1, h.2.1⟩, hbank l r hlt]
    · rw [hg.recs k f1 f' hf1 hf' l, if_neg fun h => ?_, hrec]
      obtain ⟨-, hk, -⟩ := h
      omega

/-- Where a call leaves its callers, once the vote has put them into their functions. -/
theorem Entered.callees {s t : State} {e : Env} {m : BitVec 8} {fn : Nat → Nat} {args : Env → Nat → Descr → List Word}
    {written : Nat → Nat → Nat → Prop} {blk : Nat → BitVec 12} {gg g g' : Group}
    (hg : Entered s e fn args gg g) (hgg : Grown (callNeeds s e fn) e.g gg) (he : s.env m = some e)
    (ho : HandedOver s t e written blk g g') {l : Nat} (hl : l ∈ e.lanes) (hfn : fn l < 2 ^ 16)
    (hd : (e.g.lane l).depth.toNat < 255) : (g'.lane l).depth.toNat = (e.g.lane l).depth.toNat + 1 ∧
      (blk l ≠ 0xFFF →
        (g'.frames.find ((e.g.lane l).depth.toNat + 1)).map (fun fr => fr.recs.find l) =
          some (some ⟨(e.g.lane l).nxt, BitVec.ofNat 16 (fn l)⟩) ∧
        ∀ j, j < (args e l (s.descr e.md (fn l))).length → j < (s.descr e.md (fn l)).demand →
          g'.bankAt ((e.g.lane l).depth.toNat + 1) l j = some ((args e l (s.descr e.md (fn l))).getD j 0)) := by
  have hlt := active_lane_lt he hl
  have hlen : gg.lanes.length = e.g.lanes.length := by rw [hgg.rest]
  have hgl : (g.lane l).depth = (e.g.lane l).depth + 1 := by
    rw [hg.lane, if_pos ⟨hl, hlen ▸ hlt⟩, show gg.lane l = e.g.lane l by rw [Group.lane, hgg.rest]; rfl]
    rfl
  have hdep : (g.lane l).depth.toNat = (e.g.lane l).depth.toNat + 1 := by rw [hgl, succ_depth hd]
  refine ⟨by rw [ho.depth, hdep], fun hblk => ?_⟩
  obtain ⟨h8, hpos, h256⟩ := descr_demand s e.md (fn l)
  obtain ⟨f1, hf1, hsz⟩ := hgg.sized ((e.g.lane l).depth.toNat + 1, callSize s e fn (e.g.lane l).depth.toNat)
    (List.mem_map.2 ⟨_, mem_depthsOf.2 ⟨l, hl, rfl⟩, rfl⟩)
  have hneed : (s.descr e.md (fn l)).demand ≤ callSize s e fn (e.g.lane l).depth.toNat :=
    (le_foldl_max (e.lanes.filter fun j => (e.g.lane j).depth.toNat == (e.g.lane l).depth.toNat)
      (fun j => (s.descr e.md (fn j)).demand) _).2 l (List.mem_filter.2 ⟨hl, beq_self_eq_true _⟩)
  obtain ⟨f, hf, hs⟩ := hg.find hf1
  have hrec : f.recs.find l = some ⟨(e.g.lane l).nxt, BitVec.ofNat 16 (fn l)⟩ := by
    rw [hg.recs _ f1 f hf1 hf l, if_pos ⟨hl, rfl, rfl⟩]
  have hdem : s.demandAt e.md e.tm g l ((e.g.lane l).depth.toNat + 1) = (s.descr e.md (fn l)).demand := by
    unfold State.demandAt
    rw [if_neg (Nat.succ_ne_zero _), hf]
    simp only [hrec]
    rw [BitVec.toNat_ofNat, Nat.mod_eq_of_lt hfn]
  have hlanes := ho.arrived.lanes l (mem_lanesOf.2 (active_lane he hl).1) hlt
  obtain ⟨f', hf', hsize⟩ := ho.stays l _ f hf (by rw [hlanes.1]; exact hblk) (Nat.le_of_eq hdep.symm) (by rw [hdem]; exact hpos)
  rw [hdem] at hsize
  obtain ⟨f0, hf0, hrec', hbank⟩ := ho.frame _ f' hf'
  rw [hf] at hf0
  obtain rfl := Option.some.inj hf0
  refine ⟨by rw [hf', Option.map_some, hrec', hrec], fun j hj hj' => ?_⟩
  have hjs : j < f'.size := by
    refine lt_of_lt_of_le ?_ hsize
    rw [hs]
    have : (s.descr e.md (fn l)).demand / 8 ≤ callSize s e fn (e.g.lane l).depth.toNat / 8 := Nat.div_le_div_right hneed
    simp only at hsz
    omega
  rw [Group.bankAt, hf', Option.map_some, hbank l j (by omega) hjs, hg.bank _ f1 f hf1 hf l j (by omega),
    if_pos ⟨hl, rfl, Nat.zero_le _, by omega⟩]
  rfl

/-- A word that calls, from its checks to the end of its gang's pass. -/
theorem call_completes {i : Instr} {f : Env → Nat → Nat} {src : List (Nat × Nat)} {argRange : Bool}
    {args : Env → Nat → Descr → List Word} {s : State} {e : Env} {m : BitVec 8} (he : s.env m = some e)
    (hx : ∀ s', callBody f src argRange args e s = .ok s' → exec i s = .next (s'.endPass e))
    (hsrc : ∀ l ∈ e.lanes, e.laneEcc s.latent src l = false) (hlen : ∀ l fn, (args e l (s.descr e.md fn)).length ≤ 256)
    (hfn : ∀ l ∈ e.lanes, f e l < e.md.nDescrs ∧ (e.g.lane l).depth.toNat < 255 ∧
      ∀ fr, e.g.frames.find ((e.g.lane l).depth.toNat + 1) = some fr → fr.place = .pool)
    (h16 : ∀ l ∈ e.lanes, f e l < 2 ^ 16)
    (hargs : argRange = true → ∀ l ∈ e.lanes,
      (s.descr e.md (f e l)).argbase + (s.descr e.md (f e l)).nargs ≤ e.g.frameSize (e.g.lane l).depth.toNat ∧
      e.laneEcc s.latent [((s.descr e.md (f e l)).argbase, (s.descr e.md (f e l)).nargs)] l = false)
    (hq : e.tm.requests = []) (hsz : callGranules s e (f e) ≤ s.freeGranules e.g.team) {blk : Nat → BitVec 12}
    (hblk : blk = fun l => if l ∈ e.lanes then BitVec.ofNat 12 (s.descr e.md (f e l)).entry else votedBlk e l)
    (can : CanArrive s e blk)
    (hcount : ∀ fn l, (args e l (s.descr e.md fn)).length = passedCount i s e fn)
    (hpass : ∀ fn l j, j < passedCount i s e fn → (args e l (s.descr e.md fn)).getD j 0 = passedArg i s e fn l j) :
    Completes i s e fun t g' => Moved s t e g' ∧ Arrived s e blk g' ∧ g'.flags = e.g.flags ∧
      FramesKept s e (fun d l _ => l ∈ e.lanes ∧ d = (e.g.lane l).depth.toNat + 1) g' ∧
      (∀ l, l ∉ e.lanes → (g'.lane l).depth = (e.g.lane l).depth) ∧
      ∀ l ∈ e.lanes, (g'.lane l).depth.toNat = (e.g.lane l).depth.toNat + 1 ∧
        (blk l ≠ 0xFFF →
          (g'.frames.find ((e.g.lane l).depth.toNat + 1)).map (fun fr => fr.recs.find l) =
            some (some ⟨(e.g.lane l).nxt, BitVec.ofNat 16 (f e l)⟩) ∧
          ∀ j, j < passedCount i s e (f e l) → j < (s.descr e.md (f e l)).demand →
            g'.bankAt ((e.g.lane l).depth.toNat + 1) l j = some (passedArg i s e (f e l) l j)) := by
  subst hblk
  obtain ⟨s2, gg, g, ha, hb, hgg, hg⟩ := callBody_enters he hsrc hlen hfn hargs hq hsz
  have hover := hg.handsOver hgg he
  obtain ⟨t, g', ht, hg', ho⟩ := handsOver_completes he hx ha hb hover can
  refine ⟨t, g', ht, hg', ho.moved, ho.arrived, ho.flags, ho.kept, fun l hl => ?_, fun l hl => ?_⟩
  · rw [ho.depth, hover.other l hl]
  · obtain ⟨hd, hframe⟩ := hg.callees hgg he ho hl (h16 l hl) (hfn l hl).2.1
    refine ⟨hd, fun hne => ?_⟩
    obtain ⟨hrec, hbank⟩ := hframe hne
    refine ⟨hrec, fun j hj hj' => ?_⟩
    rw [hbank j (by rw [hcount]; exact hj) hj', hpass _ _ _ hj]

theorem length_natsFrom (i n : Nat) : (natsFrom i n).length = n := by
  rw [natsFrom_eq_range', List.length_range']

theorem callArgs_getD (e : Env) (l : Nat) (d : Descr) {j : Nat} (hj : j < d.nargs) :
    (callArgs e l d).getD j 0 = e.reg 1 l (d.argbase + j) := by
  unfold callArgs
  rw [List.getD_eq_getElem?_getD, List.getElem?_map, natsFrom_eq_range', List.getElem?_range' hj]
  simp

theorem callArgs_length (e : Env) (l : Nat) (d : Descr) : (callArgs e l d).length = d.nargs := by
  rw [callArgs, List.length_map, length_natsFrom]

/-- Settles O30: the callee's frames grow, each caller's lane hands its arguments and its record over in turn, and the
vote then finds the lanes at their entry blocks. -/
theorem callsEnterFunctions : Obligations.CallsEnterFunctions := by
  unfold Obligations.CallsEnterFunctions
  constructor
  · intro i h srcs f s e hc r fn depth blk hfn hecc htrap hq hsz can
    have hcall (i : Instr) (src : List (Nat × Nat)) (hi : ∀ x imm, i ≠ .trap x imm)
        (hfn : ∀ l ∈ e.lanes, fn l < e.md.nDescrs ∧ fn l < 2 ^ 16 ∧ depth l < 255 ∧
          ((∀ x imm, i ≠ .trap x imm) →
            (s.descr e.md (fn l)).argbase + (s.descr e.md (fn l)).nargs ≤ e.g.frameSize (depth l)) ∧
          ∀ fr, e.g.frames.find (depth l + 1) = some fr → fr.place = .pool)
        (hecc : (∀ x imm, i ≠ .trap x imm) → ∀ l ∈ e.lanes,
          e.laneEcc s.latent [((s.descr e.md (fn l)).argbase, (s.descr e.md (fn l)).nargs)] l = false)
        (hcount : ∀ k, passedCount i s e k = (s.descr e.md k).nargs)
        (hpass : ∀ k l j, passedArg i s e k l j = e.reg 1 l ((s.descr e.md k).argbase + j))
        (hsrc : ∀ l ∈ e.lanes, e.laneEcc s.latent src l = false)
        (hx : ∀ s', callBody f src true callArgs e s = .ok s' → exec i s = .next (s'.endPass e)) :=
      call_completes (f := f) (args := callArgs) r.env hx hsrc
        (fun l k => by
          rw [callArgs_length]
          exact le_of_lt (lt_of_lt_of_le (nargs_lt s e.md k) (by decide)))
        (fun l hl => ⟨(hfn l hl).1, (hfn l hl).2.2.1, (hfn l hl).2.2.2.2⟩) (fun l hl => (hfn l hl).2.1)
        (fun _ l hl => ⟨(hfn l hl).2.2.2.1 hi, hecc hi l hl⟩) hq hsz rfl can
        (fun k l => (callArgs_length _ _ _).trans (hcount k).symm)
        (fun k l j hj => (callArgs_getD _ _ _ ((hcount k) ▸ hj)).trans (hpass k l j).symm)
    cases i with
    | call x fidx =>
      cases hc
      exact hcall (.call h fidx) [] nofun hfn hecc (fun _ => rfl) (fun _ _ _ => rfl)
        (fun l _ => by simp [Env.laneEcc, Env.bankNames]) fun s' hb => termWord_runs r hb
    | calli x va =>
      cases hc
      exact hcall (.calli h va) [span false va] nofun hfn hecc (fun _ => rfl) (fun _ _ _ => rfl)
        (fun l hl => r.laneEcc hl) fun s' hb => termWord_runs r.unread hb
    | trap x imm =>
      cases hc
      obtain ⟨hne, hfun⟩ := htrap h imm rfl
      refine call_completes (i := .trap h imm) (f := fun _ _ => e.md.trap) (src := []) (argRange := false) (args := trapArgs imm) r.env (fun s' hb => ?_)
        (fun l _ => by simp [Env.laneEcc, Env.bankNames]) (fun _ _ => show 3 ≤ 256 by decide)
        (fun l hl => ⟨(hfn l hl).1, (hfn l hl).2.2.1, (hfn l hl).2.2.2.2⟩) (fun l hl => (hfn l hl).2.1) nofun hq hsz rfl can
        (fun _ _ => rfl) fun k l j hj => ?_
      · have hnil : e.lanes.isEmpty = false := by simpa using hne
        show execTrap h imm s = _
        rw [execTrap, wordAt_ready r (s' := s') (by simpa [hnil, hfun] using hb), correctReads_nil]
        simp [hnil]
      · have : j < 3 := hj
        interval_cases j <;> rfl
    | _ => cases hc
  · intro h imm s e r hl
    have hnil : e.lanes.isEmpty = true := by simp [hl]
    obtain ⟨g', hg', -, hs⟩ := noWrite_spared (f := id) (env_group r.env) rfl rfl (TailAt.retire (s.noWrite e id) e h 1)
    refine ⟨_, g', ?_, hg', hs⟩
    show execTrap h imm s = _
    rw [execTrap, wordAt_ready r (s' := s.noWrite e id) (by simp only [hnil, if_true]), correctReads_nil]
    simp only [hnil, if_true]

end Sys2Proof.Machine
end

section
/-! SUPPORT. `ret` and `unwind` (R138, R139). -/

namespace Sys2Proof.Machine

open Sys2Proof

/-- A word that uses frames of which none is spilled refills none. -/
theorem refillOf_none {g : Group} {ds : List Nat} (h : ∀ d ∈ ds, ∀ fr, g.frames.find d = some fr → fr.place = .pool) :
    refillOf g ds = (0, []) := by
  have : ds.filter g.isSpilled = [] := by
    refine List.filter_eq_nil_iff.2 fun d hd => ?_
    unfold Group.isSpilled
    cases hf : g.frames.find d with
    | none => simp
    | some fr => simp [Frame.inPool, h d hd fr hf]
  simp [refillOf, this]

theorem pred_depth {x : BitVec 8} (h : x.toNat ≠ 0) : (x - 1).toNat = x.toNat - 1 := by
  have hlt := x.isLt
  rw [BitVec.toNat_sub]
  show (2 ^ 8 - 1 + x.toNat) % 2 ^ 8 = _
  omega

/-- A lane that goes back to a block of its caller. -/
def Lane.returned (x : Lane) (block : BitVec 12) : Lane := { x with depth := x.depth - 1, nxt := block }

/-- One lane's return to its caller. -/
theorem return_handed {d base : Nat → Nat} {vs : Nat → List Word} {fl : Nat → Lane → Lane} (g : Group) (l : Nat) (block : BitVec 12)
    (hlen : base l + (vs l).length ≤ 256) (hfl : fl l = fun y => y.returned block) : Handed [l] d base vs (fun _ => none) fl g
      ((g.putRegs (d l) l (base l) (vs l)).onLanes fun i y => if i == l then y.returned block else y) := by
  obtain ⟨hp, hl⟩ := putRegs_passed g (d l) l (base l) (vs l)
  have hfr := frames_putRegs g (d l) l (base l) (vs l)
  revert hp hl hfr
  generalize g.putRegs (d l) l (base l) (vs l) = gp
  intro hp hl hfr
  have hlane (y : Nat) : gp.lane y = g.lane y := by rw [Group.lane, hl]; rfl
  have hframe {k : Nat} {f f' : Frame} (hf : g.frames.find k = some f) (hf' : gp.frames.find k = some f') :
      f' = if k = d l then f.holding l (base l) (vs l) else f := by
    rw [hfr, hf] at hf'
    by_cases hk : k = d l
    · rw [if_pos hk] at hf' ⊢
      exact (Option.some.inj hf').symm
    · rw [if_neg hk] at hf' ⊢
      exact (Option.some.inj hf').symm
  refine ⟨hp.trans rfl, by rw [length_lanes_onLanes, hl], fun y => ?_, fun k => ?_, fun k f f' hf hf' y r hr => ?_,
    fun k f f' hf hf' y => ?_⟩
  · rw [handOver_lane gp _ l y rfl, hl, hlane]
    by_cases hy : y = l
    · subst hy
      rw [hfl]
    · simp [hy]
  · show (gp.frames.find k).map _ = _
    rw [hfr]
    split
    · rw [Option.map_map]
      rfl
    · rfl
  · rw [hframe hf hf']
    by_cases hk : k = d l
    · rw [if_pos hk, bank_holding f l (base l) (vs l) hlen y r hr]
      by_cases hy : y = l
      · subst hy
        simp [hk]
      · simp [hy]
    · rw [if_neg hk, if_neg]
      rintro ⟨hy, hk', -⟩
      exact hk (List.mem_singleton.1 hy ▸ hk')
  · rw [if_neg fun h => absurd h.2.2 (by simp), hframe hf hf']
    split <;> rfl

/-- A lane that unwinds to a depth. -/
def Lane.unwound (x : Lane) (depth : BitVec 8) (block : BitVec 12) : Lane := { x with depth := depth, nxt := block }

theorem moved_active {s : State} {m : BitVec 8} {e : Env} (he : s.env m = some e) {l : Nat} (hl : l ∈ e.lanes) {x : Lane}
    (hb : x.blk = (e.g.lane l).blk) (hp : x.park = (e.g.lane l).park) : x.moved.blk = x.nxt := by
  obtain ⟨-, hlive, hpark⟩ := active_lane he hl
  have hx : x.live = true := by
    rw [Lane.live, hb]
    exact hlive
  unfold Lane.moved
  rw [hx, hp, hpark]
  rfl

/-- The lanes that a `ret` takes back to a caller. -/
def Env.returning (e : Env) : List Nat := e.lanes.filter fun l => (e.g.lane l).depth != 0

theorem mem_returning {e : Env} {l : Nat} : l ∈ e.returning ↔ l ∈ e.lanes ∧ (e.g.lane l).depth.toNat ≠ 0 := by
  unfold Env.returning
  rw [List.mem_filter]
  simp [BitVec.toNat_eq]

/-- What a `ret` makes of its group's frames and returning lanes. -/
def Returned (s : State) (e : Env) (g g' : Group) : Prop :=
  Handed e.returning (fun l => (e.g.lane l).depth.toNat - 1) (fun l => (s.descr e.md (e.g.recOf l).fn.toNat).argbase)
    (fun l => (natsFrom 0 (s.descr e.md (e.g.recOf l).fn.toNat).nres).map fun r => e.reg 0 l r) (fun _ => none)
    (fun l x => x.returned (e.g.recOf l).block) g g'

/-- A `ret` whose checks pass hands its results over and votes. -/
theorem ret_returns {h : Hdr} {s : State} {e : Env} (r : Ready h none [] [] s e) (h256 : ∀ k, e.g.frameSize k ≤ 256)
    (hback : ∀ l ∈ e.returning, (s.descr e.md (e.g.recOf l).fn.toNat).argbase + (s.descr e.md (e.g.recOf l).fn.toNat).nres ≤
        e.g.frameSize ((e.g.lane l).depth.toNat - 1) ∧
      e.laneEcc s.latent [(0, (s.descr e.md (e.g.recOf l).fn.toNat).nres)] l = false ∧
      ∀ fr, e.g.frames.find ((e.g.lane l).depth.toNat - 1) = some fr → fr.place = .pool) :
    ∃ s2 g body, Aside e.gk s s2 ∧ Returned s e e.g g ∧ exec (.ret h) s = termWord h [] [] body s ∧
      body e s = s2.terminate e (g.setNxt (e.lanes.filter fun l => (e.g.lane l).depth == 0) fun _ => deadBlk) := by
  let d (l : Nat) : Descr := s.descr e.md (e.g.recOf l).fn.toNat
  have hfault : (e.returning.find? fun l => (if e.g.frameSize ((e.g.lane l).depth.toNat - 1) < (d l).argbase + (d l).nres
      then some cFRAMERANGE else if e.laneEcc s.latent [(0, (d l).nres)] l then some cECCFATAL
      else none : Option Nat).isSome) = none := by
    refine List.find?_eq_none.2 fun l hl => ?_
    obtain ⟨h1, h2, -⟩ := hback l hl
    rw [if_neg (Nat.not_lt.2 h1), if_neg (by simp [d, h2])]
    decide
  have hrefill : refillOf e.g ((e.g.depthsOf e.returning).map (· - 1)) = (0, []) := by
    refine refillOf_none fun k hk fr hfr => ?_
    obtain ⟨j, hj, rfl⟩ := List.mem_map.1 hk
    obtain ⟨l, hl, rfl⟩ := mem_depthsOf.1 hj
    exact (hback l hl).2.2 fr hfr
  let s0 : State := s.onTeam e.g.team fun tm => tm.dropRequests e.gk e.run.tag
  have hgroup : (s.onTeam e.g.team fun tm => tm.dropRequests e.gk e.run.tag).group e.gk = some e.g := env_group (s := s) r.env
  let results (l : Nat) : List Word := (natsFrom 0 (d l).nres).map fun r => e.reg 0 l r
  let step (g : Group) (l : Nat) : Group :=
    (g.putRegs ((e.g.lane l).depth.toNat - 1) l (d l).argbase (results l)).onLanes fun i y =>
      if i == l then y.returned (e.g.recOf l).block else y
  have hg : Returned s e e.g (e.returning.foldl step e.g) :=
    Handed.foldl (g0 := e.g) (step := step) ((nodup_lanes r.env).filter _) (fun l hl x _ =>
      return_handed (d := fun l => (e.g.lane l).depth.toNat - 1) (base := fun l => (d l).argbase) (vs := results)
        (fl := fun l x => x.returned (e.g.recOf l).block) x l (e.g.recOf l).block (by
        have h1 := (hback l hl).1
        have h2 := h256 ((e.g.lane l).depth.toNat - 1)
        simp only [results, List.length_map, length_natsFrom, d]
        omega) rfl) fun _ _ => rfl
  let names : List Nat := e.returning.flatMap fun l => e.bankNames l [(0, (d l).nres)]
  let new : List Nat := e.returning.flatMap fun l => (natsFrom (d l).argbase (d l).nres).map
    (latentReg e.gk ((e.g.lane l).depth.toNat - 1) l)
  refine ⟨(s0.correctRegs e.core names).clearLatent new, _, _, ?_, hg, Eq.refl (execRet h s), ?_⟩
  · exact ((dropRequests_aside s _ _ _ _).trans (correctRegs_aside _ _ _ _)).trans (clearLatent_aside _ _ _)
  · simp only [← show e.returning = e.lanes.filter fun l => (e.g.lane l).depth != 0 from rfl]
    simp only [d] at hfault
    simp only [hfault, hrefill, demandFrames_nothing, hgroup]
    simp only [List.foldl_map]
    rfl

theorem lanes_setNxt_passed (g : Group) (lanes : List Nat) (f : Nat → BitVec 12) : Passed g (g.setNxt lanes f) := rfl

/-- The block of each lane of a gang once its `ret` has voted. -/
def returnBlk (e : Env) (l : Nat) : BitVec 12 :=
  if l ∈ e.lanes then (if (e.g.lane l).depth.toNat = 0 then 0xFFF else (e.g.recOf l).block) else votedBlk e l

theorem Returned.handsOver {s : State} {e : Env} {m : BitVec 8} {g : Group} (he : s.env m = some e) (hg : Returned s e e.g g) :
    HandsOver e (fun k l r => (l ∈ e.lanes ∧ (e.g.lane l).depth.toNat ≠ 0) ∧ k = (e.g.lane l).depth.toNat - 1 ∧
        (s.descr e.md (e.g.recOf l).fn.toNat).argbase ≤ r ∧
        r < (s.descr e.md (e.g.recOf l).fn.toNat).argbase + (s.descr e.md (e.g.recOf l).fn.toNat).nres) (returnBlk e)
      (g.setNxt (e.lanes.filter fun l => (e.g.lane l).depth == 0) fun _ => deadBlk) := by
  have hzero (l : Nat) : l ∈ (e.lanes.filter fun l => (e.g.lane l).depth == 0) ↔ l ∈ e.lanes ∧ (e.g.lane l).depth.toNat = 0 := by
    rw [List.mem_filter]
    simp [BitVec.toNat_eq]
  refine ⟨hg.rest.trans (lanes_setNxt_passed _ _ _), (length_lanes_onLanes _ _).trans hg.length, fun l hl => ?_, fun l hl => ?_,
    fun l hl => (if_neg hl).symm, fun k f hf => ?_⟩
  · rw [lane_setNxt, if_neg fun h => hl ((hzero l).1 h.2).1, hg.lane, if_neg fun h => hl (mem_returning.1 h.1).1]
  · have hlt := active_lane_lt he hl
    unfold returnBlk
    rw [if_pos hl, lane_setNxt, hg.lane, hg.length]
    by_cases h0 : (e.g.lane l).depth.toNat = 0
    · rw [if_pos ⟨hlt, (hzero l).2 ⟨hl, h0⟩⟩, if_neg fun h => (mem_returning.1 h.1).2 h0, if_pos h0]
      exact moved_active he hl rfl rfl
    · rw [if_neg fun h => h0 ((hzero l).1 h.2).2, if_pos ⟨mem_returning.2 ⟨hl, h0⟩, hlt⟩, if_neg h0]
      exact moved_active he hl rfl rfl
  · obtain ⟨f', hf', hs⟩ := hg.find hf
    refine ⟨f', hf', Nat.le_of_eq hs.symm, fun l r hr _ hw => ?_, fun l _ => ?_⟩
    · rw [hg.bank k f f' hf hf' l r hr, if_neg]
      rintro ⟨h1, h2, h3, h4⟩
      exact hw ⟨mem_returning.1 h1, h2, h3, by simpa only [List.length_map, length_natsFrom] using h4⟩
    · rw [hg.recs k f f' hf hf' l, if_neg fun h => absurd h.2.2 (by simp)]

/-- An `unwind` sets depth and `nxt` of its active lanes alone. -/
theorem unwind_handsOver {s : State} {m : BitVec 8} {e : Env} (he : s.env m = some e) (goal : Nat → Nat) (b : BitVec 12) :
    HandsOver e (fun _ _ _ => False) (fun l => if l ∈ e.lanes then b else votedBlk e l)
      (e.g.onLanes fun i x => if e.lanes.contains i then x.unwound (BitVec.ofNat 8 (goal i)) b else x) := by
  refine ⟨rfl, length_lanes_onLanes _ _, fun l hl => ?_, fun l hl => ?_, fun l hl => (if_neg hl).symm,
    fun k f hf => ⟨f, hf, le_rfl, fun _ _ _ _ _ => rfl, fun _ _ => rfl⟩⟩
  · rw [lane_onLanes]
    split
    · simp [hl]
    · next h => rw [lane_beyond (not_lt.1 h)]
  · rw [lane_onLanes, if_pos (active_lane_lt he hl), if_pos (List.contains_iff_mem.2 hl), if_pos hl]
    exact moved_active he hl rfl rfl

/-- Settles O31: `ret` hands its results to the callers' frames and `unwind` moves lanes alone; both then vote. -/
theorem returnsAndUnwinds : Obligations.ReturnsAndUnwinds := by
  unfold Obligations.ReturnsAndUnwinds
  constructor
  · intro h s e r depth rec' d back blk h256 hback can
    obtain ⟨s2, g, body, ha, hg, hx, hb⟩ := ret_returns r h256 fun l hl => hback l (mem_returning.1 hl)
    obtain ⟨t, g', ht, hg', ho⟩ := handsOver_completes r.env (fun s' hb' => hx.trans (termWord_runs r hb')) ha hb
      (hg.handsOver r.env) can
    have hgl (l : Nat) : (g'.lane l).depth = (g.lane l).depth := by
      rw [ho.depth, lane_setNxt]
      split <;> rfl
    refine ⟨t, g', ht, hg', ho.moved, ho.arrived, ho.flags, ho.kept, fun l hl => ?_, fun l hl => ?_⟩
    · rw [hgl, hg.lane, if_neg fun h => hl (mem_returning.1 h.1)]
    · rw [hgl, hg.lane, if_pos ⟨mem_returning.2 hl, active_lane_lt r.env hl.1⟩]
      refine ⟨pred_depth hl.2, fun j fr hj hfr hlt => ?_⟩
      obtain ⟨f, hf, -, hbank⟩ := ho.frame _ fr hfr
      change g.frames.find _ = some f at hf
      obtain ⟨f0, hf0⟩ : ∃ f0, e.g.frames.find (depth l - 1) = some f0 := by
        have := hg.frames (depth l - 1)
        rw [hf] at this
        cases h0 : e.g.frames.find (depth l - 1) with
        | none => rw [h0] at this; cases this
        | some f0 => exact ⟨f0, rfl⟩
      have hr : (d l).argbase + j < 256 := by
        have h1 := (hback l hl).1
        have h2 := h256 (depth l - 1)
        omega
      rw [hbank l _ hr hlt, hg.bank _ f0 f hf0 hf l _ hr, if_pos ⟨mem_returning.2 hl, rfl, Nat.le_add_right _ _, by
        rw [List.length_map, length_natsFrom]
        exact Nat.add_lt_add_left hj _⟩, Nat.add_sub_cancel_left,
        List.getD_eq_getElem?_getD, List.getElem?_map, natsFrom_eq_range', List.getElem?_range' hj]
      simp
  · intro h va b s e r goal blk
    refine ⟨fun hgoal can => ?_, fun l hl hlt hlow => ?_⟩
    · have hfault : (e.lanes.find? fun l => (if e.laneEcc s.latent [span false va] l then some cECCFATAL
          else if (e.g.lane l).depth.toNat < goal l then some cCALLDEPTH else none : Option Nat).isSome) = none := by
        refine List.find?_eq_none.2 fun l hl => ?_
        rw [r.laneEcc hl, if_neg (by decide), if_neg (Nat.not_lt.2 (hgoal l hl).1)]
        decide
      have hrefill : refillOf e.g (dedup (e.lanes.map goal)) = (0, []) := by
        refine refillOf_none fun k hk fr hfr => ?_
        rw [mem_dedup] at hk
        obtain ⟨l, hl, rfl⟩ := List.mem_map.1 hk
        exact (hgoal l hl).2 fr hfr
      have hgroup : (s.onTeam e.g.team fun tm => tm.dropRequests e.gk e.run.tag).group e.gk = some e.g := env_group (s := s) r.env
      have hover := unwind_handsOver r.env goal b
      have ha : Aside e.gk s ((s.onTeam e.g.team fun tm => tm.dropRequests e.gk e.run.tag).correctReads e [span false va]) :=
        (dropRequests_aside s _ _ _ _).trans (correctRegs_aside _ _ _ _)
      obtain ⟨t, g', ht, hg', ho⟩ := handsOver_completes (i := .unwind h va b) r.env
        (fun s' hb' => (Eq.refl (execUnwind h va b s)).trans (termWord_runs r.unread hb')) ha (by
          simp only [goal] at hfault hrefill
          simp only [hfault, hrefill, demandFrames_nothing, hgroup]
          rfl) hover can
      refine ⟨t, g', ht, hg', ho.moved, ho.arrived, ho.flags, ho.kept, fun l => ?_⟩
      rw [ho.depth]
      by_cases hl : l ∈ e.lanes
      · rw [lane_onLanes, if_pos (active_lane_lt r.env hl), if_pos (List.contains_iff_mem.2 hl), if_pos hl]
        show (BitVec.ofNat 8 (goal l)).toNat = goal l
        rw [BitVec.toNat_ofNat]
        exact Nat.mod_eq_of_lt (lt_of_le_of_lt (hgoal l hl).1 (e.g.lane l).depth.isLt)
      · rw [if_neg hl, hover.other l hl]
    · have hfind : (e.lanes.find? fun l => (if e.laneEcc s.latent [span false va] l then some cECCFATAL
          else if (e.g.lane l).depth.toNat < goal l then some cCALLDEPTH else none : Option Nat).isSome) = some l := by
        refine find_lowest (env_lanes_pairwise_lt r.env) hl ?_ fun j hj hjl => ?_
        · rw [r.laneEcc hl, if_neg (by decide), if_pos hlt]
          rfl
        · rw [r.laneEcc hj, if_neg (by decide), if_neg (Nat.not_lt.2 (hlow j hj hjl))]
          rfl
      have hx : execUnwind h va b s = .next (s.takeFault e.gk e.run.tag (wfault cCALLDEPTH l)) := by
        unfold execUnwind termWord
        refine wordAt_bad r.unread ?_
        simp only [goal] at hfind hlt
        simp only [hfind, r.laneEcc hl, if_pos hlt]
        rfl
      exact ⟨_, hx, takeFault_taken r.env _⟩

end Sys2Proof.Machine
end

section
/-! SUPPORT. The checks of an address in their order (R142 to R144, R148). -/

namespace Sys2Proof.Machine

open Sys2Proof

/-! ## Addresses without a window (R142) -/

theorem windowOf_glob {ea : Nat} (top : ea / 2 ^ 56 = 0) : windowOf ea = some (.glob ea) := by
  have hb : bitsOf ea 63 56 = 0 := by
    show ea / 2 ^ 56 % 2 ^ 8 = _
    omega
  have ho : bitsOf ea 55 0 = ea := by
    show ea / 2 ^ 0 % 2 ^ 56 = _
    omega
  simp [windowOf, hb, ho]

theorem windowOf_priv {ea : Nat} (top : ea / 2 ^ 56 = 0xA1) (high : ea / 2 ^ 32 % 2 ^ 24 = 0) :
    windowOf ea = some (.priv (ea % 2 ^ 32)) := by
  simp_all [windowOf, bitsOf]

theorem windowOf_top {ea : Nat} (h : ea < 2 ^ 64)
    (top : ea / 2 ^ 56 ≠ 0 ∧ ea / 2 ^ 56 ≠ 0xA1 ∧ ea / 2 ^ 56 ≠ 0xA2 ∧ ea / 2 ^ 56 ≠ 0xA3 ∧ ea / 2 ^ 56 ≠ 0xA4) :
    windowOf ea = none := by
  have hb : bitsOf ea 63 56 = ea / 2 ^ 56 := by
    show ea / 2 ^ 56 % 2 ^ 8 = _
    omega
  unfold windowOf
  rw [hb]
  split <;> first | omega | rfl

theorem windowOf_reserved {ea : Nat}
    (h : (ea / 2 ^ 56 = 0xA1 ∧ ea / 2 ^ 32 % 2 ^ 24 ≠ 0) ∨
      ((ea / 2 ^ 56 = 0xA2 ∨ ea / 2 ^ 56 = 0xA3 ∨ ea / 2 ^ 56 = 0xA4) ∧ ea / 2 ^ 48 % 2 ^ 8 ≠ 0) ∨
      (ea / 2 ^ 56 = 0xA2 ∧ ea / 2 ^ 24 % 2 ^ 15 ≠ 0) ∨
      ((ea / 2 ^ 56 = 0xA3 ∨ ea / 2 ^ 56 = 0xA4) ∧ ea / 2 ^ 24 % 2 ^ 17 ≠ 0)) : windowOf ea = none := by
  rcases h with ⟨top, h⟩ | ⟨top | top | top, h⟩ | ⟨top, h⟩ | ⟨top | top, h⟩ <;> simp_all [windowOf, bitsOf]

theorem windowOf_spad_beyond {ea : Nat} (top : ea / 2 ^ 56 = 0xA2) (tag : 384 ≤ ea / 2 ^ 39 % 2 ^ 9) : windowOf ea = none := by
  have hb : bitsOf ea 63 56 = 0xA2 := by
    show ea / 2 ^ 56 % 2 ^ 8 = _
    omega
  have ht : decide (bitsOf ea 47 39 < 384) = false := decide_eq_false (Nat.not_lt.2 tag)
  simp [windowOf, hb, ht]

theorem windowOf_clu_beyond {ea : Nat} (top : ea / 2 ^ 56 = 0xA3) (tag : 96 ≤ ea / 2 ^ 41 % 2 ^ 7) : windowOf ea = none := by
  have hb : bitsOf ea 63 56 = 0xA3 := by
    show ea / 2 ^ 56 % 2 ^ 8 = _
    omega
  have ht : decide (bitsOf ea 47 41 < 96) = false := decide_eq_false (Nat.not_lt.2 tag)
  simp [windowOf, hb, ht]

theorem windowOf_vault_beyond {ea : Nat} (top : ea / 2 ^ 56 = 0xA4) (tag : 24 ≤ ea / 2 ^ 41 % 2 ^ 5) : windowOf ea = none := by
  have hb : bitsOf ea 63 56 = 0xA4 := by
    show ea / 2 ^ 56 % 2 ^ 8 = _
    omega
  have ht : decide (bitsOf ea 45 41 < 24) = false := decide_eq_false (Nat.not_lt.2 tag)
  simp [windowOf, hb, ht]

/-! ## The checks behind the window (R143, R144, R148) -/

section
variable {s : State} {p : Party} {who ea n : Nat} {write fe : Bool}

theorem checkAddress_noWindow {align : Nat} (h : windowOf ea = none) :
    s.checkAddress p who ea n align write fe = .bad cSPACEINVALID := by
  rw [State.checkAddress, h]

theorem checkAddress_spad {align core off : Nat} (h : windowOf ea = some (.spad core off)) :
    s.checkAddress p who ea n align write fe =
      if core ≠ p.core then .bad cSPACEFOREIGN
      else if off % align ≠ 0 then .bad cALIGN
      else if p.tm.sUnits * 65536 < off + n then .bad cPROT
      else .ok (vaultKey (clusterOf p.tm.core) (p.tm.sUnit * 65536 + off)) true [] := by
  by_cases hc : core = p.core
  · by_cases ha : off % align = 0
    · simp only [State.checkAddress, h, Win.foreign, Win.offset, Win.isVault, hc, ha, bne_self_eq_false, Bool.false_eq_true,
        if_false, Bool.not_true, Bool.and_false, ne_eq, not_true_eq_false]
      rfl
    · simp [State.checkAddress, h, Win.foreign, Win.offset, hc, ha]
  · simp [State.checkAddress, h, Win.foreign, hc]

theorem checkAddress_clu {align cluster off : Nat} (h : windowOf ea = some (.clu cluster off)) :
    s.checkAddress p who ea n align write fe =
      if cluster ≠ clusterOf p.core then .bad cSPACEFOREIGN
      else if off % align ≠ 0 then .bad cALIGN
      else if p.la.shared.2 < off + n then .bad cPROT
      else .ok (vaultKey cluster (p.la.shared.1 + off)) true [] := by
  simp [State.checkAddress, h, Win.foreign, Win.offset, Win.isVault]

theorem checkAddress_glob {align va : Nat} (h : windowOf ea = some (.glob va)) :
    s.checkAddress p who ea n align write fe =
      if va % align ≠ 0 then .bad cALIGN
      else if fe = true then .bad cPROT
      else s.checkGlobal p.la.ctx who va write := by
  simp [State.checkAddress, h, Win.foreign, Win.offset, Win.isVault]

theorem checkAddress_priv {align off : Nat} (h : windowOf ea = some (.priv off)) :
    s.checkAddress p who ea n align write fe =
      if off % align ≠ 0 then .bad cALIGN
      else if fe = true then .bad cPROT
      else if p.private0.2 < off + n then .bad cPROT
      else s.checkGlobal p.la.ctx who ((p.private0.1 + off) % 2 ^ 56) write := by
  simp [State.checkAddress, h, Win.foreign, Win.offset, Win.isVault]

end

/-- Settles O35: what `windowOf` makes of an address, then the checks of each window. -/
theorem addressChecksInOrder : Obligations.AddressChecksInOrder := by
  unfold Obligations.AddressChecksInOrder
  intro s p who ea n write fe hea top off core cluster chk
  refine ⟨fun h => checkAddress_noWindow (windowOf_top hea h), fun h => checkAddress_noWindow (windowOf_reserved h),
    fun htop high low => ?_, fun htop high low => ?_, fun htop high low => ?_, fun htop => ?_, fun htop high => ?_⟩
  · by_cases tag : 384 ≤ core
    · rw [if_pos tag]
      exact checkAddress_noWindow (windowOf_spad_beyond htop tag)
    · have hc : chk = _ := checkAddress_spad (windowOf_spad htop high low (not_le.1 tag))
      rw [if_neg tag, hc]
      by_cases h1 : core ≠ p.core
      · rw [if_pos h1, if_pos h1]
        rfl
      · rw [if_neg h1, if_neg h1]
        by_cases h2 : off % n ≠ 0
        · rw [if_pos h2, if_pos h2]
          rfl
        · rw [if_neg h2, if_neg h2]
          split <;> rfl
  · by_cases tag : 96 ≤ cluster
    · rw [if_pos tag]
      exact checkAddress_noWindow (windowOf_clu_beyond htop tag)
    · have hc : chk = _ := checkAddress_clu (windowOf_clu htop high low (not_le.1 tag))
      rw [if_neg tag, hc]
      by_cases h1 : cluster ≠ p.core / 4
      · rw [if_pos h1, if_pos (show cluster ≠ clusterOf p.core from h1)]
        rfl
      · rw [if_neg h1, if_neg (show ¬ cluster ≠ clusterOf p.core from h1)]
        by_cases h2 : off % n ≠ 0
        · rw [if_pos h2, if_pos h2]
          rfl
        · rw [if_neg h2, if_neg h2]
          unfold Launch.shared
          cases p.la.cb with
          | none => exact fun h => if_pos h
          | some cb =>
            show if field p.la.record 0x24 4 < off + n then _ else _
            split
            · exact if_pos ‹_›
            · exact if_neg ‹_›
  · intro vault
    by_cases tag : 24 ≤ ea / 2 ^ 41 % 2 ^ 5
    · rw [if_pos tag]
      exact checkAddress_noWindow (windowOf_vault_beyond htop tag)
    · have hc : chk = _ := checkAddress_vault (windowOf_vault htop high low (not_le.1 tag))
      rw [if_neg tag, hc]
      by_cases h1 : off % n ≠ 0
      · rw [if_pos h1, if_pos h1]
        rfl
      · rw [if_neg h1, if_neg h1]
        by_cases hv : s.vaultAllowed p.la vault off n = true
        · rw [if_neg (by simp [hv])]
          exact if_pos hv
        · rw [if_pos (by simpa using hv)]
          exact if_neg hv
  · have hc : chk = _ := checkAddress_glob (windowOf_glob htop)
    rw [hc]
    by_cases h1 : ea % n ≠ 0
    · rw [if_pos h1, if_pos h1]
      rfl
    · rw [if_neg h1, if_neg h1]
      exact fun hfe => if_pos hfe
  · have hc : chk = _ := checkAddress_priv (windowOf_priv htop high)
    rw [hc]
    by_cases h1 : ea % 2 ^ 32 % n ≠ 0
    · rw [if_pos h1, if_pos h1]
      rfl
    · rw [if_neg h1, if_neg h1]
      by_cases hfe : fe = true
      · rw [if_pos (.inl hfe), if_pos hfe]
        rfl
      · rw [if_neg hfe]
        by_cases hps : field p.la.record 0x20 4 < ea % 2 ^ 32 + n
        · rw [if_pos (.inr hps)]
          exact if_pos hps
        · rw [if_neg (fun h => h.elim hfe hps)]
          intro va hva
          rw [hva]
          exact if_neg hps

end Sys2Proof.Machine
end

section
/-! SUPPORT. Access words issue (R84, R148, R154, R290, R291). -/

namespace Sys2Proof.Machine

open Sys2Proof

/-! ## What memory reads does not depend on groups and records -/

/-- The machine with other groups and records. -/
def State.aside (s : State) (gs : KMap Group) (rs : List FaultRec) : State := { s with groups := gs, records := rs }

section
variable (s : State) (gs : KMap Group) (rs : List FaultRec)

theorem correctHome_aside (a n : Nat) : (s.aside gs rs).correctHome a n = (s.correctHome a n).aside gs rs := by
  unfold State.correctHome
  simp only [show (s.aside gs rs).latent = s.latent from rfl]
  by_cases h : isVaultKey a = true
  · simp only [h, if_true]
    cases hl : s.latent.granules1.filter fun g => decide (a / 16 ≤ g) && decide (g ≤ (a + n - 1) / 16) <;> rfl
  · simp only [h]
    cases hl : s.latent.blocks1.filter fun b => decide (b * 32 < a + n) && decide (a < b * 32 + 32) <;> rfl

theorem setGrans_aside (is : List Nat) (b : Nat) (x : Nat → Gran) :
    is.foldl (fun t i => t.setGran (b + i) (x i)) (s.aside gs rs) =
      (is.foldl (fun t i => t.setGran (b + i) (x i)) s).aside gs rs := by
  induction is generalizing s with
  | nil => rfl
  | cons i is ih => exact ih (s.setGran (b + i) (x i))

theorem pulled_aside (m : Memory) (p : List Nat) (ms : KMap Mig) :
    ({ s.aside gs rs with mem := m, poison := p, migs := ms } : State) =
      ({ s with mem := m, poison := p, migs := ms } : State).aside gs rs := rfl

theorem pullLine_aside (id line : Nat) : (s.aside gs rs).pullLine id line = (s.pullLine id line).aside gs rs := by
  unfold State.pullLine
  simp only [show (s.aside gs rs).migs = s.migs from rfl, show ∀ k, (s.aside gs rs).liveKey k = s.liveKey k from fun _ => rfl,
    correctHome_aside]
  cases s.migs.find id with
  | none => rfl
  | some m =>
    simp only
    split
    · rfl
    · generalize s.correctHome (s.liveKey (m.old + 128 * line)) 128 = t
      rw [pulled_aside, show (t.aside gs rs).granAt = t.granAt from rfl, show (t.aside gs rs).readBytes = t.readBytes from rfl,
        show (t.aside gs rs).poison = t.poison from rfl]
      exact setGrans_aside _ gs rs _ _ fun i => t.granAt (s.liveKey (m.old + 128 * line) / 16 + i)

theorem touchFrom_aside (fuel pa : Nat) : (s.aside gs rs).touchFrom fuel pa = (s.touchFrom fuel pa).aside gs rs := by
  induction fuel generalizing pa with
  | zero => rfl
  | succ fuel ih =>
    simp only [State.touchFrom, show (s.aside gs rs).migs = s.migs from rfl, ih, pullLine_aside]
    cases s.migs.vals.find? fun m => m.forwards pa with
    | some m => rfl
    | none => cases s.migs.vals.find? fun m => m.lacks pa <;> rfl

theorem walked_aside (ts : List TlbEntry) : (s.aside gs rs).walked ts = (s.walked ts).aside gs rs := by
  unfold State.walked
  generalize ts.flatMap (·.via) = as
  induction as generalizing s with
  | nil => rfl
  | cons a as ih =>
    rw [List.foldl_cons, List.foldl_cons, ← ih]
    congr 1
    have ht : (s.aside gs rs).touch a = (s.touch a).aside gs rs := touchFrom_aside s gs rs _ a
    simp only [ht]
    exact correctHome_aside _ _ _ _ _

theorem fillTlb_aside (ts : List TlbEntry) : (s.aside gs rs).fillTlb ts = (s.fillTlb ts).aside gs rs := by
  unfold State.fillTlb
  rw [walked_aside]
  rfl

end

/-! ## Words that change their group and more -/

theorem stepped_spared {s1 s3 t : State} {e : Env} {g0 g1 : Group} {banked windowed : Nat → Nat → Prop} (ha : Aside e.gk s1 s3)
    (hg : s3.group e.gk = some g1) (T : TailAt e.gk s3 t) (hlanes : g1.lanes = g0.lanes) (hslices : g1.slices = g0.slices)
    (hspecial : (g1.mode, g1.flags, g1.absent, g1.crew) = (g0.mode, g0.flags, g0.absent, g0.crew))
    (hregions : (g1.regions, g1.regOverflow) = (g0.regions, g0.regOverflow))
    (hcounters : (g1.loads, g1.stores, g1.engine, g1.tile) = (g0.loads, g0.stores, g0.engine, g0.tile))
    (hframes : g1.frames = e.g.frames)
    (hwindow : ∀ l r, r < 256 → ¬ windowed l r → g1.seen l r = windowRead (e.g.window.take 6) l r) :
    ∃ g', t.group e.gk = some g' ∧ Tail g1 g' ∧ Spared s1 t e g0 banked windowed g' := by
  obtain ⟨g', hg', T'⟩ := T.group _ hg
  refine ⟨g', hg', T', State.sameBut_trans ha.rest T.rest, fun k => (T.teams k).trans (ha.teams k), fun k hk => ?_,
    T'.lanes.trans hlanes, ?_, T'.special.trans hspecial, T'.regions.trans hregions, T'.counters.trans hcounters,
    fun d => (T'.still d).trans ?_, fun d l r _ _ => (T'.bank d l r).trans ?_, fun l r hr hw => ?_⟩
  · rw [T.others k hk, ha.others k hk]
  · rw [T'.slices, hslices]
  · rw [hframes]
  · rw [Group.bankAt, hframes]
    rfl
  · rw [Group.seen, T'.window]
    exact hwindow l r hr hw

/-- What the window gives behind the entry of an asynchronous word. -/
theorem seen_winAsync {g : Group} {regs lanes : List Nat} {l r : Nat} :
    (g.pushWindow (winAsync regs lanes)).seen l r =
      if l ∈ lanes ∧ r ∈ regs then none else windowRead (g.window.take 6) l r := by
  show windowRead ((winAsync regs lanes :: g.window).take 7) l r = _
  rw [List.take_succ_cons]
  by_cases h : l ∈ lanes ∧ r ∈ regs
  · rw [if_pos h]
    simp [windowRead, winAsync, h.1, h.2]
  · rw [if_neg h]
    exact windowRead_winAsync_of_not_mem h

theorem seen_winEntry_nil {g : Group} {l r : Nat} : (g.pushWindow (winEntry [])).seen l r = windowRead (g.window.take 6) l r := by
  show windowRead ((winEntry [] :: g.window).take 7) l r = _
  rw [List.take_succ_cons]
  exact windowRead_winEntry_none fun w hw => absurd hw List.not_mem_nil

/-! ## Lanes that pass their checks (R148) -/

/-- What the checks of lanes that pass give: an access for each, in order. -/
theorem checkLanes_ok {chk : Nat → Nat → Chk} {ea : Nat → Nat} {more : Nat → Nat → Nat → Option Nat}
    {mk : Nat → Nat → Nat → Bool → LaneAcc} {ls : List Nat}
    (h : ∀ l ∈ ls, ∃ t nc fill, laneVerdict chk ea more l = .ok t nc fill) (hmk : ∀ l a t nc, (mk l a t nc).lane = l) :
    ∃ accs fill, checkLanes chk ea more mk ls = .ok accs fill ∧ accs.map (·.lane) = ls ∧ (ls = [] → fill = []) ∧
      ∀ x ∈ accs, x.lane ∈ ls ∧ ∃ t nc fill, laneVerdict chk ea more x.lane = .ok t nc fill ∧ x = mk x.lane (ea x.lane) t nc := by
  induction ls with
  | nil => exact ⟨[], [], rfl, rfl, fun _ => rfl, fun _ h => nomatch h⟩
  | cons l ls ih =>
    obtain ⟨t, nc, fill, hl⟩ := h l List.mem_cons_self
    obtain ⟨accs, fills, hc, hmap, -, hall⟩ := ih fun j hj => h j (List.mem_cons_of_mem _ hj)
    obtain ⟨hchk, hmore⟩ := laneVerdict_ok hl
    refine ⟨mk l (ea l) t nc :: accs, fill ++ fills, ?_, ?_, nofun, fun x hx => ?_⟩
    · simp only [checkLanes, hchk, hmore, hc]
    · rw [List.map_cons, hmap, hmk]
    · rcases List.mem_cons.1 hx with rfl | hx
      · rw [hmk]
        exact ⟨List.mem_cons_self, t, nc, fill, hl, rfl⟩
      · obtain ⟨h1, h2⟩ := hall x hx
        exact ⟨List.mem_cons_of_mem _ h1, h2⟩

/-! ## Watchpoints that do not stop (R347) -/

/-- No access of a launch meets a stop where none of its watchpoints stops. -/
theorem watchParts_stop {s : State} {ctx kind : Nat} {parts : List (Nat × Nat)} (hs : s.noStops ctx) {i m : Nat} {w : Watch}
    (h : s.watchParts ctx kind parts = some (i, w, m)) : w.stop = false := by
  have hmem : (i, w, m) ∈ s.watchHits ctx kind parts := by
    unfold State.watchParts at h
    simp only at h
    split at h
    · cases h
      exact List.mem_of_find?_eq_some ‹_›
    · exact List.mem_of_mem_head? h
  obtain ⟨p, hp, hsome⟩ := List.mem_filterMap.1 hmem
  simp only at hsome
  split at hsome
  · next hc =>
    cases hsome
    simp only [Bool.and_eq_true, beq_iff_eq] at hc
    exact hs p hp hc.1.1.2
  · cases hsome

theorem watchLanes_stop {s : State} {e : Env} (hs : s.noStops e.la.ctx) (kind n : Nat) (ls : List LaneAcc) :
    ((s.watchLanes e kind n ls).find? fun h => h.2.2.1) = none := by
  refine List.find?_eq_none.2 fun h hh => ?_
  unfold State.watchLanes at hh
  split at hh
  · cases hh
  · obtain ⟨a, -, ha⟩ := List.mem_filterMap.1 hh
    cases hw : s.watchHit e.la.ctx kind a.target n with
    | none => rw [hw] at ha; cases ha
    | some w =>
      rw [hw] at ha
      obtain rfl := Option.some.inj ha
      simp [watchParts_stop hs hw]

/-! ## Issue (R84, R154) -/

/-- What the issue of an access makes of its group. -/
def Group.issue (g : Group) (e : Env) (a : Access) (regs : List Nat) : Group :=
  (if e.lanes.isEmpty then g else (g.addAccess a).countUp a.kind).pushWindow
    (if regs.isEmpty then winEntry [] else winAsync regs e.lanes)

/-- The destinations of an access in the bank. -/
def destsOf (ls : List LaneAcc) (regs : List Nat) : List Nat :=
  ls.flatMap fun x => regs.map fun r => regKey x.depth.toNat x.lane r

theorem issueAccess_ok {e : Env} {s : State} (hs : s.noStops e.la.ctx) (a : Access) (watchKind : Option Nat) (ls : List LaneAcc)
    (fill : List TlbEntry) (regs : List Nat) :
    ∃ rs, issueAccess e s a watchKind ls fill regs =
      .ok (((s.fillTlb fill).aside s.groups rs).onGroup e.gk fun g => g.issue e { a with lanes := ls, dests := destsOf ls regs } regs) := by
  have hrefl : ∃ rs, Res.ok ((s.fillTlb fill).onGroup e.gk fun g => g.issue e { a with lanes := ls, dests := destsOf ls regs } regs) =
      .ok (((s.fillTlb fill).aside s.groups rs).onGroup e.gk fun g =>
        g.issue e { a with lanes := ls, dests := destsOf ls regs } regs) := ⟨s.records, by rw [← fillTlb_aside]; rfl⟩
  unfold issueAccess
  cases watchKind with
  | none => exact hrefl
  | some k =>
    simp only [watchLanes_stop hs]
    cases s.watchLanes e k a.size ls with
    | nil => exact hrefl
    | cons h _ =>
      refine ⟨(s.addRecord (s.watchRecord e.gk e.run.tag 0 0 (e.g.pos e.run.tag) h.1.ea h.1.lane h.2.1 h.2.2.2 a.size)).records, ?_⟩
      rw [← fillTlb_aside]
      rfl

theorem foldl_supersede (ks : List Nat) (g : Group) : ks.foldl Group.supersede g =
    { g with keeps := (ks.foldl Group.supersede g).keeps, ops := (ks.foldl Group.supersede g).ops,
             tiles := (ks.foldl Group.supersede g).tiles } ∧ (ks.foldl Group.supersede g).ops.length = g.ops.length := by
  induction ks generalizing g with
  | nil => exact ⟨rfl, rfl⟩
  | cons k ks ih =>
    obtain ⟨h1, h2⟩ := ih (g.supersede k)
    refine ⟨?_, ?_⟩
    · rw [List.foldl_cons, h1]
      rfl
    · rw [List.foldl_cons, h2]
      exact List.length_map ..

theorem addAccess_rest (g : Group) (a : Access) : g.addAccess a =
    { g with keeps := (g.addAccess a).keeps, ops := (g.addAccess a).ops, tiles := (g.addAccess a).tiles } := by
  unfold Group.addAccess
  rw [(foldl_supersede a.dests g).1]

theorem ops_addAccess (g : Group) (a : Access) :
    (g.addAccess a).ops.getLast? = some a ∧ (g.addAccess a).ops.length = g.ops.length + 1 := by
  unfold Group.addAccess
  refine ⟨List.getLast?_concat, ?_⟩
  show (_ ++ [a]).length = _
  rw [List.length_append, (foldl_supersede a.dests g).2]
  rfl

/-- The lanes of an `ofadd` count their contributions (R294). -/
def Group.countAdds (g : Group) (lanes : List Nat) : Group :=
  g.onLanes fun i l => if lanes.contains i then { l with seq := l.seq + 1 } else l

/-- How an access word whose checks pass runs: its operation, before its lanes and destinations are filled in, the lanes, the
translations, and the groups and records at its issue. -/
structure Issues (i : Instr) (x : AccessOp) (s : State) (e : Env) (a : Access) (ls : List LaneAcc) (fill : List TlbEntry)
    (gs : KMap Group) (rs : List FaultRec) : Prop where
  runs : exec i s = .next (((((s.fillTlb fill).aside gs rs).onGroup e.gk fun g =>
    g.issue e { a with lanes := ls, dests := destsOf ls (natsFrom x.vd.toNat x.dest) } (natsFrom x.vd.toNat x.dest)).correctReads
      e x.reads).retire e x.h x.len)
  groups : gs = (if x.kind = .ofadd then s.onGroup e.gk fun g => g.countAdds e.lanes else s).groups
  empty : e.lanes = [] → fill = []
  access : (a.kind, a.id, a.size, a.order, a.scope, a.complete) = (x.kind, e.g.issued, x.size, x.order.toNat, x.scope.toNat, false)
  lanes : ls.map (·.lane) = e.lanes
  each : ∀ y ∈ ls, y.done = false ∧ y.ea = BitVec.ofNat 64 (x.ea e y.lane) ∧ y.depth = (e.g.lane y.lane).depth ∧
    y.port = s.portOf y.target ∧ ∃ fill, laneCheck i x s e y.lane = .ok y.target y.nc fill

theorem counterFull_false {g : Group} {k : AccKind} (h : if k.isLoad then g.loads < 255 else g.stores < 255) :
    g.counterFull k = false := by
  unfold Group.counterFull
  split
  · next hk =>
    rw [if_pos hk] at h
    exact decide_eq_false (Nat.not_le.2 h)
  · next hk =>
    rw [if_neg hk] at h
    exact decide_eq_false (Nat.not_le.2 h)

theorem memoryOp_reads {o : MOp} {kind : AccKind} {n dest data : Nat} {write feOp : Bool}
    (hdata : data = if kind == .st then regsFor n else 0) (hpos : regsFor n ≠ 0) :
    (memoryOp o kind n dest data write feOp).reads = span true o.va :: srcSpan false o.vb ++
      if kind == .st then [(o.vc.toNat, if kind == .fetest then 1 else regsFor n)] else [] := by
  cases hk : kind == .st
  · simp [memoryOp, hdata, hk]
  · rw [beq_iff_eq] at hk
    simp [memoryOp, hdata, hk, hpos]

theorem memoryOp_regs {o : MOp} {kind : AccKind} {n dest data : Nat} {write feOp : Bool}
    (hdest : dest = if write then 0 else if kind == .fetest then 1 else regsFor n) (hpos : regsFor n ≠ 0) :
    (memoryOp o kind n dest data write feOp).regs =
      (if !write then [(o.vd.toNat, if kind == .fetest then 1 else regsFor n)] else []) ++
        (memoryOp o kind n dest data write feOp).reads := by
  cases write <;> cases hk : kind == .fetest <;> simp [AccessOp.regs, memoryOp, hdest, hk, hpos]

theorem atomicOp_reads {o : TOp} {kind : AccKind} {dest : Nat} : (atomicOp o kind dest).reads =
    span true o.va :: srcSpan o.fmt.wide o.vb ++ if kind == .acas then [span o.fmt.wide o.vc] else [] := by
  simp [atomicOp]

theorem atomicOp_regs {o : TOp} {kind : AccKind} {dest : Nat}
    (hdest : dest = if kind == .ofadd then 0 else if o.fmt.wide then 2 else 1) : (atomicOp o kind dest).regs =
      (if kind != .ofadd then [(o.vd.toNat, if o.fmt.wide then 2 else 1)] else []) ++ (atomicOp o kind dest).reads := by
  cases hk : kind == .ofadd <;> cases hw : o.fmt.wide <;> simp [AccessOp.regs, atomicOp, hdest, hk, hw, bne]

/-- A load, store or full-empty word whose checks pass issues. -/
theorem memory_issues {i : Instr} {o : MOp} {kind : AccKind} {n dest data : Nat} {write feOp : Bool} {self : Instr} {s : State}
    {e : Env} (hfe : feOp = (kind == .fetest || kind == .feset || kind == .feclr))
    (hwrite : write = (kind == .st || kind == .feset || kind == .feclr)) (hn : n = if feOp then 16 else 2 ^ o.size.toNat)
    (hdest : dest = if write then 0 else if kind == .fetest then 1 else regsFor n)
    (hdata : data = if kind == .st then regsFor n else 0) (hx : exec i s = accessWord o kind self s) (hi : atomicFmt i = none)
    (hk : kind ≠ .ofadd)
    (r : Ready o.h none (memoryOp o kind n dest data write feOp).regs (memoryOp o kind n dest data write feOp).reads s e)
    (hok : ∀ l ∈ e.lanes, ∃ t nc fill, laneCheck i (memoryOp o kind n dest data write feOp) s e l = .ok t nc fill)
    (hs : s.noStops e.la.ctx) (hc : if kind.isLoad then e.g.loads < 255 else e.g.stores < 255) :
    ∃ a ls fill gs rs, Issues i (memoryOp o kind n dest data write feOp) s e a ls fill gs rs := by
  have hpos : regsFor n ≠ 0 := regsFor_ne_zero (by rw [hn]; split <;> simp)
  have hfeNat : (o.fe.toNat != 0) = (o.fe != 0) := by
    rw [Bool.eq_iff_iff]
    simp [BitVec.toNat_eq]
  have hreads := memoryOp_reads (o := o) (write := write) (feOp := feOp) (dest := dest) hdata hpos
  have hregs := memoryOp_regs (o := o) (data := data) (feOp := feOp) hdest hpos
  have hdests : (if !write then natsFrom o.vd.toNat (if kind == .fetest then 1 else regsFor n) else []) = natsFrom o.vd.toNat dest := by
    rw [hdest]
    cases write <;> rfl
  simp only [← laneVerdict_eq_laneCheck, hi, Option.bind_none] at hok
  let value (l : Nat) : Nat := (natsFrom 0 (if kind == .fetest then 1 else regsFor n)).foldl
    (fun a j => a + (e.reg 2 l (o.vc.toNat + j)).toNat * 2 ^ (32 * j)) 0
  obtain ⟨ls, fill, hls, hlanes, hempty, hall⟩ := checkLanes_ok
    (mk := fun l a t nc => laneAcc l (e.g.lane l).depth a t nc (if kind == .st then value l % 2 ^ (8 * n) else 0) 0 (s.portOf t))
    hok fun _ _ _ _ => rfl
  let a : Access := newAccess e kind n .n32 o.order.toNat o.scope.toNat o.rmt (if feOp then 0 else o.fe.toNat) o.vd.toNat
    self.encode.1 (litOf o.vb)
  obtain ⟨rs, hrs⟩ := issueAccess_ok hs a (some (if write then 0 else 3)) ls fill (natsFrom o.vd.toNat dest)
  refine ⟨a, ls, fill, s.groups, rs, ?_, ?_, hempty, rfl, hlanes, fun y hy => ?_⟩
  · rw [hx]
    unfold accessWord
    simp only [← hfe, ← hwrite, ← hn, ← hreads, ← hregs]
    refine word_ready r ?_
    simp only [hfeNat, hdests]
    have hls' : checkLanes (fun l a => s.checkAccess (e.party l) e.core a n n write (feOp || o.fe != 0))
      (fun l => e.ea l o.va o.vb) (fun _ _ _ => none) (fun l a t nc => laneAcc l (e.g.lane l).depth a t nc
        (if kind == .st then value l % 2 ^ (8 * n) else 0) 0 (s.portOf t)) e.lanes = .ok ls fill := hls
    simp only [value] at hls'
    simp only [hls', counterFull_false hc, Bool.false_and, Bool.false_eq_true, if_false]
    exact hrs
  · rw [if_neg (show ¬ (memoryOp o kind n dest data write feOp).kind = .ofadd from hk)]
  · obtain ⟨-, t, nc, fill', hv, heq⟩ := hall y hy
    refine ⟨by rw [heq]; rfl, by rw [heq]; rfl, by rw [heq]; rfl, by rw [heq]; rfl, fill', ?_⟩
    rw [← laneVerdict_eq_laneCheck]
    simp only [hi, Option.bind_none]
    rw [hv, heq]
    rfl

/-- The watchpoint matches of an atomic at its issue, on the lanes whose home is near (R347). -/
def atomicHits (s : State) (e : Env) (kind : AccKind) (n : Nat) (ls : List LaneAcc) : List (LaneAcc × Nat × Bool × Nat) :=
  if kind == .ofadd then [] else s.watchLanes e 1 n (ls.filter fun x => homeDie x.target == some (dieOf e.core))

theorem atomicHits_stop {s : State} {e : Env} (hs : s.noStops e.la.ctx) (kind : AccKind) (n : Nat) (ls : List LaneAcc) :
    ((atomicHits s e kind n ls).find? fun h => h.2.2.1) = none := by
  unfold atomicHits
  split
  · rfl
  · exact watchLanes_stop hs _ _ _

/-- The machine with the record of the first match. -/
def State.noteHits (s1 s : State) (e : Env) (n : Nat) : List (LaneAcc × Nat × Bool × Nat) → State
  | h :: _ => s1.addRecord (s.watchRecord e.gk e.run.tag 0 0 (e.g.pos e.run.tag) h.1.ea h.1.lane h.2.1 h.2.2.2 n)
  | [] => s1

theorem noteHits_aside {s1 s : State} {gs : KMap Group} (h : s1 = s.aside gs s.records) (e : Env) (n : Nat)
    (hits : List (LaneAcc × Nat × Bool × Nat)) : s1.noteHits s e n hits = s.aside gs (s1.noteHits s e n hits).records := by
  cases hits with
  | nil => exact h ▸ rfl
  | cons x _ => exact h ▸ rfl

/-- An atomic whose checks pass issues. -/
theorem atomic_issues {i : Instr} {o : TOp} {kind : AccKind} {dest : Nat} {self : Instr} {s : State} {e : Env}
    (hdest : dest = if kind == .ofadd then 0 else if o.fmt.wide then 2 else 1) (hx : exec i s = atomicWord o kind self s)
    (hi : atomicFmt i = some o.fmt) (r : Ready o.h none (atomicOp o kind dest).regs (atomicOp o kind dest).reads s e)
    (hok : ∀ l ∈ e.lanes, ∃ t nc fill, laneCheck i (atomicOp o kind dest) s e l = .ok t nc fill)
    (hs : s.noStops e.la.ctx) (hc : if kind.isLoad then e.g.loads < 255 else e.g.stores < 255) :
    ∃ a ls fill gs rs, Issues i (atomicOp o kind dest) s e a ls fill gs rs := by
  have hreads := atomicOp_reads (o := o) (kind := kind) (dest := dest)
  have hregs := atomicOp_regs (o := o) hdest
  have hdests : (if kind != .ofadd then natsFrom o.vd.toNat (if o.fmt.wide then 2 else 1) else []) = natsFrom o.vd.toNat dest := by
    rw [hdest]
    cases hk : kind == .ofadd <;> simp [bne, hk, natsFrom]
  simp only [← laneVerdict_eq_laneCheck, hi, Option.bind_some] at hok
  obtain ⟨ls, fill, hls, hlanes, hempty, hall⟩ := checkLanes_ok
    (mk := fun l a t nc => laneAcc l (e.g.lane l).depth a t nc (e.src 1 o.fmt l o.vb)
      (if kind == .acas then e.val 2 o.fmt l o.vc else if kind == .ofadd then (e.g.lane l).seq.toNat else 0) (s.portOf t))
    hok fun _ _ _ _ => rfl
  let a : Access := newAccess e kind (o.fmt.width / 8) o.fmt o.order.toNat o.scope.toNat o.rmt 0 o.vd.toNat
    self.encode.1 (litOf o.vb)
  let s1 : State := if kind == .ofadd then s.onGroup e.gk fun g => g.countAdds e.lanes else s
  have hs1 : s1 = s.aside s1.groups s.records := by
    simp only [s1]
    split <;> rfl
  let s2 : State := s1.noteHits s e (o.fmt.width / 8) (atomicHits s e kind (o.fmt.width / 8) ls)
  have hs2 : s2 = s.aside s1.groups s2.records := noteHits_aside hs1 e _ _
  obtain ⟨rs, hrs⟩ := issueAccess_ok (s := s2) (by rw [hs2]; exact hs) a none ls fill (natsFrom o.vd.toNat dest)
  refine ⟨a, ls, fill, s1.groups, rs, ?_, ?_, hempty, rfl, hlanes, fun y hy => ?_⟩
  · rw [hx]
    unfold atomicWord
    simp only [← hreads, ← hregs]
    refine word_ready r ?_
    have hls' : checkLanes (fun l a => s.checkAccess (e.party l) e.core a (o.fmt.width / 8) (o.fmt.width / 8) false false)
      (fun l => e.pair 0 l o.va) (fun l a t => s.atomicMore (e.party l) kind o.fmt a t)
      (fun l a t nc => laneAcc l (e.g.lane l).depth a t nc (e.src 1 o.fmt l o.vb)
        (if kind == .acas then e.val 2 o.fmt l o.vc else if kind == .ofadd then (e.g.lane l).seq.toNat else 0) (s.portOf t))
      e.lanes = .ok ls fill := hls
    have hfill : (s2.fillTlb fill).aside s2.groups rs = (s.fillTlb fill).aside s1.groups rs := by
      rw [hs2, fillTlb_aside]
      rfl
    rw [hfill] at hrs
    simp only [hls', counterFull_false hc, Bool.false_and, Bool.false_eq_true, if_false, hdests]
    have hnone := atomicHits_stop hs kind (o.fmt.width / 8) ls
    unfold atomicHits at hnone
    simp only [hnone]
    refine Eq.trans ?_ hrs
    simp only [s2, State.noteHits]
    rfl
  · simp only [s1, beq_iff_eq]
    rfl
  · obtain ⟨-, t, nc, fill', hv, heq⟩ := hall y hy
    refine ⟨by rw [heq]; rfl, by rw [heq]; rfl, by rw [heq]; rfl, by rw [heq]; rfl, fill', ?_⟩
    rw [← laneVerdict_eq_laneCheck]
    simp only [hi, Option.bind_some]
    rw [hv, heq]
    rfl

/-- Every access word whose checks pass issues. -/
theorem access_issues {i : Instr} {x : AccessOp} {s : State} {e : Env} (hx : accessOf i = some x)
    (r : Ready x.h none x.regs x.reads s e) (hok : ∀ l ∈ e.lanes, ∃ t nc fill, laneCheck i x s e l = .ok t nc fill)
    (hs : s.noStops e.la.ctx) (hc : if x.kind.isLoad then e.g.loads < 255 else e.g.stores < 255) :
    ∃ a ls fill gs rs, Issues i x s e a ls fill gs rs := by
  cases i <;> cases hx
  case ld | lds | st | feset | feclr | fetest =>
    exact memory_issues rfl rfl rfl rfl rfl (by rfl) rfl (by decide) r hok hs hc
  all_goals exact atomic_issues rfl (by rfl) rfl r hok hs hc

theorem countUp_rest (g : Group) (k : AccKind) : g.countUp k =
    { g with loads := if k.isLoad then g.loads + 1 else g.loads, stores := if k.isLoad then g.stores else g.stores + 1 } := by
  unfold Group.countUp
  split <;> rfl

theorem countAdds_nil (g : Group) : g.countAdds [] = g := by
  have : mapIdxFrom 0 (fun _ l => l) g.lanes = g.lanes := by
    refine List.ext_getElem? fun j => ?_
    rw [getElem?_mapIdxFrom, Option.map_id']
  show ({ g with lanes := mapIdxFrom 0 _ g.lanes } : Group) = g
  simp only [List.contains_nil, Bool.false_eq_true, if_false, this]

theorem fillTlb_aside_of (s : State) (fill : List TlbEntry) : (s.fillTlb fill).groups = s.groups := by
  rw [(memSide_fillTlb s fill).rest]

/-- The group of an access word at its issue. -/
def Env.adding (e : Env) (x : AccessOp) : Group := if x.kind = .ofadd then e.g.countAdds e.lanes else e.g

theorem adding_rest (e : Env) (x : AccessOp) : e.adding x = { e.g with lanes := (e.adding x).lanes } := by
  unfold Env.adding
  split <;> rfl

theorem frames_adding (e : Env) (x : AccessOp) : (e.adding x).frames = e.g.frames := by rw [adding_rest]

theorem ops_adding (e : Env) (x : AccessOp) : (e.adding x).ops = e.g.ops := by rw [adding_rest]

theorem adding_counts (e : Env) (x : AccessOp) :
    ({ e.adding x with
        loads := if x.kind.isLoad then (e.adding x).loads + 1 else (e.adding x).loads
        stores := if x.kind.isLoad then (e.adding x).stores else (e.adding x).stores + 1 } : Group) =
      { e.g with
        loads := if x.kind.isLoad then e.g.loads + 1 else e.g.loads
        stores := if x.kind.isLoad then e.g.stores else e.g.stores + 1
        lanes := (e.adding x).lanes } := by
  unfold Env.adding
  split <;> rfl

theorem lane_adding (e : Env) (x : AccessOp) {l : Nat} {y : Lane} (h : e.g.lanes[l]? = some y) :
    (e.adding x).lanes[l]? = some (if x.kind = .ofadd ∧ l ∈ e.lanes then { y with seq := y.seq + 1 } else y) := by
  unfold Env.adding
  by_cases hk : x.kind = .ofadd
  · rw [if_pos hk]
    show (mapIdxFrom 0 _ e.g.lanes)[l]? = _
    rw [getElem?_mapIdxFrom, h]
    simp [hk]
  · rw [if_neg hk, if_neg fun h => hk h.1, h]

theorem length_adding (e : Env) (x : AccessOp) : (e.adding x).lanes.length = e.g.lanes.length := by
  unfold Env.adding
  split
  · exact length_lanes_onLanes _ _
  · rfl

namespace Issues

variable {i : Instr} {x : AccessOp} {s : State} {e : Env} {a : Access} {ls : List LaneAcc} {fill : List TlbEntry}
  {gs : KMap Group} {rs : List FaultRec}

theorem aside (h : Issues i x s e a ls fill gs rs) (f : Group → Group) :
    Aside e.gk (s.fillTlb fill) (((s.fillTlb fill).aside gs rs).onGroup e.gk f) := by
  refine .trans (b := (s.fillTlb fill).aside gs rs) ⟨by rfl, fun _ => rfl, fun j hj => ?_⟩ (.onGroup _ _ _)
  show gs.find j = (s.fillTlb fill).groups.find j
  rw [h.groups, fillTlb_aside_of]
  split
  · exact (group_onGroup s e.gk j _).trans (if_neg hj)
  · rfl

theorem group (h : Issues i x s e a ls fill gs rs) (hg : s.group e.gk = some e.g) (f : Group → Group) :
    (((s.fillTlb fill).aside gs rs).onGroup e.gk f).group e.gk = some (f (e.adding x)) := by
  rw [group_onGroup, if_pos rfl]
  show (gs.find e.gk).map f = _
  unfold Env.adding
  rw [h.groups]
  split
  · rw [show (s.onGroup e.gk fun g => g.countAdds e.lanes).groups.find e.gk = some (e.g.countAdds e.lanes) from
      (group_onGroup s e.gk e.gk _).trans (by rw [if_pos rfl, hg]; rfl)]
    rfl
  · rw [show s.groups.find e.gk = some e.g from hg]
    rfl

end Issues

theorem mem_dest {x : AccessOp} {r : Nat} :
    r ∈ natsFrom x.vd.toNat x.dest ↔ x.vd.toNat ≤ r ∧ r < x.vd.toNat + x.dest := mem_natsFrom

theorem seen_issue (g : Group) (e : Env) (x : AccessOp) (a : Access) (l r : Nat) :
    (g.issue e a (natsFrom x.vd.toNat x.dest)).seen l r =
      if l ∈ e.lanes ∧ x.vd.toNat ≤ r ∧ r < x.vd.toNat + x.dest then none else windowRead (g.window.take 6) l r := by
  have hw : (if e.lanes.isEmpty then g else (g.addAccess a).countUp a.kind).window = g.window := by
    split
    · rfl
    · rw [countUp_rest, addAccess_rest]
  unfold Group.issue
  by_cases hr : (natsFrom x.vd.toNat x.dest).isEmpty = true
  · have hnil : natsFrom x.vd.toNat x.dest = [] := List.isEmpty_iff.1 hr
    rw [if_pos hr, seen_winEntry_nil, hw, if_neg]
    rintro ⟨-, hd⟩
    have := mem_dest.2 hd
    rw [hnil] at this
    cases this
  · rw [if_neg hr, seen_winAsync, hw]
    simp only [mem_dest]

/-- Settles O37: the lanes' checks all pass, so the word issues one operation and pushes its window entry. -/
theorem accessWordsIssue : Obligations.AccessWordsIssue := by
  unfold Obligations.AccessWordsIssue
  intro i x s e hx r hok hs hc
  obtain ⟨a, ls, fill, gs, rs, h⟩ := access_issues hx r hok hs hc
  let acc : Access := { a with lanes := ls, dests := destsOf ls (natsFrom x.vd.toNat x.dest) }
  obtain ⟨g1, hissue⟩ : ∃ g1, (e.adding x).issue e acc (natsFrom x.vd.toNat x.dest) = g1 := ⟨_, rfl⟩
  have T := (TailAt.correctReads e.gk (((s.fillTlb fill).aside gs rs).onGroup e.gk fun g =>
    g.issue e acc (natsFrom x.vd.toNat x.dest)) e x.reads).trans (.retire _ e x.h x.len)
  have hown := h.group (env_group r.env) fun g => g.issue e acc (natsFrom x.vd.toNat x.dest)
  rw [hissue] at hown
  have hseen (l reg : Nat) (hn : ¬ x.writes e l reg) : g1.seen l reg = windowRead (e.g.window.take 6) l reg := by
    rw [← hissue, seen_issue, adding_rest]
    exact if_neg hn
  have hasync (l reg : Nat) (hw : x.writes e l reg) : g1.seen l reg = none := by
    rw [← hissue, seen_issue]
    exact if_pos hw
  by_cases hl : e.lanes = []
  · have hadd : e.adding x = e.g := by
      unfold Env.adding
      rw [hl, countAdds_nil, ite_self]
    have hg1 : g1 = e.g.pushWindow (if (natsFrom x.vd.toNat x.dest).isEmpty then winEntry [] else winAsync (natsFrom x.vd.toNat x.dest) e.lanes) := by
      rw [← hissue, hadd, Group.issue, hl]
      rfl
    obtain ⟨g', hg', T', hsp⟩ := stepped_spared (g0 := e.g) (banked := noReg) (windowed := x.writes e) (h.aside _) hown T
      (by rw [hg1]; rfl) (by rw [hg1]; rfl) (by rw [hg1]; rfl) (by rw [hg1]; rfl) (by rw [hg1]; rfl) (by rw [hg1]; rfl)
      fun l reg _ hn => hseen l reg hn
    refine ⟨_, g', h.runs, hg', e.g, fill, hsp, fun l reg hw => ?_, ?_⟩
    · rw [Group.seen, T'.window]
      exact hasync l reg hw
    · rw [if_pos hl]
      refine ⟨rfl, h.empty hl, ?_⟩
      rw [T'.ops, hg1]
      rfl
  · let g0 : Group := { e.adding x with
      loads := if x.kind.isLoad then (e.adding x).loads + 1 else (e.adding x).loads
      stores := if x.kind.isLoad then (e.adding x).stores else (e.adding x).stores + 1 }
    have hempty : e.lanes.isEmpty = false := by simpa using hl
    obtain ⟨hkind, hid, hsize, horder, hscope, hcomplete⟩ : a.kind = x.kind ∧ a.id = e.g.issued ∧ a.size = x.size ∧
        a.order = x.order.toNat ∧ a.scope = x.scope.toNat ∧ a.complete = false := by
      have := h.access
      simpa only [Prod.mk.injEq] using this
    have hg1 : g1 = { g0 with window := g1.window, keeps := g1.keeps, tiles := g1.tiles, ops := ((e.adding x).addAccess acc).ops } := by
      rw [← hissue]
      unfold Group.issue
      rw [hempty]
      simp only [Bool.false_eq_true, if_false]
      rw [countUp_rest, addAccess_rest, hkind]
      rfl
    obtain ⟨g', hg', T', hsp⟩ := stepped_spared (g0 := g0) (banked := noReg) (windowed := x.writes e) (h.aside _) hown T
      (by rw [hg1]) (by rw [hg1]) (by rw [hg1]) (by rw [hg1]) (by rw [hg1]) (by rw [hg1]; exact frames_adding e x)
      fun l reg _ hn => hseen l reg hn
    obtain ⟨hlast, hlen⟩ := ops_addAccess (e.adding x) acc
    refine ⟨_, g', h.runs, hg', g0, fill, hsp, fun l reg hw => ?_, ?_⟩
    · rw [Group.seen, T'.window]
      exact hasync l reg hw
    · rw [if_neg hl]
      refine ⟨adding_counts e x, length_adding e x, fun l y hy => lane_adding e x hy, acc, ?_, ?_, hkind, hid, hsize, horder, hscope,
        hcomplete, h.lanes, h.each⟩
      · rw [T'.ops, hg1]
        exact hlast
      · rw [T'.ops, hg1]
        rw [hlen, ops_adding]

end Sys2Proof.Machine
end

section
/-! SUPPORT. Failed checks stop access, engine and call words (R95, R132, R136, R140, R148, R255, R268, R338). -/

namespace Sys2Proof.Machine

open Sys2Proof

/-- The record of a fault names its address and immediate. -/
theorem takeFault_record {s : State} {m : BitVec 8} {e : Env} (he : s.env m = some e) (f : WFault) :
    ∃ r, (s.takeFault e.gk e.run.tag f).records = s.records ++ [r] ∧ r.addr = f.addr ∧ r.imm = BitVec.ofNat 16 f.imm := by
  unfold State.takeFault
  simp only [env_group he]
  refine ⟨_, rfl, ?_⟩
  simp [State.record, env_group he]

theorem mem_haltAt (s : State) (k : Nat) (h : Halt) : (s.haltAt k h).mem = s.mem := rfl

theorem records_haltAt (s : State) (k : Nat) (h : Halt) : (s.haltAt k h).records = s.records := rfl

theorem group_haltAt (s : State) (k : Nat) (h : Halt) : (s.haltAt k h).group k = (s.group k).map fun g =>
    { g with halt := some h, lastFault := if h.why == .preempt then g.lastFault else h.code, pass := 0 } :=
  (group_onGroup (s.dropRuns k) k k _).trans (if_pos rfl)

/-- What parking a group at a word leaves. -/
structure Parked (s t : State) (e : Env) (lane : Nat) (addr : Dword) : Prop where
  group : t.group e.gk = some { e.g with halt := some ⟨.park, 0x23, s.time, lane, e.run.tag, none⟩, lastFault := 0x23, pass := 0 }
  mem : t.mem = s.mem
  record : ∃ r, t.records = s.records ++ [r] ∧ r.ty = 2 ∧ r.code = 0x23 ∧ r.addr = addr ∧ r.lane = lane

theorem takePark_parked {s : State} {m : BitVec 8} {e : Env} (he : s.env m = some e) (lane : Nat) (addr : Dword) (access : Nat) :
    Parked s (s.takePark e.gk e.run.tag lane addr access e.la.ctx) e lane addr := by
  have hg := env_group he
  unfold State.takePark
  simp only [hg]
  refine ⟨?_, ?_, s.record e.gk 2 cPAGE 0 (access * 16) e.run.tag (e.g.pos e.run.tag) addr lane 0, ?_, ?_⟩
  rotate_left
  · rw [State.halt, mem_haltAt]
    rfl
  · rw [State.halt, records_haltAt]
    rfl
  · simp [State.record, hg, cPAGE]
  · rw [State.halt, group_haltAt]
    show (s.group e.gk).map _ = _
    rw [hg]
    rfl

theorem wordAt_park {h : Hdr} {len : Nat} {region : Option (BitVec 16)} {regs reads : List (Nat × Nat)}
    {fin : Env → State → State} {body : Env → State → Res} {s : State} {e : Env} {l x : Nat} {a : Dword}
    (r : Ready h region regs reads s e) (hb : body e s = .park l a x) :
    wordAt h len region regs reads fin body s = .next (s.takePark e.gk e.run.tag l a x e.la.ctx) := by
  unfold wordAt
  rw [r.env]
  simp only [r.active, if_false, r.member, Bool.false_eq_true, r.frame, r.ecc, hb, r.stop]

/-! ## Unresolved translations (R338) -/

/-- Of lanes in ascending order, the lowest that does not pass parks the word where its translation is unresolved. -/
theorem checkLanes_unresolved {chk : Nat → Nat → Chk} {ea : Nat → Nat} {more : Nat → Nat → Nat → Option Nat} {l : Nat}
    {ls : List Nat} (order : ls.Pairwise (· < ·)) (hl : l ∈ ls)
    (below : ∀ j ∈ ls, j < l → ∃ t nc fill, laneVerdict chk ea more j = .ok t nc fill)
    (h : laneVerdict chk ea more l = .unresolved) (mk : Nat → Nat → Nat → Bool → LaneAcc) :
    checkLanes chk ea more mk ls = .unresolved l (BitVec.ofNat 64 (ea l)) := by
  induction ls with
  | nil => cases hl
  | cons j rest ih =>
    rcases List.mem_cons.1 hl with rfl | hl
    · have hc : chk l (ea l) = .unresolved := by
        unfold laneVerdict at h
        split at h
        · split at h <;> cases h
        · exact h
      simp [checkLanes, hc]
    · obtain ⟨first, order⟩ := List.pairwise_cons.1 order
      obtain ⟨t, nc, fill, hj⟩ := below j List.mem_cons_self (first l hl)
      obtain ⟨hc, hm⟩ := laneVerdict_ok hj
      have := ih order hl fun k hk => below k (List.mem_cons_of_mem _ hk)
      simp [checkLanes, hc, hm, this]

/-- A load, store or full-empty word parks where its checks find an unresolved translation. -/
theorem accessWord_park {o : MOp} {kind : AccKind} {n dest data : Nat} {write feOp : Bool} {self : Instr} {s : State}
    {e : Env} {l : Nat} {a : Dword} (hfe : feOp = (kind == .fetest || kind == .feset || kind == .feclr))
    (hwrite : write = (kind == .st || kind == .feset || kind == .feclr)) (hn : n = if feOp then 16 else 2 ^ o.size.toNat)
    (hdest : dest = if write then 0 else if kind == .fetest then 1 else regsFor n)
    (hdata : data = if kind == .st then regsFor n else 0)
    (r : Ready o.h none (memoryOp o kind n dest data write feOp).regs (memoryOp o kind n dest data write feOp).reads s e)
    (hb : ∀ mk, checkLanes (fun l a => s.checkAccess (e.party l) e.core a n n write (feOp || o.fe != 0))
      (fun l => e.ea l o.va o.vb) (fun _ _ _ => none) mk e.lanes = .unresolved l a) :
    ∃ x, accessWord o kind self s = .next (s.takePark e.gk e.run.tag l a x e.la.ctx) := by
  have hpos : regsFor n ≠ 0 := regsFor_ne_zero (by rw [hn]; split <;> simp)
  have hfeNat : (o.fe.toNat != 0) = (o.fe != 0) := by
    rw [Bool.eq_iff_iff]
    simp [BitVec.toNat_eq]
  rw [memoryOp_regs hdest hpos, memoryOp_reads hdata hpos] at r
  refine ⟨fIf write 1, ?_⟩
  unfold accessWord
  simp only [← hfe, ← hwrite, ← hn]
  refine wordAt_park r ?_
  simp only [hfeNat, hb]

/-- An atomic parks where its checks find an unresolved translation. -/
theorem atomicWord_park {o : TOp} {kind : AccKind} {dest : Nat} {self : Instr} {s : State} {e : Env} {l : Nat} {a : Dword}
    (hdest : dest = if kind == .ofadd then 0 else if o.fmt.wide then 2 else 1)
    (r : Ready o.h none (atomicOp o kind dest).regs (atomicOp o kind dest).reads s e)
    (hb : ∀ mk, checkLanes (fun l a => s.checkAccess (e.party l) e.core a (o.fmt.width / 8) (o.fmt.width / 8) false false)
      (fun l => e.pair 0 l o.va) (fun l a t => s.atomicMore (e.party l) kind o.fmt a t) mk e.lanes = .unresolved l a) :
    ∃ x, atomicWord o kind self s = .next (s.takePark e.gk e.run.tag l a x e.la.ctx) := by
  rw [atomicOp_regs hdest, atomicOp_reads] at r
  refine ⟨1, ?_⟩
  unfold atomicWord
  refine wordAt_park r ?_
  simp only [hb]

/-- An access word parks at the lowest active lane that does not pass, where its translation is unresolved. -/
theorem exec_access_park {i : Instr} {x : AccessOp} {s : State} {e : Env} {l : Nat} (hx : accessOf i = some x)
    (r : Ready x.h none x.regs x.reads s e) (hl : l ∈ e.lanes)
    (below : ∀ j ∈ e.lanes, j < l → ∃ t nc fill, laneCheck i x s e j = .ok t nc fill) (h : laneCheck i x s e l = .unresolved) :
    ∃ a, exec i s = .next (s.takePark e.gk e.run.tag l (BitVec.ofNat 64 (x.ea e l)) a e.la.ctx) := by
  simp only [← laneVerdict_eq_laneCheck] at below h
  have hf := checkLanes_unresolved (env_lanes_pairwise_lt r.env) hl below h
  cases i <;> cases hx
  case ld | lds | st | feset | feclr | fetest => exact accessWord_park rfl rfl rfl rfl rfl r hf
  all_goals exact atomicWord_park rfl r hf

/-! ## Engine words (R255, R268) -/

/-- A copy word takes the fault that its checks find. -/
theorem copyWord_bad {o : EOp} {kind : CopyKind} {s : State} {e : Env} {l : Nat} {ls : List Nat} {c a : Nat}
    (r : Ready o.h none (jobRegsOf o (kind != .copy) true) (jobRegsOf o (kind != .copy) true) s e) (hl : e.lanes = l :: ls)
    (hc : s.copyChecks (e.party l) kind o.fmt o.jf.toNat (e.pair 0 l o.va) (e.pair 1 l o.vb)
      (if kind = .copy then 0 else e.pair 3 l o.vd) ((natsFrom o.vc.toNat 8).map fun r => e.reg 2 l r) = some (c, a)) :
    copyWord o kind s = .next (s.takeFault e.gk e.run.tag ⟨c, fIf (c == cENGINE) 1, l, BitVec.ofNat 64 a, 0, 0⟩) := by
  have hregs : jobRegsOf o (kind != .copy) true =
      (if kind == .copy then [] else [span true o.vd]) ++ [span true o.va, span true o.vb, (o.vc.toNat, 8)] := by
    cases kind <;> rfl
  rw [hregs] at r
  unfold copyWord
  refine wordAt_bad r ?_
  have hc' : s.copyChecks (e.party l) kind o.fmt o.jf.toNat (e.pair 0 l o.va) (e.pair 1 l o.vb)
      (if kind == .copy then 0 else e.pair 3 l o.vd) (e.jobRegs l o.vc) = some (c, a) := by
    rw [← hc]
    cases kind <;> rfl
  simp only [hl, hc']

/-- A selection word takes the fault that its checks find. -/
theorem selWord_bad {o : EOp} {scmp : Bool} {s : State} {e : Env} {l : Nat} {ls : List Nat} {c a : Nat}
    (r : Ready o.h none (jobRegsOf o true (scmp || o.jf.getLsbD 0)) (jobRegsOf o true (scmp || o.jf.getLsbD 0)) s e)
    (hl : e.lanes = l :: ls)
    (hc : s.selChecks (e.party l) scmp o.jf.toNat o.fmt (e.pair 3 l o.vd) (e.pair 0 l o.va)
      (if scmp || o.jf.getLsbD 0 then e.pair 1 l o.vb else 0) ((natsFrom o.vc.toNat 8).map fun r => e.reg 2 l r) = some (c, a)) :
    selWord o scmp s = .next (s.takeFault e.gk e.run.tag ⟨c, fIf (c == cENGINE) 0x21, l, BitVec.ofNat 64 a, 0, 0⟩) := by
  unfold selWord
  refine wordAt_bad r ?_
  have hc' : s.selChecks (e.party l) scmp o.jf.toNat o.fmt (e.pair 3 l o.vd) (e.pair 0 l o.va)
      (if scmp || o.jf.toNat.testBit 0 then e.pair 1 l o.vb else 0) (e.jobRegs l o.vc) = some (c, a) := hc
  simp only [hl, hc']

theorem cause_engine (c n : Nat) : fIf (c == cENGINE) n = if c = 0x31 then n else 0 := by
  unfold fIf cENGINE
  simp only [beq_iff_eq]

/-! ## Calls (R132, R136) -/

/-- A call takes the fault of the first lane that has one. -/
theorem callBody_fault {f : Env → Nat → Nat} {src : List (Nat × Nat)} {argRange : Bool} {args : Env → Nat → Descr → List Word}
    {s : State} {e : Env} {l c : Nat} (hfind : (e.lanes.find? fun l => (callFault f src argRange s e l).isSome) = some l)
    (hc : callFault f src argRange s e l = some c) : callBody f src argRange args e s = .bad (wfault c l) := by
  unfold callFault at hfind hc
  unfold callBody
  simp only [hfind, hc]
  rfl

/-- A call takes the fault of the lowest lane whose function or depth fails. -/
theorem callBody_bad {f : Env → Nat → Nat} {src : List (Nat × Nat)} {args : Env → Nat → Descr → List Word} {s : State} {e : Env}
    {m : BitVec 8} {l : Nat} (he : s.env m = some e) (hsrc : ∀ l ∈ e.lanes, e.laneEcc s.latent src l = false) (hl : l ∈ e.lanes)
    (hbad : e.md.nDescrs ≤ f e l ∨ (e.g.lane l).depth = 255)
    (hlow : ∀ j ∈ e.lanes, j < l → f e j < e.md.nDescrs ∧ (e.g.lane j).depth ≠ 255 ∧
      (s.descr e.md (f e j)).argbase + (s.descr e.md (f e j)).nargs ≤ e.g.frameSize (e.g.lane j).depth.toNat ∧
      e.laneEcc s.latent [((s.descr e.md (f e j)).argbase, (s.descr e.md (f e j)).nargs)] j = false) :
    callBody f src true args e s = .bad (wfault (if e.md.nDescrs ≤ f e l then 0x03 else 0x12) l) := by
  have hfind : (e.lanes.find? fun l => (callFault f src true s e l).isSome) = some l := by
    refine find_lowest (env_lanes_pairwise_lt he) hl ?_ fun j hj hjl => ?_
    · rw [callFault_some (hsrc l hl) (hbad.imp_right fun h => by rw [h]; rfl)]
      rfl
    · obtain ⟨h1, h2, h3, h4⟩ := hlow j hj hjl
      rw [callFault_none (hsrc j hj) h1 (fun h => h2 (BitVec.eq_of_toNat_eq h)) fun _ => ⟨h3, h4⟩]
      rfl
  have hval := callFault_some (argRange := true) (hsrc l hl) (hbad.imp_right fun h => by rw [h]; rfl)
  exact callBody_fault hfind hval

/-- A trap in a module without a trap function stops with its immediate. -/
theorem trap_faults {h : Hdr} {imm : BitVec 8} {s : State} {e : Env} {l : Nat} {ls : List Nat} (r : Ready h none [] [] s e)
    (hl : e.lanes = l :: ls) (htrap : e.md.trap = 0xFFFF) : ∃ t, exec (.trap h imm) s = .next t ∧ FaultTaken s t e 0x40 0 l ∧
      ∃ r, t.records = s.records ++ [r] ∧ r.imm = imm.setWidth 16 := by
  let f : WFault := ⟨cTRAP, 0, l, 0, imm.toNat, 0⟩
  obtain ⟨rec, hrec, -, himm⟩ := takeFault_record r.env f
  have hx : execTrap h imm s = .next (s.takeFault e.gk e.run.tag f) := by
    refine wordAt_bad r ?_
    have h1 : e.lanes.isEmpty = false := by rw [hl]; rfl
    have h2 : (e.md.trap == 0xFFFF) = true := beq_iff_eq.2 htrap
    simp only [h1, h2, Bool.false_eq_true, if_false, if_true]
    rw [hl]
    rfl
  refine ⟨_, hx, takeFault_taken r.env f, rec, hrec, himm.trans ?_⟩
  exact BitVec.eq_of_toNat_eq (by rw [BitVec.toNat_ofNat, BitVec.toNat_setWidth])

/-- Settles O38: each check that fails gives its word's fault, which is then taken for the lane that the check names. -/
theorem checksStopWords : Obligations.ChecksStopWords := by
  unfold Obligations.ChecksStopWords
  refine ⟨fun i x s e l hx r hl below => ⟨fun c hc => ?_, fun hu => ?_⟩, ⟨?_, ?_⟩, ?_, ?_⟩
  · obtain ⟨f, hexec, rfl, hcause, rfl, haddr⟩ := exec_access_bad hx r hl below hc
    obtain ⟨rec, hrec, ha, -⟩ := takeFault_record r.env f
    exact ⟨_, hexec, hcause ▸ takeFault_taken r.env f, rec, hrec, ha.trans haddr⟩
  · obtain ⟨a, hexec⟩ := exec_access_park hx r hl below hu
    obtain ⟨hg, hm, hrec⟩ := takePark_parked r.env l (BitVec.ofNat 64 (x.ea e l)) a
    exact ⟨_, _, hexec, hg, rfl, rfl, rfl, hm, hrec⟩
  · intro i o kind s e l ls c a hi r hl hc
    obtain ⟨rec, hrec, ha, -⟩ := takeFault_record r.env ⟨c, fIf (c == cENGINE) 1, l, BitVec.ofNat 64 a, 0, 0⟩
    have T := takeFault_taken r.env ⟨c, fIf (c == cENGINE) 1, l, BitVec.ofNat 64 a, 0, 0⟩
    have hexec := copyWord_bad r hl hc
    rw [cause_engine] at T hrec hexec
    refine ⟨_, ?_, T, rec, hrec, ha⟩
    cases i <;> cases hi <;> exact hexec
  · intro i o scmp s e l ls c a hi r hl hc
    obtain ⟨rec, hrec, ha, -⟩ := takeFault_record r.env ⟨c, fIf (c == cENGINE) 0x21, l, BitVec.ofNat 64 a, 0, 0⟩
    have T := takeFault_taken r.env ⟨c, fIf (c == cENGINE) 0x21, l, BitVec.ofNat 64 a, 0, 0⟩
    have hexec := selWord_bad r hl hc
    rw [cause_engine] at T hrec hexec
    refine ⟨_, ?_, T, rec, hrec, ha⟩
    cases i <;> cases hi <;> exact hexec
  · intro i h srcs f s e l hi hnt r hl hbad hlow
    have hb : callBody f srcs true callArgs e s = .bad (wfault (if e.md.nDescrs ≤ f e l then 0x03 else 0x12) l) :=
      callBody_bad r.env (fun l hl => r.laneEcc hl) hl hbad hlow
    refine ⟨_, ?_, takeFault_taken r.env (wfault (if e.md.nDescrs ≤ f e l then 0x03 else 0x12) l)⟩
    cases i with
    | call x fidx =>
      cases hi
      show execCall h fidx s = _
      rw [execCall, termWord]
      exact wordAt_bad r hb
    | calli x va =>
      cases hi
      show execCalli h va s = _
      rw [execCalli, termWord]
      exact wordAt_bad r.unread hb
    | trap x imm => exact absurd rfl (hnt x imm)
    | _ => cases hi
  · intro h imm s e l ls r hl htrap
    exact trap_faults r hl htrap

end Sys2Proof.Machine
end

section
/-! SUPPORT. Words that queue a job (R253, R254, R259, R267, R268, R278). -/

namespace Sys2Proof.Machine

open Sys2Proof

/-- A word that passes its checks, writes no register, changes the machine to `s1` and its group by `f`. -/
theorem noWrite_over {i : Instr} {h : Hdr} {len : Nat} {regs reads : List (Nat × Nat)} {s s1 : State} {e : Env}
    {f : Group → Group} {body : Env → State → Res} (hx : exec i s = word h len regs reads body s)
    (r : Ready h none regs reads s e) (hb : body e s = .ok (s1.noWrite e f)) (hg : s1.group e.gk = some e.g)
    (hframes : (f e.g).frames = e.g.frames) (hwindow : (f e.g).window = e.g.window) :
    ∃ t g', exec i s = .next t ∧ t.group e.gk = some g' ∧ Tail ((f e.g).pushWindow (winEntry [])) g' ∧
      Spared s1 t e (f e.g) noReg noReg g' := by
  obtain ⟨g', hg', T, hs⟩ := noWrite_spared hg hframes hwindow
    ((TailAt.correctReads e.gk (s1.noWrite e f) e reads).trans (.retire _ e h len))
  exact ⟨_, g', hx.trans (word_ready r hb), hg', T, hs⟩

/-- The same where only what it leaves is of interest. -/
theorem noWrite_over_completes {i : Instr} {h : Hdr} {len : Nat} {regs reads : List (Nat × Nat)} {s s1 : State} {e : Env}
    {f : Group → Group} {body : Env → State → Res} (hx : exec i s = word h len regs reads body s)
    (r : Ready h none regs reads s e) (hb : body e s = .ok (s1.noWrite e f)) (hg : s1.group e.gk = some e.g)
    (hframes : (f e.g).frames = e.g.frames) (hwindow : (f e.g).window = e.g.window) {P : State → Group → Prop}
    (hP : ∀ t g', Tail ((f e.g).pushWindow (winEntry [])) g' → Spared s1 t e (f e.g) noReg noReg g' → P t g') :
    Completes i s e P :=
  let ⟨t, g', ht, hg', T, hs⟩ := noWrite_over hx r hb hg hframes hwindow
  ⟨t, g', ht, hg', hP t g' T hs⟩

theorem copyWord_regs (o : EOp) (kind : CopyKind) : jobRegsOf o (kind != .copy) true =
    (if kind == .copy then [] else [span true o.vd]) ++ [span true o.va, span true o.vb, (o.vc.toNat, 8)] := by
  cases kind <;> rfl

theorem exec_copy {i : Instr} {o : EOp} {kind : CopyKind} (hi : copyOf i = some (o, kind)) (s : State) :
    exec i s = copyWord o kind s := by
  cases i <;> cases hi <;> rfl

theorem exec_sel {i : Instr} {o : EOp} {scmp : Bool} (hi : selOf i = some (o, scmp)) (s : State) : exec i s = selWord o scmp s := by
  cases i <;> cases hi <;> rfl

/-- A job's engine word counts in the engine counter. -/
def Group.countJob (g : Group) : Group := { g with engine := g.engine + 1 }

/-- Settles O39: the word appends a job that holds what it captured, and nothing else of the queue changes. -/
theorem engineWordsQueueJobs : Obligations.EngineWordsQueueJobs := by
  unfold Obligations.EngineWordsQueueJobs
  constructor
  · intro i o kind s e hi regs r
    have r' := r
    rw [show regs = _ from copyWord_regs o kind] at r'
    refine ⟨fun hl => ?_, ?_⟩
    · refine noWrite_over_completes (f := id) (exec_copy hi s) r' ?_ (env_group r.env) rfl rfl fun t g' _ hs => hs
      simp only [hl]
    · intro l ls hl q src dst ix d hc heng h16 h64
      have hc' : s.copyChecks (e.party l) kind o.fmt o.jf.toNat (e.pair 0 l o.va) (e.pair 1 l o.vb)
          (if kind == .copy then 0 else e.pair 3 l o.vd) (e.jobRegs l o.vc) = none := by
        rw [← hc]
        cases kind <;> rfl
      let j : CopyJob :=
        { gk := e.gk, id := e.g.issued, lane := l, kind := kind, fmt := o.fmt, jf := o.jf.toNat,
          src := BitVec.ofNat 64 src, dst := BitVec.ofNat 64 dst, ix := BitVec.ofNat 64 (if kind == .copy then 0 else e.pair 3 l o.vd), d := d,
          mode := e.g.mode, row := 0, chunk := 0, index := 0, work := none, lines := [], stop := none, flags := 0,
          pos := e.g.pos e.run.tag, paused := none }
      have hfull : (decide (16 ≤ (q.jobs.filter fun j => j.gk == e.gk).length) ||
          decide (64 ≤ (q.jobs.filter fun j => !s.teamAway j.gk).length) || decide (255 ≤ e.g.engine)) = false := by
        simp only [decide_eq_false (Nat.not_le.2 h16), decide_eq_false (Nat.not_le.2 h64), decide_eq_false (Nat.not_le.2 heng), Bool.or_false]
      refine noWrite_over_completes (f := Group.countJob) (s1 := s.setCopyQueue (e.core / 4) { q with jobs := q.jobs ++ [j] })
        (exec_copy hi s) r' ?_ (env_group r.env) rfl rfl fun t g' _ hs => ⟨j, hs, rfl, ?_, rfl⟩
      · simp only [hl, hc']
        exact if_neg (Bool.eq_false_iff.1 hfull)
      · cases kind <;> rfl
  · intro i o scmp s e hi useB regs r
    refine ⟨fun hl => ?_, ?_⟩
    · refine noWrite_over_completes (f := id) (exec_sel hi s) r ?_ (env_group r.env) rfl rfl fun t g' _ hs => hs
      simp only [hl]
    · intro l ls hl q vb d hc heng h8 h32
      have hc' : s.selChecks (e.party l) scmp o.jf.toNat o.fmt (e.pair 3 l o.vd) (e.pair 0 l o.va)
          (if scmp || o.jf.toNat.testBit 0 then e.pair 1 l o.vb else 0) (e.jobRegs l o.vc) = none := hc
      let j : SelJob :=
        { gk := e.gk, id := e.g.issued, lane := l, scmp := scmp, fmt := o.fmt, jf := o.jf.toNat,
          recAddr := BitVec.ofNat 64 (e.pair 3 l o.vd), col := BitVec.ofNat 64 (e.pair 0 l o.va), aux := BitVec.ofNat 64 vb, d := d,
          mode := e.g.mode, started := false, since := 0, mask := [], pass := 0, hi := imageWidth o.fmt - 1, cursor := 0, pre := 0,
          base := 0, n := 0, wt := 0, below := 0, bins := [], emitted := 0, thr := 0, thrEnc := 0, dead := false, fin := none,
          owned := s.homesOf (e.party l) ((e.pair 3 l o.vd, 128) :: (if scmp then [(vb, 4 * jobReg d 0)] else []) ++
            (if selMi d || selMo d then [(selMaskAddr d, (jobReg d 0 + 7) / 8)] else [])),
          maskDone := false, spoiled := false, lines := [], stop := none, pos := e.g.pos e.run.tag, paused := none }
      have hfull : (decide (8 ≤ (q.jobs.filter fun j => j.gk == e.gk).length) ||
          decide (32 ≤ (q.jobs.filter fun j => !s.teamAway j.gk).length) || decide (255 ≤ e.g.engine)) = false := by
        simp only [decide_eq_false (Nat.not_le.2 h8), decide_eq_false (Nat.not_le.2 h32), decide_eq_false (Nat.not_le.2 heng),
          Bool.or_false]
      refine noWrite_over_completes (f := Group.countJob) (s1 := s.setSelQueue (e.core / 4) { q with jobs := q.jobs ++ [j] })
        (exec_sel hi s) r ?_ (env_group r.env) rfl rfl fun t g' _ hs => ⟨j, hs, rfl, rfl, rfl⟩
      simp only [hl, hc']
      exact if_neg (Bool.eq_false_iff.1 hfull)

end Sys2Proof.Machine
end

section
/-! SUPPORT. `launch`, `evsig`, `msg` and `coll` (R323 to R325, R376, R377, R379, R381). -/

namespace Sys2Proof.Machine

open Sys2Proof

/-- Settles O41: one access joins the group's operations and its counter goes up, or the index is refused. -/
theorem launchAndSignalWords : Obligations.LaunchAndSignalWords := by
  unfold Obligations.LaunchAndSignalWords
  intro o s e
  refine ⟨fun r => ⟨fun hl => ?_, fun l ls tgt nc fill hl hchk heng => ?_⟩, fun r => ⟨fun hl => ?_, fun l ls c hl hctx => ?_⟩⟩
  · refine noWrite_over_completes (f := id) (i := .launch o) (s := s) (Eq.refl (execLaunch o s)) r ?_ (env_group r.env) rfl rfl fun t g' _ hs => hs
    simp only [hl]
  · let a : Access := { newAccess e .launch 256 .n32 0 0 false 0 (o.jf.toNat % 16) (Instr.launch o).encode.1 0 with
      lanes := [laneAcc l (e.g.lane l).depth (e.pair 0 l o.va) tgt nc 0 0 (s.portOf tgt)] }
    refine noWrite_over_completes (f := fun g => { (g.addAccess a) with engine := g.engine + 1 }) (s1 := s.fillTlb fill)
      (i := .launch o) (s := s) (Eq.refl (execLaunch o s)) r ?_ ?_ rfl rfl fun t g' T hs => ⟨hs.of_group rfl rfl rfl rfl rfl, a, _, T.ops, rfl, rfl, rfl, rfl, rfl, rfl, rfl, rfl, rfl⟩
    · simp only [hl, hchk, if_neg (Nat.not_le.2 heng)]
      rfl
    · rw [State.group, fillTlb_aside_of]
      exact env_group r.env
  · refine noWrite_over_completes (f := id) (i := .evsig o) (s := s) (Eq.refl (execEvsig o s)) r ?_ (env_group r.env) rfl rfl fun t g' _ hs => hs
    simp only [hl]
  · intro k
    refine ⟨fun h1 h2 h3 hst => ?_, fun hbad => ?_⟩
    · let a : Access := { newAccess e .evsig 8 o.fmt 0 0 false 0 0 (Instr.evsig o).encode.1 0 with
        lanes := [laneAcc l (e.g.lane l).depth k (2 ^ 60 + k) true (e.val 1 o.fmt l o.vb) 0 0] }
      refine noWrite_over_completes (f := fun g => { (g.addAccess a) with stores := g.stores + 1 }) (i := .evsig o) (s := s) (s1 := s)
        (Eq.refl (execEvsig o s)) r ?_ (env_group r.env) rfl rfl fun t g' T hs =>
          ⟨hs.of_group rfl rfl rfl rfl rfl, a, _, T.ops, rfl, rfl, rfl, rfl, rfl, rfl, rfl, rfl⟩
      have hown : c.owns (e.reg1 0 l o.va) = true := by
        unfold Ctx.owns
        rw [decide_eq_true h2, decide_eq_true h3]
        rfl
      have hk : decide (4096 ≤ e.reg1 0 l o.va) = false := decide_eq_false (Nat.not_le.2 h1)
      simp only [hl, hctx, hown, hk, if_neg (Nat.not_le.2 hst)]
      rfl
    · have hx : execEvsig o s = .next (s.takeFault e.gk e.run.tag (wfault cPROT l)) := by
        unfold execEvsig word
        refine wordAt_bad r ?_
        have hown : (decide (4096 ≤ e.reg1 0 l o.va) || !c.owns (e.reg1 0 l o.va)) = true := by
          unfold Ctx.owns
          rcases hbad with h | h | h
          · simp [show 4096 ≤ e.reg1 0 l o.va from h]
          · simp [show ¬ c.evFirst ≤ e.reg1 0 l o.va from Nat.not_le.2 h]
          · simp [show ¬ e.reg1 0 l o.va < c.evFirst + c.evCount from Nat.not_lt.2 h]
        simp only [hl, hctx, hown, if_true]
      exact ⟨_, hx, takeFault_taken r.env _⟩

/-! ## What reading for a word leaves (R279) -/

theorem memSide_readSeg {s s' : State} {x : Seg} {bs : List Byte} (h : s.readSeg x = .ok (s', bs)) : MemSide s s' := by
  unfold State.readSeg at h
  split at h
  · cases h
    exact memSide_freed s
  · simp only at h
    split at h
    · cases h
    · cases h
      exact (memSide_home s x.target).trans (memSide_correctHome _ _ _)

theorem memSide_readSegs {s s' : State} {xs : List Seg} {bs : List Byte} (h : s.readSegs xs = .ok (s', bs)) : MemSide s s' := by
  induction xs generalizing s bs with
  | nil =>
    cases h
    exact .refl _
  | cons x xs ih =>
    rw [State.readSegs] at h
    split at h
    · cases h
    · next s1 b1 h1 =>
      split at h
      · next s2 b2 h2 =>
        cases h
        exact (memSide_readSeg h1).trans (ih h2)
      · cases h

theorem memSide_veilSegs (s : State) (gk id : Nat) (xs : List Seg) (bs : List Byte) : MemSide s (s.veilSegs gk id xs bs).1 := by
  induction xs generalizing s bs with
  | nil => exact .refl s
  | cons x xs ih =>
    refine MemSide.trans ?_ (ih _ _)
    split
    · exact .refl s
    · exact memSide_veil ..

theorem memSide_readSegsFor {s s' : State} {gk id : Nat} {xs : List Seg} {bs : List Byte}
    (h : s.readSegsFor gk id xs = .ok (s', bs)) : MemSide s s' := by
  unfold State.readSegsFor at h
  split at h
  · next s1 b1 h1 =>
    have hs : (s1.veilSegs gk id xs b1).1 = s' := congrArg Prod.fst (Except.ok.inj h)
    exact hs ▸ (memSide_readSegs h1).trans (memSide_veilSegs ..)
  · cases h

/-! ## A group that a release has stopped -/

theorem MemSide.group {s t : State} (h : MemSide s t) (k : Nat) : t.group k = s.group k := by
  rw [h.rest]
  rfl

theorem TailAt.deferFault (s : State) (k : Nat) (pos : Word) (f : WFault) (engine : Bool) (under row col : Nat) (job : Option Nat) :
    TailAt k s (s.deferFault k pos f engine under row col job) := by
  unfold State.deferFault
  split
  · exact .refl k _
  · exact (TailAt.addRecord ..).trans (.halt ..)

/-- A job's release leaves a group what the end of a word leaves. -/
theorem jobRelease_tail (s : State) (gk core : Nat) (pos : Word) :
    ∃ u, MemSide s u ∧ TailAt gk u (s.jobRelease gk core pos) := by
  refine ⟨s.releaseAction core 2, memSide_releaseAction s core 2, ?_⟩
  unfold State.jobRelease
  cases s.dirtyBad core with
  | none => exact .refl gk _
  | some a => exact .deferFault ..

/-- A word that counts a job of a group which its release may have stopped. -/
theorem countJob_completes {i : Instr} {h : Hdr} {len : Nat} {regs reads : List (Nat × Nat)} {s s1 : State} {e : Env}
    {body : Env → State → Res} (hx : exec i s = word h len regs reads body s) (r : Ready h none regs reads s e)
    (hb : body e s = .ok (s1.noWrite e Group.countJob)) {g1 : Group} (hg : s1.group e.gk = some g1) (T1 : Tail e.g g1)
    {P : State → Group → Prop} (hP : ∀ t g', Spared s1 t e e.g.countJob noReg noReg g' → P t g') : Completes i s e P := by
  have T := (TailAt.correctReads e.gk (s1.noWrite e Group.countJob) e reads).trans (.retire _ e h len)
  have hown : (s1.noWrite e Group.countJob).group e.gk = some (g1.countJob.pushWindow (winEntry [])) := by
    rw [State.noWrite, group_onGroup, if_pos rfl, hg]
    rfl
  obtain ⟨g', hg', T'⟩ := T.group _ hown
  have hcount := T1.counters
  simp only [Prod.mk.injEq] at hcount
  obtain ⟨h1, h2, h3, h4⟩ := hcount
  refine ⟨_, g', hx.trans (word_ready r hb), hg', hP _ _ ⟨State.sameBut_trans (show s1.sameBut (s1.noWrite e Group.countJob) from rfl) T.rest,
    fun k => T.teams k, fun k hk => ?_, T'.lanes.trans T1.lanes, T'.slices.trans T1.slices, T'.special.trans T1.special,
    T'.regions.trans T1.regions, T'.counters.trans ?_, fun d => (T'.still d).trans (T1.still d),
    fun d l r _ _ => (T'.bank d l r).trans (T1.bank d l r), fun l r _ _ => ?_⟩⟩
  · rw [T.others k hk, State.noWrite, group_onGroup, if_neg hk]
  · show (g1.loads, g1.stores, g1.engine + 1, g1.tile) = (e.g.loads, e.g.stores, e.g.engine + 1, e.g.tile)
    rw [h1, h2, h3, h4]
  · rw [Group.seen, T'.window]
    refine (seen_winEntry_nil (g := g1.countJob)).trans ?_
    show windowRead (g1.window.take 6) l r = _
    rw [T1.window]

/-! ## `msg` (R381) -/

theorem find_nextKey {α : Type} (m : KMap α) : m.find (nextKey m) = none := by
  have key (ks : List Nat) (a : Nat) : a ≤ ks.foldl (fun a k => max a (k + 1)) a ∧
      ∀ k ∈ ks, k < ks.foldl (fun a k => max a (k + 1)) a := le_foldl_max ks (fun k => k + 1) a
  cases h : m.find (nextKey m) with
  | none => rfl
  | some x =>
    have hmem : nextKey m ∈ m.keys := List.mem_map.2 ⟨_, KMap.mem_of_find h, rfl⟩
    exact absurd ((key m.keys 0).2 _ hmem) (Nat.lt_irrefl _)

theorem msg_queues {o : EOp} {s : State} {e : Env} {l : Nat} {ls : List Nat} (hl : e.lanes = l :: ls) (heng : e.g.engine < 255)
    (hfull : s.collFull (e.core / 96) e.gk = false) {v off : Nat}
    (r : Ready o.h none [span true o.va, span false o.vb, (o.vc.toNat, 16)]
      [span true o.va, span false o.vb, (o.vc.toNat, 16)] s e)
    (hw : windowOf (e.pair 0 l o.va) = some (.vault v off)) (hoff : off % 64 = 0)
    (hnode : e.reg1 1 l o.vb = 1023 ∨ (e.reg1 1 l o.vb < 1023 ∧ s.nodeValid (e.reg1 1 l o.vb) = true)) :
    Completes (.msg o) s e fun t g' => ∃ key m, s.msgs.find key = none ∧
      Spared { s with msgs := s.msgs.put key m } t e { e.g with engine := e.g.engine + 1 } noReg noReg g' ∧
      (m.gk, m.id, m.node, m.vault, m.offset) = (e.gk, e.g.issued, e.reg1 1 l o.vb, v, off) ∧
      m.data = ((natsFrom o.vc.toNat 16).map fun r => e.reg 2 l r) ∧ m.sender = none ∧ m.sent = false := by
  let m : Message :=
    { gk := e.gk, id := e.g.issued, node := e.reg1 1 l o.vb, vault := v, offset := off,
      data := (natsFrom o.vc.toNat 16).map fun r => e.reg 2 l r,
      port := if e.reg1 1 l o.vb == 1023 then 0 else s.portOf (2 ^ 50 + e.reg1 1 l o.vb * 2 ^ 40), sender := none,
      pos := e.g.pos e.run.tag, sent := false, atPort := none }
  refine noWrite_over_completes (f := Group.countJob) (i := .msg o) (s := s) (s1 := { s with msgs := s.msgs.put (nextKey s.msgs) m })
    (Eq.refl (execMsg o s)) r ?_ (env_group r.env) rfl rfl fun t g' _ hs => ⟨nextKey s.msgs, m, find_nextKey _, hs, rfl, rfl, rfl, rfl⟩
  have h1 : (decide (1024 ≤ e.reg1 1 l o.vb) || off % 64 != 0) = false := by
    have : ¬ 1024 ≤ e.reg1 1 l o.vb := by omega
    simp [this, hoff]
  have h2 : (e.reg1 1 l o.vb != 1023 && !s.nodeValid (e.reg1 1 l o.vb)) = false := by
    rcases hnode with h | ⟨-, h⟩ <;> simp [h]
  have h3 : (s.collFull (dieOf e.core) e.gk || decide (255 ≤ e.g.engine)) = false := by
    rw [show s.collFull (dieOf e.core) e.gk = false from hfull, decide_eq_false (Nat.not_le.2 heng)]
    rfl
  simp only [hl, hw, h1, h2, h3, Bool.false_eq_true, if_false]
  rfl

/-! ## `coll` (R377, R379) -/

/-- What a `coll` captures. -/
def collJob (o : EOp) (s1 : State) (e : Env) (l : Nat) (list : Option (List Byte)) : CollPart :=
  { gk := e.gk, id := e.g.issued, lane := l, die := dieOf e.core, fmt := o.fmt, fn := o.jf.toNat % 4,
    nofe := o.jf.toNat.testBit 2, d := e.jobRegs l o.vc, src := BitVec.ofNat 64 (e.pair 0 l o.va),
    dst := BitVec.ofNat 64 (e.pair 1 l o.vb), list := list, paths := s1.pathTable, data := [], since := s1.seq,
    pos := e.g.pos e.run.tag, paused := none }

/-- What the list of a `coll` gives where it can be read. -/
def collRead (o : EOp) (s1 : State) (e : Env) (l : Nat) : Option (State × List Byte) :=
  match s1.collRange (e.party l) false (collListAddr (e.jobRegs l o.vc)) (4 * collP (e.jobRegs l o.vc)) with
  | .ok segs fill =>
    if (s1.segsDown segs).isSome then none
    else (s1.readSegsFor e.gk e.g.issued segs).toOption.map fun r =>
      ((r.1.fillTlb fill).count e.la.ctx 12 (vaultBytes segs), r.2)
  | _ => none

section
variable {o : EOp} {s s1 : State} {e : Env} {l : Nat} {ls : List Nat} (hl : e.lanes = l :: ls)
  (heng : e.g.engine < 255) (hfull : s.collFull (e.core / 96) e.gk = false)
  (r : Ready o.h none [span true o.va, span true o.vb, (o.vc.toNat, 8)] [span true o.va, span true o.vb, (o.vc.toNat, 8)] s e)
  (hd : collDescrOk (e.jobRegs l o.vc) = true) (hla : misaligned (collListAddr (e.jobRegs l o.vc)) 4 = false)
  (hsrc : misaligned (e.pair 0 l o.va) (collElem o.fmt (o.jf.toNat % 4)) = false)
  (hdst : misaligned (e.pair 1 l o.vb) (collElem o.fmt (o.jf.toNat % 4)) = false)
  (hdirty : s.dirtyBad e.core = none) (hbefore : s.beforeAll e.gk e.g.issued (e.g.pos e.run.tag) = some s1)
include hl heng hfull r hd hla hsrc hdst hdirty hbefore

/-- A `coll` whose checks pass queues its job, from the machine that reading its list has left. -/
theorem coll_queues {s3 : State} {list : Option (List Byte)} (h3 : MemSide s1 s3 ∨ ∃ s2 n, MemSide s1 s2 ∧ s3 = s2.count e.la.ctx 12 n)
    (hread : (collRead o s1 e l = none ∧ s3 = s1 ∧ list = none) ∨
      ∃ bs, collRead o s1 e l = some (s3, bs) ∧ list = some bs ∧ listOk s3.pathTable (e.jobRegs l o.vc) (dieOf e.core) bs = true) :
    Completes (.coll o) s e fun t g' => Spared (s3.setCollQueue (e.core / 96) (s3.collQueue (e.core / 96) ++ [collJob o s1 e l list])) t e
      e.g.countJob noReg noReg g' := by
  obtain ⟨g1, hg1, T1⟩ : ∃ g1, s3.group e.gk = some g1 ∧ Tail e.g g1 := by
    have hs1 : ∃ g1, s1.group e.gk = some g1 ∧ Tail e.g g1 := by
      unfold State.beforeAll at hbefore
      rw [env_group r.env] at hbefore
      simp only at hbefore
      split at hbefore
      · obtain ⟨u, hu, hT⟩ := jobRelease_tail s e.gk (s.seat e.g).1 (e.g.pos e.run.tag)
        obtain rfl := Option.some.inj hbefore
        exact hT.group _ ((hu.group _).trans (env_group r.env))
      · cases hbefore
    obtain ⟨g1, hg1, T1⟩ := hs1
    refine ⟨g1, ?_, T1⟩
    rcases h3 with h3 | ⟨s2, n, h2, rfl⟩
    · exact (h3.group _).trans hg1
    · exact (h2.group _).trans hg1
  have hstall : (s.collFull (dieOf e.core) e.gk || decide (255 ≤ e.g.engine)) = false := by
    rw [show s.collFull (dieOf e.core) e.gk = false from hfull, decide_eq_false (Nat.not_le.2 heng)]
    rfl
  refine countJob_completes (i := .coll o) (s := s)
    (s1 := s3.setCollQueue (e.core / 96) (s3.collQueue (e.core / 96) ++ [collJob o s1 e l list])) (Eq.refl (execColl o s)) r ?_ (g1 := g1) hg1 T1 fun t g' hs => hs
  simp only [hl, hd, hla, hsrc, hdst, hstall, hdirty, hbefore, Bool.not_true, Bool.false_eq_true, if_false]
  show (match collRead o s1 e l with
    | none => Res.ok ((s1.setCollQueue (dieOf e.core) (s1.collQueue (dieOf e.core) ++ [collJob o s1 e l none])).noWrite e Group.countJob)
    | some (s', bs) => if listOk s'.pathTable (e.jobRegs l o.vc) (dieOf e.core) bs = true then
        .ok ((s'.setCollQueue (dieOf e.core) (s'.collQueue (dieOf e.core) ++ [collJob o s1 e l (some bs)])).noWrite e Group.countJob)
      else _) = _
  rcases hread with ⟨h1, rfl, rfl⟩ | ⟨bs, h1, rfl, hok⟩
  · rw [h1]
    rfl
  · rw [h1]
    exact if_pos hok

end

/-- Settles O40: the checks pass, and a message or a job joins the engine of the die. -/
theorem fabricWordsQueue : Obligations.FabricWordsQueue := by
  unfold Obligations.FabricWordsQueue
  intro o s e l ls hl heng hfull
  refine ⟨fun v off r hw hoff hnode => msg_queues hl heng hfull r hw hoff hnode, fun s1 r => ?_⟩
  intro d hd hla hsrc hdst hdirty hbefore range queued
  refine ⟨fun segs fill s2 list hr hdown hread hok => ?_, fun hnone => ?_⟩
  · have hmem := (memSide_readSegsFor hread).trans (memSide_fillTlb s2 fill)
    have hpath : ((s2.fillTlb fill).count e.la.ctx 12 (vaultBytes segs)).pathTable = s1.pathTable := by
      show (s2.fillTlb fill).pathTable = _
      rw [hmem.rest]
    obtain ⟨t, g', ht, hg', hs⟩ := coll_queues hl heng hfull r hd hla hsrc hdst hdirty hbefore (.inr ⟨_, _, hmem, rfl⟩)
      (.inr ⟨list, by
        unfold collRead
        rw [show s1.collRange (e.party l) false (collListAddr (e.jobRegs l o.vc)) (4 * collP (e.jobRegs l o.vc)) = .ok segs fill from hr]
        simp only [hdown, hread]
        rfl, rfl, hpath ▸ hok⟩)
    exact ⟨t, g', ht, hg', collJob o s1 e l (some list), hs, rfl, rfl, rfl⟩
  · obtain ⟨t, g', ht, hg', hs⟩ := coll_queues hl heng hfull r hd hla hsrc hdst hdirty hbefore (.inl (.refl s1))
      (.inl ⟨by
        unfold collRead
        split
        · next segs fill hr =>
          split
          · rfl
          · next hdown =>
            rcases hnone segs fill hr with h | ⟨a, ha⟩
            · exact absurd (Option.isSome_iff_ne_none.2 h) hdown
            · rw [ha]
              rfl
        · rfl, rfl, rfl⟩)
    exact ⟨t, g', ht, hg', collJob o s1 e l none, hs, rfl, rfl, rfl⟩

end Sys2Proof.Machine
end

section
/-! SUPPORT. `crew`, `wld`, accumulator transfers and `mma` (R218 to R222, R226, R229, R232, R233). -/

namespace Sys2Proof.Machine

open Sys2Proof

/-! ## `crew` and `wld` (R218, R222) -/

/-- A tile word that writes no register: it leaves what its body does to the state and to the group. -/
theorem tileWord_completes {i : Instr} {h : Hdr} {regs : List (Nat × Nat)} {s s1 : State} {e : Env} {f : Group → Group}
    {body : Env → State → Res} (hx : exec i s = tileWord h regs body s) (r : Ready h none regs [] s e)
    (hb : body e s = .ok (s1.noWrite e f)) (hg : s1.group e.gk = some e.g) (hframes : (f e.g).frames = e.g.frames)
    (hwindow : (f e.g).window = e.g.window) {P : State → Group → Prop}
    (hP : ∀ t g', Tail ((f e.g).pushWindow (winEntry [])) g' → Spared s1 t e (f e.g) noReg noReg g' → P t g') :
    Completes i s e P := by
  obtain ⟨g', hg', T, hs⟩ := noWrite_spared hg hframes hwindow
    ((TailAt.correctReads e.gk (s1.noWrite e f) e []).trans ((TailAt.correctReads e.gk _ e regs).trans (.retire _ e h 1)))
  exact ⟨_, g', hx.trans (wordAt_ready r hb), hg', hP _ g' T hs⟩

theorem natsFrom_zero (n : Nat) : natsFrom 0 n = List.range n := by
  rw [natsFrom_eq_range', List.range_eq_range']

/-- The masks that `crew` takes (R218). -/
theorem crewOk_iff (s : State) (tm : Team) (team gidx x : Nat) : s.crewOk tm team gidx x = true ↔ x = 0 ∨ (x < 2 ^ 16 ∧
    x.testBit gidx = true ∧ 2 ≤ ((List.range 16).filter fun i => x.testBit i).length ∧
    ((List.range 16).filter fun i => x.testBit i).length ≤ 6 ∧
    ∀ i ∈ (List.range 16).filter fun i => x.testBit i, i < tm.p + tm.c ∧ (s.group (team * 16 + i)).isSome) := by
  unfold State.crewOk
  simp only [natsFrom_zero, Bool.and_eq_true, Bool.or_eq_true, decide_eq_true_eq, beq_iff_eq, List.all_eq_true, and_assoc,
    gkOf]
  constructor
  · rintro ⟨hx, h | h⟩
    · exact .inl h
    · exact .inr ⟨hx, h⟩
  · rintro (h | ⟨hx, h⟩)
    · exact ⟨by omega, .inl h⟩
    · exact ⟨hx, .inr h⟩

/-- Settles O42: a legal mask replaces the crew, any other is `CREW_BAD`; a weight load writes its logical bank and joins the
tile operations. -/
theorem crewsAndWeightLoads : Obligations.CrewsAndWeightLoads := by
  unfold Obligations.CrewsAndWeightLoads
  intro s e l ls hl
  constructor
  · intro h va r x named legal
    have hok : s.crewOk e.tm e.g.team e.g.gidx x = true ↔ legal := crewOk_iff ..
    refine ⟨fun hleg => ?_, fun hleg => ?_⟩
    · refine tileWord_completes (f := fun g => { g with crew := BitVec.ofNat 16 x }) (i := .crew h va) (s := s)
        (Eq.refl (execCrew h va s)) r ?_ (env_group r.env) rfl rfl fun t g' _ hs => hs
      simp only [hl]
      exact if_pos (hok.2 hleg)
    · have hx : execCrew h va s = .next (s.takeFault e.gk e.run.tag { (wfault cCREWBAD l) with cause := 1 }) := by
        unfold execCrew tileWord
        refine wordAt_bad r ?_
        simp only [hl]
        exact if_neg (mt hok.1 hleg)
      exact ⟨_, hx, takeFault_taken r.env _⟩
  · intro o keys regs bank r hkeys htile
    let b : LBank := ⟨keys.getD 0 0, keys.getD 1 0, keys.getD 2 0, o.fmt,
      ((e.tm.lbanks.find bank).map (·.gen)).getD 0 + 1, .loading, s.seq⟩
    refine tileWord_completes
      (f := fun g => g.addTile (newTile e (.wld bank b (o.jf.toNat.testBit 1) none) [] [] 0 [] (fIf (isSixBit o.fmt) fSUBST)))
      (s1 := s.onTeam e.g.team fun tm => { tm with lbanks := tm.lbanks.put bank b }) (i := .wld o) (s := s)
      (Eq.refl (execWld o s)) r ?_ (env_group (s := s) r.env) rfl rfl fun t g' T hs =>
        ⟨b, hs.of_group rfl rfl rfl rfl rfl, rfl, rfl, _, T.tiles, rfl, rfl, rfl⟩
    simp only [hl, hkeys, if_neg (Nat.not_le.2 htile)]
    rfl

/-! ## Accumulator transfers (R232, R233) -/

/-- A word that names rows which exist runs as any other. -/
theorem widthWord_fits {h : Hdr} {arow : BitVec 5} {regs reads : List (Nat × Nat)} {fin : Env → State → State}
    {body : Env → State → Res} {s : State} {e : Env} (he : s.env h.m = some e) (hw : arow.toNat * 16 + e.g.width ≤ 512) :
    widthWord h arow regs reads fin body s =
      wordAt h 1 none regs [] (fun e s' => fin e ((s'.correctReads e reads).retire e h 1)) body s := by
  unfold widthWord
  simp only [he, decide_eq_false (Nat.not_lt.2 hw), Bool.and_false, Bool.false_eq_true, if_false]

/-- Rows beyond the last one are `ILL_FIELD`, before the registers are looked at (R43, R226, R232). -/
theorem widthWord_bad {h : Hdr} {arow : BitVec 5} {regs reads : List (Nat × Nat)} {fin : Env → State → State}
    {body : Env → State → Res} {s : State} {e : Env} (he : s.env h.m = some e) (hm : h.m ≠ 0)
    (hb : badMember h.m e.slots.length = false) (hw : 512 < arow.toNat * 16 + e.g.width) :
    widthWord h arow regs reads fin body s = .next (s.takeFault e.gk e.run.tag (wfault cILLFIELD 0)) := by
  unfold widthWord
  simp only [he, bne_iff_ne.2 hm, hb, decide_eq_true hw, Bool.not_false, Bool.and_self, if_true]

/-- A word that names rows beyond the last one takes the fault. -/
theorem exec_rowWord_bad {i : Instr} {h : Hdr} {arow : BitVec 5} {regs reads : List (Nat × Nat)} {s : State} {e : Env}
    (hi : rowWord i = some (h, arow, regs, reads)) (he : s.env h.m = some e) (hm : h.m ≠ 0)
    (hb : badMember h.m e.slots.length = false) (hw : 512 < arow.toNat * 16 + e.g.width) :
    exec i s = .next (s.takeFault e.gk e.run.tag (wfault cILLFIELD 0)) := by
  cases i <;> cases hi
  case mma o =>
    show execMma o s = _
    unfold execMma
    exact widthWord_bad he hm hb hw
  case accld o =>
    show memXfer o .ld s = _
    unfold memXfer
    exact widthWord_bad he hm hb hw
  case accst o =>
    show memXfer o .st s = _
    unfold memXfer
    exact widthWord_bad he hm hb hw
  case accrd o =>
    show rowXfer o .rd s = _
    unfold rowXfer
    exact widthWord_bad he hm hb hw
  case accz o =>
    show rowXfer o .z s = _
    unfold rowXfer
    exact widthWord_bad he hm hb hw

theorem length_tiles_supersede (ks : List Nat) (g : Group) : (ks.foldl Group.supersede g).tiles.length = g.tiles.length := by
  induction ks generalizing g with
  | nil => rfl
  | cons k ks ih =>
    rw [List.foldl_cons, ih]
    exact List.length_map ..

theorem addTile_rest (g : Group) (t : TileOp) : g.addTile t =
    { g with tile := g.tile + 1, keeps := (g.addTile t).keeps, ops := (g.addTile t).ops, tiles := (g.addTile t).tiles } := by
  unfold Group.addTile
  rw [(foldl_supersede t.dests g).1]

theorem tiles_addTile (g : Group) (t : TileOp) :
    (g.addTile t).tiles.getLast? = some t ∧ (g.addTile t).tiles.length = g.tiles.length + 1 := by
  unfold Group.addTile
  refine ⟨List.getLast?_concat, ?_⟩
  show (_ ++ [t]).length = _
  rw [List.length_append, length_tiles_supersede]
  rfl

/-- No element of a transfer meets a stop where no watchpoint of the launch stops. -/
theorem watchXfer_stop {s : State} {e : Env} (hs : s.noStops e.la.ctx) (kind size : Nat) (ls : List XferLane) :
    ((s.watchXfer e kind size ls).find? fun h => h.2.2.1) = none := by
  refine List.find?_eq_none.2 fun h hh => ?_
  unfold State.watchXfer at hh
  split at hh
  · cases hh
  · obtain ⟨a, -, ha⟩ := List.mem_filterMap.1 hh
    cases hw : s.watchParts e.la.ctx kind (a.elems.map fun p => (p.target, size)) with
    | none => rw [hw] at ha; cases ha
    | some w =>
      rw [hw] at ha
      obtain rfl := Option.some.inj ha
      simp [watchParts_stop hs hw]

/-- What a transfer that passes its checks does to its group. -/
def Group.startXfer (g : Group) (e : Env) (t : TileOp) : Group := if e.lanes.isEmpty then g else g.addTile t

/-- The operation of a transfer between rows and memory. -/
def xferTile (o : AccOp) (kind : XferKind) (e : Env) (ls : List XferLane) : TileOp :=
  newTile e (.xfer kind o.col.toNat (o.jf.toNat + 1) o.fmt 0 e.g.mode ls) [] [] (o.arow.toNat * 16) e.lanes 0

/-- A transfer between rows and memory that passes its checks issues; what it makes of the machine is the fill of the
translations and a record of a watchpoint that it met. -/
theorem memXfer_runs {o : AccOp} {kind : XferKind} {s : State} {e : Env} {ls : List XferLane} {fill : List TlbEntry}
    (r : Ready o.h none [span true o.va] [] s e) (hw : o.arow.toNat * 16 + e.g.width ≤ 512) (hs : s.noStops e.la.ctx)
    (htile : e.g.tile < 255) (hls : s.xferLanes e (fun l => s.tilePair e l o.va) (xferElems o.fmt (o.jf.toNat + 1))
      (o.fmt.width / 8) (kind == .st) e.lanes = .ok (ls, fill)) :
    ∃ rs, memXfer o kind s = .next (((((s.fillTlb fill).aside s.groups rs).noWrite e fun g =>
      g.startXfer e (xferTile o kind e ls)).correctReads
        e [span true o.va]).retire e o.h 1) := by
  unfold memXfer
  simp only [widthWord_fits r.env hw]
  have hrun (u : State) {body : Env → State → Res} (hb : body e s = .ok u) :
      wordAt o.h 1 none [span true o.va] [] (fun e s' => (s'.correctReads e [span true o.va]).retire e o.h 1) body s =
        .next ((u.correctReads e [span true o.va]).retire e o.h 1) := by
    rw [wordAt_ready r hb, correctReads_nil]
  have hstall : (decide (255 ≤ e.g.tile) && !e.lanes.isEmpty) = false := by
    rw [decide_eq_false (Nat.not_le.2 htile)]
    rfl
  cases hh : s.watchXfer e (if kind == .st then 0 else 3) (o.fmt.width / 8) ls with
  | nil =>
    refine ⟨s.records, hrun _ ?_⟩
    simp only [hls, hstall, hh, Bool.false_eq_true, if_false, List.find?_nil]
    rw [← fillTlb_aside]
    rfl
  | cons h hits =>
    have hnone := watchXfer_stop (e := e) hs (if kind == .st then 0 else 3) (o.fmt.width / 8) ls
    rw [hh] at hnone
    refine ⟨(s.addRecord (s.watchRecord e.gk e.run.tag 0 0 (e.g.pos e.run.tag) h.1.ea h.1.lane h.2.1 h.2.2.2
      (xferElems o.fmt (o.jf.toNat + 1) * (o.fmt.width / 8)))).records, hrun _ ?_⟩
    simp only [hls, hstall, hh, hnone, Bool.false_eq_true, if_false]
    rw [← fillTlb_aside]
    rfl

/-- A transfer between rows and memory leaves the translations it filled and its operation. -/
theorem memXfer_completes {i : Instr} {o : AccOp} {kind : XferKind} {s : State} {e : Env} {ls : List XferLane} {fill : List TlbEntry}
    (hx : exec i s = memXfer o kind s) (r : Ready o.h none [span true o.va] [] s e) (hw : o.arow.toNat * 16 + e.g.width ≤ 512)
    (hs : s.noStops e.la.ctx) (htile : e.g.tile < 255)
    (hls : s.xferLanes e (fun l => s.tilePair e l o.va) (xferElems o.fmt (o.jf.toNat + 1)) (o.fmt.width / 8) (kind == .st)
      e.lanes = .ok (ls, fill)) {P : State → Group → Prop}
    (hP : ∀ t g', Tail ((e.g.startXfer e (xferTile o kind e ls)).pushWindow (winEntry [])) g' →
      Spared (s.fillTlb fill) t e (e.g.startXfer e (xferTile o kind e ls)) noReg noReg g' → P t g') : Completes i s e P := by
  obtain ⟨rs, hrs⟩ := memXfer_runs r hw hs htile hls
  obtain ⟨x, hxt⟩ : ∃ x, x = xferTile o kind e ls := ⟨_, rfl⟩
  rw [← hxt] at hrs hP
  have hdests : x.dests = [] := by rw [hxt]; rfl
  have hgroup : ((s.fillTlb fill).aside s.groups rs).group e.gk = some e.g := env_group (s := s) r.env
  have hadd : e.g.startXfer e x = { e.g with
      tile := (e.g.startXfer e x).tile
      tiles := (e.g.startXfer e x).tiles } := by
    unfold Group.startXfer
    split
    · rfl
    · unfold Group.addTile
      rw [hdests]
      rfl
  obtain ⟨g', hg', T, hsp⟩ := noWrite_spared hgroup (f := fun g => g.startXfer e x) (by rw [hadd]) (by rw [hadd])
    ((TailAt.correctReads e.gk (((s.fillTlb fill).aside s.groups rs).noWrite e fun g => g.startXfer e x) e
      [span true o.va]).trans (.retire _ e o.h 1))
  refine ⟨_, g', hx.trans hrs, hg', hP _ g' T ⟨State.sameBut_trans (show (s.fillTlb fill).sameBut
    (((s.fillTlb fill).aside s.groups rs).noWrite e fun g => g.startXfer e x) from rfl) hsp.rest, hsp.teams, fun k hk => ?_, hsp.lanes,
    hsp.slices, hsp.special, hsp.regions, hsp.counters, hsp.frames, hsp.bank, hsp.window⟩⟩
  rw [hsp.others k hk]
  show s.groups.find k = (s.fillTlb fill).groups.find k
  rw [fillTlb_aside_of]

/-- What `accrd` and `accz` make of their group. -/
def Group.startRows (g : Group) (e : Env) (t : TileOp) (regs : List Nat) : Group :=
  (if e.lanes.isEmpty then g else g.addTile t).pushWindow (if regs.isEmpty then winEntry [] else winAsync regs e.lanes)

/-- The lanes of an operation on rows alone. -/
def Env.rowLanes (e : Env) : List XferLane := e.lanes.map fun l => ⟨l, (e.g.lane l).depth, 0, []⟩

/-- The operation of `accrd` or `accz`. -/
def rowTile (o : AccOp) (kind : XferKind) (e : Env) (regs : List Nat) : TileOp :=
  newTile e (.xfer kind o.col.toNat (o.jf.toNat + 1) .f32 o.vd.toNat e.g.mode e.rowLanes)
    (e.rowLanes.flatMap fun x => regs.map fun r => regKey x.depth.toNat x.lane r) [] (o.arow.toNat * 16) e.lanes 0

theorem rowXfer_completes {i : Instr} {o : AccOp} {kind : XferKind} {s : State} {e : Env} {regs : List Nat}
    (hx : exec i s = rowXfer o kind s) (hregs : regs = if kind == .rd then natsFrom o.vd.toNat (o.jf.toNat + 1) else [])
    (r : Ready o.h none (if kind == .rd then [(o.vd.toNat, o.jf.toNat + 1)] else []) [] s e)
    (hw : o.arow.toNat * 16 + e.g.width ≤ 512) (htile : e.g.tile < 255) (hl : e.lanes ≠ []) {P : State → Group → Prop}
    (hP : ∀ t g', Tail (e.g.startRows e (rowTile o kind e regs) regs) g' →
      Spared s t e { e.g with tile := e.g.tile + 1 } noReg (fun l r => l ∈ e.lanes ∧ r ∈ regs) g' → P t g') : Completes i s e P := by
  have hrun : rowXfer o kind s = .next (((s.onGroup e.gk fun g => g.startRows e (rowTile o kind e regs) regs).correctReads e []).retire e o.h 1) := by
    unfold rowXfer
    simp only [widthWord_fits r.env hw]
    rw [← correctReads_nil (s.onGroup e.gk fun g => g.startRows e (rowTile o kind e regs) regs) e]
    refine wordAt_ready r ?_
    have hstall : (decide (255 ≤ e.g.tile) && !e.lanes.isEmpty) = false := by
      rw [decide_eq_false (Nat.not_le.2 htile)]
      rfl
    simp only [hstall, Bool.false_eq_true, if_false, hregs]
    rfl
  have hempty : e.lanes.isEmpty = false := by simpa using hl
  have hstart : e.g.startRows e (rowTile o kind e regs) regs = (e.g.addTile (rowTile o kind e regs)).pushWindow
      (if regs.isEmpty then winEntry [] else winAsync regs e.lanes) := by
    rw [Group.startRows, hempty]
    rfl
  have hown : (s.onGroup e.gk fun g => g.startRows e (rowTile o kind e regs) regs).group e.gk =
      some (e.g.startRows e (rowTile o kind e regs) regs) := by
    rw [group_onGroup, if_pos rfl, env_group r.env]
    rfl
  have hrest := addTile_rest e.g (rowTile o kind e regs)
  have ha : Aside e.gk s (s.onGroup e.gk fun g => g.startRows e (rowTile o kind e regs) regs) := .onGroup ..
  obtain ⟨g', hg', T, hsp⟩ := stepped_spared (g0 := { e.g with tile := e.g.tile + 1 }) (banked := noReg)
    (windowed := fun l r => l ∈ e.lanes ∧ r ∈ regs) ha hown
    ((TailAt.correctReads e.gk _ e []).trans (.retire _ e o.h 1)) (by rw [hstart, hrest]; rfl) (by rw [hstart, hrest]; rfl)
    (by rw [hstart, hrest]; rfl) (by rw [hstart, hrest]; rfl) (by rw [hstart, hrest]; rfl) (by rw [hstart, hrest]; rfl)
    fun l r _ hlr => by
      rw [hstart]
      have hwin : (e.g.addTile (rowTile o kind e regs)).window = e.g.window := by rw [hrest]
      split
      · rw [seen_winEntry_nil, hwin]
      · rw [seen_winAsync, if_neg hlr, hwin]
  exact ⟨_, g', hx.trans hrun, hg', hP _ g' T hsp⟩


/-- Settles O44: an operation on the rows of the lanes joins the tile operations; rows beyond the last are a fault before all else. -/
theorem accumulatorTransfersIssue : Obligations.AccumulatorTransfersIssue := by
  unfold Obligations.AccumulatorTransfersIssue
  refine ⟨fun i o kind s e hi r hw hs htile ls fill hls => ?_, fun o s e hw htile hl => ?_,
    fun i h arow regs reads s e hi he hm hlt hw => ?_⟩
  · have hx : exec i s = memXfer o kind s := by
      obtain ⟨rfl, rfl⟩ | ⟨rfl, rfl⟩ := hi
      · rfl
      · rfl
    refine memXfer_completes hx r hw hs htile hls fun t g' T hsp => ?_
    by_cases hl : e.lanes = []
    · have hstart : e.g.startXfer e (xferTile o kind e ls) = e.g := by
        rw [Group.startXfer, hl]
        rfl
      have hfill : fill = [] := by
        rw [hl] at hls
        cases hls
        rfl
      rw [if_pos hl]
      rw [hstart] at T hsp
      rw [hfill] at hsp
      exact ⟨hsp, T.tiles⟩
    · have hstart : e.g.startXfer e (xferTile o kind e ls) = e.g.addTile (xferTile o kind e ls) := by
        rw [Group.startXfer, if_neg (by simpa using hl)]
      rw [if_neg hl]
      rw [hstart] at T hsp
      exact ⟨hsp.of_group rfl rfl rfl rfl rfl, xferTile o kind e ls, T.tiles, rfl, rfl, rfl, rfl, rfl, rfl⟩
  · intro issued
    have hissued {kind : XferKind} {regs : List Nat} {g' : Group} (T : Tail (e.g.startRows e (rowTile o kind e regs) regs) g') :
        issued kind o.vd.toNat g' := by
      have hstart : (e.g.startRows e (rowTile o kind e regs) regs).tiles = (e.g.addTile (rowTile o kind e regs)).tiles := by
        rw [Group.startRows, if_neg (by simpa using hl)]
        rfl
      obtain ⟨hlast, hlen⟩ := tiles_addTile e.g (rowTile o kind e regs)
      refine ⟨rowTile o kind e regs, e.rowLanes, ?_, ?_, rfl, rfl, rfl, rfl, rfl, ?_⟩
      · rw [T.tiles, hstart, hlast]
      · rw [T.tiles, hstart, hlen]
      · rw [Env.rowLanes, List.map_map]
        exact List.map_id _
    constructor
    · intro r writes
      have hwrites (l q : Nat) : writes l q ↔ l ∈ e.lanes ∧ q ∈ natsFrom o.vd.toNat (o.jf.toNat + 1) := by
        rw [mem_natsFrom]
      refine rowXfer_completes (regs := natsFrom o.vd.toNat (o.jf.toNat + 1)) (i := .accrd o) (s := s)
        (Eq.refl (rowXfer o .rd s)) rfl r hw htile hl fun t g' T hsp =>
        ⟨?_, hissued T, fun l q hlq => ?_⟩
      · have hset : writes = fun l q => l ∈ e.lanes ∧ q ∈ natsFrom o.vd.toNat (o.jf.toNat + 1) := by
          funext l q
          exact propext (hwrites l q)
        rw [hset]
        exact hsp
      · have hmem := (hwrites l q).1 hlq
        rw [Group.seen, T.window, Group.startRows, if_neg (show ¬ ((natsFrom o.vd.toNat (o.jf.toNat + 1)).isEmpty = true) from nofun)]
        exact seen_winAsync.trans (if_pos hmem)
    · intro r
      refine rowXfer_completes (regs := []) (i := .accz o) (s := s) (Eq.refl (rowXfer o .z s)) rfl r hw htile hl fun t g' T hsp => ⟨?_, hissued T⟩
      have hset : noReg = fun l q => l ∈ e.lanes ∧ q ∈ ([] : List Nat) := by
        funext l q
        simp [noReg]
      rw [hset]
      rw [hset] at hsp
      exact hsp
  · exact ⟨_, exec_rowWord_bad hi he hm (decide_eq_false (Nat.not_le.2 hlt)) hw, takeFault_taken he _⟩

end Sys2Proof.Machine
end

section
/-! SUPPORT. `mma` (R219, R226, R229). -/

namespace Sys2Proof.Machine

open Sys2Proof

/-! ## Entries that still wait (R219, R220) -/

/-- An entry of which a group has neither joined nor retired has no cause yet. -/
theorem entryCause_waits {s : State} {n : Entry} (hf : n.full = false) (hr : s.lacksRetired n = false) : s.entryCause n = none := by
  unfold State.entryCause
  simp only [hf, hr, Bool.not_false, Bool.and_self, if_true]

theorem named_solo {n : Entry} (h : n.mask = 0) : n.named = [] := by
  rw [Entry.named, h]
  rfl

/-- A group without a crew whose rows exist and whose bank holds its class has no cause. -/
theorem entryCause_solo {s : State} {n : Entry} {a : Arrival} {b : LBank} {g : Group} (hm : n.mask = 0) (ha : n.arrivals = [a])
    (hb : n.bound = some b) (hcls : clsOf b.fmt = clsOf a.fmt) (hg : s.group a.gk = some g) (hw : a.arow * 16 + g.width ≤ 512) :
    s.entryCause n = none := by
  have hret : s.lacksRetired n = false := by rw [State.lacksRetired, named_solo hm]; rfl
  have hrows : ¬ 512 < a.arow * 16 + max 1 ([] : List Nat).length * g.width := by simpa using hw
  unfold State.entryCause
  simp only [ha, hb, hcls, hret, hg, named_solo hm, Option.map_some, Option.getD_some, List.any_nil, bne_self_eq_false,
    Bool.false_eq_true, if_false, if_neg hrows, ite_self]

/-- One entry of the settling of a team (R220). -/
def State.settleOne (s : State) (p : Nat × Entry) : State :=
  match s.entryCause p.2 with
  | some c => s.failEntry p.1 p.2 cCREWBAD c
  | none => if p.2.full then { s with entries := s.entries.put p.1 { p.2 with complete := true, completedAt := s.seq } } else s

theorem settleEntries_eq (s : State) (team : Nat) : s.settleEntries team =
    (s.entries.filter fun p => p.2.team == team && !p.2.complete).foldl State.settleOne s := rfl

theorem settleOne_waits {s : State} {p : Nat × Entry} (hf : p.2.full = false) (hr : s.lacksRetired p.2 = false) :
    s.settleOne p = s := by
  simp only [State.settleOne, entryCause_waits hf hr, hf, Bool.false_eq_true, if_false]

/-- Where every entry of the team waits, settling changes nothing. -/
theorem settleEntries_waits {s : State} {team : Nat} (h : s.entriesWait team) : s.settleEntries team = s := by
  have key (xs : KMap Entry) (hx : ∀ p ∈ xs, s.settleOne p = s) : xs.foldl State.settleOne s = s := by
    induction xs with
    | nil => rfl
    | cons p xs ih =>
      rw [List.foldl_cons, hx p List.mem_cons_self]
      exact ih fun q hq => hx q (List.mem_cons_of_mem _ hq)
  refine key _ fun p hp => ?_
  obtain ⟨hmem, hp⟩ := List.mem_filter.1 hp
  simp only [Bool.and_eq_true, beq_iff_eq, Bool.not_eq_true'] at hp
  obtain ⟨hf, hr⟩ := h p hmem hp.1 hp.2
  exact settleOne_waits hf hr

theorem put_put {α : Type} (m : KMap α) (k : Nat) (x y : α) : KMap.put (KMap.put m k x) k y = KMap.put m k y := by
  induction m with
  | nil => simp [KMap.put]
  | cons p m ih =>
    rcases Nat.lt_trichotomy k p.1 with h | h | h
    · simp [KMap.put, h]
    · simp [KMap.put, h]
    · simp [KMap.put, Nat.not_lt.2 (Nat.le_of_lt h), Nat.ne_of_lt h, ih]

theorem mem_put_self {α : Type} (m : KMap α) (k : Nat) (x : α) : (k, x) ∈ KMap.put m k x :=
  KMap.mem_of_find (KMap.find_put_self m k x)

/-- A fold whose steps change the machine at one element only, and once. -/
theorem foldl_once {α β : Type} {f : β → α → β} {a b : β} {q : α} {xs : List α} (hq : f a q = b ∧ f b q = b)
    (hx : ∀ x ∈ xs, x = q ∨ (f a x = a ∧ f b x = b)) (hmem : q ∈ xs) : xs.foldl f a = b := by
  have stay (ys : List α) (hy : ∀ x ∈ ys, x = q ∨ (f a x = a ∧ f b x = b)) : ys.foldl f b = b := by
    induction ys with
    | nil => rfl
    | cons y ys ih =>
      rw [List.foldl_cons]
      rcases hy y List.mem_cons_self with rfl | h
      · rw [hq.2]
        exact ih fun x hx => hy x (List.mem_cons_of_mem _ hx)
      · rw [h.2]
        exact ih fun x hx => hy x (List.mem_cons_of_mem _ hx)
  induction xs with
  | nil => cases hmem
  | cons x xs ih =>
    have hxs : ∀ y ∈ xs, y = q ∨ (f a y = a ∧ f b y = b) := fun y hy => hx y (List.mem_cons_of_mem _ hy)
    rw [List.foldl_cons]
    rcases List.mem_cons.1 hmem with rfl | hin
    · rw [hq.1]
      exact stay xs hxs
    · rcases hx x List.mem_cons_self with rfl | h
      · rw [hq.1]
        exact stay xs hxs
      · rw [h.1]
        exact ih hxs hin

/-- A full entry without a cause completes; the others of its team wait on. -/
theorem settleEntries_completes {s : State} {team key : Nat} {n : Entry} {m : KMap Entry} (hent : s.entries = KMap.put m key n)
    (hteam : n.team = team) (hopen : n.complete = false) (hfull : n.full = true) (hcause : s.entryCause n = none)
    (hwait : ∀ p ∈ m, p.2.team = team → p.2.complete = false → p.2.full = false ∧ s.lacksRetired p.2 = false) :
    s.settleEntries team = { s with entries := KMap.put m key { n with complete := true, completedAt := s.seq } } := by
  rw [settleEntries_eq]
  have hdone (u : State) (hc : u.entryCause n = none) :
      u.settleOne (key, n) = { u with entries := u.entries.put key { n with complete := true, completedAt := u.seq } } := by
    simp only [State.settleOne, hc, hfull, if_true]
  refine foldl_once (q := (key, n)) ⟨?_, ?_⟩ (fun p hp => ?_) ?_
  · rw [hdone s hcause, hent, put_put]
  · refine (hdone { s with entries := KMap.put m key { n with complete := true, completedAt := s.seq } } hcause).trans ?_
    rw [put_put]
  · obtain ⟨hmem, hp⟩ := List.mem_filter.1 hp
    rw [hent] at hmem
    simp only [Bool.and_eq_true, beq_iff_eq, Bool.not_eq_true'] at hp
    rcases KMap.mem_put hmem with h | h
    · exact .inl h
    · obtain ⟨hf, hr⟩ := hwait p h hp.1 hp.2
      exact .inr ⟨settleOne_waits hf hr, settleOne_waits (s := { s with entries := KMap.put m key { n with complete := true, completedAt := s.seq } }) hf hr⟩
  · refine List.mem_filter.2 ⟨hent ▸ mem_put_self m key n, ?_⟩
    simp only [hteam, hopen, beq_self_eq_true, Bool.not_false, Bool.and_self]

/-! ## The arrival (R219) -/

/-- What an `mma` leaves of its group's state. -/
def mmaArrival (s : State) (e : Env) (o : YOp) : Arrival :=
  { gk := e.gk, gidx := e.g.gidx, id := e.g.issued, lanes := e.lanes,
    depths := e.lanes.map (fun l => (e.g.lane l).depth.toNat), va := o.va.toNat, fmt := o.fmt, rm := o.rm,
    mode := e.g.mode, prio := o.prio.toNat, reuse := o.reuse, bank := fIf o.bank 1, cz := o.cz, arow := o.arow.toNat,
    crew := e.g.crew, fencePt := e.g.fencePt, undef := undefLanes e o.va.toNat o.fmt, rows := none, ecc := [],
    pos := e.g.pos e.run.tag, order := s.seq }

/-- The entry that it leaves, under its key. -/
def mmaEntry (s : State) (e : Env) (o : YOp) : Nat × Entry :=
  match s.joinable e.g.team e.g.crew e.g.gidx with
  | some p => (p.1, { p.2 with arrivals := p.2.arrivals ++ [mmaArrival s e o] })
  | none => (nextKey s.entries,
      ⟨e.g.team, e.g.crew, [mmaArrival s e o], false, 0, e.tm.lbanks.find (fIf o.bank 1), 0⟩)

def mmaTile (e : Env) (o : YOp) (cls : Cls) (key : Nat) : TileOp :=
  newTile e (.mma key cls.cols (e.g.keeps.find e.g.crew.toNat).isSome []) [] (mmaSrcs e o.va.toNat o.fmt)
    (arrivalBase e.g.crew e.g.gidx o.arow.toNat e.g.width) e.lanes 0

def Group.addMma (g : Group) (e : Env) (o : YOp) (x : TileOp) : Group :=
  { (g.addTile x) with
    keeps := if o.reuse then g.keeps.put e.g.crew.toNat ⟨o.va.toNat, mmaSrcs e o.va.toNat o.fmt, false⟩
             else g.keeps.del e.g.crew.toNat }

/-- The machine with an entry of a team under a key, and the priority of its last `mma`. -/
def State.withEntry (s : State) (team key prio : Nat) (n : Entry) : State :=
  { s with entries := s.entries.put key n }.onTeam team fun tm => { tm with mmaPrio := prio }

theorem arrive_eq (s : State) (e : Env) (o : YOp) (cls : Cls) : s.arrive e o cls =
    (s.withEntry e.g.team (mmaEntry s e o).1 o.prio.toNat (mmaEntry s e o).2).noWrite e
      fun g => g.addMma e o (mmaTile e o cls (mmaEntry s e o).1) := by
  unfold State.arrive mmaEntry
  cases s.joinable e.g.team e.g.crew e.g.gidx <;> rfl

/-- Which groups there are, and what entries wait for them, the end of a word leaves. -/
theorem TailAt.isNone {k : Nat} {s t : State} (h : TailAt k s t) {g : Group} (hg : s.group k = some g) (j : Nat) :
    (t.group j).isNone = (s.group j).isNone := by
  by_cases hj : j = k
  · obtain ⟨g', hg', -⟩ := h.group g hg
    rw [hj, hg, hg']
    rfl
  · rw [h.others j hj]

theorem lacksRetired_congr {s t : State} (h : ∀ j, (t.group j).isNone = (s.group j).isNone) (n : Entry) :
    t.lacksRetired n = s.lacksRetired n := by
  unfold State.lacksRetired
  simp only [h]

/-- Other entries on both sides of the end of a word. -/
theorem TailAt.withEntries {k : Nat} {s t : State} (h : TailAt k s t) (m : KMap Entry) :
    TailAt k { s with entries := m } { t with entries := m } :=
  ⟨show _ = _ from congrArg (fun x : State => { x with entries := m }) (show t = _ from h.rest), h.teams, h.others, h.group⟩

theorem addMma_rest (g : Group) (e : Env) (o : YOp) (cls : Cls) (key : Nat) : g.addMma e o (mmaTile e o cls key) =
    { g with
      tile := g.tile + 1
      tiles := g.tiles ++ [mmaTile e o cls key]
      keeps := (g.addMma e o (mmaTile e o cls key)).keeps } := rfl

/-- Where an `mma` may arrive, it leaves its entry and ends; then the entries of its team settle. -/
theorem mma_runs {o : YOp} {s : State} {e : Env} {cls : Cls} (r : Ready o.h none [(o.va.toNat, rowRegs o.fmt)] [] s e)
    (hw : o.arow.toNat * 16 + e.g.width ≤ 512) (hcls : clsOf o.fmt = some cls) (hl : e.lanes ≠ []) (htile : e.g.tile < 255)
    (hopen : s.joinable e.g.team e.g.crew e.g.gidx = none → (e.g.crew ≠ 0 → (s.openEntries e.g.team e.g.crew.toNat).length < 2) ∧
      (s.coreEntries e.core).length < 32) :
    execMma o s = .next (((s.arrive e o cls).retire e o.h 1).settleEntries e.g.team) := by
  have hhold : ((s.joinable e.g.team e.g.crew e.g.gidx).isNone && e.g.crew != 0 &&
      decide (2 ≤ (s.openEntries e.g.team e.g.crew.toNat).length)) = false := by
    cases hj : s.joinable e.g.team e.g.crew e.g.gidx with
    | some p => rfl
    | none =>
      by_cases hc : e.g.crew = 0
      · simp [hc]
      · simp [(hopen hj).1 hc]
  have hstall : (decide (255 ≤ e.g.tile) || ((s.joinable e.g.team e.g.crew e.g.gidx).isNone &&
      decide (32 ≤ (s.coreEntries e.core).length))) = false := by
    rw [decide_eq_false (Nat.not_le.2 htile)]
    cases hj : s.joinable e.g.team e.g.crew e.g.gidx with
    | some p => rfl
    | none => simp [(hopen hj).2]
  obtain ⟨l, ls, hls⟩ := List.exists_cons_of_ne_nil hl
  unfold execMma
  simp only [widthWord_fits r.env hw]
  have hrun {body : Env → State → Res} (hb : body e s = .ok (s.arrive e o cls)) :
      wordAt o.h 1 none [(o.va.toNat, rowRegs o.fmt)] [] (fun e' s' => ((s'.correctReads e' []).retire e' o.h 1).settleEntries e'.g.team)
        body s = .next (((s.arrive e o cls).retire e o.h 1).settleEntries e.g.team) := by
    rw [wordAt_ready r hb, correctReads_nil, correctReads_nil]
  refine hrun ?_
  simp only [hls, hcls, hhold, hstall, Bool.false_eq_true, if_false]

/-- An `mma` whose entry is settled as `done` says leaves that, and counts. -/
theorem mma_completes {o : YOp} {s : State} {e : Env} {cls : Cls} {key : Nat} {n n' : Entry}
    (r : Ready o.h none [(o.va.toNat, rowRegs o.fmt)] [] s e) (hkey : mmaEntry s e o = (key, n))
    (hrun : execMma o s = .next (((s.arrive e o cls).retire e o.h 1).settleEntries e.g.team))
    (hdone : ∀ (u : State) (g1 : Group), u.entries = s.entries.put key n → u.group e.gk = some g1 → g1.width = e.g.width → u.seq = s.seq →
      (∀ j, (u.group j).isNone = (s.group j).isNone) → u.settleEntries e.g.team = { u with entries := s.entries.put key n' })
    {P : State → Group → Prop}
    (hP : ∀ t g', Spared (s.withEntry e.g.team key o.prio.toNat n') t e { e.g with tile := e.g.tile + 1 } noReg noReg g' →
      g'.tiles = e.g.tiles ++ [mmaTile e o cls key] → P t g') : Completes (.mma o) s e P := by
  rw [arrive_eq, hkey] at hrun
  let f : Group → Group := fun g => g.addMma e o (mmaTile e o cls key)
  have T : TailAt e.gk ((s.withEntry e.g.team key o.prio.toNat n).noWrite e f)
    (((s.withEntry e.g.team key o.prio.toNat n).noWrite e f).retire e o.h 1) := .retire ..
  have hg0 : (s.withEntry e.g.team key o.prio.toNat n).group e.gk = some e.g := env_group (s := s) r.env
  have hown : ((s.withEntry e.g.team key o.prio.toNat n).noWrite e f).group e.gk = some ((f e.g).pushWindow (winEntry [])) := by
    rw [State.noWrite, group_onGroup, if_pos rfl, hg0]
    rfl
  obtain ⟨u, hu⟩ : ∃ u, u = ((s.withEntry e.g.team key o.prio.toNat n).noWrite e f).retire e o.h 1 := ⟨_, rfl⟩
  rw [← hu] at T
  obtain ⟨g1, hg1, T1⟩ := T.group _ hown
  have hnone (j : Nat) : (u.group j).isNone = (s.group j).isNone := by
    rw [T.isNone hown j, State.noWrite, group_onGroup]
    split
    · next h =>
      rw [hg0, h, env_group r.env]
      rfl
    · rfl
  have hsettle := hdone u g1 (by rw [T.rest]; rfl) hg1 (congrArg List.length T1.lanes) (by rw [T.rest]; rfl) hnone
  obtain ⟨g', hg', T', hs⟩ := noWrite_spared (s := s.withEntry e.g.team key o.prio.toNat n') (f := f)
    (env_group (s := s) r.env) rfl rfl (T.withEntries (s.entries.put key n'))
  have hexec : exec (.mma o) s = .next { u with entries := s.entries.put key n' } := by
    rw [← hsettle, hu]
    exact hrun
  exact ⟨_, g', hexec, hg', hP _ g' (hs.of_group rfl rfl rfl rfl rfl) T'.tiles⟩

/-- Settles O43: the arrival joins its crew's entry or opens one; only a solo entry is full, and completes when its team's
entries settle. -/
theorem mmaArrives : Obligations.MmaArrives := by
  unfold Obligations.MmaArrives
  intro o s e cls hcls r hl hw htile hwait bank joined
  have hjoined {key : Nat} {n : Entry} {t : State} {g' : Group}
      (hs : Spared (s.withEntry e.g.team key o.prio.toNat n) t e { e.g with tile := e.g.tile + 1 } noReg noReg g')
      (ht : g'.tiles = e.g.tiles ++ [mmaTile e o cls key]) (h1 : n.team = e.g.team) (h2 : n.mask = e.g.crew)
      (h3 : n.arrivals.getLast? = some (mmaArrival s e o)) : joined n t g' :=
    ⟨key, hs, h1, h2, ⟨_, h3, rfl, rfl, rfl⟩, _, by rw [ht, List.getLast?_concat], by rw [ht, List.length_append]; rfl, rfl, rfl, rfl⟩
  refine ⟨fun hcrew hcore b hb hbcls => ?_, fun hcrew hthere ⟨i, hi, hbit, hne, hnot⟩ => ?_⟩
  · have hj : s.joinable e.g.team e.g.crew e.g.gidx = none := if_pos (beq_iff_eq.2 hcrew)
    let n : Entry := ⟨e.g.team, e.g.crew, [mmaArrival s e o], false, 0, e.tm.lbanks.find (fIf o.bank 1), 0⟩
    have hkey : mmaEntry s e o = (nextKey s.entries, n) := by
      rw [mmaEntry, hj]
    refine mma_completes (n' := { n with complete := true, completedAt := s.seq }) r hkey (mma_runs r hw hcls hl htile fun _ => ⟨fun h => absurd hcrew h, hcore⟩)
      (fun u g1 hent hg1 hwidth hseq hnone => ?_) fun t g' hs ht => ⟨_, hjoined hs ht rfl rfl rfl, rfl, hb, rfl⟩
    have hfull : n.full = true := by
      rw [Entry.full, named_solo hcrew]
      rfl
    rw [settleEntries_completes hent rfl rfl hfull (entryCause_solo hcrew rfl hb (hbcls.trans hcls.symm) hg1 (hwidth ▸ hw))
      fun p hp h1 h2 => ?_, hseq]
    obtain ⟨hf, hr⟩ := hwait p hp h1 h2
    exact ⟨hf, (lacksRetired_congr hnone _).trans hr⟩
  · have hstays {key : Nat} {n : Entry} (hteam : n.team = e.g.team) (hmask : n.mask = e.g.crew) (hni : n.joined i = false)
        (u : State) (hent : u.entries = KMap.put s.entries key n) (hnone : ∀ j, (u.group j).isNone = (s.group j).isNone) :
        u.settleEntries e.g.team = { u with entries := KMap.put s.entries key n } := by
      have hsame : { u with entries := KMap.put s.entries key n } = u := by rw [← hent]
      rw [hsame]
      refine settleEntries_waits fun p hp h1 h2 => ?_
      rw [hent] at hp
      rcases KMap.mem_put hp with rfl | hp
      · have hin : i ∈ n.named := List.mem_filter.2 ⟨mem_natsFrom.2 ⟨Nat.zero_le _, by omega⟩, by rw [hmask]; exact hbit⟩
        refine ⟨List.all_eq_false.2 ⟨i, hin, by rw [hni]; nofun⟩, ?_⟩
        rw [lacksRetired_congr hnone]
        refine List.any_eq_false.2 fun j hj => ?_
        obtain ⟨hlt, hjbit⟩ := List.mem_filter.1 hj
        have := hthere j (by have := mem_natsFrom.1 hlt; omega) (by rw [← hmask]; exact hjbit)
        rw [show gkOf n.team j = e.g.team * 16 + j by rw [hteam]; rfl, ← Option.not_isSome, this]
        simp
      · obtain ⟨hf, hr⟩ := hwait p hp h1 h2
        exact ⟨hf, (lacksRetired_congr hnone _).trans hr⟩
    have hself : (mmaArrival s e o).gidx ≠ i := fun h => hne h.symm
    cases hj : s.joinable e.g.team e.g.crew e.g.gidx with
    | some p =>
      have hfound : s.entries.find? (fun p => p.2.team == e.g.team && p.2.mask == e.g.crew && !p.2.complete && !p.2.joined e.g.gidx) = some p := by
        rw [State.joinable, if_neg (by simpa using hcrew)] at hj
        exact hj
      have hprop := List.find?_some hfound
      simp only [Bool.and_eq_true, beq_iff_eq, Bool.not_eq_true'] at hprop
      obtain ⟨⟨⟨hteam, hmask⟩, hopen⟩, -⟩ := hprop
      have hnp := hnot p (List.mem_of_find?_eq_some hfound) hteam hmask
      let n : Entry := { p.2 with arrivals := p.2.arrivals ++ [mmaArrival s e o] }
      have hkey : mmaEntry s e o = (p.1, n) := by
        rw [mmaEntry, hj]
      have hni : n.joined i = false := by
        rw [Entry.joined, List.any_append, show p.2.arrivals.any _ = false from hnp]
        simpa using hself
      refine mma_completes (n' := n) r hkey (mma_runs r hw hcls hl htile fun h => absurd (hj.symm.trans h) nofun)
        (fun u _ hent _ _ _ hnone => hstays (n := n) hteam hmask hni u hent hnone)
        fun t g' hs ht => ⟨_, hjoined hs ht hteam hmask List.getLast?_concat, hopen, rfl, List.length_append⟩
    | none =>
      intro hlt hcore
      let n : Entry := ⟨e.g.team, e.g.crew, [mmaArrival s e o], false, 0, e.tm.lbanks.find (fIf o.bank 1), 0⟩
      have hkey : mmaEntry s e o = (nextKey s.entries, n) := by
        rw [mmaEntry, hj]
      have hni : n.joined i = false := by
        simpa [Entry.joined, n] using hself
      refine mma_completes (n' := n) r hkey (mma_runs r hw hcls hl htile fun _ => ⟨fun _ => hlt, hcore⟩)
        (fun u _ hent _ _ _ hnone => hstays (n := n) rfl rfl hni u hent hnone)
        fun t g' hs ht => ⟨_, hjoined hs ht rfl rfl rfl, rfl, rfl, rfl⟩

end Sys2Proof.Machine
end

section
/-! SUPPORT. Arbitration of issue slots and rounds that patience closes (R80, R186, R187). -/

namespace Sys2Proof.Machine

open Sys2Proof

/-! ## The first of what is sorted -/

theorem pairwise_insertBy_key {α : Type} (key : α → Nat) (x : α) {xs : List α} (h : xs.Pairwise (key · ≤ key ·)) :
    (insertBy (fun a b => decide (key a ≤ key b)) x xs).Pairwise (key · ≤ key ·) := by
  induction xs with
  | nil => exact List.pairwise_singleton _ _
  | cons y ys ih =>
    rw [insertBy]
    split
    · next hle =>
      have hxy : key x ≤ key y := of_decide_eq_true hle
      refine List.pairwise_cons.2 ⟨fun z hz => ?_, h⟩
      rcases List.mem_cons.1 hz with rfl | hz
      · exact hxy
      · exact Nat.le_trans hxy ((List.pairwise_cons.1 h).1 z hz)
    · next hle =>
      have hyx : key y ≤ key x := Nat.le_of_not_le fun h' => hle (decide_eq_true h')
      obtain ⟨hy, hys⟩ := List.pairwise_cons.1 h
      refine List.pairwise_cons.2 ⟨fun z hz => ?_, ih hys⟩
      rcases (mem_insertBy _ _ _ _).1 hz with rfl | hz
      · exact hyx
      · exact hy z hz

/-- What is sorted by a key stands in the order of its keys. -/
theorem pairwise_sortBy_key {α : Type} (key : α → Nat) (xs : List α) :
    (sortBy (fun a b => decide (key a ≤ key b)) xs).Pairwise (key · ≤ key ·) := by
  induction xs with
  | nil => exact List.Pairwise.nil
  | cons x xs ih => exact pairwise_insertBy_key key x ih

/-- The first of what is sorted by a key is one of those with the smallest key. -/
theorem head_sortBy {α : Type} {key : α → Nat} {xs : List α} {x : α} {rest : List α}
    (h : sortBy (fun a b => decide (key a ≤ key b)) xs = x :: rest) : x ∈ xs ∧ ∀ y ∈ xs, key x ≤ key y := by
  have hmem (y : α) := mem_sortBy (fun a b => decide (key a ≤ key b)) y xs
  rw [h] at hmem
  refine ⟨(hmem x).1 List.mem_cons_self, fun y hy => ?_⟩
  have hs := pairwise_sortBy_key key xs
  rw [h] at hs
  rcases List.mem_cons.1 ((hmem y).2 hy) with rfl | hr
  · exact Nat.le_refl _
  · exact (List.pairwise_cons.1 hs).1 y hr

/-! ## The order of R187 -/

/-- A group that comes before another has the smaller key. -/
theorem arbKey_lt_of_comesBefore {s : State} {a b : Group} (ha : a.slot < 32) (hb : b.slot < 32) (h : comesBefore s a b = true) :
    arbKey s a < arbKey s b := by
  have h1 := a.pass.isLt
  have h2 := b.pass.isLt
  unfold comesBefore at h
  unfold arbKey
  simp only at h ⊢
  by_cases hp : 32 ≤ a.pass.toNat
  · rw [if_pos (.inl hp)] at h
    simp only [Bool.or_eq_true, Bool.and_eq_true, decide_eq_true_eq, beq_iff_eq] at h
    rw [if_pos hp]
    split <;> omega
  · rw [if_neg hp]
    by_cases hq : 32 ≤ b.pass.toNat
    · rw [if_pos (.inr hq)] at h
      simp only [Bool.or_eq_true, Bool.and_eq_true, decide_eq_true_eq, beq_iff_eq] at h
      omega
    · rw [if_neg (not_or.2 ⟨hp, hq⟩)] at h
      simp only [Bool.or_eq_true, Bool.and_eq_true, decide_eq_true_eq, beq_iff_eq] at h
      rw [if_neg hq]
      omega

/-! ## The gang whose turn it is (R67) -/

theorem pairwise_turnGangs (s : State) (g : Group) : (s.turnGangs g).Pairwise (· ≤ ·) := by
  have hready : (s.readyGangs g).Pairwise (· ≤ ·) := (pairwise_sortBy _).filter _
  unfold State.turnGangs
  split
  · split
    · exact hready
    · exact hready.filter _
  · exact hready

/-- Of ready gangs by tag, the first behind the last one, else the first of all. -/
theorem nextTag_next {last : Nat} {ready : List Nat} (hne : ready ≠ []) (order : ready.Pairwise (· ≤ ·)) :
    nextTag last ready ∈ ready ∧
    (∀ x ∈ ready, last < x → last < nextTag last ready ∧ nextTag last ready ≤ x) ∧
    ((∀ x ∈ ready, x ≤ last) → ∀ x ∈ ready, nextTag last ready ≤ x) := by
  have hf := order.filter fun t => decide (last < t)
  unfold nextTag
  cases hl : ready.filter (fun t => decide (last < t)) with
  | cons t ts =>
    have ht : t ∈ ready.filter fun t => decide (last < t) := hl ▸ List.mem_cons_self
    obtain ⟨hin, hlt⟩ := List.mem_filter.1 ht
    have hlt : last < t := of_decide_eq_true hlt
    rw [hl] at hf
    refine ⟨hin, fun x hx hlx => ⟨hlt, ?_⟩, fun hall => absurd (hall t hin) (Nat.not_le.2 hlt)⟩
    have hmem : x ∈ t :: ts := hl ▸ List.mem_filter.2 ⟨hx, decide_eq_true hlx⟩
    rcases List.mem_cons.1 hmem with rfl | hr
    · exact Nat.le_refl _
    · exact (List.pairwise_cons.1 hf).1 x hr
  | nil =>
    obtain ⟨y, ys, rfl⟩ := List.exists_cons_of_ne_nil hne
    refine ⟨List.mem_cons_self, fun x hx hlx => ?_, fun _ x hx => ?_⟩
    · exact absurd (hl ▸ List.mem_filter.2 ⟨hx, decide_eq_true hlx⟩) List.not_mem_nil
    · rcases List.mem_cons.1 hx with rfl | hr
      · exact Nat.le_refl _
      · exact (List.pairwise_cons.1 order).1 x hr

/-! ## The start of a run (R186) -/

theorem mem_candidates {s : State} {core : Nat} {p : Nat × Group} (h : p ∈ s.candidates core) :
    s.group p.1 = some p.2 ∧ s.ready p.1 p.2 = true := by
  obtain ⟨k, -, hk⟩ := List.mem_filterMap.1 h
  split at hk
  · next g hg =>
    split at hk
    · next hr =>
      cases hk
      exact ⟨hg, hr⟩
    · cases hk
  · cases hk

/-- A ready group is passed. -/
def Group.passed (g : Group) : Group := { g with pass := if g.pass == 255 then 255 else g.pass + 1 }

theorem pass_passed (g : Group) : g.pass ≤ g.passed.pass ∧ (g.pass = 255 ∨ g.pass < g.passed.pass) := by
  have h := g.pass.isLt
  unfold Group.passed
  by_cases h255 : g.pass = 255
  · simp [h255]
  · have hne : (g.pass == 255) = false := by simpa using h255
    have : g.pass.toNat ≠ 255 := fun h' => h255 (BitVec.eq_of_toNat_eq h')
    simp only [hne, Bool.false_eq_true, if_false, h255, false_or]
    constructor <;> bv_omega

/-- Ready groups that are passed: each of them counts it, the others stand. -/
theorem passed_foldl (ks : List Nat) (s : State) :
    let t := ks.foldl (fun s k => s.onGroup k Group.passed) s
    t = { s with groups := t.groups } ∧ (∀ k, k ∉ ks → t.group k = s.group k) ∧
    ∀ k g, s.group k = some g → ∃ x, t.group k = some x ∧ g.pass ≤ x.pass ∧ (k ∈ ks → g.pass = 255 ∨ g.pass < x.pass) := by
  induction ks generalizing s with
  | nil => exact ⟨rfl, fun _ _ => rfl, fun k g hg => ⟨g, hg, BitVec.le_refl _, fun h => absurd h List.not_mem_nil⟩⟩
  | cons k ks ih =>
    obtain ⟨hrest, hothers, hin⟩ := ih (s.onGroup k Group.passed)
    refine ⟨hrest, fun j hj => ?_, fun j g hg => ?_⟩
    · rw [List.foldl_cons, hothers j fun h => hj (List.mem_cons_of_mem _ h), group_onGroup,
        if_neg fun h : j = k => hj (h ▸ List.mem_cons_self)]
    · by_cases hj : j = k
      · obtain ⟨x, hx, hle, -⟩ := hin j g.passed (by rw [group_onGroup, if_pos hj, ← hj, hg]; rfl)
        obtain ⟨h1, h2⟩ := pass_passed g
        refine ⟨x, hx, BitVec.le_trans h1 hle, fun _ => h2.imp_right fun h => Nat.lt_of_lt_of_le (BitVec.lt_def.1 h) (BitVec.le_def.1 hle)⟩
      · obtain ⟨x, hx, hle, hmem⟩ := hin j g (by rw [group_onGroup, if_neg hj, hg])
        exact ⟨x, hx, hle, fun h => hmem ((List.mem_cons.1 h).resolve_left hj)⟩

/-- A free issue slot takes the first of the ready groups. -/
theorem slotArbitration_starts {s : State} {core slot : Nat} (hne : s.candidates core ≠ []) (hslot : slot < 2)
    (hfree : s.runs.find (unitKey core slot) = none) (hpair : slot = 1 → (s.runs.find (unitKey core 0)).isSome)
    (hlt : ∀ p ∈ s.candidates core, p.2.slot < 32) :
    ∃ gk g, exec (.issueSlotArbitration core slot) s = .next (s.startRun core slot gk (nextTag g.lastTag (s.turnGangs g))) ∧
      (gk, g) ∈ s.candidates core ∧ ∀ p ∈ s.candidates core, comesBefore s p.2 g = false := by
  have hguard : (decide (2 ≤ slot) || !(s.runs.find (unitKey core slot)).isNone ||
      (slot == 1 && (s.runs.find (unitKey core 0)).isNone)) = false := by
    rw [decide_eq_false (Nat.not_le.2 hslot), hfree]
    by_cases h : slot = 1
    · have hsome := hpair h
      rw [← Option.not_isNone] at hsome
      simpa [h] using hsome
    · simp [h]
  show ∃ gk g, execIssueSlotArbitration core slot s = _ ∧ _
  unfold execIssueSlotArbitration
  simp only [hguard, Bool.false_eq_true, if_false]
  cases hsort : sortBy (fun a b => decide (arbKey s a.2 ≤ arbKey s b.2)) (s.candidates core) with
  | nil =>
    obtain ⟨p, ps, hp⟩ := List.exists_cons_of_ne_nil hne
    have := (mem_sortBy (fun a b : Nat × Group => decide (arbKey s a.2 ≤ arbKey s b.2)) p _).2 (hp ▸ List.mem_cons_self)
    rw [hsort] at this
    cases this
  | cons p rest =>
    obtain ⟨hin, hmin⟩ := head_sortBy (key := fun p : Nat × Group => arbKey s p.2) hsort
    refine ⟨p.1, p.2, rfl, hin, fun q hq => Bool.eq_false_iff.2 fun h => ?_⟩
    exact absurd (arbKey_lt_of_comesBefore (hlt q hq) (hlt p hin) h) (Nat.not_lt.2 (hmin q hq))

/-- What the start of a run leaves (R186). -/
structure RunStarted (s t : State) (core slot gk tag : Nat) (g g' : Group) : Prop where
  rest : t = { s with groups := t.groups, runs := t.runs }
  runs : t.runs = s.runs.put (unitKey core slot) ⟨gk, tag, 0, false⟩
  group : t.group gk = some g'
  pass : g'.pass = 0
  same : (g'.lanes, g'.slices, g'.frames) = (g.lanes, g.slices, g.frames)
  passed : ∀ p ∈ s.candidates core, p.1 ≠ gk → ∃ x, t.group p.1 = some x ∧ (p.2.pass < x.pass ∨ p.2.pass = 255)
  others : ∀ k, k ∉ (s.candidates core).map (·.1) → t.group k = s.group k

/-- The group whose gang starts a run. -/
def Group.start (g : Group) (seq tag : Nat) : Group :=
  { g with pass := 0, lastRun := seq, blocked := g.blocked.del tag, lastTag := tag,
           window := if g.lastTag == tag then g.window else [] }

/-- The machine with a run of a group in an issue slot. -/
def State.withRun (u : State) (core slot gk tag : Nat) : State :=
  let v := u.onGroup gk fun g => g.start u.seq tag
  { v with runs := v.runs.put (unitKey core slot) ⟨gk, tag, 0, false⟩ }

theorem startRun_eq (s : State) (core slot gk tag : Nat) : s.startRun core slot gk tag =
    ((((s.candidates core).map (·.1)).filter (· != gk)).foldl (fun s k => s.onGroup k Group.passed) s).withRun core slot gk tag := rfl

theorem group_withRun (u : State) (core slot gk tag k : Nat) :
    (u.withRun core slot gk tag).group k = if k = gk then (u.group gk).map (·.start u.seq tag) else u.group k :=
  group_onGroup u gk k _

theorem startRun_starts {s : State} {core gk : Nat} {g : Group} (hin : (gk, g) ∈ s.candidates core) (slot tag : Nat) :
    ∃ g', RunStarted s (s.startRun core slot gk tag) core slot gk tag g g' := by
  obtain ⟨hrest, hothers, hpassed⟩ := passed_foldl (((s.candidates core).map (·.1)).filter (· != gk)) s
  rw [startRun_eq]
  obtain ⟨u, hu⟩ : ∃ u, u = (((s.candidates core).map (·.1)).filter (· != gk)).foldl (fun s k => s.onGroup k Group.passed) s := ⟨_, rfl⟩
  rw [← hu] at hrest hothers hpassed ⊢
  have hgk : u.group gk = some g := by
    rw [hothers gk fun h => absurd (List.mem_filter.1 h).2 (by simp)]
    exact (mem_candidates hin).1
  refine ⟨g.start u.seq tag, ?_, ?_, ?_, rfl, rfl, fun p hp hne => ?_, fun k hk => ?_⟩
  · show _ = { s with groups := _, runs := _ }
    rw [hrest]
    rfl
  · rw [hrest]
    rfl
  · rw [group_withRun, if_pos rfl, hgk]
    rfl
  · obtain ⟨x, hx, -, hlt⟩ := hpassed p.1 p.2 (mem_candidates hp).1
    refine ⟨x, ?_, (hlt (List.mem_filter.2 ⟨List.mem_map_of_mem hp, by simpa using hne⟩)).symm⟩
    rw [group_withRun, if_neg hne, hx]
  · rw [group_withRun, if_neg fun h : k = gk => hk (h ▸ List.mem_map_of_mem hin)]
    exact hothers k fun h => hk (List.mem_filter.1 h).1

/-! ## A round that patience closes (R80) -/

/-- Slices that enter a state stand at its start, with their tags. -/
theorem slice_enters (g : Group) (slices : List Nat) (st : Nat) (status : SliceStatus) (i : Nat) :
    ((g.enter slices st).setStatus slices status).slice i =
      if i < g.slices.length ∧ i ∈ slices then (g.slice i).atStart st status else g.slice i := by
  have hlen : (g.enter slices st).slices.length = g.slices.length := length_mapIdxFrom ..
  rw [slice_setStatus, hlen, slice_enter]
  split <;> rfl

theorem lane_enters (g : Group) (slices : List Nat) (st : Nat) (status : SliceStatus) (l : Nat) :
    (((g.enter slices st).setStatus slices status).lane l).blk = (g.lane l).blk ∧
    (((g.enter slices st).setStatus slices status).lane l).depth = (g.lane l).depth ∧
    (((g.enter slices st).setStatus slices status).lane l).park = (g.lane l).park := by
  rw [show ((g.enter slices st).setStatus slices status).lane l = (g.enter slices st).lane l from rfl, lane_enter]
  split <;> exact ⟨rfl, rfl, rfl⟩

/-- The slices of an open round as one gang under their lowest number. -/
def Group.merged (g : Group) : Group :=
  g.onSlices g.awaiting.contains fun x => { x with tag := BitVec.ofNat 4 (g.awaiting.headD 0) }

/-- The round closes in the state of its blocks. -/
def Group.closed (g : Group) (st : Nat) : Group :=
  (g.merged.enter g.awaiting st).setStatus g.awaiting (if g.awaiting.length ≤ 1 then .lone else .gang)

theorem mem_awaiting {g : Group} {i : Nat} : i ∈ g.awaiting ↔ i < g.slices.length ∧ (g.slice i).status = .await := by
  simp [Group.awaiting, List.mem_filter, mem_natsFrom]

theorem slice_merged (g : Group) (i : Nat) : g.merged.slice i =
    if i ∈ g.awaiting then { g.slice i with tag := BitVec.ofNat 4 (g.awaiting.headD 0) } else g.slice i := by
  rw [Group.merged, slice_onSlices]
  by_cases h : i ∈ g.awaiting
  · rw [if_pos h, if_pos ⟨(mem_awaiting.1 h).1, List.contains_iff_mem.2 h⟩]
  · rw [if_neg h, if_neg fun h' => h (List.contains_iff_mem.1 h'.2)]

theorem closeRound_found {s : State} {m : Module} {g : Group} {st : Nat} (hne : g.blocks g.awaiting ≠ [])
    (h : s.lookup m (g.blocks g.awaiting) = .found st) : s.closeRound m ⟨g, 0, 0, 0⟩ = some ⟨g.closed st, 1, 0, 0⟩ := by
  have hpeel : g.merged.leavePeel g.awaiting = g.merged := by
    refine if_neg ?_
    rw [List.any_eq_true]
    rintro ⟨i, hi, hp⟩
    have hs := (mem_awaiting.1 hi).2
    rw [slice_merged, if_pos hi] at hp
    exact absurd (hs.symm.trans (beq_iff_eq.1 hp)) nofun
  have hvote := settleVote_found (s := s) (m := m) (g := g.merged) (slices := g.awaiting) hne h
  rw [hpeel] at hvote
  unfold State.closeRound
  simp only
  have hclose : s.settleVote m (g.onSlices g.awaiting.contains fun x => { x with tag := BitVec.ofNat 4 (g.awaiting.headD 0) })
      g.awaiting = some ⟨g.closed st, 1, 0, 0⟩ := hvote
  rw [hclose]
  rfl

/-- A change of groups, of the counts of contexts and of teams. -/
def State.revoted (s t : State) : Prop := t = { s with groups := t.groups, ctxs := t.ctxs, teams := t.teams }

theorem State.revoted.trans {a b c : State} (h : a.revoted b) (h' : b.revoted c) : a.revoted c := by
  unfold State.revoted at *
  rw [h', h]

theorem revoted_setGroup (s : State) (k : Nat) (g : Group) : s.revoted (s.setGroup k g) := rfl

theorem revoted_count (s : State) (c i n : Nat) : s.revoted (s.count c i n) := rfl

theorem revoted_fitRequests (s : State) (k : Nat) (g : Group) : s.revoted (s.fitRequests k g) := by
  unfold State.fitRequests
  cases s.group k <;> rfl

theorem revoted_install (s : State) (gk : Nat) (tm : Team) (la : Launch) (m : Module) (o : VoteOut) :
    s.revoted (s.install gk tm la m o) :=
  (((((revoted_fitRequests s gk _).trans (revoted_setGroup ..)).trans (revoted_count ..)).trans (revoted_count ..)).trans
    (revoted_count ..))

/-- Settles O45: the least key wins an issue slot, and a round out of patience enters the state that its blocks name. -/
theorem runsStartAndRoundsClose : Obligations.RunsStartAndRoundsClose := by
  unfold Obligations.RunsStartAndRoundsClose
  refine ⟨fun s core slot hne hslot hfree hpair hlt => ?_, fun s gk g tm la md st hg hrun ⟨i, hi, hp⟩ hmod hdue hne hlook => ?_⟩
  · obtain ⟨gk, g, hx, hin, hfirst⟩ := slotArbitration_starts hne hslot hfree hpair hlt
    obtain ⟨g', hst⟩ := startRun_starts hin slot (nextTag g.lastTag (s.turnGangs g))
    have hready : s.ready gk g = true := (mem_candidates hin).2
    have hgangs : s.turnGangs g ≠ [] := by
      unfold State.ready at hready
      simp only [Bool.and_eq_true, Bool.not_eq_true', List.isEmpty_eq_false_iff] at hready
      exact hready.2
    obtain ⟨htag, hnext, hwrap⟩ := nextTag_next hgangs (pairwise_turnGangs s g)
    refine ⟨gk, g, g', _, _, hx, hst.rest, hin, hfirst, htag, hnext, hwrap, ?_, fun k hk => ?_, hst.group, hst.pass, hst.same,
      hst.passed, hst.others⟩
    · rw [hst.runs, KMap.find_put_self]
    · rw [hst.runs, KMap.find_put_ne _ _ hk]
  · have hround : g.roundDue = true := by
      unfold Group.roundDue
      have hany : (g.awaiting.any fun i => (g.slice i).patience == 0) = true := List.any_eq_true.2 ⟨i, hi, beq_iff_eq.2 hp⟩
      rw [hrun, hany, Bool.or_true]
      rfl
    have hx : execPatienceExpiry gk s = .next (s.install gk tm la md ⟨g.closed st, 1, 0, 0⟩) := by
      unfold execPatienceExpiry State.closeDue State.installRound
      simp only [hg, hmod, hdue, hround, closeRound_found hne hlook, Bool.false_eq_true, if_false, Bool.not_true, if_true]
    have ha := install_aside s gk tm la md ⟨g.closed st, 1, 0, 0⟩
    have hslices : ((s.fitFrames md tm (g.closed st)).noteArrivals tm).slices = (g.closed st).slices := by
      rw [noteArrivals_rest]
      rfl
    have hlanes : ((s.fitFrames md tm (g.closed st)).noteArrivals tm).lanes = (g.closed st).lanes := by
      rw [noteArrivals_rest]
      rfl
    have hslice (i : Nat) : ((s.fitFrames md tm (g.closed st)).noteArrivals tm).slice i = (g.closed st).slice i := by
      rw [Group.slice, hslices]
      rfl
    have hlane (l : Nat) : ((s.fitFrames md tm (g.closed st)).noteArrivals tm).lane l = (g.closed st).lane l := by
      rw [Group.lane, hlanes]
      rfl
    have hlen : g.merged.slices.length = g.slices.length := length_mapIdxFrom ..
    refine ⟨_, _, hx, ⟨install_group .., ha.others⟩, revoted_install .., ha.teams, fun i hi => ?_, fun i hi => ?_, fun l => ?_⟩
    · rw [hslice, Group.closed, slice_enters, hlen, if_pos ⟨(mem_awaiting.1 hi).1, hi⟩, slice_merged, if_pos hi]
      have hone : (g.awaiting.length ≤ 1) = (g.awaiting.length = 1) := by
        have := List.length_pos_of_mem hi
        exact propext ⟨by omega, by omega⟩
      simp only [hone]
    · rw [hslice, Group.closed, slice_enters, if_neg fun h => hi h.2, slice_merged, if_neg hi]
    · rw [hlane]
      exact lane_enters g.merged g.awaiting st _ l

end Sys2Proof.Machine
end

section
/-! SUPPORT. Accesses that are performed: what a delivery leaves of its group (R84, R154), loads, stores, full-empty words
and fences (R150 to R152, R288). -/

namespace Sys2Proof.Machine

open Sys2Proof

/-! ## Data for a lane (R84) -/

/-- One word of a lane's data reaches its register, unless a later word superseded it. -/
def Group.land (d lane : Nat) (stale : List Nat) (g : Group) (w : Nat × Word) : Group :=
  if stale.contains (regKey d lane w.1) then g
  else
    let key := regKey d lane w.1
    let g := g.arrivePut d lane w.1 w.2
    { g with dirty := key :: g.dirty.filter (· != key), windowOnly := g.windowOnly.filter (· != key) }

/-- What a lane's data does to its group. -/
def Group.landAll (g : Group) (a : Access) (x : LaneAcc) (ws : List Word) : Group :=
  (mapIdxFrom a.vd (fun r v => (r, v)) ws).foldl (Group.land x.depth.toNat x.lane a.stale) g

/-- An access one lane of which is done. -/
def Access.withLane (a : Access) (x : LaneAcc) (flags : Nat) : Access :=
  let a' := { a.onLane x.lane (fun y => { y with done := true, queued := false }) with flags := a.flags ||| BitVec.ofNat 32 flags }
  { a' with complete := a'.performed }

theorem land_rest (d lane : Nat) (stale : List Nat) (g : Group) (w : Nat × Word) : g.land d lane stale w =
    { g with
      frames := (g.land d lane stale w).frames
      dirty := (g.land d lane stale w).dirty
      windowOnly := (g.land d lane stale w).windowOnly } := by
  unfold Group.land
  split <;> rfl

theorem foldl_land_rest (d lane : Nat) (stale : List Nat) (ws : List (Nat × Word)) (g : Group) :
    ws.foldl (Group.land d lane stale) g =
      { g with
        frames := (ws.foldl (Group.land d lane stale) g).frames
        dirty := (ws.foldl (Group.land d lane stale) g).dirty
        windowOnly := (ws.foldl (Group.land d lane stale) g).windowOnly } := by
  induction ws generalizing g with
  | nil => rfl
  | cons w ws ih =>
    rw [List.foldl_cons, ih, land_rest]

theorem landAll_rest (g : Group) (a : Access) (x : LaneAcc) (ws : List Word) : g.landAll a x ws =
    { g with
      frames := (g.landAll a x ws).frames
      dirty := (g.landAll a x ws).dirty
      windowOnly := (g.landAll a x ws).windowOnly } := foldl_land_rest ..

/-- A delivery: its data, its access, and the counter of a word that completes. -/
theorem deliver_eq {g : Group} {a : Access} {x : LaneAcc} {id : Nat} (ha : g.access id = some a)
    (hx : a.lanes.find? (fun y => y.lane == x.lane) = some x) (ws : List Word) (flags : Nat) :
    g.deliver id x.lane ws flags =
      if (a.withLane x flags).complete then ((g.landAll a x ws).onAccess id fun _ => a.withLane x flags).countDown a.kind
      else (g.landAll a x ws).onAccess id fun _ => a.withLane x flags := by
  unfold Group.deliver
  simp only [ha, hx]
  rfl

theorem id_of_access {g : Group} {a : Access} {id : Nat} (ha : g.access id = some a) : a.id = id := by
  unfold Group.access at ha
  have h := List.find?_some ha
  exact beq_iff_eq.1 h

theorem find?_onAccess {g : Group} {a : Access} {id : Nat} (ha : g.access id = some a) {f : Access → Access}
    (hf : ∀ b, b.id = id → (f b).id = id) : (g.onAccess id f).access id = some (f a) := by
  have hcomp : ((fun b : Access => b.id == id) ∘ fun b => if b.id == id then f b else b) = fun b => b.id == id := by
    funext b
    by_cases h : b.id = id
    · simp [h, hf b h]
    · simp [h]
  show List.find? _ (g.ops.map _) = _
  rw [List.find?_map, hcomp, show g.ops.find? (fun b => b.id == id) = some a from ha]
  simp [id_of_access ha]

theorem access_countDown (g : Group) (k : AccKind) (id : Nat) : (g.countDown k).access id = g.access id := by
  unfold Group.countDown
  split <;> rfl

theorem counts_countDown (g : Group) (k : AccKind) : ((g.countDown k).loads, (g.countDown k).stores) =
    if k.isLoad then (g.loads - 1, g.stores) else (g.loads, g.stores - 1) := by
  unfold Group.countDown
  split <;> rfl

theorem frames_countDown (g : Group) (k : AccKind) : (g.countDown k).frames = g.frames := by
  unfold Group.countDown
  split <;> rfl

/-- A delivery to a lane completes it (R154). -/
theorem laneDone_deliver {s t : State} {gk id : Nat} {g : Group} {a : Access} {x : LaneAcc} (ha : g.access id = some a)
    (hx : a.lanes.find? (fun y => y.lane == x.lane) = some x) (hk : a.kind ≠ .fence) (ws : List Word) (flags : Nat)
    (ht : s.onlyGroup t gk (g.deliver a.id x.lane ws flags)) : LaneDone s t gk g a x (g.deliver a.id x.lane ws flags) := by
  have hid := id_of_access ha
  subst hid
  have hfence : a.isFence = false := beq_eq_false_iff_ne.2 hk
  have hlanes : (a.withLane x flags).lanes = a.lanes.map fun y => if y.lane = x.lane then { y with done := true, queued := false } else y := by
    simp only [Access.withLane, Access.onLane, beq_iff_eq]
  have hcomplete : (a.withLane x flags).complete = (a.withLane x flags).lanes.all (·.done) := by
    have : ({ a.onLane x.lane (fun y => { y with done := true, queued := false }) with flags := a.flags ||| BitVec.ofNat 32 flags } : Access).isFence = false := hfence
    simp only [Access.withLane, Access.performed, this, Bool.false_eq_true, if_false]
  have hacc : ((g.landAll a x ws).onAccess a.id fun _ => a.withLane x flags).access a.id = some (a.withLane x flags) := by
    refine find?_onAccess (a := a) ?_ fun _ _ => rfl
    rw [landAll_rest]
    exact ha
  have hcounts : ((g.landAll a x ws).onAccess a.id fun _ => a.withLane x flags).loads = g.loads ∧
      ((g.landAll a x ws).onAccess a.id fun _ => a.withLane x flags).stores = g.stores := by
    rw [landAll_rest]
    exact ⟨rfl, rfl⟩
  rw [deliver_eq ha hx] at ht ⊢
  refine ⟨ht, a.withLane x flags, ?_, hlanes, hcomplete, ?_⟩
  · split
    · rw [access_countDown, hacc]
    · exact hacc
  · split
    · rw [counts_countDown, hcounts.1, hcounts.2]
    · rw [hcounts.1, hcounts.2]

/-- A delivery without data leaves the frames. -/
theorem frames_deliver_nil {g : Group} {a : Access} {x : LaneAcc} {id : Nat} (ha : g.access id = some a)
    (hx : a.lanes.find? (fun y => y.lane == x.lane) = some x) (flags : Nat) : (g.deliver id x.lane [] flags).frames = g.frames := by
  rw [deliver_eq ha hx]
  split
  · exact frames_countDown ..
  · rfl

/-! ## The words that a lane's data brings (R84) -/

/-- A word that lands stands in the bank of a frame that is there. -/
theorem bankAt_land {d lane : Nat} {stale : List Nat} {g : Group} {f : Frame} (hf : g.frames.find d = some f)
    (hp : ∀ u n since, f.place ≠ .spilled u n since) {w : Nat × Word} (hw : w.1 < f.size) :
    ∃ f', (g.land d lane stale w).frames.find d = some f' ∧ f'.size = f.size ∧ f'.place = f.place ∧
      (regKey d lane w.1 ∉ stale → f'.bank lane w.1 = w.2) ∧ ∀ r, r ≠ w.1 → f'.bank lane r = f.bank lane r := by
  unfold Group.land
  by_cases hs : stale.contains (regKey d lane w.1) = true
  · rw [if_pos hs]
    exact ⟨f, hf, rfl, rfl, fun h => absurd (List.contains_iff_mem.1 hs) h, fun _ _ => rfl⟩
  · rw [if_neg hs]
    have hput : (g.arrivePut d lane w.1 w.2).frames.find d = some { f with regs := f.regs.put (lane * 256 + w.1) w.2 } := by
      unfold Group.arrivePut
      rw [KMap.find_update_self, hf, Option.map_some, if_neg (Nat.not_le.2 hw)]
      split
      · next h => exact absurd h (hp _ _ _)
      · rfl
    refine ⟨_, hput, rfl, rfl, fun _ => ?_, fun r hr => ?_⟩
    · simp only [Frame.bank, KMap.find_put_self]
    · simp only [Frame.bank, KMap.find_put_ne _ _ (show lane * 256 + r ≠ lane * 256 + w.1 by omega)]

theorem bankAt_foldl_land {d lane : Nat} {stale : List Nat} (ws : List Word) {vd : Nat} {g : Group} {f : Frame}
    (hf : g.frames.find d = some f) (hp : ∀ u n since, f.place ≠ .spilled u n since) (htop : vd + ws.length ≤ f.size) :
    ∃ f', ((mapIdxFrom vd (fun r v => (r, v)) ws).foldl (Group.land d lane stale) g).frames.find d = some f' ∧
      (∀ (j : Nat) (v : Word), ws[j]? = some v → regKey d lane (vd + j) ∉ stale → f'.bank lane (vd + j) = v) ∧
      ∀ r, r < vd → f'.bank lane r = f.bank lane r := by
  induction ws generalizing vd g f with
  | nil => exact ⟨f, hf, fun j v h => absurd h (by simp), fun _ _ => rfl⟩
  | cons w ws ih =>
    rw [List.length_cons] at htop
    obtain ⟨f1, hf1, hsize, hplace, hown, hother⟩ := bankAt_land (stale := stale) (lane := lane) (w := (vd, w)) hf hp (by omega)
    obtain ⟨f2, hf2, hin, hbelow⟩ := ih (vd := vd + 1) hf1 (hplace ▸ hp) (by rw [hsize]; omega)
    refine ⟨f2, hf2, fun j v hj hs => ?_, fun r hr => ?_⟩
    · cases j with
      | zero =>
        obtain rfl := Option.some.inj hj
        rw [Nat.add_zero] at hs ⊢
        rw [hbelow vd (Nat.lt_succ_self vd), hown hs]
      | succ j =>
        have := hin j v hj
        rw [show vd + 1 + j = vd + (j + 1) by omega] at this
        exact this hs
    · rw [hbelow r (by omega), hother r (by show r ≠ vd; omega)]

/-- The words of a delivery stand in the bank. -/
theorem holdsWords_deliver {g : Group} {a : Access} {x : LaneAcc} {id v n : Nat} {ws : List Word} (ha : g.access id = some a)
    (hx : a.lanes.find? (fun y => y.lane == x.lane) = some x) (flags : Nat) (hlen : ws.length = n)
    (hws : ∀ j < n, ws[j]? = some (BitVec.ofNat 32 (v / 2 ^ (32 * j)))) (hf : g.frameHere x.depth.toNat (a.vd + n)) :
    (g.deliver id x.lane ws flags).holdsWords a x v n := by
  obtain ⟨f, hfind, hsize, hp⟩ := hf
  obtain ⟨f', hf', hin, -⟩ := bankAt_foldl_land (lane := x.lane) (stale := a.stale) ws hfind hp (by rw [hlen]; exact hsize)
  have hframes : (g.deliver id x.lane ws flags).frames = (g.landAll a x ws).frames := by
    rw [deliver_eq ha hx]
    split
    · exact frames_countDown ..
    · rfl
  intro r hr hs
  rw [Group.bankAt, hframes, show (g.landAll a x ws).frames.find x.depth.toNat = some f' from hf']
  exact congrArg some (hin r _ (hws r hr) hs)

/-! ## The end of a performed lane -/

/-- The machine behind a lane that is performed without a fault. -/
def State.settleLane (u : State) (gk : Nat) (a : Access) (x : LaneAcc) (ws : List Word) (flags ctx n : Nat) : State :=
  (u.onGroup gk fun g => g.deliver a.id x.lane ws flags).countVault ctx x.target n

/-- A lane that is performed changes its group, and counters of its context. -/
theorem settleLane_leaves {s u : State} {gk : Nat} {g : Group} (hu : ∀ k, u.group k = s.group k) (hg : s.group gk = some g)
    (a : Access) (x : LaneAcc) (ws : List Word) (flags ctx n : Nat) :
    s.onlyGroup (u.settleLane gk a x ws flags ctx n) gk (g.deliver a.id x.lane ws flags) ∧
    (u.settleLane gk a x ws flags ctx n).mem = u.mem ∧ (u.settleLane gk a x ws flags ctx n).gran = u.gran ∧
    (u.settleLane gk a x ws flags ctx n).caches = u.caches := by
  have hsame (j : Nat) : (u.settleLane gk a x ws flags ctx n).group j = (u.onGroup gk fun g => g.deliver a.id x.lane ws flags).group j := by
    unfold State.settleLane State.countVault
    split <;> rfl
  refine ⟨⟨?_, fun k hk => ?_⟩, ?_⟩
  · rw [hsame, group_onGroup, if_pos rfl, hu, hg]
    rfl
  · rw [hsame, group_onGroup, if_neg hk, hu]
  · unfold State.settleLane State.countVault
    split <;> exact ⟨rfl, rfl, rfl⟩

/-- A plain access of a lane meets no dirty byte with an error where its cache has room. -/
theorem cacheMeets_none {s : State} {a : Access} {x : LaneAcc} {core : Nat} (h1 : a.acquires = false) (h2 : a.releases = false)
    (h3 : a.cached x = true → s.allocBad core x.target = none) : s.cacheMeets a x core = none := by
  unfold State.cacheMeets
  rw [h1, h2]
  by_cases hc : a.cached x = true
  · rw [if_pos hc, h3 hc]
    rfl
  · rw [if_neg hc]
    rfl

/-! ## Plain loads (R150, R288) -/

theorem isFabric_vault {t : Nat} (h : isVaultKey t = true) : isFabric t = false := by
  rw [isFabric, h]
  rfl

theorem isFabric_hbm {t : Nat} (h : paKind t = .hbm) : isFabric t = false := by
  rw [isFabric, h, Bool.and_eq_false_iff]
  exact .inr rfl

theorem home_vault {s : State} {t : Nat} (h : isVaultKey t = true) : s.home t = (s, t) := by
  rw [State.home, if_pos h]

/-- Bytes that no selection job owns are read as they stand. -/
theorem veil_unowned {s : State} {gk id a : Nat} {bs : List Byte} (h : s.unowned gk id a bs.length) : s.veil gk id a bs = (s, bs) := by
  have hany : (natsFrom a bs.length).any (s.ownedByte gk id) = false := by
    refine List.any_eq_false.2 fun k hk => ?_
    obtain ⟨h1, h2⟩ := mem_natsFrom.1 hk
    have := h (k - a) (by omega)
    rw [show a + (k - a) = k by omega] at this
    rw [this]
    nofun
  unfold State.veil
  rw [hany]
  rfl

theorem veil_mem (s : State) (gk id key : Nat) (bs : List Byte) : (s.veil gk id key bs).1.mem = s.mem := by
  unfold State.veil
  split <;> rfl

theorem memSide_clearLatent (s : State) (ks : List Nat) : MemSide s (s.clearLatent ks) := .of_mem rfl rfl

theorem correctHome_migs (s : State) (a n : Nat) : (s.correctHome a n).migs = s.migs := by
  obtain ⟨l, c, k, h⟩ := correctHome_rest s a n
  rw [h]

theorem wordsFrom_getElem? (v : Nat) {n j : Nat} (h : j < n) : (wordsFrom v n)[j]? = some (BitVec.ofNat 32 (v / 2 ^ (32 * j))) := by
  rw [wordsFrom, natsFrom_eq_range', List.getElem?_map, List.getElem?_range' h]
  simp

/-- The one word of `lds`: the bytes' number, sign-extended (R147). -/
theorem lds_word (n v : Nat) : BitVec.ofNat 32 (wrapN 32 (sext n v)) = (BitVec.ofNat n v).signExtend 32 := by
  rw [sext_eq_toInt, BitVec.signExtend, ← ofNat_wrapN]

/-- The bytes of a plain load's lane, where they stand at its target. -/
structure PlainLoad (s : State) (a : Access) (x : LaneAcc) : Prop where
  acquires : a.acquires = false
  releases : a.releases = false
  near : isFabric x.target = false
  cached : a.cached x = false
  home : s.home x.target = (s, x.target)
  live : isVaultKey x.target = true ∨ s.migs = []
  atHome : isVaultKey x.target = true ∨ x.nc = true
  clean : s.poisoned x.target a.size = false

theorem plainLoad_of {s : State} {a : Access} {x : LaneAcc} (hfe : a.fe = 0) (ho : a.order = 0) (hp : s.poisoned x.target a.size = false)
    (hat : isVaultKey x.target = true ∨ (x.nc = true ∧ paKind x.target = .hbm ∧ s.migs = [])) : PlainLoad s a x := by
  have hacq : a.acquires = false := by
    simp [Access.acquires, hfe, ho]
  have hrel : a.releases = false := by
    simp [Access.releases, ho]
  rcases hat with hv | ⟨hnc, hk, hm⟩
  · exact ⟨hacq, hrel, isFabric_vault hv, by simp [Access.cached, hv], home_vault hv, .inl hv, .inl hv, hp⟩
  · exact ⟨hacq, hrel, isFabric_hbm hk, by simp [Access.cached, hnc], home_idle hm _, .inr hm, .inr hnc, hp⟩

/-- What a plain load's lane does: it corrects single-bit errors, reads, and delivers. -/
theorem performLoad_plain {s : State} {gk : Nat} {g : Group} {a : Access} {x : LaneAcc} (hk : a.kind = .ld ∨ a.kind = .lds)
    (hfe : a.fe = 0) (hr : a.rmt = false) (h : PlainLoad s a x) :
    ∃ u ws, MemSide s u ∧ u.mem = s.mem ∧ s.performLoad gk g a x .plain = u.settleLane gk a x ws 0 (s.ctxOf g) a.size ∧
      (s.unowned gk a.id x.target a.size → ws = loadWords a.kind (Memory.bytes s.mem x.target a.size)) := by
  have hprom : s.promotionOf a x (s.seat g).1 = none := by
    simp [State.promotionOf, hr]
  have hbad : s.cacheMeets a x (s.seat g).1 = none := cacheMeets_none h.acquires h.releases fun hc => absurd (h.cached.symm.trans hc) nofun
  have hread : s.readLane a x (s.seat g).1 (s.seat g).2 .plain =
      .data (s.correctHome x.target a.size) (Memory.bytes s.mem x.target a.size) false := by
    have hhome : (isVaultKey x.target || x.nc) = true := by
      rcases h.atHome with h | h <;> simp [h]
    unfold State.readLane State.readHome
    simp only [h.acquires, h.near, h.home, h.clean, hhome, Bool.false_and, Bool.true_or, Bool.false_eq_true, if_false, if_true]
    rfl
  obtain ⟨c, hc⟩ : ∃ c, c = s.correctHome x.target a.size := ⟨_, rfl⟩
  have hcs : MemSide s c := hc ▸ memSide_correctHome ..
  have hcm : c.mem = s.mem := hc ▸ correctHome_mem ..
  have hkey : (if isVaultKey x.target = true then x.target else c.liveKey x.target) = x.target := by
    rcases h.live with hv | hm
    · rw [if_pos hv]
    · have : c.migs = [] := by rw [hc, correctHome_migs, hm]
      split
      · rfl
      · exact liveKey_idle this _
  rw [← hc] at hread
  have hload : s.performLoad gk g a x .plain =
      ((c.veil gk a.id x.target (Memory.bytes s.mem x.target a.size)).1.clearLatent
        ((natsFrom a.vd (loadWords a.kind (c.veil gk a.id x.target (Memory.bytes s.mem x.target a.size)).2).length).map
          (latentReg gk x.depth.toNat x.lane))).settleLane gk a x
        (loadWords a.kind (c.veil gk a.id x.target (Memory.bytes s.mem x.target a.size)).2) 0 (s.ctxOf g) a.size := by
    have h1 : (a.kind == .fetest) = false := by rcases hk with hk | hk <;> rw [hk] <;> rfl
    unfold State.performLoad
    simp only [hprom, hbad, hread, hkey, hfe, h1, Option.isSome_none, Bool.false_eq_true, if_false]
    rfl
  refine ⟨_, _, (hcs.trans (memSide_veil ..)).trans (memSide_clearLatent ..), (veil_mem ..).trans hcm, hload, fun hun => ?_⟩
  have hown : c.unowned gk a.id x.target (Memory.bytes s.mem x.target a.size).length := by
    rw [Memory.bytes_length]
    intro j hj
    have : c.selQ = s.selQ := by rw [hcs.rest]
    unfold State.ownedByte
    rw [this]
    exact hun j hj
  rw [veil_unowned hown]

theorem loadWords_ld (bs : List Byte) : loadWords .ld bs = wordsFrom (ofLeBytes bs) (regsFor bs.length) := rfl

theorem loadWords_lds (bs : List Byte) :
    loadWords .lds bs = [(BitVec.ofNat (8 * bs.length) (ofLeBytes bs)).signExtend 32] := by
  rw [← lds_word]
  rfl

theorem exec_load {s : State} {gk id : Nat} {g : Group} {a : Access} {x : LaneAcc} (h : NextLane s gk id g a x)
    (hk : a.kind = .ld ∨ a.kind = .lds) (hs : g.saved = false) (hh : g.halt = none) (hq : x.queued = false) :
    exec (.loadDataArrival gk id .plain) s =
      if a.fe == 0 then .next (s.performLoad gk g a x .plain)
      else if (s.granAt (x.target / 16)).full && !(s.feQ.any fun w => w.granule == x.target / 16) then
        .next (s.performLoad gk g a x .plain)
      else .next (s.enqueueWord gk a) := by
  have h1 : (!(a.kind == .ld || a.kind == .lds || a.kind == .fetest) || g.saved || g.halt.isSome) = false := by
    rw [hs, hh]
    rcases hk with hk | hk <;> rw [hk] <;> rfl
  show execLoadDataArrival gk id .plain s = _
  unfold execLoadDataArrival
  simp only [h.group, h.access, h1, h.next, hq, h.order, Bool.false_eq_true, if_false, Bool.not_true, Bool.or_self]
  rfl

/-- A lane of a plain load is performed with the bytes that stand there. -/
theorem load_performs {s : State} {gk id : Nat} {g : Group} {a : Access} {x : LaneAcc} (h : NextLane s gk id g a x) (hr : a.rmt = false)
    (hs : g.saved = false) (hh : g.halt = none) (hq : x.queued = false) (hk : a.kind = .ld ∨ a.kind = .lds) (hfe : a.fe = 0)
    (hp : PlainLoad s a x) :
    ∃ g' t, exec (.loadDataArrival gk id .plain) s = .next t ∧ LaneDone s t gk g a x g' ∧ t.mem = s.mem ∧
      (s.unowned gk a.id x.target a.size →
        (a.kind = .ld → g.frameHere x.depth.toNat (a.vd + (a.size + 3) / 4) →
          g'.holdsWords a x (Memory.num s.mem x.target a.size) ((a.size + 3) / 4)) ∧
        (a.kind = .lds → g.frameHere x.depth.toNat (a.vd + 1) →
          g'.holdsWords a x ((BitVec.ofNat (8 * a.size) (Memory.num s.mem x.target a.size)).signExtend 32).toNat 1)) := by
  obtain ⟨u, ws, hu, hmem, hload, hws⟩ := performLoad_plain (g := g) (gk := gk) hk hfe hr hp
  have hfence : a.kind ≠ .fence := by rcases hk with hk | hk <;> rw [hk] <;> nofun
  have hid := id_of_access h.access
  have hacc : g.access a.id = some a := hid.symm ▸ h.access
  obtain ⟨honly, hm, -⟩ := settleLane_leaves (fun k => hu.group k) h.group a x ws 0 (s.ctxOf g) a.size
  refine ⟨_, _, (exec_load h hk hs hh hq).trans ?_, laneDone_deliver hacc h.lane hfence ws 0 honly, hm.trans hmem, fun hun => ?_⟩
  · rw [hfe, hload]
    rfl
  · have hw := hws hun
    refine ⟨fun hkind hf => ?_, fun hkind hf => ?_⟩
    · rw [hkind, loadWords_ld, Memory.bytes_length] at hw
      refine holdsWords_deliver hacc h.lane 0 ?_ (fun j hj => ?_) hf
      · rw [hw, wordsFrom, List.length_map, length_natsFrom]
        rfl
      · rw [hw]
        exact wordsFrom_getElem? _ hj
    · rw [hkind, loadWords_lds, Memory.bytes_length] at hw
      refine holdsWords_deliver hacc h.lane 0 (by rw [hw]; rfl) (fun j hj => ?_) hf
      obtain rfl : j = 0 := by omega
      rw [hw]
      simp [Memory.num]

/-- The lanes of a blocking word that finds a granule empty, or others before it, join the queues. -/
theorem load_queues {s : State} {gk id : Nat} {g : Group} {a : Access} {x : LaneAcc} (h : NextLane s gk id g a x)
    (hs : g.saved = false) (hh : g.halt = none) (hq : x.queued = false) (hk : a.kind = .ld ∨ a.kind = .lds) (hfe : a.fe ≠ 0)
    (hw : (s.granAt (x.target / 16)).full = false ∨ ∃ w ∈ s.feQ, w.granule = x.target / 16) :
    ∃ g' t, exec (.loadDataArrival gk id .plain) s = .next t ∧ s.onlyGroup t gk g' ∧ t.mem = s.mem ∧
      (g'.loads, g'.frames) = (g.loads, g.frames) ∧
      t.feQ = s.feQ ++ (a.lanes.filter fun y => !y.done).map fun y => ⟨y.target / 16, .lane gk id y.lane, a.fe == 2⟩ := by
  have hbusy : ((s.granAt (x.target / 16)).full && !(s.feQ.any fun w => w.granule == x.target / 16)) = false := by
    rcases hw with hw | ⟨w, hin, hw⟩
    · rw [hw]
      rfl
    · have hany : (s.feQ.any fun w => w.granule == x.target / 16) = true := List.any_eq_true.2 ⟨w, hin, beq_iff_eq.2 hw⟩
      rw [hany, Bool.not_true, Bool.and_false]
  let f (b : Access) : Access := { b with lanes := b.lanes.map fun y => if y.done then y else { y with queued := true } }
  have hgroup (j : Nat) : (s.enqueueWord gk a).group j = if j = gk then some (g.onAccess a.id f) else s.group j := by
    have : (s.enqueueWord gk a).group j = (s.onGroup gk fun g => g.onAccess a.id f).group j := rfl
    rw [this, group_onGroup, h.group]
    rfl
  refine ⟨g.onAccess a.id f, s.enqueueWord gk a, (exec_load h hk hs hh hq).trans ?_, ⟨?_, fun k hk => ?_⟩, rfl, rfl, ?_⟩
  · rw [if_neg (by simpa using hfe), hbusy]
    rfl
  · rw [hgroup, if_pos rfl]
  · rw [hgroup, if_neg hk]
  · rw [← id_of_access h.access]
    rfl

/-! ## Granule records (R252, R308) -/

theorem granAt_setGran (s : State) (i : Nat) (x : Gran) (j : Nat) : (s.setGran i x).granAt j = if j = i then x else s.granAt j := by
  unfold State.granAt State.setGran
  simp only
  split
  · next h =>
    rw [KMap.find_del]
    split
    · exact h.symm
    · rfl
  · rw [KMap.find_put]
    split <;> rfl

/-- Full bits stand. -/
def SameFull (s t : State) : Prop := ∀ i, (t.granAt i).full = (s.granAt i).full

theorem SameFull.trans {a b c : State} (h : SameFull a b) (h' : SameFull b c) : SameFull a c := fun i => (h' i).trans (h i)

theorem SameFull.foldl {f : State → Nat → State} (hf : ∀ s i, SameFull s (f s i)) (is : List Nat) (s : State) :
    SameFull s (is.foldl f s) := by
  induction is generalizing s with
  | nil => exact fun _ => rfl
  | cons i is ih => exact (hf s i).trans (ih _)

theorem sameFull_setGran {s : State} {i : Nat} {x : Gran} (h : x.full = (s.granAt i).full) : SameFull s (s.setGran i x) := by
  intro j
  rw [granAt_setGran]
  split
  · next hj => rw [h, hj]
  · rfl

theorem sameFull_stampBytes (s : State) (a n : Nat) : SameFull s (s.stampBytes a n) :=
  .foldl (f := fun s g => s.setGran g ((s.granAt g).stamp s.seq (bytesIn g a n))) (fun _ _ => sameFull_setGran rfl) _ s

theorem sameFull_write (s : State) (a : Nat) (bs : List Byte) : SameFull s (s.write a bs) := by
  unfold State.write
  simp only
  split
  · exact fun _ => rfl
  · exact SameFull.trans (fun _ => rfl) (sameFull_stampBytes _ _ _)

theorem sameFull_tagPlain (s : State) (gs : List Nat) : SameFull s (s.tagPlain gs) :=
  .foldl (f := fun s g => s.setGran g { (s.granAt g) with rel := none }) (fun _ _ => sameFull_setGran rfl) _ s

theorem sameFull_writeHome {s : State} {target : Nat} (h : isVaultKey target = true) (bs : List Byte) :
    SameFull s (s.writeHome target bs none) := by
  unfold State.writeHome
  rw [home_vault h]
  exact (sameFull_write _ _ _).trans (sameFull_tagPlain _ _)

theorem foldl_setGran_mem (f : State → Nat → Gran) (is : List Nat) (s : State) :
    (is.foldl (fun s i => s.setGran i (f s i)) s).mem = s.mem := by
  induction is generalizing s with
  | nil => rfl
  | cons i is ih => exact ih _

theorem writeHome_vault_mem {s : State} {target : Nat} (h : isVaultKey target = true) (bs : List Byte) :
    (s.writeHome target bs none).mem = Memory.putBytes s.mem target bs := by
  unfold State.writeHome
  rw [home_vault h, ← write_mem s target bs]
  exact foldl_setGran_mem (fun s i => { (s.granAt i) with rel := none }) _ _

/-! ## Stores and full-empty bits (R151, R288) -/

theorem exec_store {s : State} {gk id : Nat} {g : Group} {a : Access} {x : LaneAcc} (h : NextLane s gk id g a x)
    (hk : a.kind = .st ∨ a.kind = .feset ∨ a.kind = .feclr) :
    exec (.storePerformed gk id .plain) s = .next (s.performStore gk g a x .plain) := by
  have h1 : a.isFence = false := by rcases hk with hk | hk | hk <;> rw [Access.isFence, hk] <;> rfl
  have h2 : (a.kind == .st || a.kind == .feset || a.kind == .feclr) = true := by
    rcases hk with hk | hk | hk <;> rw [hk] <;> rfl
  show execStorePerformed gk id .plain s = _
  unfold execStorePerformed
  simp only [h.group, h.access, h1, h2, h.next, h.order, Bool.false_eq_true, if_false, Bool.not_true, if_true]

theorem store_quiet {a : Access} (hk : a.kind = .st ∨ a.kind = .feset ∨ a.kind = .feclr) (ho : a.order = 0) :
    a.acquires = false ∧ a.releases = false := by
  have hl : a.kind.isLoad = false := by rcases hk with hk | hk | hk <;> rw [hk] <;> rfl
  exact ⟨by simp [Access.acquires, hl], by simp [Access.releases, ho]⟩

theorem length_leBytes (v n : Nat) : (leBytes v n).length = n := by
  induction n generalizing v with
  | zero => rfl
  | succ n ih => rw [leBytes, List.length_cons, ih]

theorem leBytes_getD (v n j : Nat) (h : j < n) : (leBytes v n).getD j 0 = BitVec.ofNat 8 (v / 256 ^ j) := by
  induction n generalizing v j with
  | zero => omega
  | succ n ih =>
    cases j with
    | zero => simp [leBytes]
    | succ j =>
      rw [leBytes, List.getD_cons_succ, ih _ _ (by omega), Nat.div_div_eq_div_mul, ← Nat.pow_succ']

/-- The end of a store's lane, from the machine its write has made. -/
theorem storeLane_leaves {s u t : State} {gk id : Nat} {g : Group} {a : Access} {x : LaneAcc} (h : NextLane s gk id g a x)
    (hk : a.kind = .st ∨ a.kind = .feset ∨ a.kind = .feclr) (hu : ∀ k, u.group k = s.group k) {c n : Nat}
    (ht : t = u.settleLane gk a x [] 0 c n) :
    ∃ g', LaneDone s t gk g a x g' ∧ g'.frames = g.frames ∧ t.mem = u.mem ∧ t.gran = u.gran ∧ t.caches = u.caches := by
  have hfence : a.kind ≠ .fence := by rcases hk with hk | hk | hk <;> rw [hk] <;> nofun
  have hacc : g.access a.id = some a := (id_of_access h.access).symm ▸ h.access
  obtain ⟨honly, hrest⟩ := settleLane_leaves hu h.group a x [] 0 c n
  subst ht
  exact ⟨_, laneDone_deliver hacc h.lane hfence [] 0 honly, frames_deliver_nil hacc h.lane 0, hrest⟩

/-- A plain store to a vault writes its bytes and no others; with `fe` = 1 its granule is full. -/
theorem vaultStore_performs {s : State} {gk id : Nat} {g : Group} {a : Access} {x : LaneAcc} (h : NextLane s gk id g a x)
    (hk : a.kind = .st) (ho : a.order = 0) (hinv : s.Inv) (hv : isVaultKey x.target = true) :
    ∃ g' t, exec (.storePerformed gk id .plain) s = .next t ∧ LaneDone s t gk g a x g' ∧ g'.frames = g.frames ∧
      wroteOnly s t x.target a.size x.data ∧ (a.fe = 1 → (t.granAt (x.target / 16)).full = true) ∧
      ∀ i, (a.fe ≠ 1 ∨ i ≠ x.target / 16) → (t.granAt i).full = (s.granAt i).full := by
  obtain ⟨hacq, hrel⟩ := store_quiet (.inl hk) ho
  have hcached : a.cached x = false := by simp [Access.cached, hv]
  have hbad := cacheMeets_none (s := s) (x := x) (core := (s.seat g).1) hacq hrel fun hc => absurd (hcached.symm.trans hc) nofun
  obtain ⟨w, hw⟩ : ∃ w, w = s.writeHome x.target (leBytes x.data a.size) none := ⟨_, rfl⟩
  have hside : MemSide s w := hw ▸ memSide_writeHome ..
  have hmem : w.mem = Memory.putBytes s.mem x.target (leBytes x.data a.size) := hw ▸ writeHome_vault_mem hv _
  have hfull : SameFull s w := hw ▸ sameFull_writeHome hv _
  let u : State := if a.fe == 1 then w.setGran (x.target / 16) { (w.granAt (x.target / 16)) with full := true } else w
  have hstore : s.performStore gk g a x .plain = u.settleLane gk a x [] 0 (u.ctxOf g) a.size := by
    unfold State.performStore
    simp only [hbad, hrel, isFabric_vault hv, hk, hv, Bool.false_eq_true, if_false, beq_self_eq_true, if_true, ← hw]
    rfl
  have hgroup (k : Nat) : u.group k = s.group k := by
    rw [← hside.group k]
    simp only [u]
    split <;> rfl
  obtain ⟨g', hdone, hframes, hm, hgran, -⟩ := storeLane_leaves h (.inl hk) hgroup hstore
  have humem : u.mem = w.mem := by
    simp only [u]
    split <;> rfl
  have hat (i : Nat) : ((s.performStore gk g a x .plain).granAt i).full = (u.granAt i).full := by
    unfold State.granAt
    rw [hgran]
  refine ⟨g', _, exec_store h (.inl hk), hdone, hframes, fun b => ?_, fun hfe => ?_, fun i hi => ?_⟩
  · rw [hm, humem, hmem, Memory.byte_putBytes hinv, length_leBytes]
    split
    · next hb => rw [leBytes_getD _ _ _ (by omega)]
    · rfl
  · rw [hat]
    simp only [u, hfe, beq_self_eq_true, if_true, granAt_setGran]
  · rw [hat]
    simp only [u]
    split
    · next hfe =>
      rw [granAt_setGran, if_neg (hi.resolve_left (not_not.2 (beq_iff_eq.1 hfe))), hfull]
    · exact hfull i

theorem cacheOf_setCache (s : State) (core : Nat) (c : KMap CacheByte) : (s.setCache core c).cacheOf core = c := by
  unfold State.cacheOf State.setCache
  simp only
  split
  · next h => rw [KMap.find_del_self, Option.getD_none, List.isEmpty_iff.1 h]
  · rw [KMap.find_put_self, Option.getD_some]

/-- A cache with room for a line evicts none for it. -/
theorem victimLine_none {s : State} {core pa : Nat} (h : s.cacheRoom core pa) : s.victimLine core pa = none := by
  unfold State.victimLine
  simp only
  split
  · rfl
  · next l rest hl =>
    refine if_pos ?_
    rcases h with ⟨p, hp, hline⟩ | hlt
    · have : pa / 128 ∈ dedup ((s.cacheOf core).map fun x => x.1 / 128) :=
        (mem_dedup _ _).2 (List.mem_map.2 ⟨p, hp, hline⟩)
      rw [List.contains_iff_mem.2 this, Bool.true_or]
    · rw [decide_eq_true (show (dedup ((s.cacheOf core).map fun x => x.1 / 128)).length < cacheLines from hlt), Bool.or_true]

/-- Bytes that a store puts into a cache, one after another. -/
theorem find_putAll (rel : Bool) (seq : Nat) (bs : List Byte) (pa : Nat) (c : KMap CacheByte) (b : Nat) :
    ((mapIdxFrom pa (fun a v => (a, v)) bs).foldl (fun (c : KMap CacheByte) x => c.put x.1 ⟨x.2, true, rel, seq⟩) c).find b =
      if pa ≤ b ∧ b < pa + bs.length then some ⟨bs.getD (b - pa) 0, true, rel, seq⟩ else c.find b := by
  induction bs generalizing pa c with
  | nil =>
    rw [if_neg (by simp)]
    rfl
  | cons v bs ih =>
    refine (ih (pa + 1) (KMap.put c pa ⟨v, true, rel, seq⟩)).trans ?_
    rw [List.length_cons]
    rcases Nat.lt_trichotomy b pa with hlt | rfl | hgt
    · rw [if_neg (by omega), if_neg (by omega), KMap.find_put_ne _ _ (by omega)]
    · rw [if_neg (by omega), if_pos (by omega), KMap.find_put_self, Nat.sub_self, List.getD_cons_zero]
    · by_cases hin : b < pa + (bs.length + 1)
      · rw [if_pos (by omega), if_pos (by omega), show b - pa = b - (pa + 1) + 1 by omega, List.getD_cons_succ]
      · rw [if_neg (by omega), if_neg (by omega), KMap.find_put_ne _ _ (by omega)]

/-- A plain cached store stays in its core's cache. -/
theorem cachedStore_performs {s : State} {gk id : Nat} {g : Group} {a : Access} {x : LaneAcc} (h : NextLane s gk id g a x)
    (hk : a.kind = .st) (ho : a.order = 0) (hv : isVaultKey x.target = false) (hp : paKind x.target = .hbm) (hnc : x.nc = false)
    (hroom : s.cacheRoom (s.seat g).1 x.target) :
    ∃ g' t, exec (.storePerformed gk id .plain) s = .next t ∧ LaneDone s t gk g a x g' ∧ g'.frames = g.frames ∧ t.mem = s.mem ∧
      (∀ j < a.size, (t.cacheOf (s.seat g).1).find (x.target + j) = some ⟨BitVec.ofNat 8 (x.data / 256 ^ j), true, false, s.seq⟩) ∧
      ∀ b, (b < x.target ∨ x.target + a.size ≤ b) → (t.cacheOf (s.seat g).1).find b = (s.cacheOf (s.seat g).1).find b := by
  obtain ⟨hacq, hrel⟩ := store_quiet (.inl hk) ho
  have hvict := victimLine_none hroom
  have hbad := cacheMeets_none (s := s) (x := x) (core := (s.seat g).1) hacq hrel fun _ => by
    rw [State.allocBad, hvict]
  have halloc : s.allocLine (s.seat g).1 x.target = s := by
    rw [State.allocLine, hvict]
  let u : State := s.cacheStore (s.seat g).1 x.target false (leBytes x.data a.size)
  have hu : u = (s.clearCached (s.seat g).1 fun b => x.target ≤ b && b < x.target + (leBytes x.data a.size).length).setCache (s.seat g).1
      ((mapIdxFrom x.target (fun a b => (a, b)) (leBytes x.data a.size)).foldl
        (fun (c : KMap CacheByte) y => c.put y.1 ⟨y.2, true, false, s.seq⟩) (s.cacheOf (s.seat g).1)) := by
    simp only [u, State.cacheStore, halloc]
    rfl
  have hstore : s.performStore gk g a x .plain = u.settleLane gk a x [] 0 (u.ctxOf g) a.size := by
    unfold State.performStore
    simp only [hbad, hrel, isFabric_hbm hp, hk, hv, hnc, Bool.false_eq_true, if_false, beq_self_eq_true, if_true, Bool.false_and]
    rfl
  obtain ⟨g', hdone, hframes, hm, -, hcaches⟩ := storeLane_leaves (u := u) h (.inl hk) (fun _ => by rw [hu]; rfl) hstore
  have hcache : (s.performStore gk g a x .plain).cacheOf (s.seat g).1 = u.cacheOf (s.seat g).1 := by
    unfold State.cacheOf
    rw [hcaches]
  have hfind (b : Nat) : ((s.performStore gk g a x .plain).cacheOf (s.seat g).1).find b =
      if x.target ≤ b ∧ b < x.target + a.size then some ⟨(leBytes x.data a.size).getD (b - x.target) 0, true, false, s.seq⟩
      else (s.cacheOf (s.seat g).1).find b := by
    rw [hcache, hu, cacheOf_setCache, find_putAll, length_leBytes]
  refine ⟨g', _, exec_store h (.inl hk), hdone, hframes, ?_, fun j hj => ?_, fun b hb => ?_⟩
  · rw [hm, hu]
    rfl
  · rw [hfind, if_pos (by omega), Nat.add_sub_cancel_left, leBytes_getD _ _ _ hj]
  · rw [hfind, if_neg (by omega)]

/-- `feset` and `feclr` set one full bit. -/
theorem feBit_performs {s : State} {gk id : Nat} {g : Group} {a : Access} {x : LaneAcc} (h : NextLane s gk id g a x)
    (hk : a.kind = .feset ∨ a.kind = .feclr) (ho : a.order = 0) (hv : isVaultKey x.target = true) :
    ∃ g' t, exec (.storePerformed gk id .plain) s = .next t ∧ LaneDone s t gk g a x g' ∧ g'.frames = g.frames ∧
      t.mem = s.mem ∧ (t.granAt (x.target / 16)).full = (a.kind == .feset) ∧ ∀ i, i ≠ x.target / 16 → t.granAt i = s.granAt i := by
  obtain ⟨hacq, hrel⟩ := store_quiet (.inr hk) ho
  have hcached : a.cached x = false := by simp [Access.cached, hv]
  have hbad := cacheMeets_none (s := s) (x := x) (core := (s.seat g).1) hacq hrel fun hc => absurd (hcached.symm.trans hc) nofun
  let u : State := s.setGran (x.target / 16) { (s.granAt (x.target / 16)) with full := a.kind == .feset }
  have hst : (a.kind == .st) = false := by rcases hk with hk | hk <;> rw [hk] <;> rfl
  have hstore : s.performStore gk g a x .plain = u.settleLane gk a x [] 0 (u.ctxOf g) 0 := by
    unfold State.performStore
    simp only [hbad, hrel, isFabric_vault hv, hst, Bool.false_eq_true, if_false]
    rfl
  obtain ⟨g', hdone, hframes, hm, hgran, -⟩ := storeLane_leaves (u := u) h (.inr hk) (fun _ => rfl) hstore
  have hat (i : Nat) : (s.performStore gk g a x .plain).granAt i = u.granAt i := by
    unfold State.granAt
    rw [hgran]
  refine ⟨g', _, exec_store h (.inr hk), hdone, hframes, hm, ?_, fun i hi => ?_⟩
  · rw [hat, granAt_setGran, if_pos rfl]
  · rw [hat, granAt_setGran, if_neg hi]

/-! ## Fences (R296) -/

theorem cacheOf_congr {s t : State} (h : t.caches = s.caches) (core : Nat) : t.cacheOf core = s.cacheOf core := by
  unfold State.cacheOf
  rw [h]

/-- A write-back of a whole cache leaves no dirty byte. -/
theorem writeBack_clean (s : State) (core : Nat) : ∀ p ∈ (s.writeBack core fun _ => true).cacheOf core, p.2.dirty = false := by
  intro p hp
  unfold State.writeBack at hp
  split at hp
  · next h =>
    cases hd : p.2.dirty with
    | false => rfl
    | true =>
      have : p ∈ (s.cacheOf core).filter fun x => true && x.2.dirty := List.mem_filter.2 ⟨hp, by rw [hd]; rfl⟩
      rw [h] at this
      cases this
  · rw [cacheOf_setCache] at hp
    obtain ⟨q, -, rfl⟩ := List.mem_map.1 hp
    rfl

theorem invalidate_empty (s : State) (core : Nat) : (s.invalidate core fun _ => true).cacheOf core = [] := by
  unfold State.invalidate
  simp only
  rw [cacheOf_setCache]
  exact List.filter_eq_nil_iff.2 fun _ _ => nofun

/-- Settles O46: a lane that may be performed reads or writes its home or its cache and is done; a fence runs its action. -/
theorem accessesPerform : Obligations.AccessesPerform := by
  unfold Obligations.AccessesPerform
  refine ⟨fun s gk id g a x h hr hs hh hq => ⟨fun hk hfe ho hp hat => ?_, fun hk hfe hw => load_queues h hs hh hq hk hfe hw,
    fun hk ho hinv hv => vaultStore_performs h hk ho hinv hv, fun hk ho hv hp hnc hroom => cachedStore_performs h hk ho hv hp hnc hroom,
    fun hk ho hv => feBit_performs h hk ho hv⟩, fun s gk id g a hg ha hk hc hready hd => ?_⟩
  · exact load_performs h hr hs hh hq hk hfe (plainLoad_of hfe ho hp hat)
  · have hfence : a.isFence = true := beq_iff_eq.2 hk
    have hbad : s.actionBad (s.seat g).1 a.scope = none := by
      rw [State.actionBad, hd, ite_self]
    let u : State := if a.order == 1 || a.order == 3 then s.acquireAction (s.seat g).1 a.scope else s.releaseAction (s.seat g).1 a.scope
    have hside : MemSide s u := by
      simp only [u]
      split
      · exact memSide_acquireAction ..
      · exact memSide_releaseAction ..
    let f (b : Access) : Access := { b with complete := true }
    have hx : execStorePerformed gk id .plain s = .next (u.onGroup gk fun g => g.onAccess id f) := by
      unfold execStorePerformed
      simp only [hg, ha, hfence, hc, hready, hbad, if_true, Bool.not_true, Bool.or_self, Bool.false_eq_true, if_false]
      rfl
    have hgroup (j : Nat) : (u.onGroup gk fun g => g.onAccess id f).group j = if j = gk then some (g.onAccess id f) else s.group j := by
      rw [group_onGroup, hside.group, hside.group, hg]
      rfl
    have hself := find?_onAccess (f := f) ha fun _ hb => hb
    refine ⟨g.onAccess id f, _, hx, ⟨?_, fun k hk => ?_⟩, rfl, hself, fun hscope => ?_, fun hscope hord => ?_, fun hscope => ?_⟩
    · rw [hgroup, if_pos rfl]
    · rw [hgroup, if_neg hk]
    · have hu : u = s := by
        simp only [u, State.acquireAction, State.releaseAction, if_neg (Nat.not_le.2 hscope), ite_self]
      rw [hu]
      exact ⟨rfl, rfl⟩
    · have hu : u = s.invalidate (s.seat g).1 fun _ => true := by
        have : (a.order == 1 || a.order == 3) = true := by rcases hord with h | h <;> rw [h] <;> rfl
        simp only [u, this, if_true, State.acquireAction, if_pos hscope]
      rw [hu]
      exact invalidate_empty ..
    · show ∀ p ∈ u.cacheOf (s.seat g).1, _
      simp only [u, State.acquireAction, State.releaseAction, if_pos hscope]
      split
      · rw [invalidate_empty]
        exact fun p hp => absurd hp List.not_mem_nil
      · exact writeBack_clean _ _

end Sys2Proof.Machine
end

section
/-! SUPPORT. Barriers of a team whose table of groups does not rise (R204). -/

namespace Sys2Proof.Machine

open Sys2Proof

/-- A group of one live lane of team 0, with its arrivals. -/
def arriving (gidx : Nat) (arrivals : List (Nat × Nat)) : Group :=
  { (startGroup 0 gidx gidx 16 1 0 0 256 0 0 0 []) with arrivals := arrivals }

/-- A team of two groups, one of which has arrived on barrier 0 and the other is about to; the table of groups lists group 1
before group 0. -/
def falling : State :=
  { oneLane with
    groups := [(1, arriving 1 []), (0, arriving 0 [(0, 0)])],
    teams := oneLane.teams.update 0 fun tm => { tm with barriers := [(0, ⟨0, 1, 2⟩)] } }

/-- Refutes O48: where the keys of the table of groups do not rise, the write of the arriving group lists it a second time, so
that the team seems to have a group more and its last arrival does not end the phase. (The statement admits such tables.) -/
theorem not_orderedAddsBarriersRetirement : ¬ Obligations.OrderedAddsBarriersRetirement := by
  unfold Obligations.OrderedAddsBarriersRetirement
  rintro ⟨-, -, hbarrier, -⟩
  obtain ⟨tm, htm⟩ := Option.isSome_iff_exists.1 (show (falling.teams.find 0).isSome = true by decide +kernel)
  have hcount : ((falling.teams.find 0).map fun tm => (tm.barrier 0)) = some ⟨0, 1, 2⟩ := by decide +kernel
  rw [htm] at hcount
  have hb : tm.barrier 0 = ⟨0, 1, 2⟩ := Option.some.inj hcount
  obtain ⟨-, hlast⟩ := hbarrier falling 0 0 0 (arriving 0 [(0, 0)]) tm rfl htm (by decide) rfl rfl rfl rfl (by rw [hb]; decide)
  obtain ⟨tm', t, hx, ht, -, hphase, -⟩ := hlast (by rw [hb]; decide +kernel)
  have hrun : (match exec (.barrierArrivalSettle 0 0) falling with
      | .next t => (t.teams.find 0).map fun tm => tm.barrier 0
      | _ => none) = some ⟨0, 2, 3⟩ := by decide +kernel
  rw [hx] at hrun
  have hfind : t.teams.find 0 = some tm' := ht
  simp only [hfind, Option.map_some, hphase, hb] at hrun
  exact absurd hrun (by decide)

end Sys2Proof.Machine
end

section
/-! SUPPORT. Frame requests that are served and frames that the spill engine moves (R192 to R198). -/

namespace Sys2Proof.Machine

open Sys2Proof

/-! ## Requests (R192, R197) -/

/-- The head request of a team is served once the free granules cover it. -/
theorem exec_serve {s : State} {team : Nat} {tm : Team} {r : FrameReq} {rest : List FrameReq} (htm : s.teams.find team = some tm)
    (hsaved : tm.saved = false) (hq : tm.queue = r :: rest) (hsize : r.size ≤ s.freeGranules team) :
    exec (.frameRequestServed team) s = .next (s.serve team r) := by
  show execFrameRequestServed team s = _
  unfold execFrameRequestServed
  simp only [htm, hsaved, hq, Bool.false_eq_true, if_false, hsize, if_true]

/-- A group is back from its swap. -/
def Group.unswap (g : Group) : Group := { g with swapped := false, pass := 0, blocked := g.blocked.filter fun p => p.2 != .frame }

/-- A gang waits for its frames no more. -/
def Group.unblock (g : Group) (tag : Nat) : Group := { g with blocked := g.blocked.del tag }

/-- A team without a request. -/
def Team.without (tm : Team) (r : FrameReq) : Team := { tm with requests := tm.requests.filter fun x => !sameRequest x r }

/-- A team one of whose requests is served: `back` of its granules came with refilled frames. -/
def Team.withServed (tm : Team) (r : FrameReq) (back : Nat) : Team :=
  tm.onRequest r fun x => { x with served := true, size := x.size - back, refill := [] }

/-- The granules of the frames that a request has refilled. -/
def State.backOf (s : State) (r : FrameReq) : Nat :=
  ((s.group r.gk).map fun g => (r.refill.map fun d => g.frameSize d / 8).foldl (· + ·) 0).getD 0

/-- What serving leaves, once the frames are back. -/
theorem serve_ok {s s' : State} {team : Nat} {r : FrameReq} (h : s.refillAll r.gk r.refill = .ok s') : s.serve team r =
    if r.restore then (s'.onTeam team fun tm => tm.without r).onGroup r.gk Group.unswap
    else (s'.onTeam team fun tm => tm.withServed r (s'.backOf r)).onGroup r.gk fun g => g.unblock r.tag := by
  unfold State.serve
  simp only [h]
  rfl

/-- A change of one team and one group. -/
theorem onTeam_onGroup {s : State} {gk : Nat} {g : Group} (hg : s.group gk = some g) (team : Nat) (f : Team → Team) (h : Group → Group) :
    s.onlyGroup ((s.onTeam team f).onGroup gk h) gk (h g) ∧
    ((s.onTeam team f).onGroup gk h).teams.find team = (s.teams.find team).map f ∧ ((s.onTeam team f).onGroup gk h).mem = s.mem := by
  refine ⟨⟨?_, fun k hk => ?_⟩, KMap.find_update_self .., rfl⟩
  · rw [group_onGroup, if_pos rfl]
    show (s.group gk).map h = _
    rw [hg]
    rfl
  · rw [group_onGroup, if_neg hk]
    rfl

/-- What either kind of serving leaves of a group's frames. -/
theorem serve_frames {s s' : State} {team : Nat} {r : FrameReq} (h : s.refillAll r.gk r.refill = .ok s') {g' : Group}
    (hg : s.onlyGroup s' r.gk g') :
    ∃ g'', s.onlyGroup (s.serve team r) r.gk g'' ∧ (s.serve team r).mem = s'.mem ∧ g''.frames = g'.frames := by
  have lift (f : Team → Team) (h : Group → Group) := onTeam_onGroup hg.1 team f h
  rw [serve_ok h]
  split
  · obtain ⟨⟨hown, hothers⟩, -, hm⟩ := lift (fun tm => tm.without r) Group.unswap
    exact ⟨_, ⟨hown, fun k hk => (hothers k hk).trans (hg.2 k hk)⟩, hm, rfl⟩
  · obtain ⟨⟨hown, hothers⟩, -, hm⟩ := lift (fun tm => tm.withServed r (s'.backOf r)) (fun g => g.unblock r.tag)
    exact ⟨_, ⟨hown, fun k hk => (hothers k hk).trans (hg.2 k hk)⟩, hm, rfl⟩

/-! ## Refills (R198) -/

/-- Where no byte of the area was written, no register is undefined. -/
theorem touchedRegs_nil {keys : List Nat} {p : Nat → Bool} (h : ∀ k ∈ keys, ∀ j < 256, p (k + j) = false) : touchedRegs keys p = [] := by
  have hmap : ∀ (i : Nat) (ks : List Nat), (∀ k ∈ ks, ∀ j < 256, p (k + j) = false) →
      ((mapIdxFrom i (fun i k => (i, k)) ks).flatMap fun x =>
        ((natsFrom 0 256).filter fun j => p (x.2 + j)).map fun j => Config.spillLayout keys.length (x.1 * 256 + j)) = [] := by
    intro i ks
    induction ks generalizing i with
    | nil => exact fun _ => rfl
    | cons k ks ih =>
      intro hk
      have hnone : ((natsFrom 0 256).filter fun j => p (k + j)) = [] :=
        List.filter_eq_nil_iff.2 fun j hj => by
          rw [hk k List.mem_cons_self j (by have := mem_natsFrom.1 hj; omega)]
          nofun
      rw [mapIdxFrom, List.flatMap_cons, ih _ fun k' hk' => hk k' (List.mem_cons_of_mem _ hk'), hnone]
      rfl
  unfold touchedRegs
  rw [hmap 0 keys h]
  rfl

theorem writtenSince_byte {s : State} {k since : Nat} (h : s.writtenSince k 256 since = false) {j : Nat} (hj : j < 256) :
    s.writtenSince (k + j) 1 since = false := by
  have := List.any_eq_false.1 h (k + j) (mem_natsFrom.2 ⟨by omega, by omega⟩)
  simpa [State.writtenSince, natsFrom] using this

/-- Reads of an area at their homes change the side of memory only, and no byte. -/
theorem foldl_correctHome_area (keys : List Nat) (s : State) :
    MemSide s (keys.foldl (fun s k => s.correctHome k 256) s) ∧ (keys.foldl (fun s k => s.correctHome k 256) s).mem = s.mem := by
  induction keys generalizing s with
  | nil => exact ⟨.refl s, rfl⟩
  | cons k ks ih =>
    obtain ⟨h1, h2⟩ := ih (s.correctHome k 256)
    exact ⟨(memSide_correctHome ..).trans h1, h2.trans (correctHome_mem ..)⟩

/-- A spilled frame whose area no one has written comes back as it was. -/
theorem refill_moves {s : State} {gk d u n since : Nat} {g : Group} {tm : Team} {la : Launch} {md : Module} {f : Frame}
    {keys : List Nat} (hg : s.group gk = some g) (htm : s.teams.find g.team = some tm) (hmod : s.moduleOf g = some (tm, la, md))
    (hf : g.frames.find d = some f) (hp : f.place = .spilled u n since) (hlate : f.late = [])
    (hkeys : s.areaKeys la.ctx tm.core (spillBase la tm.t + u * 256) n = some keys)
    (hw : ∀ k ∈ keys, s.writtenSince k 256 since = false) :
    ∃ s' f', s.refill gk d = .ok s' ∧ s'.mem = s.mem ∧ f.movedTo .pool f' ∧
      s.onlyGroup s' gk { g with frames := g.frames.put d f' } := by
  have hwritten : touchedRegs keys (fun b => s.writtenSince b 1 since) = [] :=
    touchedRegs_nil fun k hk j hj => writtenSince_byte (hw k hk) hj
  obtain ⟨hside, hmem⟩ := foldl_correctHome_area keys s
  let f' := f.refilled s.free s.seq []
  let bad := (touchedRegs keys fun b => s.poisoned b 1).filter (· < 16384)
  obtain ⟨c, hc⟩ : ∃ c, c = keys.foldl (fun s k => s.correctHome k 256) s := ⟨_, rfl⟩
  rw [← hc] at hside hmem
  let w : State := { c with
    free := c.free + 1
    latent := { c.latent with regs := dedup (c.latent.regs ++ bad.map fun k => latentReg gk d (k / 256) (k % 256)) } }
  have hrun : s.refill gk d = .ok ((w.onGroup gk fun g => { g with frames := g.frames.put d f' }).count la.ctx 9 1) := by
    unfold State.refill
    simp only [hg, htm, hmod, hf, hp, hkeys, hwritten, ← hc]
    rfl
  have hgroup (k : Nat) : ((w.onGroup gk fun g => { g with frames := g.frames.put d f' }).count la.ctx 9 1).group k =
      if k = gk then some { g with frames := g.frames.put d f' } else s.group k := by
    have : ((w.onGroup gk fun g => { g with frames := g.frames.put d f' }).count la.ctx 9 1).group k =
      (w.onGroup gk fun g => { g with frames := g.frames.put d f' }).group k := rfl
    rw [this, group_onGroup]
    show (if k = gk then (c.group gk).map _ else c.group k) = _
    rw [hside.group, hside.group, hg]
    rfl
  refine ⟨_, f', hrun, hmem, ?_, ?_, fun k hk => ?_⟩
  · unfold Frame.movedTo
    simp only [f', Frame.refilled, hlate]
    rfl
  · rw [hgroup, if_pos rfl]
  · rw [hgroup, if_neg hk]

/-! ## Moves (R196) -/

/-- What the writes of a moved frame leave: bytes outside the units of its area stand. -/
theorem areaWrites_leave (w : State → Nat × Nat → List Byte) (hw : ∀ s p, (w s p).length = 256) (ps : List (Nat × Nat))
    (s : State) (hinv : s.Inv) : MemSide s (ps.foldl (fun s p => s.write p.2 (w s p)) s) ∧
      ∀ b, (∀ p ∈ ps, b < p.2 ∨ p.2 + 256 ≤ b) →
        Memory.byte (ps.foldl (fun s p => s.write p.2 (w s p)) s).mem b = Memory.byte s.mem b := by
  induction ps generalizing s with
  | nil => exact ⟨.refl s, fun _ _ => rfl⟩
  | cons p ps ih =>
    have h1 := memSide_write s p.2 (w s p)
    obtain ⟨hside, hbytes⟩ := ih (s.write p.2 (w s p)) (h1.inv hinv)
    refine ⟨h1.trans hside, fun b hb => ?_⟩
    rw [List.foldl_cons, hbytes b fun q hq => hb q (List.mem_cons_of_mem _ hq), byte_write hinv, hw, if_neg]
    have := hb p List.mem_cons_self
    omega

theorem mem_mapIdxFrom_pair {i : Nat} {ks : List Nat} {p : Nat × Nat} (h : p ∈ mapIdxFrom i (fun i k => (i, k)) ks) : p.2 ∈ ks := by
  induction ks generalizing i with
  | nil => cases h
  | cons k ks ih =>
    rcases List.mem_cons.1 h with rfl | h
    · exact List.mem_cons_self
    · exact List.mem_cons_of_mem _ (ih h)

/-- The bytes that a moved frame leaves in a unit of its area: they have no defined layout (R198). -/
def areaBytes (free : Nat) (p : Nat × Nat) : List Byte := (natsFrom 0 256).map fun j => (freeVal free 8 (p.1 % 64) j).setWidth 8

theorem length_areaBytes (free : Nat) (p : Nat × Nat) : (areaBytes free p).length = 256 := by
  rw [areaBytes, List.length_map, length_natsFrom]

/-- A frame moves to the lowest units of the area that hold it. -/
theorem moveOut_moves {s : State} {gk d u : Nat} {g : Group} {tm : Team} {la : Launch} {md : Module} {f : Frame} {keys : List Nat}
    (hg : s.group gk = some g) (htm : s.teams.find g.team = some tm) (hmod : s.moduleOf g = some (tm, la, md))
    (hf : g.frames.find d = some f) (hfit : firstFit (s.spillUsed g.team) la.spillUnits (frameUnits f.seeds.length g.width) = some u)
    (hkeys : s.areaKeys la.ctx tm.core (spillBase la tm.t + u * 256) (frameUnits f.seeds.length g.width) = some keys)
    (hinv : s.Inv) :
    ∃ s', s.moveOut gk d = .ok s' ∧ s'.spill = s.spill ∧
      s.onlyGroup s' gk { g with
        frames := g.frames.put d { f with place := .spilled u (frameUnits f.seeds.length g.width) s.seq } } ∧
      ∀ b, (∀ x ∈ keys, b < x ∨ x + 256 ≤ b) → Memory.byte s'.mem b = Memory.byte s.mem b := by
  obtain ⟨hside, hbytes⟩ := areaWrites_leave (fun t => areaBytes t.free) (fun t => length_areaBytes t.free) (mapIdxFrom 0 (fun i k => (i, k)) keys) s hinv
  obtain ⟨c, hc⟩ : ∃ c, c = (mapIdxFrom 0 (fun i k => (i, k)) keys).foldl (fun t p => t.write p.2 (areaBytes t.free p)) s := ⟨_, rfl⟩
  rw [← hc] at hside hbytes
  have hseq : c.seq = s.seq := by rw [hside.rest]
  let s' : State := (({ c with free := c.free + 1 } : State).onGroup gk fun x =>
    { x with frames := x.frames.put d { f with place := .spilled u (frameUnits f.seeds.length g.width) c.seq } }).count la.ctx 9 1
  have hrun : s.moveOut gk d = .ok s' := by
    unfold State.moveOut
    simp only [areaBytes] at hc
    simp only [hg, htm, hmod, hf, hfit, hkeys, ← hc]
    rfl
  have hgroup (k : Nat) : s'.group k = if k = gk then some { g with
      frames := g.frames.put d { f with place := .spilled u (frameUnits f.seeds.length g.width) s.seq } } else s.group k := by
    have hshow : s'.group k = (c.onGroup gk fun x =>
      { x with frames := x.frames.put d { f with place := .spilled u (frameUnits f.seeds.length g.width) c.seq } }).group k := rfl
    rw [hshow, group_onGroup, hside.group, hside.group, hg, hseq]
    rfl
  refine ⟨s', hrun, show c.spill = s.spill by rw [hside.rest], ⟨?_, fun k hk => ?_⟩, fun b hb => ?_⟩
  · rw [hgroup, if_pos rfl]
  · rw [hgroup, if_neg hk]
  · exact hbytes b fun p hp => hb p.2 (mem_mapIdxFrom_pair hp)

/-! ## `SPILL_FULL` (R196, R208) -/

theorem requests_halt (s : State) (gk : Nat) (why : HaltWhy) (code lane tag : Nat) (team : Nat) :
    ∃ p : FrameReq → Bool, (s.halt gk why code lane tag).teams.find team =
      (s.teams.find team).map fun tm => { tm with requests := tm.requests.filter p } := by
  have h : (s.halt gk why code lane tag).teams.find team = (KMap.update s.teams (gk / 16) fun tm =>
      { tm with requests := tm.requests.filter fun r => !(r.gk == gk && r.served) }).find team := rfl
  rw [h, KMap.find_update]
  split
  · next hk =>
    rw [hk]
    exact ⟨_, rfl⟩
  · refine ⟨fun _ => true, ?_⟩
    cases s.teams.find team with
    | none => rfl
    | some tm => simp

/-- A fault at a group that stands: the group stops, its record is made, and the teams lose at most requests. -/
structure Faults (s t : State) (gk tag : Nat) (f : WFault) (g : Group) : Prop where
  group : s.onlyGroup t gk { g with
    halt := some ⟨.fault, BitVec.ofNat 8 f.code, s.time, f.lane, tag, none⟩
    lastFault := BitVec.ofNat 8 f.code
    pass := 0 }
  mem : t.mem = s.mem
  spill : t.spill = s.spill
  records : ∃ r, t.records = s.records ++ [r] ∧ (r.ty, r.code, r.cause) = (1, BitVec.ofNat 8 f.code, BitVec.ofNat 8 f.cause)
  teams : ∀ team, ∃ p : FrameReq → Bool, t.teams.find team =
    (s.teams.find team).map fun tm => { tm with requests := tm.requests.filter p }

theorem takeFault_faults {s : State} {gk : Nat} {g : Group} (hg : s.group gk = some g) (tag : Nat) (f : WFault) :
    Faults s (s.takeFault gk tag f) gk tag f g := by
  unfold State.takeFault
  simp only [hg]
  obtain ⟨r, hr⟩ : ∃ r, r = s.record gk 1 f.code f.cause (f.bits ||| fIf (f.code == cENGINE) 4) tag (g.pos tag) f.addr f.lane f.imm := ⟨_, rfl⟩
  have hshape : (r.ty, r.code, r.cause) = (1, BitVec.ofNat 8 f.code, BitVec.ofNat 8 f.cause) := by
    rw [hr]
    unfold State.record
    simp only [hg]
  rw [← hr]
  have hgroup (k : Nat) : ((s.addRecord r).halt gk .fault f.code f.lane tag).group k = if k = gk then some { g with
      halt := some ⟨.fault, BitVec.ofNat 8 f.code, s.time, f.lane, tag, none⟩
      lastFault := BitVec.ofNat 8 f.code
      pass := 0 } else s.group k := by
    rw [State.halt]
    by_cases hk : k = gk
    · rw [if_pos hk, hk, group_haltAt]
      show (s.group gk).map _ = _
      rw [hg]
      rfl
    · rw [if_neg hk]
      exact (TailAt.haltAt (s.addRecord r) gk _).others k hk
  have htail := (TailAt.halt (s.addRecord r) gk .fault f.code f.lane tag none).rest
  refine ⟨⟨?_, fun k hk => ?_⟩, by rw [htail]; rfl, by rw [htail]; rfl, ⟨r, records_haltAt .., hshape⟩,
    fun team => requests_halt (s.addRecord r) gk .fault f.code f.lane tag team⟩
  · rw [hgroup, if_pos rfl]
  · rw [hgroup, if_neg hk]

/-- Settles O49: the head request is served, the engine takes the team that waited longest, and its moves change one frame. -/
theorem framesAreServedAndMoved : Obligations.FramesAreServedAndMoved := by
  unfold Obligations.FramesAreServedAndMoved
  refine ⟨fun s team tm r rest g htm hsaved hq hsize hg => ?_, fun s core hidle ⟨p, hp, hcore, hwant⟩ => ?_, fun s core team hspill => ⟨fun hwant => ?_, ?_⟩⟩
  · intro same
    have hx := exec_serve htm hsaved hq hsize
    refine ⟨fun hr hrest => ?_, fun hr hrest => ?_, fun d f u n since la md keys hr hmod hteam hf hplace hlate hkeys hw => ?_⟩
    · have hok : s.refillAll r.gk r.refill = .ok s := by rw [hr]; rfl
      obtain ⟨honly, hteams, hm⟩ := onTeam_onGroup hg team (fun tm => tm.withServed r (s.backOf r)) (fun g => g.unblock r.tag)
      have hback : s.backOf r = 0 := by
        rw [State.backOf, hr, hg]
        rfl
      rw [serve_ok hok, hrest] at hx
      refine ⟨_, _, _, hx, honly, hm, KMap.find_del_self .., rfl, hteams.trans (by rw [htm]; rfl), ?_⟩
      simp only [Team.withServed, Team.onRequest, hback, Nat.sub_zero]
      rfl
    · have hok : s.refillAll r.gk r.refill = .ok s := by rw [hr]; rfl
      obtain ⟨honly, hteams, hm⟩ := onTeam_onGroup hg team (fun tm => tm.without r) Group.unswap
      rw [serve_ok hok, hrest] at hx
      refine ⟨_, _, _, hx, honly, hm, rfl, fun p hp => ?_, hteams.trans (by rw [htm]; rfl), rfl⟩
      exact bne_iff_ne.1 (List.mem_filter.1 hp).2
    · have htm' : s.teams.find g.team = some tm := by rw [hteam]; exact htm
      obtain ⟨s', f', hrefill, hmem, hmoved, honly⟩ := refill_moves hg htm' hmod hf hplace hlate hkeys hw
      have hok : s.refillAll r.gk r.refill = .ok s' := by
        rw [hr, State.refillAll, hrefill]
        rfl
      obtain ⟨g'', honly', hm', hframes⟩ := serve_frames (team := team) hok honly
      refine ⟨_, g'', f', hx, honly', hm'.trans hmem, ?_, hmoved, fun d' hd' => ?_⟩
      · rw [hframes]
        exact KMap.find_put_self ..
      · rw [hframes]
        exact KMap.find_put_ne _ _ hd'
  · let ts := (s.teams.filter fun p => p.2.core == core && s.engineWanted p.1).map (·.1)
    have hmem (q : Nat × Team) (hq : q ∈ s.teams) (hc : q.2.core = core) (hw : s.engineWanted q.1 = true) : q.1 ∈ ts :=
      List.mem_map_of_mem (List.mem_filter.2 ⟨hq, by rw [hc, hw, beq_self_eq_true]; rfl⟩)
    cases hsort : sortBy (fun a b => decide (s.wantedSince a ≤ s.wantedSince b)) ts with
    | nil =>
      have := (mem_sortBy (fun a b => decide (s.wantedSince a ≤ s.wantedSince b)) p.1 ts).2 (hmem p hp hcore hwant)
      rw [hsort] at this
      cases this
    | cons k more =>
      obtain ⟨hin, hmin⟩ := head_sortBy hsort
      obtain ⟨q, hq, rfl⟩ := List.mem_map.1 hin
      obtain ⟨hqin, hq⟩ := List.mem_filter.1 hq
      simp only [Bool.and_eq_true, beq_iff_eq] at hq
      refine ⟨q, hqin, hq.1, hq.2, fun x hx hc hw => hmin x.1 (hmem x hx hc hw), ?_⟩
      show execSpillEngineStart core s = _
      unfold execSpillEngineStart
      simp only [hidle, Option.isSome_none, Bool.false_eq_true, if_false]
      rw [hsort]
  · show execFrameMove core s = _
    unfold execFrameMove
    simp only [hspill, hwant, Bool.not_false, if_true]
  · intro tm r rest hwant htm hq hsize
    have hhead : ((s.teams.find team).bind fun tm => tm.queue.head?) = some r := by
      rw [htm, Option.bind_some, hq]
      rfl
    refine ⟨fun k d more g f la md u keys hidle hg hmod hteam hf hfit hkeys hinv => ?_, fun g hidle hswap hheld hg => ?_⟩
    · have htm' : s.teams.find g.team = some tm := by rw [hteam]; exact htm
      obtain ⟨s', hmove, hsp, honly, hbytes⟩ := moveOut_moves hg htm' hmod hf (by rw [hteam]; exact hfit) hkeys hinv
      have hrun : execFrameMove core s = .next s' := by
        unfold execFrameMove
        simp only [hspill, hwant, hhead, if_neg (Nat.not_le.2 hsize), hidle, hmove, Bool.not_true, Bool.false_eq_true, if_false]
      exact ⟨s', _, _, hrun, honly, hsp, KMap.find_put_self .., rfl, fun d' hd' => KMap.find_put_ne _ _ hd', hbytes⟩
    · let stop : State := { s with spill := s.spill.del core }
      have hrun : execFrameMove core s = .next (stop.spillFault team r 2) := by
        unfold execFrameMove
        simp only [hspill, hwant, hhead, if_neg (Nat.not_le.2 hsize), hidle, hswap, hheld, List.find?_nil, List.isEmpty_nil,
          Bool.not_true, Bool.false_eq_true, if_false, Bool.not_false, Bool.and_self, if_true]
        rfl
      obtain ⟨⟨hown, hothers⟩, hteams, hm⟩ := onTeam_onGroup (s := stop) hg team (fun tm => tm.without r) (fun g => g.unblock r.tag)
      obtain ⟨u, hu⟩ : ∃ u, u = (stop.onTeam team fun tm => tm.without r).onGroup r.gk (fun g => g.unblock r.tag) := ⟨_, rfl⟩
      have hfault : stop.spillFault team r 2 = u.takeFault r.gk r.tag { (wfault cSPILLFULL 0) with cause := 2 } := by rw [hu]; rfl
      have hutime : u.time = s.time := by rw [hu]; rfl
      have hurec : u.records = s.records := by rw [hu]; rfl
      have huspill : u.spill = s.spill.del core := by rw [hu]; rfl
      rw [← hu] at hown hothers hteams hm
      have F := takeFault_faults hown r.tag { (wfault cSPILLFULL 0) with cause := 2 }
      rw [← hfault] at F
      obtain ⟨x, hrec, hshape⟩ := F.records
      obtain ⟨p, hp⟩ := F.teams team
      rw [hteams, show stop.teams.find team = some tm from htm] at hp
      refine ⟨_, _, _, x, hrun, ⟨F.group.1, fun k hk => (F.group.2 k hk).trans (hothers k hk)⟩, F.mem.trans hm, ?_, ?_, hshape, ?_, hp, fun y hy => ?_⟩
      · show some _ = _
        rw [hutime]
        rfl
      · rw [hrec, hurec]
      · rw [F.spill, huspill, KMap.find_del_self]
      · have hin := (List.mem_filter.1 (List.mem_filter.1 hy).1).2
        rintro ⟨h1, h2, h3⟩
        simp [sameRequest, h1, h2, h3] at hin

end Sys2Proof.Machine
end

section
/-! SUPPORT. The array: weights, capture, boundaries, execution and accumulator transfers (R209 to R236). -/

namespace Sys2Proof.Machine

open Sys2Proof

/-! ## Weight loads (R222, R230, R265) -/

/-- Errors corrected on the way of weights leave all but latent errors and their counts. -/
structure Corrected (s c : State) : Prop where
  rest : c = { s with latent := c.latent, errCore := c.errCore }
  granules : c.latent.granules = s.latent.granules

theorem corrected_weights (s : State) (core a n : Nat) : Corrected s (s.correctWeights core a n) := by
  unfold State.correctWeights
  split
  · exact ⟨rfl, rfl⟩
  · exact ⟨rfl, rfl⟩

theorem corrected_foldl (core : Nat) (ps : List (Nat × Nat)) (s : State) :
    Corrected s (ps.foldl (fun s p => s.correctWeights core p.1 p.2) s) := by
  induction ps generalizing s with
  | nil => exact ⟨rfl, rfl⟩
  | cons p ps ih =>
    have h1 := corrected_weights s core p.1 p.2
    have h2 := ih (s.correctWeights core p.1 p.2)
    refine ⟨?_, h2.granules.trans h1.granules⟩
    rw [List.foldl_cons, h2.rest, h1.rest]

theorem tileRead_clean {s : State} (h : s.latent.granules = []) (key n w : Nat) :
    s.tileRead key n w = (Memory.bytes s.mem key n, []) := by
  have hany : (granulesOf key n).any s.latent.granules.contains = false :=
    List.any_eq_false.2 fun i _ => by simp [h]
  unfold State.tileRead
  simp only [hany]
  rfl

/-- The three arrays of a weight tile that no job owns are read as they stand, empty ones too. -/
theorem unowned_arrays {s : State} {gk id : Nat} {b : LBank} (h : ∀ p ∈ b.arrays, s.unowned gk id p.1 p.2) :
    s.unowned gk id b.elem (tileBytes b.fmt).1 ∧ s.unowned gk id b.scale (tileBytes b.fmt).2.1 ∧
      s.unowned gk id b.extra (tileBytes b.fmt).2.2 := by
  have each (p : Nat × Nat) (hp : p ∈ [(b.elem, (tileBytes b.fmt).1), (b.scale, (tileBytes b.fmt).2.1), (b.extra, (tileBytes b.fmt).2.2)]) :
      s.unowned gk id p.1 p.2 := by
    by_cases hz : p.2 = 0
    · intro j hj
      omega
    · exact h p (List.mem_filter.2 ⟨hp, by simpa using hz⟩)
  exact ⟨each _ (.head _), each _ (.tail _ (.head _)), each _ (.tail _ (.tail _ (.head _)))⟩

/-- The physical bank that a load of a tile without errors fills. -/
def LBank.loaded (b : LBank) (m : Memory) (team bank used : Nat) : PBank :=
  ⟨team, bank, b.gen, used, b.fmt, Memory.bytes m b.elem (tileBytes b.fmt).1, Memory.bytes m b.scale (tileBytes b.fmt).2.1,
    Memory.bytes m b.extra (tileBytes b.fmt).2.2, false⟩

theorem loadBank_clean {s : State} {gk id core team bank : Nat} {b : LBank} (h : s.latent.granules = [])
    (hown : ∀ p ∈ b.arrays, s.unowned gk id p.1 p.2) :
    ∃ c, Corrected s c ∧ s.loadBank gk id core team bank b =
      ({ c with banks := s.banks.put (s.bankChoice core) (b.loaded s.mem team bank s.seq) }, false) := by
  obtain ⟨c, hc⟩ : ∃ c, c = b.arrays.foldl (fun s p => s.correctWeights core p.1 p.2) s := ⟨_, rfl⟩
  have hcor : Corrected s c := hc ▸ corrected_foldl core b.arrays s
  have hgran : c.latent.granules = [] := hcor.granules.trans h
  have hmem : c.mem = s.mem := by rw [hcor.rest]
  have veil (a n : Nat) (hu : s.unowned gk id a n) : c.veil gk id a (Memory.bytes c.mem a n) = (c, Memory.bytes c.mem a n) := by
    refine veil_unowned ?_
    rw [Memory.bytes_length, hcor.rest]
    exact hu
  obtain ⟨h1, h2, h3⟩ := unowned_arrays hown
  refine ⟨c, hcor, ?_⟩
  unfold State.loadBank
  simp only [← hc, tileRead_clean hgran, List.foldl_nil, List.append_nil, veil _ _ h1, veil _ _ h2, veil _ _ h3]
  refine Prod.ext ?_ rfl
  show { c with banks := c.banks.put (c.bankChoice core) (b.loaded c.mem team bank c.seq) } = _
  have hb : c.banks.put (c.bankChoice core) (b.loaded c.mem team bank c.seq) =
      s.banks.put (s.bankChoice core) (b.loaded s.mem team bank s.seq) := by
    rw [hcor.rest]
    rfl
  rw [hb]

theorem bankChoice_cases (s : State) (core : Nat) : s.bankChoice core = 2 * core ∨ s.bankChoice core = 2 * core + 1 := by
  unfold State.bankChoice
  split
  · exact .inl rfl
  · exact .inr rfl
  · split
    · exact .inr rfl
    · split
      · exact .inl rfl
      · exact ite_eq_or_eq ..

theorem holdsTile_put {s t : State} {core team bank : Nat} {b : LBank}
    (h : t.banks = s.banks.put (s.bankChoice core) (b.loaded s.mem team bank s.seq)) : t.holdsTile s core team bank b := by
  refine ⟨s.bankChoice core, b.loaded s.mem team bank s.seq, bankChoice_cases s core, ?_, fun k hk => ?_, fun hn => ?_,
    fun x y hx hy => ?_, rfl, rfl, rfl, rfl⟩
  · rw [h, KMap.find_put_self]
  · rw [h, KMap.find_put_ne _ _ hk]
  · unfold State.bankChoice
    cases hx : s.banks.find (2 * core) with
    | none => simp only [hx]; rfl
    | some x =>
      cases hy : s.banks.find (2 * core + 1) with
      | none => simp only [hy]; rfl
      | some y => simp [hx, hy] at hn
  · unfold State.bankChoice
    simp only [hx, hy]
    by_cases h0 : s.bankInUse core = some (2 * core)
    · rw [if_pos (beq_iff_eq.2 h0), h0]
      refine ⟨fun he => ?_, nofun⟩
      have := Option.some.inj he
      omega
    · rw [if_neg (mt beq_iff_eq.1 h0)]
      by_cases h1 : s.bankInUse core = some (2 * core + 1)
      · rw [if_pos (beq_iff_eq.2 h1), h1]
        refine ⟨fun he => ?_, nofun⟩
        have := Option.some.inj he
        omega
      · rw [if_neg (mt beq_iff_eq.1 h1)]
        split
        · next hle =>
          refine ⟨h0, fun _ z hz => ?_⟩
          rw [hx] at hz
          cases hz
          exact ⟨Nat.le_refl _, hle⟩
        · next hle =>
          refine ⟨h1, fun _ z hz => ?_⟩
          rw [hy] at hz
          cases hz
          exact ⟨by omega, Nat.le_refl _⟩

/-- A logical bank whose generation is made ready. -/
def LBank.readied (b : LBank) : LBank := { b with status := .ready }

theorem memSide_noteSaved (s : State) (gk : Nat) : MemSide s (s.noteSaved gk) := by
  unfold State.noteSaved
  split
  · simp only
    split
    · exact (memSide_writeQuiet ..).trans (memSide_writeQuiet ..)
    · exact .refl s
  · exact .refl s

theorem noteSaved_unsaved {s : State} {gk : Nat} {g : Group} (hg : s.group gk = some g) (h : g.saved = false) : s.noteSaved gk = s := by
  unfold State.noteSaved
  rw [hg]
  cases s.teams.find (gk / 16) with
  | none => rfl
  | some tm => simp only [h, Bool.false_eq_true, if_false]

/-- A weight load that waits for nothing reads its tile, makes its bank ready and completes. -/
theorem weightLoad_completes {s : State} {gk id : Nat} {g : Group} {tm : Team} {o : TileOp} {bank : Nat} {b : LBank}
    (hg : s.group gk = some g) (htm : s.teams.find g.team = some tm) (hsaved : tm.saved = false)
    (ho : g.tiles.find? (fun t => t.id == id && !t.complete) = some o) (hmay : g.tileMay o = true)
    (hkind : o.kind = .wld bank b false none) (hb : tm.lbanks.find bank = some b) (hgran : s.latent.granules = [])
    (hown : ∀ p ∈ b.arrays, s.unowned gk id p.1 p.2) :
    ∃ t g' tm', exec (.weightLoadComplete gk id) s = .next t ∧ s.onlyGroup t gk g' ∧ g.tileDone id g' ∧
      (g.saved = false → t.mem = s.mem) ∧ t.holdsTile s tm.core g.team bank b ∧ t.teams.find g.team = some tm' ∧
      tm'.lbanks.find bank = some { b with status := .ready } := by
  have hcore : (s.seat g).1 = tm.core := by simp [State.seat, htm]
  obtain ⟨c, hcor, hload⟩ := loadBank_clean (core := tm.core) (team := g.team) (bank := bank) hgran hown
  obtain ⟨r, hr⟩ : ∃ r : State, r = { c with banks := s.banks.put (s.bankChoice tm.core) (b.loaded s.mem g.team bank s.seq) } := ⟨_, rfl⟩
  rw [← hr] at hload
  let done : Group → Group := fun g => g.doneTile id fun t => { t with flags := t.flags ||| BitVec.ofNat 32 (fIf false fECCZ) }
  obtain ⟨u, hu⟩ : ∃ u, u = (r.makeReady g.team bank b.gen false).onGroup gk done := ⟨_, rfl⟩
  have hexec : exec (.weightLoadComplete gk id) s = .next ((u.noteSaved gk).count (s.ctxOf g) 12 b.bytes) := by
    show execWeightLoadComplete gk id s = _
    unfold execWeightLoadComplete
    simp only [hg, ho, htm, Option.map_some, Option.getD_some, hsaved, hmay, hkind, Bool.not_true, Bool.or_self,
      Bool.false_eq_true, if_false, List.isEmpty_nil, if_true]
    unfold State.readWeights
    simp only [hcore, Bool.false_eq_true, if_false, hload, hu]
    rfl
  have hgroups : c.groups = s.groups := by rw [hcor.rest]
  have hteams : c.teams = s.teams := by rw [hcor.rest]
  have hmem : c.mem = s.mem := by rw [hcor.rest]
  have hug (k : Nat) : u.group k = if k = gk then some (done g) else s.group k := by
    have : (r.makeReady g.team bank b.gen false).group k = s.group k := by
      rw [hr]
      show c.groups.find k = _
      rw [hgroups]
      rfl
    rw [hu, group_onGroup]
    split
    · next hk =>
      subst hk
      rw [this, hg]
      rfl
    · exact this
  have hteam : u.teams.find g.team = some { tm with lbanks := tm.lbanks.update bank fun x =>
      if x.gen == b.gen then { x with status := .ready, since := if false then r.seq else x.since } else x } := by
    have : u.teams = KMap.update r.teams g.team fun tm => { tm with lbanks := tm.lbanks.update bank fun x =>
      if x.gen == b.gen then { x with status := .ready, since := if false then r.seq else x.since } else x } := by
      rw [hu]
      rfl
    rw [this, KMap.find_update_self, hr]
    show (c.teams.find g.team).map _ = _
    rw [hteams, htm]
    rfl
  obtain ⟨hng, hnt⟩ := noteSaved_groups_teams u gk
  have hbanks : (u.noteSaved gk).banks = s.banks.put (s.bankChoice tm.core) (b.loaded s.mem g.team bank s.seq) := by
    rw [(memSide_noteSaved u gk).rest, hu]
    show r.banks = _
    rw [hr]
  have hfind (k : Nat) : ((u.noteSaved gk).count (s.ctxOf g) 12 b.bytes).group k = if k = gk then some (done g) else s.group k :=
    (congrArg (KMap.find · k) hng).trans (hug k)
  refine ⟨_, done g, _, hexec, ⟨?_, fun k hk => ?_⟩, doneTile_tileDone g id fun _ => rfl, fun hs => ?_, holdsTile_put hbanks,
    (congrArg (KMap.find · g.team) hnt).trans hteam, ?_⟩
  · rw [hfind, if_pos rfl]
  · rw [hfind, if_neg hk]
  · have hgu : u.group gk = some (done g) := by rw [hug, if_pos rfl]
    show (u.noteSaved gk).mem = s.mem
    rw [noteSaved_unsaved hgu hs, ← hmem, hu]
    show r.mem = c.mem
    rw [hr]
  · show (tm.lbanks.update bank _).find bank = _
    rw [KMap.find_update_self, hb]
    simp

/-- The chosen entry's weights are loaded again (R265). -/
theorem weightReload_loads {s : State} {core key : Nat} {n : Entry} {b : LBank} {a : Arrival} {more : List Arrival}
    (hc : s.chosenEntry core = some (key, n)) (hb : n.bound = some b) (ha : n.arrivals = a :: more)
    (hr : s.residentBank core n.team a.bank b.gen = none) (hgran : s.latent.granules = [])
    (hown : ∀ p ∈ b.arrays, s.unowned a.gk a.id p.1 p.2) :
    ∃ t, exec (.weightReload core) s = .next t ∧
      t = { s with banks := t.banks, ctxs := t.ctxs, latent := t.latent, errCore := t.errCore } ∧
      t.holdsTile s core n.team a.bank b := by
  obtain ⟨c, hcor, hload⟩ := loadBank_clean (core := core) (team := n.team) (bank := a.bank) hgran hown
  refine ⟨({ c with banks := s.banks.put (s.bankChoice core) (b.loaded s.mem n.team a.bank s.seq) } : State).count
    (((s.group a.gk).map s.ctxOf).getD 0) 12 b.bytes, ?_, ?_, holdsTile_put (s := s) rfl⟩
  · show execWeightReload core s = _
    unfold execWeightReload
    simp only [hc, hb, ha, hr, hload]
    rfl
  · show ({ c with banks := s.banks.put (s.bankChoice core) (b.loaded s.mem n.team a.bank s.seq) } : State).count _ _ _ = _
    rw [hcor.rest]
    rfl

end Sys2Proof.Machine
end

section
/-! SUPPORT. Capture, boundaries and accumulator transfers of the array (R219, R228 to R233). -/

namespace Sys2Proof.Machine

open Sys2Proof

/-! ## Row capture (R219, R228) -/

theorem ofLeBytes_leBytes_append (w : Word) (bs : List Byte) :
    ofLeBytes (leBytes w.toNat 4 ++ bs) = w.toNat + 2 ^ 32 * ofLeBytes bs := by
  have := w.isLt
  simp only [leBytes, List.cons_append, List.nil_append, ofLeBytes, BitVec.toNat_ofNat]
  omega

/-- The words of the bytes of words. -/
theorem wordsFrom_flatMap (ws : List Word) : wordsFrom (ofLeBytes (ws.flatMap fun w => leBytes w.toNat 4)) ws.length = ws := by
  refine List.ext_getElem? fun j => ?_
  by_cases hj : j < ws.length
  · rw [wordsFrom_getElem? _ hj]
    induction ws generalizing j with
    | nil => cases hj
    | cons w ws ih =>
      rw [List.flatMap_cons, ofLeBytes_leBytes_append]
      cases j with
      | zero =>
        have := w.isLt
        refine congrArg some (BitVec.eq_of_toNat_eq ?_)
        rw [BitVec.toNat_ofNat]
        omega
      | succ j =>
        have hlt : j < ws.length := Nat.lt_of_succ_lt_succ hj
        have hdiv : (w.toNat + 2 ^ 32 * ofLeBytes (ws.flatMap fun w => leBytes w.toNat 4)) / 2 ^ (32 * (j + 1)) =
            ofLeBytes (ws.flatMap fun w => leBytes w.toNat 4) / 2 ^ (32 * j) := by
          rw [show 32 * (j + 1) = 32 + 32 * j by omega, Nat.pow_add, ← Nat.div_div_eq_div_mul]
          congr 1
          have := w.isLt
          omega
        rw [hdiv, List.getElem?_cons_succ]
        exact ih j hlt
  · rw [List.getElem?_eq_none (by rw [wordsFrom, List.length_map, length_natsFrom]; omega), List.getElem?_eq_none (by omega)]

theorem hitElems_none (w n : Nat) {bad : Nat → Bool} (h : ∀ b, bad b = false) : hitElems w n bad = [] :=
  List.filter_eq_nil_iff.2 fun i _ => by simp [h]

/-- Without errors in registers the capture of a lane gives the words that its registers hold. -/
theorem captureLane_clean {s : State} (h : s.latent.regs = []) (a : Arrival) (p : Nat × Nat) :
    s.captureLane a p = ((rowReads a.fmt).map fun j => s.captureReg a.gk p.2 p.1 (a.va + j), []) := by
  unfold State.captureLane
  simp only [h, List.contains_nil, hitElems_none _ _ fun _ => rfl]
  refine Prod.ext ?_ rfl
  show wordsFrom (ofLeBytes (List.take _ _ ++ List.drop _ _)) _ = _
  rw [List.take_append_drop]
  have hwords := wordsFrom_flatMap ((rowReads a.fmt).map fun j => s.captureReg a.gk p.2 p.1 (a.va + j))
  rwa [List.flatMap_map, List.length_map] at hwords

/-- An arrival with the rows that the bank holds. -/
def Arrival.captured (a : Arrival) (g : Group) : Arrival :=
  { a with
    ecc := []
    rows := some ((a.lanes.zip a.depths).map fun p => (p.1, (rowReads a.fmt).map fun j => (g.bankAt p.2 p.1 (a.va + j)).getD 0)) }

theorem correctRegs_rest (s : State) (core : Nat) (names : List Nat) :
    ∃ l c, s.correctRegs core names = { s with latent := l, errCore := c } := by
  unfold State.correctRegs
  split
  · exact ⟨_, _, rfl⟩
  · exact ⟨_, _, rfl⟩

theorem capture_clean {s : State} {n : Entry} {a : Arrival} {g : Group} (h : s.latent.regs = []) (hg : s.group a.gk = some g)
    (hd : ∀ d ∈ a.depths, (g.frames.find d).isSome) :
    ∃ l c, s.capture n a = ({ s with free := s.free + 1, latent := l, errCore := c }, a.captured g) := by
  unfold State.capture
  simp only [captureLane_clean h]
  have hnil (xs : List (Nat × Nat)) : (xs.map fun p =>
      (p.1, (rowReads a.fmt).map fun j => s.captureReg a.gk p.2 p.1 (a.va + j), ([] : List (Nat × Nat)))).flatMap
        (fun x => x.2.2.map fun r => (x.1, r)) = [] := by
    rw [List.flatMap_map]
    exact List.flatMap_eq_nil_iff.2 fun _ _ => rfl
  have hecc (xs : List (Nat × Nat)) : (xs.map fun p =>
      (p.1, (rowReads a.fmt).map fun j => s.captureReg a.gk p.2 p.1 (a.va + j), ([] : List (Nat × Nat)))).filter
        (fun x => !x.2.2.isEmpty) = [] := by
    refine List.filter_eq_nil_iff.2 fun x hx => ?_
    obtain ⟨p, -, rfl⟩ := List.mem_map.1 hx
    nofun
  rw [hnil, hecc, List.foldl_nil]
  obtain ⟨l, c, hreg⟩ := correctRegs_rest s (((s.teams.find n.team).map fun tm => (tm.core, tm.snum)).getD (0, 0)).1
    ((a.lanes.zip a.depths).flatMap fun p => (rowReads a.fmt).map fun j => latentReg a.gk p.2 p.1 (a.va + j))
  refine ⟨l, c, Prod.ext (by rw [hreg]) ?_⟩
  have hrows : ((a.lanes.zip a.depths).map fun p =>
      (p.1, (rowReads a.fmt).map fun j => s.captureReg a.gk p.2 p.1 (a.va + j), ([] : List (Nat × Nat)))).map (fun x => (x.1, x.2.1)) =
      (a.lanes.zip a.depths).map fun p => (p.1, (rowReads a.fmt).map fun j => (g.bankAt p.2 p.1 (a.va + j)).getD 0) := by
    rw [List.map_map]
    refine List.map_congr_left fun p hp => Prod.ext rfl (List.map_congr_left fun j _ => ?_)
    obtain ⟨f, hf⟩ := Option.isSome_iff_exists.1 (hd p.2 (List.of_mem_zip hp).2)
    simp only [State.captureReg, hg, Group.bankAt, hf]
    rfl
  rw [hrows]
  rfl

theorem flatMap_filter_eq {α β : Type} (p : α → Bool) (f : α → List β) (xs : List α) :
    (xs.filter p).flatMap f = xs.flatMap fun x => if p x then f x else [] := by
  induction xs with
  | nil => rfl
  | cons x xs ih =>
    rw [List.flatMap_cons, List.filter_cons]
    split
    · rw [List.flatMap_cons, ih]
    · rw [ih]
      rfl

theorem waitingArrivals_eq (s : State) (core : Nat) : ((s.coreEntries core).flatMap fun p =>
    (p.2.arrivals.filter fun a => a.rows.isNone).map fun a => (p.1, p.2, a)) = s.waitingArrivals core := by
  unfold State.coreEntries State.waitingArrivals
  rw [flatMap_filter_eq]
  congr 1
  funext p
  cases s.teams.find p.2.team with
  | none => rfl
  | some tm => simp

theorem find?_replaceFirst {α : Type} {p : α → Bool} {x y : α} (hy : p y = true) {xs : List α} (h : xs.find? p = some x) :
    (replaceFirst p (fun _ => y) xs).find? p = some y := by
  induction xs with
  | nil => cases h
  | cons z xs ih =>
    rw [List.find?_cons] at h
    rw [replaceFirst]
    cases hz : p z with
    | true =>
      rw [if_pos rfl, List.find?_cons, hy]
    | false =>
      rw [hz] at h
      simp only [Bool.false_eq_true, if_false, List.find?_cons, hz]
      exact ih h

theorem gk_latchHolds {s : State} {core : Nat} {n : Entry} {a kept : Arrival} (h : s.latchHolds core n a = some kept) :
    kept.gk = a.gk := by
  unfold State.latchHolds at h
  obtain ⟨k, -, h⟩ := Option.bind_eq_some_iff.1 h
  simp only at h
  split at h
  · cases h
    rfl
  · cases h

/-- The oldest arrival that waits takes the rows that the latch keeps for it, or those of its registers. -/
theorem rowCapture_captures {s : State} {core key : Nat} {n : Entry} {a : Arrival} {g : Group}
    (hin : (key, n, a) ∈ s.waitingArrivals core) (hfirst : ∀ y ∈ s.waitingArrivals core, y = (key, n, a) ∨ a.order < y.2.2.order)
    (hroom : s.latchRows core + a.lanes.length ≤ 768) (hregs : s.latent.regs = []) (hg : s.group a.gk = some g)
    (hd : ∀ d ∈ a.depths, (g.frames.find d).isSome) (hfind : n.arrivals.find? (fun y => y.gk == a.gk) = some a) :
    ∃ t n', exec (.rowCapture core) s = .next t ∧
      t = { s with entries := t.entries, free := t.free, latent := t.latent, errCore := t.errCore } ∧
      t.entries.find key = some n' ∧ (∀ k, k ≠ key → t.entries.find k = s.entries.find k) ∧
      n'.arrivals.find? (fun y => y.gk == a.gk) = some ((s.latchHolds core n a).getD (a.captured g)) := by
  obtain ⟨xs, hsort⟩ : ∃ xs, sortBy (fun x y => decide (x.2.2.order ≤ y.2.2.order)) (s.waitingArrivals core) = (key, n, a) :: xs := by
    cases hs : sortBy (fun (x y : Nat × Entry × Arrival) => decide (x.2.2.order ≤ y.2.2.order)) (s.waitingArrivals core) with
    | nil =>
      have := (mem_sortBy (fun (x y : Nat × Entry × Arrival) => decide (x.2.2.order ≤ y.2.2.order)) _ _).2 hin
      rw [hs] at this
      cases this
    | cons y ys =>
      obtain ⟨hmem, hmin⟩ := head_sortBy (key := fun x : Nat × Entry × Arrival => x.2.2.order) hs
      rcases hfirst y hmem with rfl | hlt
      · exact ⟨ys, rfl⟩
      · have := hmin _ hin
        simp only at this
        omega
  have hexec (t : State) (h : execRowCapture core s = .next t) : exec (.rowCapture core) s = .next t := h
  have hmake : s.makeLatchRoom core a.lanes.length = s := if_pos hroom
  cases hl : s.latchHolds core n a with
  | some kept =>
    refine ⟨_, _, hexec { s with entries := s.entries.put key { n with
      arrivals := replaceFirst (fun b => b.gk == a.gk) (fun _ => kept) n.arrivals } } ?_, rfl, KMap.find_put_self ..,
      fun k hk => KMap.find_put_ne _ _ hk, find?_replaceFirst (p := fun y : Arrival => y.gk == a.gk) (beq_iff_eq.2 (gk_latchHolds hl)) hfind⟩
    unfold execRowCapture
    simp only [waitingArrivals_eq, hsort, hl]
  | none =>
    obtain ⟨l, c, hcap⟩ := capture_clean (n := n) hregs hg hd
    refine ⟨_, _, hexec { s with
      entries := s.entries.put key { n with arrivals := replaceFirst (fun b => b.gk == a.gk) (fun _ => a.captured g) n.arrivals }
      free := s.free + 1, latent := l, errCore := c } ?_, rfl, KMap.find_put_self .., fun k hk => KMap.find_put_ne _ _ hk,
      find?_replaceFirst (p := fun y : Arrival => y.gk == a.gk) (y := a.captured g) (beq_iff_eq.2 rfl) hfind⟩
    unfold execRowCapture
    simp only [waitingArrivals_eq, hsort, hl, hmake, if_neg (Nat.not_lt.2 hroom), hcap]

/-! ## Boundaries (R229) and starts (R231) -/

/-- An entry that a boundary has passed over once more. -/
def Entry.passedOver (n : Entry) : Entry := { n with passed := n.passed + 1 }

theorem find_passOver (ps : KMap Entry) (m : KMap Entry) (k : Nat) (v : Entry) (honly : ∀ q ∈ ps, q.1 = k → q.2 = v)
    (h : (∃ q ∈ ps, q.1 = k) ∨ m.find k = some v.passedOver) :
    (ps.foldl (fun m p => KMap.put m p.1 p.2.passedOver) m).find k = some v.passedOver := by
  induction ps generalizing m with
  | nil =>
    rcases h with ⟨q, hq, -⟩ | h
    · cases hq
    · exact h
  | cons p ps ih =>
    refine ih _ (fun q hq => honly q (List.mem_cons_of_mem _ hq)) ?_
    by_cases hk : k = p.1
    · refine .inr ?_
      rw [hk, KMap.find_put_self, honly p List.mem_cons_self hk.symm]
    · rcases h with ⟨q, hq, rfl⟩ | h
      · rcases List.mem_cons.1 hq with rfl | hq
        · exact absurd rfl hk
        · exact .inl ⟨q, hq, rfl⟩
      · exact .inr ((KMap.find_put_ne _ _ hk).trans h)

theorem foldl_passOver (ps : KMap Entry) (s : State) :
    ps.foldl (fun s p => { s with entries := s.entries.put p.1 { p.2 with passed := p.2.passed + 1 } }) s =
      { s with entries := ps.foldl (fun m p => KMap.put m p.1 p.2.passedOver) s.entries } := by
  induction ps generalizing s with
  | nil => rfl
  | cons p ps ih =>
    rw [List.foldl_cons, ih]
    rfl

theorem boundaryBefore_of_key {s : State} {a b : Entry} (h : s.boundaryKey b ≤ s.boundaryKey a)
    (ha : a.prio ≤ 3 ∧ a.completedAt < 2 ^ 64 ∧ ((s.teams.find a.team).map (·.snum)).getD 0 < 32)
    (hb : b.prio ≤ 3 ∧ b.completedAt < 2 ^ 64 ∧ ((s.teams.find b.team).map (·.snum)).getD 0 < 32) :
    boundaryBefore s a b = false := by
  simp only [State.boundaryKey] at h
  unfold boundaryBefore
  simp only [Bool.or_eq_false_iff, Bool.and_eq_false_iff, decide_eq_false_iff_not, beq_eq_false_iff_ne]
  omega

/-- A boundary chooses the entry that comes first, and the others are passed over. -/
theorem boundary_chooses {s : State} {core : Nat} (hc : s.chosenEntry core = none) (hne : s.boundaryEntries core ≠ [])
    (hb : ∀ p ∈ s.boundaryEntries core, p.2.prio ≤ 3 ∧ p.2.completedAt < 2 ^ 64 ∧ ((s.teams.find p.2.team).map (·.snum)).getD 0 < 32) :
    ∃ t k n, exec (.arrayBoundary core) s = .next t ∧ t = { s with entries := t.entries, arrays := t.arrays } ∧
      (k, n) ∈ s.boundaryEntries core ∧ (∀ p ∈ s.boundaryEntries core, boundaryBefore s p.2 n = false) ∧
      (t.array core).chosen = some k ∧
      (t.array core).admitted = decide (s.time.toNat < (s.array core).idleSince.toNat + 1000) ∧
      ∀ p ∈ s.boundaryEntries core, p.1 ≠ k → p.2.team ≠ n.team → (∀ q ∈ s.boundaryEntries core, q.1 = p.1 → q = p) →
        t.entries.find p.1 = some { p.2 with passed := p.2.passed + 1 } := by
  cases hsort : sortBy (fun (a b : Nat × Entry) => decide (s.boundaryKey a.2 ≤ s.boundaryKey b.2)) (s.boundaryEntries core) with
  | nil =>
    obtain ⟨p, hp⟩ := List.exists_mem_of_ne_nil _ hne
    have := (mem_sortBy (fun (a b : Nat × Entry) => decide (s.boundaryKey a.2 ≤ s.boundaryKey b.2)) _ _).2 hp
    rw [hsort] at this
    cases this
  | cons p rest =>
    obtain ⟨k, n⟩ := p
    obtain ⟨hin, hmin⟩ := head_sortBy (key := fun p : Nat × Entry => s.boundaryKey p.2) hsort
    let passed := (s.boundaryEntries core).filter fun p => p.1 != k && p.2.team != n.team
    let es : KMap Entry := passed.foldl (fun m p => KMap.put m p.1 p.2.passedOver) s.entries
    let arr : ArrayState := { s.array core with chosen := some k, admitted := !decide (1000 ≤ s.time.toNat - (s.array core).idleSince.toNat) }
    have hexec : exec (.arrayBoundary core) s = .next (({ s with entries := es } : State).setArray core arr) := by
      show execArrayBoundary core s = _
      unfold execArrayBoundary
      simp only [hc, Option.isSome_none, Bool.false_eq_true, if_false, hsort, foldl_passOver]
      rfl
    have harr : ((({ s with entries := es } : State).setArray core arr).array core) = arr := by
      show (KMap.find (KMap.put s.arrays core arr) core).getD ArrayState.idle = arr
      rw [KMap.find_put_self]
      rfl
    refine ⟨_, k, n, hexec, rfl, hin, fun p hp => boundaryBefore_of_key (hmin p hp) (hb p hp) (hb _ hin), by rw [harr], ?_,
      fun p hp hk ht honly => ?_⟩
    · rw [harr]
      show (!decide _) = decide _
      rw [← decide_not]
      exact decide_eq_decide.2 (by omega)
    · refine find_passOver passed s.entries p.1 p.2 (fun q hq hqk => by rw [honly q (List.mem_filter.1 hq).1 hqk]) (.inl ⟨p, ?_, rfl⟩)
      exact List.mem_filter.2 ⟨hp, by simp [hk, ht]⟩

theorem startAdmission_admits {s : State} {core key : Nat} {n : Entry} (hc : s.chosenEntry core = some (key, n))
    (ha : (s.array core).admitted = false) : exec (.arrayStartAdmission core) s = .next
      (if s.startedLately (core / 96) < 8 then
        { s with arrays := s.arrays.put core { s.array core with admitted := true, startedAt := some s.time } }
      else s) := by
  show execArrayStartAdmission core s = _
  unfold execArrayStartAdmission
  simp only [ha, hc, Option.isNone_some, Bool.or_self, Bool.false_eq_true, if_false]
  by_cases h : s.startedLately (core / 96) < 8
  · rw [if_pos h]
    exact if_neg (Nat.not_le.2 h)
  · rw [if_neg h]
    exact if_pos (Nat.not_lt.1 h)

/-! ## Accumulator transfers (R232, R233) -/

/-- A transfer operation of one lane more is over. -/
def TileOp.moved (kind : XferKind) (col cnt : Nat) (fmt : Fmt) (vd : Nat) (mode : Word) (fl : Nat) (t : TileOp) : TileOp :=
  { t with flags := t.flags ||| BitVec.ofNat 32 fl, kind := .xfer kind col cnt fmt vd mode [] }

section
variable {s s1 : State} {gk id : Nat} {g : Group} {o : TileOp} {kind : XferKind} {col cnt : Nat} {fmt : Fmt} {vd : Nat} {mode : Word}
  {x : XferLane} {tm : Team}

/-- The last lane of a transfer may take effect, with the blocks of its rows at hand. -/
structure LastLane (s s1 : State) (gk id : Nat) (g : Group) (o : TileOp) (kind : XferKind) (col cnt : Nat) (fmt : Fmt) (vd : Nat)
    (mode : Word) (x : XferLane) (tm : Team) : Prop where
  group : s.group gk = some g
  unsaved : g.saved = false
  op : g.tiles.find? (fun t => t.id == id) = some o
  running : o.complete = false
  kind : o.kind = .xfer kind col cnt fmt vd mode [x]
  rows : g.rowsFree o = true
  order : g.xferMay o x (fmt.width / 8) = true
  team : s.teams.find g.team = some tm
  tilesOpen : s.tilesOpen g.team
  blocks : s.takeBlocks g.team tm.core (dedup (o.lanes.map fun l => (o.base + l) / 16)) = some s1
  accs : s1.latent.accs = []

variable (h : LastLane s s1 gk id g o kind col cnt fmt vd mode x tm)
include h

theorem LastLane.exec {s' : State} {fl : Nat} (hl : s1.xferLane gk g o kind col cnt fmt vd mode x = .ok s' fl) :
    ∃ ctx n, Machine.exec (.tileTransferComplete gk id) s =
      .next ((s'.onGroup gk fun g => g.doneTile id (TileOp.moved kind col cnt fmt vd mode fl)).count ctx 12 n) := by
  have hcore : (s.seat g).1 = tm.core := by simp [State.seat, h.team]
  refine ⟨s1.ctxOf g, ((x.elems.filter fun p => isVaultKey p.target).map fun _ => fmt.width / 8).foldl (· + ·) 0, ?_⟩
  show execTileTransferComplete gk id s = _
  unfold execTileTransferComplete State.xferStep
  simp only [h.group, h.op, h.running, h.kind, h.unsaved, h.rows, h.order, hcore, h.blocks, hl, Bool.not_true, Bool.or_self,
    Option.isSome_none, Bool.false_and, Bool.false_eq_true, if_false, List.isEmpty_nil, if_true]
  rfl

theorem LastLane.runs : RunsFrom s g.team s1 :=
  have same := takeBlocks_sameAccs h.blocks
  ⟨fun k => congrArg (KMap.find · k) same.groups, same.tilesOpen h.tilesOpen, h.accs,
    (same.team_isSome g.team).trans (by rw [h.team]; rfl)⟩

theorem LastLane.accAt (row c : Nat) : s1.accAt g.team row c = tm.accAt row c := by
  rw [(takeBlocks_sameAccs h.blocks).accAt, State.accAt_team h.team]

/-- What the lane leaves of groups and accumulators, the completed transfer leaves. -/
theorem LastLane.completes {s' : State} {fl : Nat} {g1 : Group} (hl : s1.xferLane gk g o kind col cnt fmt vd mode x = .ok s' fl)
    (hg : ∀ k, s'.group k = if k = gk then some g1 else s.group k) (htile : g1.tile = g.tile) (htiles : g1.tiles = g.tiles)
    (hseat : (s'.teams.find g.team).isSome) :
    ∃ t g' tm', Machine.exec (.tileTransferComplete gk id) s = .next t ∧ s.onlyGroup t gk g' ∧ g.tileDone id g' ∧
      t.teams.find g.team = some tm' ∧ (∀ row c, tm'.accAt row c = s'.accAt g.team row c) ∧ g'.frames = g1.frames ∧ t.mem = s'.mem := by
  obtain ⟨ctx, n, hexec⟩ := h.exec hl
  obtain ⟨tm', htm'⟩ := Option.isSome_iff_exists.1 hseat
  have hdone := doneTile_tileDone g1 id (f := TileOp.moved kind col cnt fmt vd mode fl) fun _ => rfl
  unfold Group.tileDone at hdone
  rw [htile, htiles] at hdone
  have hfind (k : Nat) : ((s'.onGroup gk fun g => g.doneTile id (TileOp.moved kind col cnt fmt vd mode fl)).count ctx 12 n).group k =
      if k = gk then some (g1.doneTile id (TileOp.moved kind col cnt fmt vd mode fl)) else s.group k := by
    show (s'.onGroup gk _).group k = _
    rw [group_onGroup, hg, hg, if_pos rfl]
    split
    · rfl
    · rfl
  refine ⟨_, _, tm', hexec, ⟨?_, fun k hk => ?_⟩, hdone, htm', fun row c => (State.accAt_team htm' row c).symm, rfl, rfl⟩
  · rw [hfind, if_pos rfl]
  · rw [hfind, if_neg hk]

theorem LastLane.groups {s' : State} (hr : RunsFrom s g.team s') (k : Nat) : s'.group k = if k = gk then some g else s.group k := by
  rw [hr.groups]
  split
  · next hk => rw [hk, h.group]
  · rfl

end

/-- Columns that are cleared one after another. -/
theorem accWrites_zero {s t : State} {team row : Nat} (h : RunsFrom s team t) (cols : List Nat) (hc : ∀ c ∈ cols, c < 128) :
    RunsFrom s team (cols.foldl (fun s c => s.accWrite team row c 0) t) ∧
      ∀ r c, c < 128 → (cols.foldl (fun s c => s.accWrite team row c 0) t).accAt team r c =
        if r = row ∧ c ∈ cols then 0 else t.accAt team r c := by
  induction cols generalizing t with
  | nil => exact ⟨h, fun r c _ => by simp⟩
  | cons col cols ih =>
    obtain ⟨hr, hat⟩ := ih (h.accWrite row col 0) fun c hcm => hc c (List.mem_cons_of_mem _ hcm)
    refine ⟨hr, fun r c hlt => ?_⟩
    rw [List.foldl_cons, hat r c hlt, h.accAt_accWrite 0 (hc col List.mem_cons_self) hlt]
    by_cases hrow : r = row
    · by_cases hin : c ∈ cols
      · simp [hrow, hin]
      · simp [hrow, hin]
    · simp [hrow]

/-- Columns that are read one after another. -/
theorem accReads_open {s t : State} {team row : Nat} (h : RunsFrom s team t) (cols : List Nat) :
    ∃ t', t.accReads team row cols = (t', cols.map (t.accAt team row), 0) ∧ RunsFrom s team t' ∧ t'.teams = t.teams := by
  induction cols generalizing t with
  | nil => exact ⟨t, rfl, h, rfl⟩
  | cons c cs ih =>
    obtain ⟨t1, hread, hr, hteams⟩ := h.accElem row c c
    obtain ⟨t2, hreads, hr2, hteams2⟩ := ih hr
    have hat : t1.accAt team row = t.accAt team row := by
      funext col
      rw [State.accAt, State.accAt, hteams]
    refine ⟨t2, ?_, hr2, hteams2.trans hteams⟩
    unfold State.accReads
    simp only [hread, hreads, hat]
    rfl

theorem correctAccs_mem (s : State) (core : Nat) (names : List Nat) : (s.correctAccs core names).mem = s.mem := by
  unfold State.correctAccs
  split
  · rfl
  · rfl

/-- A read of an accumulator changes no byte of memory. -/
theorem accElem_mem {t : State} {team : Nat} (h : t.tilesOpen team) (row n : Nat) (cols : List Nat) :
    (t.accElem team row n cols).1.mem = t.mem := by
  unfold State.accElem
  rw [settleRow_open h]
  simp only
  split
  · rfl
  · split
    · rfl
    · exact correctAccs_mem ..

theorem runsFrom_correctHome {s t : State} {team : Nat} (h : RunsFrom s team t) (a n : Nat) : RunsFrom s team (t.correctHome a n) := by
  have haccs : (t.correctHome a n).latent.accs = t.latent.accs := by
    unfold State.correctHome
    split <;> split <;> rfl
  obtain ⟨hg, ht⟩ := correctHome_groups_teams t a n
  have hgroup (k : Nat) : (t.correctHome a n).group k = t.group k := congrArg (KMap.find · k) hg
  exact ⟨fun k => (hgroup k).trans (h.groups k), tilesOpen_mono h.tilesOpen hgroup (by rw [hg]; exact List.Subset.refl _),
    haccs.trans h.accs, by rw [ht]; exact h.seated⟩

section
variable {s s1 : State} {gk id : Nat} {g : Group} {o : TileOp} {col cnt : Nat} {fmt : Fmt} {vd : Nat} {mode : Word} {x : XferLane}
  {tm : Team}

/-- `accz` clears the columns of its row. -/
theorem accz_clears (h : LastLane s s1 gk id g o .z col cnt fmt vd mode x tm) (hcols : col + cnt ≤ 128) :
    ∃ t g' tm', exec (.tileTransferComplete gk id) s = .next t ∧ s.onlyGroup t gk g' ∧ g.tileDone id g' ∧
      t.teams.find g.team = some tm' ∧ ∀ row c, c < 128 →
        tm'.accAt row c = if row = o.base + x.lane ∧ c ∈ natsFrom col cnt then 0 else tm.accAt row c := by
  obtain ⟨hr, hat⟩ := accWrites_zero (row := o.base + x.lane) h.runs (natsFrom col cnt) fun c hc => by
    have := (mem_natsFrom.1 hc).2
    omega
  obtain ⟨t, g', tm', hx, honly, hdone, htm', hacc, -⟩ := h.completes (g1 := g) rfl (h.groups hr) rfl rfl hr.seated
  refine ⟨t, g', tm', hx, honly, hdone, htm', fun row c hc => ?_⟩
  rw [hacc, hat row c hc, h.accAt]

/-- `accrd` brings the columns of its row to the registers of its lane, where no later word has written. -/
theorem accrd_reads (h : LastLane s s1 gk id g o .rd col cnt fmt vd mode x tm) :
    ∃ t g' tm', exec (.tileTransferComplete gk id) s = .next t ∧ s.onlyGroup t gk g' ∧ g.tileDone id g' ∧
      t.teams.find g.team = some tm' ∧ (∀ row c, tm'.accAt row c = tm.accAt row c) ∧
      (g.frameHere x.depth.toNat (vd + cnt) → ∀ i < cnt, ¬ regKey x.depth.toNat x.lane (vd + i) ∈ o.stale →
        g'.bankAt x.depth.toNat x.lane (vd + i) = some (tm.accAt (o.base + x.lane) (col + i))) := by
  obtain ⟨t', hreads, hr, hteams⟩ := accReads_open (row := o.base + x.lane) h.runs (natsFrom col cnt)
  let ws := (natsFrom col cnt).map (s1.accAt g.team (o.base + x.lane))
  let land := (mapIdxFrom vd (fun v w => (v, w)) ws).foldl (Group.land x.depth.toNat x.lane o.stale)
  let c := t'.clearLatent ((mapIdxFrom vd (fun v w => (v, w)) ws).map fun w => latentReg gk x.depth.toNat x.lane w.1)
  have hlane : s1.xferLane gk g o .rd col cnt fmt vd mode x = .ok (c.onGroup gk land) 0 := by
    unfold State.xferLane
    simp only [hreads]
    rfl
  have hgroup (k : Nat) : (c.onGroup gk land).group k = if k = gk then some (land g) else s.group k := by
    rw [group_onGroup]
    have : c.group k = s.group k := hr.groups k
    split
    · next hk =>
      subst hk
      rw [this, h.group]
      rfl
    · exact this
  have hrest := foldl_land_rest x.depth.toNat x.lane o.stale (mapIdxFrom vd (fun v w => (v, w)) ws) g
  have hacc' (row c' : Nat) : (c.onGroup gk land).accAt g.team row c' = tm.accAt row c' := by
    rw [← h.accAt]
    show (((t'.teams.find g.team).map fun tm => tm.accAt row c').getD 0) = _
    rw [hteams]
    rfl
  obtain ⟨t, g', tm', hx, honly, hdone, htm', hacc, hframes, -⟩ := h.completes (g1 := land g) hlane hgroup
    (by rw [show land g = _ from hrest]) (by rw [show land g = _ from hrest]) hr.seated
  refine ⟨t, g', tm', hx, honly, hdone, htm', fun row c' => (hacc row c').trans (hacc' row c'), fun hf i hi hs => ?_⟩
  obtain ⟨f, hfind, hsize, hp⟩ := hf
  obtain ⟨f', hf', hin, -⟩ := bankAt_foldl_land (lane := x.lane) (stale := o.stale) ws hfind hp
    (by rw [List.length_map, length_natsFrom]; exact hsize)
  rw [Group.bankAt, hframes, show (land g).frames.find x.depth.toNat = some f' from hf']
  refine congrArg some (hin i _ ?_ hs)
  rw [List.getElem?_map, natsFrom_eq_range', List.getElem?_range' hi, Option.map_some, Nat.one_mul, h.accAt]

/-- An element of `accld` and `accst` at a vault, at full width. -/
theorem accld_loads {k port : Nat} (h : LastLane s s1 gk id g o .ld col 1 .f32 vd mode x tm) (hx : x.elems = [⟨k, false, port⟩])
    (hv : isVaultKey k = true) (hp : s1.poisoned k 4 = false) (hown : s1.unowned gk id k 4) (hcol : col < 128) :
    ∃ t g' tm', exec (.tileTransferComplete gk id) s = .next t ∧ s.onlyGroup t gk g' ∧ g.tileDone id g' ∧
      t.teams.find g.team = some tm' ∧ ∀ row c, c < 128 →
        tm'.accAt row c = if row = o.base + x.lane ∧ c = col then BitVec.ofNat 32 (Memory.num s1.mem k 4) else tm.accAt row c := by
  have hid : o.id = id := beq_iff_eq.1 (List.find?_some (p := fun t : TileOp => t.id == id) h.op)
  have hr := runsFrom_correctHome h.runs k 4
  have hread (core : Nat) : s1.plainRead core 4 ⟨k, false, port⟩ = .data (s1.correctHome k 4) (Memory.bytes s1.mem k 4) false := by
    unfold State.plainRead State.readHome
    simp only [isFabric_vault hv, hv, home_vault hv, hp, Bool.false_eq_true, if_false, Bool.or_false, if_true]
    rfl
  have hveil : (s1.correctHome k 4).veil gk id k (Memory.bytes s1.mem k 4) = (s1.correctHome k 4, Memory.bytes s1.mem k 4) := by
    refine veil_unowned ?_
    rw [Memory.bytes_length, (memSide_correctHome s1 k 4).rest]
    exact hown
  have hacc0 (row c : Nat) : (s1.correctHome k 4).accAt g.team row c = tm.accAt row c := by
    rw [← h.accAt, State.accAt, State.accAt, (correctHome_groups_teams s1 k 4).2]
  have hlane : s1.xferLane gk g o .ld col 1 .f32 vd mode x =
      .ok ((s1.correctHome k 4).accWrite g.team (o.base + x.lane) col (BitVec.ofNat 32 (Memory.num s1.mem k 4))) 0 := by
    unfold State.xferLane
    simp only [hx, mapIdxFrom, hid]
    unfold State.ldElems
    rw [show Fmt.f32.width / 8 = 4 from rfl, hread]
    simp only [isFabric_vault hv, home_vault hv, hveil, Bool.false_eq_true, if_false]
    rfl
  obtain ⟨t, g', tm', hexec, honly, hdone, htm', hacc, -⟩ := h.completes (g1 := g) hlane (h.groups (hr.accWrite ..)) rfl rfl
    (hr.accWrite ..).seated
  refine ⟨t, g', tm', hexec, honly, hdone, htm', fun row c hc => ?_⟩
  rw [hacc, hr.accAt_accWrite _ hcol hc, hacc0]

theorem accst_stores {k port : Nat} (h : LastLane s s1 gk id g o .st col 1 .f32 vd mode x tm) (hx : x.elems = [⟨k, false, port⟩])
    (hv : isVaultKey k = true) :
    ∃ t g' tm', exec (.tileTransferComplete gk id) s = .next t ∧ s.onlyGroup t gk g' ∧ g.tileDone id g' ∧
      t.teams.find g.team = some tm' ∧ (∀ row c, tm'.accAt row c = tm.accAt row c) ∧
      (s1.Inv → wroteOnly s1 t k 4 (tm.accAt (o.base + x.lane) col).toNat) := by
  obtain ⟨t', hread, hr, hteams⟩ := h.runs.accElem (o.base + x.lane) col col
  have hmem' : t'.mem = s1.mem := by
    rw [← accElem_mem h.runs.tilesOpen (o.base + x.lane) col [col], hread]
  obtain ⟨v, hvdef⟩ : ∃ v, v = (s1.accAt g.team (o.base + x.lane) col).toNat := ⟨_, rfl⟩
  obtain ⟨w, hw⟩ : ∃ w, w = t'.writeHome k (leBytes v 4) none := ⟨_, rfl⟩
  have hside : MemSide t' w := hw ▸ memSide_writeHome ..
  have hwteams : w.teams = s1.teams := by rw [hside.rest, hteams]
  have hgroup (j : Nat) : w.group j = s.group j := (hside.group j).trans (hr.groups j)
  have hwrite (core : Nat) : t'.plainWrite core ⟨k, false, port⟩ (leBytes v 4) = some w := by
    unfold State.plainWrite
    simp only [isFabric_vault hv, hv, Bool.false_eq_true, if_false, Bool.or_false, if_true, hw]
  have hlane : s1.xferLane gk g o .st col 1 .f32 vd mode x = .ok w 0 := by
    have hnum : (accNarrow .f32 mode [s1.accAt g.team (o.base + x.lane) col]) = (v, 0) := by
      rw [hvdef]
      rfl
    unfold State.xferLane
    simp only [hx, mapIdxFrom]
    unfold State.stElems
    rw [show elemCols Fmt.f32 col 0 = [col] from rfl]
    simp only [List.headD_cons, hread, hnum, show Fmt.f32.width / 8 = 4 from rfl, hwrite]
    rfl
  obtain ⟨t, g', tm', hexec, honly, hdone, htm', hacc, -, htmem⟩ := h.completes (g1 := g) hlane
    (fun j => by
      rw [hgroup]
      split
      · next hj => rw [hj, h.group]
      · rfl) rfl rfl (by rw [hwteams]; exact h.runs.seated)
  refine ⟨t, g', tm', hexec, honly, hdone, htm', fun row c => ?_, fun hinv b => ?_⟩
  · rw [hacc, State.accAt, hwteams]
    exact h.accAt row c
  · rw [htmem, hw, writeHome_vault_mem hv, hmem', Memory.byte_putBytes hinv, length_leBytes, ← h.accAt, ← hvdef]
    split
    · next hb => rw [leBytes_getD _ _ _ (by omega)]
    · rfl

end

/-! ## An entry of one group runs (R215, R219) -/

/-- Launches, modules and the places of teams in their launches' grids stand. -/
structure SamePlaces (s t : State) : Prop where
  launches : t.launches = s.launches
  modules : t.modules = s.modules
  places : ∀ k, (t.teams.find k).map (fun tm => (tm.launch, tm.t)) = (s.teams.find k).map fun tm => (tm.launch, tm.t)

theorem SamePlaces.refl (s : State) : SamePlaces s s := ⟨rfl, rfl, fun _ => rfl⟩

theorem SamePlaces.trans {a b c : State} (h : SamePlaces a b) (h' : SamePlaces b c) : SamePlaces a c :=
  ⟨h'.launches.trans h.launches, h'.modules.trans h.modules, fun k => (h'.places k).trans (h.places k)⟩

theorem SamePlaces.latent (s : State) (l : Latent) : SamePlaces s { s with latent := l } := ⟨rfl, rfl, fun _ => rfl⟩

theorem SamePlaces.of_memSide {s t : State} (h : MemSide s t) : SamePlaces s t :=
  ⟨by rw [h.rest], by rw [h.rest], fun k => by rw [h.rest]⟩

theorem SamePlaces.onTeam (s : State) (team : Nat) {f : Team → Team} (hf : ∀ tm, ((f tm).launch, (f tm).t) = (tm.launch, tm.t)) :
    SamePlaces s (s.onTeam team f) := by
  refine ⟨rfl, rfl, fun k => ?_⟩
  simp only [State.onTeam, KMap.find_update]
  split
  · next hk =>
    subst hk
    cases s.teams.find k with
    | none => rfl
    | some tm => exact congrArg some (hf tm)
  · rfl

theorem SamePlaces.gridAt {s t : State} (h : SamePlaces s t) {g : Group} {tm : Team} {la : Launch} {md : Module}
    (hm : s.moduleOf g = some (tm, la, md)) : t.gridAt g = gridOf la.record tm.t := by
  have hp := h.places g.team
  unfold State.moduleOf at hm
  cases htm : s.teams.find g.team with
  | none => simp [htm] at hm
  | some tm0 =>
    rw [htm] at hp
    obtain ⟨tm', htm', hsame⟩ := Option.map_eq_some_iff.1 hp
    obtain ⟨hlaunch, ht⟩ := Prod.mk.inj hsame
    simp only [htm] at hm
    cases hla : s.launches.find tm0.launch with
    | none => simp [hla] at hm
    | some la0 =>
      simp only [hla] at hm
      obtain ⟨md0, hmd, heq⟩ := Option.map_eq_some_iff.1 hm
      cases heq
      unfold State.gridAt State.moduleOf
      simp only [htm', hlaunch, h.launches, h.modules, hla, hmd, ht, Option.map_some, Option.getD_some]

theorem samePlaces_spillBlock (s : State) (team b : Nat) : SamePlaces s (s.spillBlock team b) := by
  unfold State.spillBlock
  split
  · exact .refl s
  · split
    · exact .refl s
    · exact (SamePlaces.of_memSide (memSide_write ..)).trans (.onTeam _ _ fun _ => rfl)

theorem samePlaces_freeBlock {s t : State} {core : Nat} (h : s.freeBlock core = some t) : SamePlaces s t := by
  unfold State.freeBlock State.spillOne at h
  split at h
  · cases h
    exact .refl s
  · simp only at h
    split at h
    · cases h
    · cases h
      exact samePlaces_spillBlock ..

theorem samePlaces_fetchBlock (s : State) (team b : Nat) : SamePlaces s (s.fetchBlock team b) := by
  unfold State.fetchBlock
  split
  · exact .refl s
  · split
    · exact (SamePlaces.of_memSide (memSide_correctHome s _ _)).trans (.latent _ _)
    · exact .refl s

/-- Taking blocks moves no team in its grid. -/
theorem samePlaces_takeBlocks {s t : State} {team core : Nat} {bs : List Nat} (h : s.takeBlocks team core bs = some t) :
    SamePlaces s t := by
  induction bs generalizing s with
  | nil =>
    cases h
    exact .refl _
  | cons b bs ih =>
    simp only [State.takeBlocks] at h
    split at h
    · cases h
    · next s' hs' =>
      have hfree : SamePlaces s s' := by
        split at hs'
        · cases hs'
          exact .refl _
        · exact samePlaces_freeBlock hs'
      refine SamePlaces.trans ?_ (ih h)
      exact (hfree.trans (samePlaces_fetchBlock s' team b)).trans (.onTeam _ _ fun _ => rfl)

/-- An entry that runs leaves its core's table, and its array is idle. -/
theorem runEntry_ends (s : State) (core key : Nat) (n : Entry) (bi : Nat) (pb : PBank) (b : LBank) (cls : Cls) :
    (s.runEntry core key n bi pb b cls).entries.find key = none ∧ ((s.runEntry core key n bi pb b cls).array core).chosen = none := by
  refine ⟨KMap.find_del_self .., ?_⟩
  unfold State.runEntry
  simp only [State.array, State.setArray, KMap.find_put_self]
  rfl

theorem soloReady_runs {s s1 : State} {core key bi : Nat} {n : Entry} {b : LBank} {a : Arrival} {pb : PBank} {cls : Cls} {g : Group}
    (e : SoloReady s s1 core key n b a bi pb cls g) : exec (.entryExecution core) s = .next (s1.runEntry core key n bi pb b cls) := by
  show execEntryExecution core s = _
  simp only [execEntryExecution, e.chosen, e.bound, e.solo, e.resident, e.clsOf, e.admitted, e.blocks, Bool.not_true]
  rfl

/-- Settles O51: what each event of the array reads, chooses and writes. -/
theorem arraysWork : Obligations.ArraysWork := by
  unfold Obligations.ArraysWork
  refine ⟨fun s gk id g tm o bank b => weightLoad_completes,
    fun s core key n a g tm hin hfirst htm hsaved hroom hregs hg hd hfind => ?_,
    fun s core => boundary_chooses,
    fun s core key n hc => ⟨startAdmission_admits hc, fun b a more hb ha hr => weightReload_loads hc hb ha hr⟩, ?_, ?_⟩
  · obtain ⟨t, n', hx, hrest, hn, hothers, hrows⟩ := rowCapture_captures hin hfirst hroom hregs hg hd hfind
    refine ⟨t, n', hx, hrest, hn, hothers, ?_⟩
    rw [hrows]
    cases s.latchHolds core n a with
    | some kept => rfl
    | none => rfl
  · intro s core key n b a bi pb cls s1 g tm la md rows hc hb ha hres hcls hd hadm hblocks hg hteam hmod hrows hundef hnd hfresh hopen
      haccs hw base
    have htm : s.teams.find n.team = some tm := hteam ▸ moduleOf_team hmod
    have e : SoloReady s s1 core key n b a bi pb cls g :=
      ⟨hc, hb, ha, hres, hcls, hadm, hblocks, hw, hg, by rw [htm]; rfl, hopen, haccs, hundef, hnd, hfresh⟩
    obtain ⟨t, fl, tm', hx, honly, htm', hcells, hothers, -⟩ := e.ran hd (base := base) rfl
    obtain rfl : s1.runEntry core key n bi pb b cls = t := by
      have := (soloReady_runs e).symm.trans hx
      injection this
    obtain ⟨hentry, hchosen⟩ := runEntry_ends s1 core key n bi pb b cls
    refine ⟨_, _, tm', hx, honly, doneTile_tileDone g a.id fun _ => rfl, hentry, hchosen, htm', fun l hl c hc => ?_, fun row c hc hr => ?_⟩
    · rw [hcells l hl c hc, (samePlaces_takeBlocks hblocks).gridAt hmod, State.accAt_team htm]
      unfold cellOf Arrival.regsOf
      rw [hrows]
      rfl
    · rw [hothers row c hc hr, State.accAt_team htm]
  · intro s gk id g o kind col cnt fmt vd mode x tm s1 hg hs ho hc hk hrows hmay htm hopen hblocks haccs hcols hkind
    have h : LastLane s s1 gk id g o kind col cnt fmt vd mode x tm := ⟨hg, hs, ho, hc, hk, hrows, hmay, htm, hopen, hblocks, haccs⟩
    rcases hkind with rfl | rfl | ⟨hldst, rfl, rfl, k, port, hx, hv, hp, hown⟩
    · obtain ⟨t, g', tm', hx, honly, hdone, htm', hacc⟩ := accz_clears h hcols
      refine ⟨t, g', tm', hx, honly, hdone, htm', fun row c hlt hn => ?_, fun _ c h1 h2 => ?_, nofun, nofun, nofun⟩
      · rw [hacc row c hlt, if_neg fun hin => hn ⟨.inl rfl, hin.1, mem_natsFrom.1 hin.2⟩]
      · rw [hacc _ c (by omega), if_pos ⟨rfl, mem_natsFrom.2 ⟨h1, h2⟩⟩]
    · obtain ⟨t, g', tm', hx, honly, hdone, htm', hacc, hreg⟩ := accrd_reads h
      exact ⟨t, g', tm', hx, honly, hdone, htm', fun row c _ _ => hacc row c, nofun, fun _ => hreg, nofun, nofun⟩
    · rcases hldst with rfl | rfl
      · obtain ⟨t, g', tm', hexec, honly, hdone, htm', hacc⟩ := accld_loads h hx hv hp hown (by omega)
        refine ⟨t, g', tm', hexec, honly, hdone, htm', fun row c hlt hn => ?_, nofun, nofun, fun _ p hp => ?_, nofun⟩
        · rw [hacc row c hlt, if_neg fun hin => hn ⟨.inr rfl, hin.1, by omega, by omega⟩]
        · rw [hx] at hp
          obtain rfl := List.mem_singleton.1 hp
          rw [hacc _ col (by omega), if_pos ⟨rfl, rfl⟩]
      · obtain ⟨t, g', tm', hexec, honly, hdone, htm', hacc, hwrote⟩ := accst_stores h hx hv
        refine ⟨t, g', tm', hexec, honly, hdone, htm', fun row c _ _ => hacc row c, nofun, nofun, nofun, fun _ hinv p hp => ?_⟩
        rw [hx] at hp
        obtain rfl := List.mem_singleton.1 hp
        exact hwrote hinv

end Sys2Proof.Machine
end

section
/-! SUPPORT. Numbers in memory, writes of the device at physical addresses (R1, R302, R308), and the upkeep of memory: pulls,
scrubbing, fault records and accesses of peers (R287, R302, R336, R374). -/

namespace Sys2Proof.Machine

open Sys2Proof

/-! ## Numbers in memory -/

theorem ofLeBytes_leBytes (v n : Nat) : ofLeBytes (leBytes v n) = v % 256 ^ n := by
  induction n generalizing v with
  | zero => rw [Nat.pow_zero, Nat.mod_one]; rfl
  | succ n ih =>
    have h : v % (256 * 256 ^ n) = v % 256 + 256 * (v / 256 % 256 ^ n) := Nat.mod_mul
    rw [leBytes, ofLeBytes, ih, BitVec.toNat_ofNat, Nat.pow_succ' (n := n) (m := 256), h]

/-- Bytes that stand in memory, a part of them. -/
theorem num_of_bytes {m : Memory} {a : Nat} {row : List Byte} (h : ∀ b, a ≤ b → b < a + row.length → Memory.byte m b = row.getD (b - a) 0)
    {off n : Nat} (hn : off + n ≤ row.length) : Memory.num m (a + off) n = field row off n := by
  have hbytes : Memory.bytes m (a + off) n = (row.drop off).take n := by
    refine List.ext_getElem (by simp; omega) fun i h1 h2 => ?_
    have hi : i < n := by simpa using h1
    have hget := Memory.bytes_getD m (a + off) n i hi 0
    rw [← List.getElem_eq_getD (h := h1), h _ (by omega) (by omega)] at hget
    rw [hget, show a + off + i - a = off + i by omega, List.getElem_take, List.getElem_drop,
      ← List.getElem_eq_getD (h := show off + i < row.length by omega)]
  rw [Memory.num, hbytes, field]

/-! ## The device's writes (R302, R308) -/

theorem tagRelease_rest (s : State) (gs : List Nat) (r : Releaser) (scope : Nat) :
    s.tagRelease gs r scope = { s with gran := (s.tagRelease gs r scope).gran } := by
  induction gs generalizing s with
  | nil => rfl
  | cons g gs ih =>
    have h := ih (s.setGran g { (s.granAt g) with rel := some (r, scope), owner := r.owns scope (s.granAt g).owner })
    exact h

theorem tagPlain_rest (s : State) (gs : List Nat) : s.tagPlain gs = { s with gran := (s.tagPlain gs).gran } := by
  induction gs generalizing s with
  | nil => rfl
  | cons g gs ih =>
    have h := ih (s.setGran g { (s.granAt g) with rel := none })
    exact h

/-- What a write at a home leaves without a migration. -/
theorem writeHome_idle {s : State} (h : s.migs = []) (a : Nat) (bs : List Byte) (rel : Option (Releaser × Nat)) :
    ∃ x p l, s.writeHome a bs rel = { s with mem := Memory.putBytes s.mem a bs, gran := x, poison := p, latent := l } := by
  obtain ⟨x, p, l, hw⟩ := write_rest s a bs
  unfold State.writeHome
  rw [home_idle h]
  cases rel with
  | none =>
    simp only
    rw [tagPlain_rest, hw]
    exact ⟨_, _, _, rfl⟩
  | some r =>
    simp only
    rw [tagRelease_rest, hw]
    exact ⟨_, _, _, rfl⟩

theorem writeQuiet_idle {s : State} (h : s.migs = []) (a : Nat) (bs : List Byte) :
    ∃ x p l, s.writeQuiet a bs = { s with mem := Memory.putBytes s.mem a bs, gran := x, poison := p, latent := l } := by
  unfold State.writeQuiet
  rw [home_idle h]
  exact write_rest s a bs

/-- The write of one line's part of some bytes at a physical address. -/
def State.writePart (s : State) (pa : Nat) (bs : List Byte) (scope : Option Nat) (x : Nat × Nat) : State :=
  let part := (bs.drop (x.1 - pa)).take x.2
  match scope with
  | some c => s.writeHome x.1 part (some (.hub, c))
  | none => s.writeQuiet x.1 part

theorem physWrite_eq (s : State) (pa : Nat) (bs : List Byte) (scope : Option Nat) :
    s.physWrite pa bs scope = (lineParts pa bs.length).foldl (fun s x => s.writePart pa bs scope x) s := rfl

theorem writePart_idle {s : State} (h : s.migs = []) (pa : Nat) (bs : List Byte) (scope : Option Nat) (x : Nat × Nat) :
    ∃ g p l, s.writePart pa bs scope x =
      { s with mem := Memory.putBytes s.mem x.1 ((bs.drop (x.1 - pa)).take x.2), gran := g, poison := p, latent := l } := by
  unfold State.writePart
  cases scope with
  | none => exact writeQuiet_idle h ..
  | some c => exact writeHome_idle h ..

theorem mem_lineParts {pa n : Nat} {x : Nat × Nat} (h : x ∈ lineParts pa n) : pa ≤ x.1 ∧ x.1 + x.2 ≤ pa + n := by
  unfold lineParts at h
  obtain ⟨l, hl, rfl⟩ := List.mem_map.1 h
  have := mem_natsFrom.1 hl
  simp only
  omega

theorem lineParts_cover {pa n b : Nat} (h1 : pa ≤ b) (h2 : b < pa + n) : ∃ x ∈ lineParts pa n, x.1 ≤ b ∧ b < x.1 + x.2 := by
  unfold lineParts
  refine ⟨_, List.mem_map_of_mem (a := b / 128) (mem_natsFrom.2 ⟨by omega, by omega⟩), ?_⟩
  simp only
  omega

theorem foldl_writePart {s : State} (h : s.migs = []) (hinv : s.Inv) (pa : Nat) (bs : List Byte) (scope : Option Nat) {ps : List (Nat × Nat)}
    (hps : ∀ x ∈ ps, pa ≤ x.1 ∧ x.1 + x.2 ≤ pa + bs.length) (b : Nat) :
    ((∃ x ∈ ps, x.1 ≤ b ∧ b < x.1 + x.2) ∨ Memory.byte s.mem b = bs.getD (b - pa) 0 →
      Memory.byte (ps.foldl (fun s x => s.writePart pa bs scope x) s).mem b = bs.getD (b - pa) 0) ∧
    ((∀ x ∈ ps, b < x.1 ∨ x.1 + x.2 ≤ b) →
      Memory.byte (ps.foldl (fun s x => s.writePart pa bs scope x) s).mem b = Memory.byte s.mem b) := by
  induction ps generalizing s with
  | nil =>
    refine ⟨fun hor => ?_, fun _ => rfl⟩
    rcases hor with ⟨x, hx, -⟩ | hb
    · cases hx
    · exact hb
  | cons p ps ih =>
    obtain ⟨g, q, l, hw⟩ := writePart_idle h pa bs scope p
    obtain ⟨hlo, hhi⟩ := hps p List.mem_cons_self
    have hmem : (s.writePart pa bs scope p).mem = Memory.putBytes s.mem p.1 ((bs.drop (p.1 - pa)).take p.2) := by rw [hw]
    have hinv' : (s.writePart pa bs scope p).Inv := by
      unfold State.Inv
      rw [hmem]
      exact Memory.wf_putBytes hinv ..
    obtain ⟨hin, hout⟩ := ih (s := s.writePart pa bs scope p) (by rw [hw]; exact h) hinv' fun x hx => hps x (List.mem_cons_of_mem _ hx)
    have hlen : ((bs.drop (p.1 - pa)).take p.2).length = p.2 := by
      rw [List.length_take, List.length_drop]
      omega
    have hbyte : Memory.byte (s.writePart pa bs scope p).mem b =
        if p.1 ≤ b ∧ b < p.1 + p.2 then bs.getD (b - pa) 0 else Memory.byte s.mem b := by
      rw [hmem, Memory.byte_putBytes hinv, hlen]
      split
      · next hb =>
        rw [List.getD_eq_getElem?_getD, List.getD_eq_getElem?_getD, List.getElem?_take, if_pos (by omega), List.getElem?_drop,
          show p.1 - pa + (b - p.1) = b - pa by omega]
      · rfl
    refine ⟨fun hor => hin ?_, fun hn => ?_⟩
    · by_cases hb : p.1 ≤ b ∧ b < p.1 + p.2
      · exact .inr (by rw [hbyte, if_pos hb])
      · rcases hor with ⟨x, hx, hxb⟩ | hb'
        · rcases List.mem_cons.1 hx with rfl | hx
          · exact absurd hxb hb
          · exact .inl ⟨x, hx, hxb⟩
        · exact .inr (by rw [hbyte, if_neg hb, hb'])
    · have := hn p List.mem_cons_self
      rw [List.foldl_cons, hout fun x hx => hn x (List.mem_cons_of_mem _ hx), hbyte, if_neg (by omega)]

/-- Without a migration the device writes the bytes where they are named, and no others. -/
theorem byte_physWrite {s : State} (h : s.migs = []) (hinv : s.Inv) (pa : Nat) (bs : List Byte) (scope : Option Nat) (b : Nat) :
    Memory.byte (s.physWrite pa bs scope).mem b =
      if pa ≤ b ∧ b < pa + bs.length then bs.getD (b - pa) 0 else Memory.byte s.mem b := by
  obtain ⟨hin, hout⟩ := foldl_writePart h hinv pa bs scope (fun _ hx => mem_lineParts hx) b
  rw [physWrite_eq]
  split
  · next hb => exact hin (.inl (lineParts_cover hb.1 hb.2))
  · next hb =>
    refine hout fun x hx => ?_
    have := mem_lineParts hx
    omega

/-! ## Migration pulls (R302) -/

theorem liveFrom_one {m : Mig} {a : Nat} (h : m.forwards a = false) (fuel : Nat) :
    liveFrom [m] (fuel + 1) a = if m.lacks a then liveFrom [m] fuel (a - m.new + m.old) else a := by
  rw [liveFrom]
  simp only [List.find?_cons, h, List.find?_nil]
  cases m.lacks a with
  | false => rfl
  | true => rfl

theorem liveKey_absent {s : State} {id i : Nat} {m : Mig} (hm : s.migs = [(id, m)])
    (hd : m.old = m.new ∨ m.old + m.size ≤ m.new ∨ m.new + m.size ≤ m.old) (hi : i < m.size / 128) (hp : i ∉ m.pulled) :
    s.liveKey (m.old + 128 * i) = m.old + 128 * i := by
  have hline : (m.old + 128 * i - m.old) / 128 = i := by omega
  have hf : m.forwards (m.old + 128 * i) = false := by
    unfold Mig.forwards
    rw [hline, show m.pulled.contains i = false by simpa using hp, Bool.and_false]
  have hvals : s.migs.vals = [m] := by rw [hm]; rfl
  unfold State.liveKey
  rw [hvals, hm]
  show liveFrom [m] 2 _ = _
  rw [liveFrom_one hf]
  split
  · next hl =>
    have hsame : m.old + 128 * i - m.new + m.old = m.old + 128 * i := by
      unfold Mig.lacks at hl
      simp only [Bool.and_eq_true, decide_eq_true_eq] at hl
      omega
    rw [hsame, liveFrom_one hf]
    rw [hsame]
    exact ite_self _
  · rfl

theorem foldl_copyGran (at' : Nat → Nat) (g : Nat → Gran) (is : List Nat) (s : State) :
    (is.foldl (fun t i => t.setGran (at' i) (g i)) s).mem = s.mem ∧ (is.foldl (fun t i => t.setGran (at' i) (g i)) s).poison = s.poison ∧
      (is.foldl (fun t i => t.setGran (at' i) (g i)) s).migs = s.migs := by
  induction is generalizing s with
  | nil => exact ⟨rfl, rfl, rfl⟩
  | cons i is ih => exact ih (s.setGran (at' i) (g i))

/-- A pull of a line that no pull has moved: its bytes and its poison reach the new frame. -/
theorem pullLine_moves {s : State} {id i : Nat} {m : Mig} (hm : s.migs.find id = some m) (hp : i ∉ m.pulled)
    (hlive : s.liveKey (m.old + 128 * i) = m.old + 128 * i) :
    (s.pullLine id i).mem = Memory.putBytes s.mem (m.new + 128 * i) (Memory.bytes s.mem (m.old + 128 * i) 128) ∧
    (s.pullLine id i).poison = s.poison.filter (· != m.new + 128 * i) ++
      (if s.poison.contains (m.old + 128 * i) then [m.new + 128 * i] else []) ∧
    (s.pullLine id i).migs = s.migs.put id { m with pulled := i :: m.pulled } := by
  have hside := memSide_correctHome s (m.old + 128 * i) 128
  have hpoison : (s.correctHome (m.old + 128 * i) 128).poison = s.poison := by
    obtain ⟨l, c, k, hc⟩ := correctHome_rest s (m.old + 128 * i) 128
    rw [hc]
  obtain ⟨u, hu⟩ : ∃ u, u = s.correctHome (m.old + 128 * i) 128 := ⟨_, rfl⟩
  have hmem : u.mem = s.mem := hu ▸ correctHome_mem ..
  have hmigs : u.migs = s.migs := hu ▸ correctHome_migs ..
  rw [← hu] at hpoison
  rw [← hmem, ← hpoison, ← hmigs]
  unfold State.pullLine State.readBytes
  simp only [hm, show m.pulled.contains i = false by simpa using hp, Bool.false_eq_true, if_false, hlive, ← hu]
  generalize natsFrom 0 8 = is
  refine ⟨?_, ?_, ?_⟩
  · rw [(foldl_copyGran _ _ is _).1]
  · rw [(foldl_copyGran _ _ is _).2.1]
  · rw [(foldl_copyGran _ _ is _).2.2]

/-- The next line of a background pull is the lowest that no pull has moved. -/
theorem find_nextLine {n i : Nat} {pulled : List Nat} (hi : i < n) (hp : i ∉ pulled) (hlow : ∀ j < i, j ∈ pulled) :
    (natsFrom 0 n).find? (fun i => !pulled.contains i) = some i := by
  rw [List.find?_eq_some_iff_getElem]
  refine ⟨by simpa using hp, i, by rw [length_natsFrom]; exact hi, ?_, fun j hj => ?_⟩
  · simp only [natsFrom_eq_range', List.getElem_range']
    omega
  · simp only [natsFrom_eq_range', List.getElem_range']
    have := hlow j hj
    simpa using this

/-- The last line of a migration posts its completion. -/
theorem migrationDone_posts {s : State} {id : Nat} {m : Mig} (hm : s.migs.find id = some m) (hid : m.id = id) :
    let last : Bool := !m.posted && m.pulled.length == m.size / 128
    (s.migrationDone m).migs.find id = some { m with posted := m.posted || last } ∧
    (s.migrationDone m).groups = s.groups ∧ (s.migrationDone m).mem = s.mem ∧ (s.migrationDone m).poison = s.poison ∧
    if last then ∃ r, (s.migrationDone m).records = s.records ++ [r] ∧ r.ty = 3 ∧ r.imm = BitVec.ofNat 16 id
    else (s.migrationDone m).records = s.records := by
  intro last
  unfold State.migrationDone
  have hcond : (m.posted || m.pulled.length != m.size / 128) = !last := by
    simp only [last, bne]
    cases m.posted <;> simp
  rw [hcond]
  cases hl : last with
  | false =>
    refine ⟨?_, rfl, rfl, rfl, rfl⟩
    rw [Bool.or_false]
    exact hm
  | true =>
    refine ⟨?_, rfl, rfl, rfl, _, rfl, ?_, ?_⟩
    · rw [Bool.or_true]
      show (KMap.put s.migs m.id { m with posted := true }).find id = _
      rw [hid, KMap.find_put_self]
    · show (s.record noGroup 3 0 0 0 0 0 0 0 m.id).ty = 3
      unfold State.record
      split <;> rfl
    · show (s.record noGroup 3 0 0 0 0 0 0 0 m.id).imm = _
      unfold State.record
      rw [hid]
      split <;> rfl

theorem backgroundPull_pulls {s : State} {id i : Nat} {m : Mig} (hm : s.migs = [(id, m)]) (hid : m.id = id)
    (hd : m.old = m.new ∨ m.old + m.size ≤ m.new ∨ m.new + m.size ≤ m.old) (hi : i < m.size / 128) (hp : i ∉ m.pulled)
    (hlow : ∀ j < i, j ∈ m.pulled) (hinv : s.Inv) :
    let last : Bool := !m.posted && m.pulled.length + 1 == m.size / 128
    ∃ t, exec (.backgroundPull id) s = .next t ∧ t.groups = s.groups ∧
      (∀ b, Memory.byte t.mem b = if m.new + 128 * i ≤ b ∧ b < m.new + 128 * i + 128 then
        Memory.byte s.mem (m.old + 128 * i + (b - (m.new + 128 * i))) else Memory.byte s.mem b) ∧
      (m.new + 128 * i ∈ t.poison ↔ m.old + 128 * i ∈ s.poison) ∧
      t.migs.find id = some { m with pulled := i :: m.pulled, posted := m.posted || last } ∧
      if last then ∃ r, t.records = s.records ++ [r] ∧ r.ty = 3 ∧ r.imm = BitVec.ofNat 16 id else t.records = s.records := by
  intro last
  have hfind : s.migs.find id = some m := by
    rw [hm]
    exact KMap.find_put_self [] id m
  obtain ⟨hmem, hpoison, hmigs⟩ := pullLine_moves hfind hp (liveKey_absent hm hd hi hp)
  have hside := memSide_pullLine s id i
  obtain ⟨u, hu⟩ : ∃ u, u = s.pullLine id i := ⟨_, rfl⟩
  rw [← hu] at hmem hpoison hmigs hside
  have hfind' : u.migs.find id = some { m with pulled := i :: m.pulled } := by rw [hmigs, KMap.find_put_self]
  obtain ⟨h1, h2, h3, h4, h5⟩ := migrationDone_posts (m := { m with pulled := i :: m.pulled }) hfind' hid
  refine ⟨u.migrationDone { m with pulled := i :: m.pulled }, ?_, ?_, fun b => ?_, ?_, h1, ?_⟩
  · show execBackgroundPull id s = _
    unfold execBackgroundPull
    simp only [hfind, find_nextLine hi hp hlow, ← hu, hfind']
  · rw [h2, hside.rest]
  · rw [h3, hmem, Memory.byte_putBytes hinv, Memory.bytes_length]
    split
    · next hb => rw [Memory.bytes_getD _ _ _ _ (by omega)]
    · rfl
  · rw [h4, hpoison, List.mem_append, List.mem_filter]
    by_cases hb : m.old + 128 * i ∈ s.poison
    · simp [hb]
    · simp [hb]
  · have hrec : u.records = s.records := by rw [hside.rest]
    rw [← hrec]
    exact h5

/-! ## Fault records (R336) -/

theorem length_le (n x : Nat) : (le n x).length = n := length_leBytes x n

/-- A field of a row that lies behind its first part. -/
theorem field_skip (k x : Nat) (rest : List Byte) {off n : Nat} (h : k ≤ off) : field (le k x ++ rest) off n = field rest (off - k) n := by
  rw [field, field, List.drop_append, length_le, List.drop_eq_nil_of_le (by rw [length_le]; exact h), List.nil_append]

/-- The first field of a row. -/
theorem field_first (n x : Nat) (rest : List Byte) : field (le n x ++ rest) 0 n = x % 2 ^ (8 * n) := by
  rw [field, List.drop_zero, List.take_append_of_le_length (by rw [length_le]), List.take_of_length_le (by rw [length_le]), Nat.pow_mul]
  exact ofLeBytes_leBytes x n

theorem field_only (n x : Nat) : field (le n x) 0 n = x % 2 ^ (8 * n) := by
  have := field_first n x []
  rwa [List.append_nil] at this

theorem regionBytes_eq (r : FaultRec) : ((natsFrom 0 3).flatMap fun i => le 2 (r.regions.getD i 0xFFFF).toNat) =
    le 2 (r.regions.getD 0 0xFFFF).toNat ++ (le 2 (r.regions.getD 1 0xFFFF).toNat ++ (le 2 (r.regions.getD 2 0xFFFF).toNat ++ [])) := rfl

/-- The fields of a record's row (R336). -/
theorem recordRow_fields (r : FaultRec) :
    (recordRow r).length = 64 ∧ field (recordRow r) 0 1 = r.ty % 2 ^ 8 ∧ field (recordRow r) 1 1 = r.code.toNat ∧
      field (recordRow r) 2 1 = r.cause.toNat ∧ field (recordRow r) 3 1 = r.bits.toNat ∧ field (recordRow r) 4 2 = r.core % 2 ^ 16 ∧
      field (recordRow r) 6 1 = r.slot % 2 ^ 8 ∧ field (recordRow r) 7 1 = r.tag % 2 ^ 8 ∧ field (recordRow r) 8 4 = r.launch.toNat ∧
      field (recordRow r) 0x0C 4 = r.pos.toNat ∧ field (recordRow r) 0x10 8 = r.addr.toNat ∧ field (recordRow r) 0x18 1 = r.lane % 2 ^ 8 ∧
      field (recordRow r) 0x1A 2 = r.under.toNat ∧ field (recordRow r) 0x1C 4 = r.row.toNat ∧ field (recordRow r) 0x20 4 = r.col.toNat ∧
      field (recordRow r) 0x2A 2 = r.imm.toNat ∧ field (recordRow r) 0x30 8 = r.time.toNat ∧
      field (recordRow r) 0x38 8 = r.frame.toNat := by
  unfold recordRow
  rw [regionBytes_eq]
  simp only [List.append_assoc, List.nil_append]
  refine ⟨?_, ?_, ?_, ?_, ?_, ?_, ?_, ?_, ?_, ?_, ?_, ?_, ?_, ?_, ?_, ?_, ?_, ?_⟩
  · simp only [List.length_append, length_le]
  all_goals
    simp (disch := omega) only [field_skip, field_first, field_only, Nat.sub_self, Nat.reduceSub, Nat.reduceMul, BitVec.toNat_mod_cancel]

/-- The state after the first record that can be posted has been posted at `a`. -/
def State.postAt (s : State) (r : FaultRec) (a : Nat) : State :=
  let s' := s.physWrite a (recordRow r) (some 5)
  let fault := r.ty == 1 && r.code.toNat != cBRKPT && r.code.toNat != cWATCH
  let s' := if fault then s'.onLaunch r.launch.toNat fun l => { l with faulted := true } else s'
  { s' with
    faultQ := { s.faultQ with tail := BitVec.ofNat 32 ((s.faultQ.tail.toNat + 1) % s.faultQ.entries.toNat) }
    records := s'.records.erase r
    posted := if r.ty == 3 then s'.posted else s'.posted ++ [r] }

theorem exec_post {s : State} {r : FaultRec} (hr : s.records.find? s.postable = some r) (he : s.faultQ.entries ≠ 0)
    (hroom : (s.faultQ.tail.toNat + 1) % s.faultQ.entries.toNat ≠ s.faultQ.head.toNat % s.faultQ.entries.toNat) :
    exec .faultRecordPost s =
      .next (s.postAt r (s.faultQ.base.toNat + s.faultQ.tail.toNat % s.faultQ.entries.toNat * 64)) := by
  have hq : s.faultQ.hasRoom = true := by
    unfold Ring.hasRoom
    rw [bne_iff_ne.2 he, bne_iff_ne.2 hroom]
    rfl
  show execFaultRecordPost s = _
  unfold execFaultRecordPost
  simp only [hr, hq, Bool.not_true, Bool.false_eq_true, if_false]
  rfl

theorem postAt_keeps (s : State) (r : FaultRec) (a : Nat) :
    (s.postAt r a).groups = s.groups ∧ (s.postAt r a).records = s.records.erase r ∧
      (s.postAt r a).faultQ = { s.faultQ with tail := BitVec.ofNat 32 ((s.faultQ.tail.toNat + 1) % s.faultQ.entries.toNat) } ∧
      (s.postAt r a).posted = (if r.ty = 3 then s.posted else s.posted ++ [r]) ∧
      (s.postAt r a).mem = (s.physWrite a (recordRow r) (some 5)).mem := by
  have hside := memSide_physWrite s a (recordRow r) (some 5)
  obtain ⟨u, hu⟩ : ∃ u, u = s.physWrite a (recordRow r) (some 5) := ⟨_, rfl⟩
  rw [← hu] at hside
  have hg : u.groups = s.groups := by rw [hside.rest]
  have hr : u.records = s.records := by rw [hside.rest]
  have hp : u.posted = s.posted := by rw [hside.rest]
  unfold State.postAt
  rw [← hu, ← hg, ← hr, ← hp]
  have hty : (if r.ty == 3 then u.posted else u.posted ++ [r]) = if r.ty = 3 then u.posted else u.posted ++ [r] :=
    if_congr beq_iff_eq rfl rfl
  cases (r.ty == 1 && r.code.toNat != cBRKPT && r.code.toNat != cWATCH) with
  | false => exact ⟨rfl, rfl, rfl, hty, rfl⟩
  | true => exact ⟨rfl, rfl, rfl, hty, rfl⟩

/-! ## Accesses of peers (R308, R374) -/

theorem stamp_tags (x : Gran) (seq : Nat) (bytes : List Nat) : (x.stamp seq bytes).owner = x.owner ∧ (x.stamp seq bytes).rel = x.rel :=
  ⟨rfl, rfl⟩

theorem owner_foldl_setGran (f : State → Nat → Gran) (hf : ∀ s i, (f s i).owner = (s.granAt i).owner) (is : List Nat) (s : State) (j : Nat) :
    ((is.foldl (fun s i => s.setGran i (f s i)) s).granAt j).owner = (s.granAt j).owner := by
  induction is generalizing s with
  | nil => rfl
  | cons i is ih =>
    rw [List.foldl_cons, ih, granAt_setGran]
    split
    · next h => rw [hf, h]
    · rfl

theorem owner_write (s : State) (a : Nat) (bs : List Byte) (j : Nat) : ((s.write a bs).granAt j).owner = (s.granAt j).owner := by
  unfold State.write
  simp only
  split
  · rfl
  · unfold State.stampBytes
    rw [owner_foldl_setGran (fun s g => (s.granAt g).stamp s.seq (bytesIn g a bs.length)) fun _ _ => rfl]
    rfl

theorem rel_foldl_setGran (f : State → Nat → Gran) (v : Option (Releaser × Nat)) (hf : ∀ s i, (f s i).rel = v) (is : List Nat) (s : State)
    {j : Nat} (hj : j ∈ is ∨ (s.granAt j).rel = v) : ((is.foldl (fun s i => s.setGran i (f s i)) s).granAt j).rel = v := by
  induction is generalizing s with
  | nil => exact hj.resolve_left List.not_mem_nil
  | cons i is ih =>
    refine ih _ ?_
    rw [granAt_setGran]
    by_cases hi : j = i
    · exact .inr (by rw [if_pos hi, hf])
    · rw [if_neg hi]
      exact hj.imp_left fun h => (List.mem_cons.1 h).resolve_left hi

/-- What the device's release leaves in the tags of its granules: the hub at a scope, and the owner that stood (R308). -/
theorem writeHome_tags {s : State} (h : s.migs = []) (a : Nat) (bs : List Byte) (rel : Option Nat) {b : Nat} (h1 : a ≤ b)
    (h2 : b < a + bs.length) :
    ((s.writeHome a bs (rel.map fun sc => (.hub, sc))).granAt (b / 16)).owner = (s.granAt (b / 16)).owner ∧
    ((s.writeHome a bs (rel.map fun sc => (.hub, sc))).granAt (b / 16)).rel = rel.map fun sc => (.hub, sc) := by
  have hin : b / 16 ∈ granulesOf a bs.length := mem_natsFrom.2 ⟨by omega, by omega⟩
  unfold State.writeHome
  rw [home_idle h]
  cases rel with
  | none =>
    exact ⟨(owner_foldl_setGran (fun s g => { (s.granAt g) with rel := none }) (fun _ _ => rfl) _ _ _).trans (owner_write ..),
      rel_foldl_setGran (fun s g => { (s.granAt g) with rel := none }) none (fun _ _ => rfl) _ _ (.inl hin)⟩
  | some sc =>
    exact ⟨(owner_foldl_setGran (fun s g => { (s.granAt g) with rel := some (.hub, sc), owner := Releaser.hub.owns sc (s.granAt g).owner })
        (fun _ _ => rfl) _ _ _).trans (owner_write ..),
      rel_foldl_setGran (fun s g => { (s.granAt g) with rel := some (.hub, sc), owner := Releaser.hub.owns sc (s.granAt g).owner })
        (some (.hub, sc)) (fun _ _ => rfl) _ _ (.inl hin)⟩

theorem wroteOnly_write {s t : State} {a n v : Nat} (hinv : s.Inv) (h : t.mem = Memory.putBytes s.mem a (leBytes v n)) : wroteOnly s t a n v := by
  intro b
  rw [h, Memory.byte_putBytes hinv, length_leBytes]
  split
  · next hb => rw [leBytes_getD _ _ _ (by omega)]
  · rfl

/-- A peer's write in its window is performed. -/
theorem inboundWrite_performs {s : State} {x : Inbound} {p : PathEntry} (hp : s.entryOf x.node.toNat = some p) (hport : p.port ∉ s.portsDown)
    (hm : x.message = none) (ha : x.atomic = none) (hw : x.write = true) (hright : p.inWrite = true) (h1 : p.base * 65536 ≤ x.addr)
    (h2 : x.addr + x.size ≤ p.limit * 65536) (h3 : x.addr + x.size ≤ 0x00C000000000) (h4 : x.size ≤ 16) (hmigs : s.migs = [])
    (hinv : s.Inv) :
    ∃ t, exec (.inboundAccess x) s = .next t ∧ t.groups = s.groups ∧
      wroteOnly s t x.addr x.size (x.data.1.toNat + 2 ^ 64 * x.data.2.toNat) ∧
      ∀ b, x.addr ≤ b → b < x.addr + x.size → (t.granAt (b / 16)).owner = (s.granAt (b / 16)).owner ∧
        (t.granAt (b / 16)).rel = if x.order = 2 ∨ x.order = 3 then some (.hub, x.scope.toNat) else none := by
  have htag : inboundTag x = (if x.order = 2 ∨ x.order = 3 then some x.scope.toNat else none).map fun sc => (.hub, sc) := by
    unfold inboundTag
    by_cases ho : x.order = 2 ∨ x.order = 3
    · rw [if_pos ho, if_pos (by simpa using ho)]
      rfl
    · rw [if_neg ho, if_neg (by simpa using ho)]
      rfl
  obtain ⟨bs, hbs⟩ : ∃ bs, bs = leBytes (x.data.1.toNat + 2 ^ 64 * x.data.2.toNat) x.size := ⟨_, rfl⟩
  have hlen : bs.length = x.size := hbs ▸ length_leBytes ..
  refine ⟨s.writeHome x.addr bs (inboundTag x), ?_, ?_, ?_, fun b hb1 hb2 => ?_⟩
  · show execInboundAccess x s = _
    unfold execInboundAccess
    have hup : s.portsDown.contains p.port = false := by simpa using hport
    have hwin : p.inWindow x.addr x.size = true := by
      simp only [PathEntry.inWindow, Bool.and_eq_true, decide_eq_true_eq]
      exact ⟨⟨h1, h2⟩, h3⟩
    simp only [hp, hm, ha, hw, hright, hwin, decide_eq_true h4, hup, Bool.false_eq_true, if_false,
      Bool.and_self, if_true, ← hbs]
  · rw [(memSide_writeHome ..).rest]
  · refine wroteOnly_write hinv ?_
    obtain ⟨g, q, l, heq⟩ := writeHome_idle hmigs x.addr bs (inboundTag x)
    rw [heq, ← hbs]
  · obtain ⟨ho, hr⟩ := writeHome_tags hmigs x.addr bs (if x.order = 2 ∨ x.order = 3 then some x.scope.toNat else none) hb1 (by rw [hlen]; exact hb2)
    rw [← htag] at ho hr
    refine ⟨ho, hr.trans ?_⟩
    rw [htag]
    split <;> rfl

/-- Settles O52: pulls, scrubbing, posted records, ports and peers' writes do what they say to memory and their tables. -/
theorem memoryUpkeepAndPeers : Obligations.MemoryUpkeepAndPeers := by
  unfold Obligations.MemoryUpkeepAndPeers
  refine ⟨fun s id i m => backgroundPull_pulls, fun s stack line hs hl => ?_, ?_, fun s port => ⟨rfl, ?_⟩,
    fun s x p hp hport hm ha hw => ⟨fun hright => ?_, fun hright h1 h2 h3 h4 hmigs hinv =>
      inboundWrite_performs hp hport hm ha hw hright h1 h2 h3 h4 hmigs hinv⟩⟩
  · have hguard : (decide (12 ≤ stack) || decide (2 ^ 29 ≤ line)) = false := by
      rw [decide_eq_false (by omega), decide_eq_false (by omega)]
      rfl
    have hexec (found : Scrub) (t : State) (h : execPatrolScrub stack line found s = .next t) :
        exec (.patrolScrub stack line found) s = .next t := h
    refine ⟨hexec .clean s ?_, hexec .corrected _ ?_,
      { s with poison := if s.poison.contains (stack * 2 ^ 36 + line * 128) then s.poison else (stack * 2 ^ 36 + line * 128) :: s.poison },
      hexec .uncorrectable _ ?_, rfl, fun a => ?_⟩
    · unfold execPatrolScrub
      simp only [hguard, Bool.false_eq_true, if_false]
    · unfold execPatrolScrub
      simp only [hguard, Bool.false_eq_true, if_false]
    · unfold execPatrolScrub
      simp only [hguard, Bool.false_eq_true, if_false]
    · show a ∈ (if s.poison.contains (stack * 2 ^ 36 + line * 128) then s.poison else (stack * 2 ^ 36 + line * 128) :: s.poison) ↔ _
      split
      · next hc => exact ⟨.inr, fun h => h.elim (fun h => h ▸ List.contains_iff_mem.1 hc) id⟩
      · exact List.mem_cons
  · intro s r hr he hroom hmigs hinv a
    obtain ⟨hg, hrec, hq, hposted, hmem⟩ := postAt_keeps s r a
    obtain ⟨hlen, hfields⟩ := recordRow_fields r
    have hbyte (b : Nat) := byte_physWrite hmigs hinv a (recordRow r) (some 5) b
    rw [← hmem, hlen] at hbyte
    have hnum {off n : Nat} (hn : off + n ≤ 64) : Memory.num (s.postAt r a).mem (a + off) n = field (recordRow r) off n :=
      num_of_bytes (fun b h1 h2 => by rw [hbyte, if_pos ⟨h1, by rw [hlen] at h2; exact h2⟩]) (by rw [hlen]; exact hn)
    have hnum0 : Memory.num (s.postAt r a).mem a 1 = field (recordRow r) 0 1 := hnum (off := 0) (by omega)
    refine ⟨s.postAt r a, exec_post hr he hroom, hg, hrec, hq, hposted, fun b hb => ?_, ?_⟩
    · rw [hbyte, if_neg (by omega)]
    · rw [hnum0]
      simp (disch := omega) only [hnum]
      exact hfields
  · refine ⟨_, rfl, rfl, fun p => ?_⟩
    show p ∈ (if s.portsDown.contains port.toNat then s.portsDown else port.toNat :: s.portsDown) ↔ _
    split
    · next hc => exact ⟨.inr, fun h => h.elim (fun h => h ▸ List.contains_iff_mem.1 hc) id⟩
    · exact List.mem_cons
  · show execInboundAccess x s = _
    unfold execInboundAccess
    have hup : s.portsDown.contains p.port = false := by simpa using hport
    simp only [hp, hm, ha, hw, hright, hup, Bool.false_and, Bool.false_eq_true, if_false, if_true]

end Sys2Proof.Machine
end

section
/-! SUPPORT. A queue head in a frame that migrates (R302, R318). -/

namespace Sys2Proof.Machine

open Sys2Proof

/-- A launch record at the head of host queue 0 (one team of one lane, of kernel 0 of module 0) whose ring lies in the new frame
of a migration that has moved no line yet. -/
def movingHead : State :=
  { State.reset with
    image := { State.reset.image with saveSize := 2 ^ 30 }
    modules := [(0, ⟨0x8000, 0x8000, 0, [], 0x8000, 0, 0x8000, 0x8000, 0x8000, 0x8000, 0x10000, 0, 0, 0, 1, 0, 0xFFFF⟩)]
    mem := [(0x10008, 1), (0x30008, 1), (0x3000C, 1), (0x30010, 1), (0x30014, 1)]
    hostQ := [(0, ⟨⟨0x20000, 4, 0, 1⟩, some (1, 0), none, none⟩)]
    migs := [(0, ⟨0, 0x30000, 0x20000, 0x10000, [], false⟩)] }

/-- Refutes O53: reading the entry of a queue head in a migrating frame pulls its lines, so that an accepted launch does change
memory. (The statement has no hypothesis on migrations there.) -/
theorem not_queueHeadsTakeEntries : ¬ Obligations.QueueHeadsTakeEntries := by
  unfold Obligations.QueueHeadsTakeEntries
  rintro ⟨-, hhead⟩
  obtain ⟨h, hh⟩ := Option.isSome_iff_exists.1 (show (movingHead.headOf 0).isSome = true by decide +kernel)
  have hok : (movingHead.headOf 0).map (fun h => (recKind h.rec0, movingHead.launchStatus h)) = some (0, 0) := by decide +kernel
  rw [hh] at hok
  obtain ⟨hkind, hstatus⟩ := Prod.mk.inj (Option.some.inj hok)
  obtain ⟨hlaunch, -⟩ := hhead movingHead 0 h hh
  obtain ⟨t, l, hx, -, hmem, -⟩ := hlaunch hkind hstatus
  have hrun : (match exec (.launchEntry 0) movingHead with
      | .next t => Memory.byte t.mem 0x20008
      | _ => 0) = 1 := by decide +kernel
  rw [hx] at hrun
  simp only [hmem] at hrun
  exact absurd hrun (by decide +kernel)

end Sys2Proof.Machine
end

section
/-! SUPPORT. A saved team whose table of groups lists a group twice (R330). -/

namespace Sys2Proof.Machine

open Sys2Proof

/-- A group of a saved team; its one frame found no place in frame data. -/
def unplaced : Group :=
  { (startGroup 0 0 0 16 1 0 0 256 0 0 0 []) with
    saved := true, resident := false, frames := [(0, ⟨[0], [(0, 5)], [], [], 0, .saved none⟩)] }

/-- A saved team that may return, whose only group its table lists twice. -/
def returning : State :=
  { oneLane with
    groups := [(0, unplaced), (0, unplaced)]
    mem := [(0x10000 + groupArea 0 + 0x2700, 1), (0x10000 + groupArea 0 + 0x2701, 1)]
    teams := oneLane.teams.update 0 fun tm =>
      { tm with saved := true, latched := false, sUnits := 0, vUnits := 0, frame := 0x10000, frameSize := 0, blocks := [] } }

/-- The team of `returning`. -/
def returningTeam : Team := (returning.teams.find 0).getD (newTeam (newLaunch 0 0 ⟨0, 0, []⟩ []) ⟨0, [], none, 0, 0, 0⟩)

/-- Refutes O54: where the table of groups lists a saved group twice, the team's return reads its save frame twice for that
group, the second time for the group that has returned already, so that its registers are lost. (The statement admits such
tables.) -/
theorem not_teamsComeAndGo : ¬ Obligations.TeamsComeAndGo := by
  unfold Obligations.TeamsComeAndGo
  rintro ⟨-, -, -, -, -, hrestore⟩
  have htm : returning.teams.find 0 = some returningTeam := by decide +kernel
  obtain ⟨s2, hs2⟩ := Option.isSome_iff_exists.1
    (show (returning.freeBlocks returningTeam.core (returning.blocksBack returningTeam) 32).isSome = true by decide +kernel)
  obtain ⟨-, hwhole⟩ := hrestore returning 0 0 returningTeam unplaced htm (by decide +kernel) rfl rfl rfl rfl (by decide +kernel)
    (by decide +kernel) (by decide +kernel) rfl
  obtain ⟨t, g', -, hx, hg, -, -, hback, -⟩ := hwhole s2 (by decide +kernel) (by decide +kernel) hs2
  have hkept : (returning.freeBlocks returningTeam.core (returning.blocksBack returningTeam) 32).bind (fun s2 =>
      (unplaced.reload (s2.frameRead returningTeam) returningTeam.dataOff).bankAt 0 0 0) = some 5 := by decide +kernel
  rw [hs2] at hkept
  have hrun : (match exec (.teamRestore 0) returning with
      | .next t => (t.group 0).bind fun g => g.bankAt 0 0 0
      | _ => none) = some 0 := by decide +kernel
  rw [hx] at hrun
  simp only [hg, Option.bind_some, hback.bank] at hrun
  rw [Option.bind_some, hrun] at hkept
  exact absurd hkept (by decide)

end Sys2Proof.Machine
end

section
/-! SUPPORT. A table of teams that lists a team twice (R327, R362). -/

namespace Sys2Proof.Machine

open Sys2Proof

/-- The owner's PRE_EMPT of teams 0 to 0 of launch 1, while the table of teams lists team 0 of launch 0 and, under the same
key, a team of launch 1. -/
def preEmptTwice : State :=
  { oneLane with
    boot := ⟨1, 0, 0, false, 0⟩
    cmdRing := ⟨0x20000, 2, 0, 1⟩
    mem := [(0x20000, 7), (0x20008, 1)]
    teams := oneLane.teams ++ oneLane.teams.map fun p => (p.1, { p.2 with launch := 1 }) }

theorem endCommand_teams (s : State) (a st : Nat) : (s.endCommand a st).teams = s.teams := by
  have h1 := (memSide_correctPhys s a 64).rest
  have h2 := (memSide_physWrite (s.correctPhys a 64) (a + 2) (leBytes st 2) none).rest
  show (State.physWrite ..).teams = _
  rw [h2, h1]

theorem preEmptTwice_head : (preEmptTwice.commandHead.map fun x => (field x.2 0 2, reservedZero x.2 [(0, 12)],
    pay x.2 0 4, pay x.2 4 4, pay x.2 8 4)) = some (7, true, 1, 0, 0) := by decide +kernel

theorem preEmptTwice_team : (preEmptTwice.teams.find 0).map (fun tm => (tm.launch, tm.latched)) = some (0, false) := by
  decide +kernel

/-- The command latches the team of launch 0. -/
theorem preEmpt_preEmptTwice : (match exec .preEmpt preEmptTwice with
    | .next t => (t.teams.find 0).map (·.latched)
    | _ => none) = some true := by decide +kernel

/-- Refutes O55: PRE_EMPT chooses its teams from the entries of the table and latches them by their keys. Where the table
lists a key twice and the entry that the key finds is of another launch, that entry's team is latched. (The statement admits
such tables; with rising keys each entry is the one that its key finds.) -/
theorem not_contextAndLaunchCommands : ¬ Obligations.ContextAndLaunchCommands := by
  unfold Obligations.ContextAndLaunchCommands
  rintro ⟨-, -, hdo⟩
  obtain ⟨⟨a, e⟩, hhead, hentry⟩ := Option.map_eq_some_iff.1 preEmptTwice_head
  obtain ⟨hop, hentry⟩ := Prod.mk.inj hentry
  obtain ⟨hzero, hentry⟩ := Prod.mk.inj hentry
  obtain ⟨hlaunch, hentry⟩ := Prod.mk.inj hentry
  obtain ⟨hfirst, hlast⟩ := Prod.mk.inj hentry
  obtain ⟨-, -, -, -, -, -, -, hpre, -⟩ := hdo preEmptTwice a e
  obtain ⟨s', ts, hdid, hlatched, hts⟩ := hpre ⟨hhead, 7, [(0, 12)], rfl, hop, hzero⟩ (hfirst.trans hlast.symm).le
  obtain ⟨tm, htm, hof⟩ := Option.map_eq_some_iff.1 preEmptTwice_team
  obtain ⟨hof, hfree⟩ := Prod.mk.inj hof
  have hout : 0 ∉ ts := fun h => by
    have h1 := ((hts 0 tm htm).1 h).1
    rw [hof, hlaunch] at h1
    exact absurd h1 (by decide)
  have hrun := preEmpt_preEmptTwice
  rw [hdid] at hrun
  simp only [endCommand_teams, hlatched.others 0 hout, htm, Option.map_some, hfree] at hrun
  exact absurd hrun (by decide)

end Sys2Proof.Machine
end

section
/-! SUPPORT. The commands of debug and measurement (R342, R346, R352 to R356, R362, R368, R369, R372). -/

namespace Sys2Proof.Machine

open Sys2Proof

/-! ## Commands that run -/

/-- A command whose reserved bytes are 0 ends with the status and effect that its run gives. -/
theorem command_commanded {i : Instr} {op : Nat} {listed : List (Nat × Nat)} {run : State → List Byte → Option (Nat × State)}
    {s s' : State} {a st : Nat} {e : List Byte} (h : Commanded i s a e) (hi : commandOf i = some (op, listed))
    (hr : run s e = some (st, s')) : command op listed run s = .next (s'.endCommand a st) := by
  obtain ⟨hhead, op', listed', hc, hop, hz⟩ := h
  rw [hi] at hc
  obtain ⟨rfl, rfl⟩ := Prod.mk.inj (Option.some.inj hc)
  exact command_runs hhead hop hz hr

/-! ## Reads and writes of the device without a migration -/

/-- What a write of the device at a physical address leaves. -/
theorem physWrite_idle {s : State} (h : s.migs = []) (pa : Nat) (bs : List Byte) (scope : Option Nat) :
    ∃ m g p l, s.physWrite pa bs scope = { s with mem := m, gran := g, poison := p, latent := l } := by
  rw [physWrite_eq]
  induction lineParts pa bs.length generalizing s with
  | nil => exact ⟨_, _, _, _, rfl⟩
  | cons x xs ih =>
    obtain ⟨g, p, l, hw⟩ := writePart_idle h pa bs scope x
    obtain ⟨m', g', p', l', ht⟩ := ih (s := s.writePart pa bs scope x) (by rw [hw]; exact h)
    exact ⟨m', g', p', l', by rw [List.foldl_cons, ht, hw]⟩

/-- With no correctable error in HBM, walks count no error of a stack. -/
theorem walked_errStack {s : State} (h : s.migs = []) (hl : s.latent.blocks1 = []) (ts : List TlbEntry) :
    (s.walked ts).errStack = s.errStack := by
  suffices hall : ∀ (as : List Nat) (s : State), s.migs = [] → s.latent.blocks1 = [] →
      (as.foldl (fun s a => (s.touch a).correctHome ((s.touch a).liveKey a) 8) s).errStack = s.errStack from hall _ s h hl
  intro as
  induction as with
  | nil => exact fun s _ _ => rfl
  | cons a as ih =>
    intro s h hl
    have hstep : (s.correctHome a 8).errStack = s.errStack ∧ (s.correctHome a 8).latent.blocks1 = s.latent.blocks1 := by
      unfold State.correctHome
      rw [hl, List.filter_nil]
      cases isVaultKey a with
      | false => exact ⟨rfl, hl⟩
      | true => cases s.latent.granules1.filter fun g => a / 16 ≤ g && g ≤ (a + 8 - 1) / 16 with
        | nil => exact ⟨rfl, hl⟩
        | cons => exact ⟨rfl, hl⟩
    rw [List.foldl_cons, touch_idle h, liveKey_idle h, ih _ ((correctHome_migs ..).trans h) (hstep.2.trans hl), hstep.1]

/-- The lines of a physical range follow one another. -/
theorem lines_bytes (m : Memory) (pa n k : Nat) {l : Nat} (hl : pa / 128 ≤ l) :
    (natsFrom l k).flatMap (fun l => Memory.bytes m (max pa (128 * l)) (min (pa + n) (128 * l + 128) - max pa (128 * l))) =
      Memory.bytes m (max pa (128 * l)) (min (pa + n) (128 * (l + k)) - max pa (128 * l)) := by
  induction k generalizing l with
  | zero =>
    rw [show min (pa + n) (128 * (l + 0)) - max pa (128 * l) = 0 by omega]
    rfl
  | succ k ih =>
    rw [natsFrom, List.flatMap_cons, ih (by omega)]
    by_cases h : max pa (128 * l) ≤ 128 * l + 128 ∧ 128 * l + 128 ≤ pa + n
    · rw [show max pa (128 * (l + 1)) = max pa (128 * l) + (min (pa + n) (128 * l + 128) - max pa (128 * l)) by omega,
        Memory.bytes_append]
      congr 1
      omega
    · rw [show min (pa + n) (128 * (l + 1 + k)) - max pa (128 * (l + 1)) = 0 by omega,
        show min (pa + n) (128 * (l + (k + 1))) = min (pa + n) (128 * l + 128) by omega]
      exact List.append_nil _

/-- Without a migration the bytes of a physical range stand where they are named. -/
theorem physBytes_idle {s : State} (h : s.migs = []) (pa n : Nat) : s.physBytes pa n = Memory.bytes s.mem pa n := by
  unfold State.physBytes lineParts State.readBytes
  simp only [List.flatMap_map, liveKey_idle h]
  rw [lines_bytes _ _ _ _ (Nat.le_refl _), show max pa (128 * (pa / 128)) = pa by omega]
  congr 1
  omega

/-! ## The commands -/

section Commands

variable {s : State} {a : Nat} {e : List Byte}

theorem codeBreakpoint_sets (h : Commanded .codeBreakpoint s a e) {c : Ctx} (hc : s.ctxs.find (pay e 0 2) = some c)
    (hi : pay e 2 1 < 8) (hon : pay e 3 1 < 2) :
    ∃ s' c', Did .codeBreakpoint s a s' ∧ s' = { s with ctxs := s'.ctxs } ∧ s'.ctxs.find (pay e 0 2) = some c' ∧
      c' = { c with breaks := c'.breaks } ∧
      c'.breaks.find (pay e 2 1) = some ⟨BitVec.ofNat 16 (pay e 4 2), BitVec.ofNat 16 (pay e 6 2), pay e 3 1 == 1⟩ ∧
      ∀ i, i ≠ pay e 2 1 → c'.breaks.find i = c.breaks.find i := by
  have hbit : bitOf (pay e 3 1) 0 = (pay e 3 1 == 1) := by
    unfold bitOf
    rcases (by omega : pay e 3 1 = 0 ∨ pay e 3 1 = 1) with h | h <;> rw [h] <;> rfl
  refine ⟨{ s with
      ctxs := s.ctxs.update (pay e 0 2) fun c =>
        { c with
          breaks := c.breaks.put (pay e 2 1) ⟨BitVec.ofNat 16 (pay e 4 2), BitVec.ofNat 16 (pay e 6 2), bitOf (pay e 3 1) 0⟩ } },
    _, ?_, rfl, (KMap.find_update_self ..).trans (congrArg _ hc), rfl, ?_,
    fun i hne => KMap.find_put_ne _ _ hne⟩
  · show execCodeBreakpoint s = _
    unfold execCodeBreakpoint
    refine command_commanded h rfl (if_neg ?_)
    simp only [hc, Option.isNone_some, Bool.false_or, Bool.or_eq_true, decide_eq_true_eq]
    omega
  · rw [← hbit]
    exact KMap.find_put_self _ _ _

theorem regionStop_sets (h : Commanded .regionStop s a e) (hon : pay e 6 1 < 2) :
    ∃ s', Did .regionStop s a s' ∧ s' = { s with regionStops := s'.regionStops } ∧
      ∀ x, x ∈ s'.regionStops ↔
        if x = (BitVec.ofNat 32 (pay e 0 4), BitVec.ofNat 16 (pay e 4 2)) then pay e 6 1 = 1 else x ∈ s.regionStops := by
  refine ⟨{ s with
      regionStops :=
        if pay e 6 1 == 1 then
          s.regionStops.filter (· != (BitVec.ofNat 32 (pay e 0 4), BitVec.ofNat 16 (pay e 4 2))) ++
            [(BitVec.ofNat 32 (pay e 0 4), BitVec.ofNat 16 (pay e 4 2))]
        else s.regionStops.filter (· != (BitVec.ofNat 32 (pay e 0 4), BitVec.ofNat 16 (pay e 4 2))) },
    ?_, rfl, fun x => ?_⟩
  · show execRegionStop s = _
    unfold execRegionStop
    exact command_commanded h rfl (if_neg (by omega))
  have hrest : x ∈ (s.regionStops.filter (· != (BitVec.ofNat 32 (pay e 0 4), BitVec.ofNat 16 (pay e 4 2)))) ↔
      x ∈ s.regionStops ∧ x ≠ (BitVec.ofNat 32 (pay e 0 4), BitVec.ofNat 16 (pay e 4 2)) := by
    rw [List.mem_filter, bne_iff_ne]
  show x ∈ (if pay e 6 1 == 1 then _ ++ [_] else _) ↔ _
  cases hset : pay e 6 1 == 1 with
  | false =>
    have : pay e 6 1 ≠ 1 := by simpa using hset
    rw [if_neg (by simp), hrest]
    split
    · next hx => simp [hx, this]
    · next hx => simp [hx]
  | true =>
    have : pay e 6 1 = 1 := by simpa using hset
    rw [if_pos rfl, List.mem_append, List.mem_singleton, hrest]
    split
    · next hx => simp [hx, this]
    · next hx => simp [hx]

theorem watchpoint_sets (h : Commanded .watchpoint s a e) {v : Bool} {k : Nat} (hdie : pay e 0 1 < 4) (hi : pay e 1 1 < 8)
    (hkinds : pay e 18 1 < 16) (hctl : pay e 19 1 < 4) (hc : (s.ctxs.find (pay e 20 4)).isSome)
    (hg : watchGranule (pay e 0 1) (pay e 8 8) = some (v, k)) :
    Did .watchpoint s a { s with
      watch := s.watch.put (8 * pay e 0 1 + pay e 1 1) ⟨v, k, BitVec.ofNat 16 (pay e 16 2), BitVec.ofNat 8 (pay e 18 1),
        bitOf (pay e 19 1) 0, bitOf (pay e 19 1) 1, pay e 20 4⟩ } := by
  show execWatchpoint s = _
  unfold execWatchpoint
  refine command_commanded h rfl ?_
  refine (if_neg ?_).trans ?_
  · simp only [Option.isNone_eq_false_iff.2 hc, Bool.or_false, Bool.or_eq_true, decide_eq_true_eq]
    omega
  · simp only [hg]
    rfl

/-- The first sample of a series is the first whose tick has not passed. -/
theorem firstSample_spec (k t0 now : Nat) :
    now ≤ t0 + firstSample k t0 now * 2 ^ k * 5 / 6 ∧ ∀ m < firstSample k t0 now, t0 + m * 2 ^ k * 5 / 6 < now := by
  unfold firstSample
  generalize hp : 2 ^ k = p
  have hpos : 0 < 5 * p := by
    have := Nat.two_pow_pos k
    omega
  constructor
  · have h1 := Nat.lt_div_mul_add hpos (a := 6 * (now - t0) + 5 * p - 1)
    have h2 : (6 * (now - t0) + 5 * p - 1) / (5 * p) * (5 * p) = (6 * (now - t0) + 5 * p - 1) / (5 * p) * p * 5 := by ring
    omega
  · intro m hm
    have h1 := Nat.mul_le_of_le_div (5 * p) (m + 1) _ hm
    have h2 : (m + 1) * (5 * p) = m * p * 5 + 5 * p := by ring
    omega

theorem timeSeries_stops (h : Commanded .timeSeries s a e) (hk : 10 ≤ pay e 1 1) (hk' : pay e 1 1 ≤ 24) (hq : 1 ≤ pay e 4 4)
    (hq' : pay e 4 4 ≤ 2 ^ 20) (hb : pay e 16 8 % 2048 = 0) (hp : isPhysical (pay e 16 8) (pay e 4 4 * 4 * 2048) = true)
    (hoff : pay e 0 1 = 0) : Did .timeSeries s a { s with series := { s.series with running := false, held := none } } := by
  show execTimeSeries s = _
  unfold execTimeSeries
  refine command_commanded h rfl ?_
  refine (if_neg ?_).trans (if_pos ?_)
  · simp only [hp, hb, hoff, Bool.not_true, Bool.or_false, bne_self_eq_false, Bool.or_eq_true, decide_eq_true_eq, beq_iff_eq]
    omega
  · rw [hoff]
    rfl

theorem timeSeries_starts (h : Commanded .timeSeries s a e) (hk : 10 ≤ pay e 1 1) (hk' : pay e 1 1 ≤ 24) (hq : 1 ≤ pay e 4 4)
    (hq' : pay e 4 4 ≤ 2 ^ 20) (hb : pay e 16 8 % 2048 = 0) (hp : isPhysical (pay e 16 8) (pay e 4 4 * 4 * 2048) = true)
    (hon : pay e 0 1 = 1) : Did .timeSeries s a { s with busy := [], series :=
      ⟨true, pay e 1 1, pay e 4 4, BitVec.ofNat 64 (pay e 8 8), BitVec.ofNat 64 (pay e 16 8),
        firstSample (pay e 1 1) (pay e 8 8) s.time.toNat, [0, 0, 0, 0], none⟩ } := by
  show execTimeSeries s = _
  unfold execTimeSeries
  refine command_commanded h rfl ?_
  refine (if_neg ?_).trans (if_neg ?_)
  · simp only [hp, hb, hon, Bool.not_true, Bool.or_false, bne_self_eq_false, Bool.or_eq_true, decide_eq_true_eq, beq_iff_eq]
    omega
  · rw [hon]
    decide

theorem sampling_sets (h : Commanded .sampling s a e) {c : Ctx} (hc : s.ctxs.find (pay e 0 2) = some c) (hon : pay e 2 1 < 2)
    (hj : 8 ≤ pay e 3 1) (hj' : pay e 3 1 ≤ 20) (hq : 1 ≤ pay e 4 4) (hq' : pay e 4 4 ≤ 2 ^ 20) (hb : pay e 8 8 % 64 = 0)
    (hb' : pay e 8 8 < 2 ^ 56) :
    let x : Option Sampling := if pay e 2 1 = 1 then some ⟨pay e 3 1, pay e 4 4, BitVec.ofNat 64 (pay e 8 8), 0⟩ else none
    ∃ s', Did .sampling s a s' ∧ s' = { s with ctxs := s'.ctxs } ∧
      s'.ctxs.find (pay e 0 2) = some { c with sampling := x } := by
  intro x
  have hx : (if pay e 2 1 == 1 then some (⟨pay e 3 1, pay e 4 4, BitVec.ofNat 64 (pay e 8 8), 0⟩ : Sampling) else none) = x :=
    if_congr beq_iff_eq rfl rfl
  refine ⟨{ s with ctxs := s.ctxs.update (pay e 0 2) fun c => { c with sampling := x } }, ?_,
    rfl, (KMap.find_update_self ..).trans (congrArg _ hc)⟩
  show execSampling s = _
  unfold execSampling
  refine command_commanded h rfl ?_
  refine (if_neg ?_).trans ?_
  · simp only [hc, hb, Option.isNone_some, Bool.false_or, bne_self_eq_false, Bool.or_false, Bool.or_eq_true, decide_eq_true_eq,
      beq_iff_eq]
    omega
  · simp only [hx]
    rfl

theorem assignMsiXVectors_sets (h : Commanded .assignMsiXVectors s a e) (hf : pay e 0 1 < 32) (hv : pay e 2 2 < 2048)
    (hn : pay e 2 2 + pay e 4 2 ≤ 2048) :
    Did .assignMsiXVectors s a { s with vectors := s.vectors.put (pay e 0 1) (pay e 2 2, pay e 4 2) } := by
  show execAssignMsiXVectors s = _
  unfold execAssignMsiXVectors
  refine command_commanded h rfl ?_
  refine if_neg ?_
  simp only [Bool.or_eq_true, decide_eq_true_eq]
  omega

/-- An error counter of a stack takes its eight bytes in the page where a context's address leads. -/
theorem hubTargets_count {ctx va pa v : Nat} {nc : Bool} {fill : List TlbEntry} (ht : s.translate ctx hubId va = .ok pa true nc fill)
    (hk : paKind pa = .hbm ∨ paKind pa = .host) (hva : va % 16 = 0) :
    s.hubTargets ctx 3 va (leBytes v 8) = some [(pa, leBytes v 8, fill)] := by
  have hfit : 8 ≤ 65536 - va % 65536 := by omega
  have hkind : (paKind pa == .fabric || paKind pa == .none) = false := by
    rcases hk with h | h <;> rw [h] <;> rfl
  have hdrop : (leBytes v 8).drop (65536 - va % 65536) = [] := List.drop_eq_nil_of_le (by rw [length_leBytes]; exact hfit)
  have htake : (leBytes v 8).take (65536 - va % 65536) = leBytes v 8 := List.take_of_length_le (by rw [length_leBytes]; exact hfit)
  rw [State.hubTargets]
  · simp only [ht, hkind, Bool.false_eq_true, if_false, hdrop, htake]
    rfl
  · exact nofun

theorem readErrorLog_takes (h : Commanded .readErrorLog s a e) {pa : Nat} {nc : Bool} {fill : List TlbEntry} (hkind : pay e 0 1 = 2)
    (hunit : pay e 2 2 < 12) (hc : (s.ctxs.find (pay e 4 2)).isSome) (ha : pay e 8 8 % 16 = 0) (ha' : pay e 8 8 < 2 ^ 56)
    (ht : s.translate (pay e 4 2) hubId (pay e 8 8) = .ok pa true nc fill) (hk : paKind pa = .hbm ∨ paKind pa = .host)
    (hm : s.migs = []) (hl : s.latent.blocks1 = []) (hinv : s.Inv) :
    ∃ s', Did .readErrorLog s a s' ∧ s'.errStack.find (pay e 2 2) = none ∧ s'.groups = s.groups ∧
      wroteOnly s s' pa 8 ((s.errStack.find (pay e 2 2)).getD 0).toNat := by
  obtain ⟨n, hn⟩ : ∃ n, n = ((s.errStack.find (pay e 2 2)).getD 0).toNat := ⟨_, rfl⟩
  obtain ⟨u, hu⟩ : ∃ u : State, u = { s with errStack := s.errStack.del (pay e 2 2) } := ⟨_, rfl⟩
  have hum : u.migs = [] := hu ▸ hm
  have herr := walked_errStack hum (hu ▸ hl) fill
  obtain ⟨l, c, k, hw⟩ := walked_rest hum fill
  have hwm : (u.walked fill).migs = [] := by rw [hw]; exact hum
  have hmem : (u.walked fill).mem = s.mem := by rw [hw, hu]
  have hwi : (u.walked fill).Inv := by unfold State.Inv; rw [hmem]; exact hinv
  obtain ⟨m, g, p, l', hwrite⟩ := physWrite_idle hwm pa (leBytes n 8) none
  refine ⟨(u.walked fill).physWrite pa (leBytes n 8) none, ?_, ?_, ?_, fun b => ?_⟩
  · show execReadErrorLog s = _
    unfold execReadErrorLog
    refine command_commanded h rfl ((if_neg ?_).trans ?_)
    · have hunits : (if ((2 : Nat) == 0) = true then 384 else if ((2 : Nat) == 1) = true then 96 else 12) = 12 := rfl
      simp only [hkind, hunits, ha, Option.isNone_eq_false_iff.2 hc, bne_self_eq_false, Bool.or_false, Bool.or_eq_true, decide_eq_true_eq]
      omega
    · have hlog : s.takeLog (pay e 0 1) (pay e 2 2) = (leBytes n 8, u) := by rw [hkind, hn, hu]; rfl
      simp only [hlog, hubTargets_count ht hk ha]
      rfl
  · rw [hwrite]
    show (u.walked fill).errStack.find _ = none
    rw [herr, hu]
    exact KMap.find_del_self ..
  · rw [hwrite]
    show (u.walked fill).groups = _
    rw [hw, hu]
  · rw [byte_physWrite hwm hwi, length_leBytes, hmem, ← hn]
    split
    · exact leBytes_getD _ _ _ (by omega)
    · rfl

theorem loadAtomicPathTable_loads (h : Commanded .loadAtomicPathTable s a e) {es : List PathEntry} (ha : pay e 8 8 % 16 = 0)
    (hn : pay e 0 4 = 16 + 16 * field (s.physBytes (pay e 8 8) (pay e 0 4)) 4 4)
    (hcnt : field (s.physBytes (pay e 8 8) (pay e 0 4)) 4 4 ≤ 1023) (hp : isPhysical (pay e 8 8) (pay e 0 4) = true)
    (hid : field (s.physBytes (pay e 8 8) (pay e 0 4)) 0 2 < 1023) (hz : field (s.physBytes (pay e 8 8) (pay e 0 4)) 2 2 = 0)
    (hz' : field (s.physBytes (pay e 8 8) (pay e 0 4)) 8 8 = 0)
    (hes : (List.range (field (s.physBytes (pay e 8 8) (pay e 0 4)) 4 4)).mapM (fun i =>
      pathEntryOf (((s.physBytes (pay e 8 8) (pay e 0 4)).drop (16 + 16 * i)).take 16)) = some es) :
    Did .loadAtomicPathTable s a { s.correctPhys (pay e 8 8) (pay e 0 4) with
      pathTable := some ⟨field (s.physBytes (pay e 8 8) (pay e 0 4)) 0 2, es⟩ } := by
  rw [List.range_eq_range', ← natsFrom_eq_range'] at hes
  show execLoadAtomicPathTable s = _
  unfold execLoadAtomicPathTable
  refine command_commanded h rfl ((if_neg ?_).trans ((if_neg ?_).trans ?_))
  · simp only [ha, hp, Bool.not_true, Bool.or_false, bne_self_eq_false, Bool.false_or, Bool.or_eq_true, decide_eq_true_eq]
    omega
  · simp only [hz, hz', bne_self_eq_false, Bool.or_false, Bool.or_eq_true, decide_eq_true_eq, bne_iff_ne]
    omega
  · simp only [hes]
    rfl

theorem length_fixLen (n : Nat) (bs : List Byte) : (fixLen n bs).length = n := by
  rw [fixLen, List.length_map, length_natsFrom]

theorem fixLen_getD {n i : Nat} (h : i < n) (bs : List Byte) : (fixLen n bs).getD i 0 = bs.getD i 0 := by
  rw [fixLen, natsFrom_eq_range', List.getD_eq_getElem?_getD, List.getElem?_map, List.getElem?_range' h]
  simp

/-- The report: 332 bytes, the nonce first, the serial number behind the two digests (R369). -/
theorem attestation_fields (s : State) (nonce : List Byte) :
    (s.attestation nonce).length = 332 ∧ (∀ i < 64, (s.attestation nonce).getD i 0 = nonce.getD i 0) ∧
      field (s.attestation nonce) 192 8 = Config.serial.toNat := by
  have hdigests : (fixLen 64 nonce ++ fixLen 64 (Config.sha512 (s.slotImage s.boot.slot)) ++ fixLen 64 (Config.sha512 s.image.bytes)).length =
      192 := by
    simp only [List.length_append, length_fixLen]
  unfold State.attestation
  refine ⟨?_, fun i hi => ?_, ?_⟩
  · simp only [List.length_append, length_fixLen, length_leBytes]
  · simp only [List.append_assoc]
    rw [List.getD_append _ _ _ _ (by rw [length_fixLen]; exact hi), fixLen_getD hi]
  · rw [List.append_assoc _ (leBytes _ 8), field, List.drop_append, hdigests, List.drop_eq_nil_of_le hdigests.le, List.nil_append,
      Nat.sub_self, List.drop_zero, List.take_append_of_le_length (length_leBytes ..).ge,
      List.take_of_length_le (length_leBytes ..).le, ofLeBytes_leBytes]
    exact Nat.mod_eq_of_lt Config.serial.isLt

theorem attest_reports (h : Commanded .attest s a e) (hp : isPhysical (pay e 0 8) 64 = true) (hp' : isPhysical (pay e 8 8) 332 = true)
    (hm : s.migs = []) (hinv : s.Inv) :
    ∃ s', Did .attest s a s' ∧ s'.groups = s.groups ∧
      (∀ i < 64, Memory.byte s'.mem (pay e 8 8 + i) = Memory.byte s.mem (pay e 0 8 + i)) ∧
      Memory.num s'.mem (pay e 8 8 + 192) 8 = Config.serial.toNat ∧
      ∀ b, (b < pay e 8 8 ∨ pay e 8 8 + 332 ≤ b) → Memory.byte s'.mem b = Memory.byte s.mem b := by
  obtain ⟨hlen, hnonce, hserial⟩ := attestation_fields s (s.physBytes (pay e 0 8) 64)
  obtain ⟨row, hrow⟩ : ∃ row, row = s.attestation (s.physBytes (pay e 0 8) 64) := ⟨_, rfl⟩
  obtain ⟨l, c, k, hu⟩ := correctPhys_rest hm (pay e 0 8) 64
  have hum : (s.correctPhys (pay e 0 8) 64).migs = [] := by rw [hu]; exact hm
  have hmem : (s.correctPhys (pay e 0 8) 64).mem = s.mem := by rw [hu]
  have hui : (s.correctPhys (pay e 0 8) 64).Inv := by unfold State.Inv; rw [hmem]; exact hinv
  have hrun : execAttest s = .next (((s.correctPhys (pay e 0 8) 64).physWrite (pay e 8 8) row none).endCommand a 0) := by
    unfold execAttest
    refine command_commanded h rfl ((if_neg ?_).trans ?_)
    · rw [hp, hp']
      decide
    · rw [hrow]
      rfl
  rw [← hrow] at hlen hnonce hserial
  have hbyte := byte_physWrite hum hui (pay e 8 8) row none
  rw [hlen, hmem] at hbyte
  refine ⟨_, hrun, ?_, fun i hi => ?_, ?_, fun b hb => ?_⟩
  · rw [(memSide_physWrite ..).rest, hu]
  · rw [hbyte, if_pos (by omega), Nat.add_sub_cancel_left, hnonce i hi, physBytes_idle hm]
    exact Memory.bytes_getD _ _ _ _ hi _
  · rw [num_of_bytes (row := row) (fun b h1 h2 => by rw [hbyte, if_pos (by omega)]) (by omega), hserial]
  · rw [hbyte, if_neg (by omega)]

/-- The write of a firmware slot goes on with the image where its signature verifies, else it is refused. -/
theorem writeFirmwareSlot_ends (newer : Bool) (h : Commanded (.writeFirmwareSlot newer) s a e) (hslot : pay e 0 1 < 2)
    (hother : pay e 0 1 ≠ s.boot.slot) (hp : isPhysical (pay e 8 8) (pay e 4 4) = true) :
    let image := s.physBytes (pay e 8 8) (pay e 4 4)
    let s1 := s.correctPhys (pay e 8 8) (pay e 4 4)
    (Config.imageVerifies image = true → Did (.writeFirmwareSlot newer) s a
      { s1 with
        flash := s.flash.put (pay e 0 1) image,
        boot := { s.boot with newest := (if newer then pay e 0 1
          else (if s.boot.newest = pay e 0 1 then 1 - pay e 0 1 else s.boot.newest)) } }) ∧
    (Config.imageVerifies image = false → exec (.writeFirmwareSlot newer) s = .next (s1.endCommand a 2)) := by
  intro image s1
  have hrest := (memSide_correctPhys s (pay e 8 8) (pay e 4 4)).rest
  have hboot : s1.boot = s.boot := by
    show (s.correctPhys _ _).boot = _
    rw [hrest]
  have hflash : s1.flash = s.flash := by
    show (s.correctPhys _ _).flash = _
    rw [hrest]
  have hne : (pay e 0 1 == s1.boot.slot) = false := by
    rw [hboot]
    exact beq_false_of_ne hother
  refine ⟨fun hv => ?_, fun hv => ?_⟩
  · show execWriteFirmwareSlot newer s = _
    unfold execWriteFirmwareSlot
    refine command_commanded h rfl ((if_neg ?_).trans ?_)
    · simp only [show (s.physBytes (pay e 8 8) (pay e 4 4)) = image from rfl, hv, hp, Bool.not_true, Bool.or_false,
        show s.correctPhys (pay e 8 8) (pay e 4 4) = s1 from rfl, hne, decide_eq_true_eq]
      omega
    · rw [← hboot, ← hflash]
      simp only [beq_iff_eq]
      rfl
  · show execWriteFirmwareSlot newer s = _
    unfold execWriteFirmwareSlot
    refine command_commanded h rfl (if_pos ?_)
    rw [show (s.physBytes (pay e 8 8) (pay e 4 4)) = image from rfl, hv]
    exact Bool.or_true _

end Commands

/-- Settles O56: each command by the run of its own, with the bytes that its writes leave. -/
theorem debugAndMeasureCommands : Obligations.DebugAndMeasureCommands := by
  unfold Obligations.DebugAndMeasureCommands
  refine fun s a e => ⟨fun h c hc hi hon => codeBreakpoint_sets h hc hi hon, regionStop_sets, ?_, fun h hk hk' hq hq' hb hp => ⟨?_, ?_⟩,
    fun h c hc hon hj hj' hq hq' hb hb' => sampling_sets h hc hon hj hj' hq hq' hb hb', ?_, ?_, assignMsiXVectors_sets, attest_reports,
    fun newer h hslot hother hp => writeFirmwareSlot_ends newer h hslot hother hp⟩
  · exact fun h v k hdie hi hkinds hctl hc hg => watchpoint_sets h hdie hi hkinds hctl hc hg
  · exact timeSeries_stops h hk hk' hq hq' hb hp
  · exact fun hon => ⟨_, timeSeries_starts h hk hk' hq hq' hb hp hon, firstSample_spec ..⟩
  · exact fun h pa nc fill hkind hunit hc ha ha' ht hk hm hl hinv => readErrorLog_takes h hkind hunit hc ha ha' ht hk hm hl hinv
  · exact fun h es ha hn hcnt hp hid hz hz' hes => loadAtomicPathTable_loads h ha hn hcnt hp hid hz hz' hes

end Sys2Proof.Machine
end

section
/-! SUPPORT. Ownership, the registers of BAR0, the mailboxes and BAR2 (R358, R359, R363, R364, R369). -/

namespace Sys2Proof.Machine

open Sys2Proof

/-! ## Fields of registers (R359) -/

theorem leBytes_eq_map (v n : Nat) : leBytes v n = (natsFrom 0 n).map fun i => BitVec.ofNat 8 (v / 256 ^ i) := by
  refine List.ext_getElem (by rw [length_leBytes, List.length_map, length_natsFrom]) fun i h1 h2 => ?_
  have hi : i < n := by rwa [length_leBytes] at h1
  have hget := leBytes_getD v n i hi
  rw [← List.getElem_eq_getD (h := h1)] at hget
  rw [hget]
  simp [natsFrom_eq_range']

/-- A field of which a write gives no byte, or the bytes of its own value. -/
theorem overlay_eq {o n v off w : Nat} {bs : List Byte}
    (h : ∀ i < n, (if off ≤ o + i && o + i < off + bs.length then bs.getD (o + i - off) 0 else BitVec.ofNat 8 (v / 256 ^ i)) =
      BitVec.ofNat 8 (w / 256 ^ i)) : overlay o n v off bs = w % 256 ^ n := by
  have hmap : ((natsFrom 0 n).map fun i =>
      if off ≤ o + i && o + i < off + bs.length then bs.getD (o + i - off) 0 else BitVec.ofNat 8 (v / 256 ^ i)) = leBytes w n := by
    rw [leBytes_eq_map]
    exact List.map_congr_left fun i hi => h i (by have := (mem_natsFrom.1 hi).2; omega)
  unfold overlay
  rw [hmap, ofLeBytes_leBytes]

/-- A field beside the bytes that a write gives stands. -/
theorem overlay_miss {o n v off : Nat} {bs : List Byte} (h : o + n ≤ off ∨ off + bs.length ≤ o) : overlay o n v off bs = v % 256 ^ n := by
  refine overlay_eq fun i hi => if_neg ?_
  simp only [Bool.and_eq_true, decide_eq_true_eq]
  omega

/-- A write of a whole field. -/
theorem overlay_whole (o n v w : Nat) : overlay o n v o (leBytes w n) = w % 256 ^ n := by
  refine overlay_eq fun i hi => ?_
  rw [length_leBytes, if_pos (by simpa using hi), Nat.add_sub_cancel_left, leBytes_getD _ _ _ hi]

theorem ofNat_toNat_mod {w n : Nat} (v : BitVec w) (h : 256 ^ n = 2 ^ w) : BitVec.ofNat w (v.toNat % 256 ^ n) = v := by
  rw [h, Nat.mod_eq_of_lt v.isLt, BitVec.ofNat_toNat, BitVec.setWidth_eq]

theorem ofNat_field (v : Dword) : BitVec.ofNat 32 (v.toNat % 256 ^ 4) = v.setWidth 32 := by
  refine BitVec.eq_of_toNat_eq ?_
  simp

theorem ring_same (r : Ring) (allowed : Nat → Bool) :
    (if allowed (r.entries.toNat % 256 ^ 4) then BitVec.ofNat 32 (r.entries.toNat % 256 ^ 4) else r.entries) = r.entries := by
  rw [ofNat_toNat_mod _ (by decide), ite_self]

theorem ring_write_base (r : Ring) (allowed : Nat → Bool) (hd : Bool) (v : Dword) :
    r.write allowed hd 0 (leBytes v.toNat 8) = { r with base := v } := by
  unfold Ring.write
  simp only [overlay_whole, overlay_miss (o := 8) (off := 0) (bs := leBytes v.toNat 8) (.inr (by rw [length_leBytes])),
    overlay_miss (o := 12) (off := 0) (bs := leBytes v.toNat 8) (.inr (by rw [length_leBytes]; omega)), ring_same, ofNat_toNat_mod v (n := 8) (by decide)]
  cases hd with
  | false => simp only [Bool.false_eq_true, if_false, ofNat_toNat_mod r.tail (n := 4) (by decide)]
  | true => simp only [if_true, ofNat_toNat_mod r.head (n := 4) (by decide)]

theorem ring_write_index (r : Ring) (allowed : Nat → Bool) (hd : Bool) (v : Dword) :
    r.write allowed hd 12 (leBytes v.toNat 4) =
      if hd then { r with head := v.setWidth 32 } else { r with tail := v.setWidth 32 } := by
  unfold Ring.write
  simp only [overlay_whole, overlay_miss (o := 8) (n := 4) (off := 12) (.inl (by omega)),
    overlay_miss (o := 0) (n := 8) (off := 12) (.inl (by omega)), ring_same, ofNat_toNat_mod r.base (n := 8) (by decide), ofNat_field]
  cases hd with
  | false => rfl
  | true => rfl

theorem ring_write_entries (r : Ring) (allowed : Nat → Bool) (hd : Bool) {k : Nat} (hk : k ≤ 31) (ha : allowed (2 ^ k) = true) :
    r.write allowed hd 8 (leBytes (BitVec.ofNat 64 (2 ^ k)).toNat 4) = { r with entries := BitVec.ofNat 32 (2 ^ k) } := by
  have hlt : 2 ^ k < 2 ^ 32 := Nat.pow_lt_pow_right (by decide) (by omega)
  have hval : (BitVec.ofNat 64 (2 ^ k)).toNat % 256 ^ 4 = 2 ^ k := by
    rw [BitVec.toNat_ofNat, Nat.mod_eq_of_lt (Nat.lt_trans hlt (by decide)), Nat.mod_eq_of_lt (show 2 ^ k < 256 ^ 4 from hlt)]
  unfold Ring.write
  simp only [overlay_whole, overlay_miss (o := 0) (n := 8) (off := 8) (.inl (by omega)),
    overlay_miss (o := 12) (off := 8) (bs := leBytes (BitVec.ofNat 64 (2 ^ k)).toNat 4) (.inr (by rw [length_leBytes])), hval, ha, if_true,
    ofNat_toNat_mod r.base (n := 8) (by decide)]
  cases hd with
  | false => simp only [Bool.false_eq_true, if_false, ofNat_toNat_mod r.tail (n := 4) (by decide)]
  | true => simp only [if_true, ofNat_toNat_mod r.head (n := 4) (by decide)]

theorem isPow2_two_pow (k : Nat) : isPow2 (2 ^ k) = true := by
  unfold isPow2
  rw [Nat.log2_two_pow, beq_self_eq_true, bne_iff_ne.2 (Nat.two_pow_pos k).ne']
  rfl

/-! ## Masters (R363, R364) -/

theorem validMaster_iff (m : Nat) : validMaster m = true ↔ m = 0 ∨ m = 0x40 ∨ (0x80 ≤ m ∧ m < 0x90) := by
  simp only [validMaster, Bool.or_eq_true, Bool.and_eq_true, beq_iff_eq, decide_eq_true_eq, or_assoc]

theorem serves_iff (s : State) : s.serves = true ↔ s.boot.status ≠ 2 := bne_iff_ne

/-- A device that serves is served by its owner. -/
theorem served_iff (s : State) (m : Nat) : s.served m ↔ s.isOwner m = true ∧ s.serves = true := by
  rw [serves_iff, State.isOwner, Bool.and_eq_true, validMaster_iff, beq_iff_eq, and_assoc]
  rfl

/-- A claim is granted. -/
def State.grants (s : State) (m : Nat) (v : Word) : Prop :=
  (m = 0 ∨ m = 0x40 ∨ (0x80 ≤ m ∧ m < 0x90)) ∧ v = BitVec.ofNat 32 (0x100 + m) ∧
    (s.owner.getLsbD 8 = false ∨ (s.claimed = true ∧ v.toNat < s.owner.toNat))

section Masters

variable {s : State} {master : BitVec 8}

theorem ownerClaim_granted (hb : s.boot.status ≠ 2) (v : Word) (h : s.grants master.toNat v) :
    exec (.ownerClaim master v) s = .next { s with owner := v, claimed := true } := by
  obtain ⟨hm, hv, hfree⟩ := h
  show execOwnerClaim master v s = _
  unfold execOwnerClaim State.claim
  rw [if_pos]
  simp only [(serves_iff s).2 hb, (validMaster_iff _).2 hm, hv, beq_self_eq_true, Bool.and_true, Bool.true_and, Bool.or_eq_true,
    Bool.not_eq_true', Bool.and_eq_true, decide_eq_true_eq]
  rwa [hv] at hfree

theorem ownerClaim_denied (v : Word) (h : ¬ s.grants master.toNat v) : exec (.ownerClaim master v) s = .next s := by
  show execOwnerClaim master v s = _
  unfold execOwnerClaim State.claim
  rw [if_neg]
  simp only [Bool.and_eq_true, Bool.or_eq_true, Bool.not_eq_true', decide_eq_true_eq, beq_iff_eq]
  rintro ⟨⟨⟨-, hm⟩, hv⟩, hfree⟩
  exact h ⟨(validMaster_iff _).1 hm, hv, hfree⟩

theorem ownerHandover_moves (h : s.served master.toNat) (v : Word) (hv : v.toNat / 256 = 2) :
    exec (.ownerHandover master v) s = .next { s with owner := BitVec.ofNat 32 (v.toNat % 256 + 256), claimed := false } := by
  obtain ⟨ho, hs⟩ := (served_iff ..).1 h
  have hid : 0x100 ||| (v &&& 0xFF) = BitVec.ofNat 32 (v.toNat % 256 + 256) := by
    refine BitVec.eq_of_toNat_eq ?_
    rw [BitVec.toNat_or, BitVec.toNat_and, BitVec.toNat_ofNat, show (256 : Word).toNat = 2 ^ 8 * 1 from rfl,
      show (255 : Word).toNat = 2 ^ 8 - 1 from rfl, Nat.and_two_pow_sub_one_eq_mod, ← Nat.two_pow_add_eq_or_of_lt (Nat.mod_lt _ (by decide))]
    omega
  show execOwnerHandover master v s = _
  unfold execOwnerHandover State.handover
  rw [ho, hs, hv, if_pos (by decide), hid]

theorem ownerRelease_frees (h : s.served master.toNat) : exec (.ownerRelease master) s = .next { s with owner := 0, claimed := false } := by
  obtain ⟨ho, hs⟩ := (served_iff ..).1 h
  show execOwnerRelease master s = _
  unfold execOwnerRelease State.disown
  rw [ho, hs]
  rfl

/-- A register write of a device that serves. -/
theorem registerWrite_writes (hb : s.boot.status ≠ 2) {off n : Nat} (h1 : 1 ≤ n) (h2 : n ≤ 8) (v : Dword) :
    exec (.registerWrite master off n v) s = .next (s.writeRegister master.toNat off (leBytes v.toNat n)) := by
  show execRegisterWrite master off n v s = _
  unfold execRegisterWrite
  rw [if_pos]
  simp only [(serves_iff s).2 hb, h1, h2, decide_true, Bool.and_self]

/-- The owner's write to the registers of the command ring. -/
theorem registerWrite_cmdRing (h : s.served master.toNat) {off n : Nat} (h1 : 1 ≤ n) (h2 : n ≤ 8) (ho : off + n ≤ 0x20) (v : Dword) :
    exec (.registerWrite master (0x5000 + off) n v) s =
      .next { s with cmdRing := s.cmdRing.write isPow2 false off (leBytes v.toNat n) } := by
  rw [registerWrite_writes h.2.2 h1 h2]
  unfold State.writeRegister
  simp only [length_leBytes]
  rw [if_neg (by simp; omega), if_pos (by simp; omega), if_pos ((served_iff ..).1 h).1, Nat.add_sub_cancel_left]

/-- The owner's write to the registers of the fault queue. -/
theorem registerWrite_faultQ (h : s.served master.toNat) {off n : Nat} (h1 : 1 ≤ n) (h2 : n ≤ 8) (ho : off + n ≤ 0x20) (v : Dword) :
    exec (.registerWrite master (0x4000 + off) n v) s =
      .next { s with faultQ := s.faultQ.write (fun e => isPow2 e && 64 ≤ e && e ≤ 2 ^ 20) true off (leBytes v.toNat n) } := by
  rw [registerWrite_writes h.2.2 h1 h2]
  unfold State.writeRegister
  simp only [length_leBytes]
  rw [if_pos (by simp; omega), if_pos ((served_iff ..).1 h).1, Nat.add_sub_cancel_left]

theorem owner_registers (h : s.served master.toNat) :
    (∀ v : Dword, exec (.registerWrite master 0x5000 8 v) s = .next { s with cmdRing := { s.cmdRing with base := v } } ∧
      exec (.registerWrite master 0x500C 4 v) s = .next { s with cmdRing := { s.cmdRing with tail := v.setWidth 32 } } ∧
      exec (.registerWrite master 0x4000 8 v) s = .next { s with faultQ := { s.faultQ with base := v } } ∧
      exec (.registerWrite master 0x400C 4 v) s = .next { s with faultQ := { s.faultQ with head := v.setWidth 32 } }) ∧
    (∀ k, k ≤ 31 → exec (.registerWrite master 0x5008 4 (BitVec.ofNat 64 (2 ^ k))) s =
      .next { s with cmdRing := { s.cmdRing with entries := BitVec.ofNat 32 (2 ^ k) } }) ∧
    ∀ k, 6 ≤ k → k ≤ 20 → exec (.registerWrite master 0x4008 4 (BitVec.ofNat 64 (2 ^ k))) s =
      .next { s with faultQ := { s.faultQ with entries := BitVec.ofNat 32 (2 ^ k) } } := by
  refine ⟨fun v => ⟨?_, ?_, ?_, ?_⟩, fun k hk => ?_, fun k hk hk' => ?_⟩
  · rw [registerWrite_cmdRing (off := 0) h (by decide) (by decide) (by decide), ring_write_base]
  · rw [registerWrite_cmdRing (off := 12) h (by decide) (by decide) (by decide), ring_write_index]
    rfl
  · rw [registerWrite_faultQ (off := 0) h (by decide) (by decide) (by decide), ring_write_base]
  · rw [registerWrite_faultQ (off := 12) h (by decide) (by decide) (by decide), ring_write_index]
    rfl
  · rw [registerWrite_cmdRing (off := 8) h (by decide) (by decide) (by decide), ring_write_entries _ _ _ hk (isPow2_two_pow k)]
  · have hlo : 2 ^ 6 ≤ 2 ^ k := Nat.pow_le_pow_right (by decide) hk
    have hhi : 2 ^ k ≤ 2 ^ 20 := Nat.pow_le_pow_right (by decide) hk'
    rw [registerWrite_faultQ (off := 8) h (by decide) (by decide) (by decide), ring_write_entries _ _ _ (by omega)]
    simp only [isPow2_two_pow, Bool.true_and, Bool.and_eq_true, decide_eq_true_eq]
    exact ⟨hlo, hhi⟩

/-- A master that is not the owner changes neither the owner nor the rings, and resets nothing. -/
theorem stranger_changes_nothing (hb : s.boot.status ≠ 2) (h : ¬ s.served master.toNat) (v : Word) :
    exec (.ownerHandover master v) s = .next s ∧ exec (.ownerRelease master) s = .next s ∧
      exec (.coldReset master) s = .next s ∧ exec (.warmReset master) s = .next s ∧
      ∀ off n x, 0x4000 ≤ off → off + n ≤ 0x4020 → exec (.registerWrite master off n x) s = .next s ∧
        exec (.registerWrite master (off + 0x1000) n x) s = .next s := by
  have ho : s.isOwner master.toNat = false := by
    rw [served_iff, not_and] at h
    exact Bool.eq_false_iff.2 fun hx => h hx ((serves_iff s).2 hb)
  refine ⟨?_, ?_, ?_, ?_, fun off n x h1 h2 => ?_⟩
  · show execOwnerHandover master v s = _
    unfold execOwnerHandover State.handover
    rw [ho, Bool.and_false]
    rfl
  · show execOwnerRelease master s = _
    unfold execOwnerRelease State.disown
    rw [ho, Bool.and_false]
    rfl
  · show execColdReset master s = _
    unfold execColdReset
    rw [ho]
    rfl
  · show execWarmReset master s = _
    unfold execWarmReset
    rw [ho]
    rfl
  · by_cases hn : 1 ≤ n ∧ n ≤ 8
    · rw [registerWrite_writes hb hn.1 hn.2, registerWrite_writes hb hn.1 hn.2]
      unfold State.writeRegister
      simp only [length_leBytes, ho, Bool.false_eq_true, if_false]
      constructor
      · rw [if_pos (by simp; omega)]
      · rw [if_neg (by simp; omega), if_pos (by simp; omega)]
    · have hx : ∀ o, execRegisterWrite master o n x s = .next s := fun o => by
        unfold execRegisterWrite
        rw [if_neg]
        simp only [Bool.and_eq_true, decide_eq_true_eq]
        omega
      exact ⟨hx _, hx _⟩

/-- A function moves the tail of its own queue. -/
theorem registerWrite_queue (hb : s.boot.status ≠ 2) (hm : master.toNat < 32) {q c : Nat} (v : Dword) (hq : q < 48)
    (hbound : (s.hostQueue q).bound = some (c, master.toNat)) :
    exec (.registerWrite master (0x10000 + 0x1000 * q + 0xC) 4 v) s =
      .next (s.setHostQueue q { s.hostQueue q with ring := { (s.hostQueue q).ring with tail := v.setWidth 32 } }) := by
  have hq1 : (0x10000 + 0x1000 * q + 0xC - 0x10000) / 0x1000 = q := by omega
  have hq2 : (0x10000 + 0x1000 * q + 0xC - 0x10000) % 0x1000 = 12 := by omega
  rw [registerWrite_writes hb (by decide) (by decide)]
  unfold State.writeRegister
  simp only [length_leBytes, hq1, hq2]
  rw [if_neg (by simp; omega), if_neg (by simp; omega), if_neg (by simp; omega), if_pos (by simp; omega), if_pos, ring_write_index]
  · rfl
  · rw [hbound]
    simp [hm]

/-- A function writes an event counter of its own. -/
theorem registerWrite_event (hb : s.boot.status ≠ 2) (hm : master.toNat < 32) {i : Nat} (v : Dword) (hi : i < 4096)
    (hown : s.ownsEvent master.toNat i = true) :
    exec (.registerWrite master (0x100000 + 8 * i) 8 v) s = .next (s.setEvent i v) := by
  have hi1 : (0x100000 + 8 * i - 0x100000) / 8 = i := by omega
  have hi2 : (0x100000 + 8 * i - 0x100000) % 8 = 0 := by omega
  rw [registerWrite_writes hb (by decide) (by decide)]
  unfold State.writeRegister
  simp only [length_leBytes, hi1, hi2, hown, overlay_whole]
  rw [if_neg (by simp; omega), if_neg (by simp; omega), if_neg (by simp; omega), if_neg (by simp; omega), if_pos (by simp; omega),
    if_pos (by simp [hm]), ofNat_toNat_mod v (by decide)]

/-! ## Mailboxes (R369) -/

theorem mailbox_setMailbox (s : State) (m : Nat) (x : Mailbox) : (s.setMailbox m x).mailbox m = x := by
  unfold State.mailbox State.setMailbox
  rw [KMap.find_put_self]
  rfl

theorem attestMailboxRequest_asks (hb : s.boot.status ≠ 2) (h : hasMailbox master.toNat = true) :
    ∃ t x, exec (.attestMailboxRequest master) s = .next t ∧ t = { s with mailboxes := t.mailboxes } ∧
      t.mailbox master.toNat = x ∧
      (x.control, x.status, x.nonce, x.report) = (1, 1, (s.mailbox master.toNat).nonce, (s.mailbox master.toNat).report) := by
  refine ⟨s.requestReport master.toNat, _, ?_, rfl, mailbox_setMailbox .., rfl⟩
  show execAttestMailboxRequest master s = _
  unfold execAttestMailboxRequest
  rw [h, (serves_iff s).2 hb]
  rfl

theorem attestReportDone_reports (h : (s.mailbox master.toNat).status = 1) :
    ∃ t, exec (.attestReportDone master) s = .next t ∧ t = { s with mailboxes := t.mailboxes } ∧
      (t.mailbox master.toNat).status = 2 ∧ (t.mailbox master.toNat).nonce = (s.mailbox master.toNat).nonce ∧
      (t.mailbox master.toNat).report.length = 332 ∧
      ∀ i < 64, (t.mailbox master.toNat).report.getD i 0 = (s.mailbox master.toNat).nonce.getD i 0 := by
  obtain ⟨hlen, hnonce, -⟩ := attestation_fields s (s.mailbox master.toNat).nonce
  refine ⟨s.setMailbox master.toNat { s.mailbox master.toNat with
    status := 2, report := s.attestation (s.mailbox master.toNat).nonce }, ?_, rfl, ?_⟩
  · show execAttestReportDone master s = _
    unfold execAttestReportDone
    simp only [h]
    rfl
  · rw [mailbox_setMailbox]
    exact ⟨rfl, rfl, hlen, hnonce⟩

end Masters

/-! ## BAR2 (R358) -/

theorem part_foldl_setGran {α : Type} (p : Gran → α) (f : State → Nat → Gran) (hf : ∀ s i, p (f s i) = p (s.granAt i)) (is : List Nat)
    (s : State) (j : Nat) : p ((is.foldl (fun s i => s.setGran i (f s i)) s).granAt j) = p (s.granAt j) := by
  induction is generalizing s with
  | nil => rfl
  | cons i is ih =>
    rw [List.foldl_cons, ih, granAt_setGran]
    split
    · next h => rw [hf, h]
    · rfl

theorem rel_write (s : State) (a : Nat) (bs : List Byte) (j : Nat) : ((s.write a bs).granAt j).rel = (s.granAt j).rel := by
  unfold State.write
  simp only
  split
  · rfl
  · unfold State.stampBytes
    rw [part_foldl_setGran (·.rel) (fun s g => (s.granAt g).stamp s.seq (bytesIn g a bs.length)) fun _ _ => rfl]
    rfl

/-- A granule that the device has released at a scope stays so under its next release there. -/
theorem writePart_released {s : State} (h : s.migs = []) (pa : Nat) (bs : List Byte) (c : Nat) (x : Nat × Nat) {b : Nat}
    (hb : (x.1 ≤ b ∧ b < x.1 + x.2 ∧ x.1 + x.2 ≤ pa + bs.length ∧ pa ≤ x.1) ∨ (s.granAt (b / 16)).rel = some (.hub, c)) :
    ((s.writePart pa bs (some c) x).granAt (b / 16)).rel = some (.hub, c) := by
  unfold State.writePart State.writeHome
  simp only [home_idle h]
  refine rel_foldl_setGran (fun s g => { (s.granAt g) with rel := some (.hub, c), owner := Releaser.hub.owns c (s.granAt g).owner })
    (some (.hub, c)) (fun _ _ => rfl) _ _ ?_
  rcases hb with ⟨h1, h2, h3, h4⟩ | hb
  · refine .inl (mem_natsFrom.2 ?_)
    rw [List.length_take, List.length_drop, Nat.min_eq_left (by omega)]
    omega
  · exact .inr ((rel_write ..).trans hb)

/-- Every granule of a write of the device at a scope carries its release. -/
theorem physWrite_released {s : State} (h : s.migs = []) (pa : Nat) (bs : List Byte) (c : Nat) {b : Nat} (h1 : pa ≤ b)
    (h2 : b < pa + bs.length) : ((s.physWrite pa bs (some c)).granAt (b / 16)).rel = some (.hub, c) := by
  suffices hall : ∀ (xs : List (Nat × Nat)) (s : State), s.migs = [] → (∀ x ∈ xs, pa ≤ x.1 ∧ x.1 + x.2 ≤ pa + bs.length) →
      ((∃ x ∈ xs, x.1 ≤ b ∧ b < x.1 + x.2) ∨ (s.granAt (b / 16)).rel = some (.hub, c)) →
      ((xs.foldl (fun s x => s.writePart pa bs (some c) x) s).granAt (b / 16)).rel = some (.hub, c) by
    rw [physWrite_eq]
    exact hall _ _ h (fun _ => mem_lineParts) (.inl (lineParts_cover h1 h2))
  intro xs
  induction xs with
  | nil => exact fun s _ _ hb => hb.resolve_left (by simp)
  | cons x xs ih =>
    intro s h hin hb
    obtain ⟨g, p, l, hw⟩ := writePart_idle h pa bs (some c) x
    refine ih (s.writePart pa bs (some c) x) (by rw [hw]; exact h) (fun y hy => hin y (List.mem_cons_of_mem _ hy)) ?_
    obtain ⟨hlo, hhi⟩ := hin x List.mem_cons_self
    rcases hb with ⟨y, hy, hy1, hy2⟩ | hb
    · rcases List.mem_cons.1 hy with rfl | hy
      · exact .inr (writePart_released h pa bs c y (.inl ⟨hy1, hy2, hhi, hlo⟩))
      · exact .inl ⟨y, hy, hy1, hy2⟩
    · exact .inr (writePart_released h pa bs c x (.inr hb))

theorem bar2Write_writes {s : State} {master : BitVec 8} (hm : master.toNat = 0) (ho : s.served master.toNat) {off : Nat} {bs : List Byte}
    (hne : bs ≠ []) (hoff : off + bs.length ≤ 0x00C000000000) (h : s.migs = []) (hinv : s.Inv) :
    ∃ t, exec (.bar2Write master off bs) s = .next t ∧ t.groups = s.groups ∧
      (∀ b, Memory.byte t.mem b = if off ≤ b ∧ b < off + bs.length then bs.getD (b - off) 0 else Memory.byte s.mem b) ∧
      ∀ b, off ≤ b → b < off + bs.length → (t.granAt (b / 16)).rel = some (.hub, 5) := by
  obtain ⟨ho, hs⟩ := (served_iff ..).1 ho
  refine ⟨s.physWrite off bs (some 5), ?_, ?_, byte_physWrite h hinv off bs (some 5), fun b => physWrite_released h off bs 5⟩
  · have hempty : bs.isEmpty = false := List.isEmpty_eq_false_iff.2 hne
    show execBar2Write master off bs s = _
    unfold execBar2Write
    rw [hm] at ho
    simp only [List.take_of_length_le (show bs.length ≤ 0x00C000000000 - off by omega), hempty, hs, ho,
      show master = 0 from BitVec.eq_of_toNat_eq hm]
    rfl
  · rw [(memSide_physWrite ..).rest]

theorem bar2Write_drops {s : State} {master : BitVec 8} (ho : ¬ (master.toNat = 0 ∧ s.served master.toNat)) (off : Nat) (bs : List Byte) :
    exec (.bar2Write master off bs) s = .next s := by
  show execBar2Write master off bs s = _
  unfold execBar2Write
  refine if_neg ?_
  simp only [Bool.and_eq_true, beq_iff_eq]
  rintro ⟨⟨⟨hm, hown⟩, hs⟩, -⟩
  refine ho ⟨by rw [hm]; rfl, (served_iff ..).2 ⟨?_, hs⟩⟩
  rw [hm]
  exact hown

/-- The correction of what a read of HBM finds (R287). -/
theorem correctHome_hbm (s : State) {a : Nat} (h : a < 2 ^ 52) (n : Nat) :
    ∃ l k, s.correctHome a n = { s with latent := l, errStack := k } := by
  unfold State.correctHome
  rw [if_neg (by unfold isVaultKey; simpa using h)]
  split
  · exact ⟨_, _, rfl⟩
  · exact ⟨_, _, rfl⟩

/-- A read of the host gives the bytes that stand in HBM, where no error and no selection job hides them. -/
theorem hostBytes_reads (n : Nat) {a : Nat} {s : State} (ha : a + n ≤ 0x00C000000000) (hm : s.migs = []) (hp : s.poison = [])
    (ho : s.unowned noGroup 0 a n) :
    ∃ l k, s.hostBytes a n = ({ s with latent := l, errStack := k }, Memory.bytes s.mem a n) := by
  induction n generalizing a s with
  | zero => exact ⟨_, _, rfl⟩
  | succ n ih =>
    have hvault : isVaultKey a = false := by
      unfold isVaultKey
      exact decide_eq_false (by omega)
    have hclean : s.poisoned a 1 = false := by
      unfold State.poisoned
      rw [hvault, hp]
      rfl
    have hown : s.ownedByte noGroup 0 a = false := ho 0 (Nat.succ_pos n)
    obtain ⟨l, k, hc⟩ := correctHome_hbm s (a := a) (by omega) 1
    obtain ⟨l', k', ht⟩ := ih (a := a + 1) (s := s.correctHome a 1) (by omega) (by rw [hc]; exact hm) (by rw [hc]; exact hp) fun j hj => by
      have := ho (j + 1) (Nat.succ_lt_succ hj)
      rw [hc, show a + 1 + j = a + (j + 1) by omega]
      exact this
    refine ⟨l', k', ?_⟩
    rw [State.hostBytes, if_neg (by omega)]
    simp only [home_idle hm, hclean, hown, Bool.or_self, Bool.false_eq_true, if_false, ht]
    rw [hc]
    rfl

theorem bar2Read_reads {s : State} {master : BitVec 8} (hb : s.boot.status ≠ 2) (hm : master.toNat = 0) {off n : Nat}
    (hoff : off + n ≤ 0x00C000000000) (h : s.migs = []) (hp : s.poison = []) (ho : s.unowned noGroup 0 off n) :
    ∃ t, exec (.bar2Read master off n) s = .next t ∧
      t = { s with hostRead := Memory.bytes s.mem off n, free := s.free + 1, latent := t.latent, errStack := t.errStack } := by
  obtain ⟨l, k, hread⟩ := hostBytes_reads n hoff h hp ho
  refine ⟨{ s with hostRead := Memory.bytes s.mem off n, free := s.free + 1, latent := l, errStack := k }, ?_, rfl⟩
  show execBar2Read master off n s = _
  unfold execBar2Read
  simp only [(serves_iff s).2 hb, show master = 0 from BitVec.eq_of_toNat_eq hm, hread]
  rfl

theorem bar2Read_zeros {s : State} {master : BitVec 8} (hb : s.boot.status ≠ 2) (h1 : 1 ≤ master.toNat) (h2 : master.toNat < 32)
    (off n : Nat) : exec (.bar2Read master off n) s = .next { s with hostRead := List.replicate n 0 } := by
  have hne : (master == 0) = false := beq_false_of_ne fun h => by
    rw [h] at h1
    exact absurd h1 (by decide)
  have hvf : isVf master.toNat = true := by
    unfold isVf
    simp [h1, h2]
  show execBar2Read master off n s = _
  unfold execBar2Read
  rw [(serves_iff s).2 hb, hne, hvf]
  rfl

/-- Settles O57: the owner's events by what the device grants, the registers by the fields that a write gives, BAR2 by the
write and the read of the device. -/
theorem mastersAndRegisters : Obligations.MastersAndRegisters := by
  unfold Obligations.MastersAndRegisters
  intro s master hb m
  refine ⟨fun v => ?_, fun h => ⟨ownerHandover_moves h, ownerRelease_frees h, owner_registers h⟩,
    fun h v _ => stranger_changes_nothing hb h v, fun hm q c v hq hbound => registerWrite_queue hb hm v hq hbound,
    fun hm i v hi hown => registerWrite_event hb hm v hi hown, attestMailboxRequest_asks hb, attestReportDone_reports,
    fun off bs hne hoff h hinv => ⟨fun hm ho => bar2Write_writes hm ho hne hoff h hinv, fun ho => bar2Write_drops ho off bs⟩,
    fun off n hoff h hp ho => ⟨fun hm => bar2Read_reads hb hm hoff h hp ho, fun h1 h2 => bar2Read_zeros hb h1 h2 off n⟩⟩
  split
  · next h => exact ownerClaim_granted hb v h
  · next h => exact ownerClaim_denied v h

end Sys2Proof.Machine
end

section
/-! SUPPORT. Starts and resets of the package, power and temperature (R331, R365 to R368, R370). -/

namespace Sys2Proof.Machine

open Sys2Proof

/-! ## Cells of memory that stay -/

/-- Memory keeps some addresses only. -/
theorem byte_filter {m : Memory} (hm : Memory.wf m = true) (q : Nat → Bool) (a : Nat) :
    Memory.byte (m.filter fun c => q c.1) a = if q a then Memory.byte m a else 0 := by
  suffices hall : ∀ (m : Memory) (lo : Nat), Memory.wfFrom lo m = true →
      Memory.byte (m.filter fun c => q c.1) a = if q a then Memory.byte m a else 0 from hall m 0 hm
  intro m
  induction m with
  | nil => exact fun _ _ => (ite_self _).symm
  | cons c m ih =>
    intro lo hm
    obtain ⟨b, v⟩ := c
    simp only [Memory.wfFrom, Bool.and_eq_true, decide_eq_true_eq] at hm
    obtain ⟨-, hm⟩ := hm
    have hbelow {x : Nat} (hx : x < b + 1) : Memory.byte m x = 0 := Memory.byte_below hm hx
    cases hb : q b with
    | false =>
      rw [List.filter_cons_of_neg (by simp [hb]), ih _ hm]
      by_cases ha : q a = true
      · have hne : b ≠ a := by rintro rfl; rw [hb] at ha; cases ha
        rw [if_pos ha, if_pos ha, Memory.byte, if_neg hne]
        split
        · exact hbelow (by omega)
        · rfl
      · rw [if_neg ha, if_neg ha]
    | true =>
      rw [List.filter_cons_of_pos (by simp [hb]), Memory.byte, Memory.byte, ih _ hm]
      by_cases hne : b = a
      · rw [if_pos hne, if_pos hne, if_pos (hne ▸ hb)]
      · rw [if_neg hne, if_neg hne]
        split
        · exact (ite_self _).symm
        · rfl

theorem byte_hostCells {m : Memory} (hm : Memory.wf m = true) (a : Nat) :
    Memory.byte (hostCells m) a = if 2 ^ 51 ≤ a ∧ a < 2 ^ 52 then Memory.byte m a else 0 := by
  have h := byte_filter hm (fun a => decide (2 ^ 51 ≤ a) && decide (a < 2 ^ 52)) a
  simp only [Bool.and_eq_true, decide_eq_true_eq] at h
  exact h

/-- The cells of HBM stand before those of the host. -/
theorem hbmCells_hostCells {m : Memory} (hm : Memory.wf m = true) :
    hbmCells m ++ hostCells m =
      m.filter fun c => decide (c.1 < 0x00C000000000) || (decide (2 ^ 51 ≤ c.1) && decide (c.1 < 2 ^ 52)) := by
  suffices hall : ∀ (m : Memory) (lo : Nat), Memory.wfFrom lo m = true →
      hbmCells m ++ hostCells m =
        (m.filter fun c => decide (c.1 < 0x00C000000000) || (decide (2 ^ 51 ≤ c.1) && decide (c.1 < 2 ^ 52))) ∧
      (0x00C000000000 ≤ lo → hbmCells m = []) from (hall m 0 hm).1
  intro m
  induction m with
  | nil => exact fun _ _ => ⟨rfl, fun _ => rfl⟩
  | cons c m ih =>
    intro lo hm
    obtain ⟨b, v⟩ := c
    simp only [Memory.wfFrom, Bool.and_eq_true, decide_eq_true_eq] at hm
    obtain ⟨⟨hlo, -⟩, hm⟩ := hm
    obtain ⟨hall, hnone⟩ := ih _ hm
    by_cases hb : b < 0x00C000000000
    · have hhost : ¬ (2 ^ 51 ≤ b ∧ b < 2 ^ 52) := by omega
      refine ⟨?_, fun h => by omega⟩
      unfold hbmCells hostCells at *
      rw [List.filter_cons_of_pos (by simpa using hb), List.filter_cons_of_neg (by simpa using hhost),
        List.filter_cons_of_pos (by simp [hb]), List.cons_append, hall]
    · have hh := hnone (by omega)
      unfold hbmCells hostCells at *
      rw [List.filter_cons_of_neg (by simpa using hb), hh]
      rw [hh] at hall
      refine ⟨?_, fun _ => rfl⟩
      rw [List.nil_append] at hall ⊢
      by_cases hhost : 2 ^ 51 ≤ b ∧ b < 2 ^ 52
      · rw [List.filter_cons_of_pos (by simpa using hhost), List.filter_cons_of_pos (by simpa using .inr hhost), hall]
      · rw [List.filter_cons_of_neg (by simpa using hhost), List.filter_cons_of_neg (by simp [hb]; simpa using hhost), hall]

theorem byte_warm {m : Memory} (hm : Memory.wf m = true) (a : Nat) :
    Memory.byte (hbmCells m ++ hostCells m) a =
      if a < 0x00C000000000 ∨ (2 ^ 51 ≤ a ∧ a < 2 ^ 52) then Memory.byte m a else 0 := by
  rw [hbmCells_hostCells hm]
  have h := byte_filter hm (fun a => decide (a < 0x00C000000000) || (decide (2 ^ 51 ≤ a) && decide (a < 2 ^ 52))) a
  simp only [Bool.or_eq_true, Bool.and_eq_true, decide_eq_true_eq] at h
  exact h

/-- The two pools are cleared. -/
theorem byte_clear_clear {m : Memory} (hm : Memory.wf m = true) (a n b k i : Nat) :
    Memory.byte (Memory.clear (Memory.clear m a n) b k) i =
      if (a ≤ i ∧ i < a + n) ∨ (b ≤ i ∧ i < b + k) then 0 else Memory.byte m i := by
  have hclear {m : Memory} (hm : Memory.wf m = true) (a n : Nat) :
      Memory.byte (Memory.clear m a n) i = if a ≤ i ∧ i < a + n then 0 else Memory.byte m i := by
    have h := byte_filter hm (fun i => !(decide (a ≤ i) && decide (i < a + n))) i
    unfold Memory.clear
    rw [h]
    by_cases hi : a ≤ i ∧ i < a + n
    · rw [if_pos hi, if_neg (by simpa using hi)]
    · rw [if_neg hi, if_pos (by simp only [Bool.not_eq_true', Bool.and_eq_false_iff, decide_eq_false_iff_not]; omega)]
  rw [hclear (Memory.wf_clear hm a n), hclear hm]
  by_cases h2 : b ≤ i ∧ i < b + k
  · rw [if_pos h2, if_pos (.inr h2)]
  · rw [if_neg h2]
    exact if_congr (by simp [h2]) rfl rfl

/-! ## Resets (R367, R370) -/

theorem restart_restarted (s : State) (cells : List Host.Cell) (poison soft : List Nat) (step : BitVec 8) (warm : Bool) :
    s.restarted (s.restart cells poison soft step warm) step warm := rfl

theorem coldReset_keeps {s : State} (h : s.Inv) (step : BitVec 8) :
    s.restarted (s.coldReset step) step false ∧ s.onlyHostMemory (s.coldReset step) :=
  ⟨restart_restarted .., rfl, rfl, byte_hostCells h⟩

theorem exec_coldReset {s : State} {master : BitVec 8} (h : s.served master.toNat) : exec (.coldReset master) s = .next (s.coldReset 0) := by
  obtain ⟨ho, hs⟩ := (served_iff ..).1 h
  show execColdReset master s = _
  unfold execColdReset
  rw [ho, hs]
  rfl

theorem exec_warmReset {s : State} {master : BitVec 8} (h : s.served master.toNat) : exec (.warmReset master) s = .next s.warmReset := by
  obtain ⟨ho, hs⟩ := (served_iff ..).1 h
  show execWarmReset master s = _
  unfold execWarmReset
  rw [ho, hs]
  rfl

theorem powerLoss_erases {s : State} (h : s.Inv) :
    ∃ t, exec .powerLoss s = .next t ∧ s.onlyHostMemory t ∧ (t.boot.status, t.owner) = (0, 0) ∧
      (t.groups, t.ctxs, t.launches, t.portsDown) = ([], [], [], []) :=
  ⟨{ (s.restart (hostCells s.mem) [] [] 0 false) with image := State.reset.image, portsDown := [] }, rfl, ⟨rfl, rfl, byte_hostCells h⟩,
    rfl, rfl⟩

theorem coldPlate_resets {s : State} (hc : s.clockMHz ≤ 600) : exec .coldPlateOverLimit s = .next (s.coldReset 0xFE) := by
  show execColdPlateOverLimit s = _
  unfold execColdPlateOverLimit
  rw [if_pos hc]

theorem coldPlate_slows {s : State} (hc : 600 < s.clockMHz) :
    ∃ mhz, exec .coldPlateOverLimit s = .next { s with clockMHz := mhz, free := s.free + 1 } ∧ 600 ≤ mhz ∧ mhz < s.clockMHz := by
  have hlt := Nat.mod_lt (freeVal s.free 15 0 0).toNat (show 0 < s.clockMHz - 600 by omega)
  refine ⟨600 + (freeVal s.free 15 0 0).toNat % (s.clockMHz - 600), ?_, by omega, by omega⟩
  show execColdPlateOverLimit s = _
  unfold execColdPlateOverLimit
  rw [if_neg (by omega)]

/-! ## Starts (R331, R365, R366) -/

/-- The configuration image verifies and its pools keep their limits. -/
def poolsHold (x : Image) : Prop :=
  Config.imageVerifies x.bytes = true ∧ x.saveBase % 2 ^ 30 = 0 ∧ x.saveSize % 2 ^ 30 = 0 ∧
    2 ^ 30 ≤ x.saveSize ∧ x.saveSize ≤ 64 * 2 ^ 30 ∧ x.saveBase + x.saveSize ≤ 0x00C000000000 ∧
    (x.saveBase + x.saveSize ≤ x.poolBase ∨ x.poolBase + x.poolSize ≤ x.saveBase)

theorem poolsHold_iff (x : Image) : poolsHold x ↔ Config.imageVerifies x.bytes = true ∧ imageOk x = true := by
  unfold poolsHold imageOk inHbm rangesMeet
  simp only [Bool.and_eq_true, beq_iff_eq, decide_eq_true_eq, Bool.not_eq_true', Bool.and_eq_false_iff, decide_eq_false_iff_not]
  constructor
  · rintro ⟨h1, h2, h3, h4, h5, h6, h7⟩
    exact ⟨h1, ⟨⟨⟨⟨h2, h3⟩, h4⟩, h5⟩, h6⟩, by omega⟩
  · rintro ⟨h1, ⟨⟨⟨⟨h2, h3⟩, h4⟩, h5⟩, h6⟩, h7⟩
    exact ⟨h1, h2, h3, h4, h5, h6, by omega⟩

theorem runsStep_iff (warm retained : Bool) (f : BitVec 8) :
    runsStep warm retained f = true ↔
      f = 4 ∨ f = 7 ∨ f = 8 ∨ (f = 3 ∧ warm = true) ∨ ((f = 5 ∨ f = 6) ∧ ¬ (warm = true ∧ retained = true)) := by
  simp only [runsStep, Bool.or_eq_true, Bool.and_eq_true, beq_iff_eq, Bool.not_eq_true', Bool.and_eq_false_iff, or_assoc,
    Bool.not_eq_true, not_and_or]

theorem runsStep_cold (f : BitVec 8) : runsStep false false f = true ↔ 4 ≤ f ∧ f ≤ 8 := by
  revert f
  decide

/-- A start that no step fails. -/
theorem failAt_none {fw : List Byte} {x : Image} {warm retained : Bool} {f : Option (BitVec 8)} (hv : Config.imageVerifies fw = true)
    (hr : poolsHold x) (hf : ∀ k, f = some k → ¬ runsStep warm retained k = true) : failAt fw x warm retained f = none := by
  obtain ⟨h1, h2⟩ := (poolsHold_iff x).1 hr
  unfold failAt
  rw [hv, h1, h2]
  cases f with
  | none => rfl
  | some k => simp [hf k rfl]

/-- A start fails at step `k`: of the firmware image, of the configuration image, or past both. -/
def failsAt (fw : List Byte) (x : Image) (warm retained : Bool) (f : Option (BitVec 8)) (k : BitVec 8) : Prop :=
  (¬ Config.imageVerifies fw = true ∧ k = 1) ∨ (Config.imageVerifies fw = true ∧ ¬ poolsHold x ∧ k = 2) ∨
    (Config.imageVerifies fw = true ∧ poolsHold x ∧ f = some k ∧ runsStep warm retained k = true)

theorem failAt_some {fw : List Byte} {x : Image} {warm retained : Bool} {f : Option (BitVec 8)} {k : BitVec 8}
    (h : failsAt fw x warm retained f k) : failAt fw x warm retained f = some k := by
  unfold failAt
  rcases h with ⟨hv, rfl⟩ | ⟨hv, hr, rfl⟩ | ⟨hv, hr, rfl, hk⟩
  · rw [Bool.eq_false_iff.2 hv]
    rfl
  · rw [poolsHold_iff, not_and] at hr
    have hbad : (!Config.imageVerifies x.bytes || !imageOk x) = true := by
      cases hx : Config.imageVerifies x.bytes with
      | false => rfl
      | true => rw [Bool.eq_false_iff.2 (hr hx)]; rfl
    rw [hv, hbad]
    rfl
  · obtain ⟨h1, h2⟩ := (poolsHold_iff x).1 hr
    rw [hv, h1, h2]
    simp [hk]

/-- A package has started from a slot. -/
def State.startedFrom (s t : State) (x : Image) (slot : Nat) (step : BitVec 8) (warm : Bool) : Prop :=
  t.boot = ⟨1, step, slot, warm, s.boot.newest⟩ ∧ t.image = x ∧
    (t.ctxs, t.modules, t.launches, t.teams, t.groups, t.runs, t.hostQ, t.devQ) = ([], [], [], [], [], [], [], []) ∧
    (s.Inv → ∀ a, Memory.byte t.mem a =
      if (x.saveBase ≤ a ∧ a < x.saveBase + x.saveSize) ∨ (x.poolBase ≤ a ∧ a < x.poolBase + x.poolSize) then 0
      else Memory.byte s.mem a)

theorem ready8_started (s : State) (x : Image) (slot : Nat) (warm : Bool) :
    s.startedFrom (s.ready8 x slot warm) x slot s.boot.failedStep warm :=
  ⟨rfl, rfl, rfl, fun h _ => byte_clear_clear h ..⟩

theorem packageStart_starts {s : State} {b : BootRun} (hs : s.boot.status = 0)
    (h : failAt (s.slotImage s.boot.newest) b.image s.boot.warm b.retained b.fail = none) :
    ∃ t, exec (.packageStart b) s = .next t ∧
      s.startedFrom t b.image s.boot.newest s.boot.failedStep (s.boot.warm && b.retained) := by
  refine ⟨_, ?_, ready8_started ..⟩
  show execPackageStart b s = _
  unfold execPackageStart
  simp only [hs, h]
  rfl

theorem packageStart_other {s : State} {b : BootRun} {f : BitVec 8} (hs : s.boot.status = 0)
    (h : failAt (s.slotImage s.boot.newest) b.image s.boot.warm b.retained b.fail = some f)
    (ho : failAt (s.slotImage (1 - s.boot.newest)) b.image false false b.failOther = none) :
    ∃ t, exec (.packageStart b) s = .next t ∧ s.startedFrom t b.image (1 - s.boot.newest) f false := by
  refine ⟨_, ?_, ready8_started { s with boot := { s.boot with failedStep := f, warm := false } } b.image (1 - s.boot.newest) false⟩
  show execPackageStart b s = _
  unfold execPackageStart
  simp only [hs, h, show State.slotImage { s with boot := { s.boot with status := 0, failedStep := f, warm := false } } = s.slotImage from rfl,
    ho]
  rfl

theorem packageStart_fails {s : State} {b : BootRun} {f k : BitVec 8} (hs : s.boot.status = 0)
    (h : failAt (s.slotImage s.boot.newest) b.image s.boot.warm b.retained b.fail = some f)
    (ho : failAt (s.slotImage (1 - s.boot.newest)) b.image false false b.failOther = some k) :
    ∃ t, exec (.packageStart b) s = .next t ∧ (t.boot.status, t.boot.failedStep) = (2, k) := by
  refine ⟨{ s with boot := { s.boot with status := 2, failedStep := k, warm := false } }, ?_, rfl⟩
  show execPackageStart b s = _
  unfold execPackageStart
  simp only [hs, h, show State.slotImage { s with boot := { s.boot with status := 0, failedStep := f, warm := false } } = s.slotImage from rfl,
    ho]
  rfl

end Sys2Proof.Machine
end

section
/-! SUPPORT. The time series and the program-counter samples (R352, R354). -/

namespace Sys2Proof.Machine

open Sys2Proof

/-! ## Records of the time series -/

/-- A field of a row of numbers of four bytes each. -/
theorem field_fours (f : Nat → Nat) (rest : List Byte) (m j : Nat) {i : Nat} (hi : i < m) :
    field ((natsFrom j m).flatMap (fun i => le 4 (f i)) ++ rest) (4 * i) 4 = f (j + i) % 2 ^ 32 := by
  induction m generalizing i j with
  | zero => omega
  | succ m ih =>
    rw [natsFrom, List.flatMap_cons, List.append_assoc]
    cases i with
    | zero => exact field_first 4 (f j) _
    | succ i =>
      rw [field_skip _ _ _ (by omega), show 4 * (i + 1) - 4 = 4 * i by omega, ih (j + 1) (by omega), show j + 1 + i = j + (i + 1) by omega]

theorem length_fours (f : Nat → Nat) (m j : Nat) : ((natsFrom j m).flatMap (fun i => le 4 (f i))).length = 4 * m := by
  induction m generalizing j with
  | zero => rfl
  | succ m ih =>
    rw [natsFrom, List.flatMap_cons, List.length_append, length_le, ih]
    omega

/-- What a record of the series counts, at most 2^24. -/
def seriesValue (busy : KMap Nat) (free k die i : Nat) : Nat :=
  min (if i < 384 then (busy.find (die * 384 + i)).getD 0 else (freeVal free (8 + die) (i / 512) (i % 512)).toNat % (2 ^ k + 1)) (2 ^ 24)

theorem seriesRecord_eq (x : Series) (n : Nat) (busy : KMap Nat) (free die : Nat) (dropped : Word) :
    seriesRecord x n busy free die dropped = le 8 n ++ (le 8 (x.due n) ++ (le 1 die ++ (le 1 x.k ++ (le 2 0 ++ (le 4 dropped.toNat ++
      (le 40 0 ++ ((natsFrom 0 461).flatMap (fun i => le 4 (seriesValue busy free x.k die i)) ++ le 140 0))))))) := by
  unfold seriesRecord
  simp only [List.append_assoc]
  rfl

theorem seriesRecord_fields (x : Series) (n : Nat) (busy : KMap Nat) (free die : Nat) (dropped : Word) :
    let row := seriesRecord x n busy free die dropped
    row.length = 2048 ∧ field row 0 8 = n % 2 ^ 64 ∧ field row 8 8 = x.due n % 2 ^ 64 ∧ field row 16 1 = die % 2 ^ 8 ∧
      field row 17 1 = x.k % 2 ^ 8 ∧ field row 20 4 = dropped.toNat ∧
      ∀ i < 384, field row (64 + 4 * i) 4 = min ((busy.find (die * 384 + i)).getD 0) (2 ^ 24) := by
  intro row
  have hrow : row = _ := seriesRecord_eq x n busy free die dropped
  rw [hrow]
  generalize hv : seriesValue busy free x.k die = v
  refine ⟨?_, ?_, ?_, ?_, ?_, ?_, fun i hi => ?_⟩
  · simp only [List.length_append, length_le, length_fours]
  · rw [field_first]
  · simp (disch := omega) only [field_skip, field_first, Nat.reduceSub, Nat.reduceMul]
  · simp (disch := omega) only [field_skip, field_first, Nat.reduceSub, Nat.reduceMul]
  · simp (disch := omega) only [field_skip, field_first, Nat.reduceSub, Nat.reduceMul]
  · simp (disch := omega) only [field_skip, field_first, Nat.reduceSub, Nat.reduceMul, BitVec.toNat_mod_cancel]
  · have hval : v i = min ((busy.find (die * 384 + i)).getD 0) (2 ^ 24) := by
      rw [← hv, seriesValue, if_pos hi]
    rw [field_skip _ _ _ (by omega), field_skip _ _ _ (by omega), field_skip _ _ _ (by omega), field_skip _ _ _ (by omega),
      field_skip _ _ _ (by omega), field_skip _ _ _ (by omega), field_skip _ _ _ (by omega),
      show 64 + 4 * i - 8 - 8 - 1 - 1 - 2 - 4 - 40 = 4 * i by omega, field_fours v _ _ _ (by omega), Nat.zero_add, hval]
    exact Nat.mod_eq_of_lt (Nat.lt_of_le_of_lt (Nat.min_le_right ..) (by decide))

/-- Records of the device at places that do not meet. -/
theorem foldl_physWrite {s : State} (hm : s.migs = []) (hinv : s.Inv) (at' : Nat → Nat) (row : State → Nat → List Byte) (n : Nat)
    {ds : List Nat} (hlen : ∀ t d, (row t d).length = n) (hds : ds.Nodup)
    (hapart : ∀ d ∈ ds, ∀ d' ∈ ds, d ≠ d' → at' d + n ≤ at' d' ∨ at' d' + n ≤ at' d) {d : Nat} (hd : d ∈ ds) :
    ∃ u, ∀ b, at' d ≤ b → b < at' d + n →
      Memory.byte (ds.foldl (fun t d => t.physWrite (at' d) (row t d) none) s).mem b = (row u d).getD (b - at' d) 0 := by
  have hout : ∀ (ds : List Nat) (s : State), s.migs = [] → s.Inv → ∀ b, (∀ d ∈ ds, b < at' d ∨ at' d + n ≤ b) →
      Memory.byte (ds.foldl (fun t d => t.physWrite (at' d) (row t d) none) s).mem b = Memory.byte s.mem b := by
    intro ds
    induction ds with
    | nil => exact fun _ _ _ _ _ => rfl
    | cons d ds ih =>
      intro s hm hinv b hb
      obtain ⟨m, g, p, l, hw⟩ := physWrite_idle hm (at' d) (row s d) none
      rw [List.foldl_cons, ih _ (by rw [hw]; exact hm) ((memSide_physWrite ..).inv hinv) b fun d hd => hb d (List.mem_cons_of_mem _ hd),
        byte_physWrite hm hinv, hlen, if_neg (by have := hb d List.mem_cons_self; omega)]
  induction ds generalizing s with
  | nil => cases hd
  | cons x ds ih =>
    obtain ⟨hx, hds⟩ := List.nodup_cons.1 hds
    obtain ⟨m, g, p, l, hw⟩ := physWrite_idle hm (at' x) (row s x) none
    have hm' : (s.physWrite (at' x) (row s x) none).migs = [] := by rw [hw]; exact hm
    have hinv' := (memSide_physWrite s (at' x) (row s x) none).inv hinv
    rcases List.mem_cons.1 hd with rfl | hd
    · refine ⟨s, fun b h1 h2 => ?_⟩
      rw [List.foldl_cons, hout ds _ hm' hinv' b fun y hy => ?_, byte_physWrite hm hinv, hlen, if_pos ⟨h1, h2⟩]
      have := hapart d List.mem_cons_self y (List.mem_cons_of_mem _ hy) fun h => hx (h ▸ hy)
      omega
    · exact ih hm' hinv' hds (fun d hd d' hd' => hapart d (List.mem_cons_of_mem _ hd) d' (List.mem_cons_of_mem _ hd')) hd

theorem seriesSample_writes {s : State} {n : Nat} {counts : KMap Nat} (hinv : s.Inv) (hm : s.migs = []) (hq : 0 < s.series.q)
    (hheld : s.series.held = some (n, counts)) :
    ∃ t, exec .seriesSample s = .next t ∧ t.groups = s.groups ∧
      (t.series, t.busy) = ({ s.series with held := none, dropped := [0, 0, 0, 0] }, s.busy) ∧
      ∀ d < 4, let a := s.series.base.toNat + (d * s.series.q + n % s.series.q) * 2048
        Memory.num t.mem a 8 = n % 2 ^ 64 ∧ Memory.num t.mem (a + 8) 8 = s.series.due n % 2 ^ 64 ∧
        Memory.num t.mem (a + 16) 1 = d ∧ Memory.num t.mem (a + 17) 1 = s.series.k % 256 ∧
        Memory.num t.mem (a + 20) 4 = (s.series.dropped.getD d 0).toNat ∧
        ∀ i < 384, Memory.num t.mem (a + 64 + 4 * i) 4 = min ((counts.find (d * 384 + i)).getD 0) (2 ^ 24) := by
  obtain ⟨at', hat⟩ : ∃ f : Nat → Nat, f = fun d => s.series.base.toNat + (d * s.series.q + n % s.series.q) * 2048 := ⟨_, rfl⟩
  obtain ⟨row, hrow⟩ : ∃ f : State → Nat → List Byte, f = fun t d => seriesRecord s.series n counts t.free d (s.series.dropped.getD d 0) :=
    ⟨_, rfl⟩
  obtain ⟨u, hu⟩ : ∃ u, u = (natsFrom 0 4).foldl (fun t d => t.physWrite (at' d) (row t d) none) s := ⟨_, rfl⟩
  have hside : MemSide s u := hu ▸ .foldl (fun t d => memSide_physWrite ..) _ s
  refine ⟨{ u with series := { s.series with held := none, dropped := [0, 0, 0, 0] }, free := u.free + 1 }, ?_, ?_, ?_, fun d hd => ?_⟩
  · show execSeriesSample s = _
    unfold execSeriesSample
    simp only [hheld]
    rw [hu, hat, hrow]
    rfl
  · show u.groups = _
    rw [hside.rest]
  · show (_, u.busy) = _
    rw [hside.rest]
  · have hapart (x y : Nat) (hxy : x ≠ y) : at' x + 2048 ≤ at' y ∨ at' y + 2048 ≤ at' x := by
      have hlt := Nat.mod_lt n hq
      simp only [hat]
      rcases Nat.lt_or_gt_of_ne hxy with h | h
      · have := Nat.mul_le_mul_right s.series.q (show x + 1 ≤ y from h)
        rw [Nat.add_mul] at this
        omega
      · have := Nat.mul_le_mul_right s.series.q (show y + 1 ≤ x from h)
        rw [Nat.add_mul] at this
        omega
    obtain ⟨v, hbytes⟩ := foldl_physWrite hm hinv at' row 2048 (ds := natsFrom 0 4) (fun t d => by rw [hrow]; exact (seriesRecord_fields ..).1)
      (by decide) (fun x _ y _ => hapart x y) (d := d) (mem_natsFrom.2 ⟨by omega, by omega⟩)
    rw [← hu, hrow] at hbytes
    obtain ⟨hlen, h0, h8, h16, h17, h20, h64⟩ := seriesRecord_fields s.series n counts v.free d (s.series.dropped.getD d 0)
    have hnum {off k : Nat} (hk : off + k ≤ 2048) := num_of_bytes (m := u.mem) (a := at' d)
      (row := seriesRecord s.series n counts v.free d (s.series.dropped.getD d 0)) (fun b h1 h2 => hbytes b h1 (by omega)) (off := off) (n := k)
      (by omega)
    have ha : s.series.base.toNat + (d * s.series.q + n % s.series.q) * 2048 = at' d := by rw [hat]
    intro a
    rw [show a = at' d from ha]
    refine ⟨?_, ?_, ?_, ?_, ?_, fun i hi => ?_⟩
    · exact (hnum (off := 0) (k := 8) (by omega)).trans h0
    · exact (hnum (by omega)).trans h8
    · exact (hnum (by omega)).trans (h16.trans (Nat.mod_eq_of_lt (by omega)))
    · exact (hnum (by omega)).trans h17
    · exact (hnum (by omega)).trans h20
    · rw [Nat.add_assoc]
      exact (hnum (by omega)).trans (h64 i hi)

/-! ## The tick of a sample (R352) -/

theorem closeDue_rest (s : State) (gk : Nat) : s.sameBut (s.closeDue gk) := by
  unfold State.closeDue
  split
  · rfl
  · split
    · rfl
    · split
      · rfl
      · unfold State.installRound
        rw [if_pos rfl]
        split
        · exact (install_aside ..).rest
        · exact State.sameBut_trans (install_aside ..).rest (TailAt.takeFault ..).rest

theorem foldl_sameBut {α : Type} (f : State → α → State) (hf : ∀ (s : State) (x : α), s.sameBut (f s x)) (xs : List α) (s : State) :
    s.sameBut (xs.foldl f s) := by
  induction xs generalizing s with
  | nil => rfl
  | cons x xs ih => exact State.sameBut_trans (hf s x) (ih _)

theorem endCycle_rest (s : State) : s.sameBut s.endCycle := foldl_sameBut _ closeDue_rest _ s

theorem count_rest (s : State) (c i n : Nat) : s.sameBut (s.count c i n) := rfl

theorem countCycles_rest (s : State) (n : Nat) : s.sameBut (s.countCycles n) := by
  unfold State.countCycles
  refine State.sameBut_trans (State.sameBut_trans (foldl_sameBut _ (fun s r => ?_) _ _) (foldl_sameBut _ (fun s p => ?_) _ _))
    (foldl_sameBut _ (fun s p => ?_) _ _)
  · split
    · split
      · exact State.sameBut_trans (count_rest ..) (count_rest ..)
      · exact count_rest ..
    · rfl
  · split
    · exact count_rest ..
    · rfl
  · split
    · split
      · split
        · exact count_rest ..
        · rfl
      · rfl
    · rfl

/-- Delays of urgency start at launches only. -/
theorem startDelays_rest (s : State) : s.startDelays = { s with launches := s.startDelays.launches } := by
  unfold State.startDelays
  generalize natsFrom 0 64 = qs
  induction qs generalizing s with
  | nil => rfl
  | cons q qs ih =>
    rw [List.foldl_cons, ih]
    split
    · split
      · rfl
      · rfl
    · rfl

/-- What stands of the machine when time passes. -/
theorem tick_base (s : State) (cycles : Nat) :
    (s.endCycle.startDelays.countCycles cycles).series = s.series ∧ (s.endCycle.startDelays.countCycles cycles).time = s.time ∧
      (s.endCycle.startDelays.countCycles cycles).mem = s.mem := by
  rw [countCycles_rest, startDelays_rest, endCycle_rest]
  exact ⟨rfl, rfl, rfl⟩

/-- At the one tick on the way the counts are latched. -/
theorem runSeries_latches (s : State) {upto : Nat} (fuel now cycles : Nat) (x : Series) (busy : KMap Nat) (h1 : x.due x.n ≤ upto)
    (h2 : upto < x.due (x.n + 1)) : ∃ counts, (s.runSeries upto (fuel + 2) now cycles (x, busy)).1 = x.latch counts := by
  have hnext (counts : KMap Nat) : upto < (x.latch counts).due (x.latch counts).n := h2
  refine ⟨s.busyAfter busy (cycles * (x.due x.n - now) / (upto - now)), ?_⟩
  rw [State.runSeries]
  simp only
  rw [if_neg (by omega), State.runSeries]
  simp only [hnext, if_true]

theorem tick_latches {s : State} (hr : s.series.running = true) {cycles ns : Nat}
    (h1 : s.series.due s.series.n ≤ s.time.toNat + ns) (h2 : s.time.toNat + ns < s.series.due (s.series.n + 1)) :
    ∃ counts, (s.tick cycles ns).series = s.series.latch counts := by
  obtain ⟨hseries, htime, -⟩ := tick_base s cycles
  unfold State.tick
  simp only
  generalize s.endCycle.startDelays.countCycles cycles = u at hseries htime ⊢
  unfold State.seriesAfter
  simp only [hseries, hr, htime, Bool.not_true, Bool.false_eq_true, if_false]
  exact runSeries_latches _ _ _ _ _ _ h1 h2

/-! ## Samples of the program counter (R354) -/

/-- What a sample changes before it is written. -/
def State.sampledAs (s : State) (core : Nat) (g : Group) (x : Sampling) : State :=
  let age := (s.sampleAge.find core).getD 0
  { s with
    sampled := s.sampled.put core (g.slot + 1), sampleAge := s.sampleAge.put core (age - 2 ^ x.j), free := s.free + 1,
    ctxs := s.ctxs.update (s.ctxOf g) fun c => { c with sampling := some { x with next := x.next + 1 } } }

/-- A walk reads memory only. -/
theorem walk_congr {s t : State} (hm : t.mem = s.mem) (hg : t.migs = s.migs) (hp : t.poison = s.poison) (hl : t.latent = s.latent)
    (ctx holder va : Nat) (via : List Nat) (fuel table : Nat) :
    t.walk ctx holder va via fuel table = s.walk ctx holder va via fuel table := by
  have hkey (a : Nat) : t.liveKey a = s.liveKey a := by unfold State.liveKey; rw [hg]
  have hnum (a n : Nat) : t.readNum a n = s.readNum a n := by unfold State.readNum; rw [hm]
  have hbad (a n : Nat) : t.poisoned a n = s.poisoned a n := by unfold State.poisoned; rw [hp, hl]
  induction fuel generalizing via table with
  | zero => rfl
  | succ fuel ih =>
    unfold State.walk
    simp only [hkey, hnum, hbad, ih]

/-- Translations do not look at what a sample changes. -/
theorem sampledAs_translate {s : State} {core : Nat} {g : Group} {x : Sampling} {c : Ctx} (hc : s.ctxs.find (s.ctxOf g) = some c)
    (who va : Nat) : (s.sampledAs core g x).translate (s.ctxOf g) who va = s.translate (s.ctxOf g) who va := by
  have hc' : (s.sampledAs core g x).ctxs.find (s.ctxOf g) = some { c with sampling := some { x with next := x.next + 1 } } :=
    (KMap.find_update_self ..).trans (congrArg _ hc)
  have hwalk := walk_congr (s := s) (t := s.sampledAs core g x) rfl rfl rfl rfl
  have hguard (va : Nat) (r : Tr) : (s.sampledAs core g x).guardModules va r = s.guardModules va r := rfl
  have htables (c' : Ctx) (hd : c'.desc = c.desc) :
      (s.sampledAs core g x).translateTables c' (s.ctxOf g) who va = s.translateTables c (s.ctxOf g) who va := by
    unfold State.translateTables
    simp only [hd, hwalk]
    rfl
  unfold State.translate
  simp only [hc, hc', hguard, htables]

theorem length_snapshot (g : Group) : g.snapshot.length = 3 := by
  unfold Group.snapshot
  simp only [List.length_append, List.length_map, length_natsFrom, List.length_take]
  omega

theorem flatMap_twos (rs : List (BitVec 16)) : (rs.flatMap fun r => leBytes r.toNat 2).length = 2 * rs.length := by
  induction rs with
  | nil => rfl
  | cons r rs ih =>
    rw [List.flatMap_cons, List.length_append, length_leBytes, ih, List.length_cons]
    omega

/-- A sample's record: 64 bytes, the time, the core and the slot in their places. -/
theorem sampleBytes_fields (s : State) (gk : Nat) (g : Group) (core : Nat) :
    (s.sampleBytes gk g core).length = 64 ∧ field (s.sampleBytes gk g core) 0 8 = s.time.toNat ∧
      field (s.sampleBytes gk g core) 12 2 = core % 2 ^ 16 ∧ field (s.sampleBytes gk g core) 14 1 = g.slot % 2 ^ 8 := by
  obtain ⟨l, rest, hrow, hlen⟩ : ∃ l rest, s.sampleBytes gk g core =
      le 8 s.time.toNat ++ (le 4 l ++ (le 2 core ++ (le 1 g.slot ++ rest))) ∧ rest.length = 49 := by
    unfold State.sampleBytes
    simp only [List.append_assoc]
    refine ⟨_, _, rfl, ?_⟩
    simp only [List.length_append, length_leBytes, flatMap_twos, length_snapshot]
  rw [hrow]
  refine ⟨?_, ?_, ?_, ?_⟩
  · simp only [List.length_append, length_le, hlen]
  · rw [field_first]
    exact Nat.mod_eq_of_lt s.time.isLt
  · simp (disch := omega) only [field_skip, field_first, Nat.reduceSub, Nat.reduceMul]
  · simp (disch := omega) only [field_skip, field_first, Nat.reduceSub, Nat.reduceMul]

theorem pcSample_writes {s : State} {core gk pa : Nat} {g : Group} {c : Ctx} {x : Sampling} {nc : Bool} {fill : List TlbEntry}
    (hs : s.sampleGroup core = some (gk, g)) (hc : s.ctxs.find (s.ctxOf g) = some c) (hx : c.sampling = some x)
    (hage : 2 ^ x.j ≤ (s.sampleAge.find core).getD 0) (hinv : s.Inv) (hm : s.migs = [])
    (ht : s.translate (s.ctxOf g) hubId (x.base.toNat + x.next % x.q * 64) = .ok pa true nc fill)
    (hk : paKind pa = .hbm ∨ paKind pa = .host) :
    ∃ t, exec (.pcSample core) s = .next t ∧ t.groups = s.groups ∧ t.sampled.find core = some (g.slot + 1) ∧
      t.ctxs.find (s.ctxOf g) = some { c with sampling := some { x with next := x.next + 1 } } ∧
      Memory.num t.mem pa 8 = s.time.toNat ∧ Memory.num t.mem (pa + 12) 2 = core % 2 ^ 16 ∧
      Memory.num t.mem (pa + 14) 1 = g.slot % 256 ∧
      ∀ b, (b < pa ∨ pa + 64 ≤ b) → Memory.byte t.mem b = Memory.byte s.mem b := by
  have ht' := (sampledAs_translate (core := core) (x := x) hc hubId _).trans ht
  have hctx : (s.sampledAs core g x).ctxs.find (s.ctxOf g) = some { c with sampling := some { x with next := x.next + 1 } } :=
    (KMap.find_update_self ..).trans (congrArg _ hc)
  have hsampled : (s.sampledAs core g x).sampled.find core = some (g.slot + 1) := KMap.find_put_self ..
  have hrun : exec (.pcSample core) s =
      .next (((s.sampledAs core g x).walked fill).physWrite pa (s.sampleBytes gk g core) none) := by
    have hkind : (paKind pa == .hbm || paKind pa == .host) = true := by
      rcases hk with h | h <;> rw [h] <;> rfl
    show execPcSample core s = _
    unfold execPcSample
    simp only [hs, hc, Option.bind_some, hx]
    rw [if_neg (Nat.not_lt.2 hage)]
    unfold State.sampledAs at ht' ⊢
    simp only [ht', hkind, if_true]
  have hm' : (s.sampledAs core g x).migs = [] := hm
  have hmem : (s.sampledAs core g x).mem = s.mem := rfl
  have hgroups : (s.sampledAs core g x).groups = s.groups := rfl
  obtain ⟨v, hv⟩ : ∃ v, v = s.sampledAs core g x := ⟨_, rfl⟩
  rw [← hv] at hrun hm' hmem hgroups hctx hsampled
  obtain ⟨l, n, k, hw⟩ := walked_rest hm' fill
  have hwm : (v.walked fill).migs = [] := by rw [hw]; exact hm'
  have hwmem : (v.walked fill).mem = s.mem := by rw [hw]; exact hmem
  have hwi : (v.walked fill).Inv := by unfold State.Inv; rw [hwmem]; exact hinv
  have hbyte := byte_physWrite hwm hwi pa (s.sampleBytes gk g core) none
  obtain ⟨hlen, h0, h12, h14⟩ := sampleBytes_fields s gk g core
  rw [hlen, hwmem] at hbyte
  have hnum {off k : Nat} (hk : off + k ≤ 64) := num_of_bytes (a := pa) (row := s.sampleBytes gk g core)
    (fun b h1 h2 => by rw [hbyte, if_pos (by omega)]) (off := off) (n := k) (by omega)
  obtain ⟨m', g', p', l', hwrite⟩ := physWrite_idle hwm pa (s.sampleBytes gk g core) none
  refine ⟨_, hrun, ?_, ?_, ?_, ?_, ?_, ?_, fun b hb => ?_⟩
  · rw [hwrite, hw]
    exact hgroups
  · rw [hwrite, hw]
    exact hsampled
  · rw [hwrite, hw]
    exact hctx
  · exact (hnum (off := 0) (by omega)).trans h0
  · exact (hnum (by omega)).trans h12
  · exact (hnum (by omega)).trans h14
  · rw [hbyte, if_neg (by omega)]

/-- Settles O58: a start by the step at which it fails, a reset by the cells that it keeps, samples by the bytes of their
records. -/
theorem startsResetsAndSamples : Obligations.StartsResetsAndSamples := by
  unfold Obligations.StartsResetsAndSamples
  refine ⟨fun s b hs => ?_, fun s h => ⟨fun master hm => ⟨⟨_, exec_coldReset hm, coldReset_keeps h 0⟩,
      ⟨_, exec_warmReset hm, restart_restarted .., rfl, byte_warm h⟩⟩, ⟨_, rfl, coldReset_keeps h 0xFF⟩, powerLoss_erases h,
      fun hc => ⟨_, coldPlate_resets hc, coldReset_keeps h 0xFE⟩, coldPlate_slows⟩,
    fun s n counts => seriesSample_writes, fun s cycles ns hr h1 h2 => tick_latches hr h1 h2,
    fun s core gk pa g c x nc fill => pcSample_writes⟩
  intro x verifies runs runsCold reads started other
  refine ⟨fun hv hr hf => packageStart_starts hs (failAt_none hv hr fun k hk hrun => hf k hk ((runsStep_iff ..).1 hrun)), fun f hf => ?_⟩
  have hfail : failAt (s.slotImage s.boot.newest) b.image s.boot.warm b.retained b.fail = some f := by
    refine failAt_some ?_
    by_cases hv : verifies s.boot.newest
    · rw [if_neg (not_not.2 hv)] at hf
      by_cases hr : reads
      · rw [if_neg (not_not.2 hr)] at hf
        exact .inr (.inr ⟨hv, hr, hf.1, (runsStep_iff ..).2 hf.2⟩)
      · rw [if_pos hr] at hf
        exact .inr (.inl ⟨hv, hr, hf⟩)
    · rw [if_pos hv] at hf
      exact .inl ⟨hv, hf⟩
  refine ⟨fun hv hr hk => packageStart_other hs hfail (failAt_none hv hr fun k h hrun => hk k h ((runsStep_cold k).1 hrun)), fun k hk => ?_⟩
  refine packageStart_fails hs hfail (failAt_some ?_)
  by_cases hv : verifies other
  · rw [if_neg (not_not.2 hv)] at hk
    by_cases hr : reads
    · rw [if_neg (not_not.2 hr)] at hk
      exact .inr (.inr ⟨hv, hr, hk.1, (runsStep_cold k).2 hk.2⟩)
    · rw [if_pos hr] at hk
      exact .inr (.inl ⟨hv, hr, hk⟩)
  · rw [if_pos hv] at hk
    exact .inl ⟨hv, hk⟩

end Sys2Proof.Machine
end

section
/-! SUPPORT. What keeps memory in its canonical form (log entry 1): the changes of a machine that leave memory alone, and words. -/

namespace Sys2Proof.Machine

open Sys2Proof

/-! ## Changes that leave memory alone -/

@[simp] theorem inv_iff (s : State) : s.Inv ↔ Memory.wf s.mem = true := Iff.rfl

theorem inv_of_mem {s t : State} (hm : t.mem = s.mem) (h : s.Inv) : t.Inv := by
  rw [inv_iff, hm]
  exact h

theorem mem_of_rest {s t : State} (h : s.sameBut t) : t.mem = s.mem := by rw [h]

@[simp] theorem count_mem (s : State) (c i n : Nat) : (s.count c i n).mem = s.mem := rfl
@[simp] theorem setCollQueue_mem (s : State) (d : Nat) (q : List CollPart) : (s.setCollQueue d q).mem = s.mem := rfl
@[simp] theorem setDeviceQueue_mem (s : State) (q : Nat) (x : DevQ) : (s.setDeviceQueue q x).mem = s.mem := rfl
@[simp] theorem setBodies_mem (s : State) (core : Nat) (bs : List LoopBody) : (s.setBodies core bs).mem = s.mem := rfl
@[simp] theorem dropWaiter_mem (s : State) (w : Waiter) : (s.dropWaiter w).mem = s.mem := rfl
@[simp] theorem onCopyJob_mem (s : State) (c gk id : Nat) (f : CopyJob → CopyJob) : (s.onCopyJob c gk id f).mem = s.mem := rfl
@[simp] theorem onSelJob_mem (s : State) (c gk id : Nat) (f : SelJob → SelJob) : (s.onSelJob c gk id f).mem = s.mem := rfl
@[simp] theorem onCollJob_mem (s : State) (x : CollPart) (f : CollPart → CollPart) : (s.onCollJob x f).mem = s.mem := rfl
@[simp] theorem setWork_mem (s : State) (c : Nat) (j : CopyJob) (w : ChunkWork) : (s.setWork c j w).mem = s.mem := rfl
@[simp] theorem logError_mem (s : State) (core : Nat) (x : BitVec 128) : (s.logError core x).mem = s.mem := rfl
@[simp] theorem noWrite_mem (s : State) (e : Env) (f : Group → Group) : (s.noWrite e f).mem = s.mem := rfl
@[simp] theorem pauseRecord_mem (s : State) (gk id : Nat) (pos : Word) (addr under row col : Nat) :
    (s.pauseRecord gk id pos addr under row col).mem = s.mem := rfl

@[simp] theorem haltAt_mem (s : State) (k : Nat) (h : Halt) : (s.haltAt k h).mem = s.mem := by simp [State.haltAt]

@[simp] theorem halt_mem (s : State) (gk : Nat) (why : HaltWhy) (code lane tag : Nat) (before : Option Nat) :
    (s.halt gk why code lane tag before).mem = s.mem := haltAt_mem ..

@[simp] theorem deferFault_mem (s : State) (gk : Nat) (pos : Word) (f : WFault) (engine : Bool) (under row col : Nat) (job : Option Nat) :
    (s.deferFault gk pos f engine under row col job).mem = s.mem := by
  unfold State.deferFault
  split <;> simp

@[simp] theorem takeFault_mem (s : State) (k tag : Nat) (f : WFault) : (s.takeFault k tag f).mem = s.mem :=
  mem_of_rest (TailAt.takeFault ..).rest

@[simp] theorem takeStop_mem (s : State) (k tag imm ctx : Nat) (pos : Word) (before : Option Nat) :
    (s.takeStop k tag imm ctx pos before).mem = s.mem := mem_of_rest (TailAt.takeStop ..).rest

@[simp] theorem takeOwed_mem (s : State) (k : Nat) : (s.takeOwed k).mem = s.mem := mem_of_rest (TailAt.takeOwed ..).rest
@[simp] theorem endRun_mem (s : State) (e : Env) : (s.endRun e).mem = s.mem := mem_of_rest (TailAt.endRun ..).rest
@[simp] theorem stepStop_mem (s : State) (e : Env) : (s.stepStop e).mem = s.mem := mem_of_rest (TailAt.stepStop ..).rest
@[simp] theorem issued_mem (s : State) (e : Env) : (s.issued e).mem = s.mem := mem_of_rest (TailAt.issued ..).rest
@[simp] theorem endPass_mem (s : State) (e : Env) : (s.endPass e).mem = s.mem := mem_of_rest (TailAt.endPass ..).rest
@[simp] theorem pastFault_mem (s : State) (e : Env) : (s.pastFault e).mem = s.mem := mem_of_rest (TailAt.pastFault ..).rest

@[simp] theorem runOn_mem (s : State) (e : Env) (b : Bool) (len : Nat) : (s.runOn e b len).mem = s.mem :=
  mem_of_rest (TailAt.runOn ..).rest

@[simp] theorem retire_mem (s : State) (e : Env) (h : Hdr) (len : Nat) : (s.retire e h len).mem = s.mem :=
  mem_of_rest (TailAt.retire ..).rest

@[simp] theorem correctReads_mem (s : State) (e : Env) (regs : List (Nat × Nat)) : (s.correctReads e regs).mem = s.mem :=
  mem_of_rest (TailAt.correctReads 0 ..).rest

@[simp] theorem takePark_mem (s : State) (k tag lane : Nat) (addr : Dword) (access ctx : Nat) :
    (s.takePark k tag lane addr access ctx).mem = s.mem := by
  unfold State.takePark
  split <;> simp

@[simp] theorem block_mem (s : State) (e : Env) (b : Block) : (s.block e b).mem = s.mem := by simp [State.block]

@[simp] theorem stallRun_mem (s : State) (e : Env) : (s.stallRun e).mem = s.mem := by
  unfold State.stallRun
  split <;> simp

@[simp] theorem eccWord_mem (s : State) (e : Env) (l : Nat) (r : Res) : (s.eccWord e l r).mem = s.mem := by
  unfold State.eccWord
  split
  · split <;> simp
  · split <;> simp
  · simp

@[simp] theorem correctRegs_mem (s : State) (core : Nat) (names : List Nat) : (s.correctRegs core names).mem = s.mem := by
  unfold State.correctRegs
  split <;> rfl

@[simp] theorem fitRequests_mem (s : State) (gk : Nat) (g : Group) : (s.fitRequests gk g).mem = s.mem := by
  unfold State.fitRequests
  split <;> simp

@[simp] theorem install_mem (s : State) (gk : Nat) (tm : Team) (la : Launch) (m : Module) (o : VoteOut) :
    (s.install gk tm la m o).mem = s.mem := mem_of_rest (install_aside ..).rest

@[simp] theorem installRound_mem (s : State) (gk : Nat) (tm : Team) (la : Launch) (m : Module) (o : VoteOut) (now : Bool) :
    (s.installRound gk tm la m o now).mem = s.mem := by
  unfold State.installRound
  split
  · split <;> simp
  · simp

/-- A fold of steps each of which leaves memory alone. -/
theorem foldl_mem {α : Type} {f : State → α → State} (hf : ∀ (s : State) (x : α), (f s x).mem = s.mem) (xs : List α) (s : State) :
    (xs.foldl f s).mem = s.mem := by
  induction xs generalizing s with
  | nil => rfl
  | cons x xs ih => rw [List.foldl_cons, ih, hf]

/-- A fold of steps each of which keeps memory canonical. -/
theorem inv_foldl {α : Type} {f : State → α → State} (hf : ∀ (s : State) (x : α), s.Inv → (f s x).Inv) (xs : List α) {s : State}
    (h : s.Inv) : (xs.foldl f s).Inv := by
  induction xs generalizing s with
  | nil => exact h
  | cons x xs ih => exact ih (hf s x h)

/-! ## Outcomes -/

/-- An outcome that keeps memory canonical. -/
def Canonical : Outcome → Prop
  | .next t => t.Inv
  | _ => True

/-- A word's result that keeps memory canonical. -/
def CanonicalRes : Res → Prop
  | .ok t => t.Inv
  | .hold _ t => t.Inv
  | _ => True

@[simp] theorem canonical_next (t : State) : Canonical (.next t) ↔ t.Inv := Iff.rfl
@[simp] theorem canonicalRes_ok (t : State) : CanonicalRes (.ok t) ↔ t.Inv := Iff.rfl
@[simp] theorem canonicalRes_hold (b : Block) (t : State) : CanonicalRes (.hold b t) ↔ t.Inv := Iff.rfl
@[simp] theorem canonicalRes_bad (f : WFault) : CanonicalRes (.bad f) := trivial
@[simp] theorem canonicalRes_park (l : Nat) (a : Dword) (x : Nat) : CanonicalRes (.park l a x) := trivial
@[simp] theorem canonicalRes_watch (r : FaultRec) : CanonicalRes (.watch r) := trivial
@[simp] theorem canonicalRes_stall : CanonicalRes .stall := trivial

/-! ## Words -/

section Words

variable {s : State} {h : Hdr} {body : Env → State → Res}

theorem canonical_wordAt (hs : s.Inv) {len : Nat} {region : Option (BitVec 16)} {regs reads : List (Nat × Nat)}
    {fin : Env → State → State}
    (hfin : ∀ e t, t.Inv → (fin e t).Inv) (hbody : ∀ e, CanonicalRes (body e s)) :
    Canonical (wordAt h len region regs reads fin body s) := by
  unfold wordAt
  split
  · trivial
  · next e _ =>
    have hres := hbody e
    split
    · simpa using hs
    · split
      · simpa using hs
      · split
        · simpa using hs
        · split
          · simpa using hs
          · generalize body e s = r at hres
            cases hr : r with
            | bad f => simpa using hs
            | ok t =>
              simp only
              split
              · simpa using hs
              · exact hfin _ _ (by simpa [hr] using hres)
            | hold b t =>
              simp only
              split
              · simpa using hs
              · simpa [hr] using hres
            | park | watch | stall =>
              simp only
              split <;> simpa using hs

theorem canonical_word (hs : s.Inv) {len : Nat} {regs reads : List (Nat × Nat)} (hbody : ∀ e, CanonicalRes (body e s)) :
    Canonical (word h len regs reads body s) :=
  canonical_wordAt hs (fun e t ht => by simpa using ht) hbody

theorem canonical_termWord (hs : s.Inv) {regs reads : List (Nat × Nat)} (hbody : ∀ e, CanonicalRes (body e s)) :
    Canonical (termWord h regs reads body s) :=
  canonical_wordAt hs (fun e t ht => by simpa using ht) hbody

theorem canonical_tileWord (hs : s.Inv) {regs : List (Nat × Nat)} (hbody : ∀ e, CanonicalRes (body e s)) :
    Canonical (tileWord h regs body s) :=
  canonical_wordAt hs (fun e t ht => by simpa using ht) hbody

theorem canonical_widthWord (hs : s.Inv) {arow : BitVec 5} {regs reads : List (Nat × Nat)} {fin : Env → State → State}
    (hfin : ∀ e t, t.Inv → (fin e t).Inv) (hbody : ∀ e, CanonicalRes (body e s)) :
    Canonical (widthWord h arow regs reads fin body s) := by
  have hrun := canonical_wordAt (h := h) (len := 1) (region := none) (regs := regs) (reads := []) hs
    (fin := fun e s' => fin e ((s'.correctReads e reads).retire e h 1)) (fun e t ht => hfin _ _ (by simpa using ht)) hbody
  unfold widthWord
  simp only
  split
  · exact hrun
  · split
    · simpa using hs
    · exact hrun

end Words

end Sys2Proof.Machine
end

section
/-! SUPPORT. Words keep memory in its canonical form (log entry 1). -/

namespace Sys2Proof.Machine

open Sys2Proof

/-! ## What the bodies of words use -/

@[simp] theorem commit_mem (s : State) (e : Env) (k : Bool) (ws : List RegWrite) (flags : Nat) : (s.commit e k ws flags).mem = s.mem := by
  unfold State.commit
  simp only
  split <;> simp

@[simp] theorem commitPair_mem (s : State) (e : Env) (wa wb : List RegWrite) (ka kb : Bool) (flags : Nat) :
    (s.commitPair e ka kb wa wb flags).mem = s.mem := by
  simp [State.commitPair]

@[simp] theorem accWrite_mem (s : State) (team row col : Nat) (w : Word) : (s.accWrite team row col w).mem = s.mem :=
  (foldl_mem (fun _ _ => State.onGroup_mem ..) _ _).trans (State.onTeam_mem ..)

@[simp] theorem settleRow_mem (s : State) (team row : Nat) : (s.settleRow team row).mem = s.mem := by
  unfold State.settleRow
  simp only
  split
  · rfl
  · exact foldl_mem (fun _ _ => accWrite_mem ..) _ _

@[simp] theorem lateRows_mem (s : State) (g : Group) : (s.lateRows g).mem = s.mem :=
  foldl_mem (fun _ _ => foldl_mem (fun _ _ => settleRow_mem ..) _ _) _ _

@[simp] theorem openBody_mem (s : State) (core module st first last : Nat) : (s.openBody core module st first last).mem = s.mem := by
  unfold State.openBody
  simp only
  split <;> simp

@[simp] theorem arrive_mem (s : State) (e : Env) (o : YOp) (cls : Cls) : (s.arrive e o cls).mem = s.mem := by simp [State.arrive]

theorem inv_fillTlb {s : State} (h : s.Inv) (ts : List TlbEntry) : (s.fillTlb ts).Inv := (memSide_fillTlb s ts).inv h

theorem inv_noteSaved {s : State} (h : s.Inv) (gk : Nat) : (s.noteSaved gk).Inv := (memSide_noteSaved s gk).inv h

theorem inv_failTile {s : State} (h : s.Inv) (gk id : Nat) (pos : Word) (code cause : Nat) : (s.failTile gk id pos code cause).Inv :=
  inv_noteSaved (by simpa using h) gk

theorem inv_failEntry {s : State} (h : s.Inv) (key : Nat) (n : Entry) (code cause : Nat) : (s.failEntry key n code cause).Inv :=
  inv_foldl (fun _ _ h => inv_failTile h ..) _ (by simpa using h)

theorem inv_settleEntries {s : State} (h : s.Inv) (team : Nat) : (s.settleEntries team).Inv := by
  refine inv_foldl (fun s p h => ?_) _ h
  simp only
  split
  · exact inv_failEntry h ..
  · split
    · simpa using h
    · exact h

section Bodies

variable {s : State} {e : Env}

theorem canonicalRes_terminate (hs : s.Inv) (g : Group) : CanonicalRes (s.terminate e g) := by
  unfold State.terminate
  split
  · simp
  · simpa using hs

theorem canonicalRes_perLane (hs : s.Inv) (k : Bool) (f : LaneFn) : CanonicalRes (perLane k f e s) := by
  simpa [perLane] using hs

theorem canonicalRes_issueAccess (hs : s.Inv) (a : Access) (watchKind : Option Nat) (ls : List LaneAcc) (fill : List TlbEntry)
    (regs : List Nat) : CanonicalRes (issueAccess e s a watchKind ls fill regs) := by
  unfold issueAccess
  simp only
  split
  · simp
  · split
    · simpa using inv_fillTlb (by simpa using hs) fill
    · simpa using inv_fillTlb hs fill

/-- The machine of a need for granules. -/
def needState : Need → State
  | .go t => t
  | .wait t => t

theorem demandFrames_mem (s : State) (e : Env) (size : Nat) (refill uses : List Nat) :
    (needState (s.demandFrames e size refill uses)).mem = s.mem := by
  unfold State.demandFrames
  simp only
  split
  · exact State.onTeam_mem ..
  · generalize (refill.isEmpty && _) = covered
    cases covered with
    | true => exact State.onTeam_mem ..
    | false =>
      simp only [Bool.false_eq_true, if_false, needState]
      split <;> simp

theorem inv_of_need {s t : State} {e : Env} {size : Nat} {refill uses : List Nat} {n : Need} (hn : s.demandFrames e size refill uses = n)
    (ht : needState n = t) (h : s.Inv) : t.Inv := by
  subst hn
  exact ht ▸ inv_of_mem (demandFrames_mem ..) h

theorem canonicalRes_callBody (hs : s.Inv) (f : Env → Nat → Nat) (src : List (Nat × Nat)) (argRange : Bool)
    (args : Env → Nat → Descr → List Word) : CanonicalRes (callBody f src argRange args e s) := by
  unfold callBody
  simp only
  split
  · simp
  · split
    · next t ht => exact inv_of_need ht rfl hs
    · next t ht =>
      split
      · simp
      · exact canonicalRes_terminate (by simpa using inv_of_need (t := t) ht rfl hs) _

end Bodies

/-! ## Words by their kind -/

section Kinds

variable {s : State}

theorem canonical_accessWord (hs : s.Inv) (o : MOp) (kind : AccKind) (self : Instr) : Canonical (accessWord o kind self s) := by
  refine canonical_word hs fun e => ?_
  simp only
  split
  · simp
  · simp
  · split
    · simp
    · exact canonicalRes_issueAccess hs ..

theorem canonical_atomicWord (hs : s.Inv) (o : TOp) (kind : AccKind) (self : Instr) : Canonical (atomicWord o kind self s) := by
  refine canonical_word hs fun e => ?_
  simp only
  split
  · simp
  · simp
  · split
    · simp
    · split
      · simp
      · refine canonicalRes_issueAccess ?_ ..
        split <;> split <;> simpa using hs

theorem canonical_copyWord (hs : s.Inv) (o : EOp) (kind : CopyKind) : Canonical (copyWord o kind s) := by
  refine canonical_word hs fun e => ?_
  simp only
  split
  · simpa using hs
  · split
    · simp
    · split
      · simp
      · simpa using hs

theorem canonical_selWord (hs : s.Inv) (o : EOp) (scmp : Bool) : Canonical (selWord o scmp s) := by
  refine canonical_word hs fun e => ?_
  simp only
  split
  · simpa using hs
  · split
    · simp
    · split
      · simp
      · simpa using hs

theorem canonical_memXfer (hs : s.Inv) (o : AccOp) (kind : XferKind) : Canonical (memXfer o kind s) := by
  refine canonical_widthWord hs (fun _ _ h => h) fun e => ?_
  simp only
  split
  · simp
  · simp
  · split
    · simp
    · split
      · simp
      · split
        · simpa using inv_fillTlb (by simpa using hs) _
        · simpa using inv_fillTlb hs _

theorem canonical_rowXfer (hs : s.Inv) (o : AccOp) (kind : XferKind) : Canonical (rowXfer o kind s) := by
  refine canonical_widthWord hs (fun _ _ h => h) fun e => ?_
  simp only
  split
  · simp
  · simpa using hs

theorem canonical_pairWord (hs : s.Inv) (h : Hdr) (a b : Half) : Canonical (pairWord h a b s) :=
  canonical_word hs fun e => by simpa using hs

/-- Each lane word but `movs` runs a function of its lanes. -/
theorem lane_perLane {i : Instr} {w : LaneWord} (hw : laneWordOf i = some w) (hi : ∀ h k vd sid, i ≠ .movs h k vd sid) (s : State) :
    ∃ k f, exec i s = word w.h w.len (w.dest :: w.reads) w.reads (perLane k f) s := by
  cases i
  case movs h k vd sid => exact absurd rfl (hi h k vd sid)
  all_goals first | (cases hw; done) | obtain rfl := Option.some.inj hw
  case abs | neg | not | brev | rcps | rsqs | fabs | fneg | frint | popc | clz | ctz | fclass => exact ⟨_, _, aWord_a ..⟩
  case mov => exact ⟨_, _, aWord_b ..⟩
  case mad | madw | fma | bfi | sel | addsc => exact ⟨_, _, aWord_abc ..⟩
  case cmp | fcmp | cvt | cord | shfl | red | scan | ballot | any | all | matchLanes | sptest | spcast => exact ⟨_, _, rfl⟩
  all_goals exact ⟨_, _, aWord_ab ..⟩

theorem canonical_movs (hs : s.Inv) (h : Hdr) (k : Bool) (vd : Reg) (sid : Sid) : Canonical (execMovs h k vd sid s) :=
  canonical_word hs fun _ => canonicalRes_perLane hs ..

theorem canonical_lane {i : Instr} {w : LaneWord} (hw : laneWordOf i = some w) (hs : s.Inv) : Canonical (exec i s) := by
  by_cases hi : ∃ h k vd sid, i = .movs h k vd sid
  · obtain ⟨h, k, vd, sid, rfl⟩ := hi
    exact canonical_movs hs h k vd sid
  · obtain ⟨k, f, hx⟩ := lane_perLane hw (fun h k vd sid he => hi ⟨h, k, vd, sid, he⟩) s
    rw [hx]
    exact canonical_word hs fun e => canonicalRes_perLane hs k f

theorem canonical_halves {i : Instr} {h : Hdr} {a b : Half} (hp : i.halves = some (h, a, b)) (hs : s.Inv) : Canonical (exec i s) := by
  rw [(halves_runs hp s).2]
  exact canonical_pairWord hs h a b

end Kinds

end Sys2Proof.Machine
end

section
/-! SUPPORT. Accesses to memory keep it in its canonical form (log entry 1), whatever they write. -/

namespace Sys2Proof.Machine

open Sys2Proof

/-! ## A choice of two machines -/

@[simp] theorem mem_ite {c : Prop} [Decidable c] (s t : State) : (if c then s else t).mem = if c then s.mem else t.mem :=
  apply_ite State.mem c s t

@[simp] theorem wf_ite {c : Prop} [Decidable c] {m n : List Host.Cell} (hm : Memory.wf m = true) (hn : Memory.wf n = true) :
    Memory.wf (if c then m else n) = true := by
  split
  · exact hm
  · exact hn

section Bytes

variable {s : State} (h : Memory.wf s.mem = true)
include h

theorem wf_side {t : State} (ht : MemSide s t) : Memory.wf t.mem = true := ht.inv h

@[simp] theorem wf_written (a : Nat) (bs : List Byte) : Memory.wf (s.write a bs).mem = true :=
  wf_side h (memSide_write s a bs)

@[simp] theorem wf_correctHome (a n : Nat) : Memory.wf (s.correctHome a n).mem = true :=
  wf_side h (memSide_correctHome s a n)

@[simp] theorem wf_pullLine (id line : Nat) : Memory.wf (s.pullLine id line).mem = true :=
  wf_side h (memSide_pullLine s id line)

@[simp] theorem wf_touch (pa : Nat) : Memory.wf (s.touch pa).mem = true :=
  wf_side h (memSide_touch s pa)

@[simp] theorem wf_writeHome (target : Nat) (bs : List Byte) (rel : Option (Releaser × Nat)) :
    Memory.wf (s.writeHome target bs rel).mem = true :=
  wf_side h (memSide_writeHome s target bs rel)

@[simp] theorem wf_writeQuiet (target : Nat) (bs : List Byte) : Memory.wf (s.writeQuiet target bs).mem = true :=
  wf_side h (memSide_writeQuiet s target bs)

@[simp] theorem wf_spoilHome (target n : Nat) : Memory.wf (s.spoilHome target n).mem = true :=
  wf_side h (memSide_spoilHome s target n)

@[simp] theorem wf_walked (ts : List TlbEntry) : Memory.wf (s.walked ts).mem = true :=
  wf_side h (memSide_walked s ts)

@[simp] theorem wf_fillTlb (ts : List TlbEntry) : Memory.wf (s.fillTlb ts).mem = true :=
  wf_side h (memSide_fillTlb s ts)

@[simp] theorem wf_hubWalked (ctx va : Nat) : Memory.wf (s.hubWalked ctx va).mem = true :=
  wf_side h (memSide_hubWalked s ctx va)

@[simp] theorem wf_correctPhys (pa n : Nat) : Memory.wf (s.correctPhys pa n).mem = true :=
  wf_side h (memSide_correctPhys s pa n)

@[simp] theorem wf_physWrite (pa : Nat) (bs : List Byte) (scope : Option Nat) : Memory.wf (s.physWrite pa bs scope).mem = true :=
  wf_side h (memSide_physWrite s pa bs scope)

@[simp] theorem wf_invalidate (core : Nat) (p : Nat → Bool) : Memory.wf (s.invalidate core p).mem = true :=
  wf_side h (memSide_invalidate s core p)

@[simp] theorem wf_releaseAction (core scope : Nat) : Memory.wf (s.releaseAction core scope).mem = true :=
  wf_side h (memSide_releaseAction s core scope)

@[simp] theorem wf_acquireAction (core scope : Nat) : Memory.wf (s.acquireAction core scope).mem = true :=
  wf_side h (memSide_acquireAction s core scope)

@[simp] theorem wf_dropBadClean (core pa n : Nat) : Memory.wf (s.dropBadClean core pa n).mem = true :=
  wf_side h (memSide_dropBadClean s core pa n)

@[simp] theorem wf_cacheStore (core pa : Nat) (rel : Bool) (bs : List Byte) : Memory.wf (s.cacheStore core pa rel bs).mem = true :=
  wf_side h (memSide_cacheStore s core pa rel bs)

@[simp] theorem wf_cacheUpdate (core pa : Nat) (bs : List Byte) : Memory.wf (s.cacheUpdate core pa bs).mem = true :=
  wf_side h (memSide_cacheUpdate s core pa bs)

@[simp] theorem wf_promote (o : Nat) (gs : List Nat) : Memory.wf (s.promote o gs).mem = true :=
  wf_side h (memSide_promote s o gs)

@[simp] theorem wf_tagRelease (gs : List Nat) (r : Releaser) (scope : Nat) : Memory.wf (s.tagRelease gs r scope).mem = true :=
  wf_side h (memSide_tagRelease s gs r scope)

@[simp] theorem wf_noteSaved (gk : Nat) : Memory.wf (s.noteSaved gk).mem = true :=
  wf_side h (memSide_noteSaved s gk)

@[simp] theorem wf_clearPoison (keys : List Nat) : Memory.wf (s.clearPoison keys).mem = true :=
  wf_side h (memSide_clearPoison s keys)

@[simp] theorem wf_home (target : Nat) : Memory.wf (s.home target).1.mem = true :=
  wf_side h (memSide_home s target)

@[simp] theorem wf_cacheLoad (core pa n : Nat) : Memory.wf (s.cacheLoad core pa n).1.mem = true :=
  wf_side h (memSide_cacheLoad s core pa n)

@[simp] theorem wf_veil (gk id key : Nat) (bs : List Byte) : Memory.wf (s.veil gk id key bs).1.mem = true :=
  wf_side h (memSide_veil s gk id key bs)

theorem wf_foldl {α : Type} {f : State → α → State}
    (hf : ∀ (s : State) (x : α), Memory.wf s.mem = true → Memory.wf (f s x).mem = true) (xs : List α) :
    Memory.wf (xs.foldl f s).mem = true := inv_foldl hf xs h

end Bytes

/-! ## What an access reads and does -/

@[simp] theorem countVault_mem (s : State) (ctx target n : Nat) : (s.countVault ctx target n).mem = s.mem := by
  unfold State.countVault
  split <;> simp

@[simp] theorem accessFault_mem (s : State) (gk : Nat) (a : Access) (x : LaneAcc) (code cause : Nat) (port : Bool) :
    (s.accessFault gk a x code cause port).mem = s.mem := by
  simp [State.accessFault]

@[simp] theorem actionFault_mem (s : State) (gk : Nat) (a : Access) (x : LaneAcc) (bad : Option Nat) :
    (s.actionFault gk a x bad).mem = s.mem := by
  unfold State.actionFault
  split <;> simp

@[simp] theorem enqueueWord_mem (s : State) (gk : Nat) (a : Access) : (s.enqueueWord gk a).mem = s.mem := by
  simp [State.enqueueWord]

@[simp] theorem watchAtomic_mem (s : State) (gk : Nat) (g : Group) (a : Access) (x : LaneAcc) :
    (s.watchAtomic gk g a x).mem = s.mem := by
  unfold State.watchAtomic
  split
  · rfl
  · split
    · rfl
    · split
      · rfl
      · simp only
        split
        · split <;> simp
        · split <;> split <;> simp

/-- Bytes that an access got leave a canonical memory. -/
def CanonicalGot : Got → Prop
  | .data t _ _ => Memory.wf t.mem = true
  | _ => True

theorem wf_of_got {t : State} {bs : List Byte} {miss : Bool} {g : Got} (hg : g = .data t bs miss) (hc : CanonicalGot g) :
    Memory.wf t.mem = true := by
  subst hg
  exact hc

section Perform

variable {s : State} (h : Memory.wf s.mem = true)
include h

@[simp] theorem wf_eccAccess (gk : Nat) (a : Access) (x : LaneAcc) (reply : Reply) :
    Memory.wf (s.eccAccess gk a x reply).mem = true := by
  simp [State.eccAccess, h]

theorem canonical_readHome (target n core slot : Nat) (acq : Option Nat) : CanonicalGot (s.readHome target n core slot acq) := by
  unfold State.readHome
  simp only
  split
  · trivial
  · simp [CanonicalGot, h]

theorem canonical_readCached (target n core slot : Nat) (acq : Option Nat) : CanonicalGot (s.readCached target n core slot acq) := by
  unfold State.readCached
  simp only
  split
  · trivial
  · split
    · trivial
    · simp [CanonicalGot, h]

theorem canonical_readLane (a : Access) (x : LaneAcc) (core slot : Nat) (reply : Reply) :
    CanonicalGot (s.readLane a x core slot reply) := by
  have hs : Memory.wf (if a.acquires then s.acquireAction core (a.actScope x) else s).mem = true := by simp [h]
  unfold State.readLane
  simp only
  generalize (if a.acquires = true then _ else s) = t at hs ⊢
  split
  · split
    · split
      · trivial
      · split
        · exact hs
        · trivial
    · trivial
    · trivial
    · split <;> trivial
  · split
    · trivial
    · split
      · trivial
      · split
        · exact canonical_readHome hs ..
        · exact canonical_readCached hs ..

@[simp] theorem wf_performLoad (gk : Nat) (g : Group) (a : Access) (x : LaneAcc) (reply : Reply) :
    Memory.wf (s.performLoad gk g a x reply).mem = true := by
  unfold State.performLoad
  simp only
  split
  · exact h
  · split
    · exact h
    · simp [h]
    · simpa using h
    · next t bs miss ht =>
      have hw := wf_of_got ht (canonical_readLane h ..)
      simp [hw]

@[simp] theorem wf_performStore (gk : Nat) (g : Group) (a : Access) (x : LaneAcc) (reply : Reply) :
    Memory.wf (s.performStore gk g a x reply).mem = true := by
  have hs : Memory.wf (if a.releases then s.releaseAction (s.seat g).1 (a.actScope x) else s).mem = true := by simp [h]
  unfold State.performStore
  simp only
  generalize (if a.releases = true then State.releaseAction s _ _ else s) = t at hs ⊢
  split
  · split
    · simpa using hs
    · simp [hs]
  · split
    · split
      · simp [hs]
      · split
        · simp [hs]
        · split
          · simp [hs]
          · split
            · simp only [actionFault_mem, countVault_mem, State.onGroup_mem]
              refine wf_foldl (wf_cacheStore hs ..) (fun s i h => ?_) _
              simpa using h
            · simp [hs]
    · simp [hs]

end Perform

end Sys2Proof.Machine
end

section
/-! SUPPORT. Atomics, barriers, tile operations, arrays and frame moves keep memory in its canonical form (log entry 1). -/

namespace Sys2Proof.Machine

open Sys2Proof

/-! ## Atomics and ordered adds -/

section Atomics

variable {s : State} (h : Memory.wf s.mem = true)
include h

@[simp] theorem wf_performAtomic (gk : Nat) (g : Group) (a : Access) (x : LaneAcc) (reply : Reply) :
    Memory.wf (s.performAtomic gk g a x reply).mem = true := by
  unfold State.performAtomic
  simp only
  split
  · exact h
  · have hs : Memory.wf (if a.acquires then (if a.releases then s.releaseAction (s.seat g).1 (a.scopeAt x) else s).acquireAction
        (s.seat g).1 (a.scopeAt x) else if a.releases then s.releaseAction (s.seat g).1 (a.scopeAt x) else s).mem = true := by
      have hr : Memory.wf (if a.releases then s.releaseAction (s.seat g).1 (a.scopeAt x) else s).mem = true := by simp [h]
      generalize (if a.releases = true then _ else s) = t at hr ⊢
      simp [hr]
    generalize (if a.acquires = true then State.acquireAction _ _ _ else _) = t at hs ⊢
    split
    · split
      · split
        · simpa using hs
        · split
          · exact hs
          · simpa using hs
      · simpa using hs
      · simpa using hs
      · split
        · simpa using hs
        · exact hs
    · split
      · simp [hs]
      · split
        · simp [hs]
        · next u bs miss hu =>
          have hw := wf_of_got hu (canonical_readHome (by simp [hs]) ..)
          have hv := wf_home (wf_veil hw gk a.id (u.home x.target).2 bs) x.target
          generalize u.veil gk a.id _ bs = v at hv ⊢
          generalize v.1.home x.target = r at hv ⊢
          have hw (b : Nat) (bs : List Byte) := wf_written hv b bs
          simp [hw]
        · simp [hs]

@[simp] theorem wf_writeNum (a n v : Nat) : Memory.wf (s.writeNum a n v).mem = true := wf_written h ..

@[simp] theorem wf_contribute (gk : Nat) (g : Group) (tm : Team) (la : Launch) (a : Access) (x : LaneAcc) :
    Memory.wf (s.contribute gk g tm la a x).mem = true := by
  unfold State.contribute
  simp only
  split
  · simpa using h
  · split
    · simp [h]
    · simpa using h

@[simp] theorem wf_applyOne (l : Launch) (told : List (Nat × Nat)) (c : Contribution) :
    Memory.wf (s.applyOne l told c).1.mem = true := by
  have hr := wf_home h c.addr
  unfold State.applyOne
  generalize s.home c.addr = r at hr ⊢
  simp only
  split
  · exact hr
  · have hw (a n b m v : Nat) := wf_writeNum (wf_correctHome hr a n) b m v
    split
    · exact hw ..
    · split
      · exact hw ..
      · simp [hw]

@[simp] theorem wf_freeResult (c : Contribution) : Memory.wf (s.freeResult c).mem = true := by
  unfold State.freeResult
  simp only
  split <;> simp [h]

end Atomics

/-! ## Barriers -/

@[simp] theorem countArrival_mem (s : State) (gk : Nat) (g : Group) (q : Nat) : (s.countArrival gk g q).mem = s.mem := by
  simp [State.countArrival]

section Barriers

variable {s : State} (h : Memory.wf s.mem = true)
include h

theorem wf_quietly {α : Type} (a : α → Nat) (bs : α → List Byte) (xs : List α) :
    Memory.wf (xs.foldl (fun s x => s.writeQuiet (a x) (bs x)) s).mem = true := wf_foldl h (fun _ _ h => wf_writeQuiet h ..) _

@[simp] theorem wf_noteArmed (gk : Nat) : Memory.wf (s.noteArmed gk).mem = true := by
  unfold State.noteArmed
  split
  · split
    · exact wf_quietly (wf_writeQuiet h ..) ..
    · exact h
  · exact h

@[simp] theorem wf_completeBarrier (team q : Nat) : Memory.wf (s.completeBarrier team q).mem = true := by
  refine wf_foldl (by simpa using h) (fun s k h => ?_) _
  exact wf_noteArmed (by simpa using h) k

@[simp] theorem wf_checkBarrier (team q : Nat) : Memory.wf (s.checkBarrier team q).mem = true := by
  unfold State.checkBarrier
  split
  · exact h
  · simp [h]

end Barriers

/-! ## Accumulator blocks -/

section Blocks

variable {s : State} (h : Memory.wf s.mem = true)
include h

@[simp] theorem wf_spillBlock (team b : Nat) : Memory.wf (s.spillBlock team b).mem = true := by
  unfold State.spillBlock
  split
  · exact h
  · split
    · exact h
    · rw [State.onTeam_mem]
      exact wf_written h ..

theorem wf_of_spillOne {core : Nat} {t : State} (ht : s.spillOne core = some t) : Memory.wf t.mem = true := by
  unfold State.spillOne at ht
  simp only at ht
  split at ht
  · cases ht
  · cases ht
    simp [h]

theorem wf_of_freeBlock {core : Nat} {t : State} (ht : s.freeBlock core = some t) : Memory.wf t.mem = true := by
  unfold State.freeBlock at ht
  split at ht
  · cases ht
    exact h
  · exact wf_of_spillOne h ht

theorem wf_latent (x : Latent) : Memory.wf ({ s with latent := x } : State).mem = true := h

@[simp] theorem wf_fetchBlock (team b : Nat) : Memory.wf (s.fetchBlock team b).mem = true := by
  unfold State.fetchBlock
  split
  · exact h
  · split
    · exact wf_latent (wf_correctHome h ..) _
    · exact h

end Blocks

theorem wf_of_freeBlocks {s t : State} {core n fuel : Nat} (h : Memory.wf s.mem = true) (ht : s.freeBlocks core n fuel = some t) :
    Memory.wf t.mem = true := by
  induction fuel generalizing s with
  | zero =>
    rw [State.freeBlocks] at ht
    split at ht
    · cases ht
      exact h
    · cases ht
  | succ fuel ih =>
    rw [State.freeBlocks] at ht
    split at ht
    · cases ht
      exact h
    · obtain ⟨u, hu, ht⟩ := Option.bind_eq_some_iff.mp ht
      exact ih (wf_of_spillOne h hu) ht

theorem wf_of_takeBlocks {s t : State} {team core : Nat} {bs : List Nat} (h : Memory.wf s.mem = true)
    (ht : s.takeBlocks team core bs = some t) : Memory.wf t.mem = true := by
  induction bs generalizing s with
  | nil =>
    cases ht
    exact h
  | cons b bs ih =>
    rw [State.takeBlocks] at ht
    split at ht
    · cases ht
    · next u hu =>
      have hw : Memory.wf u.mem = true := by
        split at hu
        · cases hu
          exact h
        · exact wf_of_freeBlock h hu
      exact ih (by simp [hw]) ht

/-! ## Accumulators -/

@[simp] theorem accElem_keeps_mem (s : State) (team row n : Nat) (cols : List Nat) : (s.accElem team row n cols).1.mem = s.mem := by
  unfold State.accElem
  simp only
  split
  · simp
  · split <;> simp [correctAccs_mem]

@[simp] theorem accReads_mem (s : State) (team row : Nat) (cs : List Nat) : (s.accReads team row cs).1.mem = s.mem := by
  induction cs generalizing s with
  | nil => rfl
  | cons c cs ih => simp [State.accReads, ih]

@[simp] theorem freeRow_mem (s : State) (team row cols : Nat) : (s.freeRow team row cols).mem = s.mem :=
  foldl_mem (fun _ _ => accWrite_mem ..) _ _

/-- What is left when one lane's transfer is done is canonical. -/
def CanonicalXfer : XferRes → Prop
  | .ok t _ => Memory.wf t.mem = true
  | .bad .. => True

section Transfers

theorem canonical_plainRead {s : State} (h : Memory.wf s.mem = true) (core n : Nat) (x : XferElem) :
    CanonicalGot (s.plainRead core n x) := by
  unfold State.plainRead
  split
  · split
    · trivial
    · exact h
  · split
    · exact canonical_readHome h ..
    · exact canonical_readCached h ..

theorem wf_of_plainWrite {s t : State} (h : Memory.wf s.mem = true) {core : Nat} {x : XferElem} {bs : List Byte}
    (ht : s.plainWrite core x bs = some t) : Memory.wf t.mem = true := by
  unfold State.plainWrite at ht
  split at ht
  · split at ht
    · cases ht
    · cases ht
      exact h
  · split at ht
    · cases ht
      exact wf_writeHome h ..
    · cases ht
      exact wf_cacheStore h ..

theorem canonical_ldElems {s : State} (h : Memory.wf s.mem = true) (gk id team core row col : Nat) (fmt : Fmt) (fl : Nat)
    (xs : List (Nat × XferElem)) : CanonicalXfer (s.ldElems gk id team core row col fmt fl xs) := by
  induction xs generalizing s fl with
  | nil => exact h
  | cons x xs ih =>
    have hput {s : State} (h : Memory.wf s.mem = true) (ps : List (Nat × Word)) :
        Memory.wf (ps.foldl (fun s p => s.accWrite team row p.1 p.2) s).mem = true :=
      inv_of_mem (foldl_mem (fun _ _ => accWrite_mem ..) _ _) h
    rw [State.ldElems]
    have hr := canonical_plainRead h core (fmt.width / 8) x.2
    split
    · next t bs miss ht =>
      have hw := wf_of_got ht hr
      refine ih (hput ?_ _) _
      split
      · exact hw
      · exact wf_veil hw ..
    · trivial
    · exact ih (by simpa using hput h _) _
    · exact ih (by simpa using hput h _) _

theorem canonical_stElems {s : State} (h : Memory.wf s.mem = true) (team core row col : Nat) (fmt : Fmt) (mode : Word) (fl : Nat)
    (xs : List (Nat × XferElem)) : CanonicalXfer (s.stElems team core row col fmt mode fl xs) := by
  induction xs generalizing s fl with
  | nil => exact h
  | cons x xs ih =>
    rw [State.stElems]
    split
    · next t ht => exact ih (wf_of_plainWrite (by simpa using h) ht) _
    · trivial

theorem canonical_xferLane {s : State} (h : Memory.wf s.mem = true) (gk : Nat) (g : Group) (t : TileOp) (kind : XferKind)
    (col cnt : Nat) (fmt : Fmt) (vd : Nat) (mode : Word) (x : XferLane) :
    CanonicalXfer (s.xferLane gk g t kind col cnt fmt vd mode x) := by
  unfold State.xferLane
  cases kind with
  | ld => exact canonical_ldElems h ..
  | st => exact canonical_stElems h ..
  | z => exact inv_of_mem (foldl_mem (fun _ _ => accWrite_mem ..) _ _) h
  | rd => simpa [CanonicalXfer] using h

variable {s : State} (h : Memory.wf s.mem = true)
include h

@[simp] theorem wf_failTile (gk id : Nat) (pos : Word) (code cause : Nat) : Memory.wf (s.failTile gk id pos code cause).mem = true :=
  inv_failTile h ..

@[simp] theorem wf_xferStep (gk id : Nat) (peer : Option (Nat × Nat)) : Memory.wf (s.xferStep gk id peer).mem = true := by
  unfold State.xferStep
  split
  · exact h
  · split
    · exact h
    · split
      · split
        · exact h
        · split
          · exact wf_failTile h ..
          · next u hu =>
            have hw := wf_of_takeBlocks h hu
            simp only
            split
            · next v fl hv =>
              have hc : CanonicalXfer (.ok v fl) := by
                rw [← hv]
                split
                · trivial
                · exact canonical_xferLane hw ..
              have hv : Memory.wf v.mem = true := hc
              simpa using hv
            · simpa using hw
      · exact h

end Transfers

end Sys2Proof.Machine
end

section
/-! SUPPORT. Arrays and frame moves keep memory in its canonical form (log entry 1). -/

namespace Sys2Proof.Machine

open Sys2Proof

/-- A fold that takes a machine and more along, and leaves the machine's memory alone. -/
theorem foldl_fst_mem {α β : Type} {f : State × β → α → State × β} (hf : ∀ (r : State × β) (x : α), (f r x).1.mem = r.1.mem)
    (xs : List α) (r : State × β) : (xs.foldl f r).1.mem = r.1.mem := by
  induction xs generalizing r with
  | nil => rfl
  | cons x xs ih => rw [List.foldl_cons, ih, hf]

/-! ## Arrays -/

@[simp] theorem correctWeights_keeps_mem (s : State) (core a n : Nat) : (s.correctWeights core a n).mem = s.mem := by
  unfold State.correctWeights
  split <;> rfl

@[simp] theorem makeReady_mem (s : State) (team bank gen : Nat) (full : Bool) : (s.makeReady team bank gen full).mem = s.mem := rfl

@[simp] theorem makeLatchRoom_mem (s : State) (core rows : Nat) : (s.makeLatchRoom core rows).mem = s.mem := by
  unfold State.makeLatchRoom
  split <;> rfl

@[simp] theorem capture_mem (s : State) (n : Entry) (a : Arrival) : (s.capture n a).1.mem = s.mem := by
  unfold State.capture
  simp only [correctRegs_mem]
  exact foldl_mem (fun _ _ => logError_mem ..) _ _

@[simp] theorem runRow_mem (s : State) (n : Entry) (a : Arrival) (cls : Cls) (pb : PBank) (xyz : Nat × Nat × Nat) (row : Nat)
    (regs : List Word) : (s.runRow n a cls pb xyz row regs).1.mem = s.mem := by
  refine foldl_fst_mem (fun r col => (foldl_mem (fun _ _ => accWrite_mem ..) _ _).trans ?_) _ _
  split
  · rfl
  · exact accElem_keeps_mem ..

section Arrays

variable {s : State} (h : Memory.wf s.mem = true)
include h

@[simp] theorem wf_loadBank (gk id core team bank : Nat) (b : LBank) : Memory.wf (s.loadBank gk id core team bank b).1.mem = true := by
  unfold State.loadBank
  simp only
  refine wf_veil (wf_veil (wf_veil ?_ ..) ..) ..
  refine inv_of_mem ((foldl_mem (fun _ _ => logError_mem ..) _ _).trans (foldl_mem (fun _ _ => logError_mem ..) _ _)) ?_
  exact inv_of_mem (foldl_mem (fun _ _ => correctWeights_keeps_mem ..) _ _) h

@[simp] theorem wf_readWeights (gk id : Nat) (g : Group) (t : TileOp) (bank : Nat) (b : LBank) (full : Bool) :
    Memory.wf (s.readWeights gk id g t bank b full).mem = true := by
  have hs : Memory.wf (if full then s.acquireAction (s.seat g).1 2 else s).mem = true := by simp [h]
  unfold State.readWeights
  simp only
  generalize (if full = true then _ else s) = t at hs ⊢
  have hl := wf_loadBank hs gk id (s.seat g).1 g.team bank b
  generalize t.loadBank .. = r at hl ⊢
  split
  · simp [hl]
  · simp [hl]

@[simp] theorem wf_runArrival (n : Entry) (cls : Cls) (pb : PBank) (free : Bool) (a : Arrival) :
    Memory.wf (s.runArrival n cls pb free a).mem = true := by
  unfold State.runArrival
  split
  · exact h
  · simp only [count_mem]
    refine wf_noteSaved ?_ _
    rw [State.onGroup_mem]
    refine inv_of_mem (foldl_fst_mem (fun r l => ?_) _ _) h
    split
    · exact freeRow_mem ..
    · split
      · exact freeRow_mem ..
      · exact runRow_mem ..

@[simp] theorem wf_runEntry (core key : Nat) (n : Entry) (bi : Nat) (pb : PBank) (b : LBank) (cls : Cls) :
    Memory.wf (s.runEntry core key n bi pb b cls).mem = true := by
  unfold State.runEntry
  exact wf_foldl h (fun s a h => wf_runArrival h ..) _

end Arrays

/-! ## Frames -/

@[simp] theorem spillFault_mem (s : State) (team : Nat) (r : FrameReq) (cause : Nat) : (s.spillFault team r cause).mem = s.mem := by
  simp [State.spillFault]

@[simp] theorem beginSwap_mem (s : State) (gk : Nat) : (s.beginSwap gk).mem = s.mem := by
  unfold State.beginSwap
  split
  · rfl
  · split
    · rfl
    · simp

/-- A machine, or a cause, that keeps memory canonical. -/
def CanonicalExcept : Except Nat State → Prop
  | .ok t => Memory.wf t.mem = true
  | .error _ => True

theorem wf_of_except {t : State} {r : Except Nat State} (hr : r = .ok t) (hc : CanonicalExcept r) : Memory.wf t.mem = true := by
  subst hr
  exact hc

section Frames

variable {s : State} (h : Memory.wf s.mem = true)
include h

theorem canonical_moveOut (gk depth : Nat) : CanonicalExcept (s.moveOut gk depth) := by
  unfold State.moveOut
  split
  · exact h
  · split
    · simp only
      split
      · trivial
      · split
        · trivial
        · simp only [CanonicalExcept, count_mem, State.onGroup_mem]
          exact wf_foldl h (fun s p h => wf_written h ..) _
    · exact h

theorem canonical_refill (gk depth : Nat) : CanonicalExcept (s.refill gk depth) := by
  unfold State.refill
  split
  · exact h
  · split
    · split
      · exact h
      · simpa [CanonicalExcept] using h
      · split
        · trivial
        · simp only [CanonicalExcept, count_mem, State.onGroup_mem]
          exact wf_foldl h (fun s p h => wf_correctHome h ..) _
    · exact h

theorem canonical_swapFrame (gk : Nat) : CanonicalExcept (s.swapFrame gk) := by
  unfold State.swapFrame
  split
  · exact h
  · split
    · exact h
    · split
      · trivial
      · next t ht =>
        have hw := wf_of_except ht (canonical_moveOut h ..)
        simp only
        split <;> simpa [CanonicalExcept] using hw

end Frames

theorem canonical_refillAll {s : State} (h : Memory.wf s.mem = true) (gk : Nat) (ds : List Nat) :
    CanonicalExcept (s.refillAll gk ds) := by
  induction ds generalizing s with
  | nil => exact h
  | cons d ds ih =>
    rw [State.refillAll]
    split
    · next t ht => exact ih (wf_of_except ht (canonical_refill h ..))
    · trivial

@[simp] theorem wf_serve {s : State} (h : Memory.wf s.mem = true) (team : Nat) (r : FrameReq) :
    Memory.wf (s.serve team r).mem = true := by
  unfold State.serve
  split
  · simpa using h
  · next t ht =>
    have hw := wf_of_except ht (canonical_refillAll h ..)
    split <;> simpa using hw

@[simp] theorem startRun_mem (s : State) (core slot gk tag : Nat) : (s.startRun core slot gk tag).mem = s.mem := by
  unfold State.startRun
  simp only [State.onGroup_mem]
  exact foldl_mem (fun _ _ => State.onGroup_mem ..) _ _

@[simp] theorem closeDue_mem (s : State) (gk : Nat) : (s.closeDue gk).mem = s.mem := by
  unfold State.closeDue
  split
  · rfl
  · split
    · rfl
    · split
      · rfl
      · simp

end Sys2Proof.Machine
end

section
/-! SUPPORT. The jobs of the copy and selection engines keep memory in its canonical form (log entry 1). -/

namespace Sys2Proof.Machine

open Sys2Proof

/-! ## Engines -/

@[simp] theorem setFull_mem (s : State) (i : Nat) (b : Bool) : (s.setFull i b).mem = s.mem := State.setGran_mem ..

@[simp] theorem jobStop_mem (s : State) (gk : Nat) (r : Option FaultRec) : (s.jobStop gk r).mem = s.mem := by
  unfold State.jobStop
  split <;> simp

@[simp] theorem engineHit_mem (s : State) (gk : Nat) (pos : Word) (kind index col : Nat) (stop : Option FaultRec)
    (x : Option (Nat × Bool × Nat × Nat)) : (s.engineHit gk pos kind index col stop x).1.mem = s.mem := by
  unfold State.engineHit
  split
  · rfl
  · simp only
    split
    · simp
    · split <;> simp

section Engines

variable {s : State} (h : Memory.wf s.mem = true)
include h

@[simp] theorem wf_writeSeg (plain : Bool) (x : Seg) (bs : List Byte) : Memory.wf (s.writeSeg plain x bs).mem = true := by
  unfold State.writeSeg
  split
  · exact h
  · split
    · exact wf_writeHome h ..
    · exact wf_writeQuiet h ..

@[simp] theorem wf_writeSegs (plain : Bool) (segs : List Seg) (bs : List Byte) : Memory.wf (s.writeSegs plain segs bs).mem = true :=
  wf_clearPoison (wf_foldl h (fun _ _ h => wf_writeSeg h ..) _) _

@[simp] theorem wf_engineDown (gk n : Nat) (flags : Word) : Memory.wf (s.engineDown gk n flags).mem = true :=
  wf_noteSaved (by simpa using h) _

@[simp] theorem wf_engineFault (gk : Nat) (pos : Word) (sub addr under row col : Nat) :
    Memory.wf (s.engineFault gk pos sub addr under row col).mem = true :=
  wf_noteSaved (by simpa using h) _

@[simp] theorem wf_jobRelease (gk core : Nat) (pos : Word) : Memory.wf (s.jobRelease gk core pos).mem = true := by
  unfold State.jobRelease
  simp only
  split <;> simp [h]

@[simp] theorem wf_dropLines (gk core : Nat) (pos : Word) (lines : List Nat) : Memory.wf (s.dropLines gk core pos lines).mem = true := by
  unfold State.dropLines
  simp only
  split <;> simp [h]

theorem wf_of_readSeg {t : State} {x : Seg} {bs : List Byte} (ht : s.readSeg x = .ok (t, bs)) : Memory.wf t.mem = true :=
  wf_side h (memSide_readSeg ht)

theorem wf_of_readSegsFor {t : State} {gk id : Nat} {xs : List Seg} {bs : List Byte} (ht : s.readSegsFor gk id xs = .ok (t, bs)) :
    Memory.wf t.mem = true :=
  wf_side h (memSide_readSegsFor ht)

end Engines

/-! ## Copy jobs -/

@[simp] theorem chunkFinds_mem (s : State) (cluster gk id : Nat) (consumes : Bool) (gs : List Nat) :
    (s.chunkFinds cluster gk id consumes gs).mem = s.mem := by
  unfold State.chunkFinds
  simp only [onCopyJob_mem]
  split
  · exact foldl_mem (fun _ _ => setFull_mem ..) _ _
  · rfl

@[simp] theorem pauseCopy_mem (s : State) (cluster : Nat) (j : CopyJob) (sub addr : Nat) :
    (s.pauseCopy cluster j sub addr).mem = s.mem := by
  simp [State.pauseCopy]

@[simp] theorem chunkWait_mem (s : State) (cluster : Nat) (j : CopyJob) (w : ChunkWork) : (s.chunkWait cluster j w).mem = s.mem := by
  unfold State.chunkWait
  simp only
  split
  · split <;> simp
  · simp

section Copies

variable {s : State} (h : Memory.wf s.mem = true)
include h

@[simp] theorem wf_give (x : FeWait) : Memory.wf (s.give x).mem = true := by
  unfold State.give
  split
  · split
    · simpa using h
    · split
      · simpa using h
      · split
        · exact h
        · exact wf_performLoad (by simpa using h) ..
  · simpa using h
  · split
    · split <;> simpa using h
    · simpa using h

@[simp] theorem wf_failCopy (cluster : Nat) (j : CopyJob) (sub addr under : Nat) :
    Memory.wf (s.failCopy cluster j sub addr under).mem = true :=
  wf_engineFault (wf_engineDown (by simpa using h) ..) ..

@[simp] theorem wf_checkChunk (cluster : Nat) (p : Party) (j : CopyJob) : Memory.wf (s.checkChunk cluster p j).mem = true := by
  unfold State.checkChunk
  split
  · exact h
  · simp only
    split
    · simp [h]
    · simpa using h
    · split
      · simp [h]
      · simpa using h
      · simp [h]

theorem wf_of_readIndex {t : State} {p : Party} {j : CopyJob} {i : Nat} (ht : s.readIndex p j = .ok t i) : Memory.wf t.mem = true := by
  unfold State.readIndex at ht
  split at ht
  · cases ht
  · cases ht
  · split at ht
    · cases ht
    · next u bs hu =>
      cases ht
      simp [wf_of_readSegsFor h hu]

@[simp] theorem wf_beginChunk (cluster : Nat) (p : Party) (j : CopyJob) : Memory.wf (s.beginChunk cluster p j).mem = true := by
  have hs : Memory.wf (if j.row == 0 && j.chunk == 0 then s.jobRelease j.gk p.core j.pos else s).mem = true := by simp [h]
  unfold State.beginChunk
  simp only
  generalize (if (j.row == 0 && j.chunk == 0) = true then _ else s) = t at hs ⊢
  split
  · simp [hs]
  · split
    · simp [hs]
    · simp [hs]
    · simpa using hs
    · next u i hu => exact wf_checkChunk (by simpa using wf_of_readIndex hs hu) ..

@[simp] theorem wf_nextChunk (cluster core : Nat) (j : CopyJob) : Memory.wf (s.nextChunk cluster core j).mem = true := by
  unfold State.nextChunk
  split
  · split
    · simp only [jobStop_mem]
      exact wf_engineDown (wf_dropLines (by simpa using h) ..) ..
    · simpa using h
  · simpa using h

@[simp] theorem wf_readPiece (cluster : Nat) (p : Party) (j : CopyJob) (w : ChunkWork) :
    Memory.wf (s.readPiece cluster p j w).mem = true := by
  unfold State.readPiece
  split
  · split
    · simp [h]
    · split
      · simp [h]
      · next t bs ht => simp [wf_of_readSeg h ht]
  · split
    · simp [h]
    · simpa using h

@[simp] theorem wf_writePiece (cluster : Nat) (p : Party) (j : CopyJob) (w : ChunkWork) :
    Memory.wf (s.writePiece cluster p j w).mem = true := by
  unfold State.writePiece
  split
  · simp only [setWork_mem]
    exact wf_foldl h (fun _ _ h => wf_writeSeg h ..) _
  · simp [h]

@[simp] theorem wf_stepChunk (cluster : Nat) (p : Party) (j : CopyJob) (w : ChunkWork) :
    Memory.wf (s.stepChunk cluster p j w).mem = true := by
  unfold State.stepChunk
  split
  · simpa using h
  · have hr := wf_jobRelease h j.gk p.core j.pos
    simp [h, hr]
  · simp [h]
  · simp [h]
  · split <;> simp [h]

@[simp] theorem wf_peerCopy (cluster gk id : Nat) (f : PeerFault) : Memory.wf (s.peerCopy cluster gk id f).mem = true := by
  unfold State.peerCopy
  split
  · exact h
  · split
    · exact h
    · split
      · exact h
      · split
        · simp [h]
        · exact h

end Copies

@[simp] theorem wf_pressOn {s : State} (h : Memory.wf s.mem = true) (cluster gk id : Nat) (p : Party) (fuel : Nat) :
    Memory.wf (s.pressOn cluster gk id p fuel).mem = true := by
  induction fuel generalizing s with
  | zero => exact h
  | succ fuel ih =>
    rw [State.pressOn]
    split
    · split
      · split
        · exact ih (wf_stepChunk h ..)
        · exact h
      · exact h
    · exact h

@[simp] theorem wf_finishChunk {s : State} (h : Memory.wf s.mem = true) (cluster gk fuel : Nat) :
    Memory.wf (s.finishChunk cluster gk fuel).mem = true := by
  induction fuel generalizing s with
  | zero => exact h
  | succ fuel ih =>
    rw [State.finishChunk]
    split
    · exact h
    · split
      · exact ih (wf_stepChunk h ..)
      · exact h

/-! ## Selection jobs -/

@[simp] theorem selWrote_mem (s : State) (cluster : Nat) (p : Party) (j : SelJob) (segs : List Seg) :
    (s.selWrote cluster p j segs).1.mem = s.mem := engineHit_mem ..

@[simp] theorem pauseSel_mem (s : State) (cluster : Nat) (j : SelJob) (sub addr : Nat) :
    (s.pauseSel cluster j sub addr).mem = s.mem := by
  simp [State.pauseSel]

/-- What an engine got leaves a canonical memory. -/
def CanonicalEng {α : Type} : EngRes α → Prop
  | .ok t _ => Memory.wf t.mem = true
  | _ => True

theorem wf_of_eng {α : Type} {t : State} {x : α} {r : EngRes α} (hr : r = .ok t x) (hc : CanonicalEng r) : Memory.wf t.mem = true := by
  subst hr
  exact hc

section Selections

variable {s : State} (h : Memory.wf s.mem = true)
include h

@[simp] theorem wf_failSel (cluster : Nat) (j : SelJob) (sub code addr : Nat) : Memory.wf (s.failSel cluster j sub code addr).mem = true :=
  wf_engineFault (wf_engineDown (by simpa using h) ..) ..

theorem wf_elim {α : Type} {r : EngRes α} {cluster : Nat} {j : SelJob} {f : State → α → State} (hr : CanonicalEng r)
    (hf : ∀ t x, Memory.wf t.mem = true → Memory.wf (f t x).mem = true) : Memory.wf (r.elim s cluster j f).mem = true := by
  cases r with
  | ok t x => exact hf t x hr
  | fail => exact wf_failSel h ..
  | pause => simpa [EngRes.elim] using h

theorem canonical_selGet (p : Party) (gk id sub : Nat) (rs : List (Nat × Nat)) : CanonicalEng (s.selGet p gk id sub rs) := by
  unfold State.selGet
  split
  · trivial
  · trivial
  · split
    · trivial
    · split
      · trivial
      · next t bs ht => simp [CanonicalEng, wf_of_readSegsFor h ht]

theorem canonical_selPut (p : Party) (sub addr : Nat) (bs : List Byte) : CanonicalEng (s.selPut p sub addr bs) := by
  unfold State.selPut
  split
  · trivial
  · trivial
  · split
    · trivial
    · simp [CanonicalEng, h]

end Selections

theorem canonical_countElems {s : State} (h : Memory.wf s.mem = true) (p : Party) (j : SelJob) (es : List Elem)
    (bins : KMap (Nat × Nat × Nat)) : CanonicalEng (s.countElems p j es bins) := by
  induction es generalizing s bins with
  | nil => exact h
  | cons x es ih =>
    rw [State.countElems]
    split
    · exact ih h _
    · split
      · exact ih h _
      · simp only
        split
        · trivial
        · trivial
        · next t bs ht =>
          have hw := wf_of_eng ht (canonical_selGet h ..)
          split
          · exact ih hw _
          · split
            · trivial
            · exact ih hw _

section Passes

variable {s : State} (h : Memory.wf s.mem = true)
include h

@[simp] theorem wf_selRecord (cluster : Nat) (p : Party) (j : SelJob) (taint : Bool) (bs : List Byte) :
    Memory.wf (s.selRecord cluster p j taint bs).mem = true := by
  unfold State.selRecord
  simp only
  refine wf_elim (by simpa using h) (canonical_selPut (by simpa using h) ..) fun t segs ht => ?_
  split
  · simp [ht]
  · simpa using ht
  · simp only [jobStop_mem]
    refine wf_engineDown ?_ ..
    rw [State.setSelQueue_mem]
    refine wf_foldl (wf_dropLines (by simpa using ht) ..) (fun u x h => ?_) _
    split
    · exact h
    · exact wf_writeHome h ..

@[simp] theorem wf_selFinish (cluster : Nat) (p : Party) (j : SelJob) (lost : Bool) (sel : Nat → Bool) (bs : List Byte) :
    Memory.wf (s.selFinish cluster p j lost sel bs).mem = true := by
  unfold State.selFinish
  simp only
  split
  · exact wf_elim (by simpa using h) (canonical_selPut (by simpa using h) ..) fun t segs ht => wf_selRecord (by simpa using ht) ..
  · exact wf_selRecord h ..

@[simp] theorem wf_selEmpty (cluster : Nat) (p : Party) (j : SelJob) : Memory.wf (s.selEmpty cluster p j).mem = true :=
  wf_selFinish h ..

@[simp] theorem wf_selDone (cluster : Nat) (p : Party) (j : SelJob) (v ties idx : Nat) :
    Memory.wf (s.selDone cluster p j v ties idx).mem = true :=
  wf_elim h (canonical_selGet h ..) fun _ _ ht => wf_selFinish ht ..

@[simp] theorem wf_selEnd (cluster : Nat) (p : Party) (j : SelJob) (x : SelEnd) : Memory.wf (s.selEnd cluster p j x).mem = true := by
  cases x with
  | found => exact wf_selDone h ..
  | empty => exact wf_selEmpty h ..
  | lost => exact wf_selFinish h ..

@[simp] theorem wf_endPassSel (cluster : Nat) (p : Party) (j : SelJob) : Memory.wf (s.endPassSel cluster p j).mem = true := by
  unfold State.endPassSel
  extract_lets sums members j' empty
  clear_value j' empty
  split
  · exact wf_selEnd h ..
  · split
    · exact wf_selEnd h ..
    · split
      · exact wf_selEnd h ..
      · simpa using h

@[simp] theorem wf_emitChunk (cluster : Nat) (p : Party) (j : SelJob) (es : List Elem) :
    Memory.wf (s.emitChunk cluster p j es).mem = true := by
  unfold State.emitChunk
  extract_lets u hits cnt next
  have hnext (t : State) (j : SelJob) (ht : Memory.wf t.mem = true) : Memory.wf (next t j).mem = true := by
    have ht : Memory.wf (t.count p.la.ctx 14 1).mem = true := by simpa using ht
    unfold next
    extract_lets v j' w
    have hv : Memory.wf v.mem = true := ht
    clear_value j' v
    split
    · simpa using hv
    · have hw : Memory.wf w.mem = true := by
        unfold w
        split
        · split
          · next x segs hx => exact inv_of_mem (s := x) rfl (wf_of_eng hx (canonical_selPut hv ..))
          · exact hv
        · exact hv
      split
      · exact wf_selEmpty hw ..
      · exact wf_selRecord hw ..
  split
  · exact hnext _ _ h
  · exact wf_elim h (canonical_selPut h ..) fun t segs ht => hnext _ _ (by simpa using ht)

theorem wf_selStart (cluster : Nat) (p : Party) (j : SelJob) {k : State → SelJob → State}
    (hk : ∀ t j, Memory.wf t.mem = true → Memory.wf (k t j).mem = true) : Memory.wf (s.selStart cluster p j k).mem = true := by
  unfold State.selStart
  extract_lets first t j' mask
  have hs : Memory.wf t.mem = true := by
    unfold t
    simp [h]
  clear_value j' t
  refine wf_elim hs ?_ fun u mask hu => ?_
  · unfold mask
    split
    · exact canonical_selGet hs ..
    · exact hs
  · extract_lets j''
    clear_value j''
    split
    · exact wf_elim hu (canonical_selGet hu ..) fun v bs hv => hk _ _ hv
    · split
      · exact hk _ _ hu
      · exact hk _ _ hu

@[simp] theorem wf_selChunk (cluster : Nat) (p : Party) (j : SelJob) : Memory.wf (s.selChunk cluster p j).mem = true := by
  unfold State.selChunk
  split
  · exact wf_selEnd h ..
  · refine wf_elim h (canonical_selGet h ..) fun t bs ht => ?_
    simp only
    split
    · exact wf_emitChunk ht ..
    · refine wf_elim ht (canonical_countElems ht ..) fun u bins hu => ?_
      split
      · simpa using hu
      · exact wf_endPassSel (by simpa using hu) ..

@[simp] theorem wf_peerSel (cluster gk id : Nat) (f : PeerFault) : Memory.wf (s.peerSel cluster gk id f).mem = true := by
  unfold State.peerSel
  split
  · exact h
  · split
    · exact h
    · split
      · exact h
      · split
        · simp [h]
        · exact h

end Passes

end Sys2Proof.Machine
end

section
/-! SUPPORT. Launches in queues, collectives, messages and the answers of peers keep memory in its canonical form (log entry 1). -/

namespace Sys2Proof.Machine

open Sys2Proof

/-! ## Launches and event counters -/

@[simp] theorem setEvent_mem (s : State) (i : Nat) (v : Dword) : (s.setEvent i v).mem = s.mem := State.noteWaits_mem _
@[simp] theorem addEvent_mem (s : State) (i n : Nat) : (s.addEvent i n).mem = s.mem := setEvent_mem ..

section Launches

variable {s : State} (h : Memory.wf s.mem = true)
include h

theorem wf_of_beforeAll {t : State} {gk id : Nat} {pos : Word} (ht : s.beforeAll gk id pos = some t) : Memory.wf t.mem = true := by
  unfold State.beforeAll at ht
  split at ht
  · cases ht
  · split at ht
    · cases ht
      exact wf_jobRelease h ..
    · cases ht

theorem wf_of_recordBytes {t : State} {gk id : Nat} {x : LaneAcc} {bs : List Byte} (ht : s.recordBytes gk id x = some (t, bs)) :
    Memory.wf t.mem = true := by
  unfold State.recordBytes at ht
  split at ht
  · next r hr =>
    cases ht
    exact wf_of_readSegsFor h hr
  · cases ht

@[simp] theorem wf_appendRecord (gk : Nat) (g : Group) (a : Access) (x : LaneAcc) :
    Memory.wf (s.appendRecord gk g a x).mem = true := by
  unfold State.appendRecord
  simp only
  split
  · exact h
  · split
    · exact h
    · exact wf_noteSaved (by simpa using h) _

@[simp] theorem wf_failLaunch (gk : Nat) (a : Access) (x : LaneAcc) (code cause : Nat) :
    Memory.wf (s.failLaunch gk a x code cause).mem = true :=
  wf_noteSaved (by simpa using h) _

@[simp] theorem wf_peerLaunch (gk : Nat) (g : Group) (a : Access) (x : LaneAcc) (f : PeerFault) :
    Memory.wf (s.peerLaunch gk g a x f).mem = true := by
  unfold State.peerLaunch
  split
  · exact wf_failLaunch h ..
  · exact h

end Launches

/-! ## Collectives -/

@[simp] theorem collFor_mem (s : State) (cid : Word) (n : Nat) : (s.collFor cid n).1.mem = s.mem := by
  unfold State.collFor
  split <;> rfl

@[simp] theorem pauseColl_mem (s : State) (x : CollPart) (addr : Nat) : (s.pauseColl x addr).mem = s.mem := pauseRecord_mem ..

section Collectives

variable {s : State} (h : Memory.wf s.mem = true)
include h

@[simp] theorem wf_failCollJob (gk id : Nat) (pos : Word) (sub addr under : Nat) :
    Memory.wf (s.failCollJob gk id pos sub addr under).mem = true :=
  wf_engineFault (wf_engineDown (by simpa using h) ..) ..

@[simp] theorem wf_failColl (index sub : Nat) : Memory.wf (s.failColl index sub).mem = true := by
  unfold State.failColl
  split
  · exact h
  · refine wf_foldl ?_ (fun _ _ h => wf_failCollJob h ..) _
    exact h

@[simp] theorem wf_failPart (index : Nat) (x : CollPart) (sub addr under : Nat) :
    Memory.wf (s.failPart index x sub addr under).mem = true := by
  unfold State.failPart
  split
  · exact wf_failCollJob h ..
  · refine wf_failColl (wf_failCollJob ?_ ..) ..
    exact h

@[simp] theorem wf_joinColl (x : CollPart) (fail : Option (Nat × Nat × Nat)) : Memory.wf (s.joinColl x fail).mem = true := by
  unfold State.joinColl
  extract_lets q key n t r u
  have hu : Memory.wf u.mem = true := by simpa [u, r, t, q] using h
  clear_value u
  split
  · exact hu
  · split
    · exact wf_failCollJob hu ..
    · exact wf_failPart hu ..
    · split
      · exact hu
      · refine wf_failColl ?_ ..
        exact hu

@[simp] theorem wf_startColl (gk id : Nat) : Memory.wf (s.startColl gk id).mem = true := by
  unfold State.startColl
  split
  · exact h
  · extract_lets earlier
    split
    · exact h
    · split
      · exact h
      · extract_lets read list
        have hread (addr n : Nat) : CanonicalEng (read addr n) := by
          unfold read
          split
          · trivial
          · trivial
          · split
            · trivial
            · split
              · trivial
              · next t bs ht => simp [CanonicalEng, wf_of_readSegsFor h ht]
        have hlist : CanonicalEng list := by
          unfold list
          split
          · exact h
          · exact hread ..
        clear_value read list
        cases list with
        | fail => exact wf_joinColl h ..
        | pause => simpa using h
        | ok t l =>
          have ht : Memory.wf t.mem = true := hlist
          simp only
          split
          · exact wf_joinColl ht ..
          · split
            · exact wf_joinColl ht ..
            · simpa using ht
            · next u bs hu => exact wf_joinColl (wf_of_eng hu (hread ..)) ..

@[simp] theorem wf_deliverColl (x : CollPart) (segs : List Seg) (fill : List TlbEntry) (bs : List Byte) (flags : Word) :
    Memory.wf (s.deliverColl x segs fill bs flags).mem = true := by
  unfold State.deliverColl
  extract_lets ctx core t u v r
  have ht : Memory.wf t.mem = true := wf_dropLines (wf_writeSegs (wf_fillTlb h ..) ..) ..
  clear_value t
  have hu : Memory.wf u.mem = true := by
    unfold u
    split
    · exact ht
    · exact inv_of_mem (foldl_mem (fun _ _ => setFull_mem ..) _ _) ht
  clear_value u
  have hr : Memory.wf r.1.mem = true := by simpa [r, v] using hu
  clear_value r
  simp [hr]

@[simp] theorem wf_finishColl (index : Nat) (bs : List Byte) (flags : Word) : Memory.wf (s.finishColl index bs flags).mem = true := by
  unfold State.finishColl
  split
  · exact h
  · extract_lets lost fl r t b dests u left
    have ht : Memory.wf t.mem = true := by
      unfold t r
      split <;> exact h
    clear_value t b
    split
    · exact wf_failPart ht ..
    · have hu : Memory.wf u.mem = true := by
        refine wf_foldl ht (fun v p h => ?_) _
        split
        · exact wf_deliverColl h ..
        · simpa using h
        · exact h
      split <;> exact hu

@[simp] theorem wf_peerColl (gk id : Nat) (f : PeerFault) : Memory.wf (s.peerColl gk id f).mem = true := by
  unfold State.peerColl
  simp only
  split
  · split
    · exact h
    · split
      · exact wf_joinColl h ..
      · exact h
  · split
    · exact h
    · split
      · exact h
      · split
        · exact wf_failPart h ..
        · exact h

end Collectives

/-! ## Messages -/

section Messages

variable {s : State} (h : Memory.wf s.mem = true)
include h

@[simp] theorem wf_failMsg (index : Nat) (m : Message) (sub : Nat) : Memory.wf (s.failMsg index m sub).mem = true := by
  unfold State.failMsg
  simp only
  split
  · exact h
  · refine wf_failCollJob ?_ ..
    exact h

@[simp] theorem wf_sweepMsgs : Memory.wf s.sweepMsgs.mem = true := by
  unfold State.sweepMsgs
  refine wf_foldl h (fun s p h => ?_) _
  split
  · exact wf_failMsg h ..
  · exact h

@[simp] theorem wf_fillInbox (index : Nat) (m : Message) : Memory.wf (s.fillInbox index m).mem = true := by
  unfold State.fillInbox
  extract_lets key ctx t u v w die gk x
  have ht : Memory.wf t.mem = true := h
  clear_value t ctx key
  have hv : Memory.wf v.mem = true := inv_of_mem (foldl_mem (fun _ _ => setFull_mem ..) _ _) (wf_writeQuiet ht ..)
  clear_value v
  have hw : Memory.wf w.mem = true := by
    unfold w
    split
    · exact inv_of_mem (count_mem ..) hv
    · exact hv
  clear_value w
  have hx : Memory.wf x.mem = true := by
    unfold x
    split
    · exact hw
    · exact inv_of_mem (State.addRecord_mem ..) hw
  clear_value x
  split
  · exact hx
  · exact wf_engineDown hx ..

theorem wf_of_beforeMsg {t : State} {m : Message} (ht : s.beforeMsg m = some t) : Memory.wf t.mem = true := by
  unfold State.beforeMsg at ht
  split at ht
  · cases ht
  · split at ht
    · cases ht
      exact wf_noteSaved (wf_jobRelease h ..) _
    · cases ht

@[simp] theorem wf_sendMsg (index : Nat) (m : Message) : Memory.wf (s.sendMsg index m).mem = true := by
  unfold State.sendMsg
  simp only
  split
  · exact h
  · split
    · exact h
    · next t ht =>
      have ht := wf_of_beforeMsg h ht
      split
      · split
        · exact wf_failMsg ht ..
        · split <;> exact ht
      · split
        · exact wf_failMsg ht ..
        · exact ht

@[simp] theorem wf_inboundAtomic (a : Inbound) (x : PathEntry) (k : AccKind) (f : Fmt) :
    Memory.wf (s.inboundAtomic a x k f).mem = true := by
  unfold State.inboundAtomic
  extract_lets n r t old m u v
  have ht : Memory.wf t.mem = true := wf_home h ..
  clear_value t
  split
  · exact ht
  · have hu : Memory.wf u.mem = true := wf_written (wf_correctHome ht ..) ..
    clear_value u
    have hv : Memory.wf v.mem = true := by
      unfold v
      split
      · exact wf_tagRelease hu ..
      · exact hu
    clear_value v
    split
    · exact hv
    · simpa using hv

@[simp] theorem wf_peerAnswer (gk id : Nat) (f : PeerFault) : Memory.wf (s.peerAnswer gk id f).mem = true := by
  unfold State.peerAnswer
  split
  · exact h
  · simp only
    split
    · split
      · exact wf_peerLaunch h ..
      · exact h
    · split
      · split <;> split <;> simp [h]
      · split
        · exact wf_peerCopy h ..
        · split
          · exact wf_peerSel h ..
          · exact wf_peerColl h ..

end Messages

end Sys2Proof.Machine
end

section
/-! SUPPORT. Queue heads, teams, saves and restores keep memory in its canonical form (log entry 1). -/

namespace Sys2Proof.Machine

open Sys2Proof

/-! ## Queue heads -/

@[simp] theorem setCurrent_mem (s : State) (q : Nat) (l : Option Nat) : (s.setCurrent q l).mem = s.mem := by
  unfold State.setCurrent
  split <;> simp

@[simp] theorem wf_correctHub {s : State} (h : Memory.wf s.mem = true) (ctx fuel va n : Nat) :
    Memory.wf (s.correctHub ctx fuel va n).mem = true := by
  induction fuel generalizing s va n with
  | zero => exact h
  | succ fuel ih =>
    cases n with
    | zero => exact h
    | succ n =>
      rw [State.correctHub]
      · split
        · exact ih (wf_correctPhys (wf_walked h _) ..) ..
        · exact h
      · exact Nat.succ_ne_zero n

section Heads

variable {s : State} (h : Memory.wf s.mem = true)
include h

@[simp] theorem wf_popHead (q : Nat) : Memory.wf (s.popHead q).mem = true := by
  unfold State.popHead
  split
  · rw [State.setHostQueue_mem]
    exact wf_correctPhys h ..
  · simpa using h

@[simp] theorem wf_finishEntry (ctx fn : Nat) (r : List Byte) (status : Nat) (id : Word) :
    Memory.wf (s.finishEntry ctx fn r status id).mem = true := by
  unfold State.finishEntry
  extract_lets addr t sig u v
  have ht : Memory.wf t.mem = true := by
    unfold t
    split
    · exact h
    · split
      · exact h
      · exact wf_physWrite (wf_hubWalked h ..) ..
  clear_value t
  have hu : Memory.wf u.mem = true := by
    unfold u
    split
    · simpa using ht
    · exact ht
  clear_value u
  split <;> exact hu

@[simp] theorem wf_refuseEntry (q : Nat) (x : HeadEntry) (status : Nat) : Memory.wf (s.refuseEntry q x status).mem = true := by
  unfold State.refuseEntry
  extract_lets t
  have ht : Memory.wf t.mem = true := wf_popHead h q
  clear_value t
  refine wf_finishEntry ?_ ..
  exact ht

@[simp] theorem wf_placeModule (f : List Byte) (ss : List Sect) (offs : List (Option Nat)) (size base handle va : Nat)
    (patches : List Patch) : Memory.wf (s.placeModule f ss offs size base handle va patches).mem = true := by
  unfold State.placeModule
  extract_lets t u
  have ht : Memory.wf t.mem = true := by
    refine wf_foldl h (fun s p h => ?_) _
    split
    · exact h
    · exact wf_physWrite h ..
  clear_value t
  have hu : Memory.wf u.mem = true := wf_foldl ht (fun _ _ h => wf_physWrite h ..) _
  exact hu

@[simp] theorem wf_writeCounting (l : Launch) (status : Nat) : Memory.wf (s.writeCounting l status).mem = true := by
  unfold State.writeCounting
  split
  · exact h
  · split
    · split
      · exact wf_physWrite (wf_hubWalked h ..) ..
      · exact h
    · exact h

@[simp] theorem wf_endEntry (l : Launch) (status : Nat) : Memory.wf (s.endEntry l status).mem = true :=
  wf_finishEntry (wf_writeCounting h ..) ..

end Heads

/-! ## Teams -/

@[simp] theorem noteGroup_mem (s : State) (g : Group) (retired : Nat) : (s.noteGroup g retired).mem = s.mem := by
  unfold State.noteGroup
  split <;> simp

@[simp] theorem lastTeam_mem (s : State) (id : Nat) : (s.lastTeam id).mem = s.mem := by
  unfold State.lastTeam
  split
  · rfl
  · split
    · rfl
    · simp

@[simp] theorem dropTeam_mem (s : State) (t : Nat) : (s.dropTeam t).mem = s.mem := rfl
@[simp] theorem dropGroup_mem (s : State) (gk : Nat) : (s.dropGroup gk).mem = s.mem := rfl

section Teams

variable {s : State} (h : Memory.wf s.mem = true)
include h

@[simp] theorem wf_settleEntries (team : Nat) : Memory.wf (s.settleEntries team).mem = true := inv_settleEntries h team

@[simp] theorem wf_clearUnits (vault unit n : Nat) : Memory.wf (s.clearUnits vault unit n).mem = true := by
  unfold State.clearUnits
  simp only
  split
  · exact h
  · exact Memory.wf_clear h ..

@[simp] theorem wf_startLaunch (l : Launch) (p : Place) : Memory.wf (s.startLaunch l p).mem = true := by
  unfold State.startLaunch
  split
  · exact h
  · extract_lets q cnt t u
    have ht : Memory.wf t.mem = true := by
      unfold t
      split <;> exact h
    clear_value t
    have hu : Memory.wf u.mem = true := by
      unfold u
      split
      · exact wf_foldl ht (fun _ _ h => wf_clearUnits h ..) _
      · exact ht
    clear_value u
    simpa using hu

@[simp] theorem wf_retireGroup (gk : Nat) (g : Group) : Memory.wf (s.retireGroup gk g).mem = true := by
  unfold State.retireGroup
  extract_lets team t u v w x y id
  have ht : Memory.wf t.mem = true := by simp [t, h]
  clear_value t
  have hu : Memory.wf u.mem = true := by simpa [u] using ht
  clear_value u
  have hv : Memory.wf v.mem = true := by
    refine wf_foldl hu (fun s q h => wf_checkBarrier ?_ ..) _
    simpa using h
  clear_value v
  have hw : Memory.wf w.mem = true := hv
  clear_value w
  have hx : Memory.wf x.mem = true := wf_foldl hw (fun s q h => wf_checkBarrier h ..) _
  clear_value x
  have hy : Memory.wf y.mem = true := wf_settleEntries hx _
  clear_value y
  split
  · exact wf_sweepMsgs (by simpa using hy)
  · exact hy

@[simp] theorem wf_finishChunks (gk : Nat) : Memory.wf (s.finishChunks gk).mem = true := by
  unfold State.finishChunks
  refine wf_foldl h (fun s cl h => ?_) _
  split
  · exact wf_finishChunk h ..
  · exact h

@[simp] theorem wf_discardGroup (gk : Nat) : Memory.wf (s.discardGroup gk).mem = true := by
  unfold State.discardGroup
  extract_lets t mine u v w
  have ht : Memory.wf t.mem = true := wf_finishChunks h gk
  clear_value t
  have hu : Memory.wf u.mem = true := by
    unfold u
    split
    · simpa using ht
    · exact ht
  clear_value u
  have hv : Memory.wf v.mem = true := by
    refine wf_foldl hu (fun s p h => ?_) _
    split
    · refine wf_failColl ?_ ..
      exact h
    · exact h
  exact hv

@[simp] theorem wf_endLaunch (l : Launch) : Memory.wf (s.endLaunch l).mem = true := by
  unfold State.endLaunch
  extract_lets ts t u
  have ht : Memory.wf t.mem = true := by
    refine wf_foldl h (fun s k h => ?_) _
    rw [dropTeam_mem]
    exact wf_foldl h (fun s gk h => wf_discardGroup h gk) _
  clear_value t
  have hu : Memory.wf u.mem = true := by
    unfold u
    split
    · simpa using ht
    · exact ht
  clear_value u
  split
  · exact hu
  · exact wf_sweepMsgs (wf_endEntry hu ..)

@[simp] theorem wf_hostEnds (l : Nat) : Memory.wf (s.hostEnds l).mem = true := by
  unfold State.hostEnds
  split
  · exact h
  · exact wf_endLaunch h _

@[simp] theorem wf_admitTeam (l : Launch) (m : Module) (p : Place) : Memory.wf (s.admitTeam l m p).mem = true := by
  unfold State.admitTeam
  extract_lets u k key v w st args mode groups x y z a b
  have hu : Memory.wf u.mem = true := wf_startLaunch h l p
  clear_value u
  have hw : Memory.wf w.mem = true := wf_clearUnits (wf_clearUnits hu ..) ..
  clear_value w groups
  have hx : Memory.wf x.mem = true := inv_of_mem (foldl_mem (fun _ _ => State.setGroup_mem ..) _ _) hw
  clear_value x
  have hz : Memory.wf z.mem = true := hx
  clear_value z
  have ha : Memory.wf a.mem = true := wf_acquireAction (wf_jobRelease hz ..) ..
  clear_value a
  have hb : Memory.wf b.mem = true := ha
  clear_value b
  split
  · simpa using hb
  · exact hb

end Teams

/-! ## Saves -/

@[simp] theorem saveFrame_mem (s : State) (gk depth : Nat) : (s.saveFrame gk depth).mem = s.mem := by
  unfold State.saveFrame
  split
  · rfl
  · simp only
    split <;> simp

@[simp] theorem saveGroup_mem (s : State) (alone : Bool) (gk : Nat) : (s.saveGroup alone gk).mem = s.mem := by
  unfold State.saveGroup
  simp only [State.onGroup_mem]
  exact foldl_mem (fun _ _ => saveFrame_mem ..) _ _

@[simp] theorem restTeam_mem (s : State) (t core : Nat) : (s.restTeam t core).mem = s.mem := by
  simp [State.restTeam]

@[simp] theorem lateTeam_mem (s : State) (t : Nat) : (s.lateTeam t).mem = s.mem := by
  refine foldl_mem (fun s k => ?_) _ _
  split <;> simp

section Saves

variable {s : State} (h : Memory.wf s.mem = true)
include h

@[simp] theorem wf_correctUnits (tm : Team) : Memory.wf (s.correctUnits tm).mem = true := wf_correctHome (wf_correctHome h ..) ..

@[simp] theorem wf_writeFrame (t : Nat) (tm : Team) (whole : Bool) (fresh : List Nat) :
    Memory.wf (s.writeFrame t tm whole fresh).mem = true := by
  unfold State.writeFrame
  exact wf_foldl h (fun s p h => wf_physWrite h ..) _

@[simp] theorem wf_noteStop (gk : Nat) : Memory.wf (s.noteStop gk).mem = true := by
  unfold State.noteStop
  simp only
  split
  · split
    · exact wf_physWrite (wf_physWrite h ..) ..
    · exact h
  · exact h

/-- Said of the invariant by name: the kernel then compares machines, not the bytes they hold. -/
theorem inv_writeFrame (t : Nat) (tm : Team) (whole : Bool) (fresh : List Nat) : (s.writeFrame t tm whole fresh).Inv :=
  wf_writeFrame h ..

@[simp] theorem wf_saveWhole (t : Nat) (fresh : List Nat) : Memory.wf (s.saveWhole t fresh).mem = true := by
  change State.Inv _
  unfold State.saveWhole
  split
  · exact h
  · next tm _ =>
    extract_lets u v w grans x y
    have hs : ((s.restTeam t tm.core).lateTeam t).Inv := by simpa using h
    have hu : u.Inv := show (State.correctUnits _ tm).Inv from wf_correctUnits hs tm
    have hv : v.Inv := inv_of_mem (State.onTeam_mem ..) hu
    have hw : w.Inv := by
      unfold w
      split
      · exact inv_writeFrame hv ..
      · exact hv
    have hx : x.Inv := inv_of_mem (State.onTeam_mem ..) hw
    exact wf_sweepMsgs (wf_clearUnits (wf_clearUnits hx ..) ..)

end Saves

/-! ## Restores -/

@[simp] theorem reloadJobs_mem (s : State) (rd : FrameRead) (core gk : Nat) : (s.reloadJobs rd core gk).mem = s.mem := rfl

@[simp] theorem reloadEntries_mem (s : State) (rd : FrameRead) (t : Nat) (banks : KMap LBank) :
    (s.reloadEntries rd t banks).mem = s.mem := rfl

@[simp] theorem release_mem (s : State) (gk : Nat) (step : Bool) : (s.release gk step).mem = s.mem := by
  simp [State.release]

theorem wf_againOps {s : State} (h : Memory.wf s.mem = true) (gk : Nat) (p : Party) (ops : List Access) :
    Memory.wf (s.againOps gk p ops).mem = true := by
  induction ops generalizing s with
  | nil => exact h
  | cons a ops ih =>
    rw [State.againOps]
    split
    · exact ih h
    · split
      · exact ih (by simp [h])
      · simpa using h
      · simpa using h

section Restores

variable {s : State} (h : Memory.wf s.mem = true)
include h

@[simp] theorem wf_restoreUnit (vault unit off : Nat) (tm : Team) : Memory.wf (s.restoreUnit vault unit off tm).mem = true := by
  change State.Inv _
  unfold State.restoreUnit
  exact inv_of_mem (foldl_mem (fun _ _ => State.setGran_mem ..) _ _) (Memory.wf_putBytes h ..)

@[simp] theorem wf_restoreUnits (tm : Team) : Memory.wf (s.restoreUnits tm).mem = true := by
  change State.Inv _
  unfold State.restoreUnits
  refine inv_foldl (fun s x h => ?_) _ ?_
  · exact wf_restoreUnit h ..
  · exact wf_clearUnits (wf_clearUnits h ..) ..

@[simp] theorem wf_reissue (gk : Nat) : Memory.wf (s.reissue gk).mem = true := by
  unfold State.reissue
  split
  · exact wf_againOps h ..
  · exact h

@[simp] theorem wf_returnGroup (rd : FrameRead) (gk : Nat) : Memory.wf (s.returnGroup rd gk).mem = true := by
  unfold State.returnGroup
  split
  · refine wf_reissue ?_ gk
    simp [h]
  · exact h

@[simp] theorem wf_restoreTeam (t : Nat) (tm : Team) (back : List (Nat × Group)) :
    Memory.wf (s.restoreTeam t tm back).mem = true := by
  unfold State.restoreTeam
  extract_lets rd tm' u v
  have hu : Memory.wf u.mem = true := by
    rw [State.onTeam_mem]
    exact wf_restoreUnits (wf_correctPhys h ..) tm
  clear_value u
  have hv : Memory.wf v.mem = true := inv_of_mem (foldl_mem (fun _ _ => reloadJobs_mem ..) _ _) hu
  clear_value v
  exact wf_foldl hv (fun s p h => wf_returnGroup h ..) _

end Restores

/-! ## Pre-emption and time -/

@[simp] theorem latch_mem (s : State) (t : Nat) : (s.latch t).mem = s.mem := by
  unfold State.latch
  split
  · rfl
  · split
    · rfl
    · exact foldl_mem (fun _ _ => takeOwed_mem ..) _ _

@[simp] theorem preemptGroup_mem (s : State) (gk : Nat) : (s.preemptGroup gk).mem = s.mem := by
  unfold State.preemptGroup
  split
  · rfl
  · split <;> simp

@[simp] theorem migrationDone_mem (s : State) (m : Mig) : (s.migrationDone m).mem = s.mem := by
  unfold State.migrationDone
  split <;> rfl

end Sys2Proof.Machine
end

section
/-! SUPPORT. Commands, resets, fetches and time keep memory in its canonical form (log entry 1). -/

namespace Sys2Proof.Machine

open Sys2Proof

/-! ## Commands -/

/-- What a command does before its end keeps memory canonical. -/
def CanonicalRun : Option (Nat × State) → Prop
  | some (_, t) => t.Inv
  | none => True

@[simp] theorem canonicalRun_refused (s : State) : CanonicalRun (refused s) ↔ s.Inv := Iff.rfl
@[simp] theorem canonicalRun_done (s : State) : CanonicalRun (done s) ↔ s.Inv := Iff.rfl
@[simp] theorem canonicalRun_none : CanonicalRun none := trivial

section Commands

variable {s : State} (h : Memory.wf s.mem = true)
include h

@[simp] theorem wf_endCommand (a status : Nat) : Memory.wf (s.endCommand a status).mem = true := wf_physWrite (wf_correctPhys h ..) ..

@[simp] theorem wf_unknownCommand : Memory.wf s.unknownCommand.mem = true := by
  unfold State.unknownCommand
  split
  · exact h
  · split
    · exact h
    · exact wf_endCommand h ..

/-- A command that keeps memory canonical until its end keeps it so at its end. -/
theorem canonical_command {op : Nat} {listed : List (Nat × Nat)} {run : State → List Byte → Option (Nat × State)}
    (hrun : ∀ e, CanonicalRun (run s e)) : Canonical (command op listed run s) := by
  unfold command
  split
  · exact h
  · next a e _ =>
    have hr := hrun e
    split
    · exact h
    · split
      · exact wf_endCommand h ..
      · split
        · exact h
        · next st t ht =>
          rw [ht] at hr
          exact wf_endCommand hr ..

@[simp] theorem wf_recheckChunk (cluster : Nat) (j : CopyJob) : Memory.wf (s.recheckChunk cluster j).mem = true := by
  unfold State.recheckChunk
  split
  · split
    · exact h
    · exact wf_checkChunk h ..
  · exact h

end Commands

@[simp] theorem resumeJob_mem (s : State) (gk id : Nat) : (s.resumeJob gk id).mem = s.mem := rfl
@[simp] theorem cancelStops_mem (s : State) (r : FaultRec) : (s.cancelStops r).mem = s.mem := rfl

@[simp] theorem resumeRec_mem (s : State) (step : Bool) (r : FaultRec) : (s.resumeRec step r).mem = s.mem := by
  unfold State.resumeRec
  split
  · simp
  · simp only
    split
    · simp
    · split <;> simp

section Responses

variable {s : State} (h : Memory.wf s.mem = true)
include h

@[simp] theorem wf_unresolvableJob (gk id : Nat) : Memory.wf (s.unresolvableJob gk id).mem = true := by
  unfold State.unresolvableJob
  simp only
  split
  · split
    · exact wf_failCopy h ..
    · exact h
  · split
    · split
      · exact wf_failSel h ..
      · exact h
    · split
      · split
        · exact wf_joinColl h ..
        · exact h
      · split
        · split
          · exact wf_failPart h ..
          · exact h
        · exact h

@[simp] theorem wf_unresolvable (r : FaultRec) : Memory.wf (s.unresolvable r).mem = true := by
  unfold State.unresolvable
  split
  · exact wf_unresolvableJob h ..
  · split
    · exact h
    · split
      · exact wf_noteStop (by simpa using h) _
      · exact h

@[simp] theorem wf_respond (launch : Word) (time : Dword) (resp : Nat) : Memory.wf (s.respond launch time resp).mem = true := by
  unfold State.respond
  simp only
  split
  · split
    · exact h
    · exact wf_hostEnds h _
  · split
    · refine wf_foldl ?_ (fun s r h => wf_unresolvable h r) _
      exact h
    · exact inv_of_mem (foldl_mem (fun _ _ => resumeRec_mem ..) _ _) h

end Responses

/-! ## The host -/

@[simp] theorem setMailbox_mem (s : State) (m : Nat) (x : Mailbox) : (s.setMailbox m x).mem = s.mem := rfl
@[simp] theorem requestReport_mem (s : State) (m : Nat) : (s.requestReport m).mem = s.mem := rfl

@[simp] theorem claim_mem (s : State) (m : Nat) (v : Word) : (s.claim m v).mem = s.mem := by
  unfold State.claim
  simp only
  split <;> rfl

@[simp] theorem handover_mem (s : State) (m : Nat) (v : Word) : (s.handover m v).mem = s.mem := by
  unfold State.handover
  split <;> rfl

@[simp] theorem disown_mem (s : State) (m : Nat) : (s.disown m).mem = s.mem := by
  unfold State.disown
  split <;> rfl

@[simp] theorem writeMailbox_mem (s : State) (m off : Nat) (bs : List Byte) : (s.writeMailbox m off bs).mem = s.mem := by
  unfold State.writeMailbox
  simp only
  split <;> rfl

@[simp] theorem writeRegister_mem (s : State) (m off : Nat) (bs : List Byte) : (s.writeRegister m off bs).mem = s.mem := by
  unfold State.writeRegister
  simp only
  split
  · split <;> rfl
  · split
    · split <;> rfl
    · split
      · split
        · simp
        · rfl
      · split
        · split <;> simp
        · split
          · split <;> simp
          · rfl

@[simp] theorem takeLog_mem (s : State) (kind unit : Nat) : (s.takeLog kind unit).2.mem = s.mem := by
  unfold State.takeLog
  split <;> rfl

theorem wf_hostBytes {s : State} (h : Memory.wf s.mem = true) (a n : Nat) : Memory.wf (s.hostBytes a n).1.mem = true := by
  induction n generalizing s a with
  | zero => exact h
  | succ n ih =>
    rw [State.hostBytes]
    split
    · exact ih h _
    · exact ih (wf_correctHome (wf_home h _) ..) _

/-! ## Resets and the start -/

section Resets

variable {s : State} (h : Memory.wf s.mem = true)
include h

theorem wf_coldReset (step : BitVec 8) : Memory.wf (s.coldReset step).mem = true := Memory.wf_filter h _

theorem wf_warmReset : Memory.wf s.warmReset.mem = true := by
  change Memory.wf (hbmCells s.mem ++ hostCells s.mem) = true
  rw [hbmCells_hostCells h]
  exact Memory.wf_filter h _

theorem wf_ready8 (x : Image) (slot : Nat) (warm : Bool) : Memory.wf (s.ready8 x slot warm).mem = true :=
  Memory.wf_clear (Memory.wf_clear h ..) ..

end Resets

/-! ## Fetches -/

@[simp] theorem captureWord_mem (s : State) (core module st off : Nat) (w : Dword) : (s.captureWord core module st off w).mem = s.mem := by
  unfold State.captureWord
  split <;> simp

section Fetches

variable {s : State} (h : Memory.wf s.mem = true)
include h

@[simp] theorem wf_fetchWord (p : At) (i : Nat) : Memory.wf (s.fetchWord p i).mem = true := by
  unfold State.fetchWord
  simp only [captureWord_mem]
  split
  · exact h
  · exact wf_correctHome (wf_touch h _) ..

@[simp] theorem wf_captureNext (core slot : Nat) : Memory.wf (s.captureNext core slot).mem = true := by
  unfold State.captureNext
  split
  · exact h
  · split
    · exact h
    · split
      · exact wf_fetchWord (wf_fetchWord h ..) ..
      · exact wf_fetchWord h ..

@[simp] theorem wf_evictLine (core line : Nat) : Memory.wf (s.evictLine core line).mem = true := wf_invalidate h ..

@[simp] theorem wf_tick (cycles ns : Nat) : Memory.wf (s.tick cycles ns).mem = true := by
  obtain ⟨_, _, hm⟩ := tick_base s cycles
  have hu := inv_of_mem hm h
  unfold State.tick
  generalize s.endCycle.startDelays.countCycles cycles = u at hu
  exact hu

end Fetches

end Sys2Proof.Machine
end

section
/-! SUPPORT. The words of control flow, arrays, engines and the fabric keep memory in its canonical form (log entry 1). -/

namespace Sys2Proof.Machine

open Sys2Proof

/-! ## Words that write to their group only -/

section Plain

variable {s : State} (hs : s.Inv)
include hs

theorem canonical_nop (h : Hdr) (lit : Option Dword) : Canonical (execNop h lit s) :=
  canonical_word hs fun e => by simpa using hs

theorem canonical_br (h : Hdr) (blka : BitVec 12) : Canonical (execBr h blka s) :=
  canonical_word hs fun e => by simpa using hs

theorem canonical_brc (h : Hdr) (va : Reg) (blka blkb : BitVec 12) : Canonical (execBrc h va blka blkb s) :=
  canonical_word hs fun e => by simpa using hs

theorem canonical_brx (h : Hdr) (va : Reg) : Canonical (execBrx h va s) := by
  refine canonical_word hs fun e => ?_
  split
  · simp
  · simpa using hs

theorem canonical_yield (h : Hdr) : Canonical (execYield h s) :=
  canonical_wordAt hs (fun e t ht => by simpa using ht) fun e => by simpa using hs

theorem canonical_wait (h : Hdr) (ld st eng tile : BitVec 6) : Canonical (execWait h ld st eng tile s) := by
  refine canonical_word hs fun e => ?_
  split <;> simpa using hs

theorem canonical_fence (h : Hdr) (order : BitVec 2) (scope : BitVec 3) : Canonical (execFence h order scope s) :=
  canonical_word hs fun e => by simpa using hs

theorem canonical_fenceOpr (h : Hdr) : Canonical (execFenceOpr h s) :=
  canonical_word hs fun e => by simpa using hs

theorem canonical_arrive (h : Hdr) (bar : BitVec 4) : Canonical (execArrive h bar s) :=
  canonical_word hs fun e => by simpa using hs

theorem canonical_bwait (h : Hdr) (bar : BitVec 4) : Canonical (execBwait h bar s) := by
  refine canonical_word hs fun e => ?_
  split <;> simpa using hs

theorem canonical_movsm (h : Hdr) (sid : Sid) (vb : Src) : Canonical (execMovsm h sid vb s) := by
  refine canonical_word hs fun e => ?_
  simp only
  split <;> simpa using hs

theorem canonical_brkpt (h : Hdr) (imm : BitVec 8) : Canonical (execBrkpt h imm s) := by
  refine canonical_wordAt hs (fun e t ht => ?_) fun e => by simpa using hs
  simp only
  split
  · simpa using ht
  · split
    · split <;> simpa using ht
    · simpa using ht

theorem canonical_enter (h : Hdr) (id : BitVec 16) : Canonical (execEnter h id s) :=
  canonical_wordAt hs (fun e t ht => by simpa using ht) fun e => by simpa using hs

theorem canonical_leave (h : Hdr) (id : BitVec 16) : Canonical (execLeave h id s) :=
  canonical_wordAt hs (fun e t ht => by simpa using ht) fun e => by simpa using hs

theorem canonical_unassignedOpcode (h : Hdr) (illForm : Bool) : Canonical (execUnassignedOpcode h illForm s) := by
  unfold execUnassignedOpcode
  split
  · trivial
  · simpa using hs

end Plain

/-! ## Words that end blocks -/

section Ends

variable {s : State} (hs : s.Inv)
include hs

theorem canonical_vote (h : Hdr) : Canonical (execVote h s) := canonical_termWord hs fun _ => canonicalRes_terminate hs _

theorem canonical_exit (h : Hdr) : Canonical (execExit h s) := canonical_termWord hs fun _ => canonicalRes_terminate hs _

theorem canonical_regang (h : Hdr) : Canonical (execRegang h s) := by
  refine canonical_termWord hs fun e => ?_
  simp only
  split
  · exact canonicalRes_terminate hs _
  · split
    · simp
    · simpa using hs

theorem canonical_loop (h : Hdr) (va : Reg) (tend : BitVec 16) : Canonical (execLoop h va tend s) := by
  refine canonical_wordAt hs (fun e t ht => ?_) fun e => ?_
  · unfold loopFin
    split <;> simpa using ht
  · extract_lets loops bad t n flag
    have ht : t.Inv := by simpa [t] using hs
    clear_value bad t
    split
    · simp
    · split
      · simp
      · split <;> simpa using ht

theorem canonical_call (h : Hdr) (fidx : BitVec 16) : Canonical (execCall h fidx s) :=
  canonical_termWord hs fun _ => canonicalRes_callBody hs ..

theorem canonical_calli (h : Hdr) (va : Reg) : Canonical (execCalli h va s) :=
  canonical_termWord hs fun _ => canonicalRes_callBody hs ..

theorem canonical_trap (h : Hdr) (imm : BitVec 8) : Canonical (execTrap h imm s) := by
  refine canonical_wordAt hs (fun e t ht => ?_) fun e => ?_
  · split <;> simpa using ht
  · split
    · simpa using hs
    · split
      · simp
      · exact canonicalRes_callBody hs ..

theorem canonical_ret (h : Hdr) : Canonical (execRet h s) := by
  refine canonical_termWord hs fun e => ?_
  simp only
  split
  · simp
  · split
    · next t ht => exact inv_of_need ht rfl hs
    · next t ht =>
      split
      · simp
      · exact canonicalRes_terminate (by simpa using inv_of_need (t := t) ht rfl hs) _

theorem canonical_unwind (h : Hdr) (va : Reg) (blka : BitVec 12) : Canonical (execUnwind h va blka s) := by
  refine canonical_termWord hs fun e => ?_
  simp only
  split
  · simp
  · split
    · next t ht => exact inv_of_need ht rfl hs
    · next t ht =>
      split
      · simp
      · exact canonicalRes_terminate (by simpa using inv_of_need (t := t) ht rfl hs) _

end Ends

/-! ## Words of arrays, engines and the fabric -/

section Engines

variable {s : State} (hs : s.Inv)
include hs

theorem canonical_crew (h : Hdr) (va : Reg) : Canonical (execCrew h va s) := by
  refine canonical_tileWord hs fun e => ?_
  simp only
  split
  · simpa using hs
  · split
    · simpa using hs
    · simp

theorem canonical_wld (o : EOp) : Canonical (execWld o s) := by
  refine canonical_tileWord hs fun e => ?_
  simp only
  split
  · simpa using hs
  · split
    · simp
    · split
      · simp
      · simpa using hs

theorem canonical_mma (o : YOp) : Canonical (execMma o s) := by
  refine canonical_widthWord hs (fun e t ht => inv_settleEntries ht _) fun e => ?_
  simp only
  split
  · simpa using hs
  · simp
  · split
    · simpa using hs
    · split
      · simp
      · simpa using hs

theorem canonical_launch (o : EOp) : Canonical (execLaunch o s) := by
  refine canonical_word hs fun e => ?_
  simp only
  split
  · simpa using hs
  · split
    · simp
    · simp
    · split
      · simp
      · simpa using inv_fillTlb hs _

theorem canonical_evsig (o : EOp) : Canonical (execEvsig o s) := by
  refine canonical_word hs fun e => ?_
  split
  · simpa using hs
  · extract_lets i x own
    clear_value own
    split
    · simp
    · split
      · simp
      · simpa using hs

theorem canonical_msg (o : EOp) : Canonical (execMsg o s) := by
  refine canonical_word hs fun e => ?_
  simp only
  split
  · simpa using hs
  · split
    · split
      · simp
      · split
        · simp
        · split
          · simp
          · simpa using hs
    · simp

theorem canonical_coll (o : EOp) : Canonical (execColl o s) := by
  refine canonical_word hs fun e => ?_
  split
  · simpa using hs
  · extract_lets src dst d la el die
    iterate 5
      split
      · simp
    split
    · simp
    · simp
    · next t _ ht =>
      have ht : t.Inv := wf_of_beforeAll hs ht
      extract_lets read job go
      have hgo (u : State) (list : Option (List Byte)) (hu : u.Inv) : CanonicalRes (go u list) := by
        simpa [go] using hu
      have hread (u : State) (list : List Byte) (hr : read = some (u, list)) : u.Inv := by
        unfold read at hr
        split at hr
        · next segs fill _ =>
          split at hr
          · cases hr
          · cases hx : t.readSegsFor e.gk e.g.issued segs with
            | error a => simp [hx, Except.toOption] at hr
            | ok r =>
              have hw := wf_fillTlb (wf_of_readSegsFor ht hx) fill
              rw [hx] at hr
              cases hr
              simpa using hw
        · cases hr
      clear_value read go
      split
      · exact hgo _ _ ht
      · next u list =>
        split
        · exact hgo _ _ (hread _ _ rfl)
        · simp

end Engines

end Sys2Proof.Machine
end

section
/-! SUPPORT. The events of cores, memory, arrays, engines and the fabric keep memory in its canonical form (log entry 1). -/

namespace Sys2Proof.Machine

open Sys2Proof

/-- A fold that takes a machine and more along. -/
theorem wf_foldl_fst {α β : Type} {f : State × β → α → State × β}
    (hf : ∀ (r : State × β) (x : α), Memory.wf r.1.mem = true → Memory.wf (f r x).1.mem = true) (xs : List α) (r : State × β)
    (h : Memory.wf r.1.mem = true) : Memory.wf (xs.foldl f r).1.mem = true := by
  induction xs generalizing r with
  | nil => exact h
  | cons x xs ih => exact ih _ (hf _ _ h)

/-! ## Cores -/

section Cores

variable {s : State} (hs : s.Inv)
include hs

theorem canonical_issueSlotArbitration (core slot : Nat) : Canonical (execIssueSlotArbitration core slot s) := by
  unfold execIssueSlotArbitration
  simp only
  split
  · exact hs
  · split
    · exact hs
    · simpa using hs

theorem canonical_patienceExpiry (gk : Nat) : Canonical (execPatienceExpiry gk s) := by
  unfold execPatienceExpiry
  split
  · exact hs
  · split
    · exact hs
    · split
      · exact hs
      · simpa using hs

theorem canonical_frameRequestServed (team : Nat) : Canonical (execFrameRequestServed team s) := by
  unfold execFrameRequestServed
  split
  · exact hs
  · split
    · exact hs
    · split
      · exact hs
      · split
        · exact wf_serve hs ..
        · exact hs

theorem canonical_spillEngineStart (core : Nat) : Canonical (execSpillEngineStart core s) := by
  unfold execSpillEngineStart
  split
  · exact hs
  · simp only
    split <;> exact hs

theorem canonical_frameMove (core : Nat) : Canonical (execFrameMove core s) := by
  unfold execFrameMove
  split
  · exact hs
  · extract_lets stop
    have hstop : stop.Inv := hs
    clear_value stop
    split
    · exact hstop
    · split
      · exact hstop
      · split
        · exact wf_serve hstop ..
        · split
          · split
            · next t ht => exact wf_of_except ht (canonical_moveOut hs ..)
            · simpa using hstop
          · simp only
            split
            · split
              · next t ht => exact wf_of_except ht (canonical_swapFrame hs ..)
              · simpa using hstop
            · split
              · simpa using hstop
              · exact hs

theorem canonical_barrierArrivalSettle (gk bar : Nat) : Canonical (execBarrierArrivalSettle gk bar s) := by
  unfold execBarrierArrivalSettle
  split
  · exact hs
  · split
    · exact hs
    · split
      · exact hs
      · exact wf_checkBarrier (by simpa using hs) ..

theorem canonical_groupRetire (gk : Nat) : Canonical (execGroupRetire gk s) := by
  unfold execGroupRetire
  split
  · exact hs
  · simp only
    split
    · split
      · exact wf_retireGroup hs ..
      · exact wf_jobRelease hs ..
    · exact hs

end Cores

/-! ## Accesses -/

section Accesses

variable {s : State} (hs : s.Inv)
include hs

theorem canonical_loadDataArrival (gk id : Nat) (reply : Reply) : Canonical (execLoadDataArrival gk id reply s) := by
  unfold execLoadDataArrival
  split
  · exact hs
  · split
    · exact hs
    · split
      · exact hs
      · split
        · exact hs
        · split
          · exact hs
          · split
            · exact wf_performLoad hs ..
            · split
              · exact wf_eccAccess hs ..
              · simp only
                split
                · exact wf_performLoad hs ..
                · simpa using hs

theorem canonical_storePerformed (gk id : Nat) (reply : Reply) : Canonical (execStorePerformed gk id reply s) := by
  unfold execStorePerformed
  split
  · exact hs
  · split
    · exact hs
    · split
      · split
        · exact hs
        · simp only [canonical_next, inv_iff, actionFault_mem, State.onGroup_mem]
          split
          · exact wf_acquireAction hs ..
          · exact wf_releaseAction hs ..
      · split
        · exact hs
        · split
          · exact hs
          · split
            · exact wf_performStore hs ..
            · exact hs

theorem canonical_cachePromotion (gk id : Nat) : Canonical (execCachePromotion gk id s) := by
  unfold execCachePromotion
  split
  · exact hs
  · split
    · exact hs
    · split
      · exact hs
      · split
        · exact hs
        · split
          · exact hs
          · simp only [canonical_next, inv_iff, State.onGroup_mem]
            exact wf_promote hs ..

theorem canonical_atomicPerformed (gk id : Nat) (reply : Reply) : Canonical (execAtomicPerformed gk id reply s) := by
  unfold execAtomicPerformed
  split
  · exact hs
  · split
    · exact hs
    · split
      · exact hs
      · split
        · exact hs
        · split
          · exact wf_performAtomic hs ..
          · exact hs

theorem canonical_orderedAddBuffered (gk id : Nat) : Canonical (execOrderedAddBuffered gk id s) := by
  unfold execOrderedAddBuffered
  split
  · exact hs
  · split
    · split
      · exact hs
      · split
        · exact hs
        · split
          · exact hs
          · extract_lets bad t u
            have ht : t.Inv := by
              unfold t
              split
              · exact wf_releaseAction hs ..
              · exact hs
            have hu : u.Inv := inv_of_mem (actionFault_mem ..) (wf_contribute ht ..)
            split
            · exact hu
            · split
              · exact hu
              · exact inv_of_mem (deferFault_mem ..) hu
    · exact hs

theorem canonical_orderedAddApply (launch : Nat) : Canonical (execOrderedAddApply launch s) := by
  unfold execOrderedAddApply
  split
  · exact hs
  · split
    · exact hs
    · simp only [canonical_next, inv_iff, State.onLaunch_mem]
      refine wf_foldl ?_ (fun s c h => wf_freeResult h c) _
      exact wf_foldl_fst (fun r c h => wf_applyOne h ..) _ _ hs

theorem canonical_feWaitSatisfied (granule : Nat) : Canonical (execFeWaitSatisfied granule s) := by
  unfold execFeWaitSatisfied
  split
  · exact hs
  · split
    · exact hs
    · exact wf_give hs _

end Accesses

/-! ## Arrays -/

section Arrays

variable {s : State} (hs : s.Inv)
include hs

theorem canonical_rowCapture (core : Nat) : Canonical (execRowCapture core s) := by
  unfold execRowCapture
  simp only
  split
  · exact hs
  · split
    · exact hs
    · split
      · simpa using hs
      · simpa using hs

theorem canonical_weightLoadComplete (gk id : Nat) : Canonical (execWeightLoadComplete gk id s) := by
  unfold execWeightLoadComplete
  split
  · exact hs
  · split
    · exact hs
    · split
      · exact hs
      · split
        · exact wf_readWeights hs ..
        · extract_lets waits
          clear_value waits
          split
          · exact wf_readWeights hs ..
          · simpa using hs
        · exact hs

theorem canonical_arrayBoundary (core : Nat) : Canonical (execArrayBoundary core s) := by
  unfold execArrayBoundary
  split
  · exact hs
  · simp only
    split
    · exact hs
    · simp only [canonical_next, inv_iff, State.setArray_mem]
      refine inv_of_mem (foldl_mem (fun t p => ?_) _ _) hs
      rfl

theorem canonical_arrayStartAdmission (core : Nat) : Canonical (execArrayStartAdmission core s) := by
  unfold execArrayStartAdmission
  simp only
  split
  · exact hs
  · split
    · exact hs
    · simpa using hs

theorem canonical_weightReload (core : Nat) : Canonical (execWeightReload core s) := by
  unfold execWeightReload
  split
  · exact hs
  · split
    · split
      · exact hs
      · simp only [canonical_next, inv_iff, count_mem]
        exact wf_loadBank hs ..
    · exact hs

theorem canonical_entryExecution (core : Nat) : Canonical (execEntryExecution core s) := by
  unfold execEntryExecution
  split
  · exact hs
  · split
    · split
      · split
        · exact hs
        · split
          · simp only [canonical_next, inv_iff, State.setArray_mem]
            exact inv_failEntry hs ..
          · next t ht => exact wf_runEntry (wf_of_takeBlocks hs ht) ..
      · exact hs
    · exact hs

end Arrays

/-! ## Engines -/

section Engines

variable {s : State} (hs : s.Inv)
include hs

theorem canonical_copyChunk (cluster : Nat) : Canonical (execCopyChunk cluster s) := by
  unfold execCopyChunk
  simp only
  split
  · exact hs
  · split
    · exact hs
    · have hq (q : JobQueue CopyJob) : Memory.wf (s.setCopyQueue cluster q).mem = true := by simpa using hs
      split
      · exact wf_pressOn (wf_beginChunk (hq _) ..) ..
      · exact wf_pressOn (wf_stepChunk (hq _) ..) ..

theorem canonical_selectionChunk (cluster : Nat) : Canonical (execSelectionChunk cluster s) := by
  unfold execSelectionChunk
  simp only
  split
  · exact hs
  · split
    · exact hs
    · have hq (q : JobQueue SelJob) : Memory.wf (s.setSelQueue cluster q).mem = true := by simpa using hs
      split
      · exact wf_selChunk (hq _) ..
      · exact wf_selStart (hq _) _ _ _ fun t j ht => wf_selChunk ht ..

theorem canonical_launchRecordAppend (gk id : Nat) : Canonical (execLaunchRecordAppend gk id s) := by
  unfold execLaunchRecordAppend
  split
  · exact hs
  · split
    · exact hs
    · split
      · exact hs
      · split
        · exact hs
        · split
          · exact wf_appendRecord hs ..
          · split
            · exact hs
            · next t ht =>
              have ht : t.Inv := wf_of_beforeAll hs ht
              split
              · exact wf_failLaunch ht ..
              · split
                · exact wf_failLaunch ht ..
                · next u bs hu =>
                  have hu : u.Inv := wf_of_recordBytes ht hu
                  exact wf_appendRecord (by simpa using hu) ..

theorem canonical_eventCounterAdd (gk id : Nat) : Canonical (execEventCounterAdd gk id s) := by
  unfold execEventCounterAdd
  split
  · exact hs
  · split
    · exact hs
    · split
      · exact hs
      · split
        · next t x _ ht _ =>
          have ht : t.Inv := wf_of_beforeAll hs ht
          exact wf_noteSaved (by simpa using ht) _
        · exact hs

end Engines

/-! ## The fabric -/

section Fabric

variable {s : State} (hs : s.Inv)
include hs

theorem canonical_collectiveFold (index : Nat) (remote : List (Nat × Option (List Byte))) :
    Canonical (execCollectiveFold index remote s) := by
  unfold execCollectiveFold
  split
  · exact hs
  · split
    · exact wf_finishColl hs ..
    · exact hs
    · split
      · exact hs
      · simp only
        split
        · exact wf_failColl hs ..
        · exact hs
        · exact wf_finishColl hs ..

theorem canonical_messageDelivery (index : Nat) (reply : Reply) : Canonical (execMessageDelivery index reply s) := by
  unfold execMessageDelivery
  split
  · exact hs
  · split
    · exact wf_sendMsg hs ..
    · split
      · split
        · exact wf_failMsg hs ..
        · split
          · refine wf_engineDown ?_ ..
            exact hs
          · exact wf_failMsg hs ..
          · exact hs
      · simp only
        split
        · exact wf_fillInbox hs ..
        · exact hs

theorem canonical_inboundAccess (a : Inbound) : Canonical (execInboundAccess a s) := by
  unfold execInboundAccess
  split
  · exact hs
  · split
    · exact hs
    · split
      · simp only
        split
        · exact hs
        · exact hs
      · split
        · split
          · exact hs
          · split
            · exact wf_inboundAtomic hs ..
            · exact hs
        · split
          · split
            · exact wf_writeHome hs ..
            · exact hs
          · split
            · exact wf_touch hs _
            · exact hs

theorem canonical_linkTimeout (gk id : Nat) : Canonical (execLinkTimeout gk id s) := by
  unfold execLinkTimeout
  split
  · exact hs
  · split
    · split
      · simpa using hs
      · exact hs
    · split
      · exact wf_failMsg hs ..
      · split
        · exact wf_failColl hs ..
        · exact wf_peerAnswer hs ..

end Fabric

end Sys2Proof.Machine
end

section
/-! SUPPORT. The events of queues, teams, memory and the host keep memory in its canonical form (log entry 1). -/

namespace Sys2Proof.Machine

open Sys2Proof

/-! ## Queue heads -/

section Heads

variable {s : State} (hs : s.Inv)
include hs

theorem canonical_moduleLoad (q : Nat) : Canonical (execModuleLoad q s) := by
  unfold execModuleLoad
  split
  · exact hs
  · split
    · exact hs
    · extract_lets r signed n t handle va
      have ht : t.Inv := wf_correctHub hs ..
      clear_value signed
      split
      · exact wf_refuseEntry hs ..
      · split
        · exact wf_refuseEntry hs ..
        · extract_lets st ss pl
          split
          · exact wf_refuseEntry ht ..
          · split
            · exact wf_refuseEntry ht ..
            · split
              · exact ht
              · exact wf_finishEntry (wf_placeModule (wf_popHead ht _) ..) ..

theorem canonical_moduleUnload (q : Nat) : Canonical (execModuleUnload q s) := by
  unfold execModuleUnload
  split
  · exact hs
  · split
    · exact hs
    · simp only
      split
      · exact wf_refuseEntry hs ..
      · split
        · exact wf_refuseEntry hs ..
        · split
          · exact wf_refuseEntry hs ..
          · refine wf_finishEntry ?_ ..
            exact wf_popHead hs q

theorem canonical_counterStart (q : Nat) : Canonical (execCounterStart q s) := by
  unfold execCounterStart
  split
  · exact hs
  · split
    · exact hs
    · extract_lets r n t x u
      split
      · exact wf_refuseEntry hs ..
      · have ht : t.Inv := wf_popHead hs q
        have hu : u.Inv := inv_of_mem (State.setHostQueue_mem ..) ht
        refine wf_finishEntry ?_ ..
        exact hu

theorem canonical_counterStop (q : Nat) : Canonical (execCounterStop q s) := by
  unfold execCounterStop
  split
  · exact hs
  · split
    · exact hs
    · extract_lets r t x u
      split
      · exact wf_refuseEntry hs ..
      · have ht : t.Inv := wf_popHead hs q
        have hu : u.Inv := inv_of_mem (State.setHostQueue_mem ..) ht
        refine wf_finishEntry ?_ ..
        exact hu

theorem canonical_launchEntry (q : Nat) : Canonical (execLaunchEntry q s) := by
  unfold execLaunchEntry
  split
  · exact hs
  · extract_lets kind st kernel id t
    split
    · split
      · exact wf_refuseEntry hs ..
      · exact hs
    · split
      · exact wf_refuseEntry hs ..
      · have ht : t.Inv := inv_of_mem (setCurrent_mem ..) (wf_popHead hs q)
        exact inv_of_mem (State.noteWaits_mem _) ht

theorem canonical_launchCompletion (launch : Nat) : Canonical (execLaunchCompletion launch s) := by
  unfold execLaunchCompletion
  split
  · exact hs
  · split
    · exact wf_endEntry hs ..
    · exact hs

end Heads

/-! ## Teams -/

section Teams

variable {s : State} (hs : s.Inv)
include hs

theorem canonical_teamAdmission (q : Nat) : Canonical (execTeamAdmission q s) := by
  unfold execTeamAdmission
  split
  · exact hs
  · split
    · exact hs
    · split
      · split
        · exact wf_admitTeam hs ..
        · exact hs
      · exact hs

theorem canonical_contextSave (team : Nat) : Canonical (execContextSave team s) := by
  unfold execContextSave
  split
  · exact hs
  · extract_lets ks fresh busy t u
    have hsave (alone : Bool) : (fresh.foldl (State.saveGroup · alone) s).Inv :=
      inv_of_mem (foldl_mem (fun _ _ => saveGroup_mem ..) _ _) hs
    split
    · exact hs
    · split
      · split
        · exact wf_saveWhole (hsave false) ..
        · exact hs
      · have ht : t.Inv := hsave true
        split
        · exact wf_saveWhole ht ..
        · split
          · exact ht
          · have hu : u.Inv := inv_of_mem (State.onTeam_mem ..) ht
            change State.Inv _
            split
            · exact inv_writeFrame hu ..
            · exact hu

theorem canonical_teamRestore (team : Nat) : Canonical (execTeamRestore team s) := by
  unfold execTeamRestore
  split
  · exact hs
  · simp only
    split
    · exact hs
    · split
      · split
        · exact hs
        · split
          · next t ht => exact wf_restoreTeam (wf_of_freeBlocks hs ht) ..
          · exact hs
      · split
        · exact hs
        · split
          · exact wf_returnGroup (wf_correctPhys hs ..) ..
          · exact hs

theorem canonical_urgencyDelayExpiry (q : Nat) : Canonical (execUrgencyDelayExpiry q s) := by
  unfold execUrgencyDelayExpiry
  split
  · exact hs
  · split
    · exact hs
    · extract_lets due waits
      clear_value waits
      split
      · exact hs
      · split
        · exact hs
        · simp only [canonical_next, inv_iff, State.onLaunch_mem]
          exact inv_of_mem (foldl_mem (fun _ _ => latch_mem ..) _ _) hs

theorem canonical_preemptionHalt (team : Nat) : Canonical (execPreemptionHalt team s) := by
  unfold execPreemptionHalt
  split
  · exact hs
  · split
    · exact inv_of_mem (foldl_mem (fun _ _ => preemptGroup_mem ..) _ _) hs
    · exact hs

end Teams

/-! ## Memory and its records -/

section Upkeep

variable {s : State} (hs : s.Inv)
include hs

theorem canonical_faultRecordPost : Canonical (execFaultRecordPost s) := by
  unfold execFaultRecordPost
  split
  · exact hs
  · extract_lets q t fault u
    split
    · exact hs
    · have ht : t.Inv := wf_physWrite hs ..
      have hu : u.Inv := by
        unfold u
        split
        · exact inv_of_mem (State.onLaunch_mem ..) ht
        · exact ht
      exact hu

theorem canonical_backgroundPull (id : Nat) : Canonical (execBackgroundPull id s) := by
  unfold execBackgroundPull
  split
  · exact hs
  · extract_lets t
    have ht : t.Inv := by
      unfold t
      split
      · exact wf_pullLine hs ..
      · exact hs
    split
    · exact inv_of_mem (migrationDone_mem ..) ht
    · exact ht

theorem canonical_patrolScrub (stack line : Nat) (found : Scrub) : Canonical (execPatrolScrub stack line found s) := by
  unfold execPatrolScrub
  simp only
  split
  · exact hs
  · split <;> exact hs

theorem canonical_seriesSample : Canonical (execSeriesSample s) := by
  unfold execSeriesSample
  simp only
  split
  · exact hs
  · exact inv_foldl (fun t d h => wf_physWrite h ..) _ hs

theorem canonical_pcSample (core : Nat) : Canonical (execPcSample core s) := by
  unfold execPcSample
  split
  · exact hs
  · extract_lets c age bs
    split
    · exact hs
    · extract_lets t u
      have hu : u.Inv := hs
      clear_value u
      split
      · exact hs
      · split
        · change State.Inv _
          split
          · exact wf_physWrite (wf_walked hu _) ..
          · exact hu
        · exact hu

theorem canonical_fetchPastStateCode : Canonical (execFetchPastStateCode s) := by
  unfold execFetchPastStateCode
  split
  · exact hs
  · split
    · simpa using hs
    · exact hs

end Upkeep

/-! ## The host -/

section Host

variable {s : State} (hs : s.Inv)
include hs

theorem canonical_attestMailboxRequest (master : BitVec 8) : Canonical (execAttestMailboxRequest master s) := by
  unfold execAttestMailboxRequest
  split <;> simpa using hs

theorem canonical_attestReportDone (master : BitVec 8) : Canonical (execAttestReportDone master s) := by
  unfold execAttestReportDone
  simp only
  split <;> simpa using hs

theorem canonical_registerWrite (master : BitVec 8) (offset size : Nat) (value : Dword) :
    Canonical (execRegisterWrite master offset size value s) := by
  unfold execRegisterWrite
  split <;> simpa using hs

theorem canonical_bar2Write (master : BitVec 8) (offset : Nat) (bytes : List Byte) : Canonical (execBar2Write master offset bytes s) := by
  unfold execBar2Write
  simp only
  split
  · exact wf_physWrite hs ..
  · exact hs

theorem canonical_bar2Read (master : BitVec 8) (offset count : Nat) : Canonical (execBar2Read master offset count s) := by
  unfold execBar2Read
  split
  · exact hs
  · split
    · exact wf_hostBytes hs ..
    · split <;> exact hs

theorem canonical_coldReset (master : BitVec 8) : Canonical (execColdReset master s) := by
  unfold execColdReset
  split
  · exact wf_coldReset hs _
  · exact hs

theorem canonical_warmReset (master : BitVec 8) : Canonical (execWarmReset master s) := by
  unfold execWarmReset
  split
  · exact wf_warmReset hs
  · exact hs

theorem canonical_packageStart (boot : BootRun) : Canonical (execPackageStart boot s) := by
  unfold execPackageStart
  split
  · exact hs
  · simp only
    split
    · exact wf_ready8 hs ..
    · split
      · refine wf_ready8 ?_ ..
        exact hs
      · exact hs

theorem canonical_powerLoss : Canonical (execPowerLoss s) := wf_coldReset hs 0

theorem canonical_coldPlateOverLimit : Canonical (execColdPlateOverLimit s) := by
  unfold execColdPlateOverLimit
  split
  · exact wf_coldReset hs _
  · exact hs

end Host

/-! ## Commands -/

section Commands

variable {s : State} (hs : s.Inv)
include hs

theorem canonical_createContext : Canonical (execCreateContext s) := by
  refine canonical_command hs fun e => ?_
  simp only
  split
  · exact hs
  · split
    · exact hs
    · exact wf_correctPhys hs ..

theorem canonical_destroyContext : Canonical (execDestroyContext s) := by
  refine canonical_command hs fun e => ?_
  simp only
  split <;> exact hs

theorem canonical_bindHostQueue : Canonical (execBindHostQueue s) := by
  refine canonical_command hs fun e => ?_
  simp only
  split <;> simpa using hs

theorem canonical_translationInvalidate : Canonical (execTranslationInvalidate s) := by
  refine canonical_command hs fun e => ?_
  simp only
  split
  · exact hs
  · split
    · trivial
    · rw [canonicalRun_done]
      refine inv_foldl (fun t x h => wf_recheckChunk h ..) _ (inv_foldl (fun t core h => wf_invalidate h ..) _ ?_)
      exact hs

theorem canonical_postMigrationRecord : Canonical (execPostMigrationRecord s) := by
  refine canonical_command hs fun e => ?_
  extract_lets id big size old new
  clear_value size
  split <;> exact hs

theorem canonical_releaseMigrationRecord : Canonical (execReleaseMigrationRecord s) := by
  refine canonical_command hs fun e => ?_
  split
  · exact hs
  · split <;> exact hs

theorem canonical_preEmpt : Canonical (execPreEmpt s) := by
  refine canonical_command hs fun e => ?_
  simp only
  split
  · exact hs
  · exact inv_of_mem (foldl_mem (fun _ _ => latch_mem ..) _ _) hs

theorem canonical_endLaunch : Canonical (execEndLaunch s) := canonical_command hs fun _ => wf_hostEnds hs _

theorem canonical_faultResponse : Canonical (execFaultResponse s) := by
  refine canonical_command hs fun e => ?_
  split
  · exact hs
  · exact wf_respond hs ..

theorem canonical_loadAtomicPathTable : Canonical (execLoadAtomicPathTable s) := by
  refine canonical_command hs fun e => ?_
  simp only
  split
  · exact hs
  · split
    · exact wf_correctPhys hs ..
    · split
      · exact wf_correctPhys hs ..
      · exact wf_correctPhys hs ..

theorem canonical_assignMsiXVectors : Canonical (execAssignMsiXVectors s) := by
  refine canonical_command hs fun e => ?_
  simp only
  split <;> exact hs

theorem canonical_attest : Canonical (execAttest s) := by
  refine canonical_command hs fun e => ?_
  simp only
  split
  · exact hs
  · exact wf_physWrite (wf_correctPhys hs ..) ..

theorem canonical_writeFirmwareSlot (newer : Bool) : Canonical (execWriteFirmwareSlot newer s) := by
  refine canonical_command hs fun e => ?_
  simp only
  split
  · exact wf_correctPhys hs ..
  · exact wf_correctPhys hs ..

theorem canonical_codeBreakpoint : Canonical (execCodeBreakpoint s) := by
  refine canonical_command hs fun e => ?_
  simp only
  split <;> exact hs

theorem canonical_regionStop : Canonical (execRegionStop s) := by
  refine canonical_command hs fun e => ?_
  simp only
  split <;> exact hs

theorem canonical_watchpoint : Canonical (execWatchpoint s) := by
  refine canonical_command hs fun e => ?_
  simp only
  split
  · exact hs
  · split <;> exact hs

theorem canonical_timeSeries : Canonical (execTimeSeries s) := by
  refine canonical_command hs fun e => ?_
  simp only
  split
  · exact hs
  · split <;> exact hs

theorem canonical_sampling : Canonical (execSampling s) := by
  refine canonical_command hs fun e => ?_
  simp only
  split <;> exact hs

theorem canonical_readErrorLog : Canonical (execReadErrorLog s) := by
  refine canonical_command hs fun e => ?_
  extract_lets kind unit c a units r
  clear_value units
  split
  · exact hs
  · have hr : r.2.Inv := inv_of_mem (takeLog_mem ..) hs
    split
    · exact hs
    · exact inv_foldl (fun t x h => wf_physWrite (wf_walked h _) ..) _ hr

end Commands

end Sys2Proof.Machine
end

section
/-! SUPPORT. Every step keeps memory in its canonical form (log entry 1). -/

namespace Sys2Proof.Machine

open Sys2Proof

/-! ## Instructions and events -/

/-- What is neither a lane word nor a pair word. -/
theorem canonical_other {s : State} (hs : s.Inv) {i : Instr} (hl : laneWordOf i = none) (hp : i.halves = none) : Canonical (exec i s) := by
  cases i
  case ld | lds | st | feset | feclr | fetest => exact canonical_accessWord hs ..
  case aadd | amin | amax | aand | aor | axor | aexch | acas | afadd | ofadd => exact canonical_atomicWord hs ..
  case copy | gather | scatter => exact canonical_copyWord hs ..
  case srank | scmp => exact canonical_selWord hs ..
  case accld | accst => exact canonical_memXfer hs ..
  case accrd | accz => exact canonical_rowXfer hs ..
  case fence => exact canonical_fence hs ..
  case fenceOpr => exact canonical_fenceOpr hs ..
  case wait => exact canonical_wait hs ..
  case arrive => exact canonical_arrive hs ..
  case bwait => exact canonical_bwait hs ..
  case br => exact canonical_br hs ..
  case brc => exact canonical_brc hs ..
  case brx => exact canonical_brx hs ..
  case vote => exact canonical_vote hs ..
  case regang => exact canonical_regang hs ..
  case loop => exact canonical_loop hs ..
  case yield => exact canonical_yield hs ..
  case exit => exact canonical_exit hs ..
  case call => exact canonical_call hs ..
  case calli => exact canonical_calli hs ..
  case ret => exact canonical_ret hs ..
  case unwind => exact canonical_unwind hs ..
  case coll => exact canonical_coll hs ..
  case msg => exact canonical_msg hs ..
  case crew => exact canonical_crew hs ..
  case wld => exact canonical_wld hs ..
  case mma => exact canonical_mma hs ..
  case nop => exact canonical_nop hs ..
  case movsm => exact canonical_movsm hs ..
  case trap => exact canonical_trap hs ..
  case brkpt => exact canonical_brkpt hs ..
  case enter => exact canonical_enter hs ..
  case leave => exact canonical_leave hs ..
  case launch => exact canonical_launch hs ..
  case evsig => exact canonical_evsig hs ..
  case issueSlotArbitration => exact canonical_issueSlotArbitration hs ..
  case patienceExpiry => exact canonical_patienceExpiry hs ..
  case loadDataArrival => exact canonical_loadDataArrival hs ..
  case storePerformed => exact canonical_storePerformed hs ..
  case feWaitSatisfied => exact canonical_feWaitSatisfied hs ..
  case atomicPerformed => exact canonical_atomicPerformed hs ..
  case orderedAddBuffered => exact canonical_orderedAddBuffered hs ..
  case orderedAddApply => exact canonical_orderedAddApply hs ..
  case barrierArrivalSettle => exact canonical_barrierArrivalSettle hs ..
  case groupRetire => exact canonical_groupRetire hs ..
  case frameRequestServed => exact canonical_frameRequestServed hs ..
  case spillEngineStart => exact canonical_spillEngineStart hs ..
  case frameMove => exact canonical_frameMove hs ..
  case copyChunk => exact canonical_copyChunk hs ..
  case selectionChunk => exact canonical_selectionChunk hs ..
  case weightLoadComplete => exact canonical_weightLoadComplete hs ..
  case rowCapture => exact canonical_rowCapture hs ..
  case arrayBoundary => exact canonical_arrayBoundary hs ..
  case weightReload => exact canonical_weightReload hs ..
  case arrayStartAdmission => exact canonical_arrayStartAdmission hs ..
  case entryExecution => exact canonical_entryExecution hs ..
  case tileTransferComplete => exact wf_xferStep hs ..
  case cachePromotion => exact canonical_cachePromotion hs ..
  case backgroundPull => exact canonical_backgroundPull hs ..
  case patrolScrub => exact canonical_patrolScrub hs ..
  case faultRecordPost => exact canonical_faultRecordPost hs
  case launchEntry => exact canonical_launchEntry hs ..
  case moduleLoad => exact canonical_moduleLoad hs ..
  case moduleUnload => exact canonical_moduleUnload hs ..
  case counterStart => exact canonical_counterStart hs ..
  case counterStop => exact canonical_counterStop hs ..
  case teamAdmission => exact canonical_teamAdmission hs ..
  case urgencyDelayExpiry => exact canonical_urgencyDelayExpiry hs ..
  case preemptionHalt => exact canonical_preemptionHalt hs ..
  case contextSave => exact canonical_contextSave hs ..
  case teamRestore => exact canonical_teamRestore hs ..
  case launchCompletion => exact canonical_launchCompletion hs ..
  case launchRecordAppend => exact canonical_launchRecordAppend hs ..
  case eventCounterAdd => exact canonical_eventCounterAdd hs ..
  case createContext => exact canonical_createContext hs
  case destroyContext => exact canonical_destroyContext hs
  case bindHostQueue => exact canonical_bindHostQueue hs
  case translationInvalidate => exact canonical_translationInvalidate hs
  case postMigrationRecord => exact canonical_postMigrationRecord hs
  case releaseMigrationRecord => exact canonical_releaseMigrationRecord hs
  case preEmpt => exact canonical_preEmpt hs
  case endLaunch => exact canonical_endLaunch hs
  case faultResponse => exact canonical_faultResponse hs
  case codeBreakpoint => exact canonical_codeBreakpoint hs
  case regionStop => exact canonical_regionStop hs
  case watchpoint => exact canonical_watchpoint hs
  case timeSeries => exact canonical_timeSeries hs
  case sampling => exact canonical_sampling hs
  case readErrorLog => exact canonical_readErrorLog hs
  case loadAtomicPathTable => exact canonical_loadAtomicPathTable hs
  case assignMsiXVectors => exact canonical_assignMsiXVectors hs
  case attest => exact canonical_attest hs
  case writeFirmwareSlot => exact canonical_writeFirmwareSlot hs ..
  case ownerClaim => exact inv_of_mem (claim_mem ..) hs
  case ownerHandover => exact inv_of_mem (handover_mem ..) hs
  case ownerRelease => exact inv_of_mem (disown_mem ..) hs
  case coldReset => exact canonical_coldReset hs ..
  case warmReset => exact canonical_warmReset hs ..
  case attestMailboxRequest => exact canonical_attestMailboxRequest hs ..
  case attestReportDone => exact canonical_attestReportDone hs ..
  case registerWrite => exact canonical_registerWrite hs ..
  case bar2Write => exact canonical_bar2Write hs ..
  case bar2Read => exact canonical_bar2Read hs ..
  case packageStart => exact canonical_packageStart hs ..
  case powerLoss => exact canonical_powerLoss hs
  case watchdogExpiry => exact wf_coldReset hs _
  case coldPlateOverLimit => exact canonical_coldPlateOverLimit hs
  case seriesSample => exact canonical_seriesSample hs
  case pcSample => exact canonical_pcSample hs ..
  case inboundAccess => exact canonical_inboundAccess hs ..
  case collectiveFold => exact canonical_collectiveFold hs ..
  case messageDelivery => exact canonical_messageDelivery hs ..
  case linkTimeout => exact canonical_linkTimeout hs ..
  case portDown => exact hs
  case flitRetry => exact hs
  case unassignedOpcode => exact canonical_unassignedOpcode hs ..
  case fetchPastStateCode => exact canonical_fetchPastStateCode hs
  all_goals first | (cases hl; done) | cases hp

theorem canonical_exec {s : State} (hs : s.Inv) (i : Instr) : Canonical (exec i s) := by
  cases hl : laneWordOf i with
  | some w => exact canonical_lane hl hs
  | none =>
    cases hp : i.halves with
    | some p => exact canonical_halves hp hs
    | none => exact canonical_other hs hl hp

/-! ## Steps -/

@[simp] theorem endRunAt_mem (s : State) (core slot : Nat) : (s.endRunAt core slot).mem = s.mem := by
  unfold State.endRunAt
  split
  · simp
  · rfl

/-- A fetch that runs nothing leaves one of the two machines it is given, but for what faults and the ends of runs change. -/
theorem fetch_done {s t u : State} (h : s.fetch t = .done u) : u.mem = s.mem ∨ u.mem = t.mem := by
  unfold State.fetch at h
  split at h
  · cases h
    exact .inl rfl
  · simp only at h
    split at h
    · cases h
    · split at h
      · cases h
        exact .inl (endRunAt_mem ..)
      · split at h
        · cases h
        · split at h
          · cases h
            exact .inl (takeFault_mem ..)
          · split at h
            · cases h
            · cases h
              exact .inr (takeFault_mem ..)

theorem canonical_move {s : State} (hs : s.Inv) (m : Move) : Canonical (State.move m s) := by
  cases m with
  | issue core slot =>
    unfold State.move
    simp only
    have ht : (State.captureNext { s with cur := (core, slot) } core slot).Inv := wf_captureNext (by simpa using hs) core slot
    split
    · exact canonical_exec ht _
    · next u hu =>
      rcases fetch_done hu with hm | hm
      · exact inv_of_mem hm hs
      · exact inv_of_mem hm ht
  | event i =>
    unfold State.move
    simp only
    split
    · exact canonical_exec hs i
    · exact hs
  | tick cycles ns => exact wf_tick hs ..
  | evict core line => exact wf_evictLine hs ..
  | evictTlb index => exact hs
  | unknownCommand => exact wf_unknownCommand hs
  | startColl gk id => exact wf_startColl hs ..
  | refuse gk id => exact wf_peerAnswer hs ..
  | peerPoison gk id => exact wf_peerAnswer hs ..

@[simp] theorem nextMove_mem (s : State) : s.nextMove.2.mem = s.mem := by
  unfold State.nextMove
  split <;> rfl

/-- Settles O23: memory changes only by puts of bytes, by the removal of listed addresses and by a choice of those a reset keeps,
and each of them keeps the one form; every step is made of these, by cases of the word or the event. -/
theorem stepKeepsMemoryCanonical : Obligations.StepKeepsMemoryCanonical := by
  unfold Obligations.StepKeepsMemoryCanonical
  intro s t hs hstep
  have hmove := canonical_move (inv_of_mem (nextMove_mem s) hs) s.nextMove.1
  rw [step] at hstep
  rwa [hstep] at hmove

end Sys2Proof.Machine
end
